-- ==== Sys2Proof/Word.lean ====
section
/-!
DEFINITION. The word types of the device (R5, R6, R129) and the sparse tables that State is made of.
A table is a list of (number, value) pairs; a number it does not list reads as a default, and no entry
equals that default, so that equal contents are equal data.
-/
namespace Sys2Proof

/-- A byte. -/
abbrev Byte := BitVec 8

/-- A register word, 32 bits (R6). -/
abbrev Word := BitVec 32

/-- A scalar register, a counter value, a time (R129, R29). -/
abbrev DWord := BitVec 64

/-- A byte string, the byte at the lowest address first (R5). -/
abbrev Bytes := List Byte

/-- A sparse table from numbers to values. -/
abbrev Tbl (α : Type) := List (Nat × α)

/-- The value a table holds at a number; `d` gives what an unlisted number reads as. -/
def Tbl.get {α : Type} (d : α) : Tbl α → Nat → α
  | [], _ => d
  | (j, a) :: t, k => if j = k then a else Tbl.get d t k

/-- The table without any entry for a number. -/
def Tbl.erase {α : Type} : Tbl α → Nat → Tbl α
  | [], _ => []
  | (j, a) :: t, k => if j = k then Tbl.erase t k else (j, a) :: Tbl.erase t k

/-- The table with an entry put in at its place in ascending order. -/
def Tbl.insert {α : Type} : Tbl α → Nat → α → Tbl α
  | [], k, v => [(k, v)]
  | (j, a) :: t, k, v => if k ≤ j then (k, v) :: (j, a) :: t else (j, a) :: Tbl.insert t k v

/-- The table with a number set to a value; setting the default removes the entry. -/
def Tbl.set {α : Type} [DecidableEq α] (d : α) (t : Tbl α) (k : Nat) (v : α) : Tbl α :=
  if v = d then Tbl.erase t k else Tbl.insert (Tbl.erase t k) k v

/-- The table with a function applied to the value at a number. -/
def Tbl.upd {α : Type} [DecidableEq α] (d : α) (t : Tbl α) (k : Nat) (f : α → α) : Tbl α :=
  Tbl.set d t k (f (Tbl.get d t k))

/-- Canonical form: numbers strictly rising, no entry equal to the default. -/
def Tbl.wf {α : Type} [DecidableEq α] (d : α) : Tbl α → Bool
  | [] => true
  | [(_, a)] => decide (a ≠ d)
  | (j, a) :: (k, b) :: t => decide (a ≠ d) && decide (j < k) && Tbl.wf d ((k, b) :: t)

end Sys2Proof
end

