-- ==== Sys2Proof/Syntax.lean ====
section
/-!
DEFINITION. The commands of the device: one constructor of `Instr` for each row of spec/opcode_table.json, with the
operands the row needs. The table gives a row no fields, so the operands are the model's choice (log entry 2):
`fn` is a PCIe function (0 is PF0, n is VFn), `core` the number of a configuration window (64·y + x, R164),
`id` the acceptance number of a descriptor in flight, `part` a partition, `dt` the nanoseconds that pass before a
time-driven event, and data that the device reads from the host or the board arrives as an operand.
-/
namespace Sys2Proof

/-- One Nellek instruction, the fields of R175. -/
structure NInstr where
  op : Nat
  mod : Nat
  ra : Nat
  rb : Nat
  rc : Nat
  rd : Nat
  flags : BitVec 16
  imm : DWord
  deriving DecidableEq, Repr, Inhabited

/-- A fabric packet (R365): the header, the extension of a PARCEL (R367) and the payload. -/
structure Packet where
  type : Nat
  vc : Nat
  mcast : Bool
  stepValid : Bool
  attempt : Nat
  resync : Bool
  dst : Nat
  src : Nat
  psn : Nat
  flow : Nat
  hint : Nat
  job : Nat
  tag : Nat
  addr : BitVec 48
  step : BitVec 24
  epoch : BitVec 8
  tspec : Nat
  ext : Bytes
  payload : Bytes
  ecrc : Word
  deriving DecidableEq, Repr, Inhabited

/-- What of an MMA a lane compares (R113, R115): the tile pass, the block of it, the first row of the check group or the row of
the outlier term, the column, the term among those of its row, block and column. -/
structure LanePlace where
  outlier : Bool
  pass : Nat
  block : Nat
  row : Nat
  col : Nat
  term : Nat
  deriving DecidableEq, Repr, Inhabited

/-- What the reads of core SRAM of one instruction met: the SECDED code (R148), or a parcel that failed its check and
passed on a reread (R63). -/
inductive Ecc where
  | clean
  | corrected (words : Nat)
  | uncorrectable (addr : Nat)
  | parcelReread
  deriving DecidableEq, Repr

/-- What a read of HBM met (R309). -/
inductive ReadErr where
  | none
  | corrected
  | cleanLine
  | rereadOk
  | lost
  deriving DecidableEq, Repr

/-- What the duplicated adder rows gave (R307): agreement, a wrong row outvoted, three different results. -/
inductive AdderResult where
  | agree
  | outvoted (row : Nat)
  | allDiffer
  deriving DecidableEq, Repr

/-- The result of a core test (R279). -/
inductive TestResult where
  | pass
  | lanes (n : Nat)
  | fail
  deriving DecidableEq, Repr

/-- A read of host memory: the bytes, or an Unsupported Request, Completer Abort or poisoned completion (R462). -/
inductive HostRead where
  | data (b : Bytes)
  | failed
  deriving DecidableEq, Repr

/-- Where a management command came from (R511, R516). -/
inductive MgmtPath where
  | mctp
  | mailbox
  | udp (addr : Bytes)
  deriving DecidableEq, Repr

/-- A request that reaches a cache slice (R296): the partition it serves, its group (0 for the common bucket, R304),
the global address, its cache hint (R298). -/
structure MemReq where
  part : Nat
  group : Nat
  addr : DWord
  hint : Nat
  deriving DecidableEq, Repr

/-- A read of a function's registers: its offset and its width in bytes (R6). -/
structure RegRead where
  off : Nat
  width : Nat
  deriving DecidableEq, Repr

/-- What a LINK flit reports beside its acknowledgement: the credit counts of the VCs (R364) and the codewords that the receiving
port's FEC decoder corrected since the last one (R390). -/
structure LinkReport where
  creds : List Nat
  corrected : Nat
  deriving DecidableEq, Repr

/-- A collective burst as it is staged, and whether a reread passes where the first read of it fails its check (R63). -/
structure StagedBurst where
  pkt : Packet
  reread : Bool
  deriving DecidableEq, Repr

/-- The commands. -/
inductive Instr where
  -- Register accesses (00, 05)
  | bar0UnsupportedAccess (fn off width : Nat) (write : Bool)
  | registerWrite (fn off width : Nat) (value : DWord)
  | latchedRead (fn : Nat) (read : RegRead)
  -- Device organisation (01)
  | coreRemap (core : Nat)
  | enterIdle
  -- Control core (05, 06)
  | sop (core : Nat)
  | smovi (core : Nat)
  | sld (core : Nat) (ecc : Ecc)
  | sst (core : Nat)
  | sid (core : Nat)
  | loop (core : Nat)
  | endloop (core : Nat)
  | br (core : Nat)
  | bankswap (core : Nat)
  | halt (core : Nat)
  | haltFault (core : Nat)
  | issuePastEnd (core : Nat)
  | ewait (core : Nat)
  | wait (core : Nat)
  | waitVerdict (core : Nat)
  | sigControlCore (core : Nat)
  | sigXf (core : Nat)
  | aspush (core : Nat)
  | xferStore (core : Nat)
  | xferLoad (core : Nat)
  | xferAddf (core : Nat)
  | xferAddi (core : Nat)
  | xferPstore (core : Nat)
  | xferPload (core : Nat)
  | xferRowcast (core : Nat)
  | xferColcast (core : Nat)
  | mma (core : Nat)
  | wld (core : Nat)
  | wldm (core : Nat)
  | nrw (core : Nat)
  | dnrw (core : Nat)
  | vop (core : Nat)
  | red (core : Nat)
  -- Engines (05)
  | engineStart (core engine : Nat) (ecc : Ecc)
  | engineCompletion (core engine : Nat)
  | coreHalted (core : Nat)
  | checkLaneDisagree (core array : Nat) (place : LanePlace) (sums : List Int) (lane : Int)
  | checkLaneVote (core array : Nat) (sums : List Int)
  | maChkClear (fn core array : Nat)
  | injArrayMa0 (fn core : Nat)
  | injArrayMa1 (fn core : Nat)
  | injLaneMa0 (fn core : Nat)
  | injLaneMa1 (fn core : Nat)
  | coreFaultClear (fn core : Nat)
  -- Loading and starting programs (05, 06)
  | loadProgram (id : Nat)
  | loadProgramDone (dt id : Nat) (object : HostRead)
  | startStream (id : Nat)
  -- Descriptors (15, 11)
  | descriptorFetch (dt ring : Nat) (bytes : Bytes)
  | notBeforeReached (dt id : Nat)
  | descriptorComplete (dt id : Nat)
  | copy (id : Nat) (host : HostRead)
  | fill (id : Nat)
  | fence (id : Nat)
  | syncSignal (id : Nat)
  | syncWait (id : Nat)
  -- Steps, governor, Slipway (07, 08, 09)
  | stepBegin (id : Nat)
  | stepCommit (id : Nat)
  | stepCommitted (dt part : Nat)
  | governorRecord (part : Nat)
  | govTWrite (fn part : Nat) (grad : Bool) (value : Word)
  | attemptEnd (dt part : Nat)
  | attemptEndConfirm (dt part : Nat)
  | attemptStart (dt part : Nat)
  | replayNotice (port : Nat) (pkt : Packet)
  | digestList (port : Nat) (pkt : Packet)
  | reloadReq (port : Nat) (pkt : Packet)
  | reloadDone (port : Nat) (pkt : Packet)
  | reloadDeadline (dt part : Nat)
  | digestFold (part : Nat)
  | digestDeadline (dt part : Nat)
  | siteCheckDone (dt site : Nat) (agree : Bool) (result : TestResult)
  | coreTestStart (site : Nat)
  | coreTestDone (dt site : Nat) (result : TestResult)
  | replayStep (id : Nat)
  | orderedCompareFold (part : Nat)
  | digest (id : Nat)
  | selftest (id : Nat)
  | selftestDone (dt id : Nat) (results : List TestResult)
  -- Memory system (10)
  | memoryRead (req : MemReq) (len : Nat) (err : ReadErr)
  | memoryWrite (req : MemReq) (data : Bytes)
  | memoryAdd (req : MemReq) (fp : Bool) (data : Bytes) (res : AdderResult)
  | stackFailure (stack : Nat)
  | regulatorInterval (dt : Nat)
  | hbmRefresh (dt stack : Nat)
  | scrub (dt stack : Nat) (err : ReadErr)
  | rpcFetchDone (part page : Nat) (ok : Bool)
  | rpcInval (fn part : Nat)
  -- Mesh and synchronisation (11)
  | meshFlitRetry (dt link : Nat)
  | signalApply (n : Nat)
  | waitRequest (n : Nat)
  | waitDeadline (dt n : Nat)
  | waitBusyResend (dt n : Nat)
  | remoteWaitGrace (dt n : Nat)
  -- Fabric (12)
  | laneFailed (port lane : Nat)
  | lane (port op failed width handshake : Nat)
  | codewordUncorrectable (port cseq : Nat)
  | link (port ackCseq : Nat) (resend : Bool) (report : LinkReport)
  | time (dt port : Nat) (time : DWord) (frac plane quality : Nat)
  | timeOkExpiry (dt port : Nat)
  | delayMeasure (dt port : Nat)
  | delayResp (dt port : Nat) (t1 t2 t3 : DWord)
  | param (port plane role node : Nat) (creds : List Nat)
  | portSignalDetect (port : Nat)
  | portTrainDone (port : Nat) (failed : BitVec 17)
  | portAlignDone (port : Nat)
  | portUp (port : Nat)
  | portStateTimeout (dt port : Nat)
  | portRetry (dt port : Nat)
  | portLossOfSignal (dt port lanes : Nat)
  | creditStallTimeout (dt port : Nat)
  | portEnWrite (fn : Nat) (value : Word)
  | readPacket (port : Nat) (pkt : Packet)
  | writePacket (port : Nat) (pkt : Packet)
  | addfPacket (port : Nat) (pkt : Packet)
  | addiPacket (port : Nat) (pkt : Packet)
  | parcelPacket (port : Nat) (pkt : Packet)
  | signalPacket (port : Nat) (pkt : Packet)
  | waitPacket (port : Nat) (pkt : Packet)
  | ack (port : Nat) (pkt : Packet)
  | readData (port : Nat) (pkt : Packet)
  | nak (port : Nat) (pkt : Packet)
  | verdict (port : Nat) (pkt : Packet)
  | ackTimeout (dt node flow vc : Nat)
  | destinationRetry (dt node : Nat)
  | heldPacketTimeout (dt n : Nat)
  | heldReplyTimeout (dt node flow vc psn : Nat)
  -- Collectives (13)
  | collective (id : Nat)
  | collectiveFused (id : Nat)
  | collectiveArm (dt id : Nat)
  | scratchSlotGrant (id : Nat)
  | join (port : Nat) (pkt : Packet)
  | window (port : Nat) (pkt : Packet)
  | collData (port : Nat) (burst : StagedBurst)
  | collEnd (port : Nat) (pkt : Packet)
  | missingTimer (dt id : Nat)
  | missing (port : Nat) (pkt : Packet)
  | done (port : Nat) (pkt : Packet)
  | result (port : Nat) (pkt : Packet)
  | abort (port : Nat) (pkt : Packet)
  | collectiveDeadline (dt id : Nat)
  -- Media ingest (14)
  | ingestSubmit (id : Nat)
  | sampleDispatch (dt part : Nat) (entry segment : HostRead)
  | sampleDone (pipe : Nat)
  | sampleWatchdog (dt pipe : Nat)
  | pipeKnownAnswerTest (dt pipe : Nat)
  | pipeTestDone (dt pipe : Nat) (pass : Bool)
  | bufferFilled (part slot : Nat)
  -- Host interface (15)
  | perstAssert
  | pcieLinkDown
  | flrVf (n : Nat)
  | flrPf0
  | pf0FlrTimeout (dt : Nat)
  | bar4Read (fn off len : Nat)
  | bar4Write (fn off : Nat) (data : Bytes)
  | doorbellSqTail (fn ring width : Nat) (value : Word)
  | doorbellCqHead (fn ring width : Nat) (value : Word)
  | coalesceTimeout (dt ring : Nat)
  | pcieL1Entry (dt : Nat)
  | ringEnable (fn ring : Nat)
  | ringDisable (fn ring : Nat)
  | ringDrained (ring : Nat)
  -- Partitions and recovery (16)
  | configPartition (id : Nat) (table : HostRead)
  | startPartition (id : Nat)
  | stopPartition (id : Nat)
  | drainDone (dt part : Nat)
  | drainTimeout (dt part : Nat)
  | checkpoint (id : Nat)
  | prtPartReset (fn : Nat) (value : Word)
  | prtWarmReset (fn : Nat) (value : Word)
  | prtColdReset (fn : Nat) (value : Word)
  | warmResetDone (dt : Nat)
  | warmResetTimeout (dt : Nat)
  | powerCycleIgnored (dt : Nat)
  | sysctlWatchdog (dt : Nat)
  -- Ferryman, power and clock (17)
  | junctionSample (dt : Nat) (temps : List Nat)
  | thermtripRelease (dt : Nat)
  | thermalStep (dt : Nat)
  | stackTempSample (dt : Nat) (temps : List Nat)
  | vinSample (dt millivolts milliamps : Nat)
  | vinRecovered (dt : Nat)
  | vauxSample (dt millivolts : Nat)
  | powerMean1ms (dt : Nat)
  | powerRecoveryStep (dt : Nat)
  | fastRecoveryStep (dt : Nat)
  | regulatorAdjust (dt domain marginMhz : Nat)
  | clockRaise (dt : Nat)
  | domainReport (dt : Nat)
  | errorCountSample (dt : Nat)
  | pwrlimNFall
  | pwrlimNRise
  | wakeN (dt : Nat)
  | pwrReqActive (fn : Nat)
  | pwrReqDeep (fn : Nat)
  | pwrReqStandby (fn : Nat)
  | enterDeep (dt : Nat)
  | wakeFromDeep (dt : Nat)
  | enterStandby (dt : Nat)
  | wakeFromStandby (dt : Nat)
  | vinWaitTimeout (dt : Nat)
  -- Management (17)
  | reportDatagram (dt : Nat)
  | rateLimitSecond (dt : Nat)
  | heartbeatDatagram (dt : Nat)
  | getStatus (path : MgmtPath) (body : Bytes)
  | getEvents (path : MgmtPath) (body : Bytes)
  | getJournal (path : MgmtPath) (body : Bytes)
  | setPower (path : MgmtPath) (body : Bytes)
  | reset (path : MgmtPath) (body : Bytes)
  | setLimit (path : MgmtPath) (body : Bytes)
  | setNet (path : MgmtPath) (body : Bytes)
  | setPtp (path : MgmtPath) (body : Bytes)
  | prepareSwap (path : MgmtPath) (body : Bytes)
  | arpRequest (target : Bytes)
  | neighbourSolicitation (target : Bytes)
  | icmpEcho (target : Bytes) (data : Bytes)
  | mctpControl (req : Bytes)
  | pldmDiscovery (req : Bytes)
  | pldmPlatform (req : Bytes) (readsEvent : Bool)
  | pldmFirmwareUpdate (component : Nat) (verifyComplete : Bool) (data : Bytes)
  | fwActivate (component : Nat)
  | ptpSync (dt : Nat) (t1 t2 : DWord)
  | ptpDelayResp (t3 t4 : DWord)
  | ptpLost (dt : Nat)
  | fuseWrite (dt : Nat)
  | fuseWriteDone (dt : Nat) (readBack : Bool)
  -- Board (18, 19)
  | vauxUp (dt : Nat) (straps : BitVec 7)
  | vauxLoss
  | vinUp (dt : Nat) (straps : BitVec 7) (fref : Bool) (stacksFailed : List Nat)
  | brdRstNFall
  | brdRstNRise (dt : Nat)
  | frefLoss
  | frefReturn
  -- SPDM, IDE and debug (18, 15)
  | getVersion (fn : Nat) (req : Bytes)
  | getCapabilities (fn : Nat) (req : Bytes)
  | negotiateAlgorithms (fn : Nat) (req : Bytes)
  | getDigests (fn : Nat) (req : Bytes)
  | getCertificate (fn slot off len : Nat)
  | challenge (fn slot : Nat) (req : Bytes)
  | getMeasurements (fn index : Nat) (req : Bytes)
  | keyExchange (fn : Nat) (req : Bytes)
  | finish (fn session : Nat) (req : Bytes)
  | endSession (fn session : Nat)
  | keyUpdate (fn session : Nat) (req : Bytes)
  | heartbeat (fn session : Nat)
  | chunkSend (fn seq : Nat) (last : Bool) (data : Bytes)
  | chunkGet (fn seq : Nat)
  | spdmSignatureDone (dt : Nat)
  | keyProg (fn session stream : Nat) (key : Bytes)
  | kSetStop (fn session stream : Nat)
  | dbgArm (fn : Nat)
  | dbgGo (fn : Nat)
  | pcieLinkTraining (rate width : Nat) (flit : Bool)
  | kSetGo (fn session stream : Nat)
  | reservedPacketType (port : Nat) (pkt : Packet)
  | cumulativeAck (dt node flow vc : Nat)
  deriving DecidableEq, Repr

end Sys2Proof
end

