-- ==== Sys2Proof/Decode.lean ====
section
/-!
DEFINITION. The command that a word spells. The table of operations gives no row any bits: the device has no command
words, its commands are register accesses, packets, descriptors and events. So no word spells a command (log entry 7).
-/
namespace Sys2Proof

/-- No row of the table has bits, so a word spells none of them. -/
def decodeTableWord (_nbits _w : Nat) : Option Instr := none

end Sys2Proof
end

