-- ==== Sys2Proof/Machine/Bits.lean ====
section
/-!
DEFINITION. Byte order, bit fields and sign of numbers and byte strings (R5), and small list helpers.
-/
namespace Sys2Proof.Machine

/-- The field [lo + n − 1 : lo] of a number (R5). -/
def bitsOf (v lo n : Nat) : Nat := v / 2 ^ lo % 2 ^ n

/-- Bit `i` of a number. -/
def bitOf (v i : Nat) : Bool := v / 2 ^ i % 2 == 1

/-- 1 or 0. -/
def b2n (b : Bool) : Nat := if b then 1 else 0

/-- A number with its field [lo + n − 1 : lo] replaced. -/
def setBits (v lo n x : Nat) : Nat := v - bitsOf v lo n * 2 ^ lo + x % 2 ^ n * 2 ^ lo

/-- The value of `n` bits read as two's complement. -/
def signed (n v : Nat) : Int := if v % 2 ^ n < 2 ^ (n - 1) then (v % 2 ^ n : Nat) else ((v % 2 ^ n : Nat) : Int) - 2 ^ n

/-- `n` bits of an integer in two's complement. -/
def wrapInt (n : Nat) (i : Int) : Nat := (i % (2 ^ n : Nat)).toNat

/-- Little-endian bytes of a number (R5). -/
def leBytes : Nat → Nat → Bytes
  | 0, _ => []
  | n + 1, v => BitVec.ofNat 8 v :: leBytes n (v / 256)

/-- The number of little-endian bytes (R5). -/
def leNat : Bytes → Nat
  | [] => 0
  | b :: t => b.toNat + 256 * leNat t

/-- `n` bytes at an offset of a string; past its end they are zero. -/
def sliceB (b : Bytes) (off n : Nat) : Bytes :=
  let t := (b.drop off).take n
  t ++ List.replicate (n - t.length) 0

/-- The little-endian number of `n` bytes at an offset. -/
def leAt (b : Bytes) (off n : Nat) : Nat := leNat (sliceB b off n)

/-- A string with bytes put in at an offset. -/
def putB (b : Bytes) (off : Nat) (d : Bytes) : Bytes := sliceB b 0 off ++ d ++ b.drop (off + d.length)

/-- Zero bytes. -/
def zeros (n : Nat) : Bytes := List.replicate n 0

/-- The first element of a list that a test accepts. -/
def findMin {α : Type} (key : α → Nat) : List α → Option α
  | [] => none
  | a :: t =>
    match findMin key t with
    | none => some a
    | some b => if key a ≤ key b then some a else some b

/-- A list cut into pieces of `n`; the number of pieces is given. -/
def chunks {α : Type} (n : Nat) : Nat → List α → List (List α)
  | 0, _ => []
  | k + 1, l => l.take n :: chunks n k (l.drop n)

/-- Association-list lookup with a default. -/
def assocD {κ α : Type} [DecidableEq κ] (d : α) (k : κ) : List (κ × α) → α
  | [] => d
  | (j, a) :: t => if j = k then a else assocD d k t

/-- A count that stops at a field's maximum. -/
def satTo (w n : Nat) : Nat := min n (2 ^ w - 1)

end Sys2Proof.Machine
end

