-- ==== Sys2Proof/Machine/Formats.lean ====
section
/-!
DEFINITION. Number formats and scales (02): exact numbers, rounding, overflow, the codes of every format.
-/
namespace Sys2Proof.Machine

/-- An exact number or a special value: `fin neg m e` is ±m·2^e. -/
inductive Num where
  | nan
  | inf (neg : Bool)
  | fin (neg : Bool) (m : Nat) (e : Int)
  deriving DecidableEq, Repr, Inhabited

/-- A natural number shifted left by an integer amount that is not negative. -/
def shl (m : Nat) (k : Int) : Nat := m * 2 ^ k.toNat

/-- floor(log2 (num / den)) for positive numbers. -/
def log2Frac (num den : Nat) : Int :=
  let l : Int := (num.log2 : Int) - den.log2
  if den * 2 ^ l.toNat ≤ num * 2 ^ (-l).toNat then l else l - 1

/-- Rounding to nearest, ties away from zero (R41), of num/den·2^e to `p` bits of significand, with the spacing of
exponent `emin` below 2^emin. The answer is (r, q), standing for r·2^q. R43 tests an FP32 or BF16 result for zero after it is rounded and
does not give the grid below the smallest normal: that this is the grid of the smallest normal is the model's choice (log entry 100). -/
def roundMag (p : Nat) (emin : Int) (num den : Nat) (e : Int) : Nat × Int :=
  if num = 0 then (0, emin) else
  let q := max (log2Frac num den + e) emin - ((p : Int) - 1)
  let n := num * 2 ^ (e - q).toNat
  let d := den * 2 ^ (q - e).toNat
  ((2 * n + d) / (2 * d), q)

/-- m·2^e ≤ n·2^f. -/
def magLe (m : Nat) (e : Int) (n : Nat) (f : Int) : Bool :=
  decide (m * 2 ^ (e - min e f).toNat ≤ n * 2 ^ (f - min e f).toNat)

/-- m·2^e < n·2^f. -/
def magLt (m : Nat) (e : Int) (n : Nat) (f : Int) : Bool := !magLe n f m e

/-- Signed value of a finite number in units of 2^f, exact when f is at most its exponent. -/
def finInt (neg : Bool) (m : Nat) (e f : Int) : Int :=
  let v : Int := shl m (e - f)
  if neg then -v else v

/-- The number i·2^e; `z` is the sign of a zero. -/
def numOfInt (i e : Int) (z : Bool) : Num := .fin (if i = 0 then z else decide (i < 0)) i.natAbs e

/-- Exact sum with the special values of IEEE 754; a zero sum is +0 unless both terms are −0. -/
def numAdd : Num → Num → Num
  | .nan, _ => .nan
  | _, .nan => .nan
  | .inf a, .inf b => if a = b then .inf a else .nan
  | .inf a, _ => .inf a
  | _, .inf b => .inf b
  | .fin a m e, .fin b n f =>
    let g := min e f
    numOfInt (finInt a m e g + finInt b n f g) g (a && b && m == 0 && n == 0)

/-- Exact product with the special values of IEEE 754. -/
def numMul : Num → Num → Num
  | .nan, _ => .nan
  | _, .nan => .nan
  | .inf a, .inf b => .inf (a != b)
  | .inf a, .fin b n _ => if n = 0 then .nan else .inf (a != b)
  | .fin a m _, .inf b => if m = 0 then .nan else .inf (a != b)
  | .fin a m e, .fin b n f => .fin (a != b) (m * n) (e + f)

/-- Negation. -/
def numNeg : Num → Num
  | .nan => .nan
  | .inf a => .inf (!a)
  | .fin a m e => .fin (!a) m e

/-- Magnitude. -/
def numAbs : Num → Num
  | .nan => .nan
  | .inf _ => .inf false
  | .fin _ m e => .fin false m e

/-- A zero of either sign. -/
def numIsZero : Num → Bool
  | .fin _ m _ => m == 0
  | _ => false

/-- A NaN. -/
def numIsNan : Num → Bool
  | .nan => true
  | _ => false

/-- An infinity. -/
def numIsInf : Num → Bool
  | .inf _ => true
  | _ => false

/-- Ordered comparison a < b; false when either is NaN. -/
def numLt : Num → Num → Bool
  | .nan, _ => false
  | _, .nan => false
  | .inf a, .inf b => a && !b
  | .inf a, .fin .. => a
  | .fin .., .inf b => !b
  | .fin a m e, .fin b n f => decide (finInt a m e (min e f) < finInt b n f (min e f))

/-- Equality of values; +0 equals −0, NaN equals nothing. -/
def numEq : Num → Num → Bool
  | .nan, _ => false
  | _, .nan => false
  | a, b => !numLt a b && !numLt b a

/-! ## The formats -/

/-- Format codes of R36. -/
abbrev fFP32 : Nat := 0
abbrev fBF16 : Nat := 1
abbrev fE4M3 : Nat := 2
abbrev fE5M2 : Nat := 3
abbrev fINT8 : Nat := 4
abbrev fE2M3 : Nat := 5
abbrev fE2M1 : Nat := 6
abbrev fE3M0 : Nat := 7
abbrev fINT4 : Nat := 8
abbrev fINT3 : Nat := 9
abbrev fINT2 : Nat := 10
abbrev fBIN1 : Nat := 11

/-- Element width in bits (R36). -/
def fmtWidth : Nat → Nat
  | 0 => 32 | 1 => 16 | 2 => 8 | 3 => 8 | 4 => 8 | 5 => 6 | 6 => 4 | 7 => 4 | 8 => 4 | 9 => 3 | 10 => 2 | 11 => 1 | _ => 0

/-- A narrow format (R36). -/
def fmtNarrow (c : Nat) : Bool := decide (2 ≤ c) && decide (c ≤ 11)

/-- The integer formats, in two's complement (R47, R49, R52). -/
def fmtIsInt (c : Nat) : Bool := c == fINT8 || c == fINT4 || c == fINT3 || c == fINT2

/-- Bits of significand, the hidden one included. Integer formats round to whole numbers. -/
def fmtPrec : Nat → Nat
  | 0 => 24 | 1 => 8 | 2 => 4 | 3 => 3 | 5 => 4 | 6 => 2 | 7 => 1 | _ => 9

/-- Exponent of the smallest normal (R47, R51, R52, R53). -/
def fmtEmin : Nat → Int
  | 0 => -126 | 1 => -126 | 2 => -6 | 3 => -14 | 5 => 0 | 6 => 0 | 7 => -3 | _ => 8

/-- The format maximum m·2^e (R36, R53). -/
def fmtMax : Nat → Nat × Int
  | 0 => (0xFFFFFF, 104) | 1 => (0xFF, 120) | 2 => (448, 0) | 3 => (57344, 0) | 4 => (127, 0) | 5 => (15, -1)
  | 6 => (6, 0) | 7 => (8, 0) | 8 => (7, 0) | 9 => (3, 0) | _ => (1, 0)

/-- The code of r·2^q, a value of the format: rounding has brought it onto the format's grid. -/
def fmtEncode (c : Nat) (neg : Bool) (r : Nat) (q : Int) : Nat :=
  let w := fmtWidth c
  if c == fBIN1 then b2n (!neg || r == 0) else
  if fmtIsInt c then wrapInt w (finInt neg r q 0) else
  let p := fmtPrec c
  let wide := c == fFP32 || c == fBF16
  let body : Nat :=
    if r = 0 then 0 else
    let l : Int := r.log2 + q
    if l < fmtEmin c then (if wide then 0 else r)
    else ((l - fmtEmin c + 1).toNat - 1) * 2 ^ (p - 1) + r * 2 ^ (p - 1) / 2 ^ r.log2
  let sign := neg && (wide || body != 0)
  b2n sign * 2 ^ (w - 1) + body

/-- The value of a code (R42, R43, R47 to R53); a narrow code of zero magnitude reads as +0 (R44). -/
def fmtDecode (c code : Nat) : Num :=
  let w := fmtWidth c
  let code := code % 2 ^ w
  if c == fBIN1 then .fin (code == 0) 1 0 else
  if fmtIsInt c then numOfInt (signed w code) 0 false else
  let p := fmtPrec c
  let neg := bitOf code (w - 1)
  let body := code % 2 ^ (w - 1)
  let ex := body / 2 ^ (p - 1)
  let mant := body % 2 ^ (p - 1)
  let base := fmtEmin c - ((p : Int) - 1)
  if (c == fFP32 || c == fBF16) && ex == 255 then (if mant = 0 then .inf neg else .nan) else
  if c == fE4M3 && body == 0x7F then .nan else
  if c == fE5M2 && ex == 31 then (if mant = 0 then .inf neg else .nan) else
  if ex = 0 then (if c == fFP32 || c == fBF16 then .fin neg 0 0 else .fin (neg && mant != 0) mant base)
  else .fin neg (2 ^ (p - 1) + mant) (base + (ex - 1))

/-- The NaN code a format writes; a format without one writes zero (R46, R50, R52, R53). -/
def fmtNan : Nat → Nat
  | 0 => 0x7FC00000 | 1 => 0x7FC0 | 2 => 0x7F | 3 => 0x7E | 11 => 1 | _ => 0

/-- The code of the largest finite value of a sign. -/
def fmtMaxCode (c : Nat) (neg : Bool) : Nat := fmtEncode c neg (fmtMax c).1 (fmtMax c).2

/-- A code written for a value, whether the value saturated, whether it counts as NaN. -/
structure Written where
  code : Nat
  sat : Bool := false
  nan : Bool := false
  deriving DecidableEq, Repr

/-- What overflow and infinite inputs write (R46); `prop` is the overflow mode PROP. -/
def writeInf (c : Nat) (prop neg : Bool) : Written :=
  if prop && (c == fE5M2 || c == fBF16 || c == fFP32) then
    { code := b2n neg * 2 ^ (fmtWidth c - 1) + (if c == fE5M2 then 0x7C else if c == fBF16 then 0x7F80 else 0x7F800000)
      sat := true }
  else if prop && c == fE4M3 then { code := 0x7F, sat := true, nan := true }
  else { code := fmtMaxCode c neg, sat := true }

/-- What a NaN input writes (R46). -/
def writeNan (c : Nat) (prop : Bool) : Written :=
  if c == fFP32 || c == fBF16 || c == fBIN1 || prop then { code := fmtNan c, nan := true }
  else { code := 0, nan := true }

/-- num/den·2^e written into a format: one rounding (R41), overflow and special values by R46, BIN1 by R50. -/
def writeFrac (c : Nat) (prop neg : Bool) (num den : Nat) (e : Int) : Written :=
  if c == fBIN1 then { code := b2n (!neg || num == 0) } else
  let r := roundMag (fmtPrec c) (fmtEmin c) num den e
  if magLt (fmtMax c).1 (fmtMax c).2 r.1 r.2 then writeInf c prop neg
  else { code := fmtEncode c neg r.1 r.2 }

/-- A number written into a format. -/
def writeNum (c : Nat) (prop : Bool) : Num → Written
  | .nan => writeNan c prop
  | .inf neg => writeInf c prop neg
  | .fin neg m e => writeFrac c prop neg m 1 e

/-- The FP32 value of a word. -/
def fp32Num (w : Nat) : Num := fmtDecode fFP32 w

/-- A number rounded to FP32 where overflow gives infinity (R110, R198). -/
def toFp32 (x : Num) : Nat := (writeNum fFP32 true x).code

/-- A number rounded to FP32 and read back. -/
def roundFp32 (x : Num) : Num := fp32Num (toFp32 x)

/-- An FP32 word that is positive, finite and normal, as a tensor scale of a narrow tensor must be (R40). -/
def scaleOk (w : Nat) : Bool := decide (0x00800000 ≤ w) && decide (w ≤ 0x7F7FFFFF)

/-- The value of a block scale code (R54); 0 for a zero block. -/
def se8 (e : Nat) : Num := if e = 0 then .fin false 0 0 else .fin false 1 ((e : Int) - 127)

/-- The value of an element (R39). -/
def elemNum (c : Nat) (ts : Num) (e code : Nat) : Num :=
  if e = 0 then .fin false 0 0 else numMul ts (numMul (se8 e) (fmtDecode c code))

/-- rts, the reciprocal of a tensor scale rounded to FP32 (R67). -/
def recipScale (ts : Nat) : Num :=
  match fp32Num ts with
  | .fin _ m e => fp32Num (writeFrac fFP32 false false 1 m (-e)).code
  | _ => .fin false 0 0

/-! ## Blocks and parcels (R57 to R62) -/

/-- Scale bytes per parcel, S of R59. -/
def parcelBlocks : Nat → Nat
  | 8 => 8 | 6 => 10 | 4 => 16 | 3 => 21 | 2 => 32 | 1 => 64 | _ => 1

/-- Bytes of a block (R59). -/
def blockBytes (w : Nat) : Nat := 4 * w

/-- The 32 element codes of a block (R58). -/
def unpackBlock (w : Nat) (b : Bytes) : List Nat :=
  let v := leNat b
  (List.range 32).map fun i => bitsOf v (w * i) w

/-- The bytes of a block (R58). -/
def packBlock (w : Nat) (codes : List Nat) : Bytes :=
  leBytes (blockBytes w) (codes.reverse.foldl (fun a c => a * 2 ^ w + c) 0)

/-- The scale field of a parcel burst, padded to a multiple of 4 (R64). -/
def burstScales (w : Nat) : Nat := (parcelBlocks w + 3) / 4 * 4

end Sys2Proof.Machine
end

