-- ==== Sys2Proof/Machine/Hash.lean ====
section
/-!
DEFINITION. CRC-32C with the parameters of R62, and SHA-256 (R205, R526).
-/
namespace Sys2Proof.Machine

/-- One bit of the reflected CRC division; 0x82F6_3B78 is the polynomial of R62 reflected. -/
def crcBit (c : BitVec 32) : BitVec 32 :=
  if c.getLsbD 0 then (c >>> 1) ^^^ 0x82F63B78 else c >>> 1

/-- One byte of the CRC. -/
def crcByte (c : BitVec 32) (b : Byte) : BitVec 32 :=
  Nat.repeat crcBit 8 (c ^^^ b.zeroExtend 32)

/-- CRC-32C of a byte string (R62). -/
def crc32c (b : Bytes) : Word := (b.foldl crcByte 0xFFFFFFFF) ^^^ 0xFFFFFFFF

/-- The first 64 primes, from which SHA-256 takes its constants. -/
def shaPrimes : List Nat :=
  (List.range 312).filter fun n => decide (1 < n) && [2, 3, 5, 7, 11, 13, 17].all fun d => n == d || n % d != 0

/-- The first 32 bits of the fractional part of the `k`-th root of a number below 512. -/
def fracRoot (k p : Nat) : Nat :=
  (List.range 40).foldr (fun b x => if (x + 2 ^ b) ^ k ≤ p * 2 ^ (32 * k) then x + 2 ^ b else x) 0 % 2 ^ 32

/-- Round constants of SHA-256, from cube roots. -/
def shaRounds : List Word := shaPrimes.map fun p => BitVec.ofNat 32 (fracRoot 3 p)

/-- Initial hash value of SHA-256, from square roots. -/
def shaInit : List Word := (shaPrimes.take 8).map fun p => BitVec.ofNat 32 (fracRoot 2 p)

/-- Big-endian 32-bit words of a byte string. -/
def beWords : Bytes → List Word
  | a :: b :: c :: d :: t => (a ++ b ++ c ++ d : BitVec 32) :: beWords t
  | _ => []

/-- The sum modulo 2 of a word turned right by each of some distances. -/
def turns (l : List Nat) (x : Word) : Word := l.foldl (fun a n => a ^^^ x.rotateRight n) 0

/-- The message schedule, newest word first, extended by one word. -/
def shaExtend (w : List Word) : List Word :=
  let old (i : Nat) : Word := w.getD (i - 1) 0
  (old 16 + (turns [7, 18] (old 15) ^^^ old 15 >>> 3) + old 7 + (turns [17, 19] (old 2) ^^^ old 2 >>> 10)) :: w

/-- One round of the compression function on the eight working variables; `x` is the round's constant plus its schedule word. -/
def shaRound (v : List Word) (x : Word) : List Word :=
  let at_ (i : Nat) : Word := v.getD i 0
  let choice := (at_ 4 &&& at_ 5) ||| (~~~at_ 4 &&& at_ 6)
  let most := (at_ 0 &&& (at_ 1 ||| at_ 2)) ||| (at_ 1 &&& at_ 2)
  let into := at_ 7 + x + choice + turns [6, 11, 25] (at_ 4)
  (into + most + turns [2, 13, 22] (at_ 0)) :: v.take 3 ++ (at_ 3 + into) :: (v.drop 4).take 3

/-- One 64-byte block. -/
def shaBlock (h : List Word) (blk : Bytes) : List Word :=
  let w := (Nat.repeat shaExtend 48 (beWords blk).reverse).reverse
  List.zipWith (· + ·) h ((List.zipWith (· + ·) shaRounds w).foldl shaRound h)

/-- The padded message. -/
def shaPad (b : Bytes) : Bytes :=
  let n := b.length
  b ++ [0x80] ++ zeros ((119 - n % 64) % 64) ++ (leBytes 8 (8 * n)).reverse

/-- SHA-256 of a byte string. -/
def sha256 (b : Bytes) : BitVec 256 :=
  let p := shaPad b
  let h := (chunks 64 (p.length / 64) p).foldl shaBlock shaInit
  BitVec.ofNat 256 (h.foldl (fun a w => a * 2 ^ 32 + w.toNat) 0)

/-- The 32 bytes of a hash, the most significant first. -/
def hashBytes (h : BitVec 256) : Bytes := (leBytes 32 h.toNat).reverse

end Sys2Proof.Machine
end

