-- ==== Sys2Proof/Machine/Narrow.lean ====
section
/-!
DEFINITION. The narrowing unit's arithmetic (03): rotation, outliers, scale choice, packing, records, statistics,
verification of a parcel at its consumer and dequantisation.
-/
namespace Sys2Proof.Machine

/-! ## Rotation (R75, R76, R96) -/

/-- The sign word of block `j` (R75). -/
def signWord (seed j : Nat) : Nat :=
  let z := (seed + (j + 1) * 0x9E3779B97F4A7C15) % 2 ^ 64
  let z := (z ^^^ z >>> 30) * 0xBF58476D1CE4E5B9 % 2 ^ 64
  let z := (z ^^^ z >>> 27) * 0x94D049BB133111EB % 2 ^ 64
  (z ^^^ z >>> 31) % 2 ^ 32

/-- Parity of the number of ones in the low five bits. -/
def parity5 (v : Nat) : Bool := bitOf v 0 ^^ bitOf v 1 ^^ bitOf v 2 ^^ bitOf v 3 ^^ bitOf v 4

/-- Values paired with their positions. -/
def indexed {α : Type} (l : List α) : List (Nat × α) := (List.range l.length).zip l

/-- Row `i` of the 32-point Sylvester Hadamard matrix applied to a block, exactly. -/
def hadRow (i : Nat) (x : List Num) : Num :=
  match (indexed x).map (fun p => if parity5 (i &&& p.1) then numNeg p.2 else p.2) with
  | [] => .fin false 0 0
  | a :: t => t.foldl numAdd a

/-- The FP32 constant 0x3E35_04F3 of R76. -/
def rotC : Num := fp32Num 0x3E3504F3

/-- d_k x_k of a block (R75). -/
def applySigns (sw : Nat) (x : List Num) : List Num := (indexed x).map fun p => if bitOf sw p.1 then numNeg p.2 else p.2

/-- A rounding point inside the unit (R41, R43, R46): infinite and NaN values pass, a finite one that overflows
follows the mode. The second part says that it overflowed. -/
def unitRound (prop : Bool) : Num → Num × Bool
  | .fin n m e =>
    let w := writeFrac fFP32 prop n m 1 e
    (fp32Num w.code, w.sat)
  | x => (x, false)

/-! ## One block (R74) -/

/-- The parameters of one output copy (R72). -/
structure CopyPar where
  fmt : Nat
  prop : Bool
  ts : Nat
  rot : Bool
  seed : Nat
  k : Nat
  tau : Nat
  deriving DecidableEq, Repr

/-- A narrowed block: scale, codes, outliers (position, BF16), and its counts. -/
structure NBlock where
  scale : Nat
  codes : List Nat
  outl : List (Nat × Nat)
  dropped : Bool
  sat : Bool
  nan : Nat
  outlElems : Nat
  deriving DecidableEq, Repr

/-- τ clamped to 2.0 to 64.0, a NaN read as 8.0 (R72). -/
def clampTau (t : Nat) : Num :=
  match fp32Num t with
  | .nan => .fin false 1 3
  | x => if numLt x (.fin false 1 1) then .fin false 1 1 else if numLt (.fin false 1 6) x then .fin false 1 6 else x

/-- Finite values with their positions put in by magnitude, largest first, equal ones by ascending position (R78). -/
def insertMag (p : Nat × Num) : List (Nat × Num) → List (Nat × Num)
  | [] => [p]
  | q :: t => if numLt (numAbs q.2) (numAbs p.2) then p :: q :: t else q :: insertMag p t

/-- A finite value. -/
def numFinite : Num → Bool
  | .fin .. => true
  | _ => false

/-- Positions of the outlier candidates of a block (R78), ascending. -/
def outlierPos (k : Nat) (tau : Num) (y : List Num) : List Nat :=
  if k = 0 then [] else
  let ord := ((indexed y).filter fun p => numFinite p.2).foldl (fun l p => insertMag p l) []
  let r := match ord[k]? with
    | some p => numAbs p.2
    | none => .fin false 0 0
  let c := ((ord.take k).filter fun p => numLt (numMul tau r) (numAbs p.2)).map Prod.fst
  (List.range 32).filter fun i => c.contains i

/-- Magnitude of a finite value as m·2^e. -/
def magOf : Num → Nat × Int
  | .fin _ m e => (m, e)
  | _ => (0, 0)

/-- The largest magnitude. -/
def maxMag (l : List Num) : Nat × Int :=
  l.foldl (fun a x => if magLt a.1 a.2 (magOf x).1 (magOf x).2 then magOf x else a) (0, 0)

/-- Scale choice (R85): the code and whether the block is marked saturated. `kept` as in R85, `outl` when the block has
outliers. -/
def chooseScale (fmt : Nat) (vals : List Num) (kept outl : Bool) : Nat × Bool :=
  let clampE := fun (a : Int) =>
    let e := 127 + a
    if e < 1 then (1, false) else if 254 < e then (254, true) else (e.toNat, false)
  if fmt == fBIN1 then
    match vals.foldl (fun s x => numAdd s (numAbs x)) (.fin false 0 0) with
    | .fin _ m e =>
      if m = 0 then (if kept then 0x7F else 0, false) else
      let a := log2Frac m vals.length + e
      -- mu ≥ 1.5·2^a, with mu = m·2^e / length
      let up := magLe (3 * vals.length) (a - 1) m e
      clampE (if up then a + 1 else a)
    | _ => (0, false)
  else
    let mx := maxMag vals
    if mx.1 = 0 then ((if kept then 0x7F else if outl then 1 else 0), false) else
    let f := fmtMax fmt
    let a : Int := (mx.1.log2 + mx.2) - (f.1.log2 + f.2)
    clampE (if magLe mx.1 mx.2 f.1 (f.2 + a) then a else a + 1)

/-- One block through stages 3 to 7 (R74 to R87). `x` holds 32 values and whether each is padding, `j` is the block's
place in its run, `free` the outlier slots left in its parcel. Padding enters stage 3 as zeros, and with rotation on its place
holds what the rotation gives there (log entry 101). A BIN1 block saturates only by the causes of R50, which are none of the
rotation's. -/
def narrowBlock (c : CopyPar) (rts : Num) (j free : Nat) (x : List (Num × Bool)) : NBlock :=
  let raw := x.map Prod.fst
  let st3 := if c.rot then
      let d := applySigns (signWord c.seed j) raw
      (List.range 32).map fun i => unitRound c.prop (numMul rotC (hadRow i d))
    else raw.map fun v => (v, false)
  let st4 := st3.map fun p => unitRound c.prop (numMul p.1 rts)
  let y := st4.map Prod.fst
  let k := if c.fmt == fBIN1 then 0 else c.k
  let cand := outlierPos k (clampTau c.tau) y
  let dropped := decide (free < cand.length)
  let out := if dropped then [] else cand
  let iy := indexed y
  let outl := (iy.filter fun p => out.contains p.1).map fun p => (p.1, writeNum fBF16 c.prop p.2)
  let rest := iy.filter fun p => !out.contains p.1
  let kept := rest.any fun p =>
    numIsInf p.2 || (numIsNan p.2 && c.prop && (c.fmt == fE4M3 || c.fmt == fE5M2))
  let sc := chooseScale c.fmt ((rest.map Prod.snd).filter numFinite) kept (!out.isEmpty)
  let up : Num := .fin false 1 (127 - (if sc.1 = 0 then 127 else sc.1 : Nat))
  let wr := iy.map fun p => if out.contains p.1 then { code := 0 } else writeNum c.fmt c.prop (numMul p.2 up)
  { scale := sc.1
    codes := wr.map Written.code
    outl := outl.map fun p => (p.1, p.2.code)
    dropped := dropped
    sat := sc.2 || (c.fmt != fBIN1 && st3.any Prod.snd) || (st4.any Prod.snd) || (outl.any fun p => p.2.sat) || (wr.any Written.sat) ||
      (rest.any fun p => numIsInf p.2)
    nan := ((wr.zip x).filter fun p => p.1.nan && !p.2.2).length
    outlElems := (out.filter fun i => !(x.getD i (.nan, true)).2).length }

/-! ## Parcels (R58, R60, R79 to R82) -/

/-- An outlier record (R81): DROP, and its slots (block, position, BF16) in order. -/
def outlRecord (drop : Bool) (slots : List (Nat × Nat × Nat)) : Bytes :=
  let body := leBytes 4 (slots.length + 8 * b2n drop) ++
    (slots.map fun p => leBytes 4 (p.2.2 + p.2.1 * 2 ^ 16 + p.1 * 2 ^ 21)).flatten ++ zeros (24 - 4 * slots.length)
  body ++ leBytes 4 (crc32c body).toNat

/-- A parcel as it lies in memory: data, scales, CRC, outlier record. -/
structure Parcel where
  data : Bytes
  scales : Bytes
  crc : Bytes
  outl : Bytes
  deriving DecidableEq, Repr

/-- A parcel from the blocks at its slots; a slot with none holds zero elements and scale 0x00 (R60), for BIN1, which has no
zero, zero bits (log entry 102). -/
def packParcel (w : Nat) (withOutl : Bool) (blk : List (Option NBlock)) : Parcel :=
  let data := (blk.map fun b => match b with
    | some n => packBlock w n.codes
    | none => zeros (blockBytes w)).flatten
  let data := data ++ zeros (256 - data.length)
  let scales := blk.map fun b => match b with
    | some n => BitVec.ofNat 8 n.scale
    | none => 0
  let slots := ((indexed blk).map fun p => match p.2 with
    | some n => n.outl.map fun o => (p.1, o.1, o.2)
    | none => []).flatten
  let drop := blk.any fun b => match b with
    | some n => n.dropped
    | none => false
  { data := data, scales := scales, crc := leBytes 4 (crc32c (data ++ scales)).toNat
    outl := if withOutl then outlRecord drop slots else [] }

/-- The blocks of one parcel narrowed in ascending order, each with the slots the earlier ones left (R79). -/
def narrowSlots (c : CopyPar) (rts : Num) : Nat → List (Option (Nat × List (Num × Bool))) → List (Option NBlock)
  | _, [] => []
  | free, none :: t => none :: narrowSlots c rts free t
  | free, some p :: t =>
    let b := narrowBlock c rts p.1 free p.2
    some b :: narrowSlots c rts (free - b.outl.length) t

/-- Statistics of one copy (R92). -/
structure CopyStats where
  blocks : Nat := 0
  zero : Nat := 0
  sat : Nat := 0
  nan : Nat := 0
  outlBlocks : Nat := 0
  outlElems : Nat := 0
  drops : Nat := 0
  deriving DecidableEq, Repr

/-- A block added to the statistics (R87). -/
def statsAdd (s : CopyStats) (b : NBlock) : CopyStats :=
  { blocks := s.blocks + 1
    zero := s.zero + b2n (b.scale == 0)
    sat := s.sat + b2n b.sat
    nan := s.nan + b.nan
    outlBlocks := s.outlBlocks + b2n (!b.outl.isEmpty)
    outlElems := s.outlElems + b.outlElems
    drops := s.drops + b2n b.dropped }

/-- The 32 elements of block `b` of a run, padding as zeros (R57). -/
def runBlock (run : List Num) (b : Nat) : List (Num × Bool) :=
  let e := ((run.drop (32 * b)).take 32).map fun x => (x, false)
  e ++ List.replicate (32 - e.length) (.fin false 0 0, true)

/-- The runs of a tensor given by rows: its rows, or its columns when BLOCK_DIM is 1 (R187). -/
def runsOf (byCols : Bool) (rows : List (List Num)) (cols : Nat) : List (List Num) :=
  if byCols then (List.range cols).map fun j => rows.map fun r => r.getD j (.fin false 0 0) else rows

/-- The slots of a copy: for each slot up to the last parcel's end, the block of the run that lies there (R187). -/
def slotGrid (runs : List (List Num)) (nb pitch s : Nat) : List (Option (Nat × List (Num × Bool))) :=
  let last := if runs.isEmpty || nb == 0 then 0 else (runs.length - 1) * pitch + nb
  (List.range ((last + s - 1) / s * s)).map fun g =>
    let r := g / pitch
    let b := g % pitch
    if b < nb then (runs[r]?).map fun run => (b, runBlock run b) else none

/-- Parcels and statistics of one narrowed copy. `k` has been set to 0 where the destination has no outlier tensor. BLOCKS and
ZERO_BLOCKS count the blocks of runs, not the unused slots (log entry 102). -/
def narrowCopy (c : CopyPar) (runs : List (List Num)) (nb pitch : Nat) : List Parcel × CopyStats :=
  let w := fmtWidth c.fmt
  let s := parcelBlocks w
  let grid := slotGrid runs nb pitch s
  let rts := recipScale c.ts
  let k := if c.fmt == fBIN1 then 0 else c.k
  let ps := (chunks s (grid.length / s) grid).map fun ch => narrowSlots c rts 6 ch
  (ps.map fun p => packParcel w (k != 0) p, (ps.flatten.filterMap id).foldl statsAdd {})

/-- The running sum of squares (R91): a 53-bit significand, one rounding at each block. -/
def sumSquares (blocks : List (List (Num × Bool))) : Num :=
  blocks.foldl (fun tot b =>
    let bs := b.foldl (fun a p => if p.2 || !numFinite p.1 then a else numAdd a (numMul p.1 p.1)) (.fin false 0 0)
    match numAdd tot bs with
    | .fin _ m e => let r := roundMag 53 (-2000) m 1 e; .fin false r.1 r.2
    | x => x) (.fin false 0 0)

/-- The statistics record (R92). -/
def statsRecord (sumsq : Num) (layer cls : Nat) (dual rotated : Bool) (elements : Nat) (a b : CopyStats) : Bytes :=
  let w := writeNum fFP32 true sumsq
  leBytes 4 w.code ++ leBytes 2 layer ++ leBytes 1 cls ++ leBytes 1 (b2n dual + 2 * b2n rotated + 4 * b2n w.sat) ++
  ([elements, a.blocks, a.zero, a.sat, a.nan, a.outlBlocks, a.outlElems, a.drops, b.zero, b.sat, b.nan, b.outlBlocks,
    b.drops].map fun n => leBytes 4 (satTo 32 n)).flatten ++ zeros 4

/-- The most parcels open at once when blocks are packed in an order of slots (R88). -/
def openParcels (s : Nat) (order : List Nat) : Nat :=
  let total := fun p => (order.filter fun g => g / s == p).length
  (order.foldl (fun (st : List (Nat × Nat) × Nat) g =>
    let p := g / s
    let left := assocD (total p) p st.1
    let others := st.1.filter fun q => q.1 != p
    let most := max st.2 (others.length + 1)
    (if left ≤ 1 then others else (p, left - 1) :: others, most)) ([], 0)).2

/-- Slots in the sub-tile order of a dual NRW (R93), sub-tiles taken across the columns first: one block of each of up
to 32 runs. -/
def dualOrder (rows cols pitch : Nat) (second : Bool) : List Nat :=
  let tr := (rows + 31) / 32
  let tc := (cols + 31) / 32
  ((List.range tr).map fun i => ((List.range tc).map fun j =>
    if second then ((List.range 32).filter fun q => 32 * j + q < cols).map fun q => (32 * j + q) * pitch + i
    else ((List.range 32).filter fun q => 32 * i + q < rows).map fun q => (32 * i + q) * pitch + j).flatten).flatten

/-! ## The consumer (R56, R63, R83, R96) -/

/-- Outlier slots of a record (R81): block, position, BF16. -/
def recordSlots (r : Bytes) : List (Nat × Nat × Nat) :=
  ((List.range (min (leAt r 0 1 % 8) 6)).map fun n =>
    let s := leAt r (4 + 4 * n) 4
    (bitsOf s 21 6, bitsOf s 16 5, bitsOf s 0 16))

/-- Whether an outlier record is sound (R83). -/
def recordOk (fmt : Nat) (data r : Bytes) : Bool :=
  let w := fmtWidth fmt
  let head := leAt r 0 4
  let n := head % 8
  let sl := recordSlots r
  let keys := sl.map fun p => 32 * p.1 + p.2.1
  r.length == 32 && leAt r 28 4 == (crc32c (r.take 28)).toNat && decide (n ≤ 6) && head / 16 == 0 &&
  (sl.all fun p => decide (p.1 < parcelBlocks w)) &&
  ((List.range n).all fun i => leAt r (4 + 4 * i) 4 / 2 ^ 27 == 0) &&
  ((List.range 6).all fun i => decide (i < n) || leAt r (4 + 4 * i) 4 == 0) &&
  ((keys.zip keys.tail).all fun p => decide (p.1 < p.2)) &&
  (sl.all fun p => numIsZero (fmtDecode fmt
    ((unpackBlock w (sliceB data (blockBytes w * p.1) (blockBytes w))).getD p.2.1 0)))

/-- Whether a parcel passes its checks: CRC, scale code 0xFF, outlier record (R56, R63, R83). -/
def parcelOk (fmt : Nat) (withOutl : Bool) (p : Parcel) : Bool :=
  leNat p.crc == (crc32c (p.data ++ p.scales)).toNat && (p.scales.all fun s => s != 0xFF) &&
  (!withOutl || recordOk fmt p.data p.outl)

/-- Exact values of a block (R96): zero block, outlier slots, elements. -/
def blockValues (fmt ts scale : Nat) (codes : List Nat) (outl : List (Nat × Nat)) : List Num :=
  (indexed codes).map fun p =>
    if scale = 0 then .fin false 0 0 else
    match outl.find? fun o => o.1 == p.1 with
    | some o => numMul (fp32Num ts) (fmtDecode fBF16 o.2)
    | none => elemNum fmt (fp32Num ts) scale p.2

/-- The inverse rotation of a block, exact (R96). -/
def unrotate (seed j : Nat) (u : List Num) : List Num :=
  let sw := signWord seed j
  (List.range 32).map fun k =>
    let v := numMul rotC (hadRow k u)
    if bitOf sw k then numNeg v else v

end Sys2Proof.Machine
end

