-- ==== Sys2Proof/Config.lean ====
section
/-!
DEFINITION. What the spec leaves to the part or leaves open: constants with no body, so that no proof can
lean on a value of one. The free values are applied to a counter of State, so that each use gives a fresh one.
-/
namespace Sys2Proof

/-- A free bit string: bytes the spec calls unspecified (R18, R120, R309, R307, R411), applied to State's counter. -/
opaque Config.freeBits : (w : Nat) → Nat → BitVec w

/-- VOP MOD 10 to 13 (R197): the bits are the same on every D7 and within one unit in the last place; applied to the
operation and the FP32 operand. For RECIP and RSQRT the model bounds the result by R197. -/
opaque Config.vopFree : Nat → Word → Word

/-- Native operations that a Nellek instruction becomes (R201, R210): not documented, fixed by the loader version and the
instruction's 16 bytes. -/
opaque Config.nativeOps : Nat → Nat → Nat

/-- Which of its native operations a faulting instruction reports (R170, R206): loader version, instruction, cause. -/
opaque Config.faultOp : Nat → Nat → Nat → Nat

/-- SLH-DSA-SHA2-256s verification (R526, R536): public key, message, signature. -/
opaque Config.slhVerify : Bytes → Bytes → Bytes → Bool

/-- SLH-DSA-SHA2-128s signing by the security block (R531): private key, message. -/
opaque Config.slhSign : Bytes → Bytes → Bytes

/-- The vendor debug key of R536. -/
opaque Config.debugKey : Bytes

/-- Values fixed by e-fuse (R557): the metal revision (its low bit: METAL is 0 or 1) and the serial number. -/
opaque Config.devRev : Word
opaque Config.serial : DWord

/-- The management port's MAC address from e-fuse (R512). -/
opaque Config.mac : Bytes

/-- The endpoint ID that an MCTP control request assigns (R513), by the MCTP base specification; `none` for other requests. -/
opaque Config.mctpAssigns : Bytes → Option Nat

/-- The unique device secret and keys derived from it (R532): key slot and the measurements it depends on. -/
opaque Config.deriveKey : Nat → Bytes → Bytes

/-- Certificate chain bytes of a slot (R532), given the measurements the chain carries. -/
opaque Config.certChain : Nat → Bytes → Bytes

/-- ML-KEM-768 encapsulation and the session keys of R531: exchange data and a random number. -/
opaque Config.kem : Bytes → Nat → Bytes

/-- AES-256-GCM protection of a message in a session (R531): key, sequence number, message. -/
opaque Config.seal : Bytes → Nat → Bytes → Bytes

/-- Bodies of standards outside the spec (MCTP, PLDM, SPDM field layouts): protocol number, request, device facts. -/
opaque Config.standardReply : Nat → Bytes → Bytes → Bytes

/-- A decoded picture of a segment, by the video standards R426 names: codec, elementary stream bytes, place in decode
order; `none` past the last picture. The numbers are read as `Picture` (Machine/Picture.lean) says. -/
opaque Config.decodePicture : Nat → Bytes → Nat → Option (List Nat)

/-- Hash of the boot ROM (R530, measurement 1). -/
opaque Config.bootRomHash : BitVec 256

/-- The bytes that measurements 5 and 6 hash (R530), whose layout the spec does not give: of the security state, its
numbers in R530's order; of the repair records, class and thing of each. -/
opaque Config.securityBytes : List Nat → Bytes
opaque Config.recordBytes : List (Nat × Nat) → Bytes

/-- The loader version of the running system controller image (R206, R557). -/
opaque Config.loaderVersion : Nat → Nat

/-- What the video standards of R426 say of a stream: 0 decodes, 1 a syntax error or missing reference, 2 outside R426. -/
opaque Config.decodeStatus : Nat → Bytes → Nat

/-- The frame duration that a stream's timing information gives (R425), in 90 kHz ticks; 0 when it carries none. -/
opaque Config.frameDuration : Nat → Bytes → Nat

/-- The row of a stack that a stack offset lies in, and the bank group of a row: the map below the pseudo-channel is
internal to the controller (R292). -/
opaque Config.rowOf : Nat → Nat
opaque Config.groupOf : Nat → Nat

end Sys2Proof
end

