-- ==== Sys2Proof/Machine/State.lean ====
section
/-!
DEFINITION. The state of the device as plain data: everything the spec gives it (INVENTORY.md, State). Every table is
a sparse table in canonical form (Word.lean); each structure's default field values are its values right after a cold
boot (stage 6 of R528), and State.reset is the state made of them. Values the spec does not give are named in log
entry 5.
-/
namespace Sys2Proof.Machine

/-! ## Outcomes -/

/-- The status codes of R10. -/
inductive Status where
  | ok | okRetried | okReplayed | descMalformed | descBounds | descNotPermitted | imemBusy | xlateFailed
  | checksumFail | checkTransient | coreRetired | digestMismatch | collMismatch | collTimeout | collNan
  | syncTimeout | syncSaturated | partStopped | partReset | linkDegraded | remoteUnreachable
  | ingestStreamError | ingestUnsupported | stashRecompute | wideningStorm | deviceResetting | internalError
  deriving DecidableEq, Repr, Inhabited

/-- Why the machine stops: no command of the block does. What the spec leaves open of an effect is a free value (R181), and a misuse is
refused or reported as its rule says. -/
inductive Fault where
  deriving DecidableEq, Repr

/-- Why a command has no meaning in the model. -/
inductive Refusal where
  /-- Raised by an arm of `exec` whose command is not modelled yet. Safe. -/
  | notModelled (mnemonic : String)
  deriving DecidableEq, Repr

/-! ## What the device sends -/

/-- A message that leaves the device, at one of its interfaces. -/
inductive Out where
  /-- A write to host memory for a function (R455, R468, R462). -/
  | hostWrite (fn : Nat) (addr : DWord) (data : Bytes)
  /-- An MSI-X message (R469, R470). -/
  | msix (fn vector : Nat)
  /-- A completion of a BAR read with data. -/
  | readReply (fn : Nat) (data : Bytes)
  /-- An Unsupported Request (R6, R448). -/
  | unsupported (fn : Nat)
  /-- A fabric packet on a port (R365). -/
  | packet (port : Nat) (pkt : Packet)
  /-- A link control flit on a port: its 64 bytes (R361). -/
  | flit (port : Nat) (data : Bytes)
  /-- A UDP datagram to a collector (R509): address, next hop (R517), port, contents. -/
  | datagram (dest via : Bytes) (port : Nat) (data : Bytes)
  /-- The reply to a Ferryman command (R517): code, result, reply body. -/
  | mgmtReply (path : MgmtPath) (code result : Nat) (body : Bytes)
  /-- A frame on the management network other than a report: ARP 0, neighbour advertisement 1, echo reply 2 (R512). -/
  | netFrame (kind : Nat) (data : Bytes)
  /-- An MCTP message: type (R513) and contents. -/
  | mctp (type : Nat) (data : Bytes)
  /-- A response in a function's DOE mailbox (R531, R534). -/
  | doe (fn : Nat) (data : Bytes)
  /-- A request for the PCIe L1 link state (R443). -/
  | requestL1
  /-- The memory system's answer to a request of MEMORY_READ, MEMORY_WRITE or MEMORY_ADD (R296). -/
  | memData (data : Bytes)
  | memAck
  | memRefused
  deriving DecidableEq, Repr

/-! ## Cores (04, 05, 06) -/

/-- The run states of R158. -/
inductive CoreRun where
  | idle | running | halted | faulted | stopped
  deriving DecidableEq, Repr, Inhabited

/-- What the control core waits for. -/
inductive Stall where
  | none
  /-- EWAIT on an engine until its completion count is at least a value (R133). -/
  | ewait (engine : Nat) (value : DWord)
  /-- WAIT whose verdict has not come (R182). -/
  | wait
  /-- The verdict of a WAIT has reached the core: true when satisfied, otherwise the status it ends with (R342). -/
  | verdict (ended : Status) (node : Nat)
  deriving DecidableEq, Repr, Inhabited

/-- An open loop level (R140): first instruction of the body, latched count, iteration index. -/
structure LoopLevel where
  start : Nat
  count : Nat
  iter : Nat
  deriving DecidableEq, Repr

/-- An address-stream entry (R136): the next address, the addresses left, the stride. -/
structure StreamEntry where
  next : Int
  left : Nat
  stride : Int
  deriving DecidableEq, Repr

/-- An instruction in an engine queue: where it was issued from and the register values it names (R131). -/
structure Queued where
  pc : Nat
  bank : Nat
  gen : BitVec 16
  ins : NInstr
  args : List DWord
  /-- Core SRAM address of its object's descriptor table; the instruction's first native operation (R206). -/
  tbase : Nat := 0
  native : Nat := 0
  deriving DecidableEq, Repr

/-- One block of a narrow operand as an array holds it (R97): scale code, element codes, outliers (position, BF16). -/
structure BlockData where
  scale : Nat
  codes : List Nat
  outl : List (Nat × Nat)
  deriving DecidableEq, Repr

/-- A stationary tile: format, and for each of 32 columns its blocks along K (R99). -/
structure Tile where
  fmt : Nat
  cols : List (List BlockData)
  deriving DecidableEq, Repr

/-- A slab as it entered an array (R99, R123): its computed rows of A, each with its blocks along K. -/
abbrev Slab := List (Nat × List BlockData)

/-- One tile pass of an MMA (R105): column tile, tile along K, the buffer that its slabs read and what that holds, the slabs. -/
structure TilePass where
  nt : Nat
  kt : Nat
  buf : Nat
  tile : Option Tile
  slabs : List Slab
  deriving DecidableEq, Repr

/-- A disagreement that waits for its re-run (R118, R119): what the array has, what the other side has. Run sums count in units of
2^(chkUnit), outlier terms in units of 2^-280. -/
structure Vote where
  place : LanePlace
  sums : List Int
  check : Int
  deriving DecidableEq, Repr

/-- What a vote has promoted in place of what the array first had (R118). -/
structure Fix where
  place : LanePlace
  sums : List Int
  deriving DecidableEq, Repr

/-- An instruction an engine has started and not completed: remote requests not yet answered, the result of a RED, and,
while it waits on an empty address stream (R137), the addresses it has taken and the descriptors it read at its start
(R189). An MMA keeps what its feeders have streamed until it completes (R105), what votes have replaced, the slabs left out
and the votes counted (R124), and the passes whose verdicts are all in (R101), with the mask it read at its start (R123). -/
structure Running where
  q : Queued
  waiting : Nat := 0
  result : Option DWord := none
  hungry : Bool := false
  taken : Tbl (List Int) := []
  tds : List Bytes := []
  passes : List TilePass := []
  fixes : List Fix := []
  skipped : Nat := 0
  transients : Nat := 0
  laneFaults : Nat := 0
  verdicts : Nat := 0
  mask : Bytes := []
  deriving DecidableEq, Repr

/-- One instruction bank (R149): the Nellek instructions of the object it holds, its entry points, the object's hash. -/
structure Bank where
  valid : Bool := false
  gen : BitVec 16 := 0
  code : List NInstr := []
  entries : List Nat := []
  tbase : Nat := 0
  hash : BitVec 256 := 0
  order : Nat := 0
  deriving DecidableEq, Repr

/-- One logical core. -/
structure Core where
  run : CoreRun := .idle
  /-- Owner and identity values (R129, R166). -/
  part : Nat := 0
  group : Nat := 0
  rank : Nat := 0
  size : Nat := 0
  /-- s0 to s31 and the registers a RED has yet to write (R143). -/
  sregs : Tbl DWord := []
  locked : List Nat := []
  /-- Index of the next Nellek instruction; `openEntry` when the core was started at an offset with none (R181). -/
  pc : Nat := 0
  openEntry : Bool := false
  stall : Stall := .none
  halting : Bool := false
  loops : List LoopLevel := []
  streams : Tbl (List StreamEntry) := []
  queues : Tbl (List Queued) := []
  cur : Tbl (List Running) := []
  counts : Tbl DWord := []
  /-- Core SRAM by byte address, accumulator entries by 16384·array + 32·row + column. -/
  sram : Tbl Byte := []
  acc : Tbl Word := []
  /-- Base in the free values of what unlisted SRAM bytes and accumulator entries hold once the core has moved to another
  site (R18); none before, when they hold 0. -/
  fresh : Option Nat := none
  /-- Stationary buffers, keyed 2·array + buffer. -/
  bufs : Tbl (Option Tile) := []
  votes : Tbl (Option Vote) := []
  /-- Re-run registers of each array (R100): up to 16 slabs of streaming operand with their scales, the oldest first. -/
  rerun : Tbl (List Slab) := []
  /-- Armed injections of R126: bits of CORE_MA_CTL. -/
  inj : BitVec 4 := 0
  chk0 : Word := 0
  chk1 : Word := 0
  bank0 : Bank := {}
  bank1 : Bank := {}
  active : Nat := 0
  /-- Accepted loads that still target a bank of this core: (descriptor, bank) (R152). -/
  loads : List (Nat × Nat) := []
  sramCe : Nat := 0
  fault : Word := 0
  faultPc : Word := 0
  faultInfo : Word := 0
  /-- Remote signals not yet acknowledged: signal numbers (R564); the next signal number (R368). -/
  sigsOut : List Nat := []
  sigNo : Nat := 0
  /-- Flows that carried a write of the transfer engine since its last signal to a node: (node, flow) (R335). -/
  flowsUsed : List (Nat × Nat) := []
  /-- Codes other than OK that its stream's completion may carry (R13). -/
  codes : List Status := []
  deriving DecidableEq, Repr

/-- Where a logical core lies (R15, R17, R19). -/
inductive Place where
  | natural
  | moved (site : Nat)
  | unmapped
  deriving DecidableEq, Repr

/-- The capture store of a site (R270): the re-run registers and the stationary buffer, with the format and the place of the
group that ended its MMA. -/
structure Capture where
  fmt : Nat
  place : LanePlace
  slabs : List Slab
  tile : Option Tile
  deriving DecidableEq, Repr

/-- A site check in progress (R270, R271): the captured group, the core it served, whether the core moved away. -/
structure SiteCheck where
  captured : Option Capture
  core : Nat
  part : Nat
  moved : Bool
  deriving DecidableEq, Repr

/-- A core site: number 600·die + 25·row + column. -/
structure Site where
  fused : Bool := false
  retired : Bool := false
  /-- Fabric time of the last passed test; `none` counts as tested at the boot's stage 6 (R279). -/
  tested : Option DWord := none
  testing : Bool := false
  /-- When its test or site check began, on Ferryman's clock. -/
  since : Nat := 0
  lanesRepaired : Nat := 0
  capture : Option Capture := none
  check : Option SiteCheck := none
  /-- Times of check-lane faults and transients, keyed by array (R272), on Ferryman's clock. -/
  laneFaults : Tbl (List Nat) := []
  transients : Tbl (List Nat) := []
  marked : Bool := false
  deriving DecidableEq, Repr

/-! ## Host interface (15) -/

/-- The ring states of R475. -/
inductive RingState where
  | idle | running | draining | error
  deriving DecidableEq, Repr, Inhabited

/-- A ring (R450, R451, R475). -/
structure Ring where
  state : RingState := .idle
  enable : Bool := false
  log2 : Nat := 6
  vector : Nat := 0
  sqBase : DWord := 0
  cqBase : DWord := 0
  sqHead : Nat := 0
  sqTail : Nat := 0
  cqHead : Nat := 0
  cqTail : Nat := 0
  phase : Bool := true
  coalCount : Nat := 0
  coalTime : Nat := 0
  coalPending : Nat := 0
  coalSince : Nat := 0
  /-- Rises at each reset and each enable, so that a completion finds out whether its ring was re-enabled (R455). -/
  generation : Nat := 0
  deriving DecidableEq, Repr

/-- Where a descriptor stands (R454, R457). -/
inductive DescPhase where
  /-- Fetched and given a journal entry; the checks of its opcode are still to come. -/
  | fetched
  /-- Accepted; waits for its not-before time or its turn. -/
  | waiting
  | started
  /-- Held by Slipway (R259, R406). -/
  | held
  /-- Ended with a status; its completion is still to be written (R455). -/
  | done (st : Status)
  deriving DecidableEq, Repr

/-- A descriptor in flight. -/
structure Desc where
  id : Nat
  fn : Nat
  ring : Nat
  generation : Nat
  jseq : DWord
  bytes : Bytes
  accepted : DWord
  phase : DescPhase := .fetched
  refused : Bool := false
  /-- Completing codes that apply besides OK (R13). -/
  codes : List Status := []
  /-- Remote requests not yet answered. -/
  waiting : Nat := 0
  /-- A value kept from acceptance: trigger base, member index, target bank and the like. -/
  aux : DWord := 0
  /-- Data of remote reads that a COPY has yet to write to its destination: (destination address, bytes). -/
  got : List (Nat × Bytes) := []
  deriving DecidableEq, Repr

/-- A journal entry (R464) with its function (R466). -/
structure JEntry where
  fn : Nat
  jseq : DWord
  ring : Nat
  opcode : Nat
  status : Nat
  tag : Word
  tAccept : BitVec 48
  tDone : BitVec 48
  deriving DecidableEq, Repr

/-- The state of one PCIe function. -/
structure Func where
  /-- Next journal sequence number, always-on (R465). -/
  jseq : DWord := 1
  msix : Tbl Word := []
  pba : List Nat := []
  deriving DecidableEq, Repr

/-- PCIe link (R440, R443, R474). -/
structure PcieLink where
  rate : Nat := 0
  width : Nat := 0
  flit : Bool := false
  l1 : Bool := false
  lastAccess : Nat := 0
  deriving DecidableEq, Repr

/-! ## Partitions, steps, Slipway (07, 09, 16) -/

/-- The partition states of R476. -/
inductive PartState where
  | free | configured | started | stopping
  deriving DecidableEq, Repr, Inhabited

/-- A rectangle of the logical grid, ends included (R477). -/
structure Rect where
  x0 : Nat
  x1 : Nat
  y0 : Nat
  y1 : Nat
  deriving DecidableEq, Repr

/-- A group entry of R478. -/
structure Group where
  num : Nat
  pass : Nat
  sub : Bool
  share : Nat
  rects : List Rect
  deriving DecidableEq, Repr

/-- A drain in progress (R482 to R484): what it reports, when it began, whether a partition reset follows. -/
structure Drain where
  status : Status
  since : Nat
  reset : Bool
  auto : Bool
  deriving DecidableEq, Repr

/-- Where an attempt stands (R261, R267). -/
inductive AttemptPhase where
  /-- Running since its gate. -/
  | running
  /-- A replay cause arrived; Slipway waits for votes before it stops the cores. -/
  | ending
  /-- Cores and collectives are being stopped; the end is still to be confirmed. -/
  | stopping
  /-- Confirmed; the next attempt waits for its gate. -/
  | gated
  deriving DecidableEq, Repr

/-- A reload this device has asked for (R269): the region-table entry, the half's address and length, the owner's node. -/
structure Reload where
  entry : Nat
  addr : Nat
  len : Nat
  node : Nat
  since : DWord
  redo : Bool
  deriving DecidableEq, Repr

/-- An open step (R259). -/
structure Step where
  num : DWord
  seed : DWord
  holdBase : Nat
  holdLen : Nat
  attempt : Nat := 0
  phase : AttemptPhase := .running
  gate0 : DWord := 0
  gate : DWord := 0
  /-- The attempt to start next, and what peers' notices named for it: attempt, earliest gate (R268). -/
  next : Nat := 0
  peerAttempt : Nat := 0
  peerGate : Option DWord := none
  /-- Ordered mode (R278): in force; to begin with the next attempt. -/
  ordered : Bool := false
  wantOrdered : Bool := false
  /-- A COMPARE replay (R278): 0 none, 1 the first ordered attempt is still to be folded, 2 it is; that attempt once known; its
  digests; the REPLAY_STEPs in flight. -/
  cmp : Nat := 0
  cmpAttempt : Option Nat := none
  compareList : List (BitVec 128) := []
  replays : List Nat := []
  /-- Replay cause bits of the attempt (R284), its first cause, the cause bits a peer's notice named. -/
  causes : BitVec 8 := 0
  first : Nat := 0
  peerCauses : BitVec 8 := 0
  causeAt : DWord := 0
  /-- Code that ends the step without commit when no replay cause joins it (R265). -/
  endCode : Option Status := none
  /-- Further such codes of the attempt, in their order; the event record lists them (R266, R282). -/
  moreCodes : List Status := []
  /-- Held START_STREAMs of the step and those whose stream has ended in this attempt. -/
  streams : List Nat := []
  ended : List Nat := []
  /-- Completing codes the STEP_COMMIT may carry (R13). -/
  codes : List Status := []
  /-- Cores moved in this step (R270, R282), layer of the first trip, collective codes that arrived. -/
  moved : List Nat := []
  /-- Cores with a suspect verdict or SRAM_UE in this attempt, cores that stayed on their sites (R270). -/
  suspects : List Nat := []
  stayed : List Nat := []
  /-- Weight copies (region-table entries) whose reads were lost in memory (R309). -/
  weightLost : List Nat := []
  /-- A code that ends the step without commit whatever replay cause joins it (R282). -/
  fatal : Option Status := none
  firstLayer : Nat := 0xFFFF
  /-- Digest exchange (R276): own digests once folded, the peers' digests by (member, position), reloads. -/
  digests : Option (List (BitVec 128)) := none
  listSent : Bool := false
  lists : List (Nat × Nat × BitVec 128) := []
  reloads : List Reload := []
  compared : Bool := false
  /-- Region-table entries reloaded in this step (R282). -/
  reloaded : List Nat := []
  deriving DecidableEq, Repr

/-- An entry of the region table (R231). -/
structure Region where
  half0 : Nat
  half1 : Nat
  len : Nat
  kind : Nat
  copy : Nat
  owner : Nat
  layer : Nat
  deriving DecidableEq, Repr

/-- Where a stash granule lies (R224). -/
structure Granule where
  slot : Nat
  entry : Nat
  index : Nat
  remote : Bool
  place : Nat
  deriving DecidableEq, Repr

/-- The stash allocator of a partition (R223 to R227). -/
structure Stash where
  granules : List Granule := []
  /-- Marked entries (slot, entry); slots in which a mark makes later entries marked; entries already written. -/
  marks : List (Nat × Nat) := []
  written : List (Nat × Nat) := []
  poolFull : Bool := false
  deriving DecidableEq, Repr

/-- A frame of the remote page cache (R315): page, fetched yet, last use. -/
structure RpcFrame where
  page : Nat
  valid : Bool
  used : Nat
  deriving DecidableEq, Repr

/-- The remote page cache of a partition (R315): read counts per page, frames by number. -/
structure Rpc where
  counts : List (Nat × Nat) := []
  frames : List (Nat × RpcFrame) := []
  deriving DecidableEq, Repr

/-! ## Governor (08) -/

/-- A layer-table entry (R240) as the governor read it. -/
structure Layer where
  state : Nat := 0
  rotNarrow : Bool := false
  fmtFwd : Nat := 6
  fmtBwd : Nat := 7
  kNarrow : Nat := 2
  stable : Nat := 0
  arenaCost : Nat := 0
  arenaOff : Nat := 0xFFFFFFFF
  outElems : Nat := 0
  gradElems : Nat := 0
  avgOut : Word := 0
  avgGrad : Word := 0
  tauOut : Word := 0
  tauGrad : Word := 0
  seen : Nat := 0
  trips : Nat := 0
  lastCause : Nat := 0
  deriving DecidableEq, Repr

/-- An open window (R243): the exact sum of SUMSQ in units of 2^-149, whether an infinite one entered, the elements. -/
structure Window where
  sum : Nat := 0
  inf : Bool := false
  elems : Nat := 0
  deriving DecidableEq, Repr

/-- An observation of an attempt (R243): layer, class, FP32 mean square, elements, whether it was a jump (R244). -/
structure Obs where
  layer : Nat
  cls : Nat
  o : Word
  n : Nat
  jump : Bool
  deriving DecidableEq, Repr

/-- Outlier sums of an attempt (R253). -/
structure OutlSum where
  outl : Nat := 0
  blocks : Nat := 0
  drops : Nat := 0
  deriving DecidableEq, Repr

/-- The governor context of a partition. Windows and sums are keyed 2·layer + class. -/
structure Gov where
  table : Tbl Layer := []
  windows : Tbl Window := []
  obs : List Obs := []
  outl : Tbl OutlSum := []
  marked : List Nat := []
  nextMarks : List Nat := []
  /-- Marks of the open step's replay attempts: (attempt, layer). STABLE of the layers at the step's opening (R251). -/
  stepMarks : List (Nat × Nat) := []
  stable0 : Tbl Nat := []
  tripped : List Nat := []
  /-- Ratio trips of the first attempt: (layer, class) (R252). -/
  ratio : List (Nat × Nat) := []
  /-- Trips classified since the last look and how many of them were false, by class. -/
  looked : Tbl (Nat × Nat) := []
  requested : Bool := false
  tOut : Word := 0x40800000
  tGrad : Word := 0x40800000
  /-- Settings as fixed when the last step opened or the last attempt started (R242): the table as it stood then. -/
  settings : Tbl Layer := []
  /-- Trips while no step was open, to enter the table when the next one opens: (layer, causes, the lowest cause) (R247). -/
  between : List (Nat × Nat × Nat) := []
  /-- Statistics records on their way to the governor, with their cores (R90). -/
  inbox : List (Nat × Bytes) := []
  deriving DecidableEq, Repr

/-! ## Collectives (13) -/

/-- Where a collective stands in the present attempt (R405, R406, R411): it waits to be armed; armed; ended with a code;
aborted locally with its attempt. -/
inductive CollPhase where
  | waiting | armed | ended (st : Status) | aborted
  deriving DecidableEq, Repr

/-- A reduction burst that a receiving point has dequantised and not yet added (R398, R399): the member, the burst's number,
its FP32 values, the counts it carried. -/
structure Burst where
  member : Nat
  index : Nat
  vals : List Word
  nan : Nat
  sat : Nat
  first : Nat
  deriving DecidableEq, Repr

/-- A collective of this member, by its descriptor. -/
structure Coll where
  id : Nat
  phase : CollPhase := .waiting
  /-- B of R405 outside a step; whether a scratch slot is held (R410). -/
  base : DWord := 0
  slotHeld : Bool := false
  /-- Members whose JOIN matched; the window granted to each child; the window received from the parent (R410). -/
  joined : List Nat := []
  granted : Tbl Nat := []
  windowIn : Nat := 0
  /-- Reduction: chunks added and sent on or written, at a leaf bursts sent; broadcast: bursts sent or forwarded. -/
  sent : Nat := 0
  /-- The level-0 sums (R396), by element. -/
  own : List Word := []
  /-- Bursts that came: (member, burst); 0 for the member of a broadcast. Those not yet added. -/
  got : List (Nat × Nat) := []
  kept : List Burst := []
  /-- Counts of R399, the lowest member named, NaNs of this member's own narrowing, entries in which a NaN was counted here. -/
  nan : Nat := 0
  sat : Nat := 0
  first : Nat := 0xFFFF
  ownNan : Nat := 0
  nanEntries : List Nat := []
  /-- Broadcast: END sent to, END received (sender, time), DONE members, DONE sent, an outlier tensor came. -/
  endSent : List Nat := []
  endFrom : Option (Nat × Nat) := none
  doneBy : List Nat := []
  doneSent : Bool := false
  outl : Bool := false
  degraded : Bool := false
  deriving DecidableEq, Repr

/-! ## Media ingest (14) -/

/-- A Landing buffer in use (R432, R433). -/
structure Buffer where
  num : Nat
  slot : Nat
  filled : Nat := 0
  failed : Nat := 0
  firstFail : Option Status := none
  zero : Nat := 0
  sat : Nat := 0
  queued : Bool := false
  deriving DecidableEq, Repr

/-- A running ingest job (R418, R419): the host fields of its job block as read, and its progress. -/
structure Job where
  id : Nat
  block : Bytes
  blockAddr : Nat
  samples : DWord
  nextJ : Nat
  fillBase : DWord
  freeBase : DWord
  freeList : List Nat
  buffers : List Buffer := []
  signalled : Nat := 0
  failedSig : Nat := 0
  waitingSlot : Bool := false
  degraded : Bool := false
  redo : List Nat := []
  deriving DecidableEq, Repr

/-- A sample in a pipe (R427, R428). -/
structure Task where
  part : Nat
  jslot : Nat
  j : Nat
  redone : Bool
  since : Nat
  /-- The sample-table entry, none when its read failed (R423), and the segment bytes. -/
  entry : Option Bytes
  segment : Option Bytes
  deriving DecidableEq, Repr

/-- A logical decode pipe. -/
structure Pipe where
  phys : Option Nat := none
  retired : Bool := false
  task : Option Task := none
  testing : Option Nat := none
  testedAt : Option Nat := none
  deriving DecidableEq, Repr

/-! ## One partition -/

/-- A partition: its configuration, its step and the contexts of the units that serve it. -/
structure Part where
  st : PartState := .free
  rects : List Rect := []
  groups : List Group := []
  rbase : Nat := 0
  rcount : Nat := 0
  qbase : Nat := 0
  qlen : Nat := 0
  pbase : Nat := 0
  pcount : Nat := 0
  pipes : DWord := 0
  drain : Option Drain := none
  /-- Last committed step since partition start (R235). -/
  last : Option DWord := none
  /-- The last checkpoint boundary: committed step (all-ones for none) and fabric time (R485). -/
  boundary : Option (DWord × DWord) := none
  lastGate : DWord := 0
  step : Option Step := none
  regions : List Region := []
  stash : Stash := {}
  rpc : Rpc := {}
  gov : Gov := {}
  colls : List Coll := []
  /-- JOINs that match no armed collective yet: (member, signature); signatures of collectives that have ended here. -/
  joins : List (Nat × DWord) := []
  collPast : List DWord := []
  /-- Those that ended at their deadline, with their CSEQ: a RESULT that still comes is reported (R411). -/
  collLate : List (DWord × Nat) := []
  /-- Reloads that this device serves as owner (R269): entry, half's address, length, requester; `redo` is HALF. -/
  serving : List Reload := []
  jobs : Tbl (Option Job) := []
  /-- The job slot that was last given a pipe (R427). -/
  lastJob : Nat := 3
  /-- State of each job slot that runs no job: ended other than with OK (R439), failed samples. -/
  jobEnd : Tbl Bool := []
  jobFailed : Tbl Nat := []
  /-- Uncorrected events within the ladder's window, on Ferryman's clock (R488, R489). -/
  events : List Nat := []
  replays : Nat := 0
  lastCauses : BitVec 8 := 0
  deriving DecidableEq, Repr

/-! ## Memory system (10) -/

/-- A line of a memory-side cache slice (R297 to R299), keyed by address / 128. `data` holds its bytes while it is dirty; a clean line
is a copy of what HBM holds. -/
structure Line where
  data : Bytes
  dirty : Bool
  keep : Bool
  age : Nat
  way : Nat := 0
  deriving DecidableEq, Repr

/-- The stack states of R312. -/
inductive StackState where
  | active | retirePending | retired
  deriving DecidableEq, Repr, Inhabited

/-- One HBM stack. -/
structure Stack where
  st : StackState := .active
  failed : Bool := false
  hot : Bool := false
  limited : Bool := false
  temp : Nat := 0
  refreshed : Nat := 0
  /-- The next line that a scrub pass reads, and when the last was read. -/
  scrubbed : Nat := 0
  scrubAt : Nat := 0
  /-- Corrected reads per row in the scrub period, uncorrectable reads in 24 hours, spare rows used per bank group. -/
  rowCe : Tbl (List Nat) := []
  ues : List Nat := []
  rowsUsed : Tbl Nat := []
  softRows : List Nat := []
  hardRows : Nat := 0
  /-- Adder array (R307): fault times by row, spare rows left, pairs disabled. -/
  adderFaults : Tbl (List Nat) := []
  adderSpares : Nat := 2
  adderDisabled : Nat := 0
  /-- Token buckets keyed 65536·partition + group, group 0 the common bucket (R303, R304). -/
  tokens : Tbl Int := []
  deriving DecidableEq, Repr

/-- A request that waits at its controller for tokens (R303), with its local byte address: kind 0 read, 1 write, 2 ADDF, 3 ADDI. -/
structure MemWait where
  req : MemReq
  place : Nat
  kind : Nat
  len : Nat := 0
  data : Bytes := []
  err : ReadErr := .none
  res : AdderResult := .agree
  deriving DecidableEq, Repr

/-- Kinds of place whose reads fail for good until repaired are not kept: a read error arrives with its command. -/
structure MemSys where
  hbm : Tbl Byte := []
  /-- Ranges whose unlisted bytes are unspecified: start, length, base in the free values; the newest first. An unlisted
  byte of no range holds 0. -/
  fresh : List (Nat × Nat × Nat) := []
  lines : Tbl (Option Line) := []
  tick : Nat := 0
  hbmStacks : Tbl Stack := []
  /-- Requests that wait for tokens, oldest first (R303); when the last regulator interval ended, on Ferryman's clock. -/
  waiting : List MemWait := []
  refilled : Nat := 0
  deriving DecidableEq, Repr

/-! ## Who waits for an answer -/

/-- The origin of a request, signal or wait. -/
inductive Origin where
  | none
  /-- An engine of a core, with the location of its instruction (CORE_FAULT_PC). -/
  | engine (core engine : Nat) (loc : Word)
  /-- A signal of a core: signal number, engine of its SIG (0 or 5), location. -/
  | signal (core engine sigNo : Nat) (loc : Word)
  /-- The WAIT of a core. -/
  | coreWait (core : Nat)
  | desc (id : Nat)
  | coll (part id : Nat)
  | slipway (part : Nat)
  | reload (part : Nat) (node : Nat) (entry : Nat)
  | load (id : Nat)
  | rpc (part page : Nat)
  /-- A stash write sent to the remote pool: slot, entry, and who waits for it (R224). -/
  | stash (part slot entry : Nat) (asker : Origin)
  /-- A request of MEMORY_READ or MEMORY_WRITE whose stash granule lies in the remote pool. -/
  | memory (part : Nat)
  | ingest (part jslot : Nat)
  /-- A request of another device: source node, flow, VC, PSN, tag, job tag, port it came on. -/
  | remote (node flow vc psn tag job port : Nat)
  deriving DecidableEq, Repr

/-! ## Mesh and synchronisation (11) -/

/-- A signal on its way to a sync unit: partition whose range it names, INDEX, increment. -/
structure Signal where
  part : Nat
  index : Nat
  inc : Nat
  origin : Origin
  /-- It names this device with REMOTE set, and meets the checks of a fabric arrival (R345, R369). -/
  far : Bool := false
  /-- Who sent it: a core, 4096 the hub, 4097 the ingest pipeline; its place among the messages sent to sync units (R331). -/
  source : Nat := 4096
  no : Nat := 0
  deriving DecidableEq, Repr

/-- A wait request: partition whose range it names, partition that issued it (0 for another device), INDEX, value. -/
structure Wait where
  part : Nat
  issuer : Nat
  index : Nat
  expected : DWord
  deadline : BitVec 48
  origin : Origin
  /-- As for a signal. -/
  far : Bool := false
  source : Nat := 4096
  no : Nat := 0
  deriving DecidableEq, Repr

/-- An incomplete remote signal (R335, R368): the parts that have come. -/
structure Gather where
  node : Nat
  sigId : Word
  part : Nat
  index : Nat
  inc : Nat
  parts : Nat
  seen : List Nat
  origins : List Origin
  deriving DecidableEq, Repr

/-- A remote WAIT of this device that waits for its VERDICT (R346). -/
structure RemoteWait where
  origin : Origin
  deadline : BitVec 48
  node : Nat
  deriving DecidableEq, Repr

/-- Counters, waiters and messages on the meshes. -/
structure SyncSys where
  counters : Tbl DWord := []
  saturated : Tbl Bool := []
  signals : List Signal := []
  requests : List Wait := []
  /-- Messages sent to sync units so far. -/
  sent : Nat := 0
  waiters : List Wait := []
  busy : List Wait := []
  gathers : List Gather := []
  remotes : List RemoteWait := []
  /-- Replays in a row and the time of the last replay of each mesh link (R328). -/
  replays : Tbl Nat := []
  replayedAt : Tbl (Option Nat) := []
  deriving DecidableEq, Repr

/-! ## Fabric (12) -/

/-- The port states of R383. -/
inductive PortState where
  | down | train | align | param | time | up
  deriving DecidableEq, Repr, Inhabited

/-- A Geazal port. `offset` is its last time estimate less Ferryman's clock at that moment, `delay` is 2·D in ns, `measured` that D has
been measured since the port entered TIME (R379, R383). -/
structure Port where
  st : PortState := .down
  width : Nat := 0
  spareUsed : Bool := false
  failed : BitVec 17 := 0
  reason : Nat := 0
  timeOk : Bool := false
  /-- When the last TIME flit came, and the last with QUALITY 0 or 1. -/
  lastTime : Nat := 0
  goodTime : Nat := 0
  quality : Nat := 2
  offset : Int := 0
  delay : Int := 0
  measured : Bool := false
  /-- The last DELAY_REQ: T1 and when it left, on Ferryman's clock. -/
  sentT1 : DWord := 0
  sentAt : Nat := 0
  /-- Handshake with the switch (R360): a request sent and not answered. -/
  handshake : Option Nat := none
  handshakeNo : Nat := 0
  /-- Link layer (R361, R362, R364): next codeword, oldest unacknowledged, resends of it, next expected; the retry buffer, as (last
  codeword, what it carries), oldest first; codewords either way since the last LINK flit; credits. -/
  txSeq : Nat := 0
  txAcked : Nat := 0
  resends : Nat := 0
  rxSeq : Nat := 0
  kept : List (Nat × Out) := []
  sinceLink : Nat := 0
  credits : Tbl Nat := []
  lastCred : Tbl Nat := []
  freed : Tbl Nat := []
  creditAt : Nat := 0
  /-- Packets that wait for credit. -/
  queue : List Packet := []
  since : Nat := 0
  degradedSince : Option Nat := none
  /-- It fell and waits a second before it tries again (R383). -/
  holdoff : Bool := false
  deriving DecidableEq, Repr

/-- A request sent and not retired. `dest` is where the data of a READ goes. -/
structure Sent where
  psn : Nat
  pkt : Packet
  origin : Origin
  dest : Nat
  port : Nat
  held : Option Nat
  degraded : Bool
  /-- When it was last sent, on Ferryman's clock (R373). -/
  at_ : Nat := 0
  /-- Covered by a cumulative ACK while it waits for its VERDICT; sent again at least once. -/
  acked : Bool := false
  retried : Bool := false
  deriving DecidableEq, Repr

/-- A sending sequence (R372), keyed 64·node + 8·flow + VC. -/
structure SeqTx where
  next : Nat := 0
  unacked : List Sent := []
  waitingQ : List Sent := []
  resync : Bool := false
  deriving DecidableEq, Repr

/-- A receiving sequence: expected PSN, requests applied since the last ACK, TAG and JOB of the last of them. -/
structure SeqRx where
  expected : Option Nat := none
  owed : Nat := 0
  owedSince : Nat := 0
  tag : Nat := 0
  job : Nat := 0
  port : Nat := 0
  /-- PSNs whose writes or verdicts are still open, verdicts already given. -/
  openPsns : List Nat := []
  verdicts : List (Nat × Nat) := []
  deriving DecidableEq, Repr

/-- What the sender knows of a destination (R373): ports moved away from, time-outs in a row per port, retry time, flows on their way
back to their own port (R371). -/
structure Dest where
  tried : List Nat := []
  returning : List Nat := []
  timeouts : Tbl Nat := []
  unreachable : Bool := false
  since : Nat := 0
  deriving DecidableEq, Repr

/-- A packet held for a later attempt (R375). -/
structure HeldPkt where
  port : Nat
  pkt : Packet
  at_ : Nat
  deriving DecidableEq, Repr

/-- A packet that has arrived on a blocked VC and waits there in its receive buffer (R335, R375); `taken` says that its sequence has
counted it. -/
structure Parked where
  port : Nat
  pkt : Packet
  taken : Bool
  deriving DecidableEq, Repr

/-- The fabric side of the device. -/
structure Fabric where
  ports : Tbl Port := []
  tx : Tbl SeqTx := []
  rx : Tbl SeqRx := []
  epochs : Tbl (Option (BitVec 8)) := []
  dests : Tbl Dest := []
  held : List HeldPkt := []
  parked : List Parked := []
  /-- Flow f returns to port f once its requests on the substitute are acknowledged (R371). -/
  returning : List Nat := []
  tagNo : Nat := 0
  /-- Correction of fabric time still to be slewed, in ns, and the port that fabric time follows (R380). -/
  slew : Int := 0
  source : Option Nat := none
  deriving DecidableEq, Repr

/-! ## Ferryman (17) -/

/-- An event record (R284, R508) with its sequence number. -/
structure Event where
  seq : DWord
  time : BitVec 48
  kind : Nat
  status : Nat
  step : DWord
  part : Nat
  attempt : Nat
  core : Nat
  site : Nat
  layer : Nat
  detail : DWord
  deriving DecidableEq, Repr

/-- A temperature sensor (R495, R496): last 8 samples, newest first; samples in a row at 110 °C; crossings taken of 95 °C,
103 °C and the fatal value of R514. Keys 0 to 63 are the domains' junctions, 64 to 75 link dies and hub, 76 + s stack s. -/
structure Sensor where
  samples : List Nat := []
  hotRun : Nat := 0
  over95 : Bool := false
  over103 : Bool := false
  overTop : Bool := false
  deriving DecidableEq, Repr

/-- A thermal trip (R504): kind 0 junction, 1 HBM; since when every sensor has read below 85 °C. -/
structure Trip where
  kind : Nat
  coolSince : Option Nat
  cold : Bool
  deriving DecidableEq, Repr

/-- The power states of R32. -/
inductive Power where
  | active | idle | deep | standby
  deriving DecidableEq, Repr, Inhabited

/-- A request for a power state (R506): wanted state, source 0 FMN_PWR, 1 SET_POWER, 2 WAKE_N, 3 PREPARE_SWAP. -/
structure PowerReq where
  want : Power
  source : Nat
  deriving DecidableEq, Repr

/-- A repair record for the e-fuses (R519): class and the thing repaired. -/
structure Repair where
  cls : Nat
  what : Nat
  /-- Its write has been put off and reported. -/
  deferred : Bool := false
  deriving DecidableEq, Repr

/-- Network settings (R512, R517). -/
structure Net where
  ipv4 : Bytes := []
  ipv4Prefix : Nat := 0
  ipv4Valid : Bool := false
  ipv4Gw : Bytes := []
  ipv6 : Bytes := []
  ipv6Prefix : Nat := 0
  ipv6Valid : Bool := false
  ipv6Gw : Bytes := []
  port : Nat := 20470
  collectors : List (Nat × Bytes) := []
  deriving DecidableEq, Repr

/-- A firmware update of a component (R515). -/
structure Update where
  image : Bytes := []
  verified : Bool := false
  state : Nat := 0
  deriving DecidableEq, Repr

/-- Ferryman: power, clock, events, management. Times are on its own clock, in ns. -/
structure Ferry where
  power : Power := .active
  /-- The change of power state under way (R506). -/
  entering : Option PowerReq := none
  powerQ : List PowerReq := []
  refused : Bool := false
  swapReady : Bool := false
  swapWanted : Bool := false
  trip : Option Trip := none
  /-- Settings of the four limiters in MHz and the clock (R497); power loop state (R501). -/
  mhz : Nat := 1300
  slow : Nat := 1300
  fast : Nat := 1300
  thermal : Nat := 1300
  supply : Nat := 1300
  overRun : Nat := 0
  cutFrom : Option Nat := none
  /-- The clock that the regulators raise their voltages for, 0 for none, and the domains that report margin at it (R498). -/
  raiseTo : Nat := 0
  marginOk : List Nat := []
  limit : Nat := 3300
  powerNow : Nat := 0
  sum1ms : Nat := 0
  n1ms : Nat := 0
  means : List Nat := []
  watts : Nat := 0
  fastAt : Nat := 0
  slowAt : Nat := 0
  thermalAt : Nat := 0
  sensors : Tbl Sensor := []
  vin : Nat := 12000
  vinOutSince : Option Nat := none
  vinInSince : Option Nat := none
  vinHeld : Bool := false
  vinDead : Bool := false
  vaux : Nat := 3300
  vauxOutSince : Option Nat := none
  vauxTold : Bool := false
  pwrlimSince : Option Nat := none
  /-- Voltage of each domain's regulator in 0.1 mV (R498), its last report in mV (R495), when it last reported too little
  margin (R499, R520), and whether it does so now. -/
  domainMv : Tbl Nat := []
  domainReported : Tbl Nat := []
  domainMargin : Tbl (Option Nat) := []
  lowMargin : List Nat := []
  /-- FMN_SERVICE (R520) and the conditions that held at the last sample. -/
  service : BitVec 7 := 0
  serviceCond : BitVec 7 := 0
  /-- Event store (R508): the 8,192 newest, newest first; next sequence number; next record to send (R510). -/
  events : List Event := []
  evSeq : DWord := 1
  sendFrom : DWord := 1
  perKind : Tbl Nat := []
  suppressed : Tbl Nat := []
  heartbeatAt : Nat := 0
  secondAt : Nat := 0
  boots : BitVec 16 := 1
  net : Net := {}
  ptpDomain : Nat := 0
  ptpV6 : Bool := false
  ptpAt : Option Nat := none
  ptpT1 : DWord := 0
  ptpT2 : DWord := 0
  ptpDelay : Int := 0
  mctpEid : Nat := 0
  pldmPending : Nat := 0
  updates : Tbl Update := []
  fuseQ : List Repair := []
  /-- The write under way, whether it is the second try, and when it began. -/
  fuseNow : Option (Repair × Bool) := none
  fuseAt : Nat := 0
  fuses : List Repair := []
  flashRepairs : List Repair := []
  mailbox : Tbl Word := []
  epoch : BitVec 8 := 0
  /-- Ladder (R488): rung-3 resets within the hour, power cycle asserted since, last report. -/
  rung3 : List Nat := []
  pwrcycSince : Option Nat := none
  pwrcycReport : Nat := 0
  pwrReqSince : Option Nat := none
  pwrReqReport : Nat := 0
  moduleReplace : Bool := false
  /-- Time of the last failure of each mesh link (R328). -/
  linkFailed : Tbl (Option Nat) := []
  deriving DecidableEq, Repr

/-! ## Boot and security (18), board (19) -/

/-- A firmware image in the boot flash (R525). -/
structure FwImage where
  magic : Word := 0x49464A46
  component : Nat := 0
  keySlot : Nat := 0
  revoke : BitVec 4 := 0
  version : Word := 0
  svn : Nat := 0
  rsvZero : Bool := true
  pubkey : Bytes := []
  body : Bytes := []
  sig : Bytes := []
  deriving DecidableEq, Repr

/-- An SPDM session of a function (R531). -/
structure Session where
  fn : Nat
  num : Nat
  key : Bytes
  opened : Bool
  seq : Nat := 0
  deriving DecidableEq, Repr

/-- A selective IDE stream (R472, R534). -/
structure Ide where
  fn : Nat
  stream : Nat
  session : Nat
  key : Bytes
  secure : Bool
  deriving DecidableEq, Repr

/-- A response that waits in its mailbox (R533): for the signature of a slot's key, or behind one that does. -/
structure SignReq where
  fn : Nat
  slot : Option Nat
  msg : Bytes
  deriving DecidableEq, Repr

/-- The security block. -/
structure Sec where
  /-- Images keyed 2·component + slot; the slot each component runs from; rollback counters (R527). -/
  flash : Tbl FwImage := []
  slots : Tbl Nat := []
  svn : Tbl Nat := []
  revoked : BitVec 4 := 0
  keyHashes : Tbl (BitVec 256) := []
  debugDisable : Bool := false
  stage : Nat := 6
  held : Bool := false
  ferryRecovery : Bool := false
  /-- Measurements 2, 3 and 5 as they stood when stage 3 derived the alias key (R532). -/
  aliasFrom : Bytes := []
  /-- SPDM per function: version agreed, capabilities, algorithms; sessions; signing queue; chunks. -/
  spdm : Tbl Nat := []
  sessions : List Session := []
  sessionNo : Nat := 0
  signQ : List SignReq := []
  chunksIn : Tbl Bytes := []
  chunkSeq : Tbl Nat := []
  chunksOut : Tbl Bytes := []
  ide : List Ide := []
  debug : Nat := 0
  dbgLevel : Option Nat := none
  nonce : BitVec 256 := 0
  nonceLive : Bool := false
  token : Tbl Byte := []
  dbgRefused : Bool := false
  deriving DecidableEq, Repr

/-- The board's inputs (R505, R544, R552). -/
structure Board where
  pwrlimN : Bool := true
  wakeN : Bool := true
  brdRstN : Bool := true
  brdLowSince : Nat := 0
  perstN : Bool := true
  fref : Bool := true
  refclk : Bool := true
  vinOn : Bool := true
  vauxOn : Bool := true
  straps : BitVec 7 := 0
  /-- Sideband outputs driven low (R552), and PHY_RST_N released. -/
  pwrcyc : Bool := false
  pwrReq : Bool := true
  thermtrip : Bool := false
  alert : Bool := false
  phyRun : Bool := false
  deriving DecidableEq, Repr

/-- A warm or cold reset in progress (R486): cold, when it began, whether it waits for the fabric reference (R543). -/
structure Reset where
  cold : Bool
  since : Nat
  waitFref : Bool
  deriving DecidableEq, Repr

/-! ## The loader (06) -/

/-- A cached native image (R208): key, loader version, the object's instructions and entry points, last use; `damaged` when its content no
longer agrees with the SHA-256 of its own that it carries. -/
structure NativeImage where
  hash : BitVec 256
  loader : Nat
  code : List NInstr
  entries : List Nat
  tbase : Nat
  used : Nat
  damaged : Bool := false
  deriving DecidableEq, Repr

/-- A cached data image (R208): descriptor table and constants with their core SRAM addresses; `damaged` as of a native image. -/
structure DataImage where
  hash : BitVec 256
  tdescBase : Nat
  tdesc : Bytes
  constBase : Nat
  consts : Bytes
  used : Nat
  damaged : Bool := false
  deriving DecidableEq, Repr

/-- The Nellek loader. -/
structure Loader where
  natives : List NativeImage := []
  datas : List DataImage := []
  tick : Nat := 0
  /-- Accepted loads in acceptance order. -/
  queue : List Nat := []
  deriving DecidableEq, Repr

/-! ## The device -/

/-- The state of the device. -/
structure State where
  /-- The commands that wait, first in, first out. -/
  pending : List Instr := []
  /-- Messages sent, newest first. -/
  out : List Out := []
  /-- The model's own counter of free values used (log entry 4). -/
  free : Nat := 0
  /-- Fabric time in ns (R29), Ferryman's clock in ns (R489), fabric time at which stage 6 of the boot completed (R279). -/
  now : DWord := 0
  clock : Nat := 0
  bootTime : DWord := 0
  /-- Stored BAR0 registers by offset, the function-local ones at 2^24·(1 + function) + offset. -/
  regs : Tbl Word := []
  /-- High words latched by a read of a low word (R171), by function and offset. -/
  latches : Tbl (Option Word) := []
  places : Tbl Place := []
  sites : Tbl Site := []
  cores : Tbl Core := []
  parts : Tbl Part := []
  rings : Tbl Ring := []
  funcs : Tbl Func := []
  descs : List Desc := []
  accepts : Nat := 0
  journal : Tbl (Option JEntry) := []
  link : PcieLink := {}
  flrPf0 : Option Nat := none
  ldr : Loader := {}
  mem : MemSys := {}
  syn : SyncSys := {}
  fab : Fabric := {}
  pipes : Tbl Pipe := []
  fer : Ferry := {}
  sec : Sec := {}
  brd : Board := {}
  rst : Option Reset := none
  deriving DecidableEq, Repr

/-- The device right after a cold boot, with every partition FREE (R528) and no command waiting. -/
def State.reset : State := {}

end Sys2Proof.Machine
end

