-- ==== Sys2Proof/Machine/Flags.lean ====
section
/-!
DEFINITION. The device's flags are its status codes (R10): their numbers, which of them mean that an operation completed, and the
code that is reported when several apply.
-/
namespace Sys2Proof.Machine

/-! ## Status codes (R10, R11, R13) -/

/-- The 8-bit code of a status. -/
def statusNum : Status → Nat
  | .ok => 0x00 | .okRetried => 0x01 | .okReplayed => 0x02 | .descMalformed => 0x10 | .descBounds => 0x11
  | .descNotPermitted => 0x12 | .imemBusy => 0x13 | .xlateFailed => 0x14 | .checksumFail => 0x20
  | .checkTransient => 0x21 | .coreRetired => 0x22 | .digestMismatch => 0x23 | .collMismatch => 0x30
  | .collTimeout => 0x31 | .collNan => 0x32 | .syncTimeout => 0x40 | .syncSaturated => 0x41 | .partStopped => 0x50
  | .partReset => 0x51 | .linkDegraded => 0x60 | .remoteUnreachable => 0x61 | .ingestStreamError => 0x70
  | .ingestUnsupported => 0x71 | .stashRecompute => 0x80 | .wideningStorm => 0x81 | .deviceResetting => 0xF0
  | .internalError => 0xFF

/-- The codes that mean that the operation completed (R11). -/
def statusCompletes : Status → Bool
  | .ok | .okRetried | .okReplayed | .stashRecompute | .wideningStorm | .checkTransient | .coreRetired
  | .linkDegraded => true
  | _ => false

/-- The highest-numbered of the completing codes that apply (R13). -/
def highestStatus (l : List Status) : Status :=
  l.foldl (fun a b => if statusNum a < statusNum b then b else a) .ok

/-- A code added once. -/
def addCode (l : List Status) (c : Status) : List Status := if l.contains c || c == .ok then l else l ++ [c]

end Sys2Proof.Machine
end

