-- ==== Sys2Proof/Machine/Ops.lean ====
section
/-!
DEFINITION. The named operations over State that the meanings share: free values, time, messages, registers, cores and
sites, partitions, descriptors, events, replay causes.
-/
namespace Sys2Proof.Machine

/-- The outcome type of a command. -/
abbrev Result := Host.Outcome State Fault Refusal

/-! ## Free values, time, messages -/

/-- A fresh free value of `w` bits and the state that has used it (log entry 4). -/
def drawBits (w : Nat) (s : State) : BitVec w × State := (Config.freeBits w s.free, { s with free := s.free + 1 })

/-- Free values kept for what a command leaves open in bulk. -/
def reserve (n : Nat) (s : State) : State := { s with free := s.free + n }

/-- `n` unspecified bytes (R18, R120, R307, R309). -/
def drawBytes (n : Nat) (s : State) : Bytes × State :=
  ((List.range n).map fun i => Config.freeBits 8 (s.free + i), { s with free := s.free + n })

/-- A correction of fabric time that slewing applies from one clock value to another: 1 ns in every 1,000 (R380). -/
def slewPart (c c' : Nat) (slew : Int) : Int :=
  let most : Int := (c' / 1000 - c / 1000 : Nat)
  if slew < 0 then max slew (-most) else min slew most

/-- Time passes: fabric time by the correction being slewed as well, Ferryman's clock by itself (R29, R380, R489). -/
def pass (dt : Nat) (s : State) : State :=
  let c := slewPart s.clock (s.clock + dt) s.fab.slew
  { s with now := s.now + BitVec.ofNat 64 dt + BitVec.ofInt 64 c, clock := s.clock + dt
           fab := { s.fab with slew := s.fab.slew - c } }

/-- A message leaves the device. -/
def emit (o : Out) (s : State) : State := { s with out := o :: s.out }

/-- Low 48 bits of fabric time, as descriptors, packets and records carry it (R30). -/
def now48 (s : State) : BitVec 48 := s.now.setWidth 48

/-- Serial-number comparison of 48-bit times (R30, R381): `a` is at or past `b`. -/
def timeReached (a b : BitVec 48) : Bool := decide ((a - b).toNat < 2 ^ 47)

/-! ## Registers (R5 to R8, R553) -/

/-- Bases of the blocks of R553 and R563. -/
abbrev bHifDev : Nat := 0x40000
abbrev bPrt : Nat := 0x100000
abbrev bMem : Nat := 0x200000
abbrev bMemCtx : Nat := 0x201000
abbrev bGzl : Nat := 0x400000
abbrev bGzlCtx : Nat := 0x401000
abbrev bNoc : Nat := 0x500000
abbrev bSyn : Nat := 0x600000
abbrev bSynCtx : Nat := 0x601000
abbrev bIng : Nat := 0x700000
abbrev bIngCtx : Nat := 0x701000
abbrev bSlwCtx : Nat := 0x800000
abbrev bSlwDev : Nat := 0x801000
abbrev bCollCtx : Nat := 0x804000
abbrev bGovCtx : Nat := 0x808000
abbrev bFmn : Nat := 0x900000
abbrev bSec : Nat := 0xA00000
abbrev bPkg : Nat := 0xB00000
abbrev bCore : Nat := 0xC00000

/-- Address of a register of partition `n`'s context (R563). -/
def ctx (base n off : Nat) : Nat := base + 0x40 * (n - 1) + off

/-- Key of a function-local HIF register (R446). -/
def hif (fn off : Nat) : Nat := 2 ^ 24 * (1 + fn) + off

/-- Reset values of the stored registers that do not reset to zero. -/
def regReset (k : Nat) : Word :=
  if 2 ^ 24 ≤ k then (if k % 2 ^ 24 = 0x18 then 0x00000C00 else 0)
  else if bSlwCtx ≤ k ∧ k < bSlwCtx + 0x200 then
    (match k % 0x40 with
     | 0x00 => 0x0000640A
     | 0x10 => 1
     | 0x28 => 0x000F4240
     | _ => 0)
  else if bGovCtx ≤ k ∧ k < bGovCtx + 0x200 then
    (match k % 0x40 with
     | 0x00 => 0x00400807
     | 0x08 => 0x40800000
     | 0x0C => 0x40800000
     | _ => 0)
  else if bMemCtx ≤ k ∧ k < bMemCtx + 0x200 then
    (match k % 0x40 with
     | 0x08 => 100
     | 0x0C => 0xFFFF
     | 0x38 => 16
     | _ => 0)
  else if bCollCtx ≤ k ∧ k < bCollCtx + 0x200 then (if k % 0x40 = 0x20 then 6 else 0)
  else if k = bMem then 0x00041802
  else if k = bGzl then 0x002800FF
  else if k = bFmn then 0x103
  else if k = bSlwDev then 604800
  else if k = bSlwDev + 4 then 0x00181003
  else 0

/-- A stored register. The table holds the difference from the reset value, so that it lists only what has changed. -/
def reg (s : State) (k : Nat) : Word := s.regs.get 0 k ^^^ regReset k

/-- A stored register as a number. -/
def regN (s : State) (k : Nat) : Nat := (reg s k).toNat

/-- A stored register set. -/
def setReg (k : Nat) (v : Word) (s : State) : State := { s with regs := Tbl.set 0 s.regs k (v ^^^ regReset k) }

/-- Bits of a stored register set (R8: an event is never lost). -/
def orReg (k : Nat) (v : Word) (s : State) : State := setReg k (reg s k ||| v) s

/-- A stored counting register: one more, saturating. -/
def incReg (k : Nat) (s : State) : State := if reg s k = 0xFFFFFFFF then s else setReg k (reg s k + 1) s

/-- A 64-bit value in two registers, low word first. -/
def reg64 (s : State) (k : Nat) : Nat := regN s k + 2 ^ 32 * regN s (k + 4)

/-- A demand for a core's work brings the device from IDLE back to ACTIVE (R33). -/
def leaveIdle (s : State) : State :=
  if s.fer.power = .idle then { s with fer := { s.fer with power := .active } } else s

/-- Accesses to a BAR reach the device: it runs no reset, is not held in its boot (R528) and has VIN (R32). -/
def barOpen (s : State) : Bool := s.rst.isNone && !s.sec.held && s.fer.power != .standby

/-- The compute and link dies are off, and the registers of R555 with them. -/
def diesDark (s : State) : Bool := s.fer.power == .deep

/-- Spare physical pipes 64 to 67 that no logical pipe has taken (R428). -/
def sparePipes (s : State) : List Nat := [64, 65, 66, 67].filter fun q => !s.pipes.any fun e => e.2.phys == some q

/-! ## Cores and sites (R9, R15, R17, R164) -/

/-- A logical core by window number. -/
def getCore (s : State) (c : Nat) : Core := s.cores.get {} c

/-- A logical core set. -/
def setCore (c : Nat) (v : Core) (s : State) : State := { s with cores := Tbl.set {} s.cores c v }

/-- A logical core changed. -/
def updCore (c : Nat) (f : Core → Core) (s : State) : State := setCore c (f (getCore s c)) s

/-- A bank by number. -/
def bankOf (k : Core) (b : Nat) : Bank := if b = 0 then k.bank0 else k.bank1

/-- A bank set. -/
def setBank (k : Core) (b : Nat) (v : Bank) : Core := if b = 0 then { k with bank0 := v } else { k with bank1 := v }

/-- Every core that differs from an untouched one changed; `f` must leave an untouched core as it is. -/
def updCores (f : Core → Core) (s : State) : State := (s.cores.map Prod.fst).foldl (fun s c => updCore c f s) s

/-- The die of a logical core (R9). -/
def dieOf (c : Nat) : Nat := c / 64 / 24 * 2 + c % 64 / 24

/-- The natural site of a logical core (R17). -/
def naturalSite (c : Nat) : Nat := 600 * dieOf c + 25 * (c / 64 % 24) + c % 64 % 24

/-- The site a logical core lies on, none when its coordinate is unmapped (R19). -/
def siteOf (s : State) (c : Nat) : Option Nat :=
  match s.places.get .natural c with
  | .natural => some (naturalSite c)
  | .moved t => some t
  | .unmapped => none

/-- A site. -/
def getSite (s : State) (t : Nat) : Site := s.sites.get {} t

/-- A site changed. -/
def updSite (t : Nat) (f : Site → Site) (s : State) : State := { s with sites := Tbl.upd {} s.sites t f }

/-- Every logical core's window number, in row-major order. -/
def allCores : List Nat := ((List.range 48).map fun y => (List.range 48).map fun x => 64 * y + x).flatten

/-- The window numbers of a rectangle. -/
def rectCores (r : Rect) : List Nat :=
  ((List.range (r.y1 + 1 - r.y0)).map fun j => (List.range (r.x1 + 1 - r.x0)).map fun i =>
    64 * (r.y0 + j) + r.x0 + i).flatten

/-- A number put in at its place. -/
def insertNat (a : Nat) : List Nat → List Nat
  | [] => [a]
  | b :: t => if a ≤ b then a :: b :: t else b :: insertNat a t

/-- Ascending order. -/
def sortNat (l : List Nat) : List Nat := l.foldr insertNat []

/-- A rectangle holds a core. -/
def inRect (r : Rect) (c : Nat) : Bool :=
  decide (r.x0 ≤ c % 64) && decide (c % 64 ≤ r.x1) && decide (r.y0 ≤ c / 64) && decide (c / 64 ≤ r.y1)

/-- Some rectangle holds a core. -/
def inRects (l : List Rect) (c : Nat) : Bool := l.any fun r => inRect r c

/-- The cores of a union of rectangles, each once. -/
def unionCores : List Rect → List Nat
  | [] => []
  | r :: t => ((rectCores r).filter fun c => !inRects t c) ++ unionCores t

/-- The cores of some rectangles in row-major order of logical coordinate, which is window order (R129). -/
def rectsCores (l : List Rect) : List Nat := sortNat (unionCores l)

/-! ## Partitions -/

/-- A partition by number. -/
def getPart (s : State) (n : Nat) : Part := s.parts.get {} n

/-- A partition changed. -/
def updPart (n : Nat) (f : Part → Part) (s : State) : State := { s with parts := Tbl.upd {} s.parts n f }

/-- Partition numbers. -/
def partNums : List Nat := [1, 2, 3, 4, 5, 6, 7, 8]

/-- The partition is STARTED (R476). -/
def isStarted (s : State) (n : Nat) : Bool := (getPart s n).st == .started

/-- The cores a partition owns. -/
def partCores (s : State) (n : Nat) : List Nat := rectsCores (getPart s n).rects

/-- The smallest group that holds a core, whose program it runs (R212); of groups of one size a sub-group, then the earlier entry (log
entry 15). -/
def coreGroup (gs : List Group) (c : Nat) : Option Group :=
  findMin (fun g => 2 * (unionCores g.rects).length + b2n (!g.sub)) (gs.filter fun g => inRects g.rects c)

/-- The cores of a group (R212): those that no smaller one holds. -/
def groupCores (p : Part) (g : Nat) : List Nat :=
  match p.groups.find? fun e => e.num == g with
  | none => []
  | some e => (rectsCores e.rects).filter fun c => (coreGroup p.groups c).any fun o => o.num == g

/-- An open step of a partition. -/
def openStep (s : State) (n : Nat) : Option Step := (getPart s n).step

/-- The open step of a partition changed. -/
def updStep (n : Nat) (f : Step → Step) (s : State) : State := updPart n (fun p => { p with step := p.step.map f }) s

/-! ## Descriptors in flight -/

/-- A descriptor in flight by acceptance number. -/
def findDesc (s : State) (id : Nat) : Option Desc := s.descs.find? fun d => d.id == id

/-- A descriptor changed. -/
def updDesc (id : Nat) (f : Desc → Desc) (s : State) : State :=
  { s with descs := s.descs.map fun d => if d.id = id then f d else d }

/-- Fields of a descriptor (R456). -/
def Desc.opcode (d : Desc) : Nat := leAt d.bytes 0 1
def Desc.barrier (d : Desc) : Bool := bitOf (leAt d.bytes 1 1) 2
def Desc.nb (d : Desc) : Bool := bitOf (leAt d.bytes 1 1) 0
def Desc.irq (d : Desc) : Bool := bitOf (leAt d.bytes 1 1) 1
def Desc.tag (d : Desc) : Word := BitVec.ofNat 32 (leAt d.bytes 4 4)
def Desc.notBefore (d : Desc) : BitVec 48 := BitVec.ofNat 48 (leAt d.bytes 8 6)

/-- The field of a descriptor's body: `n` bytes at a byte offset. -/
def Desc.at (d : Desc) (off n : Nat) : Nat := leAt d.bytes off n

/-- A descriptor that has not ended. -/
def Desc.live (d : Desc) : Bool :=
  match d.phase with
  | .done _ => false
  | _ => true

/-- A descriptor ends: with the condition that ended it, or with the highest completing code that applies (R13). -/
def finishDesc (id : Nat) (st : Status) (s : State) : State :=
  updDesc id (fun d => if d.live then
    { d with phase := .done (if statusCompletes st then highestStatus (st :: d.codes) else st) } else d) s

/-- A descriptor is refused at acceptance (R458). -/
def refuseDesc (id : Nat) (st : Status) (s : State) : State :=
  updDesc id (fun d => if d.live then { d with phase := .done st, refused := true } else d) s

/-- A completing code noted for a descriptor (R13). -/
def noteDesc (id : Nat) (c : Status) (s : State) : State := updDesc id (fun d => { d with codes := addCode d.codes c }) s




/-- A descriptor holds the later ones of its ring (R454): it is not started yet, unless it is a LOAD_PROGRAM or a
CHECKPOINT that waits for the open step to close (log entry 11); or it is a SYNC_WAIT, until it has completed (R348). -/
def holdsRing (s : State) (e : Desc) : Bool :=
  match e.phase with
  | .fetched => !((e.opcode == 0x01 || e.opcode == 0x30) && (openStep s e.fn).isSome)
  | .waiting => true
  | .started => e.opcode == 0x11
  | .held => false
  | .done _ => e.opcode == 0x11

/-- Descriptors of the same ring, fetched earlier since its last enable or reset and not yet completed. -/
def earlierOf (s : State) (d : Desc) : List Desc :=
  s.descs.filter fun e => e.ring == d.ring && e.generation == d.generation && decide (e.id < d.id)

/-- A descriptor's turn has come (R454): no earlier one of its ring holds it; with BARRIER (R456), or for a SYNC_SIGNAL
(R347), every earlier one has completed. Acceptance is taken as this turn (log entry 11). -/
def ringTurn (s : State) (d : Desc) : Bool :=
  let l := earlierOf s d
  if d.barrier || d.opcode == 0x10 then l.isEmpty else l.all fun e => !holdsRing s e

/-- A descriptor at its acceptance checks, of an opcode. -/
def atAcceptance (s : State) (id op : Nat) : Option Desc :=
  match findDesc s id with
  | some d => if d.phase = .fetched && d.opcode == op && ringTurn s d then some d else none
  | none => none

/-- The time at which a descriptor may start has come (R457). -/
def startsNow (s : State) (d : Desc) : Bool := !d.nb || timeReached (now48 s) d.notBefore

/-- A descriptor enters a phase. -/
def setPhase (id : Nat) (ph : DescPhase) (s : State) : State :=
  updDesc id (fun d => if d.live then { d with phase := ph } else d) s

/-- A descriptor is accepted: it starts at once, or at its not-before time (R457). -/
def acceptThen (d : Desc) (start : Desc → State → State) (s : State) : State :=
  if startsNow s d then start d s else setPhase d.id .waiting s

/-- Bits of a byte string that must be zero: (offset, bytes). -/
def zeroAt (b : Bytes) (l : List (Nat × Nat)) : Bool := l.all fun p => leAt b p.1 p.2 == 0

/-! ## Notices (R470, R474) -/

/-- A function's requests leave the device: it does not require IDE, or it has a stream in the secure state (R472). -/
def hostReach (s : State) (fn : Nat) : Bool :=
  !bitOf (regN s (hif fn 0)) 4 || s.sec.ide.any fun i => i.fn == fn && i.secure

/-- An access to a BAR brings the link back to L0 (R443). -/
def barAccess (s : State) : State := { s with link := { s.link with lastAccess := s.clock, l1 := false } }

/-- An access of a function to BAR0 that is a command of its own reaches the device: outside the IDE stream that the function
requires it is an Unsupported Request (R472). -/
def hostPost (fn : Nat) (go : State → State) (s : State) : State :=
  if !barOpen s || 8 < fn then s
  else if hostReach s fn then go (barAccess s)
  else emit (.unsupported fn) (barAccess s)

/-- A function's MSI-X vector is signalled: sent, or its Pending Bit set when the table entry masks it (R469), or the function's
requests are held (R472). A message brings the link back to L0 (R443). -/
def signalVector (fn v : Nat) (s : State) : State :=
  let f := s.funcs.get {} fn
  -- vector control word of entry v; its mask bit is 1 after reset, so the table holds the inverted bit
  if bitOf ((f.msix.get 0 (4 * v + 3)).toNat) 0 && hostReach s fn then emit (.msix fn v) { s with link := { s.link with l1 := false } }
  else if f.pba.contains v then s
  else { s with funcs := Tbl.set {} s.funcs fn { f with pba := v :: f.pba } }

/-- A bit of HIF_NOTICE is set; NVECTOR is signalled when an enabled bit goes from 0 to 1 (R470). -/
def notice (fn bit : Nat) (s : State) : State :=
  let old := regN s (hif fn 0x04)
  let s' := orReg (hif fn 0x04) (BitVec.ofNat 32 (2 ^ bit)) s
  let ctl := regN s (hif fn 0x08)
  if !bitOf old bit && bitOf ctl bit then signalVector fn (bitsOf ctl 16 11) s' else s'

/-- LAST_RING of HIF_NOTICE (R474). -/
def noticeRing (fn bit ring : Nat) (s : State) : State :=
  notice fn bit (setReg (hif fn 0x04) (BitVec.ofNat 32 (setBits (regN s (hif fn 0x04)) 16 8 ring)) s)

/-! ## Event records (R284, R508) -/

/-- An event record before it is stored. -/
structure Ev where
  kind : Nat
  status : Nat := 0
  part : Nat := 0
  core : Option Nat := none
  site : Option Nat := none
  layer : Nat := 0xFFFF
  detail : Nat := 0
  deriving DecidableEq, Repr

/-- Values packed from byte 24 of a record upward: (bytes, value). The spec gives the order of DETAIL's values (R508); the
bytes each takes are the model's choice (log entry 41). -/
def packB : List (Nat × Nat) → Nat
  | [] => 0
  | (n, v) :: t => v % 256 ^ n + 256 ^ n * packB t

/-- CORE of a record (R284): x in [5:0], y in [13:8]. -/
def coreField : Option Nat → Nat
  | some c => c % 64 + 256 * (c / 64)
  | none => 0xFFFF

/-- SITE of a record (R284): row in [4:0], column in [9:5], die in [11:10]. -/
def siteField : Option Nat → Nat
  | some t => t % 600 / 25 + 32 * (t % 25) + 1024 * (t / 600)
  | none => 0xFFFF

/-- Ferryman stores an event record with the next sequence number (R508); the store keeps the 8,192 newest. STEP and
ATTEMPT are those of the partition's open step, 0 with none (log entry 40). -/
def postEvent (e : Ev) (s : State) : State :=
  let st := openStep s e.part
  let r : Event :=
    { seq := s.fer.evSeq, time := now48 s, kind := e.kind, status := e.status
      step := (st.map Step.num).getD 0, part := e.part, attempt := (st.map Step.attempt).getD 0
      core := coreField e.core, site := siteField e.site, layer := e.layer, detail := BitVec.ofNat 64 e.detail }
  { s with fer := { s.fer with events := (r :: s.fer.events).take 8192, evSeq := s.fer.evSeq + 1 } }

/-- A repair waits for its e-fuse write (R519): class 0 site retirement, 1 core remap, 2 vector lanes (site + 4096·lanes), 3 adder
row (256·stack + row), 4 decode pipe, 5 stack retirement, 6 adder pair, 7 a bit of a rollback counter (component), 8 a
key revocation (slot), 9 soft and 10 hard row repair (stack + 32·row). The class numbers are the model's (log entry 41). -/
def queueRepair (cls what : Nat) (s : State) : State :=
  { s with fer := { s.fer with fuseQ := s.fer.fuseQ ++ [{ cls := cls, what := what }] } }

/-! ## Slipway: causes and endings of an attempt (R265 to R267, R284) -/

/-- Replay cause bits (R284). -/
abbrev cSUSPECT : Nat := 0
abbrev cGOVERNOR : Nat := 1
abbrev cCHECKSUM : Nat := 2
abbrev cWEIGHT : Nat := 3
abbrev cDIGEST : Nat := 4
abbrev cPEER : Nat := 5
abbrev cHOST : Nat := 6
abbrev cSRAM : Nat := 7

/-- A replay cause arrives in the open step of a partition: the first one sets the time of the gate (R267, R268). One that
arrives after the attempt's end is confirmed waits for the next attempt (R267). -/
def raiseCause (n bit : Nat) (s : State) : State :=
  updStep n (fun t =>
    if t.causes = 0 then
      { t with causes := BitVec.ofNat 8 (2 ^ bit), first := bit, causeAt := s.now
               phase := if t.phase = .running then .ending else t.phase }
    else { t with causes := t.causes ||| BitVec.ofNat 8 (2 ^ bit) }) s

/-- A code that ends the open step without commit unless a replay cause joins it (R265); the first one stays, and others are listed. -/
def raiseEnd (n : Nat) (code : Status) (s : State) : State :=
  updStep n (fun t =>
    { t with endCode := t.endCode <|> some code
             moreCodes := if t.endCode.isSome && t.endCode != some code then addCode t.moreCodes code else t.moreCodes
             phase := if t.phase = .running then .ending else t.phase }) s

/-- A completing code noted for the step's STEP_COMMIT (R13). -/
def noteStep (n : Nat) (c : Status) (s : State) : State := updStep n (fun t => { t with codes := addCode t.codes c }) s

/-- An uncorrected event of a partition reaches the recovery ladder's count (R283, R489): its time on Ferryman's clock. -/
def countEvent (n : Nat) (s : State) : State :=
  updPart n (fun p => { p with events := s.clock :: p.events })
    (setReg (bPrt + 0xC) (BitVec.ofNat 32 (setBits (regN s (bPrt + 0xC)) 8 4 n)) s)

/-- A code noted for every descriptor that covers a core's work: its step's commit, or its START_STREAM. -/
def noteCore (c : Nat) (code : Status) (s : State) : State :=
  let k := getCore s c
  updCore c (fun k => { k with codes := addCode k.codes code }) (noteStep k.part code s)

end Sys2Proof.Machine
end

