-- ==== Sys2Proof/Machine/Memory.lean ====
section
/-!
DEFINITION. The memory system (10): the local address map, the cache slices, the memory-side adders, read errors and
row repair, token buckets, quotas, the activation stash (R223 to R227) and the remote page cache. HBM is kept by local
byte address; a byte nothing has written reads as 0 (log entry 6).
-/
namespace Sys2Proof.Machine

/-! ## The local address map (R291, R292) -/

/-- A stack. -/
def getStack (s : State) (k : Nat) : Stack := s.mem.hbmStacks.get {} k

/-- A stack changed. -/
def updStack (k : Nat) (f : Stack → Stack) (s : State) : State :=
  { s with mem := { s.mem with hbmStacks := Tbl.upd {} s.mem.hbmStacks k f } }

/-- Stacks not retired, in ascending order (R292). -/
def activeStacks (s : State) : List Nat := (List.range 20).filter fun k => (getStack s k).st != .retired

/-- One GiB. -/
abbrev gib : Nat := 1073741824

/-- C: 96 GiB for each active stack (R291). -/
def capacity (s : State) : Nat := 96 * gib * (activeStacks s).length

/-- End of the partition space (R291). -/
def partSpace (s : State) : Nat := capacity s - gib

/-- The firmware region (R293). -/
def inFirmware (s : State) (a : Nat) : Bool := decide (partSpace s ≤ a) && decide (a < capacity s)

/-- Stack, offset within it and pseudo-channel of a local address (R292). -/
def place (s : State) (a : Nat) : Nat × Nat × Nat :=
  let act := activeStacks s
  let n := act.length
  let g := a / 256
  let r := g / n
  let slot := (g % n + 7 * r) % n
  (act.getD slot 0, 256 * r + a % 256, (r ^^^ (r >>> 5) ^^^ (r >>> 10)) % 32)

/-- Set of a line within its slice: the model's choice (log entry 8). -/
def lineSet (s : State) (ln : Nat) : Nat × Nat :=
  let p := place s (128 * ln)
  (p.1, p.2.1 / 128 % 16384)

/-! ## Memory as every reader finds it (R296, R297) -/

/-- A cached line. -/
def getLine (s : State) (ln : Nat) : Option Line := s.mem.lines.get none ln

/-- A cached line set or dropped. -/
def setLine (ln : Nat) (l : Option Line) (s : State) : State :=
  { s with mem := { s.mem with lines := Tbl.set none s.mem.lines ln l } }

/-- What an unlisted byte of HBM holds: 0 (log entry 6), or an unspecified byte where the spec says that the contents are
unspecified (R307, R309, R313, R411). -/
def hbmDflt (m : MemSys) (a : Nat) : Byte :=
  match m.fresh.find? fun r => decide (r.1 ≤ a) && decide (a < r.1 + r.2.1) with
  | some r => Config.freeBits 8 (r.2.2 + (a - r.1))
  | none => 0

/-- Canonical form of HBM: addresses strictly rising, and no entry equal to what its address holds when unlisted. -/
abbrev Memory.wf (m : MemSys) : Prop := (m.hbm.map Prod.fst).Pairwise (· < ·) ∧ ∀ e ∈ m.hbm, e.2 ≠ hbmDflt m e.1

/-- A byte of HBM. -/
def hbmByte (s : State) (a : Nat) : Byte := s.mem.hbm.get (hbmDflt s.mem a) a

/-- A byte of local memory: a dirty line holds it, else HBM does, of which a clean line is a copy (R296, R297). -/
def memByte (s : State) (a : Nat) : Byte :=
  match getLine s (a / 128) with
  | some l => if l.dirty then l.data.getD (a % 128) 0 else hbmByte s a
  | none => hbmByte s a

/-- The 128 bytes of a dirty line. -/
def lineBytes (l : Line) : Bytes := (List.range 128).map fun i => l.data.getD i 0

/-- Bytes of local memory, read without touching the cache. -/
def devRd (s : State) (a n : Nat) : Bytes := (List.range n).map fun i => memByte s (a + i)

/-- Bytes written into HBM. -/
def hbmPut (m : MemSys) : Nat → Bytes → MemSys
  | _, [] => m
  | a, b :: t => hbmPut { m with hbm := Tbl.set (hbmDflt m a) m.hbm a b } (a + 1) t

/-- HBM with bytes written. -/
def hbmWr (a : Nat) (d : Bytes) (s : State) : State := { s with mem := hbmPut s.mem a d }

/-- The pieces of a byte range that lie in one line each: (address, bytes). The first argument bounds their number. -/
def linePieces : Nat → Nat → Bytes → List (Nat × Bytes)
  | 0, _, _ => []
  | _ + 1, _, [] => []
  | f + 1, a, b :: t =>
    let k := 128 - a % 128
    (a, (b :: t).take k) :: linePieces f (a + k) ((b :: t).drop k)

/-- The pieces of a byte range. -/
def piecesOf (a : Nat) (d : Bytes) : List (Nat × Bytes) := linePieces (d.length / 128 + 2) a d

/-- A byte range of local memory comes to hold unspecified bytes. -/
def spoil (a len : Nat) (s : State) : State :=
  let meets (e : Nat × Option Line) : Bool := decide (128 * e.1 < a + len) && decide (a < 128 * e.1 + 128)
  let s := (s.mem.lines.filter meets).foldl (fun s e =>
    match getLine s e.1 with
    | some l => setLine e.1 none (if l.dirty then hbmWr (128 * e.1) (lineBytes l) s else s)
    | none => s) s
  let inside (r : Nat × Nat × Nat) : Bool := decide (a ≤ r.1) && decide (r.1 + r.2.1 ≤ a + len)
  { s with
    mem := { s.mem with hbm := s.mem.hbm.filter fun e => !(decide (a ≤ e.1) && decide (e.1 < a + len))
                        fresh := (a, len, s.free) :: s.mem.fresh.filter fun r => !inside r }
    free := s.free + len }

/-! ## Tokens (R303, R304) -/

/-- The partition whose quota holds a local address; 0 when none does. -/
def partOfAddr (s : State) (a : Nat) : Nat :=
  match partNums.find? fun n =>
    decide ((getPart s n).qbase * gib ≤ a) && decide (a < ((getPart s n).qbase + (getPart s n).qlen) * gib) with
  | some n => n
  | none => 0

/-- RATE of a partition (R322). -/
def rateOf (s : State) (n : Nat) : Nat := bitsOf (regN s (ctx bMemCtx n 0x08)) 0 7

/-- Tokens per regulator interval of a group's bucket, or of the common bucket 0 (R303, R304). -/
def refillOf (s : State) (n g : Nat) : Nat :=
  let all := 192 * rateOf s n
  let gs := (getPart s n).groups
  if g = 0 then all - (gs.map fun e => all * e.share / 100).sum
  else match gs.find? fun e => e.num == g with
    | some e => all * e.share / 100
    | none => 0

/-- The bucket a request draws on: its group's where the partition has that group, else the common one. -/
def bucketOf (s : State) (n g : Nat) : Nat :=
  if (getPart s n).groups.any fun e => e.num == g then g else 0

/-- Key of a bucket. -/
def bucketKey (n g : Nat) : Nat := 65536 * n + g

/-- Tokens paid for 64-byte units moved on a stack's bus: an address in no started partition pays none. -/
def charge (st n g units : Nat) (s : State) : State :=
  if n = 0 || units = 0 || !isStarted s n then s
  else updStack st (fun k => { k with tokens := Tbl.upd 0 k.tokens (bucketKey n (bucketOf s n g)) fun t => t - units }) s

/-- The bucket of a request is empty at its controller (R303). -/
def bucketEmpty (s : State) (st n g : Nat) : Bool :=
  n != 0 && isStarted s n && decide ((getStack s st).tokens.get 0 (bucketKey n (bucketOf s n g)) ≤ 0)

/-- The bucket of a group has been charged for accesses that its tokens do not pay for yet: they wait at some controller (R303; log entry
116). -/
def bucketOwes (s : State) (n g : Nat) : Bool :=
  n != 0 && isStarted s n && (activeStacks s).any fun st => decide ((getStack s st).tokens.get 0 (bucketKey n (bucketOf s n g)) < 0)

/-! ## Cache slices (R297 to R300) -/

/-- Cached lines of a set. -/
def setLines (s : State) (set : Nat × Nat) : List (Nat × Line) :=
  (s.mem.lines.filterMap fun e => (getLine s e.1).map fun l => (e.1, l)).filter fun e => lineSet s e.1 == set

/-- The least recently used of some lines. -/
def lruOf (l : List (Nat × Line)) : Option (Nat × Line) := findMin (fun e => e.2.age) l

/-- The ways a partition's addresses allocate into (R299, R322). -/
def waysOf (s : State) (n : Nat) : Nat :=
  if n = 0 then 0xFFFF else
    let w := bitsOf (regN s (ctx bMemCtx n 0x0C)) 0 16
    if w = 0 then 0xFFFF else w

/-- A line leaves the cache: a dirty one is written to HBM and pays for it. -/
def writeBack (ln : Nat) (l : Line) (g : Nat) (s : State) : State :=
  let s := setLine ln none s
  if l.dirty then charge (place s (128 * ln)).1 (partOfAddr s (128 * ln)) g 2 (hbmWr (128 * ln) (lineBytes l) s) else s

/-- The next value of the age counter. -/
def nextTick (s : State) : Nat × State := (s.mem.tick + 1, { s with mem := { s.mem with tick := s.mem.tick + 1 } })

/-- A line allocated in its set, with its bytes when it is dirty (R299): a free allowed way, else the least recently used line that is not KEEP, else the
least recently used KEEP line; a KEEP allocation into a set that holds 12 replaces the oldest of them. -/
def allocLine (ln : Nat) (data : Bytes) (dirty keep : Bool) (g : Nat) (s : State) : State :=
  let all := setLines s (lineSet s ln)
  let w := waysOf s (partOfAddr s (128 * ln))
  let allowed := all.filter fun e => bitOf w e.2.way
  let keeps := all.filter fun e => e.2.keep
  let free := (List.range 16).find? fun k => bitOf w k && !(all.any fun e => e.2.way == k)
  let pick : Option (Nat × Line) :=
    if keep && 12 ≤ keeps.length then
      match lruOf (keeps.filter fun e => bitOf w e.2.way) with
      | some e => some e
      | none => lruOf keeps
    else if free.isSome then none
    else match lruOf (allowed.filter fun e => !e.2.keep) with
      | some e => some e
      | none => lruOf allowed
  let t := nextTick s
  match pick with
  | some e =>
    setLine ln (some { data := data, dirty := dirty, keep := keep, age := t.1, way := e.2.way }) (writeBack e.1 e.2 g t.2)
  | none =>
    match free with
    | some k => setLine ln (some { data := data, dirty := dirty, keep := keep, age := t.1, way := k }) t.2
    | none => if dirty then hbmWr (128 * ln) data t.2 else t.2

/-- A hit makes a line most recently used; KEEP also marks it, where the set's 12 KEEP lines leave room (R299). -/
def touchLine (ln : Nat) (l : Line) (keep : Bool) (s : State) : State :=
  let t := nextTick s
  let room := decide (((setLines s (lineSet s ln)).filter fun e => e.2.keep).length < 12)
  setLine ln (some { l with age := t.1, keep := l.keep || (keep && room) }) t.2

/-- 64-byte units of a byte range. -/
def unitsOf (a n : Nat) : Nat := if n = 0 then 0 else (a + n - 1) / 64 - a / 64 + 1

/-- Read of bytes of one line by hint (R298): 0 NORMAL, 1 STREAM, 2 KEEP, 3 LAST. -/
def lineRead (n g hint a len : Nat) (s : State) : Bytes × State :=
  let ln := a / 128
  let d := devRd s a len
  match getLine s ln with
  | some l =>
    (d, if hint = 1 then s else if hint = 3 then setLine ln none s else touchLine ln l (hint == 2) s)
  | none =>
    if hint = 1 || hint = 3 then (d, charge (place s a).1 n g (unitsOf a len) s)
    else (d, allocLine ln [] false (hint == 2) g (charge (place s a).1 n g 2 s))

/-- Write of bytes of one line by hint (R298, R300). -/
def lineWrite (n g hint a : Nat) (d : Bytes) (s : State) : State :=
  let ln := a / 128
  match getLine s ln with
  | some l =>
    let l := { l with data := putB (devRd s (128 * ln) 128) (a % 128) d, dirty := true }
    if hint = 1 || hint = 3 then setLine ln (some l) s else touchLine ln l (hint == 2) (setLine ln (some l) s)
  | none =>
    if hint = 1 || hint = 3 then charge (place s a).1 n g (unitsOf a d.length) (hbmWr a d s)
    else
      let s' := if d.length = 128 then s else charge (place s a).1 n g 2 s
      allocLine ln (putB (devRd s (128 * ln) 128) (a % 128) d) true (hint == 2) g s'

/-- Read of a byte range, line by line. -/
def memReadPieces (n g hint : Nat) : List (Nat × Bytes) → State → Bytes × State
  | [], s => ([], s)
  | p :: t, s =>
    let r := lineRead n g hint p.1 p.2.length s
    let q := memReadPieces n g hint t r.2
    (r.1 ++ q.1, q.2)

/-- A read that has reached its slices: for partition `n`, group `g`, with a hint. -/
def sliceGet (n g hint a len : Nat) (s : State) : Bytes × State := memReadPieces n g hint (piecesOf a (zeros len)) s

/-- A write that has reached its slices. -/
def slicePut (n g hint a : Nat) (d : Bytes) (s : State) : State :=
  (piecesOf a d).foldl (fun s p => lineWrite n g hint p.1 p.2 s) s

/-! ## Adders (R305) -/

/-- One FP32 add at memory (R305): subnormals flush, overflow gives infinity, a NaN gives 0x7FC0_0000. -/
def addFp32 (m x : Nat) : Nat := toFp32 (numAdd (fp32Num m) (fp32Num x))

/-- Elements of an add: `w` bytes each, added to what memory holds. -/
def addElems (fp : Bool) : Nat → Bytes → Bytes → Bytes
  | 0, _, _ => []
  | k + 1, m, d =>
    let w := if fp then 4 else 8
    let r := if fp then addFp32 (leAt m 0 4) (leAt d 0 4) else (leAt m 0 8 + leAt d 0 8) % 2 ^ 64
    leBytes w r ++ addElems fp k (m.drop w) (d.drop w)

/-- An add of whole elements that has reached its slices: each line is read, by its hint on a miss, and the sums stored; address
bits below the element size are ignored. A hit is never dropped, so LAST reads as STREAM does. -/
def sliceAdd (n g hint : Nat) (fp : Bool) (a : Nat) (d : Bytes) (s : State) : State :=
  let w := if fp then 4 else 8
  let a := a / w * w
  let k := d.length / w
  let r := sliceGet n g (if hint = 3 then 1 else hint) a (w * k) s
  slicePut n g hint a (addElems fp k r.1 d) r.2

/-! ## Events, errors and repair (R307, R309, R311, R312, R320) -/

/-- A bit of MEM_EVENT with its stack (R320). -/
def memEvent (bit st : Nat) (s : State) : State :=
  setReg (bMem + 0x10) (BitVec.ofNat 32 (setBits (setBits (regN s (bMem + 0x10)) bit 1 1) 16 5 st)) s

/-- Per-stack counters (R317, R321): 0 CE, 1 UE. -/
def incStack (which st : Nat) (s : State) : State := incReg (bMem + 0x100 + 0x10 * st + 4 * which) s

/-- 24 hours in ns. -/
abbrev day : Nat := 86400000000000

/-- A stack becomes RETIRE_PENDING (R312). -/
def retirePending (st : Nat) (s : State) : State :=
  if (getStack s st).st = .active then
    postEvent { kind := 0x19, detail := packB [(1, st), (1, 1)] } (memEvent 3 st (updStack st (fun k => { k with st := .retirePending }) s))
  else s

/-- Soft repair of the row of a stack offset, or RETIRE_PENDING when its bank group has no spare row left (R311). -/
def repairRow (st off : Nat) (s : State) : State :=
  let row := Config.rowOf off
  let grp := Config.groupOf row
  if (getStack s st).rowsUsed.get 0 grp < 2 then
    postEvent { kind := 0x1A, detail := packB [(1, st), (1, 0)] } <| queueRepair 9 (st + 32 * row)
      (memEvent 2 st (updStack st (fun k =>
        { k with rowsUsed := Tbl.upd 0 k.rowsUsed grp fun n => n + 1, softRows := row :: k.softRows
                 rowCe := Tbl.set [] k.rowCe row [] }) s))
  else retirePending st s

/-- SCRUB_HOURS and PPR_CE_LIMIT (R318). -/
def scrubHours (s : State) : Nat := let h := bitsOf (regN s bMem) 8 8; if h = 0 then 24 else h
def pprLimit (s : State) : Nat := let h := bitsOf (regN s bMem) 16 8; if h = 0 then 4 else h

/-- A corrected read (R309): counted, and its row repaired at PPR_CE_LIMIT of them within SCRUB_HOURS (R311). -/
def correctedRead (a : Nat) (s : State) : State :=
  let p := place s a
  let row := Config.rowOf p.2.1
  let s := memEvent 0 p.1 (incStack 0 p.1 s)
  let old := ((getStack s p.1).rowCe.get [] row).filter fun t => decide (s.clock < t + scrubHours s * 3600000000000)
  let s := updStack p.1 (fun k => { k with rowCe := Tbl.set [] k.rowCe row (s.clock :: old) }) s
  if pprLimit s ≤ old.length + 1 then repairRow p.1 p.2.1 s else s

/-- The KIND 1 region-table entry that holds an address in one of its halves. -/
def weightEntry (p : Part) (a : Nat) : Option Nat :=
  (List.range p.regions.length).find? fun i =>
    match p.regions[i]? with
    | some r => r.kind == 1 && ((decide (r.half0 ≤ a) && decide (a < r.half0 + r.len)) ||
        (decide (r.half1 ≤ a) && decide (a < r.half1 + r.len)))
    | none => false

/-- A line of the firmware region is lost (R309): its second copy serves, or it belongs to one image of the translation cache (R208), whose
digest then fails. Which it is, is a free value (log entry 129). -/
def damageImage (s : State) : State :=
  let l := s.ldr
  let n := l.natives.length
  if n + l.datas.length = 0 then s
  else
    let r := drawBits 32 s
    let i := r.1.toNat % (n + l.datas.length + 1)
    { r.2 with ldr := { l with natives := ((List.range n).zip l.natives).map fun e => if e.1 = i then { e.2 with damaged := true } else e.2
                               datas := ((List.range l.datas.length).zip l.datas).map fun e =>
                                 if n + e.1 = i then { e.2 with damaged := true } else e.2 } }

/-- A line read that stays uncorrectable, or a lost dirty line (R309). -/
def lostLine (a : Nat) (s : State) : State :=
  let p := place s a
  let line := a / 128 * 128
  let s := memEvent 1 p.1 (incStack 1 p.1 s)
  let ues := s.clock :: (getStack s p.1).ues.filter fun t => decide (s.clock < t + day)
  let s := updStack p.1 (fun k => { k with ues := ues }) s
  let s := if 16 ≤ ues.length then retirePending p.1 s else s
  let s := repairRow p.1 p.2.1 s
  if inFirmware s a then postEvent { kind := 0x06, detail := line } (damageImage s)
  else
    let s := spoil line 128 s
    let n := partOfAddr s a
    if (openStep s n).isSome then
      let s := postEvent { kind := 0x06, part := n, detail := line } s
      let s := match weightEntry (getPart s n) a with
        | some i => updStep n (fun t => { t with weightLost := if t.weightLost.contains i then t.weightLost else t.weightLost ++ [i] }) s
        | none => s
      raiseCause n cCHECKSUM s
    else postEvent { kind := 0x06, status := 0xFF, part := n, detail := line } s

/-- A descriptor reads device memory at an address: a COPY's source, a DIGEST's tensors. -/
def readsAt (d : Desc) (a : Nat) : Bool :=
  let has (b n : Nat) : Bool := decide (b ≤ a) && decide (a < b + n)
  if d.opcode == 0x08 then !bitOf (d.at 40 1) 0 && !bitOf (d.at 16 8) 41 && has (d.at 16 8 % 2 ^ 41) (d.at 32 8)
  else if d.opcode == 0x2B then has (d.at 16 8) (4 * d.at 24 4) || (d.at 32 8 != 0 && has (d.at 32 8) (32 * d.at 24 4))
  else false

/-- A code noted for what covers an access of a partition's group (R13, R309): the open step's commit, the group's streams, whose cores'
transfers are, and a COPY or DIGEST of the partition that reads there. What such a read meets is given by the MEMORY_READ of its
line (log entry 125). -/
def noteCover (n g a : Nat) (c : Status) (s : State) : State :=
  let mine (d : Desc) : Bool := d.fn == n && d.live &&
    ((d.opcode == 0x02 && d.at 16 2 == g && (d.phase == .started || d.phase == .held)) || readsAt d a)
  (s.descs.filter mine).foldl (fun s d => noteDesc d.id c s) (noteStep n c s)

/-- A line is lost under an access of a partition's group; with no step open what covers the access ends INTERNAL_ERROR (R309). -/
def lostRead (n g a : Nat) (s : State) : State :=
  let s := lostLine a s
  if (openStep s n).isNone && !inFirmware s a then noteCover n g a .internalError s else s

/-- What a read of an address met (R309). A reread moves the line again and pays for it (R303): one that passes counts as the first,
one that fails for good as the third (log entry 117). -/
def readError (n g a : Nat) (e : ReadErr) (s : State) : State :=
  match e with
  | .none => s
  | .corrected => correctedRead a s
  | .cleanLine =>
    match getLine s (a / 128) with
    | some l =>
      if l.dirty then s
      else setLine (a / 128) none (memEvent 0 (place s a).1 (incStack 0 (place s a).1 s))
    | none => s
  | .rereadOk => noteCover n g a .okRetried (charge (place s a).1 n g 2 s)
  | .lost => lostRead n g a (charge (place s a).1 n g 6 s)

/-- What duplicated adder rows gave (R307): row faults within 24 hours, spare rows, disabled pairs. -/
def adderVote (n g a : Nat) (r : AdderResult) (s : State) : State :=
  match r with
  | .agree => s
  | .allDiffer => lostRead n g a s
  | .outvoted row =>
    let st := (place s a).1
    let k := getStack s st
    let old := (k.adderFaults.get [] row).filter fun t => decide (s.clock < t + day)
    let addr := bMem + 0x10C + 0x10 * st
    let s := setReg addr (BitVec.ofNat 32 (setBits (regN s addr) 8 8 (satTo 8 (bitsOf (regN s addr) 8 8 + 1)))) s
    if old.isEmpty then updStack st (fun k => { k with adderFaults := Tbl.set [] k.adderFaults row [s.clock] }) s
    else if 0 < k.adderSpares then
      postEvent { kind := 0x1A, detail := packB [(1, st), (1, 2)] } <| queueRepair 3 (256 * st + row) <| memEvent 6 st (updStack st (fun k =>
        { k with adderFaults := Tbl.set [] k.adderFaults row [], adderSpares := k.adderSpares - 1 }) s)
    else
      postEvent { kind := 0x1A, detail := packB [(1, st), (1, 3)] } <| queueRepair 6 (256 * st + row) <| memEvent 7 st (updStack st (fun k =>
        { k with adderFaults := Tbl.set [] k.adderFaults row [], adderDisabled := min 7 (k.adderDisabled + 1) }) s)

/-! ## Requests that wait (R296, R303, R306) -/

/-- A read, write or add of MEMORY_READ, MEMORY_WRITE or MEMORY_ADD is carried out at its local address. -/
def memServe (w : MemWait) (s : State) : State :=
  let n := w.req.part
  let g := w.req.group
  if w.kind = 0 then
    let r := sliceGet n g w.req.hint w.place w.len (readError n g w.place w.err s)
    emit (.memData r.1) r.2
  else if w.kind = 1 then emit .memAck (slicePut n g w.req.hint w.place w.data s)
  else
    let s := sliceAdd n g w.req.hint (w.kind == 2) w.place w.data s
    emit .memAck (adderVote n g w.place w.res s)

/-- A waiting request reaches lines of a byte range; each lies in one granule of R292. -/
def MemWait.meets (w : MemWait) (a len : Nat) : Bool := decide (a / 256 ≤ w.place / 256) && decide (w.place / 256 * 256 < a + len)

/-- Requests that wait and reach lines of a byte range are carried out, in their order, before a later access to those lines (R296). -/
def serveBefore (a len : Nat) (s : State) : State :=
  if s.mem.waiting.isEmpty then s
  else
    let now := s.mem.waiting.filter fun w => w.meets a len
    now.foldl (fun s w => memServe w s) { s with mem := { s.mem with waiting := s.mem.waiting.filter fun w => !w.meets a len } }

/-- `len` bytes of local memory read for partition `n`, group `g`, with a hint. -/
def memGet (n g hint a len : Nat) (s : State) : Bytes × State := sliceGet n g hint a len (serveBefore a len s)

/-- Bytes of local memory written for partition `n`, group `g`, with a hint. -/
def memPut (n g hint a : Nat) (d : Bytes) (s : State) : State := slicePut n g hint a d (serveBefore a d.length s)

/-- An add at memory (R305, R306). -/
def memAdd (n g hint : Nat) (fp : Bool) (a : Nat) (d : Bytes) (s : State) : State := sliceAdd n g hint fp a d (serveBefore a d.length s)

/-! ## Quotas (R295, R236) -/

/-- Two byte ranges share a byte. -/
def rangesMeet (a n b m : Nat) : Bool := decide (0 < n) && decide (0 < m) && decide (a < b + m) && decide (b < a + n)

/-- Range of the stash region and of the remote page cache region of a partition (R314, R315). -/
def stashRange (s : State) (n : Nat) : Nat × Nat :=
  (reg64 s (ctx bMemCtx n 0x10), bitsOf (regN s (ctx bMemCtx n 0x18)) 0 17 * 2097152)
def rpcRange (s : State) (n : Nat) : Nat × Nat :=
  (reg64 s (ctx bMemCtx n 0x2C), bitsOf (regN s (ctx bMemCtx n 0x34)) 0 15 * 65536)

/-- Ranges outside the writable quota of a started partition (R231, R236, R241, R289): `half` is 0 or 1. -/
def protectedRanges (s : State) (n : Nat) : List (Nat × Nat) :=
  let p := getPart s n
  let always :=
    if p.st == .started then [(reg64 s (ctx bSlwCtx n 0x2C), 32 * bitsOf (regN s (ctx bSlwCtx n 0x34)) 0 13)] else []
  match p.step with
  | none => always
  | some t =>
    always ++ [(t.holdBase, t.holdLen),
      (reg64 s (ctx bGovCtx n 0x10), 64 * bitsOf (regN s (ctx bGovCtx n 0x18)) 0 13),
      (reg64 s (ctx bSlwCtx n 0x08), 2 * bitsOf (regN s (ctx bSlwCtx n 0x10)) 0 13),
      (reg64 s (ctx bSlwCtx n 0x14), 8 * p.pcount)] ++
      p.regions.map fun r => (if t.num.toNat % 2 = 0 then r.half0 else r.half1, r.len)

/-- A plain local access for partition `n` is accepted (R295): attribute bits zero, inside the quota and the partition
space, outside the stash, page cache and collective scratch regions (R410), and for a write outside the protected ranges. Function PF0, which no
partition serves, reaches the partition space (DEDUCED, log entry 9). -/
def quotaOk (s : State) (n a len : Nat) (write : Bool) : Bool :=
  let p := getPart s n
  let inQuota := n == 0 || (decide (p.qbase * gib ≤ a) && decide (a + len ≤ (p.qbase + p.qlen) * gib))
  let st := stashRange s n
  let rp := rpcRange s n
  decide (a + len ≤ partSpace s) && inQuota &&
    (n == 0 || (!(rangesMeet a len st.1 st.2) && !(rangesMeet a len rp.1 rp.2) &&
      !(rangesMeet a len (reg64 s (ctx bCollCtx n 0x0C)) (4194304 * bitsOf (regN s (ctx bCollCtx n 0x14)) 0 9)) &&
      !(write && (protectedRanges s n).any fun r => rangesMeet a len r.1 r.2)))

/-! ## The activation stash (R223 to R227) -/

/-- Bytes of a stash granule. -/
abbrev granuleSize : Nat := 2097152

/-- Slot, entry and offset of a stash address (R223). -/
def stashSlot (a : Nat) : Nat := bitsOf a 37 4
def stashEntry (a : Nat) : Nat := bitsOf a 28 9
def stashOff (a : Nat) : Nat := bitsOf a 0 28

/-- Lowest number not in a list, below a bound. -/
def lowestFree (used : List Nat) (n : Nat) : Option Nat :=
  match (List.range (used.length + 1)).find? fun k => !used.contains k with
  | some k => if k < n then some k else none
  | none => none

/-- Every slot of a partition is released (R225): granules returned, maps cleared. A pool taken as full stays so for the step (R224). -/
def stashReleaseAll (n : Nat) (s : State) : State := updPart n (fun p => { p with stash := { poolFull := p.stash.poolFull } }) s

/-- The pool is taken as free again: a step opens, or the partition stops (R224). -/
def poolFree (n : Nat) (s : State) : State := updPart n (fun p => { p with stash := { p.stash with poolFull := false } }) s

/-- One slot is released by a write to its entry 510 (R225). -/
def stashRelease (n slot : Nat) (s : State) : State :=
  updPart n (fun p => { p with stash :=
    { p.stash with granules := p.stash.granules.filter fun g => g.slot != slot
                   marks := p.stash.marks.filter fun m => m.1 != slot
                   written := p.stash.written.filter fun m => m.1 != slot } }) s

/-- An entry is marked RECOMPUTE (R224, R227): its granules return, a record is written, the step notes the code. -/
def stashMark (n slot entry : Nat) (s : State) : State :=
  let h := (getPart s n).stash
  if h.marks.contains (slot, entry) then s else
    postEvent { kind := 0x1F, part := n, detail := packB [(1, slot), (2, entry), (1, 0)] }
      (noteStep n .stashRecompute
        (updPart n (fun p => { p with stash :=
          { p.stash with granules := p.stash.granules.filter fun g => !(g.slot == slot && g.entry == entry)
                         marks := p.stash.marks ++ [(slot, entry)]
                         written := if p.stash.written.contains (slot, entry) then p.stash.written
                                    else p.stash.written ++ [(slot, entry)] } }) s))

/-- The remote pool serves: configured and not taken as full (R224); `up` says that its node can be reached. -/
def poolServes (s : State) (n : Nat) (up : Bool) : Bool :=
  bitOf (regN s (ctx bMemCtx n 0x1C)) 16 && up && !(getPart s n).stash.poolFull

/-- Space for granule `idx` of an entry: local first, then the pool, else the entry is marked (R224, R314). -/
def stashGranule (n slot entry idx : Nat) (up : Bool) (s : State) : State :=
  let h := (getPart s n).stash
  if h.granules.any fun g => g.slot == slot && g.entry == entry && g.index == idx then s
  else
    let used (r : Bool) := (h.granules.filter fun g => g.remote == r).map Granule.place
    let add (r : Bool) (k : Nat) (s : State) := updPart n (fun p => { p with stash :=
      { p.stash with granules := p.stash.granules ++ [{ slot := slot, entry := entry, index := idx, remote := r, place := k }] } }) s
    match lowestFree (used false) (bitsOf (regN s (ctx bMemCtx n 0x18)) 0 17) with
    | some k => add false k s
    | none =>
      match (if poolServes s n up then lowestFree (used true) (bitsOf (regN s (ctx bMemCtx n 0x28)) 0 17) else none) with
      | some k => postEvent { kind := 0x1F, part := n, detail := packB [(1, slot), (2, entry), (1, 1)] } (add true k s)
      | none => stashMark n slot entry s

/-- Where a stash access lands. -/
inductive StashPlace where
  /-- A local byte address. -/
  | here (a : Nat)
  /-- A byte address on the pool's node. -/
  | there (a : Nat)
  | discard
  | refused
  /-- Bytes the device gives itself: the map of a slot, zero, or unspecified bytes. -/
  | bytes (b : Bytes)
  | unspecified
  deriving DecidableEq, Repr

/-- The map of a slot (R225). -/
def stashMap (h : Stash) (slot : Nat) : Bytes :=
  (List.range 64).map fun i => BitVec.ofNat 8
    (((List.range 8).map fun j => if h.marks.contains (slot, 8 * i + j) then 2 ^ j else 0).sum)

/-- The address of an allocated granule's byte. -/
def granulePlace (s : State) (n : Nat) (g : Granule) (off : Nat) : StashPlace :=
  if g.remote then .there (reg64 s (ctx bMemCtx n 0x20) + granuleSize * g.place + off % granuleSize)
  else .here (reg64 s (ctx bMemCtx n 0x10) + granuleSize * g.place + off % granuleSize)

/-- A write of bytes within one granule reaches the allocator (R224, R225). -/
def stashWrite (n a : Nat) (up : Bool) (s : State) : StashPlace × State :=
  let slot := stashSlot a
  let entry := stashEntry a
  if entry = 511 then (.discard, s)
  else if entry = 510 then (.discard, stashRelease n slot s)
  else
    let h := (getPart s n).stash
    let first := !h.written.contains (slot, entry)
    if h.marks.contains (slot, entry) then (.discard, s)
    else if first && (h.marks.any fun m => m.1 == slot) then (.discard, stashMark n slot entry s)
    else
      let s := if first then updPart n (fun p => { p with stash := { p.stash with written := p.stash.written ++ [(slot, entry)] } }) s else s
      let s := stashGranule n slot entry (stashOff a / granuleSize) up s
      match (getPart s n).stash.granules.find? fun g =>
        g.slot == slot && g.entry == entry && g.index == stashOff a / granuleSize with
      | some g => (granulePlace s n g (stashOff a), s)
      | none => (.discard, s)

/-- A read of bytes within one granule (R225). -/
def stashRead (n a len : Nat) (s : State) : StashPlace :=
  let slot := stashSlot a
  let entry := stashEntry a
  let h := (getPart s n).stash
  if entry = 510 then .bytes (zeros len)
  else if entry = 511 then .bytes (sliceB (stashMap h slot) (stashOff a) len)
  else if h.marks.contains (slot, entry) || !(h.written.any fun m => m.1 == slot) then .refused
  else match h.granules.find? fun g => g.slot == slot && g.entry == entry && g.index == stashOff a / granuleSize with
    | some g => granulePlace s n g (stashOff a)
    | none => .unspecified

/-- The pool is taken as full after a remote write failed, and the entry is marked (R224). -/
def stashPoolFailed (n slot entry : Nat) (s : State) : State :=
  stashMark n slot entry (updPart n (fun p => { p with stash := { p.stash with poolFull := true } }) s)

/-! ## The remote page cache (R315) -/

/-- Number of a page: its node and its 64 KiB page there. -/
def rpcPage (node a : Nat) : Nat := node * 2 ^ 25 + a / 65536

/-- HOT_READS and the number of frames. -/
def hotReads (s : State) (n : Nat) : Nat := let h := bitsOf (regN s (ctx bMemCtx n 0x38)) 0 8; if h = 0 then 16 else h
def rpcLen (s : State) (n : Nat) : Nat := bitsOf (regN s (ctx bMemCtx n 0x34)) 0 15

/-- The frame that serves a page. -/
def rpcFrame (p : Part) (page : Nat) : Option Nat :=
  (p.rpc.frames.find? fun e => e.2.page == page && e.2.valid).map Prod.fst

/-- The frame a fetch takes: a free one, else the least recently used. -/
def rpcVictim (p : Part) (len : Nat) : Option Nat :=
  match lowestFree (p.rpc.frames.map Prod.fst) len with
  | some k => some k
  | none => (findMin (fun (e : Nat × RpcFrame) => e.2.used) p.rpc.frames).map Prod.fst

/-- An RM read of a page that has no copy is counted; at HOT_READS a frame is taken for it, whose fetch is to start: true. -/
def rpcCount (n page : Nat) (s : State) : Bool × State :=
  let p := getPart s n
  if rpcLen s n = 0 then (false, s) else
    let old := assocD 0 page p.rpc.counts
    let counts := ((page, old + 1) :: p.rpc.counts.filter fun e => e.1 != page).take 4096
    let s := updPart n (fun p => { p with rpc := { p.rpc with counts := counts } }) s
    if hotReads s n ≤ old + 1 && !(p.rpc.frames.any fun e => e.2.page == page) then
      match rpcVictim p (rpcLen s n) with
      | some k => (true, updPart n (fun p => { p with rpc := { p.rpc with frames :=
          (k, { page := page, valid := false, used := s.mem.tick }) :: p.rpc.frames.filter fun e => e.1 != k } }) s)
      | none => (false, s)
    else (false, s)

/-- A read served from a frame, for a group and with a hint (R298, R304): its bytes, and the frame becomes the most recently used. -/
def rpcServe (n g hint frame a len : Nat) (s : State) : Bytes × State :=
  let t := nextTick s
  let use (l : List (Nat × RpcFrame)) := l.map fun e => if e.1 = frame then (e.1, { e.2 with used := t.1 }) else e
  let s := updPart n (fun p => { p with rpc := { p.rpc with frames := use p.rpc.frames } }) t.2
  memGet n g hint ((rpcRange s n).1 + 65536 * frame + a % 65536) len s

end Sys2Proof.Machine
end

