-- ==== Sys2Proof/Machine/Network.lean ====
section
/-!
DEFINITION. Ports and packets of the Geazal fabric below the sequences (R361 to R371): flows and ports, credit, headers
and ECRC, replies.
-/
namespace Sys2Proof.Machine

/-! ## Ports (R355, R359, R371) -/

/-- The device's node ID and reset epoch (R388, R374). -/
def nodeId (s : State) : Nat := bitsOf (regN s (bGzl + 4)) 0 16

/-- A port. -/
def getPort (s : State) (p : Nat) : Port := s.fab.ports.get {} p

/-- A port changed. -/
def updPort (p : Nat) (f : Port → Port) (s : State) : State :=
  { s with fab := { s.fab with ports := Tbl.upd {} s.fab.ports p f } }

/-- A port is UP. -/
def portUp (s : State) (p : Nat) : Bool := (getPort s p).st == .up

/-- What the sender knows of a destination (R373). -/
def getDest (s : State) (node : Nat) : Dest := s.fab.dests.get {} node

/-- A destination changed. -/
def updDest (node : Nat) (f : Dest → Dest) (s : State) : State :=
  { s with fab := { s.fab with dests := Tbl.upd {} s.fab.dests node f } }

/-- Flow of a request (R370). -/
def flowOf (a node : Nat) : Nat :=
  let g := a / 256
  (g ^^^ (g >>> 3) ^^^ (g >>> 6) ^^^ node) % 8

/-- Ports a flow can take, in order: its own, then its substitutes (R371). -/
def flowOrder (f : Nat) : List Nat := (List.range 8).map fun i => (f + i) % 8

/-- The port of a flow by R371: the first UP one. -/
def flowPort (s : State) (f : Nat) : Option Nat := (flowOrder f).find? fun p => portUp s p

/-- The port of a flow to a destination: ports tried for it are skipped (R373). -/
def destPort (s : State) (node f : Nat) : Option Nat :=
  (flowOrder f).find? fun p => portUp s p && !(getDest s node).tried.contains p

/-- A packet of flow `f` on port `p` is degraded: a substitute port or one below ×16 (R378). -/
def portDegraded (s : State) (p f : Nat) : Bool := p != f || (getPort s p).width != 3

/-! ## Packets (R363, R365) -/

/-- Bytes 0 to 27 of a packet's header. -/
def pktHeader (k : Packet) : Bytes :=
  leBytes 1 k.type ++
  leBytes 1 (k.vc % 8 + 8 * b2n k.mcast + 16 * b2n k.stepValid + 32 * (k.attempt % 4) + 128 * b2n k.resync) ++
  leBytes 2 k.payload.length ++ leBytes 2 k.dst ++ leBytes 2 k.src ++ leBytes 3 k.psn ++
  leBytes 1 (k.flow % 8 + 8 * (k.hint % 4)) ++ leBytes 2 k.job ++ leBytes 2 k.tag ++ leBytes 6 k.addr.toNat ++
  leBytes 3 k.step.toNat ++ leBytes 1 k.epoch.toNat ++ leBytes 2 k.tspec

/-- ECRC of a packet (R365). -/
def pktEcrc (k : Packet) : Word := crc32c (pktHeader k ++ k.ext ++ k.payload)

/-- A packet with its ECRC. -/
def sealPacket (k : Packet) : Packet := { k with ecrc := pktEcrc k }

/-- Credit units of a packet (R363). -/
def pktUnits (k : Packet) : Nat := (32 + k.ext.length + k.payload.length + 63) / 64

/-- Codewords a packet takes (R358, R361): 16-byte slots, four to a flit, ten flits to a codeword; a packet starts a codeword of its own
(log entry 120). -/
def pktCodewords (k : Packet) : Nat :=
  let slots := (32 + k.ext.length + k.payload.length + 15) / 16
  ((slots + 3) / 4 + 9) / 10

/-- Something leaves a port in some codewords, and its retry buffer keeps it until they are acknowledged (R362). -/
def portPut (p n : Nat) (o : Out) (s : State) : State :=
  emit o (updPort p (fun q =>
    { q with txSeq := (q.txSeq + n) % 1024, kept := q.kept ++ [((q.txSeq + n + 1023) % 1024, o)], sinceLink := q.sinceLink + n }) s)

/-- The 64 bytes of a link control flit (R361): its kind and its fields, as (offset, bytes, value). -/
def linkFlit (kind : Nat) (fields : List (Nat × Nat × Nat)) : Bytes :=
  fields.foldl (fun b f => putB b f.1 (leBytes f.2.1 f.2.2)) (leBytes 1 kind ++ zeros 63)

/-- A link control flit leaves a port, in a codeword of its own. -/
def sendFlit (p kind : Nat) (fields : List (Nat × Nat × Nat)) (s : State) : State := portPut p 1 (.flit p (linkFlit kind fields)) s

/-- Eight 16-bit fields from an offset on. -/
def eightFields (off : Nat) (l : List Nat) : List (Nat × Nat × Nat) := ((List.range 8).zip l).map fun e => (off + 2 * e.1, 2, e.2 % 65536)

/-- A LINK flit returns credit and acknowledges codewords (R361, R364): ACK_CSEQ, RESEND, CRED0 to CRED7. -/
def sendLink (p : Nat) (resend : Bool) (s : State) : State :=
  let q := getPort s p
  updPort p (fun q => { q with sinceLink := 0 })
    (sendFlit p 0x01 ((2, 2, q.rxSeq + 32768 * b2n resend) :: eightFields 4 ((List.range 8).map fun v => q.freed.get 0 v)) s)

/-- A LINK flit leaves at least once every 64 codewords (R361). -/
def linkDue (p : Nat) (s : State) : State := if 64 ≤ (getPort s p).sinceLink then sendLink p false s else s

/-- Codewords that are not acknowledged. -/
def Port.unacked (q : Port) : Nat := (q.txSeq + 1024 - q.txAcked) % 1024

/-- A packet may leave a port: credit of its VC, and room in the window of 512 codewords (R362, R364). -/
def Port.mayLeave (q : Port) (k : Packet) : Bool :=
  decide (pktUnits k ≤ q.credits.get 0 k.vc) && decide (q.unacked + pktCodewords k ≤ 512)

/-- A packet leaves a port and spends credit of its VC. -/
def packetLeaves (p : Nat) (k : Packet) (s : State) : State :=
  portPut p (pktCodewords k) (.packet p k) (updPort p (fun q =>
    { q with credits := Tbl.set 0 q.credits k.vc (q.credits.get 0 k.vc - pktUnits k) }) s)

/-- A packet leaves a port, or waits there for credit of its VC and for the window; an earlier packet of its VC goes first (R364). -/
def portSend (p : Nat) (k : Packet) (s : State) : State :=
  let q := getPort s p
  if q.queue.any (fun o => o.vc == k.vc) || !q.mayLeave k then
    updPort p (fun q => { q with queue := q.queue ++ [k], since := if q.queue.isEmpty then s.clock else q.since }) s
  else linkDue p (packetLeaves p k s)

/-- Packets that wait on a port leave as credit and window allow; the first argument bounds their number. -/
def portDrain (p : Nat) : Nat → List Packet → List Packet → State → State
  | 0, _, _, s => s
  | _, [], kept, s => linkDue p (updPort p (fun q => { q with queue := kept.reverse }) s)
  | n + 1, k :: t, kept, s =>
    if kept.any (fun o => o.vc == k.vc) || !(getPort s p).mayLeave k then portDrain p n t (k :: kept) s
    else portDrain p n t kept (packetLeaves p k s)

/-- Codewords have come on a port (R358, R362). -/
def rxCodewords (p n : Nat) (s : State) : State :=
  linkDue p (updPort p (fun q => { q with rxSeq := (q.rxSeq + n) % 1024, sinceLink := q.sinceLink + n }) s)

/-- A link control flit other than LINK has come: an UP port acknowledges its codeword at once (R361). -/
def rxFlit (p : Nat) (s : State) : State :=
  let s := rxCodewords p 1 s
  if portUp s p then sendLink p false s else s

/-- The buffer of an arrived packet is freed and its credit returned (R364); a port that is not UP has no credit to return. -/
def freeBuffer (p : Nat) (k : Packet) (s : State) : State :=
  if portUp s p then sendLink p false (updPort p (fun q => { q with freed := Tbl.upd 0 q.freed k.vc fun n => n + pktUnits k }) s)
  else s

/-- An event of the fabric (R389): bit and port. -/
def gzlEvent (bit p : Nat) (s : State) : State :=
  setReg (bGzl + 8) (BitVec.ofNat 32 (setBits (setBits (regN s (bGzl + 8)) bit 1 1) 16 3 p)) s

/-! ## Replies (R366, R372) -/

/-- A reply to a request: type, VC, TSPEC, the PSN it answers, payload. Replies are not sequenced. -/
def replyTo (s : State) (r : Packet) (type vc tspec psn : Nat) (data : Bytes) : Packet :=
  sealPacket
    { type := type, vc := vc, mcast := false, stepValid := false, attempt := 0, resync := false, dst := r.src
      src := nodeId s, psn := psn, flow := r.flow, hint := 0, job := r.job, tag := r.tag, addr := 0, step := 0
      epoch := s.fer.epoch, tspec := tspec, ext := [], payload := data, ecrc := 0 }

/-- A reply leaves on the port its request came on, or the first UP port of its flow; with none it is lost. -/
def sendReply (p : Nat) (k : Packet) (s : State) : State :=
  if portUp s p then portSend p k s
  else match flowPort s k.flow with
    | some q => portSend q k s
    | none => s

/-- Key of a sequence (R372). -/
def seqKey (node flow vc : Nat) : Nat := 64 * node + 8 * flow + vc

/-- A receiving sequence. -/
def getRx (s : State) (node flow vc : Nat) : SeqRx := s.fab.rx.get {} (seqKey node flow vc)

/-- A receiving sequence changed. -/
def updRx (node flow vc : Nat) (f : SeqRx → SeqRx) (s : State) : State :=
  { s with fab := { s.fab with rx := Tbl.upd {} s.fab.rx (seqKey node flow vc) f } }

/-- A sending sequence. -/
def getTx (s : State) (node flow vc : Nat) : SeqTx := s.fab.tx.get {} (seqKey node flow vc)

/-- A sending sequence changed. -/
def updTx (node flow vc : Nat) (f : SeqTx → SeqTx) (s : State) : State :=
  { s with fab := { s.fab with tx := Tbl.upd {} s.fab.tx (seqKey node flow vc) f } }

/-- A request packet with only what a reply needs of it: source node, flow, VC, PSN, and the TAG and JOB that replies carry. -/
def replyStub (node flow vc psn tag job : Nat) : Packet :=
  { type := 0, vc := vc, mcast := false, stepValid := false, attempt := 0, resync := false, dst := 0, src := node
    psn := psn, flow := flow, hint := 0, job := job, tag := tag, addr := 0, step := 0, epoch := 0, tspec := 0
    ext := [], payload := [], ecrc := 0 }

/-- The VERDICT of a remote WAIT: 0 satisfied, 1 deadline, 2 saturated, 3 out of range (R366); kept for duplicates. -/
def sendVerdict (node flow vc psn tag job port v : Nat) (s : State) : State :=
  sendReply port (replyTo s (replyStub node flow vc psn tag job) 0x13 6 v psn [])
    (updRx node flow vc (fun r =>
      { r with openPsns := r.openPsns.filter fun k => k != psn, verdicts := ((psn, v) :: r.verdicts).take 512 }) s)

/-- The acknowledgement of one request (R366): 0 OK, 1 STALE, 2 QUOTA, 3 NOJOB, 4 HELD. -/
def sendAck (p : Nat) (r : Packet) (status : Nat) (s : State) : State :=
  sendReply p (replyTo s r 0x10 (r.vc + 4) status r.psn []) s

/-- The started partition that holds a job tag (R375). -/
def jobPart (s : State) (job : Nat) : Option Nat :=
  if job = 0 then none
  else partNums.find? fun n => isStarted s n && bitsOf (regN s (ctx bGzlCtx n 0)) 0 16 == job

/-- A partition's job tag. -/
def partJob (s : State) (n : Nat) : Nat := bitsOf (regN s (ctx bGzlCtx n 0)) 0 16

/-! ## Origins of requests -/

/-- Origins of the requests of a fabric side changed: a stopped unit no longer takes their replies. -/
def dropOrigins (gone : Origin → Bool) (s : State) : State :=
  let fix (o : Sent) : Sent := if gone o.origin then { o with origin := .none } else o
  let seq (t : SeqTx) : SeqTx := { t with unacked := t.unacked.map fix, waitingQ := t.waitingQ.map fix }
  { s with fab := { s.fab with tx := s.fab.tx.map fun e => (e.1, seq e.2) } }

/-- An origin is a fetch of a page of a partition, or of any page of it. -/
def fetches (n : Nat) (page : Option Nat) : Origin → Bool
  | .rpc m p => m == n && (page.isNone || page == some p)
  | _ => false

/-- Every copy of a remote page dropped, every fetch abandoned and the counts cleared (R315). -/
def rpcClear (n : Nat) (s : State) : State := dropOrigins (fetches n none) (updPart n (fun p => { p with rpc := {} }) s)

/-- A page's copy is dropped, or its fetch abandoned, by a write of the partition (R315). -/
def rpcDrop (n page : Nat) (s : State) : State :=
  dropOrigins (fetches n (some page))
    (updPart n (fun p => { p with rpc := { p.rpc with frames := p.rpc.frames.filter fun e => e.2.page != page } }) s)

/-- Requests not yet acknowledged with an origin. -/
def openRequests (s : State) (is : Origin → Bool) : Nat :=
  (s.fab.tx.map fun e => ((e.2.unacked ++ e.2.waitingQ).filter fun o => is o.origin).length).sum

end Sys2Proof.Machine
end

