-- ==== Sys2Proof/Machine/Members.lean ====
section
/-!
DEFINITION. A collective as its member sees it: its descriptor's fields (R403, R413), sequence number and signature (R407), result record
(R412), members, pods and parents (R392 to R394), and what its destinations hold after an ending (R411).
-/
namespace Sys2Proof.Machine

/-- A collective of a partition. -/
def findColl (s : State) (n id : Nat) : Option Coll := (getPart s n).colls.find? fun c => c.id == id

/-- A collective changed. -/
def updColl (n id : Nat) (f : Coll → Coll) (s : State) : State :=
  updPart n (fun p => { p with colls := p.colls.map fun c => if c.id = id then f c else c }) s

/-- A collective has not ended in this attempt. -/
def Coll.open (c : Coll) : Bool :=
  match c.phase with
  | .waiting => true
  | .armed => true
  | _ => false

/-- The collective descriptor's fields (R403). -/
def cOp (d : Desc) : Nat := bitsOf (d.at 16 1) 0 4
def cFlags (d : Desc) : Nat := d.at 17 1
def cRoot (d : Desc) : Nat := d.at 18 2
def cCseq (d : Desc) : Nat := d.at 24 4 % 2 ^ 30
def cCount (d : Desc) : Nat := d.at 28 4
def cFused (d : Desc) : Bool := d.opcode == 0x21

/-- Entries of a fused collective as read from memory (R413): SRC, DST, COUNT, LAYER. A plain one is its own entry. -/
def cEntries (s : State) (d : Desc) : List (Nat × Nat × Nat × Nat) :=
  if cFused d then
    (List.range (cCount d)).map fun i =>
      let b := devRd s (d.at 32 6 + 32 * i) 32
      (leAt b 0 6, leAt b 6 6, leAt b 12 4, leAt b 16 2)
  else [(d.at 32 6, d.at 38 6, cCount d, d.at 22 2)]

/-- The summed element count (R413). -/
def cTotal (s : State) (d : Desc) : Nat := ((cEntries s d).map fun e => e.2.2.1).sum

/-- The 64-bit fold of R407. -/
def fold64 (z : Nat) : Nat :=
  let z := (z ^^^ (z >>> 30)) * 0xBF58476D1CE4E5B9 % 2 ^ 64
  let z := (z ^^^ (z >>> 27)) * 0x94D049BB133111EB % 2 ^ 64
  z ^^^ (z >>> 31)

/-- The signature (R407). -/
def signature (op fmt count group seq : Nat) : Nat :=
  let z := fold64 ((op + fmt * 0x100000 + count * 0x1000000) % 2 ^ 64)
  let z := fold64 (z ^^^ (group * 0x9E3779B97F4A7C15 % 2 ^ 64))
  fold64 (z ^^^ seq)

/-- The step that a collective belongs to: the open one when Slipway holds it, none when it was accepted outside a step (R406). -/
def collStep (s : State) (n : Nat) (d : Desc) : Option Step := if d.phase = .held then openStep s n else none

/-- The collective sequence number in the present attempt (R407). -/
def collSeq (s : State) (n : Nat) (d : Desc) : Nat :=
  match collStep s n d with
  | some t => (t.num.toNat % 2 ^ 32) * 2 ^ 32 + t.attempt % 4 * 2 ^ 30 + cCseq d
  | none => 0xFFFFFFFF * 2 ^ 32 + cCseq d

/-- A collective's own signature. -/
def collSig (s : State) (n : Nat) (d : Desc) : Nat :=
  let op := cOp d + (if cFused d then 0x10 + cCount d * 0x100 else 0)
  let fmt := match cOp d with
    | 0 => b2n (bitOf (cFlags d) 3)
    | 1 => bitsOf (d.at 54 1) 0 4
    | _ => 0xF
  signature op fmt (cTotal s d) (d.at 20 2) (collSeq s n d)

/-- The result record (R412). -/
def collRecord (n : Nat) (d : Desc) (c : Coll) (st : Status) (first : Nat) (s : State) : State :=
  let log := bitsOf (regN s (ctx bCollCtx n 0x20)) 0 5
  let a := reg64 s (ctx bCollCtx n 0x18) + 32 * (cCseq d % 2 ^ log)
  memPut n 0 0 a (leBytes 8 (collSig s n d) ++ leBytes 4 (cCseq d) ++ leBytes 1 (statusNum st) ++
    leBytes 1 (((collStep s n d).map Step.attempt).getD 0) ++ leBytes 2 first ++ leBytes 4 c.nan ++ leBytes 4 c.sat ++
    leBytes 6 (now48 s).toNat ++ zeros 2) s

/-- Peer table and peer count of a partition (R288). -/
def peerCount (s : State) (n : Nat) : Nat := bitsOf (regN s (ctx bSlwCtx n 0x10)) 0 13
def peerNode (s : State) (n m : Nat) : Nat := leNat (devRd s (reg64 s (ctx bSlwCtx n 0x08) + 2 * m) 2)

/-- This device's member index: its position in the peer table. -/
def ownMember (s : State) (n : Nat) : Nat :=
  ((List.range (peerCount s n)).find? fun m => peerNode s n m == nodeId s).getD 0

/-- Pod of a member (R392). -/
def podOf (s : State) (n m : Nat) : Nat := leNat (devRd s (reg64 s (ctx bCollCtx n 0x04) + 2 * m) 2)

/-- Members of a pod, ascending. -/
def podMembers (s : State) (n pod : Nat) : List Nat := (List.range (peerCount s n)).filter fun m => podOf s n m == pod

/-- Pod root of a pod for a collective's root (R393); the root in its own pod. -/
def podRoot (s : State) (n root pod : Nat) : Nat :=
  let q := ((podMembers s n (podOf s n root)).findIdx? fun m => m == root).getD 0
  let l := podMembers s n pod
  if podOf s n root = pod then root else l.getD (q % l.length) root

/-- A member's parent in a reduction (R394): its pod root, or for a pod root the root. -/
def collParent (s : State) (n root m : Nat) : Nat :=
  let r := podRoot s n root (podOf s n m)
  if r = m then root else r

/-- This member is the collective's root. -/
def collIsRoot (s : State) (n : Nat) (d : Desc) : Bool := ownMember s n == cRoot d

/-- A bit of SLW_COLL_EVENT (R416). -/
def collEvent (n bit : Nat) (s : State) : State := orReg (ctx bCollCtx n 0x24) (BitVec.ofNat 32 (2 ^ bit)) s

/-- The bit of SLW_COLL_EVENT of an ending. -/
def collBit : Status → Option Nat
  | .collMismatch => some 0
  | .collTimeout => some 1
  | .collNan => some 2
  | .remoteUnreachable => some 4
  | .linkDegraded => some 5
  | _ => none

/-- Offsets of the scale, checksum and outlier tensors and the end of a broadcast copy of `n` parcels of a format (R400). -/
def copyLayout (fmt n : Nat) (outl : Bool) : Nat × Nat × Nat × Nat :=
  let up (x : Nat) : Nat := (x + 63) / 64 * 64
  let so := up (256 + 256 * n)
  let co := up (so + parcelBlocks (fmtWidth fmt) * n)
  let oo := up (co + 4 * n)
  (so, co, oo, if outl then oo + 32 * n else co + 4 * n)

/-- After any ending other than OK or LINK_DEGRADED the destinations this member has hold unspecified bytes (R411): FP32
or BF16 elements of a root's REDUCE, the copy or the bytes of a receiver's broadcast. -/
def collSpoil (d : Desc) (root outl : Bool) (s : State) : State :=
  if (cOp d == 0) == root then
    (cEntries s d).foldl (fun s e =>
      spoil e.2.1 (if cOp d = 0 then (if bitOf (cFlags d) 3 then 2 else 4) * e.2.2.1
        else if cOp d = 2 then 256 * e.2.2.1 else (copyLayout (bitsOf (d.at 54 1) 0 4) e.2.2.1 outl).2.2.2) s) s
  else s

/-- Requests of a collective that have not left are dropped (R411): its bursts, or with `all` every packet of it. -/
def dropUnsent (n id : Nat) (all : Bool) (s : State) : State :=
  let gone (o : Sent) : Bool := o.origin == .coll n id && (all || o.pkt.type == 0x0C)
  { s with fab := { s.fab with tx := s.fab.tx.map fun e => (e.1, { e.2 with waitingQ := e.2.waitingQ.filter fun o => !gone o }) } }

/-- A collective stops at this member without an ending of its own (R406, R411): it sends nothing more, and its destinations hold
unspecified bytes. -/
def cutColl (n : Nat) (d : Desc) (c : Coll) (s : State) : State :=
  collSpoil d (collIsRoot s n d) c.outl (dropUnsent n c.id true s)

/-- Every collective of a partition is cut by a stop or reset and completes with its code, record included (R411, R412); those that have
ended in the attempt wrote theirs then. -/
def cutColls (n : Nat) (st : Status) (s : State) : State :=
  (getPart s n).colls.foldl (fun s c =>
    match c.phase, findDesc s c.id with
    | .ended _, _ => s
    | _, some d => collRecord n d c st 0xFFFF (if c.open then cutColl n d c s else s)
    | _, none => s) s

end Sys2Proof.Machine
end

