-- ==== Sys2Proof/Machine/Operands.lean ====
section
/-!
DEFINITION. Operand forms of the core's instructions: core SRAM, accumulator memory, tensor descriptors (R186, R187),
wide tensors, parcels and blocks of narrow tensors, address streams (R136, R137).
-/
namespace Sys2Proof.Machine

/-- Core SRAM size (R146). -/
abbrev sramSize : Nat := 524288

/-- A fault of an instruction: cause of R162 and CORE_FAULT_INFO (R170). -/
structure Flt where
  cause : Nat
  info : Nat := 0
  deriving DecidableEq, Repr

/-- CORE_FAULT_INFO of an address (R170). -/
def addrInfo (a : Int) : Nat := wrapInt 32 a

/-- SRAM_BOUNDS at an address (R138). -/
def fltBounds (a : Int) : Flt := { cause := 0x09, info := addrInfo a }

/-- Whether `n` bytes at an address lie in core SRAM. -/
def inSram (a : Int) (n : Nat) : Bool :=
  match a with
  | .ofNat k => decide (k + n ≤ sramSize)
  | .negSucc _ => false

/-- What an unlisted byte of core SRAM holds: 0, or an unspecified byte on a site the core has moved to (R18). -/
def sramDflt (c : Core) (a : Nat) : Byte :=
  match c.fresh with
  | none => 0
  | some b => Config.freeBits 8 (b + a)

/-- Bytes of core SRAM. -/
def sramRd (c : Core) (a n : Nat) : Bytes := (List.range n).map fun i => c.sram.get (sramDflt c (a + i)) (a + i)

/-- A core with bytes written into its SRAM. -/
def sramWr (c : Core) : Nat → Bytes → Core
  | _, [] => c
  | a, b :: t => sramWr { c with sram := Tbl.set (sramDflt c a) c.sram a b } (a + 1) t

/-- Key of an accumulator entry of an array (R105). -/
def accKey (array row col : Nat) : Nat := 16384 * array + 32 * row + col

/-- What an unlisted accumulator entry holds: 0, or an unspecified word on a site the core has moved to. -/
def accDflt (c : Core) (k : Nat) : Word :=
  match c.fresh with
  | none => 0
  | some b => Config.freeBits 32 (b + sramSize + k)

/-- An accumulator entry, an FP32 word. -/
def accGet (c : Core) (array row col : Nat) : Nat :=
  (c.acc.get (accDflt c (accKey array row col)) (accKey array row col)).toNat

/-- An accumulator entry set. -/
def accSet (c : Core) (array row col v : Nat) : Core :=
  { c with acc := Tbl.set (accDflt c (accKey array row col)) c.acc (accKey array row col) (BitVec.ofNat 32 v) }

/-- The status that goes with a fault cause (last column of R162). -/
def causeStatus : Nat → Status
  | 0x04 => .checksumFail
  | 0x05 => .internalError
  | 0x09 => .descBounds
  | 0x0A => .descBounds
  | 0x0D => .internalError
  | 0x0E => .syncTimeout
  | 0x0F => .remoteUnreachable
  | _ => .descMalformed

/-! ## Tensor descriptors -/

/-- The fields of a tensor descriptor (R186). -/
structure Tdesc where
  fmt : Nat
  ovf : Bool
  byCols : Bool
  rotated : Bool
  hasOutl : Bool
  loc : Nat
  rsv : Bool
  ts : Nat
  rows : Nat
  cols : Nat
  pitch : Nat
  seed : Nat
  data : Nat
  scale : Nat
  cksum : Nat
  outl : Nat
  deriving DecidableEq, Repr

/-- A descriptor from its 64 bytes (R186); `rsv` says that a reserved field is nonzero. -/
def tdescOf (b : Bytes) : Tdesc :=
  let b0 := leAt b 0 1
  let b1 := leAt b 1 1
  { fmt := bitsOf b0 0 4, ovf := bitOf b0 4, byCols := bitOf b0 5, rotated := bitOf b0 6, hasOutl := bitOf b0 7
    loc := bitsOf b1 0 2, rsv := bitsOf b1 2 6 != 0 || leAt b 2 2 != 0
    ts := leAt b 4 4, rows := leAt b 8 4, cols := leAt b 12 4, pitch := leAt b 16 4, seed := leAt b 24 8
    data := leAt b 32 8, scale := leAt b 40 8, cksum := leAt b 48 8, outl := leAt b 56 8 }

/-- Runs of a narrow tensor (R187). -/
def Tdesc.runs (t : Tdesc) : Nat := if t.byCols then t.cols else t.rows

/-- Run length of a narrow tensor (R187). -/
def Tdesc.runLen (t : Tdesc) : Nat := if t.byCols then t.rows else t.cols

/-- Blocks of a run (R187). -/
def Tdesc.nb (t : Tdesc) : Nat := (t.runLen + 31) / 32

/-- Scale bytes per parcel of the tensor (R59). -/
def Tdesc.s (t : Tdesc) : Nat := parcelBlocks (fmtWidth t.fmt)

/-- Parcels a narrow tensor spans (R187). -/
def Tdesc.parcels (t : Tdesc) : Nat :=
  if t.runs = 0 || t.nb = 0 then 0 else ((t.runs - 1) * t.pitch + t.nb + t.s - 1) / t.s

/-- Whether RUN_PITCH is one R187 allows. -/
def Tdesc.pitchOk (t : Tdesc) : Bool :=
  let p := if t.nb != 0 && t.s % t.nb == 0 then t.nb else t.s * ((t.nb + t.s - 1) / t.s)
  t.pitch == p || (t.pitch % t.s == 0 && decide (t.nb ≤ t.pitch))

/-- The faults at start of an operand that is narrow: TSCALE (R40), then ALIGN (R61, R82). -/
def narrowFlt (t : Tdesc) : Option Flt :=
  if !scaleOk t.ts then some { cause := 0x02 }
  else if t.data % 256 != 0 then some { cause := 0x03, info := addrInfo t.data }
  else if t.scale % 64 != 0 then some { cause := 0x03, info := addrInfo t.scale }
  else if t.cksum % 64 != 0 then some { cause := 0x03, info := addrInfo t.cksum }
  else if t.hasOutl && t.outl % 64 != 0 then some { cause := 0x03, info := addrInfo t.outl }
  else none

/-- Address of descriptor `i` of the object whose table starts at `base` (R186). -/
def tdescAddr (base i : Nat) : Nat := base + 64 * i

/-! ## Wide tensors (R186) -/

/-- Bytes of a wide element. -/
def wideSize (fmt : Nat) : Nat := if fmt == fBF16 then 2 else 4

/-- Where an element of a wide tensor lies: a byte of core SRAM, or an accumulator entry. -/
inductive WidePlace where
  | sram (a : Nat)
  | acc (array row col : Nat)
  | bad (f : Flt)
  deriving DecidableEq, Repr

/-- The place of element (r, j) of a wide tensor, or the bounds fault (R138, R170). -/
def widePlace (t : Tdesc) (r j : Nat) : WidePlace :=
  if t.loc = 0 then
    let a := t.data + r * t.pitch + j * wideSize t.fmt
    if inSram a (wideSize t.fmt) then .sram a else .bad (fltBounds a)
  else
    let off := r * t.pitch + 4 * j
    let row := t.data + off / 128
    if row < 512 then .acc (t.loc - 1) row (off % 128 / 4)
    else .bad { cause := 0x09, info := row % 2 ^ 30 + (t.loc - 1) % 2 * 2 ^ 30 + 2 ^ 31 }

/-- Read one element of a wide tensor. -/
def wideGet (c : Core) (t : Tdesc) (r j : Nat) : Except Flt Num :=
  match widePlace t r j with
  | .sram a => .ok (fmtDecode t.fmt (leNat (sramRd c a (wideSize t.fmt))))
  | .acc m row col => .ok (fp32Num (accGet c m row col))
  | .bad f => .error f

/-- Write one element of a wide tensor, already a code of its format (FP32 in accumulator memory). -/
def widePut (c : Core) (t : Tdesc) (r j code : Nat) : Except Flt Core :=
  match widePlace t r j with
  | .sram a => .ok (sramWr c a (leBytes (wideSize t.fmt) code))
  | .acc m row col => .ok (accSet c m row col code)
  | .bad f => .error f

/-- The format results take in a wide tensor: accumulator memory holds FP32. -/
def wideFmt (t : Tdesc) : Nat := if t.loc = 0 then t.fmt else fFP32

/-- A list mapped with a function that can fault. -/
def mapExcept {ε α β : Type} (f : α → Except ε β) : List α → Except ε (List β)
  | [] => .ok []
  | a :: t =>
    match f a with
    | .error e => .error e
    | .ok b =>
      match mapExcept f t with
      | .error e => .error e
      | .ok l => .ok (b :: l)

/-- Write values one after another in row-major order; a fault leaves those before it written. -/
def wideWrite (c : Core) (t : Tdesc) : Nat → List Nat → Core × Option Flt
  | _, [] => (c, none)
  | i, v :: l =>
    match widePut c t (i / t.cols) (i % t.cols) v with
    | .error f => (c, some f)
    | .ok c' => wideWrite c' t (i + 1) l

/-- The bytes of core SRAM that a wide tensor spans, as (address, length): from its first byte to its last, the gaps between rows
with it (log entry 103). -/
def wideSpan (t : Tdesc) : List (Nat × Nat) :=
  if t.loc != 0 || t.rows = 0 || t.cols = 0 then []
  else [(t.data, (t.rows - 1) * t.pitch + t.cols * wideSize t.fmt)]

/-- Accumulator rows that a wide tensor spans: (array, first row, rows). -/
def wideAccRows (t : Tdesc) : List (Nat × Nat × Nat) :=
  if t.loc = 0 || t.loc = 3 || t.rows = 0 || t.cols = 0 then []
  else [(t.loc - 1, t.data, ((t.rows - 1) * t.pitch + 4 * t.cols + 127) / 128)]

/-- The bytes that a narrow tensor spans: all its parcels, slots that no run uses with them (log entry 103). -/
def narrowSpan (t : Tdesc) (outl : Bool) : List (Nat × Nat) :=
  let n := t.parcels
  [(t.data, 256 * n), (t.scale, t.s * n), (t.cksum, 4 * n)] ++ (if outl then [(t.outl, 32 * n)] else [])

/-- Two lists of spans share a byte. -/
def spansMeet (a b : List (Nat × Nat)) : Bool :=
  a.any fun p => b.any fun q => decide (0 < p.2) && decide (0 < q.2) && decide (p.1 < q.1 + q.2) &&
    decide (q.1 < p.1 + p.2)

/-! ## Parcels in core SRAM (R60, R82, R187) -/

/-- The places of parcel `p` of a tensor: data, scales, CRC, outlier record with their lengths. -/
def parcelSpans (t : Tdesc) (p : Int) : List (Int × Nat) :=
  [(t.data + 256 * p, 256), (t.scale + t.s * p, t.s), (t.cksum + 4 * p, 4)] ++
    (if t.hasOutl then [((t.outl : Int) + 32 * p, 32)] else [])

/-- Parcel `p` of a tensor in core SRAM, not verified. -/
def parcelRaw (c : Core) (t : Tdesc) (p : Int) : Except Flt Parcel :=
  match (parcelSpans t p).find? fun q => !inSram q.1 q.2 with
  | some q => .error (fltBounds q.1)
  | none =>
    .ok { data := sramRd c (t.data + 256 * p).toNat 256
          scales := sramRd c (t.scale + t.s * p).toNat t.s
          crc := sramRd c (t.cksum + 4 * p).toNat 4
          outl := if t.hasOutl then sramRd c (t.outl + 32 * p).toNat 32 else [] }

/-- Parcel `p` as a consumer takes it: one whose check fails at every reread faults (R63, R83, R56), with the address of its data, or
of its outlier record when that alone fails (R170). -/
def parcelRead (c : Core) (t : Tdesc) (p : Int) : Except Flt Parcel :=
  match parcelRaw c t p with
  | .error f => .error f
  | .ok k =>
    if !parcelOk t.fmt false k then .error { cause := 0x04, info := addrInfo (t.data + 256 * p) }
    else if !parcelOk t.fmt t.hasOutl k then .error { cause := 0x04, info := addrInfo ((t.outl : Int) + 32 * p) }
    else .ok k

/-- Write parcel `p` of a tensor; a part that falls outside core SRAM faults and writes none of the parcel (R88). -/
def parcelWrite (c : Core) (t : Tdesc) (p : Nat) (k : Parcel) (outl : Bool) : Core × Option Flt :=
  match (parcelSpans { t with hasOutl := outl } p).find? fun q => !inSram q.1 q.2 with
  | some q => (c, some (fltBounds q.1))
  | none =>
    let c := sramWr c (t.data + 256 * p) k.data
    let c := sramWr c (t.scale + t.s * p) k.scales
    let c := sramWr c (t.cksum + 4 * p) k.crc
    (if outl then sramWr c (t.outl + 32 * p) k.outl else c, none)

/-- Block `b` of a verified parcel: scale, codes, outliers. -/
def blockOf (t : Tdesc) (k : Parcel) (b : Nat) : BlockData :=
  let w := fmtWidth t.fmt
  { scale := (k.scales.getD b 0).toNat
    codes := unpackBlock w (sliceB k.data (blockBytes w * b) (blockBytes w))
    outl := if t.hasOutl then ((recordSlots k.outl).filter fun o => o.1 == b).map fun o => (o.2.1, o.2.2) else [] }

/-- The block at slot `g` of a tensor (R187, R188). -/
def slotBlock (c : Core) (t : Tdesc) (g : Int) : Except Flt BlockData :=
  match parcelRead c t (g / (t.s : Int)) with
  | .error f => .error f
  | .ok k => .ok (blockOf t k (g % (t.s : Int)).toNat)

/-- A block of zeros, what a missing block is fed as (R190). -/
def zeroBlock : BlockData := { scale := 0, codes := List.replicate 32 0, outl := [] }

/-! ## Address streams (R136, R137) -/

/-- Take up to `n` addresses from the front of a stream. -/
def streamTake : Nat → List StreamEntry → List Int × List StreamEntry
  | _, [] => ([], [])
  | n, e :: t =>
    if n < e.left then
      ((List.range n).map fun (i : Nat) => e.next + (i : Int) * e.stride, { e with next := e.next + n * e.stride, left := e.left - n } :: t)
    else
      let r := streamTake (n - e.left) t
      (((List.range e.left).map fun (i : Nat) => e.next + (i : Int) * e.stride) ++ r.1, r.2)

end Sys2Proof.Machine
end

