-- ==== Sys2Proof/Machine/Recovery.lean ====
section
/-!
DEFINITION. Sites and moves (R18, R19, R270), core stop and core reset (R159, R160), the drain of a partition (R483),
the rungs of the recovery ladder (R488), the start of a warm or cold reset (R486), and what a core fault does (R161).
-/
namespace Sys2Proof.Machine

/-! ## Sites (R15 to R19) -/

/-- Row, column and die of a site. -/
def siteRow (t : Nat) : Nat := t % 600 / 25
def siteCol (t : Nat) : Nat := t % 25
def siteDie (t : Nat) : Nat := t / 600

/-- The logical core whose natural site this is (R17). -/
def naturalCore (t : Nat) : Option Nat :=
  if siteCol t = 24 then none
  else some (64 * (siteDie t / 2 * 24 + siteRow t) + siteDie t % 2 * 24 + siteCol t)

/-- The logical core that lies on a site. -/
def coreOn (s : State) (t : Nat) : Option Nat :=
  match (s.places.find? fun e => e.2 == .moved t) with
  | some e => some e.1
  | none =>
    match naturalCore t with
    | some c => if s.places.get .natural c = .natural then some c else none
    | none => none

/-- A healthy unmapped site that runs no test and no site check. -/
def freeSpare (s : State) (t : Nat) : Bool :=
  let k := getSite s t
  !k.fused && !k.retired && k.check.isNone && !k.testing && (coreOn s t).isNone

/-- A site's last test: its own, or the boot's stage 6 (R279). -/
def testTime (s : State) (t : Nat) : Nat := ((getSite s t).tested.getD s.bootTime).toNat

/-- SLW_TEST_MAX_S in ns. -/
def testMax (s : State) : Nat := regN s bSlwDev * 1000000000

/-- A site's last passed test lies within SLW_TEST_MAX_S (R279). -/
def testFresh (s : State) (t : Nat) : Bool := decide (s.now.toNat ≤ testTime s t + testMax s)

/-- Mesh hops between two sites of a die. -/
def hops (a b : Nat) : Nat := (siteRow a - siteRow b) + (siteRow b - siteRow a) + (siteCol a - siteCol b) + (siteCol b - siteCol a)

/-- The nearest site of a die that a test accepts, counted from a site; the lower row, then the lower column wins (R17). R17 does not
say which site an in-service remap counts from: it is the site that the core leaves, not its natural one (DESIGN CHOICE, log
entry 108). -/
def nearestSite (t : Nat) (ok : Nat → Bool) : Option Nat :=
  findMin (fun u => 1000 * hops t u + u % 600) (((List.range 600).map fun i => 600 * siteDie t + i).filter ok)

/-- A site changed and its place recorded: the natural site is not listed as a move. -/
def setPlace (c : Nat) (p : Place) (s : State) : State := { s with places := Tbl.set .natural s.places c p }

/-- A data image written into a core's SRAM (R208). -/
def writeImage (k : Core) (d : DataImage) : Core := sramWr (sramWr k d.tdescBase d.tdesc) d.constBase d.consts

/-- The data images of the objects that a core's banks hold, the older load first; one that fails its digest cannot be used (R208). -/
def imagesOf (s : State) (k : Core) : List DataImage :=
  let banks := [k.bank0, k.bank1].filter Bank.valid
  let banks := if k.bank1.order < k.bank0.order then banks.reverse else banks
  banks.filterMap fun b => s.ldr.datas.find? fun d => d.hash == b.hash && !d.damaged

/-- A site's banks are filled from the native images; the loader translates one that fails its digest again (R208). -/
def fillBanks (k : Core) (s : State) : State :=
  let mine (o : NativeImage) : Bool := [k.bank0, k.bank1].any fun b => b.valid && b.hash == o.hash
  { s with ldr := { s.ldr with natives := s.ldr.natives.map fun o => if mine o then { o with damaged := false } else o } }

/-- Firmware moves a logical core to a spare (R18): the new site's SRAM and accumulators hold unspecified contents but for
the data images of the objects in its banks. Its stationary buffers and re-run registers, of which the spec says nothing, hold no
tile and no slab: a buffer without a tile reads as zero blocks (DESIGN CHOICE, log entry 71). -/
def moveCore (c t : Nat) (s : State) : State :=
  let s := setPlace c (if naturalSite c = t then .natural else .moved t) s
  let base := s.free
  let s := { s with free := s.free + 2 ^ 20 }
  let k := getCore s c
  let k := { k with sram := [], acc := [], bufs := [], rerun := [], fresh := some base }
  let s := fillBanks k (setCore c ((imagesOf s k).foldl writeImage k) s)
  postEvent { kind := 0x04, part := k.part, core := some c, site := some t } (queueRepair 1 c s)

/-! ## Core stop and core reset (R159, R160) -/

/-- Requests, waits and signals of a core no longer report to it. -/
def coreOrigin (c : Nat) : Origin → Bool
  | .stash _ _ _ o => coreOrigin c o
  | .engine k _ _ => k == c
  | .signal k _ _ _ => k == c
  | .coreWait k => k == c
  | _ => false

/-- A core's own waits leave the sync units (R159). -/
def dropCoreWaits (c : Nat) (s : State) : State :=
  let mine (w : Wait) := w.origin == .coreWait c
  { s with syn := { s.syn with requests := s.syn.requests.filter fun w => !mine w
                               waiters := s.syn.waiters.filter fun w => !mine w
                               busy := s.syn.busy.filter fun w => !mine w
                               remotes := s.syn.remotes.filter fun w => w.origin != .coreWait c } }

/-- Replies reach a core no more; its signals on the meshes are still delivered. -/
def detachCore (c : Nat) (s : State) : State :=
  let fix (g : Signal) : Signal := if coreOrigin c g.origin then { g with origin := .none } else g
  let s := dropCoreWaits c (dropOrigins (coreOrigin c) s)
  { s with syn := { s.syn with signals := s.syn.signals.map fix } }

/-- Accumulator rows that an MMA in a running entry works on: array, first row, rows (R105). -/
def mmaRows (q : Queued) : Option (Nat × Nat × Nat) :=
  if q.ins.op = 0x30 then
    some (q.ins.mod % 2, (q.args.getD 3 0).toNat, (q.args.getD 0 0).toNat * (((q.args.getD 2 0).toNat + 31) / 32))
  else none

/-- Accumulator rows become unspecified (R120). -/
def spoilRows (r : Nat × Nat × Nat) (s : State) (k : Core) : Core × State :=
  let keys := ((List.range (min r.2.2 512)).map fun i => (List.range 32).map fun j => accKey r.1 (r.2.1 + i) j).flatten
  let keys := keys.filter fun e => decide (e < 16384 * (r.1 + 1))
  (((List.range keys.length).zip keys).foldl (fun k e =>
      { k with acc := Tbl.set (accDflt k e.2) k.acc e.2 (Config.freeBits 32 (s.free + e.1)) }) k,
    { s with free := s.free + keys.length })

/-- Accumulator rows of the MMAs that a core's arrays have started, of those that a test accepts. -/
def startedRows (k : Core) (ok : Running → Bool) : List (Nat × Nat × Nat) :=
  ((k.cur.get [] 1 ++ k.cur.get [] 2).filter ok).filterMap fun r => mmaRows r.q

/-- Several ranges of rows become unspecified. -/
def spoilAll (l : List (Nat × Nat × Nat)) (k : Core) (s : State) : Core × State :=
  l.foldl (fun (x : Core × State) m => spoilRows m x.2 x.1) (k, s)

/-- Every MMA in progress on a core ends at once with its rows unspecified, one that waits on an empty stream too (R120). -/
def spoilMmas (c : Nat) (s : State) : State :=
  let k := getCore s c
  let r := spoilAll (startedRows k fun _ => true) k s
  setCore c r.1 r.2

/-- The cores of a device reset (R486): cleared, with the rows of the MMAs that it ended unspecified (R120). -/
def clearCores (s : State) : State :=
  s.cores.foldl (fun s e => let r := spoilAll (startedRows e.2 fun _ => true) {} s; setCore e.1 r.1 r.2) { s with cores := [] }

/-- Engine work, queues and streams of a core end; it enters a run state (R159). -/
def stopCore (st : CoreRun) (c : Nat) (s : State) : State :=
  let k := getCore s c
  if k.run = .running || k.run = .faulted then
    updCore c (fun k => { k with run := st, stall := .none, halting := false, queues := [], cur := [], streams := []
                                 votes := [], locked := [], sigsOut := [], flowsUsed := [] })
      (detachCore c (spoilMmas c s))
  else s

/-- Core reset (R160). -/
def resetCore (c : Nat) (s : State) : State :=
  updCore c (fun k =>
    { k with run := .idle, stall := .none, halting := false, openEntry := false, pc := 0, sregs := [], locked := []
             loops := [], streams := [], queues := [], cur := [], counts := [], votes := [], fault := 0, faultPc := 0
             faultInfo := 0, sigsOut := [], flowsUsed := [], codes := [] })
    (detachCore c (spoilMmas c s))

/-- Both instruction banks of a core marked invalid. -/
def clearBanks (c : Nat) (s : State) : State :=
  updCore c (fun k => { k with bank0 := { k.bank0 with valid := false }, bank1 := { k.bank1 with valid := false } }) s

/-! ## The governor's fields of the layer table (R240) -/

/-- Local address of a layer entry. -/
def layerAddr (s : State) (n i : Nat) : Nat := reg64 s (ctx bGovCtx n 0x10) + 64 * i

/-- The governor writes its fields of a layer entry. -/
def layerStore (n i : Nat) (l : Layer) (s : State) : State :=
  let a := layerAddr s n i
  let b0 := (memByte s a).toNat
  let s := memPut n 0 0 a (leBytes 1 (setBits b0 0 2 l.state)) s
  let s := memPut n 0 0 (a + 3) (leBytes 1 l.stable) s
  let s := memPut n 0 0 (a + 8) (leBytes 4 l.arenaOff) s
  memPut n 0 0 (a + 20) (leBytes 4 l.avgOut.toNat ++ leBytes 4 l.avgGrad.toNat ++ leBytes 4 l.tauOut.toNat ++
    leBytes 4 l.tauGrad.toNat ++ leBytes 4 l.seen ++ leBytes 4 l.trips ++ leBytes 1 l.lastCause) s

/-- The governor writes the whole layer table. -/
def layerStoreAll (n : Nat) (s : State) : State :=
  (getPart s n).gov.table.foldl (fun s e => layerStore n e.1 e.2 s) s

/-- A stop frees the whole arena, returns every layer to NARROW and clears GOV_EVENT (R251). -/
def govStop (n : Nat) (s : State) : State :=
  let s := updPart n (fun p => { p with gov :=
    { p.gov with table := p.gov.table.map fun e => (e.1, { e.2 with state := 0, stable := 0, arenaOff := 0xFFFFFFFF })
                 marked := [], nextMarks := [], stepMarks := [], stable0 := [], tripped := [], windows := [], obs := [], inbox := [], ratio := []
                 between := [], requested := false } }) s
  setReg (ctx bGovCtx n 0x04) 0 (layerStoreAll n s)

/-! ## The drain of a partition (R482, R483) -/

/-- Packets held for a partition's later attempt are discarded (R375): ACK STALE, SLW_STALE + 1. -/
def dropHeld (n : Nat) (s : State) : State :=
  let mine (h : HeldPkt) := jobPart s h.pkt.job == some n
  let s' := (s.fab.held.filter mine).foldl (fun s h =>
    freeBuffer h.port h.pkt (incReg (bSlwDev + 8) (sendAck h.port h.pkt 1 s))) s
  { s' with fab := { s'.fab with held := s'.fab.held.filter fun h => !mine h } }

/-- Waiter entries end when a partition stops (R342): its own are removed; a remote wait on its range gets a VERDICT of
out of range. -/
def drainWaits (n : Nat) (s : State) : State :=
  let all := s.syn.requests ++ s.syn.waiters ++ s.syn.busy
  let far := all.filter fun w => w.part == n && w.issuer == 0
  let keep (l : List Wait) := l.filter fun w => !(w.issuer == n || (w.part == n && w.issuer == 0))
  let s := { s with syn := { s.syn with requests := keep s.syn.requests, waiters := keep s.syn.waiters
                                        busy := keep s.syn.busy } }
  far.foldl (fun s w =>
    match w.origin with
    | .remote node flow vc psn tag job port => sendVerdict node flow vc psn tag job port 3 s
    | _ => s) s

/-- The slots of a job's unsignalled buffers hold unspecified bytes when the job ends (R434); LANDING_BASE and SLOT_BYTES are those of
its job block. -/
def spoilSlots (j : Job) (s : State) : State :=
  (j.buffers.filter fun b => !b.queued).foldl (fun s b =>
    spoil (leAt j.block 104 8 + b.slot * leAt j.block 112 4) (leAt j.block 112 4) s) s

/-- The unsignalled buffers of every job of a partition. -/
def spoilJobs (n : Nat) (s : State) : State :=
  (List.range 4).foldl (fun s k => match (getPart s n).jobs.get none k with
    | some j => spoilSlots j s
    | none => s) s

/-- Ingest jobs of a partition end without OK (R434): unsignalled buffers and samples in pipes are abandoned. -/
def drainIngest (n : Nat) (s : State) : State :=
  let p := getPart s n
  let runs := (List.range 4).filter fun j => (p.jobs.get none j).isSome
  let s := spoilJobs n s
  let s := { s with pipes := s.pipes.map fun e =>
    (e.1, if (e.2.task.map Task.part) == some n then { e.2 with task := none } else e.2) }
  let s := updPart n (fun p => { p with jobs := [], jobEnd := runs.foldl (fun t j => Tbl.set false t j true) p.jobEnd }) s
  if runs.isEmpty then s
  else setReg (ctx bIngCtx n 4) (BitVec.ofNat 32 (setBits (setBits (regN s (ctx bIngCtx n 4)) 4 1 1) 16 2 (runs.getLastD 0))) s

/-- A stop reaches a core's loads: a bank that one had begun to write stays invalid. How far a load in progress has come is a free value
(log entry 128). -/
def cutLoads (ids : List Nat) (s : State) (c : Nat) : State :=
  ((getCore s c).loads.filter fun l => ids.contains l.1).foldl (fun s l =>
    let r := drawBits 1 s
    if r.1 = 1 then updCore c (fun k => setBank k l.2 { bankOf k l.2 with valid := false }) r.2 else r.2) s

/-- Loads of a partition end (R205): the loads no longer target their banks. -/
def drainLoads (n : Nat) (s : State) : State :=
  let mine (d : Desc) : Bool := d.fn == n && d.opcode == 0x01
  let ids := (s.descs.filter fun d => mine d && d.live).map Desc.id
  let s := (partCores s n).foldl (cutLoads ((s.descs.filter fun d => mine d && d.phase == .started).map Desc.id)) s
  let s := (partCores s n).foldl (fun s c =>
    updCore c (fun k => { k with loads := k.loads.filter fun l => !ids.contains l.1 }) s) s
  { s with ldr := { s.ldr with queue := s.ldr.queue.filter fun i => !ids.contains i } }

/-- Every descriptor of a function that has not completed ends with a status (R483); a STOP_PARTITION is exempt (R482). With
PART_RESET those that a stop has ended and that are not yet reported change their code (R490). -/
def endDescs (fn : Nat) (st : Status) (s : State) : State :=
  { s with descs := s.descs.map fun d =>
      if d.fn = fn && d.opcode != 0x3A && (d.live || (st == .partReset && d.phase == .done .partStopped && !d.refused)) then
        { d with phase := .done st }
      else d }

/-- The open step of a partition ends because of a stop or a reset (R238): reported. -/
def stepLost (n : Nat) (st : Status) (s : State) : State :=
  if (openStep s n).isSome then postEvent { kind := 0x0A, status := statusNum st, part := n } s else s

/-- The work in flight of a partition ends (R483, R504): cores, tests, waits, ingest, loads, requests, step and collectives. -/
def haltPart (n : Nat) (st : Status) (s : State) : State :=
  let s := (partCores s n).foldl (fun s c => stopCore .stopped c s) (stepLost n st s)
  -- tests under a SELFTEST or CHECKPOINT are abandoned; a site check goes on
  let s := (partCores s n).foldl (fun s c =>
    match siteOf s c with
    | some t => updSite t (fun k => { k with testing := false }) s
    | none => s) s
  let s := cutColls n st (dropHeld n (drainWaits n (drainIngest n (drainLoads n s))))
  let s := govStop n (rpcClear n (poolFree n (stashReleaseAll n s)))
  let s := dropOrigins (fun o =>
    match o with
    | .desc i => (findDesc s i).any fun d => d.fn == n
    | .coll p _ => p == n
    | .slipway p => p == n
    | .reload p _ _ => p == n
    | .stash p _ _ _ => p == n
    | .memory p => p == n
    | .ingest p _ => p == n
    | _ => false) s
  let gone (o : Origin) : Bool := match o with
    | .desc i => (findDesc s i).any fun d => d.fn == n
    | _ => false
  let s := { s with syn := { s.syn with remotes := s.syn.remotes.filter fun w => !gone w.origin } }
  updPart n (fun p => { p with step := none, colls := [], joins := [] }) s

/-- A stop or partition reset begins: the partition enters STOPPING and its work in flight ends (R483). -/
def drainBegin (n : Nat) (st : Status) (isReset auto : Bool) (s : State) : State :=
  if (getPart s n).st = .started then
    let s := haltPart n st s
    let s := updPart n (fun p => { p with st := .stopping
                                          drain := some { status := st, since := s.clock, reset := isReset, auto := auto } }) s
    endDescs n st s
  else if (getPart s n).st = .stopping && isReset then
    endDescs n st (updPart n (fun p => { p with drain := p.drain.map fun d => { d with status := st, reset := true } }) s)
  else s

/-- What a drain waits for: fabric requests of the partition not yet acknowledged (R483). A request of the partition
carries its job tag. -/
def drainSettled (s : State) (n : Nat) : Bool :=
  let job := partJob s n
  job == 0 || (s.fab.tx.all fun e => (e.2.unacked ++ e.2.waitingQ).all fun o => o.pkt.job != job)

/-! ## Resets of the device (R486) -/

/-- A rung of the ladder is taken for a status (R488, R494): reported, and LAST_RUNG kept. -/
def takeRung (r n : Nat) (st : Status) (s : State) : State :=
  let a := bPrt + 0xC
  let s := if bitsOf (regN s a) 4 3 < r then setReg a (BitVec.ofNat 32 (setBits (regN s a) 4 3 r)) s else s
  postEvent { kind := 0x15, part := n, status := statusNum st, detail := packB [(1, r), (1, n), (1, statusNum st)] } s

/-- An hour in ns. -/
abbrev hour : Nat := 3600000000000

/-- A port goes down (R385): with a reason of R390; what waited on it is resent by the sequences. -/
def portDown (p reason : Nat) (s : State) : State :=
  let q := getPort s p
  let s := updPort p (fun q =>
    { q with st := .down, width := 0, reason := reason, timeOk := false, queue := [], credits := [], lastCred := [], freed := []
             txSeq := 0, txAcked := 0, resends := 0, rxSeq := 0, kept := [], sinceLink := 0, handshake := none, spareUsed := false, since := s.clock, holdoff := true
             degradedSince := none }) s
  let e : Ev := { kind := 0x1B, detail := packB [(1, p), (1, 0), (1, 0), (1, reason)] }
  if q.st = .up then postEvent e (gzlEvent 0 p s)
  else if q.st = .down then s
  else postEvent e s

/-- The device begins a warm reset (R486): descriptors in flight complete with DEVICE_RESETTING; partitions become FREE;
cores, counters, meshes, ports and the host interface are cleared; HBM, the journal, the translation cache and e-fuse
records stay; EPOCH rises. -/
def warmReset (s : State) : State :=
  let s := partNums.foldl (fun s n => if (getPart s n).st = .free then s else govStop n (cutColls n .deviceResetting (spoilJobs n (stepLost n .deviceResetting s)))) s
  let s := { s with descs := s.descs.map fun d => if d.live then { d with phase := .done .deviceResetting } else d }
  let s := (List.range 8).foldl (fun s p => if (getPort s p).st = .down then s else portDown p 8 s) s
  let s := clearCores s
  let regs := s.regs.filter fun e => decide (e.1 < 2 ^ 24) && !(decide (bHifDev ≤ e.1) && decide (e.1 < bPrt))
  let node := nodeId s
  let s := { s with
    parts := [], rings := [], funcs := s.funcs.map fun e => (e.1, { e.2 with msix := [], pba := [] })
    latches := [], syn := { replays := s.syn.replays }
    fab := { slew := s.fab.slew, ports := s.fab.ports }
    pipes := s.pipes.map fun e => (e.1, { e.2 with task := none, testing := none })
    sites := s.sites.map fun e => (e.1, { e.2 with testing := false, check := none, capture := none })
    ldr := { s.ldr with queue := [] }, regs := regs, flrPf0 := none
    mem := { s.mem with waiting := [] }
    fer := { s.fer with epoch := s.fer.epoch + 1 }
    sec := { s.sec with stage := 2, sessions := [], signQ := [], spdm := [], chunksIn := [], chunkSeq := [], chunksOut := [], ide := [] }
    rst := some { cold := false, since := s.clock, waitFref := false } }
  setReg (bGzl + 4) (BitVec.ofNat 32 node) s

/-- Ferryman holds the device in reset and asserts PWRCYC_REQ_N (R491). -/
def powerCycle (s : State) : State :=
  let s := if s.rst.isSome then s else warmReset s
  takeRung 4 0 .deviceResetting
    { s with brd := { s.brd with pwrcyc := true }
             fer := { s.fer with pwrcycSince := some s.clock, pwrcycReport := s.clock } }

/-- Rung 3: a warm reset at once; the third within an hour takes rung 4 (R488). -/
def rungThree (n : Nat) (st : Status) (s : State) : State :=
  let old := s.fer.rung3.filter fun t => decide (s.clock < t + hour)
  let s := takeRung 3 n st { s with fer := { s.fer with rung3 := s.clock :: old } }
  if 2 ≤ old.length then powerCycle s
  else if s.rst.isSome || s.fer.trip.isSome then s else warmReset s

/-- The device stays in reset until its module is replaced (R312, R328): cause 1 a stack, 2 a mesh link. -/
def moduleReplace (cause : Nat) (s : State) : State :=
  let s := if s.rst.isSome then s else warmReset s
  postEvent { kind := 0x17, detail := cause } { s with fer := { s.fer with moduleReplace := true } }

/-- Rung 2: a partition reset (R486, R488). -/
def rungTwo (n : Nat) (st : Status) (s : State) : State :=
  notice n 1 (drainBegin n .partReset true true (takeRung 2 n st s))

/-- An uncorrected event of a partition (R283), by its status, takes its rung (R488, R489). During a device reset nothing is counted. -/
def uncorrected (n : Nat) (st : Status) (s : State) : State :=
  if s.rst.isSome || n = 0 then s else
  let busy := match (getPart s n).drain with
    | some d => d.reset && d.auto
    | none => false
  let again := (getPart s n).events.any fun t => decide (s.clock < t + 10000000000)
  let s := countEvent n s
  let recent := partNums.filter fun m => (getPart s m).events.any fun t => decide (s.clock < t + 60000000000)
  if busy || 3 ≤ recent.length then
    let s := orReg (bPrt + 0xC) 1 s
    if bitOf (regN s bPrt) 0 then rungThree n st s else takeRung 3 n st s
  else if again && (getPart s n).st = .started then rungTwo n st s
  else takeRung 1 n st s

/-- A core's coordinate becomes unmapped (R19, R488): the owning partition stops, and the event takes rung 2. -/
def unmapCore (c : Nat) (s : State) : State :=
  let n := (getCore s c).part
  let s := postEvent { kind := 0x18, part := n, core := some c } (setPlace c .unmapped s)
  if n = 0 then s
  else
    let s := takeRung 2 n .coreRetired (countEvent n s)
    if (getPart s n).st = .started then notice n 1 (drainBegin n .partStopped false true s) else s

/-- A site is retired in service (R271, R279): recorded in the e-fuse repair record. -/
def retireSite (t : Nat) (part : Nat) (s : State) : State :=
  postEvent { kind := 0x05, part := part, site := some t } (queueRepair 0 t
    (updSite t (fun k => { k with retired := true, testing := false, check := none, capture := none }) s))

/-- A retired site's core moves to the nearest tested spare, or its coordinate becomes unmapped (R18, R19). R19 speaks of a die with no
healthy spare, R279 forbids a move onto one whose test is overdue: a die whose only healthy spares are overdue counts as having none
(DESIGN CHOICE, log entry 109). -/
def replaceCore (c t : Nat) (s : State) : State :=
  match nearestSite t (fun u => freeSpare s u && testFresh s u) with
  | some u => moveCore c u s
  | none => unmapCore c s

/-! ## Suspect sites (R270) -/

/-- After a suspect verdict or SRAM_UE: the core moves to the nearest spare tested in time and its old site starts the
site check; with none it stays, its site checks itself, and the nearest overdue spare is tested. True when it moved. -/
def suspectMove (c : Nat) (s : State) : Bool × State :=
  match siteOf s c with
  | none => (false, s)
  | some t =>
    let part := (getCore s c).part
    let cap := (getSite s t).capture
    match nearestSite t (fun u => freeSpare s u && testFresh s u) with
    | some u =>
      (true, updSite t (fun k => { k with since := s.clock, check := some { captured := cap, core := c, part := part, moved := true } }) (moveCore c u s))
    | none =>
      let s := updSite t (fun k => { k with since := s.clock, check := some { captured := cap, core := c, part := part, moved := false } }) s
      match nearestSite t (fun u => freeSpare s u) with
      | some u => (false, updSite u (fun k => { k with testing := true, since := s.clock }) s)
      | none => (false, s)

/-! ## Core faults (R161 to R163, R265) -/

/-- The START_STREAM that started a core and has not ended. -/
def streamDesc (s : State) (c : Nat) : Option Desc :=
  let k := getCore s c
  s.descs.find? fun d => d.opcode == 0x02 && d.fn == k.part && d.at 16 2 == k.group &&
    (d.phase == .started || (d.phase == .held && !(openStep s k.part).any fun t => t.ended.contains d.id))

/-- The 128 bits of an instruction (R175). -/
def insWord (i : NInstr) : Nat :=
  i.op + 2 ^ 8 * i.mod + 2 ^ 16 * i.ra + 2 ^ 24 * i.rb + 2 ^ 32 * i.rc + 2 ^ 40 * i.rd + 2 ^ 48 * i.flags.toNat + 2 ^ 64 * i.imm.toNat

/-- The image in a slot of the boot flash (R525): component 0 BOOT, 1 SYSCTL, 2 FERRYMAN; slot 0 A, 1 B. -/
def flashImage (s : State) (c slot : Nat) : FwImage := s.sec.flash.get { component := c } (2 * c + slot)

/-- The running image of a component. -/
def runningImage (s : State) (c : Nat) : FwImage := flashImage s c (s.sec.slots.get 0 c)

/-- The loader version (R206). -/
def loaderVer (s : State) : Nat := Config.loaderVersion (runningImage s 1).version.toNat

/-- Native operations of an instruction, at least one (R202). -/
def opsOf (s : State) (i : NInstr) : Nat := max 1 (Config.nativeOps (loaderVer s) (insWord i))

/-- LINEMAP of an instruction (R206): the entry table takes eight operations (R181). -/
def lineMap (s : State) (code : List NInstr) (i : Nat) : Nat := 8 + ((code.take i).map (opsOf s)).sum

/-- CORE_FAULT_PC (R170) of a fault of an instruction whose first native operation is known, in a bank of a generation. -/
def locOf (s : State) (native bank : Nat) (gen : BitVec 16) (ins : NInstr) (cause : Nat) : Word :=
  let op := native + Config.faultOp (loaderVer s) (insWord ins) cause % opsOf s ins
  BitVec.ofNat 32 (8 * op % 32768 + 32768 * bank + 65536 * gen.toNat)

/-- CORE_FAULT_PC of a fault at instruction `i` of a bank. -/
def faultLoc (s : State) (b : Bank) (bank i : Nat) (ins : NInstr) (cause : Nat) : Word :=
  locOf s (lineMap s b.code i) bank b.gen ins cause

/-- A fault cause that puts the core's site under suspicion: ARRAY_SUSPECT, SRAM_UE (R265, R270). -/
def suspectCause (cause : Nat) : Bool := cause == 0x05 || cause == 0x0D

/-- A fault enters the core's record, or sets MORE in a valid one (R163, R169). -/
def recordFault (engine : Nat) (atIssue : Bool) (loc : Word) (f : Flt) (k : Core) : Core :=
  if bitOf k.fault.toNat 31 then { k with fault := BitVec.ofNat 32 (setBits k.fault.toNat 30 1 1) }
  else
    { k with fault := BitVec.ofNat 32 (statusNum (causeStatus f.cause) + 2 ^ 8 * f.cause + 2 ^ 16 * engine + 2 ^ 19 * b2n atIssue + 2 ^ 31)
             faultPc := loc, faultInfo := BitVec.ofNat 32 f.info }

/-- A running core enters FAULTED (R161): the faulting engine drops its instruction, every queue and stream is emptied, and the other
engines keep what they can complete. An MMA whose emptied stream keeps it from completing leaves its rows unspecified (log
entry 110). -/
def enterFaulted (c engine : Nat) (s : State) : State :=
  let k := getCore s c
  let others := k.cur.filterMap fun e => if e.1 = engine then none else
    match e.2.filter fun r => !r.hungry with
    | [] => none
    | l => some (e.1, l)
  let r := spoilAll (startedRows k fun r => r.hungry) k s
  setCore c { r.1 with run := .faulted, stall := .none, halting := false, queues := [], streams := [], cur := others } r.2

/-- A core faults (R161): engine, at issue or not, location, cause. Its record is written, or MORE set in a valid one
(R163); other engines' current instructions complete; Slipway takes the fault by R265, a further one of a FAULTED core too. -/
def coreFault (c engine : Nat) (atIssue : Bool) (loc : Word) (f : Flt) (s : State) : State :=
  let k := getCore s c
  let first := k.run == .running
  if !first && k.run != .faulted then s
  else
  let code := causeStatus f.cause
  let s := if first then enterFaulted c engine s
    else if engine = 0 then s else updCore c (fun k => { k with cur := Tbl.set [] k.cur engine [] }) s
  let s := updCore c (recordFault engine atIssue loc f) s
  let n := k.part
  let suspect := suspectCause f.cause
  let s := if suspect then postEvent { kind := 0x03, status := statusNum code, part := n, core := some c, site := siteOf s c } s else s
  let s := if f.cause = 0x04 then
      postEvent { kind := 0x06, status := statusNum code, part := n, core := some c, site := siteOf s c, detail := f.info } s
    else s
  match openStep s n with
  | some t =>
    -- a stream accepted before the step opened is none of Slipway's (R156)
    let s := match streamDesc s c with
      | some d => if d.phase = .held then s else finishDesc d.id code s
      | none => s
    if suspect then
      let s := if t.moved.contains c then updStep n (fun t => { t with fatal := some .internalError }) s else s
      raiseCause n (if f.cause = 0x05 then cSUSPECT else cSRAM)
        (updStep n (fun t => { t with suspects := if t.suspects.contains c then t.suspects else t.suspects ++ [c] }) s)
    else if f.cause = 0x04 then raiseCause n cCHECKSUM s
    else raiseEnd n code s
  | none =>
    let s := match streamDesc s c with
      | some d => finishDesc d.id code s
      | none => s
    -- a second suspect verdict finds the site's check begun by the first (R270)
    let s := if suspect && (first || !suspectCause (bitsOf k.fault.toNat 8 8)) then (suspectMove c s).2 else s
    if n = 0 || !(first || suspect) then s else uncorrected n code s

end Sys2Proof.Machine
end

