-- ==== Sys2Proof/Machine/Settle.lean ====
section
/-!
DEFINITION. What an answer does at the unit that waits for it: verdicts of waits (R342, R346), signals applied to
counters (R339, R344), replies to fabric requests (R200, R349, R375, R564), and how a collective ends (R411, R412).
-/
namespace Sys2Proof.Machine

/-! ## Verdicts (R342, R345, R346) -/

/-- How a wait ends. -/
inductive Ending where
  | satisfied | deadline | saturated | outOfRange | unreachable
  deriving DecidableEq, Repr

/-- VERDICT code of an ending (R366). -/
def endingCode : Ending → Nat
  | .satisfied => 0 | .deadline => 1 | .saturated => 2 | .outOfRange => 3 | .unreachable => 3

/-- The ending of a VERDICT's TSPEC. -/
def endingOf : Nat → Ending
  | 0 => .satisfied | 1 => .deadline | 2 => .saturated | _ => .outOfRange

/-- Status with which a SYNC_WAIT ends (R349), and what a core's WAIT is told: OK, SYNC_TIMEOUT or REMOTE_UNREACHABLE. -/
def endingStatus (isCore : Bool) : Ending → Status
  | .satisfied => .ok
  | .deadline => .syncTimeout
  | .saturated => if isCore then .syncTimeout else .syncSaturated
  | _ => .remoteUnreachable

/-- The verdict of a wait reaches what waits. `node` is the counter's device. -/
def giveVerdict (o : Origin) (e : Ending) (node : Nat) (s : State) : State :=
  match o with
  | .coreWait c =>
    updCore c (fun k => if k.stall = .wait then { k with stall := .verdict (endingStatus true e) node } else k) s
  | .desc id => finishDesc id (endingStatus false e) s
  | .remote n flow vc psn tag job port => sendVerdict n flow vc psn tag job port (endingCode e) s
  | _ => s

/-! ## Counters (R336 to R344) -/

/-- The counter that INDEX names in a partition's range (R337). -/
def counterOf (s : State) (n i : Nat) : Option Nat :=
  if i < (getPart s n).pcount then some ((getPart s n).pbase + i) else none

/-- A signal or a wait request sets out for its sync unit. -/
def postSignal (g : Signal) (s : State) : State :=
  { s with syn := { s.syn with signals := s.syn.signals ++ [{ g with no := s.syn.sent }], sent := s.syn.sent + 1 } }
def postWait (w : Wait) (s : State) : State :=
  { s with syn := { s.syn with requests := s.syn.requests ++ [{ w with no := s.syn.sent }], sent := s.syn.sent + 1 } }

/-- The sync unit that INDEX names in a partition's range (R336). -/
def unitOf (s : State) (n i : Nat) : Option Nat := (counterOf s n i).map fun c => c / 256

/-- An earlier message of the same source is still on its way to the same sync unit: messages of one source to one destination arrive in
the order in which they were sent (R331). -/
def sentBefore (s : State) (source n i no : Nat) : Bool :=
  (s.syn.signals.any fun g => g.source == source && unitOf s g.part g.index == unitOf s n i && decide (g.no < no)) ||
    s.syn.requests.any fun w => w.source == source && unitOf s w.part w.index == unitOf s n i && decide (w.no < no)

/-- A counter's value. -/
def getCounter (s : State) (c : Nat) : DWord := s.syn.counters.get 0 c

/-- A counter is marked saturated. -/
def isSaturated (s : State) (c : Nat) : Bool := s.syn.saturated.get false c

/-- A bit of SYN_PEVENT with LAST_INDEX (R353). -/
def synEvent (n bit i : Nat) (s : State) : State :=
  let a := ctx bSynCtx n 4
  setReg a (BitVec.ofNat 32 (setBits (setBits (regN s a) bit 1 1) 16 14 i)) s

/-- A wait that meets its deadline unsatisfied is counted for the partition that issued it (R353); another device's for
the partition whose range it names. -/
def countTimeout (w : Wait) (s : State) : State :=
  let n := if w.issuer = 0 then w.part else w.issuer
  synEvent n 3 w.index (incReg (ctx bSynCtx n 0xC) s)

/-- The ending of a wait whose deadline has come. -/
def deadlineEnding (s : State) (w : Wait) : Ending :=
  match counterOf s w.part w.index with
  | some c => if isSaturated s c then .saturated else .deadline
  | none => .deadline

/-- A wait ends at its deadline. -/
def endWait (w : Wait) (s : State) : State := giveVerdict w.origin (deadlineEnding s w) (nodeId s) (countTimeout w s)

/-- A wait is satisfied by a counter's present value. -/
def waitMet (s : State) (w : Wait) : Bool :=
  match counterOf s w.part w.index with
  | some c => !isSaturated s c && decide (w.expected.toNat ≤ (getCounter s c).toNat)
  | none => false

/-- A deadline that was reached before the present cycle. -/
def deadlinePast (s : State) (w : Wait) : Bool := timeReached (now48 s) w.deadline && now48 s != w.deadline

/-- Waiter entries of a counter after a signal (R340, R342): those whose deadline lies behind end, those satisfied end. -/
def recheck (c : Nat) (s : State) : State :=
  let here := s.syn.waiters.filter fun w => counterOf s w.part w.index == some c
  let late := here.filter fun w => deadlinePast s w
  let met := here.filter fun w => !deadlinePast s w && waitMet s w
  let s := { s with syn := { s.syn with waiters := s.syn.waiters.filter fun w => !(late.contains w || met.contains w) } }
  met.foldl (fun s w => giveVerdict w.origin .satisfied (nodeId s) s) (late.foldl (fun s w => endWait w s) s)

/-- An increment is applied to a counter (R339): a sum above 2^64 − 1 saturates and marks it (R344). True when this
signal saturated it. -/
def addCounter (n i c inc : Nat) (s : State) : Bool × State :=
  if isSaturated s c then (false, s)
  else
    let v := (getCounter s c).toNat + inc
    if 2 ^ 64 ≤ v then
      (true, postEvent { kind := 0x1E, part := n, status := 0x41, detail := i } (synEvent n 2 i
        { s with syn := { s.syn with counters := Tbl.set 0 s.syn.counters c (BitVec.ofNat 64 (2 ^ 64 - 1))
                                     saturated := Tbl.set false s.syn.saturated c true } }))
    else (false, { s with syn := { s.syn with counters := Tbl.set 0 s.syn.counters c (BitVec.ofNat 64 v) } })

/-! ## Engines that wait for answers -/

/-- An answer an engine waited for has come: the first of its running instructions that waits takes it. -/
def engineAnswer (c e : Nat) (s : State) : State :=
  let rec dec : List Running → List Running
    | [] => []
    | r :: t => if 0 < r.waiting then { r with waiting := r.waiting - 1 } :: t else r :: dec t
  updCore c (fun k => { k with cur := Tbl.upd [] k.cur e dec }) s

/-- Some running instruction of an engine waits for answers. -/
def engineWaits (s : State) (c e : Nat) : Bool := ((getCore s c).cur.get [] e).any fun r => decide (0 < r.waiting)

/-- One entry of a number leaves a list. -/
def eraseOne (a : Nat) : List Nat → List Nat
  | [] => []
  | b :: t => if b = a then t else b :: eraseOne a t

/-- A signal is delivered: a SIG of the transfer engine completes; a remote one is no longer outstanding (R564); a
SYNC_SIGNAL completes (R347), with SYNC_SATURATED when it saturated the counter (R344). -/
def signalDone (o : Origin) (saturated : Bool) (s : State) : State :=
  match o with
  | .signal c e no _ =>
    let s := updCore c (fun k => { k with sigsOut := eraseOne no k.sigsOut }) s
    if e = 5 then engineAnswer c 5 s else s
  | .desc id => finishDesc id (if saturated then .syncSaturated else .ok) s
  | _ => s

/-- A signal is applied (R339) or discarded outside the range (R184, R345), and its counter's waits are rechecked. -/
def applySignal (n i inc : Nat) (far : Bool) (s : State) : Bool × State :=
  match counterOf s n i with
  | none => (false, synEvent n (b2n far) i (incReg (ctx bSynCtx n 8) s))
  | some c =>
    let r := addCounter n i c inc s
    (r.1, recheck c r.2)

/-! ## The end of a collective (R406, R411, R412) -/

/-- A collective ends at this member (R406, R411): record, DONE signal, events, its descriptor where Slipway does not hold
it, the step's ending where the code ends steps (R265). `first` is FIRST of the record. -/
def endColl (n id : Nat) (st : Status) (first : Nat) (s : State) : State :=
  match findColl s n id, findDesc s id with
  | some c, some d =>
    if !c.open then s else
    let good := st == .ok || st == .linkDegraded
    let s := dropUnsent n id false (updColl n id (fun c => { c with phase := .ended st, slotHeld := false, own := [], kept := [] }) s)
    let sig : DWord := BitVec.ofNat 64 (collSig s n d)
    let s := updPart n (fun p => { p with collPast := sig :: p.collPast
                                          collLate := if st == .collTimeout then (sig, cCseq d) :: p.collLate else p.collLate }) s
    let s := if good then s
      else collSpoil d (collIsRoot s n d) c.outl s
    let s := collRecord n d c (if good then highestStatus (st :: d.codes) else st) first s
    let s := match collBit st with
      | some b => collEvent n b s
      | none => s
    let s := if c.sat = 0 then s else collEvent n 3 s
    let a := ctx bCollCtx n 0x24
    let s := if good then s else setReg a (BitVec.ofNat 32 (setBits (regN s a) 16 16 first)) s
    let s := if c.ownNan = 0 then s
      else postEvent { kind := 0x21, status := statusNum st, part := n, detail := packB [(4, cCseq d), (4, c.ownNan)] } s
    let s := if good && bitOf (cFlags d) 1 then leaveIdle (applySignal n (d.at 46 2 % 2 ^ 14) 1 false s).2 else s
    if d.phase = .held then
      if good then (if st == .linkDegraded then noteStep n .linkDegraded s else s) else raiseEnd n st s
    else updPart n (fun p => { p with colls := p.colls.filter fun c => c.id != id }) (finishDesc id st s)
  | _, _ => s

/-! ## Replies (R366) -/

/-- What a request was answered with. -/
inductive Reply where
  | ok
  | data (b : Bytes)
  | refused (status : Nat)
  | unreachable
  | verdict (v : Nat)
  deriving DecidableEq, Repr

/-- The request failed at its destination: QUOTA, NOJOB or unreachable (R375). -/
def replyFailed : Reply → Bool
  | .refused st => st != 1
  | .unreachable => true
  | _ => false

/-- A descriptor's request is answered: a COPY or FILL counts it and ends on a failure (R462), a SYNC_SIGNAL completes
(R347), a SYNC_WAIT takes its verdict (R349). -/
def settleDesc (id : Nat) (o : Sent) (r : Reply) (s : State) : State :=
  match findDesc s id with
  | none => s
  | some d =>
    if d.opcode = 0x10 then
      match r with
      | .unreachable => finishDesc id .remoteUnreachable s
      | _ => finishDesc id .ok s
    else if d.opcode = 0x11 then
      match r with
      | .verdict v => giveVerdict (.desc id) (endingOf v) o.pkt.dst s
      | .unreachable => giveVerdict (.desc id) .unreachable o.pkt.dst s
      | _ => s
    else
      match r with
      -- the data waits at the descriptor until its piece is written (Descriptors.lean)
      | .data b => updDesc id (fun d => { d with got := d.got ++ [(o.dest, b)] }) s
      | _ =>
        let s := updDesc id (fun d => { d with waiting := d.waiting - 1 }) s
        if replyFailed r then finishDesc id .remoteUnreachable s
        else match findDesc s id with
          | some d => if d.waiting = 0 && d.phase == .started && !bucketOwes s d.fn 0 then finishDesc id .ok s else s
          | none => s

/-- Completing codes that a request brings to what it belongs to: it or its reply crossed a degraded or substitute port
(R378); it was sent again (R488, log entry 22). -/
def sentCodes (o : Sent) (degraded : Bool) : List Status :=
  (if degraded then [.linkDegraded] else []) ++ (if o.retried then [.okRetried] else [])

/-- Those codes noted for a core's work or for a descriptor. -/
def noteSentCore (c : Nat) (o : Sent) (degraded : Bool) (s : State) : State :=
  (sentCodes o degraded).foldl (fun s k => noteCore c k s) s
def noteSentDesc (id : Nat) (o : Sent) (degraded : Bool) (s : State) : State :=
  (sentCodes o degraded).foldl (fun s k => noteDesc id k s) s

/-- A request ends with REMOTE_UNREACHABLE (R345, R375, R389): for a SIGNAL, NOJOB counts as delivered. -/
def endsUnreachable (k : Packet) : Reply → Bool
  | .refused st => st != 1 && !(k.type == 0x08 && st == 3)
  | .unreachable => true
  | .verdict v => v == 3
  | _ => false

/-- Several answers to one engine's request: an XFER goes on, or faults once its node fails it (R200). -/
def settleEngine (c e : Nat) (loc : Word) (o : Sent) (r : Reply) (degraded : Bool) (s : State) : State :=
  if !engineWaits s c e then s
  else if replyFailed r then coreFault c e false loc { cause := 0x0F, info := o.pkt.dst } s
  else
    let s := noteSentCore c o degraded s
    engineAnswer c e (match r with
      | .data b => updCore c (fun k => sramWr k o.dest (b.take (sramSize - o.dest))) s
      | _ => s)

/-- A part of a core's signal is answered (R564): the parts of one signal fault its SIG once. -/
def settleSignal (c e no : Nat) (loc : Word) (o : Sent) (r : Reply) (degraded : Bool) (s : State) : State :=
  match r with
  | .unreachable =>
    if (getCore s c).sigsOut.contains no then
      coreFault c e false loc { cause := 0x0F, info := o.pkt.dst }
        (updCore c (fun k => { k with sigsOut := k.sigsOut.filter fun i => i != no }) s)
    else s
  | _ => signalDone (.signal c e no loc) false (noteSentCore c o degraded s)

/-- A remote wait is no longer open at its origin. -/
def dropRemote (at_ : Origin) (s : State) : State :=
  { s with syn := { s.syn with remotes := s.syn.remotes.filter fun w => w.origin != at_ } }

/-- A core's remote WAIT is answered (R345). -/
def settleWait (c : Nat) (o : Sent) (r : Reply) (degraded : Bool) (s : State) : State :=
  match r with
  | .verdict v => giveVerdict (.coreWait c) (endingOf v) o.pkt.dst (noteSentCore c o degraded s)
  | .unreachable => giveVerdict (.coreWait c) .unreachable o.pkt.dst s
  | _ => s

/-- A collective's packet is answered: only a parent or the root that is unreachable ends it here (R411). -/
def settleColl (n id : Nat) (o : Sent) (r : Reply) (degraded : Bool) (s : State) : State :=
  let s := updColl n id (fun c => { c with degraded := c.degraded || degraded }) s
  let s := if o.retried then noteDesc id .okRetried s else s
  match findDesc s id with
  | some d =>
    if replyFailed r && (o.pkt.dst == peerNode s n (cRoot d) || o.pkt.dst == peerNode s n (collParent s n (cRoot d) (ownMember s n))) then
      endColl n id .remoteUnreachable 0xFFFF s
    else s
  | none => s

/-- A REPLAY_NOTICE or DIGEST_LIST that cannot reach its member is reported (R268, R276). -/
def settleSlipway (n : Nat) (o : Sent) (r : Reply) (s : State) : State :=
  if r == .unreachable && (o.pkt.tspec == 0x10 || o.pkt.tspec == 0x11) then
    postEvent { kind := if o.pkt.tspec = 0x11 then 0x08 else 0x09, part := n, status := 0x61, detail := o.pkt.dst } s
  else s

/-- A part of a page comes to its frame, or the page's fetch fails (R315). -/
def settlePage (n page : Nat) (o : Sent) (r : Reply) (s : State) : State :=
  match r, (getPart s n).rpc.frames.find? fun e => e.2.page == page && !e.2.valid with
  | .data b, some e => memPut n 0 0 ((rpcRange s n).1 + 65536 * e.1 + o.dest % 65536) b s
  | _, _ => if replyFailed r then rpcDrop n page s else s

/-- A request of MEMORY_READ or MEMORY_WRITE that went on to the stash pool is answered. -/
def settleMemory (r : Reply) (s : State) : State :=
  match r with
  | .data b => emit (.memData b) s
  | .ok => emit .memAck s
  | .refused 1 => emit .memAck s
  | _ => emit .memRefused s

/-- What an answer does at the origin of its request; a failed write to the stash pool marks its entry, and its asker goes on (R224). -/
def settleAt : Origin → Sent → Reply → Bool → State → State
  | .stash n slot entry asker, o, r, degraded, s =>
    settleAt asker o .ok degraded (if replyFailed r then stashPoolFailed n slot entry s else s)
  | .engine c e loc, o, r, degraded, s => settleEngine c e loc o r degraded s
  | .signal c e no loc, o, r, degraded, s => settleSignal c e no loc o r degraded s
  | .coreWait c, o, r, degraded, s => settleWait c o r degraded (dropRemote (.coreWait c) s)
  | .desc id, o, r, degraded, s => settleDesc id o r (noteSentDesc id o degraded (dropRemote (.desc id) s))
  | .coll n id, o, r, degraded, s => settleColl n id o r degraded s
  | .slipway n, o, r, _, s => settleSlipway n o r s
  | .rpc n page, o, r, _, s => settlePage n page o r s
  | .memory _, _, r, _, s => settleMemory r s
  | _, _, _, _, s => s

/-- A request is answered; `degraded` says that it or its reply crossed a degraded or substitute port (R378). -/
def settle (o : Sent) (r : Reply) (degraded : Bool) (s : State) : State :=
  settleAt o.origin o r degraded (if endsUnreachable o.pkt r then incReg (bGzl + 0x18) s else s)

end Sys2Proof.Machine
end

