-- ==== Sys2Proof/Machine/Send.lean ====
section
/-!
DEFINITION. Sending on the fabric: sequences, their limits, unreachable destinations, moves of flows (R371 to R375), the fetch of a
remote page (R315), and the source of fabric time, which a port that falls or rises changes (R380).
-/
namespace Sys2Proof.Machine

/-- A request that its receiver has told of: by ACK HELD (R375), or a WAIT by a cumulative ACK (log entry 22). It counts as
acknowledged for the sequence and waits for its own reply. -/
def Sent.quiet (o : Sent) : Bool := o.held.isSome || o.acked

/-- Unacknowledged requests of a sequence (R372). -/
def SeqTx.open (t : SeqTx) : List Sent := t.unacked.filter fun o => !o.quiet

/-- Requests not acknowledged on the whole device (R372). -/
def outstanding (s : State) : Nat := (s.fab.tx.map fun e => e.2.open.length).sum

/-- ACK_TIMEOUT in ns (R388). -/
def ackTimeout (s : State) : Nat := let t := bitsOf (regN s bGzl) 16 8; (if t = 0 then 40 else t) * 1000

/-- A flow waits to go back to its own port: on every sequence, or for one destination (R371, R373). -/
def isReturning (s : State) (node flow : Nat) : Bool := s.fab.returning.contains flow || (getDest s node).returning.contains flow

/-- The port on which a request is sent, first or again: a flow on its way back stays on its substitute until its requests there
are acknowledged (R371); none when no port is UP. -/
def sendPort (s : State) (o : Sent) : Option Nat :=
  if isReturning s o.pkt.dst o.pkt.flow && portUp s o.port then some o.port else destPort s o.pkt.dst o.pkt.flow

/-- A request as it is on the port it is sent on now: the port, whether that marks it degraded (R378), the time (R373). -/
def Sent.onPort (s : State) (o : Sent) : Sent :=
  match sendPort s o with
  | some p => { o with port := p, degraded := o.degraded || portDegraded s p o.pkt.flow, at_ := s.clock }
  | none => { o with port := 8, at_ := s.clock }

/-- A request is put on its port; with no UP port left for its destination it waits unacknowledged (R386). A collective that it
belongs to is marked at once when the port is degraded or a substitute (R378). -/
def putOnPort (o : Sent) (s : State) : State :=
  let s := match o.origin with
    | .coll n id => if o.degraded then updColl n id (fun c => { c with degraded := true }) s else s
    | _ => s
  if o.port < 8 then portSend o.port o.pkt s else s

/-- A request leaves with the next PSN of its sequence (R372, R373): RESYNC in the first one after an unreachable end. -/
def transmit (o : Sent) (s : State) : State :=
  let k := o.pkt
  let t := getTx s k.dst k.flow k.vc
  let o := Sent.onPort s { o with psn := t.next, pkt := sealPacket { k with psn := t.next, resync := t.resync, epoch := s.fer.epoch } }
  putOnPort o (updTx k.dst k.flow k.vc (fun t =>
    { t with next := (t.next + 1) % 2 ^ 24, resync := false, unacked := t.unacked ++ [o] }) s)

/-- A sequence can send: fewer than 256 unacknowledged in it, fewer than 32,768 on the device, its flow not on its way
back to its own port (R371, R372). -/
def canSend (s : State) (node flow vc : Nat) : Bool :=
  decide ((getTx s node flow vc).open.length < 256) && decide (outstanding s < 32768) && !isReturning s node flow

/-- Requests that wait in a sequence leave as its limits allow. -/
def pump (node flow vc : Nat) : Nat → State → State
  | 0, s => s
  | n + 1, s =>
    match (getTx s node flow vc).waitingQ with
    | [] => s
    | o :: l =>
      if canSend s node flow vc then
        pump node flow vc n (transmit o (updTx node flow vc (fun t => { t with waitingQ := l }) s))
      else s

/-- Every sequence with waiting requests is pumped. -/
def pumpAll (s : State) : State :=
  ((s.fab.tx.filter fun e => !e.2.waitingQ.isEmpty).map Prod.fst).foldl (fun s k => pump (k / 64) (k / 8 % 8) (k % 8) 256 s) s

/-- A request is sent: at once, after those that wait, or ended at once for a destination found unreachable (R373). -/
def sendSeq (o : Sent) (s : State) : State :=
  let k := o.pkt
  if (getDest s k.dst).unreachable then settle o .unreachable false s
  else
    let t := getTx s k.dst k.flow k.vc
    if t.waitingQ.isEmpty && canSend s k.dst k.flow k.vc then transmit o s
    else updTx k.dst k.flow k.vc (fun t => { t with waitingQ := t.waitingQ ++ [o] }) s

/-- What a request names beside its destination. -/
structure Req where
  type : Nat
  vc : Nat
  node : Nat
  flow : Nat
  addr : Nat := 0
  hint : Nat := 0
  tspec : Nat := 0
  ext : Bytes := []
  data : Bytes := []
  /-- STEP and ATTEMPT are carried: the packet comes from a core (R263). -/
  stepped : Bool := false
  tag : Option Nat := none
  deriving DecidableEq, Repr

/-- A request of partition `n` (R365, R375): a partition with JOB 0 sends none and its request ends unreachable. -/
def sendReq (n : Nat) (q : Req) (o : Origin) (dest : Nat) (s : State) : State :=
  let job := partJob s n
  let st := if q.stepped then openStep s n else none
  let tag := s.fab.tagNo
  let k : Packet :=
    { type := q.type, vc := q.vc, mcast := false, stepValid := st.isSome, attempt := (st.map Step.attempt).getD 0
      resync := false, dst := q.node, src := nodeId s, psn := 0, flow := q.flow, hint := q.hint, job := job
      tag := q.tag.getD tag, addr := BitVec.ofNat 48 q.addr
      step := BitVec.ofNat 24 ((st.map fun t => t.num.toNat).getD 0), epoch := s.fer.epoch, tspec := q.tspec
      ext := q.ext, payload := q.data, ecrc := 0 }
  let w : Sent := { psn := 0, pkt := k, origin := o, dest := dest, port := 8, held := none, degraded := false }
  let s := if q.tag.isSome then s else { s with fab := { s.fab with tagNo := (tag + 1) % 65536 } }
  if n = 0 || job = 0 then settle w .unreachable false s else sendSeq w s

/-- Every request to a destination ends REMOTE_UNREACHABLE, and its sequences resync (R373). -/
def destUnreachable (node : Nat) (s : State) : State :=
  let mine := s.fab.tx.filter fun e => e.1 / 64 == node
  let all := (mine.map fun e => e.2.unacked ++ e.2.waitingQ).flatten
  let clear (t : SeqTx) : SeqTx := { t with unacked := [], waitingQ := [], resync := true }
  let s := { s with fab := { s.fab with tx := s.fab.tx.map fun e => if e.1 / 64 = node then (e.1, clear e.2) else e } }
  let s := gzlEvent 5 0 (updDest node (fun d => { d with unreachable := true, returning := [], since := s.clock }) s)
  all.foldl (fun s o => settle o .unreachable false s) s

/-- Distance of a PSN from a reference (R372). -/
def psnDist (a b : Nat) : Nat := (a + 2 ^ 24 - b) % 2 ^ 24

/-- Unacknowledged requests of a sequence that `pick` names are sent again, oldest first (R372, R373). -/
def resendSome (key : Nat) (pick : Sent → Bool) (s : State) : State :=
  let go (o : Sent) : Bool := !o.quiet && pick o
  let l := ((s.fab.tx.get {} key).unacked.filter go).map fun o => { Sent.onPort s o with retried := true }
  let s := { s with fab := { s.fab with tx := Tbl.upd {} s.fab.tx key fun t =>
    { t with unacked := t.unacked.map fun o => if go o then { Sent.onPort s o with retried := true } else o } } }
  l.foldl (fun s o => putOnPort o s) s

/-- Every unacknowledged request of a sequence is sent again (R373). -/
def resendSeq (key : Nat) (s : State) : State := resendSome key (fun _ => true) s

/-- Sequences move to the port they now take: each resends its unacknowledged requests first (R371). -/
def moveFlows (pick : Nat → Bool) (s : State) : State :=
  ((s.fab.tx.filter fun e => pick e.1 && !e.2.open.isEmpty).map Prod.fst).foldl (fun s k => resendSeq k s) s

/-! ## Fabric time and its source (R380) -/

/-- e of R380 from a port's last time estimate. -/
def timeOffset (s : State) (p : Nat) : Int := (getPort s p).offset + (s.clock : Int) - (s.now.toNat : Int)

/-- A port can be the source of fabric time. -/
def timeGood (s : State) (p : Nat) : Bool := portUp s p && (getPort s p).timeOk

/-- The source of fabric time: the lowest-numbered UP port with TIME_OK; where two such ports differ by more than 1 µs, the source that
there is stays. -/
def timeSource (s : State) : Option Nat :=
  let low := (List.range 8).find? fun p => timeGood s p
  match s.fab.source, low with
  | some q, some p => if timeGood s q && decide (1000 < (timeOffset s p - timeOffset s q).natAbs) then some q else low
  | _, _ => low

/-- OFFSET of GZL_TIME_STATUS (R388): e in units of 16 ns, saturating. -/
def offsetField (e : Int) : Nat := wrapInt 16 (max (-32768) (min 32767 (e / 16)))

/-- A TIME record: 0 step, 1 skew, 2 source, and the offset (R508). -/
def timeRecord (k : Nat) (e : Int) (s : State) : State :=
  postEvent { kind := 0x1C, detail := packB [(1, k), (7, wrapInt 56 e)] } s

/-- Fabric time is corrected towards its source by an offset (R380). -/
def correctTime (e : Int) (p : Nat) (s : State) : State :=
  let a := bGzl + 0x0C
  let s := setReg a (BitVec.ofNat 32 (setBits (regN s a) 16 16 (offsetField e))) s
  if -1000 ≤ e && e ≤ 1000 then { s with fab := { s.fab with slew := e } }
  else if 0 < e || !(partNums.any fun n => isStarted s n) then
    timeRecord 0 e (gzlEvent 6 p { s with now := s.now + BitVec.ofInt 64 e, fab := { s.fab with slew := 0 } })
  else timeRecord 1 e (gzlEvent 7 p { s with fab := { s.fab with slew := e } })

/-- Fabric time follows its present source, which may have changed: a change acts at once; with none it free-runs. -/
def followSource (s : State) : State :=
  let new := timeSource s
  if new = s.fab.source then s
  else
    let s := { s with fab := { s.fab with source := new } }
    match new with
    | some p => correctTime (timeOffset s p) p (timeRecord 2 (timeOffset s p) s)
    | none => timeRecord 2 0 { s with fab := { s.fab with slew := 0 } }

/-! ## Ports that fall, and flows that return (R371, R385) -/

/-- A port leaves UP: its flows move to substitutes, those that were on their way back from it too (R371, R385), and fabric time
follows another source (R380). -/
def portFails (p reason : Nat) (s : State) : State :=
  let was := portUp s p
  let carried (f : Nat) : Bool := flowPort s f == some p ||
    (s.fab.returning.contains f && s.fab.tx.any fun e => e.1 / 8 % 8 == f && e.2.open.any fun o => o.port == p)
  let moved := (List.range 8).filter carried
  let s := portDown p reason s
  if was then
    let s := if moved.isEmpty then s else gzlEvent 4 p s
    let s := { s with fab := { s.fab with returning := s.fab.returning.filter fun f => !moved.contains f
                                          dests := s.fab.dests.map fun e => (e.1, { e.2 with returning := e.2.returning.filter fun f => !moved.contains f }) } }
    followSource (moveFlows (fun k => moved.contains (k / 8 % 8) ||
      (s.fab.tx.get {} k).open.any fun o => o.port == p) s)
  else s

/-- Every request of a flow on its way back is acknowledged: for all destinations, or for one. -/
def flowClear (s : State) (f : Nat) (node : Option Nat) : Bool :=
  (s.fab.tx.filter fun e => e.1 / 8 % 8 == f && (node.isNone || node == some (e.1 / 64))).all fun e => e.2.open.isEmpty

/-- Flows whose outstanding requests on a substitute are all acknowledged return to their own ports (R371), and requests that waited
for that, or for the limits of R372, leave. -/
def flowsReturn (s : State) : State :=
  let back (node : Option Nat) (l : List Nat) : List Nat := l.filter fun f => !flowClear s f node
  pumpAll { s with fab := { s.fab with
    returning := back none s.fab.returning
    dests := s.fab.dests.map fun e => (e.1, { e.2 with returning := back (some e.1) e.2.returning }) } }

/-- The request of a sequence that a reply names is retired (R366). -/
def retireOne (key psn : Nat) (r : Reply) (degraded : Bool) (s : State) : State :=
  let t := s.fab.tx.get {} key
  match t.unacked.find? fun o => o.psn == psn with
  | none => s
  | some o =>
    let s := { s with fab := { s.fab with tx := Tbl.upd {} s.fab.tx key fun t =>
      { t with unacked := t.unacked.filter (fun o => o.psn != psn) } } }
    settle o r (degraded || o.degraded) s

/-- Whether a request waits for a reply of its own type: a READ for its data, a WAIT for its verdict, a held one for its
final reply. -/
def ownReply (o : Sent) : Bool := o.pkt.type == 0x01 || o.pkt.type == 0x09 || o.held.isSome

/-- A cumulative acknowledgement retires every request of its sequence up to its PSN (R372); a WAIT stays for its VERDICT. -/
def retireUpTo (key psn : Nat) (degraded : Bool) (s : State) : State :=
  let upTo (o : Sent) : Bool := decide (psnDist psn o.psn < 2 ^ 23)
  let s := { s with fab := { s.fab with tx := Tbl.upd {} s.fab.tx key fun t =>
    { t with unacked := t.unacked.map fun o => if upTo o && o.pkt.type == 0x09 then { o with acked := true } else o } } }
  let t : SeqTx := Tbl.get {} s.fab.tx key
  let l := t.unacked.filter fun o => decide (psnDist psn o.psn < 2 ^ 23) && !ownReply o
  l.foldl (fun s o => retireOne key o.psn .ok degraded s) s

/-! ## Signals, waits and page fetches -/

/-- SIGID of a core's signal (R368): its coordinates and a signal number. A host's signal takes coordinates that no core
has (log entry 13). -/
def coreSigId (core no : Nat) : Nat := core % 64 + 64 * (core / 64) + 4096 * (no % 2 ^ 20)
def hostSigId (no : Nat) : Nat := 4095 + 4096 * (no % 2 ^ 20)

/-- A signal to a counter of another device (R335, R368): one part on each flow of the writes it covers, or one part on
the formula's flow when it covers none. -/
def sendSignal (n sigId node index inc : Nat) (flows : List Nat) (o : Origin) (s : State) : State :=
  let parts := if flows.isEmpty then [flowOf (8 * index) node] else flows
  let data := leBytes 4 inc ++ leBytes 2 (index % 2 ^ 14) ++ leBytes 1 parts.length ++ [0] ++ leBytes 4 sigId ++ zeros 4
  ((List.range parts.length).zip parts).foldl (fun s p =>
    sendReq n { type := 0x08, vc := 2, node := node, flow := p.2, tspec := p.1, data := data, stepped := true } o 0 s) s

/-- A WAIT on a counter of another device (R346, R368). -/
def sendWait (n node index : Nat) (expected : DWord) (deadline : BitVec 48) (core : Bool) (o : Origin) (s : State) : State :=
  let data := leBytes 2 (index % 2 ^ 14) ++ zeros 6 ++ leBytes 8 expected.toNat ++ leBytes 6 deadline.toNat ++ zeros 2
  let s := { s with syn := { s.syn with remotes := s.syn.remotes ++ [{ origin := o, deadline := deadline, node := node }] } }
  sendReq n { type := 0x09, vc := 2, node := node, flow := flowOf (8 * index) node, data := data, stepped := core } o 0 s

/-- An RM read of a page that has no copy is counted, and the page's fetch starts when it has become hot (R315): a READ for each 256
bytes of it (log entry 118). -/
def rpcWant (n node a : Nat) (s : State) : State :=
  let page := rpcPage node a
  let r := rpcCount n page s
  if r.1 then
    let base := a / 65536 * 65536
    (List.range 256).foldl (fun s i =>
      sendReq n { type := 0x01, vc := 1, node := node, flow := flowOf (base + 256 * i) node, addr := base + 256 * i, tspec := 256 }
        (.rpc n page) (256 * i) s) r.2
  else r.2

end Sys2Proof.Machine
end

