-- ==== Sys2Proof/Machine/Governor.lean ====
section
/-!
DEFINITION. The precision governor (08): layer table, settings, windows and jumps, trips, admission, commit, thresholds.
-/
namespace Sys2Proof.Machine

/-! ## Registers and the layer table (R240, R255, R256) -/

/-- GOV_CTL of a partition (R255). -/
def govCtl (s : State) (n : Nat) : Nat := regN s (ctx bGovCtx n 0)
def govEn (s : State) (n : Nat) : Bool := bitOf (govCtl s n) 0
def govAdaptT (s : State) (n : Nat) : Bool := bitOf (govCtl s n) 1
def govAdaptTau (s : State) (n : Nat) : Bool := bitOf (govCtl s n) 2
def govWarmup (s : State) (n : Nat) : Nat := bitsOf (govCtl s n) 8 8
def govStable (s : State) (n : Nat) : Nat := let v := bitsOf (govCtl s n) 16 8; if v = 0 then 64 else v

/-- GOV_LT_COUNT. -/
def govCount (s : State) (n : Nat) : Nat := bitsOf (regN s (ctx bGovCtx n 0x18)) 0 13

/-- A bit of GOV_EVENT (R256). -/
def govFlag (n bit : Nat) (s : State) : State := orReg (ctx bGovCtx n 4) (BitVec.ofNat 32 (2 ^ bit)) s

/-- The governor context of a partition changed. -/
def updGov (n : Nat) (f : Gov → Gov) (s : State) : State := updPart n (fun p => { p with gov := f p.gov }) s

/-- A layer entry from its 64 bytes, fields outside their range read as R240 states. -/
def layerOf (b : Bytes) : Layer :=
  let st := bitsOf (leAt b 0 1) 0 2
  let ff := bitsOf (leAt b 1 1) 0 4
  let fb := bitsOf (leAt b 1 1) 4 4
  let k := bitsOf (leAt b 2 1) 0 3
  { state := if st = 3 then 0 else st, rotNarrow := bitOf (leAt b 0 1) 2, fmtFwd := if fmtNarrow ff then ff else 6
    fmtBwd := if fmtNarrow fb then fb else 7, kNarrow := if 3 ≤ k then 2 else k, stable := leAt b 3 1
    arenaCost := leAt b 4 4, arenaOff := leAt b 8 4, outElems := leAt b 12 4, gradElems := leAt b 16 4
    avgOut := BitVec.ofNat 32 (leAt b 20 4), avgGrad := BitVec.ofNat 32 (leAt b 24 4)
    tauOut := BitVec.ofNat 32 (leAt b 28 4), tauGrad := BitVec.ofNat 32 (leAt b 32 4), seen := leAt b 36 4
    trips := leAt b 40 4, lastCause := leAt b 44 1 }

/-- A layer entry holds a value outside its range (BAD_ENTRY, R240). -/
def layerBad (b : Bytes) : Bool :=
  bitsOf (leAt b 0 1) 0 2 == 3 || !fmtNarrow (bitsOf (leAt b 1 1) 0 4) || !fmtNarrow (bitsOf (leAt b 1 1) 4 4) ||
    decide (3 ≤ bitsOf (leAt b 2 1) 0 3)

/-- The governor reads the whole layer table (R241, R258). -/
def govRead (n : Nat) (s : State) : State :=
  let ent := (List.range (govCount s n)).map fun i => (i, devRd s (layerAddr s n i) 64)
  let tab : Tbl Layer := ent.map fun e => (e.1, layerOf e.2)
  let s := updGov n (fun g => { g with table := tab }) s
  if ent.any fun e => layerBad e.2 then govFlag n 8 s else s

/-- A layer of the table, none for an ID at or above GOV_LT_COUNT (R240). -/
def govLayer (s : State) (n i : Nat) : Option Layer :=
  if i < govCount s n then some ((getPart s n).gov.table.get {} i) else none

/-- A layer changed. -/
def updLayer (n i : Nat) (f : Layer → Layer) (s : State) : State :=
  updGov n (fun g => { g with table := g.table.map fun e => if e.1 = i then (i, f e.2) else e }) s

/-! ## Settings (R242, R255) -/

/-- A setting of one copy: format, rotation on, k, τ. -/
structure Setting where
  fmt : Nat
  rot : Bool
  k : Nat
  tau : Nat
  deriving DecidableEq, Repr

/-- τ of a class; 0 means 8.0 (R240). -/
def tauOf (l : Layer) (cls : Nat) : Nat :=
  let t := (if cls = 0 then l.tauOut else l.tauGrad).toNat
  if t = 0 then 0x41000000 else t

/-- Outlier budget of a layer (R242). -/
def kOf (en : Bool) (l : Layer) : Nat := if en && l.state == 2 then 4 else l.kNarrow

/-- The two copies' settings of a layer and class (R242); with EN 0 the NARROW ones (R255). -/
def settingOf (en : Bool) (l : Layer) (cls : Nat) : Setting × Setting :=
  let st := if en then l.state else 0
  let rot := l.rotNarrow || st != 0
  let mk (f : Nat) : Setting := { fmt := f, rot := rot, k := kOf en l, tau := tauOf l cls }
  if st = 1 then (if cls = 0 then (mk fE4M3, mk fE5M2) else (mk fE5M2, mk fE5M2))
  else (if cls = 0 then (mk l.fmtFwd, mk l.fmtBwd) else (mk l.fmtBwd, mk l.fmtBwd))

/-- What a GOV NRW of a layer and class takes (R194, R240, R242): the setting fixed when the last step opened or attempt started, so
that a commit's new states wait for the next step (R250); none leaves it to its descriptors and FLAGS. -/
def govSetting (s : State) (n i cls : Nat) : Option (Setting × Setting) :=
  if 2 ≤ cls || govCount s n ≤ i then none
  else
    let g := (getPart s n).gov
    some (settingOf (govEn s n) (g.settings.get {} i) cls)

/-- A destination in the format and rotation that a setting gives it (R194). -/
def govDst (d : Tdesc) (x : Option Setting) : Tdesc :=
  match x with
  | some x => { d with fmt := x.fmt, rotated := x.rot }
  | none => d

/-- The governor's settings for an NRW with GOV, none where it takes its descriptors' (R194, R240, R242). -/
def nrwSetting (s : State) (n : Nat) (i : NInstr) (layer : Nat) : Option (Setting × Setting) :=
  if bitOf i.flags.toNat 1 then govSetting s n layer (bitsOf i.flags.toNat 2 2) else none

/-! ## Trips (R246, R247) -/

/-- A trip enters a layer's entry (R240, R247): TRIPS, LAST_CAUSE, and STABLE of a layer that is not NARROW. -/
def tripLayer (n i count cause : Nat) (s : State) : State :=
  updLayer n i (fun l => { l with trips := satTo 32 (l.trips + count), lastCause := cause, stable := if l.state = 0 then l.stable else 0 }) s

/-- A trip of a layer by some causes, the lowest first (R246, R247). `ratio` is the class of a ratio jump. -/
def govTrip (n i : Nat) (causes : List Nat) (ratio : Option Nat) (s : State) : State :=
  if causes.isEmpty || !govEn s n then s else
  match govLayer s n i with
  | none => s
  | some l =>
    let cause := causes.foldl min 255
    let s := tripLayer n i causes.length cause s
    let s := if (openStep s n).isNone then updGov n (fun g => { g with between := g.between ++ [(i, causes.length, cause)] }) s else s
    let s := updGov n (fun g => { g with tripped := if g.tripped.contains i then g.tripped else g.tripped ++ [i] }) s
    let a := ctx bGovCtx n 4
    let s := setReg a (BitVec.ofNat 32 (setBits (setBits (regN s a) 0 1 1) 16 16 i)) s
    if l.state != 0 then govFlag n 4 s
    else match openStep s n with
      | none => updGov n (fun g => { g with nextMarks := if g.nextMarks.contains i then g.nextMarks else g.nextMarks ++ [i] }) s
      | some t =>
        if t.attempt = 0 && t.phase != .gated then
          let s := match ratio with
            | some c => updGov n (fun g => { g with ratio := if g.ratio.contains (i, c) then g.ratio else g.ratio ++ [(i, c)] }) s
            | none => s
          let g := (getPart s n).gov
          if g.marked.contains i then s
          else
            let s := updGov n (fun g => { g with marked := g.marked ++ [i], requested := true }) s
            if g.requested then s
            else raiseCause n cGOVERNOR (govFlag n 1 (updStep n (fun t => { t with firstLayer := i }) s))
        else
          govFlag n 3 (updGov n (fun g =>
            { g with stepMarks := if g.stepMarks.contains (t.attempt, i) then g.stepMarks else g.stepMarks ++ [(t.attempt, i)] }) s)

/-- COLL_NAN of a collective trips the layer its descriptor names (R240, R246). -/
def govCollNan (n layer : Nat) (s : State) : State :=
  if layer = 0xFFFF then s
  else if govCount s n ≤ layer then govFlag n 7 s
  else govTrip n layer [5] none s

/-! ## Records, windows, jumps (R239, R243, R244) -/

/-- Magnitude of a finite FP32 word in units of 2^-149, and whether it is infinite. -/
def fp32Units (w : Nat) : Nat × Bool :=
  match fp32Num w with
  | .fin _ m e => (shl m (e + 149), false)
  | _ => (0, true)

/-- The observation of a closed window, FP32 (R243). -/
def obsOf (sum : Nat) (inf : Bool) (elems : Nat) : Nat :=
  if inf then 0x7F800000 else (writeFrac fFP32 true false sum elems (-149)).code

/-- An observation is a jump (R244). -/
def isJump (seen warmup avg t o : Nat) : Bool :=
  if seen < warmup then false
  else match fp32Num o with
    | .fin .. =>
      if numIsZero (fp32Num avg) then !numIsZero (fp32Num o)
      else numLt (numMul (fp32Num t) (fp32Num avg)) (fp32Num o) || numLt (numMul (fp32Num o) (fp32Num t)) (fp32Num avg)
    | _ => true

/-- T of a class as it stood when the attempt began; outside a step, as it stands. -/
def govT (s : State) (n cls : Nat) : Nat :=
  if (openStep s n).isSome then (if cls = 0 then (getPart s n).gov.tOut else (getPart s n).gov.tGrad).toNat
  else regN s (ctx bGovCtx n (if cls = 0 then 8 else 0xC))

/-- A statistics record reaches the governor (R239, R240, R243, R246). -/
def govTake (n : Nat) (b : Bytes) (s : State) : State :=
  let i := leAt b 4 2
  let cls := leAt b 6 1
  if 2 ≤ cls then s
  else match govLayer s n i with
    | none => govFlag n 7 s
    | some l =>
      let key := 2 * i + cls
      let s := updGov n (fun g => { g with outl := Tbl.upd {} g.outl key fun o =>
        { outl := o.outl + leAt b 28 4, blocks := o.blocks + leAt b 12 4, drops := o.drops + leAt b 36 4 } }) s
      let expect := if cls = 0 then l.outElems else l.gradElems
      let w := (getPart s n).gov.windows.get {} key
      let u := fp32Units (leAt b 0 4)
      let w : Window := { sum := w.sum + u.1, inf := w.inf || u.2, elems := w.elems + leAt b 8 4 }
      let closes := expect != 0 && decide (expect ≤ w.elems)
      let o := obsOf w.sum w.inf w.elems
      let jump := closes && isJump l.seen (govWarmup s n) (if cls = 0 then l.avgOut else l.avgGrad).toNat (govT s n cls) o
      let s :=
        if expect = 0 then s
        else if closes then
          updGov n (fun g =>
            { g with windows := Tbl.set {} g.windows key {}
                     obs := g.obs ++ [{ layer := i, cls := cls, o := BitVec.ofNat 32 o, n := w.elems, jump := jump }] }) s
        else updGov n (fun g => { g with windows := Tbl.set {} g.windows key w }) s
      let causes := (if jump then [1] else []) ++ (if 0 < leAt b 20 4 + leAt b 44 4 then [2] else []) ++
        (if 0 < leAt b 24 4 + leAt b 48 4 then [3] else []) ++ (if bitOf (leAt b 7 1) 2 then [4] else [])
      govTrip n i causes (if jump then some cls else none) s

/-- Every record that waits is taken. -/
def govDrain (n : Nat) (s : State) : State :=
  (getPart s n).gov.inbox.foldl (fun s b => govTake n b.2 s) (updGov n (fun g => { g with inbox := [] }) s)

/-! ## Admission (R248, R249) -/

/-- Runs of the arena held by FALLBACK layers: first unit, units. -/
def arenaHeld (g : Gov) : List (Nat × Nat) :=
  (g.table.filter fun e => e.2.state == 1 && e.2.arenaOff != 0xFFFFFFFF).map fun e => (e.2.arenaOff, e.2.arenaCost)

/-- GOV_ARENA_USED (R257). -/
def arenaUsed (s : State) (n : Nat) : Nat := ((arenaHeld (getPart s n).gov).map Prod.snd).sum

/-- The free run of lowest offset that is long enough. -/
def arenaRun (g : Gov) (size cost : Nat) : Option Nat :=
  let held := arenaHeld g
  let ok (o : Nat) : Bool := decide (o + cost ≤ size) && !(held.any fun h => rangesMeet o cost h.1 h.2)
  (sortNat (0 :: held.map fun h => h.1 + h.2)).find? ok

/-- A layer takes a free run of the arena, or none. -/
def admitOne (n i : Nat) (s : State) : Option State :=
  match govLayer s n i with
  | none => none
  | some l =>
    match arenaRun (getPart s n).gov (regN s (ctx bGovCtx n 0x24)) l.arenaCost with
    | some o => some (updLayer n i (fun l => { l with state := 1, arenaOff := o, stable := 0 }) s)
    | none => none

/-- Marked layers are admitted in ascending layer ID (R248): the layers that became FALLBACK, those that entered STORM. -/
def admitAll (n : Nat) : List Nat → State → List Nat × List Nat × State
  | [], s => ([], [], s)
  | i :: t, s =>
    match govLayer s n i with
    | none => admitAll n t s
    | some l =>
      if l.state != 0 then admitAll n t s
      else match admitOne n i s with
        | some s' => let r := admitAll n t s'; (i :: r.1, r.2.1, r.2.2)
        | none => let r := admitAll n t (updLayer n i (fun l => { l with state := 2, stable := 0, arenaOff := 0xFFFFFFFF }) s); (r.1, i :: r.2.1, r.2.2)

/-- Admission with its report: a widening storm when a layer enters STORM (R249). -/
def govAdmit (n : Nat) (marks : List Nat) (s : State) : State :=
  let r := admitAll n (sortNat marks) s
  let done := r.1 ++ r.2.1
  let s := updGov n (fun g =>
    { g with ratio := g.ratio.filter fun e => r.1.contains e.1, stable0 := g.stable0.filter fun e => !done.contains e.1 }) r.2.2
  if r.2.1.isEmpty then s
  else noteStep n .wideningStorm (notice n 0 (postEvent
    { kind := 0x20, status := 0x81, part := n, detail := packB [(4, r.2.1.length), (4, r.1.length)] } (govFlag n 2 s)))

/-! ## Step open, attempts, endings (R241, R242, R248, R251) -/

/-- A step opens: the table is read, the trips since the last step enter it (log entry 39), waiting marks are admitted, every
setting is fixed, and the table is written. -/
def govOpen (n : Nat) (s : State) : State :=
  let s := govRead n s
  let s := (getPart s n).gov.between.foldl (fun s e => tripLayer n e.1 e.2.1 e.2.2 s) s
  let marks := (getPart s n).gov.nextMarks
  let s := updGov n (fun g =>
    { g with marked := [], nextMarks := [], stepMarks := [], ratio := [], requested := false, between := []
             stable0 := g.table.map fun e => (e.1, e.2.stable) }) s
  let s := if govEn s n then govAdmit n marks s else s
  layerStoreAll n (updGov n (fun g => { g with settings := g.table }) s)

/-- An attempt starts: settings and T are latched, windows and observations start anew. -/
def govAttempt (n : Nat) (s : State) : State :=
  let tO := reg s (ctx bGovCtx n 8)
  let tG := reg s (ctx bGovCtx n 0xC)
  layerStoreAll n (updGov n (fun g =>
    { g with settings := g.table, windows := [], obs := [], outl := [], tripped := [], inbox := [], tOut := tO, tGrad := tG }) s)

/-- The end of an attempt is confirmed: after the first one its marks are admitted (R248). -/
def govConfirm (n : Nat) (s : State) : State :=
  let s := govDrain n s
  if (openStep s n).any (fun t => t.attempt == 0) then
    let marks := (getPart s n).gov.marked
    let s := govAdmit n marks (updGov n (fun g => { g with marked := [] }) s)
    if marks.isEmpty then s else layerStoreAll n s
  else s

/-- A step ends without commit (R251, R266): `gov` says that its final attempt's GOVERNOR replay found no attempt left. STABLE stands
again as the step found it, in the table in HBM too, where a replay's start may have written a trip's 0 (log entry 114). -/
def govEnd (n : Nat) (gov : Bool) (s : State) : State :=
  let a := ((openStep s n).map Step.attempt).getD 0
  layerStoreAll n <| updGov n (fun g =>
    { g with table := g.table.map fun e =>
               if g.stable0.any (fun x => x.1 == e.1) then (e.1, { e.2 with stable := g.stable0.get 0 e.1 }) else e
             nextMarks := g.nextMarks ++ ((g.stepMarks.filter fun m => decide (m.1 < a)).map Prod.snd) ++
               (if gov then g.marked ++ (g.stepMarks.filter fun m => m.1 == a).map Prod.snd else [])
             marked := [], stepMarks := [], ratio := [], stable0 := [], windows := [], obs := [], outl := []
             tripped := [], requested := false }) s

/-! ## Commit (R245, R250, R252, R253) -/

/-- m·2^-149 / d rounded once to FP32. -/
def unitsFp32 (m d : Nat) : Word := BitVec.ofNat 32 (writeFrac fFP32 true false m d (-149)).code

/-- A threshold times 5/4 up to a bound, or times 4/5 down to one (R252, R253): rounded once, then bounded. -/
def scaleUp (t bound : Nat) : Nat := min (unitsFp32 (5 * (fp32Units t).1) 4).toNat bound
def scaleDown (t bound : Nat) : Nat := max (unitsFp32 (4 * (fp32Units t).1) 5).toNat bound

/-- The average of a class after a commit (R245). -/
def newAvg (old : Word) (obs : List Obs) : Word :=
  if obs.isEmpty || obs.any (fun o => (fp32Units o.o.toNat).2) then old
  else
    let sum := (obs.map fun o => (fp32Units o.o.toNat).1 * o.n).sum
    let d := (obs.map Obs.n).sum
    if old = 0 then unitsFp32 sum d else unitsFp32 (15 * (fp32Units old.toNat).1 * d + sum) (16 * d)

/-- Averages and SEEN of every layer that closed a window (R245). -/
def govAverage (n : Nat) (s : State) : State :=
  updGov n (fun g => { g with table := g.table.map fun e =>
    let mine := g.obs.filter fun o => o.layer == e.1
    if mine.isEmpty then e
    else (e.1, { e.2 with
      avgOut := newAvg e.2.avgOut (mine.filter fun o => o.cls == 0)
      avgGrad := newAvg e.2.avgGrad (mine.filter fun o => o.cls == 1)
      seen := satTo 32 (e.2.seen + 1) }) }) s

/-- One ratio trip is classified and T looked at after every 16th (R252). -/
def classifyOne (n : Nat) (s : State) (e : Nat × Nat) : State :=
  let g := (getPart s n).gov
  let bad := g.obs.any fun o => o.layer == e.1 && o.cls == e.2 && o.jump
  let c := g.looked.get (0, 0) e.2
  let c := (c.1 + 1, c.2 + b2n bad)
  let a := ctx bGovCtx n (if e.2 = 0 then 8 else 0xC)
  let t := regN s a
  if c.1 < 16 then updGov n (fun g => { g with looked := Tbl.set (0, 0) g.looked e.2 c }) s
  else
    let t' := if 5 ≤ c.2 then scaleUp t 0x41800000 else if c.2 = 0 then scaleDown t 0x40000000 else t
    setReg a (BitVec.ofNat 32 t') (updGov n (fun g => { g with looked := Tbl.set (0, 0) g.looked e.2 (0, 0) }) s)

/-- Ratio trips in order of layer ID, then class. -/
def ratioOrder (l : List (Nat × Nat)) : List (Nat × Nat) :=
  (sortNat (l.map fun e => 2 * e.1 + e.2)).map fun k => (k / 2, k % 2)

/-- τ of a layer and class after a commit (R253). -/
def newTau (en : Bool) (set : Layer) (l : Layer) (cls : Nat) (o : OutlSum) : Word :=
  let old := if cls = 0 then l.tauOut else l.tauGrad
  if kOf en set = 0 then old
  else
    let t := match clampTau (tauOf l cls) with
      | .fin _ m e => toFp32 (.fin false m e)
      | _ => 0x41000000
    if 0 < o.drops || 2 * o.blocks < 100 * o.outl then BitVec.ofNat 32 (scaleUp t 0x42800000)
    else if 200 * o.outl < o.blocks then BitVec.ofNat 32 (scaleDown t 0x40000000)
    else old

/-- τ of every layer (R253). -/
def govTau (n : Nat) (s : State) : State :=
  updGov n (fun g => { g with table := g.table.map fun e =>
    (e.1, { e.2 with tauOut := newTau true (g.settings.get {} e.1) e.2 0 (g.outl.get {} (2 * e.1))
                     tauGrad := newTau true (g.settings.get {} e.1) e.2 1 (g.outl.get {} (2 * e.1 + 1)) }) }) s

/-- STABLE counts, step-downs and the admission of STORM layers (R250). -/
def govSettle (n : Nat) (s : State) : State :=
  let most := govStable s n
  let one (g : Gov) (e : Nat × Layer) : Nat × Layer :=
    if e.2.state = 0 then e
    else
      let st := if g.tripped.contains e.1 then e.2.stable else satTo 8 (e.2.stable + 1)
      if most ≤ st then (e.1, { e.2 with state := 0, stable := st, arenaOff := 0xFFFFFFFF }) else (e.1, { e.2 with stable := st })
  let before := (getPart s n).gov.table
  let s := updGov n (fun g => { g with table := g.table.map (one g) }) s
  let after := (getPart s n).gov.table
  let down := (before.zip after).any fun p => p.1.2.state != 0 && p.2.2.state == 0
  let s := if down then govFlag n 6 s else s
  (after.filter fun e => e.2.state == 2).foldl (fun s e => (admitOne n e.1 s).getD s) s

/-- A step commits (R243, R245, R250, R252, R253). -/
def govCommit (n : Nat) (replayed : Bool) (s : State) : State :=
  let g := (getPart s n).gov
  let s := if g.windows.any (fun w => w.2.elems != 0) then govFlag n 5 s else s
  let s := if govEn s n && replayed && govAdaptT s n then (ratioOrder g.ratio).foldl (classifyOne n) s else s
  let s := govAverage n s
  let s := if govEn s n && govAdaptTau s n then govTau n s else s
  let s := if govEn s n then govSettle n s else s
  let s := updGov n (fun g =>
    { g with nextMarks := g.nextMarks ++ g.stepMarks.map Prod.snd, marked := [], stepMarks := [], ratio := [], stable0 := []
             windows := [], obs := [], outl := [], tripped := [], requested := false }) s
  layerStoreAll n s

/-! ## Partition start (R258) -/

/-- The checks of R258 pass. -/
def govStartOk (s : State) (n : Nat) : Bool :=
  let p := getPart s n
  let lt := reg64 s (ctx bGovCtx n 0x10)
  let ln := 64 * govCount s n
  let ar := reg64 s (ctx bGovCtx n 0x1C)
  let an := 262144 * regN s (ctx bGovCtx n 0x24)
  let inQ (a l : Nat) : Bool := l == 0 || (decide (p.qbase * gib ≤ a) && decide (a + l ≤ (p.qbase + p.qlen) * gib))
  !govEn s n || (lt % 64 == 0 && ar % 262144 == 0 && inQ lt ln && inQ ar an && !rangesMeet lt ln ar an)

/-- The context of a partition that starts: the table is read, and every setting fixed until a step opens (R242, R258). -/
def govStart (n : Nat) (s : State) : State :=
  updGov n (fun g => { g with settings := g.table }) (govRead n (updGov n (fun _ => {}) s))

/-! ## Commands -/

/-- GOVERNOR_RECORD: the oldest record of a started partition reaches its context (R239, R243). -/
def execGovernorRecord (part : Nat) (s : State) : Result :=
  match (getPart s part).gov.inbox with
  | [] => .next s
  | b :: t =>
    if isStarted s part then .next (govTake part b.2 (updGov part (fun g => { g with inbox := t }) s)) else .next s

/-- A value written to GOV_T_OUT or GOV_T_GRAD as stored (R257): none for a NaN. -/
def clampT (v : Word) : Option Word :=
  match fp32Num v.toNat with
  | .nan => none
  | x =>
    if numLt x (.fin false 1 1) then some 0x40000000
    else if numLt (.fin false 1 4) x then some 0x41800000 else some v

/-- GOV_T_WRITE: GOV_T_OUT or GOV_T_GRAD of a context, writable while no step is open (R254, R257). -/
def execGovTWrite (fn part : Nat) (grad : Bool) (value : Word) (s : State) : Result :=
  .next (hostPost fn (fun s =>
    if (fn = 0 || fn = part) && partNums.contains part && (openStep s part).isNone then
      match clampT value with
      | some v => setReg (ctx bGovCtx part (if grad then 0xC else 8)) v s
      | none => s
    else s) s)

end Sys2Proof.Machine
end

