-- ==== Sys2Proof/Machine/Vector.lean ====
section
/-!
DEFINITION. Scalar, branch, vector and reduction arithmetic (R144, R177, R196 to R198).
-/
namespace Sys2Proof.Machine

/-- Larger of two numbers, NaN if either is NaN, +0 above −0 (R196). -/
def numMax (a b : Num) : Num :=
  if numIsNan a || numIsNan b then .nan
  else if numIsZero a && numIsZero b then (match a with | .fin true _ _ => b | _ => a)
  else if numLt a b then b else a

/-- Smaller of two numbers, NaN if either is NaN, −0 below +0 (R196). -/
def numMin (a b : Num) : Num :=
  if numIsNan a || numIsNan b then .nan
  else if numIsZero a && numIsZero b then (match a with | .fin false _ _ => b | _ => a)
  else if numLt b a then b else a

/-- FP32 to signed 64 bits (R177 ICVT): rounded by R41, saturated, NaN gives 0. -/
def icvt (x : Num) : Nat :=
  match x with
  | .nan => 0
  | .inf n => if n then 2 ^ 63 else 2 ^ 63 - 1
  | .fin n m e =>
    let mag := if 0 ≤ e then shl m e else (2 * m + 2 ^ (-e).toNat) / (2 * 2 ^ (-e).toNat)
    if n then (if 2 ^ 63 ≤ mag then 2 ^ 63 else wrapInt 64 (-(mag : Int))) else min mag (2 ^ 63 - 1)

/-- SOP (R177): 64-bit operands and result as numbers. -/
def sopOp (op a b : Nat) : Nat :=
  let sa := signed 64 a
  let sb := signed 64 b
  let fa := fp32Num (a % 2 ^ 32)
  let fb := fp32Num (b % 2 ^ 32)
  match op with
  | 0 => (a + b) % 2 ^ 64
  | 1 => wrapInt 64 ((a : Int) - b)
  | 2 => a * b % 2 ^ 64
  | 3 => a &&& b
  | 4 => a ||| b
  | 5 => a ^^^ b
  | 6 => a * 2 ^ (b % 64) % 2 ^ 64
  | 7 => a / 2 ^ (b % 64)
  | 8 => wrapInt 64 (sa / (2 ^ (b % 64) : Int))
  | 9 => if sa ≤ sb then a else b
  | 10 => if sa ≤ sb then b else a
  | 11 => min a b
  | 12 => max a b
  | 13 => toFp32 (numAdd fa fb)
  | 14 => toFp32 (numMul fa fb)
  | 15 => toFp32 (numOfInt sa 0 false)
  | 16 => icvt fa
  | _ => a

/-- BR conditions (R144). -/
def brTaken (cond a b : Nat) : Bool :=
  let fa := fp32Num (a % 2 ^ 32)
  let fb := fp32Num (b % 2 ^ 32)
  match cond with
  | 0 => a == b
  | 1 => a != b
  | 2 => decide (signed 64 a < signed 64 b)
  | 3 => decide (signed 64 b ≤ signed 64 a)
  | 4 => decide (a < b)
  | 5 => decide (b ≤ a)
  | 6 => numEq fa fb
  | 7 => numLt fa fb
  | 8 => numLt fb fa || numEq fa fb
  | _ => numIsNan fa

/-! ## Roots, reciprocals, powers (R197) -/

/-- Integer square root, by bits from the highest. -/
def isqrtBits : Nat → Nat → Nat → Nat
  | 0, _, r => r
  | i + 1, n, r => isqrtBits i n (if (r + 2 ^ i) * (r + 2 ^ i) ≤ n then r + 2 ^ i else r)

/-- floor(√n). -/
def isqrt (n : Nat) : Nat := isqrtBits (n.log2 / 2 + 1) n 0

/-- √(m·2^e) rounded once to `p` bits, ties away: r·2^q (MOD 9, correctly rounded). -/
def roundSqrt (p m : Nat) (e : Int) : Nat × Int :=
  if m = 0 then (0, 0) else
  let q := (m.log2 + e) / 2 - ((p : Int) - 1)
  -- the value in units of 2^q is √(m·2^(e − 2q)); an odd or negative power keeps a fraction
  let k := e - 2 * q
  let num := m * 2 ^ k.toNat
  let den := 2 ^ (-k).toNat
  let r := isqrt (num / den)
  (if (2 * r + 1) * (2 * r + 1) * den ≤ 4 * num then r + 1 else r, q)

/-- Fixed-point one with 128 fraction bits. -/
abbrev one128 : Nat := 2 ^ 128

/-- 2^f for a fraction f in units of 2^-128, by its bits: `c` is 2^(2^-j). -/
def exp2Bits : Nat → Nat → Nat → Nat → Nat
  | 0, _, _, acc => acc
  | i + 1, f, c, acc =>
    let c := isqrt (c * one128)
    exp2Bits i f c (if bitOf f (127 - (64 - (i + 1))) then acc * c / one128 else acc)

/-- log2 of y in [1, 2) as a fraction in units of 2^-128, by repeated squaring. -/
def log2Bits : Nat → Nat → Nat → Nat
  | 0, _, acc => acc
  | i + 1, y, acc =>
    let y := y * y / one128
    if 2 * one128 ≤ y then log2Bits i (y / 2) (acc + 2 ^ (127 - (100 - (i + 1)))) else log2Bits i y acc

/-- An approximation num·2^e of a result of MOD 10 to 13 for a finite operand, its error far below one FP32 unit in the
last place. -/
def vopApprox (op : Nat) (neg : Bool) (m : Nat) (e : Int) : Num :=
  match op with
  | 10 => .fin neg (2 ^ 160 / m) (-160 - e)
  | 11 =>
    let e' := if e % 2 = 0 then e else e - 1
    let m' := if e % 2 = 0 then m else 2 * m
    .fin false (isqrt (2 ^ 320 / m')) (-160 - e' / 2)
  | 12 =>
    let v := finInt neg m e (min e (-128))
    let fx := v / (2 ^ (-128 - min e (-128)).toNat : Int)
    let i := fx / (one128 : Int)
    .fin false (exp2Bits 64 (fx % (one128 : Int)).toNat (2 * one128) one128) (i - 128)
  | _ =>
    let l := m.log2
    let f := log2Bits 100 (m * 2 ^ (128 - l)) 0
    numOfInt ((e + l) * one128 + f) (-128) false

/-- Whether a value lies within one FP32 unit in the last place of the exact result, of which the second argument is an
approximation: one that is an FP32 number itself is exact; another is off by less than a 2^-40 of a unit, which is taken from the
bound (log entry 107). -/
def withinUlp (x y : Num) : Bool :=
  match x, y with
  | .fin a m e, .fin b n f =>
    let l : Int := max ((n.log2 : Int) + f) (-126) - 23
    let g := min (min e f) (l - 40)
    let most := if numEq (fp32Num (toFp32 y)) y then 2 ^ 40 else 2 ^ 40 - 1
    decide ((finInt a m e g - finInt b n f g).natAbs ≤ shl most (l - 40 - g))
  | _, _ => false

/-- MOD 10 to 13 (R197): IEEE 754 results at zero, infinity, NaN and negative inputs; elsewhere the part's own value
(Config.vopFree), kept within one FP32 unit in the last place. -/
def vopFun (op : Nat) (x : Num) : Num :=
  match x with
  | .nan => .nan
  | .inf n =>
    match op with
    | 10 => .fin n 0 0
    | 11 => if n then .nan else .fin false 0 0
    | 12 => if n then .fin false 0 0 else .inf false
    | _ => if n then .nan else .inf false
  | .fin n m e =>
    if m = 0 then
      match op with
      | 10 => .inf n
      | 11 => .inf n
      | 12 => .fin false 1 0
      | _ => .inf true
    else if n && (op == 11 || op == 13) then .nan
    else
      let big := numLt (.fin false 1 10) (.fin false m e)
      if op == 12 && big then (if n then .fin false 0 0 else .fin false 1 200) else
      let ap := vopApprox op n m e
      let cand := fp32Num (Config.vopFree op (BitVec.ofNat 32 (toFp32 x))).toNat
      if withinUlp cand ap then cand else ap

/-- VOP on elements (R196): the value before the rounding into the destination; SQRT by its own single rounding. -/
def vopVal (op : Nat) (a b c : Num) : Num :=
  match op with
  | 0 => numAdd a b
  | 1 => numAdd a (numNeg b)
  | 2 => numMul a b
  | 3 => numAdd (numMul a b) c
  | 4 => numMax a b
  | 5 => numMin a b
  | 6 => numAbs a
  | 7 => numNeg a
  | 8 => a
  | _ => vopFun op a

/-- One VOP result written into the destination's format (R196). -/
def vopWrite (op fmt : Nat) (prop : Bool) (a b c : Num) : Written :=
  if op = 9 then
    match a with
    | .fin n m e =>
      if m = 0 then writeNum fmt prop a
      else if n then writeNan fmt prop
      else let r := roundSqrt (fmtPrec fmt) m e; writeNum fmt prop (.fin false r.1 r.2)
    | .inf true => writeNan fmt prop
    | x => writeNum fmt prop x
  else writeNum fmt prop (vopVal op a b c)

/-! ## RED (R198) -/

/-- Identity of a reduction: FP32 bits, or a count. -/
def redIdent : Nat → Nat
  | 2 => 0xFF800000
  | 3 => 0x7F800000
  | _ => 0

/-- combine of R198. -/
def redCombine (op p : Nat) (x : Num) : Nat :=
  match op with
  | 0 => toFp32 (numAdd (fp32Num p) x)
  | 1 => toFp32 (numAdd (fp32Num p) (numMul x x))
  | 2 => toFp32 (numMax (fp32Num p) x)
  | 3 => toFp32 (numMin (fp32Num p) x)
  | 4 => toFp32 (numMax (fp32Num p) (numAbs x))
  | 5 => p + b2n (numIsNan x)
  | _ => p + b2n (!numIsZero x)

/-- merge of R198. -/
def redMerge (op p q : Nat) : Nat :=
  match op with
  | 0 => toFp32 (numAdd (fp32Num p) (fp32Num q))
  | 1 => toFp32 (numAdd (fp32Num p) (fp32Num q))
  | 2 => toFp32 (numMax (fp32Num p) (fp32Num q))
  | 3 => toFp32 (numMin (fp32Num p) (fp32Num q))
  | 4 => toFp32 (numMax (fp32Num p) (fp32Num q))
  | _ => (p + q) % 2 ^ 64

/-- One level of the tree: neighbours merged. -/
def redLevel (op : Nat) : List Nat → List Nat
  | a :: b :: t => redMerge op a b :: redLevel op t
  | l => l

/-- The elements of one lane: every 64th from `lane`. -/
def laneOf (x : List Num) (lane : Nat) : List Num :=
  (List.range ((x.length + 63 - lane) / 64)).map fun i => x.getD (lane + 64 * i) (.fin false 0 0)

/-- RED (R198): 64 lanes in element order, then six levels. -/
def redVal (op : Nat) (x : List Num) : Nat :=
  let p := (List.range 64).map fun l => (laneOf x l).foldl (redCombine op) (redIdent op)
  (Nat.repeat (redLevel op) 6 p).headD 0

end Sys2Proof.Machine
end

