-- ==== Sys2Proof/Machine/Control.lean ====
section
/-!
DEFINITION. The control core (05, 06): issue, scalar instructions, loops, branches, waits, signals, address streams, and
the issue of instructions to the engines. A command issues the instruction at the core's pc when that instruction is
the one the command names and nothing stalls it; otherwise it changes nothing (log entry 3).
-/
namespace Sys2Proof.Machine

/-! ## Registers and banks -/

/-- A scalar register (R129). -/
def sreg (k : Core) (i : Nat) : DWord := k.sregs.get 0 i

/-- A scalar register set. -/
def setSreg (k : Core) (i : Nat) (v : DWord) : Core := { k with sregs := Tbl.set 0 k.sregs i v }

/-- The instruction that issues next. -/
def curIns (k : Core) : Option NInstr := (bankOf k k.active).code[k.pc]?

/-- Scalar registers an instruction reads or writes when it issues (R143, R177 to R199). -/
def usesReg (i : NInstr) : List Nat :=
  match i.op with
  | 0x01 => if bitOf i.flags.toNat 0 then [i.ra, i.rb] else [i.ra, i.rb, i.rc]
  | 0x02 => [i.ra]
  | 0x03 => [i.ra, i.rb]
  | 0x04 => [i.ra, i.rb]
  | 0x05 => [i.ra]
  | 0x10 => [i.ra]
  | 0x12 => [i.ra, i.rb]
  | 0x15 => [i.ra]
  | 0x16 => [i.ra, i.rb, i.rc]
  | 0x17 => [i.ra]
  | 0x20 => [i.ra, i.rb, i.rc]
  | 0x21 => if i.mod ≤ 3 then [i.ra, i.rb, i.rc] else if i.mod ≤ 5 then [i.rc, i.rd] else [i.ra, i.rb, i.rc, i.rd]
  | 0x30 => [i.rc, i.rc + 1, i.rc + 2, i.rc + 3]
  | 0x33 => [i.rd]
  | 0x36 => [i.ra]
  | _ => []

/-- Register values an engine instruction takes with it into its queue. -/
def latchArgs (k : Core) (i : NInstr) : List DWord :=
  match i.op with
  | 0x17 => [sreg k i.ra]
  | 0x21 => [sreg k i.ra, sreg k i.rb, sreg k i.rc, sreg k i.rd]
  | 0x30 => (List.range 4).map fun j => sreg k (i.rc + j)
  | 0x33 => [sreg k i.rd]
  | _ => []

/-- The core can issue: RUNNING, not halting, not stalled. -/
def canIssue (k : Core) : Bool := k.run == .running && !k.halting && k.stall == .none

/-- A native operation with no Nellek meaning issues (R181). What it does is open within the rule's bounds and free here: the core's registers,
SRAM and accumulators hold unspecified values, and the core goes on so, goes on at an instruction of its active bank, halts, or
faults with a cause of R162 (log entry 67). -/
def wander (c : Nat) (s : State) : State :=
  let k := getCore s c
  let r := drawBits 64 s
  let n := r.1.toNat / 4
  let base := r.2.free
  let s := reserve (2 ^ 20 + 34) r.2
  let free (w i : Nat) : BitVec w := Config.freeBits w (base + 2 ^ 20 + i)
  let k := { k with sram := [], acc := [], fresh := some base, sregs := (List.range 32).foldl (fun t i => Tbl.set 0 t i (free 64 i)) [] }
  match r.1.toNat % 4 with
  | 0 => setCore c k s
  | 1 => setCore c { k with openEntry := false, pc := n % max 1 (bankOf k k.active).code.length } s
  | 2 => setCore c { k with halting := true } s
  | _ => coreFault c 0 true (free 32 32) { cause := n % 16 + 1, info := (free 32 33).toNat } (setCore c k s)

/-- Issue of the instruction at the pc when it is the one named and no register it names waits for a RED (R143). A core
started at an offset with no Nellek meaning executes what the spec leaves open (R181). -/
def issueOp (c : Nat) (is : NInstr → Bool) (f : Core → NInstr → State → State) (s : State) : Result :=
  let k := getCore s c
  if !canIssue k then .next s
  else if k.openEntry then .next (wander c s)
  else match curIns k with
    | some i =>
      if is i && (usesReg i).all (fun r => !k.locked.contains r) then .next (f k i s) else .next s
    | none => .next s

/-- A fault found at issue of the instruction at the pc: engine 0 (R163, R169). -/
def issueFault (c : Nat) (k : Core) (i : NInstr) (f : Flt) (s : State) : State :=
  coreFault c 0 true (faultLoc s (bankOf k k.active) k.active k.pc i f.cause) f s

/-- The core goes on to the next instruction. -/
def advance (k : Core) : Core := { k with pc := k.pc + 1 }

/-- An instruction is of an opcode. -/
def isOp (op : Nat) (i : NInstr) : Bool := i.op == op

/-- An instruction is of an opcode and a MOD. -/
def isMod (op m : Nat) (i : NInstr) : Bool := i.op == op && i.mod == m

/-! ## Scalar instructions (R177 to R179) -/

/-- SOP (R177). -/
def execSop (c : Nat) (s : State) : Result :=
  issueOp c (isOp 0x01) (fun k i s =>
    let b := if bitOf i.flags.toNat 0 then i.imm else sreg k i.rc
    setCore c (advance (setSreg k i.ra (BitVec.ofNat 64 (sopOp i.mod (sreg k i.rb).toNat b.toNat)))) s) s

/-- SMOVI (R178). -/
def execSmovi (c : Nat) (s : State) : Result :=
  issueOp c (isOp 0x02) (fun k i s => setCore c (advance (setSreg k i.ra i.imm)) s) s

/-- The address of an SLD or SST: below the access size ignored (R178). -/
def slAddr (k : Core) (i : NInstr) : Nat :=
  let n := 2 ^ (i.mod % 4)
  (sreg k i.rb + i.imm).toNat / n * n

/-- Corrected SRAM words are counted (R148, R167); a parcel reread is noted for the core's descriptors (R63, R265). -/
def noteEcc (c : Nat) (e : Ecc) (s : State) : State :=
  match e with
  | .corrected n => updCore c (fun k => { k with sramCe := satTo 8 (k.sramCe + n) }) s
  | .parcelReread => noteCore c .okRetried s
  | _ => s

/-- SLD (R178, R148). -/
def execSld (c : Nat) (ecc : Ecc) (s : State) : Result :=
  issueOp c (isOp 0x03) (fun k i s =>
    let a := slAddr k i
    let n := 2 ^ (i.mod % 4)
    if sramSize ≤ a then issueFault c k i (fltBounds a) s
    else match ecc with
      | .uncorrectable u => issueFault c k i { cause := 0x0D, info := u } s
      | _ =>
        let v := leNat (sramRd k a n)
        let r : DWord := if bitOf i.mod 2 then BitVec.ofInt 64 (signed (8 * n) v) else BitVec.ofNat 64 v
        noteEcc c ecc (setCore c (advance (setSreg k i.ra r)) s)) s

/-- SST (R178). -/
def execSst (c : Nat) (s : State) : Result :=
  issueOp c (isOp 0x04) (fun k i s =>
    let a := slAddr k i
    let n := 2 ^ (i.mod % 4)
    if sramSize ≤ a then issueFault c k i (fltBounds a) s
    else setCore c (advance (sramWr k a (leBytes n (sreg k i.ra).toNat))) s) s

/-- The completion count of an engine (R132). -/
def countOf (k : Core) (e : Nat) : DWord := k.counts.get 0 e

/-- The value SID reads (R179). Loop levels count from the outermost. -/
def sidVal (s : State) (c : Nat) (k : Core) (m : Nat) : DWord :=
  let num (n : Nat) : DWord := BitVec.ofNat 64 n
  match m with
  | 0 => num (c % 64)
  | 1 => num (c / 64)
  | 2 => num k.part
  | 3 => num k.group
  | 4 => num k.rank
  | 5 => num k.size
  | 6 => num (((k.loops.reverse)[0]?.map LoopLevel.iter).getD 0)
  | 7 => num (((k.loops.reverse)[1]?.map LoopLevel.iter).getD 0)
  | 8 => num (((k.loops.reverse)[2]?.map LoopLevel.iter).getD 0)
  | 9 => num (((k.loops.reverse)[3]?.map LoopLevel.iter).getD 0)
  | 10 => s.now
  | 11 => ((openStep s k.part).map Step.num).getD 0xFFFFFFFFFFFFFFFF
  | 12 => ((openStep s k.part).map Step.seed).getD 0
  | m => countOf k (m - 12)

/-- SID (R179). -/
def execSid (c : Nat) (s : State) : Result :=
  issueOp c (isOp 0x05) (fun k i s => setCore c (advance (setSreg k i.ra (sidVal s c k i.mod))) s) s

/-! ## Loops, branches, banks, halts (R140 to R142, R144, R152, R157, R180) -/

/-- Index of the ENDLOOP that closes the loop opened just before an index: instructions from `i` on, at a depth. -/
def matchEnd : List NInstr → Nat → Nat → Option Nat
  | [], _, _ => none
  | x :: t, i, d =>
    if x.op = 0x11 then (if d = 0 then some i else matchEnd t (i + 1) (d - 1))
    else if x.op = 0x10 then matchEnd t (i + 1) (d + 1)
    else matchEnd t (i + 1) d

/-- LOOP (R140). -/
def execLoop (c : Nat) (s : State) : Result :=
  issueOp c (isOp 0x10) (fun k i s =>
    let v := (sreg k i.ra).toNat
    if 2 ^ 32 ≤ v then issueFault c k i { cause := 0x0A } s
    else if v = 0 then
      let code := (bankOf k k.active).code
      let e := (matchEnd (code.drop (k.pc + 1)) (k.pc + 1) 0).getD code.length
      setCore c { k with pc := e + 1 } s
    else setCore c (advance { k with loops := { start := k.pc + 1, count := v, iter := 0 } :: k.loops }) s) s

/-- ENDLOOP (R140, R180). -/
def execEndloop (c : Nat) (s : State) : Result :=
  issueOp c (isOp 0x11) (fun k _ s =>
    match k.loops with
    | [] => setCore c (advance k) s
    | l :: t =>
      if l.iter + 1 < l.count then setCore c { k with pc := l.start, loops := { l with iter := l.iter + 1 } :: t } s
      else setCore c (advance { k with loops := t }) s) s

/-- The target lies in a loop's body: from its first instruction to its ENDLOOP. -/
def inBody (code : List NInstr) (l : LoopLevel) (t : Nat) : Bool :=
  match matchEnd (code.drop l.start) l.start 0 with
  | some e => decide (l.start ≤ t) && decide (t ≤ e)
  | none => false

/-- BR (R142, R144): a taken branch closes every loop whose body does not hold the target. -/
def execBr (c : Nat) (s : State) : Result :=
  issueOp c (isOp 0x12) (fun k i s =>
    let t := i.imm.toNat % 2 ^ 32
    if brTaken i.mod (sreg k i.ra).toNat (sreg k i.rb).toNat then
      setCore c { k with pc := t, loops := k.loops.dropWhile fun l => !inBody (bankOf k k.active).code l t } s
    else setCore c (advance k) s) s

/-- BANKSWAP (R152): it stalls while an accepted load still targets the inactive bank. -/
def execBankswap (c : Nat) (s : State) : Result :=
  issueOp c (isOp 0x13) (fun k i s =>
    let other := 1 - k.active
    let b := bankOf k other
    let gen := BitVec.ofNat 16 (i.imm.toNat % 2 ^ 16)
    if k.loads.any fun l => l.2 == other then s
    else if b.valid && b.gen == gen then
      let e := b.entries.getD (bitsOf i.imm.toNat 16 3) 0xFFFF
      setCore c { k with active := other, pc := if e = 0xFFFF then b.code.length else e } s
    else issueFault c k i { cause := 0x0C } s) s

/-- HALT with MOD 0 (R157). -/
def execHalt (c : Nat) (s : State) : Result :=
  issueOp c (isMod 0x14 0) (fun k _ s => setCore c { k with halting := true } s) s

/-- HALT with MOD 1 (R180, R162): the fault USER. -/
def execHaltFault (c : Nat) (s : State) : Result :=
  issueOp c (isMod 0x14 1) (fun k i s => issueFault c k i { cause := 0x10, info := i.imm.toNat % 2 ^ 32 } s) s

/-- Issue past the last instruction halts as HALT does (R181). -/
def execIssuePastEnd (c : Nat) (s : State) : Result :=
  let k := getCore s c
  if canIssue k && (bankOf k k.active).code.length ≤ k.pc then
    if k.openEntry then .next (wander c s) else .next (setCore c { k with halting := true } s)
  else .next s

/-! ## EWAIT (R133, R139) -/

/-- An engine waits on an empty address stream (R137). -/
def isHungry (k : Core) (e : Nat) : Bool := (k.cur.get [] e).any Running.hungry

/-- The deadlock rule (R139): a stalled EWAIT on an engine that waits on an empty stream faults. -/
def deadlockCheck (c : Nat) (s : State) : State :=
  let k := getCore s c
  match k.stall, curIns k with
  | .ewait e _, some i =>
    if k.run = .running && isHungry k e then
      coreFault c 0 false (faultLoc s (bankOf k k.active) k.active k.pc i 0x0B) { cause := 0x0B } s
    else s
  | _, _ => s

/-- A stalled EWAIT whose count has come is released (R133). -/
def ewaitCheck (c : Nat) (s : State) : State :=
  let k := getCore s c
  match k.stall with
  | .ewait e v => if v.toNat ≤ (countOf k e).toNat then setCore c (advance { k with stall := .none }) s else s
  | _ => s

/-- EWAIT (R133). -/
def execEwait (c : Nat) (s : State) : Result :=
  issueOp c (isOp 0x15) (fun k i s =>
    let v := sreg k i.ra
    if v.toNat ≤ (countOf k i.mod).toNat then setCore c (advance k) s
    else deadlockCheck c (setCore c { k with stall := .ewait i.mod v } s)) s

/-! ## WAIT and SIG (R182 to R184, R135, R564) -/

/-- Parts of a counter reference (R183): INDEX, REMOTE, NODE. -/
def refIndex (r : DWord) : Nat := bitsOf r.toNat 0 14
def refRemote (s : State) (r : DWord) : Bool := bitOf r.toNat 16 && bitsOf r.toNat 48 16 != nodeId s
def refNode (r : DWord) : Nat := bitsOf r.toNat 48 16

/-- WAIT (R182): the request travels to its sync unit, or over the fabric; the core stalls until the verdict. -/
def execWait (c : Nat) (s : State) : Result :=
  issueOp c (isOp 0x16) (fun k i s =>
    let r := sreg k i.ra
    let dl : BitVec 48 := (sreg k i.rc).setWidth 48
    let s := setCore c { k with stall := .wait } s
    if refRemote s r then sendWait k.part (refNode r) (refIndex r) (sreg k i.rb) dl true (.coreWait c) s
    else
      postWait { part := k.part, issuer := k.part, index := refIndex r, expected := sreg k i.rb, deadline := dl
                 origin := .coreWait c, far := bitOf r.toNat 16, source := c } s) s

/-- The verdict reaches the control core (R145, R162, R342). -/
def execWaitVerdict (c : Nat) (s : State) : Result :=
  let k := getCore s c
  match k.stall, curIns k with
  | .verdict st node, some i =>
    if k.run != .running then .next s
    else if st = .ok then .next (setCore c (advance { k with stall := .none }) s)
    else
      let f : Flt := if st = .remoteUnreachable then { cause := 0x0F, info := node } else { cause := 0x0E }
      .next (coreFault c 0 false (faultLoc s (bankOf k k.active) k.active k.pc i f.cause) f s)
  | _, _ => .next s

/-- SIG with MOD 0 (R135): the signal leaves at issue; a remote one stays outstanding until acknowledged (R564). -/
def execSigControlCore (c : Nat) (s : State) : Result :=
  issueOp c (isMod 0x17 0) (fun k i s =>
    let r := sreg k i.ra
    let inc := i.imm.toNat % 2 ^ 32
    let no := k.sigNo
    let o : Origin := .signal c 0 no (faultLoc s (bankOf k k.active) k.active k.pc i 0x0F)
    let s := setCore c (advance { k with sigNo := (no + 1) % 2 ^ 20 }) s
    if refRemote s r then
      sendSignal k.part (coreSigId c no) (refNode r) (refIndex r) inc [] o (updCore c (fun k => { k with sigsOut := no :: k.sigsOut }) s)
    else postSignal { part := k.part, index := refIndex r, inc := inc, origin := .none, far := bitOf r.toNat 16, source := c } s) s

/-! ## Address streams (R136, R185) -/

/-- ASPUSH (R136, R185): a full stream stalls it. -/
def execAspush (c : Nat) (s : State) : Result :=
  issueOp c (isOp 0x20) (fun k i s =>
    let n := (sreg k i.rb).toNat
    let l := k.streams.get [] i.mod
    if n = 0 then setCore c (advance k) s
    else if 4096 < n then issueFault c k i { cause := 0x0A } s
    else if 32 ≤ l.length then s
    else
      let e : StreamEntry := { next := (sreg k i.ra).toNat, left := n, stride := signed 20 (sreg k i.rc).toNat }
      setCore c (advance { k with streams := Tbl.set [] k.streams i.mod (l ++ [e]) }) s) s

/-! ## Issue to the engines (R131) -/

/-- The engine of an instruction (R130, R176). -/
def engineOf (i : NInstr) : Nat :=
  match i.op with
  | 0x30 | 0x31 | 0x32 => 1 + i.mod % 2
  | 0x35 | 0x36 => 3
  | 0x33 | 0x34 => 4
  | _ => 5

/-- An instruction enters its engine's queue with the register values it names; a full queue stalls it (R131). -/
def enqueue (c : Nat) (k : Core) (i : NInstr) (s : State) : State :=
  let e := engineOf i
  let l := k.queues.get [] e
  if 16 ≤ l.length then s
  else
    let b := bankOf k k.active
    let q : Queued := { pc := k.pc, bank := k.active, gen := b.gen, ins := i, args := latchArgs k i
                        tbase := b.tbase, native := lineMap s b.code k.pc }
    setCore c (advance { k with queues := Tbl.set [] k.queues e (l ++ [q]) }) s

/-- A tensor descriptor of the active object, as core SRAM holds it now (R186). -/
def issueTdesc (k : Core) (j : Nat) : Tdesc := tdescOf (sramRd k (tdescAddr (bankOf k k.active).tbase j) 64)

/-- The checks of an MMA at issue, in table order (R191). -/
def mmaCheck (k : Core) (i : NInstr) : Option Flt :=
  let a := issueTdesc k i.ra
  let b := issueTdesc k i.rb
  let fl := i.flags.toNat
  let v (j : Nat) : Nat := (sreg k (i.rc + j)).toNat
  let d := issueTdesc k i.rd
  if a.loc != 0 || b.loc != 0 || a.fmt != b.fmt || !fmtNarrow a.fmt then some { cause := 0x07 }
  else if a.rotated != b.rotated || (a.rotated && a.seed != b.seed) then some { cause := 0x08 }
  else if bitOf fl 1 && !bitOf fl 2 && (d.loc != 0 || !(d.fmt == fFP32 || d.fmt == fBF16)) then some { cause := 0x07 }
  else if v 0 < 1 || 512 < v 0 || v 1 = 0 || min a.runLen b.runLen < v 1 || v 2 = 0 || b.runs < v 2 || a.runs < v 0 ||
      512 < v 3 + v 0 * ((v 2 + 31) / 32) then some { cause := 0x06 }
  else none

/-- MMA (R190, R191). -/
def execMma (c : Nat) (s : State) : Result :=
  issueOp c (isOp 0x30) (fun k i s =>
    match mmaCheck k i with
    | some f => issueFault c k i f s
    | none => enqueue c k i s) s

/-- The check of a WLD or WLDM at issue (R192). -/
def wldCheck (k : Core) (i : NInstr) : Option Flt :=
  let t := issueTdesc k i.ra
  if t.loc != 0 || !fmtNarrow t.fmt then some { cause := 0x07 } else none

/-- WLD (R192). -/
def execWld (c : Nat) (s : State) : Result :=
  issueOp c (isOp 0x31) (fun k i s =>
    match wldCheck k i with
    | some f => issueFault c k i f s
    | none => enqueue c k i s) s

/-- WLDM (R103, R192). -/
def execWldm (c : Nat) (s : State) : Result :=
  issueOp c (isOp 0x32) (fun k i s =>
    match wldCheck k i with
    | some f => issueFault c k i f s
    | none => enqueue c k i s) s

/-- The checks of an NRW at issue (R72, R88, R193), in the formats that its copies will have. -/
def nrwCheck (k : Core) (i : NInstr) (gov : Option (Setting × Setting)) : Option Flt :=
  let dual := bitOf i.flags.toNat 0
  let src := issueTdesc k i.ra
  let d1 := govDst (issueTdesc k i.rb) (gov.map Prod.fst)
  let d2 := govDst (issueTdesc k i.rc) (gov.map Prod.snd)
  let dsts := if dual then [d1, d2] else [d1]
  let badFmt (d : Tdesc) : Bool := d.loc != 0 || !fmtNarrow d.fmt
  if !(src.fmt == fFP32 || src.fmt == fBF16) || src.loc == 3 || dsts.any badFmt ||
      (dual && (d1.byCols || !d2.byCols)) then some { cause := 0x07 }
  else if dsts.any fun d => d.rows != src.rows || d.cols != src.cols then some { cause := 0x06 }
  else if dual && 64 < openParcels d1.s (dualOrder d1.rows d1.cols d1.pitch false) then some { cause := 0x06 }
  else if dual && 64 < openParcels d2.s (dualOrder d2.rows d2.cols d2.pitch true) then some { cause := 0x06 }
  else none

/-- NRW (R193). -/
def execNrw (c : Nat) (s : State) : Result :=
  issueOp c (isOp 0x33) (fun k i s =>
    match nrwCheck k i (nrwSetting s k.part i (bitsOf (sreg k i.rd).toNat 0 16)) with
    | some f => issueFault c k i f s
    | none => enqueue c k i s) s

/-- DNRW (R195). -/
def execDnrw (c : Nat) (s : State) : Result := issueOp c (isOp 0x34) (fun k i s => enqueue c k i s) s

/-- VOP (R196). -/
def execVop (c : Nat) (s : State) : Result := issueOp c (isOp 0x35) (fun k i s => enqueue c k i s) s

/-- RED (R143, R198): its register is locked from the issue until the result is written. -/
def execRed (c : Nat) (s : State) : Result :=
  issueOp c (isOp 0x36) (fun k i s =>
    if 16 ≤ (k.queues.get [] 3).length then s
    else updCore c (fun k => { k with locked := i.ra :: k.locked }) (enqueue c k i s)) s

/-- XFER STORE (R199). -/
def execXferStore (c : Nat) (s : State) : Result := issueOp c (isMod 0x21 0) (fun k i s => enqueue c k i s) s

/-- XFER LOAD (R199). -/
def execXferLoad (c : Nat) (s : State) : Result := issueOp c (isMod 0x21 1) (fun k i s => enqueue c k i s) s

/-- XFER ADDF (R199). -/
def execXferAddf (c : Nat) (s : State) : Result := issueOp c (isMod 0x21 2) (fun k i s => enqueue c k i s) s

/-- XFER ADDI (R199). -/
def execXferAddi (c : Nat) (s : State) : Result := issueOp c (isMod 0x21 3) (fun k i s => enqueue c k i s) s

/-- XFER PSTORE (R199). -/
def execXferPstore (c : Nat) (s : State) : Result := issueOp c (isMod 0x21 4) (fun k i s => enqueue c k i s) s

/-- XFER PLOAD (R199). -/
def execXferPload (c : Nat) (s : State) : Result := issueOp c (isMod 0x21 5) (fun k i s => enqueue c k i s) s

/-- XFER ROWCAST (R199, R329). -/
def execXferRowcast (c : Nat) (s : State) : Result := issueOp c (isMod 0x21 6) (fun k i s => enqueue c k i s) s

/-- XFER COLCAST (R199, R329). -/
def execXferColcast (c : Nat) (s : State) : Result := issueOp c (isMod 0x21 7) (fun k i s => enqueue c k i s) s

/-- SIG with MOD 5 (R135): the signal enters the transfer engine's queue. -/
def execSigXf (c : Nat) (s : State) : Result := issueOp c (isMod 0x17 5) (fun k i s => enqueue c k i s) s

end Sys2Proof.Machine
end

