-- ==== Sys2Proof/Machine/Matrix.lean ====
section
/-!
DEFINITION. The matrix arrays (04): run sums, promotion, outlier terms, folding of a tile, write-back, weight loads.
-/
namespace Sys2Proof.Machine

/-- Exponent of the element unit of a format; the product quantum q of R107 is its square. -/
def elemUnit : Nat → Int
  | 2 => -9 | 3 => -16 | 5 => -3 | 6 => -1 | 7 => -3 | _ => 0

/-- A block run (R107, R108, R111): S in units of 2^u, or the special value; `top` is the exponent of the largest product
magnitude of R108, none when all products are zero. -/
structure RunVal where
  s : Int
  u : Int
  inexact : Bool
  special : Option Num
  top : Option Int
  deriving DecidableEq, Repr

/-- An element as a whole number of element units. -/
def elemInt (fmt code : Nat) : Int :=
  match fmtDecode fmt code with
  | .fin n m e => finInt n m e (elemUnit fmt)
  | _ => 0

/-- The run of two blocks' codes (R107, R108, R111). -/
def runVal (fmt : Nat) (a b : List Nat) : RunVal :=
  let base := 2 * elemUnit fmt
  let pairs := a.zip b
  if pairs.any fun p => !numFinite (fmtDecode fmt p.1) || !numFinite (fmtDecode fmt p.2) then
    { s := 0, u := base, inexact := false, top := none
      special := some (pairs.foldl (fun t p => numAdd t (numMul (fmtDecode fmt p.1) (fmtDecode fmt p.2)))
        (.fin false 0 0)) }
  else
    let pr := pairs.map fun p => elemInt fmt p.1 * elemInt fmt p.2
    let big := (pr.map Int.natAbs).foldl max 0
    let sh : Nat := if fmt == fE5M2 then big.log2 - 41 else 0
    { s := (pr.map fun x => x / (2 ^ sh : Int)).sum, u := base + sh
      inexact := pr.any fun x => x % (2 ^ sh : Int) != 0, special := none
      top := if big = 0 then none else some (base + big.log2) }

/-! ## The check lane (R115 to R117) -/

/-- The exponent of the unit in which run sums and check-lane results are compared: the product quantum of R107, for E5M2 small
enough for every window of R108. -/
def chkUnit (fmt : Nat) : Int := 2 * elemUnit fmt - (if fmt == fE5M2 then 41 else 0)

/-- A run sum in that unit. -/
def RunVal.inUnit (r : RunVal) (fmt : Nat) : Int := r.s * 2 ^ (r.u - chkUnit fmt).toNat

/-- C_n of R115: the sum of the rows' codes times the column's codes, exact. -/
def checkSum (fmt : Nat) (rows : List (List Nat)) (col : List Nat) : Int :=
  ((List.range col.length).map fun k => (rows.map fun r => elemInt fmt (r.getD k 0)).sum * elemInt fmt (col.getD k 0)).sum *
    2 ^ (2 * elemUnit fmt - chkUnit fmt).toNat

/-- p of R116 and P of R126: the largest product exponent over the runs of a group, -32 when every product is zero. -/
def topExp (runs : List RunVal) : Int :=
  match runs.filterMap RunVal.top with
  | [] => -32
  | p :: t => t.foldl max p

/-- Whether a column of a group passes: R115 compares exactly, R116 within 2^(p - 34) for E5M2. -/
def checkPasses (fmt : Nat) (runs : List RunVal) (sums : List Int) (c : Int) : Bool :=
  if fmt == fE5M2 then decide ((c - sums.sum).natAbs < 2 ^ (topExp runs - 34 - chkUnit fmt).toNat) else c == sums.sum

/-- A value with the bit of weight 2^w flipped, in two's complement. -/
def flipBit (w : Nat) (v : Int) : Int := if v / 2 ^ w % 2 = 1 then v - 2 ^ w else v + 2 ^ w

/-- The bit that an injection flips (R126): bit 5 of the run sum, for E5M2 the bit of weight 2^(P - 29). -/
def injectBit (fmt : Nat) (runs : List RunVal) : Nat := if fmt == fE5M2 then (topExp runs - 29 - chkUnit fmt).toNat else 5

/-- Counts of an MMA (R124). -/
structure MmaCnt where
  runs : Nat := 0
  inexact : Nat := 0
  special : Nat := 0
  outl : Nat := 0
  skipped : Nat := 0
  wbSat : Nat := 0
  wbNan : Nat := 0
  deriving DecidableEq, Repr

/-- An accumulator entry with an exact value added, one rounding, no saturation (R109, R110). -/
def accAdd (acc : Nat) (x : Num) : Nat := toFp32 (numAdd (fp32Num acc) x)

/-- BF16 outlier of a block at a position. -/
def outlAt (b : BlockData) (pos : Nat) : Option Nat := (b.outl.find? fun o => o.1 == pos).map Prod.snd

/-- An element of a block without the tensor scale: its outlier, or v·2^(e − 127). -/
def operandNum (fmt : Nat) (b : BlockData) (pos : Nat) : Num :=
  match outlAt b pos with
  | some o => fmtDecode fBF16 o
  | none => numMul (se8 b.scale) (fmtDecode fmt (b.codes.getD pos 0))

/-- The exponent of the unit in which an outlier lane's terms are compared; every term is a whole number of units. -/
abbrev termUnit : Int := -280

/-- The outlier terms of an accumulator entry for one block, in order (R112). At a place where both operands have an outlier the
product enters once, in step 1, and step 2 forms no term there (log entry 104). -/
def outlierTerms (fmt : Nat) (a b : BlockData) : List Num :=
  if a.scale = 0 || b.scale = 0 then [] else
  (a.outl.map fun o => numMul (fmtDecode fBF16 o.2) (operandNum fmt b o.1)) ++
    ((b.outl.filter fun o => (outlAt a o.1).isNone).map fun o => numMul (operandNum fmt a o.1) (fmtDecode fBF16 o.2))

/-- The places of a block that hold elements of the product: for BIN1, which has no zero code, the padding of R57 is left out, since
it adds nothing (log entry 105); in every other format its codes are zero. -/
def unpadded (fmt len : Nat) (codes : List Nat) : List Nat := if fmt == fBIN1 then codes.take len else codes

/-- One block of one accumulator entry: the run sum, then the outlier terms (R106, R109, R111, R112). A block whose scale,
or whose partner's scale, is zero adds nothing. `sum` and `term` are what votes put in the place of a run sum and of terms (R118). -/
def promote (fmt len : Nat) (acc : Nat) (a b : BlockData) (sum : Option Int) (term : Nat → Option Int) (n : MmaCnt) : Nat × MmaCnt :=
  let r := runVal fmt (unpadded fmt len a.codes) (unpadded fmt len b.codes)
  let n := { n with runs := n.runs + 1, inexact := n.inexact + b2n r.inexact, special := n.special + b2n r.special.isSome }
  if a.scale = 0 || b.scale = 0 then (acc, n) else
  let e : Int := a.scale + b.scale - 254
  let v := match r.special, sum with
    | some x, _ => x
    | none, some i => numOfInt i (chkUnit fmt + e) false
    | none, none => numOfInt r.s (r.u + e) false
  let terms := outlierTerms fmt a b
  let acc := (indexed terms).foldl (fun t o => accAdd t (match term o.1 with
    | some i => numOfInt i termUnit false
    | none => o.2)) (accAdd acc v)
  (acc, { n with outl := n.outl + terms.length })

/-- A fold that stops at the first fault, keeping what was done before it. -/
def foldStop {σ α : Type} (f : σ → α → σ × Option Flt) : σ → List α → σ × Option Flt
  | s, [] => (s, none)
  | s, a :: t =>
    match f s a with
    | (s', none) => foldStop f s' t
    | (s', some e) => (s', some e)

/-- What an MMA works on (R105, R190): shape, options, operands, array, mask bytes. -/
structure MmaPar where
  m : Nat
  k : Nat
  n : Nat
  base : Nat
  flags : Nat
  array : Nat
  a : Tdesc
  b : Tdesc
  mask : Bytes
  deriving DecidableEq, Repr

/-- Rows of a slab (R99). -/
def slabRows : Nat → Nat
  | 8 => 1 | 6 => 2 | _ => 4

/-- Blocks of a tile along K (R99). -/
def tileBlocks : Nat → Nat
  | 2 => 2 | 1 => 4 | _ => 1

def MmaPar.w (p : MmaPar) : Nat := fmtWidth p.a.fmt
def MmaPar.kb (p : MmaPar) : Nat := (p.k + 31) / 32
def MmaPar.nt (p : MmaPar) : Nat := (p.n + 31) / 32
def MmaPar.kt (p : MmaPar) : Nat := (p.kb + tileBlocks p.w - 1) / tileBlocks p.w
def MmaPar.slabs (p : MmaPar) : Nat := (p.m + slabRows p.w - 1) / slabRows p.w
def MmaPar.tiles (p : MmaPar) : Nat := p.nt * p.kt
def MmaPar.preloaded (p : MmaPar) : Bool := bitOf p.flags 3

/-- Whether the mask computes row `m` in column tile `nt` (R123). -/
def MmaPar.live (p : MmaPar) (m nt : Nat) : Bool :=
  if !bitOf p.flags 6 then true else
  let i := if bitOf p.flags 7 then m / 32 * p.nt + nt else m
  bitOf (p.mask.getD (i / 8) 0).toNat (i % 8)

/-- A tile from the slot of its first column's first block: `cols` columns at RUN_PITCH slots, `blocks` blocks each, the
rest of the tile zero blocks (R187, R188, R190). -/
def loadTile (c : Core) (t : Tdesc) (g : Int) (cols blocks : Nat) : Except Flt Tile :=
  match mapExcept (fun (q : Nat) => mapExcept (fun (j : Nat) => slotBlock c t (g + q * t.pitch + j)) (List.range blocks))
      (List.range cols) with
  | .error f => .error f
  | .ok l => .ok { fmt := t.fmt, cols := l }

/-- The block of a stationary tile at a column and depth. -/
def tileAt (t : Option Tile) (col j : Nat) : BlockData :=
  match t with
  | none => zeroBlock
  | some t => (t.cols.getD col []).getD j zeroBlock

/-- The blocks of one slab, or none when the mask leaves all its rows out (R123). Every parcel is verified before any element enters
the array (R100). -/
def readSlab (c : Core) (p : MmaPar) (nt kt : Nat) (sg : Nat × Int) : Except Flt (Option Slab) :=
  let rps := slabRows p.w
  let rows := ((List.range rps).map fun i => (i, rps * sg.1 + i)).filter fun r => decide (r.2 < p.m) && p.live r.2 nt
  if rows.isEmpty then .ok none else
  match mapExcept (fun (r : Nat × Nat) =>
      match mapExcept (fun (j : Nat) => slotBlock c p.a (sg.2 + (r.1 * p.a.pitch + j : Nat)))
          ((List.range (tileBlocks p.w)).filter fun j => decide (kt * tileBlocks p.w + j < p.kb)) with
      | .error f => .error f
      | .ok l => .ok (r.2, l)) rows with
  | .error f => .error f
  | .ok l => .ok (some l)

/-- The addresses an MMA takes, tile by tile: the tile's B address (none for a preloaded first tile), then the slab
addresses of A (R190). `sb` is the list of B's stream; with a shared stream all come from `sa`. Where addresses are still to come,
the list ends at the first that lacks. -/
def mmaAddrs (p : MmaPar) (shared : Bool) : Nat → List Int → List Int → List (Option Int × List Int)
  | 0, _, _ => []
  | n + 1, sa, sb =>
    let pre := n + 1 == p.tiles && p.preloaded
    let b := if pre then none else if shared then sa.head? else sb.head?
    let sa' := if !pre && shared then sa.drop 1 else sa
    if !pre && b.isNone then []
    else if sa'.length < p.slabs then [(b, sa')]
    else (b, sa'.take p.slabs) :: mmaAddrs p shared n (sa'.drop p.slabs) (if pre || shared then sb else sb.drop 1)

/-- A stationary buffer set. -/
def setBuf (c : Core) (array buf : Nat) (t : Tile) : Core :=
  { c with bufs := Tbl.set none c.bufs (2 * array + buf) (some t) }

/-- What the feeders of an MMA have done: the core with its buffers loaded, the passes, the slabs left out. -/
structure Streamed where
  core : Core
  passes : List TilePass := []
  skipped : Nat := 0

/-- One tile: it is loaded into its buffer unless preloaded, then its slabs stream (R105, R190). -/
def streamTile (p : MmaPar) (st : Streamed) (x : Nat × Option Int × List Int) : Streamed × Option Flt :=
  let nt := x.1 / p.kt
  let kt := x.1 % p.kt
  let buf := (b2n (bitOf p.flags 4) + x.1) % 2
  let blocks := min (tileBlocks p.w) (p.kb - kt * tileBlocks p.w)
  let loaded : Except Flt Core := match x.2.1 with
    | none => .ok st.core
    | some g =>
      match loadTile st.core p.b g (min 32 (p.n - 32 * nt)) blocks with
      | .error f => .error f
      | .ok t => .ok (setBuf st.core p.array buf t)
  match loaded with
  | .error f => (st, some f)
  | .ok c =>
    let r := foldStop (fun (y : List Slab × Nat) sg =>
      match readSlab c p nt kt sg with
      | .error f => (y, some f)
      | .ok none => ((y.1, y.2 + 1), none)
      | .ok (some l) => ((y.1 ++ [l], y.2), none)) ([], 0) ((List.range x.2.2.length).zip x.2.2)
    ({ core := c, skipped := st.skipped + r.1.2
       passes := st.passes ++ [{ nt := nt, kt := kt, buf := buf, tile := c.bufs.get none (2 * p.array + buf), slabs := r.1.1 }] }, r.2)

/-- The feeders of an MMA over the addresses its streams gave (R100, R105). -/
def mmaStream (c : Core) (p : MmaPar) (shared : Bool) (sa sb : List Int) : Streamed × Option Flt :=
  let seq := mmaAddrs p shared p.tiles sa sb
  foldStop (streamTile p) { core := c } ((List.range seq.length).zip seq)

/-- The run sum that a vote promoted for a row, if one did: a group's sums stand in the order of its rows. -/
def fixedSum (fixes : List Fix) (rows : List Nat) (pass j row col : Nat) : Option Int :=
  match fixes.find? fun f => !f.place.outlier && f.place.pass == pass && f.place.block == j && f.place.row == row / 4 * 4 && f.place.col == col with
  | some f => ((rows.zip f.sums).find? fun e => e.1 == row).map Prod.snd
  | none => none

/-- The outlier term that a vote promoted, if one did. -/
def fixedTerm (fixes : List Fix) (pass j row col term : Nat) : Option Int :=
  (fixes.find? fun f => f.place == { outlier := true, pass := pass, block := j, row := row, col := col, term := term }).bind fun f => f.sums.head?

/-- The rows of a pass that belong to the check group of a row (R115): 4 consecutive rows of the streaming operand, those that
entered. -/
def groupRows (t : TilePass) (row : Nat) : List (Nat × List BlockData) := t.slabs.flatten.filter fun r => r.1 / 4 == row / 4

/-- Places of a block along K that lie in both operands' runs. -/
def MmaPar.lenAt (p : MmaPar) (kb : Nat) : Nat := min p.a.runLen p.b.runLen - 32 * kb

/-- Promotion of one pass into accumulator memory, rows in order and blocks in order within a row (R105, R106). -/
def promotePass (p : MmaPar) (fixes : List Fix) (st : Core × MmaCnt) (x : Nat × TilePass) : Core × MmaCnt :=
  x.2.slabs.flatten.foldl (fun st r =>
    (indexed r.2).foldl (fun st b =>
      let kb := x.2.kt * tileBlocks p.w + b.1
      let row := p.base + x.2.nt * p.m + r.1
      ((List.range 32).filter fun n => decide (32 * x.2.nt + n < p.n)).foldl (fun st n =>
        let old := if kb = 0 && !bitOf p.flags 0 then 0 else accGet st.1 p.array row n
        let sum := fixedSum fixes ((groupRows x.2 r.1).map Prod.fst) x.1 b.1 r.1 n
        let q := promote p.a.fmt (p.lenAt kb) old b.2 (tileAt x.2.tile n b.1) sum (fixedTerm fixes x.1 b.1 r.1 n) st.2
        (accSet st.1 p.array row n q.1, q.2)) st) st) st

/-- Promotion of all passes (R105). -/
def mmaPromote (c : Core) (p : MmaPar) (passes : List TilePass) (fixes : List Fix) : Core × MmaCnt :=
  (indexed passes).foldl (promotePass p fixes) (c, {})

/-- Write-back (R121): each live entry times both tensor scales, one rounding, by the overflow mode. `dst` is the
write-back descriptor, none for in place. -/
def mmaWriteBack (p : MmaPar) (dst : Option Tdesc) (st : Core × MmaCnt) (mn : Nat × Nat) : (Core × MmaCnt) × Option Flt :=
  let nt := mn.2 / 32
  if !p.live mn.1 nt then (st, none) else
  let row := p.base + nt * p.m + mn.1
  let x := numMul (numMul (fp32Num (accGet st.1 p.array row (mn.2 % 32))) (fp32Num p.a.ts)) (fp32Num p.b.ts)
  match dst with
  | none =>
    let w := writeNum fFP32 p.a.ovf x
    ((accSet st.1 p.array row (mn.2 % 32) w.code,
      { st.2 with wbSat := st.2.wbSat + b2n w.sat, wbNan := st.2.wbNan + b2n w.nan }), none)
  | some d =>
    let w := writeNum d.fmt d.ovf x
    match widePut st.1 d mn.1 mn.2 w.code with
    | .error f => (st, some f)
    | .ok c => ((c, { st.2 with wbSat := st.2.wbSat + b2n w.sat, wbNan := st.2.wbNan + b2n w.nan }), none)

/-- The 32-byte record (R124); `tr` and `lf` are the transients and the check-lane faults that votes found. -/
def mmaRecord (n : MmaCnt) (tr lf : Nat) : Bytes :=
  ([n.runs, n.inexact, n.special, n.outl, n.skipped].map fun x => leBytes 4 (satTo 32 x)).flatten ++ leBytes 2 (satTo 16 tr) ++
  leBytes 2 (satTo 16 lf) ++ ([n.wbSat, n.wbNan].map fun x => leBytes 4 (satTo 32 x)).flatten

/-- The end of an MMA (R105, R121, R123, R124): promotion of what it streamed, with what votes replaced; write-back; record. -/
def mmaFinish (c : Core) (p : MmaPar) (r : Running) (wb : Option Tdesc) (recAddr : Nat) : Core × Option Flt :=
  let st := mmaPromote c p r.passes r.fixes
  let st := (st.1, { st.2 with skipped := r.skipped })
  let ents := ((List.range p.m).map fun m => (List.range p.n).map fun n => (m, n)).flatten
  match (if bitOf p.flags 1 || bitOf p.flags 2 then foldStop (mmaWriteBack p wb) st ents else (st, none)) with
  | (st, some f) => (st.1, some f)
  | (st, none) =>
    (if bitOf p.flags 8 then sramWr st.1 (recAddr / 64 * 64) (mmaRecord st.2 r.transients r.laneFaults) else st.1, none)

/-- The effect of a WLD or WLDM (R102, R103, R192): one tile from one slot. Columns and blocks that the tensor does not
have are zero blocks. -/
def wldRun (c : Core) (t : Tdesc) (array buf : Nat) (g : Int) : Core × Option Flt :=
  let r := g / (t.pitch : Int)
  let b := (g % (t.pitch : Int)).toNat
  let cols := min 32 ((t.runs : Int) - r).toNat
  let blocks := min (tileBlocks (fmtWidth t.fmt)) (t.nb - b)
  match slotBlock c t g with
  | .error f => (c, some f)
  | .ok _ =>
    match loadTile c t g cols blocks with
    | .error f => (c, some f)
    | .ok tl => (setBuf c array buf tl, none)

end Sys2Proof.Machine
end

