-- ==== Sys2Proof/Machine/Units.lean ====
section
/-!
DEFINITION. What the arrays, the narrowing unit and the vector engine do to their core (R70 to R96, R190 to R198): each
operation takes the descriptors it read at its start and answers the core with the fault that ended it, if one did.
-/
namespace Sys2Proof.Machine

/-! ## Operands at start (R189) -/

/-- Descriptor registers of an engine instruction, in the order its operation takes them. -/
def tdRegs (i : NInstr) : List Nat :=
  match i.op with
  | 0x30 => [i.ra, i.rb, i.rd]
  | 0x31 => [i.ra]
  | 0x32 => [i.ra]
  | 0x33 => [i.ra, i.rb, i.rc]
  | 0x34 => [i.ra, i.rb]
  | 0x35 => [i.ra, i.rb, i.rc, i.rd]
  | 0x36 => [i.rb]
  | _ => if i.op = 0x21 && (i.mod == 4 || i.mod == 5) then [i.ra, i.rb] else []

/-- The descriptors an instruction names, as core SRAM holds them now. -/
def readTds (k : Core) (q : Queued) : List Bytes := (tdRegs q.ins).map fun j => sramRd k (tdescAddr q.tbase j) 64

/-- One of the descriptors read at start. -/
def tdAt (tds : List Bytes) (j : Nat) : Tdesc := tdescOf (tds.getD j [])

/-- A register value the instruction took with it. -/
def argN (q : Queued) (j : Nat) : Nat := (q.args.getD j 0).toNat

/-- A wide operand: FP32 or BF16, in core SRAM or accumulator memory. -/
def wideOk (t : Tdesc) : Bool := (t.fmt == fFP32 || t.fmt == fBF16) && t.loc != 3

/-- The first fault of a list. -/
def firstFlt (l : List (Option Flt)) : Option Flt := (l.filterMap id).head?

/-! ## Matrix arrays (R105, R123, R190, R192) -/

/-- Shape and options of an MMA without its mask. -/
def mmaPar0 (q : Queued) (tds : List Bytes) : MmaPar :=
  { m := argN q 0, k := argN q 1, n := argN q 2, base := argN q 3, flags := q.ins.flags.toNat, array := q.ins.mod % 2
    a := tdAt tds 0, b := tdAt tds 1, mask := [] }

/-- Address and length of the mask an MMA names (R123). -/
def mmaMask (q : Queued) (p : MmaPar) : Nat × Nat :=
  (bitsOf q.ins.imm.toNat 0 19 / 64 * 64,
    if !bitOf p.flags 6 then 0 else if bitOf p.flags 7 then ((p.m + 31) / 32 * p.nt + 7) / 8 else (p.m + 7) / 8)

/-- The pair of a PSTORE or PLOAD does not fit together (R200): locations, formats, HAS_OUTL. -/
def parcelsUnfit (store : Bool) (dst src : Tdesc) : Bool :=
  let inner := if store then src else dst
  let outer := if store then dst else src
  inner.loc != 0 || outer.loc != 3 || dst.fmt != src.fmt || !fmtNarrow dst.fmt || dst.hasOutl != src.hasOutl

/-- Faults of an engine instruction at its start: tensor scales and bases (R40, R61, R82, R162); of a PSTORE or PLOAD of at least one
parcel its formats and locations before them (R200). -/
def startFlt (q : Queued) (tds : List Bytes) : Option Flt :=
  match q.ins.op with
  | 0x30 => firstFlt [narrowFlt (tdAt tds 0), narrowFlt (tdAt tds 1)]
  | 0x31 => narrowFlt (tdAt tds 0)
  | 0x32 => narrowFlt (tdAt tds 0)
  | 0x21 =>
    if (q.ins.mod = 4 || q.ins.mod = 5) && argN q 2 != 0 then
      if parcelsUnfit (q.ins.mod == 4) (tdAt tds 0) (tdAt tds 1) then some { cause := 0x07 }
      else firstFlt [narrowFlt (tdAt tds 0), narrowFlt (tdAt tds 1)]
    else none
  | _ => none

/-- Streams of an instruction and how many addresses it takes from each (R137, R190, R192, R199). -/
def streamNeeds (q : Queued) (tds : List Bytes) : List (Nat × Nat) :=
  let imm := q.ins.imm.toNat
  match q.ins.op with
  | 0x30 =>
    let p := mmaPar0 q tds
    let na := p.tiles * p.slabs
    let nb := p.tiles - b2n p.preloaded
    let sa := bitsOf imm 38 2
    let sb := bitsOf imm 40 2
    if sa = sb then [(sa, na + nb)] else [(sa, na), (sb, nb)]
  | 0x31 => [(imm % 4, 1)]
  | 0x32 => [(imm % 4, 1)]
  | 0x21 =>
    let fl := q.ins.flags.toNat
    let bytes := argN q 2 * (match q.ins.mod with | 2 => 4 | 3 => 8 | _ => 1)
    if q.ins.mod ≤ 3 && bitOf fl 4 then [(bitsOf fl 2 2, (bytes + 255) / 256)] else []
  | _ => []

/-- Addresses taken as far as the streams hold them: what has been taken, the streams left, whether all are there. -/
def takeStreams : List (Nat × Nat) → Tbl (List Int) → Tbl (List StreamEntry) → Tbl (List Int) × Tbl (List StreamEntry) × Bool
  | [], got, st => (got, st, true)
  | (j, n) :: t, got, st =>
    let have_ := got.get [] j
    let r := streamTake (n - have_.length) (st.get [] j)
    let q := takeStreams t (Tbl.set [] got j (have_ ++ r.1)) (Tbl.set [] st j r.2)
    (q.1, q.2.1, q.2.2 && (have_.length + r.1.length == n))

/-- An MMA with its mask (R123). -/
def mmaPar (q : Queued) (tds : List Bytes) (mask : Bytes) : MmaPar := { mmaPar0 q tds with mask := mask }

/-- The feeders of an MMA over the addresses it has taken (R100, R105, R190): its mask, what they have done, the fault that ends it. -/
def runMma (k : Core) (q : Queued) (tds : List Bytes) (got : Tbl (List Int)) : Bytes × Streamed × Option Flt :=
  let mk := mmaMask q (mmaPar0 q tds)
  if mk.2 != 0 && !inSram mk.1 mk.2 then ([], { core := k }, some (fltBounds mk.1))
  else
    let mask := sramRd k mk.1 mk.2
    let imm := q.ins.imm.toNat
    let sa := bitsOf imm 38 2
    let sb := bitsOf imm 40 2
    (mask, mmaStream k (mmaPar q tds mask) (sa == sb) (got.get [] sa) (got.get [] sb))

/-- The end of an MMA whose verdicts are all in (R105, R121, R124). -/
def endMma (k : Core) (r : Running) : Core × Option Flt :=
  let p := mmaPar r.q r.tds r.mask
  let wb := if bitOf p.flags 1 && !bitOf p.flags 2 then some (tdAt r.tds 2) else none
  mmaFinish k p r wb (bitsOf r.q.ins.imm.toNat 19 19)

/-- The slabs that a place's group needs again (R100, R118): up to 16, from the group's first slab on (log entry 111). -/
def rerunSlabs (t : TilePass) (row : Nat) : List Slab := (t.slabs.dropWhile fun l => !l.any fun r => r.1 / 4 == row / 4).take 16

/-- What the re-run registers hold of an array once its passes have streamed: the last 16 slabs (R100). -/
def lastSlabs (passes : List TilePass) : List Slab :=
  let l := (passes.map TilePass.slabs).flatten
  l.drop (l.length - 16)

/-! ## The comparisons of the check lane (R115 to R119) -/

/-- The codes of the rows of a place's group at its block, and of its column (R115). -/
def groupCodes (p : MmaPar) (t : TilePass) (x : LanePlace) : List (List Nat) × List Nat :=
  let cut := unpadded p.a.fmt (p.lenAt (t.kt * tileBlocks p.w + x.block))
  ((groupRows t x.row).map fun r => cut (r.2.getD x.block zeroBlock).codes, cut (tileAt t.tile x.col x.block).codes)

/-- The runs of a group at a place, and their sums in units of 2^(chkUnit) (R107, R108). -/
def groupSums (p : MmaPar) (t : TilePass) (x : LanePlace) : List RunVal × List Int :=
  let c := groupCodes p t x
  let runs := c.1.map fun a => runVal p.a.fmt a c.2
  (runs, runs.map fun r => r.inUnit p.a.fmt)

/-- C_n of a place (R115). -/
def groupCheck (p : MmaPar) (t : TilePass) (x : LanePlace) : Int :=
  let c := groupCodes p t x
  checkSum p.a.fmt c.1 c.2

/-- A place of a pass: a column of the tile, a block of a group that entered. -/
def placeThere (t : TilePass) (x : LanePlace) : Bool :=
  let rows := groupRows t x.row
  decide (x.col < 32) && !rows.isEmpty && rows.all fun r => decide (x.block < r.2.length)

/-- The value of an outlier term at a place, in units of 2^-280, none when the entry has no such term (R112). -/
def termAt (p : MmaPar) (t : TilePass) (x : LanePlace) : Option Int :=
  match (groupRows t x.row).find? fun r => r.1 == x.row with
  | none => none
  | some r =>
    match (outlierTerms p.a.fmt (r.2.getD x.block zeroBlock) (tileAt t.tile x.col x.block))[x.term]? with
    | some (.fin n m e) => some (finInt n m e termUnit)
    | _ => none

/-- A list of numbers with errors added; one not given is 0. -/
def withErrors (l errors : List Int) : List Int := (indexed l).map fun e => e.2 + errors.getD e.1 0

/-- What a comparison at a place finds (R115 to R118): none when it is not checked or agrees, otherwise the vote. The two sides
have the given errors: the array's run sums or its first outlier-lane copy `errs`, the check lane or the second copy `lane`. -/
def laneCompare (p : MmaPar) (t : TilePass) (x : LanePlace) (errs : List Int) (lane : Int) : Option Vote :=
  if !placeThere t x then none
  else if x.outlier then
    match termAt p t x with
    | none => none
    | some v =>
      let a := v + errs.headD 0
      let b := v + lane
      if a = b then none else some { place := x, sums := [a], check := b }
  else
    let g := groupSums p t x
    if g.1.any fun r => r.special.isSome then none
    else
      let sums := withErrors g.2 errs
      let c := groupCheck p t x + lane
      if checkPasses p.a.fmt g.1 sums c then none else some { place := x, sums := sums, check := c }

/-- What a vote finds (R118): the lane at fault with the original kept, a transient with what two of three agree on, or neither. -/
inductive Verdict where
  | laneFault (f : Fix)
  | transient (f : Fix)
  | suspect
  deriving DecidableEq, Repr

/-- The re-run of a disagreement, with errors of its own (R118): `t` holds the slabs of the re-run registers and the stationary buffer. -/
def laneVote (p : MmaPar) (t : TilePass) (v : Vote) (errs : List Int) : Verdict :=
  let keep : Fix := { place := v.place, sums := v.sums }
  if v.place.outlier then
    let x := (termAt p t v.place).getD 0 + errs.headD 0
    if [x] = v.sums then .transient keep
    else if x = v.check then .transient { place := v.place, sums := [x] }
    else .suspect
  else
    let g := groupSums p t v.place
    let sums := withErrors g.2 errs
    if sums = v.sums then .laneFault keep
    else if checkPasses p.a.fmt g.1 sums v.check then .transient { place := v.place, sums := sums }
    else .suspect

/-- The groups that enter an array in order, at their first block and column 0 (R126): those that the check lane checks (R117). -/
def injectPlaces (p : MmaPar) (passes : List TilePass) : List LanePlace :=
  ((indexed passes).map fun e =>
    ((e.2.slabs.flatten.map fun r => r.1 / 4 * 4).eraseDups.map fun r =>
      ({ outlier := false, pass := e.1, block := 0, row := r, col := 0, term := 0 } : LanePlace)).filter fun x =>
        !((groupSums p e.2 x).1.any fun r => r.special.isSome)).flatten

/-- An injection at a place (R126): the bit of weight w flips in the first row's run sum, or in C_0 (`lane`). The comparison then
fails, and the error-free re-run decides. -/
def injectVote (p : MmaPar) (t : TilePass) (x : LanePlace) (lane : Bool) : Option Verdict :=
  let g := groupSums p t x
  let flip (v : Int) : Int := flipBit (injectBit p.a.fmt g.1) v - v
  let v := if lane then laneCompare p t x [] (flip (groupCheck p t x)) else laneCompare p t x [flip (g.2.headD 0)] 0
  v.map fun v => laneVote p t v []

/-- A WLD or WLDM with its address (R102, R103, R192). -/
def runWld (k : Core) (q : Queued) (tds : List Bytes) (got : Tbl (List Int)) : Core × Option Flt :=
  wldRun k (tdAt tds 0) (q.ins.mod % 2) (b2n (bitOf q.ins.flags.toNat 0)) ((got.get [] (q.ins.imm.toNat % 4)).headD 0)

/-! ## Narrowing unit (R70 to R96, R193 to R195) -/

/-- One output copy of an NRW: descriptor register, destination as it is written, parameters. -/
structure NrwCopy where
  reg : Nat
  dst : Tdesc
  par : CopyPar
  deriving DecidableEq, Repr

/-- Outlier records are written for a copy (R82, R193). -/
def NrwCopy.outl (c : NrwCopy) : Bool := c.par.k != 0 && c.par.fmt != fBIN1

/-- The copies of an NRW: parameters from its descriptors and FLAGS, or from the governor (R72, R193, R194). -/
def nrwCopies (q : Queued) (tds : List Bytes) (gov : Option (Setting × Setting)) : List NrwCopy :=
  let fl := q.ins.flags.toNat
  let mk (reg : Nat) (d : Tdesc) (k tau : Nat) (g : Option Setting) : NrwCopy :=
    let d' := govDst d g
    let k := match g with
      | some x => x.k
      | none => k
    let tau := match g with
      | some x => x.tau
      | none => tau
    { reg := reg, dst := d', par := { fmt := d'.fmt, prop := d.ovf, ts := d.ts, rot := d'.rotated, seed := d.seed
                                      k := if d.hasOutl then k else 0, tau := tau } }
  let one := mk q.ins.rb (tdAt tds 1) (bitsOf fl 4 3) (bitsOf q.ins.imm.toNat 0 32) (gov.map Prod.fst)
  if bitOf fl 0 then
    [one, mk q.ins.rc (tdAt tds 2) (bitsOf fl 7 3) (bitsOf q.ins.imm.toNat 32 32) (gov.map Prod.snd)]
  else [one]

/-- When block `b` of run `r` is packed: its place in the unit's block order (R88, R93). -/
def blockTime (dual byCols : Bool) (nb tc r b : Nat) : Nat :=
  if dual then (if byCols then b * tc + r / 32 else r / 32 * tc + b) else r * nb + b

/-- Parcels of a copy that hold a block, with the time their last block is packed: (parcel, time). A parcel that holds no block of any
run, which a RUN_PITCH of a larger multiple of S leaves, is never opened and never written (DESIGN CHOICE, log entry 112). -/
def closeTimes (dual : Bool) (tc : Nat) (d : Tdesc) : List (Nat × Nat) :=
  let all := ((List.range d.runs).map fun r => (List.range d.nb).map fun b =>
    ((r * d.pitch + b) / d.s, blockTime dual d.byCols d.nb tc r b)).flatten
  (List.range d.parcels).filterMap fun p =>
    match (all.filter fun e => e.1 == p).map Prod.snd with
    | [] => none
    | t => some (p, t.foldl max 0)

/-- Writes of an NRW in the order the parcels close: (copy, parcel). -/
def nrwOrder (dual : Bool) (tc until_ : Nat) (cs : List NrwCopy) : List (Nat × Nat) :=
  let keys := ((indexed cs).map fun c => (closeTimes dual tc c.2.dst).filterMap fun e =>
    if e.2 < until_ then some (2 ^ 64 * e.2 + 2 ^ 62 * c.1 + e.1) else none).flatten
  (sortNat keys).map fun k => (k / 2 ^ 62 % 4, k % 2 ^ 62)

/-- FORMAT and ROTATED of a destination descriptor, written under GOV before the first parcel (R194). -/
def govWrite (tbase : Nat) (k : Core) (c : NrwCopy) : Core :=
  let a := tdescAddr tbase c.reg
  let old := leNat (sramRd k a 1)
  sramWr k a (leBytes 1 (setBits (setBits old 0 4 c.dst.fmt) 6 1 (b2n c.dst.rotated)))

/-- NAN_COUNT of a destination descriptor, saturating (R90, R186). -/
def nanWrite (tbase : Nat) (k : Core) (x : NrwCopy × CopyStats) : Core :=
  let a := tdescAddr tbase x.1.reg + 20
  sramWr k a (leBytes 4 (satTo 32 (leNat (sramRd k a 4) + x.2.nan)))

/-- Regions that an NRW writes: its copies, its record, NAN_COUNT, under GOV the first byte of each descriptor (R71). -/
def nrwSpans (q : Queued) (cs : List NrwCopy) (gov stats : Bool) (rec : Nat) : List (Nat × Nat) :=
  (cs.map fun c => narrowSpan c.dst c.outl ++ [(tdescAddr q.tbase c.reg + 20, 4)] ++
    (if gov then [(tdescAddr q.tbase c.reg, 1)] else [])).flatten ++ (if stats then [(rec, 64)] else [])

/-- NRW (R74 to R94, R193, R194): the core, the statistics record when it completes, the fault. Where several faults hold at its start,
FORMAT comes first, then TSCALE and ALIGN, then the overlap of R71 (DESIGN CHOICE, log entry 113). -/
def runNrw (k : Core) (q : Queued) (tds : List Bytes) (gov : Option (Setting × Setting)) : (Core × Option Bytes) × Option Flt :=
  let fl := q.ins.flags.toNat
  let src := tdAt tds 0
  let cs := nrwCopies q tds gov
  let dual := bitOf fl 0
  let rec_ := bitsOf (argN q 0) 16 19 / 64 * 64
  let stats := bitOf (argN q 0) 35
  match firstFlt (cs.map (fun c => if fmtNarrow c.par.fmt then none else some { cause := 0x07 }) ++ cs.map fun c => narrowFlt c.dst) with
  | some f => ((k, none), some f)
  | none =>
    if spansMeet (wideSpan src) (nrwSpans q cs gov.isSome stats rec_) then ((k, none), some { cause := 0x01 })
    else
      let tc := (src.cols + 31) / 32
      let byCols := !dual && src.rows != 0 && (cs.any fun c => c.dst.byCols)
      let time (r j : Nat) : Nat :=
        if byCols then blockTime dual true ((src.rows + 31) / 32) tc j (r / 32) else blockTime dual false tc tc r (j / 32)
      let cells := (List.range src.rows).map fun r => (List.range src.cols).map fun j => (time r j, wideGet k src r j)
      let bad := cells.flatten.filterMap fun e => match e.2 with
        | .error f => some (e.1, f)
        | .ok _ => none
      let flt := findMin (fun (e : Nat × Flt) => e.1) bad
      let until_ := match flt with
        | some e => e.1
        | none => src.rows * src.cols + 1
      let vals := cells.map fun row => row.map fun e => match e.2 with
        | .ok v => v
        | .error _ => .fin false 0 0
      let outs := cs.map fun c => narrowCopy c.par (runsOf c.dst.byCols vals src.cols) c.dst.nb c.dst.pitch
      let k := if gov.isSome then cs.foldl (govWrite q.tbase) k else k
      let wr (k : Core) (w : Nat × Nat) : Core × Option Flt :=
        match cs[w.1]?, (outs[w.1]?.bind fun o => o.1[w.2]?) with
        | some c, some p => parcelWrite k c.dst w.2 p c.outl
        | _, _ => (k, none)
      match foldStop wr k (nrwOrder dual tc until_ cs) with
      | (k, some f) => ((k, none), some f)
      | (k, none) =>
        match flt with
        | some e => ((k, none), some e.2)
        | none =>
          let st := outs.map Prod.snd
          let k := (cs.zip st).foldl (nanWrite q.tbase) k
          let first := match cs with
            | c :: _ => ((runsOf c.dst.byCols vals src.cols).map fun run => (List.range c.dst.nb).map fun b => runBlock run b).flatten
            | [] => []
          let r := statsRecord (sumSquares first) (bitsOf (argN q 0) 0 16) (bitsOf fl 2 2) dual
            (cs.any fun c => c.par.rot) (src.rows * src.cols) (st.getD 0 {}) (st.getD 1 {})
          ((if stats then sramWr k rec_ r else k, some r), none)

/-- DNRW (R96, R195). Where several faults hold, they come in the order of `runNrw` (DESIGN CHOICE, log entry 113). -/
def runDnrw (k : Core) (tds : List Bytes) : Core × Option Flt :=
  let s := tdAt tds 0
  let d := tdAt tds 1
  if s.loc != 0 || !fmtNarrow s.fmt || !wideOk d then (k, some { cause := 0x07 })
  else if s.rows != d.rows || s.cols != d.cols then (k, some { cause := 0x06 })
  else match narrowFlt s with
    | some f => (k, some f)
    | none =>
      if spansMeet (narrowSpan s s.hasOutl) (wideSpan d) then (k, some { cause := 0x01 })
      else
        foldStop (fun k' (g : Nat × Nat) =>
          match slotBlock k s ((g.1 * s.pitch + g.2 : Nat) : Int) with
          | .error f => (k', some f)
          | .ok b =>
            let u := blockValues s.fmt s.ts b.scale b.codes b.outl
            let x := if s.rotated then unrotate s.seed g.2 u else u
            foldStop (fun k' (i : Nat) =>
              let e := 32 * g.2 + i
              let w := writeNum (wideFmt d) d.ovf (x.getD i (.fin false 0 0))
              match (if s.byCols then widePut k' d e g.1 w.code else widePut k' d g.1 e w.code) with
              | .ok k'' => (k'', none)
              | .error f => (k', some f)) k' (List.range (min 32 (s.runLen - 32 * g.2))))
          k (((List.range s.runs).map fun r => (List.range s.nb).map fun b => (r, b)).flatten)

/-! ## Vector engine (R196, R198) -/

/-- Sources of a VOP among the descriptors it read: a, then b and c where the operation has them. -/
def vopSources (i : NInstr) (tds : List Bytes) : List Tdesc :=
  let immB := bitOf i.flags.toNat 0
  [tdAt tds 1] ++ (if i.mod < 6 && !immB then [tdAt tds 2] else []) ++ (if i.mod = 3 then [tdAt tds 3] else [])

/-- Element `i` of a wide tensor in row-major order. -/
def wideElem (k : Core) (t : Tdesc) (i : Nat) : Except Flt Num := wideGet k t (i / t.cols) (i % t.cols)

/-- VOP (R196, R197). -/
def runVop (k : Core) (i : NInstr) (tds : List Bytes) : Core × Option Flt :=
  let d := tdAt tds 0
  let src := vopSources i tds
  let n := d.rows * d.cols
  if !(d :: src).all wideOk then (k, some { cause := 0x07 })
  else if n = 0 then (k, none)
  else if src.any fun t => t.rows * t.cols != n then (k, some { cause := 0x06 })
  else
    foldStop (fun k' (e : Nat) =>
      match mapExcept (fun t => wideElem k t e) src with
      | .error f => (k', some f)
      | .ok v =>
        let a := v.getD 0 .nan
        let b := if i.mod < 6 && bitOf i.flags.toNat 0 then fp32Num (i.imm.toNat % 2 ^ 32) else v.getD 1 .nan
        let c := v.getLastD .nan
        match widePut k' d (e / d.cols) (e % d.cols) (vopWrite i.mod (wideFmt d) d.ovf a b c).code with
        | .ok k'' => (k'', none)
        | .error f => (k', some f)) k (List.range n)

/-- RED (R198): its value. -/
def runRed (k : Core) (i : NInstr) (tds : List Bytes) : Except Flt DWord :=
  let t := tdAt tds 0
  if !wideOk t then .error { cause := 0x07 }
  else match mapExcept (fun e => wideElem k t e) (List.range (t.rows * t.cols)) with
    | .error f => .error f
    | .ok x => .ok (BitVec.ofNat 64 (redVal i.mod x))

/-! ## Busy accumulator rows (R122) -/

/-- Rows of every MMA of a core issued and not completed. -/
def busyRows (k : Core) : List (Nat × Nat × Nat) :=
  let run (e : Nat) : List Queued := (k.cur.get [] e).map Running.q ++ k.queues.get [] e
  (run 1 ++ run 2).filterMap mmaRows

/-- The wide operands that an engine reads or writes. -/
def wideOperands (i : NInstr) (tds : List Bytes) : List Tdesc :=
  match i.op with
  | 0x33 => [tdAt tds 0]
  | 0x34 => [tdAt tds 1]
  | 0x35 => tdAt tds 0 :: vopSources i tds
  | 0x36 => [tdAt tds 0]
  | _ => []

/-- An instruction of another engine would touch a busy row. -/
def rowsBusy (k : Core) (i : NInstr) (tds : List Bytes) : Bool :=
  let mine := ((wideOperands i tds).map wideAccRows).flatten
  mine.any fun a => (busyRows k).any fun b => a.1 == b.1 && rangesMeet a.2.1 a.2.2 b.2.1 b.2.2

end Sys2Proof.Machine
end

