-- ==== Sys2Proof/Machine/Transfer.lean ====
section
/-!
DEFINITION. The transfer engine (R199, R200, R294, R329): accesses by global address, plain transfers, parcels, casts.
-/
namespace Sys2Proof.Machine

/-- What every access of one XFER shares: core, partition, group, cache hint, location of the instruction. -/
structure Xf where
  core : Nat
  part : Nat
  group : Nat
  hint : Nat
  loc : Word
  deriving DecidableEq, Repr

/-- Parts of a global address (R3, R294): node, STASH, RM, reserved attribute bits, local byte address. -/
def gNode (a : Nat) : Nat := bitsOf a 48 16
def gStash (a : Nat) : Bool := bitOf a 41
def gRm (a : Nat) : Bool := bitOf a 42
def gRsv (a : Nat) : Bool := bitsOf a 43 5 != 0
def gLocal (a : Nat) : Nat := a % 2 ^ 41

/-- The fault REMOTE with its node (R162, R170). -/
def fltRemote (node : Nat) : Flt := { cause := 0x0F, info := node }

/-- One more answer that the transfer engine's instruction waits for. -/
def xfWait (c : Nat) (s : State) : State :=
  updCore c (fun k => { k with cur := Tbl.upd [] k.cur 5 fun l => l.map fun r => { r with waiting := r.waiting + 1 } }) s

/-- A request of an XFER leaves for another node. -/
def xfSend (x : Xf) (q : Req) (o : Origin) (dest : Nat) (s : State) : State := sendReq x.part q o dest (xfWait x.core s)

/-- A write of the queue went to a node on a flow (R335). -/
def noteFlow (c node flow : Nat) (s : State) : State :=
  updCore c (fun k => if k.flowsUsed.contains (node, flow) then k else { k with flowsUsed := k.flowsUsed ++ [(node, flow)] }) s

/-- The stash pool's node can be reached (R224, R373). -/
def poolUp (s : State) (n : Nat) : Bool := !(getDest s (bitsOf (regN s (ctx bMemCtx n 0x1C)) 0 16)).unreachable

/-- POOL_NODE of a partition (R322). -/
def poolNode (s : State) (n : Nat) : Nat := bitsOf (regN s (ctx bMemCtx n 0x1C)) 0 16

/-- The stash and page-cache node of an access: an RM page's copy goes when its partition writes to the page (R315). -/
def dropPage (n a : Nat) (s : State) : State := rpcDrop n (rpcPage (gNode a) (gLocal a)) s

/-- A write (kind 1) or add (2 FP32, 3 integer) of at most 256 bytes at a global address. -/
def xfWrite (x : Xf) (kind a : Nat) (d : Bytes) (s : State) : State × Option Flt :=
  let node := gNode a
  let l := gLocal a
  if node = nodeId s then
    if gRsv a then (s, some (fltRemote node))
    else if gStash a then
      if kind != 1 then (s, some (fltRemote node))
      else
        let r := stashWrite x.part l (poolUp s x.part) s
        match r.1 with
        | .here h => (memPut x.part x.group x.hint h d r.2, none)
        | .there h =>
          let p := poolNode s x.part
          let f := flowOf h p
          (xfSend x { type := 0x02, vc := 0, node := p, flow := f, addr := h, hint := x.hint, data := d, stepped := true }
            (.stash x.part (stashSlot l) (stashEntry l) (.engine x.core 5 x.loc)) 0 (noteFlow x.core p f r.2), none)
        | _ => (r.2, none)
    else if !quotaOk s x.part l d.length true then (s, some (fltRemote node))
    else if kind = 1 then (memPut x.part x.group x.hint l d s, none)
    else (memAdd x.part x.group x.hint (kind == 2) l d s, none)
  else
    let f := flowOf l node
    (xfSend x { type := kind + 1, vc := 0, node := node, flow := f, addr := a % 2 ^ 48, hint := x.hint, data := d, stepped := true }
      (.engine x.core 5 x.loc) 0 (noteFlow x.core node f (dropPage x.part a s)), none)

/-- Bytes arrive in the core's SRAM. -/
def xfLand (c sa : Nat) (d : Bytes) (s : State) : State := updCore c (fun k => sramWr k sa d) s

/-- A read of at most 256 bytes at a global address into core SRAM. -/
def xfRead (x : Xf) (a sa len : Nat) (s : State) : State × Option Flt :=
  let node := gNode a
  let l := gLocal a
  let remote (node addr : Nat) (s : State) : State × Option Flt :=
    (xfSend x { type := 0x01, vc := 1, node := node, flow := flowOf (addr % 2 ^ 41) node, addr := addr, hint := x.hint
                tspec := len, stepped := true } (.engine x.core 5 x.loc) sa s, none)
  let here (a : Nat) (s : State) : State × Option Flt :=
    let r := memGet x.part x.group x.hint a len s
    (xfLand x.core sa r.1 r.2, none)
  if node = nodeId s then
    if gRsv a then (s, some (fltRemote node))
    else if gStash a then
      match stashRead x.part l len s with
      | .here h => here h s
      | .there h => remote (poolNode s x.part) h s
      | .bytes b => (xfLand x.core sa b s, none)
      | .unspecified => let r := drawBytes len s; (xfLand x.core sa r.1 r.2, none)
      | _ => (s, some (fltRemote node))
    else if !quotaOk s x.part l len false then (s, some (fltRemote node))
    else here l s
  else if gRm a && !gRsv a && !gStash a then
    match rpcFrame (getPart s x.part) (rpcPage node l) with
    | some f => let r := rpcServe x.part x.group x.hint f l len s; (xfLand x.core sa r.1 r.2, none)
    | none => remote node (a % 2 ^ 48) (rpcWant x.part node l s)
  else remote node (a % 2 ^ 48) s

/-- The core is still running its transfer: no answer has faulted it. -/
def xfAlive (s : State) (c : Nat) : Bool := (getCore s c).run == .running && !((getCore s c).cur.get [] 5).isEmpty

/-- Accesses one after another until one faults. -/
def xfAll {α : Type} (c : Nat) (f : α → State → State × Option Flt) : List α → State → State × Option Flt
  | [], s => (s, none)
  | a :: t, s =>
    if !xfAlive s c then (s, none)
    else match f a s with
      | (s', none) => xfAll c f t s'
      | r => r

/-- Pieces of a range that cross no 256-byte boundary (R370): offsets and lengths. -/
def pieces256 : Nat → Nat → Nat → Nat → List (Nat × Nat)
  | 0, _, _, _ => []
  | f + 1, a, o, n =>
    if n ≤ o then [] else
    let k := min (n - o) (256 - (a + o) % 256)
    (o, k) :: pieces256 f a (o + k) n

/-- Pieces of a plain transfer: offset, SRAM address, length. With stream addresses a piece stays within the 256 bytes
of one address (R199). -/
def plainPieces (g : Nat) (sa : Nat ⊕ List Int) : Nat → Nat → Nat → List (Nat × Int × Nat)
  | 0, _, _ => []
  | f + 1, o, n =>
    if n ≤ o then [] else
    let k := min (n - o) (256 - (g + o) % 256)
    match sa with
    | .inl a => (o, ((a + o : Nat) : Int), k) :: plainPieces g sa f (o + k) n
    | .inr l =>
      let k := min k (256 - o % 256)
      (o, l.getD (o / 256) 0 + (o % 256 : Nat), k) :: plainPieces g sa f (o + k) n

/-- XFER kinds 0 to 3 (R199, R200): MOD 0 STORE, 1 LOAD, 2 ADDF, 3 ADDI. -/
def runPlain (x : Xf) (q : Queued) (got : Tbl (List Int)) (s : State) : State × Option Flt :=
  let m := q.ins.mod
  let fl := q.ins.flags.toNat
  let w := if m = 2 then 4 else if m = 3 then 8 else 1
  let n := argN q 2 * w
  let g := (if m = 1 then argN q 1 else argN q 0) / w * w
  let lst := got.get [] (bitsOf fl 2 2)
  let sa : Nat ⊕ List Int := if bitOf fl 4 then .inr lst else .inl (if m = 1 then argN q 0 else argN q 1)
  -- an address past core SRAM ends the transfer, so this many pieces always suffice
  let fuel := if bitOf fl 4 then 2 * lst.length + 2 else 4200
  xfAll x.core (fun (p : Nat × Int × Nat) s =>
    if !inSram p.2.1 p.2.2 then (s, some (fltBounds p.2.1))
    else if m = 1 then xfRead x (g + p.1) p.2.1.toNat p.2.2 s
    else xfWrite x (if m = 0 then 1 else m) (g + p.1) (sramRd (getCore s x.core) p.2.1.toNat p.2.2) s)
    (plainPieces g sa fuel 0 n) s

/-- Places of parcel `p` of a tensor: data, scales, CRC, outlier record (R82, R187). -/
def partsOf (t : Tdesc) (p : Nat) : List (Nat × Nat) :=
  [(t.data + 256 * p, 256), (t.scale + t.s * p, t.s), (t.cksum + 4 * p, 4)] ++ (if t.hasOutl then [(t.outl + 32 * p, 32)] else [])

/-- One parcel stored to this node, part by part (R199). -/
def storeParts (x : Xf) (l : List (Nat × Bytes)) (s : State) : State × Option Flt :=
  let all := (l.map fun e => (pieces256 4 e.1 0 e.2.length).map fun p => (e.1 + p.1, (e.2.drop p.1).take p.2)).flatten
  xfAll x.core (fun (e : Nat × Bytes) s => xfWrite x 1 e.1 e.2 s) all s

/-- The payload of a parcel burst with its outlier record (R64, R366). -/
def burstOf (fmt : Nat) (k : Parcel) : Bytes :=
  k.data ++ sliceB k.scales 0 (burstScales (fmtWidth fmt)) ++ k.crc ++ k.outl

/-- The 24-byte extension of a PARCEL (R367). -/
def parcelExt (scale crc outl : Nat) : Bytes := leBytes 6 scale ++ leBytes 6 crc ++ leBytes 6 outl ++ zeros 6

/-- One parcel of a PSTORE. -/
def pstoreOne (x : Xf) (src dst : Tdesc) (p r : Nat) (s : State) : State × Option Flt :=
  match parcelRaw (getCore s x.core) src p with
  | .error f => (s, some f)
  | .ok k =>
    let at_ := partsOf dst r
    let node := gNode (at_.headD (0, 0)).1
    if node = nodeId s then storeParts x ((at_.map Prod.fst).zip [k.data, k.scales, k.crc, k.outl]) s
    else
      let a (j : Nat) : Nat := (at_.getD j (0, 0)).1
      let f := flowOf (gLocal (a 0)) node
      let s := (at_.map Prod.fst).foldl (fun s a => dropPage x.part a s) s
      (xfSend x { type := 0x05, vc := 0, node := node, flow := f, addr := a 0 % 2 ^ 48, hint := x.hint
                  tspec := dst.fmt + 16 * b2n dst.hasOutl
                  ext := parcelExt (a 1 % 2 ^ 48) (a 2 % 2 ^ 48) (if dst.hasOutl then a 3 % 2 ^ 48 else 0)
                  data := burstOf dst.fmt k, stepped := true } (.engine x.core 5 x.loc) 0 (noteFlow x.core node f s), none)

/-- One parcel of a PLOAD: its parts are read as they lie (R65, R199). From another node each part, the outlier record among them, is
fetched by a READ of its own, since no request of R366 asks for a parcel (DESIGN CHOICE, log entry 115). -/
def ploadOne (x : Xf) (src dst : Tdesc) (p r : Nat) (s : State) : State × Option Flt :=
  match (partsOf dst r).find? fun e => !inSram (e.1 : Int) e.2 with
  | some e => (s, some (fltBounds e.1))
  | none =>
    let all := (((partsOf src p).zip (partsOf dst r)).map fun e => (pieces256 4 e.1.1 0 e.1.2).map fun c =>
      (e.1.1 + c.1, e.2.1 + c.1, c.2)).flatten
    xfAll x.core (fun (e : Nat × Nat × Nat) s => xfRead x e.1 e.2.1 e.2.2 s) all s

/-- XFER kinds 4 and 5 (R199, R200). -/
def runParcels (x : Xf) (q : Queued) (tds : List Bytes) (s : State) : State × Option Flt :=
  let dst := tdAt tds 0
  let src := tdAt tds 1
  let store := q.ins.mod == 4
  let count := argN q 2
  if count = 0 then (s, none)
  else if parcelsUnfit store dst src then (s, some { cause := 0x07 })
  else
    let p0 := argN q 3 % 2 ^ 32
    let r0 := argN q 3 / 2 ^ 32
    -- a parcel past core SRAM ends the transfer, so 2,100 parcels always suffice
    xfAll x.core (fun (i : Nat) s => if store then pstoreOne x src dst (p0 + i) (r0 + i) s else ploadOne x src dst (p0 + i) (r0 + i) s)
      (List.range (min count 2100)) s

/-- A logical core belongs to a partition. -/
def ownedBy (s : State) (n c : Nat) : Bool := inRects (getPart s n).rects c

/-- The longest run of a partition's cores along a row or column that holds a coordinate (R199): downwards, upwards. -/
def runDown (own : Nat → Bool) : Nat → Nat
  | 0 => 0
  | v + 1 => if own v then runDown own v else v + 1
def runUp (own : Nat → Bool) : Nat → Nat → Nat
  | 0, v => v
  | f + 1, v => if own (v + 1) then runUp own f (v + 1) else v

/-- The cores a ROWCAST or COLCAST writes (R199). -/
def castCores (s : State) (c n : Nat) (row : Bool) (lo hi : Nat) : List Nat :=
  let here := if row then c % 64 else c / 64
  let at_ (v : Nat) : Nat := if row then 64 * (c / 64) + v else 64 * v + c % 64
  let own (v : Nat) : Bool := decide (v < 48) && ownedBy s n (at_ v)
  let a := max lo (runDown own here)
  let b := min hi (runUp own 48 here)
  ((List.range 48).filter fun v => decide (a ≤ v) && decide (v ≤ b)).map at_

/-- XFER kinds 6 and 7 (R199, R329): s[RB] is the source and s[RA] the destination in every core of the range. Where a byte of
either side lies outside core SRAM, the bytes before it are moved and the access to it faults (R138, R200; log entry 106). -/
def runCast (x : Xf) (q : Queued) (s : State) : State × Option Flt :=
  let n := argN q 2
  let src := argN q 1
  let dst := argN q 0
  let len := min n (min (sramSize - src) (sramSize - dst))
  let d := sramRd (getCore s x.core) src len
  let s := (castCores s x.core x.part (q.ins.mod == 6) (bitsOf (argN q 3) 0 6) (bitsOf (argN q 3) 8 6)).foldl
    (fun s c => updCore c (fun k => sramWr k dst d) s) s
  (s, if len = n then none else some (fltBounds (if sramSize ≤ src + len then src + len else dst + len)))

/-- The signal of a SIG that names the transfer engine (R135, R335, R564): local, or on every flow its writes took. -/
def runSig (x : Xf) (q : Queued) (s : State) : State :=
  let k := getCore s x.core
  let r : DWord := q.args.getD 0 0
  let inc := q.ins.imm.toNat % 2 ^ 32
  let no := k.sigNo
  let o : Origin := .signal x.core 5 no x.loc
  let s := updCore x.core (fun k => { k with sigNo := (no + 1) % 2 ^ 20 }) s
  if refRemote s r then
    let node := refNode r
    let flows := (k.flowsUsed.filter fun f => f.1 == node).map Prod.snd
    let parts := max 1 flows.length
    let s := updCore x.core (fun k => { k with flowsUsed := k.flowsUsed.filter fun f => f.1 != node
                                               sigsOut := List.replicate parts no ++ k.sigsOut }) s
    let s := (List.range parts).foldl (fun s _ => xfWait x.core s) s
    sendSignal x.part (coreSigId x.core no) node (refIndex r) inc flows o s
  else
    postSignal { part := x.part, index := refIndex r, inc := inc, origin := o, far := bitOf r.toNat 16, source := x.core }
      (xfWait x.core s)

end Sys2Proof.Machine
end

