-- ==== Sys2Proof/Machine/Access.lean ====
section
/-!
DEFINITION. Accesses that the device makes to global addresses for a descriptor (R294, R295, R462): where a piece of a
range lies, and whether a whole range may be read or written.
-/
namespace Sys2Proof.Machine

/-- Bytes of a piece: no piece crosses a 256-byte boundary of the address. -/
def rangePieces (a len : Nat) : List (Nat × Nat) := pieces256 (len / 256 + 2) a 0 len

/-- Where a read of at most 256 bytes at a global address of this node lands. -/
def readPlace (s : State) (n a len : Nat) : StashPlace :=
  if gRsv a then .refused
  else if gStash a then (if n = 0 then .refused else stashRead n (gLocal a) len s)
  else if quotaOk s n (gLocal a) len false then .here (gLocal a)
  else .refused

/-- Where a write of at most 256 bytes at a global address of this node lands (R224). -/
def writePlace (n a len : Nat) (s : State) : StashPlace × State :=
  if gRsv a then (.refused, s)
  else if gStash a then (if n = 0 then (.refused, s) else stashWrite n (gLocal a) (poolUp s n) s)
  else if quotaOk s n (gLocal a) len true then (.here (gLocal a), s)
  else (.refused, s)

/-- A range of this node may be read for a partition: no piece is refused. -/
def rangeReadOk (s : State) (n a len : Nat) : Bool :=
  if gRsv a then false
  else if gStash a then
    decide (gLocal a + len ≤ 2 ^ 41) && (rangePieces a len).all fun p => readPlace s n (a + p.1) p.2 != .refused
  else quotaOk s n (gLocal a) len false

/-- A range of this node may be written for a partition. -/
def rangeWriteOk (s : State) (n a len : Nat) : Bool :=
  if gRsv a then false
  else if gStash a then n != 0 && decide (gLocal a + len ≤ 2 ^ 41)
  else quotaOk s n (gLocal a) len true

/-- The bytes of a range that lies in this device. -/
def rangeRead (n hint a : Nat) : List (Nat × Nat) → State → Option Bytes × State
  | [], s => (some [], s)
  | p :: t, s =>
    let put (b : Bytes) (s : State) : Option Bytes × State :=
      let r := rangeRead n hint a t s
      (r.1.map fun l => b ++ l, r.2)
    match readPlace s n (a + p.1) p.2 with
    | .here h => let r := memGet n 0 hint h p.2 s; put r.1 r.2
    | .bytes b => put b s
    | .unspecified => let r := drawBytes p.2 s; put r.1 r.2
    | _ => (none, s)

end Sys2Proof.Machine
end

