-- ==== Sys2Proof/Machine/Engines.lean ====
section
/-!
DEFINITION. The engines (R130 to R139), the check lane (R115 to R119, R126), the end of a core's stream (R156, R157),
and the register writes of a core's window (R125, R126, R169). An engine's whole effect takes place when it starts, but for
the promotion, write-back and record of an MMA, which wait for its verdicts and take place at its completion; the completion count
advances when ENGINE_COMPLETION finds the instruction done (log entry 10).
-/
namespace Sys2Proof.Machine

/-! ## The check lane (R118, R125, R272) -/

/-- One more in an 8-bit field of a word, saturating. -/
def bumpField (lo : Nat) (w : Word) : Word := BitVec.ofNat 32 (setBits w.toNat lo 8 (satTo 8 (bitsOf w.toNat lo 8 + 1)))

/-- CORE_MA_CHK of an array changed. -/
def updChk (array : Nat) (f : Word → Word) (k : Core) : Core :=
  if array = 0 then { k with chk0 := f k.chk0 } else { k with chk1 := f k.chk1 }

/-- The location of an engine's instruction (R170). -/
def queuedLoc (s : State) (q : Queued) (cause : Nat) : Word := locOf s q.native q.bank q.gen q.ins cause

/-- Check-lane faults and transients of an array over WINDOW_H hours; at its limit the core is marked (R272). -/
def siteFault (t array : Nat) (lane : Bool) (s : State) : State :=
  let th := regN s (bSlwDev + 4)
  let recent (l : List Nat) : List Nat := l.filter fun x => decide (s.clock < x + bitsOf th 16 8 * hour)
  let k := getSite s t
  let l := recent ((if lane then k.laneFaults else k.transients).get [] array) ++ [s.clock]
  let limit := if lane then bitsOf th 0 8 else bitsOf th 8 8
  updSite t (fun k =>
    let k := if lane then { k with laneFaults := Tbl.set [] k.laneFaults array l }
      else { k with transients := Tbl.set [] k.transients array l }
    { k with marked := k.marked || decide (limit ≤ l.length) }) s

/-- The MMA that an array runs. -/
def runningMma (k : Core) (array : Nat) : Option Running :=
  (k.cur.get [] (1 + array)).find? fun r => r.q.ins.op == 0x30 && !r.hungry

/-- The MMA that an array runs, changed. -/
def updMma (array : Nat) (f : Running → Running) (k : Core) : Core :=
  { k with cur := Tbl.upd [] k.cur (1 + array) fun l => l.map fun r => if r.q.ins.op == 0x30 && !r.hungry then f r else r }

/-- The MMA of a running entry: what it works on (R190). -/
def Running.mma (r : Running) : MmaPar := mmaPar r.q r.tds r.mask

/-- A vote found the check lane at fault (`lane`) or a transient (R118, R124, R265): what it promotes, counts, record, event, site. -/
def voteCounted (c array : Nat) (lane : Bool) (f : Fix) (s : State) : State :=
  let s := updCore c (fun k => updMma array (fun r =>
      if lane then { r with fixes := f :: r.fixes, laneFaults := r.laneFaults + 1 }
      else { r with fixes := f :: r.fixes, transients := r.transients + 1 })
    (updChk array (bumpField (if lane then 8 else 0)) k)) s
  let k := getCore s c
  let s := postEvent { kind := if lane then 0x02 else 0x01, part := k.part, core := some c, site := siteOf s c, detail := array } s
  let s := if lane then s else noteCore c .checkTransient s
  match siteOf s c with
  | some t => siteFault t array lane s
  | none => s

/-- An engine's instruction faults (R161). A load that faults leaves the MMA beside it to complete. -/
def engineFault (c e : Nat) (q : Queued) (f : Flt) (s : State) : State :=
  let keep := ((getCore s c).cur.get [] e).filter fun r => r.q != q && r.q.ins.op == 0x30 && !r.hungry
  let s := coreFault c e false (queuedLoc s q f.cause) f s
  if keep.isEmpty then s else updCore c (fun k => { k with cur := Tbl.set [] k.cur e keep }) s

/-- A vote that matches neither side ends its MMA with the array-suspect fault (R118, R120, R270): the re-run registers and the
stationary buffer go to the site's capture store, nothing more is promoted, and the rows become unspecified. -/
def voteSuspect (c array : Nat) (x : LanePlace) (t : TilePass) (r : Running) (s : State) : State :=
  let s := updCore c (updChk array (bumpField 16)) s
  let s := match siteOf s c with
    | some u => updSite u (fun k => { k with capture := some { fmt := r.mma.a.fmt, place := x, slabs := t.slabs, tile := t.tile } }) s
    | none => s
  let k := getCore s c
  let y := spoilAll ((mmaRows r.q).toList) { k with cur := Tbl.upd [] k.cur (1 + array) fun l => l.filter fun e => e.q.ins.op != 0x30 } s
  engineFault c (1 + array) r.q { cause := 0x05 } (setCore c y.1 y.2)

/-- What a verdict does (R118). -/
def verdictDone (c array : Nat) (x : LanePlace) (t : TilePass) (r : Running) (v : Verdict) (s : State) : State :=
  match v with
  | .laneFault f => voteCounted c array true f s
  | .transient f => voteCounted c array false f s
  | .suspect => voteSuspect c array x t r s

/-- An injection of an array, of a kind, takes a group (R126): it is no longer armed, and the vote on it follows. -/
def injectAt (c array : Nat) (lane : Bool) (r : Running) (x : LanePlace) (s : State) : State :=
  let s := updCore c (fun k => { k with inj := k.inj &&& ~~~(BitVec.ofNat 4 (2 ^ (array + 2 * b2n lane))) }) s
  match r.passes[x.pass]? with
  | none => s
  | some t =>
    match injectVote r.mma t x lane with
    | some v => verdictDone c array x { t with slabs := rerunSlabs t x.row } r v s
    | none => s

/-- The injections armed in an array take the next checked groups of the MMA that has streamed there (R126). -/
def takeInjections (c array : Nat) (s : State) : State :=
  let k := getCore s c
  if k.inj = 0 then s else
  match runningMma k array with
  | none => s
  | some r =>
    let places := injectPlaces r.mma r.passes
    let arr := k.inj.getLsbD array && !places.isEmpty
    let s := match places.head? with
      | some x => if arr then injectAt c array false r x s else s
      | none => s
    match (if arr then places.drop 1 else places).head? with
    | some x => if k.inj.getLsbD (2 + array) then injectAt c array true r x s else s
    | none => s

/-! ## Start (R131, R137, R189) -/

/-- A stationary buffer that a running MMA no longer needs (R101): not that of its last tile, and not one that a pending vote re-runs. -/
def bufFree (k : Core) (array buf : Nat) (r : Running) : Bool :=
  (r.passes.getLast?.map TilePass.buf) != some buf &&
    match k.votes.get none array with
    | some v => (r.passes[v.place.pass]?.map TilePass.buf) != some buf
    | none => true

/-- An instruction may start beside those its engine has not completed: none, or a load into a free buffer beside an MMA, or an MMA
beside a WLDM that it follows (R101, R103, R131). -/
def mayStart (k : Core) (cur : List Running) (i : NInstr) : Bool :=
  if i.op = 0x31 || i.op = 0x32 then
    cur.all fun r => r.q.ins.op == 0x30 && !r.hungry && bufFree k (i.mod % 2) (b2n (bitOf i.flags.toNat 0)) r
  else if i.op = 0x30 then cur.all fun r => r.q.ins.op == 0x32
  else cur.isEmpty

/-- A load beside an MMA: the verdicts of the tiles before its last are all in (R101). -/
def loadBeside (i : NInstr) (k : Core) : Core :=
  if i.op = 0x31 || i.op = 0x32 then updMma (i.mod % 2) (fun r => { r with verdicts := max r.verdicts (r.passes.length - 1) }) k else k

/-- The last running instruction of an engine changed. -/
def updLast (c e : Nat) (f : Running → Running) (s : State) : State :=
  updCore c (fun k => { k with cur := Tbl.upd [] k.cur e fun l => l.dropLast ++ (l.getLast?.map f).toList }) s

/-- A core's new contents, or the fault that ended the instruction after them. -/
def settleUnit (c e : Nat) (q : Queued) (r : Core × Option Flt) (s : State) : State :=
  match r.2 with
  | none => setCore c r.1 s
  | some f => engineFault c e q f (setCore c r.1 s)

/-- An MMA streams what its addresses give (R100, R105): its passes are kept for its verdicts and its completion, the re-run registers
hold the last slabs, and armed injections take their groups. A fault promotes what has streamed and ends it. -/
def runArray (c e : Nat) (q : Queued) (tds : List Bytes) (got : Tbl (List Int)) (s : State) : State :=
  let array := q.ins.mod % 2
  let r := runMma (getCore s c) q tds got
  let st := r.2.1
  let s := setCore c { st.core with rerun := Tbl.set [] st.core.rerun array (lastSlabs st.passes) } s
  let s := takeInjections c array (updLast c e (fun y => { y with mask := r.1, passes := st.passes, skipped := st.skipped }) s)
  match r.2.2 with
  | none => s
  | some f =>
    let s := updCore c (fun k => match runningMma k array with
      | some y => (mmaPromote k y.mma y.passes y.fixes).1
      | none => k) s
    engineFault c e q f s

/-- The effect of an instruction whose operands and addresses are all there. Its entry is the last of its engine. -/
def engineRun (c e : Nat) (q : Queued) (tds : List Bytes) (got : Tbl (List Int)) (s : State) : State :=
  let k := getCore s c
  let i := q.ins
  let x : Xf := { core := c, part := k.part, group := k.group, hint := bitsOf i.flags.toNat 0 2, loc := queuedLoc s q 0x0F }
  let end_ (r : State × Option Flt) : State := match r.2 with
    | none => r.1
    | some f => if xfAlive r.1 c then engineFault c e q f r.1 else r.1
  match i.op with
  | 0x30 => runArray c e q tds got s
  | 0x31 => settleUnit c e q (runWld k q tds got) s
  | 0x32 => settleUnit c e q (runWld k q tds got) s
  | 0x33 =>
    let fl := i.flags.toNat
    let layer := bitsOf (argN q 0) 0 16
    let r := runNrw k q tds (nrwSetting s k.part i layer)
    let s := if bitOf fl 1 && decide (govCount s k.part ≤ layer) then govFlag k.part 7 s else s
    let s := settleUnit c e q (r.1.1, r.2) s
    match r.1.2 with
    | some b => if isStarted s k.part then updGov k.part (fun g => { g with inbox := g.inbox ++ [(c, b)] }) s else s
    | none => s
  | 0x34 => settleUnit c e q (runDnrw k tds) s
  | 0x35 => settleUnit c e q (runVop k i tds) s
  | 0x36 =>
    match runRed k i tds with
    | .ok v => updLast c e (fun r => { r with result := some v }) s
    | .error f => engineFault c e q f s
  | 0x17 => runSig x q s
  | _ =>
    if i.mod ≤ 3 then end_ (runPlain x q got s)
    else if i.mod ≤ 5 then end_ (runParcels x q tds s)
    else end_ (runCast x q s)

/-- Reads of core SRAM by a running instruction met an error of its code or a failed parcel check (R63, R148). -/
def engineEcc (c e : Nat) (q : Queued) (ecc : Ecc) (go : State → State) (s : State) : State :=
  match ecc with
  | .uncorrectable a => engineFault c e q { cause := 0x0D, info := a } s
  | _ => noteEcc c ecc (go s)

/-- An address already taken faults before the rest have come (R138, R185). -/
def addressFault (k : Core) (q : Queued) (tds : List Bytes) (got : Tbl (List Int)) : Bool :=
  if q.ins.op = 0x30 then (runMma k q tds got).2.2.isSome
  else (streamNeeds q tds).any fun n =>
    let bytes := argN q 2 * (match q.ins.mod with | 2 => 4 | 3 => 8 | _ => 1)
    (indexed (got.get [] n.1)).any fun a => !inSram a.2 (if q.ins.op = 0x21 then min 256 (bytes - 256 * a.1) else 0)

/-- An instruction takes its addresses; with all of them it runs, otherwise its engine waits on an empty stream (R137). -/
def engineFeed (c e : Nat) (ecc : Ecc) (r : Running) (s : State) : State :=
  let k := getCore s c
  let t := takeStreams (streamNeeds r.q r.tds) r.taken k.streams
  let s := updCore c (fun k => { k with streams := t.2.1 }) s
  if t.2.2 || addressFault k r.q r.tds t.1 then
    engineEcc c e r.q ecc (engineRun c e r.q r.tds t.1) (updLast c e (fun r => { r with hungry := false, taken := [] }) s)
  else deadlockCheck c (updLast c e (fun r => { r with hungry := true, taken := t.1 }) s)

/-- A vote of an array is pending. -/
def voting (k : Core) (e : Nat) : Bool := (e == 1 || e == 2) && (k.votes.get none (e - 1)).isSome

/-- ENGINE_START: an engine goes on with the instruction that waits for addresses, or takes the next one of its queue. -/
def execEngineStart (c e : Nat) (ecc : Ecc) (s : State) : Result :=
  let k := getCore s c
  if k.run != .running || e = 0 || 5 < e then .next s
  else
    let cur := k.cur.get [] e
    match cur.getLast? with
    | some r =>
      if r.hungry then .next (engineFeed c e ecc r s)
      else match k.queues.get [] e with
        | [] => .next s
        | q :: rest =>
          if mayStart k cur q.ins then
            let r : Running := { q := q, tds := readTds k q }
            let s := updCore c (fun k => loadBeside q.ins { k with queues := Tbl.set [] k.queues e rest, cur := Tbl.set [] k.cur e (cur ++ [r]) }) s
            match startFlt q r.tds with
            | some f => .next (engineFault c e q f s)
            | none => .next (engineFeed c e ecc r s)
          else .next s
    | none =>
      match k.queues.get [] e with
      | [] => .next s
      | q :: rest =>
        let r : Running := { q := q, tds := readTds k q }
        if rowsBusy k q.ins r.tds then .next s
        else
          let s := updCore c (fun k => { k with queues := Tbl.set [] k.queues e rest, cur := Tbl.set [] k.cur e [r] }) s
          match startFlt q r.tds with
          | some f => .next (engineFault c e q f s)
          | none => .next (engineFeed c e ecc r s)

/-! ## Completion (R132, R133, R143) -/

/-- What keeps an engine's oldest instruction from completing (R90, R119, R132, R137, R303): addresses or answers to come, a vote, a
statistics record on its way to the governor, accesses of a transfer that its bucket has not paid for. -/
def stillOpen (s : State) (c e : Nat) (r : Running) : Bool :=
  let k := getCore s c
  r.hungry || r.waiting != 0 || (r.q.ins.op == 0x30 && voting k e) ||
    (r.q.ins.op == 0x21 && bucketOwes s k.part k.group) ||
    (r.q.ins.op == 0x33 && (getPart s k.part).gov.inbox.any fun b => b.1 == c)

/-- An engine's oldest instruction leaves it: an MMA promotes, writes back and records first (R121, R124); a fault of that is to be
taken. -/
def leaveEngine (e : Nat) (r : Running) (rest : List Running) (k : Core) : Core × Option Flt :=
  let x := if r.q.ins.op = 0x30 then endMma k r else (k, none)
  ({ x.1 with cur := Tbl.set [] x.1.cur e rest }, x.2)

/-- The completion count of an engine goes up, and a RED writes its register (R132, R143). -/
def countUp (e : Nat) (r : Running) (k : Core) : Core :=
  let k := { k with counts := Tbl.upd 0 k.counts e fun n => n + 1 }
  match r.result with
  | some v => { (setSreg k r.q.ins.ra v) with locked := eraseOne r.q.ins.ra k.locked }
  | none => k

/-- ENGINE_COMPLETION: the oldest instruction an engine has started completes when nothing it needs is open. -/
def execEngineCompletion (c e : Nat) (s : State) : Result :=
  let k := getCore s c
  match k.cur.get [] e with
  | [] => .next s
  | r :: rest =>
    if stillOpen s c e r then .next s
    else
      let x := leaveEngine e r rest k
      match x.2 with
      | some f => .next (engineFault c e r.q f (setCore c x.1 s))
      | none => .next (ewaitCheck c (setCore c (countUp e r x.1) s))

/-! ## The end of a stream (R156, R157) -/

/-- Loops open at an index of a code section. -/
def loopsAt (code : List NInstr) (i : Nat) : Nat :=
  ((code.take i).filter (isOp 0x10)).length - ((code.take i).filter (isOp 0x11)).length

/-- Where ENTRY of a START_STREAM starts a core (R181): an entry point, of which an unused one leads to a HALT; or an
instruction of the line map that lies in no loop body; any other offset has no Nellek meaning. -/
def entryPc (s : State) (b : Bank) (entry : Nat) : Option Nat :=
  if entry < 8 then
    let e := b.entries.getD entry 0xFFFF
    some (if e = 0xFFFF then b.code.length else e)
  else (List.range b.code.length).find? fun i => lineMap s b.code i == entry && loopsAt b.code i == 0

/-- A core of a group starts a stream (R129, R132, R153): from the bank that holds the generation, the later load where
both do. -/
def startCore (d : Desc) (s : State) (c : Nat) : State :=
  let gen := BitVec.ofNat 16 (d.at 18 2)
  updCore c (fun k =>
    let ok (b : Bank) : Bool := b.valid && b.gen == gen
    let b := if ok k.bank0 && ok k.bank1 then (if k.bank0.order < k.bank1.order then 1 else 0)
      else if ok k.bank1 then 1 else 0
    let pc := entryPc s (bankOf k b) (d.at 20 4 / 8)
    { k with run := .running, active := b, pc := pc.getD 0, openEntry := pc.isNone, stall := .none, halting := false, loops := []
             locked := [], counts := [], streams := [], queues := [], cur := [], votes := [], codes := []
             sregs := (List.range 4).foldl (fun t j => Tbl.set 0 t j (BitVec.ofNat 64 (d.at (32 + 8 * j) 8))) [] }) s

/-- The stream of a START_STREAM starts on every core of its group (R155); a device in IDLE returns to ACTIVE (R33). -/
def startStreamNow (d : Desc) (s : State) : State :=
  (groupCores (getPart s d.fn) (d.at 16 2)).foldl (startCore d) (leaveIdle s)

/-- The group of a START_STREAM has no cores of its own (R212): its stream ends as it starts (R156; log entry 126). -/
def emptyStream (s : State) (d : Desc) : Bool := (groupCores (getPart s d.fn) (d.at 16 2)).isEmpty

/-- Held START_STREAMs of a group that wait for an earlier stream of the group (R261). -/
def nextHeld (s : State) (n g : Nat) : Option Desc :=
  match openStep s n with
  | some t => (t.streams.filterMap (findDesc s)).find? fun d => !t.ended.contains d.id && d.at 16 2 == g
  | none => none

/-- The stream of a START_STREAM has ended with every core halted: a held one is noted, and the next stream of the group
that its attempt holds starts; another completes (R156, R237, R264). -/
def streamEnds (d : Desc) (s : State) : State :=
  let cores := groupCores (getPart s d.fn) (d.at 16 2)
  if cores.all fun c => (getCore s c).run == .halted then
    let codes := (cores.map fun c => (getCore s c).codes).flatten
    let s := updDesc d.id (fun d => { d with codes := codes.foldl addCode d.codes }) s
    if d.phase = .held then
      let s := updStep d.fn (fun t => { t with ended := t.ended ++ [d.id] }) s
      match nextHeld s d.fn (d.at 16 2) with
      | some e => if e.phase = .held then startStreamNow e s else s
      | none => s
    else finishDesc d.id .ok s
  else s

/-- CORE_HALTED: a halting core with nothing open enters HALTED and drops what its streams hold (R157, R564). -/
def execCoreHalted (c : Nat) (s : State) : Result :=
  let k := getCore s c
  if k.run == .running && k.halting && k.cur.isEmpty && k.queues.isEmpty && k.sigsOut.isEmpty then
    let s := setCore c { k with run := .halted, halting := false, streams := [] } s
    match streamDesc s c with
    | some d => .next (streamEnds d s)
    | none => .next s
  else .next s

/-! ## Votes (R118, R119) -/

/-- CHECK_LANE_DISAGREE: the check of a group at a place, or the two copies of an outlier term, when the sides have the errors that
the command gives; a comparison that fails holds the array for its vote, and the re-run registers hold the group (R115 to R119). -/
def execCheckLaneDisagree (c array : Nat) (place : LanePlace) (sums : List Int) (lane : Int) (s : State) : Result :=
  let k := getCore s c
  match runningMma k array with
  | none => .next s
  | some r =>
    match r.passes[place.pass]? with
    | none => .next s
    | some t =>
      if 1 < array || place.pass < r.verdicts || (k.votes.get none array).isSome then .next s
      else match laneCompare r.mma t place sums lane with
        | none => .next s
        | some v => .next (setCore c { k with votes := Tbl.set none k.votes array (some v)
                                              rerun := Tbl.set [] k.rerun array (rerunSlabs t place.row) } s)

/-- CHECK_LANE_VOTE: the re-run decides (R118): it takes the slabs of the re-run registers and the stationary buffer that they read,
with the errors that the command gives. -/
def execCheckLaneVote (c array : Nat) (sums : List Int) (s : State) : Result :=
  let k := getCore s c
  match k.votes.get none array, runningMma k array with
  | some v, some r =>
    match r.passes[v.place.pass]? with
    | none => .next s
    | some t =>
      let t := { t with slabs := k.rerun.get [] array }
      .next (verdictDone c array v.place t r (laneVote r.mma t v sums)
        (setCore c { k with votes := Tbl.set none k.votes array none } s))
  | _, _ => .next s

/-! ## Window registers (R125, R126, R164, R169) -/

/-- A function reaches the window of a core. -/
def windowReached (s : State) (fn c : Nat) : Bool :=
  !diesDark s && decide (c % 64 < 48) && decide (c / 64 < 48) && (fn == 0 || ownedBy s fn c)

/-- MA_CHK_CLEAR: CLEAR written to CORE_MA_CHK of an array (R125). -/
def execMaChkClear (fn c array : Nat) (s : State) : Result :=
  .next (hostPost fn (fun s => if windowReached s fn c && array ≤ 1 then updCore c (updChk array fun _ => 0) s else s) s)

/-- A bit of CORE_MA_CTL written: PF0 alone arms an injection; a pending one stays as it is (R126). -/
def armInjection (fn c bit : Nat) (s : State) : State :=
  hostPost fn (fun s =>
    if fn = 0 && windowReached s fn c then updCore c (fun k => { k with inj := k.inj ||| BitVec.ofNat 4 (2 ^ bit) }) s else s) s

/-- INJ_ARRAY_MA0 (R126). -/
def execInjArrayMa0 (fn c : Nat) (s : State) : Result := .next (armInjection fn c 0 s)

/-- INJ_ARRAY_MA1 (R126). -/
def execInjArrayMa1 (fn c : Nat) (s : State) : Result := .next (armInjection fn c 1 s)

/-- INJ_LANE_MA0 (R126). -/
def execInjLaneMa0 (fn c : Nat) (s : State) : Result := .next (armInjection fn c 2 s)

/-- INJ_LANE_MA1 (R126). -/
def execInjLaneMa1 (fn c : Nat) (s : State) : Result := .next (armInjection fn c 3 s)

/-- CORE_FAULT_CLEAR: 1 written to VALID of CORE_FAULT clears the record (R169, R170). -/
def execCoreFaultClear (fn c : Nat) (s : State) : Result :=
  .next (hostPost fn (fun s =>
    if windowReached s fn c then updCore c (fun k => { k with fault := 0, faultPc := 0, faultInfo := 0 }) s else s) s)

end Sys2Proof.Machine
end

