-- ==== Sys2Proof/Machine/Loader.lean ====
section
/-!
DEFINITION. The Nellek loader (R172 to R175, R203 to R208) and the descriptors LOAD_PROGRAM and START_STREAM (R154,
R155, R204, R259). A native image stands for its Nellek instructions with the native operations each becomes (R201).
-/
namespace Sys2Proof.Machine

/-! ## The object (R172, R173) -/

/-- A failed translation: cause of R207, instruction index, descriptor index. -/
structure XErr where
  cause : Nat
  index : Nat := 0xFFFFFFFF
  dindex : Nat := 0xFFFF
  deriving DecidableEq, Repr

/-- A translated object: code, entry points, descriptor table and constants with their core SRAM addresses. -/
structure Image where
  code : List NInstr
  entries : List Nat
  tdescBase : Nat
  tdesc : Bytes
  constBase : Nat
  consts : Bytes
  deriving DecidableEq, Repr

/-- Header fields of an object. -/
def oMinor (o : Bytes) : Nat := leAt o 6 2
def oCode (o : Bytes) : Nat := leAt o 8 4
def oCount (o : Bytes) : Nat := leAt o 12 4
def oTdesc (o : Bytes) : Nat := leAt o 16 4
def oTcount (o : Bytes) : Nat := leAt o 20 2
def oTbase (o : Bytes) : Nat := leAt o 24 4
def oConst (o : Bytes) : Nat := leAt o 28 4
def oClen (o : Bytes) : Nat := leAt o 32 4
def oCbase (o : Bytes) : Nat := leAt o 36 4
def oEntry (o : Bytes) (i : Nat) : Nat := leAt o (40 + 2 * i) 2

/-- Cause 0x01: MAGIC, MAJOR or MINOR (R174). -/
def magicOk (o : Bytes) : Bool := leAt o 0 4 == 0x4F4B4C4E && leAt o 4 2 == 1 && decide (oMinor o ≤ 1)

/-- Cause 0x02: lengths, offsets and placement (R172, R173). A nonzero RSV field of the header counts here (DEDUCED, log
entry 12). -/
def layoutOk (o : Bytes) : Bool :=
  let n := o.length
  let secs := [(oCode o, 16 * oCount o), (oTdesc o, 64 * oTcount o), (oConst o, oClen o)]
  decide (64 ≤ n) && decide (n ≤ 1048576) && oCode o % 16 == 0 && decide (64 ≤ oCode o) && decide (1 ≤ oCount o) &&
  decide (oCount o ≤ 4096) && oTdesc o % 16 == 0 && decide (oTcount o ≤ 256) && oTbase o % 64 == 0 &&
  decide (oClen o ≤ 262144) && oCbase o % 64 == 0 && leAt o 22 2 == 0 && leAt o 56 8 == 0 &&
  (secs.all fun p => decide (p.1 + p.2 ≤ n) && !rangesMeet 0 64 p.1 p.2) &&
  !rangesMeet (oCode o) (16 * oCount o) (oTdesc o) (64 * oTcount o) &&
  !rangesMeet (oCode o) (16 * oCount o) (oConst o) (oClen o) &&
  !rangesMeet (oTdesc o) (64 * oTcount o) (oConst o) (oClen o) &&
  decide (oTbase o + 64 * oTcount o ≤ sramSize) && decide (oCbase o + oClen o ≤ sramSize) &&
  !rangesMeet (oTbase o) (64 * oTcount o) (oCbase o) (oClen o)

/-- The cause that a static tensor descriptor fails with (R207): 0x06 or 0x07. -/
def tdescCause (minor : Nat) (b : Bytes) : Option Nat :=
  let t := tdescOf b
  let narrow := fmtNarrow t.fmt
  if minor = 0 && decide (9 ≤ t.fmt) && decide (t.fmt ≤ 11) then some 0x06
  else if decide (11 < t.fmt) || t.rsv || (narrow && ((narrowFlt t).isSome || !t.pitchOk)) then some 0x07
  else none

/-- The instruction at a byte offset (R175). -/
def insAt (o : Bytes) (a : Nat) : NInstr :=
  { op := leAt o a 1, mod := leAt o (a + 1) 1, ra := leAt o (a + 2) 1, rb := leAt o (a + 3) 1, rc := leAt o (a + 4) 1
    rd := leAt o (a + 5) 1, flags := BitVec.ofNat 16 (leAt o (a + 6) 2), imm := BitVec.ofNat 64 (leAt o (a + 8) 8) }

/-! ## What an instruction uses (R175 to R199) -/

/-- What an operand field holds. -/
inductive FieldUse where
  | unused | reg | desc | ignored
  deriving DecidableEq, Repr

/-- The fields an instruction uses: how many MOD values it has (none: MOD is unused), its operand fields, the bits of
FLAGS and IMM it uses, a reserved field value used, a field value out of range (0x05), a minor-1 feature (0x06), cause
0x0A. -/
structure Usage where
  mods : Option (List Nat) := none
  a : FieldUse := .unused
  b : FieldUse := .unused
  c : FieldUse := .unused
  d : FieldUse := .unused
  flags : Nat := 0
  imm : Nat := 0
  rsv : Bool := false
  range : Bool := false
  minor1 : Bool := false
  bad : Bool := false
  deriving DecidableEq, Repr

/-- Low 64, 32 bits. -/
abbrev m64 : Nat := 0xFFFFFFFFFFFFFFFF
abbrev m32 : Nat := 0xFFFFFFFF

/-- The usage of an instruction; none for a reserved opcode (R176). -/
def usage (i : NInstr) : Option Usage :=
  let f := i.flags.toNat
  match i.op with
  | 0x01 => some { mods := some (List.range 18), a := .reg, b := .reg, c := if bitOf f 0 then .unused else .reg, flags := 1
                   imm := if bitOf f 0 then m64 else 0 }
  | 0x02 => some { a := .reg, imm := m64 }
  | 0x03 => some { mods := some (List.range 8), a := .reg, b := .reg, imm := m64 }
  | 0x04 => some { mods := some (List.range 4), a := .reg, b := .reg, imm := m64 }
  | 0x05 => some { mods := some (List.range 18), a := .reg }
  | 0x10 => some { a := .reg }
  | 0x11 => some {}
  | 0x12 => some { mods := some (List.range 10), a := .reg, b := .reg, imm := m32 }
  | 0x13 => some { imm := 0x7FFFF }
  | 0x14 => some { mods := some [0, 1], imm := if i.mod = 1 then m32 else 0, minor1 := i.mod == 1 }
  | 0x15 => some { mods := some (List.range 256), a := .reg, bad := i.mod == 0 || decide (5 < i.mod) }
  | 0x16 => some { a := .reg, b := .reg, c := .reg }
  | 0x17 => some { mods := some [0, 5], a := .reg, imm := m32, bad := i.imm.toNat % 2 ^ 32 == 0 }
  | 0x20 => some { mods := some (List.range 256), a := .reg, b := .reg, c := .reg, range := decide (3 < i.mod) }
  | 0x21 =>
    if i.mod ≤ 3 then
      let st := bitOf f 4
      some { mods := some (List.range 8), a := if st && i.mod == 1 then .unused else .reg
             b := if st && i.mod != 1 then .unused else .reg, c := .reg, flags := if st then 0x1F else 0x13 }
    else if i.mod ≤ 5 then some { mods := some (List.range 8), a := .desc, b := .desc, c := .reg, d := .reg, flags := 3 }
    else some { mods := some (List.range 8), a := .reg, b := .reg, c := .reg, d := .reg, flags := 3, minor1 := true }
  | 0x30 =>
    let mask := bitOf f 6
    some { mods := some [0, 1], a := .desc, b := .desc, c := .reg
           d := if bitOf f 2 then .ignored else if bitOf f 1 then .desc else .unused
           flags := 0x13F + (if mask then 0xC0 else 0)
           imm := 0xF * 2 ^ 38 + (if mask then 0x7FFFF else 0) + (if bitOf f 8 then 0x7FFFF * 2 ^ 19 else 0)
           range := decide (28 < i.rc), minor1 := bitsOf f 6 3 != 0 }
  | 0x31 => some { mods := some [0, 1], a := .desc, flags := 1, imm := 3 }
  | 0x32 => some { mods := some [0, 1], a := .desc, flags := 1, imm := 3 }
  | 0x33 =>
    let dual := bitOf f 0
    let k1 := bitsOf f 4 3
    let k2 := if dual then bitsOf f 7 3 else 0
    some { a := .desc, b := .desc, c := if dual then .desc else .unused, d := .reg, flags := if dual then 0x3FF else 0x7F
           imm := if dual then m64 else m32, rsv := bitsOf f 2 2 == 3, minor1 := bitOf f 1 || k1 != 0 || k2 != 0
           bad := decide (4 < k1) || decide (4 < k2) }
  | 0x34 => some { a := .desc, b := .desc }
  | 0x35 =>
    let two := decide (i.mod < 6)
    let im := two && bitOf f 0
    some { mods := some (List.range 14), a := .desc, b := .desc, c := if two && !im then .desc else .unused
           d := if i.mod = 3 then .desc else .unused, flags := if two then 1 else 0, imm := if im then m32 else 0 }
  | 0x36 => some { mods := some (List.range 7), a := .reg, b := .desc }
  | _ => none

/-- Reserved bits of a number set beside a mask. -/
def outside (v mask : Nat) : Bool := v &&& mask != v

/-- A field is reserved and nonzero. -/
def fieldRsv (u : FieldUse) (v : Nat) : Bool := u == .unused && v != 0

/-- A field is out of range. -/
def fieldBad (tdn : Nat) (u : FieldUse) (v : Nat) : Bool :=
  match u with
  | .reg => decide (31 < v)
  | .desc => decide (tdn ≤ v)
  | _ => false

/-- The cause of an instruction by itself, the lowest of 0x03 to 0x06 and 0x0A (R207). -/
def insCause (minor tdn : Nat) (i : NInstr) : Option Nat :=
  match usage i with
  | none => some 0x03
  | some u =>
    let modBad := match u.mods with
      | some l => !l.contains i.mod
      | none => false
    if modBad then some 0x03
    else if (u.mods.isNone && i.mod != 0) || u.rsv || outside i.flags.toNat u.flags || outside i.imm.toNat u.imm ||
        fieldRsv u.a i.ra || fieldRsv u.b i.rb || fieldRsv u.c i.rc || fieldRsv u.d i.rd then some 0x04
    else if fieldBad tdn u.a i.ra || fieldBad tdn u.b i.rb || fieldBad tdn u.c i.rc || fieldBad tdn u.d i.rd || u.range then
      some 0x05
    else if u.minor1 && minor == 0 then some 0x06
    else if u.bad then some 0x0A
    else none

/-! ## Loops and branches (R140, R142) -/

/-- Loop bodies, as (LOOP, ENDLOOP) indices, and the indices that break the nesting: open LOOPs, index, code. -/
def loopScan : List Nat → Nat → List NInstr → List (Nat × Nat) × List Nat
  | st, _, [] => ([], st)
  | st, k, i :: t =>
    if i.op = 0x10 then
      let r := loopScan (k :: st) (k + 1) t
      (r.1, if 4 ≤ st.length then k :: r.2 else r.2)
    else if i.op = 0x11 then
      match st with
      | [] => let r := loopScan [] (k + 1) t; (r.1, k :: r.2)
      | a :: st => let r := loopScan st (k + 1) t; ((a, k) :: r.1, r.2)
    else
      let r := loopScan st (k + 1) t
      (r.1, if i.op = 0x13 && !st.isEmpty then k :: r.2 else r.2)

/-- A branch at `k` leads into a loop body from outside it. -/
def intoBody (bodies : List (Nat × Nat)) (k target : Nat) : Bool :=
  bodies.any fun b => decide (b.1 < target) && decide (target ≤ b.2) && !(decide (b.1 < k) && decide (k < b.2))

/-- The lowest cause, of those that depend on other instructions, of the instruction at index `k` of an object (R207). -/
def codeCause (count : Nat) (bodies : List (Nat × Nat)) (broken : List Nat) (k : Nat) (i : NInstr) : Option Nat :=
  let target := i.imm.toNat % 2 ^ 32
  if broken.contains k || (i.op == 0x12 && intoBody bodies k target) then some 0x08
  else if i.op = 0x12 && decide (count ≤ target) then some 0x09
  else none

/-- The first failure of a list of instructions from index `k`. -/
def codeErr (f : Nat → NInstr → Option Nat) : Nat → List NInstr → Option XErr
  | _, [] => none
  | k, i :: t =>
    match f k i with
    | some c => some { cause := c, index := k }
    | none => codeErr f (k + 1) t

/-- Bytes of a native image: the entry table and the operations of each instruction (R181, R206). -/
def nativeBytes (ops : NInstr → Nat) (code : List NInstr) : Nat := 8 * (8 + (code.map ops).sum)

/-- The translation of an object (R202, R207), its checks in the order R207 gives. -/
def translate (ops : NInstr → Nat) (o : Bytes) : Except XErr Image :=
  if !magicOk o then .error { cause := 0x01 }
  else if !layoutOk o then .error { cause := 0x02 }
  else
    let td (i : Nat) : Bytes := sliceB o (oTdesc o + 64 * i) 64
    match (List.range (oTcount o)).find? fun i => (tdescCause (oMinor o) (td i)).isSome with
    | some i => .error { cause := (tdescCause (oMinor o) (td i)).getD 0x07, dindex := i }
    | none =>
      let entries := (List.range 8).map (oEntry o)
      if entries.head? = some 0xFFFF || entries.any fun e => e != 0xFFFF && decide (oCount o ≤ e) then .error { cause := 0x09 }
      else
        let code := (List.range (oCount o)).map fun i => insAt o (oCode o + 16 * i)
        let lp := loopScan [] 0 code
        -- the causes of single instructions first; 0x08 and 0x09 once the whole section has been read (log entry 130)
        match codeErr (fun _ => insCause (oMinor o) (oTcount o)) 0 code <|> codeErr (codeCause (oCount o) lp.1 lp.2) 0 code with
        | some e => .error e
        | none =>
          if 32768 < nativeBytes ops code then .error { cause := 0x0B }
          else .ok { code := code, entries := entries, tdescBase := oTbase o, tdesc := sliceB o (oTdesc o) (64 * oTcount o)
                     constBase := oCbase o, consts := sliceB o (oConst o) (oClen o) }

/-- The translation report (R206): header and, on success, the line map. NATIVE_BYTES of a failed translation is 0
(log entry 12). -/
def xlateReport (ver : Nat) (ops : NInstr → Nat) (o : Bytes) (hash : BitVec 256) (cached : Bool) (r : Except XErr Image) : Bytes :=
  let e : XErr := match r with
    | .ok _ => { cause := 0 }
    | .error e => e
  let code := match r with
    | .ok i => i.code
    | .error _ => []
  let ok := e.cause == 0
  leBytes 1 (if ok then 0 else 0x14) ++ leBytes 1 e.cause ++ leBytes 2 ver ++ leBytes 4 e.index ++
  leBytes 4 (if ok then nativeBytes ops code else 0) ++ leBytes 4 (oCount o) ++ hashBytes hash ++ leBytes 1 (b2n cached) ++
  [0] ++ leBytes 2 e.dindex ++ zeros 12 ++
  ((List.range code.length).map fun i => leBytes 2 (8 + ((code.take i).map ops).sum)).flatten

/-! ## LOAD_PROGRAM at acceptance (R150, R203, R204, R259) -/

/-- The bank a load resolves to on a core (R150): BANK, or the inactive one for SHADOW. -/
def loadBank (bank : Nat) (k : Core) : Nat := if bank < 2 then bank else 1 - k.active

/-- A partition has a group of a number (R478). -/
def hasGroup (p : Part) (g : Nat) : Bool := p.groups.any fun e => e.num == g

/-- A load starts: its acceptance has done all that comes before LOAD_PROGRAM_DONE. -/
def loadStart (d : Desc) (s : State) : State := setPhase d.id .started s

/-- The acceptance of a LOAD_PROGRAM (R204), in table order: its banks are resolved and LOAD_PENDING set then (R150), whenever it starts. -/
def loadAccept (d : Desc) (s : State) : State :=
  let p := getPart s d.fn
  let fl := d.at 21 1
  let len := d.at 32 4
  let a := d.at 24 8
  let cores := groupCores p (d.at 16 2)
  let running (c : Nat) : Bool := (getCore s c).run == .running
  if bitsOf fl 3 5 != 0 || !zeroAt d.bytes [(22, 2), (48, 16)] || decide (2 < d.at 20 1) || !hasGroup p (d.at 16 2) then
    refuseDesc d.id .descMalformed s
  else if len = 0 then finishDesc d.id .ok s
  else if decide (1048576 < len) || a % 8 != 0 || (decide (1 ≤ d.at 36 4) && decide (d.at 36 4 ≤ 63)) ||
      (bitOf fl 0 && gNode a == nodeId s && !rangeReadOk s d.fn a len) then refuseDesc d.id .descBounds s
  else if cores.any fun c => running c && loadBank (d.at 20 1) (getCore s c) == (getCore s c).active then
    refuseDesc d.id .imemBusy s
  else if bitOf fl 1 && cores.any running then refuseDesc d.id .descMalformed s
  else
    let s := cores.foldl (fun s c =>
      updCore c (fun k => { k with loads := k.loads ++ [(d.id, loadBank (d.at 20 1) k)] }) s) s
    acceptThen d loadStart { s with ldr := { s.ldr with queue := s.ldr.queue ++ [d.id] } }

/-- LOAD_PROGRAM: checked at acceptance; while a step of its partition is open it waits (R259). -/
def execLoadProgram (id : Nat) (s : State) : Result :=
  match atAcceptance s id 0x01 with
  | some d => if (openStep s d.fn).isSome then .next s else .next (loadAccept d s)
  | none => .next s

/-! ## LOAD_PROGRAM_DONE (R205, R208) -/

/-- An earlier load still targets the same bank of the same core (R204). -/
def loadBlocked (s : State) (id : Nat) : Bool :=
  s.cores.any fun c =>
    let l := c.2.loads
    match l.find? fun e => e.1 == id with
    | some e => (l.takeWhile fun e => e.1 != id).any fun o => o.2 == e.2
    | none => false

/-- Hashes that the valid banks of some cores hold. -/
def bankHashes (s : State) (cores : List Nat) : List (BitVec 256) :=
  (cores.map fun c => ([(getCore s c).bank0, (getCore s c).bank1].filter Bank.valid).map Bank.hash).flatten.eraseDups

/-- A partition pins the data images of 32 other objects (R205, R208). -/
def pinsFull (s : State) (n : Nat) (hash : BitVec 256) : Bool :=
  decide (32 ≤ ((bankHashes s (partCores s n)).filter fun h => h != hash && s.ldr.datas.any fun d => d.hash == h).length)

/-- A store within its limit: the least recently used image that is not pinned is evicted (R208). -/
def evictLru {α : Type} [DecidableEq α] (cap : Nat) (pinned : α → Bool) (used : α → Nat) (l : List α) : List α :=
  if l.length ≤ cap then l
  else match findMin used (l.filter fun a => !pinned a) with
    | some a => l.erase a
    | none => l

/-- A native image is put into the cache, or used again. -/
def cacheNative (i : NativeImage) (s : State) : State :=
  let held := bankHashes s allCores
  let t := s.ldr.tick + 1
  let l := { i with used := t } :: s.ldr.natives.filter fun o => !(o.hash == i.hash && o.loader == i.loader)
  { s with ldr := { s.ldr with tick := t, natives := evictLru 6144 (fun o => o.hash == i.hash || held.contains o.hash) NativeImage.used l } }

/-- A data image is put into the cache, or used again. -/
def cacheData (i : DataImage) (s : State) : State :=
  let held := bankHashes s allCores
  let t := s.ldr.tick + 1
  let l := { i with used := t } :: s.ldr.datas.filter fun o => o.hash != i.hash
  { s with ldr := { s.ldr with tick := t, datas := evictLru 256 (fun o => o.hash == i.hash || held.contains o.hash) DataImage.used l } }

/-- A load ends: LOAD_PENDING is cleared and its descriptor ends. -/
def loadEnd (id : Nat) (st : Status) (s : State) : State :=
  let s := updCores (fun k => { k with loads := k.loads.filter fun l => l.1 != id }) s
  finishDesc id st { s with ldr := { s.ldr with queue := s.ldr.queue.filter fun i => i != id } }

/-- The load's bank on a core is written (R149), and with INIT_DATA the data image (R205). -/
def loadCore (d : Desc) (hash : BitVec 256) (i : Image) (data : Option DataImage) (s : State) (c : Nat) : State :=
  match (getCore s c).loads.find? fun l => l.1 == d.id with
  | some l =>
    let t := s.ldr.tick + 1
    let b : Bank := { valid := true, gen := BitVec.ofNat 16 (d.at 18 2), code := i.code, entries := i.entries
                      tbase := i.tdescBase, hash := hash, order := t }
    updCore c (fun k =>
      let k := setBank k l.2 b
      match data with
      | some m => writeImage k m
      | none => k) { s with ldr := { s.ldr with tick := t } }
  | none => s

/-- The object of a load: read from this device's memory, or what the host or the other node has answered. -/
def loadObject (d : Desc) (object : HostRead) (s : State) : HostRead × State :=
  let a := d.at 24 8
  let len := d.at 32 4
  let given : HostRead := match object with
    | .data b => .data (sliceB b 0 len)
    | .failed => .failed
  if bitOf (d.at 21 1) 0 && gNode a == nodeId s then
    match rangeRead d.fn 0 a (rangePieces a len) s with
    | (some b, s) => (.data b, s)
    | (none, s) => (given, s)
  else (given, s)

/-- The status with which a load whose object could not be read ends (R205, R462). -/
def loadFailed (d : Desc) (s : State) : State :=
  if bitOf (d.at 21 1) 0 then loadEnd d.id .remoteUnreachable s
  else loadEnd d.id .internalError (notice d.fn 6 s)

/-- Steps 1 to 6 of R205. -/
def loadRun (d : Desc) (o : Bytes) (s : State) : State :=
  let hash := sha256 o
  let fl := d.at 21 1
  if bitOf fl 1 && pinsFull s d.fn hash then loadEnd d.id .descBounds s
  else
    let ver := loaderVer s
    let old := if bitOf fl 2 then none else s.ldr.natives.find? fun n => n.hash == hash && n.loader == ver && !n.damaged
    let r := translate (opsOf s) o
    let rep := (xlateReport ver (opsOf s) o hash old.isSome r).take (d.at 36 4)
    let s := if d.at 40 8 = 0 then s else emit (.hostWrite d.fn (BitVec.ofNat 64 (d.at 40 8)) rep) s
    match r with
    | .error _ => loadEnd d.id .xlateFailed s
    | .ok i =>
      let data : Option DataImage :=
        if bitOf fl 1 then
          some { hash := hash, tdescBase := i.tdescBase, tdesc := i.tdesc, constBase := i.constBase, consts := i.consts, used := 0 }
        else none
      let s := cacheNative { hash := hash, loader := ver, code := i.code, entries := i.entries, tbase := i.tdescBase, used := 0 } s
      let s := (s.cores.map Prod.fst).foldl (loadCore d hash i data) s
      let s := match data with
        | some m => cacheData m s
        | none => s
      loadEnd d.id .ok s

/-- LOAD_PROGRAM_DONE: the oldest load of its banks is carried out. -/
def execLoadProgramDone (dt id : Nat) (object : HostRead) (s : State) : Result :=
  match findDesc s id with
  | some d =>
    if s.ldr.queue.contains id && d.phase == .started && !loadBlocked s id then
      let r := loadObject d object (pass dt s)
      match r.1 with
      | .data b => .next (loadRun d b r.2)
      | .failed => .next (loadFailed d r.2)
    else .next s
  | none => .next s

/-! ## START_STREAM (R155, R156, R259) -/

/-- The status with which a START_STREAM is refused (R155), in table order. -/
def streamCheck (s : State) (d : Desc) : Option Status :=
  let p := getPart s d.fn
  let cores := groupCores p (d.at 16 2)
  let gen := BitVec.ofNat 16 (d.at 18 2)
  let has (b : Bank) : Bool := b.valid && b.gen == gen
  if !hasGroup p (d.at 16 2) then some .descMalformed
  else if cores.any fun c => (getCore s c).run == .running || (getCore s c).run == .faulted then some .descMalformed
  else if cores.any fun c => !(has (getCore s c).bank0 || has (getCore s c).bank1) then some .descMalformed
  else if d.at 20 4 % 8 != 0 || decide (32768 ≤ d.at 20 4) then some .descBounds
  else if !zeroAt d.bytes [(24, 8)] then some .descMalformed
  else none

/-- A START_STREAM starts at its not-before time: outside a step at once; one that Slipway holds in the running attempt,
after an earlier held stream of its group (R155, R259, R261). -/
def streamStart (d : Desc) (s : State) : State :=
  match openStep s d.fn with
  | none => if emptyStream s d then finishDesc d.id .ok s else startStreamNow d (setPhase d.id .started s)
  | some t =>
    if !t.streams.contains d.id then
      if emptyStream s d then finishDesc d.id .ok s else startStreamNow d (setPhase d.id .started s)
    else
    let s := setPhase d.id .held s
    if emptyStream s d then updStep d.fn (fun t => { t with ended := t.ended ++ [d.id] }) s else
    match nextHeld s d.fn (d.at 16 2) with
    | some e => if e.id = d.id && t.phase == .running then startStreamNow d s else s
    | none => s

/-- START_STREAM: checked at acceptance; while a step is open Slipway holds it, up to 64 of them (R155, R259). -/
def execStartStream (id : Nat) (s : State) : Result :=
  match atAcceptance s id 0x02 with
  | some d =>
    match streamCheck s d with
    | some st => .next (refuseDesc id st s)
    | none =>
      match openStep s d.fn with
      | none => .next (acceptThen d streamStart s)
      | some t =>
        if 64 ≤ t.streams.length then .next (finishDesc id .descBounds s)
        else .next (acceptThen d streamStart (updStep d.fn (fun t => { t with streams := t.streams ++ [id] }) s))
  | none => .next s

end Sys2Proof.Machine
end

