-- ==== Sys2Proof/Machine/Descriptors.lean ====
section
/-!
DEFINITION. Descriptors (15): fetch and the checks of R458, the journal (R464 to R468), COPY, FILL and FENCE (R460 to
R463), SYNC_SIGNAL and SYNC_WAIT (R347 to R349).
-/
namespace Sys2Proof.Machine

/-! ## Rings (R450 to R452, R475) -/

/-- A ring. -/
def getRing (s : State) (r : Nat) : Ring := s.rings.get {} r

/-- A ring changed. -/
def updRing (r : Nat) (f : Ring → Ring) (s : State) : State := { s with rings := Tbl.upd {} s.rings r f }

/-- The function that owns a ring (R450): 0 for PF0. -/
def ringOwner (s : State) (r : Nat) : Nat :=
  (partNums.find? fun n => decide ((getPart s n).rbase ≤ r) && decide (r < (getPart s n).rbase + (getPart s n).rcount)).getD 0

/-- Entries of a ring. -/
def ringSize (g : Ring) : Nat := 2 ^ g.log2

/-- Descriptors of a ring in flight since its last enable or reset. -/
def ringFlight (s : State) (r : Nat) : Nat :=
  (s.descs.filter fun d => d.ring == r && d.generation == (getRing s r).generation).length

/-- The device may fetch a descriptor of a ring (R452, R472): it runs, its queue is not empty, a completion slot is free,
fewer than 256 are in flight, and its function's requests leave the device; not during PF0's reset (R444). -/
def mayFetch (s : State) (r : Nat) : Bool :=
  let g := getRing s r
  let fl := ringFlight s r
  g.state == .running && g.sqHead != g.sqTail && decide (fl < 256) &&
  decide (fl + (g.cqTail + ringSize g - g.cqHead) % ringSize g < ringSize g - 1) &&
  hostReach s (ringOwner s r) && !(ringOwner s r == 0 && s.flrPf0.isSome)

/-! ## The journal (R464 to R468) -/

/-- The bytes that a completion entry and a journal entry share (R464). -/
def entryBytes (e : JEntry) (sqHead : Nat) (phase : Bool) : Bytes :=
  leBytes 8 e.jseq.toNat ++ leBytes 2 e.ring ++ leBytes 1 e.opcode ++ leBytes 1 e.status ++ leBytes 4 e.tag.toNat ++
  leBytes 6 e.tAccept.toNat ++ leBytes 6 e.tDone.toNat ++ leBytes 2 sqHead ++ leBytes 1 (b2n phase) ++ [0]

/-- JLOG2 of a function. -/
def jlog (s : State) (fn : Nat) : Nat := bitsOf (regN s (hif fn 0x18)) 8 5

/-- A journal entry reaches the host journal ring when JEN is set (R468). -/
def journalHost (e : JEntry) (s : State) : State :=
  if bitOf (regN s (hif e.fn 0x18)) 0 then
    let a := reg64 s (hif e.fn 0x10) + 32 * (e.jseq.toNat % 2 ^ jlog s e.fn)
    emit (.hostWrite e.fn (BitVec.ofNat 64 a) (entryBytes e 0 false)) s
  else s

/-- The journal entry of a descriptor with a status and a completion time. -/
def journalEntry (d : Desc) (status : Nat) (done : BitVec 48) : JEntry :=
  { fn := d.fn, jseq := d.jseq, ring := d.ring, opcode := d.opcode, status := status, tag := d.tag
    tAccept := d.accepted.setWidth 48, tDone := done }

/-- The entry at completion: in the SRAM while it is still held there, in the host ring while nothing newer took its
place (R466, R468). -/
def journalDone (d : Desc) (e : JEntry) (s : State) : State :=
  let slot := d.id % 4096
  let s := match s.journal.get none slot with
    | some o => if o.fn = d.fn && o.jseq == d.jseq then { s with journal := Tbl.set none s.journal slot (some e) } else s
    | none => s
  if (s.funcs.get {} d.fn).jseq.toNat < d.jseq.toNat + 2 ^ jlog s d.fn then journalHost e s else s

/-! ## Fetch and the checks of R458 -/

/-- Opcodes of R459 that only VFn of a started partition may submit. -/
def startedOps : List Nat := [0x01, 0x02, 0x10, 0x11, 0x18, 0x20, 0x21, 0x28, 0x29, 0x2A, 0x2B, 0x2C, 0x30]

/-- Every opcode of R459. -/
def knownOps : List Nat := startedOps ++ [0x08, 0x09, 0x0A, 0x38, 0x39, 0x3A]

/-- A function may submit a descriptor (R459): PF0 what names PF0; VFn its own, COPY and FILL with a quota. -/
def mayOpcode (s : State) (fn : Nat) (b : Bytes) : Bool :=
  let op := leAt b 0 1
  if op = 0x0A then true
  else if fn = 0 then [0x08, 0x09, 0x38, 0x39, 0x3A].contains op
  else if op = 0x38 then false
  else if op = 0x39 || op = 0x3A then leAt b 16 1 == fn
  else if op = 0x08 || op = 0x09 then (getPart s fn).qlen != 0
  else true

/-- The status with which R458 refuses a descriptor, in table order. -/
def fetchCheck (s : State) (fn : Nat) (b : Bytes) : Option Status :=
  let h := leAt b 0 16
  if s.rst.isSome || s.fer.trip.isSome then some .deviceResetting
  else if bitsOf h 16 8 != 1 || !knownOps.contains (leAt b 0 1) || bitsOf h 11 5 != 0 || bitsOf h 24 8 != 0 ||
      bitsOf h 112 16 != 0 then some .descMalformed
  else if !mayOpcode s fn b then some .descNotPermitted
  else if fn != 0 && startedOps.contains (leAt b 0 1) && !isStarted s fn then some .partStopped
  else none

/-- One descriptor is read, numbered and given its journal entry (R465, R466). -/
def fetchOne (r : Nat) (b : Bytes) (s : State) : State :=
  let g := getRing s r
  let fn := ringOwner s r
  let f := s.funcs.get {} fn
  let d : Desc := { id := s.accepts, fn := fn, ring := r, generation := g.generation, jseq := f.jseq, bytes := b, accepted := s.now }
  let e := journalEntry d 0 0
  let s := updRing r (fun g => { g with sqHead := (g.sqHead + 1) % ringSize g })
    { s with accepts := s.accepts + 1, descs := s.descs ++ [d], journal := Tbl.set none s.journal (d.id % 4096) (some e)
             funcs := Tbl.set {} s.funcs fn { f with jseq := f.jseq + 1 } }
  let s := journalHost e s
  match fetchCheck s fn b with
  | some st => refuseDesc d.id st s
  | none => s

/-- Descriptors of a batch, as many as the ring allows. -/
def fetchAll (r : Nat) : List Bytes → State → State
  | [], s => s
  | b :: t, s => if mayFetch s r then fetchAll r t (fetchOne r b s) else s

/-- DESCRIPTOR_FETCH: a batch of at most 4,096 bytes that the device has read from a submission queue (R453). -/
def execDescriptorFetch (dt ring : Nat) (bytes : Bytes) (s : State) : Result :=
  let s' := pass dt s
  if mayFetch s' ring && 64 ≤ bytes.length && bytes.length ≤ 4096 then
    .next (fetchAll ring (chunks 64 (bytes.length / 64) bytes) s')
  else .next s

/-! ## COPY and FILL (R460 to R462) -/

/-- The partition that an access of a function to a local address serves (R447, R460): its own, or for PF0 the one whose
quota holds the address. -/
def servedPart (s : State) (fn a : Nat) : Nat := if fn = 0 then partOfAddr s a else fn

/-- A range of this node that a function's descriptor may read or write. PF0's range is checked piece by piece. -/
def descRangeOk (s : State) (fn a len : Nat) (write : Bool) : Bool :=
  if fn = 0 then
    !gRsv a && !gStash a && (rangePieces (gLocal a) len).all fun p =>
      quotaOk s (partOfAddr s (gLocal a + p.1)) (gLocal a + p.1) p.2 write
  else if write then rangeWriteOk s fn a len else rangeReadOk s fn a len

/-- Fields of COPY (R460). -/
def cpSrc (d : Desc) : Nat := d.at 16 8
def cpDst (d : Desc) : Nat := d.at 24 8
def cpLen (d : Desc) : Nat := d.at 32 8
def cpSrcHost (d : Desc) : Bool := bitOf (d.at 40 1) 0
def cpDstHost (d : Desc) : Bool := bitOf (d.at 40 1) 1
def cpHint (d : Desc) : Nat := bitsOf (d.at 40 1) 2 2

/-- One piece of at most 256 bytes reaches its destination for a descriptor; a piece sent to another node is counted as
waiting. An own range that is refused ends the operation as an unreachable destination (R200). -/
def putPiece (d : Desc) (host : Bool) (hint dst : Nat) (b : Bytes) (s : State) : State :=
  let wait (s : State) : State := updDesc d.id (fun d => { d with waiting := d.waiting + 1 }) s
  let far (node a : Nat) (o : Origin) (s : State) : State :=
    sendReq d.fn { type := 0x02, vc := 0, node := node, flow := flowOf (a % 2 ^ 41) node, addr := a, hint := hint, data := b } o 0 (wait s)
  if host then emit (.hostWrite d.fn (BitVec.ofNat 64 dst) b) s
  else if gNode dst = nodeId s then
    let r := writePlace (servedPart s d.fn (gLocal dst)) dst b.length s
    match r.1 with
    | .here h => memPut (servedPart s d.fn (gLocal dst)) 0 hint h b r.2
    | .there h => far (poolNode s d.fn) h (.stash d.fn (stashSlot (gLocal dst)) (stashEntry (gLocal dst)) (.desc d.id)) r.2
    | .discard => r.2
    | _ => finishDesc d.id .remoteUnreachable r.2
  else far (gNode dst) (dst % 2 ^ 48) (.desc d.id) (dropPage d.fn dst s)

/-- A COPY or FILL that has moved its bytes completes when nothing it sent is open and its bucket has paid (R303). -/
def finishIfDone (id : Nat) (s : State) : State :=
  match findDesc s id with
  | some d =>
    if d.phase == .started && d.waiting == 0 && d.got.isEmpty && !bucketOwes s d.fn 0 then finishDesc id .ok s else s
  | none => s

/-- Data of remote reads goes on to the COPY's destination. -/
def copyForward (id : Nat) (s : State) : State :=
  match findDesc s id with
  | some d =>
    if d.got.isEmpty then s
    else
      let s := updDesc id (fun d => { d with got := [], waiting := d.waiting - d.got.length }) s
      if d.live then finishIfDone id (d.got.foldl (fun s g => putPiece d (cpDstHost d) (cpHint d) g.1 g.2 s) s) else s
  | none => s

/-- One piece of a COPY: offset and length; `data` is the host's when the source is the host. -/
def copyPiece (d : Desc) (data : Bytes) (s : State) (p : Nat × Nat) : State :=
  let a := cpSrc d + p.1
  let dst := cpDst d + p.1
  let put (b : Bytes) (s : State) : State := putPiece d (cpDstHost d) (cpHint d) dst b s
  let far (node addr : Nat) (s : State) : State :=
    sendReq d.fn { type := 0x01, vc := 1, node := node, flow := flowOf (addr % 2 ^ 41) node, addr := addr, hint := cpHint d, tspec := p.2 }
      (.desc d.id) dst (updDesc d.id (fun d => { d with waiting := d.waiting + 1 }) s)
  if cpSrcHost d then put (sliceB data p.1 p.2) s
  else if gNode a = nodeId s then
    let n := servedPart s d.fn (gLocal a)
    match readPlace s n a p.2 with
    | .here h => let r := memGet n 0 (cpHint d) h p.2 s; put r.1 r.2
    | .there h => far (poolNode s n) h s
    | .bytes b => put b s
    | .unspecified => let r := drawBytes p.2 s; put r.1 r.2
    | _ => finishDesc d.id .remoteUnreachable s
  else if gRm a && !gRsv a && !gStash a then
    match rpcFrame (getPart s d.fn) (rpcPage (gNode a) (gLocal a)) with
    | some f => let r := rpcServe d.fn 0 (cpHint d) f (gLocal a) p.2 s; put r.1 r.2
    | none => far (gNode a) (a % 2 ^ 48) (rpcWant d.fn (gNode a) (gLocal a) s)
  else far (gNode a) (a % 2 ^ 48) s

/-- Pieces of a COPY: none crosses a 256-byte boundary of either address. -/
def copyPieces (d : Desc) : List (Nat × Nat) :=
  ((rangePieces (cpDst d) (cpLen d)).map fun p =>
    (pieces256 3 (cpSrc d + p.1) 0 p.2).map fun q => (p.1 + q.1, q.2)).flatten

/-- A COPY moves its bytes. -/
def copyMove (d : Desc) (host : HostRead) (s : State) : State :=
  match cpSrcHost d, host with
  | true, .failed => finishDesc d.id .internalError (notice d.fn 6 s)
  | _, h =>
    let data := match h with
      | .data b => b
      | .failed => []
    let s := setPhase d.id .started (updDesc d.id (fun d => { d with aux := 0 }) s)
    finishIfDone d.id ((copyPieces d).foldl (copyPiece d data) s)

/-- The status with which a COPY is refused (R462); OK for one of no length. -/
def copyCheck (s : State) (d : Desc) : Option Status :=
  let foreign (host : Bool) (a : Nat) : Bool := !host && d.fn == 0 && gNode a != nodeId s
  let own (host : Bool) (a : Nat) : Bool := !host && gNode a == nodeId s
  if bitsOf (d.at 40 1) 4 4 != 0 || !zeroAt d.bytes [(41, 23)] || (cpSrcHost d && cpDstHost d) ||
      foreign (cpSrcHost d) (cpSrc d) || foreign (cpDstHost d) (cpDst d) then some .descMalformed
  else if cpLen d = 0 then some .ok
  else if 2 ^ 40 < cpLen d then some .descBounds
  else if (own (cpSrcHost d) (cpSrc d) && !descRangeOk s d.fn (cpSrc d) (cpLen d) false) ||
      (own (cpDstHost d) (cpDst d) && !descRangeOk s d.fn (cpDst d) (cpLen d) true) then some .descBounds
  else none

/-- A COPY at its not-before time: it is started and COPY moves its bytes. -/
def copyReady (d : Desc) (s : State) : State := setPhase d.id .started (updDesc d.id (fun d => { d with aux := 1 }) s)

/-- A descriptor checked: refused, completed at once, or accepted. -/
def checked (d : Desc) (c : Option Status) (go : State → State) (s : State) : State :=
  match c with
  | some .ok => finishDesc d.id .ok s
  | some st => refuseDesc d.id st s
  | none => go s

/-- COPY: checked at acceptance; its bytes move when it starts (R460, R462). A function whose requests are held (R472) moves
nothing. `host` is what a host source answered. -/
def execCopy (id : Nat) (host : HostRead) (s : State) : Result :=
  match findDesc s id with
  | some d =>
    if !hostReach s d.fn then .next s
    else if d.opcode == 0x08 && d.phase == .started && d.aux == 1 then .next (copyMove d host s)
    else match atAcceptance s id 0x08 with
      | some d => .next (checked d (copyCheck s d) (acceptThen d (fun d s => copyMove d host s)) s)
      | none => .next s
  | none => .next s

/-- Fields of FILL (R461). -/
def flDst (d : Desc) : Nat := d.at 16 8
def flLen (d : Desc) : Nat := d.at 24 8

/-- The status with which a FILL is refused (R461, R462). -/
def fillCheck (s : State) (d : Desc) : Option Status :=
  if bitsOf (d.at 36 1) 2 6 != 0 || !zeroAt d.bytes [(37, 27)] || flLen d % 4 != 0 || flDst d % 4 != 0 ||
      (d.fn == 0 && gNode (flDst d) != nodeId s) then some .descMalformed
  else if flLen d = 0 then some .ok
  else if 2 ^ 40 < flLen d then some .descBounds
  else if gNode (flDst d) == nodeId s && !descRangeOk s d.fn (flDst d) (flLen d) true then some .descBounds
  else none

/-- A FILL writes its pattern into every aligned word of the range (R461). -/
def fillStart (d : Desc) (s : State) : State :=
  let word := leBytes 4 (d.at 32 4)
  let s := setPhase d.id .started s
  finishIfDone d.id ((rangePieces (flDst d) (flLen d)).foldl (fun s p =>
    putPiece d false (bitsOf (d.at 36 1) 0 2) (flDst d + p.1) (List.replicate (p.2 / 4) word).flatten s) s)

/-- FILL. -/
def execFill (id : Nat) (s : State) : Result :=
  match atAcceptance s id 0x09 with
  | some d => .next (checked d (fillCheck s d) (acceptThen d fillStart) s)
  | none => .next s

/-! ## FENCE (R463) -/

/-- What a FENCE waits for is all complete: earlier descriptors of its ring, or with ALL of its function. -/
def fenceMet (s : State) (d : Desc) : Bool :=
  let all := bitOf (d.at 16 1) 0
  !(s.descs.any fun e => decide (e.id < d.id) && e.fn == d.fn && (all || e.ring == d.ring))

/-- A FENCE starts. -/
def fenceStart (d : Desc) (s : State) : State :=
  let s := setPhase d.id .started s
  if fenceMet s d then finishDesc d.id .ok s else s

/-- FENCE: a nonzero reserved bit of its body refuses it (DEDUCED, log entry 14). -/
def execFence (id : Nat) (s : State) : Result :=
  match atAcceptance s id 0x0A with
  | some d =>
    let c : Option Status := if bitsOf (d.at 16 1) 1 7 != 0 || !zeroAt d.bytes [(17, 47)] then some .descMalformed else none
    .next (checked d c (acceptThen d fenceStart) s)
  | none => .next s

/-- Every started FENCE whose condition now holds completes. -/
def fencesMet (s : State) : State :=
  (s.descs.filter fun d => d.opcode == 0x0A && d.phase == .started && fenceMet s d).foldl (fun s d => finishDesc d.id .ok s) s

/-! ## SYNC_SIGNAL and SYNC_WAIT (R347 to R349) -/

/-- Reserved bits of a COUNTER field (R183). -/
def counterRsv (r : Nat) : Bool := bitsOf r 14 2 != 0 || bitsOf r 17 31 != 0

/-- A local INDEX outside the partition's range; a reference with REMOTE set is checked where it arrives (R345, R369). -/
def counterOut (s : State) (d : Desc) : Bool :=
  let r : DWord := BitVec.ofNat 64 (d.at 16 8)
  !bitOf r.toNat 16 && decide ((getPart s d.fn).pcount ≤ refIndex r)

/-- The signal of a SYNC_SIGNAL is sent (R333, R347). -/
def signalStart (d : Desc) (s : State) : State :=
  let r : DWord := BitVec.ofNat 64 (d.at 16 8)
  let s := setPhase d.id .started s
  if refRemote s r then sendSignal d.fn (hostSigId d.id) (refNode r) (refIndex r) (d.at 24 4) [] (.desc d.id) s
  else postSignal { part := d.fn, index := refIndex r, inc := d.at 24 4, origin := .desc d.id, far := bitOf r.toNat 16 } s

/-- SYNC_SIGNAL. -/
def execSyncSignal (id : Nat) (s : State) : Result :=
  match atAcceptance s id 0x10 with
  | some d =>
    let c : Option Status :=
      if counterRsv (d.at 16 8) || !zeroAt d.bytes [(28, 36)] then some .descMalformed
      else if d.at 24 4 = 0 then some .ok
      else if counterOut s d then some .descBounds
      else none
    .next (checked d c (acceptThen d signalStart) s)
  | none => .next s

/-- The wait of a SYNC_WAIT is requested. -/
def waitStart (d : Desc) (s : State) : State :=
  let r : DWord := BitVec.ofNat 64 (d.at 16 8)
  let exp : DWord := BitVec.ofNat 64 (d.at 24 8)
  let dl : BitVec 48 := BitVec.ofNat 48 (d.at 32 6)
  let s := setPhase d.id .started s
  if refRemote s r then sendWait d.fn (refNode r) (refIndex r) exp dl false (.desc d.id) s
  else postWait { part := d.fn, issuer := d.fn, index := refIndex r, expected := exp, deadline := dl, origin := .desc d.id
                  far := bitOf r.toNat 16 } s

/-- SYNC_WAIT. -/
def execSyncWait (id : Nat) (s : State) : Result :=
  match atAcceptance s id 0x11 with
  | some d =>
    let c : Option Status :=
      if counterRsv (d.at 16 8) || !zeroAt d.bytes [(38, 2), (40, 24)] then some .descMalformed
      else if counterOut s d then some .descBounds
      else none
    .next (checked d c (acceptThen d waitStart) s)
  | none => .next s

/-! ## Completion (R455, R465, R469) -/

/-- A function's host-interface state is reset (R444): MSI-X table, registers and the rings it owns. -/
def resetRing (r : Nat) (s : State) : State :=
  let g := (getRing s r).generation
  { s with rings := Tbl.set {} s.rings r { generation := g + 1 } }

/-- The rings that differ from an untouched one. -/
def usedRings (s : State) : List Nat := s.rings.map Prod.fst

def resetFunc (fn : Nat) (s : State) : State :=
  let own := (usedRings s).filter fun r => ringOwner s r == fn
  let s := own.foldl (fun s r => resetRing r s) s
  { s with funcs := Tbl.upd {} s.funcs fn (fun f => { f with msix := [], pba := [] })
           regs := s.regs.filter fun e => !(decide (hif fn 0 ≤ e.1) && decide (e.1 < hif fn 0 + 2 ^ 24))
           latches := s.latches.filter fun e => !(decide (hif fn 0 ≤ e.1) && decide (e.1 < hif fn 0 + 2 ^ 24)) }

/-- A reset of PF0 that waited for its descriptors ends (R444). -/
def flrPf0Ends (s : State) : State :=
  if s.flrPf0.isSome && !(s.descs.any fun d => d.fn == 0) then resetFunc 0 { s with flrPf0 := none } else s

/-- The ring's vector is signalled for its pending completions (R469). -/
def ringSignal (r : Nat) (s : State) : State :=
  signalVector (ringOwner s r) (getRing s r).vector (updRing r (fun g => { g with coalPending := 0 }) s)

/-- A completion with IRQ set is counted for coalescing (R469). -/
def coalesce (r : Nat) (s : State) : State :=
  let s := updRing r (fun g =>
    { g with coalPending := g.coalPending + 1, coalSince := if g.coalPending = 0 then s.clock else g.coalSince }) s
  let g := getRing s r
  if g.coalCount = 0 || g.coalCount ≤ g.coalPending then ringSignal r s else s

/-- Everything a descriptor's operation wrote has been acknowledged (R455 step 1). -/
def writesDone (s : State) (d : Desc) : Bool := openRequests s (fun o => o == .desc d.id) == 0

/-- Steps 2 to 4 of R455 for a descriptor that has ended with a status; further completing codes are recorded (R13). -/
def completeDesc (d : Desc) (st : Status) (s : State) : State :=
  let t : BitVec 48 := if d.refused then d.accepted.setWidth 48 else if now48 s = 0 then 1 else now48 s
  let e := journalEntry d (statusNum st) t
  let extra := if statusCompletes st then d.codes.filter fun c => c != st else []
  let s := extra.foldl (fun s c =>
    postEvent { kind := 0x22, status := statusNum c, part := d.fn, detail := d.jseq.toNat } s) s
  let s := journalDone d e { s with descs := s.descs.filter fun o => o.id != d.id }
  let g := getRing s d.ring
  let s := if g.generation = d.generation then
      let a := g.cqBase.toNat + 32 * g.cqTail
      let s := emit (.hostWrite d.fn (BitVec.ofNat 64 a) (entryBytes e g.sqHead g.phase)) s
      let s := updRing d.ring (fun g =>
        { g with cqTail := (g.cqTail + 1) % ringSize g, phase := if g.cqTail + 1 = ringSize g then !g.phase else g.phase }) s
      if d.irq then coalesce d.ring s else s
    else noticeRing d.fn 2 d.ring s
  flrPf0Ends (fencesMet s)

/-- DESCRIPTOR_COMPLETE: a descriptor that has ended is reported, once its writes are acknowledged (R455). -/
def execDescriptorComplete (dt id : Nat) (s : State) : Result :=
  match findDesc s id with
  | some d =>
    match d.phase with
    | .done st => if writesDone s d && hostReach s d.fn then .next (completeDesc d st (pass dt s)) else .next s
    | _ => .next s
  | none => .next s

end Sys2Proof.Machine
end

