-- ==== Sys2Proof/Machine/Partitions.lean ====
section
/-!
DEFINITION. Partitions (16): CONFIG_PARTITION (R477 to R480), START_PARTITION (R481 with R258, R289, R316, R375, R417),
STOP_PARTITION and the drain (R482 to R484), the partition reset (R486, R487).
-/
namespace Sys2Proof.Machine

/-! ## CONFIG_PARTITION -/

/-- A rectangle from its 4 bytes (R477). -/
def rectOf (v : Nat) : Rect := { x0 := bitsOf v 0 6, x1 := bitsOf v 8 6, y0 := bitsOf v 16 6, y1 := bitsOf v 24 6 }

/-- Bits of a rectangle that must be zero. -/
def rectRsv (v : Nat) : Bool := bitsOf v 6 2 != 0 || bitsOf v 14 2 != 0 || bitsOf v 22 2 != 0 || bitsOf v 30 2 != 0

/-- A rectangle lies in the logical grid (R479). -/
def rectOk (r : Rect) : Bool := decide (r.x0 ≤ r.x1) && decide (r.y0 ≤ r.y1) && decide (r.x1 ≤ 47) && decide (r.y1 ≤ 47)

/-- Two rectangles share a core. -/
def rectMeet (a b : Rect) : Bool :=
  decide (a.x0 ≤ b.x1) && decide (b.x0 ≤ a.x1) && decide (a.y0 ≤ b.y1) && decide (b.y0 ≤ a.y1)

/-- No two rectangles of a list share a core. -/
def rectsApart : List Rect → Bool
  | [] => true
  | r :: t => (t.all fun q => !rectMeet r q) && rectsApart t

/-- Rectangles of a descriptor or group entry: `n` of the four words at an offset. -/
def rectsAt (b : Bytes) (off n : Nat) : List Rect := (List.range n).map fun i => rectOf (leAt b (off + 4 * i) 4)

/-- The four words at an offset: reserved bits are zero, those past the first `n` are zero. -/
def rectWordsOk (b : Bytes) (off n : Nat) : Bool :=
  (List.range 4).all fun i =>
    let v := leAt b (off + 4 * i) 4
    !rectRsv v && (decide (i < n) || v == 0)

/-- A group entry (R478) from its 32 bytes. -/
def groupOf (b : Bytes) : Group :=
  { num := leAt b 0 2, pass := bitsOf (leAt b 2 1) 0 2, sub := bitOf (leAt b 2 1) 2, share := leAt b 3 1
    rects := rectsAt b 16 (leAt b 4 1) }

/-- A group entry's fields are in their ranges and its reserved fields zero. -/
def groupFieldsOk (b : Bytes) : Bool :=
  bitsOf (leAt b 2 1) 0 2 != 3 && bitsOf (leAt b 2 1) 3 5 == 0 && decide (1 ≤ leAt b 3 1) && decide (leAt b 3 1 ≤ 100) &&
  decide (1 ≤ leAt b 4 1) && decide (leAt b 4 1 ≤ 4) && zeroAt b [(5, 11)] && rectWordsOk b 16 (leAt b 4 1)

/-- Fields of CONFIG_PARTITION (R477). -/
def cfPart (d : Desc) : Nat := d.at 16 1
def cfNrect (d : Desc) : Nat := bitsOf (d.at 17 1) 0 3
def cfRelease (d : Desc) : Bool := bitOf (d.at 17 1) 7
def cfCount (d : Desc) : Nat := d.at 60 1

/-- The first row of R479: fields and state. -/
def cfFieldsOk (s : State) (d : Desc) : Bool :=
  let st := (getPart s (cfPart d)).st
  decide (1 ≤ cfPart d) && decide (cfPart d ≤ 8) && st != .started && st != .stopping && bitsOf (d.at 17 1) 3 4 == 0 &&
  (if cfRelease d then cfNrect d == 0 && zeroAt d.bytes [(18, 46)]
   else decide (1 ≤ cfNrect d) && decide (cfNrect d ≤ 4) && decide (1 ≤ cfCount d) && decide (cfCount d ≤ 16) &&
     zeroAt d.bytes [(61, 3)] && rectWordsOk d.bytes 28 (cfNrect d) && d.at 52 8 % 64 == 0)

/-- Partitions other than one, which hold something unless they are FREE. -/
def otherParts (s : State) (n : Nat) : List Part := (partNums.filter fun m => m != n).map (getPart s)

/-- The second row of R479: rectangles, quota, counters (R337), pipes, rings. -/
def cfBoundsOk (s : State) (d : Desc) : Bool :=
  let n := cfPart d
  let rects := rectsAt d.bytes 28 (cfNrect d)
  let o := otherParts s n
  let qb := d.at 20 2
  let ql := d.at 22 2
  let pb := d.at 24 2
  let pc := d.at 26 2
  (rects.all rectOk) && rectsApart rects && (rects.all fun r => o.all fun p => p.rects.all fun q => !rectMeet r q) &&
  ((rectsCores rects).all fun c => s.places.get .natural c != .unmapped) &&
  decide ((qb + ql) * gib ≤ partSpace s) && (o.all fun p => !rangesMeet qb ql p.qbase p.qlen) &&
  pb % 64 == 0 && pc % 64 == 0 && decide (64 ≤ pc) && decide (pb + pc ≤ 16384) &&
  (o.all fun p => !rangesMeet pb pc p.pbase p.pcount) &&
  ((List.range 64).all fun k => !bitOf (d.at 44 8) k || (!(s.pipes.get {} k).retired && o.all fun p => !p.pipes.getLsbD k)) &&
  decide (d.at 19 1 ≤ 32) && decide (d.at 18 1 + d.at 19 1 ≤ 256) &&
  (o.all fun p => !rangesMeet (d.at 18 1) (d.at 19 1) p.rbase p.rcount)

/-- Every ring of the range is IDLE (R479). -/
def cfRingsIdle (s : State) (d : Desc) : Bool :=
  (List.range (d.at 19 1)).all fun i => (getRing s (d.at 18 1 + i)).state == .idle

/-- The groups of R478 divide the partition (R24, R212, R479): one entry for a pass group at most; sub-groups may nest (DEDUCED, log
entry 15). -/
def groupsOk (rects : List Rect) (gs : List Group) : Bool :=
  let pass := gs.filter fun g => !g.sub
  let inside (c : Nat) (g : Group) : Bool := inRects g.rects c
  (gs.all fun g => g.rects.all rectOk && g.num != 0 && (gs.filter fun h => h.num == g.num).length == 1 &&
    (rectsCores g.rects).all (inRects rects)) &&
  ((rectsCores rects).all fun c => (pass.filter (inside c)).length == 1) &&
  ([0, 1, 2].all fun k =>
    let subs := gs.filter fun g => g.sub && g.pass == k
    (pass.filter fun g => g.pass == k).length ≤ 1 && subs.length ≤ 4 &&
    subs.all fun g => (rectsCores g.rects).all fun c => pass.any fun h => h.pass == k && inside c h) &&
  decide ((gs.map Group.share).sum ≤ 100)

/-- A core leaves its owner: core SRAM and accumulator memory are zero, both banks invalid (R480). -/
def wipeCore (k : Core) : Core :=
  { k with sram := [], acc := [], fresh := none, bank0 := { k.bank0 with valid := false }, bank1 := { k.bank1 with valid := false } }

/-- A core takes its owner and identity values (R129, R480). -/
def ownCore (n : Nat) (p : Part) (s : State) (c : Nat) : State :=
  let g : Nat := ((coreGroup p.groups c).map Group.num).getD 0
  let l := groupCores p g
  updCore c (fun k =>
    let k := if k.part = n then k else wipeCore k
    { k with part := n, group := g, rank := (l.findIdx? fun x => x == c).getD 0, size := l.length }) s

/-- A core that no partition owns any more. -/
def disownCore (s : State) (c : Nat) : State :=
  updCore c (fun k => { wipeCore k with part := 0, group := 0, rank := 0, size := 0 }) s

/-- A partition's configuration replaced (R480). -/
def applyConfig (n : Nat) (p : Part) (s : State) : State :=
  let old := partCores s n
  let s := updPart n (fun _ => p) s
  let s := (old.filter fun c => !inRects p.rects c).foldl disownCore s
  (rectsCores p.rects).foldl (ownCore n p) s

/-- The configuration that a descriptor and its groups give. -/
def configOf (s : State) (d : Desc) (gs : List Group) : Part :=
  { getPart s (cfPart d) with
    st := .configured, rects := rectsAt d.bytes 28 (cfNrect d), groups := gs, rbase := d.at 18 1, rcount := d.at 19 1
    qbase := d.at 20 2, qlen := d.at 22 2, pbase := d.at 24 2, pcount := d.at 26 2, pipes := BitVec.ofNat 64 (d.at 44 8) }

/-- CONFIG_PARTITION carried out (R479), in table order. -/
def configRun (d : Desc) (table : HostRead) (s : State) : State :=
  if !cfFieldsOk s d then refuseDesc d.id .descMalformed s
  else if cfRelease d then
    finishDesc d.id .ok (applyConfig (cfPart d) { events := (getPart s (cfPart d)).events } s)
  else if !cfBoundsOk s d then refuseDesc d.id .descBounds s
  else if !cfRingsIdle s d then refuseDesc d.id .descMalformed s
  else match table with
    | .failed => refuseDesc d.id .internalError (notice d.fn 6 s)
    | .data b =>
      let es := (List.range (cfCount d)).map fun i => sliceB b (32 * i) 32
      let gs := es.map groupOf
      if es.all groupFieldsOk && groupsOk (rectsAt d.bytes 28 (cfNrect d)) gs then
        finishDesc d.id .ok (applyConfig (cfPart d) (configOf s d gs) s)
      else refuseDesc d.id .descMalformed s

/-- A CONFIG_PARTITION at its not-before time. -/
def configReady (d : Desc) (s : State) : State := setPhase d.id .started (updDesc d.id (fun d => { d with aux := 1 }) s)

/-- CONFIG_PARTITION: `table` is what the host answered to the read of the group table. -/
def execConfigPartition (id : Nat) (table : HostRead) (s : State) : Result :=
  match findDesc s id with
  | some d =>
    if !hostReach s d.fn then .next s
    else if d.opcode == 0x38 && d.phase == .started && d.aux == 1 then .next (configRun d table s)
    else match atAcceptance s id 0x38 with
      | some d => .next (acceptThen d (fun d s => configRun d table s) s)
      | none => .next s
  | none => .next s

/-! ## START_PARTITION -/

/-- A region of a partition: base, length, alignment of the base. -/
structure Area where
  base : Nat
  len : Nat
  align : Nat
  deriving DecidableEq, Repr

/-- An area lies in the partition's quota and is aligned; an empty one is not checked. -/
def areaOk (p : Part) (a : Area) : Bool :=
  a.len == 0 || (a.base % a.align == 0 && decide (p.qbase * gib ≤ a.base) && decide (a.base + a.len ≤ (p.qbase + p.qlen) * gib))

/-- No two areas of a list share a byte. -/
def areasApart : List Area → Bool
  | [] => true
  | a :: t => (t.all fun b => !rangesMeet a.base a.len b.base b.len) && areasApart t

/-- The governor's layer table and arena. -/
def govAreas (s : State) (n : Nat) : List Area :=
  [⟨reg64 s (ctx bGovCtx n 0x10), 64 * govCount s n, 64⟩, ⟨reg64 s (ctx bGovCtx n 0x1C), 262144 * regN s (ctx bGovCtx n 0x24), 262144⟩]

/-- Number of region-table entries. -/
def dbufCount (s : State) (n : Nat) : Nat := bitsOf (regN s (ctx bSlwCtx n 0x34)) 0 13

/-- The tables of R289: peer table, counter base table, region table. -/
def slwAreas (s : State) (n : Nat) : List Area :=
  [⟨reg64 s (ctx bSlwCtx n 0x08), 2 * peerCount s n, 64⟩, ⟨reg64 s (ctx bSlwCtx n 0x14), 8 * (getPart s n).pcount, 64⟩,
   ⟨reg64 s (ctx bSlwCtx n 0x2C), 32 * dbufCount s n, 64⟩]

/-- The bytes of region-table entry `i` (R231). -/
def regionBytes (s : State) (n i : Nat) : Bytes := devRd s (reg64 s (ctx bSlwCtx n 0x2C) + 32 * i) 32

/-- A region-table entry from its bytes. -/
def regionOf (b : Bytes) : Region :=
  { half0 := leAt b 0 8, half1 := leAt b 8 8, len := leAt b 16 8, kind := leAt b 24 1, copy := leAt b 25 1, owner := leAt b 26 2
    layer := leAt b 28 2 }

/-- The region table as the device reads it at partition start. -/
def regionTable (s : State) (n : Nat) : List Region := (List.range (dbufCount s n)).map fun i => regionOf (regionBytes s n i)

/-- The halves that the region table names. -/
def halfAreas (l : List Region) : List Area := (l.map fun r => [Area.mk r.half0 r.len 4096, Area.mk r.half1 r.len 4096]).flatten

/-- Order of KIND 1 entries (R231): ascending layer, the forward copy first, none twice. -/
def kindOrder : List Region → Bool
  | [] => true
  | [r] => decide (r.copy ≤ 1)
  | r :: q :: t => decide (r.copy ≤ 1) && decide (2 * r.layer + r.copy < 2 * q.layer + q.copy) && kindOrder (q :: t)

/-- The checks of R289: DESC_BOUNDS, then DESC_MALFORMED. -/
def slwCheck (s : State) (n : Nat) : Option Status :=
  let p := getPart s n
  let l := regionTable s n
  let tabs := slwAreas s n
  let mine := (List.range (peerCount s n)).filter fun m => peerNode s n m == nodeId s
  if !(tabs.all (areaOk p)) || !areasApart (tabs ++ govAreas s n) then some .descBounds
  else if !(l.all fun r => r.len % 4096 == 0 && decide (4096 ≤ r.len)) || !((halfAreas l).all (areaOk p)) ||
      !areasApart (tabs ++ govAreas s n ++ halfAreas l) || mine.length != 1 then some .descBounds
  else if (List.range (dbufCount s n)).any fun i => leAt (regionBytes s n i) 24 1 ≥ 2 || leAt (regionBytes s n i) 30 2 != 0 then
    some .descMalformed
  else if (l.any fun r => r.kind == 1 && decide (peerCount s n ≤ r.owner)) || !kindOrder (l.filter fun r => r.kind == 1) then
    some .descMalformed
  else none

/-- The stash region and the remote page cache region (R314, R315). -/
def memAreas (s : State) (n : Nat) : List Area :=
  [⟨(stashRange s n).1, (stashRange s n).2, 2097152⟩, ⟨(rpcRange s n).1, (rpcRange s n).2, 65536⟩]

/-- The checks of R316. -/
def memCheck (s : State) (n : Nat) : Option Status :=
  let p := getPart s n
  let others := slwAreas s n ++ govAreas s n ++ halfAreas (regionTable s n)
  let pool := regN s (ctx bMemCtx n 0x1C)
  if bitsOf (regN s (ctx bMemCtx n 0x18)) 0 17 > 65536 || bitsOf (regN s (ctx bMemCtx n 0x28)) 0 17 > 65536 || rpcLen s n > 16384 ||
      !((memAreas s n).all (areaOk p)) || !areasApart (memAreas s n ++ others) then some .descBounds
  else if bitOf pool 16 && (bitsOf pool 0 16 == nodeId s || reg64 s (ctx bMemCtx n 0x20) % 2097152 != 0) then some .descBounds
  else none

/-- A nonzero JOB that another started partition holds (R375). -/
def jobCheck (s : State) (n : Nat) : Option Status :=
  if partJob s n != 0 && (partNums.any fun m => m != n && isStarted s m && partJob s m == partJob s n) then some .descMalformed
  else none

/-- Collectives are enabled for a partition. -/
def collEn (s : State) (n : Nat) : Bool := bitOf (regN s (ctx bCollCtx n 0)) 0

/-- Scratch slots of a partition. -/
def collSlots (s : State) (n : Nat) : Nat := bitsOf (regN s (ctx bCollCtx n 0x14)) 0 9

/-- Pod table, scratch region, result records (R416). -/
def collAreas (s : State) (n : Nat) : List Area :=
  [⟨reg64 s (ctx bCollCtx n 0x04), 2 * peerCount s n, 64⟩, ⟨reg64 s (ctx bCollCtx n 0x0C), 4194304 * collSlots s n, 4194304⟩,
   ⟨reg64 s (ctx bCollCtx n 0x18), 32 * 2 ^ bitsOf (regN s (ctx bCollCtx n 0x20)) 0 5, 64⟩]

/-- The checks of R417. -/
def collCheck (s : State) (n : Nat) : Option Status :=
  if !collEn s n then none else
  let p := getPart s n
  let others := slwAreas s n ++ govAreas s n ++ halfAreas (regionTable s n) ++ memAreas s n
  let pods := (List.range (peerCount s n)).map (podOf s n)
  let rg := bitsOf (regN s (ctx bCollCtx n 0)) 16 16
  if !((collAreas s n).all (areaOk p)) || !areasApart (collAreas s n ++ others) then some .descBounds
  else if (pods.any fun q => decide (4095 < q) || decide (64 < (pods.filter fun r => r == q).length)) ||
      (groupCores p rg).isEmpty then some .descMalformed
  else none

/-- The status with which a start is refused, its checks in the order R481 names them. -/
def startCheck (s : State) (n : Nat) : Option Status :=
  if (getPart s n).st != .configured then some .descMalformed
  else if !govStartOk s n then some .descBounds
  else (slwCheck s n).or ((memCheck s n).or ((jobCheck s n).or (collCheck s n)))

/-- The counters of a range are cleared (R338). -/
def clearCounters (n : Nat) (s : State) : State :=
  let p := getPart s n
  let mine (c : Nat) : Bool := decide (p.pbase ≤ c) && decide (c < p.pbase + p.pcount)
  let y := s.syn
  { s with syn := { y with counters := y.counters.filter fun e => !mine e.1, saturated := y.saturated.filter fun e => !mine e.1
                           waiters := y.waiters.filter fun w => w.part != n, gathers := y.gathers.filter fun g => g.part != n } }

/-- Registers that other chapters clear when a partition starts (R125, R353, R391, R417, R439). -/
def clearAtStart (n : Nat) (s : State) : State :=
  let ev := ctx bSynCtx n 4
  let s := setReg ev (BitVec.ofNat 32 (setBits (regN s ev) 0 16 0)) s
  [ctx bSynCtx n 8, ctx bSynCtx n 0xC, ctx bGzlCtx n 4, ctx bCollCtx n 0x24, ctx bIngCtx n 4].foldl (fun s k => setReg k 0 s) s

/-- A partition starts (R481). -/
def startPartition (n : Nat) (s : State) : State :=
  let s := clearCounters n s
  let s := (partCores s n).foldl (fun s c => updCore c (fun k => { k with chk0 := 0, chk1 := 0, sramCe := 0 }) (resetCore c s)) s
  let regions := regionTable s n
  let s := updPart n (fun p =>
    { p with st := .started, last := none, lastGate := 0, step := none, regions := regions, stash := {}, rpc := {}, colls := []
             joins := [], collPast := [], serving := [], jobs := [], jobEnd := [], jobFailed := [], replays := 0, boundary := none }) (clearAtStart n s)
  govStart n s

/-- A START_PARTITION starts. -/
def startStart (d : Desc) (s : State) : State :=
  match startCheck s (d.at 16 1) with
  | some st => refuseDesc d.id st s
  | none => finishDesc d.id .ok (startPartition (d.at 16 1) s)

/-- START_PARTITION: it waits while its partition is STOPPING (R481). -/
def execStartPartition (id : Nat) (s : State) : Result :=
  match atAcceptance s id 0x39 with
  | some d =>
    if (getPart s (d.at 16 1)).st == .stopping then .next s
    else
      let c : Option Status := if zeroAt d.bytes [(17, 47)] && partNums.contains (d.at 16 1) then none else some .descMalformed
      .next (checked d c (acceptThen d startStart) s)
  | none => .next s

/-! ## Stop, drain, partition reset (R482 to R487) -/

/-- A STOP_PARTITION starts: at once OK for a partition that is not started; otherwise it waits for the end of the drain.
A stop that another function asked for is noticed by the partition's own (R470). -/
def stopStart (d : Desc) (s : State) : State :=
  let n := d.at 16 1
  match (getPart s n).st with
  | .started =>
    let s := setPhase d.id .started (drainBegin n .partStopped false false s)
    if d.fn = n then s else notice n 1 s
  | .stopping => setPhase d.id .started s
  | _ => finishDesc d.id .ok s

/-- STOP_PARTITION. -/
def execStopPartition (id : Nat) (s : State) : Result :=
  match atAcceptance s id 0x3A with
  | some d =>
    let c : Option Status := if zeroAt d.bytes [(17, 47)] && partNums.contains (d.at 16 1) then none else some .descMalformed
    .next (checked d c (acceptThen d stopStart) s)
  | none => .next s

/-- A partition reset completes (R486, R487): owned cores are reset, their banks invalid; with AUTO_RESTART it starts again. -/
def partResetDone (n : Nat) (s : State) : State :=
  let s := (partCores s n).foldl (fun s c => clearBanks c (resetCore c s)) s
  if bitOf (regN s bPrt) (8 + n - 1) && (startCheck s n).isNone then startPartition n s else s

/-- A partition reset (R486): a drain with PART_RESET, or at once when the partition is CONFIGURED. -/
def partReset (n : Nat) (auto : Bool) (s : State) : State :=
  match (getPart s n).st with
  | .free => s
  | .configured => notice n 1 (partResetDone n s)
  | _ => notice n 1 (drainBegin n .partReset true auto s)

/-- The end of a drain (R482, R484, R489): CONFIGURED; STOP_PARTITIONs complete; the counts of a rung carried out restart. -/
def drainEnds (n : Nat) (r : Drain) (s : State) : State :=
  let s := updPart n (fun p => { p with st := .configured, drain := none, events := if r.auto then [] else p.events }) s
  let s := (s.descs.filter fun d => d.opcode == 0x3A && d.at 16 1 == n && d.phase == .started).foldl
    (fun s d => finishDesc d.id .ok s) s
  if r.reset then partResetDone n s else s

/-- DRAIN_DONE: every row of R483 is settled. -/
def execDrainDone (dt part : Nat) (s : State) : Result :=
  match (getPart s part).drain with
  | some r => if (getPart s part).st == .stopping && drainSettled s part then .next (drainEnds part r (pass dt s)) else .next s
  | none => .next s

/-- DRAIN_TIMEOUT: a drain that has not ended after 100 ms takes rung 3 (R484, R488). -/
def execDrainTimeout (dt part : Nat) (s : State) : Result :=
  let s' := pass dt s
  match (getPart s part).drain with
  | some r =>
    if (getPart s part).st == .stopping && r.since + 100000000 ≤ s'.clock then .next (rungThree part .deviceResetting s') else .next s
  | none => .next s

end Sys2Proof.Machine
end

