-- ==== Sys2Proof/Machine/Host.lean ====
section
/-!
DEFINITION. The host interface (15): the resets that reach it (R444), BAR4 (R447, R448), doorbells (R449, R451), interrupt
coalescing (R469), L1 (R443) and the states of a ring (R475).
-/
namespace Sys2Proof.Machine

/-! ## Resets of the host interface (R444) -/

/-- The endpoint and the host-interface state of every function are reset. -/
def resetEndpoint (s : State) : State :=
  let s := (List.range 9).foldl (fun s fn => resetFunc fn s) s
  { s with link := {}, flrPf0 := none }

/-- PERST_ASSERT: PERST# is asserted. -/
def execPerstAssert (s : State) : Result :=
  .next (resetEndpoint { s with brd := { s.brd with perstN := false } })

/-- PCIE_LINK_DOWN: the link goes down. -/
def execPcieLinkDown (s : State) : Result := .next (resetEndpoint s)

/-- FLR_VF: a partition reset, then VFn's host-interface state is reset, then the notice (log entry 16). -/
def execFlrVf (n : Nat) (s : State) : Result :=
  if barOpen s && partNums.contains n then
    let s := match (getPart s n).st with
      | .free => s
      | .configured => partResetDone n s
      | _ => drainBegin n .partReset true false s
    .next (notice n 1 (resetFunc n (endDescs n .partReset s)))
  else .next s

/-- FLR_PF0: PF0's descriptors in flight may still complete; then its host-interface state is reset. -/
def execFlrPf0 (s : State) : Result :=
  if barOpen s then .next (flrPf0Ends { s with flrPf0 := s.flrPf0 <|> some s.clock }) else .next s

/-- PF0_FLR_TIMEOUT: after 100 ms those still in flight complete with PART_RESET. -/
def execPf0FlrTimeout (dt : Nat) (s : State) : Result :=
  let s' := pass dt s
  match s.flrPf0 with
  | some t =>
    if t + 100000000 ≤ s'.clock then
      .next (resetFunc 0 { s' with
        flrPf0 := none
        descs := s'.descs.map fun d => if d.fn = 0 && d.live then { d with phase := .done .partReset } else d })
    else .next s
  | none => .next s

/-! ## BAR4 (R447, R448) -/

/-- The local address of an access through BAR4 and the partition it serves; none where R448 turns it away (widths and page
crossings outside R448: log entry 17). -/
def bar4Map (s : State) (fn off len : Nat) (write : Bool) : Option (Nat × Nat) :=
  let a := if fn = 0 then off else (getPart s fn).qbase * gib + off
  let n := servedPart s fn a
  let inside := if fn = 0 then decide (off + len ≤ partSpace s) else decide (off + len ≤ (getPart s fn).qlen * gib)
  if decide (1 ≤ len) && decide (len ≤ 512) && decide (off % 4096 + len ≤ 4096) && inside && hostReach s fn &&
      quotaOk s n a len write then some (n, a) else none

/-- BAR4_READ. -/
def execBar4Read (fn off len : Nat) (s : State) : Result :=
  if barOpen s && fn ≤ 8 then
    let s := barAccess s
    match bar4Map s fn off len false with
    | some p => let r := memGet p.1 0 0 p.2 len s; .next (emit (.readReply fn r.1) r.2)
    | none => .next (emit (.unsupported fn) s)
  else .next s

/-- BAR4_WRITE. -/
def execBar4Write (fn off : Nat) (data : Bytes) (s : State) : Result :=
  if barOpen s && fn ≤ 8 then
    let s := barAccess s
    match bar4Map s fn off data.length true with
    | some p => .next (memPut p.1 0 0 p.2 data s)
    | none => .next (notice fn 5 s)
  else .next s

/-! ## Doorbells (R449, R451) -/

/-- A doorbell write: an index for the ring's tail or head, ERROR for a bad value; dropped with DB_DROP for a ring that the
function does not own or that does not run. Widths other than four bytes are ignored. -/
def doorbell (fn ring width : Nat) (value : Word) (put : Nat → Ring → Ring) (s : State) : State :=
  let s := barAccess s
  if width != 4 then s
  else if !hostReach s fn then emit (.unsupported fn) s
  else
    let g := getRing s ring
    if ringOwner s ring != fn || g.state != .running then noticeRing fn 4 ring s
    else if ringSize g ≤ value.toNat then noticeRing fn 3 ring (updRing ring (fun g => { g with state := .error }) s)
    else leaveIdle (updRing ring (put value.toNat) s)

/-- DOORBELL_SQ_TAIL. -/
def execDoorbellSqTail (fn ring width : Nat) (value : Word) (s : State) : Result :=
  if barOpen s && fn ≤ 8 && ring < 256 then .next (doorbell fn ring width value (fun v g => { g with sqTail := v }) s)
  else .next s

/-- DOORBELL_CQ_HEAD. -/
def execDoorbellCqHead (fn ring width : Nat) (value : Word) (s : State) : Result :=
  if barOpen s && fn ≤ 8 && ring < 256 then .next (doorbell fn ring width value (fun v g => { g with cqHead := v }) s)
  else .next s

/-! ## Coalescing and L1 -/

/-- COALESCE_TIMEOUT: COAL_TIME × 100 ns have passed since the first pending completion (R469). -/
def execCoalesceTimeout (dt ring : Nat) (s : State) : Result :=
  let s' := pass dt s
  let g := getRing s' ring
  if g.coalPending ≠ 0 && decide (g.coalSince + 100 * g.coalTime ≤ s'.clock) then .next (ringSignal ring s') else .next s

/-- PCIE_L1_ENTRY: no descriptor in flight and no BAR access for 100 µs, or DEEP (R443). -/
def execPcieL1Entry (dt : Nat) (s : State) : Result :=
  let s' := pass dt s
  if !s.link.l1 && (s.fer.power == .deep || (s.descs.isEmpty && decide (s.link.lastAccess + 100000 ≤ s'.clock))) then
    .next (emit .requestL1 { s' with link := { s'.link with l1 := true } })
  else .next s

/-- PCIE_LINK_TRAINING: the endpoint trains its link at a rate (1 to 7), width (1 ×4, 2 ×8, 3 ×16) and mode that R440 allows;
it needs PERST# released and the PCIe reference clock. -/
def execPcieLinkTraining (rate width : Nat) (flit : Bool) (s : State) : Result :=
  if s.rst.isNone && !s.sec.held && s.fer.power != .standby && s.brd.refclk && 1 ≤ rate && rate ≤ 7 && 1 ≤ width && width ≤ 3 &&
      (flit || rate ≤ 5) then
    .next { s with brd := { s.brd with perstN := true }
                   link := { s.link with rate := rate, width := width, flit := flit, l1 := false } }
  else .next s

/-! ## Ring states (R475) -/

/-- ENABLE is set: an IDLE ring starts with its indices zero. -/
def ringOn (r : Nat) (s : State) : State :=
  updRing r (fun g =>
    if g.state = .idle then
      { g with enable := true, state := .running, sqHead := 0, sqTail := 0, cqHead := 0, cqTail := 0, phase := true
               coalPending := 0, generation := g.generation + 1 }
    else { g with enable := true }) s

/-- ENABLE is cleared: a running ring or one in ERROR drains. -/
def ringOff (r : Nat) (s : State) : State :=
  updRing r (fun g =>
    { g with enable := false, state := if g.state = .running || g.state = .error then .draining else g.state }) s

/-- RING_ENABLE: the owner sets ENABLE of an IDLE ring. -/
def execRingEnable (fn ring : Nat) (s : State) : Result :=
  .next (hostPost fn (fun s =>
    if ring < 256 && ringOwner s ring == fn && (getRing s ring).state == .idle then ringOn ring s else s) s)

/-- RING_DISABLE: the owner clears ENABLE of a ring that runs or is in ERROR. -/
def execRingDisable (fn ring : Nat) (s : State) : Result :=
  .next (hostPost fn (fun s =>
    if ring < 256 && ringOwner s ring == fn && ((getRing s ring).state == .running || (getRing s ring).state == .error) then
      ringOff ring s
    else s) s)

/-- RING_DRAINED: a draining ring with nothing in flight becomes IDLE. -/
def execRingDrained (ring : Nat) (s : State) : Result :=
  if (getRing s ring).state == .draining && ringFlight s ring == 0 then
    .next (updRing ring (fun g => { g with state := .idle }) s)
  else .next s

end Sys2Proof.Machine
end

