-- ==== Sys2Proof/Machine/MemoryCommands.lean ====
section
/-!
DEFINITION. The commands of the memory system (10): requests at a cache slice (R295 to R300, R305), the regulator interval
(R303, R304), refresh (R302), patrol scrub (R310), stack failure (R312) and the remote page cache (R315, R322).
-/
namespace Sys2Proof.Machine

/-! ## Requests at a cache slice -/

/-- A request that reaches this device's memory: its own node, at most 256 bytes within one granule of R292. -/
def reqHere (s : State) (r : MemReq) (len : Nat) : Bool :=
  gNode r.addr.toNat == nodeId s && decide (0 < len) && decide (r.addr.toNat % 256 + len ≤ 256) && r.hint < 4

/-- A request misses: some line it names is not cached. -/
def reqMisses (s : State) (a len : Nat) : Bool := (piecesOf a (zeros len)).any fun p => (getLine s (p.1 / 128)).isNone

/-- A request waits at its controller: an earlier one to its lines waits (R296), or it needs the bus and its bucket is empty (R303). -/
def reqWaits (s : State) (r : MemReq) (a len : Nat) : Bool :=
  (s.mem.waiting.any fun w => w.meets a len) || (reqMisses s a len && bucketEmpty s (place s a).1 r.part r.group)

/-- A request is served, or joins those that wait. -/
def memTake (w : MemWait) (len : Nat) (s : State) : State :=
  if reqWaits s w.req w.place len then { s with mem := { s.mem with waiting := s.mem.waiting ++ [w] } } else memServe w s

/-- A request for a stash granule that lies in the remote pool goes on to the pool's node (R314), with the attempt of its core. -/
def memForward (r : MemReq) (type tspec h : Nat) (d : Bytes) (o : Origin) (s : State) : State :=
  let p := poolNode s r.part
  sendReq r.part { type := type, vc := b2n (type == 0x01), node := p, flow := flowOf h p, addr := h, hint := r.hint, tspec := tspec
                   data := d, stepped := r.group != 0 } o 0 s

/-- MEMORY_READ: `err` is what the read meets (R309). -/
def execMemoryRead (req : MemReq) (len : Nat) (err : ReadErr) (s : State) : Result :=
  if reqHere s req len && req.part ≤ 8 then
    match readPlace s req.part req.addr.toNat len with
    | .here h => .next (memTake { req := req, place := h, kind := 0, len := len, err := err } len s)
    | .there h => .next (memForward req 0x01 len h [] (.memory req.part) s)
    | .bytes b => .next (emit (.memData b) s)
    | .unspecified => let r := drawBytes len s; .next (emit (.memData r.1) r.2)
    | _ => .next (emit .memRefused s)
  else .next s

/-- MEMORY_WRITE. -/
def execMemoryWrite (req : MemReq) (data : Bytes) (s : State) : Result :=
  if reqHere s req data.length && req.part ≤ 8 then
    let r := writePlace req.part req.addr.toNat data.length s
    let l := gLocal req.addr.toNat
    match r.1 with
    | .here h => .next (memTake { req := req, place := h, kind := 1, data := data } data.length r.2)
    | .there h =>
      .next (memForward req 0x02 0 h data (.stash req.part (stashSlot l) (stashEntry l) (.memory req.part)) r.2)
    | .discard => .next (emit .memAck r.2)
    | _ => .next (emit .memRefused s)
  else .next s

/-- The request of an add: address bits below its element size are ignored (R305). -/
def addReq (r : MemReq) (fp : Bool) : MemReq :=
  let w := if fp then 4 else 8
  { r with addr := BitVec.ofNat 64 (r.addr.toNat / w * w) }

/-- MEMORY_ADD: whole elements of 4 bytes (ADDF) or 8 (ADDI); `res` is what the duplicated rows gave (R307). An address with
STASH is refused (R295). -/
def execMemoryAdd (req : MemReq) (fp : Bool) (data : Bytes) (res : AdderResult) (s : State) : Result :=
  let r := addReq req fp
  if reqHere s r data.length && req.part ≤ 8 && data.length % (if fp then 4 else 8) = 0 then
    if gStash r.addr.toNat then .next (emit .memRefused s)
    else
      match readPlace s r.part r.addr.toNat data.length with
      | .here h =>
        if quotaOk s r.part h data.length true then
          .next (memTake { req := r, place := h, kind := if fp then 2 else 3, data := data, res := res } data.length s)
        else .next (emit .memRefused s)
      | _ => .next (emit .memRefused s)
  else .next s

/-! ## The regulator interval (R303, R304, R213) -/

/-- The buckets of a partition: the common one and one for each group. -/
def bucketsOf (s : State) (n : Nat) : List Nat := 0 :: (getPart s n).groups.map Group.num

/-- Requests wait on a bucket of a stack: in the queue, or as accesses that were charged ahead of their tokens (log entry 116). -/
def bucketWanted (s : State) (st n g : Nat) : Bool :=
  decide ((getStack s st).tokens.get 0 (bucketKey n g) < 0) ||
    s.mem.waiting.any fun w => w.req.part == n && bucketOf s n w.req.group == g && (place s w.place).1 == st

/-- One partition's buckets at one stack at the end of an interval: the refill, at most four intervals of it; what overflows
a group's bucket goes in equal parts to the partition's other buckets with requests waiting. -/
def refillBuckets (n : Nat) (s : State) (st : Nat) : State :=
  let cur (g : Nat) : Int := (getStack s st).tokens.get 0 (bucketKey n g)
  let cap (g : Nat) : Int := (4 * refillOf s n g : Nat)
  let sum (g : Nat) : Int := cur g + (refillOf s n g : Nat)
  let gs := bucketsOf s n
  let beyond (g : Nat) : Int := if g = 0 then 0 else max 0 (sum g - cap g)
  let share (g : Nat) : Int := (gs.map fun h =>
    let wants := gs.filter fun k => k != h && bucketWanted s st n k
    if wants.contains g then beyond h / (wants.length : Nat) else 0).sum
  updStack st (fun k =>
    { k with tokens := gs.foldl (fun t g => Tbl.set 0 t (bucketKey n g) (min (cap g) (min (cap g) (sum g) + share g))) k.tokens }) s

/-- Every bucket of every started partition is refilled. -/
def refillAll (s : State) : State :=
  (partNums.filter fun n => isStarted s n).foldl (fun s n => (activeStacks s).foldl (refillBuckets n) s) s

/-- The next waiting request of a partition that can go: it hits or its bucket has tokens (R303), and no earlier one to its lines waits
(R296). The list holds the granules of the earlier ones. -/
def nextWaiting (s : State) (n : Nat) : List Nat → List MemWait → Option MemWait
  | _, [] => none
  | seen, w :: t =>
    if w.req.part == n && !seen.contains (w.place / 256) &&
        !(reqMisses s w.place (max w.len w.data.length) && bucketEmpty s (place s w.place).1 n w.req.group) then some w
    else nextWaiting s n (w.place / 256 :: seen) t

/-- A request leaves those that wait. -/
def dropWait (w : MemWait) : List MemWait → List MemWait
  | [] => []
  | x :: t => if x = w then t else x :: dropWait w t

/-- A waiting request is served. -/
def serveWaiting (w : MemWait) (s : State) : State :=
  memServe w { s with mem := { s.mem with waiting := dropWait w s.mem.waiting } }

/-- Rounds of one request per partition, in partition order; the first argument bounds their number. -/
def serveRounds : Nat → State → State
  | 0, s => s
  | k + 1, s =>
    if (0 :: partNums).any fun n => (nextWaiting s n [] s.mem.waiting).isSome then
      serveRounds k ((0 :: partNums).foldl (fun s n =>
        match nextWaiting s n [] s.mem.waiting with
        | some w => serveWaiting w s
        | none => s) s)
    else s

/-- COPY and FILL descriptors that have moved their bytes, and whose accesses are now paid, complete. -/
def movesPaid (s : State) : State :=
  (s.descs.filter fun d => (d.opcode == 0x08 || d.opcode == 0x09) && d.phase == .started && d.aux != 1).foldl (fun s d => finishIfDone d.id s) s

/-- REGULATOR_INTERVAL: a microsecond after the last one, one interval's refill, then requests that have tokens are served in
round-robin order. -/
def execRegulatorInterval (dt : Nat) (s : State) : Result :=
  let s' := pass dt s
  if s'.mem.refilled + 1000 ≤ s'.clock then
    let s' := refillAll { s' with mem := { s'.mem with refilled := s'.clock } }
    .next (movesPaid (serveRounds s'.mem.waiting.length s'))
  else .next s

/-! ## Refresh, scrub, stack failure -/

/-- tREFI in ns (R290): halved above 85 °C. -/
def refreshNs (s : State) (st : Nat) : Nat := if (getStack s st).hot then 1950 else 3900

/-- HBM_REFRESH: a stack's refresh interval has passed and its banks are refreshed, by bank or all at once (R302). -/
def execHbmRefresh (dt stack : Nat) (s : State) : Result :=
  let s' := pass dt s
  if (activeStacks s').contains stack && (getStack s' stack).refreshed + refreshNs s' stack ≤ s'.clock then
    .next (updStack stack (fun k => { k with refreshed := s'.clock }) s')
  else .next s

/-- The local address of a stack offset (the inverse of R292). -/
def unplace (s : State) (st off : Nat) : Nat :=
  let act := activeStacks s
  let n := act.length
  let slot := (act.findIdx? fun k => k == st).getD 0
  let r := off / 256
  256 * (r * n + (slot + 7 * n * r - 7 * r) % n) + off % 256

/-- Time from one line of a scrub pass to the next (R310): the pass reads every line of a stack within SCRUB_HOURS, evenly spread
(DESIGN CHOICE, log entry 121). -/
def scrubNs (s : State) : Nat := scrubHours s * 3600000000000 / (96 * gib / 128)

/-- SCRUB: the next line of an active stack is read, when its time has come, and errors are corrected (R310). -/
def execScrub (dt stack : Nat) (err : ReadErr) (s : State) : Result :=
  let s' := pass dt s
  if (activeStacks s').contains stack && bitOf (regN s' bMem) 1 && (s'.fer.power == .active || s'.fer.power == .idle) &&
      s'.rst.isNone && (getStack s' stack).scrubAt + scrubNs s' ≤ s'.clock then
    let k := (getStack s' stack).scrubbed
    let a := unplace s' stack (128 * k)
    let s' := match err with
      | .corrected => correctedRead a s'
      | .lost => lostLine a s'
      | _ => s'
    .next (updStack stack (fun x => { x with scrubbed := (k + 1) % (96 * gib / 128), scrubAt := s'.clock }) s')
  else .next s

/-- STACK_FAILURE: a stack stops responding in service: every open step ends and rung 3 starts. -/
def execStackFailure (stack : Nat) (s : State) : Result :=
  if (activeStacks s).contains stack && !(getStack s stack).failed then
    let s := memEvent 5 stack (updStack stack (fun k => { k with failed := true }) s)
    let s := postEvent { kind := 0x19, detail := packB [(1, stack), (1, 3)] } s
    if s.rst.isSome then .next s else .next (rungThree 0 .deviceResetting s)
  else .next s

/-! ## The remote page cache -/

/-- RPC_FETCH_DONE: the fetch of a page ends. Once every part of it has come to the frame, the frame serves the page's reads; a fetch
that fails leaves the page uncopied. -/
def execRpcFetchDone (part page : Nat) (ok : Bool) (s : State) : Result :=
  if (getPart s part).rpc.frames.any fun e => e.2.page == page && !e.2.valid then
    if !ok then .next (rpcDrop part page s)
    else if openRequests s (fetches part (some page)) = 0 then
      .next (updPart part (fun p => { p with rpc := { p.rpc with frames := p.rpc.frames.map fun f =>
        if f.2.page = page then (f.1, { f.2 with valid := true }) else f } }) s)
    else .next s
  else .next s

/-- A function reaches a partition's context registers (R254): PF0 all of them, VFn its own. -/
def mayCtx (fn part : Nat) : Bool := (fn == 0 || fn == part) && partNums.contains part

/-- RPC_INVAL: INVAL is written to MEM_RPC_CTL. -/
def execRpcInval (fn part : Nat) (s : State) : Result :=
  .next (hostPost fn (fun s => if mayCtx fn part && !diesDark s then rpcClear part s else s) s)

end Sys2Proof.Machine
end

