-- ==== Sys2Proof/Machine/Sync.lean ====
section
/-!
DEFINITION. The commands of the mesh and of the sync units (11): link replays (R328), signals (R339), wait requests and
their endings (R340 to R346), and the return of Landing slots that FREE signals bring (R433).
-/
namespace Sys2Proof.Machine

/-! ## Mesh links (R328) -/

/-- A mesh link: 8·(50·y + x) + 4·mesh + direction from the router at physical column x, row y; mesh 0 request, 1 reply;
direction 0 column up, 1 row up, 2 column down, 3 row down (log entry 18). -/
def linkX (l : Nat) : Nat := l / 8 % 50
def linkY (l : Nat) : Nat := l / 8 / 50
def linkDir (l : Nat) : Nat := l % 4

/-- The die of a link's router. -/
def linkDie (l : Nat) : Nat := linkY l / 24 * 2 + linkX l / 25

/-- The link crosses a die edge. -/
def linkEdge (l : Nat) : Bool :=
  match linkDir l with
  | 0 => linkX l == 24
  | 1 => linkY l == 23
  | 2 => linkX l == 25
  | _ => linkY l == 24

/-- There is such a link: it joins neighbours, and column 24 of a die has none across a north–south edge (R323). -/
def linkExists (l : Nat) : Bool :=
  linkY l < 48 && (match linkDir l with
    | 0 => linkX l + 1 < 50
    | 1 => linkY l + 1 < 48
    | 2 => 0 < linkX l
    | _ => 0 < linkY l) && !(linkEdge l && linkDir l % 2 == 1 && linkX l % 25 == 24)

/-- An event of the mesh (R350). -/
def nocEvent (bit die : Nat) (s : State) : State :=
  setReg bNoc (BitVec.ofNat 32 (setBits (setBits (regN s bNoc) bit 1 1) 16 2 die)) s

/-- ns that a replay on a link takes: 10 or 40 cycles of the clock (R328). -/
def replayNs (s : State) (l : Nat) : Nat := ((if linkEdge l then 40 else 10) * 1000 + s.fer.mhz - 1) / max 1 s.fer.mhz

/-- A link has failed: every open step ends and rung 3 starts; within 24 hours of an earlier failure the module must be
replaced. -/
def linkFails (l : Nat) (s : State) : State :=
  let again := match s.fer.linkFailed.get none l with
    | some t => decide (s.clock < t + day)
    | none => false
  let y := s.syn
  let s := nocEvent 2 (linkDie l) { s with
    syn := { y with replays := Tbl.set 0 y.replays l 0 }
    fer := { s.fer with linkFailed := Tbl.set none s.fer.linkFailed l (some s.clock) } }
  if s.rst.isSome then s
  else
    if again then moduleReplace 2 s else rungThree 0 .deviceResetting s

/-- MESH_FLIT_RETRY: a flit fails its CRC and is replayed. Replays follow in a row when the next one comes within the time of
the last (log entry 19). -/
def execMeshFlitRetry (dt link : Nat) (s : State) : Result :=
  if linkExists link then
    let s := pass dt s
    let edge := linkEdge link
    let s := nocEvent (b2n edge) (linkDie link) (incReg (if edge then bNoc + 0x20 else bNoc + 0x10 + 4 * linkDie link) s)
    let row := match s.syn.replayedAt.get none link with
      | some t => decide (s.clock ≤ t + replayNs s link)
      | none => false
    let k := if row then s.syn.replays.get 0 link + 1 else 1
    let y := s.syn
    let s := { s with
      syn := { y with replays := Tbl.set 0 y.replays link k, replayedAt := Tbl.set none y.replayedAt link (some s.clock) } }
    .next (if 32 ≤ k then linkFails link s else s)
  else .next s

/-! ## Landing slots that return (R433) -/

/-- Fields of a job block (R419). -/
def jbLanding (b : Bytes) : Nat := leAt b 104 8
def jbSlotBytes (b : Bytes) : Nat := leAt b 112 4
def jbSlots (b : Bytes) : Nat := leAt b 116 2
def jbFill (b : Bytes) : Nat := leAt b 128 2
def jbFree (b : Bytes) : Nat := leAt b 130 2

/-- A Landing slot overlaps the held range of the open step (R236). -/
def slotHeldBack (p : Part) (b : Bytes) (slot : Nat) : Bool :=
  match p.step with
  | some t => rangesMeet (jbLanding b + slot * jbSlotBytes b) (jbSlotBytes b) t.holdBase t.holdLen
  | none => false

/-- Slots of signalled buffers that the FREE counter has freed return to the tail of the free list, but those held back. -/
def jobReturn (s : State) (n : Nat) (j : Job) : Job :=
  let v := match counterOf s n (jbFree j.block) with
    | some c => (getCounter s c).toNat
    | none => 0
  let back (b : Buffer) : Bool :=
    b.queued && decide (j.freeBase.toNat + b.num + 1 ≤ v) && !slotHeldBack (getPart s n) j.block b.slot
  if j.buffers.any back then
    { j with buffers := j.buffers.filter (fun b => !back b), freeList := j.freeList ++ (j.buffers.filter back).map Buffer.slot
             waitingSlot := false }
  else j

/-- Every running job of a partition takes back the slots that are free. -/
def slotReturn (n : Nat) (s : State) : State :=
  if (getPart s n).jobs.isEmpty then s
  else updPart n (fun p => { p with jobs := p.jobs.map fun e => (e.1, e.2.map (jobReturn s n)) }) s

/-! ## Signals (R339) -/

/-- An entry of a list removed by its position. -/
def removeAt {α : Type} : Nat → List α → List α
  | _, [] => []
  | 0, _ :: t => t
  | k + 1, a :: t => a :: removeAt k t

/-- SIGNAL_APPLY: the `n`th signal on the meshes reaches its sync unit, no earlier message of its source to that unit being on its way
(R331). -/
def execSignalApply (n : Nat) (s : State) : Result :=
  match s.syn.signals[n]? with
  | some g =>
    if sentBefore s g.source g.part g.index g.no then .next s
    else
      let s := { s with syn := { s.syn with signals := removeAt n s.syn.signals } }
      let r := applySignal g.part g.index g.inc g.far s
      .next (leaveIdle (slotReturn g.part (signalDone g.origin r.1 r.2)))
  | none => .next s

/-! ## Waits (R340 to R346) -/

/-- A sync unit holds 128 waiter entries; a wait on a saturated counter needs none (R343). -/
def unitFull (s : State) (u : Nat) : Bool :=
  decide (128 ≤ (s.syn.waiters.filter fun w =>
    match counterOf s w.part w.index with
    | some c => c / 256 == u && !isSaturated s c
    | none => false).length)

/-- The deadline is reached or past (R341). -/
def deadlineCome (s : State) (w : Wait) : Bool := timeReached (now48 s) w.deadline

/-- A wait request at its sync unit (R340, R342, R343): satisfied, ended, kept, or answered BUSY. A local index outside the
range is kept until the deadline (R184); a remote one is ended as out of range (R345). -/
def takeWait (w : Wait) (s : State) : State :=
  let keep (s : State) : State := { s with syn := { s.syn with waiters := s.syn.waiters ++ [w] } }
  match counterOf s w.part w.index with
  | none =>
    if w.issuer = 0 || w.far then giveVerdict w.origin .outOfRange (nodeId s) s
    else if deadlineCome s w then endWait w s
    else keep s
  | some c =>
    if waitMet s w then giveVerdict w.origin .satisfied (nodeId s) s
    else if deadlineCome s w then endWait w s
    else if !isSaturated s c && unitFull s (c / 256) then
      synEvent (if w.issuer = 0 then w.part else w.issuer) 4 (bitsOf (regN s (ctx bSynCtx (if w.issuer = 0 then w.part else w.issuer) 4)) 16 14)
        { s with syn := { s.syn with busy := s.syn.busy ++ [w] } }
    else keep s

/-- WAIT_REQUEST: the `n`th request on its way reaches its sync unit, no earlier message of its source to that unit being on its way
(R331). -/
def execWaitRequest (n : Nat) (s : State) : Result :=
  match s.syn.requests[n]? with
  | some w =>
    if sentBefore s w.source w.part w.index w.no then .next s
    else .next (takeWait w { s with syn := { s.syn with requests := removeAt n s.syn.requests } })
  | none => .next s

/-- WAIT_DEADLINE: a waiter entry's deadline is reached and its counter has not satisfied it. -/
def execWaitDeadline (dt n : Nat) (s : State) : Result :=
  let s' := pass dt s
  match s'.syn.waiters[n]? with
  | some w =>
    if deadlineCome s' w && !waitMet s' w then
      .next (endWait w { s' with syn := { s'.syn with waiters := removeAt n s'.syn.waiters } })
    else .next s
  | none => .next s

/-- WAIT_BUSY_RESEND: a request answered BUSY is sent again; after its deadline the sync unit answers it at once. -/
def execWaitBusyResend (dt n : Nat) (s : State) : Result :=
  let s' := pass dt s
  match s'.syn.busy[n]? with
  | some w => .next (takeWait w { s' with syn := { s'.syn with busy := removeAt n s'.syn.busy } })
  | none => .next s

/-- REMOTE_WAIT_GRACE: no verdict of a remote wait has come 10 µs after its deadline (R346). -/
def execRemoteWaitGrace (dt n : Nat) (s : State) : Result :=
  let s' := pass dt s
  match s'.syn.remotes[n]? with
  | some w =>
    if timeReached (now48 s') (w.deadline + 10000) then
      .next (giveVerdict w.origin .deadline (nodeId s') { s' with syn := { s'.syn with remotes := removeAt n s'.syn.remotes } })
    else .next s
  | none => .next s

end Sys2Proof.Machine
end

