-- ==== Sys2Proof/Machine/Ports.lean ====
section
/-!
DEFINITION. The commands of a Geazal port (12): lanes and widths (R360), link-level retry and credit (R362, R364), fabric time
(R379, R380), bring-up (R383, R384) and loss (R385, R388).
-/
namespace Sys2Proof.Machine

/-- PORT_EN of a port (R388). -/
def portEnabled (s : State) (p : Nat) : Bool := bitOf (regN s bGzl) p

/-- Lanes of a port that are not failed. -/
def healthyLanes (failed : BitVec 17) : Nat := ((List.range 17).filter fun l => !bitOf failed.toNat l).length

/-- The lanes a width code stands for (R390): 1 ×4, 2 ×8, 3 ×16. -/
def laneCount (w : Nat) : Nat := if w = 0 then 0 else 2 ^ (w + 1)

/-- The widest width that some healthy lanes carry (R359). -/
def widthOf (healthy : Nat) : Nat := if 16 ≤ healthy then 3 else if 8 ≤ healthy then 2 else if 4 ≤ healthy then 1 else 0

/-- Lane 16 is mapped in (R390): at ×16 in place of a failed lane; below that when it is one of the lowest-numbered healthy lanes that the
width takes (R360). -/
def Port.spareMapped (q : Port) : Bool :=
  if q.width = 3 then q.spareUsed
  else (((List.range 17).filter fun l => !bitOf q.failed.toNat l).take (laneCount q.width)).contains 16

/-- STATE of GZL_PORT_STATUS (R390). -/
def portStateNum : PortState → Nat
  | .down => 0 | .train => 1 | .align => 2 | .param => 3 | .time => 4 | .up => 5

/-- A PORT record: port, state, width, reason, lane (R508). -/
def portRecord (p lane : Nat) (s : State) : State :=
  let q := getPort s p
  postEvent { kind := 0x1B, detail := packB [(1, p), (1, portStateNum q.st), (1, q.width), (1, q.reason), (1, lane)] } s

/-- A LANE flit leaves: 0 maps the spare, 1 changes the width; failed lane, new width, handshake number (R361). -/
def laneFlit (p op lane width no : Nat) (s : State) : State := sendFlit p 0x06 [(2, 1, op), (3, 1, lane), (4, 1, width), (6, 2, no)] s

/-- The device's own handshake with the switch. -/
def sendLane (p op lane width : Nat) (s : State) : State :=
  let no := (getPort s p).handshakeNo
  laneFlit p op lane width no (updPort p (fun q => { q with handshake := some no, handshakeNo := (no + 1) % 65536 }) s)

/-! ## Lanes (R360) -/

/-- LANE_FAILED: the receiver of an UP port marks a lane failed, and the port is repaired, narrowed or taken down. -/
def execLaneFailed (port lane : Nat) (s : State) : Result :=
  let q := getPort s port
  if q.st == .up && lane < 17 && !bitOf q.failed.toNat lane then
    let failed : BitVec 17 := BitVec.ofNat 17 (setBits q.failed.toNat lane 1 1)
    let ok := healthyLanes failed
    let s := updPort port (fun q => { q with failed := failed }) s
    if ok < 4 then .next (portFails port 1 s)
    else if q.width = 3 && lane = 16 && !q.spareUsed then .next (portRecord port lane s)
    else if q.width = 3 && !q.spareUsed && !bitOf failed.toNat 16 then
      .next (sendLane port 0 lane 16 (portRecord port lane (gzlEvent 2 port (updPort port (fun q => { q with spareUsed := true }) s))))
    else
      let w := min (q.width - 1) (widthOf ok)
      let w := if q.width = 1 then 1 else w
      let s := updPort port (fun q => { q with width := w, spareUsed := false, degradedSince := q.degradedSince <|> some s.clock }) s
      .next (sendLane port 1 lane (laneCount w) (portRecord port lane (gzlEvent 3 port s)))
  else .next s

/-- LANE: a LANE flit of the switch answers the port's own handshake, or asks for one: the port follows and answers with the
same fields (DEDUCED, log entry 21). `width` is the new number of lanes. -/
def execLane (port op failed width handshake : Nat) (s : State) : Result :=
  let q := getPort s port
  if q.st != .up then .next s
  else
    let s := rxFlit port s
    if q.handshake = some handshake then .next (updPort port (fun q => { q with handshake := none }) s)
    else
      let s := if op = 0 then gzlEvent 2 port (updPort port (fun q => { q with spareUsed := true }) s)
        else if width < laneCount q.width then
          gzlEvent 3 port (updPort port (fun q =>
            { q with width := widthOf width, degradedSince := q.degradedSince <|> some s.clock }) s)
        else s
      let s := updPort port (fun q => { q with failed := BitVec.ofNat 17 (setBits q.failed.toNat (failed % 17) 1 1) }) s
      .next (laneFlit port op failed width handshake (portRecord port failed s))

/-! ## Link-level retry and credit (R362, R364) -/

/-- CODEWORD_UNCORRECTABLE: a codeword and all later ones are discarded, and the port asks for a resend from it. -/
def execCodewordUncorrectable (port cseq : Nat) (s : State) : Result :=
  if (getPort s port).st == .up then .next (sendLink port true (updPort port (fun q => { q with rxSeq := cseq % 1024 }) s))
  else .next s

/-- Credit returned on a VC by a LINK flit: the difference from the last value, modulo 2^16 (R364). -/
def creditBack (q : Port) (vc v : Nat) : Nat := (v % 65536 + 65536 - q.lastCred.get 0 vc) % 65536

/-- A LINK flit's credit fields taken. -/
def takeCredits (clock : Nat) (creds : List Nat) (q : Port) : Port :=
  ((List.range 8).zip creds).foldl (fun q e =>
    let d := creditBack q e.1 e.2
    if d = 0 then q
    else { q with credits := Tbl.upd 0 q.credits e.1 (fun c => c + d), lastCred := Tbl.set 0 q.lastCred e.1 (e.2 % 65536)
                  creditAt := clock }) q

/-- Codewords from one number to another (R362). -/
def cseqDist (a b : Nat) : Nat := (a + 1024 - b % 1024) % 1024

/-- What a retry buffer still holds once codewords before `ack` are acknowledged; `from_` is the first that was not (R362). -/
def keptAfter (from_ ack : Nat) (l : List (Nat × Out)) : List (Nat × Out) :=
  l.filter fun e => !decide (cseqDist e.1 from_ < cseqDist ack from_)

/-- Every codeword of the retry buffer is sent again, in order. -/
def resendKept (p : Nat) (s : State) : State := (getPort s p).kept.foldl (fun s e => emit e.2 s) s

/-- LINK: acknowledgement, a request to resend, and credit. What the retry buffer holds from the wanted codeword on is sent again; a
codeword that has been resent 8 times takes the port down. -/
def execLink (port ackCseq : Nat) (resend : Bool) (report : LinkReport) (s : State) : Result :=
  let q := getPort s port
  if q.st != .up then .next s
  else
    let ack := ackCseq % 1024
    let base := bGzl + 0x100 + 0x20 * port
    let s := rxCodewords port 1 s
    let s := setReg (base + 8) (BitVec.ofNat 32 (satTo 32 (regN s (base + 8) + report.corrected))) s
    let same := q.txAcked == ack
    let n := if resend then (if same then q.resends + 1 else 1) else if same then q.resends else 0
    let s := if resend then setReg (base + 0x0C) (BitVec.ofNat 32 (satTo 32 (regN s (base + 0x0C) + cseqDist q.txSeq ack))) s else s
    if resend && 8 < n then .next (portFails port 2 s)
    else
      let s := updPort port (fun q =>
        takeCredits s.clock report.creds { q with txAcked := ack, resends := n, kept := keptAfter q.txAcked ack q.kept }) s
      let s := if resend then resendKept port s else s
      let l := (getPort s port).queue
      .next (portDrain port (l.length + 1) l [] s)

/-- CREDIT_STALL_TIMEOUT: no credit has come back for 10 ms while packets wait (R385). -/
def execCreditStallTimeout (dt port : Nat) (s : State) : Result :=
  let s' := pass dt s
  let q := getPort s' port
  if q.st == .up && !q.queue.isEmpty && max q.since q.creditAt + 10000000 ≤ s'.clock then .next (portFails port 4 s')
  else .next s

/-! ## Fabric time (R379, R380) -/

/-- TIME: a port's time estimate, TIME + FRAC + D at the flit's arrival; FRAC + D is rounded to 1 ns (log entry 23). TIME_OK is set by
QUALITY 0 or 1 and outlasts a flit of QUALITY 2 for its 10 µs. -/
def execTime (dt port : Nat) (time : DWord) (frac plane quality : Nat) (s : State) : Result :=
  let s' := pass dt s
  let q := getPort s' port
  if !(q.st == .up || q.st == .time) || plane != port then .next s
  else
    -- FRAC counts 2^-16 ns and delay half ns
    let est : Int := (time.toNat : Int) + (2 * (frac : Int) + 65536 * q.delay + 65536) / 131072
    let s := updPort port (fun q =>
      { q with lastTime := s'.clock, goodTime := if quality ≤ 1 then s'.clock else q.goodTime, quality := quality
               timeOk := decide (quality ≤ 1) || (q.timeOk && decide (s'.clock < q.goodTime + 10000)), offset := est - (s'.clock : Int) })
      (rxFlit port s')
    let apart := timeGood s port && (List.range 8).any fun p =>
      p != port && timeGood s p && decide (1000 < (timeOffset s p - timeOffset s port).natAbs)
    let s := if apart then
        let was := bitOf (regN s (bGzl + 8)) 7
        let s := gzlEvent 7 port s
        if was then s else timeRecord 1 (timeOffset s port) s
      else s
    if timeSource s = s.fab.source then
      .next (if s.fab.source = some port then correctTime (timeOffset s port) port s else s)
    else .next (followSource s)

/-- TIME_OK_EXPIRY: no TIME flit with QUALITY 0 or 1 for 10 µs. -/
def execTimeOkExpiry (dt port : Nat) (s : State) : Result :=
  let s' := pass dt s
  let q := getPort s' port
  if q.timeOk && q.goodTime + 10000 ≤ s'.clock then .next (followSource (updPort port (fun q => { q with timeOk := false }) s'))
  else .next s

/-- DELAY_MEASURE: a DELAY_REQ leaves, in the TIME state and again every second (R379), which Ferryman's clock counts (R29). -/
def execDelayMeasure (dt port : Nat) (s : State) : Result :=
  let s' := pass dt s
  let q := getPort s' port
  if q.st == .time || (q.st == .up && q.sentAt + 1000000000 ≤ s'.clock) then
    .next (sendFlit port 0x03 [(8, 8, s'.now.toNat)] (updPort port (fun q => { q with sentT1 := s'.now, sentAt := s'.clock }) s'))
  else .next s

/-- DELAY_RESP: the port's link delay D = ((T4 − T1) − (T3 − T2)) / 2, kept as 2·D. -/
def execDelayResp (dt port : Nat) (t1 t2 t3 : DWord) (s : State) : Result :=
  let s' := pass dt s
  let q := getPort s' port
  if (q.st == .time || q.st == .up) && t1 == q.sentT1 then
    .next (updPort port (fun q => { q with delay := ((s'.now.toNat : Int) - t1.toNat) - ((t3.toNat : Int) - t2.toNat), measured := true })
      (rxFlit port s'))
  else .next s

/-! ## Bring-up (R383, R384) -/

/-- A port enters a state of R383; Ferryman reports it (R385). -/
def portEnters (p : Nat) (st : PortState) (s : State) : State :=
  portRecord p 0 (updPort p (fun q => { q with st := st, since := s.clock }) s)

/-- PORT_SIGNAL_DETECT: signal on the lanes of an enabled DOWN port that is not waiting after a fall. -/
def execPortSignalDetect (port : Nat) (s : State) : Result :=
  let q := getPort s port
  if port < 8 && q.st == .down && !q.holdoff && portEnabled s port && s.rst.isNone && (s.fer.power == .active || s.fer.power == .idle) then
    .next (portEnters port .train s)
  else .next s

/-- PORT_TRAIN_DONE: every lane has been tested and the width is picked. -/
def execPortTrainDone (port : Nat) (failed : BitVec 17) (s : State) : Result :=
  if (getPort s port).st == .train then
    let w := widthOf (healthyLanes failed)
    let s := updPort port (fun q =>
      { q with failed := failed, width := w, spareUsed := w == 3 && !bitOf failed.toNat 16 && (failed.toNat % 65536 != 0) }) s
    if w = 0 then .next (portFails port 1 s) else .next (portEnters port .align s)
  else .next s

/-- PORT_ALIGN_DONE: codewords are locked and the port sends its PARAM flit: plane, role 0, node, receive credits (R363). -/
def execPortAlignDone (port : Nat) (s : State) : Result :=
  if (getPort s port).st == .align then
    .next (sendFlit port 0x05 ([(2, 1, port), (3, 1, 0), (4, 2, nodeId s)] ++ eightFields 8 [4096, 256, 512, 4096, 256, 4096, 512, 256])
      (portEnters port .param s))
  else .next s

/-- A port is held DOWN by R384. -/
def paramBad (port reason : Nat) (s : State) : State := gzlEvent 8 port (portFails port reason s)

/-- PARAM: a PARAM flit is checked; a node ID is taken while no port is UP and no partition is started. -/
def execParam (port plane role node : Nat) (creds : List Nat) (s : State) : Result :=
  if (getPort s port).st == .param then
    let s := rxFlit port s
    let anyUp := (List.range 8).any fun p => portUp s p
    let started := partNums.any fun n => isStarted s n
    if role ≠ 1 || plane ≠ port then .next (paramBad port 5 s)
    else if node % 65536 = 0xFFFF || ((anyUp || started) && node ≠ nodeId s) then .next (paramBad port 6 s)
    else
      let s := if !anyUp && !started then setReg (bGzl + 4) (BitVec.ofNat 32 (65536 + node % 65536)) s else s
      .next (portEnters port .time (updPort port (fun q =>
        { q with credits := ((List.range 8).zip creds).foldl (fun t e => Tbl.set 0 t e.1 e.2) [], lastCred := [], freed := [],
                  measured := false }) s))
  else .next s

/-- A port enters UP and takes back its flows (R371): a flow that comes back to its own port first has its requests on the
substitute acknowledged; one that moves onto another substitute resends them. -/
def portRises (p : Nat) (s : State) : State :=
  let before := (List.range 8).map fun f => (f, flowPort s f)
  let s := portEnters p .up s
  let s := updPort p (fun q => { q with creditAt := s.clock, degradedSince := if q.width = 3 then none else some s.clock }) s
  let moved := (before.filter fun e => flowPort s e.1 != e.2).map Prod.fst
  let back := moved.filter fun f => f == p && (before.any fun e => e.1 == f && e.2.isSome) && !flowClear s f none
  let s := { s with fab := { s.fab with returning := s.fab.returning ++ back } }
  let s := moveFlows (fun k => moved.contains (k / 8 % 8) && !back.contains (k / 8 % 8)) s
  let s := gzlEvent 1 p (if moved.isEmpty then s else gzlEvent 4 p s)
  pumpAll (followSource s)

/-- PORT_UP: the TIME state ends once D has been measured and a TIME flit has come. -/
def execPortUp (port : Nat) (s : State) : Result :=
  let q := getPort s port
  if q.st == .time && q.measured && q.since ≤ q.lastTime then .next (portRises port s) else .next s

/-- Time limits of the states of R383, in ns. -/
def stateLimit : PortState → Option Nat
  | .train => some 500000000
  | .align => some 1000000
  | .param => some 1000000
  | .time => some 10000000
  | _ => none

/-- PORT_STATE_TIMEOUT: the limit of a state is over: TIME with no TIME flits ends in UP without TIME_OK, every other case in DOWN. -/
def execPortStateTimeout (dt port : Nat) (s : State) : Result :=
  let s' := pass dt s
  let q := getPort s' port
  match stateLimit q.st with
  | some l =>
    if q.since + l ≤ s'.clock then .next (if q.st = .time && q.lastTime < q.since then portRises port s' else portFails port 9 s') else .next s
  | none => .next s

/-- PORT_RETRY: an enabled port tries again 1 s after it fell. -/
def execPortRetry (dt port : Nat) (s : State) : Result :=
  let s' := pass dt s
  let q := getPort s' port
  if q.st == .down && q.holdoff && portEnabled s' port && q.since + 1000000000 ≤ s'.clock then
    .next (updPort port (fun q => { q with holdoff := false }) s')
  else .next s

/-! ## Loss (R385, R388) -/

/-- PORT_LOSS_OF_SIGNAL: more than 12 lanes have had no signal for 1 µs. -/
def execPortLossOfSignal (dt port lanes : Nat) (s : State) : Result :=
  if portUp s port && 12 < lanes && 1000 ≤ dt then .next (portFails port 3 (pass dt s)) else .next s

/-- GZL_CTL is written: disabled ports go down, newly enabled ones may train at once. -/
def gzlCtlWrite (value : Word) (s : State) : State :=
  let old := regN s bGzl
  (List.range 8).foldl (fun s p =>
    if bitOf value.toNat p then
      (if bitOf old p then s else updPort p (fun q => { q with holdoff := false }) s)
    else if (getPort s p).st = .down then updPort p (fun q => { q with reason := 7 }) s
    else portFails p 7 s) (setReg bGzl (value &&& 0x00FF01FF) s)

/-- PORT_EN_WRITE: PF0 writes GZL_CTL. -/
def execPortEnWrite (fn : Nat) (value : Word) (s : State) : Result :=
  .next (hostPost fn (fun s => if fn = 0 && !diesDark s then gzlCtlWrite value s else s) s)

end Sys2Proof.Machine
end

