-- ==== Sys2Proof/Machine/Tree.lean ====
section
/-!
DEFINITION. The tree of a collective (R392 to R394, R401), its bursts and their numbering (R397, R400, R413), its control
packets (R409) and the END of a broadcast sender (R402).
-/
namespace Sys2Proof.Machine

/-! ## Members -/

/-- Members of a partition's peer table other than one. -/
def othersOf (s : State) (n m : Nat) : List Nat := (List.range (peerCount s n)).filter fun k => k != m

/-- Pod roots of the pods other than the root's, ascending. -/
def otherPodRoots (s : State) (n root : Nat) : List Nat :=
  (othersOf s n root).filter fun m => podOf s n m != podOf s n root && podRoot s n root (podOf s n m) == m

/-- Whom a member receives from in a reduction, and feeds in a unicast broadcast (R394, R401). -/
def collChildren (s : State) (n root m : Nat) : List Nat :=
  let pod := (podMembers s n (podOf s n m)).filter fun k => k != m
  if m = root then (othersOf s n root).filter fun k => pod.contains k || (otherPodRoots s n root).contains k
  else if (otherPodRoots s n root).contains m then pod
  else []

/-- Whom a member sends the bursts of a broadcast to (R401): with MCAST set the root reaches every other member. -/
def collFeeds (s : State) (n : Nat) (d : Desc) : List Nat :=
  let m := ownMember s n
  if bitOf (cFlags d) 2 then (if m = cRoot d then othersOf s n m else []) else collChildren s n (cRoot d) m

/-- Whose JOIN this member waits for (R409): its children, or at a broadcast's root every other member. -/
def collExpect (s : State) (n : Nat) (d : Desc) : List Nat :=
  let m := ownMember s n
  if cOp d = 0 then collChildren s n (cRoot d) m else if m = cRoot d then othersOf s n m else []

/-! ## Bursts -/

/-- A range of up to 512 elements of one entry: the entry, its first element there, its length, the elements of earlier
ranges, its first level-1 burst. It is one level-2 burst. -/
structure Chunk where
  entry : Nat
  lo : Nat
  len : Nat
  flat : Nat
  burst1 : Nat
  deriving DecidableEq, Repr

/-- Level-1 bursts of a chunk: one for each 256 elements begun. -/
def Chunk.parts (k : Chunk) : Nat := (k.len + 255) / 256

/-- The chunks of entries of some element counts, in order (R397, R413). -/
def chunksFrom : Nat → Nat → Nat → List Nat → List Chunk
  | _, _, _, [] => []
  | e, flat, b, n :: t =>
    ((List.range ((n + 511) / 512)).map fun i =>
      { entry := e, lo := 512 * i, len := min 512 (n - 512 * i), flat := flat + 512 * i, burst1 := b + 2 * i }) ++
    chunksFrom (e + 1) (flat + n) (b + (n + 255) / 256) t

/-- The chunks of a reduction. -/
def cChunks (s : State) (d : Desc) : List Chunk := chunksFrom 0 0 0 ((cEntries s d).map fun e => e.2.2.1)

/-- Bursts of an entry of a broadcast (R400): a copy's header and parcels, or its 256-byte units. -/
def bcEntry (op count : Nat) : Nat := if op = 1 then (if count = 0 then 0 else count + 1) else count

/-- Bursts of a broadcast. -/
def bcTotal (s : State) (d : Desc) : Nat := ((cEntries s d).map fun e => bcEntry (cOp d) e.2.2.1).sum

/-- The entry and the burst within it of a broadcast burst. -/
def bcFind (op : Nat) : List (Nat × Nat × Nat × Nat) → Nat → Option ((Nat × Nat × Nat × Nat) × Nat)
  | [], _ => none
  | e :: t, i => if i < bcEntry op e.2.2.1 then some (e, i) else bcFind op t (i - bcEntry op e.2.2.1)

/-! ## Packets -/

/-- A COLL_CTL packet to a member (R409): subtype, STATUS, VALUE, FIRST, NAN_COUNT, SAT_BLOCKS, COUNT2. Its TAG is 0, so that
those for one member keep their order. A held collective's packets carry the step and attempt (log entry 24). -/
def collCtl (n : Nat) (d : Desc) (m sub status value first nan sat count2 : Nat) (s : State) : State :=
  let data := leBytes 8 (collSig s n d) ++ leBytes 2 (ownMember s n) ++ leBytes 1 status ++ [0] ++ leBytes 4 value ++
    leBytes 2 first ++ zeros 2 ++ leBytes 4 nan ++ leBytes 4 sat ++ leBytes 4 count2
  let node := peerNode s n m
  sendReq n { type := 0x0D, vc := 2, node := node, flow := flowOf 0 node, tspec := sub, data := data
              stepped := d.phase == .held, tag := some 0 } (.coll n d.id) 0 s

/-- Payload of a COLL_DATA packet (R408). -/
def burstData (s : State) (n : Nat) (d : Desc) (i first nan sat contrib : Nat) (b : Bytes) : Bytes :=
  leBytes 8 (collSig s n d) ++ leBytes 4 i ++ leBytes 2 (ownMember s n) ++ leBytes 2 first ++ leBytes 4 (satTo 32 nan) ++
    leBytes 4 (satTo 32 sat) ++ leBytes 2 contrib ++ zeros 6 ++ b

/-- A COLL_DATA packet to a member: TSPEC, burst number, payload. -/
def collBurst (n : Nat) (d : Desc) (m tspec i : Nat) (data : Bytes) (s : State) : State :=
  let tag := 256 * (i % 256)
  let node := peerNode s n m
  sendReq n { type := 0x0C, vc := 3, node := node, flow := flowOf tag node, tspec := tspec, data := data
              stepped := d.phase == .held, tag := some tag } (.coll n d.id) 0 s

/-! ## END (R402) -/

/-- Bursts of a collective to a node that are not yet acknowledged. -/
def burstsOpen (s : State) (n id node : Nat) : Bool :=
  s.fab.tx.any fun e => (e.2.unacked ++ e.2.waitingQ).any fun o => o.origin == .coll n id && o.pkt.type == 0x0C && o.pkt.dst == node

/-- END goes to each member fed by this sender once it has sent every burst and those to that member are acknowledged. -/
def endDue (n : Nat) (s : State) (c : Coll) : State :=
  match findDesc s c.id with
  | some d =>
    if c.phase == .armed && cOp d != 0 && c.sent == bcTotal s d && 0 < c.sent then
      let due := (collFeeds s n d).filter fun m => !c.endSent.contains m && !burstsOpen s n c.id (peerNode s n m)
      due.foldl (fun s m => collCtl n d m 3 0 (bcTotal s d) 0 0 0 0 s)
        (updColl n c.id (fun c => { c with endSent := c.endSent ++ due }) s)
    else s
  | none => s

/-- Every END that is due is sent. -/
def endsDue (s : State) : State := partNums.foldl (fun s n => (getPart s n).colls.foldl (endDue n) s) s

end Sys2Proof.Machine
end

