-- ==== Sys2Proof/Machine/Packets.lean ====
section
/-!
DEFINITION. Packets that arrive (12): integrity, epoch and sequence (R365, R372, R374), admission (R375), what a request does (R366 to
R368, R376), replies and the sender's timers (R372, R373, R375). The commands of arriving requests are in Arrivals.lean.
-/
namespace Sys2Proof.Machine

/-! ## Arrival of a request -/

/-- What the receiver finds of a request: it is gone (discarded, or not received), a copy of an earlier one, or new. -/
inductive Arrival where
  | gone | again | fresh
  deriving DecidableEq, Repr

/-- A held packet, or one that waits in its receive buffer, blocks its VC on its port (R335, R375). -/
def vcBlocked (s : State) (p vc : Nat) : Bool :=
  (s.fab.held.any fun h => h.port == p && h.pkt.vc == vc) || s.fab.parked.any fun h => h.port == p && h.pkt.vc == vc

/-- A packet is a copy of one that is held. -/
def heldCopy (s : State) (k : Packet) : Bool :=
  s.fab.held.any fun h => h.pkt.src == k.src && h.pkt.flow == k.flow && h.pkt.vc == k.vc && h.pkt.psn == k.psn

/-- A packet waits in its receive buffer for its VC; `taken` says that its sequence has counted it. -/
def parkPacket (p : Nat) (k : Packet) (taken : Bool) (s : State) : State :=
  { s with fab := { s.fab with parked := s.fab.parked ++ [{ port := p, pkt := k, taken := taken }] } }

/-- The sequence check of R372. -/
def arriveSeq (p : Nat) (k : Packet) (s : State) : Arrival × State :=
  let exp := (getRx s k.src k.flow k.vc).expected.getD k.psn
  let d := psnDist k.psn exp
  let next (s : State) : State :=
    updRx k.src k.flow k.vc (fun r => { r with expected := some ((k.psn + 1) % 2 ^ 24), port := p }) s
  if d = 0 || (d < 2 ^ 23 && k.resync) then (.fresh, next s)
  else if d < 2 ^ 23 then
    (.gone, freeBuffer p k (sendReply p (replyTo s k 0x12 (k.vc + 4) 0 ((exp + 2 ^ 24 - 1) % 2 ^ 24) []) s))
  else (.again, s)

/-- A source's epoch taken: every sequence of the source starts anew (R374). -/
def takeEpoch (src : Nat) (e : BitVec 8) (s : State) : State :=
  { s with fab := { s.fab with epochs := Tbl.set none s.fab.epochs src (some e), rx := s.fab.rx.filter fun x => x.1 / 64 != src } }

/-- A packet whose ECRC fails is discarded and counted (R365). -/
def badEcrc (p : Nat) (k : Packet) (s : State) : State := freeBuffer p k (incReg (bGzl + 0x100 + 0x20 * p + 0x10) s)

/-- The epoch check of R374 before the sequence check. -/
def arriveCheck (p : Nat) (k : Packet) (s : State) : Arrival × State :=
  match s.fab.epochs.get none k.src with
  | some e =>
    if e = k.epoch then arriveSeq p k s
    else if (k.epoch - e).toNat < 128 then arriveSeq p k (takeEpoch k.src k.epoch s)
    else (.gone, freeBuffer p k s)
  | none => arriveSeq p k (takeEpoch k.src k.epoch s)

/-- A request has come on an UP port; `go` handles it when its VC is not blocked. On a blocked VC a copy of a held packet is told HELD
again, and any other waits behind (R375). -/
def arriveOn (p : Nat) (k : Packet) (go : State → State) (s : State) : State :=
  if !portUp s p then s
  else
    let s := rxCodewords p (pktCodewords k) s
    if k.ecrc != pktEcrc k then badEcrc p k s
    else if !vcBlocked s p k.vc then go s
    else if heldCopy s k && !k.mcast then freeBuffer p k (sendAck p k 4 s)
    else parkPacket p k false s

/-! ## Acknowledgement (R372) -/

/-- The PSN that a cumulative ACK may carry: below the oldest request of the sequence that is still open. -/
def ackPsn (r : SeqRx) : Nat :=
  let exp := r.expected.getD 0
  let back (k : Nat) : Nat := psnDist exp k
  match r.openPsns.foldl (fun (b : Option Nat) k =>
      match b with
      | some j => if back j < back k then some k else some j
      | none => some k) none with
  | some k => (k + 2 ^ 24 - 1) % 2 ^ 24
  | none => (exp + 2 ^ 24 - 1) % 2 ^ 24

/-- A cumulative ACK is sent for a sequence; its TAG and JOB are those of the last request carried out (log entry 119). -/
def sendCumulative (node flow vc : Nat) (s : State) : State :=
  let r := getRx s node flow vc
  sendAck r.port (replyStub node flow vc (ackPsn r) r.tag r.job) 0 (updRx node flow vc (fun r => { r with owed := 0 }) s)

/-- A request has been carried out: it is owed an ACK, sent with the sixteenth. -/
def countOwed (node flow vc tag job : Nat) (s : State) : State :=
  let s := updRx node flow vc (fun r =>
    { r with owed := r.owed + 1, owedSince := if r.owed = 0 then s.clock else r.owedSince, tag := tag, job := job }) s
  if 16 ≤ (getRx s node flow vc).owed then sendCumulative node flow vc s else s

/-- A packet has been carried out. -/
def owePacket (k : Packet) (s : State) : State := countOwed k.src k.flow k.vc k.tag k.job s

/-- A request of a sequence is no longer open. -/
def closePsn (node flow vc psn : Nat) (s : State) : State :=
  updRx node flow vc (fun r => { r with openPsns := r.openPsns.filter fun k => k != psn }) s

/-- CUMULATIVE_ACK: 100 ns after the first request without one. -/
def execCumulativeAck (dt node flow vc : Nat) (s : State) : Result :=
  let s' := pass dt s
  let r := getRx s' node flow vc
  if flow < 8 && vc < 8 && r.owed ≠ 0 && r.owedSince + 100 ≤ s'.clock then .next (sendCumulative node flow vc s') else .next s

/-! ## Admission (R375) -/

/-- A write into the range of an outstanding reload from its owner (R269, R277). -/
def inReload (s : State) (n : Nat) (k : Packet) (a len : Nat) : Bool :=
  !k.stepValid && (openStep s n).any fun t =>
    t.reloads.any fun r => r.node == k.src && decide (r.addr ≤ a) && decide (a + len ≤ r.addr + r.len)

/-- One range of a fabric access is accepted (R295): no STASH, no reserved bit, inside the quota. -/
def fabricOk (s : State) (n : Nat) (k : Packet) (a len : Nat) (write : Bool) : Bool :=
  !gStash a && !gRsv a && quotaOk s n (gLocal a) len (write && !inReload s n k (gLocal a) len)

/-- Scale bytes of a parcel of a PARCEL packet. -/
def pktScales (k : Packet) : Nat := parcelBlocks (fmtWidth (bitsOf k.tspec 0 4))

/-- The ranges that a request accesses: address, length, whether it writes. -/
def pktRanges (k : Packet) : List (Nat × Nat × Bool) :=
  match k.type with
  | 0x01 => [(k.addr.toNat, k.tspec, false)]
  | 0x02 => [(k.addr.toNat, k.payload.length, true)]
  | 0x03 => [(k.addr.toNat / 4 * 4, k.payload.length / 4 * 4, true)]
  | 0x04 => [(k.addr.toNat / 8 * 8, k.payload.length / 8 * 8, true)]
  | 0x05 =>
    [(k.addr.toNat, 256, true), (leAt k.ext 0 6, pktScales k, true), (leAt k.ext 6 6, 4, true)] ++
      (if bitOf k.tspec 4 then [(leAt k.ext 12 6, 32, true)] else [])
  | _ => []

/-- R295 accepts a request. -/
def fits (s : State) (n : Nat) (k : Packet) : Bool := (pktRanges k).all fun r => fabricOk s n k r.1 r.2.1 r.2.2

/-- How a request's attempt stands to the partition's (R263): −1 earlier, 1 later, 0 neither. A CONTROL packet has STEP_VALID 0
(R269). -/
def attemptOrder (s : State) (n : Nat) (k : Packet) : Int :=
  match openStep s n with
  | some t =>
    if k.stepValid && t.num.toNat % 2 ^ 24 == k.step.toNat then
      (if k.attempt < t.attempt then -1 else if t.attempt < k.attempt then 1 else 0)
    else 0
  | none => 0

/-- A packet of an abandoned attempt is discarded (R263). -/
def stalePacket (p : Nat) (k : Packet) (n : Nat) (s : State) : State :=
  sendAck p k 1 (postEvent { kind := 0x0D, part := n, detail := 1 } (incReg (bSlwDev + 8) s))

/-- No started partition holds the packet's JOB. -/
def noJob (p : Nat) (k : Packet) (s : State) : State :=
  if k.type = 0x09 then sendVerdict k.src k.flow k.vc k.psn k.tag k.job p 3 (incReg (bSyn + 4) s)
  else sendAck p k 3 (if k.type = 0x08 then incReg (bSyn + 4) s else s)

/-- The packet of a SIGNAL part (R368). -/
def sgInc (k : Packet) : Nat := leAt k.payload 0 4
def sgIndex (k : Packet) : Nat := leAt k.payload 4 2 % 2 ^ 14
def sgParts (k : Packet) : Nat := leAt k.payload 6 1
def sgId (k : Packet) : Word := BitVec.ofNat 32 (leAt k.payload 8 4)

/-- Every part of a signal is acknowledged when the increment has been applied. -/
def ackParts (l : List Origin) (s : State) : State :=
  l.foldl (fun s o =>
    match o with
    | .remote node flow vc psn tag job _ => countOwed node flow vc tag job (closePsn node flow vc psn s)
    | _ => s) s

/-- The store of 1,024 incomplete signals has no room for a packet: a part of a signal of several parts that it does not know (R335). -/
def signalFull (s : State) (k : Packet) : Bool :=
  k.type == 0x08 && decide (1 < sgParts k) && decide (1024 ≤ s.syn.gathers.length) &&
    !(s.syn.gathers.any fun g => g.node == k.src && g.sigId == sgId k)

/-- A SIGNAL part is gathered; the last part brings the increment (R335, R368). -/
def takeSignal (p : Nat) (k : Packet) (n : Nat) (s : State) : State :=
  let me : Origin := .remote k.src k.flow k.vc k.psn k.tag k.job p
  let s := updRx k.src k.flow k.vc (fun r => { r with openPsns := r.openPsns ++ [k.psn] }) s
  let old := s.syn.gathers.find? fun g => g.node == k.src && g.sigId == sgId k
  let g : Gather := match old with
    | some g => { g with seen := if g.seen.contains k.tspec then g.seen else g.seen ++ [k.tspec], origins := g.origins ++ [me] }
    | none => { node := k.src, sigId := sgId k, part := n, index := sgIndex k, inc := sgInc k, parts := sgParts k
                seen := [k.tspec], origins := [me] }
  let rest := s.syn.gathers.filter fun g => !(g.node == k.src && g.sigId == sgId k)
  if g.parts ≤ g.seen.length then
    let s := { s with syn := { s.syn with gathers := rest } }
    let s := (applySignal g.part g.index g.inc true s).2
    ackParts g.origins (leaveIdle (slotReturn g.part s))
  else { s with syn := { s.syn with gathers := rest ++ [g] } }

/-- A request is carried out for a partition. -/
def applyReq (p : Nat) (k : Packet) (n : Nat) (s : State) : State :=
  let owed (s : State) : State := owePacket k (leaveIdle s)
  match k.type with
  | 0x01 =>
    let r := memGet n 0 k.hint (gLocal k.addr.toNat) k.tspec s
    sendReply p (replyTo r.2 k 0x11 5 0 k.psn r.1) (leaveIdle r.2)
  | 0x02 => owed (memPut n 0 k.hint (gLocal k.addr.toNat) k.payload s)
  | 0x03 => owed (memAdd n 0 k.hint true (gLocal k.addr.toNat) k.payload s)
  | 0x04 => owed (memAdd n 0 k.hint false (gLocal k.addr.toNat) k.payload s)
  | 0x05 =>
    let m := pktScales k
    -- the scales are padded to a multiple of four bytes (R64)
    let c := 256 + (m + 3) / 4 * 4
    let s := memPut n 0 k.hint (gLocal k.addr.toNat) (sliceB k.payload 0 256) s
    let s := memPut n 0 k.hint (gLocal (leAt k.ext 0 6)) (sliceB k.payload 256 m) s
    let s := memPut n 0 k.hint (gLocal (leAt k.ext 6 6)) (sliceB k.payload c 4) s
    owed (if bitOf k.tspec 4 then memPut n 0 k.hint (gLocal (leAt k.ext 12 6)) (sliceB k.payload (c + 4) 32) s else s)
  | 0x08 => takeSignal p k n s
  | 0x09 =>
    let w : Wait :=
      { part := n, issuer := 0, index := leAt k.payload 0 2, expected := BitVec.ofNat 64 (leAt k.payload 8 8)
        deadline := BitVec.ofNat 48 (leAt k.payload 16 6), origin := .remote k.src k.flow k.vc k.psn k.tag k.job p }
    takeWait w (owePacket k s)
  | _ => s

/-- A packet is held for a later attempt. -/
def holdPacket (p : Nat) (k : Packet) (s : State) : State :=
  sendAck p k 4 (updRx k.src k.flow k.vc (fun r => { r with openPsns := r.openPsns ++ [k.psn] })
    { s with fab := { s.fab with held := s.fab.held ++ [{ port := p, pkt := k, at_ := s.clock }] } })

/-- A copy of an earlier request (R372, R375). One whose first copy is not carried out yet is acknowledged up to where its sequence is. -/
def duplicate (p : Nat) (k : Packet) (s : State) : State :=
  if heldCopy s k then sendAck p k 4 s
  else if k.type = 0x01 then
    match jobPart s k.job with
    | some n => if fits s n k then applyReq p k n s else sendAck p k 2 s
    | none => sendAck p k 3 s
  else if k.type = 0x09 then
    match (getRx s k.src k.flow k.vc).verdicts.find? fun v => v.1 == k.psn with
    | some v => sendReply p (replyTo s k 0x13 6 v.2 k.psn []) s
    | none => s
  else if (getRx s k.src k.flow k.vc).openPsns.contains k.psn then sendCumulative k.src k.flow k.vc s
  else sendAck p k 0 s

/-- A new request is admitted, refused, discarded or held (R375), or waits while the signal store is full (R335); `app` carries it out. -/
def admitNew (p : Nat) (k : Packet) (app : Nat → State → State) (s : State) : State :=
  match jobPart s k.job with
  | none => freeBuffer p k (noJob p k s)
  | some n =>
    if !fits s n k then freeBuffer p k (sendAck p k 2 (incReg (ctx bGzlCtx n 4) s))
    else if attemptOrder s n k < 0 then freeBuffer p k (stalePacket p k n s)
    else if 0 < attemptOrder s n k then holdPacket p k s
    else if signalFull s k then parkPacket p k true (updRx k.src k.flow k.vc (fun r => { r with openPsns := r.openPsns ++ [k.psn] }) s)
    else freeBuffer p k (app n s)

/-- A request whose VC is free is handled. -/
def admitPacket (p : Nat) (k : Packet) (app : Nat → State → State) (s : State) : State :=
  match arriveCheck p k s with
  | (.gone, s) => s
  | (.again, s) => freeBuffer p k (duplicate p k s)
  | (.fresh, s) => admitNew p k app s

/-- A packet that its sequence has counted is taken up again. -/
def readmit (p : Nat) (k : Packet) (app : Nat → State → State) (s : State) : State :=
  admitNew p k app (closePsn k.src k.flow k.vc k.psn s)

/-- Packets held for a partition are looked at again when an attempt begins: those of the attempt are applied, those of an
earlier one discarded. `app` carries a request out. -/
def applyHeld (app : Nat → Packet → Nat → State → State) (n : Nat) (s : State) : State :=
  let due (h : HeldPkt) : Bool := jobPart s h.pkt.job == some n && attemptOrder s n h.pkt ≤ 0
  let l := s.fab.held.filter due
  let s := { s with fab := { s.fab with held := s.fab.held.filter fun h => !due h } }
  l.foldl (fun s h => readmit h.port h.pkt (app h.port h.pkt) s) s

/-! ## Requests -/

/-- A packet of a type on the VC of R366. -/
def isPkt (k : Packet) (type vc : Nat) : Bool := k.type == type && k.vc == vc && k.flow < 8 && !k.mcast

/-- RESERVED_PACKET_TYPE: a packet of a TYPE that R366 reserves is discarded. -/
def execReservedPacketType (port : Nat) (pkt : Packet) (s : State) : Result :=
  if portUp s port && ! [1, 2, 3, 4, 5, 8, 9, 0xA, 0xC, 0xD, 0x10, 0x11, 0x12, 0x13].contains pkt.type then
    let s := rxCodewords port (pktCodewords pkt) s
    if pkt.ecrc != pktEcrc pkt then .next (badEcrc port pkt s) else .next (freeBuffer port pkt s)
  else .next s

/-! ## CONTROL messages of Slipway that the transport itself completes (R269) -/

/-- The 16 bytes that start every CONTROL payload: STEP, ATTEMPT, FLAGS, MEMBER, four bytes of the subtype. -/
def controlHead (s : State) (n attempt flags : Nat) (four : Bytes) : Bytes :=
  leBytes 8 (((openStep s n).map fun t => t.num.toNat).getD 0) ++ leBytes 1 attempt ++ leBytes 1 flags ++
    leBytes 2 (ownMember s n) ++ four

/-- A CONTROL packet to a member's node; its TAG gives its flow (R370). -/
def sendControl (n node subtype : Nat) (data : Bytes) (s : State) : State :=
  let tag := s.fab.tagNo
  sendReq n { type := 0x0A, vc := 2, node := node, flow := flowOf tag node, tspec := subtype, data := data, tag := some tag }
    (.slipway n) 0 { s with fab := { s.fab with tagNo := (tag + 1) % 65536 } }

/-- RELOAD_DONE: 0 sent, 1 no such copy, 2 read failed, and the DIGEST field of the copy as sent. -/
def sendReloadDone (n node status : Nat) (digest : Bytes) (s : State) : State :=
  sendControl n node 0x13 (controlHead s n (((openStep s n).map Step.attempt).getD 0) 0 (leBytes 1 status ++ zeros 3) ++ digest) s

/-- A copy that this device sends as its owner has been acknowledged whole: RELOAD_DONE goes out. -/
def reloadsServed (s : State) : State :=
  partNums.foldl (fun s n =>
    let beyond := (getPart s n).serving.filter fun r => openRequests s (fun o => o == .reload n r.node r.entry) == 0
    let s := updPart n (fun p => { p with serving := p.serving.filter fun r => !beyond.contains r }) s
    beyond.foldl (fun s r => sendReloadDone n r.node 0 (devRd s (r.addr + 48) 16) s) s) s

/-! ## Replies -/

/-- A reply of a type arrives on a port: its ECRC holds; the destination's time-outs on that port start anew. -/
def takeReply (type port : Nat) (k : Packet) (go : Nat → Bool → State → State) (s : State) : State :=
  if !portUp s port || k.type != type || !(4 ≤ k.vc && k.vc < 8) || 8 ≤ k.flow then s
  else
    let s := rxCodewords port (pktCodewords k) s
    if k.ecrc != pktEcrc k then badEcrc port k s
    else
      let s := updDest k.src (fun d => { d with timeouts := Tbl.set 0 d.timeouts port 0 }) (freeBuffer port k s)
      let s := go (seqKey k.src k.flow (k.vc - 4)) (portDegraded s port k.flow) s
      flowsReturn (endsDue (reloadsServed s))

/-- ACK: cumulative, but for HELD, which names its own request only; STALE, QUOTA and NOJOB end theirs (R372, R375). -/
def execAck (port : Nat) (pkt : Packet) (s : State) : Result :=
  .next (takeReply 0x10 port pkt (fun key deg s =>
    if pkt.tspec = 4 then
      { s with fab := { s.fab with tx := Tbl.upd {} s.fab.tx key fun t => { t with
          unacked := t.unacked.map (fun o => if o.psn = pkt.psn then { o with held := o.held <|> some s.clock } else o) } } }
    else if pkt.tspec = 0 then
      let s := if ((Tbl.get ({} : SeqTx) s.fab.tx key).unacked.any fun o => o.psn == pkt.psn && o.held.isSome) then
          retireOne key pkt.psn .ok deg s else s
      retireUpTo key pkt.psn deg s
    else retireOne key pkt.psn (.refused pkt.tspec) deg (retireUpTo key ((pkt.psn + 2 ^ 24 - 1) % 2 ^ 24) deg s)) s)

/-- READ_DATA: a COPY's bytes go on to its destination. -/
def execReadData (port : Nat) (pkt : Packet) (s : State) : Result :=
  .next (takeReply 0x11 port pkt (fun key deg s =>
    let o := (Tbl.get ({} : SeqTx) s.fab.tx key).unacked.find? fun o => o.psn == pkt.psn
    let s := retireOne key pkt.psn (.data pkt.payload) deg s
    match o.map Sent.origin with
    | some (.desc id) => copyForward id s
    | _ => s) s)

/-- VERDICT. -/
def execVerdict (port : Nat) (pkt : Packet) (s : State) : Result :=
  .next (takeReply 0x13 port pkt (fun key deg s => retireOne key pkt.psn (.verdict pkt.tspec) deg s) s)

/-! ## Time-outs and unreachable destinations (R373) -/

/-- The flows that a port carries move to a substitute for one destination, those on their way back from it too; with none left the
destination is unreachable. -/
def moveDest (node port : Nat) (s : State) : State :=
  let onPort (f : Nat) : Bool := s.fab.tx.any fun e => e.1 / 64 == node && e.1 / 8 % 8 == f && e.2.open.any fun o => o.port == port
  let flows := (List.range 8).filter fun f => destPort s node f == some port || onPort f
  let s := updDest node (fun d => { d with
    tried := if d.tried.contains port then d.tried else d.tried ++ [port], timeouts := Tbl.set 0 d.timeouts port 0, since := s.clock
    returning := d.returning.filter fun f => !flows.contains f }) s
  if (List.range 8).any fun p => portUp s p && !(getDest s node).tried.contains p then
    pumpAll (moveFlows (fun k => k / 64 == node && flows.contains (k / 8 % 8)) (gzlEvent 4 port s))
  else destUnreachable node s

/-- NAK: SEQ makes the sender resend from the expected PSN, the one after that of the NAK (log entry 20); UNREACH moves the port's flows
for the destination. -/
def execNak (port : Nat) (pkt : Packet) (s : State) : Result :=
  .next (takeReply 0x12 port pkt (fun key _ s =>
    if pkt.tspec = 0 then resendSome key (fun o => decide (psnDist o.psn ((pkt.psn + 1) % 2 ^ 24) < 2 ^ 23)) s
    else moveDest pkt.src port s) s)

/-- ACK_TIMEOUT: the oldest unacknowledged request of a sequence has had no reply for ACK_TIMEOUT since it was last sent. -/
def execAckTimeout (dt node flow vc : Nat) (s : State) : Result :=
  let s' := pass dt s
  match (getTx s' node flow vc).open with
  | [] => .next s
  | o :: _ =>
    if flow < 8 && vc < 8 && o.at_ + ackTimeout s' ≤ s'.clock then
      match sendPort s' o with
      | none => .next (destUnreachable node s')
      | some p =>
        let k := (getDest s' node).timeouts.get 0 p + 1
        let s' := updDest node (fun d => { d with timeouts := Tbl.set 0 d.timeouts p k }) s'
        if 4 ≤ k then .next (moveDest node p s') else .next (resendSeq (seqKey node flow vc) s')
    else .next s

/-- A destination's own ports are tried again: flows that change their port go back by R371, so those with requests outstanding on a
substitute wait for these first. -/
def destReturns (node : Nat) (s : State) : State :=
  let moved := (List.range 8).filter fun f => (destPort s node f).isSome && destPort s node f != flowPort s f
  let s := updDest node (fun _ => { returning := moved.filter fun f => !flowClear s f (some node) }) s
  pumpAll (match moved with
    | [] => s
    | f :: _ => gzlEvent 4 ((flowPort s f).getD 0) s)

/-- DESTINATION_RETRY: 1 s after a move or the failure the destination's own ports are tried again. -/
def execDestinationRetry (dt node : Nat) (s : State) : Result :=
  let s' := pass dt s
  let d := getDest s' node
  if (d.unreachable || !d.tried.isEmpty) && d.since + 1000000000 ≤ s'.clock then .next (destReturns node s') else .next s

/-- HELD_REPLY_TIMEOUT: no final reply 1 s after ACK HELD. -/
def execHeldReplyTimeout (dt node flow vc psn : Nat) (s : State) : Result :=
  let s' := pass dt s
  match (getTx s' node flow vc).unacked.find? fun o => o.psn == psn with
  | some o =>
    match o.held with
    | some t =>
      if flow < 8 && vc < 8 && t + 1000000000 ≤ s'.clock then
        .next (flowsReturn (retireOne (seqKey node flow vc) psn .unreachable false s'))
      else .next s
    | none => .next s
  | none => .next s

end Sys2Proof.Machine
end

