-- ==== Sys2Proof/Machine/Collectives.lean ====
section
/-!
DEFINITION. The collective engine (13): descriptors (R403 to R406, R413), arming and joining (R405, R407, R410), reductions
(R394 to R399), broadcasts (R400 to R402), endings (R411).
-/
namespace Sys2Proof.Machine

/-! ## Descriptors -/

/-- Reserved bits of the body (R403); a fused one also has DST reserved. -/
def collRsvOk (d : Desc) : Bool :=
  bitsOf (d.at 17 1) 4 4 == 0 && bitsOf (d.at 24 4) 30 2 == 0 && bitsOf (d.at 44 2) 14 2 == 0 && bitsOf (d.at 46 2) 14 2 == 0 &&
  bitsOf (d.at 52 2) 12 4 == 0 && bitsOf (d.at 54 1) 4 4 == 0 && zeroAt d.bytes [(55, 1), (62, 2)] &&
  (!cFused d || d.at 38 6 == 0)

/-- FMT of a broadcast copy, zero for the other operations. -/
def collFmt (d : Desc) : Nat := bitsOf (d.at 54 1) 0 4

/-- Level-0 sources (R403). -/
def cSources (d : Desc) : Nat := bitsOf (d.at 16 1) 4 4 + 1

/-- Bytes from one level-0 source to the next (R396). -/
def sourcePitch (count : Nat) : Nat := 256 * ((4 * count + 255) / 256)

/-- HAS_OUTL of a copy's header in memory. -/
def hasOutl (s : State) (base : Nat) : Bool := bitOf (leNat (devRd s (base + 2) 1)) 6

/-- The ranges that this member uses for an entry: address, length, whether it writes. A copy's outlier tensor counts at the root, as the
header that its source has now says; a receiver, which has no header yet, checks each part of a burst as it comes (log entry 25). -/
def entryRanges (s : State) (root : Bool) (d : Desc) (e : Nat × Nat × Nat × Nat) : List (Nat × Nat × Bool) :=
  let n := e.2.2.1
  if n = 0 then [] else
  match cOp d with
  | 0 => (e.1, (cSources d - 1) * sourcePitch n + 4 * n, false) ::
      (if root then [(e.2.1, (if bitOf (cFlags d) 3 then 2 else 4) * n, true)] else [])
  | 1 =>
    let len := (copyLayout (collFmt d) n (root && quotaOk s d.fn e.1 64 false && hasOutl s e.1)).2.2.2
    [if root then (e.1, len, false) else (e.2.1, len, true)]
  | _ => [if root then (e.1, 256 * n, false) else (e.2.1, 256 * n, true)]

/-- The status with which a collective is refused or completed at acceptance (R404), in table order. -/
def collAccept (s : State) (d : Desc) : Option Status :=
  let n := d.fn
  let fused := cFused d
  let list (m : Nat) : Bool := quotaOk s n (d.at 32 6) (32 * m) false && d.at 32 6 % 64 == 0
  if n = 0 then some .descNotPermitted
  else if !collRsvOk d || 2 < cOp d || (if cOp d = 1 then !fmtNarrow (collFmt d) else collFmt d != 0) ||
      peerCount s n ≤ cRoot d || !collEn s n then some .descMalformed
  else if cCount d = 0 then some .ok
  else if fused && (256 < cCount d || !list (cCount d)) then some .descBounds
  else if fused && !((List.range (cCount d)).all fun i => zeroAt (devRd s (d.at 32 6 + 32 * i) 32) [(18, 14)]) then some .descMalformed
  else if cTotal s d = 0 then some .ok
  else if (cOp d = 0 && (cEntries s d).any fun e => 2 ^ 28 < e.2.2.1) ||
      !(((cEntries s d).map (entryRanges s (collIsRoot s n d) d)).flatten.all fun r => r.1 % 256 == 0 && quotaOk s n r.1 r.2.1 r.2.2) ||
      (getPart s n).pcount ≤ d.at 44 2 || (getPart s n).pcount ≤ d.at 46 2 then some .descBounds
  else if (openStep s n).isSome && 1024 ≤ ((getPart s n).colls.filter fun c => (findDesc s c.id).any fun e => e.phase == .held).length then
    some .descBounds
  else none

/-- A collective outside a step starts: it can be armed. -/
def collStart (d : Desc) (s : State) : State := setPhase d.id .started s

/-- A collective is accepted (R404 to R406): held while a step is open; its trigger base outside one is the counter's value
now. -/
def collHold (d : Desc) (s : State) : State :=
  let n := d.fn
  let b : DWord := match counterOf s n (d.at 44 2 % 2 ^ 14) with
    | some c => getCounter s c
    | none => 0
  let s := updPart n (fun p => { p with colls := p.colls ++ [{ id := d.id, base := b }] }) s
  if (openStep s n).isSome then setPhase d.id .held s else acceptThen d collStart s

/-- Acceptance of a collective of an opcode. -/
def collAcceptOp (op id : Nat) (s : State) : State :=
  match atAcceptance s id op with
  | some d => checked d (collAccept s d) (collHold d) s
  | none => s

/-- COLLECTIVE. -/
def execCollective (id : Nat) (s : State) : Result := .next (collAcceptOp 0x20 id s)

/-- COLLECTIVE_FUSED. -/
def execCollectiveFused (id : Nat) (s : State) : Result := .next (collAcceptOp 0x21 id s)

/-! ## Time (R405, R406) -/

/-- Shift of a held collective's times: the gate of the attempt less the gate of attempt 0 (R406). -/
def collShift (s : State) (d : Desc) : DWord :=
  match d.phase, openStep s d.fn with
  | .held, some t => t.gate - t.gate0
  | _, _ => 0

/-- The not-before time has come. -/
def collTimeCome (s : State) (d : Desc) : Bool := !d.nb || timeReached (now48 s) (d.notBefore + (collShift s d).setWidth 48)

/-- The deadline has come. -/
def collDeadlineCome (s : State) (d : Desc) : Bool :=
  timeReached (now48 s) (BitVec.ofNat 48 (d.at 56 6) + (collShift s d).setWidth 48)

/-- The trigger is met (R405): the counter has reached B + TRIG_VALUE and is not saturated. -/
def collTriggered (s : State) (d : Desc) (c : Coll) : Bool :=
  if !bitOf (cFlags d) 0 then true else
  let i := d.at 44 2 % 2 ^ 14
  let b : DWord := if d.phase == .held then BitVec.ofNat 64 (leNat (devRd s (reg64 s (ctx bSlwCtx d.fn 0x14) + 8 * i) 8)) else c.base
  match counterOf s d.fn i with
  | some k => !isSaturated s k && decide ((b + BitVec.ofNat 64 (d.at 48 4)).toNat ≤ (getCounter s k).toNat)
  | none => false

/-- Set-up in ns (R414). -/
def collSetup (d : Desc) : Nat := 77 + (if cFused d then 4 * cCount d else 0)

/-! ## Aborts (R411) -/

/-- The root aborts a collective at every member, naming one. -/
def collAbortAll (n : Nat) (d : Desc) (first : Nat) (s : State) : State :=
  match findColl s n d.id with
  | some c =>
    if !c.open then s
    else endColl n d.id .collMismatch first ((othersOf s n (ownMember s n)).foldl (fun s m => collCtl n d m 7 0x30 0 first 0 0 0 s) s)
  | none => s

/-- A receiving point has found a member's signature to differ from its own. -/
def collMismatch (n : Nat) (d : Desc) (m : Nat) (s : State) : State :=
  if collIsRoot s n d then collAbortAll n d m s else collCtl n d (cRoot d) 7 0x30 0 m 0 0 0 s

/-! ## Reductions: level 0 (R396) -/

/-- FP32 words of a source. -/
def wordsOf : Nat → Bytes → List Word
  | 0, _ => []
  | k + 1, b => BitVec.ofNat 32 (leAt b 0 4) :: wordsOf k (b.drop 4)

/-- One rounding per addition (R41, R43). -/
def addWords (a b : List Word) : List Word := (a.zip b).map fun p => BitVec.ofNat 32 (addFp32 p.1.toNat p.2.toNat)

/-- The sources of one entry added in ascending order. -/
def level0 (n : Nat) (d : Desc) (e : Nat × Nat × Nat × Nat) (s : State) : List Word × State :=
  (List.range (cSources d)).foldl (fun (x : List Word × State) i =>
    let r := memGet n 0 0 (e.1 + i * sourcePitch e.2.2.1) (4 * e.2.2.1) x.2
    let w := wordsOf e.2.2.1 r.1
    (if i = 0 then w else addWords x.1 w, r.2)) ([], s)

/-- The member's own contribution, entry after entry. -/
def level0All (n : Nat) (d : Desc) (s : State) : List Word × State :=
  (cEntries s d).foldl (fun (x : List Word × State) e =>
    let r := level0 n d e x.2
    (x.1 ++ r.1, r.2)) ([], s)

/-! ## Reductions: bursts (R394, R397) -/

/-- Format of a level: E4M3 at level 1, E2M1 at level 2. -/
def levelFmt (two : Bool) : Nat := if two then fE2M1 else fE4M3

/-- FP32 values narrowed into one parcel burst of a level (R84, R85): the burst, its NaN count, its saturated blocks. `j` is the
first block's place in its entry. -/
def narrowBurst (two : Bool) (sig j : Nat) (v : List Word) : Bytes × Nat × Nat :=
  let fmt := levelFmt two
  let w := fmtWidth fmt
  let c : CopyPar := { fmt := fmt, prop := false, ts := 0x3F800000, rot := two, seed := sig, k := 0, tau := 0x41000000 }
  let run := v.map fun x => fp32Num x.toNat
  let nb := (v.length + 31) / 32
  let grid := (List.range (parcelBlocks w)).map fun b => if b < nb then some (j + b, runBlock run b) else none
  let blk := narrowSlots c (recipScale 0x3F800000) 6 grid
  let p := packParcel w false blk
  let st := (blk.filterMap id).foldl statsAdd {}
  (p.data ++ p.scales ++ zeros (burstScales w - p.scales.length) ++ p.crc, st.nan, st.sat)

/-- The parcel of a burst (R64). -/
def burstParcel (fmt : Nat) (b : Bytes) : Parcel :=
  let w := fmtWidth fmt
  { data := sliceB b 0 256, scales := sliceB b 256 (parcelBlocks w), crc := sliceB b (256 + burstScales w) 4, outl := [] }

/-- A burst's elements in FP32 (R96). -/
def dequantBurst (two : Bool) (sig j : Nat) (b : Bytes) (n : Nat) : List Word :=
  let fmt := levelFmt two
  let w := fmtWidth fmt
  let p := burstParcel fmt b
  ((List.range ((n + 31) / 32)).map fun i =>
    let u := blockValues fmt 0x3F800000 (p.scales.getD i 0).toNat (unpackBlock w (sliceB p.data (blockBytes w * i) (blockBytes w))) []
    (if two then unrotate sig (j + i) u else u).map fun x => BitVec.ofNat 32 (toFp32 x)).flatten.take n

/-! ## Reductions: adding (R398, R399) -/

/-- A member's bursts are of level 2 at this receiving point. -/
def secondLevel (s : State) (n : Nat) (d : Desc) (m : Nat) : Bool := (otherPodRoots s n (cRoot d)).contains m && collIsRoot s n d

/-- Ordered mode (R398). -/
def collOrdered (s : State) (n : Nat) : Bool := bitOf (regN s (ctx bSlwCtx n 0)) 2 || (openStep s n).any Step.ordered

/-- The window (R410). -/
def collWindow (s : State) (n children : Nat) : Nat :=
  if collOrdered s n then 512 * (4194304 / (512 * (4 + children))) else 524288

/-- Burst numbers of a child that cover chunk `i`. -/
def coverOf (two : Bool) (i : Nat) (k : Chunk) : List Nat :=
  if two then [i] else (List.range k.parts).map fun p => k.burst1 + p

/-- Children whose bursts for a chunk have not all come. -/
def chunkLacks (s : State) (n : Nat) (d : Desc) (c : Coll) (i : Nat) (k : Chunk) : List Nat :=
  (collChildren s n (cRoot d) (ownMember s n)).filter fun m => !((coverOf (secondLevel s n d m) i k).all fun b => c.got.contains (m, b))

/-- One term of an element's sum: the order it takes, its first element in the chunk, its values. -/
structure Term where
  order : Nat
  lo : Nat
  vals : List Word
  deriving DecidableEq, Repr

/-- Terms put in order; equal orders keep their places. -/
def insertTerm (t : Term) : List Term → List Term
  | [] => [t]
  | u :: r => if u.order ≤ t.order then u :: insertTerm t r else t :: u :: r

/-- The value a term has for an element of the chunk. -/
def Term.get (t : Term) (j : Nat) : Option Word := if t.lo ≤ j then t.vals[j - t.lo]? else none

/-- The sum of the terms that cover an element, in order, one rounding per addition. -/
def sumTerms (l : List Term) (j : Nat) : Word :=
  ((l.filterMap fun t => t.get j).foldl (fun (a : Option Word) v =>
    match a with
    | none => some v
    | some x => some (BitVec.ofNat 32 (addFp32 x.toNat v.toNat))) none).getD 0

/-- The sums of a chunk: from the member's own values in order of arrival, or in ascending member index (R398). -/
def chunkSums (s : State) (n : Nat) (d : Desc) (c : Coll) (i : Nat) (k : Chunk) : List Word :=
  let ord := collOrdered s n
  let own : Term := { order := if ord then ownMember s n else 0, lo := 0, vals := (c.own.drop k.flat).take k.len }
  let bursts := c.kept.filter fun b => (coverOf (secondLevel s n d b.member) i k).contains b.index
  let terms := bursts.map fun b =>
    { order := if ord then b.member else 1, lo := if secondLevel s n d b.member then 0 else 256 * (b.index - k.burst1)
      vals := b.vals : Term }
  let l := (own :: terms).foldl (fun l t => insertTerm t l) []
  (List.range k.len).map (sumTerms l)

/-- The root's final write of an element (R399): the bytes, a NaN counted, a saturation counted. -/
def finalWord (bf16 : Bool) (v : Word) : Bytes × Nat × Nat :=
  let fmt := if bf16 then fBF16 else fFP32
  let len := if bf16 then 2 else 4
  match fp32Num v.toNat with
  | .nan => (zeros len, 1, 0)
  | x => let w := writeNum fmt false x; (leBytes len w.code, 0, b2n w.sat)

/-- A chunk leaves the bursts it was made of. -/
def dropChunk (s : State) (n : Nat) (d : Desc) (i : Nat) (k : Chunk) (c : Coll) : Coll :=
  { c with kept := c.kept.filter (fun b => !(coverOf (secondLevel s n d b.member) i k).contains b.index), sent := c.sent + 1 }

/-- Bytes of a collective are stored: bytes outside the writable quota as it is now are not (R236, R295; log entry 25). -/
def collPut (n a : Nat) (b : Bytes) (s : State) : State := if quotaOk s n a b.length true then memPut n 0 0 a b s else s

/-- Bytes that a collective's sender reads; outside the quota it reads none of them (R295; log entry 25). -/
def collGet (n a len : Nat) (s : State) : Bytes × State := if quotaOk s n a len false then memGet n 0 0 a len s else (zeros len, s)

/-- The root writes a chunk (R398, R399). A NaN that only the final write meets names the root (log entry 26). -/
def writeChunk (n : Nat) (d : Desc) (c : Coll) (i : Nat) (k : Chunk) (s : State) : State :=
  let bf := bitOf (cFlags d) 3
  let l := (chunkSums s n d c i k).map (finalWord bf)
  let nan := (l.map fun w => w.2.1).sum
  let sat := (l.map fun w => w.2.2).sum
  let dst := ((cEntries s d).getD k.entry (0, 0, 0, 0)).2.1
  let me := ownMember s n
  let s := collPut n (dst + (if bf then 2 else 4) * k.lo) (l.map Prod.fst).flatten s
  updColl n d.id (fun c => dropChunk s n d i k { c with
    nan := c.nan + nan, sat := c.sat + sat, first := if nan = 0 then c.first else min c.first me
    nanEntries := if nan = 0 || c.nanEntries.contains k.entry then c.nanEntries else c.nanEntries ++ [k.entry] }) s

/-- A burst narrowed from values leaves for the parent, with the counts of its subtree (R399). -/
def sendNarrowed (two : Bool) (n : Nat) (d : Desc) (b entry j nan sat first contrib : Nat) (v : List Word) (s : State) : State :=
  let me := ownMember s n
  let r := narrowBurst two (collSig s n d) j v
  let first := if r.2.1 = 0 then first else min first me
  let s := updColl n d.id (fun c => { c with
    ownNan := c.ownNan + r.2.1, nan := c.nan + r.2.1, sat := c.sat + r.2.2, first := min c.first first
    nanEntries := if r.2.1 = 0 || c.nanEntries.contains entry then c.nanEntries else c.nanEntries ++ [entry] }) s
  collBurst n d (collParent s n (cRoot d) me) (b2n two + 4 * levelFmt two) b
    (burstData s n d b first (nan + r.2.1) (sat + r.2.2) contrib r.1) s

/-- A pod root narrows a chunk and sends it on (R394). -/
def passChunk (n : Nat) (d : Desc) (c : Coll) (i : Nat) (k : Chunk) (s : State) : State :=
  let bursts := c.kept.filter fun b => (coverOf false i k).contains b.index
  let v := chunkSums s n d c i k
  let s := updColl n d.id (dropChunk s n d i k) s
  sendNarrowed true n d i k.entry (k.lo / 32) (bursts.map Burst.nan).sum (bursts.map Burst.sat).sum
    ((bursts.map Burst.first).foldl min 0xFFFF) (1 + (collChildren s n (cRoot d) (ownMember s n)).length) v s

/-- WINDOW to each child whose JOIN matched, when it has grown (R410). -/
def grantWindows (n : Nat) (d : Desc) (s : State) : State :=
  match findColl s n d.id with
  | some c =>
    if !c.slotHeld || c.phase != .armed then s else
    let ks := cChunks s d
    let base := match ks[c.sent]? with
      | some k => k.flat
      | none => cTotal s d
    let v := min (cTotal s d) (base + collWindow s n (collChildren s n (cRoot d) (ownMember s n)).length)
    let due := c.joined.filter fun m => decide (c.granted.get 0 m < v)
    due.foldl (fun s m => collCtl n d m 2 0 v 0 0 0 0 s)
      (updColl n d.id (fun c => { c with granted := due.foldl (fun g m => Tbl.set 0 g m v) c.granted }) s)
  | none => s

/-- RESULT to every member; the root ends with it (R402, R411). -/
def sendResult (n : Nat) (d : Desc) (s : State) : State :=
  match findColl s n d.id with
  | some c =>
    let first := if c.nan = 0 then 0xFFFF else c.first
    let code := if c.nan = 0 then 0 else 0x32
    let s := (othersOf s n (ownMember s n)).foldl (fun s m => collCtl n d m 6 code 0 first (satTo 32 c.nan) (satTo 32 c.sat) 0 s) s
    -- the RESULTs themselves may have crossed a degraded port (R378)
    let deg := (findColl s n d.id).any Coll.degraded
    endColl n d.id (if c.nan != 0 then .collNan else if deg then .linkDegraded else .ok) first s
  | none => s

/-- The governor trips the layers of a collective that ended with COLL_NAN (R246, R413): of the entries in which this member
knows of a NaN, or of every entry when it knows of none (log entry 27). -/
def collTrips (n : Nat) (c : Coll) (d : Desc) (s : State) : State :=
  let l := (cEntries s d).map fun e => e.2.2.2
  let l := if c.nanEntries.isEmpty then l else c.nanEntries.map fun i => l.getD i 0xFFFF
  l.eraseDups.foldl (fun s i => govCollNan n i s) s

/-- Chunks that are complete are added and sent on or written; the first argument bounds their number. -/
def reduceRun (n : Nat) (d : Desc) : Nat → State → State
  | 0, s => s
  | f + 1, s =>
    match findColl s n d.id with
    | none => s
    | some c =>
      match (cChunks s d)[c.sent]? with
      | none => s
      | some k =>
        if c.phase != .armed || !(chunkLacks s n d c c.sent k).isEmpty then s
        else if collIsRoot s n d then reduceRun n d f (writeChunk n d c c.sent k s)
        else if k.flat + k.len ≤ c.windowIn then reduceRun n d f (passChunk n d c c.sent k s)
        else s

/-- A leaf sends the bursts below its window (R410). -/
def leafRun (n : Nat) (d : Desc) : Nat → State → State
  | 0, s => s
  | f + 1, s =>
    match findColl s n d.id with
    | none => s
    | some c =>
      match (cChunks s d).find? fun k => decide (k.burst1 ≤ c.sent) && decide (c.sent < k.burst1 + k.parts) with
      | none => s
      | some k =>
        let p := c.sent - k.burst1
        let n1 := min 256 (k.len - 256 * p)
        if c.phase == .armed && k.flat + 256 * p + n1 ≤ c.windowIn then
          leafRun n d f (sendNarrowed false n d c.sent k.entry ((k.lo + 256 * p) / 32) 0 0 0xFFFF 1 ((c.own.drop (k.flat + 256 * p)).take n1)
            (updColl n d.id (fun c => { c with sent := c.sent + 1 }) s))
        else s

/-- This member is a receiving point of a reduction: the root or a pod root, alone in its pod or not (R393). -/
def collReceives (s : State) (n : Nat) (d : Desc) : Bool :=
  collIsRoot s n d || (otherPodRoots s n (cRoot d)).contains (ownMember s n)

/-- A reduction goes as far as it can at this member. -/
def reduceGo (n : Nat) (d : Desc) (s : State) : State :=
  let me := ownMember s n
  let f := (cTotal s d + 255) / 256 + (cEntries s d).length + 1
  if !collReceives s n d then leafRun n d f s
  else
    let s := grantWindows n d (reduceRun n d f s)
    match findColl s n d.id with
    | some c =>
      if c.phase == .armed && me == cRoot d && c.sent == (cChunks s d).length then
        let s := sendResult n d s
        if c.nan = 0 then s else collTrips n c d s
      else s
    | none => s

/-! ## Broadcasts (R400 to R402) -/

/-- The address of a copy or byte range at this member: SRC at the root, DST at a receiver. -/
def bcBase (root : Bool) (e : Nat × Nat × Nat × Nat) : Nat := if root then e.1 else e.2.1

/-- The parts of parcel `p` of a copy in memory: address and length of data, scales, CRC, outlier record. -/
def copyParts (fmt count base p : Nat) : List (Nat × Nat) :=
  let l := copyLayout fmt count true
  let m := parcelBlocks (fmtWidth fmt)
  [(base + 256 + 256 * p, 256), (base + l.1 + m * p, m), (base + l.2.1 + 4 * p, 4), (base + l.2.2.1 + 32 * p, 32)]

/-- Parts of memory read one after another. -/
def collGets (n : Nat) (l : List (Nat × Nat)) (s : State) : List Bytes × State :=
  l.foldl (fun (x : List Bytes × State) q => (x.1 ++ [(collGet n q.1 q.2 x.2).1], (collGet n q.1 q.2 x.2).2)) ([], s)

/-- A parcel of a copy as a burst's contents (R400): data, scales at their fixed size, CRC, and the outlier record where there is one. -/
def bcParcel (n fmt count base p : Nat) (outl : Bool) (s : State) : Bytes × State :=
  let r := collGets n ((copyParts fmt count base p).take (if outl then 4 else 3)) s
  let at_ (j : Nat) : Bytes := r.1.getD j []
  (at_ 0 ++ at_ 1 ++ zeros (burstScales (fmtWidth fmt) - (at_ 1).length) ++ at_ 2 ++ at_ 3, r.2)

/-- The contents of a burst of a broadcast as this member holds it. -/
def bcRead (n : Nat) (d : Desc) (i : Nat) (s : State) : Bytes × State :=
  match bcFind (cOp d) (cEntries s d) i with
  | none => ([], s)
  | some q =>
    let base := bcBase (collIsRoot s n d) q.1
    if cOp d = 2 then collGet n (base + 256 * q.2) 256 s
    else if q.2 = 0 then collGet n base 64 s
    else bcParcel n (collFmt d) q.1.2.2.1 base (q.2 - 1) (hasOutl s base) s

/-- TSPEC of a burst of a broadcast at the member that holds it (R397). -/
def bcTspec (s : State) (n : Nat) (d : Desc) (i : Nat) : Nat :=
  match bcFind (cOp d) (cEntries s d) i with
  | none => 2
  | some q =>
    if cOp d = 2 then 2
    else 2 + 4 * collFmt d + (if q.2 = 0 then 0 else 64 * b2n (hasOutl s (bcBase (collIsRoot s n d) q.1)))

/-- A broadcast burst leaves for a member by unicast. -/
def bcSend (n : Nat) (d : Desc) (m i : Nat) (s : State) : State :=
  let r := bcRead n d i s
  collBurst n d m (bcTspec s n d i) i (burstData r.2 n d i 0xFFFF 0 0 1 r.1) r.2

/-- A pod root sends a burst on, unchanged (R220, R401): its TSPEC and its bytes as they came. -/
def bcForward (n : Nat) (d : Desc) (m i tspec : Nat) (b : Bytes) (s : State) : State :=
  collBurst n d m tspec i (burstData s n d i 0xFFFF 0 0 1 b) s

/-- A broadcast burst leaves once for the multicast group, on the port of its flow (R369, R401); such packets are not sequenced. A partition
with JOB 0 sends none (R375). -/
def bcMulticast (n : Nat) (d : Desc) (i : Nat) (s : State) : State :=
  let t := bcTspec s n d i
  let r := bcRead n d i s
  let s := r.2
  let tag := 256 * (i % 256)
  let grp := d.at 52 2 % 4096
  let f := flowOf tag grp
  let st := if d.phase == .held then openStep s n else none
  let k : Packet :=
    { type := 0x0C, vc := 3, mcast := true, stepValid := st.isSome, attempt := (st.map Step.attempt).getD 0, resync := false, dst := grp
      src := nodeId s, psn := 0, flow := f, hint := 0, job := partJob s n, tag := tag, addr := 0
      step := BitVec.ofNat 24 ((st.map fun t => t.num.toNat).getD 0), epoch := s.fer.epoch, tspec := t, ext := []
      payload := burstData s n d i 0xFFFF 0 0 1 r.1, ecrc := 0 }
  if partJob s n = 0 then s
  else match flowPort s f with
  | some p => portSend p (sealPacket k) (updColl n d.id (fun c => { c with degraded := c.degraded || portDegraded s p f }) s)
  | none => s

/-- The root's header agrees with the descriptor (R400), in every entry of a copy broadcast. -/
def headersAgree (s : State) (d : Desc) : Bool :=
  (cEntries s d).all fun e => e.2.2.1 == 0 ||
    (bitsOf (leNat (devRd s (e.1 + 2) 1)) 0 4 == collFmt d && leNat (devRd s (e.1 + 32) 4) == e.2.2.1)

/-- The root of a broadcast sends once every JOIN has matched, and ends when every member has sent DONE (R402). -/
def bcGo (n : Nat) (d : Desc) (s : State) : State :=
  match findColl s n d.id with
  | some c =>
    if c.phase != .armed || !collIsRoot s n d then s
    else
      let all := othersOf s n (ownMember s n)
      let total := bcTotal s d
      let s :=
        if c.sent = 0 && all.all c.joined.contains then
          let s := if bitOf (cFlags d) 2 then (List.range total).foldl (fun s i => bcMulticast n d i s) s
            else (collFeeds s n d).foldl (fun s m => (List.range total).foldl (fun s i => bcSend n d m i s) s) s
          endsDue (updColl n d.id (fun c => { c with sent := total }) s)
        else s
      if all.all c.doneBy.contains then sendResult n d s else s
  | none => s

/-- A receiver that holds every burst and has had END sends DONE to the root (R402). -/
def bcDone (n : Nat) (d : Desc) (s : State) : State :=
  match findColl s n d.id with
  | some c =>
    if c.phase == .armed && c.endFrom.isSome && !c.doneSent && bcTotal s d ≤ c.got.length then
      collCtl n d (cRoot d) 5 0 0 0 0 0 0 (updColl n d.id (fun c => { c with doneSent := true }) s)
    else s
  | none => s

/-- What a burst writes at a receiver, unchanged (R65, R400): addresses and bytes. -/
def bcParts (s : State) (d : Desc) (i : Nat) (outl : Bool) (b : Bytes) : List (Nat × Bytes) :=
  match bcFind (cOp d) (cEntries s d) i with
  | none => []
  | some (e, k) =>
    let base := e.2.1
    if cOp d = 2 then [(base + 256 * k, sliceB b 0 256)]
    else if k = 0 then [(base, sliceB b 0 64)]
    else
      let w := fmtWidth (collFmt d)
      let parts := copyParts (collFmt d) e.2.2.1 base (k - 1)
      let c := 256 + burstScales w
      (parts.map Prod.fst).zip ([sliceB b 0 256, sliceB b 256 (parcelBlocks w), sliceB b c 4] ++ (if outl then [sliceB b (c + 4) 32] else []))

/-- The parts of a burst written. -/
def bcWrite (n : Nat) (l : List (Nat × Bytes)) (s : State) : State := l.foldl (fun s e => memPut n 0 0 e.1 e.2 s) s

/-- A broadcast burst reaches a receiver: written, forwarded by a pod root as soon as written (R401). A burst of which a part would lie
outside the writable quota (R236, R295) is not applied (log entry 25). -/
def bcTake (n : Nat) (d : Desc) (i tspec : Nat) (b : Bytes) (s : State) : State :=
  let outl := bitOf tspec 6
  let parts := bcParts s d i outl b
  match findColl s n d.id with
  | some c =>
    if collIsRoot s n d || bcTotal s d ≤ i || !(parts.all fun e => quotaOk s n e.1 e.2.length true) then s
    else
      let s := bcWrite n parts s
      if c.got.contains (0, i) then s
      else
        let s := updColl n d.id (fun c => { c with got := c.got ++ [(0, i)], outl := c.outl || outl, sent := c.sent + 1 }) s
        bcDone n d (endsDue ((collFeeds s n d).foldl (fun s m => bcForward n d m i tspec b s) s))
  | none => s

/-! ## Arming (R405, R407) -/

/-- A collective goes as far as it can. -/
def collGo (n : Nat) (d : Desc) (s : State) : State := if cOp d = 0 then reduceGo n d s else bcGo n d s

/-- A JOIN belongs to an armed collective: its signature matches, or it does not (R407). -/
def joinTaken (n : Nat) (d : Desc) (m : Nat) (sig : DWord) (s : State) : State :=
  if sig.toNat = collSig s n d then
    collGo n d (updColl n d.id (fun c => { c with joined := c.joined ++ [m] }) s)
  else collMismatch n d m s

/-- JOINs that came early and belong to a collective that is now armed: those of its signature, else one from an awaited
member whose signature no other collective here has (log entry 28). -/
def takeEarly (n : Nat) (d : Desc) (s : State) : State :=
  let sig : DWord := BitVec.ofNat 64 (collSig s n d)
  let p := getPart s n
  let known (j : Nat × DWord) : Bool := p.collPast.contains j.2 ||
    p.colls.any fun c => (findDesc s c.id).any fun e => BitVec.ofNat 64 (collSig s n e) == j.2
  (collExpect s n d).foldl (fun s m =>
    let l := (getPart s n).joins.filter fun j => j.1 == m
    let j := (l.find? fun j => j.2 == sig).or (l.find? fun j => !known j)
    match j with
    | some j =>
      if (findColl s n d.id).any Coll.open then
        joinTaken n d m j.2 (updPart n (fun p => { p with joins := p.joins.erase j }) s)
      else s
    | none => s) s

/-- A collective is armed: its level-0 sum is formed, its JOIN sent; a broadcast's root checks its headers (R400). -/
def collArm (n : Nat) (d : Desc) (s : State) : State :=
  let me := ownMember s n
  let s := updColl n d.id (fun c => { c with phase := .armed }) s
  if cOp d = 0 then
    let r := level0All n d s
    let s := updColl n d.id (fun c => { c with own := r.1 }) r.2
    let s := if me = cRoot d then s else collCtl n d (collParent s n (cRoot d) me) 1 0 0 0 0 0 0 s
    collGo n d (takeEarly n d s)
  else if me != cRoot d then collCtl n d (cRoot d) 1 0 0 0 0 0 0 s
  else if cOp d = 1 && !headersAgree s d then collAbortAll n d me s
  else collGo n d (takeEarly n d s)

/-- A descriptor of a collective and its partition. -/
def collDesc (s : State) (id : Nat) : Option (Desc × Coll) :=
  match findDesc s id with
  | some d => if d.opcode == 0x20 || d.opcode == 0x21 then (findColl s d.fn id).map fun c => (d, c) else none
  | none => none

/-- This member is a receiving point of a reduction: it needs a scratch slot (R410). -/
def needsSlot (s : State) (d : Desc) : Bool := cOp d == 0 && collReceives s d.fn d

/-- Collectives can work: outside a step, or in a running attempt. -/
def collRuns (s : State) (d : Desc) : Bool :=
  match d.phase with
  | .started => true
  | .held => (openStep s d.fn).any fun t => t.phase == .running || t.phase == .ending
  | _ => false

/-- COLLECTIVE_ARM: at its not-before time and trigger value, after its set-up (R414), a collective is armed. With no scratch
slot at all no receiving point can arm (R416). -/
def execCollectiveArm (dt id : Nat) (s : State) : Result :=
  match collDesc s id with
  | some (d, c) =>
    let su := collSetup d
    let s' := pass (dt - su) s
    if c.phase == .waiting && collRuns s' d && su ≤ dt && collTimeCome s' d && collTriggered s' d c && !collDeadlineCome s' d &&
        !(needsSlot s' d && collSlots s' d.fn == 0) then .next (collArm d.fn d (pass su s'))
    else .next s
  | none => .next s

/-- Scratch slots in use (R416). -/
def slotsUsed (s : State) (n : Nat) : Nat := ((getPart s n).colls.filter Coll.slotHeld).length

/-- SCRATCH_SLOT_GRANT: an armed receiving point takes a free slot and sends its first WINDOWs. -/
def execScratchSlotGrant (id : Nat) (s : State) : Result :=
  match collDesc s id with
  | some (d, c) =>
    if c.phase == .armed && !c.slotHeld && needsSlot s d && slotsUsed s d.fn < collSlots s d.fn then
      .next (grantWindows d.fn d (updColl d.fn id (fun c => { c with slotHeld := true }) s))
    else .next s
  | none => .next s

/-! ## Packets (R408, R409) -/

/-- Fields of a COLL_CTL payload. -/
def ccSig (k : Packet) : DWord := BitVec.ofNat 64 (leAt k.payload 0 8)
def ccMember (k : Packet) : Nat := leAt k.payload 8 2
def ccValue (k : Packet) : Nat := leAt k.payload 12 4
def ccFirst (k : Packet) : Nat := leAt k.payload 16 2
def ccNan (k : Packet) : Nat := leAt k.payload 20 4
def ccSat (k : Packet) : Nat := leAt k.payload 24 4
def ccCount2 (k : Packet) : Nat := leAt k.payload 28 4

/-- Open collectives of a partition with their descriptors, the older first. -/
def openColls (s : State) (n : Nat) : List (Desc × Coll) :=
  (getPart s n).colls.filterMap fun c => if c.open then (findDesc s c.id).map fun d => (d, c) else none

/-- The open collective with a signature. -/
def collBySig (s : State) (n : Nat) (sig : DWord) : Option (Desc × Coll) :=
  (openColls s n).find? fun e => BitVec.ofNat 64 (collSig s n e.1) == sig

/-- A packet for an armed collective with its signature; crossing a degraded port marks it (R378). -/
def withColl (p : Nat) (k : Packet) (sig : DWord) (n : Nat) (go : Desc → Coll → State → State) (s : State) : State :=
  match collBySig s n sig with
  | some (d, c) =>
    if c.phase == .armed then
      go d c (updColl n d.id (fun c => { c with degraded := c.degraded || portDegraded s p k.flow }) s)
    else s
  | none => s

/-- A JOIN (R407): for the collective of its signature, or for the oldest armed one that awaits this member; with neither it
waits (log entry 28). -/
def takeJoin (n : Nat) (k : Packet) (s : State) : State :=
  let m := ccMember k
  let sig := ccSig k
  let awaits (e : Desc × Coll) : Bool := e.2.phase == .armed && (collExpect s n e.1).contains m && !e.2.joined.contains m
  let mine := collBySig s n sig
  let pick := match mine with
    | some e => if awaits e then some e else none
    | none => if (getPart s n).collPast.contains sig then none else (openColls s n).find? awaits
  match pick with
  | some e => joinTaken n e.1 m sig s
  | none => updPart n (fun p => { p with joins := p.joins ++ [(m, sig)] }) s

/-- OK_RETRIED noted for a collective and for the step that holds it (R63). -/
def collRetried (n : Nat) (d : Desc) (s : State) : State :=
  let s := noteDesc d.id .okRetried s
  if d.phase == .held then noteStep n .okRetried s else s

/-- The chunk that a reduction burst belongs to, its first element and its length, by its level. -/
def burstPlace (s : State) (d : Desc) (two : Bool) (i : Nat) : Option (Chunk × Nat × Nat) :=
  let ks := cChunks s d
  if two then (ks[i]?).map fun q => (q, q.lo, q.len)
  else (ks.find? fun q => decide (q.burst1 ≤ i) && decide (i < q.burst1 + q.parts)).map fun q =>
    (q, q.lo + 256 * (i - q.burst1), min 256 (q.len - 256 * (i - q.burst1)))

/-- A burst that a collective wants has come and passed its check: its values are kept for the sum. -/
def keepBurst (n : Nat) (d : Desc) (two : Bool) (k : Packet) (i : Nat) (q : Chunk × Nat × Nat) (s : State) : State :=
  let m := leAt k.payload 12 2
  let nan := leAt k.payload 16 4
  let sat := leAt k.payload 20 4
  let first := leAt k.payload 14 2
  let v : Burst := { member := m, index := i, vals := dequantBurst two (collSig s n d) (q.2.1 / 32) (k.payload.drop 32) q.2.2, nan := nan
                     sat := sat, first := first }
  collGo n d (updColl n d.id (fun c => { c with
    got := c.got ++ [(m, i)], kept := c.kept ++ [v], nan := c.nan + nan, sat := c.sat + sat, first := min c.first first
    nanEntries := if nan = 0 || c.nanEntries.contains q.1.entry then c.nanEntries else c.nanEntries ++ [q.1.entry] }) s)

/-- A reduction burst at a receiving point (R397): verified, dequantised, kept for its addition. The vector engine's first read of it from
the staging buffer may fail and a reread pass (`reread`); a burst that fails every reread ends the collective with CHECKSUM_FAIL (R63;
log entry 29). -/
def takeBurst (n : Nat) (d : Desc) (c : Coll) (k : Packet) (reread : Bool) (s : State) : State :=
  let m := leAt k.payload 12 2
  let i := leAt k.payload 8 4
  let two := secondLevel s n d m
  let fmt := levelFmt two
  match burstPlace s d two i with
  | none => s
  | some q =>
    if !c.joined.contains m || c.got.contains (m, i) || bitsOf k.tspec 0 2 != b2n two || bitsOf k.tspec 2 4 != fmt then s
    else if !parcelOk fmt false (burstParcel fmt (k.payload.drop 32)) then endColl n d.id .checksumFail 0xFFFF s
    else keepBurst n d two k i q (if reread then collRetried n d s else s)

/-- A reduction burst whose signature no collective here has or had: a mismatch of the oldest armed reduction that its sender is a child of
(R407; log entry 28). -/
def strayBurst (n : Nat) (k : Packet) (sig : DWord) (s : State) : State :=
  let m := leAt k.payload 12 2
  let of_ (e : Desc × Coll) : Bool := e.2.phase == .armed && cOp e.1 == 0 && (collChildren s n (cRoot e.1) (ownMember s n)).contains m
  if (getPart s n).collPast.contains sig || 2 ≤ bitsOf k.tspec 0 2 then s
  else match (openColls s n).find? of_ with
    | some e => collMismatch n e.1 m s
    | none => s

/-- A COLL_DATA packet for a partition. -/
def takeCollData (p : Nat) (k : Packet) (reread : Bool) (n : Nat) (s : State) : State :=
  let sig : DWord := BitVec.ofNat 64 (leAt k.payload 0 8)
  if (collBySig s n sig).isNone then strayBurst n k sig s
  else withColl p k sig n (fun d c s =>
    if cOp d = 0 then takeBurst n d c k reread s
    else if bitsOf k.tspec 0 2 = 2 then bcTake n d (leAt k.payload 8 4) k.tspec (k.payload.drop 32) s
    else s) s

/-- RESULT: the member ends (R411). -/
def takeResult (n : Nat) (d : Desc) (c : Coll) (k : Packet) (s : State) : State :=
  let nan := ccNan k
  let s := updColl n d.id (fun c => { c with nan := nan, sat := ccSat k }) s
  let deg := (findColl s n d.id).any Coll.degraded
  if nan = 0 then endColl n d.id (if deg then .linkDegraded else .ok) 0xFFFF s
  else collTrips n c d (endColl n d.id .collNan (ccFirst k) s)

/-- A RESULT for a collective that has met its deadline here is reported (R411). -/
def lateResult (n : Nat) (k : Packet) (s : State) : State :=
  match (getPart s n).collLate.find? fun e => e.1 == ccSig k with
  | some e =>
    postEvent { kind := 0x21, status := statusNum .collTimeout, part := n, detail := packB [(4, e.2), (4, 0xFFFFFFFF)] }
      (updPart n (fun p => { p with collLate := p.collLate.filter fun x => x.1 != e.1 }) s)
  | none => s

/-- ABORT: at the root from a receiving point it aborts every member; at a member it ends the collective of its signature, or
the oldest armed one whose root sent it (log entry 28). -/
def takeAbort (n : Nat) (k : Packet) (s : State) : State :=
  let e := match collBySig s n (ccSig k) with
    | some e => some e
    | none => (openColls s n).find? fun (e : Desc × Coll) => e.2.phase == CollPhase.armed && cRoot e.1 == ccMember k
  match e with
  | some (d, _) => if collIsRoot s n d then collAbortAll n d (ccFirst k) s else endColl n d.id .collMismatch (ccFirst k) s
  | none => s

/-- MISSING: the named run is sent again by unicast, then END (R402). -/
def takeMissing (n : Nat) (d : Desc) (c : Coll) (k : Packet) (s : State) : State :=
  let m := ccMember k
  if cOp d = 0 || !(collFeeds s n d).contains m || !c.endSent.contains m then s
  else
    let run := (List.range (bcTotal s d)).filter fun i => decide (ccValue k ≤ i) && decide (i < ccValue k + ccCount2 k)
    let s := updColl n d.id (fun c => { c with endSent := c.endSent.filter fun x => x != m }) s
    endsDue (run.foldl (fun s i => bcSend n d m i s) s)

/-- A COLL_CTL packet for a partition. -/
def takeCollCtl (p : Nat) (k : Packet) (n : Nat) (s : State) : State :=
  match k.tspec with
  | 1 => takeJoin n k s
  | 2 => withColl p k (ccSig k) n (fun d _ s =>
      if cOp d = 0 then collGo n d (updColl n d.id (fun c => { c with windowIn := max c.windowIn (ccValue k) }) s) else s) s
  | 3 => withColl p k (ccSig k) n (fun d _ s =>
      if cOp d = 0 then s
      else bcDone n d (updColl n d.id (fun c => { c with endFrom := some (ccMember k, s.clock) }) s)) s
  | 4 => withColl p k (ccSig k) n (fun d c s => takeMissing n d c k s) s
  | 5 => withColl p k (ccSig k) n (fun d _ s =>
      if cOp d = 0 || !collIsRoot s n d then s
      else bcGo n d (updColl n d.id (fun c => { c with doneBy := if c.doneBy.contains (ccMember k) then c.doneBy else c.doneBy ++ [ccMember k] }) s)) s
  | 6 => lateResult n k (withColl p k (ccSig k) n (fun d c s => takeResult n d c k s) s)
  | 7 => takeAbort n k s
  | _ => s

/-- A request of any type that a partition may have to hold is carried out. -/
def applyAny (p : Nat) (k : Packet) (reread : Bool) (n : Nat) (s : State) : State :=
  match k.type with
  | 0x0C => owePacket k (takeCollData p k reread n (leaveIdle s))
  | 0x0D => owePacket k (takeCollCtl p k n (leaveIdle s))
  | _ => applyReq p k n s

/-- A multicast burst: it is not sequenced and not acknowledged (R369, R401). -/
def multicastBurst (p : Nat) (k : Packet) (reread : Bool) (s : State) : State :=
  freeBuffer p k (match jobPart s k.job with
    | some n => if attemptOrder s n k = 0 then takeCollData p k reread n (leaveIdle s) else s
    | none => s)

/-! ## Timers -/

/-- The first missing run of a broadcast: its first burst and its length. -/
def missingRun (c : Coll) (total : Nat) : Option (Nat × Nat) :=
  let lacks (i : Nat) : Bool := !c.got.contains (0, i)
  match (List.range total).find? lacks with
  | some i => some (i, (((List.range (total - i)).map fun j => i + j).takeWhile lacks).length)
  | none => none

/-- MISSING_TIMER: bursts still lack 2 µs after END (R402). -/
def execMissingTimer (dt id : Nat) (s : State) : Result :=
  let s' := pass dt s
  match collDesc s' id with
  | some (d, c) =>
    match c.endFrom, missingRun c (bcTotal s' d) with
    | some (m, t), some r =>
      if c.phase == .armed && cOp d != 0 && t + 2000 ≤ s'.clock then
        .next (collCtl d.fn d m 4 0 r.1 0 0 0 r.2 (updColl d.fn id (fun c => { c with endFrom := none }) s'))
      else .next s
    | _, _ => .next s
  | none => .next s

/-- The member that a root names at a deadline: the lowest whose JOIN, contribution or DONE is missing (R411). -/
def collLacking (s : State) (n : Nat) (d : Desc) (c : Coll) : Nat :=
  if !collIsRoot s n d then 0xFFFF
  else
    let joins := (collExpect s n d).filter fun m => !c.joined.contains m
    let ks := cChunks s d
    let more := if cOp d = 0 then
        (((List.range ks.length).zip ks).filter fun e => decide (c.sent ≤ e.1)).flatMap fun e => chunkLacks s n d c e.1 e.2
      else (othersOf s n (ownMember s n)).filter fun m => !c.doneBy.contains m
    (joins ++ more).foldl min 0xFFFF

/-- The deadline was reached in an earlier cycle, so that no mismatch abort of its own cycle can still win (R411). -/
def collDeadlineOver (s : State) (d : Desc) : Bool :=
  collDeadlineCome s d && now48 s != BitVec.ofNat 48 (d.at 56 6) + (collShift s d).setWidth 48

/-- COLLECTIVE_DEADLINE: the deadline comes before RESULT; an ABORT of the deadline's own cycle would win, so this ending waits for the
next ns. -/
def execCollectiveDeadline (dt id : Nat) (s : State) : Result :=
  let s' := pass dt s
  match collDesc s' id with
  | some (d, c) =>
    if c.open && (collRuns s' d || d.phase == .waiting) && collDeadlineOver s' d then
      .next (endColl d.fn id .collTimeout (collLacking s' d.fn d c) s')
    else .next s
  | none => .next s

end Sys2Proof.Machine
end

