-- ==== Sys2Proof/Machine/Digest.lean ====
section
/-!
DEFINITION. Weight digests (R273), the copies of the region table (R218, R231), their reloads from the owner (R269) and the
owner's second narrowing (R276); the DIGEST descriptor (R274).
-/
namespace Sys2Proof.Machine

/-! ## The fold (R273) -/

/-- mix of R273; its multipliers and shifts are those of `fold64`. -/
def digestMix (i : Nat) : Nat := fold64 ((i + 1) * 0x9E3779B97F4A7C15 % 2 ^ 64)

/-- The digest of a sequence of CRCs: hi in bits [127:64], lo in bits [63:0]. -/
def digestOf (cs : List Nat) : BitVec 128 :=
  let l := (List.range cs.length).zip cs
  let lo := (l.map fun p => p.2 * digestMix (2 * p.1)).sum % 2 ^ 64
  let hi := (l.map fun p => p.2 * digestMix (2 * p.1 + 1)).sum % 2 ^ 64
  BitVec.ofNat 128 (lo + 2 ^ 64 * hi)

/-- The CRCs of a checksum tensor and, where there is one, of an outlier tensor, each given by its bytes. -/
def crcsOf (n : Nat) (cksum : Bytes) (outl : Option Bytes) : List Nat :=
  (List.range n).map (fun i => leAt cksum (4 * i) 4) ++
    match outl with
    | some b => (List.range n).map fun i => leAt b (32 * i + 28) 4
    | none => []

/-! ## Copies (R218, R231, R400) -/

/-- The half of a region that is active in steps of a parity (R236). -/
def halfOf (r : Region) (k : Nat) : Nat := if k % 2 = 0 then r.half0 else r.half1

/-- The KIND 1 entries of a partition's region table, with their places in it. -/
def weightEntries (s : State) (n : Nat) : List (Nat × Region) :=
  ((List.range (getPart s n).regions.length).zip (getPart s n).regions).filter fun e => e.2.kind == 1

/-- FORMAT, PARCELS and HAS_OUTL of a copy's header. -/
def copyHead (s : State) (base : Nat) : Nat × Nat × Bool :=
  let b := (devRd s (base + 2) 1).headD 0
  (bitsOf b.toNat 0 4, leNat (devRd s (base + 32) 4), bitOf b.toNat 6)

/-- The DIGEST of a copy's header. -/
def headDigest (s : State) (base : Nat) : BitVec 128 := BitVec.ofNat 128 (leNat (devRd s (base + 48) 16))

/-- A header names a narrow format and a copy that fits its half; one that does not has no digest (log entry 30). -/
def copyOk (h : Nat × Nat × Bool) (len : Nat) : Bool := fmtNarrow h.1 && decide ((copyLayout h.1 h.2.1 h.2.2).2.2.2 ≤ len)

/-- The fold of a copy in memory. -/
def copyDigest (s : State) (base len : Nat) : Option (BitVec 128) :=
  let h := copyHead s base
  if copyOk h len then
    let l := copyLayout h.1 h.2.1 h.2.2
    some (digestOf (crcsOf h.2.1 (devRd s (base + l.2.1) (4 * h.2.1))
      (if h.2.2 then some (devRd s (base + l.2.2.1) (32 * h.2.1)) else none)))
  else none

/-- The reads of a fold pass through the slices (R297): the header and the two tensors of CRCs. -/
def readCopy (n base len : Nat) (s : State) : State :=
  let s := (memGet n 0 0 base 64 s).2
  let h := copyHead s base
  if copyOk h len then
    let l := copyLayout h.1 h.2.1 h.2.2
    let s := (memGet n 0 0 (base + l.2.1) (4 * h.2.1) s).2
    if h.2.2 then (memGet n 0 0 (base + l.2.2.1) (32 * h.2.1) s).2 else s
  else s

/-! ## The owner narrows a copy again (R276) -/

/-- The masters and the parameters of the narrowing are the program's, so the model leaves the new copy's bytes free; it
replaces the copy, its header's DIGEST too, when its digest equals the wanted value (log entry 31). True when it does. -/
def renarrow (n base len : Nat) (want : BitVec 128) (s : State) : Bool × State :=
  let h := copyHead s base
  if copyOk h len then
    let k := h.2.1
    let l := copyLayout h.1 k h.2.2
    let m := parcelBlocks (fmtWidth h.1)
    let d := drawBytes (256 * k) s
    let sc := drawBytes (m * k) d.2
    let ck := drawBytes (4 * k) sc.2
    let ol := drawBytes (if h.2.2 then 32 * k else 0) ck.2
    if digestOf (crcsOf k ck.1 (if h.2.2 then some ol.1 else none)) = want then
      let s := memPut n 0 0 (base + l.1) sc.1 (memPut n 0 0 (base + 256) d.1 ol.2)
      let s := memPut n 0 0 (base + l.2.2.1) ol.1 (memPut n 0 0 (base + l.2.1) ck.1 s)
      (true, memPut n 0 0 (base + 48) (leBytes 16 want.toNat) s)
    else (false, ol.2)
  else (false, s)

/-! ## Reloads (R269) -/

/-- A copy is asked of its owner, by half. -/
def askReload (n entry half : Nat) (r : Region) (redo : Bool) (s : State) : State :=
  let a := halfOf r half
  let node := peerNode s n r.owner
  let att := ((openStep s n).map Step.attempt).getD 0
  let four := leBytes 2 r.layer ++ leBytes 1 r.copy ++ leBytes 1 (half % 2)
  sendControl n node 0x12 (controlHead s n att 0 four ++ leBytes 6 a ++ zeros 10)
    (updStep n (fun t => { t with reloads := t.reloads ++
      [{ entry := entry, addr := a, len := r.len, node := node, since := s.now, redo := redo }] }) s)

/-- A code that ends the step without commit whatever joins it; the first one stays. -/
def raiseFatal (n : Nat) (code : Status) (s : State) : State :=
  updStep n (fun t =>
    { t with fatal := t.fatal <|> some code, phase := if t.phase = .running then .ending else t.phase }) s

/-- A copy differs from its header's DIGEST: it is asked of its owner, or the owner itself narrows it again. -/
def repairCopy (n half : Nat) (e : Nat × Region) (s : State) : State :=
  if e.2.owner = ownMember s n then
    let a := halfOf e.2 half
    let r := renarrow n a e.2.len (headDigest s a) s
    if r.1 then r.2 else raiseFatal n .digestMismatch r.2
  else askReload n e.1 half e.2 false s

/-- One parcel of a copy goes to a requester's half as a PARCEL packet (R269). -/
def sendCopyParcel (n node : Nat) (o : Origin) (h : Nat × Nat × Bool) (base dest p : Nat) (s : State) : State :=
  let l := copyLayout h.1 h.2.1 h.2.2
  let w := fmtWidth h.1
  let m := parcelBlocks w
  let dt := memGet n 0 0 (base + 256 + 256 * p) 256 s
  let sc := memGet n 0 0 (base + l.1 + m * p) m dt.2
  let ck := memGet n 0 0 (base + l.2.1 + 4 * p) 4 sc.2
  let ol := memGet n 0 0 (base + l.2.2.1 + 32 * p) (if h.2.2 then 32 else 0) ck.2
  let b := dt.1 ++ sc.1 ++ zeros (burstScales w - m) ++ ck.1 ++ ol.1
  let a := dest + 256 + 256 * p
  sendReq n { type := 0x05, vc := 0, node := node, flow := flowOf a node, addr := a, tspec := h.1 + 16 * b2n h.2.2
              ext := parcelExt (dest + l.1 + m * p) (dest + l.2.1 + 4 * p) (if h.2.2 then dest + l.2.2.1 + 32 * p else 0)
              data := b } o 0 ol.2

/-- A copy goes to a requester, header first. -/
def sendCopy (n node entry base dest : Nat) (s : State) : State :=
  let h := copyHead s base
  let o : Origin := .reload n node entry
  -- pages of the requester's memory that the copy is written to lose their local copies (R315)
  let fin := dest + (copyLayout h.1 h.2.1 h.2.2).2.2.2
  let s := (List.range (fin / 65536 + 1 - dest / 65536)).foldl (fun s i => rpcDrop n (rpcPage node (dest + 65536 * i)) s) s
  let r := memGet n 0 0 base 64 s
  let s := sendReq n { type := 0x02, vc := 0, node := node, flow := flowOf dest node, addr := dest, data := r.1 } o 0 r.2
  (List.range h.2.1).foldl (fun s p => sendCopyParcel n node o h base dest p s) s

/-- The owner answers a RELOAD_REQ: it sends the copy, or says that it has none, or that it cannot read it. -/
def serveReload (n node layer copy half dest : Nat) (s : State) : State :=
  match (weightEntries s n).find? fun e => e.2.layer == layer && e.2.copy == copy && e.2.owner == ownMember s n with
  | none => sendReloadDone n node 1 (zeros 16) s
  | some e =>
    let a := halfOf e.2 half
    let lost := (openStep s n).any fun t => t.weightLost.contains e.1 && t.num.toNat % 2 == half % 2
    if lost then sendReloadDone n node 2 (zeros 16) s
    else if !copyOk (copyHead s a) e.2.len then sendReloadDone n node 1 (zeros 16) s
    else
      let r : Reload := { entry := e.1, addr := a, len := e.2.len, node := node, since := s.now, redo := half % 2 == 1 }
      reloadsServed (updPart n (fun p => { p with serving := p.serving ++ [r] }) (sendCopy n node e.1 a dest s))

/-! ## DIGEST (R274) -/

/-- Fields of DIGEST. -/
def dgCksum (d : Desc) : Nat := d.at 16 8
def dgParcels (d : Desc) : Nat := d.at 24 4
def dgOutl (d : Desc) : Nat := d.at 32 8
def dgResult (d : Desc) : Nat := d.at 40 8

/-- The status with which a DIGEST is refused; OK for one of no parcels. A misaligned RESULT_ADDR counts as a misaligned
base (log entry 32). -/
def digestCheck (s : State) (d : Desc) : Option Status :=
  let n := dgParcels d
  if !zeroAt d.bytes [(28, 4), (48, 16)] then some .descMalformed
  else if n = 0 then some .ok
  else if dgCksum d % 64 != 0 || dgOutl d % 64 != 0 || dgResult d % 16 != 0 || !quotaOk s d.fn (dgCksum d) (4 * n) false ||
      (dgOutl d != 0 && !quotaOk s d.fn (dgOutl d) (32 * n) false) then some .descBounds
  else none

/-- The fold is formed and goes to the host, lo first. -/
def digestStart (d : Desc) (s : State) : State :=
  let n := dgParcels d
  let ck := memGet d.fn 0 0 (dgCksum d) (4 * n) s
  let ol := memGet d.fn 0 0 (dgOutl d) (if dgOutl d = 0 then 0 else 32 * n) ck.2
  let v := digestOf (crcsOf n ck.1 (if dgOutl d = 0 then none else some ol.1))
  finishDesc d.id .ok (emit (.hostWrite d.fn (BitVec.ofNat 64 (dgResult d)) (leBytes 16 v.toNat)) ol.2)

/-- DIGEST. -/
def execDigest (id : Nat) (s : State) : Result :=
  match atAcceptance s id 0x2B with
  | some d => .next (checked d (digestCheck s d) (acceptThen d digestStart) s)
  | none => .next s

end Sys2Proof.Machine
end

