-- ==== Sys2Proof/Machine/Testing.lean ====
section
/-!
DEFINITION. Site checks, core tests, remaps and the moves of overdue cores (R18, R270 to R272, R279 to R281); SELFTEST (R280) and
CHECKPOINT (R485).
-/
namespace Sys2Proof.Machine

/-! ## Tests (R279) -/

/-- A core test takes 35 ms. -/
abbrev testNs : Nat := 35000000

/-- A site that has been tested: its time is stamped, and the counts of R272 restart. -/
def stampSite (t : Nat) (s : State) : State :=
  updSite t (fun k => { k with testing := false, tested := some s.now, laneFaults := [], transients := [], marked := false }) s

/-- TEST_RESULT of a site: 0 pass, 1 fail. -/
def testEvent (t part res : Nat) (s : State) : State :=
  postEvent { kind := 0x0B, part := part, core := coreOn s t, site := some t, detail := res } s

/-- Failed vector lanes that spare lanes can take: at most 2 over the site's life. -/
def lanesFit (s : State) (t n : Nat) : Bool := decide ((getSite s t).lanesRepaired + n ≤ 2)

/-- Failed vector lanes are mapped to spare lanes. -/
def repairLanes (t part n : Nat) (s : State) : State :=
  postEvent { kind := 0x0F, part := part, core := coreOn s t, site := some t, detail := n }
    (queueRepair 2 (t + 4096 * n) (stampSite t (updSite t (fun k => { k with lanesRepaired := k.lanesRepaired + n }) s)))

/-- A core's partition is at a step boundary: no step is open, or its attempt has ended and the next has not begun (R18, R261). -/
def stepBoundary (s : State) (n : Nat) : Bool :=
  match openStep s n with
  | some t => t.phase == .gated
  | none => true

/-- What a core test did to its site's logical core; `pending`: its site is retired, and the remap waits for the step boundary (R18). -/
inductive TestEffect where
  | none | repaired | moved | unmapped | pending
  deriving DecidableEq, Repr

/-- A site is tested anew at the counts of R272, whatever the test found. -/
def restartCounts (t : Nat) (s : State) : State :=
  updSite t (fun k => { k with testing := false, laneFaults := [], transients := [], marked := false }) s

/-- The outcome of a core test (R279). `act` allows repair, retirement and remap (R280). The remap of a core whose partition runs an
attempt is left to CORE_REMAP at the step boundary (R18; log entry 124). -/
def testOutcome (act : Bool) (t part : Nat) (r : TestResult) (s : State) : TestEffect × State :=
  let fail (s : State) : TestEffect × State :=
    let s := testEvent t part 1 s
    if act then
      let on := coreOn s t
      let s := retireSite t part s
      match on with
      | some c =>
        if stepBoundary s (getCore s c).part then
          let s := replaceCore c t s
          (if s.places.get .natural c = .unmapped then .unmapped else .moved, s)
        else (.pending, s)
      | none => (.none, s)
    else (.none, restartCounts t s)
  match r with
  | .pass => (.none, testEvent t part 0 (stampSite t s))
  | .lanes n => if act && 0 < n && lanesFit s t n then (.repaired, repairLanes t part n s) else fail s
  | .fail => fail s

/-- A SELFTEST or CHECKPOINT of a partition is testing its cores. -/
def partTesting (s : State) (n : Nat) : Bool :=
  s.descs.any fun d => d.fn == n && (d.opcode == 0x2C || d.opcode == 0x30) && d.phase == .started && d.aux == 2

/-- The partition whose core lies on a site; 0 for none. -/
def sitePart (s : State) (t : Nat) : Nat := ((coreOn s t).map fun c => (getCore s c).part).getD 0

/-- CORE_TEST_START: firmware tests an unmapped spare, or a core that no partition owns, whose test is overdue. -/
def execCoreTestStart (site : Nat) (s : State) : Result :=
  let k := getSite s site
  if site < 2400 && !k.fused && !k.retired && !k.testing && k.check.isNone && sitePart s site == 0 && !testFresh s site then
    .next (updSite site (fun k => { k with testing := true, since := s.clock }) s)
  else .next s

/-- CORE_TEST_DONE: a core test that no descriptor asked for ends. -/
def execCoreTestDone (dt site : Nat) (result : TestResult) (s : State) : Result :=
  let s' := pass dt s
  let k := getSite s' site
  if k.testing && k.since + testNs ≤ s'.clock && !(sitePart s' site != 0 && partTesting s' (sitePart s' site)) then
    .next (testOutcome true site (sitePart s' site) result s').2
  else .next s

/-- SITE_CHECK_DONE: 1,024 repetitions of the captured group and the core test end (R271); a repetition that disagrees ends the check at
once. -/
def execSiteCheckDone (dt site : Nat) (agree : Bool) (result : TestResult) (s : State) : Result :=
  let s' := pass dt s
  match (getSite s' site).check with
  | some k =>
    if !agree || (getSite s' site).since + testNs ≤ s'.clock then
      if agree && result == .pass then
        .next (stampSite site (updSite site (fun k => { k with check := none, capture := none }) s'))
      else
        let s' := retireSite site k.part s'
        if k.moved then .next (noteStep k.part .coreRetired s') else .next (unmapCore k.core s')
    else .next s
  | none => .next s

/-! ## Moves (R18, R281) -/

/-- Cores of a partition whose test is overdue or which R272 marks, the oldest test first. -/
def overdueCores (s : State) (n : Nat) : List Nat :=
  let due := (partCores s n).filter fun c =>
    match siteOf s c with
    | some t => !testFresh s t || (getSite s t).marked
    | none => false
  let key (c : Nat) : Nat := 4096 * testTime s ((siteOf s c).getD 0) + c
  (sortNat (due.map key)).map fun k => k % 4096

/-- Overdue cores move onto tested spares, at most 4 of them, and their freed sites are tested; one with no tested spare is
reported (R281). -/
def overdueMoves (n : Nat) (s : State) : State :=
  ((overdueCores s n).foldl (fun (x : Nat × State) c =>
    let s := x.2
    match siteOf s c with
    | some t =>
      match nearestSite t (fun u => freeSpare s u && testFresh s u) with
      | some u =>
        if x.1 < 4 then (x.1 + 1, updSite t (fun k => { k with testing := true, since := s.clock }) (moveCore c u s)) else x
      | none => (x.1, postEvent { kind := 0x0C, part := n, core := some c, site := some t } s)
    | none => x) (0, s)).2

/-- CORE_REMAP: a logical core whose site is retired is mapped to a spare, or its coordinate becomes unmapped (R18, R19). -/
def execCoreRemap (core : Nat) (s : State) : Result :=
  match siteOf s core with
  | some t =>
    if core % 64 < 48 && core / 64 < 48 && (getSite s t).retired && stepBoundary s (getCore s core).part then
      .next (replaceCore core t s)
    else .next s
  | none => .next s

/-! ## SELFTEST (R280) -/

/-- The cores that a test of a partition selects: all, or those whose last test is older than half of SLW_TEST_MAX_S. A site that runs a
site check is among them: its test starts anew (log entry 123). -/
def testCores (s : State) (n : Nat) (half : Bool) : List Nat :=
  (partCores s n).filter fun c =>
    match siteOf s c with
    | some t => !(getSite s t).retired && (!half || decide (testTime s t + testMax s / 2 < s.now.toNat))
    | none => false

/-- The sites that a partition's test is working on, in the order of their cores. -/
def sitesInTest (s : State) (n : Nat) : List Nat := ((partCores s n).filterMap (siteOf s)).filter fun t => (getSite s t).testing

/-- Tests start together; when they cannot end by the deadline none is made. -/
def testsStart (d : Desc) (half : Bool) (deadline : Nat) (s : State) : State :=
  let fits := !timeReached (now48 s + BitVec.ofNat 48 testNs - 1) (BitVec.ofNat 48 deadline)
  let sites := if fits then (testCores s d.fn half).filterMap (siteOf s) else []
  let s := sites.foldl (fun s t => updSite t (fun k => { k with testing := true, since := s.clock }) s) s
  setPhase d.id .started (updDesc d.id (fun d => { d with aux := 2 }) s)

/-- The status with which a SELFTEST is refused: a reserved value, an open step, a RUNNING core. -/
def selftestCheck (s : State) (d : Desc) : Option Status :=
  if 1 < d.at 16 1 || bitsOf (d.at 17 1) 1 7 != 0 || !zeroAt d.bytes [(18, 6), (30, 2), (40, 24)] then some .descMalformed
  else if (openStep s d.fn).isSome || (partCores s d.fn).any (fun c => (getCore s c).run == .running) then some .descMalformed
  else none

/-- A SELFTEST at its not-before time: a step opened or a core started since its acceptance ends it. -/
def selftestStart (d : Desc) (s : State) : State :=
  match selftestCheck s d with
  | some c => finishDesc d.id c s
  | none => testsStart d (d.at 16 1 == 1) (d.at 24 6) s

/-- SELFTEST. -/
def execSelftest (id : Nat) (s : State) : Result :=
  match atAcceptance s id 0x2C with
  | some d =>
    .next (checked d (selftestCheck s d) (acceptThen d selftestStart) s)
  | none => .next s

/-- A descriptor of a test in progress: it may repair, and where its record goes. -/
def testDesc (s : State) (id : Nat) : Option (Desc × Bool × Nat) :=
  match findDesc s id with
  | some d =>
    if d.phase == .started && d.aux == 2 then
      if d.opcode == 0x2C then some (d, bitOf (d.at 17 1) 0, d.at 32 8)
      else if d.opcode == 0x30 then some (d, true, d.at 40 8)
      else none
    else none
  | none => none

/-- The outcomes of tests, site after site. -/
def testAll (act : Bool) (n : Nat) (l : List (Nat × TestResult)) (s : State) : List TestEffect × State :=
  l.foldl (fun (x : List TestEffect × State) e =>
    let r := testOutcome act e.1 n e.2 x.2
    (x.1 ++ [r.1], r.2)) ([], s)

/-- The sites under a descriptor's test have been tested for 35 ms. -/
def testsOver (s : State) (sites : List Nat) : Bool := sites.all fun t => decide ((getSite s t).since + testNs ≤ s.clock)

/-- SELFTEST_DONE: the tests of a SELFTEST or CHECKPOINT end; the record goes to the host: tested, passed, repaired, retired. -/
def execSelftestDone (dt id : Nat) (results : List TestResult) (s : State) : Result :=
  let s' := pass dt s
  match testDesc s' id with
  | some (d, act, addr) =>
    let sites := sitesInTest s' d.fn
    if results.length == sites.length && testsOver s' sites then
      let r := testAll act d.fn (sites.zip results) s'
      let count (e : TestEffect) : Nat := (r.1.filter fun x => x == e).length
      let passed := (results.filter fun x => x == .pass).length
      let rec_ := leBytes 4 sites.length ++ leBytes 4 passed ++ leBytes 4 (count .repaired) ++ leBytes 4 (count .moved + count .unmapped + count .pending)
      let s'' := emit (.hostWrite d.fn (BitVec.ofNat 64 addr) rec_) r.2
      let st : Status := if 0 < count .unmapped then .partStopped else if 0 < count .moved + count .pending then .coreRetired else .ok
      .next (finishDesc id st s'')
    else .next s
  | none => .next s

/-! ## CHECKPOINT (R485) -/

/-- The last committed step as CHECKPOINT names it: all-ones for none. -/
def lastCommitted (s : State) (n : Nat) : DWord := ((getPart s n).last).getD (BitVec.allOnes 64)

/-- The status with which a CHECKPOINT is refused. -/
def checkpointCheck (s : State) (d : Desc) : Option Status :=
  let test := bitOf (d.at 24 1) 0
  if BitVec.ofNat 64 (d.at 16 8) != lastCommitted s d.fn || bitsOf (d.at 24 1) 1 7 != 0 || !zeroAt d.bytes [(25, 7), (38, 2), (48, 16)] ||
      (!test && d.at 40 8 != 0) then some .descMalformed
  else none

/-- A CHECKPOINT at its not-before time: it begins to wait for the earlier descriptors. -/
def checkpointStart (d : Desc) (s : State) : State := setPhase d.id .started (updDesc d.id (fun d => { d with aux := 1 }) s)

/-- Every earlier descriptor of the partition's rings but INGEST_SUBMIT has completed. -/
def checkpointMet (s : State) (d : Desc) : Bool :=
  !(s.descs.any fun e => decide (e.id < d.id) && e.fn == d.fn && e.opcode != 0x18)

/-- The boundary is recorded; with TEST the cores are tested as by SELFTEST with SCOPE 1 and REPAIR. -/
def checkpointGo (d : Desc) (s : State) : State :=
  let s := updPart d.fn (fun p => { p with boundary := some (lastCommitted s d.fn, s.now) }) s
  if bitOf (d.at 24 1) 0 then testsStart d true (d.at 32 6) s else finishDesc d.id .ok s

/-- CHECKPOINT: accepted once no step is open, and carried out once it has nothing left to wait for. -/
def execCheckpoint (id : Nat) (s : State) : Result :=
  match findDesc s id with
  | some d =>
    if d.opcode == 0x30 && d.phase == .started && d.aux == 1 then
      if checkpointMet s d then .next (checkpointGo d s) else .next s
    else match atAcceptance s id 0x30 with
      | some d =>
        if (openStep s d.fn).isSome then .next s
        else .next (checked d (checkpointCheck s d) (acceptThen d checkpointStart) s)
      | none => .next s
  | none => .next s

end Sys2Proof.Machine
end

