-- ==== Sys2Proof/Machine/Steps.lean ====
section
/-!
DEFINITION. Steps (07) and their attempts (09): STEP_BEGIN (R234, R235, R261), STEP_COMMIT and commit (R27, R237, R264), the end of
an attempt (R266 to R268), its next start (R261), a step that ends without commit (R238, R265, R283).
-/
namespace Sys2Proof.Machine

/-! ## Registers (R286, R288) -/

/-- SLW_CTL, MAX_REPLAYS, REPLAY_LEAD_US in ns. -/
def slwCtl (s : State) (n : Nat) : Nat := regN s (ctx bSlwCtx n 0)
def maxReplays (s : State) (n : Nat) : Nat := bitsOf (slwCtl s n) 0 2
def replayLead (s : State) (n : Nat) : Nat := bitsOf (slwCtl s n) 8 8 * 1000

/-! ## The start of an attempt (R261, R262) -/

/-- The counter base table is written: every counter of the range as it stands. -/
def writeBases (n : Nat) (s : State) : State :=
  let p := getPart s n
  memPut n 0 0 (reg64 s (ctx bSlwCtx n 0x14)) ((List.range p.pcount).map fun i => leBytes 8 (getCounter s (p.pbase + i)).toNat).flatten s

/-- Every core of a partition is reset (R160). -/
def resetCores (n : Nat) (s : State) : State := (partCores s n).foldl (fun s c => resetCore c s) s

/-- Stash slots released and page cache cleared (R225, R315). -/
def freshMemory (n : Nat) (s : State) : State := rpcClear n (stashReleaseAll n s)

/-! ## STEP_BEGIN (R234, R235) -/

/-- Fields of STEP_BEGIN. -/
def sbStep (d : Desc) : DWord := BitVec.ofNat 64 (d.at 16 8)
def sbSeed (d : Desc) : DWord := BitVec.ofNat 64 (d.at 24 8)
def sbBase (d : Desc) : Nat := d.at 32 8
def sbLen (d : Desc) : Nat := d.at 40 8

/-- A pass group of the partition has no core (R211). -/
def passEmpty (s : State) (n : Nat) : Bool :=
  [0, 1, 2].any fun k => !(getPart s n).groups.any fun g => !g.sub && g.pass == k && !(rectsCores g.rects).isEmpty

/-- The status with which a STEP_BEGIN is refused, in table order. -/
def beginCheck (s : State) (d : Desc) : Option Status :=
  if !zeroAt d.bytes [(48, 16)] || passEmpty s d.fn then some .descMalformed
  else if (getPart s d.fn).last.any fun c => sbStep d != c + 1 then some .descMalformed
  else if sbBase d % 4096 != 0 || sbLen d % 4096 != 0 ||
      (sbLen d != 0 && !quotaOk s d.fn (sbBase d) (sbLen d) false) then some .descBounds
  else none

/-- A step opens and its attempt 0 starts. -/
def stepOpen (d : Desc) (s : State) : State :=
  let n := d.fn
  let t : Step := { num := sbStep d, seed := sbSeed d, holdBase := sbBase d, holdLen := sbLen d, gate0 := s.now, gate := s.now }
  -- records that came before are taken while no step is open (R247)
  let s := updPart n (fun p => { p with step := some t }) (govDrain n s)
  let s := govOpen n (freshMemory n (poolFree n s))
  finishDesc d.id .ok (govAttempt n (writeBases n (resetCores n s)))

/-- A core of the partition lies on a site with a property. -/
def anySite (s : State) (n : Nat) (f : Site → Bool) : Bool := (partCores s n).any fun c => (siteOf s c).any fun t => f (getSite s t)

/-- A remap is still to be made (R18). -/
def remapOpen (s : State) (n : Nat) : Bool := anySite s n Site.retired

/-- A site check still runs in place, and the replay waits for it (R270, R271). -/
def checkOpen (s : State) (n : Nat) : Bool := anySite s n fun k => k.check.any fun c => !c.moved

/-- A STEP_BEGIN waits: a step is open, a remap is not finished (R18), an earlier one is about to open its step (R235), or an earlier
CHECKPOINT is not complete (R485). -/
def beginWaits (s : State) (d : Desc) : Bool :=
  (openStep s d.fn).isSome || remapOpen s d.fn || s.descs.any fun e =>
    e.fn == d.fn && ((e.opcode == 0x28 && e.phase == .waiting) || (e.opcode == 0x30 && decide (e.id < d.id) && e.live))

/-- STEP_BEGIN. -/
def execStepBegin (id : Nat) (s : State) : Result :=
  match atAcceptance s id 0x28 with
  | some d => if beginWaits s d then .next s else .next (checked d (beginCheck s d) (acceptThen d stepOpen) s)
  | none => .next s

/-! ## STEP_COMMIT (R237) -/

/-- STEP_COMMIT: it names the open step, and waits for its end. `aux` keeps how many streams the step held by then. -/
def execStepCommit (id : Nat) (s : State) : Result :=
  match atAcceptance s id 0x29 with
  | some d =>
    match openStep s d.fn with
    | some t =>
      if zeroAt d.bytes [(24, 40)] && t.num == BitVec.ofNat 64 (d.at 16 8) then
        .next (acceptThen d (fun d s => setPhase d.id .held s)
          (updDesc id (fun d => { d with aux := BitVec.ofNat 64 t.streams.length }) s))
      else .next (refuseDesc id .descMalformed s)
    | none => .next (refuseDesc id .descMalformed s)
  | none => .next s

/-- The held descriptors of a partition with an opcode. -/
def heldDescs (s : State) (n op : Nat) : List Desc := s.descs.filter fun d => d.fn == n && d.opcode == op && d.phase == .held

/-- The collectives that Slipway holds for a partition. -/
def heldColls (s : State) (n : Nat) : List Coll :=
  (getPart s n).colls.filter fun c => (findDesc s c.id).any fun d => d.phase == .held

/-- The streams that a commit waits for: those accepted before the first STEP_COMMIT. -/
def commitStreams (s : State) (n : Nat) (t : Step) : List Nat :=
  match heldDescs s n 0x29 with
  | d :: _ => t.streams.take d.aux.toNat
  | [] => t.streams

/-- A collective ended with OK or LINK_DEGRADED. -/
def Coll.good (c : Coll) : Bool := c.phase == .ended .ok || c.phase == .ended .linkDegraded

/-- The step is a digest step (R275). -/
def digestStep (s : State) (n : Nat) (t : Step) : Bool :=
  let steps := regN s (ctx bSlwCtx n 0x1C)
  let ns := reg64 s (ctx bSlwCtx n 0x20)
  let p := getPart s n
  bitOf (slwCtl s n) 3 && ((steps != 0 && t.num.toNat % steps == 0) ||
    (ns != 0 && p.last.isSome && decide (p.lastGate.toNat / ns < t.gate0.toNat / ns)))

/-- Every check-lane vote of the partition has its verdict. -/
def votesDone (s : State) (n : Nat) : Bool := (partCores s n).all fun c => (getCore s c).votes.all fun e => e.2.isNone

/-- The step has reached the point of commit (R27, R237): a STEP_COMMIT is there, its streams have ended, every vote has its verdict, the
governor has taken every record, every collective ended well, the digests compared. -/
def atCommit (s : State) (n : Nat) (t : Step) : Bool :=
  t.phase == .running && votesDone s n && !(heldDescs s n 0x29).isEmpty && (commitStreams s n t).all (fun i => t.ended.contains i) &&
    (getPart s n).gov.inbox.isEmpty && (heldColls s n).all Coll.good && t.reloads.isEmpty && (!digestStep s n t || t.compared)

/-- The attempt is the first ordered one of a COMPARE, which does not commit (R278). -/
def mayNotCommit (t : Step) : Bool := t.cmp == 1 && t.cmpAttempt == some t.attempt

/-! ## COMPARE (R278) -/

/-- The digests of the copies in the inactive halves; a copy that has none counts as 0. -/
def foldInactive (s : State) (n : Nat) (t : Step) : List (BitVec 128) :=
  (weightEntries s n).map fun e => (copyDigest s (halfOf e.2 (t.num.toNat + 1)) e.2.len).getD 0

/-- The entries whose digest differs between the two ordered attempts. -/
def comparePairs (s : State) (n : Nat) (t : Step) : List (Nat × Region) :=
  (((weightEntries s n).zip (t.compareList.zip (foldInactive s n t))).filter fun e => e.2.1 != e.2.2).map Prod.fst

/-- The comparison at commit: DIAG_DIFFER for each copy that differs, and the record for each REPLAY_STEP that asked for it. -/
def compareReport (n : Nat) (t : Step) (s : State) : State :=
  if t.cmp = 0 then s
  else
    let l := comparePairs s n t
    let s := l.foldl (fun s e => postEvent { kind := 0x0E, part := n, layer := e.2.layer, detail := e.2.copy } s) s
    let rec_ := leBytes 4 (if t.cmp = 2 then t.compareList.length else 0) ++ leBytes 4 l.length ++
      leBytes 2 ((l.head?.map fun e => e.2.layer).getD 0xFFFF) ++ leBytes 1 ((l.head?.map fun e => e.2.copy).getD 0) ++ zeros 5
    (t.replays.filterMap (findDesc s)).foldl (fun s d =>
      if bitOf (d.at 24 1) 1 && d.at 32 8 != 0 then emit (.hostWrite n (BitVec.ofNat 64 (d.at 32 8)) rec_) s else s) s

/-! ## What the end of a step completes (R237, R264, R406) -/

/-- Completing codes of a replayed step, and of one whose core's site was retired (R264, R271). -/
def stepCodes (t : Step) : List Status :=
  (if t.attempt = 0 then [] else [.okReplayed]) ++ (if t.codes.contains .coreRetired then [.coreRetired] else [])

/-- A descriptor ends with codes that apply to it too. -/
def finishWith (l : List Status) (id : Nat) (st : Status) (s : State) : State :=
  finishDesc id st (l.foldl (fun s c => noteDesc id c s) s)

/-- Held streams and collectives complete; what has not ended in the attempt completes with a code, or, where there is none, goes on
outside the step. -/
def finishHeld (n : Nat) (t : Step) (code : Option Status) (s : State) : State :=
  let l := stepCodes t
  let s := t.streams.foldl (fun s i =>
    if t.ended.contains i then finishWith l i .ok s
    else match code with
      | some c => finishDesc i c s
      | none => if (findDesc s i).any fun d => d.phase == .held then setPhase i .started s else s) s
  let ids := (heldColls s n).map Coll.id
  let s := (heldColls s n).foldl (fun s c =>
    match c.phase with
    | .ended st => finishWith (if statusCompletes st then l else []) c.id st s
    | _ =>
      finishDesc c.id (code.getD .internalError) s) s
  updPart n (fun p => { p with colls := p.colls.filter fun c => !ids.contains c.id }) s

/-- The accepted STEP_COMMITs of the open step: held, or waiting for their not-before time. -/
def stepCommits (s : State) (n : Nat) : List Desc :=
  s.descs.filter fun d => d.fn == n && d.opcode == 0x29 && (d.phase == .held || d.phase == .waiting)

/-- REPLAY_STEPs complete with the step, then its STEP_COMMITs (R237). -/
def finishCommits (n : Nat) (t : Step) (code : Status) (s : State) : State :=
  let s := t.replays.foldl (fun s i => finishDesc i .ok s) s
  (stepCommits s n).foldl (fun s d => finishWith (if statusCompletes code then stepCodes t ++ t.codes else []) d.id code s) s

/-- The step commits (R237). -/
def commitStep (n : Nat) (s : State) : State :=
  match openStep s n with
  | none => s
  | some t =>
    let s := compareReport n t (govCommit n (t.attempt != 0) s)
    -- codes the governor's commit has added
    let t := (openStep s n).getD t
    let s := updPart n (fun p => { p with last := some t.num, lastGate := t.gate0, step := none }) s
    let s := overdueMoves n (slotReturn n (dropHeld n (stashReleaseAll n s)))
    finishCommits n t .ok (finishHeld n t none s)

/-- STEP_COMMITTED: Slipway finds the step at its commit. -/
def execStepCommitted (dt part : Nat) (s : State) : Result :=
  match openStep s part with
  | some t => if atCommit s part t && !mayNotCommit t then .next (commitStep part (pass dt s)) else .next s
  | none => .next s

/-- ORDERED_COMPARE_FOLD: the first ordered attempt of a COMPARE reaches the point of commit: its copies are folded, and the next
attempt follows (R278). -/
def execOrderedCompareFold (part : Nat) (s : State) : Result :=
  match openStep s part with
  | some t =>
    if atCommit s part t && mayNotCommit t then
      .next (raiseCause part cHOST (updStep part (fun t => { t with cmp := 2, compareList := foldInactive s part t }) s))
    else .next s
  | none => .next s

/-! ## A step ends without commit (R238, R265, R266, R283) -/

/-- DETAIL of a REPLAY or STEP_ENDED record: the cause bits, then the codes that arrived in the attempt, at most seven (R266, R282). -/
def codesDetail (t : Step) : Nat :=
  packB ((1, t.causes.toNat) :: ((t.endCode.toList ++ t.moreCodes).take 7).map fun c => (1, statusNum c))

/-- A held collective that completes with the step's code writes its record then (R412); one that ended in the attempt wrote its own. -/
def recordCut (n : Nat) (code : Status) (s : State) : State :=
  (heldColls s n).foldl (fun s c =>
    match c.phase, findDesc s c.id with
    | .ended _, _ => s
    | _, some d => collRecord n d c code 0xFFFF s
    | _, none => s) s

/-- The open step ends with a code; `gov` says that its final attempt's GOVERNOR replay found no attempt left. -/
def stepEnds (n : Nat) (code : Status) (gov : Bool) (s : State) : State :=
  match openStep s n with
  | none => s
  | some t =>
    let s := recordCut n code (govEnd n gov s)
    let s := postEvent { kind := 0x0A, status := statusNum code, part := n, detail := codesDetail t } s
    let s := updPart n (fun p => { p with step := none }) s
    let s := slotReturn n (dropHeld n s)
    let s := finishCommits n t code (finishHeld n t (some code) s)
    -- a moved core suspect again starts rung 2 (R282)
    if t.fatal = some .internalError then rungTwo n code (countEvent n s) else uncorrected n code s

/-- A code that ends the step, also while the next attempt waits for its gate. -/
def failStep (n : Nat) (code : Status) (s : State) : State :=
  if (openStep s n).any fun t => t.phase == .gated then stepEnds n code false s else raiseFatal n code s

/-! ## The end of an attempt (R267) -/

/-- A held collective of the attempt ends with its abort: it sends nothing more, and its packets report to it no more. -/
def abortColl (n : Nat) (s : State) (c : Coll) : State :=
  match findDesc s c.id with
  | some d =>
    if c.open then
      let s := updPart n (fun p => { p with collPast := BitVec.ofNat 64 (collSig s n d) :: p.collPast }) s
      updColl n c.id (fun c => { c with phase := .aborted, slotHeld := false, own := [], kept := [] })
        (dropOrigins (fun o => o == .coll n c.id) (cutColl n d c s))
    else s
  | none => s

/-- ATTEMPT_END: the votes are done; cores stop, the governor takes every record and marks its layers, then the collectives abort
(R28). -/
def execAttemptEnd (dt part : Nat) (s : State) : Result :=
  match openStep s part with
  | some t =>
    if t.phase = .ending && votesDone s part then
      let s := govDrain part ((partCores s part).foldl (fun s c => stopCore .faulted c s) (pass dt s))
      let s := (heldColls s part).foldl (abortColl part) s
      .next (updStep part (fun t => { t with phase := .stopping }) s)
    else .next s
  | none => .next s

/-! ## Confirmation: the next attempt, or the end of the step (R266 to R270) -/

/-- The code of R266 for a cause. -/
def causeCode : Nat → Status
  | 2 => .checksumFail | 3 => .checksumFail | 4 => .digestMismatch | _ => .internalError

/-- The code with which a step ends when no attempt remains; for PEER, by the lowest other cause of the peer's notice. -/
def noAttemptCode (t : Step) : Status :=
  if t.first = cPEER then
    match (List.range 8).find? fun b => b != cPEER && bitOf t.peerCauses.toNat b with
    | some b => causeCode b
    | none => .internalError
  else causeCode t.first

/-- A suspect core: one that stayed and mismatched again is replaced and its site retired (R271); any other moves, or stays. -/
def suspectCore (n : Nat) (s : State) (c : Nat) : State :=
  if (openStep s n).any fun t => t.stayed.contains c then
    match siteOf s c with
    | some t => replaceCore c t (retireSite t n s)
    | none => s
  else
    let r := suspectMove c s
    updStep n (fun t => if r.1 then { t with moved := t.moved ++ [c] } else { t with stayed := t.stayed ++ [c] }) r.2

/-- Active copies are compared after a CHECKSUM cause, and one that differs is reloaded (R265); one reloaded before ends the step
(R282). -/
def checkCopy (n : Nat) (s : State) (e : Nat × Region) : State :=
  match openStep s n with
  | some t =>
    let a := halfOf e.2 t.num.toNat
    let s := readCopy n a e.2.len s
    if t.weightLost.contains e.1 || copyDigest s a e.2.len != some (headDigest s a) then
      if t.reloaded.contains e.1 then raiseFatal n .checksumFail s
      else
        repairCopy n t.num.toNat e (updStep n (fun t =>
          { t with causes := t.causes ||| BitVec.ofNat 8 (2 ^ cWEIGHT), reloaded := t.reloaded ++ [e.1]
                   weightLost := t.weightLost.filter fun i => i != e.1 }) s)
    else s
  | none => s

/-- GATE of the next attempt (R268): the peer's alone when only its notice ended the attempt or names a later one, else the
earlier of the two. -/
def nextGate (s : State) (n : Nat) (t : Step) : DWord :=
  let own : DWord := t.causeAt + BitVec.ofNat 64 (replayLead s n)
  match t.peerGate with
  | some g => if t.causes = BitVec.ofNat 8 (2 ^ cPEER) || t.attempt + 1 < t.peerAttempt || g.toNat < own.toNat then g else own
  | none => own

/-- REPLAY_NOTICE to every other member (R268, R269). -/
def sendNotices (n : Nat) (s : State) : State :=
  match openStep s n with
  | some t =>
    let fl := b2n (collOrdered s n || t.wantOrdered) + 2 * b2n (t.cmp != 0)
    let data := controlHead s n t.next fl (leBytes 1 t.causes.toNat ++ zeros 3) ++ leBytes 6 (t.gate.toNat % 2 ^ 48) ++ zeros 10
    (othersOf s n (ownMember s n)).foldl (fun s m => sendControl n (peerNode s n m) 0x10 data s) s
  | none => s

/-- REPLAY_STEPs whose last attempt has ended complete: one without COMPARE with the end of the attempt it started (R278). -/
def replaysEnd (n nxt : Nat) (s : State) : State :=
  match openStep s n with
  | some t =>
    let beyond := (t.replays.filterMap (findDesc s)).filter fun d => !bitOf (d.at 24 1) 1 && d.aux != 0
    let s := beyond.foldl (fun s d => finishDesc d.id .ok s) s
    let s := t.replays.foldl (fun s i => updDesc i (fun d => if d.aux = 0 then { d with aux := BitVec.ofNat 64 nxt } else d) s) s
    updStep n (fun t => { t with replays := t.replays.filter fun i => !beyond.any fun d => d.id == i }) s
  | none => s

/-- The end of an attempt is confirmed and attempt `nxt` is to follow (R267 steps 3 and 4). -/
def prepareReplay (n nxt : Nat) (t : Step) (s : State) : State :=
  let s := t.suspects.foldl (suspectCore n) (govConfirm n (updStep n (fun t => { t with reloads := [] }) s))
  let s := if bitOf t.causes.toNat cCHECKSUM then (weightEntries s n).foldl (checkCopy n) s else s
  match openStep s n with
  | none => s
  | some t =>
    match t.fatal with
    | some c => stepEnds n c false s
    | none =>
      let s := postEvent { kind := 0x09, part := n, layer := t.firstLayer
                           detail := codesDetail t } s
      let s := replaysEnd n nxt s
      let s := updPart n (fun p => { p with replays := satTo 16 (p.replays + 1), lastCauses := t.causes }) s
      let g := nextGate s n t
      let s := updStep n (fun t => { t with
        phase := .gated, next := nxt, gate := g
        cmpAttempt := if t.cmp = 1 then t.cmpAttempt <|> some nxt else t.cmpAttempt }) s
      let s := sendNotices n s
      updStep n (fun t => { t with
        causes := 0, first := 0, peerCauses := 0, peerAttempt := 0, peerGate := none, endCode := none, moreCodes := [], suspects := []
        firstLayer := 0xFFFF }) s

/-- No attempt remains: the step ends with the code of R266; suspects still run their site check, and one that stayed and mismatched
again is retired (R271). -/
def endAtLast (n : Nat) (t : Step) (s : State) : State :=
  let code := noAttemptCode t
  let gov := t.first == cGOVERNOR
  let s := if gov then
      postEvent { kind := 0x09, status := statusNum code, part := n, layer := t.firstLayer, detail := codesDetail t } s
    else s
  stepEnds n code gov (t.suspects.foldl (suspectCore n) s)

/-- ATTEMPT_END_CONFIRM: cores and collectives have stopped, and the governor has taken every record of the attempt. -/
def execAttemptEndConfirm (dt part : Nat) (s : State) : Result :=
  match openStep s part with
  | some t =>
    if t.phase = .stopping then
      let s := govDrain part (pass dt s)
      match openStep s part with
      | some t =>
        let nxt := max (t.attempt + 1) t.peerAttempt
        .next (match t.fatal with
          | some c => stepEnds part c false s
          | none =>
            if t.causes = 0 then stepEnds part (t.endCode.getD .internalError) false s
            else if maxReplays s part < nxt then endAtLast part t s
            else prepareReplay part nxt t s)
      | none => .next s
    else .next s
  | none => .next s

/-! ## The next attempt starts (R261) -/

/-- A data image that the partition's cores need fails its digest (R208). -/
def imageLost (s : State) (n : Nat) : Bool := (partCores s n).any fun c =>
  [(getCore s c).bank0, (getCore s c).bank1].any fun b => b.valid && s.ldr.datas.any fun d => d.hash == b.hash && d.damaged

/-- The data image of the object in a core's active bank is written again (R208). -/
def rewriteCore (s : State) (c : Nat) : State :=
  let k := getCore s c
  let b := bankOf k k.active
  if b.valid then
    match s.ldr.datas.find? fun d => d.hash == b.hash && !d.damaged with
    | some d => updCore c (fun k => writeImage k d) s
    | none => s
  else s

/-- The collectives of the step start anew: none of the abandoned attempt's state is left (R264, R406). -/
def freshColls (n : Nat) (s : State) : State :=
  let ids := (heldColls s n).map Coll.id
  let s := dropOrigins (fun o => match o with
    | .coll m i => m == n && ids.contains i
    | _ => false) s
  ids.foldl (fun s i => updColl n i (fun c => { id := i, base := c.base }) s) s

/-- The first held stream of each group restarts; each later one follows the end of the one before it. -/
def restartStreams (n : Nat) (s : State) : State :=
  let s := updStep n (fun t => { t with ended := t.streams.filter fun i => (findDesc s i).any fun d => d.phase == .held && emptyStream s d }) s
  ((getPart s n).groups.map Group.num).foldl (fun s g =>
    match nextHeld s n g with
    | some d => if d.phase == .held then startStreamNow d s else s
    | none => s) s

end Sys2Proof.Machine
end

