-- ==== Sys2Proof/Machine/Slipway.lean ====
section
/-!
DEFINITION. Slipway's messages (R268, R269), the digest exchange (R276), reloads (R269, R277), REPLAY_STEP (R278).
-/
namespace Sys2Proof.Machine

/-! ## CONTROL packets (R269) -/

/-- The 16 bytes that start every CONTROL payload. -/
def ctlStep (k : Packet) : DWord := BitVec.ofNat 64 (leAt k.payload 0 8)
def ctlAttempt (k : Packet) : Nat := leAt k.payload 8 1
def ctlFlags (k : Packet) : Nat := leAt k.payload 9 1
def ctlMember (k : Packet) : Nat := leAt k.payload 10 2

/-! ## REPLAY_NOTICE (R268) -/

/-- A 48-bit fabric time as the 64-bit time nearest the present. -/
def fullTime (s : State) (g : BitVec 48) : DWord := s.now + (g - now48 s).signExtend 64

/-- A notice of a later attempt; while the next attempt waits for its gate the earlier gate and the later attempt hold. -/
def takeNotice (k : Packet) (n : Nat) (t : Step) (s : State) : State :=
  let a := ctlAttempt k
  let g := fullTime s (BitVec.ofNat 48 (leAt k.payload 16 6))
  let fl := ctlFlags k
  if a ≤ t.attempt then s
  else if t.phase = .gated then
    if maxReplays s n < a || a < t.next then s
    else updStep n (fun t =>
      { t with gate := if t.next < a || g.toNat < t.gate.toNat then g else t.gate, next := a, wantOrdered := t.wantOrdered || bitOf fl 0
               cmp := if bitOf fl 1 && t.cmp = 0 then 1 else t.cmp
               cmpAttempt := if bitOf fl 1 && t.cmp = 0 then some a else t.cmpAttempt }) s
  else
    raiseCause n cPEER (updStep n (fun t =>
      { t with peerGate := (match t.peerGate with
                 | some h => if t.peerAttempt < a then some g else if t.peerAttempt = a && g.toNat < h.toNat then some g else some h
                 | none => some g)
               peerAttempt := max t.peerAttempt a
               peerCauses := t.peerCauses ||| BitVec.ofNat 8 (leAt k.payload 12 1)
               wantOrdered := t.wantOrdered || bitOf fl 0
               cmp := if bitOf fl 1 && t.cmp = 0 then 1 else t.cmp }) s)

/-! ## The digest exchange (R276) -/

/-- SLW_DIGEST_DEADLINE in ns, and the time at which the lists of an attempt are due. -/
def digestNs (s : State) (n : Nat) : Nat := regN s (ctx bSlwCtx n 0x28)
def listsDue (s : State) (n : Nat) (t : Step) : Nat := t.gate.toNat + digestNs s n

/-- The values of the copy at a position: (member, digest), this member's own among them. -/
def valuesAt (s : State) (n : Nat) (t : Step) (i : Nat) : List (Nat × BitVec 128) :=
  (ownMember s n, (t.digests.getD []).getD i 0) :: (t.lists.filter fun e => e.2.1 == i).map fun e => (e.1, e.2.2)

/-- The value held by more than half of the members. -/
def majority (s : State) (n : Nat) (l : List (Nat × BitVec 128)) : Option (BitVec 128) :=
  (l.map Prod.snd).find? fun v => decide (peerCount s n < 2 * (l.filter fun e => e.2 == v).length)

/-- Every other member's list is complete. -/
def listsIn (s : State) (n : Nat) (t : Step) : Bool :=
  (othersOf s n (ownMember s n)).all fun m =>
    (List.range (weightEntries s n).length).all fun i => t.lists.any fun e => e.1 == m && e.2.1 == i

/-- This member holds a minority value of a copy: the owner narrows it again, another member reloads it. -/
def repairMinority (n i : Nat) (e : Nat × Region) (want : BitVec 128) (t : Step) (s : State) : State :=
  let half := t.num.toNat + 1
  if e.2.owner = ownMember s n then
    let r := renarrow n (halfOf e.2 half) e.2.len want s
    if r.1 then
      noteStep n .okRetried (updStep n (fun t => { t with digests := t.digests.map fun l => l.set i want }) r.2)
    else raiseFatal n .digestMismatch r.2
  else askReload n e.1 half e.2 true s

/-- The outcome for the copy at a position. -/
def compareCopy (n : Nat) (t : Step) (s : State) (x : Nat × Nat × Region) : State :=
  let l := valuesAt s n t x.1
  match majority s n l with
  | none => raiseCause n cDIGEST s
  | some v =>
    let minor := (l.filter fun e => e.2 != v).map Prod.fst
    let s := minor.foldl (fun s m => postEvent { kind := 0x08, part := n, layer := x.2.2.layer, detail := m } s) s
    if minor.contains (ownMember s n) then repairMinority n x.1 x.2 v t s else s

/-- The lists are compared once: when all are in, or at the deadline. -/
def compareLists (n : Nat) (s : State) : State :=
  match openStep s n with
  | some t =>
    if t.listSent && !t.compared && t.phase == .running && (listsIn s n t || decide (listsDue s n t ≤ s.now.toNat)) then
      let ws := weightEntries s n
      ((List.range ws.length).zip ws).foldl (compareCopy n t) (updStep n (fun t => { t with compared := true }) s)
    else s
  | none => s

/-- DIGEST_LIST packets of at most 31 digests to one member. -/
def sendList (n : Nat) (t : Step) (l : List (BitVec 128)) (s : State) (m : Nat) : State :=
  let k := (l.length + 30) / 31
  ((List.range k).zip (chunks 31 k l)).foldl (fun s p =>
    let four := leBytes 2 (31 * p.1) ++ leBytes 2 p.2.length
    sendControl n (peerNode s n m) 0x11 (controlHead s n t.attempt 0 four ++ (p.2.map fun v => leBytes 16 v.toNat).flatten) s) s

/-- The lists go out once every copy matches its own header. -/
def sendLists (n : Nat) (s : State) : State :=
  match openStep s n with
  | some t =>
    match t.digests with
    | some l =>
      if t.listSent || !t.reloads.isEmpty || t.phase != .running then s
      else compareLists n ((othersOf s n (ownMember s n)).foldl (sendList n t l) (updStep n (fun t => { t with listSent := true }) s))
    | none => s
  | none => s

/-- Every copy in the inactive halves is folded; one that differs from its header is repaired (R276). -/
def foldCopies (n : Nat) (t : Step) (s : State) : State :=
  let half := t.num.toNat + 1
  let s := (weightEntries s n).foldl (fun s e =>
    let a := halfOf e.2 half
    let s := readCopy n a e.2.len s
    if copyDigest s a e.2.len = some (headDigest s a) then s
    else repairCopy n half e (postEvent { kind := 0x07, part := n, layer := e.2.layer, detail := e.2.owner } s)) s
  let l := (weightEntries s n).map fun e => headDigest s (halfOf e.2 half)
  sendLists n (updStep n (fun t => { t with digests := some l }) s)

/-- DIGEST_FOLD: in a digest step, when the last broadcast has come: a STEP_COMMIT is there and every collective has ended well
(log entry 33). -/
def execDigestFold (part : Nat) (s : State) : Result :=
  match openStep s part with
  | some t =>
    if t.phase == .running && digestStep s part t && t.digests.isNone && !(heldDescs s part 0x29).isEmpty &&
        (heldColls s part).all Coll.good then .next (foldCopies part t s)
    else .next s
  | none => .next s

/-- The digests of a DIGEST_LIST: (member, position, value). -/
def listOf (k : Packet) : List (Nat × Nat × BitVec 128) :=
  (List.range (leAt k.payload 14 2)).map fun i =>
    (ctlMember k, leAt k.payload 12 2 + i, BitVec.ofNat 128 (leAt k.payload (16 + 16 * i) 16))

/-- A DIGEST_LIST is taken before its deadline, in the attempt it names. -/
def takeList (pkt : Packet) (n : Nat) (t : Step) (s : State) : State :=
  let c := leAt pkt.payload 14 2
  if ctlAttempt pkt = t.attempt && t.phase != .gated && 1 ≤ c && c ≤ 31 && s.now.toNat < listsDue s n t &&
      ctlMember pkt < peerCount s n && ctlMember pkt ≠ ownMember s n then
    compareLists n (updStep n (fun t =>
      { t with lists := t.lists ++ (listOf pkt).filter fun e => !t.lists.any fun o => o.1 == e.1 && o.2.1 == e.2.1 }) s)
  else s

/-- DIGEST_DEADLINE: the lists are compared without the missing ones. -/
def execDigestDeadline (dt part : Nat) (s : State) : Result :=
  let s' := pass dt s
  match openStep s' part with
  | some t =>
    if t.listSent && !t.compared && t.phase == .running && listsDue s' part t ≤ s'.now.toNat then .next (compareLists part s')
    else .next s
  | none => .next s

/-! ## Reloads (R269, R276) -/

/-- A RELOAD_REQ: the owner sends the copy. -/
def takeReloadReq (pkt : Packet) (n : Nat) (_t : Step) (s : State) : State :=
  serveReload n pkt.src (leAt pkt.payload 12 2) (leAt pkt.payload 14 1) (leAt pkt.payload 15 1) (leAt pkt.payload 16 6) s

/-- The outstanding reload that a RELOAD_DONE of a node ends: the one whose header came, else the oldest (log entry 34). -/
def reloadOf (s : State) (t : Step) (k : Packet) : Option Reload :=
  let mine := t.reloads.filter fun r => r.node == k.src
  (mine.find? fun r => headDigest s r.addr == BitVec.ofNat 128 (leAt k.payload 16 16)) <|> mine.head?

/-- The value that a reloaded copy must have: its header's, or the majority's. -/
def reloadWant (s : State) (n : Nat) (t : Step) (r : Reload) : BitVec 128 :=
  if r.redo then
    match (weightEntries s n).findIdx? fun e => e.1 == r.entry with
    | some i => (majority s n (valuesAt s n t i)).getD (headDigest s r.addr)
    | none => headDigest s r.addr
  else headDigest s r.addr

/-- A copy has come whole: it is folded again; one that still differs ends the step. -/
def reloadCame (n : Nat) (t : Step) (r : Reload) (s : State) : State :=
  let s := readCopy n r.addr r.len (updStep n (fun t => { t with reloads := t.reloads.filter fun o => o != r }) s)
  if copyDigest s r.addr r.len != some (reloadWant s n t r) then failStep n .digestMismatch s
  else
    let i := ((weightEntries s n).findIdx? fun e => e.1 == r.entry).getD 0
    let own := headDigest s r.addr
    let inact := t.phase != .gated
    let s := if inact then updStep n (fun t => { t with digests := t.digests.map fun l => l.set i own }) s else s
    sendLists n (if r.redo then noteStep n .okRetried s else s)

/-- A RELOAD_DONE with STATUS 0: the copy has come; any other leaves the requester to its deadline. -/
def takeReloadDone (pkt : Packet) (n : Nat) (t : Step) (s : State) : State :=
  if leAt pkt.payload 12 1 = 0 then
    match reloadOf s t pkt with
    | some r => reloadCame n t r s
    | none => s
  else s

/-- What a CONTROL packet does in the open step it names, by its subtype. -/
def controlAct (k : Packet) (n : Nat) (t : Step) (s : State) : State :=
  match k.tspec with
  | 0x10 => takeNotice k n t s
  | 0x11 => takeList k n t s
  | 0x12 => takeReloadReq k n t s
  | 0x13 => takeReloadDone k n t s
  | _ => s

/-- A CONTROL packet whose STEP is not the open step of its partition has no effect. -/
def takeControl (k : Packet) (n : Nat) (s : State) : State :=
  match openStep s n with
  | some t => if t.num = ctlStep k then controlAct k n t s else s
  | none => s

/-- RELOAD_DEADLINE: a reload without its RELOAD_DONE counts as a copy that still differs. -/
def execReloadDeadline (dt part : Nat) (s : State) : Result :=
  let s' := pass dt s
  match openStep s' part with
  | some t =>
    if t.reloads.any fun r => decide (r.since.toNat + digestNs s' part ≤ s'.now.toNat) then
      .next (failStep part .digestMismatch (updStep part (fun t => { t with reloads := [] }) s'))
    else .next s
  | none => .next s

/-! ## REPLAY_STEP (R278) -/

/-- The status with which a REPLAY_STEP is refused. -/
def replayCheck (s : State) (d : Desc) : Option Status :=
  match openStep s d.fn with
  | none => some .descMalformed
  | some t =>
    let cmp := bitOf (d.at 24 1) 1
    if t.num != BitVec.ofNat 64 (d.at 16 8) || bitsOf (d.at 24 1) 2 6 != 0 || !zeroAt d.bytes [(25, 7), (40, 24)] ||
        (!cmp && d.at 32 8 != 0) then some .descMalformed
    else if maxReplays s d.fn < (if t.phase = .gated then t.next else t.attempt) + (if cmp then 2 else 1) || d.at 32 8 % 16 != 0 then some .descBounds
    else none

/-- The attempt ends with cause HOST; the next one runs as MODE says. -/
def replayStart (d : Desc) (s : State) : State :=
  let m := d.at 24 1
  raiseCause d.fn cHOST (updStep d.fn (fun t =>
    { t with wantOrdered := t.wantOrdered || m != 0, replays := t.replays ++ [d.id]
             cmp := if bitOf m 1 then 1 else t.cmp, cmpAttempt := if bitOf m 1 then none else t.cmpAttempt }) (setPhase d.id .started s))

/-- A REPLAY_STEP at its not-before time: the step may have closed since its acceptance. -/
def replayReady (d : Desc) (s : State) : State := checked d (replayCheck s d) (replayStart d) s

/-- REPLAY_STEP. -/
def execReplayStep (id : Nat) (s : State) : Result :=
  match atAcceptance s id 0x2A with
  | some d => .next (checked d (replayCheck s d) (acceptThen d replayReady) s)
  | none => .next s

end Sys2Proof.Machine
end

