-- ==== Sys2Proof/Machine/Arrivals.lean ====
section
/-!
DEFINITION. The commands of arriving requests (R366, R408, R409, R269), in one order with what is held for a later attempt or waits on
a blocked VC (R335, R375).
-/
namespace Sys2Proof.Machine

/-! ## Requests and what waits behind them -/

/-- Any request is carried out for the partition that it serves. `reread` is what COLL_DATA brings. -/
def applyFull (p : Nat) (k : Packet) (reread : Bool) (n : Nat) (s : State) : State :=
  if k.type = 0x0A then owePacket k (takeControl k n s) else applyAny p k reread n s

/-- A request whose VC is free is taken up. -/
def takeUp (p : Nat) (k : Packet) (reread : Bool) (s : State) : State :=
  if k.mcast then multicastBurst p k reread s else admitPacket p k (applyFull p k reread) s

/-- A packet that waits on its VC: it goes on waiting, or is taken up. -/
def unparkOne (s : State) (e : Parked) : State :=
  if vcBlocked s e.port e.pkt.vc then parkPacket e.port e.pkt e.taken s
  else if e.taken then readmit e.port e.pkt (applyFull e.port e.pkt false) s
  else takeUp e.port e.pkt false s

/-- Packets that wait are looked at again in their order, at each arrival, each attempt's start and each end of a held packet's time (log
entry 122). -/
def unpark (s : State) : State :=
  if s.fab.parked.isEmpty then s else s.fab.parked.foldl unparkOne { s with fab := { s.fab with parked := [] } }

/-- A request comes on a port, when it is what its command says. -/
def request (ok : Bool) (port : Nat) (k : Packet) (reread : Bool) (s : State) : State :=
  if ok then unpark (arriveOn port k (takeUp port k reread) (unpark s)) else s

/-! ## Memory, signals and waits (R366 to R368, R376) -/

/-- READ_PACKET. -/
def execReadPacket (port : Nat) (pkt : Packet) (s : State) : Result := .next (request (isPkt pkt 0x01 1) port pkt false s)

/-- WRITE_PACKET. -/
def execWritePacket (port : Nat) (pkt : Packet) (s : State) : Result := .next (request (isPkt pkt 0x02 0) port pkt false s)

/-- ADDF_PACKET. -/
def execAddfPacket (port : Nat) (pkt : Packet) (s : State) : Result := .next (request (isPkt pkt 0x03 0) port pkt false s)

/-- ADDI_PACKET. -/
def execAddiPacket (port : Nat) (pkt : Packet) (s : State) : Result := .next (request (isPkt pkt 0x04 0) port pkt false s)

/-- PARCEL_PACKET. -/
def execParcelPacket (port : Nat) (pkt : Packet) (s : State) : Result := .next (request (isPkt pkt 0x05 0) port pkt false s)

/-- SIGNAL_PACKET: a part of a new signal waits while the store of 1,024 incomplete signals is full (R335). -/
def execSignalPacket (port : Nat) (pkt : Packet) (s : State) : Result := .next (request (isPkt pkt 0x08 2) port pkt false s)

/-- WAIT_PACKET. -/
def execWaitPacket (port : Nat) (pkt : Packet) (s : State) : Result := .next (request (isPkt pkt 0x09 2) port pkt false s)

/-- HELD_PACKET_TIMEOUT: the `n`th held packet has been held for 500 ms. -/
def execHeldPacketTimeout (dt n : Nat) (s : State) : Result :=
  let s' := pass dt s
  match s'.fab.held[n]? with
  | some h =>
    if h.at_ + 500000000 ≤ s'.clock then
      let s' := { s' with fab := { s'.fab with held := removeAt n s'.fab.held } }
      let k := h.pkt
      .next (unpark (freeBuffer h.port k (stalePacket h.port k ((jobPart s' k.job).getD 0) (closePsn k.src k.flow k.vc k.psn s'))))
    else .next s
  | none => .next s

/-! ## Collectives (R408, R409) -/

/-- A COLL_CTL packet of a subtype. -/
def isCtl (k : Packet) (sub : Nat) : Bool := isPkt k 0x0D 2 && k.tspec == sub

/-- JOIN. -/
def execJoin (port : Nat) (pkt : Packet) (s : State) : Result := .next (request (isCtl pkt 1) port pkt false s)

/-- WINDOW. -/
def execWindow (port : Nat) (pkt : Packet) (s : State) : Result := .next (request (isCtl pkt 2) port pkt false s)

/-- COLL_DATA. -/
def execCollData (port : Nat) (burst : StagedBurst) (s : State) : Result :=
  .next (request (burst.pkt.type == 0x0C && burst.pkt.vc == 3 && burst.pkt.flow < 8) port burst.pkt burst.reread s)

/-- END. -/
def execCollEnd (port : Nat) (pkt : Packet) (s : State) : Result := .next (request (isCtl pkt 3) port pkt false s)

/-- MISSING. -/
def execMissing (port : Nat) (pkt : Packet) (s : State) : Result := .next (request (isCtl pkt 4) port pkt false s)

/-- DONE. -/
def execDone (port : Nat) (pkt : Packet) (s : State) : Result := .next (request (isCtl pkt 5) port pkt false s)

/-- RESULT. -/
def execResult (port : Nat) (pkt : Packet) (s : State) : Result := .next (request (isCtl pkt 6) port pkt false s)

/-- ABORT. -/
def execAbort (port : Nat) (pkt : Packet) (s : State) : Result := .next (request (isCtl pkt 7) port pkt false s)

/-! ## Slipway's messages (R269) -/

/-- A CONTROL packet of a subtype. -/
def isControl (k : Packet) (sub : Nat) : Bool := isPkt k 0x0A 2 && k.tspec == sub

/-- REPLAY_NOTICE. -/
def execReplayNotice (port : Nat) (pkt : Packet) (s : State) : Result := .next (request (isControl pkt 0x10) port pkt false s)

/-- DIGEST_LIST. -/
def execDigestList (port : Nat) (pkt : Packet) (s : State) : Result := .next (request (isControl pkt 0x11) port pkt false s)

/-- RELOAD_REQ. -/
def execReloadReq (port : Nat) (pkt : Packet) (s : State) : Result := .next (request (isControl pkt 0x12) port pkt false s)

/-- RELOAD_DONE. -/
def execReloadDone (port : Nat) (pkt : Packet) (s : State) : Result := .next (request (isControl pkt 0x13) port pkt false s)

/-! ## The next attempt starts (R261) -/

/-- ATTEMPT_START: the gate has come, every reload and remap is done, and sites that check themselves in place have passed (R271). Ordered
mode begins with the attempt (R278, R287). A data image that fails its digest ends the step instead (R208). -/
def execAttemptStart (dt part : Nat) (s : State) : Result :=
  let s' := pass dt s
  match openStep s' part with
  | some t =>
    if t.phase = .gated && t.reloads.isEmpty && !remapOpen s' part && !checkOpen s' part && t.gate.toNat ≤ s'.now.toNat then
      if imageLost s' part then .next (stepEnds part .internalError false s') else
      let s := freshColls part s'
      let s := t.streams.foldl (fun s i => updDesc i (fun d => { d with codes := [] }) s) s
      let s := updStep part (fun t => { t with
        attempt := t.next, phase := if t.causes = 0 then .running else .ending, ended := [], digests := none, listSent := false
        lists := [], compared := false, ordered := t.ordered || t.wantOrdered }) s
      let s := (partCores s part).foldl rewriteCore (resetCores part s)
      let s := govAttempt part (freshMemory part (writeBases part s))
      .next (unpark (applyHeld (fun p k n s => applyFull p k false n s) part (restartStreams part s)))
    else .next s
  | none => .next s

end Sys2Proof.Machine
end

