-- ==== Sys2Proof/Machine/Boot.lean ====
section
/-!
DEFINITION. Firmware images and their verification (R525, R526), rollback counters (R527), measurements (R530), the boot stages
(R528, R529), what a warm and a cold reset do (R486), stack retirement at a reset (R311 to R313), service bits (R520),
power requests (R506), and the commands of resets and of the board (16, 19).
-/
namespace Sys2Proof.Machine

/-! ## Images (R525 to R527) -/

/-- SHA-256 of 64 zero bytes: the key hash of every slot at reset (log entry 5). -/
abbrev zeroKeyHash : BitVec 256 := 0xf5a5fd42d16a20302798ef6ed309979b43003d2320d9f0e8ea9831a92759fb4b

/-- The header and image bytes that the signature covers (R525). -/
def imageBytes (i : FwImage) : Bytes :=
  leBytes 4 i.magic.toNat ++ leBytes 1 i.component ++ leBytes 1 i.keySlot ++ leBytes 1 i.revoke.toNat ++ leBytes 1 0 ++
    leBytes 4 i.version.toNat ++ leBytes 2 i.svn ++ leBytes 2 0 ++ leBytes 4 i.body.length ++ zeros 44 ++ sliceB i.pubkey 0 64 ++ i.body

/-- An image as it lies in a slot. A LENGTH that does not fit the slot counts as a bad header. -/
def parseImage (b : Bytes) : FwImage :=
  let len := leAt b 16 4
  { magic := BitVec.ofNat 32 (leAt b 0 4), component := leAt b 4 1, keySlot := leAt b 5 1
    revoke := BitVec.ofNat 4 (leAt b 6 1), version := BitVec.ofNat 32 (leAt b 8 4), svn := leAt b 12 2
    rsvZero := zeroAt b [(7, 1), (14, 2), (20, 44)] && decide (len ≤ 8355840) && decide (leAt b 6 1 < 16)
    pubkey := sliceB b 64 64, body := (b.drop 128).take len, sig := (b.drop (128 + len)).take 29792 }

/-- Rollback counter of a component (R527). -/
def svnOf (s : State) (c : Nat) : Nat := s.sec.svn.get 0 c

/-- The image in a slot verifies (R526). -/
def imageOk (s : State) (c slot : Nat) : Bool :=
  let i := flashImage s c slot
  i.magic == 0x49464A46 && i.component == c && i.rsvZero && decide (i.keySlot < 4) &&
    sha256 (sliceB i.pubkey 0 64) == s.sec.keyHashes.get zeroKeyHash i.keySlot &&
    !bitOf s.sec.revoked.toNat i.keySlot && decide (svnOf s c ≤ i.svn) &&
    Config.slhVerify (sliceB i.pubkey 0 64) (imageBytes i) i.sig

/-- The slot the verifier chooses and the result of its BOOT record (R526). -/
def chooseSlot (s : State) (c : Nat) : Option (Nat × Nat) :=
  let b := decide ((flashImage s c 0).version.toNat < (flashImage s c 1).version.toNat)
  match imageOk s c 0, imageOk s c 1 with
  | true, true => some (b2n b, 0)
  | true, false => some (0, 1)
  | false, true => some (1, 1)
  | false, false => none

/-- A BOOT record: stage, result, slot (R528). -/
def bootRecord (stage result slot : Nat) (s : State) : State :=
  postEvent { kind := 0x27, detail := packB [(1, stage), (1, result), (1, slot)] } s

/-- The verifier's choice for a component, reported by the stage that makes it; false when neither slot verifies. -/
def verifyStage (stage c : Nat) (s : State) : Bool × State :=
  match chooseSlot s c with
  | some (slot, r) => (true, bootRecord stage r slot { s with sec := { s.sec with slots := Tbl.set 0 s.sec.slots c slot } })
  | none => (false, bootRecord stage 2 0 s)

/-- A component first reaches the end of its boot stage (R527): the bits that its rollback counter lacks, then the keys it
revokes, wait for their e-fuse writes. -/
def commitSvn (c : Nat) (s : State) : State :=
  let i := runningImage s c
  if svnOf s c < i.svn then
    let queued := (s.fer.fuseQ.filter fun r => r.cls == 7 && r.what == c).length
    let keys := (List.range 4).filter fun k => bitOf i.revoke.toNat k && !bitOf s.sec.revoked.toNat k &&
      !s.fer.fuseQ.any fun r => r.cls == 8 && r.what == k
    keys.foldl (fun s k => queueRepair 8 k s)
      ((List.range (min 64 i.svn - svnOf s c - queued)).foldl (fun s _ => queueRepair 7 c s) s)
  else s

/-! ## Measurements (R530) -/

/-- A measurement block. The running images stay in their slots, since an update writes only the other one. -/
def measurement (s : State) (i : Nat) : BitVec 256 :=
  match i with
  | 1 => Config.bootRomHash
  | 2 => sha256 (imageBytes (runningImage s 0))
  | 3 => sha256 (imageBytes (runningImage s 1))
  | 4 => if s.sec.ferryRecovery then Config.bootRomHash else sha256 (imageBytes (runningImage s 2))
  | 5 => sha256 (Config.securityBytes ([svnOf s 0, svnOf s 1, svnOf s 2] ++
      ((List.range 4).map fun k => (s.sec.keyHashes.get zeroKeyHash k).toNat) ++ [s.sec.revoked.toNat, s.sec.debug]))
  | 6 => sha256 (Config.recordBytes ((s.fer.fuses ++ s.fer.flashRepairs).map fun r => (r.cls, r.what)))
  | _ => 0

/-- What stage 3 derives the alias key from (R532). -/
def aliasInput (s : State) : Bytes := hashBytes (measurement s 2) ++ hashBytes (measurement s 3) ++ hashBytes (measurement s 5)

/-! ## Service bits (R520, R521) -/

/-- Healthy unmapped sites of a compute die (R20). -/
def dieSpares (s : State) (die : Nat) : Nat :=
  ((List.range 600).filter fun i =>
    let k := getSite s (600 * die + i)
    !k.fused && !k.retired && (coreOn s (600 * die + i)).isNone).length

/-- The conditions of R520 that hold. -/
def serviceNow (s : State) : BitVec 7 :=
  let hbmStacks := (List.range 20).map (getStack s)
  let bits := [(List.range 4).any fun d => decide (dieSpares s d < 2),
    hbmStacks.any fun k => k.st != .active,
    hbmStacks.any fun k => k.adderDisabled != 0,
    (sparePipes s).isEmpty && s.pipes.any fun e => e.2.retired,
    (List.range 8).any fun p => match (getPort s p).degradedSince with
      | some t => decide (t + day ≤ s.clock)
      | none => false,
    decide (922 ≤ s.fer.fuses.length),
    s.fer.domainMargin.any fun e => match e.2 with
      | some t => decide (s.clock < t + 7 * day)
      | none => false]
  BitVec.ofNat 7 ((List.range 7).map fun i => b2n (bits.getD i false) * 2 ^ i).sum

/-- The conditions are sampled: each that has become true sets its bit and writes a SERVICE_DUE record. -/
def serviceUpdate (s : State) : State :=
  let cond := serviceNow s
  let new := (List.range 7).filter fun i => bitOf cond.toNat i && !bitOf s.fer.serviceCond.toNat i
  let s := new.foldl (fun s i =>
    let s := orReg (bFmn + 0x14) 0x20 { s with fer := { s.fer with service := s.fer.service ||| BitVec.ofNat 7 (2 ^ i) } }
    postEvent { kind := 0x23, detail := s.fer.service.toNat } s) s
  { s with fer := { s.fer with serviceCond := cond } }

/-! ## Power requests (R34, R506) -/

/-- The code of a power state in FMN_PWR (R524). -/
def powerNum : Power → Nat
  | .active => 0 | .idle => 1 | .deep => 2 | .standby => 3

/-- The device is in a power state; a change is recorded with the request's source (R508). -/
def setPower (p : Power) (source : Nat) (s : State) : State :=
  if s.fer.power = p then s
  else postEvent { kind := 0x10, detail := packB [(1, powerNum s.fer.power), (1, powerNum p), (1, source)] }
    { s with fer := { s.fer with power := p } }

/-- R34 refuses the request: DEEP or STANDBY with a partition started; or DEEP from STANDBY, a change R507 does not have. -/
def powerRefused (s : State) (want : Power) : Bool :=
  ((want == .deep || want == .standby) && partNums.any (isStarted s)) || (want == .deep && s.fer.power == .standby)

/-- A request is taken up. -/
def powerTake (r : PowerReq) (s : State) : State :=
  if r.want = s.fer.power then s
  else if powerRefused s r.want then { s with fer := { s.fer with refused := true, swapWanted := s.fer.swapWanted && r.source != 3 } }
  else if r.want = .active && s.fer.power = .idle then setPower .active r.source s
  else { s with fer := { s.fer with entering := some r } }

/-- A request waits: a change is under way, or a reset or a thermal trip. -/
def powerWaits (s : State) : Bool := s.fer.entering.isSome || s.rst.isSome || s.fer.trip.isSome

/-- The waiting requests are taken up in arrival order until one starts a change of state. -/
def powerQueue : Nat → State → State
  | 0, s => s
  | n + 1, s =>
    if powerWaits s then s
    else match s.fer.powerQ with
      | [] => s
      | r :: rest => powerQueue n (powerTake r { s with fer := { s.fer with powerQ := rest } })

/-- The next waiting request is handled. -/
def powerNext (s : State) : State := powerQueue s.fer.powerQ.length s

/-- A power request arrives. -/
def powerRequest (want : Power) (source : Nat) (s : State) : State :=
  powerNext { s with fer := { s.fer with powerQ := s.fer.powerQ ++ [{ want := want, source := source }] } }

/-- A change of power state that a reset overtakes goes back to the head of the queue. -/
def powerRequeue (s : State) : State :=
  match s.fer.entering with
  | some r => { s with fer := { s.fer with entering := none, powerQ := r :: s.fer.powerQ } }
  | none => s

/-! ## Stacks at a reset (R311 to R313) -/

/-- Soft repairs become hard ones (R311). -/
def harden (s : State) : State :=
  (List.range 20).foldl (fun s k =>
    let rows := (getStack s k).softRows.reverse
    let s := rows.foldl (fun s row =>
      queueRepair 10 (k + 32 * row) (postEvent { kind := 0x1A, detail := packB [(1, k), (1, 1)] } s)) s
    updStack k (fun x => { x with softRows := [], hardRows := x.hardRows + rows.length }) s) s

/-- A stack is retired during a reset: recorded, and the addresses that no longer exist are dropped (R313). -/
def retireStack (k : Nat) (s : State) : State :=
  let s := updStack k (fun x => { x with st := .retired, failed := false, hot := false, limited := false, temp := 0 }) s
  let s := queueRepair 5 k (memEvent 4 k (postEvent { kind := 0x19, detail := packB [(1, k), (1, 2)] } s))
  let cut := partSpace s
  { s with mem := { s.mem with hbm := s.mem.hbm.filter fun e => decide (e.1 < cut)
                               lines := s.mem.lines.filter fun e => decide (128 * e.1 < cut) } }

/-- Retirement at a warm reset: after a failure every address holds unspecified data, and the translation cache is lost. -/
def retireAll (s : State) : State :=
  let due := (activeStacks s).filter fun k => (getStack s k).failed || (getStack s k).st == .retirePending
  let lost := due.any fun k => (getStack s k).failed
  let s := due.foldl (fun s k => retireStack k s) s
  if lost then { spoil 0 (capacity s) s with ldr := {} } else s

/-- Fewer than 16 active stacks: the device stays in reset (R312). -/
def tooFewStacks (s : State) : Bool := decide ((activeStacks s).length < 16)

/-! ## Warm reset (R486, R529) -/

/-- Stages 5 and 6 end: ports may train, the registers open. -/
def bootEnds (s : State) : State :=
  let s := { s with rst := none, bootTime := s.now, sec := { s.sec with stage := 6, held := false }
                    fab := { s.fab with ports := (List.range 8).foldl (fun t p => Tbl.upd {} t p fun q => { q with holdoff := false }) s.fab.ports } }
  let source := match s.fer.powerQ with
    | r :: _ => if r.want = .active then r.source else 4
    | [] => 4
  powerNext (setPower .active source s)

/-- Neither slot of BOOT or SYSCTL verifies, or a stage fails: the device is held, the PCIe link down (R526, R528). -/
def bootHeld (stage : Nat) (s : State) : State := { s with sec := { s.sec with stage := stage, held := true }, link := {} }

/-- The warm reset ends: stages 2 and 3, the work on HBM, stages 5 and 6. -/
def warmEnds (s : State) : State :=
  let b := verifyStage 2 0 s
  if !b.1 then bootHeld 1 b.2
  else
    let c := verifyStage 3 1 b.2
    if !c.1 then bootHeld 2 c.2
    else
      let s := c.2
      let s := { s with sec := { s.sec with aliasFrom := aliasInput s } }
      let s := retireAll (harden (commitSvn 0 s))
      if tooFewStacks s then moduleReplace 1 (bootHeld 3 s) else bootEnds (commitSvn 1 s)

/-! ## Cold reset (R486, R528) -/

/-- What the open steps and the descriptors in flight see of a reset (R13). -/
def resetEnds (s : State) : State :=
  let s := partNums.foldl (fun s n => stepLost n .deviceResetting s) s
  { s with descs := s.descs.map fun d => if d.live then { d with phase := .done .deviceResetting } else d }

/-- What the e-fuses and manufacture say of the sites, stacks and pipes; the times of tests are Ferryman's (R279). -/
def keptSite (k : Site) : Site := { fused := k.fused, retired := k.retired, tested := k.tested, lanesRepaired := k.lanesRepaired }
def keptStack (k : Stack) : Stack :=
  { st := k.st, failed := k.failed, rowsUsed := k.rowsUsed, softRows := k.softRows, hardRows := k.hardRows
    adderSpares := k.adderSpares, adderDisabled := k.adderDisabled }
/-- A stack whose soft repairs are lost: their spare rows are free again (R311). -/
def softLost (k : Stack) : Stack :=
  { k with softRows := [], failed := false
           rowsUsed := k.softRows.foldl (fun t row => Tbl.upd 0 t (Config.groupOf row) fun n => n - 1) k.rowsUsed }
def keptPipe (k : Pipe) : Pipe := { phys := k.phys, retired := k.retired }

/-- A table whose entries are brought to what a reset keeps, in canonical form. -/
def keepTbl {α : Type} [DecidableEq α] (d : α) (f : α → α) (t : Tbl α) : Tbl α := t.foldl (fun u e => Tbl.set d u e.1 (f e.2)) []

/-- Everything but e-fuses, the journal SRAM and Ferryman's state is cleared; EPOCH rises (R374). -/
def coldClear (s : State) : State :=
  let s := powerRequeue (resetEnds s)
  let fmn := s.regs.filter fun e => decide (bFmn ≤ e.1) && decide (e.1 < bSec)
  { pending := s.pending, out := s.out, free := s.free, clock := s.clock, regs := fmn, journal := s.journal, accepts := s.accepts
    descs := s.descs, funcs := keepTbl {} (fun f => { jseq := f.jseq }) s.funcs, places := s.places
    sites := keepTbl {} keptSite s.sites, pipes := keepTbl {} keptPipe s.pipes
    mem := { hbmStacks := keepTbl {} keptStack s.mem.hbmStacks }
    fer := { s.fer with epoch := s.fer.epoch + 1, trip := none }
    sec := { flash := s.sec.flash, slots := s.sec.slots, svn := s.sec.svn, revoked := s.sec.revoked, keyHashes := s.sec.keyHashes
             debugDisable := s.sec.debugDisable, ferryRecovery := s.sec.ferryRecovery, dbgLevel := s.sec.dbgLevel, stage := 0 }
    brd := { s.brd with thermtrip := false }
    rst := some { cold := true, since := s.clock, waitFref := false } }

/-- Stages 1 to 6 of a cold boot. -/
def coldBoot (s : State) : State :=
  if !s.brd.fref then
    bootRecord 1 2 0 { s with rst := some { cold := true, since := s.clock, waitFref := true } }
  else
    let level := if s.sec.debugDisable then 0 else s.sec.dbgLevel.getD 0
    let s := { s with sec := { s.sec with stage := 1, debug := level, dbgLevel := none }
                      fer := { s.fer with boots := s.fer.boots + 1 } }
    let s := if bitOf s.brd.straps.toNat 3 then orReg bGzl 0x100 s else s
    let s := commitSvn 2 s
    let b := verifyStage 2 0 s
    if !b.1 then bootHeld 1 b.2
    else
      let c := verifyStage 3 1 b.2
      if !c.1 then bootHeld 2 c.2
      else
        let s := c.2
        let s := { s with sec := { s.sec with aliasFrom := aliasInput s } }
        let due := (activeStacks s).filter fun k => (getStack s k).failed || (getStack s k).st == .retirePending
        let s := due.foldl (fun s k => retireStack k s) (harden (commitSvn 0 s))
        if tooFewStacks s then moduleReplace 1 (bootHeld 3 s)
        else
          let s := bootEnds (commitSvn 1 s)
          { s with fer := { s.fer with service := s.fer.service &&& serviceNow s } }

/-- What keeps a reset from ending: rung 4, a module to replace, a thermal trip, VIN absent (R491, R502, R504, R312). -/
def resetBarred (s : State) : Bool :=
  s.brd.pwrcyc || s.fer.moduleReplace || s.fer.trip.isSome || s.fer.vinDead || !s.brd.vinOn

/-- A cold reset (R486). In STANDBY there is nothing to boot; during a thermal trip it takes the place of the trip's own reset
(R547); while something bars it, the device stays in reset. -/
def coldReset (s : State) : State :=
  if s.fer.power = .standby then s
  else match s.fer.trip with
    | some t => { s with fer := { s.fer with trip := some { t with cold := true } } }
    | none => if resetBarred s then coldClear s else coldBoot (coldClear s)

/-- A warm reset is asked for: a reset already under way or a thermal trip absorbs it (R490); in STANDBY nothing runs. -/
def warmAsked (s : State) : State :=
  if s.rst.isSome || s.fer.trip.isSome || s.fer.power = .standby then s else warmReset s

/-! ## Commands of chapter 16 -/

/-- A keyed write of PRT_RESET by PF0 (R494): the widest kind acts. -/
def prtReset (value : Word) (s : State) : State :=
  let v := value.toNat
  if bitsOf v 24 8 != 0xA5 then s
  else if bitOf v 9 then coldReset s
  else if bitOf v 8 then warmAsked s
  else (partNums.filter fun n => bitOf v (n - 1)).foldl (fun s n =>
    match (getPart s n).st with
    | .free => s
    | .configured => notice n 1 (partResetDone n s)
    | _ => notice n 1 (drainBegin n .partReset true false s)) s

/-- PRT_PART_RESET: a keyed write of PART_RESET in PRT_RESET. -/
def execPrtPartReset (fn : Nat) (value : Word) (s : State) : Result :=
  .next (hostPost fn (fun s => if fn == 0 && bitsOf value.toNat 8 2 == 0 then prtReset value s else s) s)

/-- PRT_WARM_RESET: a keyed write of WARM in PRT_RESET. -/
def execPrtWarmReset (fn : Nat) (value : Word) (s : State) : Result :=
  .next (hostPost fn (fun s => if fn == 0 && bitsOf value.toNat 8 2 == 1 then prtReset value s else s) s)

/-- PRT_COLD_RESET: a keyed write of COLD in PRT_RESET. -/
def execPrtColdReset (fn : Nat) (value : Word) (s : State) : Result :=
  .next (hostPost fn (fun s => if fn == 0 && bitOf value.toNat 9 then prtReset value s else s) s)

/-- WARM_RESET_DONE: the warm reset ends, once the fabric reference is present (R543). -/
def execWarmResetDone (dt : Nat) (s : State) : Result :=
  let s' := pass dt s
  match s.rst with
  | some r => if r.cold || s.sec.held || resetBarred s then .next s
      else if !s.brd.fref then
        .next (if r.waitFref then s' else bootRecord 2 2 0 { s' with rst := some { r with waitFref := true } })
      else .next (warmEnds s')
  | none => .next s

/-- WARM_RESET_TIMEOUT: a warm reset not complete within 10 s takes rung 4; one that waits for its module, for the fabric
reference or for VIN does not climb. -/
def execWarmResetTimeout (dt : Nat) (s : State) : Result :=
  let s' := pass dt s
  match s.rst with
  | some r => if !r.cold && !r.waitFref && !resetBarred s && r.since + 10000000000 ≤ s'.clock then .next (powerCycle s') else .next s
  | none => .next s

/-- POWER_CYCLE_IGNORED: VIN has not fallen within 60 s, and again every 60 s (R491). -/
def execPowerCycleIgnored (dt : Nat) (s : State) : Result :=
  let s' := pass dt s
  match s.fer.pwrcycSince with
  | some t =>
    if s.brd.pwrcyc && s.fer.pwrcycReport + 60000000000 ≤ s'.clock then
      .next (postEvent { kind := 0x16, detail := (s'.clock - t) / 1000000000 } { s' with fer := { s'.fer with pwrcycReport := s'.clock } })
    else .next s
  | none => .next s

/-- SYSCTL_WATCHDOG: the system controller has missed its watchdog for 1 s (R488). -/
def execSysctlWatchdog (dt : Nat) (s : State) : Result :=
  if s.rst.isNone && !s.sec.held && s.fer.power != .standby && s.fer.trip.isNone && 1000000000 ≤ dt then
    .next (rungThree 0 .deviceResetting (pass dt s))
  else .next s

/-! ## Commands of chapter 19 -/

/-- An unwritten repair is forgotten when VAUX is lost (R519): the fault is there to be found again. -/
def undoRepair (r : Repair) (s : State) : State :=
  match r.cls with
  | 0 => updSite r.what (fun k => { k with retired := false }) s
  | 1 => setPlace r.what .natural s
  | 2 => updSite (r.what % 4096) (fun k => { k with lanesRepaired := k.lanesRepaired - r.what / 4096 }) s
  | 3 => updStack (r.what / 256) (fun k => { k with adderSpares := k.adderSpares + 1 }) s
  | 4 => { s with pipes := Tbl.set {} s.pipes r.what {} }
  | 5 => updStack r.what (fun k => { k with st := .active }) s
  | 6 => updStack (r.what / 256) (fun k => { k with adderDisabled := k.adderDisabled - 1 }) s
  | _ => s

/-- VAUX_LOSS: VAUX falls below 3.0 V (R541): HBM, the journal SRAM and Ferryman's state are lost; e-fuses and flash stay. -/
def execVauxLoss (s : State) : Result :=
  let unwritten := s.fer.fuseQ ++ (s.fer.fuseNow.map fun r => [r.1]).getD []
  let s := unwritten.foldl (fun s r => undoRepair r s) s
  .next
    { pending := s.pending, out := s.out, free := s.free
      places := s.places, sites := keepTbl {} (fun k => { keptSite k with tested := none }) s.sites
      pipes := keepTbl {} keptPipe s.pipes
      mem := { hbmStacks := keepTbl {} (fun k => softLost (keptStack k)) s.mem.hbmStacks }
      fer := { power := .standby, boots := 0, fuses := s.fer.fuses, flashRepairs := s.fer.flashRepairs }
      sec := { flash := s.sec.flash, svn := s.sec.svn, revoked := s.sec.revoked, keyHashes := s.sec.keyHashes
               debugDisable := s.sec.debugDisable, stage := 0 }
      brd := { s.brd with vauxOn := false, pwrReq := false, pwrcyc := false, thermtrip := false, alert := false, phyRun := false } }

/-- PWR_REQ_N is asserted and VIN awaited (R507, R541). -/
def requestVin (s : State) : State :=
  { s with brd := { s.brd with pwrReq := true }
           fer := { s.fer with pwrReqSince := some s.clock, pwrReqReport := s.clock, swapReady := false } }

/-- VAUX_UP: VAUX has been in range for 1 ms: stage 0 samples the straps, verifies and starts FERRYMAN, and requests VIN with
STRAP_AUTO (R541, R544, R545). -/
def execVauxUp (dt : Nat) (straps : BitVec 7) (s : State) : Result :=
  if !s.brd.vauxOn && 1000000 ≤ dt then
    let s := { s with clock := s.clock + dt, brd := { s.brd with vauxOn := true, straps := straps, phyRun := bitOf straps.toNat 5 } }
    let b := verifyStage 0 2 s
    let s := b.2
    let s := { s with sec := { s.sec with ferryRecovery := !b.1 || bitOf straps.toNat 6 } }
    .next (if bitOf straps.toNat 4 && !s.sec.ferryRecovery then requestVin s else s)
  else .next s

/-- VIN_UP: VIN is in range while PWR_REQ_N is asserted: a cold boot. Stage 1 takes STRAP_PTP anew (R545); a stack that fails
link training is retired (R312). -/
def execVinUp (dt : Nat) (straps : BitVec 7) (fref : Bool) (stacksFailed : List Nat) (s : State) : Result :=
  let s' := pass dt s
  if s.brd.vauxOn && s.brd.pwrReq && s.brd.brdRstN && s.fer.pwrReqSince.isSome && s.fer.power == .standby && !s.fer.moduleReplace then
    let s := coldClear { s' with
      fer := { s'.fer with pwrReqSince := none, vinDead := false }
      brd := { s'.brd with vinOn := true, fref := fref, straps := BitVec.ofNat 7 (setBits s'.brd.straps.toNat 3 1 (bitsOf straps.toNat 3 1)) } }
    .next (coldBoot ((stacksFailed.filter fun k => decide (k < 20)).foldl (fun s k => updStack k (fun x => { x with failed := true }) s) s))
  else .next s

/-- BRD_RST_N_FALL: the outputs are released while the pin is low (R546, R547). -/
def execBrdRstNFall (s : State) : Result :=
  if s.brd.brdRstN then .next { s with brd := { s.brd with brdRstN := false, brdLowSince := s.clock } } else .next s

/-- BRD_RST_N_RISE: after at least 1 ms low, a cold reset; rung 4 is not satisfied by it (R547). -/
def execBrdRstNRise (dt : Nat) (s : State) : Result :=
  let s' := pass dt s
  if s.brd.brdRstN then .next s
  else
    let up := { s' with brd := { s'.brd with brdRstN := true } }
    .next (if s.brd.vauxOn && s.brd.brdLowSince + 1000000 ≤ s'.clock then coldReset up else up)

/-- FREF_LOSS: the fabric reference is lost in service: rung 3 at once (R543). -/
def execFrefLoss (s : State) : Result :=
  if s.brd.fref then
    let s := { s with brd := { s.brd with fref := false } }
    .next (if s.fer.power = .standby || s.rst.isSome || s.sec.held then s else rungThree 0 .deviceResetting s)
  else .next s

/-- FREF_RETURN: the fabric reference returns; a boot that waits for it goes on. -/
def execFrefReturn (s : State) : Result :=
  if s.brd.fref then .next s
  else
    let s := { s with brd := { s.brd with fref := true } }
    match s.rst with
    | some r =>
      if r.waitFref && r.cold && !resetBarred s then .next (coldBoot s)
      else if r.waitFref then .next { s with rst := some { r with waitFref := false, since := s.clock } }
      else .next s
    | none => .next s

end Sys2Proof.Machine
end

