-- ==== Sys2Proof/Machine/Ferry.lean ====
section
/-!
DEFINITION. Ferryman's sampling, clock and voltage control, power and thermal limits (R495 to R505), the changes of power state
(R32 to R35, R506, R507), and their commands.
-/
namespace Sys2Proof.Machine

/-- Ferryman's field of State changed. -/
def updFer (f : Ferry → Ferry) (s : State) : State := { s with fer := f s.fer }

/-- Ferryman runs its image: VAUX is in range and it is not in recovery mode (R526). -/
def fmnRuns (s : State) : Bool := s.brd.vauxOn && !s.sec.ferryRecovery

/-- A bit of FMN_EVENT is set. -/
def fmnEvent (bit : Nat) (s : State) : State := orReg (bFmn + 0x14) (BitVec.ofNat 32 (2 ^ bit)) s

/-! ## The clock (R497, R498) -/

/-- Floor and nominal value of the arithmetic clock, in MHz. -/
abbrev floorMhz : Nat := 650
abbrev topMhz : Nat := 1300

/-- The lowest of the four limiters' settings. -/
def lowestMhz (f : Ferry) : Nat := min (min f.slow f.fast) (min f.thermal f.supply)

/-- PWRLIM_N has been low for 1 ms (R505). -/
def pwrlimActs (s : State) : Bool :=
  !s.brd.pwrlimN && match s.fer.pwrlimSince with
    | some t => decide (t + 1000000 ≤ s.clock)
    | none => false

/-- The limit that the power loop uses, in W (R501, R505). -/
def powerLimit (s : State) : Nat := if pwrlimActs s then min 2000 s.fer.limit else s.fer.limit

/-- CAUSE of FMN_CLK (R497, R505); among equal settings the lower code names it (log entry 42). -/
def clockCause (s : State) : Nat :=
  let f := s.fer
  let m := lowestMhz f
  if topMhz ≤ m then 0
  else if f.thermal = m then 1
  else if f.slow = m || f.fast = m then
    (if !s.brd.pwrlimN && 2000 < f.limit then 4 else if f.slow = m then 2 else 3)
  else 5

/-- The clock falls at once to the lowest setting; a rise waits for every regulator's margin at the new clock. -/
def settleClock (s : State) : State :=
  let m := lowestMhz s.fer
  if m ≤ s.fer.mhz then updFer (fun f => { f with mhz := m, raiseTo := 0, marginOk := [] }) s
  else if s.fer.raiseTo = m then s
  else updFer (fun f => { f with raiseTo := m, marginOk := [] }) s

/-- The voltage domain of a logical core: 6 × 6 logical cores, 16 domains a die (R330), numbered by die, then by rows (DESIGN CHOICE, log
entry 82). -/
def coreDomain (c : Nat) : Nat := 16 * dieOf c + 4 * (c / 64 % 24 / 6) + c % 64 % 24 / 6

/-- Owned cores of a domain, by their sites. -/
def domainSites (s : State) (d : Nat) : List Nat :=
  s.cores.filterMap fun e => if e.2.part = 0 || coreDomain e.1 != d then none else siteOf s e.1

/-- Every core of a domain is clock-gated: the device is not ACTIVE, or no partition owns one (R10, R32). -/
def domainGated (s : State) (d : Nat) : Bool := s.fer.power != .active || (domainSites s d).isEmpty

/-- A domain at 0.900 V lacks margin (R499): recorded, and its owned cores are marked overdue for test. -/
def domainMargin (d : Nat) (s : State) : State :=
  let s := (domainSites s d).foldl (fun s t => updSite t (fun k => { k with marked := true }) s) s
  postEvent { kind := 0x14, detail := packB [(1, d), (2, 900)] }
    (fmnEvent 4 (updFer (fun f => { f with domainMargin := Tbl.set none f.domainMargin d (some s.clock), lowMargin := d :: f.lowMargin }) s))

/-- REGULATOR_ADJUST: a regulator moves one step of 2.5 mV towards the voltage that just keeps margin at the clock it serves.
`marginMhz` is the highest clock at which the domain's monitors keep their margin. -/
def execRegulatorAdjust (dt domain marginMhz : Nat) (s : State) : Result :=
  let s := pass dt s
  if 64 ≤ domain || s.fer.power == .standby then .next s
  else
    let v := s.fer.domainMv.get 6000 domain
    let want := max s.fer.mhz s.fer.raiseTo
    let put (v : Nat) (s : State) : State := updFer (fun f => { f with domainMv := Tbl.set 6000 f.domainMv domain v }) s
    let ok (s : State) : State := updFer (fun f => { f with
      marginOk := if f.raiseTo = 0 || f.marginOk.contains domain then f.marginOk else domain :: f.marginOk
      lowMargin := f.lowMargin.filter fun d => d != domain }) s
    if domainGated s domain then .next (ok (put 6000 s))
    else if want ≤ marginMhz then .next (ok (put (if want < marginMhz then max 6000 (v - 25) else v) s))
    else if v < 9000 then .next (put (min 9000 (v + 25)) s)
    else if s.fer.lowMargin.contains domain then .next s
    else .next (domainMargin domain s)

/-- CLOCK_RAISE: every regulator reports margin at the new clock. -/
def execClockRaise (dt : Nat) (s : State) : Result :=
  if s.fer.raiseTo != 0 && (List.range 64).all fun d => s.fer.marginOk.contains d then
    .next (updFer (fun f => { f with mhz := f.raiseTo, raiseTo := 0, marginOk := [] }) (pass dt s))
  else .next s

/-- DOMAIN_REPORT: each regulator's voltage is taken, every 1 ms. -/
def execDomainReport (dt : Nat) (s : State) : Result :=
  .next (updFer (fun f => { f with
    domainReported := (List.range 64).foldl (fun t d => Tbl.set 0 t d (f.domainMv.get 6000 d / 10)) f.domainReported }) (pass dt s))

/-! ## Power (R501, R502) -/

/-- PWR_PEAK in W. -/
abbrev pwrPeak : Nat := 3600

/-- One clock step down of the power loop, reported. -/
def powerLowered (s : State) : State := settleClock (fmnEvent 1 s)

/-- A 10 µs sample of P, in µW, above PWR_PEAK lowers the clock by four steps. -/
def fastRule (p : Nat) (s : State) : State :=
  if pwrPeak * 1000000 < p then
    powerLowered (updFer (fun f => { f with fast := max floorMhz (f.mhz - 200), fastAt := s.clock }) s)
  else s

/-- VIN_RANGE: rail 0 VIN, 1 VAUX (R502). -/
def vinRecord (rail mv : Nat) (s : State) : State := postEvent { kind := 0x13, detail := packB [(1, rail), (2, mv)] } s

/-- VIN lies in its operating range (R540). -/
def vinOk (mv : Nat) : Bool := decide (10800 ≤ mv) && decide (mv ≤ 13200)

/-- VIN falls below its minimum during rung 4: the request is met; what follows is a cold reset (R491). -/
def powerCycled (s : State) : State :=
  if s.brd.pwrcyc then
    { s with brd := { s.brd with pwrcyc := false }
             fer := { s.fer with pwrcycSince := none, rung3 := [], vinDead := true } }
  else s

/-- VIN falls below 9.5 V: the dies go off and the device is held in reset (R502). -/
def vinDies (s : State) : State :=
  let s := if s.rst.isSome then s else warmReset (powerRequeue s)
  { s with rst := s.rst.map fun r => { r with cold := true }
           brd := { s.brd with vinOn := false }, fer := { s.fer with vinDead := true } }

/-- What a VIN sample does to the range rule: in STANDBY VIN is not asked for. -/
def vinRule (mv : Nat) (s : State) : State :=
  let s := updFer (fun f => { f with
    vin := mv
    vinOutSince := if vinOk mv then none else f.vinOutSince <|> some s.clock
    vinInSince := if vinOk mv then f.vinInSince <|> some s.clock else none }) s
  let s := if mv < 10800 then powerCycled s else s
  if s.fer.power = .standby then { s with brd := { s.brd with vinOn := vinOk mv } }
  else
    let s := if mv < 9500 && s.brd.vinOn then vinRecord 0 mv (fmnEvent 3 (vinDies s)) else s
    match s.fer.vinOutSince with
    | some t =>
      if t + 1000000 ≤ s.clock && !s.fer.vinHeld then
        settleClock (vinRecord 0 mv (fmnEvent 3 (updFer (fun f => { f with vinHeld := true, supply := floorMhz }) s)))
      else s
    | none => s

/-- VIN_SAMPLE: every 10 µs: P = V × I, the fast rule, the range rule. -/
def execVinSample (dt millivolts milliamps : Nat) (s : State) : Result :=
  let s := pass dt s
  if fmnRuns s then
    let p := millivolts * milliamps
    let s := updFer (fun f => { f with powerNow := p, sum1ms := f.sum1ms + p, n1ms := f.n1ms + 1 }) s
    .next (vinRule millivolts (fastRule p s))
  else .next s

/-- VIN_RECOVERED: in range for 10 ms the floor is released; in range for 100 ms, after a fall below 9.5 V or for rung 4, a cold
reset. -/
def execVinRecovered (dt : Nat) (s : State) : Result :=
  let s' := pass dt s
  match s.fer.vinInSince with
  | some t =>
    let s := if s.fer.vinHeld && t + 10000000 ≤ s'.clock then
        settleClock (updFer (fun f => { f with vinHeld := false, supply := topMhz }) s')
      else s'
    if s.fer.vinDead && t + 100000000 ≤ s'.clock && s.fer.power != .standby then
      .next (coldReset { s with brd := { s.brd with vinOn := true }, fer := { s.fer with vinDead := false } })
    else .next s
  | none => .next s

/-- VAUX_SAMPLE: out of range for 1 ms it is recorded (R502). -/
def execVauxSample (dt millivolts : Nat) (s : State) : Result :=
  let s := pass dt s
  let ok := decide (3135 ≤ millivolts) && decide (millivolts ≤ 3465)
  if !fmnRuns s then .next s
  else if ok then .next (updFer (fun f => { f with vaux := millivolts, vauxOutSince := none, vauxTold := false }) s)
  else
    let since := s.fer.vauxOutSince.getD s.clock
    let s := updFer (fun f => { f with vaux := millivolts, vauxOutSince := some since }) s
    if since + 1000000 ≤ s.clock && !s.fer.vauxTold then
      .next (vinRecord 1 millivolts (updFer (fun f => { f with vauxTold := true }) s))
    else .next s

/-- The slow rule and the cut-off at the end of a 1 ms window whose mean is above the limit (R501): the eighth mean in a row and
each later one lower the setting a step; the tenth sets the floor and keeps the last setting. -/
def overLimit (s : State) : State :=
  let n := s.fer.overRun + 1
  let s := updFer (fun f => { f with overRun := n }) s
  let s := if 8 ≤ n && s.fer.cutFrom.isNone then
      powerLowered (updFer (fun f => { f with slow := max floorMhz (f.slow - 50) }) s)
    else s
  if n = 10 then powerLowered (updFer (fun f => { f with cutFrom := some f.slow, slow := floorMhz }) s) else s

/-- A mean at or below the limit ends the run and the cut-off. -/
def underLimit (s : State) : State :=
  settleClock (updFer (fun f => { f with overRun := 0, slow := f.cutFrom.getD f.slow, cutFrom := none }) s)

/-- POWER_MEAN_1MS: the mean of the samples of a 1 ms window, in µW; the 1 s mean is that of the last 1,000 of them. -/
def execPowerMean1ms (dt : Nat) (s : State) : Result :=
  let s := pass dt s
  if s.fer.n1ms = 0 || !fmnRuns s then .next s
  else
    let mean := s.fer.sum1ms / s.fer.n1ms
    let beyond := decide (powerLimit s * 1000000 * s.fer.n1ms < s.fer.sum1ms)
    let means := (mean :: s.fer.means).take 1000
    let s := updFer (fun f => { f with sum1ms := 0, n1ms := 0, means := means, watts := means.sum / means.length }) s
    .next (if beyond then overLimit s else underLimit s)

/-- POWER_RECOVERY_STEP: every 10 ms while the 1 s mean is at or below 98 % of the limit the setting rises a step. -/
def execPowerRecoveryStep (dt : Nat) (s : State) : Result :=
  let s' := pass dt s
  let f := s'.fer
  if fmnRuns s && f.slow < topMhz && f.cutFrom.isNone && f.slowAt + 10000000 ≤ s'.clock && 100 * f.watts ≤ 98 * (powerLimit s' * 1000000) then
    .next (settleClock (updFer (fun f => { f with slow := min topMhz (f.slow + 50), slowAt := s'.clock }) s'))
  else .next s

/-- FAST_RECOVERY_STEP: every 100 µs after the last sample above PWR_PEAK the clock rises a step, never above the slow setting;
there the fast rule no longer limits. -/
def execFastRecoveryStep (dt : Nat) (s : State) : Result :=
  let s' := pass dt s
  let f := s'.fer
  if fmnRuns s && f.fast < topMhz && f.fastAt + 100000 ≤ s'.clock then
    .next (settleClock (updFer (fun f => { f with fast := if f.slow ≤ f.fast + 50 then topMhz else f.fast + 50, fastAt := s'.clock }) s'))
  else .next s

/-- PWRLIM_N_FALL. -/
def execPwrlimNFall (s : State) : Result :=
  if s.brd.pwrlimN then .next { s with brd := { s.brd with pwrlimN := false }, fer := { s.fer with pwrlimSince := some s.clock } }
  else .next s

/-- PWRLIM_N_RISE. -/
def execPwrlimNRise (s : State) : Result :=
  .next { s with brd := { s.brd with pwrlimN := true }, fer := { s.fer with pwrlimSince := none } }

/-! ## Temperature (R496, R503, R504, R514) -/

/-- A PlatformEventMessage leaves and SMB_ALERT_N is asserted (R514): sensor, threshold, direction. -/
def pldmAlert (sensor threshold up : Nat) (s : State) : State :=
  emit (.mctp 1 (Config.standardReply 2 [] ([sensor, threshold, up].map fun v => BitVec.ofNat 8 v)))
    { s with brd := { s.brd with alert := true }, fer := { s.fer with pldmPending := s.fer.pldmPending + 1 } }

/-- A crossing is recorded (R496). -/
def crossRecord (sensor : Nat) (s : State) : State :=
  postEvent { kind := 0x11, detail := packB [(1, clockCause s), (2, s.fer.mhz), (1, sensor)] } s

/-- The filtered value of a sensor has crossed a threshold: upward at or above it, downward 3 °C below (R496). -/
def crossing (beyond : Bool) (sum n t : Nat) : Bool :=
  if beyond then decide (sum ≤ (t - 3) * n) else decide (t * n ≤ sum)

/-- A compute-die junction lies over 95 °C, over 103 °C (R503). -/
def hotJunction (s : State) : Bool := s.fer.sensors.any fun e => decide (e.1 < 64) && e.2.over95
def criticalJunction (s : State) : Bool := s.fer.sensors.any fun e => decide (e.1 < 64) && e.2.over103

/-- A sensor's mean has crossed 95 °C: a junction starts or ends the thermal rule. -/
def cross95 (i : Nat) (up : Bool) (s : State) : State :=
  let s := if i < 64 then
      let s := updFer (fun f => { f with thermalAt := s.clock }) s
      if up then fmnEvent 0 s else s
    else s
  pldmAlert i 95 (b2n up) (crossRecord i s)

/-- A sensor's mean has crossed 103 °C: a junction sets the floor at once. -/
def cross103 (i : Nat) (up : Bool) (s : State) : State :=
  let s := if i < 64 then
      crossRecord i (if up then settleClock (fmnEvent 0 (updFer (fun f => { f with thermal := floorMhz, thermalAt := s.clock }) s)) else s)
    else s
  pldmAlert i 103 (b2n up) s

/-- The crossings of one sensor, from the sum and number of the samples its value is the mean of; `top` is its fatal value. -/
def crossings (i sum n top : Nat) (s : State) : State :=
  let q := s.fer.sensors.get {} i
  let upd (g : Sensor → Sensor) (s : State) : State := updFer (fun f => { f with sensors := Tbl.upd {} f.sensors i g }) s
  let s := if crossing q.over95 sum n 95 then cross95 i (!q.over95) (upd (fun q => { q with over95 := !q.over95 }) s) else s
  let s := if crossing q.over103 sum n 103 then cross103 i (!q.over103) (upd (fun q => { q with over103 := !q.over103 }) s) else s
  if crossing q.overTop sum n top then pldmAlert i top (b2n !q.overTop) (upd (fun q => { q with overTop := !q.overTop }) s) else s

/-- The arithmetic and link dies go off: ports down, the cores' contents lost (R504, R507). -/
def diesOff (reason : Nat) (s : State) : State :=
  let s := (List.range 8).foldl (fun s p => if (getPort s p).st = .down then s else portDown p reason s) s
  { s with cores := keepTbl {} (fun k => { part := k.part, group := k.group }) s.cores
           syn := { replays := s.syn.replays } }

/-- A thermal trip begins (R504): kind 0 junction, 1 HBM. -/
def tripBegins (kind sensor temp : Nat) (s : State) : State :=
  if s.fer.trip.isSome || s.fer.power = .standby then s
  else
    let s := postEvent { kind := 0x12, detail := packB [(1, kind), (1, sensor), (1, temp)] } (fmnEvent 2 s)
    let s := (partNums.filter (isStarted s)).foldl (fun s n => haltPart n .deviceResetting s) s
    let s := { s with descs := s.descs.map fun d => if d.live then { d with phase := .done .deviceResetting } else d }
    let s := powerRequeue (diesOff 8 s)
    let s := if kind = 1 then spoil 0 (capacity s) s else s
    { s with brd := { s.brd with thermtrip := true }
             fer := { s.fer with trip := some { kind := kind, coolSince := none, cold := decide (kind = 1) } } }

/-- Every sensor's last sample lies below 85 °C. -/
def allCool (s : State) : Bool := s.fer.sensors.all fun e => match e.2.samples with
  | t :: _ => decide (t < 85)
  | [] => true

/-- The cool time of a trip is followed. -/
def tripCools (s : State) : State :=
  updFer (fun f => { f with trip := f.trip.map fun t => { t with coolSince := if allCool s then t.coolSince <|> some s.clock else none } }) s

/-- One sample of a junction, link-die or hub sensor. -/
def junctionOne (s : State) (e : Nat × Nat) : State :=
  let s := updFer (fun f => { f with sensors := Tbl.upd {} f.sensors e.1 fun q =>
    { q with samples := (e.2 :: q.samples).take 8, hotRun := if 110 ≤ e.2 then q.hotRun + 1 else 0 } }) s
  let q := s.fer.sensors.get {} e.1
  let s := crossings e.1 q.samples.sum q.samples.length 110 s
  if 3 ≤ q.hotRun then tripBegins 0 e.1 e.2 s else s

/-- JUNCTION_SAMPLE: the 64 junctions, then the 12 link-die and hub sensors. -/
def execJunctionSample (dt : Nat) (temps : List Nat) (s : State) : Result :=
  let s := pass dt s
  if fmnRuns s then .next (tripCools (((List.range 76).zip temps).foldl junctionOne s)) else .next s

/-- One sample of a stack (R302, R503). -/
def stackOne (s : State) (e : Nat × Nat) : State :=
  if (getStack s e.1).st = .retired then s
  else
    let s := updFer (fun f => { f with sensors := Tbl.upd {} f.sensors (76 + e.1) fun q => { q with samples := [e.2] } }) s
    let s := crossings (76 + e.1) e.2 1 105 s
    let s := updStack e.1 (fun k => { k with temp := e.2, hot := decide (85 < e.2), limited := (s.fer.sensors.get {} (76 + e.1)).over95 }) s
    if 105 ≤ e.2 then tripBegins 1 (76 + e.1) e.2 s else s

/-- STACK_TEMP_SAMPLE: the stacks in order. -/
def execStackTempSample (dt : Nat) (temps : List Nat) (s : State) : Result :=
  let s := pass dt s
  if fmnRuns s then .next (tripCools (((List.range 20).zip temps).foldl stackOne s)) else .next s

/-- THERMAL_STEP: a step down every 1 ms while a junction stays crossed, a step up every 10 ms after. -/
def execThermalStep (dt : Nat) (s : State) : Result :=
  let s' := pass dt s
  let f := s'.fer
  if !fmnRuns s then .next s
  else if criticalJunction s' then .next s'
  else if hotJunction s' then
    if f.thermalAt + 1000000 ≤ s'.clock && floorMhz < f.thermal then
      .next (settleClock (fmnEvent 0 (updFer (fun f => { f with thermal := max floorMhz (f.thermal - 50), thermalAt := s'.clock }) s')))
    else .next s
  else if f.thermal < topMhz && f.thermalAt + 10000000 ≤ s'.clock then
    .next (settleClock (updFer (fun f => { f with thermal := min topMhz (f.thermal + 50), thermalAt := s'.clock }) s'))
  else .next s

/-- THERMTRIP_RELEASE: every sensor has read below 85 °C for 10 s: a warm reset, or a cold one; it counts as a rung-3 reset. -/
def execThermtripRelease (dt : Nat) (s : State) : Result :=
  let s' := pass dt s
  match s.fer.trip with
  | some t =>
    match t.coolSince with
    | some c =>
      if c + 10000000000 ≤ s'.clock then
        let old := s.fer.rung3.filter fun x => decide (s'.clock < x + hour)
        let s := { s' with brd := { s'.brd with thermtrip := false }
                           fer := { s'.fer with trip := none, rung3 := s'.clock :: old } }
        if 2 ≤ old.length then .next (powerCycle s)
        else if t.cold then .next (coldReset s)
        else .next (match s.rst with
          | some r => { s with rst := some { r with since := s.clock } }
          | none => warmReset s)
      else .next s
    | none => .next s
  | none => .next s

/-- ERROR_COUNT_SAMPLE: every 10 ms: the service conditions (R520). -/
def execErrorCountSample (dt : Nat) (s : State) : Result :=
  let s := pass dt s
  if fmnRuns s then .next (serviceUpdate s) else .next s

/-! ## Power states (R33, R506, R507) -/

/-- An engine of a core works on nothing: it is empty, or waits for an address that issue has not given it. -/
def engineRests (k : Core) (e : Nat) : Bool :=
  let l := k.cur.get [] e
  (l.all fun r => r.hungry) && (!l.isEmpty || (k.queues.get [] e).isEmpty)

/-- A core has halted, faulted, or waits with no engine at work. -/
def coreRests (k : Core) : Bool := k.run != .running || (k.stall != .none && (List.range 16).all (engineRests k))

/-- ENTER_IDLE: no partition is started, or every core of every started one has halted or waits (R33). Changes between ACTIVE and
IDLE answer no request and write no record (log entry 43). -/
def execEnterIdle (s : State) : Result :=
  if s.fer.power == .active && s.rst.isNone && s.fer.trip.isNone &&
      (partNums.filter (isStarted s)).all fun n => (partCores s n).all fun c => coreRests (getCore s c) then
    .next { s with fer := { s.fer with power := .idle } }
  else .next s

/-- PF0 writes REQ of FMN_PWR. -/
def pwrWrite (fn : Nat) (want : Power) (s : State) : State :=
  hostPost fn (fun s => if fn == 0 then powerRequest want 0 s else s) s

/-- PWR_REQ_ACTIVE. -/
def execPwrReqActive (fn : Nat) (s : State) : Result := .next (pwrWrite fn .active s)

/-- PWR_REQ_DEEP. -/
def execPwrReqDeep (fn : Nat) (s : State) : Result := .next (pwrWrite fn .deep s)

/-- PWR_REQ_STANDBY. -/
def execPwrReqStandby (fn : Nat) (s : State) : Result := .next (pwrWrite fn .standby s)

/-- WAKE_N: low for 1 ms while BRD_RST_N is high (R505, R547). -/
def execWakeN (dt : Nat) (s : State) : Result :=
  let s' := pass dt s
  if fmnRuns s && s.brd.brdRstN && 1000000 ≤ dt then .next (powerRequest .active 2 s') else .next s

/-- DEEP is entered: dies off, HBM in self-refresh, L1 requested. -/
def goDeep (source : Nat) (s : State) : State :=
  let s := setPower .deep source (diesOff 8 s)
  emit .requestL1 { s with link := { s.link with l1 := true } }

/-- The change under way asks for this state. -/
def enteringFor (s : State) (p : Power) : Option PowerReq := s.fer.entering.filter fun r => r.want == p

/-- ENTER_DEEP: from ACTIVE or IDLE. -/
def execEnterDeep (dt : Nat) (s : State) : Result :=
  match enteringFor s .deep with
  | some r => .next (powerNext (updFer (fun f => { f with entering := none }) (goDeep r.source (pass dt s))))
  | none => .next s

/-- WAKE_FROM_DEEP: every partition is FREE, every counter reads zero (R338, R476); ports may train. -/
def execWakeFromDeep (dt : Nat) (s : State) : Result :=
  match enteringFor s .active with
  | some r =>
    if s.fer.power = .deep then
      let s := pass dt s
      let s := setPower .active r.source
        { s with parts := [], cores := [], syn := { replays := s.syn.replays }
                 fab := { s.fab with ports := (List.range 8).foldl (fun t p => Tbl.upd {} t p fun q => { q with holdoff := false }) s.fab.ports } }
      .next (powerNext (updFer (fun f => { f with entering := none }) s))
    else .next s
  | none => .next s

/-- ENTER_STANDBY: through DEEP; deferred e-fuse writes come first (R519); PWR_REQ_N is released; SWAP_READY after PREPARE_SWAP. -/
def execEnterStandby (dt : Nat) (s : State) : Result :=
  match enteringFor s .standby with
  | some r =>
    if s.fer.fuseQ.isEmpty && s.fer.fuseNow.isNone then
      let s := pass dt s
      let s := if s.fer.power = .deep then s else goDeep r.source s
      let s := setPower .standby r.source { s with brd := { s.brd with pwrReq := false } }
      .next (powerNext (updFer (fun f => { f with entering := none, swapReady := f.swapWanted, swapWanted := false }) s))
    else .next s
  | none => .next s

/-- WAKE_FROM_STANDBY: PWR_REQ_N is asserted; VIN_UP boots. -/
def execWakeFromStandby (dt : Nat) (s : State) : Result :=
  match enteringFor s .active with
  | some _ =>
    if s.fer.power == .standby && !s.brd.pwrReq then .next (requestVin (pass dt s)) else .next s
  | none => .next s

/-- VIN_WAIT_TIMEOUT: VIN has not come 10 s after PWR_REQ_N, and again every 10 s. -/
def execVinWaitTimeout (dt : Nat) (s : State) : Result :=
  let s' := pass dt s
  if s.fer.pwrReqSince.isSome && s.fer.pwrReqReport + 10000000000 ≤ s'.clock then
    .next (vinRecord 0 s'.fer.vin (updFer (fun f => { f with pwrReqReport := s'.clock }) s'))
  else .next s

end Sys2Proof.Machine
end

