-- ==== Sys2Proof/Machine/Picture.lean ====
section
/-!
DEFINITION. A decode pipe's work on one sample (14): Larkspur (R422), transport stream and PES (R424), media time (R425), the
choice of pictures (R429), picture processing (R430), tokens (R431). What the video standards of R426 say of a stream is left to
Config.
-/
namespace Sys2Proof.Machine

/-! ## Larkspur (R422) -/

/-- fold of R407. -/
def larkFold (z : Nat) : Nat :=
  let z := (z ^^^ (z >>> 30)) * 0xBF58476D1CE4E5B9 % 2 ^ 64
  let z := (z ^^^ (z >>> 27)) * 0x94D049BB133111EB % 2 ^ 64
  z ^^^ (z >>> 31)

/-- Half width: the least n from 1 on with 2^(2n) not below N. -/
def larkWidth (n : Nat) : Nat := ((List.range 32).map (· + 1)).find? (fun k => decide (n ≤ 2 ^ (2 * k))) |>.getD 32

/-- One pass of six rounds. -/
def larkPass (n key e x : Nat) : Nat :=
  let r := (List.range 6).foldl (fun (p : Nat × Nat) round =>
    let f := larkFold (key ^^^ (e * 0x9E3779B97F4A7C15 % 2 ^ 64) ^^^ (round * 2 ^ 56) ^^^ p.2)
    (p.2, p.1 ^^^ f % 2 ^ n)) (x / 2 ^ n, x % 2 ^ n)
  r.1 * 2 ^ n + r.2

/-- Passes until the value is below N; the first argument bounds their number, and the cycle through x returns below N within
2^(2n) passes. -/
def larkLoop (n key e count : Nat) : Nat → Nat → Nat
  | 0, x => x
  | f + 1, x =>
    let y := larkPass n key e x
    if y < count then y else larkLoop n key e count f y

/-- The sample at a position of an epoch. -/
def larkspur (i count key e : Nat) : Nat := larkLoop (larkWidth count) key e count (2 ^ (2 * larkWidth count)) i

/-! ## Transport stream (R424) -/

/-- One 188-byte packet: PID, start flag, its payload, continuity counter; `bad` for a fault of R434 within the packet. -/
structure TsPacket where
  pid : Nat
  start : Bool
  payload : Bytes
  cc : Nat
  bad : Bool
  deriving DecidableEq, Repr

/-- A transport packet from its bytes; the adaptation field is passed over. -/
def tsPacket (b : Bytes) : TsPacket :=
  let w := leAt b 1 1
  let ctl := leAt b 3 1
  let af := bitsOf ctl 4 2
  let skip := if bitOf af 1 then 5 + leAt b 4 1 else 4
  { pid := w % 32 * 256 + leAt b 2 1, start := bitOf w 6, payload := if bitOf af 0 then b.drop skip else [], cc := ctl % 16
    bad := leAt b 0 1 != 0x47 || bitOf w 7 || bitsOf ctl 6 2 != 0 }

/-- The packets of a segment. -/
def tsPackets (seg : Bytes) : List TsPacket := (chunks 188 (seg.length / 188) seg).map tsPacket

/-- The packets of a PID with their places in the segment. -/
def pidPackets (l : List TsPacket) (pid : Nat) : List (Nat × TsPacket) := (indexed l).filter fun p => p.2.pid == pid

/-- Packets with payload in order; a repeated continuity counter repeats its packet. The place of the first fault, if any. -/
def tsScan : Option Nat → List (Nat × TsPacket) → List (Nat × TsPacket) × Option Nat
  | _, [] => ([], none)
  | cc, (i, p) :: t =>
    if p.bad then ([], some i)
    else if p.payload.isEmpty then tsScan cc t
    else match cc with
      | some c =>
        if p.cc = c then tsScan cc t
        else if p.cc != (c + 1) % 16 then ([], some i)
        else let r := tsScan (some p.cc) t; ((i, p) :: r.1, r.2)
      | none => let r := tsScan (some p.cc) t; ((i, p) :: r.1, r.2)

/-- A PES packet: the place of its first transport packet, and the bytes of each of its transport packets with their places. -/
structure Pes where
  first : Nat
  parts : List (Nat × Bytes)
  deriving DecidableEq, Repr

/-- PES packets of a PID; payload before the first start is passed over. -/
def pesOf : List (Nat × TsPacket) → List Pes
  | [] => []
  | (i, p) :: t =>
    let rest := pesOf t
    if p.start then { first := i, parts := (i, p.payload) :: ((t.takeWhile fun q => !q.2.start).map fun q => (q.1, q.2.payload)) } :: rest
    else rest

/-- All bytes of a PES packet. -/
def Pes.bytes (p : Pes) : Bytes := (p.parts.map Prod.snd).flatten

/-- Bytes before a PES packet's payload. -/
def Pes.head (p : Pes) : Nat := 9 + leAt p.bytes 8 1

/-- PES syntax holds: start code, marker bits, a header inside the packet, and the length it gives; `last` for the segment's last
one, which may be cut. -/
def Pes.ok (last : Bool) (p : Pes) : Bool :=
  let b := p.bytes
  let len := leAt b 4 1 * 256 + leAt b 5 1
  leAt b 0 1 == 0 && leAt b 1 1 == 0 && leAt b 2 1 == 1 && bitsOf (leAt b 6 1) 6 2 == 2 && decide (p.head ≤ b.length) &&
    (last || len == 0 || len + 6 == b.length)

/-- The 33-bit PTS of a PES packet. -/
def Pes.pts (p : Pes) : Option Nat :=
  let b := p.bytes
  if bitOf (leAt b 7 1) 7 then
    some (bitsOf (leAt b 9 1) 1 3 * 2 ^ 30 + leAt b 10 1 * 2 ^ 22 + bitsOf (leAt b 11 1) 1 7 * 2 ^ 15 + leAt b 12 1 * 2 ^ 7 +
      bitsOf (leAt b 13 1) 1 7)
  else none

/-- PES packets up to the first that breaks its syntax; the place of that one. -/
def pesScan : List Pes → List Pes × Option Nat
  | [] => ([], none)
  | p :: t => if p.ok t.isEmpty then let r := pesScan t; (p :: r.1, r.2) else ([], some p.first)

/-- A payload of a PES packet. -/
def Pes.payload (p : Pes) : Bytes := p.bytes.drop p.head

/-- The elementary stream of some PES packets. -/
def esOf (l : List Pes) : Bytes := (l.map Pes.payload).flatten

/-- For each PES packet the byte of the elementary stream at which its payload starts. -/
def esStarts : Nat → List Pes → List (Nat × Pes)
  | _, [] => []
  | n, p :: t => (n, p) :: esStarts (n + p.payload.length) t

/-- The place of the transport packet that holds byte `k` of a PES packet's bytes. -/
def partAt : Nat → List (Nat × Bytes) → Option Nat
  | _, [] => none
  | k, (i, b) :: t => if k < b.length then some i else partAt (k - b.length) t

/-- The place of the transport packet that holds a byte of the elementary stream. -/
def esPacket (l : List (Nat × Pes)) (k : Nat) : Option Nat :=
  match (l.filter fun e => decide (e.1 ≤ k)).getLast? with
  | some e => partAt (e.2.head + (k - e.1)) e.2.parts
  | none => none

/-! ## Pictures (R425, R426, R429) -/

/-- A decoded picture as Config.decodePicture gives it. -/
structure Picture where
  width : Nat
  height : Nat
  bits : Nat
  mono : Bool
  /-- A random-access point of R429; used as a reference. -/
  rap : Bool
  ref : Bool
  /-- Place in presentation order; where its access unit starts and ends in the elementary stream. -/
  order : Nat
  start : Nat
  stop : Nat
  /-- 0 progressive, 1 woven fields with the top one first, 2 with the bottom one first, 3 a field without its pair. -/
  kind : Nat
  /-- Colour description: 0 none, 1 BT.709, 2 BT.601, 3 BT.2020; full range. -/
  matrix : Nat
  full : Bool
  /-- Luma and chroma samples, row by row. -/
  luma : List Nat
  cb : List Nat
  cr : List Nat
  deriving DecidableEq, Repr

/-- Lines of a plane that holds `h` lines of a picture. -/
def Picture.lines (kind h : Nat) : Nat := if kind = 3 then (h + 1) / 2 else h

/-- The picture that a list of numbers stands for: twelve fields, luma, Cb, Cr. -/
def pictureOf (l : List Nat) : Picture :=
  let f (i : Nat) : Nat := l.getD i 0
  let w := f 0
  let h := f 1
  let nl := w * Picture.lines (f 9) h
  let nc := (w + 1) / 2 * Picture.lines (f 9) ((h + 1) / 2)
  let d := l.drop 13
  { width := w, height := h, bits := f 2, mono := f 3 == 1, rap := f 4 == 1, ref := f 5 == 1, order := f 6, start := f 7, stop := f 8
    kind := f 9, matrix := f 10, full := f 11 == 1, luma := d.take nl, cb := (d.drop nl).take nc, cr := (d.drop (nl + nc)).take nc }

/-- The pictures of a stream in decode order; the second argument bounds their number. -/
def picturesOf (codec : Nat) (es : Bytes) : Nat → Nat → List Picture
  | 0, _ => []
  | n + 1, i =>
    match Config.decodePicture codec es i with
    | some l => pictureOf l :: picturesOf codec es n (i + 1)
    | none => []

/-- A 33-bit time extended against the last extended one (R425). -/
def extendTime (e : Int) (v : Nat) : Int :=
  let d : Nat := (v + 2 ^ 33 - (e % 2 ^ 33).toNat) % 2 ^ 33
  if d < 2 ^ 32 then e + (d : Int) else e - ((2 ^ 33 - d : Nat) : Int)

/-- The PTS that the stream gives a picture: that of the PES packet in which its access unit starts first. -/
def ownPts (l : List (Nat × Pes)) (pics : List Picture) (p : Picture) : Option Nat :=
  match (l.filter fun e => decide (e.1 ≤ p.start)).getLast? with
  | some e => if pics.any fun q => decide (e.1 ≤ q.start) && decide (q.start < p.start) then none else e.2.pts
  | none => none

/-- PTSs extended in decode order, each against the last one before it. -/
def extendAll : Int → List (Picture × Option Nat) → List (Picture × Option Int)
  | _, [] => []
  | e, (p, some v) :: t => let x := extendTime e v; (p, some x) :: extendAll x t
  | e, (p, none) :: t => (p, none) :: extendAll e t

/-- A picture put in at its place in presentation order. -/
def insertPic (a : Picture × Option Int) : List (Picture × Option Int) → List (Picture × Option Int)
  | [] => [a]
  | b :: t => if a.1.order ≤ b.1.order then a :: b :: t else b :: insertPic a t

/-- Pictures without a PTS take the one before plus a frame duration (R425): the stream's own, else the last difference seen, else Δ. -/
def fillTimes (dur delta : Nat) : Option Int → Option Int → List (Picture × Option Int) → List (Picture × Option Int)
  | _, _, [] => []
  | prev, diff, (p, x) :: t =>
    let step : Int := if dur != 0 then dur else diff.getD delta
    let here := x <|> prev.map (· + step)
    let diff := match x, prev with
      | some a, some b => some (a - b)
      | _, _ => diff
    (p, here) :: fillTimes dur delta here diff t

/-- The last difference of PTSs, for the duration of the last picture. -/
def lastStep (dur delta : Nat) (l : List (Picture × Option Int)) : Int :=
  if dur != 0 then dur
  else match l.reverse with
    | (_, some a) :: (_, some b) :: _ => a - b
    | _ => delta

/-- What covers a time (R429): the first picture before its own PTS, a picture, or nothing past the last one's duration. -/
inductive Cover where
  | early (p : Picture)
  | pic (p : Picture)
  | past
  deriving DecidableEq, Repr

/-- The picture that covers a time among pictures in presentation order. -/
def coverAt (last : Int) (l : List (Picture × Int)) (t : Int) : Cover :=
  match l, (l.filter fun e => decide (e.2 ≤ t)).getLast? with
  | [], _ => .past
  | e :: _, none => .early e.1
  | _, some e => if some e == l.getLast? && decide (e.2 + last ≤ t) then .past else .pic e.1

/-! ## Picture processing (R430) -/

/-- FP32 operations, one rounding each (R41, R43). -/
def fAdd (a b : Num) : Num := roundFp32 (numAdd a b)
def fSub (a b : Num) : Num := roundFp32 (numAdd a (numNeg b))
def fMul (a b : Num) : Num := roundFp32 (numMul a b)
def fNat (n : Nat) : Num := roundFp32 (.fin false n 0)

/-- An FP32 quotient by a positive finite value. -/
def fDiv (a b : Num) : Num :=
  match a, b with
  | .fin s m e, .fin _ n f => if n = 0 then .nan else fp32Num (writeFrac fFP32 true s m n (e - f)).code
  | x, _ => x

/-- A plane: its lines. -/
abbrev Plane := List (List Nat)

/-- The lines of a plane that fields are woven into (R430, stage 1). `sel` is FIELD_SELECT. -/
def deinterlace (kind : Nat) (sel : Bool) (h : Nat) (ls : Plane) : Plane :=
  if kind = 0 then ls
  else
    let w (y : Nat) : List Nat := if kind = 3 then ls.getD (y / 2) [] else ls.getD y []
    (List.range h).map fun y =>
      if sel then w (min (h - 1) (2 * (y / 2) + (if kind = 2 then 1 else 0)))
      else if y + 1 < h then ((w y).zip (w (y + 1))).map fun p => (p.1 + p.2 + 1) / 2
      else w y

/-- The cropped interval of one axis, clipped to the picture: start and length in luma samples (R419, R430). -/
def cropAxis (at_ len size : Nat) : Nat × Nat :=
  let a := min at_ size
  (a, min len (size - a))

/-- Weights of the samples that form output sample `o` of an axis: (sample, weight) (R430, stage 3). The cropped interval starts at
lo/den and is len/den samples long. -/
def axisWeights (lo len den out o : Nat) : List (Nat × Num) :=
  let d := den * out
  if d ≤ len then
    let a := lo * out + o * len
    let b := a + len
    ((List.range (b / d + 1)).filterMap fun i =>
      let ov := min b ((i + 1) * d) - max a (i * d)
      if ov = 0 then none else some (i, fp32Num (writeFrac fFP32 true false ov len 0).code))
  else
    let first := lo / den
    let last := (lo + len + den - 1) / den - 1
    let pos : Int := (2 * lo * out + (2 * o + 1) * len : Nat) - (d : Nat)
    let pos := max ((2 * d * first : Nat) : Int) (min ((2 * d * last : Nat) : Int) pos)
    let i := (pos / (2 * d : Nat)).toNat
    let f := (pos % (2 * d : Nat)).toNat
    if f = 0 then [(i, .fin false 1 0)]
    else
      let wt (n : Nat) : Num := fp32Num (writeFrac fFP32 true false n (2 * d) 0).code
      [(i, wt (2 * d - f)), (i + 1, wt f)]

/-- Weighted samples added in ascending index. -/
def weigh (l : List (Num × Num)) : Num :=
  match l.map fun p => fMul p.2 p.1 with
  | [] => .fin false 0 0
  | a :: t => t.foldl fAdd a

/-- A plane cropped and scaled, horizontally first. `black` is what a sample outside the picture reads as. -/
def scalePlane (x y w h den outW outH black : Nat) (ls : Plane) : List (List Num) :=
  if w = 0 || h = 0 then List.replicate outH (List.replicate outW (fNat black))
  else
    let cols := (List.range outW).map (axisWeights x w den outW)
    let hor := ls.map fun r => cols.map fun c => weigh (c.map fun p => (fNat (r.getD p.1 black), p.2))
    (List.range outH).map fun o =>
      let c := axisWeights y h den outH o
      (List.range outW).map fun j => weigh (c.map fun p => ((hor.getD p.1 []).getD j (fNat black), p.2))

/-- Kr and Kb of a matrix (R430, stage 4), rounded to FP32: BT.709, BT.601, BT.2020. -/
def lumaCoef : Nat → Num × Num
  | 2 => (fp32Num (writeFrac fFP32 true false 299 1000 0).code, fp32Num (writeFrac fFP32 true false 114 1000 0).code)
  | 3 => (fp32Num (writeFrac fFP32 true false 2627 10000 0).code, fp32Num (writeFrac fFP32 true false 593 10000 0).code)
  | _ => (fp32Num (writeFrac fFP32 true false 2126 10000 0).code, fp32Num (writeFrac fFP32 true false 722 10000 0).code)

/-- A value clamped to 0 to 1. -/
def clamp01 (x : Num) : Num :=
  if numLt x (.fin false 0 0) then .fin false 0 0 else if numLt (.fin false 1 0) x then .fin false 1 0 else x

/-- Normalised luma and chroma for a bit depth and range. -/
def normLuma (full : Bool) (b : Nat) (v : Num) : Num :=
  if full then fDiv v (fNat (2 ^ b - 1)) else fDiv (fSub v (fNat (16 * 2 ^ (b - 8)))) (fNat (219 * 2 ^ (b - 8)))
def normChroma (full : Bool) (b : Nat) (v : Num) : Num :=
  if full then fDiv (fSub v (fNat (2 ^ (b - 1)))) (fNat (2 ^ b - 1))
  else fDiv (fSub v (fNat (128 * 2 ^ (b - 8)))) (fNat (224 * 2 ^ (b - 8)))

/-- The channels of one pixel (R430, stage 4). R and B enter G before they are clamped (log entry 35). -/
def colour (cspace : Nat) (p : Picture) (y cb cr : Num) : List Num :=
  let one : Num := .fin false 1 0
  let y := normLuma p.full p.bits y
  let cb := if p.mono then .fin false 0 0 else normChroma p.full p.bits cb
  let cr := if p.mono then .fin false 0 0 else normChroma p.full p.bits cr
  match cspace with
  | 4 => [y, cb, cr]
  | 5 => [y]
  | _ =>
    let k := lumaCoef (if cspace = 0 then p.matrix else cspace)
    let two (x : Num) : Num := numMul (.fin false 2 0) x
    let r := fAdd y (fMul (two (fSub one k.1)) cr)
    let b := fAdd y (fMul (two (fSub one k.2)) cb)
    let g := fDiv (fSub (fSub y (fMul k.1 r)) (fMul k.2 b)) (fSub (fSub one k.1) k.2)
    [clamp01 r, clamp01 g, clamp01 b]

/-- Host fields of a job block (R419) that shape pictures and tensors. -/
structure Shape where
  frames : Nat
  patch : Nat
  cspace : Nat
  select : Bool
  outW : Nat
  outH : Nat
  crop : List Nat
  fmt : Nat
  prop : Bool
  means : List Nat
  scales : List Nat
  ts : Nat
  places : Nat
  audio : Nat
  deriving DecidableEq, Repr

/-- The shape of a job. -/
def shapeOf (b : Bytes) : Shape :=
  { frames := leAt b 48 1, patch := leAt b 49 1, cspace := leAt b 50 1, select := leAt b 51 1 == 1, outW := leAt b 56 2, outH := leAt b 58 2
    crop := (List.range 4).map fun i => leAt b (60 + 2 * i) 2, fmt := leAt b 68 1, prop := leAt b 69 1 == 1
    means := (List.range 3).map fun i => leAt b (72 + 4 * i) 4, scales := (List.range 3).map fun i => leAt b (84 + 4 * i) 4
    ts := leAt b 96 4, places := leAt b 118 2, audio := leAt b 132 4 }

/-- Channels. -/
def Shape.chan (h : Shape) : Nat := if h.cspace = 5 then 1 else 3

/-- Tokens of a frame, of a sample; features of a token (R431). -/
def Shape.frameTokens (h : Shape) : Nat := (h.outH / h.patch) * (h.outW / h.patch)
def Shape.tokens (h : Shape) : Nat := h.frames * h.frameTokens
def Shape.features (h : Shape) : Nat := h.chan * h.patch * h.patch

/-- The pixels of a selected picture after every stage, line by line. -/
def processPicture (h : Shape) (p : Picture) : List (List (List Num)) :=
  let whole := h.crop.getD 2 0 == 0 || h.crop.getD 3 0 == 0
  let cx := if whole then (0, p.width) else cropAxis (h.crop.getD 0 0) (h.crop.getD 2 0) p.width
  let cy := if whole then (0, p.height) else cropAxis (h.crop.getD 1 0) (h.crop.getD 3 0) p.height
  let cw := (p.width + 1) / 2
  let ch := (p.height + 1) / 2
  let planeOf (w hh : Nat) (l : List Nat) : Plane :=
    let n := Picture.lines p.kind hh
    deinterlace p.kind h.select hh (chunks w n l)
  let neutral := 128 * 2 ^ (p.bits - 8)
  let y := scalePlane cx.1 cy.1 cx.2 cy.2 1 h.outW h.outH (16 * 2 ^ (p.bits - 8)) (planeOf p.width p.height p.luma)
  let cb := if p.mono then [] else scalePlane cx.1 cy.1 cx.2 cy.2 2 h.outW h.outH neutral (planeOf cw ch p.cb)
  let cr := if p.mono then [] else scalePlane cx.1 cy.1 cx.2 cy.2 2 h.outW h.outH neutral (planeOf cw ch p.cr)
  let zero : Num := .fin false 0 0
  (List.range h.outH).map fun i => (List.range h.outW).map fun j =>
    let c := colour h.cspace p ((y.getD i []).getD j zero) ((cb.getD i []).getD j zero) ((cr.getD i []).getD j zero)
    ((List.range c.length).zip c).map fun v =>
      fMul (fSub v.2 (fp32Num (h.means.getD v.1 0))) (fp32Num (h.scales.getD v.1 0))

/-- The token rows of a picture in order (R431). -/
def pictureTokens (h : Shape) (pix : List (List (List Num))) : List (List Num) :=
  let px := h.outW / h.patch
  (List.range h.frameTokens).map fun t =>
    ((List.range h.patch).map fun y => ((List.range h.patch).map fun x =>
      ((pix.getD (t / px * h.patch + y) []).getD (t % px * h.patch + x) [])).flatten).flatten

/-! ## The layout of a slot (R431, R432) -/

/-- Blocks of a run and the least run pitch in block slots (R187). -/
def Shape.blocks (h : Shape) : Nat := (h.features + 31) / 32
def leastPitch (nb s : Nat) : Nat := if s % nb = 0 then nb else s * ((nb + s - 1) / s)
def Shape.pitch (h : Shape) : Nat :=
  if h.fmt = fBF16 then 2 * h.features else leastPitch h.blocks (parcelBlocks (fmtWidth h.fmt))

/-- T, the token rows of a buffer. -/
def Shape.rows (h : Shape) : Nat := h.places * h.tokens

/-- Parcels of a narrow buffer. -/
def Shape.parcels (h : Shape) : Nat :=
  let s := parcelBlocks (fmtWidth h.fmt)
  if h.fmt = fBF16 then 0 else ((h.rows - 1) * h.pitch + h.blocks + s - 1) / s

/-- Offsets in a slot: data tensor, scales, checksums, audio area, end. A BF16 tensor has no scales and no checksums. -/
def Shape.layout (h : Shape) : Nat × Nat × Nat × Nat × Nat :=
  let up (a x : Nat) : Nat := (x + a - 1) / a * a
  let d := up 256 (64 + 64 * h.places)
  let n := h.parcels
  let s := up 64 (d + (if h.fmt = fBF16 then h.pitch * h.rows else 256 * n))
  let c := up 64 (s + parcelBlocks (fmtWidth h.fmt) * n)
  let a := up 64 (c + 4 * n)
  (d, s, c, a, a + h.audio * h.places)

/-! ## One sample -/

/-- What a pipe makes of a sample: a status, or its flags, time, counts, frames and audio. -/
structure Sample where
  status : Nat := 0
  short : Bool := false
  early : Bool := false
  trunc : Bool := false
  pts0 : Int := 0
  frames : List Picture := []
  decoded : Nat := 0
  /-- Luma samples of the pictures decoded, at 8 and at more bits (R435). -/
  luma8 : Nat := 0
  luma10 : Nat := 0
  audio : Bytes := []
  deriving DecidableEq, Repr

/-- Pictures that the pipe decodes up to a place of decode order: references and selected ones (R427). -/
def decodedPics (pics : List Picture) (last : Nat) (sel : List Picture) : List Picture :=
  (pics.take (last + 1)).filter fun p => p.ref || sel.any fun q => q.order == p.order

/-- Audio entries (R432): PES packets that begin before the pipe stops reading and whose time lies in the sample. An entry that
does not fit is dropped. -/
def audioOf (max : Nat) (t0 tEnd e : Int) (l : List Pes) : Bytes × Bool :=
  l.foldl (fun (a : Bytes × Bool) p =>
    match p.pts with
    | some v =>
      let x := extendTime e v
      if decide (t0 ≤ x) && decide (x < tEnd) then
        let pay := p.payload
        let ent := leBytes 8 (wrapInt 64 x) ++ leBytes 4 pay.length ++ zeros 4 ++ pay ++ zeros ((4 - pay.length % 4) % 4)
        if a.1.length + ent.length ≤ max then (a.1 ++ ent, a.2) else (a.1, true)
      else a
    | none => a) ([], false)

/-- A sample's audio: broken PES packets are dropped (R434). -/
def sampleAudio (h : Shape) (pk : List TsPacket) (apid read : Nat) (t0 tEnd e : Int) : Bytes × Bool :=
  if apid = 0x1FFF || h.audio = 0 then ([], false)
  else
    let sc := pidPackets pk apid
    let pes := (pesOf sc).filter fun p => decide (p.first < read)
    let okPes (p : Pes) : Bool :=
      p.ok false && (p.parts.all fun q => !(pk[q.1]?.any TsPacket.bad)) &&
        (tsScan none (sc.filter fun q => p.parts.any fun r => r.1 == q.1)).2.isNone
    let r := audioOf h.audio t0 tEnd e (pes.filter okPes)
    (r.1, r.2 || pes.any fun p => !okPes p)

/-- The whole of a pipe's choice for a sample from its table entry and its segment (R424 to R429, R434). -/
def takeSample (h : Shape) (delta : Nat) (entry seg : Bytes) : Sample :=
  let codec := leAt entry 21 1
  if 3 < codec then { status := 0x71 } else
  let pk := tsPackets seg
  let sc := tsScan none (pidPackets pk (leAt entry 12 2 % 8192))
  let ps := pesScan (pesOf sc.1)
  let fault := match sc.2, ps.2 with
    | some a, some b => some (min a b)
    | a, b => a <|> b
  let es := esOf ps.1
  let at_ := esStarts 0 ps.1
  let pics := picturesOf codec es (es.length + 1) 0
  let dur := Config.frameDuration codec es
  match at_.findSome? (fun e => e.2.pts), pics with
  | none, _ => { status := 0x70 }
  | _, [] => { status := if Config.decodeStatus codec es = 2 then 0x71 else 0x70 }
  | some p0, _ =>
    let ext := extendAll (p0 : Int) (pics.map fun p => (p, ownPts at_ pics p))
    let pres := fillTimes dur delta none none (ext.foldl (fun l p => insertPic p l) [])
    if pres.any fun e => e.2.isNone then { status := 0x70 } else
    let timed := pres.map fun e => (e.1, e.2.getD 0)
    let t0 := extendTime (p0 : Int) (leAt entry 16 5 % 2 ^ 33)
    let covers := (List.range h.frames).map fun k => coverAt (lastStep dur delta pres) timed (t0 + (k * delta : Nat))
    let live := covers.takeWhile fun c => c != .past
    let sel := live.map fun c => match c with
      | .early p => some p
      | .pic p => some p
      | .past => none
    let sel := sel.filterMap id
    let short := decide (live.length < h.frames)
    let idx (p : Picture) : Nat := (pics.findIdx? fun q => q.order == p.order).getD 0
    let last := if short then pics.length - 1 else (sel.map idx).foldl max 0
    let read := if short then pk.length
      else match (pics[last]?).bind fun p => esPacket at_ (p.stop - 1) with
        | some i => min pk.length (i + 2)
        | none => pk.length
    let rap := (pics.findIdx? Picture.rap).getD pics.length
    let dec := decodedPics pics last sel
    let stop := ((pics[last]?).map Picture.stop).getD es.length
    if Config.decodeStatus codec (es.take stop) = 2 then { status := 0x71 }
    else if (fault.any fun i => decide (i < read)) || Config.decodeStatus codec (es.take stop) = 1 ||
        (sel.any fun p => decide (idx p < rap)) then { status := 0x70 }
    else
      let a := sampleAudio h pk (leAt entry 14 2 % 8192) read t0 (t0 + ((h.frames - 1) * delta + delta : Nat)) (p0 : Int)
      { short := short, early := live.any (fun c => match c with | .early _ => true | _ => false), trunc := a.2, pts0 := t0, frames := sel
        decoded := dec.length, luma8 := ((dec.filter fun p => p.bits ≤ 8).map fun p => p.width * p.height).sum
        luma10 := ((dec.filter fun p => 8 < p.bits).map fun p => p.width * p.height).sum, audio := a.1 }

/-- The expected decode time in ns (R435): 400 Mpixel/s at 8 bits, 300 at 10. -/
def Sample.expected (x : Sample) : Nat := (5 * x.luma8 + 1) / 2 + (10 * x.luma10 + 2) / 3

end Sys2Proof.Machine
end

