-- ==== Sys2Proof/Machine/Ingest.lean ====
section
/-!
DEFINITION. Media ingest (14): INGEST_SUBMIT (R418 to R420), dispatch of samples (R421 to R423, R427), pipes, their tests and their
watchdog (R428), samples written into their slot (R430 to R432), buffers, FILL signals and the end of a job (R433, R434).
-/
namespace Sys2Proof.Machine

/-! ## The job block (R419) -/

/-- Host fields. -/
def jbTable (b : Bytes) : Nat := leAt b 0 8
def jbN (b : Bytes) : Nat := leAt b 8 8
def jbKey (b : Bytes) : Nat := leAt b 16 8
def jbEpoch (b : Bytes) : Nat := leAt b 24 4
def jbReaders (b : Bytes) : Nat := leAt b 28 4
def jbMember (b : Bytes) : Nat := leAt b 32 4
def jbStart (b : Bytes) : Nat := leAt b 40 8
def jbDelta (b : Bytes) : Nat := leAt b 52 4
def jbErrLimit (b : Bytes) : Nat := leAt b 100 4
def jbPlaces (b : Bytes) : Nat := leAt b 118 2
def jbQueue (b : Bytes) : Nat := leAt b 120 8

/-- Every host field lies in its range, and every byte not named is zero. -/
def blockOk (b : Bytes) : Bool :=
  let h := shapeOf b
  let within (lo hi v : Nat) : Bool := decide (lo ≤ v) && decide (v ≤ hi)
  zeroAt b [(36, 4), (70, 2), (136, 56)] && jbTable b % 32 == 0 && within 1 (2 ^ 40) (jbN b) && within 1 65536 (jbReaders b) &&
    decide (jbMember b < jbReaders b) && within 1 64 h.frames && [8, 16, 32].contains h.patch && decide (h.cspace ≤ 5) &&
    decide (leAt b 51 1 ≤ 1) && within 1 (2 ^ 24) (jbDelta b) && h.outW % h.patch == 0 && h.outH % h.patch == 0 &&
    within h.patch 4096 h.outW && within h.patch 4096 h.outH && within 1 8 h.fmt && decide (leAt b 69 1 ≤ 1) &&
    (h.fmt == fBF16 || scaleOk h.ts) && within 2 1024 (jbSlots b) && within 1 4096 (jbPlaces b) && h.audio % 64 == 0

/-! ## INGEST_SUBMIT (R418, R420) -/

/-- Fields of INGEST_SUBMIT. -/
def isBlock (d : Desc) : Nat := d.at 16 8
def isSamples (d : Desc) : DWord := BitVec.ofNat 64 (d.at 24 8)
def isSlot (d : Desc) : Nat := d.at 32 1

/-- The job block lies in the quota on its alignment, so that it can be read. -/
def isReadable (s : State) (d : Desc) : Bool := isBlock d % 64 == 0 && quotaOk s d.fn (isBlock d) 256 false

/-- The status with which an INGEST_SUBMIT is refused, in table order; OK for one of no samples. -/
def ingestCheck (s : State) (d : Desc) : Option Status :=
  let p := getPart s d.fn
  let b := devRd s (isBlock d) 192
  let slots := jbSlotBytes b * jbSlots b
  if d.fn = 0 || p.pipes = 0 then some .descNotPermitted
  else if !zeroAt d.bytes [(33, 31)] || 3 < isSlot d || (p.jobs.get none (isSlot d)).isSome || (isReadable s d && !blockOk b) then
    some .descMalformed
  else if isSamples d = 0 then some .ok
  else if !isReadable s d || jbLanding b % 4096 != 0 || jbSlotBytes b % 4096 != 0 || jbQueue b % 64 != 0 ||
      !quotaOk s d.fn (jbLanding b) slots false || !quotaOk s d.fn (jbQueue b) (8 * jbSlots b) false ||
      decide (jbSlotBytes b < (shapeOf b).layout.2.2.2.2) || decide (jbN b ≤ jbMember b) ||
      decide (p.pcount ≤ jbFill b) || decide (p.pcount ≤ jbFree b) then some .descBounds
  else none

/-- A partition's job in a slot changed. -/
def updJob (n js : Nat) (f : Job → Job) (s : State) : State :=
  updPart n (fun p => { p with jobs := Tbl.upd none p.jobs js fun j => j.map f })  s

/-- A counter's value by INDEX. -/
def indexValue (s : State) (n i : Nat) : DWord :=
  match counterOf s n i with
  | some c => getCounter s c
  | none => 0

/-- A write of ingest draws on the common bucket (R304). The home device checks it as any access (R295): lines outside the writable quota
stay as they are, and the job goes on (log entry 127). -/
def ingPut (n a : Nat) (d : Bytes) (s : State) : State :=
  (piecesOf a d).foldl (fun s p => if quotaOk s n p.1 p.2.length true then memPut n 0 0 p.1 p.2 s else s) s

/-- A job starts at its not-before time: its counter bases are written, its slot's counts cleared. -/
def ingestStart (d : Desc) (s : State) : State :=
  match (getPart s d.fn).jobs.get none (isSlot d) with
  | some j =>
    let s := ingPut d.fn (j.blockAddr + 192) (leBytes 8 j.fillBase.toNat ++ leBytes 8 j.freeBase.toNat) s
    let s := updPart d.fn (fun p =>
      { p with jobEnd := Tbl.set false p.jobEnd (isSlot d) false, jobFailed := Tbl.set 0 p.jobFailed (isSlot d) 0 }) s
    setPhase d.id .started s
  | none => s

/-- A job is accepted: the host fields and the counters' values are taken now. -/
def ingestAccept (d : Desc) (s : State) : State :=
  let b := devRd s (isBlock d) 192
  let s := (memGet d.fn 0 0 (isBlock d) 192 s).2
  let j : Job :=
    { id := d.id, block := b, blockAddr := isBlock d, samples := isSamples d, nextJ := jbStart b
      fillBase := indexValue s d.fn (jbFill b), freeBase := indexValue s d.fn (jbFree b), freeList := List.range (jbSlots b) }
  acceptThen d ingestStart (updPart d.fn (fun p => { p with jobs := Tbl.set none p.jobs (isSlot d) (some j) }) s)

/-- INGEST_SUBMIT. -/
def execIngestSubmit (id : Nat) (s : State) : Result :=
  match atAcceptance s id 0x18 with
  | some d => .next (checked d (ingestCheck s d) (ingestAccept d) s)
  | none => .next s

/-- A job runs: its descriptor has started. -/
def jobRuns (s : State) (j : Job) : Bool := (findDesc s j.id).any fun d => d.phase == .started

/-! ## Pipes (R427, R428) -/

/-- A logical pipe. -/
def getPipe (s : State) (k : Nat) : Pipe := s.pipes.get {} k

/-- A logical pipe changed. -/
def updPipe (k : Nat) (f : Pipe → Pipe) (s : State) : State := { s with pipes := Tbl.upd {} s.pipes k f }

/-- The physical pipe of a logical one: its own number until a spare replaces it (log entry 36). -/
def physOf (s : State) (k : Nat) : Nat := ((getPipe s k).phys).getD k

/-- A partition owns a logical pipe that works. -/
def ownsPipe (s : State) (n k : Nat) : Bool := (getPart s n).pipes.getLsbD k && !(getPipe s k).retired

/-- A pipe is due for its known-answer streams: it has not decoded them, or 24 hours ago (R428). -/
def testDue (s : State) (k : Nat) : Bool :=
  match (getPipe s k).testedAt with
  | some t => decide (t + 86400000000000 ≤ s.clock)
  | none => true

/-- A pipe can take a sample. -/
def pipeFree (s : State) (n k : Nat) : Bool :=
  let q := getPipe s k
  ownsPipe s n k && q.task.isNone && q.testing.isNone && !testDue s k

/-- A bit of ING_EVENT with the physical pipe, and Ferryman's record: 0 spared, 1 retired, 2 watchdog (R439, R508). -/
def pipeEvent (bit phys : Nat) (s : State) : State :=
  let a := bIng + 4
  let s := setReg a (BitVec.ofNat 32 (setBits (setBits (regN s a) bit 1 1) 16 7 phys)) s
  postEvent { kind := 0x1D, detail := packB [(1, phys), (1, bit)] } s

/-- A bit of ING_PEVENT with the job slot. -/
def ingEvent (n bit js : Nat) (s : State) : State :=
  let a := ctx bIngCtx n 4
  setReg a (BitVec.ofNat 32 (setBits (setBits (regN s a) bit 1 1) 16 2 js)) s

/-- PIPE_KNOWN_ANSWER_TEST: a pipe that a running job uses and whose test is due starts it. -/
def execPipeKnownAnswerTest (dt pipe : Nat) (s : State) : Result :=
  let s' := pass dt s
  let used (n : Nat) : Bool := ownsPipe s' n pipe && (List.range 4).any fun j => ((getPart s' n).jobs.get none j).any (jobRuns s')
  if pipe < 64 && partNums.any used && (getPipe s' pipe).testing.isNone && testDue s' pipe then
    .next (updPipe pipe (fun q => { q with testing := some s'.clock }) s')
  else .next s

/-- A pipe whose test failed: a spare takes its place, and a sample in flight starts anew; with no spare the logical pipe is retired,
and its sample goes to another pipe (log entry 37). -/
def pipeFails (k : Nat) (s : State) : State :=
  let phys := physOf s k
  match sparePipes s with
  | q :: _ =>
    let s := updPipe k (fun p =>
      { p with phys := some q, testing := none, testedAt := none, task := p.task.map fun t => { t with since := s.clock } }) s
    pipeEvent 0 phys (queueRepair 4 k s)
  | [] =>
    let s := match (getPipe s k).task with
      | some t => updJob t.part t.jslot (fun j => { j with redo := j.redo ++ [t.j] }) s
      | none => s
    pipeEvent 1 phys (queueRepair 4 k (updPipe k (fun p => { p with retired := true, testing := none, task := none }) s))

/-- PIPE_TEST_DONE: after 4 ms. -/
def execPipeTestDone (dt pipe : Nat) (pass_ : Bool) (s : State) : Result :=
  let s' := pass dt s
  match (getPipe s' pipe).testing with
  | some t =>
    if t + 4000000 ≤ s'.clock then
      .next (if pass_ then updPipe pipe (fun q => { q with testing := none, testedAt := some s'.clock }) s' else pipeFails pipe s')
    else .next s
  | none => .next s

/-! ## Places and slots (R427, R432, R433) -/

/-- The epoch and the sample of a sequence index (R422). -/
def sampleOf (b : Bytes) (j : Nat) : Nat × Nat :=
  let c := (jbN b - jbMember b + jbReaders b - 1) / jbReaders b
  let e := jbEpoch b + j / c
  (e, larkspur (jbMember b + jbReaders b * (j % c)) (jbN b) (jbKey b) e)

/-- The buffer and the place of a sequence index (R427). -/
def bufferOf (b : Bytes) (j : Nat) : Nat := (j - jbStart b) / jbPlaces b
def placeOf (b : Bytes) (j : Nat) : Nat := (j - jbStart b) % jbPlaces b

/-- Address of a slot. -/
def slotAddr (b : Bytes) (slot : Nat) : Nat := jbLanding b + slot * jbSlotBytes b

/-- A slot that is taken starts with unused places and zero blocks throughout; what its samples fill is written over them. -/
def clearSlot (n : Nat) (b : Bytes) (slot : Nat) (s : State) : State :=
  let h := shapeOf b
  let a := slotAddr b slot
  let l := h.layout
  let rec_ := zeros 8 ++ List.replicate 8 (0xFF : Byte) ++ zeros 48
  let s := ingPut n (a + 64) ((List.range h.places).map fun _ => rec_).flatten s
  let s := ingPut n (a + l.1) (zeros (if h.fmt = fBF16 then h.pitch * h.rows else 256 * h.parcels)) s
  if h.fmt = fBF16 then s else ingPut n (a + l.2.1) (zeros (parcelBlocks (fmtWidth h.fmt) * h.parcels)) s

/-- The first free slot that does not overlap the held range (R236). -/
def nextSlot (p : Part) (j : Job) : Option Nat := j.freeList.find? fun m => !slotHeldBack p j.block m

/-- The next sample of a job: one to be decoded again, or the next index. -/
def jobNext (j : Job) : Option (Nat × Bool) :=
  match j.redo with
  | k :: _ => some (k, true)
  | [] => if j.samples = BitVec.allOnes 64 || j.nextJ - jbStart j.block < j.samples.toNat then some (j.nextJ, false) else none

/-- The buffer of a sample is in hand, or a slot can be taken for it. -/
def jobCan (p : Part) (j : Job) : Bool :=
  match jobNext j with
  | some (k, _) => (j.buffers.any fun u => u.num == bufferOf j.block k) || (nextSlot p j).isSome
  | none => false

/-- A job that has a sample but no slot for its buffer waits (STATE 2). -/
def jobWaits (p : Part) (j : Job) : Bool := (jobNext j).isSome && !jobCan p j

/-- Job slots in round-robin order after the last one served (R427). -/
def jobTurns (p : Part) : List Nat := (List.range 4).map fun i => (p.lastJob + 1 + i) % 4

/-! ## SAMPLE_DISPATCH (R421, R423, R427) -/

/-- A read of another node's RM pages (R315): pieces whose page has a copy are served from its frame, the others are counted. -/
def ingestFar (n a len : Nat) (far : HostRead) (s : State) : Option Bytes × State :=
  (rangePieces a len).foldl (fun (x : Option Bytes × State) p =>
    let l := gLocal a + p.1
    match rpcFrame (getPart x.2 n) (rpcPage (gNode a) l), far with
    | some f, _ => let r := rpcServe n 0 0 f l p.2 x.2; (x.1.map fun b => b ++ r.1, r.2)
    | none, .data b => (x.1.map fun o => o ++ sliceB b p.1 p.2, rpcWant n (gNode a) l x.2)
    | none, .failed => (none, rpcWant n (gNode a) l x.2)) (some [], s)

/-- Bytes of a range: of this device's memory, or what the other node has answered; none when the read is refused or fails (R434). -/
def ingestRead (n a len : Nat) (far : HostRead) (s : State) : Option Bytes × State :=
  if gNode a = nodeId s then rangeRead n 0 a (rangePieces a len) s
  else if gRm a && !gRsv a && !gStash a then ingestFar n a len far s
  else match far with
    | .data b => (some (sliceB b 0 len), s)
    | .failed => (none, s)

/-- A read of another node's memory crosses a degraded or substitute port (R378). -/
def readDegraded (s : State) (a : Nat) : Bool :=
  gNode a != nodeId s && (let f := flowOf (a % 2 ^ 41) (gNode a)
    match destPort s (gNode a) f with
    | some p => portDegraded s p f
    | none => false)

/-- A buffer in hand for a sample's number; its slot is taken when it is new. -/
def takeSlot (n js k : Nat) (s : State) : State :=
  let p := getPart s n
  match p.jobs.get none js with
  | some j =>
    if j.buffers.any fun u => u.num == k then s
    else match nextSlot p j with
      | some m =>
        clearSlot n j.block m (updJob n js (fun j =>
          { j with freeList := j.freeList.filter (fun x => x != m), buffers := j.buffers ++ [{ num := k, slot := m }] }) s)
      | none => s
  | none => s

/-- A sample goes to a pipe: its table entry and its segment are read. -/
def dispatch (n js k : Nat) (j : Job) (x : Nat × Bool) (entry segment : HostRead) (s : State) : State :=
  let s := takeSlot n js (bufferOf j.block x.1) s
  let ea := jbTable j.block + 32 * (sampleOf j.block x.1).2
  let e := ingestRead n ea 32 entry s
  let src := (e.1.map fun b => leAt b 0 8).getD 0
  let len := 188 * (e.1.map fun b => leAt b 8 4).getD 0
  let g := if e.1.isSome then ingestRead n src len segment e.2 else (none, e.2)
  let deg := readDegraded s ea || (e.1.isSome && readDegraded s src)
  let s := g.2
  let t : Task := { part := n, jslot := js, j := x.1, redone := x.2, since := s.clock, entry := e.1, segment := g.1 }
  let s := updPipe k (fun q => { q with task := some t }) s
  let s := updJob n js (fun j =>
    { j with redo := j.redo.filter fun i => i != x.1, nextJ := if x.2 then j.nextJ else j.nextJ + 1, degraded := j.degraded || deg
             waitingSlot := false }) s
  updPart n (fun p => { p with lastJob := js }) s

/-- SAMPLE_DISPATCH: the next sample of a partition's running jobs, in turn, goes to its lowest free pipe. `entry` and `segment` are
what another node answers. -/
def execSampleDispatch (dt part : Nat) (entry segment : HostRead) (s : State) : Result :=
  let s' := pass dt s
  let p := getPart s' part
  let ready (js : Nat) : Bool := (p.jobs.get none js).any fun j => jobRuns s' j && jobCan p j
  let s' := (List.range 4).foldl (fun s js =>
    if (p.jobs.get none js).any fun j => jobRuns s' j && jobWaits p j then updJob part js (fun j => { j with waitingSlot := true }) s
    else s) s'
  if !isStarted s part then .next s
  else match (List.range 64).find? (pipeFree s' part), (jobTurns p).find? ready with
    | some k, some js =>
      match (getPart s' part).jobs.get none js with
      | some j =>
        match jobNext j with
        | some x => .next (dispatch part js k j x entry segment s')
        | none => .next s'
      | none => .next s'
    | _, _ => .next s'

/-! ## The end of a sample (R424 to R432) -/

/-- One block goes into its slot of the tensor. -/
def putBlock (n : Nat) (h : Shape) (a g : Nat) (b : NBlock) (s : State) : State :=
  let w := fmtWidth h.fmt
  let m := parcelBlocks w
  let l := h.layout
  ingPut n (a + l.2.1 + g) [BitVec.ofNat 8 b.scale]
    (ingPut n (a + l.1 + 256 * (g / m) + blockBytes w * (g % m)) (packBlock w b.codes) s)

/-- One token row is written: narrowed block by block, or as BF16. The counts are zero and saturated blocks. -/
def putToken (n : Nat) (h : Shape) (a : Nat) (x : Nat × Nat × State) (row : Nat × List Num) : Nat × Nat × State :=
  if h.fmt = fBF16 then
    let d := (row.2.map fun v => leBytes 2 (writeNum fBF16 h.prop v).code).flatten
    (x.1, x.2.1, ingPut n (a + h.layout.1 + h.pitch * row.1) d x.2.2)
  else
    let c : CopyPar := { fmt := h.fmt, prop := h.prop, ts := h.ts, rot := false, seed := 0, k := 0, tau := 0x41000000 }
    (List.range h.blocks).foldl (fun (x : Nat × Nat × State) j =>
      let b := narrowBlock c (recipScale h.ts) j 6 (runBlock row.2 j)
      (x.1 + b2n (b.scale == 0), x.2.1 + b2n b.sat, putBlock n h a (row.1 * h.pitch + j) b x.2.2)) x

/-- The frames of a sample are written at its place. -/
def putFrames (n : Nat) (h : Shape) (a place : Nat) (l : List Picture) (s : State) : Nat × Nat × State :=
  ((List.range l.length).zip l).foldl (fun (x : Nat × Nat × State) f =>
    let rows := pictureTokens h (processPicture h f.2)
    let base := (place * h.frames + f.1) * h.frameTokens
    ((List.range rows.length).zip rows).foldl (fun x r => putToken n h a x (base + r.1, r.2)) x) (0, 0, s)

/-- The 64-byte sample record (R432). -/
def sampleRecord (j s epoch clip : Nat) (redone : Bool) (x : Sample) : Bytes :=
  leBytes 8 j ++ leBytes 8 s ++ leBytes 4 epoch ++ leBytes 4 clip ++ leBytes 1 x.status ++
    leBytes 1 (b2n x.short + 2 * b2n x.trunc + 4 * b2n x.early + 8 * b2n redone) ++ leBytes 1 x.frames.length ++ [0] ++
    leBytes 8 (wrapInt 64 x.pts0) ++ leBytes 4 x.audio.length ++ leBytes 4 x.decoded ++ zeros 20

/-- The status of a failed sample. -/
def statusOfNum : Nat → Status
  | 0x61 => .remoteUnreachable | 0x71 => .ingestUnsupported | _ => .ingestStreamError

/-- The bit of ING_PEVENT of a failed sample. -/
def failBit (st : Nat) : Nat := if st = 0x71 then 1 else if st = 0x61 then 2 else 0

/-- A sample has ended: its record, its frames and its audio are written at its place; the pipe is free. -/
def finishSample (k : Nat) (t : Task) (x : Sample) (s : State) : State :=
  let s := updPipe k (fun q => { q with task := none }) s
  match (getPart s t.part).jobs.get none t.jslot with
  | none => s
  | some j =>
    let b := j.block
    let h := shapeOf b
    match j.buffers.find? fun u => u.num == bufferOf b t.j with
    | none => s
    | some u =>
      let a := slotAddr b u.slot
      let place := placeOf b t.j
      let es := sampleOf b t.j
      let clip := (t.entry.map fun e => leAt e 24 4).getD 0
      let r := putFrames t.part h a place x.frames s
      let s := ingPut t.part (a + 64 + 64 * place) (sampleRecord t.j es.2 es.1 clip t.redone x) r.2.2
      let s := if x.audio.isEmpty then s else ingPut t.part (a + h.layout.2.2.2.1 + h.audio * place) x.audio s
      let s := updJob t.part t.jslot (fun j => { j with buffers := j.buffers.map fun v =>
        if v.num = u.num then
          { v with filled := v.filled + 1, failed := v.failed + b2n (x.status != 0), zero := v.zero + r.1, sat := v.sat + r.2.1
                   firstFail := if x.status = 0 then v.firstFail else v.firstFail <|> some (statusOfNum x.status) }
        else v }) s
      if x.status = 0 then (if x.short then ingEvent t.part 3 t.jslot s else s)
      else ingEvent t.part (failBit x.status) t.jslot
        (updPart t.part (fun p => { p with jobFailed := Tbl.upd 0 p.jobFailed t.jslot fun n => satTo 24 (n + 1) }) s)

/-- What a pipe makes of its task: a refused read fails it (R423, R434). -/
def taskSample (s : State) (t : Task) : Sample :=
  match (getPart s t.part).jobs.get none t.jslot, t.entry, t.segment with
  | some j, some e, some g => takeSample (shapeOf j.block) (jbDelta j.block) e g
  | _, _, _ => { status := 0x61 }

/-- SAMPLE_DONE: a pipe ends its sample; not while the pipe is under test. -/
def execSampleDone (pipe : Nat) (s : State) : Result :=
  let q := getPipe s pipe
  match q.task with
  | some t => if q.testing.isNone then .next (finishSample pipe t (taskSample s t) s) else .next s
  | none => .next s

/-- SAMPLE_WATCHDOG: a sample has run longer than 4 times its expected time plus 10 ms: once it is decoded again, on another pipe; the
second time it fails. The pipe is reset and tested (R428). -/
def execSampleWatchdog (dt pipe : Nat) (s : State) : Result :=
  let s' := pass dt s
  match (getPipe s' pipe).task with
  | some t =>
    if t.since + 4 * (taskSample s' t).expected + 10000000 < s'.clock then
      let s1 := pipeEvent 2 (physOf s' pipe) s'
      let s2 := if t.redone then finishSample pipe t { status := 0x70 } s1
        else updJob t.part t.jslot (fun j => { j with redo := j.redo ++ [t.j] }) s1
      .next (updPipe pipe (fun q => { q with task := none, testing := some s'.clock }) s2)
    else .next s
  | none => .next s

/-! ## BUFFER_FILLED (R432 to R434) -/

/-- Samples that a buffer holds. -/
def bufferCount (j : Job) (num : Nat) : Nat :=
  if j.samples = BitVec.allOnes 64 then jbPlaces j.block
  else min (jbPlaces j.block) (j.samples.toNat - num * jbPlaces j.block)

/-- The CRC of every parcel of a slot is formed and written (R62). -/
def slotCrcs (n : Nat) (h : Shape) (a : Nat) (s : State) : State :=
  let m := parcelBlocks (fmtWidth h.fmt)
  let l := h.layout
  let dt := memGet n 0 0 (a + l.1) (256 * h.parcels) s
  let sc := memGet n 0 0 (a + l.2.1) (m * h.parcels) dt.2
  ingPut n (a + l.2.2.1) ((List.range h.parcels).map fun p =>
    leBytes 4 (crc32c (sliceB dt.1 (256 * p) 256 ++ sliceB sc.1 (m * p) m)).toNat).flatten sc.2

/-- The buffer header (R432). -/
def bufferHeader (s : State) (h : Shape) (u : Buffer) : Bytes :=
  leBytes 8 u.num ++ leBytes 4 u.filled ++ leBytes 4 u.failed ++ leBytes 4 u.zero ++ leBytes 4 u.sat ++ leBytes 6 (now48 s).toNat ++
    zeros 2 ++ leBytes 8 h.rows ++ leBytes 4 h.pitch ++ leBytes 1 h.fmt ++ zeros 19

/-- The status of the `k`th failed sample of a buffer, in the order of places. -/
def nthFailure (s : State) (a places k : Nat) : Status :=
  let l := ((List.range places).map fun p => leNat (devRd s (a + 64 + 64 * p + 24) 1)).filter fun st => st != 0
  statusOfNum (l.getD k 0x70)

/-- A job ends: its descriptor too; samples in pipes and unsignalled buffers are abandoned. -/
def jobEnds (n js : Nat) (j : Job) (st : Status) (s : State) : State :=
  let s := s.pipes.foldl (fun s e =>
    if e.2.task.any fun t => t.part == n && t.jslot == js then updPipe e.1 (fun q => { q with task := none }) s else s) s
  let s := match (getPart s n).jobs.get none js with
    | some k => spoilSlots k s
    | none => s
  let s := updPart n (fun p =>
    { p with jobs := Tbl.set none p.jobs js none, jobEnd := Tbl.set false p.jobEnd js (st != .ok) }) s
  let s := if st = .ok then s else ingEvent n 4 js s
  finishDesc j.id st (if j.degraded then noteDesc j.id .linkDegraded s else s)

/-- BUFFER_FILLED: the oldest unsignalled buffer of a job is full: checksums, header, status fields, queue entry, FILL signal; then
the job may end. -/
def execBufferFilled (part slot : Nat) (s : State) : Result :=
  match (getPart s part).jobs.get none slot with
  | none => .next s
  | some j =>
    match j.buffers.find? fun u => u.num == j.signalled with
    | none => .next s
    | some u =>
      if u.filled < bufferCount j u.num || !isStarted s part then .next s
      else
        let b := j.block
        let h := shapeOf b
        let a := slotAddr b u.slot
        let s := if h.fmt = fBF16 then s else slotCrcs part h a s
        let s := ingPut part a (bufferHeader s h u) s
        let next := jbStart b + u.num * jbPlaces b + bufferCount j u.num
        let failed := j.failedSig + u.failed
        let s := ingPut part (j.blockAddr + 208)
          (leBytes 8 next ++ leBytes 8 (u.num + 1) ++ leBytes 4 failed ++ leBytes 4 (sampleOf b next).1) s
        let s := ingPut part (jbQueue b + 8 * (u.num % jbSlots b)) (leBytes 8 (u.slot + 65536 * (u.num % 2 ^ 48))) s
        let s := postSignal { part := part, index := jbFill b, inc := 1, origin := .ingest part slot, source := 4097 } s
        let s := updJob part slot (fun j =>
          { j with signalled := j.signalled + 1, failedSig := failed
                   buffers := j.buffers.map fun v => if v.num = u.num then { v with queued := true } else v }) s
        let s := leaveIdle s
        let lim := jbErrLimit b
        if lim != 0 && lim ≤ failed then .next (jobEnds part slot j (nthFailure s a (jbPlaces b) (lim - 1 - j.failedSig)) s)
        else if j.samples != BitVec.allOnes 64 && j.samples.toNat ≤ u.num * jbPlaces b + bufferCount j u.num then
          .next (jobEnds part slot j .ok s)
        else .next s

end Sys2Proof.Machine
end

