-- ==== Sys2Proof/Machine/Management.lean ====
section
/-!
DEFINITION. Report frames (R508 to R511), the management port (R512), MCTP, PLDM and firmware update (R513 to R515), Ferryman's
commands (R516, R517), PTP (R518), and the e-fuse writes (R519).
-/
namespace Sys2Proof.Machine

/-! ## Reports (R509, R510) -/

/-- The 32 bytes of an event record (R284). -/
def eventBytes (e : Event) : Bytes :=
  leBytes 6 e.time.toNat ++ leBytes 1 e.kind ++ leBytes 1 e.status ++ leBytes 8 e.step.toNat ++ leBytes 1 e.part ++
    leBytes 1 e.attempt ++ leBytes 2 e.core ++ leBytes 2 e.site ++ leBytes 2 e.layer ++ leBytes 8 e.detail.toNat

/-- NODE of a datagram: GZL_NODE, 0xFFFF while ASSIGNED is clear. -/
def reportNode (s : State) : Nat := if bitOf (regN s (bGzl + 4)) 16 then nodeId s else 0xFFFF

/-- A datagram's contents: the header of R509, whose CRC covers the header and what follows, then the body. -/
def datagramBytes (type count first : Nat) (body : Bytes) (s : State) : Bytes :=
  let head := leBytes 4 0x464D4E31 ++ leBytes 2 1 ++ leBytes 1 type ++ leBytes 1 count ++ leBytes 8 Config.serial.toNat ++
    leBytes 8 first ++ leBytes 2 (reportNode s) ++ leBytes 2 s.fer.boots.toNat
  head ++ leBytes 4 (crc32c (head ++ body)).toNat ++ body

/-- Ferryman may use the management network: STRAP_MGMT is 1, SET_NET has named a collector (R512, R544). -/
def reportsOn (s : State) : Bool := fmnRuns s && bitOf s.brd.straps.toNat 5 && !s.fer.net.collectors.isEmpty

/-- Two addresses agree in their first bits. -/
def samePrefix (n : Nat) (a b : Bytes) : Bool :=
  (List.range n).all fun i => bitOf (a.getD (i / 8) 0).toNat (7 - i % 8) == bitOf (b.getD (i / 8) 0).toNat (7 - i % 8)

/-- The next hop to a collector of an IP version (R517); none without an address of that version. -/
def nextHop (net : Net) (version : Nat) (addr : Bytes) : Option Bytes :=
  if version = 4 then
    if net.ipv4Valid then some (if samePrefix net.ipv4Prefix net.ipv4 addr then addr else net.ipv4Gw) else none
  else if net.ipv6Valid then some (if samePrefix net.ipv6Prefix net.ipv6 addr then addr else net.ipv6Gw)
  else some addr

/-- A datagram goes to one collector. -/
def sendTo (c : Nat × Bytes) (data : Bytes) (s : State) : State :=
  match nextHop s.fer.net c.1 c.2 with
  | some via => emit (.datagram c.2 via s.fer.net.port data) s
  | none => s

/-- A report goes to every collector. -/
def sendReport (data : Bytes) (s : State) : State := s.fer.net.collectors.foldl (fun s c => sendTo c data s) s

/-- Records still to be sent, oldest first. -/
def unsent (s : State) : List Event := (s.fer.events.filter fun e => decide (s.fer.sendFrom.toNat ≤ e.seq.toNat)).reverse

/-- Records at the limit of 100 of their kind this second are passed over and counted (R510). -/
def passOver : List Event → Ferry → List Event × Ferry
  | [], f => ([], f)
  | e :: t, f =>
    if 100 ≤ f.perKind.get 0 e.kind then passOver t { f with suppressed := Tbl.upd 0 f.suppressed e.kind fun n => n + 1, sendFrom := e.seq + 1 }
    else (e :: t, f)

/-- The records of one datagram: at most 40 in a row, each within its kind's limit. -/
def takeRecords : Nat → List Event → Ferry → List Event × Ferry
  | 0, _, f => ([], f)
  | _ + 1, [], f => ([], f)
  | n + 1, e :: t, f =>
    if 100 ≤ f.perKind.get 0 e.kind then ([], f)
    else
      let r := takeRecords n t { f with perKind := Tbl.upd 0 f.perKind e.kind fun n => n + 1, sendFrom := e.seq + 1 }
      (e :: r.1, r.2)

/-- REPORT_DATAGRAM: the next records leave, in sequence order. -/
def execReportDatagram (dt : Nat) (s : State) : Result :=
  let s' := pass dt s
  if reportsOn s && bitOf (regN s bFmn) 0 && !(unsent s).isEmpty then
    let p := passOver (unsent s) s'.fer
    let r := takeRecords 40 p.1 p.2
    let s := { s' with fer := r.2 }
    match r.1 with
    | [] => .next s
    | e :: _ => .next (sendReport (datagramBytes 0 r.1.length e.seq.toNat ((r.1.map eventBytes).flatten) s) s)
  else .next s

/-- RATE_LIMIT_SECOND: a second ends: a SUPPRESSED record for each kind that exceeded its limit. -/
def execRateLimitSecond (dt : Nat) (s : State) : Result :=
  let s' := pass dt s
  if fmnRuns s && s.fer.secondAt + 1000000000 ≤ s'.clock then
    .next (s.fer.suppressed.foldl (fun s e => postEvent { kind := 0x25, detail := packB [(1, e.1), (4, e.2)] } s)
      { s' with fer := { s'.fer with perKind := [], suppressed := [], secondAt := s'.clock } })
  else .next s

/-- PRT_STATE (R494). -/
def prtState (s : State) : Nat :=
  (partNums.map fun n =>
    (match (getPart s n).st with
      | .free => 0 | .configured => 1 | .started => 2 | .stopping => 3) * 4 ^ (n - 1)).sum

/-- Hottest filtered junction and hottest stack, in °C (R524). -/
def hottest (s : State) (lo hi : Nat) : Nat :=
  ((s.fer.sensors.filter fun e => decide (lo ≤ e.1) && decide (e.1 < hi)).map fun e => e.2.samples.sum / max 1 e.2.samples.length).foldl max 0

/-- SOURCE and PORT of GZL_TIME_STATUS (R388): a port, PTP, or free-running. -/
def sourceCode (s : State) : Nat × Nat :=
  match timeSource s with
  | some p => (2, p)
  | none => (if bitOf (regN s bGzl) 8 && s.fer.ptpAt.isSome then 1 else 0, 0)

/-- The 64-byte status block of R510. -/
def statusBlock (s : State) : Bytes :=
  let up := ((List.range 8).map fun p => b2n (portUp s p) * 2 ^ p).sum
  sliceB (leBytes 1 (powerNum s.fer.power) ++ leBytes 2 (prtState s) ++ leBytes 1 s.fer.service.toNat ++ leBytes 2 s.fer.mhz ++
    leBytes 2 (s.fer.watts / 1000000) ++ leBytes 1 (hottest s 0 64) ++ leBytes 1 (hottest s 76 96) ++ leBytes 2 (s.fer.vin / 10) ++
    leBytes 8 s.now.toNat ++ leBytes 1 (sourceCode s).1 ++ leBytes 1 up) 0 64

/-- HEARTBEAT_S in ns; 0 is read as 1 s. -/
def heartbeatNs (s : State) : Nat := max 1 (bitsOf (regN s bFmn) 8 8) * 1000000000

/-- HEARTBEAT_DATAGRAM. -/
def execHeartbeatDatagram (dt : Nat) (s : State) : Result :=
  let s' := pass dt s
  if reportsOn s && bitOf (regN s bFmn) 1 && s.fer.heartbeatAt + heartbeatNs s ≤ s'.clock then
    let s := { s' with fer := { s'.fer with heartbeatAt := s'.clock } }
    .next (sendReport (datagramBytes 1 0 s.fer.evSeq.toNat (statusBlock s) s) s)
  else .next s

/-! ## Ferryman commands (R516, R517) -/

/-- What a command answers: result 0 success, 2 REFUSED, 3 INVALID; reply body; and for a UDP reply the count and first
sequence number of its header. -/
structure Answer where
  result : Nat := 0
  body : Bytes := []
  count : Nat := 0
  first : Nat := 0

/-- A command does not hold up to R517: it changes nothing. -/
abbrev invalid : Answer := { result := 3 }

/-- GET_STATUS. -/
def cmdGetStatus (b : Bytes) (s : State) : Answer × State :=
  if b.length = 0 then ({ body := statusBlock s, first := s.fer.evSeq.toNat }, s) else (invalid, s)

/-- GET_EVENTS: the records still stored from a sequence number onward. -/
def cmdGetEvents (b : Bytes) (s : State) : Answer × State :=
  let n := leAt b 8 1
  if b.length != 16 || n < 1 || 40 < n || !zeroAt b [(9, 7)] then (invalid, s)
  else
    let l := ((s.fer.events.filter fun e => decide (leAt b 0 8 ≤ e.seq.toNat)).reverse).take n
    let first := ((l.head?).map fun e => e.seq.toNat).getD s.fer.evSeq.toNat
    ({ body := leBytes 8 first ++ leBytes 1 l.length ++ zeros 7 ++ (l.map eventBytes).flatten, count := l.length, first := first }, s)

/-- One slot of the journal SRAM, byte 28 naming the function (R511). -/
def journalSlot (s : State) (i : Nat) : Bytes := ((s.journal.get none i).map fun e => entryBytes e e.fn false).getD (zeros 32)

/-- GET_JOURNAL: slots of the journal SRAM, not past the last one. -/
def cmdGetJournal (b : Bytes) (s : State) : Answer × State :=
  let lo := leAt b 0 2
  let n := leAt b 2 1
  if b.length != 8 || 4095 < lo || n < 1 || 40 < n || !zeroAt b [(3, 5)] then (invalid, s)
  else
    let k := min n (4096 - lo)
    ({ body := leBytes 2 lo ++ leBytes 1 k ++ zeros 5 ++ ((List.range k).map fun i => journalSlot s (lo + i)).flatten
       count := k, first := s.fer.evSeq.toNat }, s)

/-- SET_POWER: by R506; REFUSED when R34 refuses it at once. -/
def cmdSetPower (b : Bytes) (s : State) : Answer × State :=
  let want : Power := match leAt b 0 1 with
    | 1 => .active | 2 => .deep | _ => .standby
  if b.length != 4 || leAt b 0 1 < 1 || 3 < leAt b 0 1 || !zeroAt b [(1, 3)] then (invalid, s)
  else
    let no := !powerWaits s && s.fer.powerQ.isEmpty && want != s.fer.power && powerRefused s want
    ({ result := if no then 2 else 0 }, powerRequest want 1 s)

/-- RESET: as PRT_RESET. -/
def cmdReset (b : Bytes) (s : State) : Answer × State :=
  let k := leAt b 0 1
  let n := leAt b 1 1
  if b.length != 4 || 2 < k || !zeroAt b [(2, 2)] || (k = 0 && (n < 1 || 8 < n)) || (k != 0 && n != 0) then (invalid, s)
  else
    let v : Nat := if k = 0 then 2 ^ (n - 1) else if k = 1 then 0x100 else 0x200
    ({}, prtReset (BitVec.ofNat 32 (0xA5000000 + v)) s)

/-- PWR_LIMIT clamped as FMN_POWER states. -/
def clampLimit (w : Nat) : Nat := max 1500 (min 3300 w)

/-- PWR_LIMIT set, clamped. -/
def putLimit (w : Nat) (s : State) : State := { s with fer := { s.fer with limit := clampLimit w } }

/-- SET_LIMIT. -/
def cmdSetLimit (b : Bytes) (s : State) : Answer × State :=
  if b.length != 4 || !zeroAt b [(2, 2)] then (invalid, s)
  else
    ({ body := leBytes 2 (clampLimit (leAt b 0 2)) }, putLimit (leAt b 0 2) s)

/-- The collector record at an offset of the SET_NET body: kind and address. -/
def collectorAt (b : Bytes) (o : Nat) : Nat × Bytes := (leAt b o 1, sliceB b (o + 4) (if leAt b o 1 = 4 then 4 else 16))

/-- SET_NET replaces every network setting at once. -/
def cmdSetNet (b : Bytes) (s : State) : Answer × State :=
  let offs := [64, 88, 112, 136]
  let bad (o : Nat) : Bool := ! [0, 4, 6].contains (leAt b o 1) || !zeroAt b [(o + 1, 3), (o + 20, 4)] || (leAt b o 1 == 4 && !zeroAt b [(o + 8, 12)])
  if b.length != 160 || 32 < leAt b 4 1 || 4 ≤ leAt b 5 1 || !zeroAt b [(12, 4), (33, 15)] || 128 < leAt b 32 1 || offs.any bad then (invalid, s)
  else
    let net : Net :=
      { ipv4 := sliceB b 0 4, ipv4Prefix := leAt b 4 1, ipv4Valid := bitOf (leAt b 5 1) 0, ipv4Gw := sliceB b 8 4
        ipv6 := sliceB b 16 16, ipv6Prefix := leAt b 32 1, ipv6Valid := bitOf (leAt b 5 1) 1, ipv6Gw := sliceB b 48 16
        port := if leAt b 6 2 = 0 then 20470 else leAt b 6 2
        collectors := (offs.map (collectorAt b)).filter fun c => c.1 != 0 }
    ({}, { s with fer := { s.fer with net := net } })

/-- SET_PTP. -/
def cmdSetPtp (b : Bytes) (s : State) : Answer × State :=
  if b.length != 4 || !zeroAt b [(2, 2)] || !(leAt b 1 1 == 4 || leAt b 1 1 == 6) then (invalid, s)
  else ({}, { s with fer := { s.fer with ptpDomain := leAt b 0 1, ptpV6 := leAt b 1 1 == 6 } })

/-- PREPARE_SWAP (R522). -/
def cmdPrepareSwap (b : Bytes) (s : State) : Answer × State :=
  if b.length != 0 then (invalid, s)
  else if partNums.any fun n => (getPart s n).st == .started || (getPart s n).st == .stopping then ({ result := 2 }, s)
  else if s.fer.power = .standby then ({}, { s with fer := { s.fer with swapReady := true } })
  else ({}, powerRequest .standby 3 { s with fer := { s.fer with swapWanted := true } })

/-- The commands by code; another code is INVALID. -/
def runCommand (code : Nat) (b : Bytes) (s : State) : Answer × State :=
  match code with
  | 1 => cmdGetStatus b s
  | 2 => cmdGetEvents b s
  | 3 => cmdGetJournal b s
  | 4 => cmdSetPower b s
  | 5 => cmdReset b s
  | 6 => cmdSetLimit b s
  | 7 => cmdSetNet b s
  | 8 => cmdSetPtp b s
  | 9 => cmdPrepareSwap b s
  | _ => (invalid, s)

/-- Bytes placed in the mailbox's data registers from byte 0 (R524). -/
def mailboxPut (b : Bytes) (s : State) : State :=
  (List.range ((b.length + 3) / 4)).foldl (fun s i =>
    { s with fer := { s.fer with mailbox := Tbl.set 0 s.fer.mailbox i (BitVec.ofNat 32 (leAt b (4 * i) 4)) } }) s

/-- The mailbox's first bytes. -/
def mailboxGet (s : State) (n : Nat) : Bytes := sliceB (((List.range ((n + 3) / 4)).map fun i => leBytes 4 (s.fer.mailbox.get 0 i).toNat).flatten) 0 n

/-- A command ends in the mailbox: its reply replaces the body, RESULT and LEN report it. -/
def mailboxDone (code : Nat) (a : Answer) (s : State) : State :=
  let s := setReg (bFmn + 0x40) (BitVec.ofNat 32 (code + 2 ^ 8 * a.result + 2 ^ 18 * a.body.length)) s
  emit (.mgmtReply .mailbox code a.result a.body) (mailboxPut a.body s)

/-- PF0 reaches the FMN registers. -/
def pf0Reach (s : State) : Bool := barOpen s && hostReach s 0

/-- A command arrives on a path (R511, R516). Over UDP only queries of a configured collector are answered, with TYPE 2. -/
def command (code : Nat) (path : MgmtPath) (body : Bytes) (s : State) : State :=
  if !fmnRuns s then s
  else match path with
    | .mctp =>
      let r := runCommand code body s
      emit (.mgmtReply path code r.1.result r.1.body) r.2
    | .mailbox =>
      if pf0Reach s then
        let s := mailboxPut body (barAccess s)
        let r := runCommand code body s
        mailboxDone code r.1 r.2
      else s
    | .udp a =>
      if reportsOn s && code ≤ 3 then
        match s.fer.net.collectors.find? fun c => c.2 == a with
        | some c =>
          let r := runCommand code body s
          let reply := leBytes 1 code ++ leBytes 1 r.1.result ++ leBytes 2 r.1.body.length ++ r.1.body
          sendTo c (datagramBytes 2 r.1.count (if r.1.result = 0 then r.1.first else s.fer.evSeq.toNat) reply s) r.2
        | none => s
      else s

/-- GET_STATUS. -/
def execGetStatus (path : MgmtPath) (body : Bytes) (s : State) : Result := .next (command 1 path body s)
/-- GET_EVENTS. -/
def execGetEvents (path : MgmtPath) (body : Bytes) (s : State) : Result := .next (command 2 path body s)
/-- GET_JOURNAL. -/
def execGetJournal (path : MgmtPath) (body : Bytes) (s : State) : Result := .next (command 3 path body s)
/-- SET_POWER. -/
def execSetPower (path : MgmtPath) (body : Bytes) (s : State) : Result := .next (command 4 path body s)
/-- RESET. -/
def execReset (path : MgmtPath) (body : Bytes) (s : State) : Result := .next (command 5 path body s)
/-- SET_LIMIT. -/
def execSetLimit (path : MgmtPath) (body : Bytes) (s : State) : Result := .next (command 6 path body s)
/-- SET_NET. -/
def execSetNet (path : MgmtPath) (body : Bytes) (s : State) : Result := .next (command 7 path body s)
/-- SET_PTP. -/
def execSetPtp (path : MgmtPath) (body : Bytes) (s : State) : Result := .next (command 8 path body s)
/-- PREPARE_SWAP. -/
def execPrepareSwap (path : MgmtPath) (body : Bytes) (s : State) : Result := .next (command 9 path body s)

/-! ## The management port (R512) -/

/-- The IPv6 link-local address formed from the MAC address: the modified EUI-64 of it (PRESUMED, log entry 45). -/
def linkLocal : Bytes :=
  let m (i : Nat) : Byte := Config.mac.getD i 0
  [0xFE, 0x80] ++ zeros 6 ++ [m 0 ^^^ 2, m 1, m 2, 0xFF, 0xFE, m 3, m 4, m 5]

/-- Addresses that Ferryman answers for. -/
def ownV4 (s : State) (a : Bytes) : Bool := s.fer.net.ipv4Valid && a == s.fer.net.ipv4
def ownV6 (s : State) (a : Bytes) : Bool := a == linkLocal || (s.fer.net.ipv6Valid && a == s.fer.net.ipv6)

/-- ARP_REQUEST for one of its addresses. -/
def execArpRequest (target : Bytes) (s : State) : Result :=
  if reportsOn s && ownV4 s target then .next (emit (.netFrame 0 (target ++ sliceB Config.mac 0 6)) s) else .next s

/-- NEIGHBOUR_SOLICITATION for one of its addresses. -/
def execNeighbourSolicitation (target : Bytes) (s : State) : Result :=
  if reportsOn s && ownV6 s target then .next (emit (.netFrame 1 (target ++ sliceB Config.mac 0 6)) s) else .next s

/-- ICMP_ECHO to one of its addresses. -/
def execIcmpEcho (target data : Bytes) (s : State) : Result :=
  if reportsOn s && (ownV4 s target || ownV6 s target) then .next (emit (.netFrame 2 data) s) else .next s

/-! ## MCTP and PLDM (R513 to R515) -/

/-- What the sensors of R514 read: temperatures, VIN, VAUX, P, clock, power state, partition states. -/
def sensorFacts (s : State) : Bytes :=
  ((List.range 96).map fun i => leBytes 1 (hottest s i (i + 1))).flatten ++ leBytes 2 s.fer.vin ++ leBytes 2 s.fer.vaux ++
    leBytes 8 s.fer.powerNow ++ leBytes 2 s.fer.mhz ++ leBytes 1 (powerNum s.fer.power) ++ leBytes 2 (prtState s)

/-- MCTP_CONTROL: served in recovery mode too (R526). -/
def execMctpControl (req : Bytes) (s : State) : Result :=
  if s.brd.vauxOn then
    let s := match Config.mctpAssigns req with
      | some e => { s with fer := { s.fer with mctpEid := e } }
      | none => s
    .next (emit (.mctp 0 (Config.standardReply 0 req (leBytes 1 (0x30 + bitsOf s.brd.straps.toNat 0 3) ++ leBytes 1 s.fer.mctpEid))) s)
  else .next s

/-- PLDM_DISCOVERY. -/
def execPldmDiscovery (req : Bytes) (s : State) : Result :=
  if fmnRuns s then .next (emit (.mctp 1 (Config.standardReply 1 req [])) s) else .next s

/-- PLDM_PLATFORM: reading the last waiting event releases SMB_ALERT_N (R514). -/
def execPldmPlatform (req : Bytes) (readsEvent : Bool) (s : State) : Result :=
  if fmnRuns s then
    let s := if readsEvent then
        { s with fer := { s.fer with pldmPending := s.fer.pldmPending - 1 }
                 brd := { s.brd with alert := decide (1 < s.fer.pldmPending) } }
      else s
    .next (emit (.mctp 1 (Config.standardReply 2 req (sensorFacts s))) s)
  else .next s

/-- A change of a component's PLDM update state is recorded (R515). The numbers are DSP0267's (PRESUMED, log entry 46). -/
def updateState (c st : Nat) (s : State) : State :=
  if (s.fer.updates.get {} c).state = st then s
  else postEvent { kind := 0x26, detail := packB [(1, c), (1, st)] }
    { s with fer := { s.fer with updates := Tbl.upd {} s.fer.updates c fun u => { u with state := st } } }

/-- The slot that does not run (R526). -/
def otherSlot (s : State) (c : Nat) : Nat := 1 - s.sec.slots.get 0 c

/-- An image that has not wholly come does not verify. -/
def slotImage (b : Bytes) : FwImage :=
  let i := parseImage b
  { i with rsvZero := i.rsvZero && decide (128 + leAt b 16 4 + 29792 ≤ b.length) }

/-- PLDM_FIRMWARE_UPDATE: image bytes go into the slot that does not run; at VerifyComplete the image is accepted when it verifies. -/
def execPldmFirmwareUpdate (component : Nat) (verifyComplete : Bool) (data : Bytes) (s : State) : Result :=
  if !s.brd.vauxOn || 3 ≤ component then .next s
  else
    let u := s.fer.updates.get {} component
    let image := (if u.state = 3 then u.image else []) ++ data
    let k := 2 * component + otherSlot s component
    let s := { s with
      sec := { s.sec with flash := Tbl.set { component := component } s.sec.flash k (slotImage image) }
      fer := { s.fer with updates := Tbl.upd {} s.fer.updates component fun u => { u with image := image, verified := false } } }
    let s := updateState component 3 s
    let s := if verifyComplete then
        let ok := imageOk s component (otherSlot s component)
        updateState component (if ok then 5 else 0) (updateState component 4
          { s with fer := { s.fer with updates := Tbl.upd {} s.fer.updates component fun u => { u with image := [], verified := ok } } })
      else s
    .next (emit (.mctp 1 (Config.standardReply 5 data (leBytes 1 component ++ leBytes 1 (s.fer.updates.get {} component).state))) s)

/-- FW_ACTIVATE: a new FERRYMAN restarts Ferryman; SYSCTL and BOOT wait for the next reset (R515). -/
def execFwActivate (component : Nat) (s : State) : Result :=
  if s.brd.vauxOn && component < 3 && (s.fer.updates.get {} component).verified then
    let s := updateState component 0 (updateState component 6
      { s with fer := { s.fer with updates := Tbl.upd {} s.fer.updates component fun u => { u with verified := false } } })
    if component = 2 then
      let b := verifyStage 0 2 s
      let s := b.2
      .next (commitSvn 2 { s with sec := { s.sec with ferryRecovery := !b.1 || bitOf s.brd.straps.toNat 6 } })
    else .next s
  else .next s

/-! ## PTP (R518) -/

/-- Fabric time is for PTP to steer: PTP_EN is set, the management port runs, and no port has TIME_OK. -/
def ptpSteers (s : State) : Bool := fmnRuns s && bitOf s.brd.straps.toNat 5 && bitOf (regN s bGzl) 8 && (timeSource s).isNone

/-- PTP_SYNC: a Sync with its origin time t1, received at the hardware timestamp t2. -/
def execPtpSync (dt : Nat) (t1 t2 : DWord) (s : State) : Result :=
  let s := pass dt s
  if ptpSteers s then
    let e : Int := (t1.toNat : Int) + s.fer.ptpDelay - (t2.toNat : Int)
    let s := if s.fer.ptpAt.isNone then timeRecord 2 e s else s
    .next (correctTime e 0 { s with fer := { s.fer with ptpAt := some s.clock, ptpT1 := t1, ptpT2 := t2 } })
  else .next s

/-- PTP_DELAY_RESP: the mean path delay from the last Sync and a delay request sent at t3 and received at t4. -/
def execPtpDelayResp (t3 t4 : DWord) (s : State) : Result :=
  if ptpSteers s && s.fer.ptpAt.isSome then
    let d : Int := (((s.fer.ptpT2.toNat : Int) - s.fer.ptpT1.toNat) + ((t4.toNat : Int) - t3.toNat)) / 2
    .next { s with fer := { s.fer with ptpDelay := d } }
  else .next s

/-- PTP_LOST: no Sync for 3 s. -/
def execPtpLost (dt : Nat) (s : State) : Result :=
  let s' := pass dt s
  match s.fer.ptpAt with
  | some t =>
    if fmnRuns s && t + 3000000000 ≤ s'.clock then
      .next (timeRecord 2 0 (fmnEvent 7 { s' with fer := { s'.fer with ptpAt := none } }))
    else .next s
  | none => .next s

/-! ## E-fuse writes (R519) -/

/-- The result of an e-fuse write is recorded: 0 written, 1 deferred, 2 failed. -/
def fuseRecord (cls result : Nat) (s : State) : State := postEvent { kind := 0x24, detail := packB [(1, cls), (1, result)] } s

/-- Writes are possible: VIN in range, every junction below 100 °C. -/
def fuseable (s : State) : Bool :=
  s.brd.vinOn && vinOk s.fer.vin && s.fer.sensors.all fun e => decide (64 ≤ e.1) || match e.2.samples with
    | t :: _ => decide (t < 100)
    | [] => true

/-- A record of the repair record, as opposed to a bit of a counter or a key's revocation. -/
def inRecord (r : Repair) : Bool := r.cls != 7 && r.cls != 8

/-- FUSE_WRITE: the oldest waiting write begins, or is put off; with the record full a repair goes to the flash. -/
def execFuseWrite (dt : Nat) (s : State) : Result :=
  let s' := pass dt s
  match s.fer.fuseNow, s.fer.fuseQ with
  | none, r :: rest =>
    if !fmnRuns s then .next s
    else if inRecord r && 1024 ≤ s.fer.fuses.length then
      .next (fuseRecord r.cls 0 { s' with fer := { s'.fer with fuseQ := rest, flashRepairs := s'.fer.flashRepairs ++ [r] } })
    else if fuseable s then .next { s' with fer := { s'.fer with fuseQ := rest, fuseNow := some (r, false), fuseAt := s'.clock } }
    else if r.deferred then .next s
    else .next (fuseRecord r.cls 1 (fmnEvent 6 { s' with fer := { s'.fer with fuseQ := { r with deferred := true } :: rest } }))
  | _, _ => .next s

/-- A fuse write has held. -/
def fuseBlown (r : Repair) (s : State) : State :=
  if r.cls = 7 then { s with sec := { s.sec with svn := Tbl.upd 0 s.sec.svn r.what fun n => n + 1 } }
  else if r.cls = 8 then { s with sec := { s.sec with revoked := s.sec.revoked ||| BitVec.ofNat 4 (2 ^ r.what) } }
  else { s with fer := { s.fer with fuses := s.fer.fuses ++ [{ r with deferred := false }] } }

/-- FUSE_WRITE_DONE: 2 ms later its read-back passes or fails; a failing write is made again once. -/
def execFuseWriteDone (dt : Nat) (readBack : Bool) (s : State) : Result :=
  let s' := pass dt s
  match s.fer.fuseNow with
  | some (r, again) =>
    if s.fer.fuseAt + 2000000 ≤ s'.clock then
      let idle := { s' with fer := { s'.fer with fuseNow := none } }
      if readBack then .next (fuseRecord r.cls 0 (fuseBlown r idle))
      else if again then .next (fuseRecord r.cls 2 idle)
      else .next { s' with fer := { s'.fer with fuseNow := some (r, true), fuseAt := s'.clock } }
    else .next s
  | none => .next s

end Sys2Proof.Machine
end

