-- ==== Sys2Proof/Machine/Security.lean ====
section
/-!
DEFINITION. Attestation and sessions over SPDM (R530 to R534), IDE key management (R472, R534), and the debug unlock (R535, R536).
The bodies of SPDM messages are the standard's; the spec gives what they carry.
-/
namespace Sys2Proof.Machine

/-- The security block's fields changed. -/
def updSec (f : Sec → Sec) (s : State) : State := { s with sec := f s.sec }

/-- A function's DOE mailbox is served: the endpoint answers, and the function exists. -/
def doeOpen (s : State) (fn : Nat) : Bool := barOpen s && decide (fn ≤ 8)

/-- Numbers as the facts of a standard's reply. -/
def facts (l : List Nat) : Bytes := l.map fun v => BitVec.ofNat 8 v

/-- A response leaves its mailbox: the last one is kept for CHUNK_GET. -/
def doeSend (fn : Nat) (msg : Bytes) (s : State) : State :=
  emit (.doe fn msg) (updSec (fun x => { x with chunksOut := Tbl.set [] x.chunksOut fn msg }) s)

/-- A response: behind earlier ones of the same mailbox that wait for a signature, or at once (R533). -/
def respond (fn : Nat) (msg : Bytes) (s : State) : State :=
  if s.sec.signQ.any fun q => q.fn == fn then updSec (fun x => { x with signQ := x.signQ ++ [{ fn := fn, slot := none, msg := msg }] }) s
  else doeSend fn msg s

/-- A response that the key of a certificate slot signs waits for the security block (R533). -/
def respondSigned (fn slot : Nat) (msg : Bytes) (s : State) : State :=
  updSec (fun x => { x with signQ := x.signQ ++ [{ fn := fn, slot := some slot, msg := msg }] }) s

/-- The chain of a certificate slot: slot 1's carries the measurements of its boot (R532). -/
def slotChain (s : State) (slot : Nat) : Bytes := Config.certChain slot (if slot = 1 then s.sec.aliasFrom else [])

/-- The private key of a certificate slot. -/
def slotKey (s : State) (slot : Nat) : Bytes := Config.deriveKey slot (if slot = 1 then s.sec.aliasFrom else [])

/-- How far a function's requester has come: 1 GET_VERSION, 2 GET_CAPABILITIES, 3 NEGOTIATE_ALGORITHMS. -/
def spdmStage (s : State) (fn : Nat) : Nat := s.sec.spdm.get 0 fn

/-- A request out of its order is answered with the standard's error. -/
def spdmError (fn : Nat) (s : State) : State := respond fn (Config.standardReply 0x7F [] []) s

/-- A request is answered when the requester has come far enough. -/
def spdmAnswer (fn need : Nat) (answer : State → State) (s : State) : Result :=
  if doeOpen s fn then .next (if need ≤ spdmStage s fn then answer s else spdmError fn s) else .next s

/-- GET_VERSION begins anew: SPDM 1.4. -/
def execGetVersion (fn : Nat) (req : Bytes) (s : State) : Result :=
  spdmAnswer fn 0 (fun s => respond fn (Config.standardReply 0x04 req (facts [0x14])) (updSec (fun x => { x with spdm := Tbl.set 0 x.spdm fn 1 }) s)) s

/-- GET_CAPABILITIES. -/
def execGetCapabilities (fn : Nat) (req : Bytes) (s : State) : Result :=
  spdmAnswer fn 1 (fun s => respond fn (Config.standardReply 0x61 req []) (updSec (fun x => { x with spdm := Tbl.set 0 x.spdm fn (max 2 (spdmStage s fn)) }) s)) s

/-- NEGOTIATE_ALGORITHMS: SLH-DSA-SHA2-128s, SHA-256, ML-KEM-768, AES-256-GCM. -/
def execNegotiateAlgorithms (fn : Nat) (req : Bytes) (s : State) : Result :=
  spdmAnswer fn 2 (fun s => respond fn (Config.standardReply 0x63 req []) (updSec (fun x => { x with spdm := Tbl.set 0 x.spdm fn 3 }) s)) s

/-- GET_DIGESTS: of the chains of slots 0 and 1. -/
def execGetDigests (fn : Nat) (req : Bytes) (s : State) : Result :=
  spdmAnswer fn 3 (fun s => respond fn
    (Config.standardReply 0x01 req (hashBytes (sha256 (slotChain s 0)) ++ hashBytes (sha256 (slotChain s 1)))) s) s

/-- GET_CERTIFICATE: part of a slot's chain, and how many bytes follow it. -/
def execGetCertificate (fn slot off len : Nat) (s : State) : Result :=
  spdmAnswer fn 3 (fun s =>
    if 2 ≤ slot then spdmError fn s
    else
      let chain := slotChain s slot
      let part := (chain.drop off).take len
      respond fn (Config.standardReply 0x02 part (leBytes 4 (chain.length - off - part.length))) s) s

/-- CHALLENGE: signed by the key of the slot. -/
def execChallenge (fn slot : Nat) (req : Bytes) (s : State) : Result :=
  spdmAnswer fn 3 (fun s =>
    if 2 ≤ slot then spdmError fn s
    else respondSigned fn slot (Config.standardReply 0x03 req (hashBytes (sha256 (slotChain s slot)))) s) s

/-- GET_MEASUREMENTS: one block, or all (index 0xFF), or their number (index 0), as they stand now, signed by the alias key. -/
def execGetMeasurements (fn index : Nat) (req : Bytes) (s : State) : Result :=
  spdmAnswer fn 3 (fun s =>
    let blocks : List Nat := if index = 0xFF then [1, 2, 3, 4, 5, 6] else if 1 ≤ index && index ≤ 6 then [index] else []
    if index != 0 && blocks.isEmpty then spdmError fn s
    else respondSigned fn 1 (Config.standardReply 0x60 req
      (leBytes 1 6 ++ (blocks.map fun i => leBytes 1 i ++ hashBytes (measurement s i)).flatten)) s) s

/-- KEY_EXCHANGE: a session with keys from ML-KEM-768; the slot is the request's fourth byte (PRESUMED, log entry 47). -/
def execKeyExchange (fn : Nat) (req : Bytes) (s : State) : Result :=
  spdmAnswer fn 3 (fun s =>
    let slot := leAt req 3 1 % 16
    if 2 ≤ slot then spdmError fn s
    else
      let n := s.sec.sessionNo + 1
      respondSigned fn slot (Config.standardReply 0x64 req (leBytes 4 n))
        (updSec (fun x => { x with sessionNo := n, sessions := x.sessions ++ [{ fn := fn, num := n, key := Config.kem req n, opened := false }] }) s)) s

/-- A function's session by its number. -/
def findSession (s : State) (fn n : Nat) : Option Session := s.sec.sessions.find? fun x => x.fn == fn && x.num == n

/-- A session changed. -/
def updSession (fn n : Nat) (f : Session → Session) (s : State) : State :=
  updSec (fun x => { x with sessions := x.sessions.map fun y => if y.fn = fn && y.num = n then f y else y }) s

/-- A response inside a session. -/
def respondSealed (x : Session) (msg : Bytes) (s : State) : State :=
  respond x.fn (Config.seal x.key x.seq msg) (updSession x.fn x.num (fun y => { y with seq := y.seq + 1 }) s)

/-- A request of a session of its function that stands at a stage is answered; another is an error. -/
def inSession (fn n : Nat) (opened : Bool) (answer : Session → State → State) (s : State) : Result :=
  if doeOpen s fn then
    match findSession s fn n with
    | some x => .next (if x.opened = opened then answer x s else spdmError fn s)
    | none => .next (spdmError fn s)
  else .next s

/-- FINISH: the handshake ends and the session is open. -/
def execFinish (fn session : Nat) (req : Bytes) (s : State) : Result :=
  inSession fn session false (fun x s =>
    respondSealed x (Config.standardReply 0x65 req []) (updSession fn session (fun y => { y with opened := true }) s)) s

/-- END_SESSION: the streams keyed through it stay as they are (R534). -/
def execEndSession (fn session : Nat) (s : State) : Result :=
  inSession fn session true (fun x s =>
    updSec (fun y => { y with sessions := y.sessions.filter fun z => !(z.fn == fn && z.num == session) })
      (respondSealed x (Config.standardReply 0x6C [] []) s)) s

/-- KEY_UPDATE: new keys from the old ones. -/
def execKeyUpdate (fn session : Nat) (req : Bytes) (s : State) : Result :=
  inSession fn session true (fun x s =>
    updSession fn session (fun y => { y with key := Config.deriveKey 2 x.key, seq := 0 })
      (respondSealed x (Config.standardReply 0x69 req []) s)) s

/-- HEARTBEAT. -/
def execHeartbeat (fn session : Nat) (s : State) : Result :=
  inSession fn session true (fun x s => respondSealed x (Config.standardReply 0x68 [] []) s) s

/-- CHUNK_SEND: chunks of a large request come in order. -/
def execChunkSend (fn seq : Nat) (last : Bool) (data : Bytes) (s : State) : Result :=
  spdmAnswer fn 2 (fun s =>
    if s.sec.chunkSeq.get 0 fn != seq then spdmError fn s
    else respond fn (Config.standardReply 0x05 data (leBytes 2 seq))
      (updSec (fun x => { x with
        chunksIn := Tbl.set [] x.chunksIn fn (if last then [] else x.chunksIn.get [] fn ++ data)
        chunkSeq := Tbl.set 0 x.chunkSeq fn (if last then 0 else seq + 1) }) s)) s

/-- CHUNK_GET: a chunk of the last response. -/
def execChunkGet (fn seq : Nat) (s : State) : Result :=
  spdmAnswer fn 2 (fun s => respond fn (Config.standardReply 0x06 (s.sec.chunksOut.get [] fn) (leBytes 2 seq)) s) s

/-- Responses that no longer wait behind a signature of their mailbox leave, in order. -/
def releaseWaiting : List SignReq → List Nat → State → List SignReq × State
  | [], _, s => ([], s)
  | q :: t, held, s =>
    if q.slot.isNone && !held.contains q.fn then releaseWaiting t held (doeSend q.fn q.msg s)
    else
      let r := releaseWaiting t (q.fn :: held) s
      (q :: r.1, r.2)

/-- SPDM_SIGNATURE_DONE: the oldest response is signed and leaves; those behind it in its mailbox follow. -/
def execSpdmSignatureDone (dt : Nat) (s : State) : Result :=
  match s.sec.signQ with
  | q :: t =>
    match q.slot with
    | some slot =>
      let s := doeSend q.fn (q.msg ++ Config.slhSign (slotKey s slot) q.msg) (pass dt s)
      let r := releaseWaiting t [] s
      .next (updSec (fun x => { x with signQ := r.1 }) r.2)
    | none => .next s
  | [] => .next s

/-! ## IDE_KM (R472, R534) -/

/-- The error status of IDE_KM. -/
def ideError (x : Session) (s : State) : State := respondSealed x (Config.standardReply 0x80 [] (facts [1])) s

/-- KEY_PROG: keys a stream of the session's function; another function's stream, or a ninth one, is refused. -/
def execKeyProg (fn session stream : Nat) (key : Bytes) (s : State) : Result :=
  inSession fn session true (fun x s =>
    match s.sec.ide.find? fun i => i.stream == stream with
    | some i =>
      if i.fn != fn then ideError x s
      else respondSealed x (Config.standardReply 0x81 [] (facts [0])) (updSec (fun y => { y with
        ide := y.ide.map fun i => if i.stream = stream then { i with session := session, key := key } else i }) s)
    | none =>
      if 8 ≤ s.sec.ide.length then ideError x s
      else respondSealed x (Config.standardReply 0x81 [] (facts [0]))
        (updSec (fun y => { y with ide := y.ide ++ [{ fn := fn, stream := stream, session := session, key := key, secure := false }] }) s)) s

/-- Vectors that were pending while the function's requests were held are signalled (R472). -/
def sendPending (fn : Nat) (s : State) : State :=
  let pba := (s.funcs.get {} fn).pba
  pba.reverse.foldl (fun s v => signalVector fn v s) { s with funcs := Tbl.upd {} s.funcs fn fun f => { f with pba := [] } }

/-- K_SET_GO: a keyed stream enters the secure state; what was held for the function goes on. -/
def execKSetGo (fn session stream : Nat) (s : State) : Result :=
  inSession fn session true (fun x s =>
    if s.sec.ide.any fun i => i.stream == stream && i.fn == fn then
      sendPending fn (respondSealed x (Config.standardReply 0x82 [] (facts [0])) (updSec (fun y => { y with
        ide := y.ide.map fun i => if i.stream = stream then { i with secure := true } else i }) s))
    else ideError x s) s

/-- K_SET_STOP: the stream ends. -/
def execKSetStop (fn session stream : Nat) (s : State) : Result :=
  inSession fn session true (fun x s =>
    if s.sec.ide.any fun i => i.stream == stream && i.fn == fn then
      respondSealed x (Config.standardReply 0x83 [] (facts [0])) (updSec (fun y => { y with
        ide := y.ide.filter fun i => i.stream != stream }) s)
    else ideError x s) s

/-! ## Debug (R535, R536) -/

/-- A fresh nonce is drawn. -/
def newNonce (s : State) : State :=
  let r := drawBits 256 s
  updSec (fun x => { x with nonce := r.1, nonceLive := true }) r.2

/-- Bytes of the token window. -/
def tokenAt (s : State) (off n : Nat) : Bytes := (List.range n).map fun i => s.sec.token.get 0 (off + i)

/-- The unlock token verifies: serial number, live nonce, a debug level, the debug key's signature. -/
def tokenOk (s : State) : Bool :=
  let level := leNat (tokenAt s 40 1)
  leNat (tokenAt s 0 8) == Config.serial.toNat && s.sec.nonceLive && leNat (tokenAt s 8 32) == s.sec.nonce.toNat &&
    (level == 1 || level == 2) && Config.slhVerify Config.debugKey (tokenAt s 0 64) (tokenAt s 64 29792)

/-- ARM of SEC_DBG. -/
def dbgArmed (s : State) : State := newNonce s

/-- GO of SEC_DBG (R536). -/
def dbgGone (s : State) : State :=
  let busy := partNums.any fun n => (getPart s n).st == .started || (getPart s n).st == .stopping
  if busy || s.sec.debugDisable then updSec (fun x => { x with dbgRefused := true, nonceLive := false }) s
  else if tokenOk s then
    coldReset (updSec (fun x => { x with dbgLevel := some (leNat (tokenAt s 40 1)), nonceLive := false }) s)
  else newNonce (updSec (fun x => { x with dbgRefused := true }) s)

/-- DBG_ARM: PF0 writes ARM. -/
def execDbgArm (fn : Nat) (s : State) : Result :=
  .next (hostPost fn (fun s => if fn == 0 then dbgArmed s else s) s)

/-- DBG_GO: PF0 writes GO. -/
def execDbgGo (fn : Nat) (s : State) : Result :=
  .next (hostPost fn (fun s => if fn == 0 then dbgGone s else s) s)

end Sys2Proof.Machine
end

