-- ==== Sys2Proof/Machine/Registers.lean ====
section
/-!
DEFINITION. BAR0: which function reaches which register (R254, R553 to R555), what each register reads, what a write of each does
field by field (R7), the latching reads (R171), and their commands.
-/
namespace Sys2Proof.Machine

/-! ## Reads -/

/-- A register number made from fields: (low bit, value) pairs. -/
def fields (l : List (Nat × Nat)) : Nat := (l.map fun e => e.2 * 2 ^ e.1).sum

/-- Word `i` of a 64-bit value. -/
def wordOf (v i : Nat) : Nat := v / 2 ^ (32 * i) % 2 ^ 32

/-- A ring's registers, read by its owner (R475). -/
def readRing (s : State) (fn r off : Nat) : Nat :=
  let g := getRing s r
  if ringOwner s r != fn then 0
  else match off with
    | 0x00 => fields [(0, b2n g.enable), (1, match g.state with
        | .idle => 0 | .running => 1 | .draining => 2 | .error => 3), (8, g.log2), (16, g.vector)]
    | 0x04 => fn
    | 0x08 => wordOf g.sqBase.toNat 0
    | 0x0C => wordOf g.sqBase.toNat 1
    | 0x10 => wordOf g.cqBase.toNat 0
    | 0x14 => wordOf g.cqBase.toNat 1
    | 0x18 => fields [(0, g.sqHead), (16, g.cqTail)]
    | 0x1C => fields [(0, g.coalCount), (8, g.coalTime), (24, min 255 (ringFlight s r))]
    | _ => 0

/-- A word of the MSI-X table: the mask bit of Vector Control is 1 after reset, so the table holds it inverted. -/
def msixWord (s : State) (fn i : Nat) : Nat := (((s.funcs.get {} fn).msix.get 0 i) ^^^ (if i % 4 = 3 then 1 else 0)).toNat

/-- A word of the journal window (R467). -/
def readJournal (s : State) (fn off : Nat) : Nat :=
  match s.journal.get none (off / 32) with
  | some e => if fn = 0 || e.fn = fn then leAt (entryBytes e 0 false) (off % 32) 4 else 0
  | none => 0

/-- The function-local part of the HIF block (R473, R474). -/
def readHif (s : State) (fn off : Nat) : Nat :=
  if 0x20000 ≤ off then readJournal s fn (off - 0x20000)
  else if 0x10000 ≤ off then
    (if off < 0x10100 then fields (((s.funcs.get {} fn).pba.filter fun v => v / 32 == (off - 0x10000) / 4).map fun v => (v % 32, 1)) else 0)
  else if 0x8000 ≤ off then msixWord s fn ((off - 0x8000) / 4)
  else if 0x1000 ≤ off then (if off < 0x5000 then readRing s fn ((off - 0x1000) / 0x40) ((off - 0x1000) % 0x40) else 0)
  else match off with
    | 0x00 => fn + 16 * bitsOf (regN s (hif fn 0)) 4 1
    | 0x0C => fields [(0, s.link.rate), (4, s.link.width), (7, b2n s.link.flit)]
    | 0x20 => wordOf (s.funcs.get {} fn).jseq.toNat 0
    | 0x24 => wordOf (s.funcs.get {} fn).jseq.toNat 1
    | 0x04 | 0x08 | 0x10 | 0x14 | 0x18 => regN s (hif fn off)
    | _ => 0

/-- Identification and capability (R556 to R558). -/
def readIdent (s : State) (off : Nat) : Nat :=
  match off with
  | 0x40000 => 0xD7001FD3
  | 0x40004 => fields [(0, Config.devRev.toNat % 2), (4, 1), (8, 1)]
  | 0x40008 => wordOf Config.serial.toNat 0
  | 0x4000C => wordOf Config.serial.toNat 1
  | 0x40010 => (runningImage s 0).version.toNat
  | 0x40014 => (runningImage s 1).version.toNat
  | 0x40018 => (runningImage s 2).version.toNat
  | 0x4001C => fields [(0, loaderVer s % 65536), (16, 1), (20, 1)]
  | 0x40020 => fields [(0, 48), (6, 48), (12, 8), (16, 256), (25, 8)]
  | 0x40024 => 0x0FFF
  | _ => 0

/-- The bits of a stored register are set in a mask. -/
def anyBit (s : State) (k mask : Nat) : Nat := b2n (regN s k &&& mask != 0)

/-- Device status (R560, R561). In DEEP the summary bits of dark blocks read 0. -/
def readStatus (s : State) (off : Nat) : Nat :=
  let lit (n : Nat) : Nat := if diesDark s then 0 else n
  match off with
  | 0x40030 => fields [(0, powerNum s.fer.power), (2, b2n s.fer.trip.isSome), (3, b2n (s.fer.service != 0)),
      (8, (partNums.map fun n => b2n (isStarted s n) * 2 ^ (n - 1)).sum),
      (16, ((List.range 8).map fun p => b2n (portUp s p) * 2 ^ p).sum), (24, (activeStacks s).length)]
  | 0x40034 => fields [(0, lit (anyBit s (bMem + 0x10) 0xFF)), (1, lit (anyBit s (bGzl + 8) 0x1FF)), (2, lit (anyBit s bNoc 7)),
      (3, anyBit s (bIng + 4) 7), (4, anyBit s (bFmn + 0x14) 0xFF), (5, anyBit s (bPrt + 0xC) 1), (6, b2n s.sec.dbgRefused),
      (8, (partNums.map fun n => 2 ^ (n - 1) * max (max (anyBit s (ctx bGovCtx n 4) 0x1FF) (lit (anyBit s (ctx bSynCtx n 4) 0x1F)))
        (max (anyBit s (ctx bIngCtx n 4) 0x1F) (anyBit s (ctx bCollCtx n 0x24) 0x3F))).sum)]
  | _ => if 0x40040 ≤ off ∧ off < 0x40050 then regN s off else 0

/-- PRT (R494). -/
def readPrt (s : State) (off : Nat) : Nat :=
  if off = bPrt then regN s off
  else if off = bPrt + 8 then prtState s
  else if off = bPrt + 0xC then setBits (regN s off) 1 1 (b2n s.brd.pwrcyc)
  else 0

/-- The code of a stack's state (R319). -/
def stackCode (s : State) (k : Nat) : Nat :=
  match (getStack s k).st with
  | .active => 0 | .retirePending => 1 | .retired => 2

/-- MEM, device-wide (R317 to R321). -/
def readMem (s : State) (off : Nat) : Nat :=
  if off = bMem || off = bMem + 0x10 then regN s off
  else if off = bMem + 4 then fields [(0, 96 * (activeStacks s).length), (12, (activeStacks s).length)]
  else if off = bMem + 8 then fields ((List.range 16).map fun k => (2 * k, stackCode s k))
  else if off = bMem + 0xC then fields ((List.range 4).map fun k => (2 * k, stackCode s (16 + k)))
  else if bMem + 0x100 ≤ off && off < bMem + 0x240 then
    let k := getStack s ((off - bMem - 0x100) / 16)
    match off % 16 with
    | 8 => fields [(0, min 65535 k.softRows.length), (16, min 65535 k.hardRows)]
    | 12 => fields [(0, k.adderSpares), (2, k.adderDisabled), (8, bitsOf (regN s off) 8 8)]
    | _ => regN s off
  else 0

/-- GZL, device-wide (R388 to R390). -/
def readGzl (s : State) (off : Nat) : Nat :=
  if off = bGzl + 4 then fields [(0, bitsOf (regN s off) 0 17), (24, s.fer.epoch.toNat)]
  else if off = bGzl + 0xC then
    fields [(0, (sourceCode s).1), (2, (sourceCode s).2), (5, b2n (s.fab.slew != 0)), (16, bitsOf (regN s off) 16 16)]
  else if off = bGzl + 0x10 then wordOf s.now.toNat 0
  else if off = bGzl + 0x14 then wordOf s.now.toNat 1
  else if off < bGzl + 0x1C then regN s off
  else if bGzl + 0x100 ≤ off && off < bGzl + 0x200 then
    let p := (off - bGzl - 0x100) / 32
    let q := getPort s p
    match (off - bGzl) % 32 with
    | 0 => fields [(0, portStateNum q.st), (3, q.width), (5, b2n q.spareMapped), (6, b2n q.timeOk),
        (8, ((List.range 8).map fun f => b2n (flowPort s f == some p) * 2 ^ f).sum), (16, q.reason)]
    | 4 => q.failed.toNat
    | 8 | 12 | 16 => regN s off
    | _ => 0
  else 0

/-- ING, device-wide (R438, R439). -/
def readIng (s : State) (off : Nat) : Nat :=
  if off = bIng then fields [(0, ((List.range 64).filter fun k => !(getPipe s k).retired).length), (8, (sparePipes s).length)]
  else if off = bIng + 4 then regN s off
  else if bIng + 0x10 ≤ off && off < bIng + 0x30 then
    fields ((List.range 8).map fun k =>
      let pipe := 2 * (off - bIng - 0x10) + k
      (4 * k, if (getPipe s pipe).retired then 15 else (partNums.find? fun n => bitOf (getPart s n).pipes.toNat pipe).getD 0))
  else 0

/-- STATE and FAILED of an ingest job slot (R439). -/
def readJob (s : State) (n j : Nat) : Nat :=
  let p := getPart s n
  fields [(0, match p.jobs.get none j with
      | some x => if x.waitingSlot then 2 else 1
      | none => if p.jobEnd.get false j then 3 else 0), (8, satTo 24 (p.jobFailed.get 0 j))]

/-- SLW_STATUS (R287). -/
def readSlwStatus (s : State) (n : Nat) : Nat :=
  let p := getPart s n
  let t := p.step
  fields [(0, b2n t.isSome), (1, (t.map Step.attempt).getD 0 % 4),
    (3, b2n (t.any fun t => t.ordered || bitOf (regN s (ctx bSlwCtx n 0)) 2)), (8, p.lastCauses.toNat), (16, satTo 16 p.replays)]

/-- A register of a partition's context in a block (R254, R285, R317, R351, R391, R415, R438). -/
def readCtx (s : State) (base n off : Nat) : Nat :=
  let p := getPart s n
  let stored := regN s (ctx base n off)
  if base = bMemCtx then
    match off with
    | 0x00 => p.qbase
    | 0x04 => p.qlen
    | 0x38 => fields [(0, bitsOf stored 0 8), (16, (p.rpc.frames.filter fun e => e.2.valid).length)]
    | 0x3C => 0
    | _ => stored
  else if base = bGzlCtx then (if off ≤ 4 then stored else 0)
  else if base = bSynCtx then
    match off with
    | 0x00 => fields [(0, p.pbase), (16, p.pcount)]
    | 0x04 | 0x08 | 0x0C => stored
    | _ => 0
  else if base = bIngCtx then
    match off with
    | 0x00 => ((List.range 64).filter fun k => bitOf p.pipes.toNat k).length
    | 0x04 => stored
    | 0x08 | 0x0C | 0x10 | 0x14 => readJob s n ((off - 8) / 4)
    | _ => 0
  else if base = bSlwCtx then (if off = 4 then readSlwStatus s n else if off < 0x38 then stored else 0)
  else if base = bCollCtx then
    (if off = 0x28 then
      fields [(0, (s.descs.filter fun d => d.fn == n && (d.opcode == 0x20 || d.opcode == 0x21) &&
        (d.phase == .held || d.phase == .started)).length), (16, slotsUsed s n)]
    else if off < 0x28 then stored else 0)
  else if base = bGovCtx then (if off = 0x28 then arenaUsed s n % 2 ^ 32 else if off < 0x28 then stored else 0)
  else 0

/-- The context blocks. -/
def ctxBases : List Nat := [bMemCtx, bGzlCtx, bSynCtx, bIngCtx, bSlwCtx, bCollCtx, bGovCtx]

/-- The context a BAR0 offset lies in: block base, partition, offset. -/
def ctxOf (off : Nat) : Option (Nat × Nat × Nat) :=
  (ctxBases.find? fun b => decide (b ≤ off) && decide (off < b + 0x200)).map fun b => (b, (off - b) / 0x40 + 1, (off - b) % 0x40)

/-- Sync counters and saturation marks (R351, R354): VFn sees the counters of its range. -/
def readSyn (s : State) (fn off : Nat) : Nat :=
  if off = bSyn then (if fn = 0 then fields [(0, 16384), (16, 64), (24, 128)] else 0)
  else if off = bSyn + 4 then (if fn = 0 then regN s off else 0)
  else if 0x610000 ≤ off && off < 0x630000 then
    let c := (off - 0x610000) / 8
    let p := getPart s fn
    if fn = 0 || (p.pbase ≤ c && c < p.pbase + p.pcount) then wordOf (s.syn.counters.get 0 c).toNat ((off / 4) % 2) else 0
  else if 0x630000 ≤ off && off < 0x630800 && fn = 0 then
    let w := (off - 0x630000) / 4
    fields ((List.range 32).map fun b => (b, b2n (s.syn.saturated.get false (32 * w + b))))
  else 0

/-- FMN (R523, R524). -/
def readFmn (s : State) (off : Nat) : Nat :=
  let f := s.fer
  match off - bFmn with
  | 0x00 => regN s off
  | 0x04 => fields [(0, powerNum f.power), (4, b2n f.entering.isSome), (5, b2n f.refused), (6, b2n f.trip.isSome), (7, b2n f.swapReady)]
  | 0x08 => fields [(0, f.mhz), (16, clockCause s)]
  | 0x0C => fields [(0, min 65535 (f.watts / 1000000)), (16, f.limit)]
  | 0x10 => fields [(0, min 255 (hottest s 0 64)), (8, min 255 (hottest s 76 96))]
  | 0x14 => regN s off
  | 0x18 => wordOf f.evSeq.toNat 0
  | 0x1C => wordOf f.evSeq.toNat 1
  | 0x20 => f.service.toNat
  | 0x40 => regN s off
  | o =>
    if 0x100 ≤ o ∧ o < 0x200 then
      let d := (o - 0x100) / 4
      fields [(0, min 255 (hottest s d (d + 1))), (16, f.domainReported.get 0 d)]
    else if 0x200 ≤ o ∧ o < 0x250 then min 255 (getStack s ((o - 0x200) / 4)).temp
    else if 0x1000 ≤ o ∧ o < 0x1800 then (f.mailbox.get 0 ((o - 0x1000) / 4)).toNat
    else 0

/-- SEC (R537). -/
def readSec (s : State) (off : Nat) : Nat :=
  let x := s.sec
  match off - bSec with
  | 0 => fields [(0, ((List.range 3).map fun c => x.slots.get 0 c * 2 ^ c).sum), (3, x.revoked.toNat), (7, x.stage)]
  | 4 => fields [(0, svnOf s 0), (8, svnOf s 1), (16, svnOf s 2)]
  | 8 => fields [(0, x.debug), (2, b2n x.debugDisable), (5, b2n x.dbgRefused)]
  | o => if 0x10 ≤ o ∧ o < 0x30 then wordOf x.nonce.toNat ((o - 0x10) / 4) else 0

/-- PKG_DIE_SITES of a die (R20). -/
def dieSites (s : State) (die : Nat) : Nat :=
  let sites := (List.range 600).map fun i => getSite s (600 * die + i)
  fields [(0, (sites.filter Site.fused).length), (8, dieSpares s die), (16, min 255 (sites.filter Site.retired).length),
    (24, (s.places.filter fun e => e.2 == .unmapped && dieOf e.1 == die).length)]

/-- PKG (R551, R552): an output's drive bits read 0 while BRD_RST_N is low (R546). -/
def readPkg (s : State) (off : Nat) : Nat :=
  let b := s.brd
  let drv (x : Bool) : Nat := b2n (x && b.brdRstN && b.vauxOn)
  if off = bPkg then b.straps.toNat
  else if off = bPkg + 4 then
    fields [(0, b2n b.pwrlimN), (1, b2n b.wakeN), (2, drv b.pwrcyc), (3, drv b.pwrReq), (4, drv b.thermtrip), (5, drv b.alert),
      (6, drv b.phyRun), (8, b2n b.fref), (9, b2n b.refclk)]
  else if bPkg + 0x100 ≤ off && off < bPkg + 0x110 && !diesDark s then dieSites s ((off - bPkg - 0x100) / 4)
  else 0

/-- The code of a core's run state (R167). -/
def runCode (k : Core) : Nat :=
  match k.run with
  | .idle => 0 | .running => 1 | .halted => 2 | .faulted => 3 | .stopped => 4

/-- A register of a core's window (R125, R164 to R171). -/
def readCore (s : State) (c off : Nat) : Nat :=
  let k := getCore s c
  match off with
  | 0x00 => fields [(0, c % 64), (8, c / 64), (16, dieOf c), (20, k.part)]
  | 0x04 => fields [(0, runCode k), (3, k.active), (4, b2n k.bank0.valid), (5, b2n k.bank1.valid), (6, b2n (!k.loads.isEmpty)),
      (8, k.loops.length), (16, min 255 k.sramCe)]
  | 0x08 => fields [(0, k.bank0.gen.toNat), (16, k.bank1.gen.toNat)]
  | 0x0C => k.fault.toNat
  | 0x10 => k.faultPc.toNat
  | 0x14 => k.faultInfo.toNat
  | 0x200 => k.chk0.toNat
  | 0x204 => k.chk1.toNat
  | _ => if 0x20 ≤ off ∧ off < 0x48 then wordOf (k.counts.get 0 ((off - 0x20) / 8 + 1)).toNat ((off / 4) % 2) else 0

/-- What a register reads to a function, without latching: zero where R7 and R553 to R555 say so. -/
def readReg (s : State) (fn off : Nat) : Nat :=
  if off < bHifDev then readHif s fn off
  else if off < 0x40030 then readIdent s off
  else if off < bPrt then (if fn = 0 then readStatus s off else 0)
  else if bCore ≤ off then
    let c := (off - bCore) / 0x400
    if windowReached s fn c then readCore s c (off % 0x400) else 0
  else if diesDark s && decide (bMem ≤ off) && decide (off < bIng) then 0
  else match ctxOf off with
    | some (base, n, o) => if mayCtx fn n then readCtx s base n o else 0
    | none =>
      if decide (bSyn ≤ off) && decide (off < bIng) then readSyn s fn off
      else if fn != 0 then 0
      else if off < bMem then readPrt s off
      else if off < bGzl then readMem s off
      else if off < bNoc then readGzl s off
      else if off < bSyn then (if off = bNoc || (0x500010 ≤ off && off < 0x500024) then regN s off else 0)
      else if off < bSlwCtx then readIng s off
      else if off < bFmn then (if bSlwDev ≤ off && off < bSlwDev + 12 then regN s off else 0)
      else if off < bSec then readFmn s off
      else if off < bPkg then readSec s off
      else readPkg s off

/-! ## Latching reads (R171) -/

/-- Low words of the registers that latch: HIF_JSEQ, HIF_SERIAL, GZL_TIME, SYN_CNT, FMN_EVSEQ, CORE_ECOUNT. -/
def latchLow (off : Nat) : Bool :=
  off == 0x20 || off == 0x40008 || off == bGzl + 0x10 || off == bFmn + 0x18 ||
    (decide (0x610000 ≤ off) && decide (off < 0x630000) && off % 8 == 0) ||
    (decide (bCore ≤ off) && decide (0x20 ≤ off % 0x400) && decide (off % 0x400 < 0x48) && off % 8 == 0)

/-- One 32-bit read: a low word latches its high word for the function's next read of it. -/
def readWord (fn off : Nat) (s : State) : Nat × State :=
  let k := hif fn off
  if latchLow off then
    (readReg s fn off, { s with latches := Tbl.set none s.latches (k + 4) (some (BitVec.ofNat 32 (readReg s fn (off + 4)))) })
  else match s.latches.get none k with
    | some v => (v.toNat, { s with latches := Tbl.set none s.latches k none })
    | none => (readReg s fn off, s)

/-- An access to a function's registers arrives, inside its IDE stream where it must (R472). -/
def bar0Open (s : State) (fn : Nat) : Bool := barOpen s && decide (fn ≤ 8)

/-- LATCHED_READ: an aligned read of a register; one of 64 bits is two of 32, the lower address first (R6). -/
def execLatchedRead (fn : Nat) (read : RegRead) (s : State) : Result :=
  if bar0Open s fn then
    let s := barAccess s
    if hostReach s fn then
      let r := readWord fn read.off s
      if read.width = 8 then
        let h := readWord fn (read.off + 4) r.2
        .next (emit (.readReply fn (leBytes 4 r.1 ++ leBytes 4 h.1)) h.2)
      else .next (emit (.readReply fn (leBytes 4 r.1)) r.2)
    else .next (emit (.unsupported fn) s)
  else .next s

/-- BAR0_UNSUPPORTED_ACCESS: another width or alignment than R6 gives; aligned 32- and 64-bit accesses are none: they
are REGISTER_WRITE and LATCHED_READ. -/
def execBar0UnsupportedAccess (fn off width : Nat) (_write : Bool) (s : State) : Result :=
  if bar0Open s fn && !((width == 4 || width == 8) && off % width == 0) then .next (emit (.unsupported fn) (barAccess s)) else .next s

/-! ## Writes -/

/-- The bits of a mask are written (RW). -/
def putMask (k : Nat) (mask v : Word) (s : State) : State := setReg k ((reg s k &&& ~~~mask) ||| (v &&& mask)) s

/-- The bits of a mask that are written 1 are cleared (RW1C). -/
def clearMask (k : Nat) (mask v : Word) (s : State) : State := setReg k (reg s k &&& ~~~(v &&& mask)) s

/-- The nearer bound of a range. -/
def clampTo (lo hi v : Nat) : Nat := max lo (min hi v)

/-- HIF_RING_CTL is written. -/
def ringCtlWrite (r v : Nat) (s : State) : State :=
  let s := updRing r (fun g =>
    { g with log2 := if g.state = .idle then clampTo 6 16 (bitsOf v 8 5) else g.log2, vector := bitsOf v 16 11 }) s
  let on := (getRing s r).enable
  if bitOf v 0 && !on then ringOn r s else if !bitOf v 0 && on then ringOff r s else s

/-- A register of a ring is written by its owner (R475). -/
def writeRing (fn r off v : Nat) (s : State) : State :=
  if ringOwner s r != fn then s
  else
    let idle (f : Ring → Ring) (s : State) : State := updRing r (fun g => if g.state = .idle then f g else g) s
    let lo (x : DWord) : DWord := BitVec.ofNat 64 (setBits x.toNat 0 32 v)
    let hi (x : DWord) : DWord := BitVec.ofNat 64 (setBits x.toNat 32 32 v)
    match off with
    | 0x00 => ringCtlWrite r v s
    | 0x08 => idle (fun g => { g with sqBase := lo g.sqBase }) s
    | 0x0C => idle (fun g => { g with sqBase := hi g.sqBase }) s
    | 0x10 => idle (fun g => { g with cqBase := lo g.cqBase }) s
    | 0x14 => idle (fun g => { g with cqBase := hi g.cqBase }) s
    | 0x1C => updRing r (fun g => { g with coalCount := bitsOf v 0 8, coalTime := bitsOf v 8 16 }) s
    | _ => s

/-- A word of the MSI-X table is written: a pending vector that is unmasked is sent (R469). -/
def writeMsix (fn i v : Nat) (s : State) : State :=
  let w : Word := BitVec.ofNat 32 v
  let s := { s with funcs := Tbl.upd {} s.funcs fn fun f => { f with msix := Tbl.set 0 f.msix i (if i % 4 = 3 then w ^^^ 1 else w) } }
  if i % 4 = 3 && !bitOf v 0 && (s.funcs.get {} fn).pba.contains (i / 4) then
    signalVector fn (i / 4) { s with funcs := Tbl.upd {} s.funcs fn fun f => { f with pba := f.pba.filter fun x => x != i / 4 } }
  else s

/-- The function-local part of the HIF block is written. -/
def writeHif (fn off v : Nat) (s : State) : State :=
  let w : Word := BitVec.ofNat 32 v
  let k := hif fn off
  let jen := bitOf (regN s (hif fn 0x18)) 0
  if 0x10000 ≤ off then s
  else if 0x8000 ≤ off then writeMsix fn ((off - 0x8000) / 4) v s
  else if 0x1000 ≤ off then (if off < 0x5000 then writeRing fn ((off - 0x1000) / 0x40) ((off - 0x1000) % 0x40) v s else s)
  else match off with
    | 0x00 => sendPending fn (putMask k 0x10 w s)
    | 0x04 => clearMask k 0x7F w s
    | 0x08 => putMask k 0x07FF007F w s
    | 0x10 | 0x14 => if jen then s else putMask k 0xFFFFFFFF w s
    | 0x18 =>
      let s := if jen then s else setReg k (BitVec.ofNat 32 (setBits (regN s k) 8 5 (clampTo 6 20 (bitsOf v 8 5)))) s
      putMask k 1 w s
    | _ => s

/-- A register of a partition's context is written: RW registers only while the partition is not started and not
stopping (R476), GOV_T only while no
step is open, RW1C bits and INVAL at any time. -/
def writeCtx (base n off v : Nat) (s : State) : State :=
  let w : Word := BitVec.ofNat 32 v
  let k := ctx base n off
  let p := (getPart s n).st
  let idle (s' : State) : State := if p == .started || p == .stopping then s else s'
  let put (mask : Word) : State := idle (putMask k mask w s)
  let clamp (lo hi bits : Nat) : State := idle (setReg k (BitVec.ofNat 32 (clampTo lo hi (bitsOf v 0 bits))) s)
  if base = bMemCtx then
    match off with
    | 0x08 => clamp 1 100 7
    | 0x0C => put 0xFFFF
    | 0x10 | 0x14 | 0x20 | 0x24 | 0x2C | 0x30 => put 0xFFFFFFFF
    | 0x18 | 0x1C | 0x28 => put 0x1FFFF
    | 0x34 => put 0x7FFF
    | 0x38 =>
      let s' := put 0xFF
      if bitOf v 8 then rpcClear n s' else s'
    | _ => s
  else if base = bGzlCtx then (if off = 0 then put 0xFFFF else s)
  else if base = bSynCtx then (if off = 4 then clearMask k 0x1F w s else s)
  else if base = bIngCtx then (if off = 4 then clearMask k 0x1F w s else s)
  else if base = bSlwCtx then
    match off with
    | 0x00 => idle (setReg k (BitVec.ofNat 32 (fields [(0, bitsOf v 0 4), (8, max 10 (bitsOf v 8 8))])) s)
    | 0x10 | 0x34 => put 0x1FFF
    | 0x08 | 0x0C | 0x14 | 0x18 | 0x1C | 0x20 | 0x24 | 0x28 | 0x2C | 0x30 => put 0xFFFFFFFF
    | _ => s
  else if base = bCollCtx then
    match off with
    | 0x00 => put 0xFFFF0001
    | 0x04 | 0x08 | 0x0C | 0x10 | 0x18 | 0x1C => put 0xFFFFFFFF
    | 0x14 => put 0x1FF
    | 0x20 => clamp 6 16 5
    | 0x24 => clearMask k 0x3F w s
    | _ => s
  else if base = bGovCtx then
    match off with
    | 0x00 => put 0x00FFFF07
    | 0x04 => clearMask k 0x1FF w s
    | 0x08 | 0x0C =>
      if (openStep s n).isSome then s
      else match clampT w with
        | some t => setReg k t s
        | none => s
    | 0x18 => put 0x1FFF
    | 0x10 | 0x14 | 0x1C | 0x20 | 0x24 => put 0xFFFFFFFF
    | _ => s
  else s

/-- FMN_PWR is written: REFUSED is cleared by 1; REQ asks for a state. -/
def writePwr (v : Nat) (s : State) : State :=
  let s := if bitOf v 5 then { s with fer := { s.fer with refused := false } } else s
  match bitsOf v 2 2 with
  | 1 => powerRequest .active 0 s
  | 2 => powerRequest .deep 0 s
  | 3 => powerRequest .standby 0 s
  | _ => s

/-- FMN_MBOX_CMD is written: GO starts the command whose body lies in the data registers. -/
def writeMbox (v : Nat) (s : State) : State :=
  let s := setReg (bFmn + 0x40) (BitVec.ofNat 32 (fields [(0, bitsOf v 0 8), (8, bitsOf (regN s (bFmn + 0x40)) 8 8), (18, bitsOf v 18 11)])) s
  if bitOf v 16 && fmnRuns s then
    let r := runCommand (bitsOf v 0 8) (mailboxGet s (bitsOf v 18 11)) s
    mailboxDone (bitsOf v 0 8) r.1 r.2
  else s

/-- FMN is written. -/
def writeFmn (off v : Nat) (s : State) : State :=
  let w : Word := BitVec.ofNat 32 v
  match off - bFmn with
  | 0x00 => putMask off 0xFF03 w s
  | 0x04 => writePwr v s
  | 0x0C => putLimit (bitsOf v 16 16) s
  | 0x14 => clearMask off 0xFF w s
  | 0x40 => writeMbox v s
  | o => if 0x1000 ≤ o ∧ o < 0x1800 then { s with fer := { s.fer with mailbox := Tbl.set 0 s.fer.mailbox ((o - 0x1000) / 4) w } } else s

/-- SEC is written: DBG_REFUSED, ARM, GO, and the token window. -/
def writeSec (off v : Nat) (s : State) : State :=
  let o := off - bSec
  if o = 8 then
    let s := if bitOf v 5 then updSec (fun x => { x with dbgRefused := false }) s else s
    let s := if bitOf v 3 then dbgArmed s else s
    if bitOf v 4 then dbgGone s else s
  else if 0x1000 ≤ o && o < 0x9000 then
    (List.range 4).foldl (fun s i => updSec (fun x => { x with token := Tbl.set 0 x.token (o - 0x1000 + i) (BitVec.ofNat 8 (v / 256 ^ i)) }) s) s
  else s

/-- A window of a core is written: CLEAR of CORE_MA_CHK, the injections of CORE_MA_CTL, VALID of CORE_FAULT. -/
def writeCore (fn c off v : Nat) (s : State) : State :=
  match off with
  | 0x0C => if bitOf v 31 then updCore c (fun k => { k with fault := 0, faultPc := 0, faultInfo := 0 }) s else s
  | 0x200 => if bitOf v 31 then updCore c (updChk 0 fun _ => 0) s else s
  | 0x204 => if bitOf v 31 then updCore c (updChk 1 fun _ => 0) s else s
  | 0x208 => ((List.range 4).filter fun b => bitOf v b).foldl (fun s b => armInjection fn c b s) s
  | _ => s

/-- A write of a register, field by field by its access code (R7); ignored where the function does not reach it. -/
def writeReg (fn off v : Nat) (s : State) : State :=
  let w : Word := BitVec.ofNat 32 v
  if off < bHifDev then writeHif fn off v s
  else if bCore ≤ off then
    let c := (off - bCore) / 0x400
    if windowReached s fn c then writeCore fn c (off % 0x400) v s else s
  else if diesDark s && decide (bMem ≤ off) && decide (off < bIng) then s
  else match ctxOf off with
    | some (base, n, o) => if mayCtx fn n then writeCtx base n o v s else s
    | none =>
      if fn != 0 then s
      else if 0x40040 ≤ off && off < 0x40050 then putMask off 0xFFFFFFFF w s
      else if off = bPrt then putMask off 0xFF01 w s
      else if off = bPrt + 4 then prtReset w s
      else if off = bPrt + 0xC then clearMask off 1 w s
      else if off = bMem then putMask off 0x00FFFF03 w s
      else if off = bMem + 0x10 then clearMask off 0xFF w s
      else if off = bGzl then gzlCtlWrite w s
      else if off = bGzl + 4 then
        (if ((List.range 8).any fun p => portUp s p) || bitOf (regN s off) 16 || bitsOf v 0 16 = 0xFFFF then s else putMask off 0xFFFF w s)
      else if off = bGzl + 8 then clearMask off 0x1FF w s
      else if off = bNoc then clearMask off 7 w s
      else if off = bIng + 4 then clearMask off 7 w s
      else if off = bSlwDev then putMask off 0xFFFFFFFF w s
      else if off = bSlwDev + 4 then putMask off 0x00FFFFFF w s
      else if bFmn ≤ off && off < bSec then writeFmn off v s
      else if bSec ≤ off && off < bPkg then writeSec off v s
      else s

/-- REGISTER_WRITE: a 64-bit write is two 32-bit writes, the lower address first (R6). -/
def execRegisterWrite (fn off width : Nat) (value : DWord) (s : State) : Result :=
  if bar0Open s fn then
    let s := barAccess s
    if hostReach s fn then
      let s := writeReg fn off (wordOf value.toNat 0) s
      .next (if width = 8 then writeReg fn (off + 4) (wordOf value.toNat 1) s else s)
    else .next (emit (.unsupported fn) s)
  else .next s

end Sys2Proof.Machine
end

