-- ==== Sys2Proof/Machine/Schedule.lean ====
section
/-!
DEFINITION. The start of descriptors at their not-before time (R457), by opcode.
-/
namespace Sys2Proof.Machine

/-- What a descriptor of an opcode does when it starts (R459). -/
def startOf (op : Nat) : Desc → State → State :=
  match op with
  | 0x01 => loadStart
  | 0x02 => streamStart
  | 0x08 => copyReady
  | 0x09 => fillStart
  | 0x0A => fenceStart
  | 0x10 => signalStart
  | 0x11 => waitStart
  | 0x18 => ingestStart
  | 0x20 => collStart
  | 0x21 => collStart
  | 0x28 => stepOpen
  | 0x29 => fun d s => setPhase d.id .held s
  | 0x2A => replayReady
  | 0x2B => digestStart
  | 0x2C => selftestStart
  | 0x30 => checkpointStart
  | 0x38 => configReady
  | 0x39 => startStart
  | 0x3A => stopStart
  | _ => fun _ s => s

/-- NOT_BEFORE_REACHED: fabric time reaches the not-before time of an accepted descriptor, and it starts; a LOAD_PROGRAM while a
step of its partition is open still waits (R259). -/
def execNotBeforeReached (dt id : Nat) (s : State) : Result :=
  let s' := pass dt s
  match findDesc s' id with
  | some d =>
    if d.phase = .waiting && startsNow s' d && !(d.opcode == 0x01 && (openStep s' d.fn).isSome) then .next (startOf d.opcode d s')
    else .next s
  | none => .next s

end Sys2Proof.Machine
end

