-- ==== Sys2Proof/Machine/Dispatch.lean ====
section
/-!
DEFINITION. The meaning of every command: one arm per constructor of Instr, each one call of a meaning.
-/
namespace Sys2Proof.Machine

/-- The effect of a command on everything but the queue. -/
def exec (i : Instr) (s : State) : Host.Outcome State Fault Refusal :=
  match i with
  -- Register accesses (00, 05)
  | .bar0UnsupportedAccess fn off width write => Sys2Proof.Machine.execBar0UnsupportedAccess fn off width write s
  | .registerWrite fn off width value => Sys2Proof.Machine.execRegisterWrite fn off width value s
  | .latchedRead fn read => Sys2Proof.Machine.execLatchedRead fn read s
  -- Device organisation (01)
  | .coreRemap core => Sys2Proof.Machine.execCoreRemap core s
  | .enterIdle => Sys2Proof.Machine.execEnterIdle s
  -- Control core (05, 06)
  | .sop core => Sys2Proof.Machine.execSop core s
  | .smovi core => Sys2Proof.Machine.execSmovi core s
  | .sld core ecc => Sys2Proof.Machine.execSld core ecc s
  | .sst core => Sys2Proof.Machine.execSst core s
  | .sid core => Sys2Proof.Machine.execSid core s
  | .loop core => Sys2Proof.Machine.execLoop core s
  | .endloop core => Sys2Proof.Machine.execEndloop core s
  | .br core => Sys2Proof.Machine.execBr core s
  | .bankswap core => Sys2Proof.Machine.execBankswap core s
  | .halt core => Sys2Proof.Machine.execHalt core s
  | .haltFault core => Sys2Proof.Machine.execHaltFault core s
  | .issuePastEnd core => Sys2Proof.Machine.execIssuePastEnd core s
  | .ewait core => Sys2Proof.Machine.execEwait core s
  | .wait core => Sys2Proof.Machine.execWait core s
  | .waitVerdict core => Sys2Proof.Machine.execWaitVerdict core s
  | .sigControlCore core => Sys2Proof.Machine.execSigControlCore core s
  | .sigXf core => Sys2Proof.Machine.execSigXf core s
  | .aspush core => Sys2Proof.Machine.execAspush core s
  | .xferStore core => Sys2Proof.Machine.execXferStore core s
  | .xferLoad core => Sys2Proof.Machine.execXferLoad core s
  | .xferAddf core => Sys2Proof.Machine.execXferAddf core s
  | .xferAddi core => Sys2Proof.Machine.execXferAddi core s
  | .xferPstore core => Sys2Proof.Machine.execXferPstore core s
  | .xferPload core => Sys2Proof.Machine.execXferPload core s
  | .xferRowcast core => Sys2Proof.Machine.execXferRowcast core s
  | .xferColcast core => Sys2Proof.Machine.execXferColcast core s
  | .mma core => Sys2Proof.Machine.execMma core s
  | .wld core => Sys2Proof.Machine.execWld core s
  | .wldm core => Sys2Proof.Machine.execWldm core s
  | .nrw core => Sys2Proof.Machine.execNrw core s
  | .dnrw core => Sys2Proof.Machine.execDnrw core s
  | .vop core => Sys2Proof.Machine.execVop core s
  | .red core => Sys2Proof.Machine.execRed core s
  -- Engines (05)
  | .engineStart core engine ecc => Sys2Proof.Machine.execEngineStart core engine ecc s
  | .engineCompletion core engine => Sys2Proof.Machine.execEngineCompletion core engine s
  | .coreHalted core => Sys2Proof.Machine.execCoreHalted core s
  | .checkLaneDisagree core array outlierLane original check => Sys2Proof.Machine.execCheckLaneDisagree core array outlierLane original check s
  | .checkLaneVote core array rerun => Sys2Proof.Machine.execCheckLaneVote core array rerun s
  | .maChkClear fn core array => Sys2Proof.Machine.execMaChkClear fn core array s
  | .injArrayMa0 fn core => Sys2Proof.Machine.execInjArrayMa0 fn core s
  | .injArrayMa1 fn core => Sys2Proof.Machine.execInjArrayMa1 fn core s
  | .injLaneMa0 fn core => Sys2Proof.Machine.execInjLaneMa0 fn core s
  | .injLaneMa1 fn core => Sys2Proof.Machine.execInjLaneMa1 fn core s
  | .coreFaultClear fn core => Sys2Proof.Machine.execCoreFaultClear fn core s
  -- Loading and starting programs (05, 06)
  | .loadProgram id => Sys2Proof.Machine.execLoadProgram id s
  | .loadProgramDone dt id object => Sys2Proof.Machine.execLoadProgramDone dt id object s
  | .startStream id => Sys2Proof.Machine.execStartStream id s
  -- Descriptors (15, 11)
  | .descriptorFetch dt ring bytes => Sys2Proof.Machine.execDescriptorFetch dt ring bytes s
  | .notBeforeReached dt id => Sys2Proof.Machine.execNotBeforeReached dt id s
  | .descriptorComplete dt id => Sys2Proof.Machine.execDescriptorComplete dt id s
  | .copy id host => Sys2Proof.Machine.execCopy id host s
  | .fill id => Sys2Proof.Machine.execFill id s
  | .fence id => Sys2Proof.Machine.execFence id s
  | .syncSignal id => Sys2Proof.Machine.execSyncSignal id s
  | .syncWait id => Sys2Proof.Machine.execSyncWait id s
  -- Steps, governor, Slipway (07, 08, 09)
  | .stepBegin id => Sys2Proof.Machine.execStepBegin id s
  | .stepCommit id => Sys2Proof.Machine.execStepCommit id s
  | .stepCommitted dt part => Sys2Proof.Machine.execStepCommitted dt part s
  | .governorRecord part => Sys2Proof.Machine.execGovernorRecord part s
  | .govTWrite fn part grad value => Sys2Proof.Machine.execGovTWrite fn part grad value s
  | .attemptEnd dt part => Sys2Proof.Machine.execAttemptEnd dt part s
  | .attemptEndConfirm dt part => Sys2Proof.Machine.execAttemptEndConfirm dt part s
  | .attemptStart dt part => Sys2Proof.Machine.execAttemptStart dt part s
  | .replayNotice port pkt => Sys2Proof.Machine.execReplayNotice port pkt s
  | .digestList port pkt => Sys2Proof.Machine.execDigestList port pkt s
  | .reloadReq port pkt => Sys2Proof.Machine.execReloadReq port pkt s
  | .reloadDone port pkt => Sys2Proof.Machine.execReloadDone port pkt s
  | .reloadDeadline dt part => Sys2Proof.Machine.execReloadDeadline dt part s
  | .digestFold part => Sys2Proof.Machine.execDigestFold part s
  | .digestDeadline dt part => Sys2Proof.Machine.execDigestDeadline dt part s
  | .siteCheckDone dt site agree result => Sys2Proof.Machine.execSiteCheckDone dt site agree result s
  | .coreTestStart site => Sys2Proof.Machine.execCoreTestStart site s
  | .coreTestDone dt site result => Sys2Proof.Machine.execCoreTestDone dt site result s
  | .replayStep id => Sys2Proof.Machine.execReplayStep id s
  | .orderedCompareFold part => Sys2Proof.Machine.execOrderedCompareFold part s
  | .digest id => Sys2Proof.Machine.execDigest id s
  | .selftest id => Sys2Proof.Machine.execSelftest id s
  | .selftestDone dt id results => Sys2Proof.Machine.execSelftestDone dt id results s
  -- Memory system (10)
  | .memoryRead req len err => Sys2Proof.Machine.execMemoryRead req len err s
  | .memoryWrite req data => Sys2Proof.Machine.execMemoryWrite req data s
  | .memoryAdd req fp data res => Sys2Proof.Machine.execMemoryAdd req fp data res s
  | .stackFailure stack => Sys2Proof.Machine.execStackFailure stack s
  | .regulatorInterval dt => Sys2Proof.Machine.execRegulatorInterval dt s
  | .hbmRefresh dt stack => Sys2Proof.Machine.execHbmRefresh dt stack s
  | .scrub dt stack err => Sys2Proof.Machine.execScrub dt stack err s
  | .rpcFetchDone part page ok => Sys2Proof.Machine.execRpcFetchDone part page ok s
  | .rpcInval fn part => Sys2Proof.Machine.execRpcInval fn part s
  -- Mesh and synchronisation (11)
  | .meshFlitRetry dt link => Sys2Proof.Machine.execMeshFlitRetry dt link s
  | .signalApply n => Sys2Proof.Machine.execSignalApply n s
  | .waitRequest n => Sys2Proof.Machine.execWaitRequest n s
  | .waitDeadline dt n => Sys2Proof.Machine.execWaitDeadline dt n s
  | .waitBusyResend dt n => Sys2Proof.Machine.execWaitBusyResend dt n s
  | .remoteWaitGrace dt n => Sys2Proof.Machine.execRemoteWaitGrace dt n s
  -- Fabric (12)
  | .laneFailed port lane => Sys2Proof.Machine.execLaneFailed port lane s
  | .lane port op failed width handshake => Sys2Proof.Machine.execLane port op failed width handshake s
  | .codewordUncorrectable port cseq => Sys2Proof.Machine.execCodewordUncorrectable port cseq s
  | .link port ackCseq resend report => Sys2Proof.Machine.execLink port ackCseq resend report s
  | .time dt port time frac plane quality => Sys2Proof.Machine.execTime dt port time frac plane quality s
  | .timeOkExpiry dt port => Sys2Proof.Machine.execTimeOkExpiry dt port s
  | .delayMeasure dt port => Sys2Proof.Machine.execDelayMeasure dt port s
  | .delayResp dt port t1 t2 t3 => Sys2Proof.Machine.execDelayResp dt port t1 t2 t3 s
  | .param port plane role node creds => Sys2Proof.Machine.execParam port plane role node creds s
  | .portSignalDetect port => Sys2Proof.Machine.execPortSignalDetect port s
  | .portTrainDone port failed => Sys2Proof.Machine.execPortTrainDone port failed s
  | .portAlignDone port => Sys2Proof.Machine.execPortAlignDone port s
  | .portUp port => Sys2Proof.Machine.execPortUp port s
  | .portStateTimeout dt port => Sys2Proof.Machine.execPortStateTimeout dt port s
  | .portRetry dt port => Sys2Proof.Machine.execPortRetry dt port s
  | .portLossOfSignal dt port lanes => Sys2Proof.Machine.execPortLossOfSignal dt port lanes s
  | .creditStallTimeout dt port => Sys2Proof.Machine.execCreditStallTimeout dt port s
  | .portEnWrite fn value => Sys2Proof.Machine.execPortEnWrite fn value s
  | .readPacket port pkt => Sys2Proof.Machine.execReadPacket port pkt s
  | .writePacket port pkt => Sys2Proof.Machine.execWritePacket port pkt s
  | .addfPacket port pkt => Sys2Proof.Machine.execAddfPacket port pkt s
  | .addiPacket port pkt => Sys2Proof.Machine.execAddiPacket port pkt s
  | .parcelPacket port pkt => Sys2Proof.Machine.execParcelPacket port pkt s
  | .signalPacket port pkt => Sys2Proof.Machine.execSignalPacket port pkt s
  | .waitPacket port pkt => Sys2Proof.Machine.execWaitPacket port pkt s
  | .ack port pkt => Sys2Proof.Machine.execAck port pkt s
  | .readData port pkt => Sys2Proof.Machine.execReadData port pkt s
  | .nak port pkt => Sys2Proof.Machine.execNak port pkt s
  | .verdict port pkt => Sys2Proof.Machine.execVerdict port pkt s
  | .ackTimeout dt node flow vc => Sys2Proof.Machine.execAckTimeout dt node flow vc s
  | .destinationRetry dt node => Sys2Proof.Machine.execDestinationRetry dt node s
  | .heldPacketTimeout dt n => Sys2Proof.Machine.execHeldPacketTimeout dt n s
  | .heldReplyTimeout dt node flow vc psn => Sys2Proof.Machine.execHeldReplyTimeout dt node flow vc psn s
  -- Collectives (13)
  | .collective id => Sys2Proof.Machine.execCollective id s
  | .collectiveFused id => Sys2Proof.Machine.execCollectiveFused id s
  | .collectiveArm dt id => Sys2Proof.Machine.execCollectiveArm dt id s
  | .scratchSlotGrant id => Sys2Proof.Machine.execScratchSlotGrant id s
  | .join port pkt => Sys2Proof.Machine.execJoin port pkt s
  | .window port pkt => Sys2Proof.Machine.execWindow port pkt s
  | .collData port burst => Sys2Proof.Machine.execCollData port burst s
  | .collEnd port pkt => Sys2Proof.Machine.execCollEnd port pkt s
  | .missingTimer dt id => Sys2Proof.Machine.execMissingTimer dt id s
  | .missing port pkt => Sys2Proof.Machine.execMissing port pkt s
  | .done port pkt => Sys2Proof.Machine.execDone port pkt s
  | .result port pkt => Sys2Proof.Machine.execResult port pkt s
  | .abort port pkt => Sys2Proof.Machine.execAbort port pkt s
  | .collectiveDeadline dt id => Sys2Proof.Machine.execCollectiveDeadline dt id s
  -- Media ingest (14)
  | .ingestSubmit id => Sys2Proof.Machine.execIngestSubmit id s
  | .sampleDispatch dt part entry segment => Sys2Proof.Machine.execSampleDispatch dt part entry segment s
  | .sampleDone pipe => Sys2Proof.Machine.execSampleDone pipe s
  | .sampleWatchdog dt pipe => Sys2Proof.Machine.execSampleWatchdog dt pipe s
  | .pipeKnownAnswerTest dt pipe => Sys2Proof.Machine.execPipeKnownAnswerTest dt pipe s
  | .pipeTestDone dt pipe pass => Sys2Proof.Machine.execPipeTestDone dt pipe pass s
  | .bufferFilled part slot => Sys2Proof.Machine.execBufferFilled part slot s
  -- Host interface (15)
  | .perstAssert => Sys2Proof.Machine.execPerstAssert s
  | .pcieLinkDown => Sys2Proof.Machine.execPcieLinkDown s
  | .flrVf n => Sys2Proof.Machine.execFlrVf n s
  | .flrPf0 => Sys2Proof.Machine.execFlrPf0 s
  | .pf0FlrTimeout dt => Sys2Proof.Machine.execPf0FlrTimeout dt s
  | .bar4Read fn off len => Sys2Proof.Machine.execBar4Read fn off len s
  | .bar4Write fn off data => Sys2Proof.Machine.execBar4Write fn off data s
  | .doorbellSqTail fn ring width value => Sys2Proof.Machine.execDoorbellSqTail fn ring width value s
  | .doorbellCqHead fn ring width value => Sys2Proof.Machine.execDoorbellCqHead fn ring width value s
  | .coalesceTimeout dt ring => Sys2Proof.Machine.execCoalesceTimeout dt ring s
  | .pcieL1Entry dt => Sys2Proof.Machine.execPcieL1Entry dt s
  | .ringEnable fn ring => Sys2Proof.Machine.execRingEnable fn ring s
  | .ringDisable fn ring => Sys2Proof.Machine.execRingDisable fn ring s
  | .ringDrained ring => Sys2Proof.Machine.execRingDrained ring s
  -- Partitions and recovery (16)
  | .configPartition id table => Sys2Proof.Machine.execConfigPartition id table s
  | .startPartition id => Sys2Proof.Machine.execStartPartition id s
  | .stopPartition id => Sys2Proof.Machine.execStopPartition id s
  | .drainDone dt part => Sys2Proof.Machine.execDrainDone dt part s
  | .drainTimeout dt part => Sys2Proof.Machine.execDrainTimeout dt part s
  | .checkpoint id => Sys2Proof.Machine.execCheckpoint id s
  | .prtPartReset fn value => Sys2Proof.Machine.execPrtPartReset fn value s
  | .prtWarmReset fn value => Sys2Proof.Machine.execPrtWarmReset fn value s
  | .prtColdReset fn value => Sys2Proof.Machine.execPrtColdReset fn value s
  | .warmResetDone dt => Sys2Proof.Machine.execWarmResetDone dt s
  | .warmResetTimeout dt => Sys2Proof.Machine.execWarmResetTimeout dt s
  | .powerCycleIgnored dt => Sys2Proof.Machine.execPowerCycleIgnored dt s
  | .sysctlWatchdog dt => Sys2Proof.Machine.execSysctlWatchdog dt s
  -- Ferryman, power and clock (17)
  | .junctionSample dt temps => Sys2Proof.Machine.execJunctionSample dt temps s
  | .thermtripRelease dt => Sys2Proof.Machine.execThermtripRelease dt s
  | .thermalStep dt => Sys2Proof.Machine.execThermalStep dt s
  | .stackTempSample dt temps => Sys2Proof.Machine.execStackTempSample dt temps s
  | .vinSample dt millivolts milliamps => Sys2Proof.Machine.execVinSample dt millivolts milliamps s
  | .vinRecovered dt => Sys2Proof.Machine.execVinRecovered dt s
  | .vauxSample dt millivolts => Sys2Proof.Machine.execVauxSample dt millivolts s
  | .powerMean1ms dt => Sys2Proof.Machine.execPowerMean1ms dt s
  | .powerRecoveryStep dt => Sys2Proof.Machine.execPowerRecoveryStep dt s
  | .fastRecoveryStep dt => Sys2Proof.Machine.execFastRecoveryStep dt s
  | .regulatorAdjust dt domain marginMhz => Sys2Proof.Machine.execRegulatorAdjust dt domain marginMhz s
  | .clockRaise dt => Sys2Proof.Machine.execClockRaise dt s
  | .domainReport dt => Sys2Proof.Machine.execDomainReport dt s
  | .errorCountSample dt => Sys2Proof.Machine.execErrorCountSample dt s
  | .pwrlimNFall => Sys2Proof.Machine.execPwrlimNFall s
  | .pwrlimNRise => Sys2Proof.Machine.execPwrlimNRise s
  | .wakeN dt => Sys2Proof.Machine.execWakeN dt s
  | .pwrReqActive fn => Sys2Proof.Machine.execPwrReqActive fn s
  | .pwrReqDeep fn => Sys2Proof.Machine.execPwrReqDeep fn s
  | .pwrReqStandby fn => Sys2Proof.Machine.execPwrReqStandby fn s
  | .enterDeep dt => Sys2Proof.Machine.execEnterDeep dt s
  | .wakeFromDeep dt => Sys2Proof.Machine.execWakeFromDeep dt s
  | .enterStandby dt => Sys2Proof.Machine.execEnterStandby dt s
  | .wakeFromStandby dt => Sys2Proof.Machine.execWakeFromStandby dt s
  | .vinWaitTimeout dt => Sys2Proof.Machine.execVinWaitTimeout dt s
  -- Management (17)
  | .reportDatagram dt => Sys2Proof.Machine.execReportDatagram dt s
  | .rateLimitSecond dt => Sys2Proof.Machine.execRateLimitSecond dt s
  | .heartbeatDatagram dt => Sys2Proof.Machine.execHeartbeatDatagram dt s
  | .getStatus path body => Sys2Proof.Machine.execGetStatus path body s
  | .getEvents path body => Sys2Proof.Machine.execGetEvents path body s
  | .getJournal path body => Sys2Proof.Machine.execGetJournal path body s
  | .setPower path body => Sys2Proof.Machine.execSetPower path body s
  | .reset path body => Sys2Proof.Machine.execReset path body s
  | .setLimit path body => Sys2Proof.Machine.execSetLimit path body s
  | .setNet path body => Sys2Proof.Machine.execSetNet path body s
  | .setPtp path body => Sys2Proof.Machine.execSetPtp path body s
  | .prepareSwap path body => Sys2Proof.Machine.execPrepareSwap path body s
  | .arpRequest target => Sys2Proof.Machine.execArpRequest target s
  | .neighbourSolicitation target => Sys2Proof.Machine.execNeighbourSolicitation target s
  | .icmpEcho target data => Sys2Proof.Machine.execIcmpEcho target data s
  | .mctpControl req => Sys2Proof.Machine.execMctpControl req s
  | .pldmDiscovery req => Sys2Proof.Machine.execPldmDiscovery req s
  | .pldmPlatform req readsEvent => Sys2Proof.Machine.execPldmPlatform req readsEvent s
  | .pldmFirmwareUpdate component verifyComplete data => Sys2Proof.Machine.execPldmFirmwareUpdate component verifyComplete data s
  | .fwActivate component => Sys2Proof.Machine.execFwActivate component s
  | .ptpSync dt t1 t2 => Sys2Proof.Machine.execPtpSync dt t1 t2 s
  | .ptpDelayResp t3 t4 => Sys2Proof.Machine.execPtpDelayResp t3 t4 s
  | .ptpLost dt => Sys2Proof.Machine.execPtpLost dt s
  | .fuseWrite dt => Sys2Proof.Machine.execFuseWrite dt s
  | .fuseWriteDone dt readBack => Sys2Proof.Machine.execFuseWriteDone dt readBack s
  -- Board (18, 19)
  | .vauxUp dt straps => Sys2Proof.Machine.execVauxUp dt straps s
  | .vauxLoss => Sys2Proof.Machine.execVauxLoss s
  | .vinUp dt straps fref stacksFailed => Sys2Proof.Machine.execVinUp dt straps fref stacksFailed s
  | .brdRstNFall => Sys2Proof.Machine.execBrdRstNFall s
  | .brdRstNRise dt => Sys2Proof.Machine.execBrdRstNRise dt s
  | .frefLoss => Sys2Proof.Machine.execFrefLoss s
  | .frefReturn => Sys2Proof.Machine.execFrefReturn s
  -- SPDM, IDE and debug (18, 15)
  | .getVersion fn req => Sys2Proof.Machine.execGetVersion fn req s
  | .getCapabilities fn req => Sys2Proof.Machine.execGetCapabilities fn req s
  | .negotiateAlgorithms fn req => Sys2Proof.Machine.execNegotiateAlgorithms fn req s
  | .getDigests fn req => Sys2Proof.Machine.execGetDigests fn req s
  | .getCertificate fn slot off len => Sys2Proof.Machine.execGetCertificate fn slot off len s
  | .challenge fn slot req => Sys2Proof.Machine.execChallenge fn slot req s
  | .getMeasurements fn index req => Sys2Proof.Machine.execGetMeasurements fn index req s
  | .keyExchange fn req => Sys2Proof.Machine.execKeyExchange fn req s
  | .finish fn session req => Sys2Proof.Machine.execFinish fn session req s
  | .endSession fn session => Sys2Proof.Machine.execEndSession fn session s
  | .keyUpdate fn session req => Sys2Proof.Machine.execKeyUpdate fn session req s
  | .heartbeat fn session => Sys2Proof.Machine.execHeartbeat fn session s
  | .chunkSend fn seq last data => Sys2Proof.Machine.execChunkSend fn seq last data s
  | .chunkGet fn seq => Sys2Proof.Machine.execChunkGet fn seq s
  | .spdmSignatureDone dt => Sys2Proof.Machine.execSpdmSignatureDone dt s
  | .keyProg fn session stream key => Sys2Proof.Machine.execKeyProg fn session stream key s
  | .kSetStop fn session stream => Sys2Proof.Machine.execKSetStop fn session stream s
  | .dbgArm fn => Sys2Proof.Machine.execDbgArm fn s
  | .dbgGo fn => Sys2Proof.Machine.execDbgGo fn s
  | .pcieLinkTraining rate width flit => Sys2Proof.Machine.execPcieLinkTraining rate width flit s
  | .kSetGo fn session stream => Sys2Proof.Machine.execKSetGo fn session stream s
  | .reservedPacketType port pkt => Sys2Proof.Machine.execReservedPacketType port pkt s
  | .cumulativeAck dt node flow vc => Sys2Proof.Machine.execCumulativeAck dt node flow vc s

end Sys2Proof.Machine
end

