-- ==== Sys2Proof/Safety.lean ====
section
/-!
DEFINITION. What a safe run keeps, in the terms that statements use: the form of the state (`Sound`) and what no command
ever takes back (`Forward`).
-/
namespace Sys2Proof.Machine

/-- The form every command keeps: HBM in canonical form, the event store within its 8,192 records (R508), the power limit
in its range (R501, R517). -/
structure Sound (s : State) : Prop where
  memory : Memory.wf s.mem
  store : s.fer.events.length ≤ 8192
  limitLow : 1500 ≤ s.fer.limit
  limitHigh : s.fer.limit ≤ 3300

/-- What only ever grows: messages sent stay sent, no free value is drawn twice, rollback counters and revocations only rise
(R527), blown repair records stay (R519), the key hashes and the debug fuse are as manufactured (R526, R536). -/
structure Forward (s t : State) : Prop where
  sent : s.out <:+ t.out
  drawn : s.free ≤ t.free
  counters : ∀ c, s.sec.svn.get 0 c ≤ t.sec.svn.get 0 c
  revoked : s.sec.revoked ||| t.sec.revoked = t.sec.revoked
  fused : s.fer.fuses <+: t.fer.fuses
  keys : t.sec.keyHashes = s.sec.keyHashes
  debugFuse : t.sec.debugDisable = s.sec.debugDisable

/-! ## The terms of the statements -/

/-- A command is carried out: it answers a next state, of which a property holds. -/
abbrev Does (c : Instr) (s : State) (p : State → Prop) : Prop := ∃ t, exec c s = .next t ∧ p t

/-- Core `c` is about to issue instruction `i` (R131, R143): it runs, nothing stalls it, and no register that the instruction
names waits for a RED. -/
structure Issues (s : State) (c : Nat) (i : NInstr) : Prop where
  run : (getCore s c).run = .running
  going : (getCore s c).halting = false
  free : (getCore s c).stall = .none
  native : (getCore s c).openEntry = false
  here : curIns (getCore s c) = some i
  unlocked : ∀ r ∈ usesReg i, r ∉ (getCore s c).locked

/-- What a fault of a program leaves of its core (R161, R163, R169, R170): FAULTED, queues and streams empty, the record
written, or MORE set in a record that is still valid. -/
structure Faulted (c engine : Nat) (atIssue : Bool) (f : Flt) (s t : State) : Prop where
  run : (getCore t c).run = .faulted
  queues : (getCore t c).queues = []
  streams : (getCore t c).streams = []
  fresh : (getCore s c).fault.getLsbD 31 = false →
    (getCore t c).fault.toNat =
      statusNum (causeStatus f.cause) + 2 ^ 8 * f.cause + 2 ^ 16 * engine + 2 ^ 19 * b2n atIssue + 2 ^ 31 ∧
    (getCore t c).faultInfo = BitVec.ofNat 32 f.info
  more : (getCore s c).fault.getLsbD 31 = true →
    (getCore t c).fault = (getCore s c).fault ||| 0x40000000 ∧ (getCore t c).faultInfo = (getCore s c).faultInfo
  registers : (getCore t c).sregs = (getCore s c).sregs ∧ (getCore t c).sram = (getCore s c).sram ∧
    (getCore t c).counts = (getCore s c).counts ∧ (getCore t c).pc = (getCore s c).pc

/-- The accesses of function `fn` reach the device: the link is up, and an IDE stream is there where the function needs one (R472). -/
abbrev HostOpen (s : State) (fn : Nat) : Prop := barOpen s = true ∧ fn ≤ 8 ∧ hostReach s fn = true

/-- A descriptor stands in a phase. -/
abbrev Stands (s : State) (id : Nat) (ph : DescPhase) : Prop := ∃ d, findDesc s id = some d ∧ d.phase = ph

/-- A descriptor of an opcode whose turn in its ring has come (R454) and whose checks are next (R458). -/
structure AtTurn (s : State) (id op : Nat) (d : Desc) : Prop where
  found : findDesc s id = some d
  fetched : d.phase = .fetched
  code : d.opcode = op
  turn : ringTurn s d = true

/-- A request packet that a port receives and its partition admits (R365, R372, R375): intact, of the source's present epoch, with the
PSN its sequence expects, for a started partition, inside its quota, of no other attempt; no packet waits behind a held one, and no access
to memory waits for tokens. -/
structure Admitted (s : State) (port : Nat) (k : Packet) (n : Nat) : Prop where
  up : portUp s port = true
  unblocked : vcBlocked s port k.vc = false
  intact : k.ecrc = pktEcrc k
  epoch : s.fab.epochs.get none k.src = some k.epoch
  expected : (getRx s k.src k.flow k.vc).expected = some k.psn
  psn : k.psn < 2 ^ 24
  flow : k.flow < 8
  single : k.mcast = false
  job : jobPart s k.job = some n
  ranges : fits s n k = true
  present : attemptOrder s n k = 0
  parked : s.fab.parked = []
  served : s.mem.waiting = []

/-- A request with a property is open in the device's sequences: unacknowledged, or waiting to be sent (R372). -/
abbrev Asks (t : State) (p : Packet → Prop) : Prop := ∃ e ∈ t.fab.tx, ∃ o ∈ e.2.unacked ++ e.2.waitingQ, p o.pkt

/-- Partition `n` can send: it holds a job, and no destination is found unreachable (R373, R375). -/
abbrev Reaches (s : State) (n : Nat) : Prop := n ∈ partNums ∧ partJob s n ≠ 0 ∧ ∀ node, (getDest s node).unreachable = false

/-- What leaves a port is LINK flits only (R361). -/
abbrev LinkFlits (p : Nat) (l : List Out) : Prop := ∀ o ∈ l, ∃ b, o = .flit p b ∧ leAt b 0 1 = 0x01

/-- The cores of a device reset (R486): cleared, but for the accumulator rows of the MMAs that it ended (R120). -/
abbrev CoresCleared (s t : State) : Prop := ∀ c, getCore t c = { acc := (getCore t c).acc } ∧
  ((∀ e ∈ s.cores, e.1 = c → startedRows e.2 (fun _ => true) = []) → getCore t c = {})

/-- A packet with a property has left a port, or waits there for credit (R364). -/
abbrev Sends (t : State) (port : Nat) (p : Packet → Prop) : Prop := ∃ k, (.packet port k ∈ t.out ∨ k ∈ (getPort t port).queue) ∧ p k

end Sys2Proof.Machine
end

