-- ==== Sys2Proof/Certificates/Slice0/Obligations.lean ====
section
/-!
DEFINITION. The statements about the device, for the provers. Each says which rule of the spec it formalises, or which choice
of the model it rests on. `Does c s p` says that the command completes; a next state written out in full, or as an update of
the state before it, says what the command leaves unchanged.
-/
open Sys2Proof Sys2Proof.Machine

/-- R177: SOP writes op(a, b) into s[RA]; a is s[RB], b is s[RC], or IMM when FLAGS bit 0 is 1. FADD, FMUL and FCVT round the
exact result to FP32, with zeros above bit 31; ICVT rounds an FP32 value to the nearest integer, ties away from zero (R41), and saturates. -/
def Obligations.SopWritesResult : Prop :=
  ∀ (s : State) (c : Nat) (i : NInstr), Issues s c i → i.op = 0x01 →
    let k := getCore s c
    let a := sreg k i.rb
    let b := if i.flags.getLsbD 0 then i.imm else sreg k i.rc
    let x := fp32Num (a.toNat % 2 ^ 32)
    let y := fp32Num (b.toNat % 2 ^ 32)
    let gives (v : DWord) : Prop :=
      exec (.sop c) s = .next (setCore c { k with sregs := Tbl.set 0 k.sregs i.ra v, pc := k.pc + 1 } s)
    (i.mod = 0 → gives (a + b)) ∧ (i.mod = 1 → gives (a - b)) ∧ (i.mod = 2 → gives (a * b)) ∧
    (i.mod = 3 → gives (a &&& b)) ∧ (i.mod = 4 → gives (a ||| b)) ∧ (i.mod = 5 → gives (a ^^^ b)) ∧
    (i.mod = 6 → gives (a <<< (b.toNat % 64))) ∧ (i.mod = 7 → gives (a >>> (b.toNat % 64))) ∧
    (i.mod = 8 → gives (a.sshiftRight (b.toNat % 64))) ∧
    (i.mod = 9 → gives (if a.toInt ≤ b.toInt then a else b)) ∧ (i.mod = 10 → gives (if a.toInt ≤ b.toInt then b else a)) ∧
    (i.mod = 11 → gives (if a.toNat ≤ b.toNat then a else b)) ∧ (i.mod = 12 → gives (if a.toNat ≤ b.toNat then b else a)) ∧
    (i.mod = 13 → gives (BitVec.ofNat 64 (toFp32 (numAdd x y)))) ∧ (i.mod = 14 → gives (BitVec.ofNat 64 (toFp32 (numMul x y)))) ∧
    (i.mod = 15 → gives (BitVec.ofNat 64 (toFp32 (numOfInt a.toInt 0 false)))) ∧
    (13 ≤ i.mod ∧ i.mod ≤ 15 → ∃ v : DWord, v.toNat < 2 ^ 32 ∧ gives v) ∧
    (i.mod = 16 → (x = .nan → gives 0) ∧ (x = .inf false → gives (BitVec.ofNat 64 (2 ^ 63 - 1))) ∧
      (x = .inf true → gives (BitVec.ofNat 64 (2 ^ 63))) ∧
      ∀ n m e, x = .fin n m e →
        let r : Nat := if 0 ≤ e then m * 2 ^ e.toNat else (2 * m + 2 ^ (-e).toNat) / (2 * 2 ^ (-e).toNat)
        gives (if n then BitVec.ofInt 64 (-(min r (2 ^ 63) : Nat)) else BitVec.ofNat 64 (min r (2 ^ 63 - 1)))) ∧
    (i.mod = 17 → gives a)

/-- R178: SMOVI writes IMM into s[RA]; SLD reads 1, 2, 4 or 8 bytes of core SRAM at s[RB] + IMM, address bits below the size
ignored, zero- or sign-extended; SST writes the low bytes of s[RA] there and changes no other byte. R179: SID writes the value
that MOD selects into s[RA]. R144: BR compares s[RA] and s[RB] by its condition and branches to instruction IMM[31:0] of the active bank
when it holds, else goes on; the FP32 conditions read bits [31:0]. -/
def Obligations.ScalarInstructions : Prop :=
  ∀ (s : State) (c : Nat) (i : NInstr), Issues s c i →
    let k := getCore s c
    let n := 2 ^ (i.mod % 4)
    let a := (sreg k i.rb + i.imm).toNat / n * n
    let gives (x : Instr) (v : DWord) : Prop :=
      exec x s = .next (setCore c { k with sregs := Tbl.set 0 k.sregs i.ra v, pc := k.pc + 1 } s)
    (i.op = 0x02 → gives (.smovi c) i.imm) ∧
    (i.op = 0x03 → a < 524288 → i.mod < 4 → gives (.sld c .clean) (BitVec.ofNat 64 (leNat (sramRd k a n)))) ∧
    (i.op = 0x03 → a < 524288 → 4 ≤ i.mod → i.mod < 8 →
      gives (.sld c .clean) ((BitVec.ofNat (8 * n) (leNat (sramRd k a n))).signExtend 64)) ∧
    (i.op = 0x04 → a < 524288 → Does (.sst c) s fun t =>
      sramRd (getCore t c) a n = leBytes n (sreg k i.ra).toNat ∧
      (∀ b, b < a ∨ a + n ≤ b → sramRd (getCore t c) b 1 = sramRd k b 1) ∧
      t = setCore c { k with sram := (getCore t c).sram, pc := k.pc + 1 } s) ∧
    (i.op = 0x05 →
      (i.mod = 0 → gives (.sid c) (BitVec.ofNat 64 (c % 64))) ∧ (i.mod = 1 → gives (.sid c) (BitVec.ofNat 64 (c / 64))) ∧
      (i.mod = 2 → gives (.sid c) (BitVec.ofNat 64 k.part)) ∧ (i.mod = 3 → gives (.sid c) (BitVec.ofNat 64 k.group)) ∧
      (i.mod = 4 → gives (.sid c) (BitVec.ofNat 64 k.rank)) ∧ (i.mod = 5 → gives (.sid c) (BitVec.ofNat 64 k.size)) ∧
      (∀ m < 4, i.mod = 6 + m →
        gives (.sid c) (match k.loops.reverse[m]? with | some l => BitVec.ofNat 64 l.iter | none => 0)) ∧
      (i.mod = 10 → gives (.sid c) s.now) ∧
      (i.mod = 11 → gives (.sid c) (match openStep s k.part with | some t => t.num | none => BitVec.allOnes 64)) ∧
      (i.mod = 12 → gives (.sid c) (match openStep s k.part with | some t => t.seed | none => 0)) ∧
      (∀ e, 1 ≤ e → e ≤ 5 → i.mod = 12 + e → gives (.sid c) (countOf k e))) ∧
    (i.op = 0x12 →
      let v := (sreg k i.ra).toNat
      let w := (sreg k i.rb).toNat
      let x := fp32Num (v % 2 ^ 32)
      let y := fp32Num (w % 2 ^ 32)
      let holds : Prop := match i.mod with
        | 0 => v = w | 1 => v ≠ w
        | 2 => (sreg k i.ra).toInt < (sreg k i.rb).toInt | 3 => (sreg k i.rb).toInt ≤ (sreg k i.ra).toInt
        | 4 => v < w | 5 => w ≤ v
        | 6 => numEq x y = true | 7 => numLt x y = true | 8 => numLt y x = true ∨ numEq x y = true | _ => x = .nan
      let t := i.imm.toNat % 2 ^ 32
      (holds → Does (.br c) s fun u => u = setCore c { k with pc := t, loops := (getCore u c).loops } s ∧
        (getCore u c).loops <:+ k.loops ∧
        ∀ l r, (getCore u c).loops = l :: r → inBody (bankOf k k.active).code l t = true) ∧
      (¬holds → exec (.br c) s = .next (setCore c { k with pc := k.pc + 1 } s)))

/-- R178: an SLD or SST at or above 524,288 faults with SRAM_BOUNDS; R148, R162: an uncorrectable word faults an SLD with
SRAM_UE; R180: HALT with MOD 1 faults with USER and its IMM[31:0]; R140: a LOOP count with high bits set, and R136: an ASPUSH
count above 4,096, fault with COUNT; R152: BANKSWAP to a bank that does not match faults with BANK_GEN. In a step of its
partition, the core is left as R161, R163, R169 and R170 say. -/
def Obligations.IssueFaults : Prop :=
  ∀ (s : State) (c : Nat) (i : NInstr), Issues s c i → (openStep s (getCore s c).part).isSome →
    let k := getCore s c
    let n := 2 ^ (i.mod % 4)
    let a := (sreg k i.rb + i.imm).toNat / n * n
    (i.op = 0x03 → 524288 ≤ a → ∀ e, Does (.sld c e) s (Faulted c 0 true { cause := 0x09, info := a % 2 ^ 32 } s)) ∧
    (i.op = 0x03 → a < 524288 → ∀ u, Does (.sld c (.uncorrectable u)) s (Faulted c 0 true { cause := 0x0D, info := u } s)) ∧
    (i.op = 0x04 → 524288 ≤ a → Does (.sst c) s (Faulted c 0 true { cause := 0x09, info := a % 2 ^ 32 } s)) ∧
    (i.op = 0x14 → i.mod = 1 →
      Does (.haltFault c) s (Faulted c 0 true { cause := 0x10, info := i.imm.toNat % 2 ^ 32 } s)) ∧
    (i.op = 0x10 → 2 ^ 32 ≤ (sreg k i.ra).toNat → Does (.loop c) s (Faulted c 0 true { cause := 0x0A } s)) ∧
    (i.op = 0x20 → 4096 < (sreg k i.rb).toNat → Does (.aspush c) s (Faulted c 0 true { cause := 0x0A } s)) ∧
    (i.op = 0x13 → (∀ l ∈ k.loads, l.2 ≠ 1 - k.active) →
      (bankOf k (1 - k.active)).valid = false ∨ (bankOf k (1 - k.active)).gen.toNat ≠ i.imm.toNat % 65536 →
      Does (.bankswap c) s (Faulted c 0 true { cause := 0x0C } s))

/-- R140, R180: LOOP latches a count and opens its body, a count of zero skips the body; ENDLOOP goes round again or closes the
loop; R152: BANKSWAP to a matching bank enters it; R157, R181: HALT with
MOD 0, or issue past the last instruction, ends the stream. R181: when issue runs past the last instruction of the object, the core halts as for HALT with MOD 0; a core started at an offset with
no Nellek meaning does what its operation there does, and no other core is changed. Of the model's choices it rests on log entry 67. -/
def Obligations.ControlFlow : Prop :=
  (∀ (s : State) (c : Nat) (i : NInstr), Issues s c i →
    let k := getCore s c
    let v := (sreg k i.ra).toNat
    let code := (bankOf k k.active).code
    let goes (x : Instr) (q : Core) : Prop := exec x s = .next (setCore c q s)
    (i.op = 0x10 → 0 < v → v < 2 ^ 32 →
      goes (.loop c) { k with pc := k.pc + 1, loops := { start := k.pc + 1, count := v, iter := 0 } :: k.loops }) ∧
    (i.op = 0x10 → v = 0 → ∀ e, matchEnd (code.drop (k.pc + 1)) (k.pc + 1) 0 = some e → goes (.loop c) { k with pc := e + 1 }) ∧
    (i.op = 0x11 → ∀ l r, k.loops = l :: r → l.iter + 1 < l.count →
      goes (.endloop c) { k with pc := l.start, loops := { l with iter := l.iter + 1 } :: r }) ∧
    (i.op = 0x11 → ∀ l r, k.loops = l :: r → l.count ≤ l.iter + 1 → goes (.endloop c) { k with pc := k.pc + 1, loops := r }) ∧
    (i.op = 0x13 → (∀ l ∈ k.loads, l.2 ≠ 1 - k.active) →
      let b := bankOf k (1 - k.active)
      let e := b.entries.getD (i.imm.toNat / 65536 % 8) 0xFFFF
      b.valid = true → b.gen.toNat = i.imm.toNat % 65536 →
      goes (.bankswap c) { k with active := 1 - k.active, pc := if e = 0xFFFF then b.code.length else e }) ∧
    (i.op = 0x14 → i.mod = 0 → goes (.halt c) { k with halting := true })) ∧
  (∀ (s : State) (c : Nat),
    let k := getCore s c
    k.run = .running → k.halting = false → k.stall = .none → (bankOf k k.active).code.length ≤ k.pc →
    (k.openEntry = false → exec (.issuePastEnd c) s = .next (setCore c { k with halting := true } s)) ∧
    (k.openEntry = true → exec (.issuePastEnd c) s = .next (wander c s) ∧
      ((openStep s k.part).isSome → ∀ b, b ≠ c → getCore (wander c s) b = getCore s b)))

/-- R133: EWAIT goes on when the engine's completion count is at least the value, and otherwise stalls; R139, R162: on an engine that
waits on an empty address stream it faults with DEADLOCK. R145, R182, R342: the verdict of a WAIT lets the core go on, or faults
it with WAIT_DEADLINE or REMOTE. R182 to R184: WAIT and SIG name a counter by s[RA]. For this device's counters the request or signal enters the mesh; a WAIT
stalls its core. For another device a WAIT is recorded with its origin and deadline, and a SIG stays outstanding at its core (R564). -/
def Obligations.WaitsAndSignals : Prop :=
  (∀ (s : State) (c : Nat) (i : NInstr),
    let k := getCore s c
    (Issues s c i → i.op = 0x15 → (sreg k i.ra).toNat ≤ (countOf k i.mod).toNat →
      exec (.ewait c) s = .next (setCore c { k with pc := k.pc + 1 } s)) ∧
    (Issues s c i → i.op = 0x15 → (countOf k i.mod).toNat < (sreg k i.ra).toNat → isHungry k i.mod = false →
      exec (.ewait c) s = .next (setCore c { k with stall := .ewait i.mod (sreg k i.ra) } s)) ∧
    (Issues s c i → i.op = 0x15 → (countOf k i.mod).toNat < (sreg k i.ra).toNat → isHungry k i.mod = true →
      (openStep s k.part).isSome → Does (.ewait c) s (Faulted c 0 false { cause := 0x0B } s)) ∧
    (k.run = .running → (∃ n, k.stall = .verdict .ok n) → curIns k = some i →
      exec (.waitVerdict c) s = .next (setCore c { k with pc := k.pc + 1, stall := .none } s)) ∧
    (k.run = .running → (∃ n, k.stall = .verdict .syncTimeout n) → curIns k = some i → (openStep s k.part).isSome →
      Does (.waitVerdict c) s (Faulted c 0 false { cause := 0x0E } s)) ∧
    (∀ n, k.run = .running → k.stall = .verdict .remoteUnreachable n → curIns k = some i → (openStep s k.part).isSome →
      Does (.waitVerdict c) s (Faulted c 0 false { cause := 0x0F, info := n } s))) ∧
  (∀ (s : State) (c : Nat) (i : NInstr), Issues s c i →
    let k := getCore s c
    let r := sreg k i.ra
    let index := r.toNat % 2 ^ 14
    let node := r.toNat / 2 ^ 48
    let here : Prop := r.getLsbD 16 = false ∨ node = nodeId s
    (i.op = 0x16 → here → exec (.wait c) s = .next { setCore c { k with stall := .wait } s with
      syn := { s.syn with requests := s.syn.requests ++ [{ part := k.part, issuer := k.part, index := index
                                                           expected := sreg k i.rb, deadline := (sreg k i.rc).setWidth 48
                                                           origin := .coreWait c, far := r.getLsbD 16, source := c,
                                                           no := s.syn.sent }],
                          sent := s.syn.sent + 1 } }) ∧
    (i.op = 0x16 → ¬here → k.part ≠ 0 → partJob s k.part ≠ 0 → (getDest s node).unreachable = false →
      Does (.wait c) s fun t =>
        getCore t c = { k with stall := .wait } ∧
        t.syn = { s.syn with remotes := s.syn.remotes ++
          [{ origin := .coreWait c, deadline := (sreg k i.rc).setWidth 48, node := node }] }) ∧
    (i.op = 0x17 → i.mod = 0 → here → exec (.sigControlCore c) s = .next
      { setCore c { k with pc := k.pc + 1, sigNo := (k.sigNo + 1) % 2 ^ 20 } s with
        syn := { s.syn with signals := s.syn.signals ++
          [{ part := k.part, index := index, inc := i.imm.toNat % 2 ^ 32, origin := .none, far := r.getLsbD 16, source := c,
             no := s.syn.sent }],
                            sent := s.syn.sent + 1 } }) ∧
    (i.op = 0x17 → i.mod = 0 → ¬here → k.part ≠ 0 → partJob s k.part ≠ 0 → (getDest s node).unreachable = false →
      Does (.sigControlCore c) s fun t =>
        getCore t c = { k with pc := k.pc + 1, sigNo := (k.sigNo + 1) % 2 ^ 20, sigsOut := k.sigNo :: k.sigsOut } ∧
        t.syn = s.syn))

/-- R136, R185: ASPUSH appends to stream MOD an entry of base s[RA], count s[RB] and the signed 20-bit stride of s[RC]; a count of
zero adds none; a full stream stalls it. R131, R176: an instruction of an engine enters that engine's queue with the register values it names, and the control core
goes on; a full queue of 16 entries stalls it. R143: the register of a RED is locked. -/
def Obligations.EngineQueues : Prop :=
  (∀ (s : State) (c : Nat) (i : NInstr), Issues s c i → i.op = 0x20 →
    let k := getCore s c
    let n := (sreg k i.rb).toNat
    let l := k.streams.get [] i.mod
    (n = 0 → exec (.aspush c) s = .next (setCore c { k with pc := k.pc + 1 } s)) ∧
    (0 < n → n ≤ 4096 → 32 ≤ l.length → exec (.aspush c) s = .next s) ∧
    (0 < n → n ≤ 4096 → l.length < 32 → exec (.aspush c) s = .next (setCore c
      { k with pc := k.pc + 1
               streams := Tbl.set [] k.streams i.mod (l ++
                 [{ next := (sreg k i.ra).toNat, left := n, stride := ((sreg k i.rc).setWidth 20).toInt }]) } s))) ∧
  (∀ (s : State) (c : Nat) (i : NInstr), Issues s c i →
    let k := getCore s c
    let b := bankOf k k.active
    let enters (x : Instr) (e : Nat) (lock : List Nat) : Prop :=
      ((k.queues.get [] e).length < 16 → exec x s = .next (setCore c
        { k with pc := k.pc + 1, locked := lock ++ k.locked
                 queues := Tbl.set [] k.queues e (k.queues.get [] e ++
                   [{ pc := k.pc, bank := k.active, gen := b.gen, ins := i, args := latchArgs k i, tbase := b.tbase
                      native := lineMap s b.code k.pc }]) } s)) ∧
      (16 ≤ (k.queues.get [] e).length → exec x s = .next s)
    (i.op = 0x21 → i.mod = 0 → enters (.xferStore c) 5 []) ∧ (i.op = 0x21 → i.mod = 1 → enters (.xferLoad c) 5 []) ∧
    (i.op = 0x21 → i.mod = 2 → enters (.xferAddf c) 5 []) ∧ (i.op = 0x21 → i.mod = 3 → enters (.xferAddi c) 5 []) ∧
    (i.op = 0x21 → i.mod = 4 → enters (.xferPstore c) 5 []) ∧ (i.op = 0x21 → i.mod = 5 → enters (.xferPload c) 5 []) ∧
    (i.op = 0x21 → i.mod = 6 → enters (.xferRowcast c) 5 []) ∧ (i.op = 0x21 → i.mod = 7 → enters (.xferColcast c) 5 []) ∧
    (i.op = 0x17 → i.mod = 5 → enters (.sigXf c) 5 []) ∧
    (i.op = 0x30 → mmaCheck k i = none → enters (.mma c) (1 + i.mod % 2) []) ∧
    (i.op = 0x31 → wldCheck k i = none → enters (.wld c) (1 + i.mod % 2) []) ∧
    (i.op = 0x32 → wldCheck k i = none → enters (.wldm c) (1 + i.mod % 2) []) ∧
    (i.op = 0x33 → nrwCheck k i (nrwSetting s k.part i ((sreg k i.rd).toNat % 65536)) = none → enters (.nrw c) 4 []) ∧
    (i.op = 0x34 → enters (.dnrw c) 4 []) ∧ (i.op = 0x35 → enters (.vop c) 3 []) ∧
    (i.op = 0x36 → enters (.red c) 3 [i.ra]))

/-- R88, R105, R162, R191 to R193: an MMA, WLD, WLDM or NRW whose operands are not the ones its rules allow faults at issue. -/
def Obligations.OperandFaults : Prop :=
  ∀ (s : State) (c : Nat) (i : NInstr), Issues s c i → (openStep s (getCore s c).part).isSome →
    let k := getCore s c
    let a := issueTdesc k i.ra
    (i.op = 0x30 → (a.loc ≠ 0 ∨ a.fmt ≠ (issueTdesc k i.rb).fmt ∨ fmtNarrow a.fmt = false) →
      Does (.mma c) s (Faulted c 0 true { cause := 0x07 } s)) ∧
    (i.op = 0x30 → ∀ f, mmaCheck k i = some f → Does (.mma c) s (Faulted c 0 true f s)) ∧
    (i.op = 0x31 → (a.loc ≠ 0 ∨ fmtNarrow a.fmt = false) → Does (.wld c) s (Faulted c 0 true { cause := 0x07 } s)) ∧
    (i.op = 0x32 → (a.loc ≠ 0 ∨ fmtNarrow a.fmt = false) → Does (.wldm c) s (Faulted c 0 true { cause := 0x07 } s)) ∧
    (i.op = 0x33 → ∀ f, nrwCheck k i (nrwSetting s k.part i ((sreg k i.rd).toNat % 65536)) = some f →
      Does (.nrw c) s (Faulted c 0 true f s))

/-- R131, R137, R189: an idle engine starts the instruction at the front of its queue with the addresses it takes from its streams: the
instruction leaves the queue, and its unit's effect is in the core's state or faults the core. An MMA streams its operands, and
promotes when it completes. R40, R61, R162, R200: an operand that its rules do not allow faults the core before anything is done.
R137: an instruction whose streams run empty takes what they hold and waits. Of the model's choices it rests on log entries 10, 113. -/
def Obligations.UnitStarts : Prop :=
  ∀ (s : State) (c e : Nat) (q : Queued) (rest : List Queued),
    let k := getCore s c
    let tds := readTds k q
    let got := takeStreams (streamNeeds q tds) [] k.streams
    let cur (r : Running) : Tbl (List Running) := Tbl.set [] k.cur e [r]
    let k' : Core := { k with queues := Tbl.set [] k.queues e rest, cur := cur { q := q, tds := tds }, streams := got.2.1 }
    let faulted (t : State) : Prop := (openStep s k.part).isSome → (getCore t c).run = .faulted ∧ (getCore t c).queues = []
    k.run = .running → 1 ≤ e → e ≤ 5 → k.cur.get [] e = [] → k.queues.get [] e = q :: rest → rowsBusy k q.ins tds = false →
    (∀ ecc, Does (.engineStart c e ecc) s fun t => (getCore t c).run = .running →
      (getCore t c).queues.get [] e = rest ∧ ∃ r, (getCore t c).cur.get [] e = [r] ∧ r.q = q) ∧
    (∀ f, startFlt q tds = some f → (openStep s k.part).isSome → Does (.engineStart c e .clean) s (Faulted c e false f s)) ∧
    (startFlt q tds = none → got.2.2 = true →
      let runs (r : Core × Option Flt) : Prop := match r.2 with
        | none => exec (.engineStart c e .clean) s = .next (setCore c r.1 s)
        | some _ => Does (.engineStart c e .clean) s faulted
      (q.ins.op = 0x30 → k.inj = 0 →
        let x := runMma k' q tds got.1
        runs ({ x.2.1.core with rerun := Tbl.set [] x.2.1.core.rerun (q.ins.mod % 2) (lastSlabs x.2.1.passes)
                                cur := cur { q := q, tds := tds, mask := x.1, passes := x.2.1.passes, skipped := x.2.1.skipped } }, x.2.2)) ∧
      (q.ins.op = 0x31 → runs (runWld k' q tds got.1)) ∧ (q.ins.op = 0x32 → runs (runWld k' q tds got.1)) ∧
      (q.ins.op = 0x34 → runs (runDnrw k' tds)) ∧ (q.ins.op = 0x35 → runs (runVop k' q.ins tds)) ∧
      (q.ins.op = 0x36 → match runRed k' q.ins tds with
        | .ok v => exec (.engineStart c e .clean) s = .next (setCore c { k' with cur := cur { q := q, tds := tds, result := some v } } s)
        | .error _ => Does (.engineStart c e .clean) s faulted) ∧
      (q.ins.op = 0x33 → bitOf q.ins.flags.toNat 1 = false → isStarted s k.part = true → match runNrw k' q tds none with
        | ((w, some b), none) => exec (.engineStart c e .clean) s = .next (updGov k.part (fun g => { g with inbox := g.inbox ++ [(c, b)] }) (setCore c w s))
        | ((w, none), none) => exec (.engineStart c e .clean) s = .next (setCore c w s)
        | (_, some _) => Does (.engineStart c e .clean) s faulted)) ∧
    (startFlt q tds = none → got.2.2 = false → addressFault { k' with streams := got.2.1 } q tds got.1 = false → k.stall = .none →
      exec (.engineStart c e .clean) s = .next (setCore c { k' with cur := cur { q := q, tds := tds, hungry := true, taken := got.1 } } s))

/-- R120, R124: an MMA changes no accumulator entry while it streams, and when it completes none of the other array and none of a row
outside the rows it works on; no scalar register and no completion count. -/
def Obligations.MmaStaysInItsRows : Prop :=
  ∀ (k h : Core) (q : Queued) (tds : List Bytes) (got : Tbl (List Int)) (fixes : List Fix) (tr lf array row col : Nat),
    let p := mmaPar0 q tds
    let x := runMma k q tds got
    let r : Running := { q := q, tds := tds, mask := x.1, passes := x.2.1.passes, skipped := x.2.1.skipped, fixes := fixes, transients := tr, laneFaults := lf }
    let t := (endMma h r).1
    let kept (a b : Core) : Prop := b.sregs = a.sregs ∧ b.counts = a.counts ∧ b.queues = a.queues
    x.2.1.core.acc = k.acc ∧ x.2.1.core.sram = k.sram ∧ kept k x.2.1.core ∧
    (p.base + p.m * p.nt ≤ 512 → array < 2 → row < 512 → col < 32 →
      (array ≠ p.array ∨ row < p.base ∨ p.base + p.m * p.nt ≤ row) →
      (bitOf p.flags 1 = true → bitOf p.flags 2 = false → (tdAt tds 2).loc = 0) →
      accGet t array row col = accGet h array row col ∧ kept h t)

/-- R132, R133, R143: the oldest instruction an engine has started completes when nothing it needs is open: its count advances by one, a
RED's result is in its register, which is free again, and a stalled EWAIT whose count has come goes on. R105, R121, R124: an MMA
promotes, writes back and records then; a write-back that faults ends it. R157, R564: a halting core whose engines are idle, whose
queues are empty and whose remote signals are acknowledged enters HALTED; what its address streams hold is dropped. Of the
model's choices it rests on log entry 10. -/
def Obligations.CompletionsAndHalts : Prop :=
  (∀ (s : State) (c e : Nat) (r : Running) (rest : List Running),
    let k := getCore s c
    let x := if r.q.ins.op = 0x30 then endMma k r else (k, none)
    k.cur.get [] e = r :: rest → r.hungry = false → r.waiting = 0 → (r.q.ins.op = 0x30 → voting k e = false) →
    (r.q.ins.op = 0x21 → bucketOwes s k.part k.group = false) → (r.q.ins.op = 0x33 → ∀ b ∈ (getPart s k.part).gov.inbox, b.1 ≠ c) →
    (x.2.isSome = true → k.run = .running → (openStep s k.part).isSome = true →
      Does (.engineCompletion c e) s fun t => (getCore t c).run = .faulted ∧ (getCore t c).counts = k.counts) ∧
    (x.2 = none → Does (.engineCompletion c e) s fun t =>
      let u := getCore t c
      t = setCore c u s ∧ countOf u e = countOf k e + 1 ∧ (∀ d, d ≠ e → countOf u d = countOf k d) ∧
      u.cur.get [] e = rest ∧
      (∀ v, r.result = some v → sreg u r.q.ins.ra = v ∧ u.locked = k.locked.erase r.q.ins.ra) ∧
      (∀ j, r.result = none ∨ j ≠ r.q.ins.ra → sreg u j = sreg k j) ∧
      (∀ d v, k.stall = .ewait d v →
        if v.toNat ≤ (countOf u d).toNat then u.stall = .none ∧ u.pc = k.pc + 1 else u.stall = k.stall ∧ u.pc = k.pc) ∧
      u.sram = x.1.sram ∧ u.acc = x.1.acc)) ∧
  (∀ (s : State) (c : Nat),
    let k := getCore s c
    k.run = .running → k.halting = true → k.cur = [] → k.queues = [] → k.sigsOut = [] →
    (streamDesc (setCore c { k with run := .halted, halting := false, streams := [] } s) c = none →
      exec (.coreHalted c) s = .next (setCore c { k with run := .halted, halting := false, streams := [] } s)) ∧
    (∀ d, streamDesc (setCore c { k with run := .halted, halting := false, streams := [] } s) c = some d → d.phase = .started →
      (∀ x ∈ groupCores (getPart s d.fn) (d.at 16 2), x = c ∨ (getCore s x).run = .halted) →
      findDesc s d.id = some d → d.codes = [] → k.codes = [] →
      (∀ x ∈ groupCores (getPart s d.fn) (d.at 16 2), (getCore s x).codes = []) →
      Does (.coreHalted c) s fun t => (findDesc t d.id).map Desc.phase = some (.done .ok) ∧ (getCore t c).run = .halted))

/-- R115, R116: the check lane's sum for a group of rows is compared with the sum of its run sums, exactly, for E5M2 within its bound; without
an error the comparison passes. R126: an injection in the array is found and is a transient, one in the check lane a check-lane fault.
R118, R119: a comparison that fails is held for its re-run; a re-run that gives the original sums counts a check-lane fault and keeps
them, one that agrees with the check lane counts a transient and replaces them; R120, R162: any other ends the MMA with SUSPECT.
R125, R126, R169, R170: the write-one bits of a core's window: CLEAR of CORE_MA_CHK zeroes an array's counts, PF0 alone arms an
injection, and VALID of CORE_FAULT clears the whole record. -/
def Obligations.ArrayChecks : Prop :=
  (∀ (p : MmaPar) (t : TilePass) (x : LanePlace), x.outlier = false →
    let g := groupCodes p t x
    let u := groupSums p t x
    let c := groupCheck p t x
    g.1.length ≤ 4 → g.2.length ≤ 32 → (∀ r ∈ g.1, r.length = g.2.length) → (∀ r ∈ u.1, r.special = none) →
    (p.a.fmt ≠ fE5M2 → u.2.sum = c) ∧ checkPasses p.a.fmt u.1 u.2 c = true ∧ laneCompare p t x [] 0 = none ∧
    (placeThere t x = true → (∃ f, injectVote p t x false = some (.transient f) ∧ f.sums = u.2) ∧
      ∃ f, injectVote p t x true = some (.laneFault f) ∧ f.sums = u.2)) ∧
  (∀ (s : State) (c array : Nat) (r : Running), array ≤ 1 → runningMma (getCore s c) array = some r →
    let k := getCore s c
    let p := r.mma
    (∀ (x : LanePlace) (t : TilePass) (sums : List Int) (lane : Int), r.passes[x.pass]? = some t → r.verdicts ≤ x.pass →
      k.votes.get none array = none → placeThere t x = true →
      let held (v : Vote) : Prop := exec (.checkLaneDisagree c array x sums lane) s = .next (setCore c
        { k with votes := Tbl.set none k.votes array (some v), rerun := Tbl.set [] k.rerun array (rerunSlabs t x.row) } s)
      let passes : Prop := exec (.checkLaneDisagree c array x sums lane) s = .next s
      (x.outlier = false →
        let g := groupSums p t x
        let a := withErrors g.2 sums
        let b := groupCheck p t x + lane
        ((∃ n ∈ g.1, n.special.isSome = true) → passes) ∧
        ((∀ n ∈ g.1, n.special = none) →
          (p.a.fmt ≠ fE5M2 → a.sum = b → passes) ∧
          (p.a.fmt ≠ fE5M2 → a.sum ≠ b → held { place := x, sums := a, check := b }) ∧
          (p.a.fmt = fE5M2 → (b - a.sum).natAbs < 2 ^ (topExp g.1 - 34 - chkUnit p.a.fmt).toNat → passes) ∧
          (p.a.fmt = fE5M2 → 2 ^ (topExp g.1 - 34 - chkUnit p.a.fmt).toNat ≤ (b - a.sum).natAbs →
            held { place := x, sums := a, check := b }))) ∧
      (x.outlier = true → (termAt p t x = none → passes) ∧ ∀ v, termAt p t x = some v →
        (v + sums.headD 0 = v + lane → passes) ∧
        (v + sums.headD 0 ≠ v + lane → held { place := x, sums := [v + sums.headD 0], check := v + lane }))) ∧
    (∀ (v : Vote) (t : TilePass) (errs : List Int), k.votes.get none array = some v → r.passes[v.place.pass]? = some t →
      let t' : TilePass := { t with slabs := k.rerun.get [] array }
      let g := groupSums p t' v.place
      let again := withErrors g.2 errs
      let term := (termAt p t' v.place).getD 0 + errs.headD 0
      let chk (x : Core) : Nat := (if array = 0 then x.chk0 else x.chk1).toNat
      let counts (lo : Nat) (f : List Int) : Prop := Does (.checkLaneVote c array errs) s fun t =>
        let u := getCore t c
        u.votes.get none array = none ∧ u.run = k.run ∧ u.acc = k.acc ∧ u.sram = k.sram ∧ bitsOf (chk u) lo 8 = min 255 (bitsOf (chk k) lo 8 + 1) ∧
        runningMma u array = some { r with fixes := { place := v.place, sums := f } :: r.fixes
                                           laneFaults := r.laneFaults + b2n (lo == 8), transients := r.transients + b2n (lo == 0) }
      let suspect : Prop := k.run = .running → (openStep s k.part).isSome → Does (.checkLaneVote c array errs) s fun t =>
        (getCore t c).run = .faulted ∧ (getCore t c).votes.get none array = none ∧ bitsOf (chk (getCore t c)) 16 8 = min 255 (bitsOf (chk k) 16 8 + 1) ∧
        (k.fault.getLsbD 31 = false → bitsOf (getCore t c).fault.toNat 8 8 = 0x05 ∧ bitsOf (getCore t c).fault.toNat 16 3 = 1 + array)
      (v.place.outlier = false →
        (again = v.sums → counts 8 v.sums) ∧
        (again ≠ v.sums → checkPasses p.a.fmt g.1 again v.check = true → counts 0 again) ∧
        (again ≠ v.sums → checkPasses p.a.fmt g.1 again v.check = false → suspect)) ∧
      (v.place.outlier = true →
        ([term] = v.sums → counts 0 v.sums) ∧ ([term] ≠ v.sums → term = v.check → counts 0 [term]) ∧
        ([term] ≠ v.sums → term ≠ v.check → suspect)))) ∧
  (∀ (s : State) (fn c : Nat), HostOpen s fn → windowReached s fn c = true →
    let k := getCore s c
    let u := barAccess s
    exec (.maChkClear fn c 0) s = .next (setCore c { k with chk0 := 0 } u) ∧
    exec (.maChkClear fn c 1) s = .next (setCore c { k with chk1 := 0 } u) ∧
    exec (.coreFaultClear fn c) s = .next (setCore c { k with fault := 0, faultPc := 0, faultInfo := 0 } u) ∧
    (fn = 0 → exec (.injArrayMa0 fn c) s = .next (setCore c { k with inj := k.inj ||| 1 } u)) ∧
    (fn = 0 → exec (.injArrayMa1 fn c) s = .next (setCore c { k with inj := k.inj ||| 2 } u)) ∧
    (fn = 0 → exec (.injLaneMa0 fn c) s = .next (setCore c { k with inj := k.inj ||| 4 } u)) ∧
    (fn = 0 → exec (.injLaneMa1 fn c) s = .next (setCore c { k with inj := k.inj ||| 8 } u)) ∧
    (fn ≠ 0 → exec (.injArrayMa0 fn c) s = .next u ∧ exec (.injArrayMa1 fn c) s = .next u ∧
      exec (.injLaneMa0 fn c) s = .next u ∧ exec (.injLaneMa1 fn c) s = .next u))

/-- R204, R259: outside a step a LOAD_PROGRAM that passes its checks is accepted: it joins the loads in acceptance order and targets its
bank on every core of its group, whether it starts now or at its not-before time (R150). R203: one that would overwrite the active bank of a running core ends IMEM_BUSY, and one of no
length does nothing. R205: a load whose object came from the host and translates writes its bank on every core it targets and completes; one that does
not translate ends XLATE_FAILED and writes no bank; R462: one whose object could not be read ends INTERNAL_ERROR.
Of the model's choices it rests on log entries 11, 68. -/
def Obligations.LoadProgram : Prop :=
  (∀ (s : State) (id : Nat) (d : Desc), AtTurn s id 0x01 d → openStep s d.fn = none →
    let cores := groupCores (getPart s d.fn) (d.at 16 2)
    let len := d.at 32 4
    let hits (c : Nat) : Prop := (getCore s c).run = .running ∧ loadBank (d.at 20 1) (getCore s c) = (getCore s c).active
    bitsOf (d.at 21 1) 3 5 = 0 → zeroAt d.bytes [(22, 2), (48, 16)] = true → d.at 20 1 ≤ 2 →
    hasGroup (getPart s d.fn) (d.at 16 2) = true →
    (len = 0 → d.codes = [] → Does (.loadProgram id) s fun t => Stands t id (.done .ok) ∧ t = { s with descs := t.descs }) ∧
    (0 < len → len ≤ 1048576 → d.at 24 8 % 8 = 0 → (d.at 36 4 = 0 ∨ 64 ≤ d.at 36 4) →
      (bitOf (d.at 21 1) 0 = true → gNode (d.at 24 8) = nodeId s → rangeReadOk s d.fn (d.at 24 8) len = true) →
      ((∃ c ∈ cores, hits c) → Does (.loadProgram id) s fun t => Stands t id (.done .imemBusy) ∧ t = { s with descs := t.descs }) ∧
      ((∀ c ∈ cores, ¬hits c) → (bitOf (d.at 21 1) 1 = true → ∀ c ∈ cores, (getCore s c).run ≠ .running) →
        Does (.loadProgram id) s fun t =>
          Stands t id (if startsNow s d then .started else .waiting) ∧ t.ldr.queue = s.ldr.queue ++ [id] ∧
          (∀ c ∈ cores, (id, loadBank (d.at 20 1) (getCore s c)) ∈ (getCore t c).loads) ∧
          (∀ c, c ∉ cores → getCore t c = getCore s c) ∧
          t = { s with descs := t.descs, cores := t.cores, ldr := { s.ldr with queue := t.ldr.queue } }))) ∧
  (∀ (s : State) (dt id : Nat) (d : Desc) (o : Bytes), findDesc s id = some d → d.phase = .started → id ∈ s.ldr.queue →
    loadBlocked s id = false → bitOf (d.at 21 1) 0 = false → bitOf (d.at 21 1) 1 = false → d.at 40 8 = 0 → d.codes = [] →
    let b := sliceB o 0 (d.at 32 4)
    (Does (.loadProgramDone dt id (.data o)) s fun t => id ∉ t.ldr.queue ∧
      match translate (opsOf s) b with
      | .ok i => Stands t id (.done .ok) ∧
          ∀ c bank, (getCore s c).loads.find? (fun l => l.1 == id) = some (id, bank) →
            (bankOf (getCore t c) bank).valid = true ∧ (bankOf (getCore t c) bank).gen = BitVec.ofNat 16 (d.at 18 2) ∧
            (bankOf (getCore t c) bank).code = i.code ∧ (bankOf (getCore t c) bank).entries = i.entries ∧
            (bankOf (getCore t c) bank).hash = sha256 b ∧ (∀ l ∈ (getCore t c).loads, l.1 ≠ id) ∧
            (getCore t c).run = (getCore s c).run ∧ (getCore t c).sregs = (getCore s c).sregs
      | .error _ => Stands t id (.done .xlateFailed) ∧
          ∀ c, (getCore t c).bank0 = (getCore s c).bank0 ∧ (getCore t c).bank1 = (getCore s c).bank1) ∧
    (Does (.loadProgramDone dt id .failed) s fun t =>
      Stands t id (.done .internalError) ∧ id ∉ t.ldr.queue ∧ bitOf (regN t (hif d.fn 4)) 6 = true ∧
      ∀ c, (getCore t c).bank0 = (getCore s c).bank0 ∧ (getCore t c).bank1 = (getCore s c).bank1))

/-- R129, R132, R153, R155: a START_STREAM outside a step starts every core of its group: running from the bank that holds the
generation, arguments in s0 to s3, the other registers zero, completion counts zero. R259: in a step Slipway holds it, the 65th ends
DESC_BOUNDS. R155: with a core of the group still running it is refused. R156, R212: the stream of a group without cores of its own
ends at once. Of the model's choices it rests on log entries 11, 126. -/
def Obligations.StartStream : Prop :=
  ∀ (s : State) (id : Nat) (d : Desc), AtTurn s id 0x02 d →
    let gen := BitVec.ofNat 16 (d.at 18 2)
    let cores := groupCores (getPart s d.fn) (d.at 16 2)
    (streamCheck s d = none → startsNow s d = true → openStep s d.fn = none → cores = [] → d.codes = [] → Does (.startStream id) s fun t =>
      Stands t id (.done .ok) ∧ t = { s with descs := t.descs }) ∧
    (streamCheck s d = none → startsNow s d = true → openStep s d.fn = none → cores ≠ [] → Does (.startStream id) s fun t =>
      Stands t id .started ∧ t = { leaveIdle s with cores := t.cores, descs := t.descs } ∧
      (∀ c, c ∉ cores → getCore t c = getCore s c) ∧
      ∀ c ∈ cores,
        let u := getCore t c
        u.run = .running ∧ (bankOf u u.active).valid = true ∧ (bankOf u u.active).gen = gen ∧ u.counts = [] ∧
        (∀ j, sreg u j = if j < 4 then BitVec.ofNat 64 (d.at (32 + 8 * j) 8) else 0) ∧
        u.sram = (getCore s c).sram ∧ u.acc = (getCore s c).acc ∧
        (d.at 20 4 / 8 < 8 → ∀ e, (bankOf u u.active).entries[d.at 20 4 / 8]? = some e → e ≠ 0xFFFF →
          u.pc = e ∧ u.openEntry = false)) ∧
    (∀ st, streamCheck s d = none → startsNow s d = true → openStep s d.fn = some st → st.streams.length < 64 →
      Does (.startStream id) s fun t =>
        Stands t id .held ∧ ∃ st', openStep t d.fn = some st' ∧ st'.streams = st.streams ++ [id]) ∧
    (∀ st, streamCheck s d = none → openStep s d.fn = some st → 64 ≤ st.streams.length →
      Does (.startStream id) s fun t => Stands t id (.done .descBounds) ∧ t = { s with descs := t.descs }) ∧
    ((∃ c ∈ cores, (getCore s c).run = .running) → hasGroup (getPart s d.fn) (d.at 16 2) = true →
      Does (.startStream id) s fun t => Stands t id (.done .descMalformed) ∧ t = { s with descs := t.descs })

/-- R464 to R466: a fetched descriptor takes the next acceptance number and its function's next journal sequence number; its journal entry
is written with no status and no completion time; the submission queue's head moves on. R458: what the header's checks refuse is
refused, in the order of the table. -/
def Obligations.DescriptorFetched : Prop :=
  ∀ (s : State) (dt r : Nat) (b : Bytes), b.length = 64 → mayFetch (pass dt s) r = true → (∀ e ∈ s.descs, e.id < s.accepts) →
    let fn := ringOwner s r
    let no := (s.funcs.get {} fn).jseq
    Does (.descriptorFetch dt r b) s fun t =>
      (∃ d, t.descs = s.descs ++ [d] ∧ d.id = s.accepts ∧ d.fn = fn ∧ d.ring = r ∧ d.jseq = no ∧ d.bytes = b ∧
        d.accepted = (pass dt s).now ∧
        d.phase = (match fetchCheck (pass dt s) fn b with | none => .fetched | some st => .done st)) ∧
      t.accepts = s.accepts + 1 ∧ (∀ e ∈ t.descs, e.id < t.accepts) ∧ (t.funcs.get {} fn).jseq = no + 1 ∧
      (getRing t r).sqHead = ((getRing s r).sqHead + 1) % ringSize (getRing s r) ∧
      (∃ e, t.journal.get none (s.accepts % 4096) = some e ∧ e.fn = fn ∧ e.jseq = no ∧ e.ring = r ∧ e.status = 0 ∧ e.tDone = 0 ∧
        e.tag = BitVec.ofNat 32 (leAt b 4 4)) ∧
      t.cores = s.cores ∧ t.parts = s.parts ∧ t.mem = s.mem

/-- R455: a descriptor that has ended and whose writes are acknowledged is reported: it leaves the device, its completion entry with
status, tag and times goes to the completion queue's tail, and the tail moves on. R490: after a re-enable of its ring nothing is
written to the queue, and the function gets a notice. R463: a FENCE that waited for it can end, and no other descriptor changes. -/
def Obligations.DescriptorReported : Prop :=
  ∀ (s : State) (dt id : Nat) (d : Desc) (st : Status), findDesc s id = some d → d.phase = .done st →
    writesDone s d = true → hostReach s d.fn = true → s.flrPf0 = none →
    let g := getRing s d.ring
    let at_ : BitVec 48 := if d.refused then d.accepted.setWidth 48 else if now48 (pass dt s) = 0 then 1 else now48 (pass dt s)
    let e := journalEntry d (statusNum st) at_
    let a := BitVec.ofNat 64 (g.cqBase.toNat + 32 * g.cqTail)
    let left (t : State) : Prop := t.descs.map Desc.id = (s.descs.map Desc.id).filter (fun i => i != id) ∧
      ((∀ e ∈ s.descs, e.opcode ≠ 0x0A) → t.descs = s.descs.filter fun o => o.id != id) ∧
      (∀ o, s.journal.get none (id % 4096) = some o → o.fn = d.fn → o.jseq = d.jseq → t.journal.get none (id % 4096) = some e) ∧
      t.mem = s.mem ∧ t.cores = s.cores ∧ t.parts = s.parts ∧ t.clock = s.clock + dt
    (g.generation = d.generation → Does (.descriptorComplete dt id) s fun t => left t ∧
      .hostWrite d.fn a (entryBytes e g.sqHead g.phase) ∈ t.out ∧
      (getRing t d.ring).cqTail = (g.cqTail + 1) % ringSize g ∧
      (getRing t d.ring).phase = (if g.cqTail + 1 = ringSize g then !g.phase else g.phase)) ∧
    (g.generation ≠ d.generation → Does (.descriptorComplete dt id) s fun t => left t ∧
      t.rings = s.rings ∧ bitOf (regN t (hif d.fn 4)) 2 = true)

/-- R457: a descriptor with NB whose time has not come waits when its checks have passed; NOT_BEFORE_REACHED starts it. R463: a FENCE completes once the descriptors it waits for are complete. R347, R348: a SYNC_SIGNAL sends its increment, a SYNC_WAIT its
request, to the counter it names; R349: a local index past the partition's range is refused with DESC_BOUNDS and a zero increment
completes at once. Of the model's choices it rests on log entries 11, 14. -/
def Obligations.WaitsFencesAndCounters : Prop :=
  (∀ (s : State) (id : Nat) (d : Desc),
    (AtTurn s id 0x0A d → startsNow s d = false → bitsOf (d.at 16 1) 1 7 = 0 → zeroAt d.bytes [(17, 47)] = true →
      Does (.fence id) s fun t => Stands t id .waiting ∧ t = { s with descs := t.descs }) ∧
    (AtTurn s id 0x09 d → startsNow s d = false → fillCheck s d = none →
      Does (.fill id) s fun t => Stands t id .waiting ∧ t = { s with descs := t.descs }) ∧
    (AtTurn s id 0x10 d → startsNow s d = false → counterRsv (d.at 16 8) = false → zeroAt d.bytes [(28, 36)] = true →
      d.at 24 4 ≠ 0 → counterOut s d = false →
      Does (.syncSignal id) s fun t => Stands t id .waiting ∧ t = { s with descs := t.descs }) ∧
    (∀ dt, findDesc s id = some d → d.phase = .waiting → d.opcode = 0x0A → startsNow (pass dt s) d = true → d.codes = [] →
      Does (.notBeforeReached dt id) s fun t =>
        Stands t id (if fenceMet s d then .done .ok else .started) ∧ t = { pass dt s with descs := t.descs })) ∧
  (∀ (s : State) (id : Nat) (d : Desc), startsNow s d = true → d.codes = [] →
    let r : DWord := BitVec.ofNat 64 (d.at 16 8)
    let index := d.at 16 8 % 2 ^ 14
    let here : Prop := r.getLsbD 16 = false ∨ d.at 16 8 / 2 ^ 48 = nodeId s
    (AtTurn s id 0x0A d → bitsOf (d.at 16 1) 1 7 = 0 → zeroAt d.bytes [(17, 47)] = true →
      Does (.fence id) s fun t => Stands t id (if fenceMet s d then .done .ok else .started) ∧ t = { s with descs := t.descs }) ∧
    (AtTurn s id 0x10 d → counterRsv (d.at 16 8) = false → zeroAt d.bytes [(28, 36)] = true → here →
      (d.at 24 4 = 0 → Does (.syncSignal id) s fun t => Stands t id (.done .ok) ∧ t = { s with descs := t.descs }) ∧
      (d.at 24 4 ≠ 0 → r.getLsbD 16 = false → (getPart s d.fn).pcount ≤ index →
        Does (.syncSignal id) s fun t => Stands t id (.done .descBounds) ∧ t = { s with descs := t.descs }) ∧
      (d.at 24 4 ≠ 0 → r.getLsbD 16 = true ∨ index < (getPart s d.fn).pcount → Does (.syncSignal id) s fun t =>
        Stands t id .started ∧ t = { s with descs := t.descs, syn := { s.syn with sent := s.syn.sent + 1, signals := s.syn.signals ++
          [{ part := d.fn, index := index, inc := d.at 24 4, origin := .desc id, far := r.getLsbD 16, no := s.syn.sent }] } })) ∧
    (AtTurn s id 0x11 d → counterRsv (d.at 16 8) = false → zeroAt d.bytes [(38, 2), (40, 24)] = true → here →
      (r.getLsbD 16 = false → (getPart s d.fn).pcount ≤ index →
        Does (.syncWait id) s fun t => Stands t id (.done .descBounds) ∧ t = { s with descs := t.descs }) ∧
      (r.getLsbD 16 = true ∨ index < (getPart s d.fn).pcount → Does (.syncWait id) s fun t =>
        Stands t id .started ∧ t = { s with descs := t.descs, syn := { s.syn with sent := s.syn.sent + 1, requests := s.syn.requests ++
          [{ part := d.fn, issuer := d.fn, index := index, expected := BitVec.ofNat 64 (d.at 24 8)
             deadline := BitVec.ofNat 48 (d.at 32 6), origin := .desc id, far := r.getLsbD 16, no := s.syn.sent }] } })))

/-- R461: a FILL of a range of this device writes its word into every aligned word of the range and changes no other byte. R460: a COPY
from the host does the same with the host's bytes; R462: a host read that fails ends it INTERNAL_ERROR and writes nothing. R303: while its
bucket owes tokens for what it moved it is not complete. Of the model's choices it rests on log entries 11, 116. -/
def Obligations.FillAndCopy : Prop :=
  ∀ (s : State) (id : Nat) (d : Desc), d.fn ≠ 0 → startsNow s d = true → d.codes = [] → d.waiting = 0 → d.got = [] → s.mem.waiting = [] →
    let plain (a : Nat) : Prop := gNode a = nodeId s ∧ gStash a = false
    let writes (t : State) (a n : Nat) (f : Nat → Byte) : Prop :=
      Stands t id (if bucketOwes t d.fn 0 then .started else .done .ok) ∧ t = { s with descs := t.descs, mem := t.mem } ∧
      ∀ b, memByte t b = if gLocal a ≤ b ∧ b < gLocal a + n then f (b - gLocal a) else memByte s b
    (AtTurn s id 0x09 d → fillCheck s d = none → plain (flDst d) →
      Does (.fill id) s fun t => writes t (flDst d) (flLen d) fun i => (leBytes 4 (d.at 32 4)).getD (i % 4) 0) ∧
    (AtTurn s id 0x08 d → copyCheck s d = none → plain (cpDst d) → cpSrcHost d = true → hostReach s d.fn = true → ∀ h : Bytes,
      Does (.copy id (.data h)) s fun t => writes t (cpDst d) (cpLen d) fun i => h.getD i 0) ∧
    (AtTurn s id 0x08 d → copyCheck s d = none → cpSrcHost d = true → hostReach s d.fn = true →
      Does (.copy id .failed) s fun t => Stands t id (.done .internalError) ∧ t.mem = s.mem ∧ bitOf (regN t (hif d.fn 4)) 6 = true)

/-- R234, R235, R261, R262: a STEP_BEGIN that passes its checks opens its step: attempt 0 runs, its gate the present, stash slots released,
every core of the partition reset, the counter base table holding the counters as they stand. While a step is open, or about to
open, it waits; one that fails a check is refused with the code of the table and nothing else changes.
Of the model's choices it rests on log entries 11, 54, 60. -/
def Obligations.StepBegins : Prop :=
  ∀ (s : State) (id : Nat) (d : Desc), AtTurn s id 0x28 d →
    (beginWaits s d = true → exec (.stepBegin id) s = .next s) ∧
    (∀ st, beginWaits s d = false → beginCheck s d = some st → st ≠ .ok →
      Does (.stepBegin id) s fun t => Stands t id (.done st) ∧ t = { s with descs := t.descs }) ∧
    (beginWaits s d = false → beginCheck s d = none → startsNow s d = true → d.codes = [] → s.mem.waiting = [] →
      Does (.stepBegin id) s fun t => Stands t id (.done .ok) ∧
        (∃ p, openStep t d.fn = some p ∧ p.num = BitVec.ofNat 64 (d.at 16 8) ∧ p.seed = BitVec.ofNat 64 (d.at 24 8) ∧
          p.holdBase = d.at 32 8 ∧ p.holdLen = d.at 40 8 ∧ p.attempt = 0 ∧ p.phase = .running ∧ p.causes = 0 ∧ p.streams = [] ∧
          p.gate0 = s.now ∧ p.gate = s.now) ∧
        (getPart t d.fn).stash = {} ∧ (getPart t d.fn).rpc = {} ∧ (getPart t d.fn).last = (getPart s d.fn).last ∧
        (∀ c ∈ partCores s d.fn, (getCore t c).run = .idle ∧ (getCore t c).sregs = [] ∧ (getCore t c).queues = [] ∧
          (getCore t c).counts = [] ∧ (getCore t c).fault = 0 ∧ (getCore t c).sram = (getCore s c).sram) ∧
        (∀ c, c ∉ partCores s d.fn → getCore t c = getCore s c) ∧
        (∀ n, n ≠ d.fn → getPart t n = getPart s n) ∧
        (govCount s d.fn = 0 → ∀ i < (getPart s d.fn).pcount,
          devRd t (reg64 s (ctx bSlwCtx d.fn 0x14) + 8 * i) 8 = leBytes 8 (getCounter s ((getPart s d.fn).pbase + i)).toNat) ∧
        t.syn.counters = s.syn.counters ∧ t.sites = s.sites ∧ t.places = s.places ∧ t.rings = s.rings ∧ t.pipes = s.pipes ∧
        t.sec = s.sec ∧ t.brd = s.brd ∧ t.now = s.now)

/-- R237, R27: a STEP_COMMIT that names the open step waits for its end; one that does not is refused. R237, R264: at the point of commit the
step is closed and becomes the last committed one, its stash is released, and its STEP_COMMITs are complete.
Of the model's choices it rests on log entries 11, 56. -/
def Obligations.StepCommits : Prop :=
  ∀ (s : State) (id : Nat) (d : Desc),
    (AtTurn s id 0x29 d → ∀ p, openStep s d.fn = some p → p.num = BitVec.ofNat 64 (d.at 16 8) → zeroAt d.bytes [(24, 40)] = true →
      startsNow s d = true → Does (.stepCommit id) s fun t => Stands t id .held ∧ t = { s with descs := t.descs }) ∧
    (AtTurn s id 0x29 d → (openStep s d.fn = none ∨ ∃ p, openStep s d.fn = some p ∧ p.num ≠ BitVec.ofNat 64 (d.at 16 8)) →
      Does (.stepCommit id) s fun t => Stands t id (.done .descMalformed) ∧ t = { s with descs := t.descs }) ∧
    (∀ dt n p, openStep s n = some p → atCommit s n p = true → mayNotCommit p = false → s.mem.waiting = [] →
      (∀ e ∈ heldDescs s n 0x29, e.id ∉ p.streams) →
      Does (.stepCommitted dt n) s fun t =>
        openStep t n = none ∧ (getPart t n).last = some p.num ∧ (getPart t n).lastGate = p.gate0 ∧
        (getPart t n).stash = { poolFull := (getPart s n).stash.poolFull } ∧
        (∀ e ∈ heldDescs s n 0x29, ∃ f, findDesc t e.id = some f ∧ f.live = false) ∧ t.clock = s.clock + dt ∧
        t.rings = s.rings ∧ t.pipes = s.pipes ∧ t.sec = s.sec ∧ ∀ m, m ≠ n → (getPart t m).step = (getPart s m).step)

/-- R243: a statistics record joins its class's open window: sums of SUMSQ and of elements. R254, R257: a threshold is written while no
step is open: a value below 2.0 or above 16.0 gives the nearer bound, a NaN and a write in a step leave the register as it is. -/
def Obligations.GovernorCommands : Prop :=
  (∀ (s : State) (n c : Nat) (b : Bytes) (rest : List (Nat × Bytes)) (l : Layer), isStarted s n = true → (getPart s n).gov.inbox = (c, b) :: rest →
    leAt b 6 1 ≤ 1 → govLayer s n (leAt b 4 2) = some l →
    let i := leAt b 4 2
    let cls := leAt b 6 1
    let expect := if cls = 0 then l.outElems else l.gradElems
    let w := (getPart s n).gov.windows.get {} (2 * i + cls)
    Does (.governorRecord n) s fun t =>
      (getPart t n).gov.inbox = rest ∧
      (w.elems + leAt b 8 4 < expect → (getPart t n).gov.windows.get {} (2 * i + cls) =
        { sum := w.sum + (fp32Units (leAt b 0 4)).1, inf := w.inf || (fp32Units (leAt b 0 4)).2, elems := w.elems + leAt b 8 4 } ∧
        (getPart t n).gov.obs = (getPart s n).gov.obs) ∧
      (expect ≠ 0 → expect ≤ w.elems + leAt b 8 4 → (getPart t n).gov.windows.get {} (2 * i + cls) = {} ∧
        ∃ o, (getPart t n).gov.obs = (getPart s n).gov.obs ++ [o] ∧ o.layer = i ∧ o.cls = cls ∧ o.n = w.elems + leAt b 8 4) ∧
      ((getPart t n).gov.outl.get {} (2 * i + cls)).outl = ((getPart s n).gov.outl.get {} (2 * i + cls)).outl + leAt b 28 4 ∧
      (∀ m, m ≠ n → getPart t m = getPart s m) ∧ t.cores = s.cores ∧ t.mem = s.mem ∧ t.descs = s.descs ∧ t.syn = s.syn) ∧
  (∀ (s : State) (fn n : Nat) (v : Word), HostOpen s fn → fn = 0 ∨ fn = n → n ∈ partNums →
    (∀ p, openStep s n = some p → ∀ g, exec (.govTWrite fn n g v) s = .next (barAccess s)) ∧
    (openStep s n = none →
      (clampT v = none → ∀ g, exec (.govTWrite fn n g v) s = .next (barAccess s)) ∧
      (∀ w, clampT v = some w →
        exec (.govTWrite fn n false v) s = .next (setReg (ctx bGovCtx n 8) w (barAccess s)) ∧
        exec (.govTWrite fn n true v) s = .next (setReg (ctx bGovCtx n 0xC) w (barAccess s))))) ∧
  clampT 0x3F800000 = some 0x40000000 ∧ clampT 0x41880000 = some 0x41800000 ∧ clampT 0x7F800000 = some 0x41800000 ∧
  clampT 0x40A00000 = some 0x40A00000 ∧ clampT 0x7FC00000 = none

/-- R266 to R268: an attempt that ends stops its cores, and the governor takes every record (R28); once that is confirmed the step ends when no
replay cause is there, or when no attempt remains, and else the next attempt is gated: its number and its gate, REPLAY_LEAD_US after
the cause. R261: at its gate the attempt starts, when every remap is done and no site checks itself in place (R271). Of the
model's choices it rests on log entries 55, 58, 126. -/
def Obligations.Attempts : Prop :=
  ∀ (s : State) (dt n : Nat) (p : Step), openStep s n = some p →
    (p.phase = .ending → votesDone s n = true → Does (.attemptEnd dt n) s fun t =>
      (∃ q, openStep t n = some q ∧ q.phase = .stopping ∧ q.attempt = p.attempt ∧ ((getPart s n).gov.inbox = [] → q.causes = p.causes)) ∧
      (getPart t n).gov.inbox = [] ∧ (∀ c ∈ heldColls t n, c.open = false) ∧
      (∀ c ∈ partCores s n, (getCore t c).run ≠ .running) ∧ (∀ c, c ∉ partCores s n → getCore t c = getCore s c) ∧
      (heldColls s n = [] → t.mem = s.mem) ∧ t.sites = s.sites) ∧
    (p.phase = .stopping → (getPart s n).gov.inbox = [] → p.fatal = none → p.causes = 0 → Does (.attemptEndConfirm dt n) s fun t =>
      openStep t n = none ∧ (∀ v, (getPart t n).last = some v → (getPart s n).last = some v) ∧
      (∀ e ∈ heldDescs s n 0x29, ∃ f, findDesc t e.id = some f ∧ f.live = false)) ∧
    (p.phase = .stopping → (getPart s n).gov.inbox = [] → p.fatal = none → p.causes ≠ 0 →
      maxReplays s n < max (p.attempt + 1) p.peerAttempt → Does (.attemptEndConfirm dt n) s fun t =>
        openStep t n = none ∧ (∀ v, (getPart t n).last = some v → (getPart s n).last = some v) ∧
        (∀ e ∈ heldDescs s n 0x29, ∃ f, findDesc t e.id = some f ∧ f.live = false)) ∧
    (p.phase = .stopping → (getPart s n).gov.inbox = [] → p.fatal = none → p.causes ≠ 0 → p.causes.getLsbD cCHECKSUM = false →
      p.suspects = [] → p.peerGate = none → p.peerAttempt ≤ p.attempt + 1 → p.attempt + 1 ≤ maxReplays s n → s.mem.waiting = [] →
      Does (.attemptEndConfirm dt n) s fun t =>
        (∃ q, openStep t n = some q ∧ q.phase = .gated ∧ q.next = p.attempt + 1 ∧ q.attempt = p.attempt ∧ q.causes = 0 ∧
          q.gate = p.causeAt + BitVec.ofNat 64 (1000 * bitsOf (slwCtl s n) 8 8)) ∧
        (getPart t n).last = (getPart s n).last ∧ (getPart t n).lastCauses = p.causes) ∧
    (p.phase = .gated → p.reloads = [] → remapOpen s n = false → checkOpen s n = false → imageLost s n = false →
      p.gate.toNat ≤ (pass dt s).now.toNat → s.fab.held = [] → s.fab.parked = [] → s.mem.waiting = [] →
      Does (.attemptStart dt n) s fun t =>
        (∃ q, openStep t n = some q ∧ q.attempt = p.next ∧ q.num = p.num ∧ q.ordered = (p.ordered || p.wantOrdered) ∧
          q.ended = (p.streams.filter fun i => (findDesc s i).any fun d => d.phase == .held && emptyStream s d) ∧
          (p.causes = 0 → q.phase = .running) ∧ (p.causes ≠ 0 → q.phase = .ending)) ∧
        (getPart t n).stash = { poolFull := (getPart s n).stash.poolFull } ∧ t.syn.counters = s.syn.counters ∧
        (p.streams = [] → ∀ c, getCore t c = getCore s c ∨ c ∈ partCores s n ∧ (getCore t c).run = .idle ∧ (getCore t c).sregs = []) ∧
        (∀ i d, p.streams = [i] → findDesc s i = some d → d.phase = .held → d.fn = n →
          hasGroup (getPart s n) (d.at 16 2) = true → ∀ c ∈ groupCores (getPart s n) (d.at 16 2),
            (getCore t c).run = .running ∧ (∀ j < 4, sreg (getCore t c) j = BitVec.ofNat 64 (d.at (32 + 8 * j) 8)))) ∧
    (p.phase = .gated → (remapOpen s n = true ∨ checkOpen s n = true) → exec (.attemptStart dt n) s = .next s) ∧
    (atCommit s n p = true → mayNotCommit p = true → p.causes = 0 → Does (.orderedCompareFold n) s fun t =>
      (∃ q, openStep t n = some q ∧ q.cmp = 2 ∧ q.compareList = foldInactive s n p ∧ q.causes = BitVec.ofNat 8 (2 ^ cHOST) ∧
        q.phase = .ending) ∧ t = { s with parts := t.parts })

/-- R268, R269: a REPLAY_NOTICE of a later attempt of the open step ends the running attempt with cause PEER; while the next attempt waits for its
gate it brings the earlier gate and the later attempt; one of an earlier or the same attempt, or of another step, has no effect.
R278: REPLAY_STEP ends the attempt with cause HOST; one that fails its checks is refused.
Of the model's choices it rests on log entry 61. -/
def Obligations.ReplayRequests : Prop :=
  (∀ (s : State) (port : Nat) (k : Packet) (n : Nat) (p : Step), Admitted s port k n → k.type = 0x0A → k.vc = 2 → k.tspec = 0x10 →
    openStep s n = some p →
    let a := ctlAttempt k
    let g := fullTime s (BitVec.ofNat 48 (leAt k.payload 16 6))
    (p.num ≠ ctlStep k ∨ a ≤ p.attempt → Does (.replayNotice port k) s fun t => t.parts = s.parts ∧ t.mem = s.mem ∧ t.descs = s.descs) ∧
    (p.num = ctlStep k → p.attempt < a → p.phase ≠ .gated → Does (.replayNotice port k) s fun t =>
      (∃ q, openStep t n = some q ∧ q.causes = p.causes ||| 0x20 ∧ q.peerAttempt = max p.peerAttempt a ∧ q.attempt = p.attempt ∧
        (p.peerGate = none → q.peerGate = some g) ∧ (p.causes = 0 → p.phase = .running → q.phase = .ending ∧ q.causeAt = s.now)) ∧
      t.cores = s.cores ∧ t.mem = s.mem ∧ t.descs = s.descs) ∧
    (p.num = ctlStep k → p.attempt < a → p.phase = .gated → p.next ≤ a → a ≤ maxReplays s n →
      Does (.replayNotice port k) s fun t => ∃ q, openStep t n = some q ∧ q.phase = .gated ∧ q.next = a ∧ q.causes = p.causes ∧
        q.gate = (if p.next < a ∨ g.toNat < p.gate.toNat then g else p.gate))) ∧
  (∀ (s : State) (id : Nat) (d : Desc), AtTurn s id 0x2A d →
    (∀ st, replayCheck s d = some st → Does (.replayStep id) s fun t => Stands t id (.done st) ∧ t = { s with descs := t.descs }) ∧
    (∀ p, openStep s d.fn = some p → replayCheck s d = none → startsNow s d = true → Does (.replayStep id) s fun t =>
      Stands t id .started ∧ t = { s with descs := t.descs, parts := t.parts } ∧ (∀ n, n ≠ d.fn → getPart t n = getPart s n) ∧
      ∃ q, openStep t d.fn = some q ∧ q.causes = p.causes ||| 0x40 ∧ q.replays = p.replays ++ [id] ∧
        q.wantOrdered = (p.wantOrdered || d.at 24 1 != 0) ∧
        (p.causes = 0 → p.phase = .running → q.phase = .ending ∧ q.first = cHOST ∧ q.causeAt = s.now)))

/-- R273, R274: DIGEST writes the fold of the checksums, and of the outlier tensor's CRCs where one is named, to the host. R276: at a digest step's fold
the copies' digests are taken from their headers and the lists go out; a member's list is taken before its deadline, and at the
deadline the lists are compared without the missing ones. Of the model's choices it rests on log entries 30, 32, 33, 59. -/
def Obligations.Digests : Prop :=
  (∀ (s : State) (id : Nat) (d : Desc), AtTurn s id 0x2B d → startsNow s d = true → d.codes = [] →
    (digestCheck s d = none → s.mem.waiting = [] → Does (.digest id) s fun t =>
      Stands t id (.done .ok) ∧ t = { s with descs := t.descs, out := t.out, mem := t.mem } ∧ (∀ a, memByte t a = memByte s a) ∧
      t.out = .hostWrite d.fn (BitVec.ofNat 64 (d.at 40 8)) (leBytes 16 (digestOf
        ((List.range (d.at 24 4)).map (fun i => leNat (devRd s (d.at 16 8 + 4 * i) 4)) ++
          (if d.at 32 8 = 0 then [] else (List.range (d.at 24 4)).map fun i => leNat (devRd s (d.at 32 8 + 32 * i + 28) 4)))).toNat) :: s.out) ∧
    (∀ st, digestCheck s d = some st → Does (.digest id) s fun t => Stands t id (.done st) ∧ t = { s with descs := t.descs })) ∧
  (∀ (s : State) (n : Nat) (p : Step), openStep s n = some p → p.phase = .running → digestStep s n p = true → p.digests = none →
    heldDescs s n 0x29 ≠ [] → (heldColls s n).all Coll.good = true → p.reloads = [] → p.listSent = false → listsIn s n p = false →
    s.now.toNat < listsDue s n p → s.mem.waiting = [] →
    (∀ e ∈ weightEntries s n, copyDigest s (halfOf e.2 (p.num.toNat + 1)) e.2.len = some (headDigest s (halfOf e.2 (p.num.toNat + 1)))) →
    Does (.digestFold n) s fun t =>
      (∃ q, openStep t n = some q ∧
        q.digests = some ((weightEntries s n).map fun e => headDigest s (halfOf e.2 (p.num.toNat + 1))) ∧
        q.listSent = true ∧ q.compared = p.compared ∧ q.causes = p.causes) ∧ (∀ a, memByte t a = memByte s a) ∧ t.cores = s.cores) ∧
  (∀ (s : State) (port : Nat) (k : Packet) (n : Nat) (p : Step), Admitted s port k n → k.type = 0x0A → k.vc = 2 → k.tspec = 0x11 →
    openStep s n = some p → p.num = ctlStep k → ctlAttempt k = p.attempt → p.phase ≠ .gated →
    1 ≤ leAt k.payload 14 2 → leAt k.payload 14 2 ≤ 31 → ctlMember k < peerCount s n → ctlMember k ≠ ownMember s n →
    (s.now.toNat < listsDue s n p → (∀ e ∈ p.lists, e.1 ≠ ctlMember k) → Does (.digestList port k) s fun t =>
      ∃ q, openStep t n = some q ∧ q.lists = p.lists ++ (List.range (leAt k.payload 14 2)).map (fun i =>
        (ctlMember k, leAt k.payload 12 2 + i, BitVec.ofNat 128 (leAt k.payload (16 + 16 * i) 16)))) ∧
    (listsDue s n p ≤ s.now.toNat → Does (.digestList port k) s fun t => t.parts = s.parts ∧ t.mem = s.mem)) ∧
  (∀ (s : State) (dt n : Nat) (p : Step), openStep s n = some p → p.listSent = true → p.compared = false → p.phase = .running →
    listsDue s n p ≤ (pass dt s).now.toNat → Does (.digestDeadline dt n) s fun t => ∃ q, openStep t n = some q ∧ q.compared = true)

/-- R269, R276, R277: the owner of a copy answers a RELOAD_REQ with the copy, or says that it has none; its own memory stays. A RELOAD_DONE with STATUS
0 ends a reload: a copy that still differs ends the step. With another STATUS the requester waits for its deadline, which counts as
a copy that still differs. Of the model's choices it rests on log entries 34, 59. -/
def Obligations.Reloads : Prop :=
  (∀ (s : State) (port : Nat) (k : Packet) (n : Nat) (p : Step), Admitted s port k n → k.type = 0x0A → k.vc = 2 → k.tspec = 0x12 →
    openStep s n = some p → p.num = ctlStep k → p.weightLost = [] → (getDest s k.src).unreachable = false →
    let mine (e : Nat × Region) : Bool :=
      e.2.layer == leAt k.payload 12 2 && e.2.copy == leAt k.payload 14 1 && e.2.owner == ownMember s n
    ((weightEntries s n).find? mine = none → Does (.reloadReq port k) s fun t => t.mem = s.mem ∧ t.parts = s.parts ∧
      Asks t fun q => q.type = 0x0A ∧ q.dst = k.src ∧ q.tspec = 0x13 ∧ leAt q.payload 12 1 = 1) ∧
    (∀ e, (weightEntries s n).find? mine = some e →
      let a := halfOf e.2 (leAt k.payload 15 1)
      copyOk (copyHead s a) e.2.len = true → Does (.reloadReq port k) s fun t => (∀ b, memByte t b = memByte s b) ∧
        (∃ r ∈ (getPart t n).serving, r.node = k.src ∧ r.addr = a ∧ r.entry = e.1) ∧
        Asks t fun q => q.type = 0x02 ∧ q.dst = k.src ∧ q.addr = BitVec.ofNat 48 (leAt k.payload 16 6) ∧ q.payload = devRd s a 64)) ∧
  (∀ (s : State) (port : Nat) (k : Packet) (n : Nat) (p : Step), Admitted s port k n → k.type = 0x0A → k.vc = 2 → k.tspec = 0x13 →
    openStep s n = some p → p.num = ctlStep k →
    (leAt k.payload 12 1 ≠ 0 → Does (.reloadDone port k) s fun t => t.parts = s.parts ∧ t.mem = s.mem) ∧
    (∀ r, leAt k.payload 12 1 = 0 → reloadOf s p k = some r → copyDigest s r.addr r.len ≠ some (reloadWant s n p r) → p.phase = .running →
      Does (.reloadDone port k) s fun t => ∃ q, openStep t n = some q ∧ q.phase = .ending ∧ q.fatal = some (p.fatal.getD .digestMismatch) ∧
        q.reloads = p.reloads.filter fun o => o != r) ∧
    (∀ r, leAt k.payload 12 1 = 0 → reloadOf s p k = some r → copyDigest s r.addr r.len = some (reloadWant s n p r) → p.phase = .gated →
      r.redo = false → Does (.reloadDone port k) s fun t => ∃ q, openStep t n = some q ∧ q.phase = .gated ∧
        q.reloads = p.reloads.filter fun o => o != r)) ∧
  (∀ (s : State) (dt n : Nat) (p : Step) (r : Reload), openStep s n = some p → r ∈ p.reloads →
    r.since.toNat + digestNs s n ≤ (pass dt s).now.toNat →
    (p.phase = .running → Does (.reloadDeadline dt n) s fun t => ∃ q, openStep t n = some q ∧ q.phase = .ending ∧ q.reloads = [] ∧
      q.fatal = some (p.fatal.getD .digestMismatch)) ∧
    (p.phase = .gated → Does (.reloadDeadline dt n) s fun t => openStep t n = none))

/-- R18, R19, R279, R271: the core tests that no descriptor asks for. An overdue test starts; one that passes stamps its site and restarts its
counts, one that fails retires it. A site check whose copies agree clears its site; any other outcome retires it, and unmaps the
core that stayed on it; a repetition that disagrees ends it at once. A core whose site fails while its partition runs an attempt stays until
the step boundary. A core on a retired site moves to the nearest tested spare, or its coordinate becomes unmapped.
Of the model's choices it rests on log entries 62, 124. -/
def Obligations.CoreTests : Prop :=
  (∀ (s : State) (u : Nat), u < 2400 → (getSite s u).fused = false → (getSite s u).retired = false → (getSite s u).testing = false →
    (getSite s u).check = none → sitePart s u = 0 → testFresh s u = false →
    exec (.coreTestStart u) s = .next (updSite u (fun k => { k with testing := true, since := s.clock }) s)) ∧
  (∀ (s : State) (dt u : Nat), (getSite s u).testing = true → (getSite s u).since + 35000000 ≤ s.clock + dt → sitePart s u = 0 →
    (Does (.coreTestDone dt u .pass) s fun t =>
      getSite t u = { getSite s u with testing := false, tested := some (pass dt s).now, laneFaults := [], transients := [], marked := false } ∧
      (∀ v, v ≠ u → getSite t v = getSite s v) ∧ t.places = s.places ∧ t.cores = s.cores ∧
      ∃ e, t.fer.events.head? = some e ∧ e.kind = 0x0B ∧ e.detail = 0 ∧ e.site = siteField (some u)) ∧
    (Does (.coreTestDone dt u .fail) s fun t => (getSite t u).retired = true ∧ (getSite t u).testing = false ∧
      ∃ r, t.fer.fuseQ = s.fer.fuseQ ++ r ∧ r.head? = some { cls := 0, what := u })) ∧
  (∀ (s : State) (dt u c : Nat), (getSite s u).testing = true → (getSite s u).since + 35000000 ≤ s.clock + dt → coreOn s u = some c →
    stepBoundary s (getCore s c).part = false → partTesting s (getCore s c).part = false → Does (.coreTestDone dt u .fail) s fun t =>
      (getSite t u).retired = true ∧ (getSite t u).testing = false ∧ t.places = s.places ∧ t.cores = s.cores) ∧
  (∀ (s : State) (dt u : Nat) (k : SiteCheck), (getSite s u).check = some k →
    ((getSite s u).since + 35000000 ≤ s.clock + dt → Does (.siteCheckDone dt u true .pass) s fun t => (getSite t u).check = none ∧ (getSite t u).retired = (getSite s u).retired ∧
      (getSite t u).tested = some (pass dt s).now ∧ t.places = s.places ∧ t.parts = s.parts) ∧
    (∀ agree r, (agree = false ∨ r ≠ .pass ∧ (getSite s u).since + 35000000 ≤ s.clock + dt) → Does (.siteCheckDone dt u agree r) s fun t => (getSite t u).retired = true ∧
      (k.moved = true → t.places = s.places) ∧ (k.moved = false → siteOf t k.core = none))) ∧
  (∀ (s : State) (c u : Nat), c % 64 < 48 → c / 64 < 48 → siteOf s c = some u → (getSite s u).retired = true →
    stepBoundary s (getCore s c).part = true →
    let spare := nearestSite u fun v => freeSpare s v && testFresh s v
    (∀ v, spare = some v → Does (.coreRemap c) s fun t => siteOf t c = some v ∧ (getCore t c).run = (getCore s c).run ∧
      (getCore t c).sregs = (getCore s c).sregs ∧ (∀ b, b ≠ c → getCore t b = getCore s b ∧ siteOf t b = siteOf s b) ∧ t.parts = s.parts) ∧
    (spare = none → Does (.coreRemap c) s fun t => siteOf t c = none ∧
      (isStarted s (getCore s c).part = true → (getCore s c).part ≠ 0 → (getPart t (getCore s c).part).st = .stopping)))

/-- R280: a SELFTEST with no step open and no core running tests the cores it selects, and is refused else; its end reports how many were
tested and passed, and without REPAIR retires none. R485: a CHECKPOINT waits until it has nothing earlier to wait for, records the boundary, and completes. R33: the
device enters IDLE when every core of every started partition has halted or waits.
Of the model's choices it rests on log entry 61. -/
def Obligations.SelftestAndCheckpoint : Prop :=
  (∀ (s : State) (id : Nat) (d : Desc), AtTurn s id 0x2C d → d.at 16 1 ≤ 1 → bitsOf (d.at 17 1) 1 7 = 0 →
    zeroAt d.bytes [(18, 6), (30, 2), (40, 24)] = true →
    let busy := (openStep s d.fn).isSome ∨ ∃ c ∈ partCores s d.fn, (getCore s c).run = .running
    (busy → Does (.selftest id) s fun t => Stands t id (.done .descMalformed) ∧ t = { s with descs := t.descs }) ∧
    (¬busy → startsNow s d = true → Does (.selftest id) s fun t => Stands t id .started ∧ t = { s with descs := t.descs, sites := t.sites } ∧
      (timeReached (now48 s + 34999999) (BitVec.ofNat 48 (d.at 24 6)) = true → t.sites = s.sites) ∧
      (timeReached (now48 s + 34999999) (BitVec.ofNat 48 (d.at 24 6)) = false →
        ∀ c ∈ testCores s d.fn (d.at 16 1 == 1), ∀ u, siteOf s c = some u → (getSite t u).testing = true ∧ (getSite t u).since = s.clock))) ∧
  (∀ (s : State) (dt id : Nat) (d : Desc) (l : List TestResult), findDesc s id = some d → d.phase = .started → d.aux = 2 → d.codes = [] →
    d.opcode = 0x2C → l.length = (sitesInTest s d.fn).length → (∀ r ∈ l, r = .pass) → testsOver (pass dt s) (sitesInTest s d.fn) = true →
    Does (.selftestDone dt id l) s fun t => Stands t id (.done .ok) ∧ t.places = s.places ∧ t.cores = s.cores ∧
      .hostWrite d.fn (BitVec.ofNat 64 (d.at 32 8)) (leBytes 4 l.length ++ leBytes 4 l.length ++ zeros 8) ∈ t.out ∧
      ∀ u ∈ sitesInTest s d.fn, (getSite t u).testing = false ∧ (getSite t u).tested = some (pass dt s).now) ∧
  (∀ (s : State) (dt id : Nat) (d : Desc) (l : List TestResult), findDesc s id = some d → d.phase = .started → d.aux = 2 → d.codes = [] →
    d.opcode = 0x2C → bitOf (d.at 17 1) 0 = false → l.length = (sitesInTest s d.fn).length →
    testsOver (pass dt s) (sitesInTest s d.fn) = true →
    Does (.selftestDone dt id l) s fun t => Stands t id (.done .ok) ∧ t.places = s.places ∧ t.cores = s.cores ∧
      ∀ u ∈ sitesInTest s d.fn, (getSite t u).testing = false ∧ (getSite t u).retired = (getSite s u).retired ∧
        (getSite t u).laneFaults = [] ∧ (getSite t u).transients = []) ∧
  (∀ (s : State) (id : Nat) (d : Desc),
    (AtTurn s id 0x30 d → ∀ p, openStep s d.fn = some p → exec (.checkpoint id) s = .next s) ∧
    (AtTurn s id 0x30 d → openStep s d.fn = none → checkpointCheck s d = none → startsNow s d = true →
      Does (.checkpoint id) s fun t => Stands t id .started ∧ t = { s with descs := t.descs }) ∧
    (findDesc s id = some d → d.opcode = 0x30 → d.phase = .started → d.aux = 1 →
      (checkpointMet s d = false → exec (.checkpoint id) s = .next s) ∧
      (checkpointMet s d = true → bitOf (d.at 24 1) 0 = false → d.codes = [] → Does (.checkpoint id) s fun t =>
        Stands t id (.done .ok) ∧ (getPart t d.fn).boundary = some (lastCommitted s d.fn, s.now) ∧
        t = { s with descs := t.descs, parts := t.parts }))) ∧
  (∀ s : State, s.fer.power = .active → s.rst = none → s.fer.trip = none →
    ((∀ n ∈ partNums, isStarted s n = true → ∀ c ∈ partCores s n, (getCore s c).run ≠ .running ∨
        ((getCore s c).stall ≠ .none ∧ ∀ e, engineRests (getCore s c) e = true)) →
      exec .enterIdle s = .next { s with fer := { s.fer with power := .idle } }) ∧
    (∀ n ∈ partNums, isStarted s n = true → ∀ c ∈ partCores s n, (getCore s c).run = .running → (getCore s c).stall = .none →
      exec .enterIdle s = .next s))

/-- R295 to R298, R305, R314: a read of this device's memory answers the bytes it holds and, but for a LAST hit, changes none; a write stores its bytes and
no others; an add ignores address bits below its element size and stores the sums of its elements. A request that is not accepted is
refused; one that needs the bus while its bucket is empty waits (R303), and so does a later one to its lines; one for a stash granule
in the remote pool goes there. Of the model's choices it rests on log entries 6, 8, 70. -/
def Obligations.MemoryRequests : Prop :=
  (∀ (s : State) (r : MemReq) (len : Nat), reqHere s r len = true → r.part ≤ 8 →
    (∀ h, readPlace s r.part r.addr.toNat len = .here h →
      (reqWaits s r h len = true → ∀ e, exec (.memoryRead r len e) s =
        .next { s with mem := { s.mem with waiting := s.mem.waiting ++ [{ req := r, place := h, kind := 0, len := len, err := e }] } }) ∧
      (reqWaits s r h len = false → Does (.memoryRead r len .none) s fun t =>
        t = { s with mem := t.mem, out := .memData (devRd s h len) :: s.out } ∧
        (r.hint ≠ 3 → ∀ b, memByte t b = memByte s b))) ∧
    (∀ h e, readPlace s r.part r.addr.toNat len = .there h → Reaches s r.part → Does (.memoryRead r len e) s fun t =>
      Asks t fun q => q.type = 0x01 ∧ q.dst = poolNode s r.part ∧ q.addr = BitVec.ofNat 48 h ∧ q.tspec = len) ∧
    (∀ b e, readPlace s r.part r.addr.toNat len = .bytes b → exec (.memoryRead r len e) s = .next (emit (.memData b) s)) ∧
    (readPlace s r.part r.addr.toNat len = .refused → ∀ e, exec (.memoryRead r len e) s = .next (emit .memRefused s))) ∧
  (∀ (s : State) (r : MemReq) (d : Bytes), reqHere s r d.length = true → r.part ≤ 8 →
    let w := writePlace r.part r.addr.toNat d.length s
    (∀ h, w.1 = .here h → reqWaits w.2 r h d.length = true → exec (.memoryWrite r d) s =
      .next { w.2 with mem := { w.2.mem with waiting := w.2.mem.waiting ++ [{ req := r, place := h, kind := 1, data := d }] } }) ∧
    (∀ h, w.1 = .here h → reqWaits w.2 r h d.length = false → Does (.memoryWrite r d) s fun t =>
      t = { w.2 with mem := t.mem, out := .memAck :: s.out } ∧
      ∀ b, memByte t b = if h ≤ b ∧ b < h + d.length then d.getD (b - h) 0 else memByte s b) ∧
    (∀ h, w.1 = .there h → Reaches s r.part → Does (.memoryWrite r d) s fun t =>
      Asks t fun q => q.type = 0x02 ∧ q.dst = poolNode s r.part ∧ q.addr = BitVec.ofNat 48 h ∧ q.payload = d) ∧
    (w.1 = .discard → exec (.memoryWrite r d) s = .next (emit .memAck w.2)) ∧
    (w.1 = .refused → exec (.memoryWrite r d) s = .next (emit .memRefused s))) ∧
  (∀ (s : State) (r : MemReq) (fp : Bool) (d : Bytes) (v : AdderResult),
    let q := addReq r fp
    let e := if fp then 4 else 8
    reqHere s q d.length = true → r.part ≤ 8 → gStash q.addr.toNat = false → d.length % e = 0 →
    ∀ h, readPlace s r.part q.addr.toNat d.length = .here h →
    (quotaOk s r.part h d.length true = false → exec (.memoryAdd r fp d v) s = .next (emit .memRefused s)) ∧
    (quotaOk s r.part h d.length true = true → reqWaits s q h d.length = true → exec (.memoryAdd r fp d v) s =
      .next { s with mem := { s.mem with waiting := s.mem.waiting ++
        [{ req := q, place := h, kind := if fp then 2 else 3, data := d, res := v }] } }) ∧
    (quotaOk s r.part h d.length true = true → reqWaits s q h d.length = false → Does (.memoryAdd r fp d .agree) s fun t =>
      t = { s with mem := t.mem, out := .memAck :: s.out } ∧ h = gLocal (r.addr.toNat / e * e) ∧
      devRd t h d.length = addElems fp (d.length / e) (devRd s h d.length) d ∧
      ∀ b, b < h ∨ h + d.length ≤ b → memByte t b = memByte s b))

/-- R302 to R304, R310, R312, R315: the care of the memory: a microsecond after the last one, buckets take an interval's tokens, up to four
intervals of them; a refresh interval is noted; the scrub goes on by a line when its time has come; a stack failure resets the device; a
page whose every part has come is served from its frame, and one whose fetch failed is dropped; INVAL drops every copy.
Of the model's choices it rests on log entries 8, 116, 118, 121. -/
def Obligations.MemoryCare : Prop :=
  (∀ (s : State) (dt : Nat), s.mem.waiting = [] → (∀ n ∈ partNums, ∀ g ∈ (getPart s n).groups, g.num < 65536) →
    (s.clock + dt < s.mem.refilled + 1000 → exec (.regulatorInterval dt) s = .next s) ∧
    (s.mem.refilled + 1000 ≤ s.clock + dt →
      (∀ k ∈ activeStacks s, ∀ n ∈ partNums, ∀ g ∈ bucketsOf s n, 0 ≤ (getStack s k).tokens.get 0 (bucketKey n g)) →
      Does (.regulatorInterval dt) s fun t => t.clock = s.clock + dt ∧ t.mem.refilled = s.clock + dt ∧ (∀ a, memByte t a = memByte s a) ∧
        ((∀ d ∈ s.descs, d.opcode = 0x08 ∨ d.opcode = 0x09 → d.phase ≠ .started) → t.parts = s.parts ∧ t.out = s.out ∧ t.descs = s.descs) ∧
        ∀ n ∈ partNums, isStarted s n = true → ∀ k ∈ activeStacks s, ∀ g ∈ bucketsOf s n,
          (getStack t k).tokens.get 0 (bucketKey n g) = min ((4 * refillOf s n g : Nat) : Int)
            ((getStack s k).tokens.get 0 (bucketKey n g) + (refillOf s n g : Nat)))) ∧
  (∀ (s : State) (dt k : Nat), k ∈ activeStacks s →
    ((getStack s k).refreshed + refreshNs s k ≤ s.clock + dt → exec (.hbmRefresh dt k) s =
      .next (updStack k (fun x => { x with refreshed := s.clock + dt }) (pass dt s))) ∧
    (s.clock + dt < (getStack s k).refreshed + refreshNs s k → exec (.hbmRefresh dt k) s = .next s) ∧
    (bitOf (regN s bMem) 1 = true → (s.fer.power = .active ∨ s.fer.power = .idle) → s.rst = none →
      (getStack s k).scrubAt + scrubNs s ≤ s.clock + dt → exec (.scrub dt k .none) s =
      .next (updStack k (fun x => { x with scrubbed := ((getStack s k).scrubbed + 1) % 805306368, scrubAt := s.clock + dt }) (pass dt s))) ∧
    (s.clock + dt < (getStack s k).scrubAt + scrubNs s → ∀ e, exec (.scrub dt k e) s = .next s) ∧
    ((getStack s k).failed = false → s.rst = none → s.fer.trip = none → Does (.stackFailure k) s fun t =>
      (getStack t k).failed = true ∧ t.rst.isSome = true ∧ t.fer.epoch = s.fer.epoch + 1 ∧ ∀ d ∈ t.descs, d.live = false)) ∧
  (∀ (s : State) (n page : Nat) (f : Nat × RpcFrame),
    (getPart s n).rpc.frames.find? (fun e => e.2.page == page && !e.2.valid) = some f →
    (openRequests s (fetches n (some page)) = 0 → Does (.rpcFetchDone n page true) s fun t =>
      (∃ e ∈ (getPart t n).rpc.frames, e.1 = f.1 ∧ e.2 = { f.2 with valid := true }) ∧ t = { s with parts := t.parts } ∧
      (∀ m, m ≠ n → getPart t m = getPart s m)) ∧
    (openRequests s (fetches n (some page)) ≠ 0 → exec (.rpcFetchDone n page true) s = .next s) ∧
    (Does (.rpcFetchDone n page false) s fun t =>
      (∀ e ∈ (getPart t n).rpc.frames, e.2.page ≠ page) ∧ openRequests t (fetches n (some page)) = 0 ∧
      t = { s with parts := t.parts, fab := t.fab })) ∧
  (∀ (s : State) (fn n : Nat), HostOpen s fn → diesDark s = false → mayCtx fn n = true → Does (.rpcInval fn n) s fun t =>
    (getPart t n).rpc = {} ∧ openRequests t (fetches n none) = 0 ∧ t = { barAccess s with parts := t.parts, fab := t.fab })

/-- R328: a flit that is replayed is counted; the 32nd replay in a row fails its link and resets the device. R339, R184, R345: a signal adds its
increment to the counter its index names and to no other; one outside the range is counted and discarded. R331: a signal does not pass an
earlier message of its source to the same sync unit.
Of the model's choices it rests on log entries 18, 19. -/
def Obligations.MeshAndSignals : Prop :=
  (∀ (s : State) (dt l : Nat), linkExists l = true →
    let row := match s.syn.replayedAt.get none l with | some t => decide (s.clock + dt ≤ t + replayNs s l) | none => false
    let k := if row then s.syn.replays.get 0 l + 1 else 1
    let a := if linkEdge l then bNoc + 0x20 else bNoc + 0x10 + 4 * linkDie l
    (k < 32 → Does (.meshFlitRetry dt l) s fun t => t.syn.replays.get 0 l = k ∧ (reg s a ≠ 0xFFFFFFFF → reg t a = reg s a + 1) ∧
      bitOf (regN t bNoc) (b2n (linkEdge l)) = true ∧ t = { pass dt s with syn := t.syn, regs := t.regs }) ∧
    (32 ≤ k → s.rst = none → s.fer.trip = none → Does (.meshFlitRetry dt l) s fun t =>
      t.rst.isSome = true ∧ t.fer.linkFailed.get none l = some (s.clock + dt))) ∧
  (∀ (s : State) (n : Nat) (g : Signal), s.syn.signals[n]? = some g →
    (sentBefore s g.source g.part g.index g.no = true → exec (.signalApply n) s = .next s) ∧
    (sentBefore s g.source g.part g.index g.no = false →
    (∀ c, counterOf s g.part g.index = some c → isSaturated s c = false → (getCounter s c).toNat + g.inc < 2 ^ 64 →
      Does (.signalApply n) s fun t => (getCounter t c).toNat = (getCounter s c).toNat + g.inc ∧
        (∀ b, b ≠ c → getCounter t b = getCounter s b) ∧ t.syn.signals = removeAt n s.syn.signals ∧
        (∀ w ∈ s.syn.waiters, counterOf s w.part w.index = some c → deadlinePast s w = false →
          w.expected.toNat ≤ (getCounter s c).toNat + g.inc → w ∉ t.syn.waiters) ∧ t.mem = s.mem) ∧
    (∀ c, counterOf s g.part g.index = some c → isSaturated s c = false → 2 ^ 64 ≤ (getCounter s c).toNat + g.inc →
      Does (.signalApply n) s fun t => getCounter t c = BitVec.allOnes 64 ∧ isSaturated t c = true ∧
        bitOf (regN t (ctx bSynCtx g.part 4)) 2 = true) ∧
    (counterOf s g.part g.index = none → Does (.signalApply n) s fun t => t.syn.counters = s.syn.counters ∧
      (reg s (ctx bSynCtx g.part 8) ≠ 0xFFFFFFFF → reg t (ctx bSynCtx g.part 8) = reg s (ctx bSynCtx g.part 8) + 1) ∧
      bitOf (regN t (ctx bSynCtx g.part 4)) (b2n g.far) = true)))

/-- R340 to R346: a wait that its counter satisfies ends at once, one whose deadline is reached ends SYNC_TIMEOUT, one that finds its sync unit full is
answered BUSY and sent again, and any other is kept; a request does not pass an earlier message of its source to the same sync unit (R331). A waiter entry ends at its deadline; a remote wait 10 µs after it.
Of the model's choices it rests on log entry 22. -/
def Obligations.Waits : Prop :=
  (∀ (s : State) (dt n : Nat) (w : Wait) (c : Nat), counterOf s w.part w.index = some c → isSaturated s c = false →
    let met := w.expected.toNat ≤ (getCounter s c).toNat
    (s.syn.requests[n]? = some w → sentBefore s w.source w.part w.index w.no = true → exec (.waitRequest n) s = .next s) ∧
    (s.syn.requests[n]? = some w → sentBefore s w.source w.part w.index w.no = false →
      (∀ k, w.origin = .coreWait k → (getCore s k).stall = .wait → met → Does (.waitRequest n) s fun t =>
        (getCore t k).stall = .verdict .ok (nodeId s) ∧ t.syn = { s.syn with requests := removeAt n s.syn.requests } ∧
        ∀ j, j ≠ k → getCore t j = getCore s j) ∧
      (¬met → timeReached (now48 s) w.deadline = false → unitFull s (c / 256) = false →
        exec (.waitRequest n) s = .next { s with syn := { s.syn with
          requests := removeAt n s.syn.requests, waiters := s.syn.waiters ++ [w] } }) ∧
      (¬met → timeReached (now48 s) w.deadline = false → unitFull s (c / 256) = true → Does (.waitRequest n) s fun t =>
        t.syn = { s.syn with requests := removeAt n s.syn.requests, busy := s.syn.busy ++ [w] } ∧
        t = { s with syn := t.syn, regs := t.regs })) ∧
    (s.syn.busy[n]? = some w → ¬met → timeReached (now48 (pass dt s)) w.deadline = false → unitFull s (c / 256) = false →
      exec (.waitBusyResend dt n) s = .next { pass dt s with syn := { s.syn with
        busy := removeAt n s.syn.busy, waiters := s.syn.waiters ++ [w] } }) ∧
    (s.syn.waiters[n]? = some w → ¬met → timeReached (now48 (pass dt s)) w.deadline = true →
      (∀ k, w.origin = .coreWait k → (getCore s k).stall = .wait → Does (.waitDeadline dt n) s fun t =>
        (getCore t k).stall = .verdict .syncTimeout (nodeId s) ∧ t.syn = { s.syn with waiters := removeAt n s.syn.waiters }) ∧
      (∀ id d, w.origin = .desc id → findDesc s id = some d → d.live = true → Does (.waitDeadline dt n) s fun t =>
        Stands t id (.done .syncTimeout) ∧ t.syn = { s.syn with waiters := removeAt n s.syn.waiters }))) ∧
  (∀ (s : State) (dt n : Nat) (w : RemoteWait) (id : Nat) (d : Desc), s.syn.remotes[n]? = some w → w.origin = .desc id → findDesc s id = some d → d.live = true →
    timeReached (now48 (pass dt s)) (w.deadline + 10000) = true → Does (.remoteWaitGrace dt n) s fun t =>
      Stands t id (.done .syncTimeout) ∧ t.syn = { s.syn with remotes := removeAt n s.syn.remotes })

/-- R359 to R362, R364, R385, R388, R390: a failed lane takes the port down when fewer than 4 are left, is replaced by the spare of a ×16 port, or
narrows the port; the switch is told by a LANE flit, and a LANE flit of the switch is followed and answered. A codeword that cannot be
corrected is asked for again; a LINK flit brings acknowledgement and credit, counts corrected codewords, and makes the port send again
what its retry buffer holds; the ninth resend of one codeword, lost signal, a stall of credit
and PORT_EN take the port down. Of the model's choices it rests on log entry 21. -/
def Obligations.PortLinks : Prop :=
  (∀ (s : State) (p lane : Nat), portUp s p = true → lane < 17 → bitOf (getPort s p).failed.toNat lane = false →
    let q := getPort s p
    let failed : BitVec 17 := BitVec.ofNat 17 (setBits q.failed.toNat lane 1 1)
    let left := healthyLanes failed
    let w := if q.width = 1 then 1 else min (q.width - 1) (widthOf left)
    let tells (t : State) (op width : Nat) : Prop :=
      t.out = .flit p (linkFlit 0x06 [(2, 1, op), (3, 1, lane), (4, 1, width), (6, 2, q.handshakeNo)]) :: s.out
    (left < 4 → Does (.laneFailed p lane) s fun t => (getPort t p).st = .down ∧ (getPort t p).reason = 1 ∧ (getPort t p).width = 0) ∧
    (4 ≤ left → q.width = 3 → q.spareUsed = false → lane ≠ 16 → bitOf failed.toNat 16 = false → Does (.laneFailed p lane) s fun t =>
      (getPort t p).spareUsed = true ∧ (getPort t p).width = 3 ∧ (getPort t p).failed = failed ∧ tells t 0 16 ∧
      ∀ o, o ≠ p → getPort t o = getPort s o) ∧
    (4 ≤ left → q.width = 3 → q.spareUsed = false → lane = 16 → Does (.laneFailed p lane) s fun t =>
      getPort t p = { q with failed := failed } ∧ t.out = s.out) ∧
    (4 ≤ left → q.width = 1 ∨ q.width = 2 ∨ (q.width = 3 ∧ (q.spareUsed = true ∨ bitOf q.failed.toNat 16 = true)) →
      Does (.laneFailed p lane) s fun t => (getPort t p).width = w ∧ (getPort t p).st = .up ∧ tells t 1 (laneCount w))) ∧
  (∀ (s : State) (p op lane width no : Nat), portUp s p = true →
    ((getPort s p).handshake = some no → Does (.lane p op lane width no) s fun t =>
      (getPort t p).handshake = none ∧ (getPort t p).width = (getPort s p).width ∧ ∃ l, t.out = l ++ s.out ∧ LinkFlits p l) ∧
    ((getPort s p).handshake ≠ some no → Does (.lane p op lane width no) s fun t =>
      (∃ l, t.out = .flit p (linkFlit 0x06 [(2, 1, op), (3, 1, lane), (4, 1, width), (6, 2, no)]) :: l ++ s.out ∧ LinkFlits p l) ∧
      (op = 0 → (getPort t p).spareUsed = true ∧ (getPort t p).width = (getPort s p).width) ∧
      (op ≠ 0 → width < laneCount (getPort s p).width → (getPort t p).width = widthOf width))) ∧
  (∀ (s : State) (p : Nat), portUp s p = true →
    let q := getPort s p
    let base := bGzl + 0x100 + 0x20 * p
    (∀ k, Does (.codewordUncorrectable p k) s fun t => (getPort t p).rxSeq = k % 1024 ∧
      ∃ b, t.out = .flit p b :: s.out ∧ leAt b 0 1 = 0x01 ∧ leAt b 2 2 = k % 1024 + 32768) ∧
    (∀ ack creds n, creds.length = 8 → q.queue = [] → Does (.link p ack false ⟨creds, n⟩) s fun t =>
      (getPort t p).txAcked = ack % 1024 ∧ (getPort t p).st = .up ∧ regN t (base + 8) = satTo 32 (regN s (base + 8) + n) ∧
      (q.sinceLink < 63 → t.out = s.out ∧ (getPort t p).kept = keptAfter q.txAcked (ack % 1024) q.kept) ∧
      ∀ v < 8, (getPort t p).credits.get 0 v = q.credits.get 0 v + creditBack q v (creds.getD v 0)) ∧
    (∀ ack creds n, q.queue = [] → q.sinceLink < 63 → q.resends < 8 → Does (.link p ack true ⟨creds, n⟩) s fun t =>
      (getPort t p).st = .up ∧ t.out = ((keptAfter q.txAcked (ack % 1024) q.kept).map Prod.snd).reverse ++ s.out ∧
      regN t (base + 0x0C) = satTo 32 (regN s (base + 0x0C) + cseqDist q.txSeq (ack % 1024))) ∧
    (∀ creds n, 8 ≤ q.resends → q.txAcked < 1024 → Does (.link p q.txAcked true ⟨creds, n⟩) s fun t =>
      (getPort t p).st = .down ∧ (getPort t p).reason = 2) ∧
    (∀ dt, q.queue ≠ [] → max q.since q.creditAt + 10000000 ≤ s.clock + dt →
      Does (.creditStallTimeout dt p) s fun t => (getPort t p).st = .down ∧ (getPort t p).reason = 4 ∧ (getPort t p).queue = []) ∧
    (∀ dt lanes, 12 < lanes → 1000 ≤ dt → Does (.portLossOfSignal dt p lanes) s fun t =>
      (getPort t p).st = .down ∧ (getPort t p).reason = 3)) ∧
  (∀ (s : State) (v : Word), HostOpen s 0 → diesDark s = false → Does (.portEnWrite 0 v) s fun t =>
    reg t bGzl = v &&& 0x00FF01FF ∧ ∀ p < 8,
      (bitOf v.toNat p = false → (getPort t p).st = .down ∧ (getPort t p).reason = 7) ∧
      (bitOf v.toNat p = true → bitOf (regN s bGzl) p = false → (getPort t p).holdoff = false ∧ (getPort t p).st = (getPort s p).st))

/-- R361, R363, R383 to R386: the bring-up of a port, state after state: training picks the width, alignment sends the PARAM flit, a PARAM flit
with the wrong role, plane or node holds the port DOWN, a good one leads to TIME, and TIME to UP once D is measured and a TIME flit has
come. A state whose limit is over ends in DOWN, TIME without TIME flits in UP; a fallen port may try again after 1 s. -/
def Obligations.PortBringUp : Prop :=
  ∀ (s : State) (p : Nat), p < 8 →
    let q := getPort s p
    (q.st = .down → q.holdoff = false → portEnabled s p = true → s.rst = none → (s.fer.power = .active ∨ s.fer.power = .idle) →
      Does (.portSignalDetect p) s fun t => getPort t p = { q with st := .train, since := s.clock } ∧
        t = { s with fab := t.fab, fer := t.fer }) ∧
    (q.st = .train → ∀ failed, let w := widthOf (healthyLanes failed)
      (w ≠ 0 → Does (.portTrainDone p failed) s fun t => (getPort t p).st = .align ∧ (getPort t p).width = w ∧ (getPort t p).failed = failed) ∧
      (w = 0 → Does (.portTrainDone p failed) s fun t => (getPort t p).st = .down ∧ (getPort t p).reason = 1)) ∧
    (q.st = .align → Does (.portAlignDone p) s fun t => (getPort t p).st = .param ∧
      t.out = .flit p (linkFlit 0x05 ([(2, 1, p), (3, 1, 0), (4, 2, nodeId s)] ++
        eightFields 8 [4096, 256, 512, 4096, 256, 4096, 512, 256])) :: s.out) ∧
    (q.st = .param → ∀ plane role node creds,
      let free := (∀ o < 8, portUp s o = false) ∧ ∀ n ∈ partNums, isStarted s n = false
      ((role ≠ 1 ∨ plane ≠ p) → Does (.param p plane role node creds) s fun t =>
        (getPort t p).st = .down ∧ (getPort t p).reason = 5 ∧ nodeId t = nodeId s) ∧
      (role = 1 → plane = p → node < 0xFFFF → free → Does (.param p plane role node creds) s fun t =>
        (getPort t p).st = .time ∧ nodeId t = node ∧ ∀ v < 8, creds.length = 8 → (getPort t p).credits.get 0 v = creds.getD v 0) ∧
      (role = 1 → plane = p → ¬free → node = nodeId s → node < 0xFFFF → Does (.param p plane role node creds) s fun t =>
        (getPort t p).st = .time ∧ nodeId t = nodeId s) ∧
      (role = 1 → plane = p → ((¬free ∧ node ≠ nodeId s) ∨ node = 0xFFFF) → Does (.param p plane role node creds) s fun t =>
        (getPort t p).st = .down ∧ (getPort t p).reason = 6 ∧ nodeId t = nodeId s)) ∧
    (q.st = .time → q.measured = true → q.since ≤ q.lastTime → Does (.portUp p) s fun t =>
      (getPort t p).st = .up ∧ (getPort t p).width = q.width) ∧
    (q.measured = false → exec (.portUp p) s = .next s) ∧
    (∀ dt l, stateLimit q.st = some l → q.since + l ≤ s.clock + dt → Does (.portStateTimeout dt p) s fun t =>
      (q.st = .time → q.lastTime < q.since → (getPort t p).st = .up) ∧
      (q.st ≠ .time ∨ q.since ≤ q.lastTime → (getPort t p).st = .down ∧ (getPort t p).reason = 9)) ∧
    (∀ dt, q.st = .down → q.holdoff = true → portEnabled s p = true → q.since + 1000000000 ≤ s.clock + dt →
      exec (.portRetry dt p) s = .next (updPort p (fun q => { q with holdoff := false }) (pass dt s)))

/-- R379, R380: a DELAY_REQ leaves in TIME and every second after; a port's link delay is half of what its request and answer took, kept as its
double. A TIME flit of the only source corrects fabric time: by slewing within 1 µs, by a step forward beyond it, and backward by a step
only with no partition started. A port without a TIME flit of QUALITY 0 or 1 for 10 µs is no source.
Of the model's choices it rests on log entry 23. -/
def Obligations.FabricTime : Prop :=
  ∀ (s : State) (dt p : Nat),
    let u := pass dt s
    let q := getPort s p
    (q.st = .time ∨ (q.st = .up ∧ q.sentAt + 1000000000 ≤ s.clock + dt) → Does (.delayMeasure dt p) s fun t =>
      t.out = .flit p (linkFlit 0x03 [(8, 8, u.now.toNat)]) :: s.out ∧ (getPort t p).sentT1 = u.now ∧ (getPort t p).sentAt = s.clock + dt ∧
      t = { u with fab := t.fab, out := t.out }) ∧
    (q.st = .up → s.clock + dt < q.sentAt + 1000000000 → exec (.delayMeasure dt p) s = .next s) ∧
    (∀ t2 t3 : DWord, q.st = .time ∨ q.st = .up → Does (.delayResp dt p q.sentT1 t2 t3) s fun t =>
      (getPort t p).delay = ((u.now.toNat : Int) - q.sentT1.toNat) - ((t3.toNat : Int) - t2.toNat) ∧ (getPort t p).measured = true ∧
      t = { u with fab := t.fab, out := t.out }) ∧
    (q.st = .up → p < 8 → (∀ o < 8, o ≠ p → portUp s o = false) → ∀ (time : DWord) (frac quality : Nat),
      (2 ≤ quality → Does (.time dt p time frac p quality) s fun t =>
        (getPort t p).timeOk = (q.timeOk && decide (s.clock + dt < q.goodTime + 10000))) ∧
      (quality ≤ 1 →
      let e : Int := (time.toNat : Int) + (2 * (frac : Int) + 65536 * q.delay + 65536) / 131072 - (u.now.toNat : Int)
      (-1000 ≤ e → e ≤ 1000 → Does (.time dt p time frac p quality) s fun t => t.now = u.now ∧ t.fab.slew = e) ∧
      (1000 < e → Does (.time dt p time frac p quality) s fun t => t.now = u.now + BitVec.ofInt 64 e ∧ t.fab.slew = 0) ∧
      (e < -1000 → (∃ n ∈ partNums, isStarted s n = true) → Does (.time dt p time frac p quality) s fun t => t.now = u.now ∧ t.fab.slew = e) ∧
      (e < -1000 → (∀ n ∈ partNums, isStarted s n = false) → Does (.time dt p time frac p quality) s fun t =>
        t.now = u.now + BitVec.ofInt 64 e ∧ t.fab.slew = 0))) ∧
    (q.timeOk = true → q.goodTime + 10000 ≤ s.clock + dt → Does (.timeOkExpiry dt p) s fun t => (getPort t p).timeOk = false)

/-- R295, R366, R372, R375: a request that its partition admits is carried out: a READ answers its bytes, a WRITE stores its payload, ADDF and ADDI
store the sums, a PARCEL stores its four parts; no other byte changes, and the sequence expects the next PSN.
Of the model's choices it rests on log entry 20. -/
def Obligations.MemoryPackets : Prop :=
  ∀ (s : State) (p n : Nat) (k : Packet), Admitted s p k n →
    let a := gLocal k.addr.toNat
    let only (t : State) : Prop := (∀ b, (∀ r ∈ pktRanges k, b < gLocal r.1 ∨ gLocal r.1 + r.2.1 ≤ b) → memByte t b = memByte s b) ∧
      t = { s with mem := t.mem, fab := t.fab, fer := { s.fer with power := t.fer.power }, out := t.out } ∧
      (getRx t k.src k.flow k.vc).expected = some ((k.psn + 1) % 2 ^ 24)
    (k.type = 0x01 → k.vc = 1 → Does (.readPacket p k) s fun t =>
      Sends t p (fun r => r.type = 0x11 ∧ r.vc = 5 ∧ r.dst = k.src ∧ r.psn = k.psn ∧ r.tag = k.tag ∧ r.payload = devRd s a k.tspec) ∧
      (k.hint ≠ 3 → ∀ b, memByte t b = memByte s b) ∧
      t = { s with mem := t.mem, fab := t.fab, fer := { s.fer with power := t.fer.power }, out := t.out }) ∧
    (k.type = 0x02 → k.vc = 0 → Does (.writePacket p k) s fun t => devRd t a k.payload.length = k.payload ∧ only t) ∧
    (k.type = 0x03 → k.vc = 0 → Does (.addfPacket p k) s fun t =>
      let m := k.payload.length / 4
      devRd t (a / 4 * 4) (4 * m) = addElems true m (devRd s (a / 4 * 4) (4 * m)) k.payload ∧ only t) ∧
    (k.type = 0x04 → k.vc = 0 → Does (.addiPacket p k) s fun t =>
      let m := k.payload.length / 8
      devRd t (a / 8 * 8) (8 * m) = addElems false m (devRd s (a / 8 * 8) (8 * m)) k.payload ∧ only t) ∧
    (k.type = 0x05 → k.vc = 0 →
      let m := pktScales k
      let c := 256 + (m + 3) / 4 * 4
      k.payload.length = c + (if bitOf k.tspec 4 then 36 else 4) →
      ((pktRanges k).map fun r => (gLocal r.1, r.2.1)).Pairwise (fun x y => rangesMeet x.1 x.2 y.1 y.2 = false) →
      Does (.parcelPacket p k) s fun t => only t ∧ devRd t a 256 = sliceB k.payload 0 256 ∧
        devRd t (gLocal (leAt k.ext 0 6)) m = sliceB k.payload 256 m ∧ devRd t (gLocal (leAt k.ext 6 6)) 4 = sliceB k.payload c 4 ∧
        (bitOf k.tspec 4 = true → devRd t (gLocal (leAt k.ext 12 6)) 32 = sliceB k.payload (c + 4) 32))

/-- R365, R366, R372, R374, R375: what becomes of a WRITE, ADD or PARCEL that is not carried out: a failed ECRC discards and counts it, a gap in its
sequence is answered NAK, a copy of an earlier one is acknowledged again; behind a held packet on its VC it waits; for no started partition, outside the quota or of an
abandoned attempt it is answered by its status; one of a later attempt is held. None of them changes memory. A packet of a
reserved TYPE is discarded. Of the model's choices it rests on log entry 20. -/
def Obligations.PacketsNotApplied : Prop :=
  (∀ (s : State) (p : Nat) (k : Packet) (c : Nat × (Nat → Packet → Instr)),
    c ∈ ([(0x02, .writePacket), (0x03, .addfPacket), (0x04, .addiPacket), (0x05, .parcelPacket)] : List (Nat × (Nat → Packet → Instr))) →
    k.type = c.1 → k.vc = 0 → k.flow < 8 → k.mcast = false → portUp s p = true → s.fab.parked = [] →
    let answer (t : State) (type st psn : Nat) : Prop :=
      t.mem = s.mem ∧ t.parts = s.parts ∧ Sends t p fun r => r.type = type ∧ r.vc = 4 ∧ r.dst = k.src ∧ r.tspec = st ∧ r.psn = psn
    let fresh : Prop := (getRx s k.src k.flow 0).expected = some k.psn ∧ k.psn < 2 ^ 24
    let known : Prop := k.ecrc = pktEcrc k ∧ vcBlocked s p 0 = false ∧ s.fab.epochs.get none k.src = some k.epoch
    (k.ecrc ≠ pktEcrc k → Does (c.2 p k) s fun t => t = { s with fab := t.fab, regs := t.regs, out := t.out } ∧ t.fab.rx = s.fab.rx ∧
      (reg s (bGzl + 0x100 + 0x20 * p + 0x10) ≠ 0xFFFFFFFF →
        reg t (bGzl + 0x100 + 0x20 * p + 0x10) = reg s (bGzl + 0x100 + 0x20 * p + 0x10) + 1)) ∧
    (k.ecrc = pktEcrc k → vcBlocked s p 0 = true →
      (heldCopy s k = true → Does (c.2 p k) s fun t => answer t 0x10 4 k.psn ∧ t.fab.held = s.fab.held) ∧
      (heldCopy s k = false → Does (c.2 p k) s fun t => t.mem = s.mem ∧ t.parts = s.parts ∧
        t.fab.parked = [{ port := p, pkt := k, taken := false }] ∧ t.fab.rx = s.fab.rx ∧ t.fab.held = s.fab.held)) ∧
    (∀ e, known → k.resync = false → (getRx s k.src k.flow 0).expected = some e →
      (0 < psnDist k.psn e → psnDist k.psn e < 2 ^ 23 → Does (c.2 p k) s fun t => answer t 0x12 0 ((e + 2 ^ 24 - 1) % 2 ^ 24)) ∧
      (2 ^ 23 ≤ psnDist k.psn e → heldCopy s k = false → k.psn ∉ (getRx s k.src k.flow 0).openPsns →
        Does (c.2 p k) s fun t => answer t 0x10 0 k.psn)) ∧
    (known → fresh → jobPart s k.job = none → Does (c.2 p k) s fun t => answer t 0x10 3 k.psn) ∧
    (∀ n, known → fresh → jobPart s k.job = some n → fits s n k = false → Does (c.2 p k) s fun t => answer t 0x10 2 k.psn ∧
      (reg s (ctx bGzlCtx n 4) ≠ 0xFFFFFFFF → reg t (ctx bGzlCtx n 4) = reg s (ctx bGzlCtx n 4) + 1)) ∧
    (∀ n, known → fresh → jobPart s k.job = some n → fits s n k = true → attemptOrder s n k < 0 → Does (c.2 p k) s fun t => answer t 0x10 1 k.psn) ∧
    (∀ n, known → fresh → jobPart s k.job = some n → fits s n k = true → 0 < attemptOrder s n k → Does (c.2 p k) s fun t =>
      answer t 0x10 4 k.psn ∧ t.fab.held = s.fab.held ++ [{ port := p, pkt := k, at_ := s.clock }])) ∧
  (∀ (s : State) (p : Nat) (k : Packet), portUp s p = true → k.ecrc = pktEcrc k →
    k.type ∉ [1, 2, 3, 4, 5, 8, 9, 0xA, 0xC, 0xD, 0x10, 0x11, 0x12, 0x13] → Does (.reservedPacketType p k) s fun t =>
      t = { s with fab := t.fab, out := t.out } ∧ t.fab.rx = s.fab.rx)

/-- R335, R339, R340 to R345, R366, R368: a SIGNAL whose only part, or last part, has come adds its increment to the counter it names; a part
of a signal that is not complete is kept, and a part of a new one waits while 1,024 signals are incomplete. A WAIT packet is answered
VERDICT 0 when its counter satisfies it, 3 outside the range, 1 or 2 once its deadline has come, and else kept, or answered BUSY by a
full sync unit. -/
def Obligations.SyncPackets : Prop :=
  ∀ (s : State) (p n : Nat) (k : Packet), Admitted s p k n → k.vc = 2 →
    let applies (m i inc : Nat) : Prop := match counterOf s m i with
      | none => Does (.signalPacket p k) s fun t => t.syn.counters = s.syn.counters ∧ t.mem = s.mem ∧ bitOf (regN t (ctx bSynCtx m 4)) 1 = true
      | some c => Does (.signalPacket p k) s fun t => t.mem = s.mem ∧ (∀ b, b ≠ c → getCounter t b = getCounter s b) ∧
          (isSaturated s c = true → getCounter t c = getCounter s c) ∧
          (isSaturated s c = false → getCounter t c = BitVec.ofNat 64 (min (2 ^ 64 - 1) ((getCounter s c).toNat + inc)) ∧
            isSaturated t c = decide (2 ^ 64 ≤ (getCounter s c).toNat + inc))
    let same (g : Gather) : Bool := g.node == k.src && g.sigId == sgId k
    (k.type = 0x08 → s.syn.gathers.find? same = none →
      (sgParts k ≤ 1 → applies n (sgIndex k) (sgInc k)) ∧
      (2 ≤ sgParts k → s.syn.gathers.length < 1024 → Does (.signalPacket p k) s fun t => t.syn.counters = s.syn.counters ∧
        ∃ g, t.syn.gathers = s.syn.gathers ++ [g] ∧ g.node = k.src ∧ g.inc = sgInc k ∧ g.index = sgIndex k ∧ g.seen = [k.tspec]) ∧
      (2 ≤ sgParts k → 1024 ≤ s.syn.gathers.length → Does (.signalPacket p k) s fun t => t.syn = s.syn ∧
        t.fab.parked = [{ port := p, pkt := k, taken := true }])) ∧
    (k.type = 0x08 → ∀ g, s.syn.gathers.find? same = some g → k.tspec ∉ g.seen →
      (g.parts ≤ g.seen.length + 1 → applies g.part g.index g.inc) ∧
      (g.seen.length + 1 < g.parts → Does (.signalPacket p k) s fun t => t.syn.counters = s.syn.counters ∧
        ∃ h ∈ t.syn.gathers, h = { g with seen := g.seen ++ [k.tspec], origins := h.origins })) ∧
    (k.type = 0x09 →
      let i := leAt k.payload 0 2
      let late := timeReached (now48 s) (BitVec.ofNat 48 (leAt k.payload 16 6))
      let v (x : Nat) : Prop := Does (.waitPacket p k) s fun t => t.syn = s.syn ∧
        Sends t p fun r => r.type = 0x13 ∧ r.vc = 6 ∧ r.dst = k.src ∧ r.psn = k.psn ∧ r.tspec = x
      (counterOf s n i = none → v 3) ∧
      (∀ c, counterOf s n i = some c → isSaturated s c = false → leAt k.payload 8 8 ≤ (getCounter s c).toNat → v 0) ∧
      (∀ c, counterOf s n i = some c → isSaturated s c = false → (getCounter s c).toNat < leAt k.payload 8 8 → late = true → v 1) ∧
      (∀ c, counterOf s n i = some c → isSaturated s c = true → late = true → v 2) ∧
      (∀ c, counterOf s n i = some c → late = false →
        isSaturated s c = true ∨ ((getCounter s c).toNat < leAt k.payload 8 8) →
        Does (.waitPacket p k) s fun t => ∃ w, w.part = n ∧ w.issuer = 0 ∧ w.index = i ∧
          w.expected = BitVec.ofNat 64 (leAt k.payload 8 8) ∧ w.deadline = BitVec.ofNat 48 (leAt k.payload 16 6) ∧
          if isSaturated s c = false ∧ unitFull s (c / 256) = true then t.syn = { s.syn with busy := s.syn.busy ++ [w] }
          else t.syn = { s.syn with waiters := s.syn.waiters ++ [w] }))

/-- R303, R366, R372, R373, R375, R378, R389: what a reply does to the request it answers, here one of a descriptor: an ACK completes a FILL's
last piece, with LINK_DEGRADED when the reply crossed a degraded or substitute port; ACK QUOTA or NOJOB ends it REMOTE_UNREACHABLE, ACK
HELD keeps the request waiting for its final reply; READ_DATA is written to the COPY's destination; a
VERDICT ends a SYNC_WAIT; NAK SEQ sends open requests from the one after its PSN on again, NAK UNREACH leaves the port for that
destination. Of the model's choices it rests on log entries 20, 22, 116. -/
def Obligations.Replies : Prop :=
  (∀ (s : State) (p : Nat) (k : Packet) (o : Sent) (id : Nat) (d : Desc), portUp s p = true → k.ecrc = pktEcrc k → 4 ≤ k.vc → k.vc < 8 → k.flow < 8 →
    (getTx s k.src k.flow (k.vc - 4)).unacked = [o] →
    o.psn = k.psn → o.psn < 2 ^ 24 → o.degraded = false → o.retried = false → o.held = none → o.origin = .desc id →
    findDesc s id = some d → d.phase = .started → d.codes = [] →
    let calm (t : State) : Prop := (∀ n ∈ partNums, (getPart s n).colls = []) → t.mem = s.mem ∧ t.cores = s.cores
    let good : Status := if portDegraded s p k.flow then .linkDegraded else .ok
    let ends : DescPhase := if bucketOwes s d.fn 0 then .started else .done good
    let lost (t : State) : Prop := reg s (bGzl + 0x18) ≠ 0xFFFFFFFF → reg t (bGzl + 0x18) = reg s (bGzl + 0x18) + 1
    (k.type = 0x10 → d.opcode = 0x09 → d.waiting ≤ 1 → o.pkt.type = 0x02 →
      (k.tspec = 0 → Does (.ack p k) s fun t => Stands t id ends ∧ calm t) ∧
      (k.tspec = 2 ∨ k.tspec = 3 → Does (.ack p k) s fun t => Stands t id (.done .remoteUnreachable) ∧ calm t ∧ lost t) ∧
      (k.tspec = 1 → Does (.ack p k) s fun t => Stands t id ends ∧ calm t)) ∧
    (k.type = 0x10 → k.tspec = 4 → Does (.ack p k) s fun t => calm t ∧
      ∃ w ∈ (getTx t k.src k.flow (k.vc - 4)).unacked, w.psn = o.psn ∧ w.held = some s.clock) ∧
    (k.type = 0x11 → d.opcode = 0x08 → d.got = [] → cpDstHost d = true → d.waiting = 1 → Does (.readData p k) s fun t =>
      Stands t id ends ∧ .hostWrite d.fn (BitVec.ofNat 64 o.dest) k.payload ∈ t.out ∧ calm t) ∧
    (k.type = 0x13 → d.opcode = 0x11 →
      (k.tspec = 0 → Does (.verdict p k) s fun t => Stands t id (.done good)) ∧
      (k.tspec = 1 → Does (.verdict p k) s fun t => Stands t id (.done .syncTimeout)) ∧
      (k.tspec = 2 → Does (.verdict p k) s fun t => Stands t id (.done .syncSaturated)) ∧
      (k.tspec = 3 → Does (.verdict p k) s fun t => Stands t id (.done .remoteUnreachable) ∧ lost t))) ∧
  (∀ (s : State) (p : Nat) (k : Packet), portUp s p = true → k.ecrc = pktEcrc k → k.type = 0x12 → 4 ≤ k.vc → k.vc < 8 → k.flow < 8 →
    let l := (getTx s k.src k.flow (k.vc - 4)).unacked
    let calm (t : State) : Prop := (∀ n ∈ partNums, (getPart s n).colls = []) → t.mem = s.mem ∧ t.cores = s.cores
    (∀ q, k.tspec = 0 → destPort s k.src k.flow = some q → isReturning s k.src k.flow = false → Does (.nak p k) s fun t => calm t ∧
      ∀ o ∈ l, o.quiet = false → psnDist o.psn ((k.psn + 1) % 2 ^ 24) < 2 ^ 23 → o.pkt.dst = k.src → o.pkt.flow = k.flow →
        Sends t q (fun r => r = o.pkt)) ∧
    (∀ q, k.tspec = 1 → destPort s k.src k.flow = some p → q < 8 → q ≠ p → portUp s q = true → q ∉ (getDest s k.src).tried →
      Does (.nak p k) s fun t => p ∈ (getDest t k.src).tried ∧ calm t))

/-- R366, R372, R373, R375: the timers of the transport. An acknowledgement owed for 100 ns is sent; a request without a reply for ACK_TIMEOUT is sent
again, and the fourth time-out in a row leaves the port; 1 s later the destination's own ports are tried again. A packet held for
500 ms is discarded with ACK STALE, and a held request without a final reply for 1 s ends REMOTE_UNREACHABLE.
Of the model's choices it rests on log entries 20, 119, 122. -/
def Obligations.PacketTimers : Prop :=
  (∀ (s : State) (dt node flow vc : Nat), flow < 8 → vc < 8 → (getRx s node flow vc).owed ≠ 0 →
    (getRx s node flow vc).owedSince + 100 ≤ s.clock + dt → Does (.cumulativeAck dt node flow vc) s fun t =>
      (getRx t node flow vc).owed = 0 ∧ t = { pass dt s with fab := t.fab, out := t.out } ∧
      (portUp s (getRx s node flow vc).port = true → Sends t (getRx s node flow vc).port fun r =>
        r.type = 0x10 ∧ r.dst = node ∧ r.flow = flow ∧ r.vc = vc + 4 ∧ r.psn = ackPsn (getRx s node flow vc) ∧
        r.tag = (getRx s node flow vc).tag ∧ r.job = (getRx s node flow vc).job)) ∧
  (∀ (s : State) (dt node flow vc p : Nat) (o : Sent), flow < 8 → vc < 8 → (getTx s node flow vc).unacked = [o] → o.quiet = false →
    o.at_ + ackTimeout s ≤ s.clock + dt → sendPort s o = some p → o.pkt.dst = node → o.pkt.flow = flow →
    ((getDest s node).timeouts.get 0 p < 3 → Does (.ackTimeout dt node flow vc) s fun t => Sends t p (fun r => r = o.pkt) ∧
      (getDest t node).timeouts.get 0 p = (getDest s node).timeouts.get 0 p + 1 ∧
      (∃ w, (getTx t node flow vc).unacked = [w] ∧ w.pkt = o.pkt ∧ w.psn = o.psn ∧ w.port = p ∧ w.retried = true ∧ w.at_ = s.clock + dt) ∧
      t.descs = s.descs ∧ t.mem = s.mem) ∧
    (3 ≤ (getDest s node).timeouts.get 0 p → (∃ q < 8, q ≠ p ∧ portUp s q = true ∧ q ∉ (getDest s node).tried) →
      Does (.ackTimeout dt node flow vc) s fun t => p ∈ (getDest t node).tried ∧ (getDest t node).unreachable = (getDest s node).unreachable) ∧
    (3 ≤ (getDest s node).timeouts.get 0 p → (∀ q < 8, q ≠ p → portUp s q = false) →
      Does (.ackTimeout dt node flow vc) s fun t => (getDest t node).unreachable = true ∧ (getTx t node flow vc).resync = true)) ∧
  (∀ (s : State) (dt node : Nat), ((getDest s node).unreachable = true ∨ (getDest s node).tried ≠ []) →
    (getDest s node).since + 1000000000 ≤ s.clock + dt → Does (.destinationRetry dt node) s fun t =>
      getDest t node = { returning := (getDest t node).returning } ∧ t.descs = s.descs) ∧
  (∀ (s : State) (dt n : Nat) (h : HeldPkt), s.fab.held[n]? = some h → h.at_ + 500000000 ≤ s.clock + dt → portUp s h.port = true →
    s.fab.parked = [] → Does (.heldPacketTimeout dt n) s fun t => t.fab.held = removeAt n s.fab.held ∧ t.mem = s.mem ∧
      Sends t h.port fun r => r.type = 0x10 ∧ r.tspec = 1 ∧ r.dst = h.pkt.src ∧ r.psn = h.pkt.psn) ∧
  (∀ (s : State) (dt node flow vc : Nat) (o : Sent) (at_ id : Nat) (d : Desc), flow < 8 → vc < 8 → (getTx s node flow vc).unacked = [o] →
    o.held = some at_ → at_ + 1000000000 ≤ s.clock + dt → o.origin = .desc id → findDesc s id = some d → d.phase = .started →
    d.opcode = 0x08 ∨ d.opcode = 0x09 → Does (.heldReplyTimeout dt node flow vc o.psn) s fun t =>
      Stands t id (.done .remoteUnreachable) ∧ (reg s (bGzl + 0x18) ≠ 0xFFFFFFFF → reg t (bGzl + 0x18) = reg s (bGzl + 0x18) + 1))

/-- R403 to R406, R407, R410: a collective that passes its checks joins those of its partition: held in a step, else started; one that fails a check
ends at once. At its time and trigger it is armed, and a member that is not the root sends its JOIN, with the signature, to its parent or
the root. A free scratch slot goes to a receiving point, whose joined children get their WINDOW.
Of the model's choices it rests on log entries 51, 52. -/
def Obligations.CollectiveStarts : Prop :=
  (∀ (s : State) (id : Nat) (d : Desc) (c : Nat × Instr), c ∈ [(0x20, Instr.collective id), (0x21, Instr.collectiveFused id)] →
    AtTurn s id c.1 d → d.codes = [] →
    let joins (t : State) : Prop := ∃ b, (getPart t d.fn).colls = (getPart s d.fn).colls ++ [{ id := id, base := b }] ∧
      ∀ k, counterOf s d.fn (d.at 44 2 % 2 ^ 14) = some k → b = getCounter s k
    (∀ st, collAccept s d = some st → Does c.2 s fun t => Stands t id (.done st) ∧ t = { s with descs := t.descs }) ∧
    (collAccept s d = none → (openStep s d.fn).isSome = true → Does c.2 s fun t =>
      Stands t id .held ∧ joins t ∧ t = { s with descs := t.descs, parts := t.parts }) ∧
    (collAccept s d = none → openStep s d.fn = none → startsNow s d = true → Does c.2 s fun t =>
      Stands t id .started ∧ joins t ∧ t = { s with descs := t.descs, parts := t.parts })) ∧
  (∀ (s : State) (dt id : Nat) (d : Desc) (c : Coll), findDesc s id = some d → d.opcode = 0x20 ∨ d.opcode = 0x21 →
    findColl s d.fn id = some c → c.phase = .waiting → collSetup d ≤ dt →
    let u := pass (dt - collSetup d) s
    collRuns u d = true → collTimeCome u d = true → collTriggered u d c = true → collDeadlineCome u d = false →
    (needsSlot u d = false ∨ collSlots u d.fn ≠ 0) → Reaches s d.fn → ownMember s d.fn ≠ cRoot d →
    Does (.collectiveArm dt id) s fun t => (∃ e, findColl t d.fn id = some e ∧ e.phase = .armed) ∧
      Asks t fun q => q.type = 0x0D ∧ q.tspec = 1 ∧ leAt q.payload 0 8 = collSig s d.fn d ∧ leAt q.payload 8 2 = ownMember s d.fn ∧
        q.dst = peerNode s d.fn (if cOp d = 0 then collParent s d.fn (cRoot d) (ownMember s d.fn) else cRoot d)) ∧
  (∀ (s : State) (id : Nat) (d : Desc) (c : Coll), findDesc s id = some d → d.opcode = 0x20 ∨ d.opcode = 0x21 →
    findColl s d.fn id = some c → c.phase = .armed → c.slotHeld = false → needsSlot s d = true → slotsUsed s d.fn < collSlots s d.fn →
    c.sent = 0 → 0 < cTotal s d → Reaches s d.fn →
    let v := min (cTotal s d) (collWindow s d.fn (collChildren s d.fn (cRoot d) (ownMember s d.fn)).length)
    Does (.scratchSlotGrant id) s fun t => (∃ e, findColl t d.fn id = some e ∧ e.slotHeld = true ∧ e.phase = .armed) ∧
      ∀ m ∈ c.joined, c.granted.get 0 m < v → v < 2 ^ 32 → Asks t fun q => q.type = 0x0D ∧ q.tspec = 2 ∧ ccValue q = v ∧ q.dst = peerNode s d.fn m)

/-- R378, R394, R402, R407, R409 to R411: the messages of a collective. A JOIN of the right signature is taken, an early one kept, a wrong one answered with
ABORT; a WINDOW lets a leaf send in E4M3, and a pod root alone in its pod in E2M1; END, MISSING and DONE drive a broadcast to its RESULT, which ends the collective with its code; an
ABORT ends it COLL_MISMATCH. Of the model's choices it rests on log entry 28. -/
def Obligations.CollectiveMessages : Prop :=
  ∀ (s : State) (p n : Nat) (k : Packet), Admitted s p k n → k.type = 0x0D → k.vc = 2 → Reaches s n →
    (k.tspec = 1 → openColls s n = [] → Does (.join p k) s fun t =>
      (getPart t n).joins = (getPart s n).joins ++ [(ccMember k, ccSig k)] ∧ t.mem = s.mem ∧ t.descs = s.descs) ∧
    (∀ d c, k.tspec = 1 → openColls s n = [(d, c)] → c.phase = .armed → ccSig k ≠ BitVec.ofNat 64 (collSig s n d) → ccSig k ∉ (getPart s n).collPast →
      ccMember k ∈ collExpect s n d → ccMember k ∉ c.joined → ownMember s n ≠ cRoot d → Does (.join p k) s fun t =>
        Asks t fun q => q.type = 0x0D ∧ q.tspec = 7 ∧ q.dst = peerNode s n (cRoot d) ∧ leAt q.payload 10 1 = 0x30 ∧ ccFirst q = ccMember k) ∧
    (∀ d c, collBySig s n (ccSig k) = some (d, c) → findColl s n d.id = some c → findDesc s d.id = some d → c.phase = .armed →
      let still (t : State) (f : Coll → Prop) : Prop := ∃ e, findColl t n d.id = some e ∧ e.phase = .armed ∧ f e
      let plain : Prop := d.phase = .started ∧ d.codes = [] ∧ bitOf (cFlags d) 1 = false ∧ portDegraded s p k.flow = false ∧ c.degraded = false
      (k.tspec = 1 → cOp d = 0 → ccMember k ∈ collExpect s n d → ccMember k ∉ c.joined → c.got = [] → c.sent = 0 → 0 < cTotal s d →
        Does (.join p k) s fun t => still t fun e => e.joined = c.joined ++ [ccMember k]) ∧
      (k.tspec = 2 → cOp d = 0 → collReceives s n d = false → Does (.window p k) s fun t =>
        (still t fun e => e.windowIn = max c.windowIn (ccValue k)) ∧
        (c.sent = 0 → 0 < cTotal s d → cTotal s d ≤ ccValue k → Asks t fun q => q.type = 0x0C ∧ q.tspec = 4 * fE4M3 ∧ leAt q.payload 8 4 = 0 ∧
          leAt q.payload 0 8 = collSig s n d ∧ q.dst = peerNode s n (collParent s n (cRoot d) (ownMember s n)))) ∧
      (k.tspec = 2 → cOp d = 0 → collReceives s n d = true → ownMember s n ≠ cRoot d → collChildren s n (cRoot d) (ownMember s n) = [] →
        c.sent = 0 → 0 < cTotal s d → cTotal s d ≤ ccValue k → Does (.window p k) s fun t => Asks t fun q =>
          q.type = 0x0C ∧ q.tspec = 1 + 4 * fE2M1 ∧ leAt q.payload 8 4 = 0 ∧ q.dst = peerNode s n (cRoot d)) ∧
      (k.tspec = 3 → cOp d ≠ 0 → Does (.collEnd p k) s fun t => still t fun e => e.endFrom = some (ccMember k, s.clock)) ∧
      (∀ i, k.tspec = 4 → cOp d ≠ 0 → ccMember k ∈ collFeeds s n d → ccMember k ∈ c.endSent → ccValue k ≤ i → i < ccValue k + ccCount2 k →
        i < bcTotal s d → i < 2 ^ 32 → Does (.missing p k) s fun t =>
          Asks t fun q => q.type = 0x0C ∧ leAt q.payload 8 4 = i ∧ q.dst = peerNode s n (ccMember k)) ∧
      (∀ o, k.tspec = 5 → cOp d ≠ 0 → ownMember s n = cRoot d → c.sent ≠ 0 → o ∈ othersOf s n (ownMember s n) → o ≠ ccMember k → o ∉ c.doneBy →
        Does (.done p k) s fun t => still t fun e => ccMember k ∈ e.doneBy) ∧
      (k.tspec = 5 → cOp d ≠ 0 → ownMember s n = cRoot d → c.sent ≠ 0 → (∀ o ∈ othersOf s n (ownMember s n), o = ccMember k ∨ o ∈ c.doneBy) →
        plain → c.nan = 0 →
        (∀ o ∈ othersOf s n (ownMember s n), ∀ f < 8, destPort s (peerNode s n o) f = some f ∧ (getPort s f).width = 3 ∧
          isReturning s (peerNode s n o) f = false) → Does (.done p k) s fun t => Stands t d.id (.done .ok) ∧
          ∀ o ∈ othersOf s n (ownMember s n), Asks t fun q => q.type = 0x0D ∧ q.tspec = 6 ∧ q.dst = peerNode s n o) ∧
      (k.tspec = 6 → plain → (ccNan k = 0 → Does (.result p k) s fun t => Stands t d.id (.done .ok)) ∧
        (ccNan k ≠ 0 → Does (.result p k) s fun t => Stands t d.id (.done .collNan))) ∧
      (k.tspec = 7 → plain → ownMember s n ≠ cRoot d → Does (.abort p k) s fun t =>
        Stands t d.id (.done .collMismatch) ∧ findColl t n d.id = none))

/-- R63, R236, R400, R402, R408, R411: a burst of a byte broadcast is written where it belongs and nowhere else, and not at all outside the
writable quota; a reduction burst that fails every read ends its collective CHECKSUM_FAIL; 2 µs after END a receiver asks for its first missing
run; a collective whose deadline has gone before its RESULT ends COLL_TIMEOUT. Of the model's choices it rests on log entries 25, 29. -/
def Obligations.CollectiveDataAndTimers : Prop :=
  (∀ (s : State) (p n : Nat) (k : Packet) (d : Desc) (c : Coll), Admitted s p k n → k.type = 0x0C → k.vc = 3 → Reaches s n →
    (∀ m, m ≠ n → (getPart s m).colls = []) → collBySig s n (BitVec.ofNat 64 (leAt k.payload 0 8)) = some (d, c) → findColl s n d.id = some c →
    findDesc s d.id = some d → c.phase = .armed → d.opcode = 0x20 → cOp d = 2 → ownMember s n ≠ cRoot d → bitsOf k.tspec 0 2 = 2 →
    k.payload.length = 288 →
    let i := leAt k.payload 8 4
    let a := d.at 38 6 + 256 * i
    ∀ reread, i < cCount d →
    (quotaOk s n a 256 true = true → Does (.collData p ⟨k, reread⟩) s fun t =>
      (∃ e, findColl t n d.id = some e ∧ (0, i) ∈ e.got) ∧
      ∀ b, memByte t b = if a ≤ b ∧ b < a + 256 then k.payload.getD (32 + (b - a)) 0 else memByte s b) ∧
    (quotaOk s n a 256 true = false → Does (.collData p ⟨k, reread⟩) s fun t =>
      (∃ e, findColl t n d.id = some e ∧ e.got = c.got) ∧ t.mem = s.mem)) ∧
  (∀ (s : State) (p n : Nat) (k : Packet) (d : Desc) (c : Coll) (q : Chunk × Nat × Nat), Admitted s p k n → k.type = 0x0C → k.vc = 3 →
    collBySig s n (BitVec.ofNat 64 (leAt k.payload 0 8)) = some (d, c) → findColl s n d.id = some c → findDesc s d.id = some d → d.fn = n →
    d.phase = .started → c.phase = .armed → cOp d = 0 →
    let m := leAt k.payload 12 2
    let i := leAt k.payload 8 4
    let two := secondLevel s n d m
    burstPlace s d two i = some q → m ∈ c.joined → (m, i) ∉ c.got → bitsOf k.tspec 0 2 = b2n two → bitsOf k.tspec 2 4 = levelFmt two →
    parcelOk (levelFmt two) false (burstParcel (levelFmt two) (k.payload.drop 32)) = false → ∀ reread,
    Does (.collData p ⟨k, reread⟩) s fun t => Stands t d.id (.done .checksumFail) ∧ findColl t n d.id = none) ∧
  (∀ (s : State) (dt id m at_ : Nat) (d : Desc) (c : Coll) (r : Nat × Nat), findDesc s id = some d → d.opcode = 0x20 ∨ d.opcode = 0x21 →
    findColl s d.fn id = some c → c.phase = .armed → Reaches s d.fn →
    (cOp d ≠ 0 → c.endFrom = some (m, at_) → missingRun c (bcTotal s d) = some r → r.1 < 2 ^ 32 → r.2 < 2 ^ 32 → at_ + 2000 ≤ s.clock + dt →
      Does (.missingTimer dt id) s fun t => (∃ e, findColl t d.fn id = some e ∧ e.endFrom = none) ∧
        Asks t fun q => q.type = 0x0D ∧ q.tspec = 4 ∧ ccValue q = r.1 ∧ ccCount2 q = r.2 ∧ q.dst = peerNode s d.fn m) ∧
    (collDeadlineOver (pass dt s) d = false → exec (.collectiveDeadline dt id) s = .next s) ∧
    (d.phase = .started → bitOf (cFlags d) 1 = false → collDeadlineOver (pass dt s) d = true → Does (.collectiveDeadline dt id) s fun t =>
      Stands t id (.done .collTimeout) ∧ findColl t d.fn id = none ∧ bitOf (regN t (ctx bCollCtx d.fn 0x24)) 1 = true))

/-- R418, R420: an INGEST_SUBMIT by PF0 or by a function without decode pipes is not permitted; one for a job slot in use is malformed. One
that passes its checks takes its slot with the job block's host fields and its counters' present values, and starts at its not-before
time; a start writes the counter values at offset 192 of the job block, where the quota lets it (R295), and nothing else of memory. R432 to R434: the oldest buffer of a job whose samples have all ended is signalled: its header, the job block's status fields and its
queue entry are written, and one increment of its FILL counter leaves; a job ends OK with its last buffer, or with a sample's failure once
ERR_LIMIT samples have failed. Of the model's choices it rests on log entries 63, 127. -/
def Obligations.IngestJobs : Prop :=
  (∀ (s : State) (id : Nat) (d : Desc), AtTurn s id 0x18 d →
    let b := devRd s (isBlock d) 192
    let counter (i : Nat) : DWord := indexValue s d.fn i
    ((d.fn = 0 ∨ (getPart s d.fn).pipes = 0) → Does (.ingestSubmit id) s fun t =>
      Stands t id (.done .descNotPermitted) ∧ t = { s with descs := t.descs }) ∧
    (d.fn ≠ 0 → (getPart s d.fn).pipes ≠ 0 → ((getPart s d.fn).jobs.get none (isSlot d)).isSome → Does (.ingestSubmit id) s fun t =>
      Stands t id (.done .descMalformed) ∧ t = { s with descs := t.descs }) ∧
    (∀ st, ingestCheck s d = some st → Does (.ingestSubmit id) s fun t => Stands t id (.done st) ∧ t = { s with descs := t.descs }) ∧
    (ingestCheck s d = none → s.mem.waiting = [] → Does (.ingestSubmit id) s fun t =>
      (∃ j, (getPart t d.fn).jobs.get none (isSlot d) = some j ∧ j.id = id ∧ j.block = b ∧ j.samples = isSamples d ∧
        j.nextJ = jbStart b ∧ j.fillBase = counter (jbFill b) ∧ j.freeBase = counter (jbFree b) ∧
        j.freeList = List.range (jbSlots b) ∧ j.buffers = [] ∧ j.signalled = 0) ∧
      (∀ n, n ≠ d.fn → getPart t n = getPart s n) ∧
      t = { s with descs := t.descs, parts := t.parts, mem := t.mem } ∧ (∀ a, a < isBlock d + 192 ∨ isBlock d + 208 ≤ a → memByte t a = memByte s a) ∧
      (startsNow s d = false → Stands t id .waiting ∧ ∀ a, memByte t a = memByte s a) ∧
      (startsNow s d = true → Stands t id .started ∧
        (quotaOk s d.fn (isBlock d + 192) 16 true = true →
          devRd t (isBlock d + 192) 16 = leBytes 8 (counter (jbFill b)).toNat ++ leBytes 8 (counter (jbFree b)).toNat) ∧
        (quotaOk s d.fn (isBlock d + 192) 16 true = false → ∀ a, memByte t a = memByte s a)))) ∧
  (∀ (s : State) (n js : Nat) (j : Job) (u : Buffer) (d : Desc), (getPart s n).jobs.get none js = some j →
    j.buffers.find? (fun u => u.num == j.signalled) = some u → bufferCount j u.num ≤ u.filled → isStarted s n = true →
    s.mem.waiting = [] → findDesc s j.id = some d → d.phase = .started → d.codes = [] → j.degraded = false →
    let a := slotAddr j.block u.slot
    let q := jbQueue j.block + 8 * (u.num % jbSlots j.block)
    let may (x m : Nat) : Prop := ∀ e ∈ piecesOf x (zeros m), quotaOk s n e.1 e.2.length true = true
    let lim := jbErrLimit j.block
    let beyond : Prop := lim ≠ 0 ∧ lim ≤ j.failedSig + u.failed
    let last : Prop := j.samples ≠ BitVec.allOnes 64 ∧ j.samples.toNat ≤ u.num * jbPlaces j.block + bufferCount j u.num
    Does (.bufferFilled n js) s fun t =>
      t.syn.signals = s.syn.signals ++ [{ part := n, index := jbFill j.block, inc := 1, origin := .ingest n js, source := 4097, no := s.syn.sent }] ∧ t.cores = s.cores ∧
      (¬beyond → ¬last → t.descs = s.descs ∧ (may q 8 → devRd t q 8 = leBytes 8 (u.slot + 65536 * (u.num % 2 ^ 48))) ∧
        (may a 64 → rangesMeet a 64 q 8 = false → rangesMeet a 64 (j.blockAddr + 208) 24 = false → devRd t a 64 = bufferHeader s (shapeOf j.block) u) ∧
        ∃ i, (getPart t n).jobs.get none js = some i ∧ i.signalled = j.signalled + 1 ∧ i.failedSig = j.failedSig + u.failed ∧
          (∃ v ∈ i.buffers, v.num = u.num ∧ v.queued = true) ∧ i.nextJ = j.nextJ) ∧
      (¬beyond → last → Stands t j.id (.done .ok) ∧ (getPart t n).jobs.get none js = none) ∧
      (beyond → (∃ st, st ≠ .ok ∧ Stands t j.id (.done st)) ∧ (getPart t n).jobs.get none js = none ∧
        bitOf (regN t (ctx bIngCtx n 4)) 4 = true))

/-- R427, R428: pipes. A pipe that is due decodes its known-answer streams before more samples; one that fails gives way to a spare, or is
retired. The next sample of the jobs, in turn, goes to the lowest free pipe, with the sample table's entry. R428, R432: an ended sample
leaves its record at its place and counts in its buffer; one past its watchdog is decoded again once, then fails.
Of the model's choices it rests on log entries 36, 37, 127. -/
def Obligations.DecodePipes : Prop :=
  (∀ (s : State) (dt k n js : Nat) (j : Job), k < 64 → n ∈ partNums → ownsPipe s n k = true → js < 4 →
    (getPart s n).jobs.get none js = some j → jobRuns s j = true → (getPipe s k).testing = none → testDue (pass dt s) k = true →
    exec (.pipeKnownAnswerTest dt k) s = .next (updPipe k (fun q => { q with testing := some (s.clock + dt) }) (pass dt s))) ∧
  (∀ (s : State) (dt k t0 : Nat), (getPipe s k).testing = some t0 → t0 + 4000000 ≤ s.clock + dt →
    exec (.pipeTestDone dt k true) s = .next (updPipe k (fun q => { q with testing := none, testedAt := some (s.clock + dt) }) (pass dt s)) ∧
    (Does (.pipeTestDone dt k false) s fun t => t.fer.fuseQ = s.fer.fuseQ ++ [{ cls := 4, what := k }] ∧ (getPipe t k).testing = none ∧
      bitsOf (regN t (bIng + 4)) 16 7 = physOf s k % 128 ∧ t.mem = s.mem ∧ t.cores = s.cores ∧ t.descs = s.descs ∧
      (∀ q, (sparePipes s).head? = some q → physOf t k = q ∧ (getPipe t k).testedAt = none ∧
        (getPipe t k).retired = (getPipe s k).retired ∧ bitOf (regN t (bIng + 4)) 0 = true) ∧
      (sparePipes s = [] → (getPipe t k).retired = true ∧ (getPipe t k).task = none ∧ bitOf (regN t (bIng + 4)) 1 = true))) ∧
  (∀ (s : State) (dt n k js : Nat) (j : Job) (x : Nat × Bool) (entry segment : HostRead), isStarted s n = true → s.mem.waiting = [] →
    (List.range 64).find? (pipeFree (pass dt s) n) = some k →
    (jobTurns (getPart s n)).find? (fun i => ((getPart s n).jobs.get none i).any fun j => jobRuns s j && jobCan (getPart s n) j) = some js →
    (getPart s n).jobs.get none js = some j → jobNext j = some x → Does (.sampleDispatch dt n entry segment) s fun t =>
      (∃ w, (getPipe t k).task = some w ∧ w.part = n ∧ w.jslot = js ∧ w.j = x.1 ∧ w.redone = x.2 ∧
        (gNode (jbTable j.block + 32 * (sampleOf j.block x.1).2) ≠ nodeId s → gRm (jbTable j.block + 32 * (sampleOf j.block x.1).2) = false →
          (∀ b, entry = .data b → w.entry = some (sliceB b 0 32)) ∧ (entry = .failed → w.entry = none ∧ w.segment = none))) ∧
      (getPart t n).lastJob = js ∧ t.descs = s.descs ∧ t.cores = s.cores ∧
      ∃ i, (getPart t n).jobs.get none js = some i ∧ i.nextJ = (if x.2 then j.nextJ else j.nextJ + 1) ∧
        (x.2 = true → i.redo = j.redo.filter fun y => y != x.1)) ∧
  (∀ (s : State) (k : Nat) (w : Task) (j : Job) (u : Buffer), (getPipe s k).task = some w → (getPipe s k).testing = none → s.mem.waiting = [] →
    (getPart s w.part).jobs.get none w.jslot = some j → j.buffers.find? (fun u => u.num == bufferOf j.block w.j) = some u →
    let x := taskSample s w
    let es := sampleOf j.block w.j
    let a := slotAddr j.block u.slot + 64 + 64 * placeOf j.block w.j
    Does (.sampleDone k) s fun t => getPipe t k = { getPipe s k with task := none } ∧ t.descs = s.descs ∧ t.cores = s.cores ∧
      (x.audio = [] → (∀ e ∈ piecesOf a (zeros 64), quotaOk s w.part e.1 e.2.length true = true) → devRd t a 64 =
        sampleRecord w.j es.2 es.1 ((w.entry.map fun e => leAt e 24 4).getD 0) w.redone x) ∧
      (∃ i v, (getPart t w.part).jobs.get none w.jslot = some i ∧ v ∈ i.buffers ∧ v.num = u.num ∧ v.filled = u.filled + 1 ∧
        v.failed = u.failed + b2n (x.status != 0) ∧ i.nextJ = j.nextJ ∧ i.signalled = j.signalled) ∧
      (x.status ≠ 0 → bitOf (regN t (ctx bIngCtx w.part 4)) (failBit x.status) = true ∧
        (getPart t w.part).jobFailed.get 0 w.jslot = satTo 24 ((getPart s w.part).jobFailed.get 0 w.jslot + 1))) ∧
  (∀ (s : State) (dt k : Nat) (w : Task) (j : Job) (u : Buffer), (getPipe s k).task = some w → w.part ∈ partNums → s.mem.waiting = [] →
    (getPart s w.part).jobs.get none w.jslot = some j → j.buffers.find? (fun u => u.num == bufferOf j.block w.j) = some u →
    w.since + 4 * (taskSample s w).expected + 10000000 < s.clock + dt → Does (.sampleWatchdog dt k) s fun t =>
      (getPipe t k).task = none ∧ (getPipe t k).testing = some (s.clock + dt) ∧ t.descs = s.descs ∧ t.cores = s.cores ∧
      bitOf (regN t (bIng + 4)) 2 = true ∧ ∃ i, (getPart t w.part).jobs.get none w.jslot = some i ∧
        (w.redone = false → i.redo = j.redo ++ [w.j] ∧ i.buffers = j.buffers ∧ t.mem = s.mem) ∧
        (w.redone = true → i.redo = j.redo ∧ ∃ v ∈ i.buffers, v.num = u.num ∧ v.filled = u.filled + 1 ∧ v.failed = u.failed + 1))

/-- R6, R7, R475, R554, R562: accesses to BAR0. Another width or alignment is an Unsupported Request with no effect. A write changes the
register it names by its access code and no other register: scratch registers store it, event bits written 1 clear; a register of a
partition's context takes the bits it holds, and stays while the partition is started or stops (R476), a ring's base while the ring is not IDLE, and a register that only PF0 reaches is
left alone by a VF. A 64-bit access is two 32-bit accesses, the lower first. Of the model's choices it rests on log entry 48. -/
def Obligations.HostRegisters : Prop :=
  (∀ (s : State) (fn off width : Nat) (write : Bool), barOpen s = true → fn ≤ 8 → ¬((width = 4 ∨ width = 8) ∧ off % width = 0) →
    exec (.bar0UnsupportedAccess fn off width write) s = .next (emit (.unsupported fn) (barAccess s))) ∧
  (∀ (s : State) (v : DWord), HostOpen s 0 →
    (∀ off ∈ [0x40040, 0x40044, 0x40048, 0x4004C],
      exec (.registerWrite 0 off 4 v) s = .next (setReg off (v.setWidth 32) (barAccess s))) ∧
    (∀ off ∈ [0x40040, 0x40048], exec (.registerWrite 0 off 8 v) s =
      .next (setReg (off + 4) ((v >>> 32).setWidth 32) (setReg off (v.setWidth 32) (barAccess s)))) ∧
    (diesDark s = false → exec (.registerWrite 0 (bMem + 0x10) 4 v) s =
      .next (setReg (bMem + 0x10) (reg s (bMem + 0x10) &&& ~~~(v.setWidth 32 &&& 0xFF)) (barAccess s)))) ∧
  (∀ (s : State) (fn off : Nat) (v : DWord), HostOpen s fn → fn ≠ 0 → bHifDev ≤ off → off < bCore → ctxOf off = none →
    exec (.registerWrite fn off 4 v) s = .next (barAccess s)) ∧
  (∀ (s : State) (fn n : Nat) (v : DWord), HostOpen s fn → n ∈ partNums → (fn = 0 ∨ fn = n) →
    let stays : Prop := (getPart s n).st = .started ∨ (getPart s n).st = .stopping
    ∀ k m, (k, m) ∈ ([(ctx bCollCtx n 4, 0xFFFFFFFF), (ctx bCollCtx n 0x14, 0x1FF), (ctx bSlwCtx n 0x10, 0x1FFF), (ctx bSlwCtx n 0x34, 0x1FFF),
      (ctx bGovCtx n 0x18, 0x1FFF), (ctx bSlwCtx n 0x08, 0xFFFFFFFF)] : List (Nat × Word)) →
    (stays → exec (.registerWrite fn k 4 v) s = .next (barAccess s)) ∧
    (¬stays → exec (.registerWrite fn k 4 v) s = .next (setReg k ((reg s k &&& ~~~m) ||| (v.setWidth 32 &&& m)) (barAccess s)))) ∧
  (∀ (s : State) (fn r : Nat) (v : DWord), HostOpen s fn → r < 256 → ringOwner s r = fn →
    Does (.registerWrite fn (0x1008 + 0x40 * r) 4 v) s fun t => t = { barAccess s with rings := t.rings } ∧
      (∀ q, q ≠ r → getRing t q = getRing s q) ∧
      getRing t r = (if (getRing s r).state = .idle then
        { getRing s r with sqBase := ((getRing s r).sqBase >>> 32) <<< 32 ||| v &&& 0xFFFFFFFF } else getRing s r)) ∧
  (∀ (s : State) (fn off : Nat), HostOpen s fn →
    let u := barAccess s
    let word (o : Nat) : Bytes := leBytes 4 (readReg u fn o)
    (latchLow off = false → s.latches.get none (hif fn off) = none →
      exec (.latchedRead fn ⟨off, 4⟩) s = .next (emit (.readReply fn (word off)) u)) ∧
    (latchLow off = false → latchLow (off + 4) = false → s.latches.get none (hif fn off) = none → s.latches.get none (hif fn (off + 4)) = none →
      exec (.latchedRead fn ⟨off, 8⟩) s = .next (emit (.readReply fn (word off ++ word (off + 4))) u)) ∧
    (latchLow off = true → latchLow (off + 4) = false → Does (.latchedRead fn ⟨off, 8⟩) s fun t =>
      t = { u with out := .readReply fn (word off ++ word (off + 4)) :: s.out, latches := t.latches } ∧
      t.latches.get none (hif fn (off + 4)) = none))

/-- R171: a core's completion counts. The low word of engine `n`'s count stands at 0x18 + 8n of the core's window; a write leaves it; after
the start of a stream it reads 0; a read of the low word latches the high word, and the next read of the high word returns the
latched value, whatever the count has come to since. -/
def Obligations.CompletionCountReads : Prop :=
  ∀ (s : State) (fn c n : Nat), HostOpen s fn → windowReached s fn c = true → 1 ≤ n → n ≤ 5 →
    let a := bCore + 0x400 * c + 0x18 + 8 * n
    let count := ((getCore s c).counts.get 0 n).toNat
    (∀ v, exec (.registerWrite fn a 4 v) s = .next (barAccess s) ∧ exec (.registerWrite fn a 8 v) s = .next (barAccess s)) ∧
    (Does (.latchedRead fn ⟨a, 8⟩) s fun t => t.out = .readReply fn (leBytes 4 (count % 2 ^ 32) ++ leBytes 4 (count / 2 ^ 32 % 2 ^ 32)) :: s.out) ∧
    (Does (.latchedRead fn ⟨a, 4⟩) s fun t =>
      t.out = .readReply fn (leBytes 4 (count % 2 ^ 32)) :: s.out ∧ t = { barAccess s with out := t.out, latches := t.latches } ∧
      ∀ u : State, u.latches = t.latches → HostOpen u fn → Does (.latchedRead fn ⟨a + 4, 4⟩) u fun w =>
        w.out = .readReply fn (leBytes 4 (count / 2 ^ 32 % 2 ^ 32)) :: u.out ∧ w = { barAccess u with out := w.out, latches := w.latches } ∧
        w.latches.get none (hif fn (a + 4)) = none) ∧
    (∀ (id : Nat) (d : Desc), AtTurn s id 0x02 d → streamCheck s d = none → startsNow s d = true → openStep s d.fn = none →
      c ∈ groupCores (getPart s d.fn) (d.at 16 2) → Does (.startStream id) s fun t => readReg t fn a = 0 ∧ readReg t fn (a + 4) = 0)

/-- R440, R443, R444: the link and the resets that reach the host interface. PERST# and a link loss reset the endpoint, every ring, every
MSI-X table and the function-local registers, and nothing else. FLR of VFn is a partition reset of partition n with PART_RESET, then
resets VFn's part; FLR of PF0 waits up to 100 ms for PF0's descriptors. The link trains at an allowed rate, width and mode, and enters L1
when idle for 100 µs. Of the model's choices it rests on log entry 16. -/
def Obligations.HostResets : Prop :=
  let ownReset (s t : State) (fn : Nat) : Prop :=
    (∀ r, ringOwner s r = fn → ∃ g, getRing t r = { generation := g }) ∧ (t.funcs.get {} fn).msix = [] ∧ (t.funcs.get {} fn).pba = [] ∧
    (t.funcs.get {} fn).jseq = (s.funcs.get {} fn).jseq ∧ (∀ k < 2 ^ 24, k ≠ 4 → t.regs.get 0 (hif fn k) = 0)
  let all (s t : State) : Prop := (∀ fn ≤ 8, ownReset s t fn) ∧ t.link = {} ∧
    t.descs = s.descs ∧ t.parts = s.parts ∧ t.cores = s.cores ∧ t.mem = s.mem ∧ t.journal = s.journal ∧ t.syn = s.syn ∧ t.fab = s.fab
  (∀ s : State, Does .perstAssert s fun t => all s t ∧ t.brd = { s.brd with perstN := false }) ∧
  (∀ s : State, Does .pcieLinkDown s fun t => all s t ∧ t.brd = s.brd) ∧
  (∀ (s : State) (n : Nat), barOpen s = true → n ∈ partNums → Does (.flrVf n) s fun t =>
    ownReset s t n ∧ bitOf (regN t (hif n 4)) 1 = true ∧ (∀ d ∈ t.descs, d.fn = n → d.opcode ≠ 0x3A → d.live = false) ∧
    ((getPart s n).st = .free → t.parts = s.parts ∧ t.cores = s.cores ∧ t.mem = s.mem) ∧
    ((getPart s n).st = .started → (getPart t n).st = .stopping ∧ (getPart t n).step = none ∧
      (getPart t n).drain = some { status := .partReset, since := s.clock, reset := true, auto := false } ∧
      (∀ c ∈ partCores s n, (getCore t c).run ≠ .running) ∧ ∀ m, m ≠ n → (getPart t m).st = (getPart s m).st)) ∧
  (∀ s : State, barOpen s = true →
    ((∀ d ∈ s.descs, d.fn ≠ 0) → Does .flrPf0 s fun t => ownReset s t 0 ∧ t.flrPf0 = none ∧ (∀ k < 2 ^ 24, t.regs.get 0 (hif 0 k) = 0) ∧
      t.parts = s.parts ∧ t.descs = s.descs ∧ t.cores = s.cores) ∧
    ((∃ d ∈ s.descs, d.fn = 0) → s.flrPf0 = none → exec .flrPf0 s = .next { s with flrPf0 := some s.clock })) ∧
  (∀ (s : State) (dt t0 : Nat), s.flrPf0 = some t0 → t0 + 100000000 ≤ s.clock + dt → Does (.pf0FlrTimeout dt) s fun t =>
    ownReset s t 0 ∧ t.flrPf0 = none ∧ t.parts = s.parts ∧ t.cores = s.cores ∧
    t.descs = s.descs.map fun d => if d.fn = 0 ∧ d.live = true then { d with phase := .done .partReset } else d) ∧
  (∀ (s : State) (dt : Nat), s.link.l1 = false → (s.fer.power = .deep ∨ (s.descs = [] ∧ s.link.lastAccess + 100000 ≤ s.clock + dt)) →
    exec (.pcieL1Entry dt) s = .next (emit .requestL1 { pass dt s with link := { s.link with l1 := true } })) ∧
  (∀ (s : State) (rate width : Nat) (flit : Bool), barOpen s = true → s.brd.refclk = true → 1 ≤ rate → rate ≤ 7 → 1 ≤ width → width ≤ 3 →
    (flit = true ∨ rate ≤ 5) → exec (.pcieLinkTraining rate width flit) s =
      .next { s with brd := { s.brd with perstN := true }, link := { s.link with rate := rate, width := width, flit := flit, l1 := false } })

/-- R448: accesses through BAR4. One of 1 to 512 bytes within a 4 KiB page that lies in the mapped range and passes the checks of R295 (R236
among them) reads or writes exactly its bytes. One beyond the mapped range, refused by those checks, or by a VF whose partition has no
quota: a read is an Unsupported Request, a write is dropped with BAR4_DROP. Of the model's choices it rests on log entry 9. -/
def Obligations.Bar4Accesses : Prop :=
  ∀ (s : State) (fn off : Nat) (data : Bytes), HostOpen s fn → 1 ≤ data.length → data.length ≤ 512 → off % 4096 + data.length ≤ 4096 →
    let len := data.length
    let a := if fn = 0 then off else (getPart s fn).qbase * gib + off
    let n := if fn = 0 then partOfAddr s off else fn
    let mapped : Prop := if fn = 0 then off + len ≤ partSpace s else off + len ≤ (getPart s fn).qlen * gib
    (mapped → quotaOk s n a len false = true → Does (.bar4Read fn off len) s fun t =>
      t = { barAccess s with mem := t.mem, out := .readReply fn (devRd s a len) :: s.out } ∧ ∀ b, memByte t b = memByte s b) ∧
    ((¬mapped ∨ quotaOk s n a len false = false) → exec (.bar4Read fn off len) s = .next (emit (.unsupported fn) (barAccess s))) ∧
    (mapped → quotaOk s n a len true = true → Does (.bar4Write fn off data) s fun t =>
      t = { barAccess s with mem := t.mem } ∧
      ∀ b, memByte t b = if a ≤ b ∧ b < a + len then data.getD (b - a) 0 else memByte s b) ∧
    ((¬mapped ∨ quotaOk s n a len true = false) → Does (.bar4Write fn off data) s fun t =>
      t.mem = s.mem ∧ bitOf (regN t (hif fn 4)) 5 = true ∧ t.parts = s.parts ∧ t.descs = s.descs ∧ t.rings = s.rings) ∧
    (fn ≠ 0 → (getPart s fn).qlen = 0 → ¬mapped) ∧
    (∀ st, (getPart s n).step = some st → n ≠ 0 → rangesMeet a len st.holdBase st.holdLen = true → quotaOk s n a len true = false)

/-- R449, R451, R469, R475: rings. An aligned 32-bit doorbell for a running ring of its own function moves that ring's tail or head; a value
at or past the ring size puts it in ERROR, and one for another ring is dropped with DB_DROP. Setting ENABLE in IDLE starts the ring with its
indices zero, clearing it drains the ring, which is IDLE again with nothing in flight. Pending completions are signalled when their time
has passed. Of the model's choices it rests on log entry 48. -/
def Obligations.RingCommands : Prop :=
  (∀ (s : State) (fn r width : Nat) (v : Word) (head : Bool), HostOpen s fn → r < 256 →
    let go := if head then Instr.doorbellCqHead fn r width v else Instr.doorbellSqTail fn r width v
    (width ≠ 4 → exec go s = .next (barAccess s)) ∧
    (width = 4 → (ringOwner s r ≠ fn ∨ (getRing s r).state ≠ .running) → Does go s fun t =>
      t.rings = s.rings ∧ bitOf (regN t (hif fn 4)) 4 = true ∧ bitsOf (regN t (hif fn 4)) 16 8 = r ∧ t.descs = s.descs) ∧
    (width = 4 → ringOwner s r = fn → (getRing s r).state = .running →
      (ringSize (getRing s r) ≤ v.toNat → Does go s fun t => getRing t r = { getRing s r with state := .error } ∧
        (∀ q, q ≠ r → getRing t q = getRing s q) ∧ bitOf (regN t (hif fn 4)) 3 = true ∧ t.descs = s.descs) ∧
      (v.toNat < ringSize (getRing s r) → Does go s fun t =>
        getRing t r = (if head then { getRing s r with cqHead := v.toNat } else { getRing s r with sqTail := v.toNat }) ∧
        (∀ q, q ≠ r → getRing t q = getRing s q) ∧ t = { barAccess s with rings := t.rings, fer := t.fer } ∧
        t.fer = { s.fer with power := if s.fer.power = .idle then .active else s.fer.power }))) ∧
  (∀ (s : State) (fn r : Nat), HostOpen s fn → r < 256 → ringOwner s r = fn →
    ((getRing s r).state = .idle → exec (.ringEnable fn r) s = .next (updRing r (fun g => { g with
      enable := true, state := .running, sqHead := 0, sqTail := 0, cqHead := 0, cqTail := 0, phase := true, coalPending := 0,
      generation := g.generation + 1 }) (barAccess s))) ∧
    ((getRing s r).state = .running ∨ (getRing s r).state = .error → exec (.ringDisable fn r) s =
      .next (updRing r (fun g => { g with enable := false, state := .draining }) (barAccess s)))) ∧
  (∀ (s : State) (r : Nat), (getRing s r).state = .draining → ringFlight s r = 0 →
    exec (.ringDrained r) s = .next (updRing r (fun g => { g with state := .idle }) s)) ∧
  (∀ (s : State) (dt r : Nat), (getRing s r).coalPending ≠ 0 → (getRing s r).coalSince + 100 * (getRing s r).coalTime ≤ s.clock + dt →
    let g := getRing s r
    let f := s.funcs.get {} (ringOwner s r)
    Does (.coalesceTimeout dt r) s fun t => getRing t r = { g with coalPending := 0 } ∧ (∀ q, q ≠ r → getRing t q = getRing s q) ∧
      (bitOf (f.msix.get 0 (4 * g.vector + 3)).toNat 0 = true → hostReach s (ringOwner s r) = true →
        t.out = .msix (ringOwner s r) g.vector :: s.out) ∧
      (bitOf (f.msix.get 0 (4 * g.vector + 3)).toNat 0 = false → t.out = s.out ∧ g.vector ∈ (t.funcs.get {} (ringOwner s r)).pba))

/-- R479 to R484: partitions. A CONFIG_PARTITION that breaks a rule of R479 is refused with the status of its row; one that holds replaces the
configuration, and a core that changes hands comes with zeroed memories and invalid banks. A START that passes its checks clears the
partition's counters and resets its cores. A STOP ends the partition's work with PARTITION_STOPPED and waits for the drain, which
ends in CONFIGURED. Of the model's choices it rests on log entries 5, 15. -/
def Obligations.Partitions : Prop :=
  let only (s t : State) (id : Nat) (st : Status) : Prop := Stands t id (.done st) ∧ t = { s with descs := t.descs }
  (∀ (s : State) (id : Nat) (d : Desc) (h : HostRead), AtTurn s id 0x38 d → startsNow s d = true → hostReach s d.fn = true →
    let n := cfPart d
    let old := partCores s n
    (cfFieldsOk s d = false → Does (.configPartition id h) s fun t => only s t id .descMalformed) ∧
    (cfFieldsOk s d = true → cfRelease d = true → d.codes = [] → Does (.configPartition id h) s fun t =>
      Stands t id (.done .ok) ∧ getPart t n = { events := (getPart s n).events } ∧ (∀ m, m ≠ n → getPart t m = getPart s m) ∧
      (∀ c ∈ old, (getCore t c).part = 0 ∧ (getCore t c).sram = [] ∧ (getCore t c).acc = [] ∧
        (getCore t c).bank0.valid = false ∧ (getCore t c).bank1.valid = false) ∧
      (∀ c, c ∉ old → getCore t c = getCore s c) ∧ t.mem = s.mem) ∧
    (cfFieldsOk s d = true → cfRelease d = false → cfBoundsOk s d = false →
      Does (.configPartition id h) s fun t => only s t id .descBounds) ∧
    (cfFieldsOk s d = true → cfRelease d = false → cfBoundsOk s d = true → cfRingsIdle s d = false →
      Does (.configPartition id h) s fun t => only s t id .descMalformed) ∧
    (∀ b, h = .data b → cfFieldsOk s d = true → cfRelease d = false → cfBoundsOk s d = true → cfRingsIdle s d = true → d.codes = [] →
      let es := (List.range (cfCount d)).map fun i => sliceB b (32 * i) 32
      let rects := rectsAt d.bytes 28 (cfNrect d)
      es.all groupFieldsOk = true → groupsOk rects (es.map groupOf) = true → Does (.configPartition id h) s fun t =>
        Stands t id (.done .ok) ∧ getPart t n = configOf s d (es.map groupOf) ∧ (getPart t n).st = .configured ∧
        (∀ m, m ≠ n → getPart t m = getPart s m) ∧ t.mem = s.mem ∧
        (∀ c ∈ rectsCores rects, (getCore t c).part = n ∧
          ((getCore s c).part = n → (getCore t c).sram = (getCore s c).sram ∧ (getCore t c).bank0 = (getCore s c).bank0) ∧
          ((getCore s c).part ≠ n → (getCore t c).sram = [] ∧ (getCore t c).acc = [] ∧
            (getCore t c).bank0.valid = false ∧ (getCore t c).bank1.valid = false)) ∧
        (∀ c, c ∉ rectsCores rects → c ∉ old → getCore t c = getCore s c))) ∧
  (∀ (s : State) (id : Nat) (d : Desc), AtTurn s id 0x39 d → startsNow s d = true →
    let n := d.at 16 1
    ((getPart s n).st = .stopping → exec (.startPartition id) s = .next s) ∧
    (n ∉ partNums → (getPart s n).st ≠ .stopping → Does (.startPartition id) s fun t => only s t id .descMalformed) ∧
    (n ∈ partNums → (getPart s n).st ≠ .stopping → zeroAt d.bytes [(17, 47)] = true →
      (∀ st, startCheck s n = some st → Does (.startPartition id) s fun t => only s t id st) ∧
      (startCheck s n = none → d.codes = [] → Does (.startPartition id) s fun t =>
        let p := getPart t n
        Stands t id (.done .ok) ∧ p.st = .started ∧ p.step = none ∧ p.jobs = [] ∧ p.colls = [] ∧ p.last = none ∧ p.replays = 0 ∧
        p.rects = (getPart s n).rects ∧ (∀ m, m ≠ n → getPart t m = getPart s m) ∧
        (∀ i < p.pcount, t.syn.counters.get 0 (p.pbase + i) = 0) ∧
        (∀ i, i < p.pbase ∨ p.pbase + p.pcount ≤ i → t.syn.counters.get 0 i = s.syn.counters.get 0 i) ∧
        (∀ c ∈ partCores s n, (getCore t c).run = .idle ∧ (getCore t c).sregs = [] ∧ (getCore t c).counts = [] ∧
          (getCore t c).chk0 = 0 ∧ (getCore t c).chk1 = 0 ∧ (getCore t c).sram = (getCore s c).sram)))) ∧
  (∀ (s : State) (id : Nat) (d : Desc), AtTurn s id 0x3A d → startsNow s d = true → d.at 16 1 ∈ partNums →
    zeroAt d.bytes [(17, 47)] = true →
    let n := d.at 16 1
    ((getPart s n).st = .free ∨ (getPart s n).st = .configured → d.codes = [] →
      Does (.stopPartition id) s fun t => only s t id .ok) ∧
    ((getPart s n).st = .stopping → Does (.stopPartition id) s fun t => Stands t id .started ∧ t = { s with descs := t.descs }) ∧
    ((getPart s n).st = .started → Does (.stopPartition id) s fun t =>
      Stands t id .started ∧ (getPart t n).st = .stopping ∧ (getPart t n).step = none ∧ (getPart t n).colls = [] ∧
      (getPart t n).drain = some { status := .partStopped, since := s.clock, reset := false, auto := false } ∧
      (∀ c ∈ partCores s n, (getCore t c).run ≠ .running) ∧ (∀ e ∈ t.descs, e.fn = n → e.opcode ≠ 0x3A → e.live = false) ∧
      (d.fn ≠ n → bitOf (regN t (hif n 4)) 1 = true))) ∧
  (∀ (s : State) (dt n : Nat) (r : Drain), (getPart s n).drain = some r → (getPart s n).st = .stopping → drainSettled s n = true →
    (r.reset = true → bitOf (regN s bPrt) (8 + n - 1) = false) → Does (.drainDone dt n) s fun t =>
      (getPart t n).st = .configured ∧ (getPart t n).drain = none ∧ t.mem = s.mem ∧
      (∀ id d, findDesc s id = some d → d.opcode = 0x3A → d.at 16 1 = n → d.phase = .started → d.codes = [] →
        Stands t id (.done .ok)) ∧
      (r.reset = true → ∀ c ∈ partCores s n, (getCore t c).run = .idle ∧ (getCore t c).bank0.valid = false ∧
        (getCore t c).bank1.valid = false) ∧
      (r.reset = false → t.cores = s.cores))

/-- R484, R486, R488, R490, R491, R494, R528: resets. A keyed write of PRT_RESET resets partitions, or the device: a warm reset frees
every partition, ends every descriptor with DEVICE_RESETTING, raises EPOCH and keeps the journal; a cold reset clears HBM too. A drain
longer than 100 ms and a missed watchdog take rung 3, its third time in an hour a power cycle. A warm reset ends when BOOT and
SYSCTL verify, holds the device when one does not, and climbs after 10 s. Of the model's choices it rests on log entries 6, 84. -/
def Obligations.Resets : Prop :=
  let gone (s t : State) : Prop :=
    t.parts = [] ∧ CoresCleared s t ∧ t.rings = [] ∧ t.journal = s.journal ∧ t.fer.epoch = s.fer.epoch + 1 ∧ t.sec.svn = s.sec.svn ∧
    t.descs = s.descs.map fun d => if d.live = true then { d with phase := .done .deviceResetting } else d
  let climbs (s t : State) (now : Nat) : Prop := gone s t ∧ t.rst = some { cold := false, since := now, waitFref := false } ∧
    (t.brd.pwrcyc = true ↔ s.brd.pwrcyc = true ∨ 2 ≤ (s.fer.rung3.filter fun x => decide (now < x + hour)).length)
  (∀ (s : State) (v : Word), HostOpen s 0 →
    let key : Prop := bitsOf v.toNat 24 8 = 0xA5
    (bitsOf v.toNat 8 2 = 0 →
      (¬key → exec (.prtPartReset 0 v) s = .next (barAccess s)) ∧
      (key → Does (.prtPartReset 0 v) s fun t => ∀ n ∈ partNums,
        (bitOf v.toNat (n - 1) = false → (getPart t n).st = (getPart s n).st) ∧
        (bitOf v.toNat (n - 1) = true → (getPart s n).st = .started → (getPart t n).st = .stopping) ∧
        (bitOf v.toNat (n - 1) = true → (getPart s n).st = .configured → bitOf (regN s bPrt) (8 + n - 1) = false →
          (getPart t n).st = .configured ∧ bitOf (regN t (hif n 4)) 1 = true))) ∧
    (bitsOf v.toNat 8 2 = 1 → s.fer.trip = none →
      (¬key → exec (.prtWarmReset 0 v) s = .next (barAccess s)) ∧
      (key → Does (.prtWarmReset 0 v) s fun t => gone s t ∧ t.rst = some { cold := false, since := s.clock, waitFref := false } ∧
        ((∀ n ∈ partNums, (getPart s n).st = .free) → ∀ a, memByte t a = memByte s a))) ∧
    (bitOf v.toNat 9 = true → s.fer.trip = none →
      (¬key → exec (.prtColdReset 0 v) s = .next (barAccess s)) ∧
      (key → Does (.prtColdReset 0 v) s fun t => gone s t ∧ (∀ a, memByte t a = 0) ∧
        (t.rst = none → t.sec.stage = 6 ∧ t.sec.held = false)))) ∧
  (∀ (s : State) (dt n : Nat) (r : Drain), (getPart s n).drain = some r → (getPart s n).st = .stopping →
    r.since + 100000000 ≤ s.clock + dt → s.rst = none → s.fer.trip = none →
    Does (.drainTimeout dt n) s fun t => climbs s t (s.clock + dt)) ∧
  (∀ (s : State) (dt : Nat), s.rst = none → s.sec.held = false → s.fer.power ≠ .standby → s.fer.trip = none → 1000000000 ≤ dt →
    Does (.sysctlWatchdog dt) s fun t => climbs s t (s.clock + dt)) ∧
  (∀ (s : State) (dt : Nat) (r : Reset), s.rst = some r → r.cold = false → resetBarred s = false →
    (s.sec.held = false → s.brd.fref = true → s.fer.powerQ = [] → 16 ≤ (activeStacks s).length →
      (∀ k ∈ activeStacks s, (getStack s k).failed = false ∧ (getStack s k).st ≠ .retirePending) → Does (.warmResetDone dt) s fun t =>
        (∀ a, memByte t a = memByte s a) ∧ t.journal = s.journal ∧ t.cores = s.cores ∧ t.parts = s.parts ∧
        (if (chooseSlot s 0).isSome ∧ (chooseSlot s 1).isSome then
          t.rst = none ∧ t.sec.stage = 6 ∧ t.sec.held = false ∧ t.fer.power = .active
        else t.rst = s.rst ∧ t.sec.held = true ∧ t.sec.stage = (if (chooseSlot s 0).isSome then 2 else 1))) ∧
    (s.sec.held = false → s.brd.fref = false → Does (.warmResetDone dt) s fun t =>
      t.rst = some { r with waitFref := true } ∧ t.mem = s.mem ∧ t.sec = s.sec) ∧
    (r.waitFref = false → r.since + 10000000000 ≤ s.clock + dt → Does (.warmResetTimeout dt) s fun t =>
      t.brd = { s.brd with pwrcyc := true } ∧ t.fer.pwrcycSince = some (s.clock + dt) ∧ t.rst = s.rst ∧
      4 ≤ bitsOf (regN t (bPrt + 0xC)) 4 3 ∧ t.mem = s.mem)) ∧
  (∀ (s : State) (dt t0 : Nat), s.fer.pwrcycSince = some t0 → s.brd.pwrcyc = true → s.fer.pwrcycReport + 60000000000 ≤ s.clock + dt →
    Does (.powerCycleIgnored dt) s fun t => t = { pass dt s with fer := t.fer } ∧ t.fer.pwrcycReport = s.clock + dt ∧
      ∃ e, t.fer.events.head? = some e ∧ e.kind = 0x16 ∧ e.detail = BitVec.ofNat 64 ((s.clock + dt - t0) / 1000000000))

/-- R496, R498, R499, R501 to R504, R520: Ferryman's samples and control loops. Temperatures enter their sensors' last eight samples; a
junction whose mean reaches 103 °C sets the floor clock, a third reading in a row at 110 °C, or a stack at 105 °C, trips the device; a
trip is released after 10 cool seconds. Power and supply samples lower the clock at once, and each loop raises it again by its own step and
interval. A regulator moves by 2.5 mV; the clock rises when every domain reports margin.
Of the model's choices it rests on log entries 78, 79, 80, 82. -/
def Obligations.FerrymanLoops : Prop :=
  ∀ (s : State) (dt : Nat), fmnRuns s = true →
    let now := s.clock + dt
    let f := s.fer
    let bounded (t : State) : Prop := t.fer.mhz ≤ lowestMhz t.fer
    let quiet (t : State) : Prop := t = { pass dt s with fer := t.fer, regs := t.regs }
    (∀ temps : List Nat, Does (.junctionSample dt temps) s fun t =>
      (∀ i x, i < 76 → temps[i]? = some x → (t.fer.sensors.get {} i).samples = (x :: (f.sensors.get {} i).samples).take 8) ∧
      ((∀ x ∈ temps, x < 110) → t.cores = s.cores ∧ t.descs = s.descs ∧ t.parts = s.parts ∧ t.mem = s.mem ∧
        t.fer.trip.isSome = f.trip.isSome) ∧
      (∀ i x, i < 64 → temps[i]? = some x → (f.sensors.get {} i).over103 = false →
        (let l := (x :: (f.sensors.get {} i).samples).take 8
         103 * l.length ≤ l.sum) → t.fer.thermal = 650 ∧ t.fer.mhz ≤ 650) ∧
      ((∃ i x, i < 76 ∧ temps[i]? = some x ∧ 110 ≤ x ∧ 2 ≤ (f.sensors.get {} i).hotRun) → f.trip = none → f.power ≠ .standby →
        t.fer.trip.isSome = true ∧ t.brd.thermtrip = true ∧ ∀ d ∈ t.descs, d.live = false)) ∧
    (∀ temps : List Nat, Does (.stackTempSample dt temps) s fun t =>
      (∀ k x, k < 20 → temps[k]? = some x → (getStack s k).st ≠ .retired →
        (getStack t k).temp = x ∧ ((getStack t k).hot = true ↔ 85 < x)) ∧
      ((∃ k x, k < 20 ∧ temps[k]? = some x ∧ 105 ≤ x ∧ (getStack s k).st ≠ .retired) → f.trip = none → f.power ≠ .standby →
        (∃ r, t.fer.trip = some r ∧ r.kind = 1 ∧ r.cold = true) ∧ t.brd.thermtrip = true ∧ ∀ d ∈ t.descs, d.live = false)) ∧
    (∀ (r : Trip) (c : Nat), f.trip = some r → r.coolSince = some c → c + 10000000000 ≤ now → f.power ≠ .standby →
      Does (.thermtripRelease dt) s fun t => t.fer.trip = none ∧
        (let often := 2 ≤ (f.rung3.filter fun x => decide (now < x + hour)).length
         (often → t.brd.pwrcyc = true ∧ t.rst.isSome = true) ∧
         (¬often → t.brd.thermtrip = false ∧ (r.cold = true ∨ s.rst = none → t.parts = [] ∧ CoresCleared s t ∧ t.fer.epoch = f.epoch + 1)))) ∧
    (criticalJunction s = false →
      (hotJunction s = true → f.thermalAt + 1000000 ≤ now → 650 < f.thermal → Does (.thermalStep dt) s fun t =>
        quiet t ∧ t.fer.thermal = max 650 (f.thermal - 50) ∧ bounded t) ∧
      (hotJunction s = false → f.thermalAt + 10000000 ≤ now → f.thermal < 1300 → Does (.thermalStep dt) s fun t =>
        quiet t ∧ t.fer.thermal = min 1300 (f.thermal + 50) ∧ bounded t)) ∧
    (∀ mv ma : Nat, Does (.vinSample dt mv ma) s fun t =>
      t.fer.powerNow = mv * ma ∧ t.fer.sum1ms = f.sum1ms + mv * ma ∧ t.fer.n1ms = f.n1ms + 1 ∧
      (vinOk mv = true → mv * ma ≤ 3600000000 → f.power ≠ .standby → quiet t ∧ t.fer.mhz = f.mhz) ∧
      (3600000000 < mv * ma → t.fer.fast = max 650 (f.mhz - 200) ∧ bounded t) ∧
      (∀ t0, vinOk mv = false → f.vinOutSince = some t0 → t0 + 1000000 ≤ now → f.vinHeld = false → f.power ≠ .standby →
        t.fer.vinHeld = true ∧ t.fer.supply = 650 ∧ t.fer.mhz ≤ 650) ∧
      (mv < 9500 → s.brd.vinOn = true → f.power ≠ .standby →
        (∃ r, t.rst = some r ∧ r.cold = true) ∧ t.brd.vinOn = false ∧ t.fer.vinDead = true)) ∧
    (∀ t0, f.vinInSince = some t0 →
      (f.vinHeld = true → t0 + 10000000 ≤ now → f.vinDead = false → Does (.vinRecovered dt) s fun t =>
        quiet t ∧ t.fer.vinHeld = false ∧ t.fer.supply = 1300 ∧ bounded t) ∧
      (f.vinDead = true → t0 + 100000000 ≤ now → f.power ≠ .standby → f.trip = none → Does (.vinRecovered dt) s fun t =>
        t.parts = [] ∧ t.cores = [] ∧ t.fer.epoch = f.epoch + 1 ∧ t.brd.vinOn = true ∧ t.fer.vinDead = false)) ∧
    (∀ mv : Nat, Does (.vauxSample dt mv) s fun t => quiet t ∧ t.fer.vaux = mv ∧
      (3135 ≤ mv → mv ≤ 3465 → t.fer.vauxOutSince = none) ∧
      (mv < 3135 → f.vauxOutSince = none → t.fer.vauxOutSince = some now ∧ t.fer.events = f.events) ∧
      (∀ t0, mv < 3135 → f.vauxOutSince = some t0 → t0 + 1000000 ≤ now → f.vauxTold = false →
        ∃ e, t.fer.events.head? = some e ∧ e.kind = 0x13)) ∧
    (f.n1ms ≠ 0 → Does (.powerMean1ms dt) s fun t =>
      let beyond : Prop := powerLimit (pass dt s) * 1000000 * f.n1ms < f.sum1ms
      quiet t ∧ t.fer.sum1ms = 0 ∧ t.fer.n1ms = 0 ∧ t.fer.means = (f.sum1ms / f.n1ms :: f.means).take 1000 ∧
      (¬beyond → t.fer.overRun = 0 ∧ t.fer.cutFrom = none ∧ bounded t) ∧
      (beyond → t.fer.overRun = f.overRun + 1 ∧
        (f.overRun + 1 < 8 → t.fer.mhz = f.mhz ∧ t.fer.slow = f.slow) ∧
        (8 ≤ f.overRun + 1 → f.overRun + 1 ≠ 10 → f.cutFrom = none → t.fer.slow = max 650 (f.slow - 50) ∧ bounded t) ∧
        (f.overRun + 1 = 10 → t.fer.slow = 650 ∧ t.fer.mhz ≤ 650))) ∧
    (f.slow < 1300 → f.cutFrom = none → f.slowAt + 10000000 ≤ now → 100 * f.watts ≤ 98 * (powerLimit (pass dt s) * 1000000) →
      Does (.powerRecoveryStep dt) s fun t => quiet t ∧ t.fer.slow = min 1300 (f.slow + 50) ∧ bounded t) ∧
    (f.fast < 1300 → f.fastAt + 100000 ≤ now → Does (.fastRecoveryStep dt) s fun t =>
      quiet t ∧ t.fer.fast = (if f.slow ≤ f.fast + 50 then 1300 else f.fast + 50) ∧ bounded t) ∧
    (∀ d m : Nat, d < 64 → f.power = .active → domainSites s d ≠ [] →
      let v := f.domainMv.get 6000 d
      let want := max f.mhz f.raiseTo
      (want < m → Does (.regulatorAdjust dt d m) s fun t => quiet t ∧ t.fer.domainMv.get 6000 d = max 6000 (v - 25)) ∧
      (want = m → Does (.regulatorAdjust dt d m) s fun t => quiet t ∧ t.fer.domainMv.get 6000 d = v) ∧
      (m < want → v < 9000 → Does (.regulatorAdjust dt d m) s fun t => quiet t ∧ t.fer.domainMv.get 6000 d = min 9000 (v + 25)) ∧
      (m < want → 9000 ≤ v → d ∉ f.lowMargin → Does (.regulatorAdjust dt d m) s fun t =>
        t.fer.domainMargin.get none d = some now ∧ (∀ u ∈ domainSites s d, (getSite t u).marked = true) ∧
        ∃ e, t.fer.events.head? = some e ∧ e.kind = 0x14)) ∧
    (f.raiseTo ≠ 0 → (∀ d < 64, d ∈ f.marginOk) → exec (.clockRaise dt) s =
      .next { pass dt s with fer := { f with mhz := f.raiseTo, raiseTo := 0, marginOk := [] } }) ∧
    (Does (.domainReport dt) s fun t => quiet t ∧ ∀ d < 64, t.fer.domainReported.get 0 d = f.domainMv.get 6000 d / 10) ∧
    (Does (.errorCountSample dt) s fun t => quiet t ∧
      t.fer.serviceCond = serviceNow (pass dt s) ∧ t.fer.service = f.service ||| (serviceNow (pass dt s) &&& ~~~f.serviceCond))

/-- R32 to R34, R505 to R507: power states. A request of PF0 or of WAKE_N is taken up when none is under way; DEEP and STANDBY are refused, and
nothing else happens, while a partition is started. DEEP takes the ports and cores down and keeps HBM; a wake from it leaves every partition
FREE and every counter zero. STANDBY waits for the deferred e-fuse writes and releases PWR_REQ_N; a wake asserts it again.
Of the model's choices it rests on log entries 43, 77. -/
def Obligations.PowerStates : Prop :=
  let ask (want : Power) (source : Nat) : PowerReq := { want := want, source := source }
  (∀ (s : State) (want : Power) (fn : Nat), HostOpen s fn → s.fer.powerQ = [] →
    let go : Option Instr := match want with
      | .active => some (.pwrReqActive fn) | .deep => some (.pwrReqDeep fn) | .standby => some (.pwrReqStandby fn) | .idle => none
    ∀ c, go = some c →
      (fn ≠ 0 → exec c s = .next (barAccess s)) ∧
      (fn = 0 → powerWaits s = true → exec c s = .next { barAccess s with fer := { s.fer with powerQ := [ask want 0] } }) ∧
      (fn = 0 → powerWaits s = false →
        (want = s.fer.power → exec c s = .next (barAccess s)) ∧
        (want ≠ .active → want ≠ s.fer.power → (∃ n ∈ partNums, isStarted s n = true) →
          exec c s = .next { barAccess s with fer := { s.fer with refused := true } }) ∧
        (want ≠ .active → want ≠ s.fer.power → (∀ n ∈ partNums, isStarted s n = false) →
          exec c s = .next { barAccess s with fer := { s.fer with entering := some (ask want 0) } }) ∧
        (want = .active → s.fer.power = .deep →
          exec c s = .next { barAccess s with fer := { s.fer with entering := some (ask .active 0) } }))) ∧
  (∀ (s : State) (dt : Nat), fmnRuns s = true → s.brd.brdRstN = true → 1000000 ≤ dt → powerWaits s = false → s.fer.powerQ = [] →
    s.fer.power = .deep ∨ s.fer.power = .standby →
    exec (.wakeN dt) s = .next { pass dt s with fer := { s.fer with entering := some (ask .active 2) } }) ∧
  (∀ (s : State) (dt : Nat) (r : PowerReq), s.fer.entering = some r → s.fer.powerQ = [] →
    (r.want = .deep → Does (.enterDeep dt) s fun t => t.fer.power = .deep ∧ t.fer.entering = none ∧ t.link.l1 = true ∧ t.mem = s.mem ∧
      t.journal = s.journal ∧ t.parts = s.parts ∧ (∀ p < 8, (getPort t p).st = .down) ∧
      (∀ c, (getCore t c).sregs = [] ∧ (getCore t c).sram = [] ∧ (getCore t c).run ≠ .running)) ∧
    (r.want = .active → s.fer.power = .deep → Does (.wakeFromDeep dt) s fun t => t.fer.power = .active ∧ t.fer.entering = none ∧
      t.parts = [] ∧ t.cores = [] ∧ t.syn.counters = [] ∧ t.mem = s.mem ∧ ∀ p < 8, (getPort t p).holdoff = false) ∧
    (r.want = .standby → (s.fer.fuseQ ≠ [] ∨ s.fer.fuseNow ≠ none) → exec (.enterStandby dt) s = .next s) ∧
    (r.want = .standby → s.fer.fuseQ = [] → s.fer.fuseNow = none → Does (.enterStandby dt) s fun t =>
      t.fer.power = .standby ∧ t.fer.entering = none ∧ t.brd = { s.brd with pwrReq := false } ∧ t.fer.swapReady = s.fer.swapWanted) ∧
    (r.want = .active → s.fer.power = .standby → s.brd.pwrReq = false → Does (.wakeFromStandby dt) s fun t =>
      t = { pass dt s with brd := { s.brd with pwrReq := true }, fer := t.fer } ∧ t.fer.pwrReqSince = some (s.clock + dt) ∧
      t.fer.swapReady = false ∧ t.fer.power = .standby)) ∧
  (∀ (s : State) (dt t0 : Nat), s.fer.pwrReqSince = some t0 → s.fer.pwrReqReport + 10000000000 ≤ s.clock + dt →
    Does (.vinWaitTimeout dt) s fun t => t = { pass dt s with fer := t.fer } ∧ t.fer.pwrReqReport = s.clock + dt ∧
      ∃ e, t.fer.events.head? = some e ∧ e.kind = 0x13) ∧
  (∀ s : State, (s.brd.pwrlimN = true → exec .pwrlimNFall s = .next
      { s with brd := { s.brd with pwrlimN := false }, fer := { s.fer with pwrlimSince := some s.clock } }) ∧
    exec .pwrlimNRise s = .next { s with brd := { s.brd with pwrlimN := true }, fer := { s.fer with pwrlimSince := none } })

/-- R519, R526, R528, R541, R543 to R547: the board. Loss of VAUX loses HBM, the journal and what Ferryman holds, and keeps the e-fuses; its
return samples the straps and starts FERRYMAN, or recovery mode. VIN boots the device from cold when BOOT and SYSCTL verify; it waits
while FREF is absent. A BRD_RST_N pulse of 1 ms is a cold reset; loss of FREF in service is a rung-3 reset.
Of the model's choices it rests on log entries 6, 84, 87. -/
def Obligations.BoardEvents : Prop :=
  let cleared (s t : State) : Prop := t.parts = [] ∧ t.cores = [] ∧ t.rings = [] ∧ t.journal = s.journal ∧ t.fer.epoch = s.fer.epoch + 1 ∧
    t.sec.svn = s.sec.svn ∧ (∀ a, memByte t a = 0) ∧ ∀ d ∈ t.descs, d.live = false
  (∀ s : State, Does .vauxLoss s fun t => t.fer.power = .standby ∧ t.brd.vauxOn = false ∧ t.brd.pwrReq = false ∧ t.journal = [] ∧
    t.descs = [] ∧ t.parts = [] ∧ t.cores = [] ∧ (∀ a, memByte t a = 0) ∧ t.fer.fuses = s.fer.fuses ∧ t.fer.events = [] ∧
    t.sec.svn = s.sec.svn ∧ t.sec.flash = s.sec.flash ∧ t.out = s.out ∧ t.free = s.free) ∧
  (∀ (s : State) (dt : Nat) (straps : BitVec 7), s.brd.vauxOn = false → 1000000 ≤ dt → Does (.vauxUp dt straps) s fun t =>
    t.brd.vauxOn = true ∧ t.brd.straps = straps ∧ t.brd.phyRun = straps.getLsbD 5 ∧ t.mem = s.mem ∧ t.descs = s.descs ∧
    (t.sec.ferryRecovery = true ↔ chooseSlot s 2 = none ∨ straps.getLsbD 6 = true) ∧
    (t.brd.pwrReq = true ↔ s.brd.pwrReq = true ∨ (straps.getLsbD 4 = true ∧ t.sec.ferryRecovery = false))) ∧
  (∀ (s : State) (dt : Nat) (straps : BitVec 7) (fref : Bool), s.brd.vauxOn = true → s.brd.pwrReq = true → s.brd.brdRstN = true →
    s.fer.pwrReqSince.isSome → s.fer.power = .standby → s.fer.moduleReplace = false → Does (.vinUp dt straps fref []) s fun t =>
      cleared s t ∧ t.brd.vinOn = true ∧ t.brd.fref = fref ∧ t.fer.pwrReqSince = none ∧ t.fer.fuses = s.fer.fuses ∧
      (fref = false → t.rst = some { cold := true, since := s.clock + dt, waitFref := true } ∧ t.fer.power = .standby) ∧
      (fref = true → (∀ e ∈ s.mem.hbmStacks, e.2.failed = false ∧ e.2.st = .active) →
        if (chooseSlot s 0).isSome ∧ (chooseSlot s 1).isSome then t.rst = none ∧ t.sec.stage = 6 ∧ t.fer.power = .active
        else t.rst.isSome ∧ t.sec.held = true ∧ t.fer.power = .standby)) ∧
  (∀ s : State, s.brd.brdRstN = true →
    exec .brdRstNFall s = .next { s with brd := { s.brd with brdRstN := false, brdLowSince := s.clock } }) ∧
  (∀ (s : State) (dt : Nat), s.brd.brdRstN = false →
    (s.brd.vauxOn = true → s.brd.brdLowSince + 1000000 ≤ s.clock + dt → s.fer.power ≠ .standby → s.fer.trip = none →
      Does (.brdRstNRise dt) s fun t => cleared s t ∧ t.brd.brdRstN = true ∧ t.brd.pwrcyc = s.brd.pwrcyc) ∧
    (s.brd.vauxOn = true → s.brd.brdLowSince + 1000000 ≤ s.clock + dt → s.fer.power = .standby →
      exec (.brdRstNRise dt) s = .next { pass dt s with brd := { s.brd with brdRstN := true } }) ∧
    (s.clock + dt < s.brd.brdLowSince + 1000000 →
      exec (.brdRstNRise dt) s = .next { pass dt s with brd := { s.brd with brdRstN := true } })) ∧
  (∀ s : State, s.brd.fref = true →
    (s.fer.power ≠ .standby → s.rst = none → s.sec.held = false → s.fer.trip = none → Does .frefLoss s fun t =>
      t.brd.fref = false ∧ t.rst = some { cold := false, since := s.clock, waitFref := false } ∧ t.parts = [] ∧ CoresCleared s t ∧
      t.fer.epoch = s.fer.epoch + 1) ∧
    (s.fer.power = .standby ∨ s.rst.isSome → exec .frefLoss s = .next { s with brd := { s.brd with fref := false } })) ∧
  (∀ s : State, s.brd.fref = false →
    (s.rst = none → exec .frefReturn s = .next { s with brd := { s.brd with fref := true } }) ∧
    (∀ r, s.rst = some r → r.waitFref = true → r.cold = false → exec .frefReturn s = .next
      { s with brd := { s.brd with fref := true }, rst := some { r with waitFref := false, since := s.clock } }) ∧
    (∀ r, s.rst = some r → r.waitFref = true → r.cold = true → resetBarred s = false → Does .frefReturn s fun t =>
      t.brd.fref = true ∧ t.fer.boots = s.fer.boots + 1 ∧ t.journal = s.journal ∧ ∀ e, t.rst = some e → e.waitFref = false ∨ t.sec.held = true))

/-- R511, R516, R517, R522: Ferryman's commands over MCTP. Each answers its result and its reply: the status block, the events still stored from
a number on, journal slots; SET_POWER asks for a state or is REFUSED, RESET acts as PRT_RESET, SET_LIMIT sets the clamped limit, SET_NET
and SET_PTP their settings, PREPARE_SWAP asks for STANDBY unless a partition runs. A body that breaks the table is INVALID and
changes nothing. Over UDP only queries of a configured collector are answered.
Of the model's choices it rests on log entries 74, 76, 88. -/
def Obligations.FerrymanCommands : Prop :=
  let answers (code result : Nat) (reply : Bytes) : Out := .mgmtReply .mctp code result reply
  (∀ s : State, fmnRuns s = true →
    let started : Prop := ∃ n ∈ partNums, isStarted s n = true
    exec (.getStatus .mctp []) s = .next (emit (answers 1 0 (statusBlock s)) s) ∧
    (∀ b, b ≠ [] → exec (.getStatus .mctp b) s = .next (emit (answers 1 3 []) s)) ∧
    (∀ n from_ : Nat, 1 ≤ n → n ≤ 40 → from_ < 2 ^ 64 →
      let l := ((s.fer.events.filter fun e => decide (from_ ≤ e.seq.toNat)).reverse).take n
      let first := match l with
        | e :: _ => e.seq.toNat
        | [] => s.fer.evSeq.toNat
      exec (.getEvents .mctp (leBytes 8 from_ ++ leBytes 1 n ++ zeros 7)) s =
        .next (emit (answers 2 0 (leBytes 8 first ++ leBytes 1 l.length ++ zeros 7 ++ (l.map eventBytes).flatten)) s)) ∧
    (∀ b, b.length ≠ 16 → exec (.getEvents .mctp b) s = .next (emit (answers 2 3 []) s)) ∧
    (∀ n lo : Nat, 1 ≤ n → n ≤ 40 → lo ≤ 4095 →
      let k := min n (4096 - lo)
      exec (.getJournal .mctp (leBytes 2 lo ++ leBytes 1 n ++ zeros 5)) s =
        .next (emit (answers 3 0 (leBytes 2 lo ++ leBytes 1 k ++ zeros 5 ++ ((List.range k).map fun i => journalSlot s (lo + i)).flatten)) s)) ∧
    (powerWaits s = false → s.fer.powerQ = [] → s.fer.power = .active ∨ s.fer.power = .idle →
      (started → exec (.setPower .mctp [2, 0, 0, 0]) s = .next (emit (answers 4 2 []) { s with fer := { s.fer with refused := true } })) ∧
      (¬started → exec (.setPower .mctp [3, 0, 0, 0]) s = .next (emit (answers 4 0 [])
        { s with fer := { s.fer with entering := some { want := .standby, source := 1 } } })) ∧
      (¬started → (∀ n ∈ partNums, (getPart s n).st ≠ .stopping) → exec (.prepareSwap .mctp []) s = .next (emit (answers 9 0 [])
        { s with fer := { s.fer with entering := some { want := .standby, source := 3 }, swapWanted := true } }))) ∧
    (started → exec (.prepareSwap .mctp []) s = .next (emit (answers 9 2 []) s)) ∧
    (∀ n ∈ partNums, (getPart s n).st = .started → Does (.reset .mctp [0, BitVec.ofNat 8 n, 0, 0]) s fun t =>
      (getPart t n).st = .stopping ∧ t.out.head? = some (answers 5 0 [])) ∧
    (s.rst = none → s.fer.trip = none → s.fer.power ≠ .standby → Does (.reset .mctp [1, 0, 0, 0]) s fun t =>
      t.rst = some { cold := false, since := s.clock, waitFref := false } ∧ t.parts = [] ∧ t.out.head? = some (answers 5 0 [])) ∧
    (∀ w : Nat, w < 65536 →
      let v := max 1500 (min 3300 w)
      exec (.setLimit .mctp (leBytes 2 w ++ zeros 2)) s = .next (emit (answers 6 0 (leBytes 2 v)) { s with fer := { s.fer with limit := v } })) ∧
    (∀ b : Bytes, b.length = 160 → leAt b 4 1 ≤ 32 → leAt b 5 1 < 4 → zeroAt b [(12, 4), (33, 15)] = true → leAt b 32 1 ≤ 128 →
      (∀ o ∈ [64, 88, 112, 136], leAt b o 1 = 0 ∨ leAt b o 1 = 4 ∨ leAt b o 1 = 6) →
      (∀ o ∈ [64, 88, 112, 136], zeroAt b [(o + 1, 3), (o + 20, 4)] = true ∧ (leAt b o 1 = 4 → zeroAt b [(o + 8, 12)] = true)) →
      Does (.setNet .mctp b) s fun t => t = emit (answers 7 0 []) { s with fer := { s.fer with net := t.fer.net } } ∧
        t.fer.net.port = (if leAt b 6 2 = 0 then 20470 else leAt b 6 2) ∧ t.fer.net.ipv4 = sliceB b 0 4 ∧ t.fer.net.ipv6 = sliceB b 16 16 ∧
        t.fer.net.collectors = ([64, 88, 112, 136].map (collectorAt b)).filter fun c => c.1 != 0) ∧
    (∀ d v : Nat, d < 256 → v = 4 ∨ v = 6 → exec (.setPtp .mctp [BitVec.ofNat 8 d, BitVec.ofNat 8 v, 0, 0]) s =
      .next (emit (answers 8 0 []) { s with fer := { s.fer with ptpDomain := d, ptpV6 := v == 6 } })) ∧
    (HostOpen s 0 → Does (.getStatus .mailbox []) s fun t =>
      t.out = .mgmtReply .mailbox 1 0 (statusBlock s) :: s.out ∧ t.cores = s.cores ∧ t.parts = s.parts) ∧
    (∀ a b, exec (.setPower (.udp a) b) s = .next s ∧ exec (.setLimit (.udp a) b) s = .next s ∧ exec (.reset (.udp a) b) s = .next s) ∧
    (∀ a, (∀ c ∈ s.fer.net.collectors, c.2 ≠ a) → exec (.getStatus (.udp a) []) s = .next s)) ∧
  (∀ (s : State) (p : MgmtPath) (b : Bytes), fmnRuns s = false → exec (.getStatus p b) s = .next s ∧ exec (.setLimit p b) s = .next s)

/-- R508 to R510, R512 to R515, R518, R519: what Ferryman sends and takes on its own. Reports go to every collector it can reach; ARP, neighbour
and echo requests for its own addresses are answered. A firmware image goes into the slot that does not run and is accepted when it
verifies. PTP steers fabric time only when no port does. The oldest repair is blown when VIN and temperature allow, else it is deferred
once and stays; a failed write is made again once. Of the model's choices it rests on log entries 45, 46, 75. -/
def Obligations.ManagementTraffic : Prop :=
  ∀ (s : State) (dt : Nat),
    let now := s.clock + dt
    let net := s.fer.net
    let sent (t : State) (data : Bytes) : Prop := ∀ c ∈ net.collectors, ∀ via, nextHop net c.1 c.2 = some via →
      .datagram c.2 via net.port data ∈ t.out
    (reportsOn s = true → bitOf (regN s bFmn) 0 = true → s.fer.perKind = [] → ∀ e rest, unsent s = e :: rest →
      let l := (e :: rest).take 40
      Does (.reportDatagram dt) s fun t => t = { pass dt s with out := t.out, fer := t.fer } ∧ t.fer.events = s.fer.events ∧
        (∀ x, l.getLast? = some x → t.fer.sendFrom = x.seq + 1) ∧
        sent t (datagramBytes 0 l.length e.seq.toNat ((l.map eventBytes).flatten) s)) ∧
    (fmnRuns s = true → s.fer.secondAt + 1000000000 ≤ now → Does (.rateLimitSecond dt) s fun t =>
      t = { pass dt s with fer := t.fer } ∧ t.fer.perKind = [] ∧ t.fer.suppressed = [] ∧ t.fer.secondAt = now ∧
      (s.fer.suppressed = [] → t.fer.events = s.fer.events)) ∧
    (reportsOn s = true → bitOf (regN s bFmn) 1 = true → s.fer.heartbeatAt + heartbeatNs s ≤ now → Does (.heartbeatDatagram dt) s fun t =>
      t = { pass dt s with out := t.out, fer := { s.fer with heartbeatAt := now } } ∧
      sent t (datagramBytes 1 0 s.fer.evSeq.toNat (statusBlock (pass dt s)) s)) ∧
    (reportsOn s = true → ∀ a d : Bytes,
      (ownV4 s a = true → exec (.arpRequest a) s = .next (emit (.netFrame 0 (a ++ sliceB Config.mac 0 6)) s)) ∧
      (ownV6 s a = true → exec (.neighbourSolicitation a) s = .next (emit (.netFrame 1 (a ++ sliceB Config.mac 0 6)) s)) ∧
      (ownV4 s a = true ∨ ownV6 s a = true → exec (.icmpEcho a d) s = .next (emit (.netFrame 2 d) s))) ∧
    (∀ req : Bytes,
      (s.brd.vauxOn = true → Does (.mctpControl req) s fun t => (∃ b, t.out = .mctp 0 b :: s.out) ∧
        t = { s with out := t.out, fer := { s.fer with mctpEid := (Config.mctpAssigns req).getD s.fer.mctpEid } }) ∧
      (fmnRuns s = true → Does (.pldmDiscovery req) s fun t => (∃ b, t.out = .mctp 1 b :: s.out) ∧ t = { s with out := t.out }) ∧
      (fmnRuns s = true → Does (.pldmPlatform req true) s fun t => (∃ b, t.out = .mctp 1 b :: s.out) ∧
        t.fer.pldmPending = s.fer.pldmPending - 1 ∧ (t.brd.alert = true ↔ 1 < s.fer.pldmPending) ∧ t.cores = s.cores)) ∧
    (s.brd.vauxOn = true → ∀ (c : Nat) (data : Bytes) (v : Bool), c < 3 →
      let other := otherSlot s c
      let u := s.fer.updates.get {} c
      let image := (if u.state = 3 then u.image else []) ++ data
      s.sec.slots.get 0 c ≤ 1 → Does (.pldmFirmwareUpdate c v data) s fun t =>
        flashImage t c other = slotImage image ∧ flashImage t c (s.sec.slots.get 0 c) = flashImage s c (s.sec.slots.get 0 c) ∧
        t.sec.slots = s.sec.slots ∧ t.sec.svn = s.sec.svn ∧ t.cores = s.cores ∧ t.mem = s.mem ∧
        (v = false → (t.fer.updates.get {} c).image = image ∧ (t.fer.updates.get {} c).verified = false ∧ (t.fer.updates.get {} c).state = 3) ∧
        (v = true → (t.fer.updates.get {} c).verified = imageOk t c other)) ∧
    (s.brd.vauxOn = true → ∀ c < 3, (s.fer.updates.get {} c).verified = true → Does (.fwActivate c) s fun t =>
      (t.fer.updates.get {} c).verified = false ∧ t.sec.flash = s.sec.flash ∧ t.sec.svn = s.sec.svn ∧ t.cores = s.cores ∧
      (c ≠ 2 → t.sec = s.sec) ∧
      (c = 2 → (t.sec.ferryRecovery = true ↔ chooseSlot s 2 = none ∨ s.brd.straps.getLsbD 6 = true))) ∧
    (ptpSteers s = true → ∀ t1 t2 : DWord, Does (.ptpSync dt t1 t2) s fun t =>
      let e : Int := (t1.toNat : Int) + s.fer.ptpDelay - (t2.toNat : Int)
      t.fer.ptpAt = some now ∧ t.fer.ptpT1 = t1 ∧ t.fer.ptpT2 = t2 ∧
      (-1000 ≤ e → e ≤ 1000 → t.now = (pass dt s).now ∧ t.fab.slew = e) ∧
      (1000 < e → t.now = (pass dt s).now + BitVec.ofInt 64 e ∧ t.fab.slew = 0)) ∧
    (ptpSteers s = true → s.fer.ptpAt.isSome → ∀ t3 t4 : DWord, exec (.ptpDelayResp t3 t4) s = .next { s with fer := { s.fer with
      ptpDelay := (((s.fer.ptpT2.toNat : Int) - s.fer.ptpT1.toNat) + ((t4.toNat : Int) - t3.toNat)) / 2 } }) ∧
    (fmnRuns s = true → ∀ t0, s.fer.ptpAt = some t0 → t0 + 3000000000 ≤ now → Does (.ptpLost dt) s fun t =>
      t.fer.ptpAt = none ∧ t.now = (pass dt s).now ∧ bitOf (regN t (bFmn + 0x14)) 7 = true) ∧
    (fmnRuns s = true → s.fer.fuseNow = none → ∀ r rest, s.fer.fuseQ = r :: rest →
      (inRecord r = false ∨ s.fer.fuses.length < 1024 →
        (fuseable s = true → exec (.fuseWrite dt) s = .next
          { pass dt s with fer := { s.fer with fuseQ := rest, fuseNow := some (r, false), fuseAt := now } }) ∧
        (fuseable s = false → r.deferred = true → exec (.fuseWrite dt) s = .next s) ∧
        (fuseable s = false → r.deferred = false → Does (.fuseWrite dt) s fun t =>
          t.fer.fuseQ = { r with deferred := true } :: rest ∧ t.fer.fuses = s.fer.fuses ∧ bitOf (regN t (bFmn + 0x14)) 6 = true)) ∧
      (inRecord r = true → 1024 ≤ s.fer.fuses.length → Does (.fuseWrite dt) s fun t =>
        t.fer.fuseQ = rest ∧ t.fer.flashRepairs = s.fer.flashRepairs ++ [r] ∧ t.fer.fuses = s.fer.fuses)) ∧
    (∀ r again, s.fer.fuseNow = some (r, again) → s.fer.fuseAt + 2000000 ≤ now →
      (Does (.fuseWriteDone dt true) s fun t => t.fer.fuseNow = none ∧
        (inRecord r = true → t.fer.fuses = s.fer.fuses ++ [{ r with deferred := false }] ∧ t.sec = s.sec) ∧
        (r.cls = 7 → t.sec.svn.get 0 r.what = s.sec.svn.get 0 r.what + 1 ∧ t.fer.fuses = s.fer.fuses) ∧
        (r.cls = 8 → t.sec.revoked = s.sec.revoked ||| BitVec.ofNat 4 (2 ^ r.what) ∧ t.fer.fuses = s.fer.fuses)) ∧
      (again = false → exec (.fuseWriteDone dt false) s = .next
        { pass dt s with fer := { s.fer with fuseNow := some (r, true), fuseAt := now } }) ∧
      (again = true → Does (.fuseWriteDone dt false) s fun t =>
        t.fer.fuseNow = none ∧ t.fer.fuses = s.fer.fuses ∧ t.sec = s.sec ∧ ∃ e, t.fer.events.head? = some e ∧ e.kind = 0x24))

/-- R472, R530 to R536: the security block. SPDM requests of a function are answered in their order, VERSION, CAPABILITIES, ALGORITHMS first,
others with the standard's error; a response goes out at once, or behind those of its mailbox that wait for a signature. CHALLENGE,
MEASUREMENTS and KEY_EXCHANGE wait for their signature, and what waited behind it follows. A session opens with FINISH, and is
rekeyed and ended inside it; its streams stay. IDE_KM keys, starts and stops the function's own streams. ARM draws a nonce; GO with a
verifying token is a cold reset into the debug level, and is refused while a partition is busy or the fuse is blown.
Of the model's choices it rests on log entries 47, 89, 91, 92. -/
def Obligations.SecurityCommands : Prop :=
  let err : Bytes := Config.standardReply 0x7F [] []
  let queued (q : SignReq) (x : State) : State := { x with sec := { x.sec with signQ := x.sec.signQ ++ [q] } }
  let answers (fn : Nat) (m : Bytes) (x : State) : State :=
    if (∃ q ∈ x.sec.signQ, q.fn = fn) then queued { fn := fn, slot := none, msg := m } x
    else { x with out := .doe fn m :: x.out, sec := { x.sec with chunksOut := Tbl.set [] x.sec.chunksOut fn m } }
  let signs (fn slot : Nat) (m : Bytes) (x : State) : State := queued { fn := fn, slot := some slot, msg := m } x
  (∀ (s : State) (fn : Nat) (req : Bytes), barOpen s = true → fn ≤ 8 →
    let asks (need : Nat) (c : Instr) (t : State) : Prop := exec c s = .next (if need ≤ spdmStage s fn then t else answers fn err s)
    let at_ (k : Nat) : State := { s with sec := { s.sec with spdm := Tbl.set 0 s.sec.spdm fn k } }
    let digest (slot : Nat) : Bytes := hashBytes (sha256 (slotChain s slot))
    let slot := leAt req 3 1 % 16
    let no := s.sec.sessionNo + 1
    asks 0 (.getVersion fn req) (answers fn (Config.standardReply 0x04 req (facts [0x14])) (at_ 1)) ∧
    asks 1 (.getCapabilities fn req) (answers fn (Config.standardReply 0x61 req []) (at_ (max 2 (spdmStage s fn)))) ∧
    asks 2 (.negotiateAlgorithms fn req) (answers fn (Config.standardReply 0x63 req []) (at_ 3)) ∧
    asks 3 (.getDigests fn req) (answers fn (Config.standardReply 0x01 req (digest 0 ++ digest 1)) s) ∧
    (∀ slot off len, let part := ((slotChain s slot).drop off).take len
      asks 3 (.getCertificate fn slot off len) (answers fn (if slot < 2 then
        Config.standardReply 0x02 part (leBytes 4 ((slotChain s slot).length - off - part.length)) else err) s)) ∧
    (∀ slot, asks 3 (.challenge fn slot req) (if slot < 2 then signs fn slot (Config.standardReply 0x03 req (digest slot)) s
      else answers fn err s)) ∧
    (∀ i, let block (i : Nat) : Bytes := leBytes 1 i ++ hashBytes (measurement s i)
      let all (l : Bytes) : State := signs fn 1 (Config.standardReply 0x60 req (leBytes 1 6 ++ l)) s
      asks 3 (.getMeasurements fn i req) (if i = 0 then all [] else if i = 0xFF then
        all (block 1 ++ block 2 ++ block 3 ++ block 4 ++ block 5 ++ block 6) else if i ≤ 6 then all (block i) else answers fn err s)) ∧
    asks 3 (.keyExchange fn req) (if slot < 2 then signs fn slot (Config.standardReply 0x64 req (leBytes 4 no)) { s with sec := { s.sec with
      sessionNo := no, sessions := s.sec.sessions ++ [{ fn := fn, num := no, key := Config.kem req no, opened := false }] } }
      else answers fn err s) ∧
    (∀ (seq : Nat) (last : Bool), asks 2 (.chunkSend fn seq last req) (if s.sec.chunkSeq.get 0 fn = seq then
      answers fn (Config.standardReply 0x05 req (leBytes 2 seq)) { s with sec := { s.sec with
        chunksIn := Tbl.set [] s.sec.chunksIn fn (if last then [] else s.sec.chunksIn.get [] fn ++ req)
        chunkSeq := Tbl.set 0 s.sec.chunkSeq fn (if last then 0 else seq + 1) } }
      else answers fn err s)) ∧
    (∀ seq, asks 2 (.chunkGet fn seq) (answers fn (Config.standardReply 0x06 (s.sec.chunksOut.get [] fn) (leBytes 2 seq)) s)) ∧
    (∀ n stream : Nat, ∀ c ∈ [Instr.finish fn n req, .endSession fn n, .keyUpdate fn n req, .heartbeat fn n, .keyProg fn n stream req,
        .kSetGo fn n stream, .kSetStop fn n stream],
      (findSession s fn n = none ∨ (∃ x, findSession s fn n = some x ∧ x.opened = decide (c = .finish fn n req))) →
      exec c s = .next (answers fn err s)) ∧
    (∀ (n : Nat) (x : Session), findSession s fn n = some x →
      let mine (y : Session) : Prop := y.fn = fn ∧ y.num = n
      let sealed (f : Session → Session) (m : Bytes) (z : State) : State := answers fn (Config.seal x.key x.seq m)
        { z with sec := { z.sec with sessions := z.sec.sessions.map fun y => if y.fn = fn ∧ y.num = n then f y else y } }
      let used (y : Session) : Session := { y with seq := y.seq + 1 }
      let streams (l : List Ide) : State := { s with sec := { s.sec with ide := l } }
      mine x ∧
      (x.opened = false → exec (.finish fn n req) s =
        .next (sealed (fun y => { y with opened := true, seq := y.seq + 1 }) (Config.standardReply 0x65 req []) s)) ∧
      (x.opened = true →
        Does (.endSession fn n) s (fun t => findSession t fn n = none ∧ t.sec.ide = s.sec.ide ∧
          t = answers fn (Config.seal x.key x.seq (Config.standardReply 0x6C [] [])) { s with sec := { s.sec with sessions := t.sec.sessions } } ∧
          ∀ y, y ∈ t.sec.sessions ↔ y ∈ s.sec.sessions ∧ ¬mine y) ∧
        exec (.keyUpdate fn n req) s = .next (sealed (fun y => { y with key := Config.deriveKey 2 x.key, seq := 0 })
          (Config.standardReply 0x69 req []) s) ∧
        exec (.heartbeat fn n) s = .next (sealed used (Config.standardReply 0x68 [] []) s) ∧
        (∀ stream,
          let no : State := sealed used (Config.standardReply 0x80 [] (facts [1])) s
          let keyed := s.sec.ide.find? fun i => i.stream == stream
          let own : Prop := ∃ i ∈ s.sec.ide, i.stream = stream ∧ i.fn = fn
          (∀ i, keyed = some i → exec (.keyProg fn n stream req) s = .next (if i.fn = fn then
            sealed used (Config.standardReply 0x81 [] (facts [0]))
              (streams (s.sec.ide.map fun i => if i.stream = stream then { i with session := n, key := req } else i)) else no)) ∧
          (keyed = none → exec (.keyProg fn n stream req) s = .next (if s.sec.ide.length < 8 then
            sealed used (Config.standardReply 0x81 [] (facts [0])) (streams (s.sec.ide ++
              [{ fn := fn, stream := stream, session := n, key := req, secure := false }])) else no)) ∧
          (¬own → exec (.kSetGo fn n stream) s = .next no ∧ exec (.kSetStop fn n stream) s = .next no) ∧
          (own → exec (.kSetStop fn n stream) s = .next (sealed used (Config.standardReply 0x83 [] (facts [0]))
            (streams (s.sec.ide.filter fun i => i.stream != stream))) ∧
            Does (.kSetGo fn n stream) s (fun t =>
              let u := sealed used (Config.standardReply 0x82 [] (facts [0]))
                (streams (s.sec.ide.map fun i => if i.stream = stream then { i with secure := true } else i))
              let f := s.funcs.get {} fn
              let open_ (v : Nat) : Prop := bitOf (f.msix.get 0 (4 * v + 3)).toNat 0 = true
              t = { u with out := t.out, funcs := t.funcs, link := t.link } ∧ hostReach t fn = true ∧
              (∃ l, t.out = l ++ u.out ∧ ∀ o, o ∈ l ↔ ∃ v ∈ f.pba, open_ v ∧ o = .msix fn v) ∧
              (∀ v, v ∈ (t.funcs.get {} fn).pba ↔ v ∈ f.pba ∧ ¬open_ v))))))) ∧
  (∀ (s : State) (dt slot : Nat) (q : SignReq) (rest : List SignReq), s.sec.signQ = q :: rest → q.slot = some slot →
    let behind (r : SignReq × Nat) : Bool := r.1.slot.isSome || (rest.take r.2).any fun p => p.fn == r.1.fn && p.slot.isSome
    Does (.spdmSignatureDone dt) s fun t => t.clock = s.clock + dt ∧ t.sec.signQ = (rest.zipIdx.filter behind).map Prod.fst ∧
      t.out = ((rest.zipIdx.filter fun r => !behind r).map fun r => .doe r.1.fn r.1.msg).reverse ++
        .doe q.fn (q.msg ++ Config.slhSign (slotKey s slot) q.msg) :: s.out) ∧
  (∀ s : State, HostOpen s 0 →
    let busy : Prop := ∃ n ∈ partNums, (getPart s n).st = .started ∨ (getPart s n).st = .stopping
    (Does (.dbgArm 0) s fun t => t.sec.nonceLive = true ∧ t.sec.debug = s.sec.debug ∧ t.cores = s.cores ∧ t.parts = s.parts ∧ t.mem = s.mem) ∧
    ((busy ∨ s.sec.debugDisable = true) → exec (.dbgGo 0) s = .next
      { barAccess s with sec := { s.sec with dbgRefused := true, nonceLive := false } }) ∧
    (¬busy → s.sec.debugDisable = false → s.fer.trip = none → Does (.dbgGo 0) s fun t =>
      if tokenOk s = true then t.parts = [] ∧ t.cores = [] ∧ t.fer.epoch = s.fer.epoch + 1 ∧ t.sec.nonceLive = false ∧
        (resetBarred s = false → s.brd.fref = true → t.sec.debug = leNat (tokenAt s 40 1))
      else t.sec.dbgRefused = true ∧ t.sec.nonceLive = true ∧ t.sec.debug = s.sec.debug ∧ t.parts = s.parts ∧ t.cores = s.cores))

/-- Log entry 1 (the model's choice): a step takes the command at the front of the queue and runs it on the state with the queue's rest; on an
empty queue the block idles. No command faults or is refused: each answers a next state. -/
def Obligations.StepRunsTheFront : Prop :=
  (∀ (s : State) (c : Instr) (rest : List Instr), step { s with pending := c :: rest } = exec c { s with pending := rest }) ∧
  (∀ s : State, step { s with pending := [] } = .next { s with pending := [] }) ∧
  (∀ (s : State) (c : Instr), ∃ t, exec c s = .next t)

/-- The form that every command keeps (R501, R508, and the canonical form of memory) holds at reset. -/
def Obligations.SoundAtReset : Prop := Sound State.reset

/-- R501, R508: every step keeps memory in canonical form, the event store within its 8,192 records, and the power limit within 1,500 W to
3,300 W. -/
def Obligations.SoundKept : Prop := ∀ s t : State, Sound s → step s = .next t → Sound t

/-- R519, R526, R527, R536: no step takes back a message sent, lowers a rollback counter, restores a revoked key, removes a blown repair
record, or changes the key hashes and the debug fuse; the counter of free values only rises. -/
def Obligations.ForwardKept : Prop := ∀ s t : State, step s = .next t → Forward s t
end

