-- ==== Sys2Proof/Laws/Tables.lean ====
section
/-!
SUPPORT. What a sparse table holds after it is set, and that its canonical form is kept.
-/
namespace Sys2Proof

variable {α : Type}

theorem Tbl.get_erase_self (d : α) (t : Tbl α) (k : Nat) : Tbl.get d (Tbl.erase t k) k = d := by
  induction t with
  | nil => rfl
  | cons e t ih =>
    obtain ⟨j, a⟩ := e
    by_cases h : j = k <;> simp [Tbl.erase, Tbl.get, h, ih]

theorem Tbl.get_erase_ne (d : α) (t : Tbl α) {k j : Nat} (h : j ≠ k) : Tbl.get d (Tbl.erase t k) j = Tbl.get d t j := by
  induction t with
  | nil => rfl
  | cons e t ih =>
    obtain ⟨i, a⟩ := e
    by_cases hi : i = k
    · have : i ≠ j := by omega
      simp [Tbl.erase, Tbl.get, hi, ih]; intro; omega
    · simp only [Tbl.erase, hi, if_false, Tbl.get, ih]

theorem Tbl.get_insert_self (d : α) (t : Tbl α) (k : Nat) (v : α) (h : ∀ e ∈ t, e.1 ≠ k) :
    Tbl.get d (Tbl.insert t k v) k = v := by
  induction t with
  | nil => simp [Tbl.insert, Tbl.get]
  | cons e t ih =>
    obtain ⟨i, a⟩ := e
    have hi : i ≠ k := h (i, a) (by simp)
    by_cases hk : k ≤ i
    · simp [Tbl.insert, Tbl.get, hk]
    · simp only [Tbl.insert, hk, if_false, Tbl.get, hi]
      exact ih fun e he => h e (by simp [he])

theorem Tbl.get_insert_ne (d : α) (t : Tbl α) {k j : Nat} (v : α) (h : j ≠ k) :
    Tbl.get d (Tbl.insert t k v) j = Tbl.get d t j := by
  induction t with
  | nil => simp [Tbl.insert, Tbl.get]; intro; omega
  | cons e t ih =>
    obtain ⟨i, a⟩ := e
    by_cases hk : k ≤ i
    · have : k ≠ j := by omega
      simp [Tbl.insert, Tbl.get, hk, this]
    · simp only [Tbl.insert, hk, if_false, Tbl.get]
      split <;> simp_all

theorem Tbl.mem_erase {t : Tbl α} {k : Nat} {e : Nat × α} : e ∈ Tbl.erase t k ↔ e ∈ t ∧ e.1 ≠ k := by
  induction t with
  | nil => simp [Tbl.erase]
  | cons a t ih =>
    obtain ⟨i, v⟩ := a
    by_cases hi : i = k
    · simp only [Tbl.erase, hi, if_true, ih, List.mem_cons]
      constructor
      · rintro ⟨h, n⟩; exact ⟨.inr h, n⟩
      · rintro ⟨rfl | h, n⟩
        · exact absurd rfl n
        · exact ⟨h, n⟩
    · simp only [Tbl.erase, hi, if_false, List.mem_cons, ih]
      constructor
      · rintro (rfl | ⟨h, n⟩)
        · exact ⟨.inl rfl, hi⟩
        · exact ⟨.inr h, n⟩
      · rintro ⟨rfl | h, n⟩
        · exact .inl rfl
        · exact .inr ⟨h, n⟩

theorem Tbl.mem_insert {t : Tbl α} {k : Nat} {v : α} {e : Nat × α} : e ∈ Tbl.insert t k v ↔ e = (k, v) ∨ e ∈ t := by
  induction t with
  | nil => simp [Tbl.insert]
  | cons a t ih =>
    obtain ⟨i, w⟩ := a
    by_cases hk : k ≤ i
    · simp [Tbl.insert, hk]
    · simp only [Tbl.insert, hk, if_false, List.mem_cons, ih]
      constructor
      · rintro (h | h | h)
        · exact .inr (.inl h)
        · exact .inl h
        · exact .inr (.inr h)
      · rintro (h | h | h)
        · exact .inr (.inl h)
        · exact .inl h
        · exact .inr (.inr h)

/-- A table holds the value it was set to. -/
theorem Tbl.get_set_self [DecidableEq α] (d : α) (t : Tbl α) (k : Nat) (v : α) : Tbl.get d (Tbl.set d t k v) k = v := by
  unfold Tbl.set
  split
  · rename_i h; rw [h]; exact Tbl.get_erase_self d t k
  · exact Tbl.get_insert_self d _ k v fun e he => (Tbl.mem_erase.mp he).2

/-- Setting one number leaves every other as it was. -/
theorem Tbl.get_set_ne [DecidableEq α] (d : α) (t : Tbl α) {k j : Nat} (v : α) (h : j ≠ k) :
    Tbl.get d (Tbl.set d t k v) j = Tbl.get d t j := by
  unfold Tbl.set
  split
  · exact Tbl.get_erase_ne d t h
  · rw [Tbl.get_insert_ne d _ v h, Tbl.get_erase_ne d t h]

/-- A read after any write of the table. -/
theorem Tbl.get_set [DecidableEq α] (d : α) (t : Tbl α) (k j : Nat) (v : α) :
    Tbl.get d (Tbl.set d t k v) j = if j = k then v else Tbl.get d t j := by
  split
  · rename_i h; rw [h, Tbl.get_set_self]
  · rename_i h; exact Tbl.get_set_ne d t v h

theorem Tbl.get_upd [DecidableEq α] (d : α) (t : Tbl α) (k j : Nat) (f : α → α) :
    Tbl.get d (Tbl.upd d t k f) j = if j = k then f (Tbl.get d t k) else Tbl.get d t j := Tbl.get_set d t k j _

/-- Numbers strictly rising. -/
abbrev Tbl.rising (t : Tbl α) : Prop := (t.map Prod.fst).Pairwise (· < ·)

theorem Tbl.rising_erase {t : Tbl α} (k : Nat) (h : Tbl.rising t) : Tbl.rising (Tbl.erase t k) := by
  induction t with
  | nil => exact h
  | cons e t ih =>
    obtain ⟨i, a⟩ := e
    simp only [Tbl.rising, List.map_cons, List.pairwise_cons, List.mem_map] at h
    by_cases hi : i = k
    · simpa [Tbl.erase, hi] using ih h.2
    · simp only [Tbl.erase, hi, if_false, Tbl.rising, List.map_cons, List.pairwise_cons, List.mem_map]
      refine ⟨?_, ih h.2⟩
      rintro j ⟨e, he, rfl⟩
      exact h.1 _ ⟨e, (Tbl.mem_erase.mp he).1, rfl⟩

theorem Tbl.rising_insert {t : Tbl α} {k : Nat} (v : α) (hk : ∀ e ∈ t, e.1 ≠ k) (h : Tbl.rising t) :
    Tbl.rising (Tbl.insert t k v) := by
  induction t with
  | nil => simp [Tbl.insert, Tbl.rising]
  | cons e t ih =>
    obtain ⟨i, a⟩ := e
    have hi : i ≠ k := hk (i, a) (by simp)
    simp only [Tbl.rising, List.map_cons, List.pairwise_cons, List.mem_map] at h
    by_cases hle : k ≤ i
    · simp only [Tbl.insert, hle, if_true, Tbl.rising, List.map_cons, List.pairwise_cons, List.mem_cons, List.mem_map]
      refine ⟨?_, fun j hj => h.1 j hj, h.2⟩
      rintro j (rfl | ⟨e, he, rfl⟩)
      · omega
      · have := h.1 _ ⟨e, he, rfl⟩; omega
    · simp only [Tbl.insert, hle, if_false, Tbl.rising, List.map_cons, List.pairwise_cons, List.mem_map]
      refine ⟨?_, ih (fun e he => hk e (by simp [he])) h.2⟩
      rintro j ⟨e, he, rfl⟩
      rcases Tbl.mem_insert.mp he with rfl | he
      · show i < k; omega
      · exact h.1 _ ⟨e, he, rfl⟩

theorem Tbl.rising_set [DecidableEq α] (d : α) {t : Tbl α} (k : Nat) (v : α) (h : Tbl.rising t) :
    Tbl.rising (Tbl.set d t k v) := by
  unfold Tbl.set
  split
  · exact Tbl.rising_erase k h
  · exact Tbl.rising_insert v (fun e he => (Tbl.mem_erase.mp he).2) (Tbl.rising_erase k h)

theorem Tbl.rising_filter {t : Tbl α} (p : Nat × α → Bool) (h : Tbl.rising t) : Tbl.rising (t.filter p) :=
  List.Pairwise.sublist (List.Sublist.map _ List.filter_sublist) h

/-- Every entry of a table that is set is the new one or was there. -/
theorem Tbl.mem_set [DecidableEq α] {d : α} {t : Tbl α} {k : Nat} {v : α} {e : Nat × α} (h : e ∈ Tbl.set d t k v) :
    (e = (k, v) ∧ v ≠ d) ∨ (e ∈ t ∧ e.1 ≠ k) := by
  unfold Tbl.set at h
  split at h
  · exact .inr (Tbl.mem_erase.mp h)
  · rename_i hv
    rcases Tbl.mem_insert.mp h with rfl | h
    · exact .inl ⟨rfl, hv⟩
    · exact .inr (Tbl.mem_erase.mp h)

end Sys2Proof
end

