-- ==== Sys2Proof/Laws/Keeps.lean ====
section
/-!
SUPPORT. What every operation of the model keeps, said once for each: the queue is untouched, a sound state stays sound,
and nothing that only grows is taken back. The lemma about an operation `f` is `f_keeps`: from what the state before it keeps
of an earlier state to what the state after it keeps.
-/
set_option linter.all false
namespace Sys2Proof.Machine

/-- From one state to a later one. -/
structure Keeps (s t : State) : Prop where
  queue : t.pending = s.pending
  sent : s.out <:+ t.out
  drawn : s.free ≤ t.free
  svn : t.sec.svn = s.sec.svn
  revoked : t.sec.revoked = s.sec.revoked
  fuses : t.fer.fuses = s.fer.fuses
  keys : t.sec.keyHashes = s.sec.keyHashes
  debugFuse : t.sec.debugDisable = s.sec.debugDisable
  sound : Sound s → Sound t

theorem Keeps.refl (s : State) : Keeps s s := ⟨rfl, List.suffix_refl _, Nat.le_refl _, rfl, rfl, rfl, rfl, rfl, id⟩

theorem Keeps.trans {s t u : State} (h : Keeps s t) (k : Keeps t u) : Keeps s u :=
  ⟨k.queue.trans h.queue, h.sent.trans k.sent, Nat.le_trans h.drawn k.drawn, k.svn.trans h.svn, k.revoked.trans h.revoked,
    k.fuses.trans h.fuses, k.keys.trans h.keys, k.debugFuse.trans h.debugFuse, k.sound ∘ h.sound⟩

theorem Keeps.forward {s t : State} (h : Keeps s t) : Forward s t :=
  ⟨h.sent, h.drawn, fun _ => Nat.le_of_eq (by rw [h.svn]), by rw [h.revoked, BitVec.or_self],
    h.fuses.symm ▸ List.prefix_refl _, h.keys, h.debugFuse⟩

theorem Forward.trans {s t u : State} (h : Forward s t) (k : Forward t u) : Forward s u :=
  ⟨h.sent.trans k.sent, Nat.le_trans h.drawn k.drawn, fun c => Nat.le_trans (h.counters c) (k.counters c),
    by rw [← k.revoked, ← h.revoked, ← BitVec.or_assoc, ← BitVec.or_assoc, BitVec.or_self], h.fused.trans k.fused,
    k.keys.trans h.keys, k.debugFuse.trans h.debugFuse⟩

/-- What of a state the relation looks at. -/
structure SameCore (s t : State) : Prop where
  queue : t.pending = s.pending
  out : s.out <:+ t.out
  free : s.free ≤ t.free
  hbm : t.mem.hbm = s.mem.hbm
  fresh : t.mem.fresh = s.mem.fresh
  events : t.fer.events = s.fer.events
  limit : t.fer.limit = s.fer.limit
  fuses : t.fer.fuses = s.fer.fuses
  svn : t.sec.svn = s.sec.svn
  revoked : t.sec.revoked = s.sec.revoked
  keys : t.sec.keyHashes = s.sec.keyHashes
  debugFuse : t.sec.debugDisable = s.sec.debugDisable

theorem Memory.wf_congr {m n : MemSys} (h : n.hbm = m.hbm) (f : n.fresh = m.fresh) (w : Memory.wf m) : Memory.wf n := by
  unfold Memory.wf hbmDflt at *
  rw [h, f]; exact w

theorem SameCore.keeps {s t : State} (h : SameCore s t) : Keeps s t :=
  ⟨h.queue, h.out, h.free, h.svn, h.revoked, h.fuses, h.keys, h.debugFuse,
    fun i => ⟨Memory.wf_congr h.hbm h.fresh i.memory, h.events ▸ i.store, h.limit ▸ i.limitLow, h.limit ▸ i.limitHigh⟩⟩

/-- A state written out over the fields of another keeps what that one keeps. -/
theorem keeps_put {a s : State} {x1 : List Out} {x2 : Nat} {x3 : DWord} {x4 : Nat} {x5 : DWord} {x6 : Tbl Word} {x7
      : Tbl (Option Word)} {x8 : Tbl Place} {x9 : Tbl Site} {x10 : Tbl Core} {x11 : Tbl Part} {x12 : Tbl Ring} {x13
      : Tbl Func} {x14 : List Desc} {x15 : Nat} {x16 : Tbl (Option JEntry)} {x17 : PcieLink} {x18 : Option Nat} {x19
      : Loader} {x20 : MemSys} {x21 : SyncSys} {x22 : Fabric} {x23 : Tbl Pipe} {x24 : Ferry} {x25 :
      Sec} {x26 : Board} {x27 : Option Reset}
    (k : SameCore s ⟨s.pending, x1, x2, x3, x4, x5, x6, x7, x8, x9, x10, x11, x12, x13, x14, x15, x16, x17, x18,
      x19, x20, x21, x22, x23, x24, x25, x26, x27⟩) (h : Keeps a s) :
    Keeps a ⟨s.pending, x1, x2, x3, x4, x5, x6, x7, x8, x9, x10, x11, x12, x13, x14, x15, x16, x17, x18, x19, x20,
      x21, x22, x23, x24, x25, x26, x27⟩ := h.trans k.keeps

/-- A state is used through what it keeps; the same for states held in pairs. -/
theorem keeps_cut (a : State) {q : Prop} (w : State) (h : Keeps a w) (k : Keeps a w → q) : q := k h
theorem keeps_cut_fst (a : State) {α : Type} {q : Prop} (w : State × α) (h : Keeps a w.1) (k : Keeps a w.1 → q) : q := k h
theorem keeps_cut_snd (a : State) {α : Type} {q : Prop} (w : α × State) (h : Keeps a w.2) (k : Keeps a w.2 → q) : q := k h
theorem keeps_cut_thd (a : State) {α β : Type} {q : Prop} (w : α × β × State) (h : Keeps a w.2.2) (k : Keeps a w.2.2 → q) : q :=
  k h

theorem keeps_ite {a : State} {c : Prop} [Decidable c] {s t : State} (h : Keeps a s) (k : Keeps a t) :
    Keeps a (if c then s else t) := by split <;> assumption

theorem keeps_ite_fst {a : State} {α : Type} {c : Prop} [Decidable c] {s t : State × α} (h : Keeps a s.1) (k : Keeps a t.1) :
    Keeps a (if c then s else t).1 := by split <;> assumption

theorem keeps_ite_snd {a : State} {α : Type} {c : Prop} [Decidable c] {s t : α × State} (h : Keeps a s.2) (k : Keeps a t.2) :
    Keeps a (if c then s else t).2 := by split <;> assumption

theorem keeps_foldl {a : State} {α : Type} {f : State → α → State} {l : List α} {s : State}
    (hf : ∀ s x, Keeps a s → Keeps a (f s x)) (h : Keeps a s) : Keeps a (l.foldl f s) := by
  induction l generalizing s with
  | nil => exact h
  | cons x l ih => exact ih (hf s x h)

theorem keeps_foldl_snd {a : State} {α β : Type} {f : β × State → α → β × State} {l : List α} {p : β × State}
    (hf : ∀ p x, Keeps a p.2 → Keeps a (f p x).2) (h : Keeps a p.2) : Keeps a (l.foldl f p).2 := by
  induction l generalizing p with
  | nil => exact h
  | cons x l ih => exact ih (hf p x h)

theorem keeps_foldl_fst {a : State} {α β : Type} {f : State × β → α → State × β} {l : List α} {p : State × β}
    (hf : ∀ p x, Keeps a p.1 → Keeps a (f p x).1) (h : Keeps a p.1) : Keeps a (l.foldl f p).1 := by
  induction l generalizing p with
  | nil => exact h
  | cons x l ih => exact ih (hf p x h)

/-- A result whose next state, if there is one, keeps what an earlier state had. -/
structure KeepsR (a : State) (r : Result) : Prop where
  next : ∀ t, r = .next t → Keeps a t

theorem keepsR_next {a s : State} (h : Keeps a s) : KeepsR a (.next s) := ⟨fun t e => by cases e; exact h⟩

theorem keepsR_fault {a : State} {f : Fault} : KeepsR a (.fault f) := ⟨fun t e => by cases e⟩

theorem keepsR_ite {a : State} {c : Prop} [Decidable c] {r q : Result} (h : KeepsR a r) (k : KeepsR a q) :
    KeepsR a (if c then r else q) := by split <;> assumption

end Sys2Proof.Machine
end

