-- ==== Sys2Proof/Laws/KeepsOps.lean ====
section
/-!
SUPPORT. What the operations of Machine/Ops.lean keep (Laws/Keeps.lean).
-/
set_option linter.all false
namespace Sys2Proof.Machine

theorem drawBits_keeps {zz : State} (w : Nat) {s : State} (hz : Keeps zz s) :
    Keeps zz (drawBits w s).2 := by
  unfold drawBits
  repeat (with_reducible first
    | assumption | (intro _; exact ⟨rfl, rfl, rfl⟩) | (intro _; exact ⟨rfl, rfl, rfl, rfl⟩) | (intro _)
    | apply keeps_ite | split
    | (rename_i hq; replace hq := congrArg Prod.snd hq; dsimp only at hq; rw [← hq]; clear hq)
    | (apply keeps_put; exact ⟨rfl, by simp, by simp, rfl, rfl, rfl, rfl, rfl, rfl, rfl, rfl, rfl⟩))

theorem reserve_keeps {zz : State} (n : Nat) {s : State} (hz : Keeps zz s) :
    Keeps zz (reserve n s) := by
  unfold reserve
  repeat (with_reducible first
    | assumption | (intro _; exact ⟨rfl, rfl, rfl⟩) | (intro _; exact ⟨rfl, rfl, rfl, rfl⟩) | (intro _)
    | apply keeps_ite | split
    | (rename_i hq; replace hq := congrArg Prod.snd hq; dsimp only at hq; rw [← hq]; clear hq)
    | (apply keeps_put; exact ⟨rfl, by simp, by simp, rfl, rfl, rfl, rfl, rfl, rfl, rfl, rfl, rfl⟩))

theorem drawBytes_keeps {zz : State} (n : Nat) {s : State} (hz : Keeps zz s) :
    Keeps zz (drawBytes n s).2 := by
  unfold drawBytes
  repeat (with_reducible first
    | assumption | (intro _; exact ⟨rfl, rfl, rfl⟩) | (intro _; exact ⟨rfl, rfl, rfl, rfl⟩) | (intro _)
    | apply keeps_ite | split
    | (rename_i hq; replace hq := congrArg Prod.snd hq; dsimp only at hq; rw [← hq]; clear hq)
    | (apply keeps_put; exact ⟨rfl, by simp, by simp, rfl, rfl, rfl, rfl, rfl, rfl, rfl, rfl, rfl⟩))

theorem pass_keeps {zz : State} (dt : Nat) {s : State} (hz : Keeps zz s) :
    Keeps zz (pass dt s) := by
  unfold pass
  repeat (with_reducible first
    | assumption | (intro _; exact ⟨rfl, rfl, rfl⟩) | (intro _; exact ⟨rfl, rfl, rfl, rfl⟩) | (intro _)
    | (extract_lets +onlyGivenNames w; refine keeps_cut zz w ?_ ?_; (unfold w; clear w); rotate_left; intro _; clear_value w; revert w; intro _ _)
    | (extract_lets +onlyGivenNames w; refine (fun (_ : MemSys) => ?_) w; revert w; intro _)
    | (extract_lets +onlyGivenNames w; refine (fun (_ : Ferry) => ?_) w; revert w; intro _)
    | (extract_lets +onlyGivenNames w; refine (fun (_ : Sec) => ?_) w; revert w; intro _)
    | (extract_lets +onlyGivenNames w; refine keeps_cut_snd zz w ?_ ?_; (unfold w; clear w); rotate_left; intro _; clear_value w; revert w; intro _ _)
    | (extract_lets +onlyGivenNames w; refine keeps_cut_fst zz w ?_ ?_; (unfold w; clear w); rotate_left; intro _; clear_value w; revert w; intro _ _)
    | (extract_lets +onlyGivenNames w; refine keeps_cut_thd zz w ?_ ?_; (unfold w; clear w); rotate_left; intro _; clear_value w; revert w; intro _ _)
    | (extract_lets +onlyGivenNames w; refine (fun (_ : _ → _) => ?_) w; unfold w; clear w)
    | (extract_lets +onlyGivenNames w; clear_value w; revert w; intro _) | apply keeps_ite | split
    | (rename_i hq; replace hq := congrArg Prod.snd hq; dsimp only at hq; rw [← hq]; clear hq)
    | (apply keeps_put; exact ⟨rfl, by simp, by simp, rfl, rfl, rfl, rfl, rfl, rfl, rfl, rfl, rfl⟩))

theorem emit_keeps {zz : State} (o : Out) {s : State} (hz : Keeps zz s) :
    Keeps zz (emit o s) := by
  unfold emit
  repeat (with_reducible first
    | assumption | (intro _; exact ⟨rfl, rfl, rfl⟩) | (intro _; exact ⟨rfl, rfl, rfl, rfl⟩) | (intro _)
    | apply keeps_ite | split
    | (rename_i hq; replace hq := congrArg Prod.snd hq; dsimp only at hq; rw [← hq]; clear hq)
    | (apply keeps_put; exact ⟨rfl, by simp, by simp, rfl, rfl, rfl, rfl, rfl, rfl, rfl, rfl, rfl⟩))

theorem setReg_keeps {zz : State} (k : Nat) (v : Word) {s : State} (hz : Keeps zz s) :
    Keeps zz (setReg k v s) := by
  unfold setReg
  repeat (with_reducible first
    | assumption | (intro _; exact ⟨rfl, rfl, rfl⟩) | (intro _; exact ⟨rfl, rfl, rfl, rfl⟩) | (intro _)
    | apply keeps_ite | split
    | (rename_i hq; replace hq := congrArg Prod.snd hq; dsimp only at hq; rw [← hq]; clear hq)
    | (apply keeps_put; exact ⟨rfl, by simp, by simp, rfl, rfl, rfl, rfl, rfl, rfl, rfl, rfl, rfl⟩))

theorem orReg_keeps {zz : State} (k : Nat) (v : Word) {s : State} (hz : Keeps zz s) :
    Keeps zz (orReg k v s) := by
  unfold orReg
  repeat (with_reducible first
    | assumption | apply setReg_keeps)

theorem incReg_keeps {zz : State} (k : Nat) {s : State} (hz : Keeps zz s) :
    Keeps zz (incReg k s) := by
  unfold incReg
  repeat (with_reducible first
    | assumption | apply setReg_keeps | apply keeps_ite)

theorem leaveIdle_keeps {zz : State} {s : State} (hz : Keeps zz s) :
    Keeps zz (leaveIdle s) := by
  unfold leaveIdle
  repeat (with_reducible first
    | assumption | (intro _; exact ⟨rfl, rfl, rfl⟩) | (intro _; exact ⟨rfl, rfl, rfl, rfl⟩) | (intro _)
    | apply keeps_ite | split
    | (rename_i hq; replace hq := congrArg Prod.snd hq; dsimp only at hq; rw [← hq]; clear hq)
    | (apply keeps_put; exact ⟨rfl, by simp, by simp, rfl, rfl, rfl, rfl, rfl, rfl, rfl, rfl, rfl⟩))

theorem setCore_keeps {zz : State} (c : Nat) (v : Core) {s : State} (hz : Keeps zz s) :
    Keeps zz (setCore c v s) := by
  unfold setCore
  repeat (with_reducible first
    | assumption | (intro _; exact ⟨rfl, rfl, rfl⟩) | (intro _; exact ⟨rfl, rfl, rfl, rfl⟩) | (intro _)
    | apply keeps_ite | split
    | (rename_i hq; replace hq := congrArg Prod.snd hq; dsimp only at hq; rw [← hq]; clear hq)
    | (apply keeps_put; exact ⟨rfl, by simp, by simp, rfl, rfl, rfl, rfl, rfl, rfl, rfl, rfl, rfl⟩))

theorem updCore_keeps {zz : State} (c : Nat) (f : Core → Core) {s : State} (hz : Keeps zz s) :
    Keeps zz (updCore c f s) := by
  unfold updCore
  repeat (with_reducible first
    | assumption | apply setCore_keeps)

theorem updCores_keeps {zz : State} (f : Core → Core) {s : State} (hz : Keeps zz s) :
    Keeps zz (updCores f s) := by
  unfold updCores
  repeat (with_reducible first
    | assumption | apply updCore_keeps | (apply keeps_foldl; intro _ _ _))

theorem updSite_keeps {zz : State} (t : Nat) (f : Site → Site) {s : State} (hz : Keeps zz s) :
    Keeps zz (updSite t f s) := by
  unfold updSite
  repeat (with_reducible first
    | assumption | (intro _; exact ⟨rfl, rfl, rfl⟩) | (intro _; exact ⟨rfl, rfl, rfl, rfl⟩) | (intro _)
    | apply keeps_ite | split
    | (rename_i hq; replace hq := congrArg Prod.snd hq; dsimp only at hq; rw [← hq]; clear hq)
    | (apply keeps_put; exact ⟨rfl, by simp, by simp, rfl, rfl, rfl, rfl, rfl, rfl, rfl, rfl, rfl⟩))

theorem updPart_keeps {zz : State} (n : Nat) (f : Part → Part) {s : State} (hz : Keeps zz s) :
    Keeps zz (updPart n f s) := by
  unfold updPart
  repeat (with_reducible first
    | assumption | (intro _; exact ⟨rfl, rfl, rfl⟩) | (intro _; exact ⟨rfl, rfl, rfl, rfl⟩) | (intro _)
    | apply keeps_ite | split
    | (rename_i hq; replace hq := congrArg Prod.snd hq; dsimp only at hq; rw [← hq]; clear hq)
    | (apply keeps_put; exact ⟨rfl, by simp, by simp, rfl, rfl, rfl, rfl, rfl, rfl, rfl, rfl, rfl⟩))

theorem updStep_keeps {zz : State} (n : Nat) (f : Step → Step) {s : State} (hz : Keeps zz s) :
    Keeps zz (updStep n f s) := by
  unfold updStep
  repeat (with_reducible first
    | assumption | apply updPart_keeps)

theorem updDesc_keeps {zz : State} (id : Nat) (f : Desc → Desc) {s : State} (hz : Keeps zz s) :
    Keeps zz (updDesc id f s) := by
  unfold updDesc
  repeat (with_reducible first
    | assumption | (intro _; exact ⟨rfl, rfl, rfl⟩) | (intro _; exact ⟨rfl, rfl, rfl, rfl⟩) | (intro _)
    | apply keeps_ite | split
    | (rename_i hq; replace hq := congrArg Prod.snd hq; dsimp only at hq; rw [← hq]; clear hq)
    | (apply keeps_put; exact ⟨rfl, by simp, by simp, rfl, rfl, rfl, rfl, rfl, rfl, rfl, rfl, rfl⟩))

theorem finishDesc_keeps {zz : State} (id : Nat) (st : Status) {s : State} (hz : Keeps zz s) :
    Keeps zz (finishDesc id st s) := by
  unfold finishDesc
  repeat (with_reducible first
    | assumption | apply updDesc_keeps)

theorem refuseDesc_keeps {zz : State} (id : Nat) (st : Status) {s : State} (hz : Keeps zz s) :
    Keeps zz (refuseDesc id st s) := by
  unfold refuseDesc
  repeat (with_reducible first
    | assumption | apply updDesc_keeps)

theorem noteDesc_keeps {zz : State} (id : Nat) (c : Status) {s : State} (hz : Keeps zz s) :
    Keeps zz (noteDesc id c s) := by
  unfold noteDesc
  repeat (with_reducible first
    | assumption | apply updDesc_keeps)

theorem setPhase_keeps {zz : State} (id : Nat) (ph : DescPhase) {s : State} (hz : Keeps zz s) :
    Keeps zz (setPhase id ph s) := by
  unfold setPhase
  repeat (with_reducible first
    | assumption | apply updDesc_keeps)

theorem acceptThen_keeps {zz : State} (d : Desc) (start : Desc → State → State) {s : State} (h_start : ∀ (v0 : Desc) (v1 : State), Keeps zz v1 → Keeps zz (start v0 v1)) (hz : Keeps zz s) :
    Keeps zz (acceptThen d start s) := by
  unfold acceptThen
  repeat (with_reducible first
    | assumption | apply h_start | apply setPhase_keeps | apply keeps_ite)

theorem barAccess_keeps {zz : State} {s : State} (hz : Keeps zz s) :
    Keeps zz (barAccess s) := by
  unfold barAccess
  repeat (with_reducible first
    | assumption | (intro _; exact ⟨rfl, rfl, rfl⟩) | (intro _; exact ⟨rfl, rfl, rfl, rfl⟩) | (intro _)
    | apply keeps_ite | split
    | (rename_i hq; replace hq := congrArg Prod.snd hq; dsimp only at hq; rw [← hq]; clear hq)
    | (apply keeps_put; exact ⟨rfl, by simp, by simp, rfl, rfl, rfl, rfl, rfl, rfl, rfl, rfl, rfl⟩))

theorem hostPost_keeps {zz : State} (fn : Nat) (go : State → State) {s : State} (h_go : ∀ (v0 : State), Keeps zz v0 → Keeps zz (go v0)) (hz : Keeps zz s) :
    Keeps zz (hostPost fn go s) := by
  unfold hostPost
  repeat (with_reducible first
    | assumption | (intro _; exact ⟨rfl, rfl, rfl⟩) | (intro _; exact ⟨rfl, rfl, rfl, rfl⟩) | (intro _) | apply h_go
    | apply barAccess_keeps | apply emit_keeps | apply keeps_ite | split
    | (rename_i hq; replace hq := congrArg Prod.snd hq; dsimp only at hq; rw [← hq]; clear hq))

theorem signalVector_keeps {zz : State} (fn v : Nat) {s : State} (hz : Keeps zz s) :
    Keeps zz (signalVector fn v s) := by
  unfold signalVector
  repeat (with_reducible first
    | assumption | (intro _; exact ⟨rfl, rfl, rfl⟩) | (intro _; exact ⟨rfl, rfl, rfl, rfl⟩) | (intro _)
    | (extract_lets +onlyGivenNames w; refine keeps_cut zz w ?_ ?_; (unfold w; clear w); rotate_left; intro _; clear_value w; revert w; intro _ _)
    | (extract_lets +onlyGivenNames w; refine (fun (_ : MemSys) => ?_) w; revert w; intro _)
    | (extract_lets +onlyGivenNames w; refine (fun (_ : Ferry) => ?_) w; revert w; intro _)
    | (extract_lets +onlyGivenNames w; refine (fun (_ : Sec) => ?_) w; revert w; intro _)
    | (extract_lets +onlyGivenNames w; refine keeps_cut_snd zz w ?_ ?_; (unfold w; clear w); rotate_left; intro _; clear_value w; revert w; intro _ _)
    | (extract_lets +onlyGivenNames w; refine keeps_cut_fst zz w ?_ ?_; (unfold w; clear w); rotate_left; intro _; clear_value w; revert w; intro _ _)
    | (extract_lets +onlyGivenNames w; refine keeps_cut_thd zz w ?_ ?_; (unfold w; clear w); rotate_left; intro _; clear_value w; revert w; intro _ _)
    | (extract_lets +onlyGivenNames w; refine (fun (_ : _ → _) => ?_) w; unfold w; clear w)
    | (extract_lets +onlyGivenNames w; clear_value w; revert w; intro _) | apply control_keeps | apply emit_keeps
    | apply keeps_ite | split
    | (rename_i hq; replace hq := congrArg Prod.snd hq; dsimp only at hq; rw [← hq]; clear hq)
    | (apply keeps_put; exact ⟨rfl, by simp, by simp, rfl, rfl, rfl, rfl, rfl, rfl, rfl, rfl, rfl⟩))

theorem notice_keeps {zz : State} (fn bit : Nat) {s : State} (hz : Keeps zz s) :
    Keeps zz (notice fn bit s) := by
  unfold notice
  repeat (with_reducible first
    | assumption | apply orReg_keeps | apply signalVector_keeps | apply keeps_ite)

theorem noticeRing_keeps {zz : State} (fn bit ring : Nat) {s : State} (hz : Keeps zz s) :
    Keeps zz (noticeRing fn bit ring s) := by
  unfold noticeRing
  repeat (with_reducible first
    | assumption | apply notice_keeps | apply setReg_keeps)

theorem postEvent_keeps {zz : State} (e : Ev) {s : State} (h : Keeps zz s) : Keeps zz (postEvent e s) :=
  h.trans ⟨rfl, List.suffix_refl _, Nat.le_refl _, rfl, rfl, rfl, rfl, rfl,
    fun i => ⟨i.memory, by simp [postEvent] <;> omega, i.limitLow, i.limitHigh⟩⟩

theorem queueRepair_keeps {zz : State} (cls what : Nat) {s : State} (hz : Keeps zz s) :
    Keeps zz (queueRepair cls what s) := by
  unfold queueRepair
  repeat (with_reducible first
    | assumption | (intro _; exact ⟨rfl, rfl, rfl⟩) | (intro _; exact ⟨rfl, rfl, rfl, rfl⟩) | (intro _)
    | apply keeps_ite | split
    | (rename_i hq; replace hq := congrArg Prod.snd hq; dsimp only at hq; rw [← hq]; clear hq)
    | (apply keeps_put; exact ⟨rfl, by simp, by simp, rfl, rfl, rfl, rfl, rfl, rfl, rfl, rfl, rfl⟩))

theorem raiseCause_keeps {zz : State} (n bit : Nat) {s : State} (hz : Keeps zz s) :
    Keeps zz (raiseCause n bit s) := by
  unfold raiseCause
  repeat (with_reducible first
    | assumption | apply updStep_keeps)

theorem raiseEnd_keeps {zz : State} (n : Nat) (code : Status) {s : State} (hz : Keeps zz s) :
    Keeps zz (raiseEnd n code s) := by
  unfold raiseEnd
  repeat (with_reducible first
    | assumption | apply updStep_keeps)

theorem noteStep_keeps {zz : State} (n : Nat) (c : Status) {s : State} (hz : Keeps zz s) :
    Keeps zz (noteStep n c s) := by
  unfold noteStep
  repeat (with_reducible first
    | assumption | apply updStep_keeps)

theorem countEvent_keeps {zz : State} (n : Nat) {s : State} (hz : Keeps zz s) :
    Keeps zz (countEvent n s) := by
  unfold countEvent
  repeat (with_reducible first
    | assumption | apply updPart_keeps | apply setReg_keeps)

theorem noteCore_keeps {zz : State} (c : Nat) (code : Status) {s : State} (hz : Keeps zz s) :
    Keeps zz (noteCore c code s) := by
  unfold noteCore
  repeat (with_reducible first
    | assumption | apply updCore_keeps | apply noteStep_keeps)

end Sys2Proof.Machine
end

