-- ==== Sys2Proof/Laws/KeepsMemory.lean ====
section
/-!
SUPPORT. What the operations of Machine/Memory.lean keep (Laws/Keeps.lean).
-/
set_option linter.all false
namespace Sys2Proof.Machine

theorem updStack_keeps {zz : State} (k : Nat) (f : Stack → Stack) {s : State} (hz : Keeps zz s) :
    Keeps zz (updStack k f s) := by
  unfold updStack
  repeat (with_reducible first
    | assumption | (intro _; exact ⟨rfl, rfl, rfl⟩) | (intro _; exact ⟨rfl, rfl, rfl, rfl⟩) | (intro _)
    | apply keeps_ite | split
    | (rename_i hq; replace hq := congrArg Prod.snd hq; dsimp only at hq; rw [← hq]; clear hq)
    | (apply keeps_put; exact ⟨rfl, by simp, by simp, rfl, rfl, rfl, rfl, rfl, rfl, rfl, rfl, rfl⟩))

theorem setLine_keeps {zz : State} (ln : Nat) (l : Option Line) {s : State} (hz : Keeps zz s) :
    Keeps zz (setLine ln l s) := by
  unfold setLine
  repeat (with_reducible first
    | assumption | (intro _; exact ⟨rfl, rfl, rfl⟩) | (intro _; exact ⟨rfl, rfl, rfl, rfl⟩) | (intro _)
    | apply keeps_ite | split
    | (rename_i hq; replace hq := congrArg Prod.snd hq; dsimp only at hq; rw [← hq]; clear hq)
    | (apply keeps_put; exact ⟨rfl, by simp, by simp, rfl, rfl, rfl, rfl, rfl, rfl, rfl, rfl, rfl⟩))

/-- A write of HBM keeps its canonical form. -/
theorem hbmPut_wf (m : MemSys) (a : Nat) (d : Bytes) (h : Memory.wf m) : Memory.wf (hbmPut m a d) := by
  induction d generalizing m a with
  | nil => exact h
  | cons b t ih =>
    refine ih _ _ ⟨Tbl.rising_set _ a b h.1, fun e he => ?_⟩
    show e.2 ≠ hbmDflt m e.1
    rcases Tbl.mem_set he with ⟨rfl, hb⟩ | ⟨he, _⟩
    · exact hb
    · exact h.2 e he

theorem hbmWr_keeps {zz : State} (b : Nat) (d : Bytes) {s : State} (h : Keeps zz s) : Keeps zz (hbmWr b d s) :=
  h.trans ⟨rfl, List.suffix_refl _, Nat.le_refl _, rfl, rfl, rfl, rfl, rfl,
    fun i => ⟨hbmPut_wf _ _ _ i.memory, i.store, i.limitLow, i.limitHigh⟩⟩

/-- An address outside a range keeps what it holds unlisted when that range becomes unspecified. -/
theorem hbmDflt_spoil (m : MemSys) (a len base e : Nat) (h : ¬(a ≤ e ∧ e < a + len)) (l : Tbl Byte) :
    hbmDflt { m with hbm := l, fresh := (a, len, base) :: m.fresh.filter fun r =>
      !(decide (a ≤ r.1) && decide (r.1 + r.2.1 ≤ a + len)) } e = hbmDflt m e := by
  unfold hbmDflt
  have key : ∀ f : List (Nat × Nat × Nat),
      (f.filter fun r => !(decide (a ≤ r.1) && decide (r.1 + r.2.1 ≤ a + len))).find?
        (fun r => decide (r.1 ≤ e) && decide (e < r.1 + r.2.1)) =
      f.find? (fun r => decide (r.1 ≤ e) && decide (e < r.1 + r.2.1)) := by
    intro f
    induction f with
    | nil => rfl
    | cons r f ih =>
      by_cases hr : a ≤ r.1 ∧ r.1 + r.2.1 ≤ a + len
      · have hn : (decide (r.1 ≤ e) && decide (e < r.1 + r.2.1)) = false := by
          simp only [Bool.and_eq_false_iff, decide_eq_false_iff_not]; omega
        rw [List.filter_cons_of_neg (by simpa using hr), ih, List.find?_cons, hn]
      · rw [List.filter_cons_of_pos (by simp; omega), List.find?_cons, List.find?_cons, ih]
  simp only [List.find?_cons, key]
  have : (decide (a ≤ e) && decide (e < a + len)) = false := by simpa using h
  simp [this]

theorem spoil_keeps {zz : State} (b len : Nat) {s : State} (h : Keeps zz s) : Keeps zz (spoil b len s) := by
  unfold spoil
  extract_lets meets t inside
  have ht : Keeps zz t := by
    apply keeps_foldl _ h
    intro s e k
    split
    · exact setLine_keeps _ _ (keeps_ite (hbmWr_keeps _ _ k) k)
    · exact k
  refine ht.trans ⟨rfl, List.suffix_refl _, Nat.le_add_right _ _, rfl, rfl, rfl, rfl, rfl,
    fun i => ⟨⟨Tbl.rising_filter _ i.memory.1, fun e he => ?_⟩, i.store, i.limitLow, i.limitHigh⟩⟩
  have he := List.mem_filter.mp he
  rw [hbmDflt_spoil]
  · exact i.memory.2 e he.1
  · have h2 := he.2
    simp only [Bool.not_eq_true', Bool.and_eq_false_iff, decide_eq_false_iff_not] at h2
    omega

theorem charge_keeps {zz : State} (st n g units : Nat) {s : State} (hz : Keeps zz s) :
    Keeps zz (charge st n g units s) := by
  unfold charge
  repeat (with_reducible first
    | assumption | apply updStack_keeps | apply keeps_ite)

theorem writeBack_keeps {zz : State} (ln : Nat) (l : Line) (g : Nat) {s : State} (hz : Keeps zz s) :
    Keeps zz (writeBack ln l g s) := by
  unfold writeBack
  repeat (with_reducible first
    | assumption | (intro _; exact ⟨rfl, rfl, rfl⟩) | (intro _; exact ⟨rfl, rfl, rfl, rfl⟩) | (intro _)
    | (extract_lets +onlyGivenNames w; refine keeps_cut zz w ?_ ?_; (unfold w; clear w); rotate_left; intro _; clear_value w; revert w; intro _ _)
    | (extract_lets +onlyGivenNames w; refine (fun (_ : MemSys) => ?_) w; revert w; intro _)
    | (extract_lets +onlyGivenNames w; refine (fun (_ : Ferry) => ?_) w; revert w; intro _)
    | (extract_lets +onlyGivenNames w; refine (fun (_ : Sec) => ?_) w; revert w; intro _)
    | (extract_lets +onlyGivenNames w; refine keeps_cut_snd zz w ?_ ?_; (unfold w; clear w); rotate_left; intro _; clear_value w; revert w; intro _ _)
    | (extract_lets +onlyGivenNames w; refine keeps_cut_fst zz w ?_ ?_; (unfold w; clear w); rotate_left; intro _; clear_value w; revert w; intro _ _)
    | (extract_lets +onlyGivenNames w; refine keeps_cut_thd zz w ?_ ?_; (unfold w; clear w); rotate_left; intro _; clear_value w; revert w; intro _ _)
    | (extract_lets +onlyGivenNames w; refine (fun (_ : _ → _) => ?_) w; unfold w; clear w)
    | (extract_lets +onlyGivenNames w; clear_value w; revert w; intro _) | apply setLine_keeps | apply charge_keeps
    | apply hbmWr_keeps | apply keeps_ite | split
    | (rename_i hq; replace hq := congrArg Prod.snd hq; dsimp only at hq; rw [← hq]; clear hq))

theorem nextTick_keeps {zz : State} {s : State} (hz : Keeps zz s) :
    Keeps zz (nextTick s).2 := by
  unfold nextTick
  repeat (with_reducible first
    | assumption | (intro _; exact ⟨rfl, rfl, rfl⟩) | (intro _; exact ⟨rfl, rfl, rfl, rfl⟩) | (intro _)
    | apply keeps_ite | split
    | (rename_i hq; replace hq := congrArg Prod.snd hq; dsimp only at hq; rw [← hq]; clear hq)
    | (apply keeps_put; exact ⟨rfl, by simp, by simp, rfl, rfl, rfl, rfl, rfl, rfl, rfl, rfl, rfl⟩))

theorem allocLine_keeps {zz : State} (ln : Nat) (data : Bytes) (dirty keep : Bool) (g : Nat) {s : State} (h : Keeps zz s) :
    Keeps zz (allocLine ln data dirty keep g s) := by
  unfold allocLine
  extract_lets all w allowed keeps free pick t
  have ht : Keeps zz t.2 := nextTick_keeps h
  clear_value pick free t
  cases pick with
  | some e => exact setLine_keeps _ _ (writeBack_keeps _ _ _ ht)
  | none =>
    cases free with
    | some k => exact setLine_keeps _ _ ht
    | none => exact keeps_ite (hbmWr_keeps _ _ ht) ht

theorem touchLine_keeps {zz : State} (ln : Nat) (l : Line) (keep : Bool) {s : State} (hz : Keeps zz s) :
    Keeps zz (touchLine ln l keep s) := by
  unfold touchLine
  repeat (with_reducible first
    | assumption | apply nextTick_keeps | apply setLine_keeps)

theorem lineRead_keeps {zz : State} (n g hint a len : Nat) {s : State} (hz : Keeps zz s) :
    Keeps zz (lineRead n g hint a len s).2 := by
  unfold lineRead
  repeat (with_reducible first
    | assumption | (intro _; exact ⟨rfl, rfl, rfl⟩) | (intro _; exact ⟨rfl, rfl, rfl, rfl⟩) | (intro _)
    | (extract_lets +onlyGivenNames w; refine keeps_cut zz w ?_ ?_; (unfold w; clear w); rotate_left; intro _; clear_value w; revert w; intro _ _)
    | (extract_lets +onlyGivenNames w; refine (fun (_ : MemSys) => ?_) w; revert w; intro _)
    | (extract_lets +onlyGivenNames w; refine (fun (_ : Ferry) => ?_) w; revert w; intro _)
    | (extract_lets +onlyGivenNames w; refine (fun (_ : Sec) => ?_) w; revert w; intro _)
    | (extract_lets +onlyGivenNames w; refine keeps_cut_snd zz w ?_ ?_; (unfold w; clear w); rotate_left; intro _; clear_value w; revert w; intro _ _)
    | (extract_lets +onlyGivenNames w; refine keeps_cut_fst zz w ?_ ?_; (unfold w; clear w); rotate_left; intro _; clear_value w; revert w; intro _ _)
    | (extract_lets +onlyGivenNames w; refine keeps_cut_thd zz w ?_ ?_; (unfold w; clear w); rotate_left; intro _; clear_value w; revert w; intro _ _)
    | (extract_lets +onlyGivenNames w; refine (fun (_ : _ → _) => ?_) w; unfold w; clear w)
    | (extract_lets +onlyGivenNames w; clear_value w; revert w; intro _) | apply setLine_keeps | apply touchLine_keeps
    | apply charge_keeps | apply allocLine_keeps | apply keeps_ite | split
    | (rename_i hq; replace hq := congrArg Prod.snd hq; dsimp only at hq; rw [← hq]; clear hq))

theorem lineWrite_keeps {zz : State} (n g hint a : Nat) (d : Bytes) {s : State} (hz : Keeps zz s) :
    Keeps zz (lineWrite n g hint a d s) := by
  unfold lineWrite
  repeat (with_reducible first
    | assumption | (intro _; exact ⟨rfl, rfl, rfl⟩) | (intro _; exact ⟨rfl, rfl, rfl, rfl⟩) | (intro _)
    | (extract_lets +onlyGivenNames w; refine keeps_cut zz w ?_ ?_; (unfold w; clear w); rotate_left; intro _; clear_value w; revert w; intro _ _)
    | (extract_lets +onlyGivenNames w; refine (fun (_ : MemSys) => ?_) w; revert w; intro _)
    | (extract_lets +onlyGivenNames w; refine (fun (_ : Ferry) => ?_) w; revert w; intro _)
    | (extract_lets +onlyGivenNames w; refine (fun (_ : Sec) => ?_) w; revert w; intro _)
    | (extract_lets +onlyGivenNames w; refine keeps_cut_snd zz w ?_ ?_; (unfold w; clear w); rotate_left; intro _; clear_value w; revert w; intro _ _)
    | (extract_lets +onlyGivenNames w; refine keeps_cut_fst zz w ?_ ?_; (unfold w; clear w); rotate_left; intro _; clear_value w; revert w; intro _ _)
    | (extract_lets +onlyGivenNames w; refine keeps_cut_thd zz w ?_ ?_; (unfold w; clear w); rotate_left; intro _; clear_value w; revert w; intro _ _)
    | (extract_lets +onlyGivenNames w; refine (fun (_ : _ → _) => ?_) w; unfold w; clear w)
    | (extract_lets +onlyGivenNames w; clear_value w; revert w; intro _) | apply setLine_keeps | apply touchLine_keeps
    | apply charge_keeps | apply hbmWr_keeps | apply allocLine_keeps | apply keeps_ite | split
    | (rename_i hq; replace hq := congrArg Prod.snd hq; dsimp only at hq; rw [← hq]; clear hq))

theorem memReadPieces_keeps {zz : State} (n g hint : Nat) (l : List (Nat × Bytes)) {s : State} (h : Keeps zz s) :
    Keeps zz (memReadPieces n g hint l s).2 := by
  induction l generalizing s with
  | nil => exact h
  | cons p t ih => exact ih (lineRead_keeps _ _ _ _ _ h)

theorem sliceGet_keeps {zz : State} (n g hint a len : Nat) {s : State} (hz : Keeps zz s) :
    Keeps zz (sliceGet n g hint a len s).2 := by
  unfold sliceGet
  repeat (with_reducible first
    | assumption | (intro _; exact ⟨rfl, rfl, rfl⟩) | (intro _; exact ⟨rfl, rfl, rfl, rfl⟩) | (intro _)
    | apply memReadPieces_keeps | apply keeps_ite | split
    | (rename_i hq; replace hq := congrArg Prod.snd hq; dsimp only at hq; rw [← hq]; clear hq)
    | (apply keeps_put; exact ⟨rfl, by simp, by simp, rfl, rfl, rfl, rfl, rfl, rfl, rfl, rfl, rfl⟩))

theorem slicePut_keeps {zz : State} (n g hint a : Nat) (d : Bytes) {s : State} (hz : Keeps zz s) :
    Keeps zz (slicePut n g hint a d s) := by
  unfold slicePut
  repeat (with_reducible first
    | assumption | (intro _; exact ⟨rfl, rfl, rfl⟩) | (intro _; exact ⟨rfl, rfl, rfl, rfl⟩) | (intro _)
    | apply lineWrite_keeps | apply keeps_ite | (apply keeps_foldl; intro _ _ _)
    | (apply keeps_foldl_snd; intro _ _ _) | (apply keeps_foldl_fst; intro _ _ _) | split
    | (rename_i hq; replace hq := congrArg Prod.snd hq; dsimp only at hq; rw [← hq]; clear hq)
    | (apply keeps_put; exact ⟨rfl, by simp, by simp, rfl, rfl, rfl, rfl, rfl, rfl, rfl, rfl, rfl⟩))

theorem sliceAdd_keeps {zz : State} (n g hint : Nat) (fp : Bool) (a : Nat) (d : Bytes) {s : State} (hz : Keeps zz s) :
    Keeps zz (sliceAdd n g hint fp a d s) := by
  unfold sliceAdd
  repeat (with_reducible first
    | assumption | (intro _; exact ⟨rfl, rfl, rfl⟩) | (intro _; exact ⟨rfl, rfl, rfl, rfl⟩) | (intro _)
    | (extract_lets +onlyGivenNames w; refine keeps_cut zz w ?_ ?_; (unfold w; clear w); rotate_left; intro _; clear_value w; revert w; intro _ _)
    | (extract_lets +onlyGivenNames w; refine (fun (_ : MemSys) => ?_) w; revert w; intro _)
    | (extract_lets +onlyGivenNames w; refine (fun (_ : Ferry) => ?_) w; revert w; intro _)
    | (extract_lets +onlyGivenNames w; refine (fun (_ : Sec) => ?_) w; revert w; intro _)
    | (extract_lets +onlyGivenNames w; refine keeps_cut_snd zz w ?_ ?_; (unfold w; clear w); rotate_left; intro _; clear_value w; revert w; intro _ _)
    | (extract_lets +onlyGivenNames w; refine keeps_cut_fst zz w ?_ ?_; (unfold w; clear w); rotate_left; intro _; clear_value w; revert w; intro _ _)
    | (extract_lets +onlyGivenNames w; refine keeps_cut_thd zz w ?_ ?_; (unfold w; clear w); rotate_left; intro _; clear_value w; revert w; intro _ _)
    | (extract_lets +onlyGivenNames w; refine (fun (_ : _ → _) => ?_) w; unfold w; clear w)
    | (extract_lets +onlyGivenNames w; clear_value w; revert w; intro _) | apply sliceGet_keeps | apply slicePut_keeps
    | apply keeps_ite | split
    | (rename_i hq; replace hq := congrArg Prod.snd hq; dsimp only at hq; rw [← hq]; clear hq)
    | (apply keeps_put; exact ⟨rfl, by simp, by simp, rfl, rfl, rfl, rfl, rfl, rfl, rfl, rfl, rfl⟩))

theorem memEvent_keeps {zz : State} (bit st : Nat) {s : State} (hz : Keeps zz s) :
    Keeps zz (memEvent bit st s) := by
  unfold memEvent
  repeat (with_reducible first
    | assumption | apply setReg_keeps)

theorem incStack_keeps {zz : State} (which st : Nat) {s : State} (hz : Keeps zz s) :
    Keeps zz (incStack which st s) := by
  unfold incStack
  repeat (with_reducible first
    | assumption | apply incReg_keeps)

theorem retirePending_keeps {zz : State} (st : Nat) {s : State} (hz : Keeps zz s) :
    Keeps zz (retirePending st s) := by
  unfold retirePending
  repeat (with_reducible first
    | assumption | apply postEvent_keeps | apply memEvent_keeps | apply updStack_keeps | apply keeps_ite)

theorem repairRow_keeps {zz : State} (st off : Nat) {s : State} (hz : Keeps zz s) :
    Keeps zz (repairRow st off s) := by
  unfold repairRow
  repeat (with_reducible first
    | assumption | apply postEvent_keeps | apply queueRepair_keeps | apply memEvent_keeps | apply updStack_keeps
    | apply retirePending_keeps | apply keeps_ite)

theorem correctedRead_keeps {zz : State} (a : Nat) {s : State} (hz : Keeps zz s) :
    Keeps zz (correctedRead a s) := by
  unfold correctedRead
  repeat (with_reducible first
    | assumption | apply memEvent_keeps | apply incStack_keeps | apply updStack_keeps | apply repairRow_keeps
    | apply keeps_ite)

theorem damageImage_keeps {zz : State} {s : State} (hz : Keeps zz s) :
    Keeps zz (damageImage s) := by
  unfold damageImage
  repeat (with_reducible first
    | assumption | (intro _; exact ⟨rfl, rfl, rfl⟩) | (intro _; exact ⟨rfl, rfl, rfl, rfl⟩) | (intro _)
    | (extract_lets +onlyGivenNames w; refine keeps_cut zz w ?_ ?_; (unfold w; clear w); rotate_left; intro _; clear_value w; revert w; intro _ _)
    | (extract_lets +onlyGivenNames w; refine (fun (_ : MemSys) => ?_) w; revert w; intro _)
    | (extract_lets +onlyGivenNames w; refine (fun (_ : Ferry) => ?_) w; revert w; intro _)
    | (extract_lets +onlyGivenNames w; refine (fun (_ : Sec) => ?_) w; revert w; intro _)
    | (extract_lets +onlyGivenNames w; refine keeps_cut_snd zz w ?_ ?_; (unfold w; clear w); rotate_left; intro _; clear_value w; revert w; intro _ _)
    | (extract_lets +onlyGivenNames w; refine keeps_cut_fst zz w ?_ ?_; (unfold w; clear w); rotate_left; intro _; clear_value w; revert w; intro _ _)
    | (extract_lets +onlyGivenNames w; refine keeps_cut_thd zz w ?_ ?_; (unfold w; clear w); rotate_left; intro _; clear_value w; revert w; intro _ _)
    | (extract_lets +onlyGivenNames w; refine (fun (_ : _ → _) => ?_) w; unfold w; clear w)
    | (extract_lets +onlyGivenNames w; clear_value w; revert w; intro _) | apply drawBits_keeps | apply keeps_ite
    | split | (rename_i hq; replace hq := congrArg Prod.snd hq; dsimp only at hq; rw [← hq]; clear hq)
    | (apply keeps_put; exact ⟨rfl, by simp, by simp, rfl, rfl, rfl, rfl, rfl, rfl, rfl, rfl, rfl⟩))

theorem lostLine_keeps {zz : State} (a : Nat) {s : State} (hz : Keeps zz s) :
    Keeps zz (lostLine a s) := by
  unfold lostLine
  repeat (with_reducible first
    | assumption
    | (extract_lets +onlyGivenNames w; refine keeps_cut zz w ?_ ?_; (unfold w; clear w); rotate_left; intro _; clear_value w; revert w; intro _ _)
    | (extract_lets +onlyGivenNames w; clear_value w; revert w; intro _) | apply memEvent_keeps | apply incStack_keeps
    | apply updStack_keeps | apply retirePending_keeps | apply repairRow_keeps | apply postEvent_keeps
    | apply damageImage_keeps | apply spoil_keeps | apply updStep_keeps | apply raiseCause_keeps | split
    | (apply keeps_put; exact ⟨rfl, by simp, by simp, rfl, rfl, rfl, rfl, rfl, rfl, rfl, rfl, rfl⟩))

theorem noteCover_keeps {zz : State} (n g a : Nat) (c : Status) {s : State} (hz : Keeps zz s) :
    Keeps zz (noteCover n g a c s) := by
  unfold noteCover
  repeat (with_reducible first
    | assumption | (intro _; exact ⟨rfl, rfl, rfl⟩) | (intro _; exact ⟨rfl, rfl, rfl, rfl⟩) | (intro _)
    | (extract_lets +onlyGivenNames w; refine keeps_cut zz w ?_ ?_; (unfold w; clear w); rotate_left; intro _; clear_value w; revert w; intro _ _)
    | (extract_lets +onlyGivenNames w; refine (fun (_ : MemSys) => ?_) w; revert w; intro _)
    | (extract_lets +onlyGivenNames w; refine (fun (_ : Ferry) => ?_) w; revert w; intro _)
    | (extract_lets +onlyGivenNames w; refine (fun (_ : Sec) => ?_) w; revert w; intro _)
    | (extract_lets +onlyGivenNames w; refine keeps_cut_snd zz w ?_ ?_; (unfold w; clear w); rotate_left; intro _; clear_value w; revert w; intro _ _)
    | (extract_lets +onlyGivenNames w; refine keeps_cut_fst zz w ?_ ?_; (unfold w; clear w); rotate_left; intro _; clear_value w; revert w; intro _ _)
    | (extract_lets +onlyGivenNames w; refine keeps_cut_thd zz w ?_ ?_; (unfold w; clear w); rotate_left; intro _; clear_value w; revert w; intro _ _)
    | (extract_lets +onlyGivenNames w; refine (fun (_ : _ → _) => ?_) w; unfold w; clear w)
    | (extract_lets +onlyGivenNames w; clear_value w; revert w; intro _) | apply noteDesc_keeps | apply noteStep_keeps
    | apply keeps_ite | (apply keeps_foldl; intro _ _ _) | (apply keeps_foldl_snd; intro _ _ _)
    | (apply keeps_foldl_fst; intro _ _ _) | split
    | (rename_i hq; replace hq := congrArg Prod.snd hq; dsimp only at hq; rw [← hq]; clear hq)
    | (apply keeps_put; exact ⟨rfl, by simp, by simp, rfl, rfl, rfl, rfl, rfl, rfl, rfl, rfl, rfl⟩))

theorem lostRead_keeps {zz : State} (n g a : Nat) {s : State} (hz : Keeps zz s) :
    Keeps zz (lostRead n g a s) := by
  unfold lostRead
  repeat (with_reducible first
    | assumption | (intro _; exact ⟨rfl, rfl, rfl⟩) | (intro _; exact ⟨rfl, rfl, rfl, rfl⟩) | (intro _)
    | (extract_lets +onlyGivenNames w; refine keeps_cut zz w ?_ ?_; (unfold w; clear w); rotate_left; intro _; clear_value w; revert w; intro _ _)
    | (extract_lets +onlyGivenNames w; refine (fun (_ : MemSys) => ?_) w; revert w; intro _)
    | (extract_lets +onlyGivenNames w; refine (fun (_ : Ferry) => ?_) w; revert w; intro _)
    | (extract_lets +onlyGivenNames w; refine (fun (_ : Sec) => ?_) w; revert w; intro _)
    | (extract_lets +onlyGivenNames w; refine keeps_cut_snd zz w ?_ ?_; (unfold w; clear w); rotate_left; intro _; clear_value w; revert w; intro _ _)
    | (extract_lets +onlyGivenNames w; refine keeps_cut_fst zz w ?_ ?_; (unfold w; clear w); rotate_left; intro _; clear_value w; revert w; intro _ _)
    | (extract_lets +onlyGivenNames w; refine keeps_cut_thd zz w ?_ ?_; (unfold w; clear w); rotate_left; intro _; clear_value w; revert w; intro _ _)
    | (extract_lets +onlyGivenNames w; refine (fun (_ : _ → _) => ?_) w; unfold w; clear w)
    | (extract_lets +onlyGivenNames w; clear_value w; revert w; intro _) | apply lostLine_keeps
    | apply noteCover_keeps | apply keeps_ite | split
    | (rename_i hq; replace hq := congrArg Prod.snd hq; dsimp only at hq; rw [← hq]; clear hq)
    | (apply keeps_put; exact ⟨rfl, by simp, by simp, rfl, rfl, rfl, rfl, rfl, rfl, rfl, rfl, rfl⟩))

theorem readError_keeps {zz : State} (n g a : Nat) (e : ReadErr) {s : State} (hz : Keeps zz s) :
    Keeps zz (readError n g a e s) := by
  unfold readError
  repeat (with_reducible first
    | assumption | apply correctedRead_keeps | apply setLine_keeps | apply memEvent_keeps | apply incStack_keeps
    | apply noteCover_keeps | apply charge_keeps | apply lostRead_keeps | split
    | (apply keeps_put; exact ⟨rfl, by simp, by simp, rfl, rfl, rfl, rfl, rfl, rfl, rfl, rfl, rfl⟩))

theorem adderVote_keeps {zz : State} (n g a : Nat) (r : AdderResult) {s : State} (hz : Keeps zz s) :
    Keeps zz (adderVote n g a r s) := by
  unfold adderVote
  repeat (with_reducible first
    | assumption
    | (extract_lets +onlyGivenNames w; refine keeps_cut zz w ?_ ?_; (unfold w; clear w); rotate_left; intro _; clear_value w; revert w; intro _ _)
    | (extract_lets +onlyGivenNames w; clear_value w; revert w; intro _) | apply lostRead_keeps | apply setReg_keeps
    | apply updStack_keeps | apply postEvent_keeps | apply queueRepair_keeps | apply memEvent_keeps | split
    | (apply keeps_put; exact ⟨rfl, by simp, by simp, rfl, rfl, rfl, rfl, rfl, rfl, rfl, rfl, rfl⟩))

theorem memServe_keeps {zz : State} (w : MemWait) {s : State} (hz : Keeps zz s) :
    Keeps zz (memServe w s) := by
  unfold memServe
  repeat (with_reducible first
    | assumption | apply sliceGet_keeps | apply readError_keeps | apply emit_keeps | apply slicePut_keeps
    | apply sliceAdd_keeps | apply adderVote_keeps | apply keeps_ite
    | (apply keeps_put; exact ⟨rfl, by simp, by simp, rfl, rfl, rfl, rfl, rfl, rfl, rfl, rfl, rfl⟩))

theorem serveBefore_keeps {zz : State} (a len : Nat) {s : State} (hz : Keeps zz s) :
    Keeps zz (serveBefore a len s) := by
  unfold serveBefore
  repeat (with_reducible first
    | assumption | (intro _; exact ⟨rfl, rfl, rfl⟩) | (intro _; exact ⟨rfl, rfl, rfl, rfl⟩) | (intro _)
    | (extract_lets +onlyGivenNames w; refine keeps_cut zz w ?_ ?_; (unfold w; clear w); rotate_left; intro _; clear_value w; revert w; intro _ _)
    | (extract_lets +onlyGivenNames w; refine (fun (_ : MemSys) => ?_) w; revert w; intro _)
    | (extract_lets +onlyGivenNames w; refine (fun (_ : Ferry) => ?_) w; revert w; intro _)
    | (extract_lets +onlyGivenNames w; refine (fun (_ : Sec) => ?_) w; revert w; intro _)
    | (extract_lets +onlyGivenNames w; refine keeps_cut_snd zz w ?_ ?_; (unfold w; clear w); rotate_left; intro _; clear_value w; revert w; intro _ _)
    | (extract_lets +onlyGivenNames w; refine keeps_cut_fst zz w ?_ ?_; (unfold w; clear w); rotate_left; intro _; clear_value w; revert w; intro _ _)
    | (extract_lets +onlyGivenNames w; refine keeps_cut_thd zz w ?_ ?_; (unfold w; clear w); rotate_left; intro _; clear_value w; revert w; intro _ _)
    | (extract_lets +onlyGivenNames w; refine (fun (_ : _ → _) => ?_) w; unfold w; clear w)
    | (extract_lets +onlyGivenNames w; clear_value w; revert w; intro _) | apply memServe_keeps | apply keeps_ite
    | (apply keeps_foldl; intro _ _ _) | (apply keeps_foldl_snd; intro _ _ _) | (apply keeps_foldl_fst; intro _ _ _)
    | split | (rename_i hq; replace hq := congrArg Prod.snd hq; dsimp only at hq; rw [← hq]; clear hq)
    | (apply keeps_put; exact ⟨rfl, by simp, by simp, rfl, rfl, rfl, rfl, rfl, rfl, rfl, rfl, rfl⟩))

theorem memGet_keeps {zz : State} (n g hint a len : Nat) {s : State} (hz : Keeps zz s) :
    Keeps zz (memGet n g hint a len s).2 := by
  unfold memGet
  repeat (with_reducible first
    | assumption | apply sliceGet_keeps | apply serveBefore_keeps
    | (apply keeps_put; exact ⟨rfl, by simp, by simp, rfl, rfl, rfl, rfl, rfl, rfl, rfl, rfl, rfl⟩))

theorem memPut_keeps {zz : State} (n g hint a : Nat) (d : Bytes) {s : State} (hz : Keeps zz s) :
    Keeps zz (memPut n g hint a d s) := by
  unfold memPut
  repeat (with_reducible first
    | assumption | apply slicePut_keeps | apply serveBefore_keeps
    | (apply keeps_put; exact ⟨rfl, by simp, by simp, rfl, rfl, rfl, rfl, rfl, rfl, rfl, rfl, rfl⟩))

theorem memAdd_keeps {zz : State} (n g hint : Nat) (fp : Bool) (a : Nat) (d : Bytes) {s : State} (hz : Keeps zz s) :
    Keeps zz (memAdd n g hint fp a d s) := by
  unfold memAdd
  repeat (with_reducible first
    | assumption | apply sliceAdd_keeps | apply serveBefore_keeps
    | (apply keeps_put; exact ⟨rfl, by simp, by simp, rfl, rfl, rfl, rfl, rfl, rfl, rfl, rfl, rfl⟩))

theorem stashReleaseAll_keeps {zz : State} (n : Nat) {s : State} (hz : Keeps zz s) :
    Keeps zz (stashReleaseAll n s) := by
  unfold stashReleaseAll
  repeat (with_reducible first
    | assumption | apply updPart_keeps)

theorem poolFree_keeps {zz : State} (n : Nat) {s : State} (hz : Keeps zz s) :
    Keeps zz (poolFree n s) := by
  unfold poolFree
  repeat (with_reducible first
    | assumption | (intro _; exact ⟨rfl, rfl, rfl⟩) | (intro _; exact ⟨rfl, rfl, rfl, rfl⟩) | (intro _)
    | apply updPart_keeps | apply keeps_ite | split
    | (rename_i hq; replace hq := congrArg Prod.snd hq; dsimp only at hq; rw [← hq]; clear hq)
    | (apply keeps_put; exact ⟨rfl, by simp, by simp, rfl, rfl, rfl, rfl, rfl, rfl, rfl, rfl, rfl⟩))

theorem stashRelease_keeps {zz : State} (n slot : Nat) {s : State} (hz : Keeps zz s) :
    Keeps zz (stashRelease n slot s) := by
  unfold stashRelease
  repeat (with_reducible first
    | assumption | apply updPart_keeps)

theorem stashMark_keeps {zz : State} (n slot entry : Nat) {s : State} (hz : Keeps zz s) :
    Keeps zz (stashMark n slot entry s) := by
  unfold stashMark
  repeat (with_reducible first
    | assumption | apply postEvent_keeps | apply noteStep_keeps | apply updPart_keeps | apply keeps_ite)

theorem stashGranule_keeps {zz : State} (n slot entry idx : Nat) (up : Bool) {s : State} (h : Keeps zz s) :
    Keeps zz (stashGranule n slot entry idx up s) := by
  unfold stashGranule
  extract_lets hst
  split
  · exact h
  split
  · exact updPart_keeps _ _ h
  · split
    · exact postEvent_keeps _ (updPart_keeps _ _ h)
    · exact stashMark_keeps _ _ _ h

theorem stashWrite_keeps {zz : State} (n a : Nat) (up : Bool) {s : State} (hz : Keeps zz s) :
    Keeps zz (stashWrite n a up s).2 := by
  unfold stashWrite
  repeat (with_reducible first
    | assumption
    | (extract_lets +onlyGivenNames w; refine keeps_cut zz w ?_ ?_; (unfold w; clear w); rotate_left; intro _; clear_value w; revert w; intro _ _)
    | (extract_lets +onlyGivenNames w; clear_value w; revert w; intro _) | apply stashRelease_keeps
    | apply stashMark_keeps | apply updPart_keeps | apply stashGranule_keeps | split)

theorem stashPoolFailed_keeps {zz : State} (n slot entry : Nat) {s : State} (hz : Keeps zz s) :
    Keeps zz (stashPoolFailed n slot entry s) := by
  unfold stashPoolFailed
  repeat (with_reducible first
    | assumption | apply stashMark_keeps | apply updPart_keeps)

theorem rpcCount_keeps {zz : State} (n page : Nat) {s : State} (hz : Keeps zz s) :
    Keeps zz (rpcCount n page s).2 := by
  unfold rpcCount
  repeat (with_reducible first
    | assumption
    | (extract_lets +onlyGivenNames w; refine keeps_cut zz w ?_ ?_; (unfold w; clear w); rotate_left; intro _; clear_value w; revert w; intro _ _)
    | (extract_lets +onlyGivenNames w; clear_value w; revert w; intro _) | apply updPart_keeps | split)

theorem rpcServe_keeps {zz : State} (n g hint frame a len : Nat) {s : State} (hz : Keeps zz s) :
    Keeps zz (rpcServe n g hint frame a len s).2 := by
  unfold rpcServe
  repeat (with_reducible first
    | assumption | apply nextTick_keeps | apply updPart_keeps | apply memGet_keeps)

end Sys2Proof.Machine
end

