-- ==== Sys2Proof/Laws/KeepsNetwork.lean ====
section
/-!
SUPPORT. What the operations of Machine/Network.lean keep (Laws/Keeps.lean).
-/
set_option linter.all false
namespace Sys2Proof.Machine

theorem updPort_keeps {zz : State} (p : Nat) (f : Port → Port) {s : State} (hz : Keeps zz s) :
    Keeps zz (updPort p f s) := by
  unfold updPort
  repeat (with_reducible first
    | assumption | (intro _; exact ⟨rfl, rfl, rfl⟩) | (intro _; exact ⟨rfl, rfl, rfl, rfl⟩) | (intro _)
    | apply keeps_ite | split
    | (rename_i hq; replace hq := congrArg Prod.snd hq; dsimp only at hq; rw [← hq]; clear hq)
    | (apply keeps_put; exact ⟨rfl, by simp, by simp, rfl, rfl, rfl, rfl, rfl, rfl, rfl, rfl, rfl⟩))

theorem updDest_keeps {zz : State} (node : Nat) (f : Dest → Dest) {s : State} (hz : Keeps zz s) :
    Keeps zz (updDest node f s) := by
  unfold updDest
  repeat (with_reducible first
    | assumption | (intro _; exact ⟨rfl, rfl, rfl⟩) | (intro _; exact ⟨rfl, rfl, rfl, rfl⟩) | (intro _)
    | apply keeps_ite | split
    | (rename_i hq; replace hq := congrArg Prod.snd hq; dsimp only at hq; rw [← hq]; clear hq)
    | (apply keeps_put; exact ⟨rfl, by simp, by simp, rfl, rfl, rfl, rfl, rfl, rfl, rfl, rfl, rfl⟩))

theorem portPut_keeps {zz : State} (p n : Nat) (o : Out) {s : State} (hz : Keeps zz s) :
    Keeps zz (portPut p n o s) := by
  unfold portPut
  repeat (with_reducible first
    | assumption | (intro _; exact ⟨rfl, rfl, rfl⟩) | (intro _; exact ⟨rfl, rfl, rfl, rfl⟩) | (intro _)
    | apply emit_keeps | apply updPort_keeps | apply keeps_ite | split
    | (rename_i hq; replace hq := congrArg Prod.snd hq; dsimp only at hq; rw [← hq]; clear hq)
    | (apply keeps_put; exact ⟨rfl, by simp, by simp, rfl, rfl, rfl, rfl, rfl, rfl, rfl, rfl, rfl⟩))

theorem sendFlit_keeps {zz : State} (p kind : Nat) (fields : List (Nat × Nat × Nat)) {s : State} (hz : Keeps zz s) :
    Keeps zz (sendFlit p kind fields s) := by
  unfold sendFlit
  repeat (with_reducible first
    | assumption | (intro _; exact ⟨rfl, rfl, rfl⟩) | (intro _; exact ⟨rfl, rfl, rfl, rfl⟩) | (intro _)
    | apply portPut_keeps | apply keeps_ite | split
    | (rename_i hq; replace hq := congrArg Prod.snd hq; dsimp only at hq; rw [← hq]; clear hq)
    | (apply keeps_put; exact ⟨rfl, by simp, by simp, rfl, rfl, rfl, rfl, rfl, rfl, rfl, rfl, rfl⟩))

theorem sendLink_keeps {zz : State} (p : Nat) (resend : Bool) {s : State} (hz : Keeps zz s) :
    Keeps zz (sendLink p resend s) := by
  unfold sendLink
  repeat (with_reducible first
    | assumption | apply updPort_keeps | apply sendFlit_keeps
    | (apply keeps_put; exact ⟨rfl, by simp, by simp, rfl, rfl, rfl, rfl, rfl, rfl, rfl, rfl, rfl⟩))

theorem linkDue_keeps {zz : State} (p : Nat) {s : State} (hz : Keeps zz s) :
    Keeps zz (linkDue p s) := by
  unfold linkDue
  repeat (with_reducible first
    | assumption | (intro _; exact ⟨rfl, rfl, rfl⟩) | (intro _; exact ⟨rfl, rfl, rfl, rfl⟩) | (intro _)
    | apply sendLink_keeps | apply keeps_ite | split
    | (rename_i hq; replace hq := congrArg Prod.snd hq; dsimp only at hq; rw [← hq]; clear hq)
    | (apply keeps_put; exact ⟨rfl, by simp, by simp, rfl, rfl, rfl, rfl, rfl, rfl, rfl, rfl, rfl⟩))

theorem packetLeaves_keeps {zz : State} (p : Nat) (k : Packet) {s : State} (hz : Keeps zz s) :
    Keeps zz (packetLeaves p k s) := by
  unfold packetLeaves
  repeat (with_reducible first
    | assumption | (intro _; exact ⟨rfl, rfl, rfl⟩) | (intro _; exact ⟨rfl, rfl, rfl, rfl⟩) | (intro _)
    | apply portPut_keeps | apply updPort_keeps | apply keeps_ite | split
    | (rename_i hq; replace hq := congrArg Prod.snd hq; dsimp only at hq; rw [← hq]; clear hq)
    | (apply keeps_put; exact ⟨rfl, by simp, by simp, rfl, rfl, rfl, rfl, rfl, rfl, rfl, rfl, rfl⟩))

theorem portSend_keeps {zz : State} (p : Nat) (k : Packet) {s : State} (hz : Keeps zz s) :
    Keeps zz (portSend p k s) := by
  unfold portSend
  repeat (with_reducible first
    | assumption | apply updPort_keeps | apply linkDue_keeps | apply packetLeaves_keeps | apply keeps_ite
    | (apply keeps_put; exact ⟨rfl, by simp, by simp, rfl, rfl, rfl, rfl, rfl, rfl, rfl, rfl, rfl⟩))

theorem portDrain_keeps {zz : State} (p n : Nat) (l kept : List Packet) {s : State} (h : Keeps zz s) :
    Keeps zz (portDrain p n l kept s) := by
  induction n generalizing l kept s with
  | zero => exact h
  | succ n ih =>
    cases l with
    | nil => exact linkDue_keeps _ (updPort_keeps _ _ h)
    | cons k t =>
      rw [portDrain]
      exact keeps_ite (ih _ _ h) (ih _ _ (packetLeaves_keeps _ _ h))

theorem rxCodewords_keeps {zz : State} (p n : Nat) {s : State} (hz : Keeps zz s) :
    Keeps zz (rxCodewords p n s) := by
  unfold rxCodewords
  repeat (with_reducible first
    | assumption | (intro _; exact ⟨rfl, rfl, rfl⟩) | (intro _; exact ⟨rfl, rfl, rfl, rfl⟩) | (intro _)
    | apply linkDue_keeps | apply updPort_keeps | apply keeps_ite | split
    | (rename_i hq; replace hq := congrArg Prod.snd hq; dsimp only at hq; rw [← hq]; clear hq)
    | (apply keeps_put; exact ⟨rfl, by simp, by simp, rfl, rfl, rfl, rfl, rfl, rfl, rfl, rfl, rfl⟩))

theorem rxFlit_keeps {zz : State} (p : Nat) {s : State} (hz : Keeps zz s) :
    Keeps zz (rxFlit p s) := by
  unfold rxFlit
  repeat (with_reducible first
    | assumption | (intro _; exact ⟨rfl, rfl, rfl⟩) | (intro _; exact ⟨rfl, rfl, rfl, rfl⟩) | (intro _)
    | (extract_lets +onlyGivenNames w; refine keeps_cut zz w ?_ ?_; (unfold w; clear w); rotate_left; intro _; clear_value w; revert w; intro _ _)
    | (extract_lets +onlyGivenNames w; refine (fun (_ : MemSys) => ?_) w; revert w; intro _)
    | (extract_lets +onlyGivenNames w; refine (fun (_ : Ferry) => ?_) w; revert w; intro _)
    | (extract_lets +onlyGivenNames w; refine (fun (_ : Sec) => ?_) w; revert w; intro _)
    | (extract_lets +onlyGivenNames w; refine keeps_cut_snd zz w ?_ ?_; (unfold w; clear w); rotate_left; intro _; clear_value w; revert w; intro _ _)
    | (extract_lets +onlyGivenNames w; refine keeps_cut_fst zz w ?_ ?_; (unfold w; clear w); rotate_left; intro _; clear_value w; revert w; intro _ _)
    | (extract_lets +onlyGivenNames w; refine keeps_cut_thd zz w ?_ ?_; (unfold w; clear w); rotate_left; intro _; clear_value w; revert w; intro _ _)
    | (extract_lets +onlyGivenNames w; refine (fun (_ : _ → _) => ?_) w; unfold w; clear w)
    | (extract_lets +onlyGivenNames w; clear_value w; revert w; intro _) | apply rxCodewords_keeps
    | apply sendLink_keeps | apply keeps_ite | split
    | (rename_i hq; replace hq := congrArg Prod.snd hq; dsimp only at hq; rw [← hq]; clear hq)
    | (apply keeps_put; exact ⟨rfl, by simp, by simp, rfl, rfl, rfl, rfl, rfl, rfl, rfl, rfl, rfl⟩))

theorem freeBuffer_keeps {zz : State} (p : Nat) (k : Packet) {s : State} (hz : Keeps zz s) :
    Keeps zz (freeBuffer p k s) := by
  unfold freeBuffer
  repeat (with_reducible first
    | assumption | (intro _; exact ⟨rfl, rfl, rfl⟩) | (intro _; exact ⟨rfl, rfl, rfl, rfl⟩) | (intro _)
    | apply sendLink_keeps | apply updPort_keeps | apply keeps_ite | split
    | (rename_i hq; replace hq := congrArg Prod.snd hq; dsimp only at hq; rw [← hq]; clear hq)
    | (apply keeps_put; exact ⟨rfl, by simp, by simp, rfl, rfl, rfl, rfl, rfl, rfl, rfl, rfl, rfl⟩))

theorem gzlEvent_keeps {zz : State} (bit p : Nat) {s : State} (hz : Keeps zz s) :
    Keeps zz (gzlEvent bit p s) := by
  unfold gzlEvent
  repeat (with_reducible first
    | assumption | apply setReg_keeps)

theorem sendReply_keeps {zz : State} (p : Nat) (k : Packet) {s : State} (hz : Keeps zz s) :
    Keeps zz (sendReply p k s) := by
  unfold sendReply
  repeat (with_reducible first
    | assumption | apply portSend_keeps | split)

theorem updRx_keeps {zz : State} (node flow vc : Nat) (f : SeqRx → SeqRx) {s : State} (hz : Keeps zz s) :
    Keeps zz (updRx node flow vc f s) := by
  unfold updRx
  repeat (with_reducible first
    | assumption | (intro _; exact ⟨rfl, rfl, rfl⟩) | (intro _; exact ⟨rfl, rfl, rfl, rfl⟩) | (intro _)
    | apply keeps_ite | split
    | (rename_i hq; replace hq := congrArg Prod.snd hq; dsimp only at hq; rw [← hq]; clear hq)
    | (apply keeps_put; exact ⟨rfl, by simp, by simp, rfl, rfl, rfl, rfl, rfl, rfl, rfl, rfl, rfl⟩))

theorem updTx_keeps {zz : State} (node flow vc : Nat) (f : SeqTx → SeqTx) {s : State} (hz : Keeps zz s) :
    Keeps zz (updTx node flow vc f s) := by
  unfold updTx
  repeat (with_reducible first
    | assumption | (intro _; exact ⟨rfl, rfl, rfl⟩) | (intro _; exact ⟨rfl, rfl, rfl, rfl⟩) | (intro _)
    | apply keeps_ite | split
    | (rename_i hq; replace hq := congrArg Prod.snd hq; dsimp only at hq; rw [← hq]; clear hq)
    | (apply keeps_put; exact ⟨rfl, by simp, by simp, rfl, rfl, rfl, rfl, rfl, rfl, rfl, rfl, rfl⟩))

theorem sendVerdict_keeps {zz : State} (node flow vc psn tag job port v : Nat) {s : State} (hz : Keeps zz s) :
    Keeps zz (sendVerdict node flow vc psn tag job port v s) := by
  unfold sendVerdict
  repeat (with_reducible first
    | assumption | apply sendReply_keeps | apply updRx_keeps)

theorem sendAck_keeps {zz : State} (p : Nat) (r : Packet) (status : Nat) {s : State} (hz : Keeps zz s) :
    Keeps zz (sendAck p r status s) := by
  unfold sendAck
  repeat (with_reducible first
    | assumption | apply sendReply_keeps)

theorem dropOrigins_keeps {zz : State} (gone : Origin → Bool) {s : State} (hz : Keeps zz s) :
    Keeps zz (dropOrigins gone s) := by
  unfold dropOrigins
  repeat (with_reducible first
    | assumption | (intro _; exact ⟨rfl, rfl, rfl⟩) | (intro _; exact ⟨rfl, rfl, rfl, rfl⟩) | (intro _)
    | (extract_lets +onlyGivenNames w; refine keeps_cut zz w ?_ ?_; (unfold w; clear w); rotate_left; intro _; clear_value w; revert w; intro _ _)
    | (extract_lets +onlyGivenNames w; refine (fun (_ : MemSys) => ?_) w; revert w; intro _)
    | (extract_lets +onlyGivenNames w; refine (fun (_ : Ferry) => ?_) w; revert w; intro _)
    | (extract_lets +onlyGivenNames w; refine (fun (_ : Sec) => ?_) w; revert w; intro _)
    | (extract_lets +onlyGivenNames w; refine keeps_cut_snd zz w ?_ ?_; (unfold w; clear w); rotate_left; intro _; clear_value w; revert w; intro _ _)
    | (extract_lets +onlyGivenNames w; refine keeps_cut_fst zz w ?_ ?_; (unfold w; clear w); rotate_left; intro _; clear_value w; revert w; intro _ _)
    | (extract_lets +onlyGivenNames w; refine keeps_cut_thd zz w ?_ ?_; (unfold w; clear w); rotate_left; intro _; clear_value w; revert w; intro _ _)
    | (extract_lets +onlyGivenNames w; refine (fun (_ : _ → _) => ?_) w; unfold w; clear w)
    | (extract_lets +onlyGivenNames w; clear_value w; revert w; intro _) | apply keeps_ite | split
    | (rename_i hq; replace hq := congrArg Prod.snd hq; dsimp only at hq; rw [← hq]; clear hq)
    | (apply keeps_put; exact ⟨rfl, by simp, by simp, rfl, rfl, rfl, rfl, rfl, rfl, rfl, rfl, rfl⟩))

theorem rpcClear_keeps {zz : State} (n : Nat) {s : State} (hz : Keeps zz s) :
    Keeps zz (rpcClear n s) := by
  unfold rpcClear
  repeat (with_reducible first
    | assumption | apply dropOrigins_keeps | apply updPart_keeps
    | (apply keeps_put; exact ⟨rfl, by simp, by simp, rfl, rfl, rfl, rfl, rfl, rfl, rfl, rfl, rfl⟩))

theorem rpcDrop_keeps {zz : State} (n page : Nat) {s : State} (hz : Keeps zz s) :
    Keeps zz (rpcDrop n page s) := by
  unfold rpcDrop
  repeat (with_reducible first
    | assumption | apply dropOrigins_keeps | apply updPart_keeps
    | (apply keeps_put; exact ⟨rfl, by simp, by simp, rfl, rfl, rfl, rfl, rfl, rfl, rfl, rfl, rfl⟩))

end Sys2Proof.Machine
end

