-- ==== Sys2Proof/Laws/KeepsMembers.lean ====
section
/-!
SUPPORT. What the operations of Machine/Members.lean keep (Laws/Keeps.lean).
-/
set_option linter.all false
namespace Sys2Proof.Machine

theorem updColl_keeps {zz : State} (n id : Nat) (f : Coll → Coll) {s : State} (hz : Keeps zz s) :
    Keeps zz (updColl n id f s) := by
  unfold updColl
  repeat (with_reducible first
    | assumption | apply updPart_keeps)

theorem collRecord_keeps {zz : State} (n : Nat) (d : Desc) (c : Coll) (st : Status) (first : Nat) {s : State} (hz : Keeps zz s) :
    Keeps zz (collRecord n d c st first s) := by
  unfold collRecord
  repeat (with_reducible first
    | assumption | apply memPut_keeps
    | (apply keeps_put; exact ⟨rfl, by simp, by simp, rfl, rfl, rfl, rfl, rfl, rfl, rfl, rfl, rfl⟩))

theorem collEvent_keeps {zz : State} (n bit : Nat) {s : State} (hz : Keeps zz s) :
    Keeps zz (collEvent n bit s) := by
  unfold collEvent
  repeat (with_reducible first
    | assumption | apply orReg_keeps)

theorem collSpoil_keeps {zz : State} (d : Desc) (root outl : Bool) {s : State} (hz : Keeps zz s) :
    Keeps zz (collSpoil d root outl s) := by
  unfold collSpoil
  repeat (with_reducible first
    | assumption | apply spoil_keeps | apply keeps_ite | (apply keeps_foldl; intro _ _ _))

theorem dropUnsent_keeps {zz : State} (n id : Nat) (all : Bool) {s : State} (hz : Keeps zz s) :
    Keeps zz (dropUnsent n id all s) := by
  unfold dropUnsent
  repeat (with_reducible first
    | assumption | (intro _; exact ⟨rfl, rfl, rfl⟩) | (intro _; exact ⟨rfl, rfl, rfl, rfl⟩) | (intro _)
    | (extract_lets +onlyGivenNames w; refine keeps_cut zz w ?_ ?_; (unfold w; clear w); rotate_left; intro _; clear_value w; revert w; intro _ _)
    | (extract_lets +onlyGivenNames w; refine (fun (_ : MemSys) => ?_) w; revert w; intro _)
    | (extract_lets +onlyGivenNames w; refine (fun (_ : Ferry) => ?_) w; revert w; intro _)
    | (extract_lets +onlyGivenNames w; refine (fun (_ : Sec) => ?_) w; revert w; intro _)
    | (extract_lets +onlyGivenNames w; refine keeps_cut_snd zz w ?_ ?_; (unfold w; clear w); rotate_left; intro _; clear_value w; revert w; intro _ _)
    | (extract_lets +onlyGivenNames w; refine keeps_cut_fst zz w ?_ ?_; (unfold w; clear w); rotate_left; intro _; clear_value w; revert w; intro _ _)
    | (extract_lets +onlyGivenNames w; refine keeps_cut_thd zz w ?_ ?_; (unfold w; clear w); rotate_left; intro _; clear_value w; revert w; intro _ _)
    | (extract_lets +onlyGivenNames w; refine (fun (_ : _ → _) => ?_) w; unfold w; clear w)
    | (extract_lets +onlyGivenNames w; clear_value w; revert w; intro _) | apply keeps_ite | split
    | (rename_i hq; replace hq := congrArg Prod.snd hq; dsimp only at hq; rw [← hq]; clear hq)
    | (apply keeps_put; exact ⟨rfl, by simp, by simp, rfl, rfl, rfl, rfl, rfl, rfl, rfl, rfl, rfl⟩))

theorem cutColl_keeps {zz : State} (n : Nat) (d : Desc) (c : Coll) {s : State} (hz : Keeps zz s) :
    Keeps zz (cutColl n d c s) := by
  unfold cutColl
  repeat (with_reducible first
    | assumption | (intro _; exact ⟨rfl, rfl, rfl⟩) | (intro _; exact ⟨rfl, rfl, rfl, rfl⟩) | (intro _)
    | apply collSpoil_keeps | apply dropUnsent_keeps | apply keeps_ite | split
    | (rename_i hq; replace hq := congrArg Prod.snd hq; dsimp only at hq; rw [← hq]; clear hq)
    | (apply keeps_put; exact ⟨rfl, by simp, by simp, rfl, rfl, rfl, rfl, rfl, rfl, rfl, rfl, rfl⟩))

theorem cutColls_keeps {zz : State} (n : Nat) (st : Status) {s : State} (hz : Keeps zz s) :
    Keeps zz (cutColls n st s) := by
  unfold cutColls
  repeat (with_reducible first
    | assumption | (intro _; exact ⟨rfl, rfl, rfl⟩) | (intro _; exact ⟨rfl, rfl, rfl, rfl⟩) | (intro _)
    | apply collRecord_keeps | apply cutColl_keeps | apply keeps_ite | (apply keeps_foldl; intro _ _ _)
    | (apply keeps_foldl_snd; intro _ _ _) | (apply keeps_foldl_fst; intro _ _ _) | split
    | (rename_i hq; replace hq := congrArg Prod.snd hq; dsimp only at hq; rw [← hq]; clear hq)
    | (apply keeps_put; exact ⟨rfl, by simp, by simp, rfl, rfl, rfl, rfl, rfl, rfl, rfl, rfl, rfl⟩))

end Sys2Proof.Machine
end

