-- ==== Sys2Proof/Laws/KeepsRecovery.lean ====
section
/-!
SUPPORT. What the operations of Machine/Recovery.lean keep (Laws/Keeps.lean).
-/
set_option linter.all false
namespace Sys2Proof.Machine

theorem setPlace_keeps {zz : State} (c : Nat) (p : Place) {s : State} (hz : Keeps zz s) :
    Keeps zz (setPlace c p s) := by
  unfold setPlace
  repeat (with_reducible first
    | assumption | (intro _; exact ⟨rfl, rfl, rfl⟩) | (intro _; exact ⟨rfl, rfl, rfl, rfl⟩) | (intro _)
    | apply keeps_ite | split
    | (rename_i hq; replace hq := congrArg Prod.snd hq; dsimp only at hq; rw [← hq]; clear hq)
    | (apply keeps_put; exact ⟨rfl, by simp, by simp, rfl, rfl, rfl, rfl, rfl, rfl, rfl, rfl, rfl⟩))

theorem fillBanks_keeps {zz : State} (k : Core) {s : State} (hz : Keeps zz s) :
    Keeps zz (fillBanks k s) := by
  unfold fillBanks
  repeat (with_reducible first
    | assumption | (intro _; exact ⟨rfl, rfl, rfl⟩) | (intro _; exact ⟨rfl, rfl, rfl, rfl⟩) | (intro _)
    | (extract_lets +onlyGivenNames w; refine keeps_cut zz w ?_ ?_; (unfold w; clear w); rotate_left; intro _; clear_value w; revert w; intro _ _)
    | (extract_lets +onlyGivenNames w; refine (fun (_ : MemSys) => ?_) w; revert w; intro _)
    | (extract_lets +onlyGivenNames w; refine (fun (_ : Ferry) => ?_) w; revert w; intro _)
    | (extract_lets +onlyGivenNames w; refine (fun (_ : Sec) => ?_) w; revert w; intro _)
    | (extract_lets +onlyGivenNames w; refine keeps_cut_snd zz w ?_ ?_; (unfold w; clear w); rotate_left; intro _; clear_value w; revert w; intro _ _)
    | (extract_lets +onlyGivenNames w; refine keeps_cut_fst zz w ?_ ?_; (unfold w; clear w); rotate_left; intro _; clear_value w; revert w; intro _ _)
    | (extract_lets +onlyGivenNames w; refine keeps_cut_thd zz w ?_ ?_; (unfold w; clear w); rotate_left; intro _; clear_value w; revert w; intro _ _)
    | (extract_lets +onlyGivenNames w; refine (fun (_ : _ → _) => ?_) w; unfold w; clear w)
    | (extract_lets +onlyGivenNames w; clear_value w; revert w; intro _) | apply keeps_ite | split
    | (rename_i hq; replace hq := congrArg Prod.snd hq; dsimp only at hq; rw [← hq]; clear hq)
    | (apply keeps_put; exact ⟨rfl, by simp, by simp, rfl, rfl, rfl, rfl, rfl, rfl, rfl, rfl, rfl⟩))

theorem moveCore_keeps {zz : State} (c t : Nat) {s : State} (hz : Keeps zz s) :
    Keeps zz (moveCore c t s) := by
  unfold moveCore
  repeat (with_reducible first
    | assumption | (intro _; exact ⟨rfl, rfl, rfl⟩) | (intro _; exact ⟨rfl, rfl, rfl, rfl⟩) | (intro _)
    | (extract_lets +onlyGivenNames w; refine keeps_cut zz w ?_ ?_; (unfold w; clear w); rotate_left; intro _; clear_value w; revert w; intro _ _)
    | (extract_lets +onlyGivenNames w; refine (fun (_ : MemSys) => ?_) w; revert w; intro _)
    | (extract_lets +onlyGivenNames w; refine (fun (_ : Ferry) => ?_) w; revert w; intro _)
    | (extract_lets +onlyGivenNames w; refine (fun (_ : Sec) => ?_) w; revert w; intro _)
    | (extract_lets +onlyGivenNames w; refine keeps_cut_snd zz w ?_ ?_; (unfold w; clear w); rotate_left; intro _; clear_value w; revert w; intro _ _)
    | (extract_lets +onlyGivenNames w; refine keeps_cut_fst zz w ?_ ?_; (unfold w; clear w); rotate_left; intro _; clear_value w; revert w; intro _ _)
    | (extract_lets +onlyGivenNames w; refine keeps_cut_thd zz w ?_ ?_; (unfold w; clear w); rotate_left; intro _; clear_value w; revert w; intro _ _)
    | (extract_lets +onlyGivenNames w; refine (fun (_ : _ → _) => ?_) w; unfold w; clear w)
    | (extract_lets +onlyGivenNames w; clear_value w; revert w; intro _) | apply setPlace_keeps
    | apply fillBanks_keeps | apply setCore_keeps | apply postEvent_keeps | apply queueRepair_keeps | apply keeps_ite
    | (apply keeps_foldl; intro _ _ _) | (apply keeps_foldl_snd; intro _ _ _) | (apply keeps_foldl_fst; intro _ _ _)
    | split | (rename_i hq; replace hq := congrArg Prod.snd hq; dsimp only at hq; rw [← hq]; clear hq)
    | (apply keeps_put; exact ⟨rfl, by simp, by simp, rfl, rfl, rfl, rfl, rfl, rfl, rfl, rfl, rfl⟩))

theorem dropCoreWaits_keeps {zz : State} (c : Nat) {s : State} (hz : Keeps zz s) :
    Keeps zz (dropCoreWaits c s) := by
  unfold dropCoreWaits
  repeat (with_reducible first
    | assumption | (intro _; exact ⟨rfl, rfl, rfl⟩) | (intro _; exact ⟨rfl, rfl, rfl, rfl⟩) | (intro _)
    | (extract_lets +onlyGivenNames w; refine keeps_cut zz w ?_ ?_; (unfold w; clear w); rotate_left; intro _; clear_value w; revert w; intro _ _)
    | (extract_lets +onlyGivenNames w; refine (fun (_ : MemSys) => ?_) w; revert w; intro _)
    | (extract_lets +onlyGivenNames w; refine (fun (_ : Ferry) => ?_) w; revert w; intro _)
    | (extract_lets +onlyGivenNames w; refine (fun (_ : Sec) => ?_) w; revert w; intro _)
    | (extract_lets +onlyGivenNames w; refine keeps_cut_snd zz w ?_ ?_; (unfold w; clear w); rotate_left; intro _; clear_value w; revert w; intro _ _)
    | (extract_lets +onlyGivenNames w; refine keeps_cut_fst zz w ?_ ?_; (unfold w; clear w); rotate_left; intro _; clear_value w; revert w; intro _ _)
    | (extract_lets +onlyGivenNames w; refine keeps_cut_thd zz w ?_ ?_; (unfold w; clear w); rotate_left; intro _; clear_value w; revert w; intro _ _)
    | (extract_lets +onlyGivenNames w; refine (fun (_ : _ → _) => ?_) w; unfold w; clear w)
    | (extract_lets +onlyGivenNames w; clear_value w; revert w; intro _) | apply keeps_ite | split
    | (rename_i hq; replace hq := congrArg Prod.snd hq; dsimp only at hq; rw [← hq]; clear hq)
    | (apply keeps_put; exact ⟨rfl, by simp, by simp, rfl, rfl, rfl, rfl, rfl, rfl, rfl, rfl, rfl⟩))

theorem detachCore_keeps {zz : State} (c : Nat) {s : State} (hz : Keeps zz s) :
    Keeps zz (detachCore c s) := by
  unfold detachCore
  repeat (with_reducible first
    | assumption | (intro _; exact ⟨rfl, rfl, rfl⟩) | (intro _; exact ⟨rfl, rfl, rfl, rfl⟩) | (intro _)
    | (extract_lets +onlyGivenNames w; refine keeps_cut zz w ?_ ?_; (unfold w; clear w); rotate_left; intro _; clear_value w; revert w; intro _ _)
    | (extract_lets +onlyGivenNames w; refine (fun (_ : MemSys) => ?_) w; revert w; intro _)
    | (extract_lets +onlyGivenNames w; refine (fun (_ : Ferry) => ?_) w; revert w; intro _)
    | (extract_lets +onlyGivenNames w; refine (fun (_ : Sec) => ?_) w; revert w; intro _)
    | (extract_lets +onlyGivenNames w; refine keeps_cut_snd zz w ?_ ?_; (unfold w; clear w); rotate_left; intro _; clear_value w; revert w; intro _ _)
    | (extract_lets +onlyGivenNames w; refine keeps_cut_fst zz w ?_ ?_; (unfold w; clear w); rotate_left; intro _; clear_value w; revert w; intro _ _)
    | (extract_lets +onlyGivenNames w; refine keeps_cut_thd zz w ?_ ?_; (unfold w; clear w); rotate_left; intro _; clear_value w; revert w; intro _ _)
    | (extract_lets +onlyGivenNames w; refine (fun (_ : _ → _) => ?_) w; unfold w; clear w)
    | (extract_lets +onlyGivenNames w; clear_value w; revert w; intro _) | apply dropCoreWaits_keeps
    | apply dropOrigins_keeps | apply keeps_ite | split
    | (rename_i hq; replace hq := congrArg Prod.snd hq; dsimp only at hq; rw [← hq]; clear hq)
    | (apply keeps_put; exact ⟨rfl, by simp, by simp, rfl, rfl, rfl, rfl, rfl, rfl, rfl, rfl, rfl⟩))

theorem spoilRows_keeps {zz : State} (r : Nat × Nat × Nat) {s : State} (k : Core) (hz : Keeps zz s) :
    Keeps zz (spoilRows r s k).2 := by
  unfold spoilRows
  repeat (with_reducible first
    | assumption | (intro _; exact ⟨rfl, rfl, rfl⟩) | (intro _; exact ⟨rfl, rfl, rfl, rfl⟩) | (intro _)
    | (extract_lets +onlyGivenNames w; refine keeps_cut zz w ?_ ?_; (unfold w; clear w); rotate_left; intro _; clear_value w; revert w; intro _ _)
    | (extract_lets +onlyGivenNames w; refine (fun (_ : MemSys) => ?_) w; revert w; intro _)
    | (extract_lets +onlyGivenNames w; refine (fun (_ : Ferry) => ?_) w; revert w; intro _)
    | (extract_lets +onlyGivenNames w; refine (fun (_ : Sec) => ?_) w; revert w; intro _)
    | (extract_lets +onlyGivenNames w; refine keeps_cut_snd zz w ?_ ?_; (unfold w; clear w); rotate_left; intro _; clear_value w; revert w; intro _ _)
    | (extract_lets +onlyGivenNames w; refine keeps_cut_fst zz w ?_ ?_; (unfold w; clear w); rotate_left; intro _; clear_value w; revert w; intro _ _)
    | (extract_lets +onlyGivenNames w; refine keeps_cut_thd zz w ?_ ?_; (unfold w; clear w); rotate_left; intro _; clear_value w; revert w; intro _ _)
    | (extract_lets +onlyGivenNames w; refine (fun (_ : _ → _) => ?_) w; unfold w; clear w)
    | (extract_lets +onlyGivenNames w; clear_value w; revert w; intro _) | apply keeps_ite
    | (apply keeps_foldl; intro _ _ _) | (apply keeps_foldl_snd; intro _ _ _) | (apply keeps_foldl_fst; intro _ _ _)
    | split | (rename_i hq; replace hq := congrArg Prod.snd hq; dsimp only at hq; rw [← hq]; clear hq)
    | (apply keeps_put; exact ⟨rfl, by simp, by simp, rfl, rfl, rfl, rfl, rfl, rfl, rfl, rfl, rfl⟩))

theorem spoilAll_keeps {zz : State} (l : List (Nat × Nat × Nat)) (k : Core) {s : State} (hz : Keeps zz s) :
    Keeps zz (spoilAll l k s).2 := by
  unfold spoilAll
  repeat (with_reducible first
    | assumption | (intro _; exact ⟨rfl, rfl, rfl⟩) | (intro _; exact ⟨rfl, rfl, rfl, rfl⟩) | (intro _)
    | apply spoilRows_keeps | apply keeps_ite | (apply keeps_foldl; intro _ _ _)
    | (apply keeps_foldl_snd; intro _ _ _) | (apply keeps_foldl_fst; intro _ _ _) | split
    | (rename_i hq; replace hq := congrArg Prod.snd hq; dsimp only at hq; rw [← hq]; clear hq)
    | (apply keeps_put; exact ⟨rfl, by simp, by simp, rfl, rfl, rfl, rfl, rfl, rfl, rfl, rfl, rfl⟩))

theorem spoilMmas_keeps {zz : State} (c : Nat) {s : State} (hz : Keeps zz s) :
    Keeps zz (spoilMmas c s) := by
  unfold spoilMmas
  repeat (with_reducible first
    | assumption | apply spoilAll_keeps | apply setCore_keeps
    | (apply keeps_put; exact ⟨rfl, by simp, by simp, rfl, rfl, rfl, rfl, rfl, rfl, rfl, rfl, rfl⟩))

theorem clearCores_keeps {zz : State} {s : State} (hz : Keeps zz s) :
    Keeps zz (clearCores s) := by
  unfold clearCores
  repeat (with_reducible first
    | assumption | (intro _; exact ⟨rfl, rfl, rfl⟩) | (intro _; exact ⟨rfl, rfl, rfl, rfl⟩) | (intro _)
    | (extract_lets +onlyGivenNames w; refine keeps_cut zz w ?_ ?_; (unfold w; clear w); rotate_left; intro _; clear_value w; revert w; intro _ _)
    | (extract_lets +onlyGivenNames w; refine (fun (_ : MemSys) => ?_) w; revert w; intro _)
    | (extract_lets +onlyGivenNames w; refine (fun (_ : Ferry) => ?_) w; revert w; intro _)
    | (extract_lets +onlyGivenNames w; refine (fun (_ : Sec) => ?_) w; revert w; intro _)
    | (extract_lets +onlyGivenNames w; refine keeps_cut_snd zz w ?_ ?_; (unfold w; clear w); rotate_left; intro _; clear_value w; revert w; intro _ _)
    | (extract_lets +onlyGivenNames w; refine keeps_cut_fst zz w ?_ ?_; (unfold w; clear w); rotate_left; intro _; clear_value w; revert w; intro _ _)
    | (extract_lets +onlyGivenNames w; refine keeps_cut_thd zz w ?_ ?_; (unfold w; clear w); rotate_left; intro _; clear_value w; revert w; intro _ _)
    | (extract_lets +onlyGivenNames w; refine (fun (_ : _ → _) => ?_) w; unfold w; clear w)
    | (extract_lets +onlyGivenNames w; clear_value w; revert w; intro _) | apply spoilAll_keeps | apply setCore_keeps
    | apply keeps_ite | (apply keeps_foldl; intro _ _ _) | (apply keeps_foldl_snd; intro _ _ _)
    | (apply keeps_foldl_fst; intro _ _ _) | split
    | (rename_i hq; replace hq := congrArg Prod.snd hq; dsimp only at hq; rw [← hq]; clear hq)
    | (apply keeps_put; exact ⟨rfl, by simp, by simp, rfl, rfl, rfl, rfl, rfl, rfl, rfl, rfl, rfl⟩))

theorem stopCore_keeps {zz : State} (st : CoreRun) (c : Nat) {s : State} (hz : Keeps zz s) :
    Keeps zz (stopCore st c s) := by
  unfold stopCore
  repeat (with_reducible first
    | assumption | apply updCore_keeps | apply detachCore_keeps | apply spoilMmas_keeps | apply keeps_ite)

theorem resetCore_keeps {zz : State} (c : Nat) {s : State} (hz : Keeps zz s) :
    Keeps zz (resetCore c s) := by
  unfold resetCore
  repeat (with_reducible first
    | assumption | apply updCore_keeps | apply detachCore_keeps | apply spoilMmas_keeps)

theorem clearBanks_keeps {zz : State} (c : Nat) {s : State} (hz : Keeps zz s) :
    Keeps zz (clearBanks c s) := by
  unfold clearBanks
  repeat (with_reducible first
    | assumption | apply updCore_keeps)

theorem layerStore_keeps {zz : State} (n i : Nat) (l : Layer) {s : State} (hz : Keeps zz s) :
    Keeps zz (layerStore n i l s) := by
  unfold layerStore
  repeat (with_reducible first
    | assumption | apply memPut_keeps
    | (apply keeps_put; exact ⟨rfl, by simp, by simp, rfl, rfl, rfl, rfl, rfl, rfl, rfl, rfl, rfl⟩))

theorem layerStoreAll_keeps {zz : State} (n : Nat) {s : State} (hz : Keeps zz s) :
    Keeps zz (layerStoreAll n s) := by
  unfold layerStoreAll
  repeat (with_reducible first
    | assumption | apply layerStore_keeps | (apply keeps_foldl; intro _ _ _))

theorem govStop_keeps {zz : State} (n : Nat) {s : State} (hz : Keeps zz s) :
    Keeps zz (govStop n s) := by
  unfold govStop
  repeat (with_reducible first
    | assumption | apply updPart_keeps | apply setReg_keeps | apply layerStoreAll_keeps)

theorem dropHeld_keeps {zz : State} (n : Nat) {s : State} (hz : Keeps zz s) :
    Keeps zz (dropHeld n s) := by
  unfold dropHeld
  repeat (with_reducible first
    | assumption | (intro _; exact ⟨rfl, rfl, rfl⟩) | (intro _; exact ⟨rfl, rfl, rfl, rfl⟩) | (intro _)
    | (extract_lets +onlyGivenNames w; refine keeps_cut zz w ?_ ?_; (unfold w; clear w); rotate_left; intro _; clear_value w; revert w; intro _ _)
    | (extract_lets +onlyGivenNames w; refine (fun (_ : MemSys) => ?_) w; revert w; intro _)
    | (extract_lets +onlyGivenNames w; refine (fun (_ : Ferry) => ?_) w; revert w; intro _)
    | (extract_lets +onlyGivenNames w; refine (fun (_ : Sec) => ?_) w; revert w; intro _)
    | (extract_lets +onlyGivenNames w; refine keeps_cut_snd zz w ?_ ?_; (unfold w; clear w); rotate_left; intro _; clear_value w; revert w; intro _ _)
    | (extract_lets +onlyGivenNames w; refine keeps_cut_fst zz w ?_ ?_; (unfold w; clear w); rotate_left; intro _; clear_value w; revert w; intro _ _)
    | (extract_lets +onlyGivenNames w; refine keeps_cut_thd zz w ?_ ?_; (unfold w; clear w); rotate_left; intro _; clear_value w; revert w; intro _ _)
    | (extract_lets +onlyGivenNames w; refine (fun (_ : _ → _) => ?_) w; unfold w; clear w)
    | (extract_lets +onlyGivenNames w; clear_value w; revert w; intro _) | apply freeBuffer_keeps | apply incReg_keeps
    | apply sendAck_keeps | apply keeps_ite | (apply keeps_foldl; intro _ _ _) | (apply keeps_foldl_snd; intro _ _ _)
    | (apply keeps_foldl_fst; intro _ _ _) | split
    | (rename_i hq; replace hq := congrArg Prod.snd hq; dsimp only at hq; rw [← hq]; clear hq)
    | (apply keeps_put; exact ⟨rfl, by simp, by simp, rfl, rfl, rfl, rfl, rfl, rfl, rfl, rfl, rfl⟩))

theorem drainWaits_keeps {zz : State} (n : Nat) {s : State} (hz : Keeps zz s) :
    Keeps zz (drainWaits n s) := by
  unfold drainWaits
  repeat (with_reducible first
    | assumption | (intro _; exact ⟨rfl, rfl, rfl⟩) | (intro _; exact ⟨rfl, rfl, rfl, rfl⟩) | (intro _)
    | (extract_lets +onlyGivenNames w; refine keeps_cut zz w ?_ ?_; (unfold w; clear w); rotate_left; intro _; clear_value w; revert w; intro _ _)
    | (extract_lets +onlyGivenNames w; refine (fun (_ : MemSys) => ?_) w; revert w; intro _)
    | (extract_lets +onlyGivenNames w; refine (fun (_ : Ferry) => ?_) w; revert w; intro _)
    | (extract_lets +onlyGivenNames w; refine (fun (_ : Sec) => ?_) w; revert w; intro _)
    | (extract_lets +onlyGivenNames w; refine keeps_cut_snd zz w ?_ ?_; (unfold w; clear w); rotate_left; intro _; clear_value w; revert w; intro _ _)
    | (extract_lets +onlyGivenNames w; refine keeps_cut_fst zz w ?_ ?_; (unfold w; clear w); rotate_left; intro _; clear_value w; revert w; intro _ _)
    | (extract_lets +onlyGivenNames w; refine keeps_cut_thd zz w ?_ ?_; (unfold w; clear w); rotate_left; intro _; clear_value w; revert w; intro _ _)
    | (extract_lets +onlyGivenNames w; refine (fun (_ : _ → _) => ?_) w; unfold w; clear w)
    | (extract_lets +onlyGivenNames w; clear_value w; revert w; intro _) | apply sendVerdict_keeps | apply keeps_ite
    | (apply keeps_foldl; intro _ _ _) | (apply keeps_foldl_snd; intro _ _ _) | (apply keeps_foldl_fst; intro _ _ _)
    | split | (rename_i hq; replace hq := congrArg Prod.snd hq; dsimp only at hq; rw [← hq]; clear hq)
    | (apply keeps_put; exact ⟨rfl, by simp, by simp, rfl, rfl, rfl, rfl, rfl, rfl, rfl, rfl, rfl⟩))

theorem spoilSlots_keeps {zz : State} (j : Job) {s : State} (hz : Keeps zz s) :
    Keeps zz (spoilSlots j s) := by
  unfold spoilSlots
  repeat (with_reducible first
    | assumption | apply spoil_keeps | (apply keeps_foldl; intro _ _ _))

theorem spoilJobs_keeps {zz : State} (n : Nat) {s : State} (hz : Keeps zz s) :
    Keeps zz (spoilJobs n s) := by
  unfold spoilJobs
  repeat (with_reducible first
    | assumption | apply spoilSlots_keeps | (apply keeps_foldl; intro _ _ _) | split)

theorem drainIngest_keeps {zz : State} (n : Nat) {s : State} (hz : Keeps zz s) :
    Keeps zz (drainIngest n s) := by
  unfold drainIngest
  repeat (with_reducible first
    | assumption | (intro _; exact ⟨rfl, rfl, rfl⟩) | (intro _; exact ⟨rfl, rfl, rfl, rfl⟩) | (intro _)
    | (extract_lets +onlyGivenNames w; refine keeps_cut zz w ?_ ?_; (unfold w; clear w); rotate_left; intro _; clear_value w; revert w; intro _ _)
    | (extract_lets +onlyGivenNames w; refine (fun (_ : MemSys) => ?_) w; revert w; intro _)
    | (extract_lets +onlyGivenNames w; refine (fun (_ : Ferry) => ?_) w; revert w; intro _)
    | (extract_lets +onlyGivenNames w; refine (fun (_ : Sec) => ?_) w; revert w; intro _)
    | (extract_lets +onlyGivenNames w; refine keeps_cut_snd zz w ?_ ?_; (unfold w; clear w); rotate_left; intro _; clear_value w; revert w; intro _ _)
    | (extract_lets +onlyGivenNames w; refine keeps_cut_fst zz w ?_ ?_; (unfold w; clear w); rotate_left; intro _; clear_value w; revert w; intro _ _)
    | (extract_lets +onlyGivenNames w; refine keeps_cut_thd zz w ?_ ?_; (unfold w; clear w); rotate_left; intro _; clear_value w; revert w; intro _ _)
    | (extract_lets +onlyGivenNames w; refine (fun (_ : _ → _) => ?_) w; unfold w; clear w)
    | (extract_lets +onlyGivenNames w; clear_value w; revert w; intro _) | apply spoilJobs_keeps | apply updPart_keeps
    | apply setReg_keeps | apply keeps_ite | (apply keeps_foldl; intro _ _ _) | (apply keeps_foldl_snd; intro _ _ _)
    | (apply keeps_foldl_fst; intro _ _ _) | split
    | (rename_i hq; replace hq := congrArg Prod.snd hq; dsimp only at hq; rw [← hq]; clear hq)
    | (apply keeps_put; exact ⟨rfl, by simp, by simp, rfl, rfl, rfl, rfl, rfl, rfl, rfl, rfl, rfl⟩))

theorem cutLoads_keeps {zz : State} (ids : List Nat) {s : State} (c : Nat) (hz : Keeps zz s) :
    Keeps zz (cutLoads ids s c) := by
  unfold cutLoads
  repeat (with_reducible first
    | assumption | (intro _; exact ⟨rfl, rfl, rfl⟩) | (intro _; exact ⟨rfl, rfl, rfl, rfl⟩) | (intro _)
    | (extract_lets +onlyGivenNames w; refine keeps_cut zz w ?_ ?_; (unfold w; clear w); rotate_left; intro _; clear_value w; revert w; intro _ _)
    | (extract_lets +onlyGivenNames w; refine (fun (_ : MemSys) => ?_) w; revert w; intro _)
    | (extract_lets +onlyGivenNames w; refine (fun (_ : Ferry) => ?_) w; revert w; intro _)
    | (extract_lets +onlyGivenNames w; refine (fun (_ : Sec) => ?_) w; revert w; intro _)
    | (extract_lets +onlyGivenNames w; refine keeps_cut_snd zz w ?_ ?_; (unfold w; clear w); rotate_left; intro _; clear_value w; revert w; intro _ _)
    | (extract_lets +onlyGivenNames w; refine keeps_cut_fst zz w ?_ ?_; (unfold w; clear w); rotate_left; intro _; clear_value w; revert w; intro _ _)
    | (extract_lets +onlyGivenNames w; refine keeps_cut_thd zz w ?_ ?_; (unfold w; clear w); rotate_left; intro _; clear_value w; revert w; intro _ _)
    | (extract_lets +onlyGivenNames w; refine (fun (_ : _ → _) => ?_) w; unfold w; clear w)
    | (extract_lets +onlyGivenNames w; clear_value w; revert w; intro _) | apply drawBits_keeps | apply updCore_keeps
    | apply keeps_ite | (apply keeps_foldl; intro _ _ _) | (apply keeps_foldl_snd; intro _ _ _)
    | (apply keeps_foldl_fst; intro _ _ _) | split
    | (rename_i hq; replace hq := congrArg Prod.snd hq; dsimp only at hq; rw [← hq]; clear hq)
    | (apply keeps_put; exact ⟨rfl, by simp, by simp, rfl, rfl, rfl, rfl, rfl, rfl, rfl, rfl, rfl⟩))

theorem drainLoads_keeps {zz : State} (n : Nat) {s : State} (hz : Keeps zz s) :
    Keeps zz (drainLoads n s) := by
  unfold drainLoads
  repeat (with_reducible first
    | assumption | (intro _; exact ⟨rfl, rfl, rfl⟩) | (intro _; exact ⟨rfl, rfl, rfl, rfl⟩) | (intro _)
    | (extract_lets +onlyGivenNames w; refine keeps_cut zz w ?_ ?_; (unfold w; clear w); rotate_left; intro _; clear_value w; revert w; intro _ _)
    | (extract_lets +onlyGivenNames w; refine (fun (_ : MemSys) => ?_) w; revert w; intro _)
    | (extract_lets +onlyGivenNames w; refine (fun (_ : Ferry) => ?_) w; revert w; intro _)
    | (extract_lets +onlyGivenNames w; refine (fun (_ : Sec) => ?_) w; revert w; intro _)
    | (extract_lets +onlyGivenNames w; refine keeps_cut_snd zz w ?_ ?_; (unfold w; clear w); rotate_left; intro _; clear_value w; revert w; intro _ _)
    | (extract_lets +onlyGivenNames w; refine keeps_cut_fst zz w ?_ ?_; (unfold w; clear w); rotate_left; intro _; clear_value w; revert w; intro _ _)
    | (extract_lets +onlyGivenNames w; refine keeps_cut_thd zz w ?_ ?_; (unfold w; clear w); rotate_left; intro _; clear_value w; revert w; intro _ _)
    | (extract_lets +onlyGivenNames w; refine (fun (_ : _ → _) => ?_) w; unfold w; clear w)
    | (extract_lets +onlyGivenNames w; clear_value w; revert w; intro _) | apply cutLoads_keeps | apply updCore_keeps
    | apply keeps_ite | (apply keeps_foldl; intro _ _ _) | (apply keeps_foldl_snd; intro _ _ _)
    | (apply keeps_foldl_fst; intro _ _ _) | split
    | (rename_i hq; replace hq := congrArg Prod.snd hq; dsimp only at hq; rw [← hq]; clear hq)
    | (apply keeps_put; exact ⟨rfl, by simp, by simp, rfl, rfl, rfl, rfl, rfl, rfl, rfl, rfl, rfl⟩))

theorem endDescs_keeps {zz : State} (fn : Nat) (st : Status) {s : State} (hz : Keeps zz s) :
    Keeps zz (endDescs fn st s) := by
  unfold endDescs
  repeat (with_reducible first
    | assumption | (intro _; exact ⟨rfl, rfl, rfl⟩) | (intro _; exact ⟨rfl, rfl, rfl, rfl⟩) | (intro _)
    | apply partReset_keeps | apply keeps_ite | split
    | (rename_i hq; replace hq := congrArg Prod.snd hq; dsimp only at hq; rw [← hq]; clear hq)
    | (apply keeps_put; exact ⟨rfl, by simp, by simp, rfl, rfl, rfl, rfl, rfl, rfl, rfl, rfl, rfl⟩))

theorem stepLost_keeps {zz : State} (n : Nat) (st : Status) {s : State} (hz : Keeps zz s) :
    Keeps zz (stepLost n st s) := by
  unfold stepLost
  repeat (with_reducible first
    | assumption | apply postEvent_keeps | apply keeps_ite)

theorem haltPart_keeps {zz : State} (n : Nat) (st : Status) {s : State} (hz : Keeps zz s) :
    Keeps zz (haltPart n st s) := by
  unfold haltPart
  repeat (with_reducible first
    | assumption | (intro _; exact ⟨rfl, rfl, rfl⟩) | (intro _; exact ⟨rfl, rfl, rfl, rfl⟩) | (intro _)
    | (extract_lets +onlyGivenNames w; refine keeps_cut zz w ?_ ?_; (unfold w; clear w); rotate_left; intro _; clear_value w; revert w; intro _ _)
    | (extract_lets +onlyGivenNames w; refine (fun (_ : MemSys) => ?_) w; revert w; intro _)
    | (extract_lets +onlyGivenNames w; refine (fun (_ : Ferry) => ?_) w; revert w; intro _)
    | (extract_lets +onlyGivenNames w; refine (fun (_ : Sec) => ?_) w; revert w; intro _)
    | (extract_lets +onlyGivenNames w; refine keeps_cut_snd zz w ?_ ?_; (unfold w; clear w); rotate_left; intro _; clear_value w; revert w; intro _ _)
    | (extract_lets +onlyGivenNames w; refine keeps_cut_fst zz w ?_ ?_; (unfold w; clear w); rotate_left; intro _; clear_value w; revert w; intro _ _)
    | (extract_lets +onlyGivenNames w; refine keeps_cut_thd zz w ?_ ?_; (unfold w; clear w); rotate_left; intro _; clear_value w; revert w; intro _ _)
    | (extract_lets +onlyGivenNames w; refine (fun (_ : _ → _) => ?_) w; unfold w; clear w)
    | (extract_lets +onlyGivenNames w; clear_value w; revert w; intro _) | apply stopCore_keeps | apply stepLost_keeps
    | apply updSite_keeps | apply cutColls_keeps | apply dropHeld_keeps | apply drainWaits_keeps
    | apply drainIngest_keeps | apply drainLoads_keeps | apply govStop_keeps | apply rpcClear_keeps
    | apply poolFree_keeps | apply stashReleaseAll_keeps | apply dropOrigins_keeps | apply updPart_keeps
    | apply keeps_ite | (apply keeps_foldl; intro _ _ _) | (apply keeps_foldl_snd; intro _ _ _)
    | (apply keeps_foldl_fst; intro _ _ _) | split
    | (rename_i hq; replace hq := congrArg Prod.snd hq; dsimp only at hq; rw [← hq]; clear hq)
    | (apply keeps_put; exact ⟨rfl, by simp, by simp, rfl, rfl, rfl, rfl, rfl, rfl, rfl, rfl, rfl⟩))

theorem drainBegin_keeps {zz : State} (n : Nat) (st : Status) (isReset auto : Bool) {s : State} (hz : Keeps zz s) :
    Keeps zz (drainBegin n st isReset auto s) := by
  unfold drainBegin
  repeat (with_reducible first
    | assumption | apply haltPart_keeps | apply updPart_keeps | apply endDescs_keeps | apply keeps_ite)

theorem takeRung_keeps {zz : State} (r n : Nat) (st : Status) {s : State} (hz : Keeps zz s) :
    Keeps zz (takeRung r n st s) := by
  unfold takeRung
  repeat (with_reducible first
    | assumption | apply setReg_keeps | apply postEvent_keeps | apply keeps_ite)

theorem portDown_keeps {zz : State} (p reason : Nat) {s : State} (hz : Keeps zz s) :
    Keeps zz (portDown p reason s) := by
  unfold portDown
  repeat (with_reducible first
    | assumption | apply updPort_keeps | apply postEvent_keeps | apply gzlEvent_keeps | apply keeps_ite)

theorem warmReset_keeps {zz : State} {s : State} (hz : Keeps zz s) :
    Keeps zz (warmReset s) := by
  unfold warmReset
  repeat (with_reducible first
    | assumption | (intro _; exact ⟨rfl, rfl, rfl⟩) | (intro _; exact ⟨rfl, rfl, rfl, rfl⟩) | (intro _)
    | (extract_lets +onlyGivenNames w; refine keeps_cut zz w ?_ ?_; (unfold w; clear w); rotate_left; intro _; clear_value w; revert w; intro _ _)
    | (extract_lets +onlyGivenNames w; refine (fun (_ : MemSys) => ?_) w; revert w; intro _)
    | (extract_lets +onlyGivenNames w; refine (fun (_ : Ferry) => ?_) w; revert w; intro _)
    | (extract_lets +onlyGivenNames w; refine (fun (_ : Sec) => ?_) w; revert w; intro _)
    | (extract_lets +onlyGivenNames w; refine keeps_cut_snd zz w ?_ ?_; (unfold w; clear w); rotate_left; intro _; clear_value w; revert w; intro _ _)
    | (extract_lets +onlyGivenNames w; refine keeps_cut_fst zz w ?_ ?_; (unfold w; clear w); rotate_left; intro _; clear_value w; revert w; intro _ _)
    | (extract_lets +onlyGivenNames w; refine keeps_cut_thd zz w ?_ ?_; (unfold w; clear w); rotate_left; intro _; clear_value w; revert w; intro _ _)
    | (extract_lets +onlyGivenNames w; refine (fun (_ : _ → _) => ?_) w; unfold w; clear w)
    | (extract_lets +onlyGivenNames w; clear_value w; revert w; intro _) | apply govStop_keeps | apply cutColls_keeps
    | apply spoilJobs_keeps | apply stepLost_keeps | apply portDown_keeps | apply clearCores_keeps
    | apply setReg_keeps | apply keeps_ite | (apply keeps_foldl; intro _ _ _) | (apply keeps_foldl_snd; intro _ _ _)
    | (apply keeps_foldl_fst; intro _ _ _) | split
    | (rename_i hq; replace hq := congrArg Prod.snd hq; dsimp only at hq; rw [← hq]; clear hq)
    | (apply keeps_put; exact ⟨rfl, by simp, by simp, rfl, rfl, rfl, rfl, rfl, rfl, rfl, rfl, rfl⟩))

theorem powerCycle_keeps {zz : State} {s : State} (hz : Keeps zz s) :
    Keeps zz (powerCycle s) := by
  unfold powerCycle
  repeat (with_reducible first
    | assumption | (intro _; exact ⟨rfl, rfl, rfl⟩) | (intro _; exact ⟨rfl, rfl, rfl, rfl⟩) | (intro _)
    | (extract_lets +onlyGivenNames w; refine keeps_cut zz w ?_ ?_; (unfold w; clear w); rotate_left; intro _; clear_value w; revert w; intro _ _)
    | (extract_lets +onlyGivenNames w; refine (fun (_ : MemSys) => ?_) w; revert w; intro _)
    | (extract_lets +onlyGivenNames w; refine (fun (_ : Ferry) => ?_) w; revert w; intro _)
    | (extract_lets +onlyGivenNames w; refine (fun (_ : Sec) => ?_) w; revert w; intro _)
    | (extract_lets +onlyGivenNames w; refine keeps_cut_snd zz w ?_ ?_; (unfold w; clear w); rotate_left; intro _; clear_value w; revert w; intro _ _)
    | (extract_lets +onlyGivenNames w; refine keeps_cut_fst zz w ?_ ?_; (unfold w; clear w); rotate_left; intro _; clear_value w; revert w; intro _ _)
    | (extract_lets +onlyGivenNames w; refine keeps_cut_thd zz w ?_ ?_; (unfold w; clear w); rotate_left; intro _; clear_value w; revert w; intro _ _)
    | (extract_lets +onlyGivenNames w; refine (fun (_ : _ → _) => ?_) w; unfold w; clear w)
    | (extract_lets +onlyGivenNames w; clear_value w; revert w; intro _) | apply warmReset_keeps
    | apply takeRung_keeps | apply keeps_ite | split
    | (rename_i hq; replace hq := congrArg Prod.snd hq; dsimp only at hq; rw [← hq]; clear hq)
    | (apply keeps_put; exact ⟨rfl, by simp, by simp, rfl, rfl, rfl, rfl, rfl, rfl, rfl, rfl, rfl⟩))

theorem rungThree_keeps {zz : State} (n : Nat) (st : Status) {s : State} (hz : Keeps zz s) :
    Keeps zz (rungThree n st s) := by
  unfold rungThree
  repeat (with_reducible first
    | assumption | (intro _; exact ⟨rfl, rfl, rfl⟩) | (intro _; exact ⟨rfl, rfl, rfl, rfl⟩) | (intro _)
    | (extract_lets +onlyGivenNames w; refine keeps_cut zz w ?_ ?_; (unfold w; clear w); rotate_left; intro _; clear_value w; revert w; intro _ _)
    | (extract_lets +onlyGivenNames w; refine (fun (_ : MemSys) => ?_) w; revert w; intro _)
    | (extract_lets +onlyGivenNames w; refine (fun (_ : Ferry) => ?_) w; revert w; intro _)
    | (extract_lets +onlyGivenNames w; refine (fun (_ : Sec) => ?_) w; revert w; intro _)
    | (extract_lets +onlyGivenNames w; refine keeps_cut_snd zz w ?_ ?_; (unfold w; clear w); rotate_left; intro _; clear_value w; revert w; intro _ _)
    | (extract_lets +onlyGivenNames w; refine keeps_cut_fst zz w ?_ ?_; (unfold w; clear w); rotate_left; intro _; clear_value w; revert w; intro _ _)
    | (extract_lets +onlyGivenNames w; refine keeps_cut_thd zz w ?_ ?_; (unfold w; clear w); rotate_left; intro _; clear_value w; revert w; intro _ _)
    | (extract_lets +onlyGivenNames w; refine (fun (_ : _ → _) => ?_) w; unfold w; clear w)
    | (extract_lets +onlyGivenNames w; clear_value w; revert w; intro _) | apply takeRung_keeps
    | apply powerCycle_keeps | apply warmReset_keeps | apply keeps_ite | split
    | (rename_i hq; replace hq := congrArg Prod.snd hq; dsimp only at hq; rw [← hq]; clear hq)
    | (apply keeps_put; exact ⟨rfl, by simp, by simp, rfl, rfl, rfl, rfl, rfl, rfl, rfl, rfl, rfl⟩))

theorem moduleReplace_keeps {zz : State} (cause : Nat) {s : State} (hz : Keeps zz s) :
    Keeps zz (moduleReplace cause s) := by
  unfold moduleReplace
  repeat (with_reducible first
    | assumption | (intro _; exact ⟨rfl, rfl, rfl⟩) | (intro _; exact ⟨rfl, rfl, rfl, rfl⟩) | (intro _)
    | (extract_lets +onlyGivenNames w; refine keeps_cut zz w ?_ ?_; (unfold w; clear w); rotate_left; intro _; clear_value w; revert w; intro _ _)
    | (extract_lets +onlyGivenNames w; refine (fun (_ : MemSys) => ?_) w; revert w; intro _)
    | (extract_lets +onlyGivenNames w; refine (fun (_ : Ferry) => ?_) w; revert w; intro _)
    | (extract_lets +onlyGivenNames w; refine (fun (_ : Sec) => ?_) w; revert w; intro _)
    | (extract_lets +onlyGivenNames w; refine keeps_cut_snd zz w ?_ ?_; (unfold w; clear w); rotate_left; intro _; clear_value w; revert w; intro _ _)
    | (extract_lets +onlyGivenNames w; refine keeps_cut_fst zz w ?_ ?_; (unfold w; clear w); rotate_left; intro _; clear_value w; revert w; intro _ _)
    | (extract_lets +onlyGivenNames w; refine keeps_cut_thd zz w ?_ ?_; (unfold w; clear w); rotate_left; intro _; clear_value w; revert w; intro _ _)
    | (extract_lets +onlyGivenNames w; refine (fun (_ : _ → _) => ?_) w; unfold w; clear w)
    | (extract_lets +onlyGivenNames w; clear_value w; revert w; intro _) | apply warmReset_keeps
    | apply postEvent_keeps | apply keeps_ite | split
    | (rename_i hq; replace hq := congrArg Prod.snd hq; dsimp only at hq; rw [← hq]; clear hq)
    | (apply keeps_put; exact ⟨rfl, by simp, by simp, rfl, rfl, rfl, rfl, rfl, rfl, rfl, rfl, rfl⟩))

theorem rungTwo_keeps {zz : State} (n : Nat) (st : Status) {s : State} (hz : Keeps zz s) :
    Keeps zz (rungTwo n st s) := by
  unfold rungTwo
  repeat (with_reducible first
    | assumption | apply notice_keeps | apply drainBegin_keeps | apply takeRung_keeps)

theorem uncorrected_keeps {zz : State} (n : Nat) (st : Status) {s : State} (hz : Keeps zz s) :
    Keeps zz (uncorrected n st s) := by
  unfold uncorrected
  repeat (with_reducible first
    | assumption | apply countEvent_keeps | apply orReg_keeps | apply rungThree_keeps | apply takeRung_keeps
    | apply rungTwo_keeps | apply keeps_ite)

theorem unmapCore_keeps {zz : State} (c : Nat) {s : State} (hz : Keeps zz s) :
    Keeps zz (unmapCore c s) := by
  unfold unmapCore
  repeat (with_reducible first
    | assumption | apply postEvent_keeps | apply setPlace_keeps | apply takeRung_keeps | apply countEvent_keeps
    | apply notice_keeps | apply drainBegin_keeps | apply keeps_ite)

theorem retireSite_keeps {zz : State} (t : Nat) (part : Nat) {s : State} (hz : Keeps zz s) :
    Keeps zz (retireSite t part s) := by
  unfold retireSite
  repeat (with_reducible first
    | assumption | apply postEvent_keeps | apply queueRepair_keeps | apply updSite_keeps)

theorem replaceCore_keeps {zz : State} (c t : Nat) {s : State} (hz : Keeps zz s) :
    Keeps zz (replaceCore c t s) := by
  unfold replaceCore
  repeat (with_reducible first
    | assumption | apply moveCore_keeps | apply unmapCore_keeps | split)

theorem suspectMove_keeps {zz : State} (c : Nat) {s : State} (hz : Keeps zz s) :
    Keeps zz (suspectMove c s).2 := by
  unfold suspectMove
  repeat (with_reducible first
    | assumption
    | (extract_lets +onlyGivenNames w; refine keeps_cut zz w ?_ ?_; (unfold w; clear w); rotate_left; intro _; clear_value w; revert w; intro _ _)
    | (extract_lets +onlyGivenNames w; clear_value w; revert w; intro _) | apply updSite_keeps | apply moveCore_keeps
    | split)

theorem enterFaulted_keeps {zz : State} (c engine : Nat) {s : State} (hz : Keeps zz s) :
    Keeps zz (enterFaulted c engine s) := by
  unfold enterFaulted
  repeat (with_reducible first
    | assumption | (intro _; exact ⟨rfl, rfl, rfl⟩) | (intro _; exact ⟨rfl, rfl, rfl, rfl⟩) | (intro _)
    | (extract_lets +onlyGivenNames w; refine keeps_cut zz w ?_ ?_; (unfold w; clear w); rotate_left; intro _; clear_value w; revert w; intro _ _)
    | (extract_lets +onlyGivenNames w; refine (fun (_ : MemSys) => ?_) w; revert w; intro _)
    | (extract_lets +onlyGivenNames w; refine (fun (_ : Ferry) => ?_) w; revert w; intro _)
    | (extract_lets +onlyGivenNames w; refine (fun (_ : Sec) => ?_) w; revert w; intro _)
    | (extract_lets +onlyGivenNames w; refine keeps_cut_snd zz w ?_ ?_; (unfold w; clear w); rotate_left; intro _; clear_value w; revert w; intro _ _)
    | (extract_lets +onlyGivenNames w; refine keeps_cut_fst zz w ?_ ?_; (unfold w; clear w); rotate_left; intro _; clear_value w; revert w; intro _ _)
    | (extract_lets +onlyGivenNames w; refine keeps_cut_thd zz w ?_ ?_; (unfold w; clear w); rotate_left; intro _; clear_value w; revert w; intro _ _)
    | (extract_lets +onlyGivenNames w; refine (fun (_ : _ → _) => ?_) w; unfold w; clear w)
    | (extract_lets +onlyGivenNames w; clear_value w; revert w; intro _) | apply spoilAll_keeps | apply setCore_keeps
    | apply keeps_ite | split
    | (rename_i hq; replace hq := congrArg Prod.snd hq; dsimp only at hq; rw [← hq]; clear hq)
    | (apply keeps_put; exact ⟨rfl, by simp, by simp, rfl, rfl, rfl, rfl, rfl, rfl, rfl, rfl, rfl⟩))

theorem coreFault_keeps {zz : State} (c engine : Nat) (atIssue : Bool) (loc : Word) (f : Flt) {s : State} (hz : Keeps zz s) :
    Keeps zz (coreFault c engine atIssue loc f s) := by
  unfold coreFault
  repeat (with_reducible first
    | assumption
    | (extract_lets +onlyGivenNames w; refine keeps_cut zz w ?_ ?_; (unfold w; clear w); rotate_left; intro _; clear_value w; revert w; intro _ _)
    | (extract_lets +onlyGivenNames w; clear_value w; revert w; intro _) | apply enterFaulted_keeps
    | apply updCore_keeps | apply postEvent_keeps | apply finishDesc_keeps | apply updStep_keeps
    | apply raiseCause_keeps | apply raiseEnd_keeps | apply suspectMove_keeps | apply uncorrected_keeps | split
    | (apply keeps_put; exact ⟨rfl, by simp, by simp, rfl, rfl, rfl, rfl, rfl, rfl, rfl, rfl, rfl⟩))

end Sys2Proof.Machine
end

