-- ==== Sys2Proof/Laws/KeepsSettle.lean ====
section
/-!
SUPPORT. What the operations of Machine/Settle.lean keep (Laws/Keeps.lean).
-/
set_option linter.all false
namespace Sys2Proof.Machine

theorem giveVerdict_keeps {zz : State} (o : Origin) (e : Ending) (node : Nat) {s : State} (hz : Keeps zz s) :
    Keeps zz (giveVerdict o e node s) := by
  unfold giveVerdict
  repeat (with_reducible first
    | assumption | (intro _; exact ⟨rfl, rfl, rfl⟩) | (intro _; exact ⟨rfl, rfl, rfl, rfl⟩) | (intro _)
    | apply updCore_keeps | apply finishDesc_keeps | apply sendVerdict_keeps | apply keeps_ite | split
    | (rename_i hq; replace hq := congrArg Prod.snd hq; dsimp only at hq; rw [← hq]; clear hq)
    | (apply keeps_put; exact ⟨rfl, by simp, by simp, rfl, rfl, rfl, rfl, rfl, rfl, rfl, rfl, rfl⟩))

theorem postSignal_keeps {zz : State} (g : Signal) {s : State} (hz : Keeps zz s) :
    Keeps zz (postSignal g s) := by
  unfold postSignal
  repeat (with_reducible first
    | assumption | (intro _; exact ⟨rfl, rfl, rfl⟩) | (intro _; exact ⟨rfl, rfl, rfl, rfl⟩) | (intro _)
    | apply keeps_ite | split
    | (rename_i hq; replace hq := congrArg Prod.snd hq; dsimp only at hq; rw [← hq]; clear hq)
    | (apply keeps_put; exact ⟨rfl, by simp, by simp, rfl, rfl, rfl, rfl, rfl, rfl, rfl, rfl, rfl⟩))

theorem postWait_keeps {zz : State} (w : Wait) {s : State} (hz : Keeps zz s) :
    Keeps zz (postWait w s) := by
  unfold postWait
  repeat (with_reducible first
    | assumption | (intro _; exact ⟨rfl, rfl, rfl⟩) | (intro _; exact ⟨rfl, rfl, rfl, rfl⟩) | (intro _)
    | apply keeps_ite | split
    | (rename_i hq; replace hq := congrArg Prod.snd hq; dsimp only at hq; rw [← hq]; clear hq)
    | (apply keeps_put; exact ⟨rfl, by simp, by simp, rfl, rfl, rfl, rfl, rfl, rfl, rfl, rfl, rfl⟩))

theorem synEvent_keeps {zz : State} (n bit i : Nat) {s : State} (hz : Keeps zz s) :
    Keeps zz (synEvent n bit i s) := by
  unfold synEvent
  repeat (with_reducible first
    | assumption | apply setReg_keeps)

theorem countTimeout_keeps {zz : State} (w : Wait) {s : State} (hz : Keeps zz s) :
    Keeps zz (countTimeout w s) := by
  unfold countTimeout
  repeat (with_reducible first
    | assumption | apply synEvent_keeps | apply incReg_keeps)

theorem endWait_keeps {zz : State} (w : Wait) {s : State} (hz : Keeps zz s) :
    Keeps zz (endWait w s) := by
  unfold endWait
  repeat (with_reducible first
    | assumption | apply giveVerdict_keeps | apply countTimeout_keeps)

theorem recheck_keeps {zz : State} (c : Nat) {s : State} (hz : Keeps zz s) :
    Keeps zz (recheck c s) := by
  unfold recheck
  repeat (with_reducible first
    | assumption | (intro _; exact ⟨rfl, rfl, rfl⟩) | (intro _; exact ⟨rfl, rfl, rfl, rfl⟩) | (intro _)
    | (extract_lets +onlyGivenNames w; refine keeps_cut zz w ?_ ?_; (unfold w; clear w); rotate_left; intro _; clear_value w; revert w; intro _ _)
    | (extract_lets +onlyGivenNames w; refine (fun (_ : MemSys) => ?_) w; revert w; intro _)
    | (extract_lets +onlyGivenNames w; refine (fun (_ : Ferry) => ?_) w; revert w; intro _)
    | (extract_lets +onlyGivenNames w; refine (fun (_ : Sec) => ?_) w; revert w; intro _)
    | (extract_lets +onlyGivenNames w; refine keeps_cut_snd zz w ?_ ?_; (unfold w; clear w); rotate_left; intro _; clear_value w; revert w; intro _ _)
    | (extract_lets +onlyGivenNames w; refine keeps_cut_fst zz w ?_ ?_; (unfold w; clear w); rotate_left; intro _; clear_value w; revert w; intro _ _)
    | (extract_lets +onlyGivenNames w; refine keeps_cut_thd zz w ?_ ?_; (unfold w; clear w); rotate_left; intro _; clear_value w; revert w; intro _ _)
    | (extract_lets +onlyGivenNames w; refine (fun (_ : _ → _) => ?_) w; unfold w; clear w)
    | (extract_lets +onlyGivenNames w; clear_value w; revert w; intro _) | apply giveVerdict_keeps
    | apply endWait_keeps | apply keeps_ite | (apply keeps_foldl; intro _ _ _) | (apply keeps_foldl_snd; intro _ _ _)
    | (apply keeps_foldl_fst; intro _ _ _) | split
    | (rename_i hq; replace hq := congrArg Prod.snd hq; dsimp only at hq; rw [← hq]; clear hq)
    | (apply keeps_put; exact ⟨rfl, by simp, by simp, rfl, rfl, rfl, rfl, rfl, rfl, rfl, rfl, rfl⟩))

theorem addCounter_keeps {zz : State} (n i c inc : Nat) {s : State} (hz : Keeps zz s) :
    Keeps zz (addCounter n i c inc s).2 := by
  unfold addCounter
  repeat (with_reducible first
    | assumption | (intro _; exact ⟨rfl, rfl, rfl⟩) | (intro _; exact ⟨rfl, rfl, rfl, rfl⟩) | (intro _)
    | (extract_lets +onlyGivenNames w; refine keeps_cut zz w ?_ ?_; (unfold w; clear w); rotate_left; intro _; clear_value w; revert w; intro _ _)
    | (extract_lets +onlyGivenNames w; refine (fun (_ : MemSys) => ?_) w; revert w; intro _)
    | (extract_lets +onlyGivenNames w; refine (fun (_ : Ferry) => ?_) w; revert w; intro _)
    | (extract_lets +onlyGivenNames w; refine (fun (_ : Sec) => ?_) w; revert w; intro _)
    | (extract_lets +onlyGivenNames w; refine keeps_cut_snd zz w ?_ ?_; (unfold w; clear w); rotate_left; intro _; clear_value w; revert w; intro _ _)
    | (extract_lets +onlyGivenNames w; refine keeps_cut_fst zz w ?_ ?_; (unfold w; clear w); rotate_left; intro _; clear_value w; revert w; intro _ _)
    | (extract_lets +onlyGivenNames w; refine keeps_cut_thd zz w ?_ ?_; (unfold w; clear w); rotate_left; intro _; clear_value w; revert w; intro _ _)
    | (extract_lets +onlyGivenNames w; refine (fun (_ : _ → _) => ?_) w; unfold w; clear w)
    | (extract_lets +onlyGivenNames w; clear_value w; revert w; intro _) | apply postEvent_keeps
    | apply synEvent_keeps | apply keeps_ite | split
    | (rename_i hq; replace hq := congrArg Prod.snd hq; dsimp only at hq; rw [← hq]; clear hq)
    | (apply keeps_put; exact ⟨rfl, by simp, by simp, rfl, rfl, rfl, rfl, rfl, rfl, rfl, rfl, rfl⟩))

theorem engineAnswer_keeps {zz : State} (c e : Nat) {s : State} (hz : Keeps zz s) :
    Keeps zz (engineAnswer c e s) := by
  unfold engineAnswer
  repeat (with_reducible first
    | assumption | apply updCore_keeps)

theorem signalDone_keeps {zz : State} (o : Origin) (saturated : Bool) {s : State} (hz : Keeps zz s) :
    Keeps zz (signalDone o saturated s) := by
  unfold signalDone
  repeat (with_reducible first
    | assumption | apply updCore_keeps | apply engineAnswer_keeps | apply finishDesc_keeps | split)

theorem applySignal_keeps {zz : State} (n i inc : Nat) (far : Bool) {s : State} (hz : Keeps zz s) :
    Keeps zz (applySignal n i inc far s).2 := by
  unfold applySignal
  repeat (with_reducible first
    | assumption | (intro _; exact ⟨rfl, rfl, rfl⟩) | (intro _; exact ⟨rfl, rfl, rfl, rfl⟩) | (intro _)
    | (extract_lets +onlyGivenNames w; refine keeps_cut zz w ?_ ?_; (unfold w; clear w); rotate_left; intro _; clear_value w; revert w; intro _ _)
    | (extract_lets +onlyGivenNames w; refine (fun (_ : MemSys) => ?_) w; revert w; intro _)
    | (extract_lets +onlyGivenNames w; refine (fun (_ : Ferry) => ?_) w; revert w; intro _)
    | (extract_lets +onlyGivenNames w; refine (fun (_ : Sec) => ?_) w; revert w; intro _)
    | (extract_lets +onlyGivenNames w; refine keeps_cut_snd zz w ?_ ?_; (unfold w; clear w); rotate_left; intro _; clear_value w; revert w; intro _ _)
    | (extract_lets +onlyGivenNames w; refine keeps_cut_fst zz w ?_ ?_; (unfold w; clear w); rotate_left; intro _; clear_value w; revert w; intro _ _)
    | (extract_lets +onlyGivenNames w; refine keeps_cut_thd zz w ?_ ?_; (unfold w; clear w); rotate_left; intro _; clear_value w; revert w; intro _ _)
    | (extract_lets +onlyGivenNames w; refine (fun (_ : _ → _) => ?_) w; unfold w; clear w)
    | (extract_lets +onlyGivenNames w; clear_value w; revert w; intro _) | apply synEvent_keeps | apply incReg_keeps
    | apply addCounter_keeps | apply recheck_keeps | apply keeps_ite | split
    | (rename_i hq; replace hq := congrArg Prod.snd hq; dsimp only at hq; rw [← hq]; clear hq))

theorem endColl_keeps {zz : State} (n id : Nat) (st : Status) (first : Nat) {s : State} (hz : Keeps zz s) :
    Keeps zz (endColl n id st first s) := by
  unfold endColl
  repeat (with_reducible first
    | assumption | (intro _; exact ⟨rfl, rfl, rfl⟩) | (intro _; exact ⟨rfl, rfl, rfl, rfl⟩) | (intro _)
    | (extract_lets +onlyGivenNames w; refine keeps_cut zz w ?_ ?_; (unfold w; clear w); rotate_left; intro _; clear_value w; revert w; intro _ _)
    | (extract_lets +onlyGivenNames w; refine (fun (_ : MemSys) => ?_) w; revert w; intro _)
    | (extract_lets +onlyGivenNames w; refine (fun (_ : Ferry) => ?_) w; revert w; intro _)
    | (extract_lets +onlyGivenNames w; refine (fun (_ : Sec) => ?_) w; revert w; intro _)
    | (extract_lets +onlyGivenNames w; refine keeps_cut_snd zz w ?_ ?_; (unfold w; clear w); rotate_left; intro _; clear_value w; revert w; intro _ _)
    | (extract_lets +onlyGivenNames w; refine keeps_cut_fst zz w ?_ ?_; (unfold w; clear w); rotate_left; intro _; clear_value w; revert w; intro _ _)
    | (extract_lets +onlyGivenNames w; refine keeps_cut_thd zz w ?_ ?_; (unfold w; clear w); rotate_left; intro _; clear_value w; revert w; intro _ _)
    | (extract_lets +onlyGivenNames w; refine (fun (_ : _ → _) => ?_) w; unfold w; clear w)
    | (extract_lets +onlyGivenNames w; clear_value w; revert w; intro _) | apply dropUnsent_keeps
    | apply updColl_keeps | apply updPart_keeps | apply collSpoil_keeps | apply collRecord_keeps
    | apply collEvent_keeps | apply setReg_keeps | apply postEvent_keeps | apply leaveIdle_keeps
    | apply applySignal_keeps | apply noteStep_keeps | apply raiseEnd_keeps | apply finishDesc_keeps | apply keeps_ite
    | split | (rename_i hq; replace hq := congrArg Prod.snd hq; dsimp only at hq; rw [← hq]; clear hq)
    | (apply keeps_put; exact ⟨rfl, by simp, by simp, rfl, rfl, rfl, rfl, rfl, rfl, rfl, rfl, rfl⟩))

theorem settleDesc_keeps {zz : State} (id : Nat) (o : Sent) (r : Reply) {s : State} (hz : Keeps zz s) :
    Keeps zz (settleDesc id o r s) := by
  unfold settleDesc
  repeat (with_reducible first
    | assumption
    | (extract_lets +onlyGivenNames w; refine keeps_cut zz w ?_ ?_; (unfold w; clear w); rotate_left; intro _; clear_value w; revert w; intro _ _)
    | apply finishDesc_keeps | apply giveVerdict_keeps | apply updDesc_keeps | split)

theorem noteSentCore_keeps {zz : State} (c : Nat) (o : Sent) (degraded : Bool) {s : State} (hz : Keeps zz s) :
    Keeps zz (noteSentCore c o degraded s) := by
  unfold noteSentCore
  repeat (with_reducible first
    | assumption | apply noteCore_keeps | (apply keeps_foldl; intro _ _ _))

theorem noteSentDesc_keeps {zz : State} (id : Nat) (o : Sent) (degraded : Bool) {s : State} (hz : Keeps zz s) :
    Keeps zz (noteSentDesc id o degraded s) := by
  unfold noteSentDesc
  repeat (with_reducible first
    | assumption | apply noteDesc_keeps | (apply keeps_foldl; intro _ _ _))

theorem settleEngine_keeps {zz : State} (c e : Nat) (loc : Word) (o : Sent) (r : Reply) (degraded : Bool) {s : State} (hz : Keeps zz s) :
    Keeps zz (settleEngine c e loc o r degraded s) := by
  unfold settleEngine
  repeat (with_reducible first
    | assumption | (intro _; exact ⟨rfl, rfl, rfl⟩) | (intro _; exact ⟨rfl, rfl, rfl, rfl⟩) | (intro _)
    | (extract_lets +onlyGivenNames w; refine keeps_cut zz w ?_ ?_; (unfold w; clear w); rotate_left; intro _; clear_value w; revert w; intro _ _)
    | (extract_lets +onlyGivenNames w; refine (fun (_ : MemSys) => ?_) w; revert w; intro _)
    | (extract_lets +onlyGivenNames w; refine (fun (_ : Ferry) => ?_) w; revert w; intro _)
    | (extract_lets +onlyGivenNames w; refine (fun (_ : Sec) => ?_) w; revert w; intro _)
    | (extract_lets +onlyGivenNames w; refine keeps_cut_snd zz w ?_ ?_; (unfold w; clear w); rotate_left; intro _; clear_value w; revert w; intro _ _)
    | (extract_lets +onlyGivenNames w; refine keeps_cut_fst zz w ?_ ?_; (unfold w; clear w); rotate_left; intro _; clear_value w; revert w; intro _ _)
    | (extract_lets +onlyGivenNames w; refine keeps_cut_thd zz w ?_ ?_; (unfold w; clear w); rotate_left; intro _; clear_value w; revert w; intro _ _)
    | (extract_lets +onlyGivenNames w; refine (fun (_ : _ → _) => ?_) w; unfold w; clear w)
    | (extract_lets +onlyGivenNames w; clear_value w; revert w; intro _) | apply coreFault_keeps
    | apply noteSentCore_keeps | apply engineAnswer_keeps | apply updCore_keeps | apply keeps_ite | split
    | (rename_i hq; replace hq := congrArg Prod.snd hq; dsimp only at hq; rw [← hq]; clear hq)
    | (apply keeps_put; exact ⟨rfl, by simp, by simp, rfl, rfl, rfl, rfl, rfl, rfl, rfl, rfl, rfl⟩))

theorem settleSignal_keeps {zz : State} (c e no : Nat) (loc : Word) (o : Sent) (r : Reply) (degraded : Bool) {s : State} (hz : Keeps zz s) :
    Keeps zz (settleSignal c e no loc o r degraded s) := by
  unfold settleSignal
  repeat (with_reducible first
    | assumption | (intro _; exact ⟨rfl, rfl, rfl⟩) | (intro _; exact ⟨rfl, rfl, rfl, rfl⟩) | (intro _)
    | apply coreFault_keeps | apply updCore_keeps | apply signalDone_keeps | apply noteSentCore_keeps
    | apply keeps_ite | split
    | (rename_i hq; replace hq := congrArg Prod.snd hq; dsimp only at hq; rw [← hq]; clear hq)
    | (apply keeps_put; exact ⟨rfl, by simp, by simp, rfl, rfl, rfl, rfl, rfl, rfl, rfl, rfl, rfl⟩))

theorem dropRemote_keeps {zz : State} (at_ : Origin) {s : State} (hz : Keeps zz s) :
    Keeps zz (dropRemote at_ s) := by
  unfold dropRemote
  repeat (with_reducible first
    | assumption | (intro _; exact ⟨rfl, rfl, rfl⟩) | (intro _; exact ⟨rfl, rfl, rfl, rfl⟩) | (intro _)
    | apply keeps_ite | split
    | (rename_i hq; replace hq := congrArg Prod.snd hq; dsimp only at hq; rw [← hq]; clear hq)
    | (apply keeps_put; exact ⟨rfl, by simp, by simp, rfl, rfl, rfl, rfl, rfl, rfl, rfl, rfl, rfl⟩))

theorem settleWait_keeps {zz : State} (c : Nat) (o : Sent) (r : Reply) (degraded : Bool) {s : State} (hz : Keeps zz s) :
    Keeps zz (settleWait c o r degraded s) := by
  unfold settleWait
  repeat (with_reducible first
    | assumption | (intro _; exact ⟨rfl, rfl, rfl⟩) | (intro _; exact ⟨rfl, rfl, rfl, rfl⟩) | (intro _)
    | apply giveVerdict_keeps | apply noteSentCore_keeps | apply keeps_ite | split
    | (rename_i hq; replace hq := congrArg Prod.snd hq; dsimp only at hq; rw [← hq]; clear hq)
    | (apply keeps_put; exact ⟨rfl, by simp, by simp, rfl, rfl, rfl, rfl, rfl, rfl, rfl, rfl, rfl⟩))

theorem settleColl_keeps {zz : State} (n id : Nat) (o : Sent) (r : Reply) (degraded : Bool) {s : State} (hz : Keeps zz s) :
    Keeps zz (settleColl n id o r degraded s) := by
  unfold settleColl
  repeat (with_reducible first
    | assumption | (intro _; exact ⟨rfl, rfl, rfl⟩) | (intro _; exact ⟨rfl, rfl, rfl, rfl⟩) | (intro _)
    | (extract_lets +onlyGivenNames w; refine keeps_cut zz w ?_ ?_; (unfold w; clear w); rotate_left; intro _; clear_value w; revert w; intro _ _)
    | (extract_lets +onlyGivenNames w; refine (fun (_ : MemSys) => ?_) w; revert w; intro _)
    | (extract_lets +onlyGivenNames w; refine (fun (_ : Ferry) => ?_) w; revert w; intro _)
    | (extract_lets +onlyGivenNames w; refine (fun (_ : Sec) => ?_) w; revert w; intro _)
    | (extract_lets +onlyGivenNames w; refine keeps_cut_snd zz w ?_ ?_; (unfold w; clear w); rotate_left; intro _; clear_value w; revert w; intro _ _)
    | (extract_lets +onlyGivenNames w; refine keeps_cut_fst zz w ?_ ?_; (unfold w; clear w); rotate_left; intro _; clear_value w; revert w; intro _ _)
    | (extract_lets +onlyGivenNames w; refine keeps_cut_thd zz w ?_ ?_; (unfold w; clear w); rotate_left; intro _; clear_value w; revert w; intro _ _)
    | (extract_lets +onlyGivenNames w; refine (fun (_ : _ → _) => ?_) w; unfold w; clear w)
    | (extract_lets +onlyGivenNames w; clear_value w; revert w; intro _) | apply updColl_keeps | apply noteDesc_keeps
    | apply endColl_keeps | apply keeps_ite | split
    | (rename_i hq; replace hq := congrArg Prod.snd hq; dsimp only at hq; rw [← hq]; clear hq)
    | (apply keeps_put; exact ⟨rfl, by simp, by simp, rfl, rfl, rfl, rfl, rfl, rfl, rfl, rfl, rfl⟩))

theorem settleSlipway_keeps {zz : State} (n : Nat) (o : Sent) (r : Reply) {s : State} (hz : Keeps zz s) :
    Keeps zz (settleSlipway n o r s) := by
  unfold settleSlipway
  repeat (with_reducible first
    | assumption | (intro _; exact ⟨rfl, rfl, rfl⟩) | (intro _; exact ⟨rfl, rfl, rfl, rfl⟩) | (intro _)
    | apply postEvent_keeps | apply keeps_ite | split
    | (rename_i hq; replace hq := congrArg Prod.snd hq; dsimp only at hq; rw [← hq]; clear hq)
    | (apply keeps_put; exact ⟨rfl, by simp, by simp, rfl, rfl, rfl, rfl, rfl, rfl, rfl, rfl, rfl⟩))

theorem settlePage_keeps {zz : State} (n page : Nat) (o : Sent) (r : Reply) {s : State} (hz : Keeps zz s) :
    Keeps zz (settlePage n page o r s) := by
  unfold settlePage
  repeat (with_reducible first
    | assumption | (intro _; exact ⟨rfl, rfl, rfl⟩) | (intro _; exact ⟨rfl, rfl, rfl, rfl⟩) | (intro _)
    | apply memPut_keeps | apply rpcDrop_keeps | apply keeps_ite | split
    | (rename_i hq; replace hq := congrArg Prod.snd hq; dsimp only at hq; rw [← hq]; clear hq)
    | (apply keeps_put; exact ⟨rfl, by simp, by simp, rfl, rfl, rfl, rfl, rfl, rfl, rfl, rfl, rfl⟩))

theorem settleMemory_keeps {zz : State} (r : Reply) {s : State} (hz : Keeps zz s) :
    Keeps zz (settleMemory r s) := by
  unfold settleMemory
  repeat (with_reducible first
    | assumption | (intro _; exact ⟨rfl, rfl, rfl⟩) | (intro _; exact ⟨rfl, rfl, rfl, rfl⟩) | (intro _)
    | apply emit_keeps | apply keeps_ite | split
    | (rename_i hq; replace hq := congrArg Prod.snd hq; dsimp only at hq; rw [← hq]; clear hq)
    | (apply keeps_put; exact ⟨rfl, by simp, by simp, rfl, rfl, rfl, rfl, rfl, rfl, rfl, rfl, rfl⟩))

theorem settleAt_keeps {zz : State} (at_ : Origin) (o : Sent) (r : Reply) (degraded : Bool) {s : State} (hz : Keeps zz s) :
    Keeps zz (settleAt at_ o r degraded s) := by
  induction at_ generalizing r s with
  | stash n slot entry asker ih => exact ih _ (keeps_ite (stashPoolFailed_keeps _ _ _ hz) hz)
  | engine c e loc => exact settleEngine_keeps _ _ _ _ _ _ hz
  | signal c e no loc => exact settleSignal_keeps _ _ _ _ _ _ _ hz
  | coreWait c => exact settleWait_keeps _ _ _ _ (dropRemote_keeps _ hz)
  | desc id => exact settleDesc_keeps _ _ _ (noteSentDesc_keeps _ _ _ (dropRemote_keeps _ hz))
  | coll n id => exact settleColl_keeps _ _ _ _ _ hz
  | slipway n => exact settleSlipway_keeps _ _ _ hz
  | rpc n page => exact settlePage_keeps _ _ _ _ hz
  | memory n => exact settleMemory_keeps _ hz
  | _ => exact hz

theorem settle_keeps {zz : State} (o : Sent) (r : Reply) (degraded : Bool) {s : State} (hz : Keeps zz s) :
    Keeps zz (settle o r degraded s) := by
  unfold settle
  repeat (with_reducible first
    | assumption | (intro _; exact ⟨rfl, rfl, rfl⟩) | (intro _; exact ⟨rfl, rfl, rfl, rfl⟩) | (intro _)
    | apply settleAt_keeps | apply incReg_keeps | apply keeps_ite | split
    | (rename_i hq; replace hq := congrArg Prod.snd hq; dsimp only at hq; rw [← hq]; clear hq)
    | (apply keeps_put; exact ⟨rfl, by simp, by simp, rfl, rfl, rfl, rfl, rfl, rfl, rfl, rfl, rfl⟩))

end Sys2Proof.Machine
end

