-- ==== Sys2Proof/Laws/KeepsGovernor.lean ====
section
/-!
SUPPORT. What the operations of Machine/Governor.lean keep (Laws/Keeps.lean).
-/
set_option linter.all false
namespace Sys2Proof.Machine

theorem govFlag_keeps {zz : State} (n bit : Nat) {s : State} (hz : Keeps zz s) :
    Keeps zz (govFlag n bit s) := by
  unfold govFlag
  repeat (with_reducible first
    | assumption | apply orReg_keeps)

theorem updGov_keeps {zz : State} (n : Nat) (f : Gov → Gov) {s : State} (hz : Keeps zz s) :
    Keeps zz (updGov n f s) := by
  unfold updGov
  repeat (with_reducible first
    | assumption | apply updPart_keeps)

theorem govRead_keeps {zz : State} (n : Nat) {s : State} (hz : Keeps zz s) :
    Keeps zz (govRead n s) := by
  unfold govRead
  repeat (with_reducible first
    | assumption | apply updGov_keeps | apply govFlag_keeps | apply keeps_ite)

theorem updLayer_keeps {zz : State} (n i : Nat) (f : Layer → Layer) {s : State} (hz : Keeps zz s) :
    Keeps zz (updLayer n i f s) := by
  unfold updLayer
  repeat (with_reducible first
    | assumption | apply updGov_keeps)

theorem tripLayer_keeps {zz : State} (n i count cause : Nat) {s : State} (hz : Keeps zz s) :
    Keeps zz (tripLayer n i count cause s) := by
  unfold tripLayer
  repeat (with_reducible first
    | assumption | (intro _; exact ⟨rfl, rfl, rfl⟩) | (intro _; exact ⟨rfl, rfl, rfl, rfl⟩) | (intro _)
    | apply updLayer_keeps | apply keeps_ite | split
    | (rename_i hq; replace hq := congrArg Prod.snd hq; dsimp only at hq; rw [← hq]; clear hq)
    | (apply keeps_put; exact ⟨rfl, by simp, by simp, rfl, rfl, rfl, rfl, rfl, rfl, rfl, rfl, rfl⟩))

theorem govTrip_keeps {zz : State} (n i : Nat) (causes : List Nat) (ratio : Option Nat) {s : State} (hz : Keeps zz s) :
    Keeps zz (govTrip n i causes ratio s) := by
  unfold govTrip
  repeat (with_reducible first
    | assumption
    | (extract_lets +onlyGivenNames w; refine keeps_cut zz w ?_ ?_; (unfold w; clear w); rotate_left; intro _; clear_value w; revert w; intro _ _)
    | (extract_lets +onlyGivenNames w; clear_value w; revert w; intro _) | apply tripLayer_keeps | apply updGov_keeps
    | apply setReg_keeps | apply govFlag_keeps | apply raiseCause_keeps | apply updStep_keeps | split
    | (apply keeps_put; exact ⟨rfl, by simp, by simp, rfl, rfl, rfl, rfl, rfl, rfl, rfl, rfl, rfl⟩))

theorem govCollNan_keeps {zz : State} (n layer : Nat) {s : State} (hz : Keeps zz s) :
    Keeps zz (govCollNan n layer s) := by
  unfold govCollNan
  repeat (with_reducible first
    | assumption | apply govFlag_keeps | apply govTrip_keeps | apply keeps_ite)

theorem govTake_keeps {zz : State} (n : Nat) (b : Bytes) {s : State} (hz : Keeps zz s) :
    Keeps zz (govTake n b s) := by
  unfold govTake
  repeat (with_reducible first
    | assumption
    | (extract_lets +onlyGivenNames w; refine keeps_cut zz w ?_ ?_; (unfold w; clear w); rotate_left; intro _; clear_value w; revert w; intro _ _)
    | (extract_lets +onlyGivenNames w; clear_value w; revert w; intro _) | apply govFlag_keeps | apply updGov_keeps
    | apply govTrip_keeps | split)

theorem govDrain_keeps {zz : State} (n : Nat) {s : State} (hz : Keeps zz s) :
    Keeps zz (govDrain n s) := by
  unfold govDrain
  repeat (with_reducible first
    | assumption | apply govTake_keeps | apply updGov_keeps | (apply keeps_foldl; intro _ _ _))

theorem admitOne_next {zz : State} (n i : Nat) {s : State} (h : Keeps zz s) : ∀ t, admitOne n i s = some t → Keeps zz t := by
  intro t e
  unfold admitOne at e
  split at e
  · cases e
  · split at e
    · cases e; exact updLayer_keeps _ _ _ h
    · cases e

theorem admitOne_keeps {zz : State} (n i : Nat) {s : State} (h : Keeps zz s) : Keeps zz ((admitOne n i s).getD s) := by
  cases e : admitOne n i s with
  | none => exact h
  | some t => exact admitOne_next _ _ h t e

theorem admitAll_keeps {zz : State} (n : Nat) (l : List Nat) {s : State} (h : Keeps zz s) : Keeps zz (admitAll n l s).2.2 := by
  induction l generalizing s with
  | nil => exact h
  | cons i t ih =>
    unfold admitAll
    split
    · exact ih h
    · split
      · exact ih h
      · split
        · rename_i s' e; exact ih (admitOne_next _ _ h s' e)
        · exact ih (updLayer_keeps _ _ _ h)

theorem govAdmit_keeps {zz : State} (n : Nat) (marks : List Nat) {s : State} (hz : Keeps zz s) :
    Keeps zz (govAdmit n marks s) := by
  unfold govAdmit
  repeat (with_reducible first
    | assumption | apply admitAll_keeps | apply updGov_keeps | apply noteStep_keeps | apply notice_keeps
    | apply postEvent_keeps | apply govFlag_keeps | apply keeps_ite)

theorem govOpen_keeps {zz : State} (n : Nat) {s : State} (hz : Keeps zz s) :
    Keeps zz (govOpen n s) := by
  unfold govOpen
  repeat (with_reducible first
    | assumption | apply govRead_keeps | apply tripLayer_keeps | apply updGov_keeps | apply govAdmit_keeps
    | apply layerStoreAll_keeps | apply keeps_ite | (apply keeps_foldl; intro _ _ _)
    | (apply keeps_foldl_snd; intro _ _ _) | (apply keeps_foldl_fst; intro _ _ _)
    | (apply keeps_put; exact ⟨rfl, by simp, by simp, rfl, rfl, rfl, rfl, rfl, rfl, rfl, rfl, rfl⟩))

theorem govAttempt_keeps {zz : State} (n : Nat) {s : State} (hz : Keeps zz s) :
    Keeps zz (govAttempt n s) := by
  unfold govAttempt
  repeat (with_reducible first
    | assumption | apply layerStoreAll_keeps | apply updGov_keeps)

theorem govConfirm_keeps {zz : State} (n : Nat) {s : State} (hz : Keeps zz s) :
    Keeps zz (govConfirm n s) := by
  unfold govConfirm
  repeat (with_reducible first
    | assumption | apply govDrain_keeps | apply govAdmit_keeps | apply updGov_keeps | apply layerStoreAll_keeps
    | apply keeps_ite)

theorem govEnd_keeps {zz : State} (n : Nat) (gov : Bool) {s : State} (hz : Keeps zz s) :
    Keeps zz (govEnd n gov s) := by
  unfold govEnd
  repeat (with_reducible first
    | assumption | apply layerStoreAll_keeps | apply updGov_keeps
    | (apply keeps_put; exact ⟨rfl, by simp, by simp, rfl, rfl, rfl, rfl, rfl, rfl, rfl, rfl, rfl⟩))

theorem govAverage_keeps {zz : State} (n : Nat) {s : State} (hz : Keeps zz s) :
    Keeps zz (govAverage n s) := by
  unfold govAverage
  repeat (with_reducible first
    | assumption | apply updGov_keeps)

theorem classifyOne_keeps {zz : State} (n : Nat) {s : State} (e : Nat × Nat) (hz : Keeps zz s) :
    Keeps zz (classifyOne n s e) := by
  unfold classifyOne
  repeat (with_reducible first
    | assumption | apply updGov_keeps | apply setReg_keeps | apply keeps_ite)

theorem govTau_keeps {zz : State} (n : Nat) {s : State} (hz : Keeps zz s) :
    Keeps zz (govTau n s) := by
  unfold govTau
  repeat (with_reducible first
    | assumption | apply updGov_keeps)

theorem govSettle_keeps {zz : State} (n : Nat) {s : State} (hz : Keeps zz s) :
    Keeps zz (govSettle n s) := by
  unfold govSettle
  repeat (with_reducible first
    | assumption | apply updGov_keeps | apply govFlag_keeps | apply admitOne_keeps | apply keeps_ite
    | (apply keeps_foldl; intro _ _ _))

theorem govCommit_keeps {zz : State} (n : Nat) (replayed : Bool) {s : State} (hz : Keeps zz s) :
    Keeps zz (govCommit n replayed s) := by
  unfold govCommit
  repeat (with_reducible first
    | assumption | apply govFlag_keeps | apply classifyOne_keeps | apply govAverage_keeps | apply govTau_keeps
    | apply govSettle_keeps | apply updGov_keeps | apply layerStoreAll_keeps | apply keeps_ite
    | (apply keeps_foldl; intro _ _ _))

theorem govStart_keeps {zz : State} (n : Nat) {s : State} (hz : Keeps zz s) :
    Keeps zz (govStart n s) := by
  unfold govStart
  repeat (with_reducible first
    | assumption | apply updGov_keeps | apply govRead_keeps
    | (apply keeps_put; exact ⟨rfl, by simp, by simp, rfl, rfl, rfl, rfl, rfl, rfl, rfl, rfl, rfl⟩))

theorem execGovernorRecord_keeps {zz : State} (part : Nat) {s : State} (hz : Keeps zz s) :
    KeepsR zz (execGovernorRecord part s) := by
  unfold execGovernorRecord
  repeat (with_reducible first
    | assumption | apply keepsR_next | apply govTake_keeps | apply updGov_keeps | split)

theorem execGovTWrite_keeps {zz : State} (fn part : Nat) (grad : Bool) (value : Word) {s : State} (hz : Keeps zz s) :
    KeepsR zz (execGovTWrite fn part grad value s) := by
  unfold execGovTWrite
  repeat (with_reducible first
    | assumption | (intro _; exact ⟨rfl, rfl, rfl⟩) | (intro _; exact ⟨rfl, rfl, rfl, rfl⟩) | (intro _)
    | apply keepsR_next | exact keepsR_fault | apply keepsR_ite | apply hostPost_keeps | apply setReg_keeps
    | apply keeps_ite | split
    | (rename_i hq; replace hq := congrArg Prod.snd hq; dsimp only at hq; rw [← hq]; clear hq))

end Sys2Proof.Machine
end

