-- ==== Sys2Proof/Laws/KeepsControl.lean ====
section
/-!
SUPPORT. What the operations of Machine/Control.lean keep (Laws/Keeps.lean).
-/
set_option linter.all false
namespace Sys2Proof.Machine

theorem wander_keeps {zz : State} (c : Nat) {s : State} (hz : Keeps zz s) :
    Keeps zz (wander c s) := by
  unfold wander
  repeat (with_reducible first
    | assumption | (intro _; exact ⟨rfl, rfl, rfl⟩) | (intro _; exact ⟨rfl, rfl, rfl, rfl⟩) | (intro _)
    | (extract_lets +onlyGivenNames w; refine keeps_cut zz w ?_ ?_; (unfold w; clear w); rotate_left; intro _; clear_value w; revert w; intro _ _)
    | (extract_lets +onlyGivenNames w; refine (fun (_ : MemSys) => ?_) w; revert w; intro _)
    | (extract_lets +onlyGivenNames w; refine (fun (_ : Ferry) => ?_) w; revert w; intro _)
    | (extract_lets +onlyGivenNames w; refine (fun (_ : Sec) => ?_) w; revert w; intro _)
    | (extract_lets +onlyGivenNames w; refine keeps_cut_snd zz w ?_ ?_; (unfold w; clear w); rotate_left; intro _; clear_value w; revert w; intro _ _)
    | (extract_lets +onlyGivenNames w; refine keeps_cut_fst zz w ?_ ?_; (unfold w; clear w); rotate_left; intro _; clear_value w; revert w; intro _ _)
    | (extract_lets +onlyGivenNames w; refine keeps_cut_thd zz w ?_ ?_; (unfold w; clear w); rotate_left; intro _; clear_value w; revert w; intro _ _)
    | (extract_lets +onlyGivenNames w; refine (fun (_ : _ → _) => ?_) w; unfold w; clear w)
    | (extract_lets +onlyGivenNames w; clear_value w; revert w; intro _) | apply drawBits_keeps | apply reserve_keeps
    | apply setCore_keeps | apply coreFault_keeps | apply keeps_ite | (apply keeps_foldl; intro _ _ _)
    | (apply keeps_foldl_snd; intro _ _ _) | (apply keeps_foldl_fst; intro _ _ _) | split
    | (rename_i hq; replace hq := congrArg Prod.snd hq; dsimp only at hq; rw [← hq]; clear hq)
    | (apply keeps_put; exact ⟨rfl, by simp, by simp, rfl, rfl, rfl, rfl, rfl, rfl, rfl, rfl, rfl⟩))

theorem issueOp_keeps {zz : State} (c : Nat) (is : NInstr → Bool) (f : Core → NInstr → State → State) {s : State} (h_f : ∀ (v0 : Core) (v1 : NInstr) (v2 : State), Keeps zz v2 → Keeps zz (f v0 v1 v2)) (hz : Keeps zz s) :
    KeepsR zz (issueOp c is f s) := by
  unfold issueOp
  repeat (with_reducible first
    | assumption | (extract_lets +onlyGivenNames w; clear_value w; revert w; intro _) | apply keepsR_next
    | exact keepsR_fault | apply h_f | apply wander_keeps | split
    | (apply keeps_put; exact ⟨rfl, by simp, by simp, rfl, rfl, rfl, rfl, rfl, rfl, rfl, rfl, rfl⟩))

theorem issueFault_keeps {zz : State} (c : Nat) (k : Core) (i : NInstr) (f : Flt) {s : State} (hz : Keeps zz s) :
    Keeps zz (issueFault c k i f s) := by
  unfold issueFault
  repeat (with_reducible first
    | assumption | apply coreFault_keeps)

theorem execSop_keeps {zz : State} (c : Nat) {s : State} (hz : Keeps zz s) :
    KeepsR zz (execSop c s) := by
  unfold execSop
  repeat (with_reducible first
    | assumption | (intro _) | apply issueOp_keeps | apply setCore_keeps)

theorem execSmovi_keeps {zz : State} (c : Nat) {s : State} (hz : Keeps zz s) :
    KeepsR zz (execSmovi c s) := by
  unfold execSmovi
  repeat (with_reducible first
    | assumption | (intro _) | apply issueOp_keeps | apply setCore_keeps)

theorem noteEcc_keeps {zz : State} (c : Nat) (e : Ecc) {s : State} (hz : Keeps zz s) :
    Keeps zz (noteEcc c e s) := by
  unfold noteEcc
  repeat (with_reducible first
    | assumption | apply updCore_keeps | apply noteCore_keeps | split)

theorem execSld_keeps {zz : State} (c : Nat) (ecc : Ecc) {s : State} (hz : Keeps zz s) :
    KeepsR zz (execSld c ecc s) := by
  unfold execSld
  repeat (with_reducible first
    | assumption | (intro _) | (extract_lets +onlyGivenNames w; clear_value w; revert w; intro _)
    | apply issueOp_keeps | apply issueFault_keeps | apply noteEcc_keeps | apply setCore_keeps | split)

theorem execSst_keeps {zz : State} (c : Nat) {s : State} (hz : Keeps zz s) :
    KeepsR zz (execSst c s) := by
  unfold execSst
  repeat (with_reducible first
    | assumption | (intro _) | apply issueOp_keeps | apply issueFault_keeps | apply setCore_keeps | apply keeps_ite)

theorem execSid_keeps {zz : State} (c : Nat) {s : State} (hz : Keeps zz s) :
    KeepsR zz (execSid c s) := by
  unfold execSid
  repeat (with_reducible first
    | assumption | (intro _) | apply issueOp_keeps | apply setCore_keeps)

theorem execLoop_keeps {zz : State} (c : Nat) {s : State} (hz : Keeps zz s) :
    KeepsR zz (execLoop c s) := by
  unfold execLoop
  repeat (with_reducible first
    | assumption | (intro _) | apply issueOp_keeps | apply issueFault_keeps | apply setCore_keeps | apply keeps_ite)

theorem execEndloop_keeps {zz : State} (c : Nat) {s : State} (hz : Keeps zz s) :
    KeepsR zz (execEndloop c s) := by
  unfold execEndloop
  repeat (with_reducible first
    | assumption | (intro _) | apply issueOp_keeps | apply setCore_keeps | split)

theorem execBr_keeps {zz : State} (c : Nat) {s : State} (hz : Keeps zz s) :
    KeepsR zz (execBr c s) := by
  unfold execBr
  repeat (with_reducible first
    | assumption | (intro _) | apply issueOp_keeps | apply setCore_keeps | apply keeps_ite)

theorem execBankswap_keeps {zz : State} (c : Nat) {s : State} (hz : Keeps zz s) :
    KeepsR zz (execBankswap c s) := by
  unfold execBankswap
  repeat (with_reducible first
    | assumption | (intro _) | apply issueOp_keeps | apply setCore_keeps | apply issueFault_keeps | apply keeps_ite)

theorem execHalt_keeps {zz : State} (c : Nat) {s : State} (hz : Keeps zz s) :
    KeepsR zz (execHalt c s) := by
  unfold execHalt
  repeat (with_reducible first
    | assumption | (intro _) | apply issueOp_keeps | apply setCore_keeps)

theorem execHaltFault_keeps {zz : State} (c : Nat) {s : State} (hz : Keeps zz s) :
    KeepsR zz (execHaltFault c s) := by
  unfold execHaltFault
  repeat (with_reducible first
    | assumption | (intro _) | apply issueOp_keeps | apply issueFault_keeps)

theorem execIssuePastEnd_keeps {zz : State} (c : Nat) {s : State} (hz : Keeps zz s) :
    KeepsR zz (execIssuePastEnd c s) := by
  unfold execIssuePastEnd
  repeat (with_reducible first
    | assumption | apply keepsR_next | exact keepsR_fault | apply keepsR_ite | apply wander_keeps
    | apply setCore_keeps
    | (apply keeps_put; exact ⟨rfl, by simp, by simp, rfl, rfl, rfl, rfl, rfl, rfl, rfl, rfl, rfl⟩))

theorem deadlockCheck_keeps {zz : State} (c : Nat) {s : State} (hz : Keeps zz s) :
    Keeps zz (deadlockCheck c s) := by
  unfold deadlockCheck
  repeat (with_reducible first
    | assumption | (extract_lets +onlyGivenNames w; clear_value w; revert w; intro _) | apply coreFault_keeps | split)

theorem ewaitCheck_keeps {zz : State} (c : Nat) {s : State} (hz : Keeps zz s) :
    Keeps zz (ewaitCheck c s) := by
  unfold ewaitCheck
  repeat (with_reducible first
    | assumption | (extract_lets +onlyGivenNames w; clear_value w; revert w; intro _) | apply setCore_keeps | split)

theorem execEwait_keeps {zz : State} (c : Nat) {s : State} (hz : Keeps zz s) :
    KeepsR zz (execEwait c s) := by
  unfold execEwait
  repeat (with_reducible first
    | assumption | (intro _) | apply issueOp_keeps | apply setCore_keeps | apply deadlockCheck_keeps | apply keeps_ite)

theorem execWait_keeps {zz : State} (c : Nat) {s : State} (hz : Keeps zz s) :
    KeepsR zz (execWait c s) := by
  unfold execWait
  repeat (with_reducible first
    | assumption | (intro _; exact ⟨rfl, rfl, rfl⟩) | (intro _; exact ⟨rfl, rfl, rfl, rfl⟩) | (intro _)
    | (extract_lets +onlyGivenNames w; refine keeps_cut zz w ?_ ?_; (unfold w; clear w); rotate_left; intro _; clear_value w; revert w; intro _ _)
    | (extract_lets +onlyGivenNames w; refine (fun (_ : MemSys) => ?_) w; revert w; intro _)
    | (extract_lets +onlyGivenNames w; refine (fun (_ : Ferry) => ?_) w; revert w; intro _)
    | (extract_lets +onlyGivenNames w; refine (fun (_ : Sec) => ?_) w; revert w; intro _)
    | (extract_lets +onlyGivenNames w; refine keeps_cut_snd zz w ?_ ?_; (unfold w; clear w); rotate_left; intro _; clear_value w; revert w; intro _ _)
    | (extract_lets +onlyGivenNames w; refine keeps_cut_fst zz w ?_ ?_; (unfold w; clear w); rotate_left; intro _; clear_value w; revert w; intro _ _)
    | (extract_lets +onlyGivenNames w; refine keeps_cut_thd zz w ?_ ?_; (unfold w; clear w); rotate_left; intro _; clear_value w; revert w; intro _ _)
    | (extract_lets +onlyGivenNames w; refine (fun (_ : _ → _) => ?_) w; unfold w; clear w)
    | (extract_lets +onlyGivenNames w; clear_value w; revert w; intro _) | apply keepsR_next | exact keepsR_fault
    | apply keepsR_ite | apply issueOp_keeps | apply setCore_keeps | apply sendWait_keeps | apply postWait_keeps
    | apply keeps_ite | split
    | (rename_i hq; replace hq := congrArg Prod.snd hq; dsimp only at hq; rw [← hq]; clear hq)
    | (apply keeps_put; exact ⟨rfl, by simp, by simp, rfl, rfl, rfl, rfl, rfl, rfl, rfl, rfl, rfl⟩))

theorem execWaitVerdict_keeps {zz : State} (c : Nat) {s : State} (hz : Keeps zz s) :
    KeepsR zz (execWaitVerdict c s) := by
  unfold execWaitVerdict
  repeat (with_reducible first
    | assumption | (extract_lets +onlyGivenNames w; clear_value w; revert w; intro _) | apply keepsR_next
    | apply setCore_keeps | apply coreFault_keeps | split)

theorem execSigControlCore_keeps {zz : State} (c : Nat) {s : State} (hz : Keeps zz s) :
    KeepsR zz (execSigControlCore c s) := by
  unfold execSigControlCore
  repeat (with_reducible first
    | assumption | (intro _; exact ⟨rfl, rfl, rfl⟩) | (intro _; exact ⟨rfl, rfl, rfl, rfl⟩) | (intro _)
    | (extract_lets +onlyGivenNames w; refine keeps_cut zz w ?_ ?_; (unfold w; clear w); rotate_left; intro _; clear_value w; revert w; intro _ _)
    | (extract_lets +onlyGivenNames w; refine (fun (_ : MemSys) => ?_) w; revert w; intro _)
    | (extract_lets +onlyGivenNames w; refine (fun (_ : Ferry) => ?_) w; revert w; intro _)
    | (extract_lets +onlyGivenNames w; refine (fun (_ : Sec) => ?_) w; revert w; intro _)
    | (extract_lets +onlyGivenNames w; refine keeps_cut_snd zz w ?_ ?_; (unfold w; clear w); rotate_left; intro _; clear_value w; revert w; intro _ _)
    | (extract_lets +onlyGivenNames w; refine keeps_cut_fst zz w ?_ ?_; (unfold w; clear w); rotate_left; intro _; clear_value w; revert w; intro _ _)
    | (extract_lets +onlyGivenNames w; refine keeps_cut_thd zz w ?_ ?_; (unfold w; clear w); rotate_left; intro _; clear_value w; revert w; intro _ _)
    | (extract_lets +onlyGivenNames w; refine (fun (_ : _ → _) => ?_) w; unfold w; clear w)
    | (extract_lets +onlyGivenNames w; clear_value w; revert w; intro _) | apply keepsR_next | exact keepsR_fault
    | apply keepsR_ite | apply issueOp_keeps | apply setCore_keeps | apply sendSignal_keeps | apply updCore_keeps
    | apply postSignal_keeps | apply keeps_ite | split
    | (rename_i hq; replace hq := congrArg Prod.snd hq; dsimp only at hq; rw [← hq]; clear hq)
    | (apply keeps_put; exact ⟨rfl, by simp, by simp, rfl, rfl, rfl, rfl, rfl, rfl, rfl, rfl, rfl⟩))

theorem execAspush_keeps {zz : State} (c : Nat) {s : State} (hz : Keeps zz s) :
    KeepsR zz (execAspush c s) := by
  unfold execAspush
  repeat (with_reducible first
    | assumption | (intro _) | apply issueOp_keeps | apply setCore_keeps | apply issueFault_keeps | apply keeps_ite)

theorem enqueue_keeps {zz : State} (c : Nat) (k : Core) (i : NInstr) {s : State} (hz : Keeps zz s) :
    Keeps zz (enqueue c k i s) := by
  unfold enqueue
  repeat (with_reducible first
    | assumption | apply setCore_keeps | apply keeps_ite)

theorem execMma_keeps {zz : State} (c : Nat) {s : State} (hz : Keeps zz s) :
    KeepsR zz (execMma c s) := by
  unfold execMma
  repeat (with_reducible first
    | assumption | (intro _) | apply issueOp_keeps | apply issueFault_keeps | apply enqueue_keeps | split)

theorem execWld_keeps {zz : State} (c : Nat) {s : State} (hz : Keeps zz s) :
    KeepsR zz (execWld c s) := by
  unfold execWld
  repeat (with_reducible first
    | assumption | (intro _) | apply issueOp_keeps | apply issueFault_keeps | apply enqueue_keeps | split)

theorem execWldm_keeps {zz : State} (c : Nat) {s : State} (hz : Keeps zz s) :
    KeepsR zz (execWldm c s) := by
  unfold execWldm
  repeat (with_reducible first
    | assumption | (intro _) | apply issueOp_keeps | apply issueFault_keeps | apply enqueue_keeps | split)

theorem execNrw_keeps {zz : State} (c : Nat) {s : State} (hz : Keeps zz s) :
    KeepsR zz (execNrw c s) := by
  unfold execNrw
  repeat (with_reducible first
    | assumption | (intro _) | apply issueOp_keeps | apply issueFault_keeps | apply enqueue_keeps | split)

theorem execDnrw_keeps {zz : State} (c : Nat) {s : State} (hz : Keeps zz s) :
    KeepsR zz (execDnrw c s) := by
  unfold execDnrw
  repeat (with_reducible first
    | assumption | apply issueOp_keeps | apply enqueue_keeps)

theorem execVop_keeps {zz : State} (c : Nat) {s : State} (hz : Keeps zz s) :
    KeepsR zz (execVop c s) := by
  unfold execVop
  repeat (with_reducible first
    | assumption | apply issueOp_keeps | apply enqueue_keeps)

theorem execRed_keeps {zz : State} (c : Nat) {s : State} (hz : Keeps zz s) :
    KeepsR zz (execRed c s) := by
  unfold execRed
  repeat (with_reducible first
    | assumption | (intro _) | apply issueOp_keeps | apply updCore_keeps | apply enqueue_keeps | apply keeps_ite)

theorem execXferStore_keeps {zz : State} (c : Nat) {s : State} (hz : Keeps zz s) :
    KeepsR zz (execXferStore c s) := by
  unfold execXferStore
  repeat (with_reducible first
    | assumption | apply issueOp_keeps | apply enqueue_keeps)

theorem execXferLoad_keeps {zz : State} (c : Nat) {s : State} (hz : Keeps zz s) :
    KeepsR zz (execXferLoad c s) := by
  unfold execXferLoad
  repeat (with_reducible first
    | assumption | apply issueOp_keeps | apply enqueue_keeps)

theorem execXferAddf_keeps {zz : State} (c : Nat) {s : State} (hz : Keeps zz s) :
    KeepsR zz (execXferAddf c s) := by
  unfold execXferAddf
  repeat (with_reducible first
    | assumption | apply issueOp_keeps | apply enqueue_keeps)

theorem execXferAddi_keeps {zz : State} (c : Nat) {s : State} (hz : Keeps zz s) :
    KeepsR zz (execXferAddi c s) := by
  unfold execXferAddi
  repeat (with_reducible first
    | assumption | apply issueOp_keeps | apply enqueue_keeps)

theorem execXferPstore_keeps {zz : State} (c : Nat) {s : State} (hz : Keeps zz s) :
    KeepsR zz (execXferPstore c s) := by
  unfold execXferPstore
  repeat (with_reducible first
    | assumption | apply issueOp_keeps | apply enqueue_keeps)

theorem execXferPload_keeps {zz : State} (c : Nat) {s : State} (hz : Keeps zz s) :
    KeepsR zz (execXferPload c s) := by
  unfold execXferPload
  repeat (with_reducible first
    | assumption | apply issueOp_keeps | apply enqueue_keeps)

theorem execXferRowcast_keeps {zz : State} (c : Nat) {s : State} (hz : Keeps zz s) :
    KeepsR zz (execXferRowcast c s) := by
  unfold execXferRowcast
  repeat (with_reducible first
    | assumption | apply issueOp_keeps | apply enqueue_keeps)

theorem execXferColcast_keeps {zz : State} (c : Nat) {s : State} (hz : Keeps zz s) :
    KeepsR zz (execXferColcast c s) := by
  unfold execXferColcast
  repeat (with_reducible first
    | assumption | apply issueOp_keeps | apply enqueue_keeps)

theorem execSigXf_keeps {zz : State} (c : Nat) {s : State} (hz : Keeps zz s) :
    KeepsR zz (execSigXf c s) := by
  unfold execSigXf
  repeat (with_reducible first
    | assumption | apply issueOp_keeps | apply enqueue_keeps)

end Sys2Proof.Machine
end

