-- ==== Sys2Proof/Laws/KeepsTransfer.lean ====
section
/-!
SUPPORT. What the operations of Machine/Transfer.lean keep (Laws/Keeps.lean).
-/
set_option linter.all false
namespace Sys2Proof.Machine

theorem xfWait_keeps {zz : State} (c : Nat) {s : State} (hz : Keeps zz s) :
    Keeps zz (xfWait c s) := by
  unfold xfWait
  repeat (with_reducible first
    | assumption | apply updCore_keeps)

theorem xfSend_keeps {zz : State} (x : Xf) (q : Req) (o : Origin) (dest : Nat) {s : State} (hz : Keeps zz s) :
    Keeps zz (xfSend x q o dest s) := by
  unfold xfSend
  repeat (with_reducible first
    | assumption | apply sendReq_keeps | apply xfWait_keeps)

theorem noteFlow_keeps {zz : State} (c node flow : Nat) {s : State} (hz : Keeps zz s) :
    Keeps zz (noteFlow c node flow s) := by
  unfold noteFlow
  repeat (with_reducible first
    | assumption | apply updCore_keeps)

theorem dropPage_keeps {zz : State} (n a : Nat) {s : State} (hz : Keeps zz s) :
    Keeps zz (dropPage n a s) := by
  unfold dropPage
  repeat (with_reducible first
    | assumption | (intro _; exact ⟨rfl, rfl, rfl⟩) | (intro _; exact ⟨rfl, rfl, rfl, rfl⟩) | (intro _)
    | apply rpcDrop_keeps | apply keeps_ite | split
    | (rename_i hq; replace hq := congrArg Prod.snd hq; dsimp only at hq; rw [← hq]; clear hq)
    | (apply keeps_put; exact ⟨rfl, by simp, by simp, rfl, rfl, rfl, rfl, rfl, rfl, rfl, rfl, rfl⟩))

theorem xfWrite_keeps {zz : State} (x : Xf) (kind a : Nat) (d : Bytes) {s : State} (hz : Keeps zz s) :
    Keeps zz (xfWrite x kind a d s).1 := by
  unfold xfWrite
  repeat (with_reducible first
    | assumption
    | (extract_lets +onlyGivenNames w; refine keeps_cut_snd zz w ?_ ?_; (unfold w; clear w); rotate_left; intro _; clear_value w; revert w; intro _ _)
    | (extract_lets +onlyGivenNames w; clear_value w; revert w; intro _) | apply stashWrite_keeps | apply memPut_keeps
    | apply xfSend_keeps | apply noteFlow_keeps | apply memAdd_keeps | apply dropPage_keeps | split)

theorem xfLand_keeps {zz : State} (c sa : Nat) (d : Bytes) {s : State} (hz : Keeps zz s) :
    Keeps zz (xfLand c sa d s) := by
  unfold xfLand
  repeat (with_reducible first
    | assumption | apply updCore_keeps)

theorem xfRead_keeps {zz : State} (x : Xf) (a sa len : Nat) {s : State} (h : Keeps zz s) : Keeps zz (xfRead x a sa len s).1 := by
  unfold xfRead
  extract_lets node l remote here
  have hr : ∀ n b {t : State}, Keeps zz t → Keeps zz (remote n b t).1 := fun _ _ _ k => xfSend_keeps _ _ _ _ k
  have hh : ∀ b {t : State}, Keeps zz t → Keeps zz (here b t).1 := fun _ _ k => xfLand_keeps _ _ _ (memGet_keeps _ _ _ _ _ k)
  clear_value remote here
  split
  · split
    · exact h
    · split
      · split
        · exact hh _ h
        · exact hr _ _ h
        · exact xfLand_keeps _ _ _ h
        · exact xfLand_keeps _ _ _ (drawBytes_keeps _ h)
        · exact h
      · split
        · exact h
        · exact hh _ h
  · split
    · split
      · exact xfLand_keeps _ _ _ (rpcServe_keeps _ _ _ _ _ _ h)
      · exact hr _ _ (rpcWant_keeps _ _ _ h)
    · exact hr _ _ h

theorem xfAll_keeps {zz : State} {α : Type} (c : Nat) (f : α → State → State × Option Flt) (l : List α) {s : State}
    (hf : ∀ v s, Keeps zz s → Keeps zz (f v s).1) (h : Keeps zz s) : Keeps zz (xfAll c f l s).1 := by
  induction l generalizing s with
  | nil => exact h
  | cons q l ih =>
    unfold xfAll
    split
    · exact h
    · have k := hf q s h
      split
      · rename_i e; rw [e] at k; exact ih k
      · exact k

theorem runPlain_keeps {zz : State} (x : Xf) (q : Queued) (got : Tbl (List Int)) {s : State} (h : Keeps zz s) :
    Keeps zz (runPlain x q got s).1 := by
  unfold runPlain
  extract_lets m fl w n g lst sa fuel
  clear_value fuel
  refine xfAll_keeps _ _ _ (fun p s k => ?_) h
  split
  · exact k
  · split
    · exact xfRead_keeps _ _ _ _ k
    · exact xfWrite_keeps _ _ _ _ k

theorem storeParts_keeps {zz : State} (x : Xf) (l : List (Nat × Bytes)) {s : State} (hz : Keeps zz s) :
    Keeps zz (storeParts x l s).1 := by
  unfold storeParts
  repeat (with_reducible first
    | assumption | (intro _) | apply xfAll_keeps | apply xfWrite_keeps)

theorem pstoreOne_keeps {zz : State} (x : Xf) (src dst : Tdesc) (p r : Nat) {s : State} (hz : Keeps zz s) :
    Keeps zz (pstoreOne x src dst p r s).1 := by
  unfold pstoreOne
  repeat (with_reducible first
    | assumption
    | (extract_lets +onlyGivenNames w; refine keeps_cut zz w ?_ ?_; (unfold w; clear w); rotate_left; intro _; clear_value w; revert w; intro _ _)
    | (extract_lets +onlyGivenNames w; clear_value w; revert w; intro _) | apply storeParts_keeps
    | apply dropPage_keeps | apply xfSend_keeps | apply noteFlow_keeps | (apply keeps_foldl; intro _ _ _) | split)

theorem ploadOne_keeps {zz : State} (x : Xf) (src dst : Tdesc) (p r : Nat) {s : State} (hz : Keeps zz s) :
    Keeps zz (ploadOne x src dst p r s).1 := by
  unfold ploadOne
  repeat (with_reducible first
    | assumption | (intro _) | apply xfAll_keeps | apply xfRead_keeps | split)

theorem runParcels_keeps {zz : State} (x : Xf) (q : Queued) (tds : List Bytes) {s : State} (h : Keeps zz s) :
    Keeps zz (runParcels x q tds s).1 := by
  unfold runParcels
  extract_lets dst src store inner outer count
  split
  · exact h
  · split
    · exact h
    · refine xfAll_keeps _ _ _ (fun i s k => ?_) h
      split
      · exact pstoreOne_keeps _ _ _ _ _ k
      · exact ploadOne_keeps _ _ _ _ _ k

theorem runCast_keeps {zz : State} (x : Xf) (q : Queued) {s : State} (hz : Keeps zz s) :
    Keeps zz (runCast x q s).1 := by
  unfold runCast
  repeat (with_reducible first
    | assumption | (intro _; exact ⟨rfl, rfl, rfl⟩) | (intro _; exact ⟨rfl, rfl, rfl, rfl⟩) | (intro _)
    | (extract_lets +onlyGivenNames w; refine keeps_cut zz w ?_ ?_; (unfold w; clear w); rotate_left; intro _; clear_value w; revert w; intro _ _)
    | (extract_lets +onlyGivenNames w; refine (fun (_ : MemSys) => ?_) w; revert w; intro _)
    | (extract_lets +onlyGivenNames w; refine (fun (_ : Ferry) => ?_) w; revert w; intro _)
    | (extract_lets +onlyGivenNames w; refine (fun (_ : Sec) => ?_) w; revert w; intro _)
    | (extract_lets +onlyGivenNames w; refine keeps_cut_snd zz w ?_ ?_; (unfold w; clear w); rotate_left; intro _; clear_value w; revert w; intro _ _)
    | (extract_lets +onlyGivenNames w; refine keeps_cut_fst zz w ?_ ?_; (unfold w; clear w); rotate_left; intro _; clear_value w; revert w; intro _ _)
    | (extract_lets +onlyGivenNames w; refine keeps_cut_thd zz w ?_ ?_; (unfold w; clear w); rotate_left; intro _; clear_value w; revert w; intro _ _)
    | (extract_lets +onlyGivenNames w; refine (fun (_ : _ → _) => ?_) w; unfold w; clear w)
    | (extract_lets +onlyGivenNames w; clear_value w; revert w; intro _) | apply updCore_keeps | apply keeps_ite
    | (apply keeps_foldl; intro _ _ _) | (apply keeps_foldl_snd; intro _ _ _) | (apply keeps_foldl_fst; intro _ _ _)
    | split | (rename_i hq; replace hq := congrArg Prod.snd hq; dsimp only at hq; rw [← hq]; clear hq)
    | (apply keeps_put; exact ⟨rfl, by simp, by simp, rfl, rfl, rfl, rfl, rfl, rfl, rfl, rfl, rfl⟩))

theorem runSig_keeps {zz : State} (x : Xf) (q : Queued) {s : State} (hz : Keeps zz s) :
    Keeps zz (runSig x q s) := by
  unfold runSig
  repeat (with_reducible first
    | assumption | (intro _; exact ⟨rfl, rfl, rfl⟩) | (intro _; exact ⟨rfl, rfl, rfl, rfl⟩) | (intro _)
    | (extract_lets +onlyGivenNames w; refine keeps_cut zz w ?_ ?_; (unfold w; clear w); rotate_left; intro _; clear_value w; revert w; intro _ _)
    | (extract_lets +onlyGivenNames w; refine (fun (_ : MemSys) => ?_) w; revert w; intro _)
    | (extract_lets +onlyGivenNames w; refine (fun (_ : Ferry) => ?_) w; revert w; intro _)
    | (extract_lets +onlyGivenNames w; refine (fun (_ : Sec) => ?_) w; revert w; intro _)
    | (extract_lets +onlyGivenNames w; refine keeps_cut_snd zz w ?_ ?_; (unfold w; clear w); rotate_left; intro _; clear_value w; revert w; intro _ _)
    | (extract_lets +onlyGivenNames w; refine keeps_cut_fst zz w ?_ ?_; (unfold w; clear w); rotate_left; intro _; clear_value w; revert w; intro _ _)
    | (extract_lets +onlyGivenNames w; refine keeps_cut_thd zz w ?_ ?_; (unfold w; clear w); rotate_left; intro _; clear_value w; revert w; intro _ _)
    | (extract_lets +onlyGivenNames w; refine (fun (_ : _ → _) => ?_) w; unfold w; clear w)
    | (extract_lets +onlyGivenNames w; clear_value w; revert w; intro _) | apply updCore_keeps | apply xfWait_keeps
    | apply sendSignal_keeps | apply postSignal_keeps | apply keeps_ite | (apply keeps_foldl; intro _ _ _)
    | (apply keeps_foldl_snd; intro _ _ _) | (apply keeps_foldl_fst; intro _ _ _) | split
    | (rename_i hq; replace hq := congrArg Prod.snd hq; dsimp only at hq; rw [← hq]; clear hq)
    | (apply keeps_put; exact ⟨rfl, by simp, by simp, rfl, rfl, rfl, rfl, rfl, rfl, rfl, rfl, rfl⟩))

end Sys2Proof.Machine
end

