-- ==== Sys2Proof/Laws/KeepsEngines.lean ====
section
/-!
SUPPORT. What the operations of Machine/Engines.lean keep (Laws/Keeps.lean).
-/
set_option linter.all false
namespace Sys2Proof.Machine

theorem siteFault_keeps {zz : State} (t array : Nat) (lane : Bool) {s : State} (hz : Keeps zz s) :
    Keeps zz (siteFault t array lane s) := by
  unfold siteFault
  repeat (with_reducible first
    | assumption | apply updSite_keeps)

theorem voteCounted_keeps {zz : State} (c array : Nat) (lane : Bool) (f : Fix) {s : State} (hz : Keeps zz s) :
    Keeps zz (voteCounted c array lane f s) := by
  unfold voteCounted
  repeat (with_reducible first
    | assumption
    | (extract_lets +onlyGivenNames w; refine keeps_cut zz w ?_ ?_; (unfold w; clear w); rotate_left; intro _; clear_value w; revert w; intro _ _)
    | (extract_lets +onlyGivenNames w; clear_value w; revert w; intro _) | apply updCore_keeps | apply postEvent_keeps
    | apply noteCore_keeps | apply siteFault_keeps | split)

theorem engineFault_keeps {zz : State} (c e : Nat) (q : Queued) (f : Flt) {s : State} (hz : Keeps zz s) :
    Keeps zz (engineFault c e q f s) := by
  unfold engineFault
  repeat (with_reducible first
    | assumption | (intro _; exact ⟨rfl, rfl, rfl⟩) | (intro _; exact ⟨rfl, rfl, rfl, rfl⟩) | (intro _)
    | (extract_lets +onlyGivenNames w; refine keeps_cut zz w ?_ ?_; (unfold w; clear w); rotate_left; intro _; clear_value w; revert w; intro _ _)
    | (extract_lets +onlyGivenNames w; refine (fun (_ : MemSys) => ?_) w; revert w; intro _)
    | (extract_lets +onlyGivenNames w; refine (fun (_ : Ferry) => ?_) w; revert w; intro _)
    | (extract_lets +onlyGivenNames w; refine (fun (_ : Sec) => ?_) w; revert w; intro _)
    | (extract_lets +onlyGivenNames w; refine keeps_cut_snd zz w ?_ ?_; (unfold w; clear w); rotate_left; intro _; clear_value w; revert w; intro _ _)
    | (extract_lets +onlyGivenNames w; refine keeps_cut_fst zz w ?_ ?_; (unfold w; clear w); rotate_left; intro _; clear_value w; revert w; intro _ _)
    | (extract_lets +onlyGivenNames w; refine keeps_cut_thd zz w ?_ ?_; (unfold w; clear w); rotate_left; intro _; clear_value w; revert w; intro _ _)
    | (extract_lets +onlyGivenNames w; refine (fun (_ : _ → _) => ?_) w; unfold w; clear w)
    | (extract_lets +onlyGivenNames w; clear_value w; revert w; intro _) | apply coreFault_keeps | apply updCore_keeps
    | apply keeps_ite | split
    | (rename_i hq; replace hq := congrArg Prod.snd hq; dsimp only at hq; rw [← hq]; clear hq)
    | (apply keeps_put; exact ⟨rfl, by simp, by simp, rfl, rfl, rfl, rfl, rfl, rfl, rfl, rfl, rfl⟩))

theorem voteSuspect_keeps {zz : State} (c array : Nat) (x : LanePlace) (t : TilePass) (r : Running) {s : State} (hz : Keeps zz s) :
    Keeps zz (voteSuspect c array x t r s) := by
  unfold voteSuspect
  repeat (with_reducible first
    | assumption | (intro _; exact ⟨rfl, rfl, rfl⟩) | (intro _; exact ⟨rfl, rfl, rfl, rfl⟩) | (intro _)
    | (extract_lets +onlyGivenNames w; refine keeps_cut zz w ?_ ?_; (unfold w; clear w); rotate_left; intro _; clear_value w; revert w; intro _ _)
    | (extract_lets +onlyGivenNames w; refine (fun (_ : MemSys) => ?_) w; revert w; intro _)
    | (extract_lets +onlyGivenNames w; refine (fun (_ : Ferry) => ?_) w; revert w; intro _)
    | (extract_lets +onlyGivenNames w; refine (fun (_ : Sec) => ?_) w; revert w; intro _)
    | (extract_lets +onlyGivenNames w; refine keeps_cut_snd zz w ?_ ?_; (unfold w; clear w); rotate_left; intro _; clear_value w; revert w; intro _ _)
    | (extract_lets +onlyGivenNames w; refine keeps_cut_fst zz w ?_ ?_; (unfold w; clear w); rotate_left; intro _; clear_value w; revert w; intro _ _)
    | (extract_lets +onlyGivenNames w; refine keeps_cut_thd zz w ?_ ?_; (unfold w; clear w); rotate_left; intro _; clear_value w; revert w; intro _ _)
    | (extract_lets +onlyGivenNames w; refine (fun (_ : _ → _) => ?_) w; unfold w; clear w)
    | (extract_lets +onlyGivenNames w; clear_value w; revert w; intro _) | apply updCore_keeps | apply updSite_keeps
    | apply spoilAll_keeps | apply engineFault_keeps | apply setCore_keeps | apply keeps_ite | split
    | (rename_i hq; replace hq := congrArg Prod.snd hq; dsimp only at hq; rw [← hq]; clear hq)
    | (apply keeps_put; exact ⟨rfl, by simp, by simp, rfl, rfl, rfl, rfl, rfl, rfl, rfl, rfl, rfl⟩))

theorem verdictDone_keeps {zz : State} (c array : Nat) (x : LanePlace) (t : TilePass) (r : Running) (v : Verdict) {s : State} (hz : Keeps zz s) :
    Keeps zz (verdictDone c array x t r v s) := by
  unfold verdictDone
  repeat (with_reducible first
    | assumption | (intro _; exact ⟨rfl, rfl, rfl⟩) | (intro _; exact ⟨rfl, rfl, rfl, rfl⟩) | (intro _)
    | apply voteCounted_keeps | apply voteSuspect_keeps | apply keeps_ite | split
    | (rename_i hq; replace hq := congrArg Prod.snd hq; dsimp only at hq; rw [← hq]; clear hq)
    | (apply keeps_put; exact ⟨rfl, by simp, by simp, rfl, rfl, rfl, rfl, rfl, rfl, rfl, rfl, rfl⟩))

theorem injectAt_keeps {zz : State} (c array : Nat) (lane : Bool) (r : Running) (x : LanePlace) {s : State} (hz : Keeps zz s) :
    Keeps zz (injectAt c array lane r x s) := by
  unfold injectAt
  repeat (with_reducible first
    | assumption | (intro _; exact ⟨rfl, rfl, rfl⟩) | (intro _; exact ⟨rfl, rfl, rfl, rfl⟩) | (intro _)
    | (extract_lets +onlyGivenNames w; refine keeps_cut zz w ?_ ?_; (unfold w; clear w); rotate_left; intro _; clear_value w; revert w; intro _ _)
    | (extract_lets +onlyGivenNames w; refine (fun (_ : MemSys) => ?_) w; revert w; intro _)
    | (extract_lets +onlyGivenNames w; refine (fun (_ : Ferry) => ?_) w; revert w; intro _)
    | (extract_lets +onlyGivenNames w; refine (fun (_ : Sec) => ?_) w; revert w; intro _)
    | (extract_lets +onlyGivenNames w; refine keeps_cut_snd zz w ?_ ?_; (unfold w; clear w); rotate_left; intro _; clear_value w; revert w; intro _ _)
    | (extract_lets +onlyGivenNames w; refine keeps_cut_fst zz w ?_ ?_; (unfold w; clear w); rotate_left; intro _; clear_value w; revert w; intro _ _)
    | (extract_lets +onlyGivenNames w; refine keeps_cut_thd zz w ?_ ?_; (unfold w; clear w); rotate_left; intro _; clear_value w; revert w; intro _ _)
    | (extract_lets +onlyGivenNames w; refine (fun (_ : _ → _) => ?_) w; unfold w; clear w)
    | (extract_lets +onlyGivenNames w; clear_value w; revert w; intro _) | apply updCore_keeps
    | apply verdictDone_keeps | apply keeps_ite | split
    | (rename_i hq; replace hq := congrArg Prod.snd hq; dsimp only at hq; rw [← hq]; clear hq)
    | (apply keeps_put; exact ⟨rfl, by simp, by simp, rfl, rfl, rfl, rfl, rfl, rfl, rfl, rfl, rfl⟩))

theorem takeInjections_keeps {zz : State} (c array : Nat) {s : State} (hz : Keeps zz s) :
    Keeps zz (takeInjections c array s) := by
  unfold takeInjections
  repeat (with_reducible first
    | assumption | (intro _; exact ⟨rfl, rfl, rfl⟩) | (intro _; exact ⟨rfl, rfl, rfl, rfl⟩) | (intro _)
    | (extract_lets +onlyGivenNames w; refine keeps_cut zz w ?_ ?_; (unfold w; clear w); rotate_left; intro _; clear_value w; revert w; intro _ _)
    | (extract_lets +onlyGivenNames w; refine (fun (_ : MemSys) => ?_) w; revert w; intro _)
    | (extract_lets +onlyGivenNames w; refine (fun (_ : Ferry) => ?_) w; revert w; intro _)
    | (extract_lets +onlyGivenNames w; refine (fun (_ : Sec) => ?_) w; revert w; intro _)
    | (extract_lets +onlyGivenNames w; refine keeps_cut_snd zz w ?_ ?_; (unfold w; clear w); rotate_left; intro _; clear_value w; revert w; intro _ _)
    | (extract_lets +onlyGivenNames w; refine keeps_cut_fst zz w ?_ ?_; (unfold w; clear w); rotate_left; intro _; clear_value w; revert w; intro _ _)
    | (extract_lets +onlyGivenNames w; refine keeps_cut_thd zz w ?_ ?_; (unfold w; clear w); rotate_left; intro _; clear_value w; revert w; intro _ _)
    | (extract_lets +onlyGivenNames w; refine (fun (_ : _ → _) => ?_) w; unfold w; clear w)
    | (extract_lets +onlyGivenNames w; clear_value w; revert w; intro _) | apply injectAt_keeps | apply keeps_ite
    | split | (rename_i hq; replace hq := congrArg Prod.snd hq; dsimp only at hq; rw [← hq]; clear hq)
    | (apply keeps_put; exact ⟨rfl, by simp, by simp, rfl, rfl, rfl, rfl, rfl, rfl, rfl, rfl, rfl⟩))

theorem updLast_keeps {zz : State} (c e : Nat) (f : Running → Running) {s : State} (hz : Keeps zz s) :
    Keeps zz (updLast c e f s) := by
  unfold updLast
  repeat (with_reducible first
    | assumption | apply updCore_keeps)

theorem settleUnit_keeps {zz : State} (c e : Nat) (q : Queued) (r : Core × Option Flt) {s : State} (hz : Keeps zz s) :
    Keeps zz (settleUnit c e q r s) := by
  unfold settleUnit
  repeat (with_reducible first
    | assumption | apply setCore_keeps | apply engineFault_keeps | split)

theorem runArray_keeps {zz : State} (c e : Nat) (q : Queued) (tds : List Bytes) (got : Tbl (List Int)) {s : State} (hz : Keeps zz s) :
    Keeps zz (runArray c e q tds got s) := by
  unfold runArray
  repeat (with_reducible first
    | assumption | (intro _; exact ⟨rfl, rfl, rfl⟩) | (intro _; exact ⟨rfl, rfl, rfl, rfl⟩) | (intro _)
    | (extract_lets +onlyGivenNames w; refine keeps_cut zz w ?_ ?_; (unfold w; clear w); rotate_left; intro _; clear_value w; revert w; intro _ _)
    | (extract_lets +onlyGivenNames w; refine (fun (_ : MemSys) => ?_) w; revert w; intro _)
    | (extract_lets +onlyGivenNames w; refine (fun (_ : Ferry) => ?_) w; revert w; intro _)
    | (extract_lets +onlyGivenNames w; refine (fun (_ : Sec) => ?_) w; revert w; intro _)
    | (extract_lets +onlyGivenNames w; refine keeps_cut_snd zz w ?_ ?_; (unfold w; clear w); rotate_left; intro _; clear_value w; revert w; intro _ _)
    | (extract_lets +onlyGivenNames w; refine keeps_cut_fst zz w ?_ ?_; (unfold w; clear w); rotate_left; intro _; clear_value w; revert w; intro _ _)
    | (extract_lets +onlyGivenNames w; refine keeps_cut_thd zz w ?_ ?_; (unfold w; clear w); rotate_left; intro _; clear_value w; revert w; intro _ _)
    | (extract_lets +onlyGivenNames w; refine (fun (_ : _ → _) => ?_) w; unfold w; clear w)
    | (extract_lets +onlyGivenNames w; clear_value w; revert w; intro _) | apply setCore_keeps
    | apply takeInjections_keeps | apply updLast_keeps | apply updCore_keeps | apply engineFault_keeps
    | apply keeps_ite | split
    | (rename_i hq; replace hq := congrArg Prod.snd hq; dsimp only at hq; rw [← hq]; clear hq)
    | (apply keeps_put; exact ⟨rfl, by simp, by simp, rfl, rfl, rfl, rfl, rfl, rfl, rfl, rfl, rfl⟩))

theorem engineRun_keeps {zz : State} (c e : Nat) (q : Queued) (tds : List Bytes) (got : Tbl (List Int)) {s : State} (hz : Keeps zz s) :
    Keeps zz (engineRun c e q tds got s) := by
  unfold engineRun
  repeat (with_reducible first
    | assumption
    | (extract_lets +onlyGivenNames w; refine keeps_cut zz w ?_ ?_; (unfold w; clear w); rotate_left; intro _; clear_value w; revert w; intro _ _)
    | (extract_lets +onlyGivenNames w; refine (fun (_ : _ → _) => ?_) w; unfold w; clear w)
    | (extract_lets +onlyGivenNames w; clear_value w; revert w; intro _) | apply engineFault_keeps
    | apply runArray_keeps | apply settleUnit_keeps | apply govFlag_keeps | apply updGov_keeps | apply updLast_keeps
    | apply runSig_keeps | apply runPlain_keeps | apply runParcels_keeps | apply runCast_keeps | split
    | (apply keeps_put; exact ⟨rfl, by simp, by simp, rfl, rfl, rfl, rfl, rfl, rfl, rfl, rfl, rfl⟩))

theorem engineEcc_keeps {zz : State} (c e : Nat) (q : Queued) (ecc : Ecc) (go : State → State) {s : State} (h_go : ∀ (v0 : State), Keeps zz v0 → Keeps zz (go v0)) (hz : Keeps zz s) :
    Keeps zz (engineEcc c e q ecc go s) := by
  unfold engineEcc
  repeat (with_reducible first
    | assumption | (intro _; exact ⟨rfl, rfl, rfl⟩) | (intro _; exact ⟨rfl, rfl, rfl, rfl⟩) | (intro _) | apply h_go
    | apply engineFault_keeps | apply noteEcc_keeps | apply keeps_ite | split
    | (rename_i hq; replace hq := congrArg Prod.snd hq; dsimp only at hq; rw [← hq]; clear hq)
    | (apply keeps_put; exact ⟨rfl, by simp, by simp, rfl, rfl, rfl, rfl, rfl, rfl, rfl, rfl, rfl⟩))

theorem engineFeed_keeps {zz : State} (c e : Nat) (ecc : Ecc) (r : Running) {s : State} (hz : Keeps zz s) :
    Keeps zz (engineFeed c e ecc r s) := by
  unfold engineFeed
  repeat (with_reducible first
    | assumption | (intro _; exact ⟨rfl, rfl, rfl⟩) | (intro _; exact ⟨rfl, rfl, rfl, rfl⟩) | (intro _)
    | (extract_lets +onlyGivenNames w; refine keeps_cut zz w ?_ ?_; (unfold w; clear w); rotate_left; intro _; clear_value w; revert w; intro _ _)
    | (extract_lets +onlyGivenNames w; refine (fun (_ : MemSys) => ?_) w; revert w; intro _)
    | (extract_lets +onlyGivenNames w; refine (fun (_ : Ferry) => ?_) w; revert w; intro _)
    | (extract_lets +onlyGivenNames w; refine (fun (_ : Sec) => ?_) w; revert w; intro _)
    | (extract_lets +onlyGivenNames w; refine keeps_cut_snd zz w ?_ ?_; (unfold w; clear w); rotate_left; intro _; clear_value w; revert w; intro _ _)
    | (extract_lets +onlyGivenNames w; refine keeps_cut_fst zz w ?_ ?_; (unfold w; clear w); rotate_left; intro _; clear_value w; revert w; intro _ _)
    | (extract_lets +onlyGivenNames w; refine keeps_cut_thd zz w ?_ ?_; (unfold w; clear w); rotate_left; intro _; clear_value w; revert w; intro _ _)
    | (extract_lets +onlyGivenNames w; refine (fun (_ : _ → _) => ?_) w; unfold w; clear w)
    | (extract_lets +onlyGivenNames w; clear_value w; revert w; intro _) | apply updCore_keeps | apply engineEcc_keeps
    | apply engineRun_keeps | apply updLast_keeps | apply deadlockCheck_keeps | apply keeps_ite | split
    | (rename_i hq; replace hq := congrArg Prod.snd hq; dsimp only at hq; rw [← hq]; clear hq)
    | (apply keeps_put; exact ⟨rfl, by simp, by simp, rfl, rfl, rfl, rfl, rfl, rfl, rfl, rfl, rfl⟩))

theorem execEngineStart_keeps {zz : State} (c e : Nat) (ecc : Ecc) {s : State} (hz : Keeps zz s) :
    KeepsR zz (execEngineStart c e ecc s) := by
  unfold execEngineStart
  repeat (with_reducible first
    | assumption
    | (extract_lets +onlyGivenNames w; refine keeps_cut zz w ?_ ?_; (unfold w; clear w); rotate_left; intro _; clear_value w; revert w; intro _ _)
    | (extract_lets +onlyGivenNames w; clear_value w; revert w; intro _) | apply keepsR_next | apply engineFeed_keeps
    | apply updCore_keeps | apply engineFault_keeps | split)

theorem execEngineCompletion_keeps {zz : State} (c e : Nat) {s : State} (hz : Keeps zz s) :
    KeepsR zz (execEngineCompletion c e s) := by
  unfold execEngineCompletion
  repeat (with_reducible first
    | assumption | (intro _; exact ⟨rfl, rfl, rfl⟩) | (intro _; exact ⟨rfl, rfl, rfl, rfl⟩) | (intro _)
    | (extract_lets +onlyGivenNames w; refine keeps_cut zz w ?_ ?_; (unfold w; clear w); rotate_left; intro _; clear_value w; revert w; intro _ _)
    | (extract_lets +onlyGivenNames w; refine (fun (_ : MemSys) => ?_) w; revert w; intro _)
    | (extract_lets +onlyGivenNames w; refine (fun (_ : Ferry) => ?_) w; revert w; intro _)
    | (extract_lets +onlyGivenNames w; refine (fun (_ : Sec) => ?_) w; revert w; intro _)
    | (extract_lets +onlyGivenNames w; refine keeps_cut_snd zz w ?_ ?_; (unfold w; clear w); rotate_left; intro _; clear_value w; revert w; intro _ _)
    | (extract_lets +onlyGivenNames w; refine keeps_cut_fst zz w ?_ ?_; (unfold w; clear w); rotate_left; intro _; clear_value w; revert w; intro _ _)
    | (extract_lets +onlyGivenNames w; refine keeps_cut_thd zz w ?_ ?_; (unfold w; clear w); rotate_left; intro _; clear_value w; revert w; intro _ _)
    | (extract_lets +onlyGivenNames w; refine (fun (_ : _ → _) => ?_) w; unfold w; clear w)
    | (extract_lets +onlyGivenNames w; clear_value w; revert w; intro _) | apply keepsR_next | exact keepsR_fault
    | apply keepsR_ite | apply engineFault_keeps | apply setCore_keeps | apply ewaitCheck_keeps | apply keeps_ite
    | split | (rename_i hq; replace hq := congrArg Prod.snd hq; dsimp only at hq; rw [← hq]; clear hq)
    | (apply keeps_put; exact ⟨rfl, by simp, by simp, rfl, rfl, rfl, rfl, rfl, rfl, rfl, rfl, rfl⟩))

theorem startCore_keeps {zz : State} (d : Desc) {s : State} (c : Nat) (hz : Keeps zz s) :
    Keeps zz (startCore d s c) := by
  unfold startCore
  repeat (with_reducible first
    | assumption | apply updCore_keeps)

theorem startStreamNow_keeps {zz : State} (d : Desc) {s : State} (hz : Keeps zz s) :
    Keeps zz (startStreamNow d s) := by
  unfold startStreamNow
  repeat (with_reducible first
    | assumption | apply startCore_keeps | apply leaveIdle_keeps | (apply keeps_foldl; intro _ _ _)
    | (apply keeps_put; exact ⟨rfl, by simp, by simp, rfl, rfl, rfl, rfl, rfl, rfl, rfl, rfl, rfl⟩))

theorem streamEnds_keeps {zz : State} (d : Desc) {s : State} (hz : Keeps zz s) :
    Keeps zz (streamEnds d s) := by
  unfold streamEnds
  repeat (with_reducible first
    | assumption
    | (extract_lets +onlyGivenNames w; refine keeps_cut zz w ?_ ?_; (unfold w; clear w); rotate_left; intro _; clear_value w; revert w; intro _ _)
    | (extract_lets +onlyGivenNames w; clear_value w; revert w; intro _) | apply updDesc_keeps | apply updStep_keeps
    | apply startStreamNow_keeps | apply finishDesc_keeps | split)

theorem execCoreHalted_keeps {zz : State} (c : Nat) {s : State} (hz : Keeps zz s) :
    KeepsR zz (execCoreHalted c s) := by
  unfold execCoreHalted
  repeat (with_reducible first
    | assumption
    | (extract_lets +onlyGivenNames w; refine keeps_cut zz w ?_ ?_; (unfold w; clear w); rotate_left; intro _; clear_value w; revert w; intro _ _)
    | (extract_lets +onlyGivenNames w; clear_value w; revert w; intro _) | apply keepsR_next | apply setCore_keeps
    | apply streamEnds_keeps | split)

theorem execCheckLaneDisagree_keeps {zz : State} (c array : Nat) (place : LanePlace) (sums : List Int) (lane : Int) {s : State} (hz : Keeps zz s) :
    KeepsR zz (execCheckLaneDisagree c array place sums lane s) := by
  unfold execCheckLaneDisagree
  repeat (with_reducible first
    | assumption | (intro _; exact ⟨rfl, rfl, rfl⟩) | (intro _; exact ⟨rfl, rfl, rfl, rfl⟩) | (intro _)
    | (extract_lets +onlyGivenNames w; refine keeps_cut zz w ?_ ?_; (unfold w; clear w); rotate_left; intro _; clear_value w; revert w; intro _ _)
    | (extract_lets +onlyGivenNames w; refine (fun (_ : MemSys) => ?_) w; revert w; intro _)
    | (extract_lets +onlyGivenNames w; refine (fun (_ : Ferry) => ?_) w; revert w; intro _)
    | (extract_lets +onlyGivenNames w; refine (fun (_ : Sec) => ?_) w; revert w; intro _)
    | (extract_lets +onlyGivenNames w; refine keeps_cut_snd zz w ?_ ?_; (unfold w; clear w); rotate_left; intro _; clear_value w; revert w; intro _ _)
    | (extract_lets +onlyGivenNames w; refine keeps_cut_fst zz w ?_ ?_; (unfold w; clear w); rotate_left; intro _; clear_value w; revert w; intro _ _)
    | (extract_lets +onlyGivenNames w; refine keeps_cut_thd zz w ?_ ?_; (unfold w; clear w); rotate_left; intro _; clear_value w; revert w; intro _ _)
    | (extract_lets +onlyGivenNames w; refine (fun (_ : _ → _) => ?_) w; unfold w; clear w)
    | (extract_lets +onlyGivenNames w; clear_value w; revert w; intro _) | apply keepsR_next | exact keepsR_fault
    | apply keepsR_ite | apply setCore_keeps | apply keeps_ite | split
    | (rename_i hq; replace hq := congrArg Prod.snd hq; dsimp only at hq; rw [← hq]; clear hq)
    | (apply keeps_put; exact ⟨rfl, by simp, by simp, rfl, rfl, rfl, rfl, rfl, rfl, rfl, rfl, rfl⟩))

theorem execCheckLaneVote_keeps {zz : State} (c array : Nat) (sums : List Int) {s : State} (hz : Keeps zz s) :
    KeepsR zz (execCheckLaneVote c array sums s) := by
  unfold execCheckLaneVote
  repeat (with_reducible first
    | assumption
    | (extract_lets +onlyGivenNames w; refine keeps_cut zz w ?_ ?_; (unfold w; clear w); rotate_left; intro _; clear_value w; revert w; intro _ _)
    | (extract_lets +onlyGivenNames w; refine keeps_cut_snd zz w ?_ ?_; (unfold w; clear w); rotate_left; intro _; clear_value w; revert w; intro _ _)
    | (extract_lets +onlyGivenNames w; clear_value w; revert w; intro _) | apply keepsR_next | apply pass_keeps
    | apply verdictDone_keeps | apply setCore_keeps | split
    | (apply keeps_put; exact ⟨rfl, by simp, by simp, rfl, rfl, rfl, rfl, rfl, rfl, rfl, rfl, rfl⟩))

theorem execMaChkClear_keeps {zz : State} (fn c array : Nat) {s : State} (hz : Keeps zz s) :
    KeepsR zz (execMaChkClear fn c array s) := by
  unfold execMaChkClear
  repeat (with_reducible first
    | assumption | (intro _; exact ⟨rfl, rfl, rfl⟩) | (intro _; exact ⟨rfl, rfl, rfl, rfl⟩) | (intro _)
    | apply keepsR_next | exact keepsR_fault | apply keepsR_ite | apply hostPost_keeps | apply updCore_keeps
    | apply keeps_ite | split
    | (rename_i hq; replace hq := congrArg Prod.snd hq; dsimp only at hq; rw [← hq]; clear hq))

theorem armInjection_keeps {zz : State} (fn c bit : Nat) {s : State} (hz : Keeps zz s) :
    Keeps zz (armInjection fn c bit s) := by
  unfold armInjection
  repeat (with_reducible first
    | assumption | (intro _; exact ⟨rfl, rfl, rfl⟩) | (intro _; exact ⟨rfl, rfl, rfl, rfl⟩) | (intro _)
    | apply hostPost_keeps | apply updCore_keeps | apply keeps_ite | split
    | (rename_i hq; replace hq := congrArg Prod.snd hq; dsimp only at hq; rw [← hq]; clear hq))

theorem execInjArrayMa0_keeps {zz : State} (fn c : Nat) {s : State} (hz : Keeps zz s) :
    KeepsR zz (execInjArrayMa0 fn c s) := by
  unfold execInjArrayMa0
  repeat (with_reducible first
    | assumption | apply keepsR_next | apply armInjection_keeps)

theorem execInjArrayMa1_keeps {zz : State} (fn c : Nat) {s : State} (hz : Keeps zz s) :
    KeepsR zz (execInjArrayMa1 fn c s) := by
  unfold execInjArrayMa1
  repeat (with_reducible first
    | assumption | apply keepsR_next | apply armInjection_keeps)

theorem execInjLaneMa0_keeps {zz : State} (fn c : Nat) {s : State} (hz : Keeps zz s) :
    KeepsR zz (execInjLaneMa0 fn c s) := by
  unfold execInjLaneMa0
  repeat (with_reducible first
    | assumption | apply keepsR_next | apply armInjection_keeps)

theorem execInjLaneMa1_keeps {zz : State} (fn c : Nat) {s : State} (hz : Keeps zz s) :
    KeepsR zz (execInjLaneMa1 fn c s) := by
  unfold execInjLaneMa1
  repeat (with_reducible first
    | assumption | apply keepsR_next | apply armInjection_keeps)

theorem execCoreFaultClear_keeps {zz : State} (fn c : Nat) {s : State} (hz : Keeps zz s) :
    KeepsR zz (execCoreFaultClear fn c s) := by
  unfold execCoreFaultClear
  repeat (with_reducible first
    | assumption | (intro _; exact ⟨rfl, rfl, rfl⟩) | (intro _; exact ⟨rfl, rfl, rfl, rfl⟩) | (intro _)
    | apply keepsR_next | exact keepsR_fault | apply keepsR_ite | apply hostPost_keeps | apply updCore_keeps
    | apply keeps_ite | split
    | (rename_i hq; replace hq := congrArg Prod.snd hq; dsimp only at hq; rw [← hq]; clear hq))

end Sys2Proof.Machine
end

