-- ==== Sys2Proof/Laws/KeepsAccess.lean ====
section
/-!
SUPPORT. What the operations of Machine/Access.lean keep (Laws/Keeps.lean).
-/
set_option linter.all false
namespace Sys2Proof.Machine

theorem writePlace_keeps {zz : State} (n a len : Nat) {s : State} (hz : Keeps zz s) :
    Keeps zz (writePlace n a len s).2 := by
  unfold writePlace
  repeat (with_reducible first
    | assumption | apply stashWrite_keeps | split)

theorem rangeRead_keeps {zz : State} (n hint a : Nat) (y0 : List (Nat × Nat)) {y1 : State} (hz : Keeps zz y1) :
    Keeps zz (rangeRead n hint a y0 y1).2 := by
  induction y0 generalizing y1 with
  | nil => exact hz
  | cons q l ih =>
    unfold rangeRead
    repeat (with_reducible first
      | assumption | apply ih | apply memGet_keeps | apply drawBytes_keeps | split)

end Sys2Proof.Machine
end

