-- ==== Sys2Proof/Laws/KeepsDescriptors.lean ====
section
/-!
SUPPORT. What the operations of Machine/Descriptors.lean keep (Laws/Keeps.lean).
-/
set_option linter.all false
namespace Sys2Proof.Machine

theorem updRing_keeps {zz : State} (r : Nat) (f : Ring → Ring) {s : State} (hz : Keeps zz s) :
    Keeps zz (updRing r f s) := by
  unfold updRing
  repeat (with_reducible first
    | assumption | (intro _; exact ⟨rfl, rfl, rfl⟩) | (intro _; exact ⟨rfl, rfl, rfl, rfl⟩) | (intro _)
    | apply keeps_ite | split
    | (rename_i hq; replace hq := congrArg Prod.snd hq; dsimp only at hq; rw [← hq]; clear hq)
    | (apply keeps_put; exact ⟨rfl, by simp, by simp, rfl, rfl, rfl, rfl, rfl, rfl, rfl, rfl, rfl⟩))

theorem journalHost_keeps {zz : State} (e : JEntry) {s : State} (hz : Keeps zz s) :
    Keeps zz (journalHost e s) := by
  unfold journalHost
  repeat (with_reducible first
    | assumption | apply emit_keeps | apply keeps_ite)

theorem journalDone_keeps {zz : State} (d : Desc) (e : JEntry) {s : State} (hz : Keeps zz s) :
    Keeps zz (journalDone d e s) := by
  unfold journalDone
  repeat (with_reducible first
    | assumption | (intro _; exact ⟨rfl, rfl, rfl⟩) | (intro _; exact ⟨rfl, rfl, rfl, rfl⟩) | (intro _)
    | (extract_lets +onlyGivenNames w; refine keeps_cut zz w ?_ ?_; (unfold w; clear w); rotate_left; intro _; clear_value w; revert w; intro _ _)
    | (extract_lets +onlyGivenNames w; refine (fun (_ : MemSys) => ?_) w; revert w; intro _)
    | (extract_lets +onlyGivenNames w; refine (fun (_ : Ferry) => ?_) w; revert w; intro _)
    | (extract_lets +onlyGivenNames w; refine (fun (_ : Sec) => ?_) w; revert w; intro _)
    | (extract_lets +onlyGivenNames w; refine keeps_cut_snd zz w ?_ ?_; (unfold w; clear w); rotate_left; intro _; clear_value w; revert w; intro _ _)
    | (extract_lets +onlyGivenNames w; refine keeps_cut_fst zz w ?_ ?_; (unfold w; clear w); rotate_left; intro _; clear_value w; revert w; intro _ _)
    | (extract_lets +onlyGivenNames w; refine keeps_cut_thd zz w ?_ ?_; (unfold w; clear w); rotate_left; intro _; clear_value w; revert w; intro _ _)
    | (extract_lets +onlyGivenNames w; refine (fun (_ : _ → _) => ?_) w; unfold w; clear w)
    | (extract_lets +onlyGivenNames w; clear_value w; revert w; intro _) | apply journalHost_keeps | apply keeps_ite
    | split | (rename_i hq; replace hq := congrArg Prod.snd hq; dsimp only at hq; rw [← hq]; clear hq)
    | (apply keeps_put; exact ⟨rfl, by simp, by simp, rfl, rfl, rfl, rfl, rfl, rfl, rfl, rfl, rfl⟩))

theorem fetchOne_keeps {zz : State} (r : Nat) (b : Bytes) {s : State} (hz : Keeps zz s) :
    Keeps zz (fetchOne r b s) := by
  unfold fetchOne
  repeat (with_reducible first
    | assumption | (intro _; exact ⟨rfl, rfl, rfl⟩) | (intro _; exact ⟨rfl, rfl, rfl, rfl⟩) | (intro _)
    | (extract_lets +onlyGivenNames w; refine keeps_cut zz w ?_ ?_; (unfold w; clear w); rotate_left; intro _; clear_value w; revert w; intro _ _)
    | (extract_lets +onlyGivenNames w; refine (fun (_ : MemSys) => ?_) w; revert w; intro _)
    | (extract_lets +onlyGivenNames w; refine (fun (_ : Ferry) => ?_) w; revert w; intro _)
    | (extract_lets +onlyGivenNames w; refine (fun (_ : Sec) => ?_) w; revert w; intro _)
    | (extract_lets +onlyGivenNames w; refine keeps_cut_snd zz w ?_ ?_; (unfold w; clear w); rotate_left; intro _; clear_value w; revert w; intro _ _)
    | (extract_lets +onlyGivenNames w; refine keeps_cut_fst zz w ?_ ?_; (unfold w; clear w); rotate_left; intro _; clear_value w; revert w; intro _ _)
    | (extract_lets +onlyGivenNames w; refine keeps_cut_thd zz w ?_ ?_; (unfold w; clear w); rotate_left; intro _; clear_value w; revert w; intro _ _)
    | (extract_lets +onlyGivenNames w; refine (fun (_ : _ → _) => ?_) w; unfold w; clear w)
    | (extract_lets +onlyGivenNames w; clear_value w; revert w; intro _) | apply updRing_keeps
    | apply journalHost_keeps | apply refuseDesc_keeps | apply keeps_ite | split
    | (rename_i hq; replace hq := congrArg Prod.snd hq; dsimp only at hq; rw [← hq]; clear hq)
    | (apply keeps_put; exact ⟨rfl, by simp, by simp, rfl, rfl, rfl, rfl, rfl, rfl, rfl, rfl, rfl⟩))

theorem fetchAll_keeps {zz : State} (r : Nat) (y0 : List Bytes) {y1 : State} (hz : Keeps zz y1) :
    Keeps zz (fetchAll r y0 y1) := by
  induction y0 generalizing y1 with
  | nil => exact hz
  | cons q l ih =>
    unfold fetchAll
    repeat (with_reducible first
      | assumption | apply ih | (intro _; exact ⟨rfl, rfl, rfl⟩) | (intro _; exact ⟨rfl, rfl, rfl, rfl⟩) | (intro _)
      | apply fetchOne_keeps | apply keeps_ite | split
      | (rename_i hq; replace hq := congrArg Prod.snd hq; dsimp only at hq; rw [← hq]; clear hq))

theorem execDescriptorFetch_keeps {zz : State} (dt ring : Nat) (bytes : Bytes) {s : State} (hz : Keeps zz s) :
    KeepsR zz (execDescriptorFetch dt ring bytes s) := by
  unfold execDescriptorFetch
  repeat (with_reducible first
    | assumption | apply keepsR_next | apply keepsR_ite | apply pass_keeps | apply fetchAll_keeps)

theorem putPiece_keeps {zz : State} (d : Desc) (host : Bool) (hint dst : Nat) (b : Bytes) {s : State} (hz : Keeps zz s) :
    Keeps zz (putPiece d host hint dst b s) := by
  unfold putPiece
  repeat (with_reducible first
    | assumption
    | (extract_lets +onlyGivenNames w; refine keeps_cut_snd zz w ?_ ?_; (unfold w; clear w); rotate_left; intro _; clear_value w; revert w; intro _ _)
    | (extract_lets +onlyGivenNames w; refine (fun (_ : _ → _) => ?_) w; unfold w; clear w) | apply updDesc_keeps
    | apply sendReq_keeps | apply emit_keeps | apply writePlace_keeps | apply memPut_keeps | apply finishDesc_keeps
    | apply dropPage_keeps | split)

theorem finishIfDone_keeps {zz : State} (id : Nat) {s : State} (hz : Keeps zz s) :
    Keeps zz (finishIfDone id s) := by
  unfold finishIfDone
  repeat (with_reducible first
    | assumption | apply finishDesc_keeps | split)

theorem copyForward_keeps {zz : State} (id : Nat) {s : State} (hz : Keeps zz s) :
    Keeps zz (copyForward id s) := by
  unfold copyForward
  repeat (with_reducible first
    | assumption | apply updDesc_keeps | apply finishIfDone_keeps | apply putPiece_keeps
    | (apply keeps_foldl; intro _ _ _) | split)

theorem copyPiece_keeps {zz : State} (d : Desc) (data : Bytes) {s : State} (p : Nat × Nat) (hz : Keeps zz s) :
    Keeps zz (copyPiece d data s p) := by
  unfold copyPiece
  repeat (with_reducible first
    | assumption
    | (extract_lets +onlyGivenNames w; refine keeps_cut_snd zz w ?_ ?_; (unfold w; clear w); rotate_left; intro _; clear_value w; revert w; intro _ _)
    | (extract_lets +onlyGivenNames w; refine (fun (_ : _ → _) => ?_) w; unfold w; clear w)
    | (extract_lets +onlyGivenNames w; clear_value w; revert w; intro _) | apply putPiece_keeps | apply sendReq_keeps
    | apply updDesc_keeps | apply memGet_keeps | apply drawBytes_keeps | apply finishDesc_keeps | apply rpcServe_keeps
    | apply rpcWant_keeps | split
    | (apply keeps_put; exact ⟨rfl, by simp, by simp, rfl, rfl, rfl, rfl, rfl, rfl, rfl, rfl, rfl⟩))

theorem copyMove_keeps {zz : State} (d : Desc) (host : HostRead) {s : State} (hz : Keeps zz s) :
    Keeps zz (copyMove d host s) := by
  unfold copyMove
  repeat (with_reducible first
    | assumption | apply finishDesc_keeps | apply notice_keeps | apply setPhase_keeps | apply updDesc_keeps
    | apply finishIfDone_keeps | apply copyPiece_keeps | (apply keeps_foldl; intro _ _ _) | split)

theorem copyReady_keeps {zz : State} (d : Desc) {s : State} (hz : Keeps zz s) :
    Keeps zz (copyReady d s) := by
  unfold copyReady
  repeat (with_reducible first
    | assumption | apply setPhase_keeps | apply updDesc_keeps)

theorem checked_keeps {zz : State} (d : Desc) (c : Option Status) (go : State → State) {s : State} (h_go : ∀ (v0 : State), Keeps zz v0 → Keeps zz (go v0)) (hz : Keeps zz s) :
    Keeps zz (checked d c go s) := by
  unfold checked
  repeat (with_reducible first
    | assumption | apply h_go | apply finishDesc_keeps | apply refuseDesc_keeps | split)

theorem execCopy_keeps {zz : State} (id : Nat) (host : HostRead) {s : State} (hz : Keeps zz s) :
    KeepsR zz (execCopy id host s) := by
  unfold execCopy
  repeat (with_reducible first
    | assumption | (intro _) | apply keepsR_next | apply copyMove_keeps | apply checked_keeps | apply acceptThen_keeps
    | split)

theorem fillStart_keeps {zz : State} (d : Desc) {s : State} (hz : Keeps zz s) :
    Keeps zz (fillStart d s) := by
  unfold fillStart
  repeat (with_reducible first
    | assumption | apply setPhase_keeps | apply finishIfDone_keeps | apply putPiece_keeps
    | (apply keeps_foldl; intro _ _ _))

theorem execFill_keeps {zz : State} (id : Nat) {s : State} (hz : Keeps zz s) :
    KeepsR zz (execFill id s) := by
  unfold execFill
  repeat (with_reducible first
    | assumption | (intro _) | apply keepsR_next | apply checked_keeps | apply acceptThen_keeps
    | apply fillStart_keeps | split)

theorem fenceStart_keeps {zz : State} (d : Desc) {s : State} (hz : Keeps zz s) :
    Keeps zz (fenceStart d s) := by
  unfold fenceStart
  repeat (with_reducible first
    | assumption | apply setPhase_keeps | apply finishDesc_keeps | apply keeps_ite)

theorem execFence_keeps {zz : State} (id : Nat) {s : State} (hz : Keeps zz s) :
    KeepsR zz (execFence id s) := by
  unfold execFence
  repeat (with_reducible first
    | assumption | (intro _) | apply keepsR_next | apply checked_keeps | apply acceptThen_keeps
    | apply fenceStart_keeps | split)

theorem fencesMet_keeps {zz : State} {s : State} (hz : Keeps zz s) :
    Keeps zz (fencesMet s) := by
  unfold fencesMet
  repeat (with_reducible first
    | assumption | apply finishDesc_keeps | (apply keeps_foldl; intro _ _ _))

theorem signalStart_keeps {zz : State} (d : Desc) {s : State} (hz : Keeps zz s) :
    Keeps zz (signalStart d s) := by
  unfold signalStart
  repeat (with_reducible first
    | assumption | (intro _; exact ⟨rfl, rfl, rfl⟩) | (intro _; exact ⟨rfl, rfl, rfl, rfl⟩) | (intro _)
    | (extract_lets +onlyGivenNames w; refine keeps_cut zz w ?_ ?_; (unfold w; clear w); rotate_left; intro _; clear_value w; revert w; intro _ _)
    | (extract_lets +onlyGivenNames w; refine (fun (_ : MemSys) => ?_) w; revert w; intro _)
    | (extract_lets +onlyGivenNames w; refine (fun (_ : Ferry) => ?_) w; revert w; intro _)
    | (extract_lets +onlyGivenNames w; refine (fun (_ : Sec) => ?_) w; revert w; intro _)
    | (extract_lets +onlyGivenNames w; refine keeps_cut_snd zz w ?_ ?_; (unfold w; clear w); rotate_left; intro _; clear_value w; revert w; intro _ _)
    | (extract_lets +onlyGivenNames w; refine keeps_cut_fst zz w ?_ ?_; (unfold w; clear w); rotate_left; intro _; clear_value w; revert w; intro _ _)
    | (extract_lets +onlyGivenNames w; refine keeps_cut_thd zz w ?_ ?_; (unfold w; clear w); rotate_left; intro _; clear_value w; revert w; intro _ _)
    | (extract_lets +onlyGivenNames w; refine (fun (_ : _ → _) => ?_) w; unfold w; clear w)
    | (extract_lets +onlyGivenNames w; clear_value w; revert w; intro _) | apply setPhase_keeps
    | apply sendSignal_keeps | apply postSignal_keeps | apply keeps_ite | split
    | (rename_i hq; replace hq := congrArg Prod.snd hq; dsimp only at hq; rw [← hq]; clear hq)
    | (apply keeps_put; exact ⟨rfl, by simp, by simp, rfl, rfl, rfl, rfl, rfl, rfl, rfl, rfl, rfl⟩))

theorem execSyncSignal_keeps {zz : State} (id : Nat) {s : State} (hz : Keeps zz s) :
    KeepsR zz (execSyncSignal id s) := by
  unfold execSyncSignal
  repeat (with_reducible first
    | assumption | (intro _) | apply keepsR_next | apply checked_keeps | apply acceptThen_keeps
    | apply signalStart_keeps | split)

theorem waitStart_keeps {zz : State} (d : Desc) {s : State} (hz : Keeps zz s) :
    Keeps zz (waitStart d s) := by
  unfold waitStart
  repeat (with_reducible first
    | assumption | (intro _; exact ⟨rfl, rfl, rfl⟩) | (intro _; exact ⟨rfl, rfl, rfl, rfl⟩) | (intro _)
    | (extract_lets +onlyGivenNames w; refine keeps_cut zz w ?_ ?_; (unfold w; clear w); rotate_left; intro _; clear_value w; revert w; intro _ _)
    | (extract_lets +onlyGivenNames w; refine (fun (_ : MemSys) => ?_) w; revert w; intro _)
    | (extract_lets +onlyGivenNames w; refine (fun (_ : Ferry) => ?_) w; revert w; intro _)
    | (extract_lets +onlyGivenNames w; refine (fun (_ : Sec) => ?_) w; revert w; intro _)
    | (extract_lets +onlyGivenNames w; refine keeps_cut_snd zz w ?_ ?_; (unfold w; clear w); rotate_left; intro _; clear_value w; revert w; intro _ _)
    | (extract_lets +onlyGivenNames w; refine keeps_cut_fst zz w ?_ ?_; (unfold w; clear w); rotate_left; intro _; clear_value w; revert w; intro _ _)
    | (extract_lets +onlyGivenNames w; refine keeps_cut_thd zz w ?_ ?_; (unfold w; clear w); rotate_left; intro _; clear_value w; revert w; intro _ _)
    | (extract_lets +onlyGivenNames w; refine (fun (_ : _ → _) => ?_) w; unfold w; clear w)
    | (extract_lets +onlyGivenNames w; clear_value w; revert w; intro _) | apply setPhase_keeps | apply sendWait_keeps
    | apply postWait_keeps | apply keeps_ite | split
    | (rename_i hq; replace hq := congrArg Prod.snd hq; dsimp only at hq; rw [← hq]; clear hq)
    | (apply keeps_put; exact ⟨rfl, by simp, by simp, rfl, rfl, rfl, rfl, rfl, rfl, rfl, rfl, rfl⟩))

theorem execSyncWait_keeps {zz : State} (id : Nat) {s : State} (hz : Keeps zz s) :
    KeepsR zz (execSyncWait id s) := by
  unfold execSyncWait
  repeat (with_reducible first
    | assumption | (intro _) | apply keepsR_next | apply checked_keeps | apply acceptThen_keeps
    | apply waitStart_keeps | split)

theorem resetRing_keeps {zz : State} (r : Nat) {s : State} (hz : Keeps zz s) :
    Keeps zz (resetRing r s) := by
  unfold resetRing
  repeat (with_reducible first
    | assumption | (intro _; exact ⟨rfl, rfl, rfl⟩) | (intro _; exact ⟨rfl, rfl, rfl, rfl⟩) | (intro _)
    | (extract_lets +onlyGivenNames w; refine keeps_cut zz w ?_ ?_; (unfold w; clear w); rotate_left; intro _; clear_value w; revert w; intro _ _)
    | (extract_lets +onlyGivenNames w; refine (fun (_ : MemSys) => ?_) w; revert w; intro _)
    | (extract_lets +onlyGivenNames w; refine (fun (_ : Ferry) => ?_) w; revert w; intro _)
    | (extract_lets +onlyGivenNames w; refine (fun (_ : Sec) => ?_) w; revert w; intro _)
    | (extract_lets +onlyGivenNames w; refine keeps_cut_snd zz w ?_ ?_; (unfold w; clear w); rotate_left; intro _; clear_value w; revert w; intro _ _)
    | (extract_lets +onlyGivenNames w; refine keeps_cut_fst zz w ?_ ?_; (unfold w; clear w); rotate_left; intro _; clear_value w; revert w; intro _ _)
    | (extract_lets +onlyGivenNames w; refine keeps_cut_thd zz w ?_ ?_; (unfold w; clear w); rotate_left; intro _; clear_value w; revert w; intro _ _)
    | (extract_lets +onlyGivenNames w; refine (fun (_ : _ → _) => ?_) w; unfold w; clear w)
    | (extract_lets +onlyGivenNames w; clear_value w; revert w; intro _) | apply keeps_ite | split
    | (rename_i hq; replace hq := congrArg Prod.snd hq; dsimp only at hq; rw [← hq]; clear hq)
    | (apply keeps_put; exact ⟨rfl, by simp, by simp, rfl, rfl, rfl, rfl, rfl, rfl, rfl, rfl, rfl⟩))

theorem resetFunc_keeps {zz : State} (fn : Nat) {s : State} (hz : Keeps zz s) :
    Keeps zz (resetFunc fn s) := by
  unfold resetFunc
  repeat (with_reducible first
    | assumption | (intro _; exact ⟨rfl, rfl, rfl⟩) | (intro _; exact ⟨rfl, rfl, rfl, rfl⟩) | (intro _)
    | (extract_lets +onlyGivenNames w; refine keeps_cut zz w ?_ ?_; (unfold w; clear w); rotate_left; intro _; clear_value w; revert w; intro _ _)
    | (extract_lets +onlyGivenNames w; refine (fun (_ : MemSys) => ?_) w; revert w; intro _)
    | (extract_lets +onlyGivenNames w; refine (fun (_ : Ferry) => ?_) w; revert w; intro _)
    | (extract_lets +onlyGivenNames w; refine (fun (_ : Sec) => ?_) w; revert w; intro _)
    | (extract_lets +onlyGivenNames w; refine keeps_cut_snd zz w ?_ ?_; (unfold w; clear w); rotate_left; intro _; clear_value w; revert w; intro _ _)
    | (extract_lets +onlyGivenNames w; refine keeps_cut_fst zz w ?_ ?_; (unfold w; clear w); rotate_left; intro _; clear_value w; revert w; intro _ _)
    | (extract_lets +onlyGivenNames w; refine keeps_cut_thd zz w ?_ ?_; (unfold w; clear w); rotate_left; intro _; clear_value w; revert w; intro _ _)
    | (extract_lets +onlyGivenNames w; refine (fun (_ : _ → _) => ?_) w; unfold w; clear w)
    | (extract_lets +onlyGivenNames w; clear_value w; revert w; intro _) | apply resetRing_keeps | apply keeps_ite
    | (apply keeps_foldl; intro _ _ _) | (apply keeps_foldl_snd; intro _ _ _) | (apply keeps_foldl_fst; intro _ _ _)
    | split | (rename_i hq; replace hq := congrArg Prod.snd hq; dsimp only at hq; rw [← hq]; clear hq)
    | (apply keeps_put; exact ⟨rfl, by simp, by simp, rfl, rfl, rfl, rfl, rfl, rfl, rfl, rfl, rfl⟩))

theorem flrPf0Ends_keeps {zz : State} {s : State} (hz : Keeps zz s) :
    Keeps zz (flrPf0Ends s) := by
  unfold flrPf0Ends
  repeat (with_reducible first
    | assumption | (intro _; exact ⟨rfl, rfl, rfl⟩) | (intro _; exact ⟨rfl, rfl, rfl, rfl⟩) | (intro _)
    | apply resetFunc_keeps | apply keeps_ite | split
    | (rename_i hq; replace hq := congrArg Prod.snd hq; dsimp only at hq; rw [← hq]; clear hq)
    | (apply keeps_put; exact ⟨rfl, by simp, by simp, rfl, rfl, rfl, rfl, rfl, rfl, rfl, rfl, rfl⟩))

theorem ringSignal_keeps {zz : State} (r : Nat) {s : State} (hz : Keeps zz s) :
    Keeps zz (ringSignal r s) := by
  unfold ringSignal
  repeat (with_reducible first
    | assumption | apply signalVector_keeps | apply updRing_keeps)

theorem coalesce_keeps {zz : State} (r : Nat) {s : State} (hz : Keeps zz s) :
    Keeps zz (coalesce r s) := by
  unfold coalesce
  repeat (with_reducible first
    | assumption | apply updRing_keeps | apply ringSignal_keeps | apply keeps_ite)

theorem completeDesc_keeps {zz : State} (d : Desc) (st : Status) {s : State} (hz : Keeps zz s) :
    Keeps zz (completeDesc d st s) := by
  unfold completeDesc
  repeat (with_reducible first
    | assumption | (intro _; exact ⟨rfl, rfl, rfl⟩) | (intro _; exact ⟨rfl, rfl, rfl, rfl⟩) | (intro _)
    | (extract_lets +onlyGivenNames w; refine keeps_cut zz w ?_ ?_; (unfold w; clear w); rotate_left; intro _; clear_value w; revert w; intro _ _)
    | (extract_lets +onlyGivenNames w; refine (fun (_ : MemSys) => ?_) w; revert w; intro _)
    | (extract_lets +onlyGivenNames w; refine (fun (_ : Ferry) => ?_) w; revert w; intro _)
    | (extract_lets +onlyGivenNames w; refine (fun (_ : Sec) => ?_) w; revert w; intro _)
    | (extract_lets +onlyGivenNames w; refine keeps_cut_snd zz w ?_ ?_; (unfold w; clear w); rotate_left; intro _; clear_value w; revert w; intro _ _)
    | (extract_lets +onlyGivenNames w; refine keeps_cut_fst zz w ?_ ?_; (unfold w; clear w); rotate_left; intro _; clear_value w; revert w; intro _ _)
    | (extract_lets +onlyGivenNames w; refine keeps_cut_thd zz w ?_ ?_; (unfold w; clear w); rotate_left; intro _; clear_value w; revert w; intro _ _)
    | (extract_lets +onlyGivenNames w; refine (fun (_ : _ → _) => ?_) w; unfold w; clear w)
    | (extract_lets +onlyGivenNames w; clear_value w; revert w; intro _) | apply postEvent_keeps
    | apply journalDone_keeps | apply emit_keeps | apply updRing_keeps | apply coalesce_keeps | apply noticeRing_keeps
    | apply flrPf0Ends_keeps | apply fencesMet_keeps | apply keeps_ite | (apply keeps_foldl; intro _ _ _)
    | (apply keeps_foldl_snd; intro _ _ _) | (apply keeps_foldl_fst; intro _ _ _) | split
    | (rename_i hq; replace hq := congrArg Prod.snd hq; dsimp only at hq; rw [← hq]; clear hq)
    | (apply keeps_put; exact ⟨rfl, by simp, by simp, rfl, rfl, rfl, rfl, rfl, rfl, rfl, rfl, rfl⟩))

theorem execDescriptorComplete_keeps {zz : State} (dt id : Nat) {s : State} (hz : Keeps zz s) :
    KeepsR zz (execDescriptorComplete dt id s) := by
  unfold execDescriptorComplete
  repeat (with_reducible first
    | assumption | apply keepsR_next | apply completeDesc_keeps | apply pass_keeps | split)

end Sys2Proof.Machine
end

