-- ==== Sys2Proof/Laws/KeepsPartitions.lean ====
section
/-!
SUPPORT. What the operations of Machine/Partitions.lean keep (Laws/Keeps.lean).
-/
set_option linter.all false
namespace Sys2Proof.Machine

theorem ownCore_keeps {zz : State} (n : Nat) (p : Part) {s : State} (c : Nat) (hz : Keeps zz s) :
    Keeps zz (ownCore n p s c) := by
  unfold ownCore
  repeat (with_reducible first
    | assumption | apply updCore_keeps)

theorem disownCore_keeps {zz : State} {s : State} (c : Nat) (hz : Keeps zz s) :
    Keeps zz (disownCore s c) := by
  unfold disownCore
  repeat (with_reducible first
    | assumption | apply updCore_keeps)

theorem applyConfig_keeps {zz : State} (n : Nat) (p : Part) {s : State} (hz : Keeps zz s) :
    Keeps zz (applyConfig n p s) := by
  unfold applyConfig
  repeat (with_reducible first
    | assumption | apply updPart_keeps | apply disownCore_keeps | apply ownCore_keeps
    | (apply keeps_foldl; intro _ _ _))

theorem configRun_keeps {zz : State} (d : Desc) (table : HostRead) {s : State} (hz : Keeps zz s) :
    Keeps zz (configRun d table s) := by
  unfold configRun
  repeat (with_reducible first
    | assumption | (extract_lets +onlyGivenNames w; clear_value w; revert w; intro _) | apply refuseDesc_keeps
    | apply finishDesc_keeps | apply applyConfig_keeps | apply notice_keeps | split)

theorem configReady_keeps {zz : State} (d : Desc) {s : State} (hz : Keeps zz s) :
    Keeps zz (configReady d s) := by
  unfold configReady
  repeat (with_reducible first
    | assumption | apply setPhase_keeps | apply updDesc_keeps)

theorem execConfigPartition_keeps {zz : State} (id : Nat) (table : HostRead) {s : State} (hz : Keeps zz s) :
    KeepsR zz (execConfigPartition id table s) := by
  unfold execConfigPartition
  repeat (with_reducible first
    | assumption | (intro _) | apply keepsR_next | apply configRun_keeps | apply acceptThen_keeps | split)

theorem clearCounters_keeps {zz : State} (n : Nat) {s : State} (hz : Keeps zz s) :
    Keeps zz (clearCounters n s) := by
  unfold clearCounters
  repeat (with_reducible first
    | assumption | (intro _; exact ⟨rfl, rfl, rfl⟩) | (intro _; exact ⟨rfl, rfl, rfl, rfl⟩) | (intro _)
    | (extract_lets +onlyGivenNames w; refine keeps_cut zz w ?_ ?_; (unfold w; clear w); rotate_left; intro _; clear_value w; revert w; intro _ _)
    | (extract_lets +onlyGivenNames w; refine (fun (_ : MemSys) => ?_) w; revert w; intro _)
    | (extract_lets +onlyGivenNames w; refine (fun (_ : Ferry) => ?_) w; revert w; intro _)
    | (extract_lets +onlyGivenNames w; refine (fun (_ : Sec) => ?_) w; revert w; intro _)
    | (extract_lets +onlyGivenNames w; refine keeps_cut_snd zz w ?_ ?_; (unfold w; clear w); rotate_left; intro _; clear_value w; revert w; intro _ _)
    | (extract_lets +onlyGivenNames w; refine keeps_cut_fst zz w ?_ ?_; (unfold w; clear w); rotate_left; intro _; clear_value w; revert w; intro _ _)
    | (extract_lets +onlyGivenNames w; refine keeps_cut_thd zz w ?_ ?_; (unfold w; clear w); rotate_left; intro _; clear_value w; revert w; intro _ _)
    | (extract_lets +onlyGivenNames w; refine (fun (_ : _ → _) => ?_) w; unfold w; clear w)
    | (extract_lets +onlyGivenNames w; clear_value w; revert w; intro _) | apply keeps_ite | split
    | (rename_i hq; replace hq := congrArg Prod.snd hq; dsimp only at hq; rw [← hq]; clear hq)
    | (apply keeps_put; exact ⟨rfl, by simp, by simp, rfl, rfl, rfl, rfl, rfl, rfl, rfl, rfl, rfl⟩))

theorem clearAtStart_keeps {zz : State} (n : Nat) {s : State} (hz : Keeps zz s) :
    Keeps zz (clearAtStart n s) := by
  unfold clearAtStart
  repeat (with_reducible first
    | assumption | apply setReg_keeps | (apply keeps_foldl; intro _ _ _))

theorem startPartition_keeps {zz : State} (n : Nat) {s : State} (hz : Keeps zz s) :
    Keeps zz (startPartition n s) := by
  unfold startPartition
  repeat (with_reducible first
    | assumption | apply clearCounters_keeps | apply updCore_keeps | apply resetCore_keeps | apply updPart_keeps
    | apply clearAtStart_keeps | apply govStart_keeps | (apply keeps_foldl; intro _ _ _))

theorem startStart_keeps {zz : State} (d : Desc) {s : State} (hz : Keeps zz s) :
    Keeps zz (startStart d s) := by
  unfold startStart
  repeat (with_reducible first
    | assumption | apply refuseDesc_keeps | apply finishDesc_keeps | apply startPartition_keeps | split)

theorem execStartPartition_keeps {zz : State} (id : Nat) {s : State} (hz : Keeps zz s) :
    KeepsR zz (execStartPartition id s) := by
  unfold execStartPartition
  repeat (with_reducible first
    | assumption | (intro _) | apply keepsR_next | apply checked_keeps | apply acceptThen_keeps
    | apply startStart_keeps | split)

theorem stopStart_keeps {zz : State} (d : Desc) {s : State} (hz : Keeps zz s) :
    Keeps zz (stopStart d s) := by
  unfold stopStart
  repeat (with_reducible first
    | assumption
    | (extract_lets +onlyGivenNames w; refine keeps_cut zz w ?_ ?_; (unfold w; clear w); rotate_left; intro _; clear_value w; revert w; intro _ _)
    | (extract_lets +onlyGivenNames w; clear_value w; revert w; intro _) | apply setPhase_keeps
    | apply drainBegin_keeps | apply notice_keeps | apply finishDesc_keeps | split)

theorem execStopPartition_keeps {zz : State} (id : Nat) {s : State} (hz : Keeps zz s) :
    KeepsR zz (execStopPartition id s) := by
  unfold execStopPartition
  repeat (with_reducible first
    | assumption | (intro _) | apply keepsR_next | apply checked_keeps | apply acceptThen_keeps
    | apply stopStart_keeps | split)

theorem partResetDone_keeps {zz : State} (n : Nat) {s : State} (hz : Keeps zz s) :
    Keeps zz (partResetDone n s) := by
  unfold partResetDone
  repeat (with_reducible first
    | assumption | apply clearBanks_keeps | apply resetCore_keeps | apply startPartition_keeps | apply keeps_ite
    | (apply keeps_foldl; intro _ _ _))

theorem partReset_keeps {zz : State} (n : Nat) (auto : Bool) {s : State} (hz : Keeps zz s) :
    Keeps zz (partReset n auto s) := by
  unfold partReset
  repeat (with_reducible first
    | assumption | apply notice_keeps | apply partResetDone_keeps | apply drainBegin_keeps | split)

theorem drainEnds_keeps {zz : State} (n : Nat) (r : Drain) {s : State} (hz : Keeps zz s) :
    Keeps zz (drainEnds n r s) := by
  unfold drainEnds
  repeat (with_reducible first
    | assumption | apply updPart_keeps | apply finishDesc_keeps | apply partResetDone_keeps | apply keeps_ite
    | (apply keeps_foldl; intro _ _ _))

theorem execDrainDone_keeps {zz : State} (dt part : Nat) {s : State} (hz : Keeps zz s) :
    KeepsR zz (execDrainDone dt part s) := by
  unfold execDrainDone
  repeat (with_reducible first
    | assumption | apply keepsR_next | apply drainEnds_keeps | apply pass_keeps | split)

theorem execDrainTimeout_keeps {zz : State} (dt part : Nat) {s : State} (hz : Keeps zz s) :
    KeepsR zz (execDrainTimeout dt part s) := by
  unfold execDrainTimeout
  repeat (with_reducible first
    | assumption
    | (extract_lets +onlyGivenNames w; refine keeps_cut zz w ?_ ?_; (unfold w; clear w); rotate_left; intro _; clear_value w; revert w; intro _ _)
    | apply keepsR_next | apply pass_keeps | apply rungThree_keeps | split)

end Sys2Proof.Machine
end

