-- ==== Sys2Proof/Laws/KeepsHost.lean ====
section
/-!
SUPPORT. What the operations of Machine/Host.lean keep (Laws/Keeps.lean).
-/
set_option linter.all false
namespace Sys2Proof.Machine

theorem resetEndpoint_keeps {zz : State} {s : State} (hz : Keeps zz s) :
    Keeps zz (resetEndpoint s) := by
  unfold resetEndpoint
  repeat (with_reducible first
    | assumption | (intro _; exact ⟨rfl, rfl, rfl⟩) | (intro _; exact ⟨rfl, rfl, rfl, rfl⟩) | (intro _)
    | (extract_lets +onlyGivenNames w; refine keeps_cut zz w ?_ ?_; (unfold w; clear w); rotate_left; intro _; clear_value w; revert w; intro _ _)
    | (extract_lets +onlyGivenNames w; refine (fun (_ : MemSys) => ?_) w; revert w; intro _)
    | (extract_lets +onlyGivenNames w; refine (fun (_ : Ferry) => ?_) w; revert w; intro _)
    | (extract_lets +onlyGivenNames w; refine (fun (_ : Sec) => ?_) w; revert w; intro _)
    | (extract_lets +onlyGivenNames w; refine keeps_cut_snd zz w ?_ ?_; (unfold w; clear w); rotate_left; intro _; clear_value w; revert w; intro _ _)
    | (extract_lets +onlyGivenNames w; refine keeps_cut_fst zz w ?_ ?_; (unfold w; clear w); rotate_left; intro _; clear_value w; revert w; intro _ _)
    | (extract_lets +onlyGivenNames w; refine keeps_cut_thd zz w ?_ ?_; (unfold w; clear w); rotate_left; intro _; clear_value w; revert w; intro _ _)
    | (extract_lets +onlyGivenNames w; refine (fun (_ : _ → _) => ?_) w; unfold w; clear w)
    | (extract_lets +onlyGivenNames w; clear_value w; revert w; intro _) | apply resetFunc_keeps | apply keeps_ite
    | (apply keeps_foldl; intro _ _ _) | (apply keeps_foldl_snd; intro _ _ _) | (apply keeps_foldl_fst; intro _ _ _)
    | split | (rename_i hq; replace hq := congrArg Prod.snd hq; dsimp only at hq; rw [← hq]; clear hq)
    | (apply keeps_put; exact ⟨rfl, by simp, by simp, rfl, rfl, rfl, rfl, rfl, rfl, rfl, rfl, rfl⟩))

theorem execPerstAssert_keeps {zz : State} {s : State} (hz : Keeps zz s) :
    KeepsR zz (execPerstAssert s) := by
  unfold execPerstAssert
  repeat (with_reducible first
    | assumption | (intro _; exact ⟨rfl, rfl, rfl⟩) | (intro _; exact ⟨rfl, rfl, rfl, rfl⟩) | (intro _)
    | apply keepsR_next | exact keepsR_fault | apply keepsR_ite | apply resetEndpoint_keeps | apply keeps_ite | split
    | (rename_i hq; replace hq := congrArg Prod.snd hq; dsimp only at hq; rw [← hq]; clear hq)
    | (apply keeps_put; exact ⟨rfl, by simp, by simp, rfl, rfl, rfl, rfl, rfl, rfl, rfl, rfl, rfl⟩))

theorem execPcieLinkDown_keeps {zz : State} {s : State} (hz : Keeps zz s) :
    KeepsR zz (execPcieLinkDown s) := by
  unfold execPcieLinkDown
  repeat (with_reducible first
    | assumption | apply keepsR_next | apply resetEndpoint_keeps)

theorem execFlrVf_keeps {zz : State} (n : Nat) {s : State} (hz : Keeps zz s) :
    KeepsR zz (execFlrVf n s) := by
  unfold execFlrVf
  repeat (with_reducible first
    | assumption | apply keepsR_next | apply partResetDone_keeps | apply drainBegin_keeps | apply notice_keeps
    | apply resetFunc_keeps | apply endDescs_keeps | split)

theorem execFlrPf0_keeps {zz : State} {s : State} (hz : Keeps zz s) :
    KeepsR zz (execFlrPf0 s) := by
  unfold execFlrPf0
  repeat (with_reducible first
    | assumption | (intro _; exact ⟨rfl, rfl, rfl⟩) | (intro _; exact ⟨rfl, rfl, rfl, rfl⟩) | (intro _)
    | apply keepsR_next | exact keepsR_fault | apply keepsR_ite | apply flrPf0Ends_keeps | apply keeps_ite | split
    | (rename_i hq; replace hq := congrArg Prod.snd hq; dsimp only at hq; rw [← hq]; clear hq)
    | (apply keeps_put; exact ⟨rfl, by simp, by simp, rfl, rfl, rfl, rfl, rfl, rfl, rfl, rfl, rfl⟩))

theorem execPf0FlrTimeout_keeps {zz : State} (dt : Nat) {s : State} (hz : Keeps zz s) :
    KeepsR zz (execPf0FlrTimeout dt s) := by
  unfold execPf0FlrTimeout
  repeat (with_reducible first
    | assumption | (intro _; exact ⟨rfl, rfl, rfl⟩) | (intro _; exact ⟨rfl, rfl, rfl, rfl⟩) | (intro _)
    | (extract_lets +onlyGivenNames w; refine keeps_cut zz w ?_ ?_; (unfold w; clear w); rotate_left; intro _; clear_value w; revert w; intro _ _)
    | (extract_lets +onlyGivenNames w; refine (fun (_ : MemSys) => ?_) w; revert w; intro _)
    | (extract_lets +onlyGivenNames w; refine (fun (_ : Ferry) => ?_) w; revert w; intro _)
    | (extract_lets +onlyGivenNames w; refine (fun (_ : Sec) => ?_) w; revert w; intro _)
    | (extract_lets +onlyGivenNames w; refine keeps_cut_snd zz w ?_ ?_; (unfold w; clear w); rotate_left; intro _; clear_value w; revert w; intro _ _)
    | (extract_lets +onlyGivenNames w; refine keeps_cut_fst zz w ?_ ?_; (unfold w; clear w); rotate_left; intro _; clear_value w; revert w; intro _ _)
    | (extract_lets +onlyGivenNames w; refine keeps_cut_thd zz w ?_ ?_; (unfold w; clear w); rotate_left; intro _; clear_value w; revert w; intro _ _)
    | (extract_lets +onlyGivenNames w; refine (fun (_ : _ → _) => ?_) w; unfold w; clear w)
    | (extract_lets +onlyGivenNames w; clear_value w; revert w; intro _) | apply keepsR_next | exact keepsR_fault
    | apply keepsR_ite | apply pass_keeps | apply resetFunc_keeps | apply partReset_keeps | apply keeps_ite | split
    | (rename_i hq; replace hq := congrArg Prod.snd hq; dsimp only at hq; rw [← hq]; clear hq)
    | (apply keeps_put; exact ⟨rfl, by simp, by simp, rfl, rfl, rfl, rfl, rfl, rfl, rfl, rfl, rfl⟩))

theorem execBar4Read_keeps {zz : State} (fn off len : Nat) {s : State} (hz : Keeps zz s) :
    KeepsR zz (execBar4Read fn off len s) := by
  unfold execBar4Read
  repeat (with_reducible first
    | assumption
    | (extract_lets +onlyGivenNames w; refine keeps_cut zz w ?_ ?_; (unfold w; clear w); rotate_left; intro _; clear_value w; revert w; intro _ _)
    | apply keepsR_next | apply barAccess_keeps | apply memGet_keeps | apply emit_keeps | split)

theorem execBar4Write_keeps {zz : State} (fn off : Nat) (data : Bytes) {s : State} (hz : Keeps zz s) :
    KeepsR zz (execBar4Write fn off data s) := by
  unfold execBar4Write
  repeat (with_reducible first
    | assumption
    | (extract_lets +onlyGivenNames w; refine keeps_cut zz w ?_ ?_; (unfold w; clear w); rotate_left; intro _; clear_value w; revert w; intro _ _)
    | apply keepsR_next | apply barAccess_keeps | apply memPut_keeps | apply notice_keeps | split)

theorem doorbell_keeps {zz : State} (fn ring width : Nat) (value : Word) (put : Nat → Ring → Ring) {s : State} (hz : Keeps zz s) :
    Keeps zz (doorbell fn ring width value put s) := by
  unfold doorbell
  repeat (with_reducible first
    | assumption | apply barAccess_keeps | apply emit_keeps | apply noticeRing_keeps | apply updRing_keeps
    | apply leaveIdle_keeps | apply keeps_ite)

theorem execDoorbellSqTail_keeps {zz : State} (fn ring width : Nat) (value : Word) {s : State} (hz : Keeps zz s) :
    KeepsR zz (execDoorbellSqTail fn ring width value s) := by
  unfold execDoorbellSqTail
  repeat (with_reducible first
    | assumption | apply keepsR_next | apply keepsR_ite | apply doorbell_keeps)

theorem execDoorbellCqHead_keeps {zz : State} (fn ring width : Nat) (value : Word) {s : State} (hz : Keeps zz s) :
    KeepsR zz (execDoorbellCqHead fn ring width value s) := by
  unfold execDoorbellCqHead
  repeat (with_reducible first
    | assumption | apply keepsR_next | apply keepsR_ite | apply doorbell_keeps)

theorem execCoalesceTimeout_keeps {zz : State} (dt ring : Nat) {s : State} (hz : Keeps zz s) :
    KeepsR zz (execCoalesceTimeout dt ring s) := by
  unfold execCoalesceTimeout
  repeat (with_reducible first
    | assumption | apply keepsR_next | apply keepsR_ite | apply pass_keeps | apply ringSignal_keeps)

theorem execPcieL1Entry_keeps {zz : State} (dt : Nat) {s : State} (hz : Keeps zz s) :
    KeepsR zz (execPcieL1Entry dt s) := by
  unfold execPcieL1Entry
  repeat (with_reducible first
    | assumption | (intro _; exact ⟨rfl, rfl, rfl⟩) | (intro _; exact ⟨rfl, rfl, rfl, rfl⟩) | (intro _)
    | (extract_lets +onlyGivenNames w; refine keeps_cut zz w ?_ ?_; (unfold w; clear w); rotate_left; intro _; clear_value w; revert w; intro _ _)
    | (extract_lets +onlyGivenNames w; refine (fun (_ : MemSys) => ?_) w; revert w; intro _)
    | (extract_lets +onlyGivenNames w; refine (fun (_ : Ferry) => ?_) w; revert w; intro _)
    | (extract_lets +onlyGivenNames w; refine (fun (_ : Sec) => ?_) w; revert w; intro _)
    | (extract_lets +onlyGivenNames w; refine keeps_cut_snd zz w ?_ ?_; (unfold w; clear w); rotate_left; intro _; clear_value w; revert w; intro _ _)
    | (extract_lets +onlyGivenNames w; refine keeps_cut_fst zz w ?_ ?_; (unfold w; clear w); rotate_left; intro _; clear_value w; revert w; intro _ _)
    | (extract_lets +onlyGivenNames w; refine keeps_cut_thd zz w ?_ ?_; (unfold w; clear w); rotate_left; intro _; clear_value w; revert w; intro _ _)
    | (extract_lets +onlyGivenNames w; refine (fun (_ : _ → _) => ?_) w; unfold w; clear w)
    | (extract_lets +onlyGivenNames w; clear_value w; revert w; intro _) | apply keepsR_next | exact keepsR_fault
    | apply keepsR_ite | apply pass_keeps | apply emit_keeps | apply keeps_ite | split
    | (rename_i hq; replace hq := congrArg Prod.snd hq; dsimp only at hq; rw [← hq]; clear hq)
    | (apply keeps_put; exact ⟨rfl, by simp, by simp, rfl, rfl, rfl, rfl, rfl, rfl, rfl, rfl, rfl⟩))

theorem execPcieLinkTraining_keeps {zz : State} (rate width : Nat) (flit : Bool) {s : State} (hz : Keeps zz s) :
    KeepsR zz (execPcieLinkTraining rate width flit s) := by
  unfold execPcieLinkTraining
  repeat (with_reducible first
    | assumption | (intro _; exact ⟨rfl, rfl, rfl⟩) | (intro _; exact ⟨rfl, rfl, rfl, rfl⟩) | (intro _)
    | apply keepsR_next | exact keepsR_fault | apply keepsR_ite | apply keeps_ite | split
    | (rename_i hq; replace hq := congrArg Prod.snd hq; dsimp only at hq; rw [← hq]; clear hq)
    | (apply keeps_put; exact ⟨rfl, by simp, by simp, rfl, rfl, rfl, rfl, rfl, rfl, rfl, rfl, rfl⟩))

theorem ringOn_keeps {zz : State} (r : Nat) {s : State} (hz : Keeps zz s) :
    Keeps zz (ringOn r s) := by
  unfold ringOn
  repeat (with_reducible first
    | assumption | apply updRing_keeps)

theorem ringOff_keeps {zz : State} (r : Nat) {s : State} (hz : Keeps zz s) :
    Keeps zz (ringOff r s) := by
  unfold ringOff
  repeat (with_reducible first
    | assumption | apply updRing_keeps)

theorem execRingEnable_keeps {zz : State} (fn ring : Nat) {s : State} (hz : Keeps zz s) :
    KeepsR zz (execRingEnable fn ring s) := by
  unfold execRingEnable
  repeat (with_reducible first
    | assumption | (intro _; exact ⟨rfl, rfl, rfl⟩) | (intro _; exact ⟨rfl, rfl, rfl, rfl⟩) | (intro _)
    | apply keepsR_next | exact keepsR_fault | apply keepsR_ite | apply hostPost_keeps | apply ringOn_keeps
    | apply keeps_ite | split
    | (rename_i hq; replace hq := congrArg Prod.snd hq; dsimp only at hq; rw [← hq]; clear hq))

theorem execRingDisable_keeps {zz : State} (fn ring : Nat) {s : State} (hz : Keeps zz s) :
    KeepsR zz (execRingDisable fn ring s) := by
  unfold execRingDisable
  repeat (with_reducible first
    | assumption | (intro _; exact ⟨rfl, rfl, rfl⟩) | (intro _; exact ⟨rfl, rfl, rfl, rfl⟩) | (intro _)
    | apply keepsR_next | exact keepsR_fault | apply keepsR_ite | apply hostPost_keeps | apply ringOff_keeps
    | apply keeps_ite | split
    | (rename_i hq; replace hq := congrArg Prod.snd hq; dsimp only at hq; rw [← hq]; clear hq))

theorem execRingDrained_keeps {zz : State} (ring : Nat) {s : State} (hz : Keeps zz s) :
    KeepsR zz (execRingDrained ring s) := by
  unfold execRingDrained
  repeat (with_reducible first
    | assumption | apply keepsR_next | apply keepsR_ite | apply updRing_keeps)

end Sys2Proof.Machine
end

