-- ==== Sys2Proof/Laws/KeepsMemoryCommands.lean ====
section
/-!
SUPPORT. What the operations of Machine/MemoryCommands.lean keep (Laws/Keeps.lean).
-/
set_option linter.all false
namespace Sys2Proof.Machine

theorem memTake_keeps {zz : State} (w : MemWait) (len : Nat) {s : State} (hz : Keeps zz s) :
    Keeps zz (memTake w len s) := by
  unfold memTake
  repeat (with_reducible first
    | assumption | (intro _; exact ⟨rfl, rfl, rfl⟩) | (intro _; exact ⟨rfl, rfl, rfl, rfl⟩) | (intro _)
    | apply memServe_keeps | apply keeps_ite | split
    | (rename_i hq; replace hq := congrArg Prod.snd hq; dsimp only at hq; rw [← hq]; clear hq)
    | (apply keeps_put; exact ⟨rfl, by simp, by simp, rfl, rfl, rfl, rfl, rfl, rfl, rfl, rfl, rfl⟩))

theorem memForward_keeps {zz : State} (r : MemReq) (type tspec h : Nat) (d : Bytes) (o : Origin) {s : State} (hz : Keeps zz s) :
    Keeps zz (memForward r type tspec h d o s) := by
  unfold memForward
  repeat (with_reducible first
    | assumption | (intro _; exact ⟨rfl, rfl, rfl⟩) | (intro _; exact ⟨rfl, rfl, rfl, rfl⟩) | (intro _)
    | (extract_lets +onlyGivenNames w; refine keeps_cut zz w ?_ ?_; (unfold w; clear w); rotate_left; intro _; clear_value w; revert w; intro _ _)
    | (extract_lets +onlyGivenNames w; refine (fun (_ : MemSys) => ?_) w; revert w; intro _)
    | (extract_lets +onlyGivenNames w; refine (fun (_ : Ferry) => ?_) w; revert w; intro _)
    | (extract_lets +onlyGivenNames w; refine (fun (_ : Sec) => ?_) w; revert w; intro _)
    | (extract_lets +onlyGivenNames w; refine keeps_cut_snd zz w ?_ ?_; (unfold w; clear w); rotate_left; intro _; clear_value w; revert w; intro _ _)
    | (extract_lets +onlyGivenNames w; refine keeps_cut_fst zz w ?_ ?_; (unfold w; clear w); rotate_left; intro _; clear_value w; revert w; intro _ _)
    | (extract_lets +onlyGivenNames w; refine keeps_cut_thd zz w ?_ ?_; (unfold w; clear w); rotate_left; intro _; clear_value w; revert w; intro _ _)
    | (extract_lets +onlyGivenNames w; refine (fun (_ : _ → _) => ?_) w; unfold w; clear w)
    | (extract_lets +onlyGivenNames w; clear_value w; revert w; intro _) | apply sendReq_keeps | apply keeps_ite
    | split | (rename_i hq; replace hq := congrArg Prod.snd hq; dsimp only at hq; rw [← hq]; clear hq)
    | (apply keeps_put; exact ⟨rfl, by simp, by simp, rfl, rfl, rfl, rfl, rfl, rfl, rfl, rfl, rfl⟩))

theorem execMemoryRead_keeps {zz : State} (req : MemReq) (len : Nat) (err : ReadErr) {s : State} (hz : Keeps zz s) :
    KeepsR zz (execMemoryRead req len err s) := by
  unfold execMemoryRead
  repeat (with_reducible first
    | assumption | apply keepsR_next | apply memTake_keeps | apply memForward_keeps | apply emit_keeps
    | apply drawBytes_keeps | split
    | (apply keeps_put; exact ⟨rfl, by simp, by simp, rfl, rfl, rfl, rfl, rfl, rfl, rfl, rfl, rfl⟩))

theorem execMemoryWrite_keeps {zz : State} (req : MemReq) (data : Bytes) {s : State} (hz : Keeps zz s) :
    KeepsR zz (execMemoryWrite req data s) := by
  unfold execMemoryWrite
  repeat (with_reducible first
    | assumption
    | (extract_lets +onlyGivenNames w; refine keeps_cut_snd zz w ?_ ?_; (unfold w; clear w); rotate_left; intro _; clear_value w; revert w; intro _ _)
    | (extract_lets +onlyGivenNames w; clear_value w; revert w; intro _) | apply keepsR_next | apply writePlace_keeps
    | apply memTake_keeps | apply memForward_keeps | apply emit_keeps | split
    | (apply keeps_put; exact ⟨rfl, by simp, by simp, rfl, rfl, rfl, rfl, rfl, rfl, rfl, rfl, rfl⟩))

theorem execMemoryAdd_keeps {zz : State} (req : MemReq) (fp : Bool) (data : Bytes) (res : AdderResult) {s : State} (hz : Keeps zz s) :
    KeepsR zz (execMemoryAdd req fp data res s) := by
  unfold execMemoryAdd
  repeat (with_reducible first
    | assumption | apply keepsR_next | apply emit_keeps | apply memTake_keeps | split | exact keepsR_fault
    | apply keepsR_ite)

theorem refillBuckets_keeps {zz : State} (n : Nat) {s : State} (st : Nat) (hz : Keeps zz s) :
    Keeps zz (refillBuckets n s st) := by
  unfold refillBuckets
  repeat (with_reducible first
    | assumption | apply updStack_keeps)

theorem refillAll_keeps {zz : State} {s : State} (hz : Keeps zz s) :
    Keeps zz (refillAll s) := by
  unfold refillAll
  repeat (with_reducible first
    | assumption | apply refillBuckets_keeps | (apply keeps_foldl; intro _ _ _))

theorem serveWaiting_keeps {zz : State} (w : MemWait) {s : State} (hz : Keeps zz s) :
    Keeps zz (serveWaiting w s) := by
  unfold serveWaiting
  repeat (with_reducible first
    | assumption | (intro _; exact ⟨rfl, rfl, rfl⟩) | (intro _; exact ⟨rfl, rfl, rfl, rfl⟩) | (intro _)
    | apply memServe_keeps | apply keeps_ite | split
    | (rename_i hq; replace hq := congrArg Prod.snd hq; dsimp only at hq; rw [← hq]; clear hq)
    | (apply keeps_put; exact ⟨rfl, by simp, by simp, rfl, rfl, rfl, rfl, rfl, rfl, rfl, rfl, rfl⟩))

theorem serveRounds_keeps {zz : State} (y0 : Nat) {y1 : State} (hz : Keeps zz y1) :
    Keeps zz (serveRounds y0 y1) := by
  induction y0 generalizing y1 with
  | zero => exact hz
  | succ n ih =>
    unfold serveRounds
    repeat (with_reducible first
      | assumption | apply ih | apply serveWaiting_keeps | (apply keeps_foldl; intro _ _ _) | split)

theorem movesPaid_keeps {zz : State} {s : State} (hz : Keeps zz s) :
    Keeps zz (movesPaid s) := by
  unfold movesPaid
  repeat (with_reducible first
    | assumption | (intro _; exact ⟨rfl, rfl, rfl⟩) | (intro _; exact ⟨rfl, rfl, rfl, rfl⟩) | (intro _)
    | apply finishIfDone_keeps | apply keeps_ite | (apply keeps_foldl; intro _ _ _)
    | (apply keeps_foldl_snd; intro _ _ _) | (apply keeps_foldl_fst; intro _ _ _) | split
    | (rename_i hq; replace hq := congrArg Prod.snd hq; dsimp only at hq; rw [← hq]; clear hq)
    | (apply keeps_put; exact ⟨rfl, by simp, by simp, rfl, rfl, rfl, rfl, rfl, rfl, rfl, rfl, rfl⟩))

theorem execRegulatorInterval_keeps {zz : State} (dt : Nat) {s : State} (hz : Keeps zz s) :
    KeepsR zz (execRegulatorInterval dt s) := by
  unfold execRegulatorInterval
  repeat (with_reducible first
    | assumption | apply keepsR_next | apply pass_keeps | apply refillAll_keeps | apply movesPaid_keeps
    | apply serveRounds_keeps
    | (apply keeps_put; exact ⟨rfl, by simp, by simp, rfl, rfl, rfl, rfl, rfl, rfl, rfl, rfl, rfl⟩)
    | exact keepsR_fault | apply keepsR_ite)

theorem execHbmRefresh_keeps {zz : State} (dt stack : Nat) {s : State} (hz : Keeps zz s) :
    KeepsR zz (execHbmRefresh dt stack s) := by
  unfold execHbmRefresh
  repeat (with_reducible first
    | assumption | apply keepsR_next | apply keepsR_ite | apply pass_keeps | apply updStack_keeps)

theorem execScrub_keeps {zz : State} (dt stack : Nat) (err : ReadErr) {s : State} (hz : Keeps zz s) :
    KeepsR zz (execScrub dt stack err s) := by
  unfold execScrub
  repeat (with_reducible first
    | assumption
    | (extract_lets +onlyGivenNames w; refine keeps_cut zz w ?_ ?_; (unfold w; clear w); rotate_left; intro _; clear_value w; revert w; intro _ _)
    | apply keepsR_next | apply pass_keeps | apply correctedRead_keeps | apply lostLine_keeps | apply updStack_keeps
    | split)

theorem execStackFailure_keeps {zz : State} (stack : Nat) {s : State} (hz : Keeps zz s) :
    KeepsR zz (execStackFailure stack s) := by
  unfold execStackFailure
  repeat (with_reducible first
    | assumption | apply keepsR_next | apply keepsR_ite | apply memEvent_keeps | apply updStack_keeps
    | apply postEvent_keeps | apply rungThree_keeps)

theorem execRpcFetchDone_keeps {zz : State} (part page : Nat) (ok : Bool) {s : State} (hz : Keeps zz s) :
    KeepsR zz (execRpcFetchDone part page ok s) := by
  unfold execRpcFetchDone
  repeat (with_reducible first
    | assumption | (intro _; exact ⟨rfl, rfl, rfl⟩) | (intro _; exact ⟨rfl, rfl, rfl, rfl⟩) | (intro _)
    | apply keepsR_next | exact keepsR_fault | apply keepsR_ite | apply rpcDrop_keeps | apply updPart_keeps
    | apply keeps_ite | split
    | (rename_i hq; replace hq := congrArg Prod.snd hq; dsimp only at hq; rw [← hq]; clear hq)
    | (apply keeps_put; exact ⟨rfl, by simp, by simp, rfl, rfl, rfl, rfl, rfl, rfl, rfl, rfl, rfl⟩))

theorem execRpcInval_keeps {zz : State} (fn part : Nat) {s : State} (hz : Keeps zz s) :
    KeepsR zz (execRpcInval fn part s) := by
  unfold execRpcInval
  repeat (with_reducible first
    | assumption | (intro _; exact ⟨rfl, rfl, rfl⟩) | (intro _; exact ⟨rfl, rfl, rfl, rfl⟩) | (intro _)
    | apply keepsR_next | exact keepsR_fault | apply keepsR_ite | apply hostPost_keeps | apply rpcClear_keeps
    | apply keeps_ite | split
    | (rename_i hq; replace hq := congrArg Prod.snd hq; dsimp only at hq; rw [← hq]; clear hq)
    | (apply keeps_put; exact ⟨rfl, by simp, by simp, rfl, rfl, rfl, rfl, rfl, rfl, rfl, rfl, rfl⟩))

end Sys2Proof.Machine
end

