-- ==== Sys2Proof/Laws/KeepsPorts.lean ====
section
/-!
SUPPORT. What the operations of Machine/Ports.lean keep (Laws/Keeps.lean).
-/
set_option linter.all false
namespace Sys2Proof.Machine

theorem portRecord_keeps {zz : State} (p lane : Nat) {s : State} (hz : Keeps zz s) :
    Keeps zz (portRecord p lane s) := by
  unfold portRecord
  repeat (with_reducible first
    | assumption | apply postEvent_keeps)

theorem laneFlit_keeps {zz : State} (p op lane width no : Nat) {s : State} (hz : Keeps zz s) :
    Keeps zz (laneFlit p op lane width no s) := by
  unfold laneFlit
  repeat (with_reducible first
    | assumption | (intro _; exact ⟨rfl, rfl, rfl⟩) | (intro _; exact ⟨rfl, rfl, rfl, rfl⟩) | (intro _)
    | apply sendFlit_keeps | apply keeps_ite | split
    | (rename_i hq; replace hq := congrArg Prod.snd hq; dsimp only at hq; rw [← hq]; clear hq)
    | (apply keeps_put; exact ⟨rfl, by simp, by simp, rfl, rfl, rfl, rfl, rfl, rfl, rfl, rfl, rfl⟩))

theorem sendLane_keeps {zz : State} (p op lane width : Nat) {s : State} (hz : Keeps zz s) :
    Keeps zz (sendLane p op lane width s) := by
  unfold sendLane
  repeat (with_reducible first
    | assumption | apply laneFlit_keeps | apply updPort_keeps
    | (apply keeps_put; exact ⟨rfl, by simp, by simp, rfl, rfl, rfl, rfl, rfl, rfl, rfl, rfl, rfl⟩))

theorem execLaneFailed_keeps {zz : State} (port lane : Nat) {s : State} (hz : Keeps zz s) :
    KeepsR zz (execLaneFailed port lane s) := by
  unfold execLaneFailed
  repeat (with_reducible first
    | assumption | apply keepsR_next | apply keepsR_ite | apply updPort_keeps | apply portFails_keeps
    | apply portRecord_keeps | apply sendLane_keeps | apply gzlEvent_keeps)

theorem execLane_keeps {zz : State} (port op failed width handshake : Nat) {s : State} (hz : Keeps zz s) :
    KeepsR zz (execLane port op failed width handshake s) := by
  unfold execLane
  repeat (with_reducible first
    | assumption | apply keepsR_next | apply keepsR_ite | apply rxFlit_keeps | apply updPort_keeps
    | apply gzlEvent_keeps | apply laneFlit_keeps | apply portRecord_keeps | apply keeps_ite
    | (apply keeps_put; exact ⟨rfl, by simp, by simp, rfl, rfl, rfl, rfl, rfl, rfl, rfl, rfl, rfl⟩))

theorem execCodewordUncorrectable_keeps {zz : State} (port cseq : Nat) {s : State} (hz : Keeps zz s) :
    KeepsR zz (execCodewordUncorrectable port cseq s) := by
  unfold execCodewordUncorrectable
  repeat (with_reducible first
    | assumption | apply keepsR_next | apply keepsR_ite | apply sendLink_keeps | apply updPort_keeps)

theorem resendKept_keeps {zz : State} (p : Nat) {s : State} (hz : Keeps zz s) :
    Keeps zz (resendKept p s) := by
  unfold resendKept
  repeat (with_reducible first
    | assumption | (intro _; exact ⟨rfl, rfl, rfl⟩) | (intro _; exact ⟨rfl, rfl, rfl, rfl⟩) | (intro _)
    | apply emit_keeps | apply keeps_ite | (apply keeps_foldl; intro _ _ _) | (apply keeps_foldl_snd; intro _ _ _)
    | (apply keeps_foldl_fst; intro _ _ _) | split
    | (rename_i hq; replace hq := congrArg Prod.snd hq; dsimp only at hq; rw [← hq]; clear hq)
    | (apply keeps_put; exact ⟨rfl, by simp, by simp, rfl, rfl, rfl, rfl, rfl, rfl, rfl, rfl, rfl⟩))

theorem execLink_keeps {zz : State} (port ackCseq : Nat) (resend : Bool) (report : LinkReport) {s : State} (hz : Keeps zz s) :
    KeepsR zz (execLink port ackCseq resend report s) := by
  unfold execLink
  repeat (with_reducible first
    | assumption | apply keepsR_next | apply keepsR_ite | apply rxCodewords_keeps | apply setReg_keeps
    | apply portFails_keeps | apply updPort_keeps | apply resendKept_keeps | apply portDrain_keeps | apply keeps_ite
    | (apply keeps_put; exact ⟨rfl, by simp, by simp, rfl, rfl, rfl, rfl, rfl, rfl, rfl, rfl, rfl⟩))

theorem execCreditStallTimeout_keeps {zz : State} (dt port : Nat) {s : State} (hz : Keeps zz s) :
    KeepsR zz (execCreditStallTimeout dt port s) := by
  unfold execCreditStallTimeout
  repeat (with_reducible first
    | assumption | apply keepsR_next | apply keepsR_ite | apply pass_keeps | apply portFails_keeps)

theorem execTime_keeps {zz : State} (dt port : Nat) (time : DWord) (frac plane quality : Nat) {s : State} (hz : Keeps zz s) :
    KeepsR zz (execTime dt port time frac plane quality s) := by
  unfold execTime
  repeat (with_reducible first
    | assumption | (intro _; exact ⟨rfl, rfl, rfl⟩) | (intro _; exact ⟨rfl, rfl, rfl, rfl⟩) | (intro _)
    | (extract_lets +onlyGivenNames w; refine keeps_cut zz w ?_ ?_; (unfold w; clear w); rotate_left; intro _; clear_value w; revert w; intro _ _)
    | (extract_lets +onlyGivenNames w; refine (fun (_ : MemSys) => ?_) w; revert w; intro _)
    | (extract_lets +onlyGivenNames w; refine (fun (_ : Ferry) => ?_) w; revert w; intro _)
    | (extract_lets +onlyGivenNames w; refine (fun (_ : Sec) => ?_) w; revert w; intro _)
    | (extract_lets +onlyGivenNames w; refine keeps_cut_snd zz w ?_ ?_; (unfold w; clear w); rotate_left; intro _; clear_value w; revert w; intro _ _)
    | (extract_lets +onlyGivenNames w; refine keeps_cut_fst zz w ?_ ?_; (unfold w; clear w); rotate_left; intro _; clear_value w; revert w; intro _ _)
    | (extract_lets +onlyGivenNames w; refine keeps_cut_thd zz w ?_ ?_; (unfold w; clear w); rotate_left; intro _; clear_value w; revert w; intro _ _)
    | (extract_lets +onlyGivenNames w; refine (fun (_ : _ → _) => ?_) w; unfold w; clear w)
    | (extract_lets +onlyGivenNames w; clear_value w; revert w; intro _) | apply keepsR_next | exact keepsR_fault
    | apply keepsR_ite | apply pass_keeps | apply updPort_keeps | apply rxFlit_keeps | apply gzlEvent_keeps
    | apply timeRecord_keeps | apply correctTime_keeps | apply followSource_keeps | apply keeps_ite | split
    | (rename_i hq; replace hq := congrArg Prod.snd hq; dsimp only at hq; rw [← hq]; clear hq)
    | (apply keeps_put; exact ⟨rfl, by simp, by simp, rfl, rfl, rfl, rfl, rfl, rfl, rfl, rfl, rfl⟩))

theorem execTimeOkExpiry_keeps {zz : State} (dt port : Nat) {s : State} (hz : Keeps zz s) :
    KeepsR zz (execTimeOkExpiry dt port s) := by
  unfold execTimeOkExpiry
  repeat (with_reducible first
    | assumption | (intro _; exact ⟨rfl, rfl, rfl⟩) | (intro _; exact ⟨rfl, rfl, rfl, rfl⟩) | (intro _)
    | (extract_lets +onlyGivenNames w; refine keeps_cut zz w ?_ ?_; (unfold w; clear w); rotate_left; intro _; clear_value w; revert w; intro _ _)
    | (extract_lets +onlyGivenNames w; refine (fun (_ : MemSys) => ?_) w; revert w; intro _)
    | (extract_lets +onlyGivenNames w; refine (fun (_ : Ferry) => ?_) w; revert w; intro _)
    | (extract_lets +onlyGivenNames w; refine (fun (_ : Sec) => ?_) w; revert w; intro _)
    | (extract_lets +onlyGivenNames w; refine keeps_cut_snd zz w ?_ ?_; (unfold w; clear w); rotate_left; intro _; clear_value w; revert w; intro _ _)
    | (extract_lets +onlyGivenNames w; refine keeps_cut_fst zz w ?_ ?_; (unfold w; clear w); rotate_left; intro _; clear_value w; revert w; intro _ _)
    | (extract_lets +onlyGivenNames w; refine keeps_cut_thd zz w ?_ ?_; (unfold w; clear w); rotate_left; intro _; clear_value w; revert w; intro _ _)
    | (extract_lets +onlyGivenNames w; refine (fun (_ : _ → _) => ?_) w; unfold w; clear w)
    | (extract_lets +onlyGivenNames w; clear_value w; revert w; intro _) | apply keepsR_next | exact keepsR_fault
    | apply keepsR_ite | apply pass_keeps | apply followSource_keeps | apply updPort_keeps | apply keeps_ite | split
    | (rename_i hq; replace hq := congrArg Prod.snd hq; dsimp only at hq; rw [← hq]; clear hq))

theorem execDelayMeasure_keeps {zz : State} (dt port : Nat) {s : State} (hz : Keeps zz s) :
    KeepsR zz (execDelayMeasure dt port s) := by
  unfold execDelayMeasure
  repeat (with_reducible first
    | assumption | apply keepsR_next | apply keepsR_ite | apply pass_keeps | apply sendFlit_keeps
    | apply updPort_keeps
    | (apply keeps_put; exact ⟨rfl, by simp, by simp, rfl, rfl, rfl, rfl, rfl, rfl, rfl, rfl, rfl⟩))

theorem execDelayResp_keeps {zz : State} (dt port : Nat) (t1 t2 t3 : DWord) {s : State} (hz : Keeps zz s) :
    KeepsR zz (execDelayResp dt port t1 t2 t3 s) := by
  unfold execDelayResp
  repeat (with_reducible first
    | assumption | apply keepsR_next | apply keepsR_ite | apply pass_keeps | apply updPort_keeps | apply rxFlit_keeps
    | (apply keeps_put; exact ⟨rfl, by simp, by simp, rfl, rfl, rfl, rfl, rfl, rfl, rfl, rfl, rfl⟩))

theorem portEnters_keeps {zz : State} (p : Nat) (st : PortState) {s : State} (hz : Keeps zz s) :
    Keeps zz (portEnters p st s) := by
  unfold portEnters
  repeat (with_reducible first
    | assumption | apply portRecord_keeps | apply updPort_keeps)

theorem execPortSignalDetect_keeps {zz : State} (port : Nat) {s : State} (hz : Keeps zz s) :
    KeepsR zz (execPortSignalDetect port s) := by
  unfold execPortSignalDetect
  repeat (with_reducible first
    | assumption | apply keepsR_next | apply keepsR_ite | apply portEnters_keeps)

theorem execPortTrainDone_keeps {zz : State} (port : Nat) (failed : BitVec 17) {s : State} (hz : Keeps zz s) :
    KeepsR zz (execPortTrainDone port failed s) := by
  unfold execPortTrainDone
  repeat (with_reducible first
    | assumption | apply keepsR_next | apply keepsR_ite | apply updPort_keeps | apply portFails_keeps
    | apply portEnters_keeps)

theorem execPortAlignDone_keeps {zz : State} (port : Nat) {s : State} (hz : Keeps zz s) :
    KeepsR zz (execPortAlignDone port s) := by
  unfold execPortAlignDone
  repeat (with_reducible first
    | assumption | apply keepsR_next | apply keepsR_ite | apply sendFlit_keeps | apply portEnters_keeps
    | (apply keeps_put; exact ⟨rfl, by simp, by simp, rfl, rfl, rfl, rfl, rfl, rfl, rfl, rfl, rfl⟩))

theorem paramBad_keeps {zz : State} (port reason : Nat) {s : State} (hz : Keeps zz s) :
    Keeps zz (paramBad port reason s) := by
  unfold paramBad
  repeat (with_reducible first
    | assumption | apply gzlEvent_keeps | apply portFails_keeps)

theorem execParam_keeps {zz : State} (port plane role node : Nat) (creds : List Nat) {s : State} (hz : Keeps zz s) :
    KeepsR zz (execParam port plane role node creds s) := by
  unfold execParam
  repeat (with_reducible first
    | assumption | apply keepsR_next | apply keepsR_ite | apply rxFlit_keeps | apply paramBad_keeps
    | apply setReg_keeps | apply portEnters_keeps | apply updPort_keeps | apply keeps_ite
    | (apply keeps_put; exact ⟨rfl, by simp, by simp, rfl, rfl, rfl, rfl, rfl, rfl, rfl, rfl, rfl⟩))

theorem portRises_keeps {zz : State} (p : Nat) {s : State} (hz : Keeps zz s) :
    Keeps zz (portRises p s) := by
  unfold portRises
  repeat (with_reducible first
    | assumption | (intro _; exact ⟨rfl, rfl, rfl⟩) | (intro _; exact ⟨rfl, rfl, rfl, rfl⟩) | (intro _)
    | (extract_lets +onlyGivenNames w; refine keeps_cut zz w ?_ ?_; (unfold w; clear w); rotate_left; intro _; clear_value w; revert w; intro _ _)
    | (extract_lets +onlyGivenNames w; refine (fun (_ : MemSys) => ?_) w; revert w; intro _)
    | (extract_lets +onlyGivenNames w; refine (fun (_ : Ferry) => ?_) w; revert w; intro _)
    | (extract_lets +onlyGivenNames w; refine (fun (_ : Sec) => ?_) w; revert w; intro _)
    | (extract_lets +onlyGivenNames w; refine keeps_cut_snd zz w ?_ ?_; (unfold w; clear w); rotate_left; intro _; clear_value w; revert w; intro _ _)
    | (extract_lets +onlyGivenNames w; refine keeps_cut_fst zz w ?_ ?_; (unfold w; clear w); rotate_left; intro _; clear_value w; revert w; intro _ _)
    | (extract_lets +onlyGivenNames w; refine keeps_cut_thd zz w ?_ ?_; (unfold w; clear w); rotate_left; intro _; clear_value w; revert w; intro _ _)
    | (extract_lets +onlyGivenNames w; refine (fun (_ : _ → _) => ?_) w; unfold w; clear w)
    | (extract_lets +onlyGivenNames w; clear_value w; revert w; intro _) | apply portEnters_keeps
    | apply updPort_keeps | apply moveFlows_keeps | apply gzlEvent_keeps | apply pumpAll_keeps
    | apply followSource_keeps | apply keeps_ite | split
    | (rename_i hq; replace hq := congrArg Prod.snd hq; dsimp only at hq; rw [← hq]; clear hq)
    | (apply keeps_put; exact ⟨rfl, by simp, by simp, rfl, rfl, rfl, rfl, rfl, rfl, rfl, rfl, rfl⟩))

theorem execPortUp_keeps {zz : State} (port : Nat) {s : State} (hz : Keeps zz s) :
    KeepsR zz (execPortUp port s) := by
  unfold execPortUp
  repeat (with_reducible first
    | assumption | apply keepsR_next | apply keepsR_ite | apply portRises_keeps)

theorem execPortStateTimeout_keeps {zz : State} (dt port : Nat) {s : State} (hz : Keeps zz s) :
    KeepsR zz (execPortStateTimeout dt port s) := by
  unfold execPortStateTimeout
  repeat (with_reducible first
    | assumption
    | (extract_lets +onlyGivenNames w; refine keeps_cut zz w ?_ ?_; (unfold w; clear w); rotate_left; intro _; clear_value w; revert w; intro _ _)
    | (extract_lets +onlyGivenNames w; clear_value w; revert w; intro _) | apply keepsR_next | apply pass_keeps
    | apply portRises_keeps | apply portFails_keeps | split)

theorem execPortRetry_keeps {zz : State} (dt port : Nat) {s : State} (hz : Keeps zz s) :
    KeepsR zz (execPortRetry dt port s) := by
  unfold execPortRetry
  repeat (with_reducible first
    | assumption | apply keepsR_next | apply keepsR_ite | apply pass_keeps | apply updPort_keeps)

theorem execPortLossOfSignal_keeps {zz : State} (dt port lanes : Nat) {s : State} (hz : Keeps zz s) :
    KeepsR zz (execPortLossOfSignal dt port lanes s) := by
  unfold execPortLossOfSignal
  repeat (with_reducible first
    | assumption | apply keepsR_next | apply keepsR_ite | apply portFails_keeps | apply pass_keeps)

theorem gzlCtlWrite_keeps {zz : State} (value : Word) {s : State} (hz : Keeps zz s) :
    Keeps zz (gzlCtlWrite value s) := by
  unfold gzlCtlWrite
  repeat (with_reducible first
    | assumption | apply updPort_keeps | apply portFails_keeps | apply setReg_keeps | apply keeps_ite
    | (apply keeps_foldl; intro _ _ _))

theorem execPortEnWrite_keeps {zz : State} (fn : Nat) (value : Word) {s : State} (hz : Keeps zz s) :
    KeepsR zz (execPortEnWrite fn value s) := by
  unfold execPortEnWrite
  repeat (with_reducible first
    | assumption | (intro _; exact ⟨rfl, rfl, rfl⟩) | (intro _; exact ⟨rfl, rfl, rfl, rfl⟩) | (intro _)
    | apply keepsR_next | exact keepsR_fault | apply keepsR_ite | apply hostPost_keeps | apply gzlCtlWrite_keeps
    | apply keeps_ite | split
    | (rename_i hq; replace hq := congrArg Prod.snd hq; dsimp only at hq; rw [← hq]; clear hq))

end Sys2Proof.Machine
end

