-- ==== Sys2Proof/Laws/KeepsTree.lean ====
section
/-!
SUPPORT. What the operations of Machine/Tree.lean keep (Laws/Keeps.lean).
-/
set_option linter.all false
namespace Sys2Proof.Machine

theorem collCtl_keeps {zz : State} (n : Nat) (d : Desc) (m sub status value first nan sat count2 : Nat) {s : State} (hz : Keeps zz s) :
    Keeps zz (collCtl n d m sub status value first nan sat count2 s) := by
  unfold collCtl
  repeat (with_reducible first
    | assumption | apply sendReq_keeps)

theorem collBurst_keeps {zz : State} (n : Nat) (d : Desc) (m tspec i : Nat) (data : Bytes) {s : State} (hz : Keeps zz s) :
    Keeps zz (collBurst n d m tspec i data s) := by
  unfold collBurst
  repeat (with_reducible first
    | assumption | apply sendReq_keeps)

theorem endDue_keeps {zz : State} (n : Nat) {s : State} (c : Coll) (hz : Keeps zz s) :
    Keeps zz (endDue n s c) := by
  unfold endDue
  repeat (with_reducible first
    | assumption | apply collCtl_keeps | apply updColl_keeps | (apply keeps_foldl; intro _ _ _) | split)

theorem endsDue_keeps {zz : State} {s : State} (hz : Keeps zz s) :
    Keeps zz (endsDue s) := by
  unfold endsDue
  repeat (with_reducible first
    | assumption | apply endDue_keeps | (apply keeps_foldl; intro _ _ _))

end Sys2Proof.Machine
end

