-- ==== Sys2Proof/Laws/KeepsCollectives.lean ====
section
/-!
SUPPORT. What the operations of Machine/Collectives.lean keep (Laws/Keeps.lean).
-/
set_option linter.all false
namespace Sys2Proof.Machine

theorem collStart_keeps {zz : State} (d : Desc) {s : State} (hz : Keeps zz s) :
    Keeps zz (collStart d s) := by
  unfold collStart
  repeat (with_reducible first
    | assumption | apply setPhase_keeps)

theorem collHold_keeps {zz : State} (d : Desc) {s : State} (hz : Keeps zz s) :
    Keeps zz (collHold d s) := by
  unfold collHold
  repeat (with_reducible first
    | assumption | apply updPart_keeps | apply setPhase_keeps | apply acceptThen_keeps | apply collStart_keeps
    | apply keeps_ite)

theorem collAcceptOp_keeps {zz : State} (op id : Nat) {s : State} (hz : Keeps zz s) :
    Keeps zz (collAcceptOp op id s) := by
  unfold collAcceptOp
  repeat (with_reducible first
    | assumption | apply checked_keeps | apply collHold_keeps | split)

theorem execCollective_keeps {zz : State} (id : Nat) {s : State} (hz : Keeps zz s) :
    KeepsR zz (execCollective id s) := by
  unfold execCollective
  repeat (with_reducible first
    | assumption | apply keepsR_next | apply collAcceptOp_keeps)

theorem execCollectiveFused_keeps {zz : State} (id : Nat) {s : State} (hz : Keeps zz s) :
    KeepsR zz (execCollectiveFused id s) := by
  unfold execCollectiveFused
  repeat (with_reducible first
    | assumption | apply keepsR_next | apply collAcceptOp_keeps)

theorem collAbortAll_keeps {zz : State} (n : Nat) (d : Desc) (first : Nat) {s : State} (hz : Keeps zz s) :
    Keeps zz (collAbortAll n d first s) := by
  unfold collAbortAll
  repeat (with_reducible first
    | assumption | apply endColl_keeps | apply collCtl_keeps | (apply keeps_foldl; intro _ _ _) | split)

theorem collMismatch_keeps {zz : State} (n : Nat) (d : Desc) (m : Nat) {s : State} (hz : Keeps zz s) :
    Keeps zz (collMismatch n d m s) := by
  unfold collMismatch
  repeat (with_reducible first
    | assumption | apply collAbortAll_keeps | apply collCtl_keeps | apply keeps_ite)

theorem level0_keeps {zz : State} (n : Nat) (d : Desc) (e : Nat × Nat × Nat × Nat) {s : State} (hz : Keeps zz s) :
    Keeps zz (level0 n d e s).2 := by
  unfold level0
  repeat (with_reducible first
    | assumption | apply memGet_keeps | (apply keeps_foldl_snd; intro _ _ _))

theorem level0All_keeps {zz : State} (n : Nat) (d : Desc) {s : State} (hz : Keeps zz s) :
    Keeps zz (level0All n d s).2 := by
  unfold level0All
  repeat (with_reducible first
    | assumption | apply level0_keeps | (apply keeps_foldl_snd; intro _ _ _))

theorem collPut_keeps {zz : State} (n a : Nat) (b : Bytes) {s : State} (hz : Keeps zz s) :
    Keeps zz (collPut n a b s) := by
  unfold collPut
  repeat (with_reducible first
    | assumption | (intro _; exact ⟨rfl, rfl, rfl⟩) | (intro _; exact ⟨rfl, rfl, rfl, rfl⟩) | (intro _)
    | apply memPut_keeps | apply keeps_ite | split
    | (rename_i hq; replace hq := congrArg Prod.snd hq; dsimp only at hq; rw [← hq]; clear hq)
    | (apply keeps_put; exact ⟨rfl, by simp, by simp, rfl, rfl, rfl, rfl, rfl, rfl, rfl, rfl, rfl⟩))

theorem collGet_keeps {zz : State} (n a len : Nat) {s : State} (hz : Keeps zz s) :
    Keeps zz (collGet n a len s).2 := by
  unfold collGet
  repeat (with_reducible first
    | assumption | (intro _; exact ⟨rfl, rfl, rfl⟩) | (intro _; exact ⟨rfl, rfl, rfl, rfl⟩) | (intro _)
    | apply memGet_keeps | apply keeps_ite | split
    | (rename_i hq; replace hq := congrArg Prod.snd hq; dsimp only at hq; rw [← hq]; clear hq)
    | (apply keeps_put; exact ⟨rfl, by simp, by simp, rfl, rfl, rfl, rfl, rfl, rfl, rfl, rfl, rfl⟩))

theorem writeChunk_keeps {zz : State} (n : Nat) (d : Desc) (c : Coll) (i : Nat) (k : Chunk) {s : State} (hz : Keeps zz s) :
    Keeps zz (writeChunk n d c i k s) := by
  unfold writeChunk
  repeat (with_reducible first
    | assumption | apply collPut_keeps | apply updColl_keeps
    | (apply keeps_put; exact ⟨rfl, by simp, by simp, rfl, rfl, rfl, rfl, rfl, rfl, rfl, rfl, rfl⟩))

theorem sendNarrowed_keeps {zz : State} (two : Bool) (n : Nat) (d : Desc) (b entry j nan sat first contrib : Nat) (v : List Word) {s : State} (hz : Keeps zz s) :
    Keeps zz (sendNarrowed two n d b entry j nan sat first contrib v s) := by
  unfold sendNarrowed
  repeat (with_reducible first
    | assumption | apply updColl_keeps | apply collBurst_keeps)

theorem passChunk_keeps {zz : State} (n : Nat) (d : Desc) (c : Coll) (i : Nat) (k : Chunk) {s : State} (hz : Keeps zz s) :
    Keeps zz (passChunk n d c i k s) := by
  unfold passChunk
  repeat (with_reducible first
    | assumption | apply updColl_keeps | apply sendNarrowed_keeps)

theorem grantWindows_keeps {zz : State} (n : Nat) (d : Desc) {s : State} (hz : Keeps zz s) :
    Keeps zz (grantWindows n d s) := by
  unfold grantWindows
  repeat (with_reducible first
    | assumption | apply collCtl_keeps | apply updColl_keeps | (apply keeps_foldl; intro _ _ _) | split)

theorem sendResult_keeps {zz : State} (n : Nat) (d : Desc) {s : State} (hz : Keeps zz s) :
    Keeps zz (sendResult n d s) := by
  unfold sendResult
  repeat (with_reducible first
    | assumption | apply collCtl_keeps | apply endColl_keeps | (apply keeps_foldl; intro _ _ _) | split)

theorem collTrips_keeps {zz : State} (n : Nat) (c : Coll) (d : Desc) {s : State} (hz : Keeps zz s) :
    Keeps zz (collTrips n c d s) := by
  unfold collTrips
  repeat (with_reducible first
    | assumption | apply govCollNan_keeps | (apply keeps_foldl; intro _ _ _))

theorem reduceRun_keeps {zz : State} (n : Nat) (d : Desc) (y0 : Nat) {y1 : State} (hz : Keeps zz y1) :
    Keeps zz (reduceRun n d y0 y1) := by
  induction y0 generalizing y1 with
  | zero => exact hz
  | succ n ih =>
    unfold reduceRun
    repeat (with_reducible first
      | assumption | apply ih | apply writeChunk_keeps | apply passChunk_keeps | split)

theorem leafRun_keeps {zz : State} (n : Nat) (d : Desc) (y0 : Nat) {y1 : State} (hz : Keeps zz y1) :
    Keeps zz (leafRun n d y0 y1) := by
  induction y0 generalizing y1 with
  | zero => exact hz
  | succ n ih =>
    unfold leafRun
    repeat (with_reducible first
      | assumption | apply ih | (extract_lets +onlyGivenNames w; clear_value w; revert w; intro _)
      | apply sendNarrowed_keeps | apply updColl_keeps | split)

theorem reduceGo_keeps {zz : State} (n : Nat) (d : Desc) {s : State} (hz : Keeps zz s) :
    Keeps zz (reduceGo n d s) := by
  unfold reduceGo
  repeat (with_reducible first
    | assumption
    | (extract_lets +onlyGivenNames w; refine keeps_cut zz w ?_ ?_; (unfold w; clear w); rotate_left; intro _; clear_value w; revert w; intro _ _)
    | (extract_lets +onlyGivenNames w; clear_value w; revert w; intro _) | apply leafRun_keeps
    | apply grantWindows_keeps | apply reduceRun_keeps | apply sendResult_keeps | apply collTrips_keeps | split)

theorem collGets_keeps {zz : State} (n : Nat) (l : List (Nat × Nat)) {s : State} (hz : Keeps zz s) :
    Keeps zz (collGets n l s).2 := by
  unfold collGets
  repeat (with_reducible first
    | assumption | (intro _; exact ⟨rfl, rfl, rfl⟩) | (intro _; exact ⟨rfl, rfl, rfl, rfl⟩) | (intro _)
    | apply collGet_keeps | apply keeps_ite | (apply keeps_foldl; intro _ _ _) | (apply keeps_foldl_snd; intro _ _ _)
    | (apply keeps_foldl_fst; intro _ _ _) | split
    | (rename_i hq; replace hq := congrArg Prod.snd hq; dsimp only at hq; rw [← hq]; clear hq)
    | (apply keeps_put; exact ⟨rfl, by simp, by simp, rfl, rfl, rfl, rfl, rfl, rfl, rfl, rfl, rfl⟩))

theorem bcParcel_keeps {zz : State} (n fmt count base p : Nat) (outl : Bool) {s : State} (hz : Keeps zz s) :
    Keeps zz (bcParcel n fmt count base p outl s).2 := by
  unfold bcParcel
  repeat (with_reducible first
    | assumption | (intro _; exact ⟨rfl, rfl, rfl⟩) | (intro _; exact ⟨rfl, rfl, rfl, rfl⟩) | (intro _)
    | (extract_lets +onlyGivenNames w; refine keeps_cut zz w ?_ ?_; (unfold w; clear w); rotate_left; intro _; clear_value w; revert w; intro _ _)
    | (extract_lets +onlyGivenNames w; refine (fun (_ : MemSys) => ?_) w; revert w; intro _)
    | (extract_lets +onlyGivenNames w; refine (fun (_ : Ferry) => ?_) w; revert w; intro _)
    | (extract_lets +onlyGivenNames w; refine (fun (_ : Sec) => ?_) w; revert w; intro _)
    | (extract_lets +onlyGivenNames w; refine keeps_cut_snd zz w ?_ ?_; (unfold w; clear w); rotate_left; intro _; clear_value w; revert w; intro _ _)
    | (extract_lets +onlyGivenNames w; refine keeps_cut_fst zz w ?_ ?_; (unfold w; clear w); rotate_left; intro _; clear_value w; revert w; intro _ _)
    | (extract_lets +onlyGivenNames w; refine keeps_cut_thd zz w ?_ ?_; (unfold w; clear w); rotate_left; intro _; clear_value w; revert w; intro _ _)
    | (extract_lets +onlyGivenNames w; refine (fun (_ : _ → _) => ?_) w; unfold w; clear w)
    | (extract_lets +onlyGivenNames w; clear_value w; revert w; intro _) | apply collGets_keeps | apply keeps_ite
    | split | (rename_i hq; replace hq := congrArg Prod.snd hq; dsimp only at hq; rw [← hq]; clear hq)
    | (apply keeps_put; exact ⟨rfl, by simp, by simp, rfl, rfl, rfl, rfl, rfl, rfl, rfl, rfl, rfl⟩))

theorem bcRead_keeps {zz : State} (n : Nat) (d : Desc) (i : Nat) {s : State} (hz : Keeps zz s) :
    Keeps zz (bcRead n d i s).2 := by
  unfold bcRead
  repeat (with_reducible first
    | assumption | (intro _; exact ⟨rfl, rfl, rfl⟩) | (intro _; exact ⟨rfl, rfl, rfl, rfl⟩) | (intro _)
    | (extract_lets +onlyGivenNames w; refine keeps_cut zz w ?_ ?_; (unfold w; clear w); rotate_left; intro _; clear_value w; revert w; intro _ _)
    | (extract_lets +onlyGivenNames w; refine (fun (_ : MemSys) => ?_) w; revert w; intro _)
    | (extract_lets +onlyGivenNames w; refine (fun (_ : Ferry) => ?_) w; revert w; intro _)
    | (extract_lets +onlyGivenNames w; refine (fun (_ : Sec) => ?_) w; revert w; intro _)
    | (extract_lets +onlyGivenNames w; refine keeps_cut_snd zz w ?_ ?_; (unfold w; clear w); rotate_left; intro _; clear_value w; revert w; intro _ _)
    | (extract_lets +onlyGivenNames w; refine keeps_cut_fst zz w ?_ ?_; (unfold w; clear w); rotate_left; intro _; clear_value w; revert w; intro _ _)
    | (extract_lets +onlyGivenNames w; refine keeps_cut_thd zz w ?_ ?_; (unfold w; clear w); rotate_left; intro _; clear_value w; revert w; intro _ _)
    | (extract_lets +onlyGivenNames w; refine (fun (_ : _ → _) => ?_) w; unfold w; clear w)
    | (extract_lets +onlyGivenNames w; clear_value w; revert w; intro _) | apply collGet_keeps | apply bcParcel_keeps
    | apply keeps_ite | split
    | (rename_i hq; replace hq := congrArg Prod.snd hq; dsimp only at hq; rw [← hq]; clear hq)
    | (apply keeps_put; exact ⟨rfl, by simp, by simp, rfl, rfl, rfl, rfl, rfl, rfl, rfl, rfl, rfl⟩))

theorem bcSend_keeps {zz : State} (n : Nat) (d : Desc) (m i : Nat) {s : State} (hz : Keeps zz s) :
    Keeps zz (bcSend n d m i s) := by
  unfold bcSend
  repeat (with_reducible first
    | assumption | apply bcRead_keeps | apply collBurst_keeps
    | (apply keeps_put; exact ⟨rfl, by simp, by simp, rfl, rfl, rfl, rfl, rfl, rfl, rfl, rfl, rfl⟩))

theorem bcForward_keeps {zz : State} (n : Nat) (d : Desc) (m i tspec : Nat) (b : Bytes) {s : State} (hz : Keeps zz s) :
    Keeps zz (bcForward n d m i tspec b s) := by
  unfold bcForward
  repeat (with_reducible first
    | assumption | (intro _; exact ⟨rfl, rfl, rfl⟩) | (intro _; exact ⟨rfl, rfl, rfl, rfl⟩) | (intro _)
    | apply collBurst_keeps | apply keeps_ite | split
    | (rename_i hq; replace hq := congrArg Prod.snd hq; dsimp only at hq; rw [← hq]; clear hq)
    | (apply keeps_put; exact ⟨rfl, by simp, by simp, rfl, rfl, rfl, rfl, rfl, rfl, rfl, rfl, rfl⟩))

theorem bcMulticast_keeps {zz : State} (n : Nat) (d : Desc) (i : Nat) {s : State} (hz : Keeps zz s) :
    Keeps zz (bcMulticast n d i s) := by
  unfold bcMulticast
  repeat (with_reducible first
    | assumption
    | (extract_lets +onlyGivenNames w; refine keeps_cut zz w ?_ ?_; (unfold w; clear w); rotate_left; intro _; clear_value w; revert w; intro _ _)
    | (extract_lets +onlyGivenNames w; refine keeps_cut_snd zz w ?_ ?_; (unfold w; clear w); rotate_left; intro _; clear_value w; revert w; intro _ _)
    | (extract_lets +onlyGivenNames w; clear_value w; revert w; intro _) | apply bcRead_keeps | apply portSend_keeps
    | apply updColl_keeps | split
    | (apply keeps_put; exact ⟨rfl, by simp, by simp, rfl, rfl, rfl, rfl, rfl, rfl, rfl, rfl, rfl⟩))

theorem bcGo_keeps {zz : State} (n : Nat) (d : Desc) {s : State} (hz : Keeps zz s) :
    Keeps zz (bcGo n d s) := by
  unfold bcGo
  repeat (with_reducible first
    | assumption
    | (extract_lets +onlyGivenNames w; refine keeps_cut zz w ?_ ?_; (unfold w; clear w); rotate_left; intro _; clear_value w; revert w; intro _ _)
    | (extract_lets +onlyGivenNames w; clear_value w; revert w; intro _) | apply bcMulticast_keeps
    | apply bcSend_keeps | apply endsDue_keeps | apply updColl_keeps | apply sendResult_keeps
    | (apply keeps_foldl; intro _ _ _) | split)

theorem bcDone_keeps {zz : State} (n : Nat) (d : Desc) {s : State} (hz : Keeps zz s) :
    Keeps zz (bcDone n d s) := by
  unfold bcDone
  repeat (with_reducible first
    | assumption | apply collCtl_keeps | apply updColl_keeps | split)

theorem bcWrite_keeps {zz : State} (n : Nat) (l : List (Nat × Bytes)) {s : State} (hz : Keeps zz s) :
    Keeps zz (bcWrite n l s) := by
  unfold bcWrite
  repeat (with_reducible first
    | assumption | apply memPut_keeps | (apply keeps_foldl; intro _ _ _) | (apply keeps_foldl_snd; intro _ _ _)
    | (apply keeps_foldl_fst; intro _ _ _) | split)

theorem bcTake_keeps {zz : State} (n : Nat) (d : Desc) (i tspec : Nat) (b : Bytes) {s : State} (hz : Keeps zz s) :
    Keeps zz (bcTake n d i tspec b s) := by
  unfold bcTake
  repeat (with_reducible first
    | assumption | apply bcWrite_keeps | apply updColl_keeps | apply bcDone_keeps | apply endsDue_keeps
    | apply bcForward_keeps | (apply keeps_foldl; intro _ _ _) | split
    | (apply keeps_put; exact ⟨rfl, by simp, by simp, rfl, rfl, rfl, rfl, rfl, rfl, rfl, rfl, rfl⟩))

theorem collGo_keeps {zz : State} (n : Nat) (d : Desc) {s : State} (hz : Keeps zz s) :
    Keeps zz (collGo n d s) := by
  unfold collGo
  repeat (with_reducible first
    | assumption | apply reduceGo_keeps | apply bcGo_keeps | apply keeps_ite)

theorem joinTaken_keeps {zz : State} (n : Nat) (d : Desc) (m : Nat) (sig : DWord) {s : State} (hz : Keeps zz s) :
    Keeps zz (joinTaken n d m sig s) := by
  unfold joinTaken
  repeat (with_reducible first
    | assumption | apply collGo_keeps | apply updColl_keeps | apply collMismatch_keeps | apply keeps_ite)

theorem takeEarly_keeps {zz : State} (n : Nat) (d : Desc) {s : State} (hz : Keeps zz s) :
    Keeps zz (takeEarly n d s) := by
  unfold takeEarly
  repeat (with_reducible first
    | assumption | (extract_lets +onlyGivenNames w; clear_value w; revert w; intro _) | apply joinTaken_keeps
    | apply updPart_keeps | (apply keeps_foldl; intro _ _ _) | split)

theorem collArm_keeps {zz : State} (n : Nat) (d : Desc) {s : State} (hz : Keeps zz s) :
    Keeps zz (collArm n d s) := by
  unfold collArm
  repeat (with_reducible first
    | assumption | apply updColl_keeps | apply level0All_keeps | apply collCtl_keeps | apply collGo_keeps
    | apply takeEarly_keeps | apply collAbortAll_keeps | apply keeps_ite)

theorem execCollectiveArm_keeps {zz : State} (dt id : Nat) {s : State} (hz : Keeps zz s) :
    KeepsR zz (execCollectiveArm dt id s) := by
  unfold execCollectiveArm
  repeat (with_reducible first
    | assumption
    | (extract_lets +onlyGivenNames w; refine keeps_cut zz w ?_ ?_; (unfold w; clear w); rotate_left; intro _; clear_value w; revert w; intro _ _)
    | (extract_lets +onlyGivenNames w; clear_value w; revert w; intro _) | apply keepsR_next | apply pass_keeps
    | apply collArm_keeps | split)

theorem execScratchSlotGrant_keeps {zz : State} (id : Nat) {s : State} (hz : Keeps zz s) :
    KeepsR zz (execScratchSlotGrant id s) := by
  unfold execScratchSlotGrant
  repeat (with_reducible first
    | assumption | apply keepsR_next | apply grantWindows_keeps | apply updColl_keeps | split)

theorem withColl_keeps {zz : State} (p : Nat) (k : Packet) (sig : DWord) (n : Nat) (go : Desc → Coll → State → State) {s : State} (h_go : ∀ (v0 : Desc) (v1 : Coll) (v2 : State), Keeps zz v2 → Keeps zz (go v0 v1 v2)) (hz : Keeps zz s) :
    Keeps zz (withColl p k sig n go s) := by
  unfold withColl
  repeat (with_reducible first
    | assumption | apply h_go | apply updColl_keeps | split)

theorem takeJoin_keeps {zz : State} (n : Nat) (k : Packet) {s : State} (hz : Keeps zz s) :
    Keeps zz (takeJoin n k s) := by
  unfold takeJoin
  repeat (with_reducible first
    | assumption | (extract_lets +onlyGivenNames w; clear_value w; revert w; intro _) | apply joinTaken_keeps
    | apply updPart_keeps | split)

theorem collRetried_keeps {zz : State} (n : Nat) (d : Desc) {s : State} (hz : Keeps zz s) :
    Keeps zz (collRetried n d s) := by
  unfold collRetried
  repeat (with_reducible first
    | assumption | (intro _; exact ⟨rfl, rfl, rfl⟩) | (intro _; exact ⟨rfl, rfl, rfl, rfl⟩) | (intro _)
    | (extract_lets +onlyGivenNames w; refine keeps_cut zz w ?_ ?_; (unfold w; clear w); rotate_left; intro _; clear_value w; revert w; intro _ _)
    | (extract_lets +onlyGivenNames w; refine (fun (_ : MemSys) => ?_) w; revert w; intro _)
    | (extract_lets +onlyGivenNames w; refine (fun (_ : Ferry) => ?_) w; revert w; intro _)
    | (extract_lets +onlyGivenNames w; refine (fun (_ : Sec) => ?_) w; revert w; intro _)
    | (extract_lets +onlyGivenNames w; refine keeps_cut_snd zz w ?_ ?_; (unfold w; clear w); rotate_left; intro _; clear_value w; revert w; intro _ _)
    | (extract_lets +onlyGivenNames w; refine keeps_cut_fst zz w ?_ ?_; (unfold w; clear w); rotate_left; intro _; clear_value w; revert w; intro _ _)
    | (extract_lets +onlyGivenNames w; refine keeps_cut_thd zz w ?_ ?_; (unfold w; clear w); rotate_left; intro _; clear_value w; revert w; intro _ _)
    | (extract_lets +onlyGivenNames w; refine (fun (_ : _ → _) => ?_) w; unfold w; clear w)
    | (extract_lets +onlyGivenNames w; clear_value w; revert w; intro _) | apply noteDesc_keeps | apply noteStep_keeps
    | apply keeps_ite | split
    | (rename_i hq; replace hq := congrArg Prod.snd hq; dsimp only at hq; rw [← hq]; clear hq)
    | (apply keeps_put; exact ⟨rfl, by simp, by simp, rfl, rfl, rfl, rfl, rfl, rfl, rfl, rfl, rfl⟩))

theorem keepBurst_keeps {zz : State} (n : Nat) (d : Desc) (two : Bool) (k : Packet) (i : Nat) (q : Chunk × Nat × Nat) {s : State} (hz : Keeps zz s) :
    Keeps zz (keepBurst n d two k i q s) := by
  unfold keepBurst
  repeat (with_reducible first
    | assumption | (intro _; exact ⟨rfl, rfl, rfl⟩) | (intro _; exact ⟨rfl, rfl, rfl, rfl⟩) | (intro _)
    | (extract_lets +onlyGivenNames w; refine keeps_cut zz w ?_ ?_; (unfold w; clear w); rotate_left; intro _; clear_value w; revert w; intro _ _)
    | (extract_lets +onlyGivenNames w; refine (fun (_ : MemSys) => ?_) w; revert w; intro _)
    | (extract_lets +onlyGivenNames w; refine (fun (_ : Ferry) => ?_) w; revert w; intro _)
    | (extract_lets +onlyGivenNames w; refine (fun (_ : Sec) => ?_) w; revert w; intro _)
    | (extract_lets +onlyGivenNames w; refine keeps_cut_snd zz w ?_ ?_; (unfold w; clear w); rotate_left; intro _; clear_value w; revert w; intro _ _)
    | (extract_lets +onlyGivenNames w; refine keeps_cut_fst zz w ?_ ?_; (unfold w; clear w); rotate_left; intro _; clear_value w; revert w; intro _ _)
    | (extract_lets +onlyGivenNames w; refine keeps_cut_thd zz w ?_ ?_; (unfold w; clear w); rotate_left; intro _; clear_value w; revert w; intro _ _)
    | (extract_lets +onlyGivenNames w; refine (fun (_ : _ → _) => ?_) w; unfold w; clear w)
    | (extract_lets +onlyGivenNames w; clear_value w; revert w; intro _) | apply collGo_keeps | apply updColl_keeps
    | apply keeps_ite | split
    | (rename_i hq; replace hq := congrArg Prod.snd hq; dsimp only at hq; rw [← hq]; clear hq)
    | (apply keeps_put; exact ⟨rfl, by simp, by simp, rfl, rfl, rfl, rfl, rfl, rfl, rfl, rfl, rfl⟩))

theorem takeBurst_keeps {zz : State} (n : Nat) (d : Desc) (c : Coll) (k : Packet) (reread : Bool) {s : State} (hz : Keeps zz s) :
    Keeps zz (takeBurst n d c k reread s) := by
  unfold takeBurst
  repeat (with_reducible first
    | assumption | (extract_lets +onlyGivenNames w; clear_value w; revert w; intro _) | apply endColl_keeps
    | apply keepBurst_keeps | apply collRetried_keeps | split
    | (apply keeps_put; exact ⟨rfl, by simp, by simp, rfl, rfl, rfl, rfl, rfl, rfl, rfl, rfl, rfl⟩))

theorem strayBurst_keeps {zz : State} (n : Nat) (k : Packet) (sig : DWord) {s : State} (hz : Keeps zz s) :
    Keeps zz (strayBurst n k sig s) := by
  unfold strayBurst
  repeat (with_reducible first
    | assumption | (intro _; exact ⟨rfl, rfl, rfl⟩) | (intro _; exact ⟨rfl, rfl, rfl, rfl⟩) | (intro _)
    | (extract_lets +onlyGivenNames w; refine keeps_cut zz w ?_ ?_; (unfold w; clear w); rotate_left; intro _; clear_value w; revert w; intro _ _)
    | (extract_lets +onlyGivenNames w; refine (fun (_ : MemSys) => ?_) w; revert w; intro _)
    | (extract_lets +onlyGivenNames w; refine (fun (_ : Ferry) => ?_) w; revert w; intro _)
    | (extract_lets +onlyGivenNames w; refine (fun (_ : Sec) => ?_) w; revert w; intro _)
    | (extract_lets +onlyGivenNames w; refine keeps_cut_snd zz w ?_ ?_; (unfold w; clear w); rotate_left; intro _; clear_value w; revert w; intro _ _)
    | (extract_lets +onlyGivenNames w; refine keeps_cut_fst zz w ?_ ?_; (unfold w; clear w); rotate_left; intro _; clear_value w; revert w; intro _ _)
    | (extract_lets +onlyGivenNames w; refine keeps_cut_thd zz w ?_ ?_; (unfold w; clear w); rotate_left; intro _; clear_value w; revert w; intro _ _)
    | (extract_lets +onlyGivenNames w; refine (fun (_ : _ → _) => ?_) w; unfold w; clear w)
    | (extract_lets +onlyGivenNames w; clear_value w; revert w; intro _) | apply collMismatch_keeps | apply keeps_ite
    | split | (rename_i hq; replace hq := congrArg Prod.snd hq; dsimp only at hq; rw [← hq]; clear hq)
    | (apply keeps_put; exact ⟨rfl, by simp, by simp, rfl, rfl, rfl, rfl, rfl, rfl, rfl, rfl, rfl⟩))

theorem takeCollData_keeps {zz : State} (p : Nat) (k : Packet) (reread : Bool) (n : Nat) {s : State} (hz : Keeps zz s) :
    Keeps zz (takeCollData p k reread n s) := by
  unfold takeCollData
  repeat (with_reducible first
    | assumption | (intro _)
    | (extract_lets +onlyGivenNames w; refine keeps_cut zz w ?_ ?_; (unfold w; clear w); rotate_left; intro _; clear_value w; revert w; intro _ _)
    | (extract_lets +onlyGivenNames w; refine (fun (_ : MemSys) => ?_) w; revert w; intro _)
    | (extract_lets +onlyGivenNames w; refine (fun (_ : Ferry) => ?_) w; revert w; intro _)
    | (extract_lets +onlyGivenNames w; refine (fun (_ : Sec) => ?_) w; revert w; intro _)
    | (extract_lets +onlyGivenNames w; refine keeps_cut_snd zz w ?_ ?_; (unfold w; clear w); rotate_left; intro _; clear_value w; revert w; intro _ _)
    | (extract_lets +onlyGivenNames w; refine keeps_cut_fst zz w ?_ ?_; (unfold w; clear w); rotate_left; intro _; clear_value w; revert w; intro _ _)
    | (extract_lets +onlyGivenNames w; refine keeps_cut_thd zz w ?_ ?_; (unfold w; clear w); rotate_left; intro _; clear_value w; revert w; intro _ _)
    | (extract_lets +onlyGivenNames w; refine (fun (_ : _ → _) => ?_) w; unfold w; clear w)
    | (extract_lets +onlyGivenNames w; clear_value w; revert w; intro _) | apply strayBurst_keeps
    | apply withColl_keeps | apply takeBurst_keeps | apply bcTake_keeps | apply keeps_ite
    | (apply keeps_put; exact ⟨rfl, by simp, by simp, rfl, rfl, rfl, rfl, rfl, rfl, rfl, rfl, rfl⟩))

theorem takeResult_keeps {zz : State} (n : Nat) (d : Desc) (c : Coll) (k : Packet) {s : State} (hz : Keeps zz s) :
    Keeps zz (takeResult n d c k s) := by
  unfold takeResult
  repeat (with_reducible first
    | assumption | apply updColl_keeps | apply endColl_keeps | apply collTrips_keeps | apply keeps_ite)

theorem lateResult_keeps {zz : State} (n : Nat) (k : Packet) {s : State} (hz : Keeps zz s) :
    Keeps zz (lateResult n k s) := by
  unfold lateResult
  repeat (with_reducible first
    | assumption | (intro _; exact ⟨rfl, rfl, rfl⟩) | (intro _; exact ⟨rfl, rfl, rfl, rfl⟩) | (intro _)
    | apply postEvent_keeps | apply updPart_keeps | apply keeps_ite | split
    | (rename_i hq; replace hq := congrArg Prod.snd hq; dsimp only at hq; rw [← hq]; clear hq)
    | (apply keeps_put; exact ⟨rfl, by simp, by simp, rfl, rfl, rfl, rfl, rfl, rfl, rfl, rfl, rfl⟩))

theorem takeAbort_keeps {zz : State} (n : Nat) (k : Packet) {s : State} (hz : Keeps zz s) :
    Keeps zz (takeAbort n k s) := by
  unfold takeAbort
  repeat (with_reducible first
    | assumption | (extract_lets +onlyGivenNames w; clear_value w; revert w; intro _) | apply collAbortAll_keeps
    | apply endColl_keeps | split)

theorem takeMissing_keeps {zz : State} (n : Nat) (d : Desc) (c : Coll) (k : Packet) {s : State} (hz : Keeps zz s) :
    Keeps zz (takeMissing n d c k s) := by
  unfold takeMissing
  repeat (with_reducible first
    | assumption | apply updColl_keeps | apply endsDue_keeps | apply bcSend_keeps | apply keeps_ite
    | (apply keeps_foldl; intro _ _ _))

theorem takeCollCtl_keeps {zz : State} (p : Nat) (k : Packet) (n : Nat) {s : State} (hz : Keeps zz s) :
    Keeps zz (takeCollCtl p k n s) := by
  unfold takeCollCtl
  repeat (with_reducible first
    | assumption | (intro _) | apply takeJoin_keeps | apply withColl_keeps | apply collGo_keeps | apply updColl_keeps
    | apply bcDone_keeps | apply takeMissing_keeps | apply bcGo_keeps | apply lateResult_keeps
    | apply takeResult_keeps | apply takeAbort_keeps | split
    | (apply keeps_put; exact ⟨rfl, by simp, by simp, rfl, rfl, rfl, rfl, rfl, rfl, rfl, rfl, rfl⟩))

theorem applyAny_keeps {zz : State} (p : Nat) (k : Packet) (reread : Bool) (n : Nat) {s : State} (hz : Keeps zz s) :
    Keeps zz (applyAny p k reread n s) := by
  unfold applyAny
  repeat (with_reducible first
    | assumption | apply owePacket_keeps | apply takeCollData_keeps | apply leaveIdle_keeps | apply takeCollCtl_keeps
    | apply applyReq_keeps | split
    | (apply keeps_put; exact ⟨rfl, by simp, by simp, rfl, rfl, rfl, rfl, rfl, rfl, rfl, rfl, rfl⟩))

theorem multicastBurst_keeps {zz : State} (p : Nat) (k : Packet) (reread : Bool) {s : State} (hz : Keeps zz s) :
    Keeps zz (multicastBurst p k reread s) := by
  unfold multicastBurst
  repeat (with_reducible first
    | assumption | apply freeBuffer_keeps | apply takeCollData_keeps | apply leaveIdle_keeps | split
    | (apply keeps_put; exact ⟨rfl, by simp, by simp, rfl, rfl, rfl, rfl, rfl, rfl, rfl, rfl, rfl⟩))

theorem execMissingTimer_keeps {zz : State} (dt id : Nat) {s : State} (hz : Keeps zz s) :
    KeepsR zz (execMissingTimer dt id s) := by
  unfold execMissingTimer
  repeat (with_reducible first
    | assumption
    | (extract_lets +onlyGivenNames w; refine keeps_cut zz w ?_ ?_; (unfold w; clear w); rotate_left; intro _; clear_value w; revert w; intro _ _)
    | apply keepsR_next | apply pass_keeps | apply collCtl_keeps | apply updColl_keeps | split)

theorem execCollectiveDeadline_keeps {zz : State} (dt id : Nat) {s : State} (hz : Keeps zz s) :
    KeepsR zz (execCollectiveDeadline dt id s) := by
  unfold execCollectiveDeadline
  repeat (with_reducible first
    | assumption
    | (extract_lets +onlyGivenNames w; refine keeps_cut zz w ?_ ?_; (unfold w; clear w); rotate_left; intro _; clear_value w; revert w; intro _ _)
    | apply keepsR_next | apply pass_keeps | apply endColl_keeps | split)

end Sys2Proof.Machine
end

