-- ==== Sys2Proof/Laws/KeepsTesting.lean ====
section
/-!
SUPPORT. What the operations of Machine/Testing.lean keep (Laws/Keeps.lean).
-/
set_option linter.all false
namespace Sys2Proof.Machine

theorem stampSite_keeps {zz : State} (t : Nat) {s : State} (hz : Keeps zz s) :
    Keeps zz (stampSite t s) := by
  unfold stampSite
  repeat (with_reducible first
    | assumption | apply updSite_keeps)

theorem testEvent_keeps {zz : State} (t part res : Nat) {s : State} (hz : Keeps zz s) :
    Keeps zz (testEvent t part res s) := by
  unfold testEvent
  repeat (with_reducible first
    | assumption | apply postEvent_keeps)

theorem repairLanes_keeps {zz : State} (t part n : Nat) {s : State} (hz : Keeps zz s) :
    Keeps zz (repairLanes t part n s) := by
  unfold repairLanes
  repeat (with_reducible first
    | assumption | apply postEvent_keeps | apply queueRepair_keeps | apply stampSite_keeps | apply updSite_keeps)

theorem restartCounts_keeps {zz : State} (t : Nat) {s : State} (hz : Keeps zz s) :
    Keeps zz (restartCounts t s) := by
  unfold restartCounts
  repeat (with_reducible first
    | assumption | (intro _; exact ⟨rfl, rfl, rfl⟩) | (intro _; exact ⟨rfl, rfl, rfl, rfl⟩) | (intro _)
    | apply updSite_keeps | apply keeps_ite | split
    | (rename_i hq; replace hq := congrArg Prod.snd hq; dsimp only at hq; rw [← hq]; clear hq)
    | (apply keeps_put; exact ⟨rfl, by simp, by simp, rfl, rfl, rfl, rfl, rfl, rfl, rfl, rfl, rfl⟩))

theorem testOutcome_keeps {zz : State} (act : Bool) (t part : Nat) (r : TestResult) {s : State} (hz : Keeps zz s) :
    Keeps zz (testOutcome act t part r s).2 := by
  unfold testOutcome
  repeat (with_reducible first
    | assumption
    | (extract_lets +onlyGivenNames w; refine keeps_cut zz w ?_ ?_; (unfold w; clear w); rotate_left; intro _; clear_value w; revert w; intro _ _)
    | (extract_lets +onlyGivenNames w; refine (fun (_ : _ → _) => ?_) w; unfold w; clear w)
    | (extract_lets +onlyGivenNames w; clear_value w; revert w; intro _) | apply testEvent_keeps
    | apply retireSite_keeps | apply replaceCore_keeps | apply restartCounts_keeps | apply stampSite_keeps
    | apply repairLanes_keeps | split
    | (apply keeps_put; exact ⟨rfl, by simp, by simp, rfl, rfl, rfl, rfl, rfl, rfl, rfl, rfl, rfl⟩))

theorem execCoreTestStart_keeps {zz : State} (site : Nat) {s : State} (hz : Keeps zz s) :
    KeepsR zz (execCoreTestStart site s) := by
  unfold execCoreTestStart
  repeat (with_reducible first
    | assumption | apply keepsR_next | apply keepsR_ite | apply updSite_keeps)

theorem execCoreTestDone_keeps {zz : State} (dt site : Nat) (result : TestResult) {s : State} (hz : Keeps zz s) :
    KeepsR zz (execCoreTestDone dt site result s) := by
  unfold execCoreTestDone
  repeat (with_reducible first
    | assumption | apply keepsR_next | apply keepsR_ite | apply pass_keeps | apply testOutcome_keeps)

theorem execSiteCheckDone_keeps {zz : State} (dt site : Nat) (agree : Bool) (result : TestResult) {s : State} (hz : Keeps zz s) :
    KeepsR zz (execSiteCheckDone dt site agree result s) := by
  unfold execSiteCheckDone
  repeat (with_reducible first
    | assumption
    | (extract_lets +onlyGivenNames w; refine keeps_cut zz w ?_ ?_; (unfold w; clear w); rotate_left; intro _; clear_value w; revert w; intro _ _)
    | apply keepsR_next | apply pass_keeps | apply stampSite_keeps | apply updSite_keeps | apply retireSite_keeps
    | apply noteStep_keeps | apply unmapCore_keeps | split)

theorem overdueMoves_keeps {zz : State} (n : Nat) {s : State} (hz : Keeps zz s) :
    Keeps zz (overdueMoves n s) := by
  unfold overdueMoves
  repeat (with_reducible first
    | assumption
    | (extract_lets +onlyGivenNames w; refine keeps_cut zz w ?_ ?_; (unfold w; clear w); rotate_left; intro _; clear_value w; revert w; intro _ _)
    | apply updSite_keeps | apply moveCore_keeps | apply postEvent_keeps | (apply keeps_foldl_snd; intro _ _ _)
    | split)

theorem execCoreRemap_keeps {zz : State} (core : Nat) {s : State} (hz : Keeps zz s) :
    KeepsR zz (execCoreRemap core s) := by
  unfold execCoreRemap
  repeat (with_reducible first
    | assumption | apply keepsR_next | apply replaceCore_keeps | split)

theorem testsStart_keeps {zz : State} (d : Desc) (half : Bool) (deadline : Nat) {s : State} (hz : Keeps zz s) :
    Keeps zz (testsStart d half deadline s) := by
  unfold testsStart
  repeat (with_reducible first
    | assumption | apply updSite_keeps | apply setPhase_keeps | apply updDesc_keeps | (apply keeps_foldl; intro _ _ _))

theorem selftestStart_keeps {zz : State} (d : Desc) {s : State} (hz : Keeps zz s) :
    Keeps zz (selftestStart d s) := by
  unfold selftestStart
  repeat (with_reducible first
    | assumption | (intro _; exact ⟨rfl, rfl, rfl⟩) | (intro _; exact ⟨rfl, rfl, rfl, rfl⟩) | (intro _)
    | apply finishDesc_keeps | apply testsStart_keeps | apply keeps_ite | split
    | (rename_i hq; replace hq := congrArg Prod.snd hq; dsimp only at hq; rw [← hq]; clear hq)
    | (apply keeps_put; exact ⟨rfl, by simp, by simp, rfl, rfl, rfl, rfl, rfl, rfl, rfl, rfl, rfl⟩))

theorem execSelftest_keeps {zz : State} (id : Nat) {s : State} (hz : Keeps zz s) :
    KeepsR zz (execSelftest id s) := by
  unfold execSelftest
  repeat (with_reducible first
    | assumption | (intro _) | apply keepsR_next | apply checked_keeps | apply acceptThen_keeps
    | apply selftestStart_keeps | split)

theorem testAll_keeps {zz : State} (act : Bool) (n : Nat) (l : List (Nat × TestResult)) {s : State} (hz : Keeps zz s) :
    Keeps zz (testAll act n l s).2 := by
  unfold testAll
  repeat (with_reducible first
    | assumption | apply testOutcome_keeps | (apply keeps_foldl_snd; intro _ _ _))

theorem execSelftestDone_keeps {zz : State} (dt id : Nat) (results : List TestResult) {s : State} (hz : Keeps zz s) :
    KeepsR zz (execSelftestDone dt id results s) := by
  unfold execSelftestDone
  repeat (with_reducible first
    | assumption
    | (extract_lets +onlyGivenNames w; refine keeps_cut zz w ?_ ?_; (unfold w; clear w); rotate_left; intro _; clear_value w; revert w; intro _ _)
    | (extract_lets +onlyGivenNames w; refine keeps_cut_snd zz w ?_ ?_; (unfold w; clear w); rotate_left; intro _; clear_value w; revert w; intro _ _)
    | (extract_lets +onlyGivenNames w; clear_value w; revert w; intro _) | apply keepsR_next | apply pass_keeps
    | apply testAll_keeps | apply emit_keeps | apply finishDesc_keeps | split)

theorem checkpointStart_keeps {zz : State} (d : Desc) {s : State} (hz : Keeps zz s) :
    Keeps zz (checkpointStart d s) := by
  unfold checkpointStart
  repeat (with_reducible first
    | assumption | apply setPhase_keeps | apply updDesc_keeps)

theorem checkpointGo_keeps {zz : State} (d : Desc) {s : State} (hz : Keeps zz s) :
    Keeps zz (checkpointGo d s) := by
  unfold checkpointGo
  repeat (with_reducible first
    | assumption | apply updPart_keeps | apply testsStart_keeps | apply finishDesc_keeps | apply keeps_ite)

theorem execCheckpoint_keeps {zz : State} (id : Nat) {s : State} (hz : Keeps zz s) :
    KeepsR zz (execCheckpoint id s) := by
  unfold execCheckpoint
  repeat (with_reducible first
    | assumption | (intro _) | apply keepsR_next | apply checkpointGo_keeps | apply checked_keeps
    | apply acceptThen_keeps | apply checkpointStart_keeps | split)

end Sys2Proof.Machine
end

