-- ==== Sys2Proof/Laws/KeepsDigest.lean ====
section
/-!
SUPPORT. What the operations of Machine/Digest.lean keep (Laws/Keeps.lean).
-/
set_option linter.all false
namespace Sys2Proof.Machine

theorem readCopy_keeps {zz : State} (n base len : Nat) {s : State} (hz : Keeps zz s) :
    Keeps zz (readCopy n base len s) := by
  unfold readCopy
  repeat (with_reducible first
    | assumption | (intro _; exact ⟨rfl, rfl, rfl⟩) | (intro _; exact ⟨rfl, rfl, rfl, rfl⟩) | (intro _)
    | (extract_lets +onlyGivenNames w; refine keeps_cut zz w ?_ ?_; (unfold w; clear w); rotate_left; intro _; clear_value w; revert w; intro _ _)
    | (extract_lets +onlyGivenNames w; refine (fun (_ : MemSys) => ?_) w; revert w; intro _)
    | (extract_lets +onlyGivenNames w; refine (fun (_ : Ferry) => ?_) w; revert w; intro _)
    | (extract_lets +onlyGivenNames w; refine (fun (_ : Sec) => ?_) w; revert w; intro _)
    | (extract_lets +onlyGivenNames w; refine keeps_cut_snd zz w ?_ ?_; (unfold w; clear w); rotate_left; intro _; clear_value w; revert w; intro _ _)
    | (extract_lets +onlyGivenNames w; refine keeps_cut_fst zz w ?_ ?_; (unfold w; clear w); rotate_left; intro _; clear_value w; revert w; intro _ _)
    | (extract_lets +onlyGivenNames w; refine keeps_cut_thd zz w ?_ ?_; (unfold w; clear w); rotate_left; intro _; clear_value w; revert w; intro _ _)
    | (extract_lets +onlyGivenNames w; refine (fun (_ : _ → _) => ?_) w; unfold w; clear w)
    | (extract_lets +onlyGivenNames w; clear_value w; revert w; intro _) | apply memGet_keeps | apply keeps_ite
    | split | (rename_i hq; replace hq := congrArg Prod.snd hq; dsimp only at hq; rw [← hq]; clear hq)
    | (apply keeps_put; exact ⟨rfl, by simp, by simp, rfl, rfl, rfl, rfl, rfl, rfl, rfl, rfl, rfl⟩))

theorem renarrow_keeps {zz : State} (n base len : Nat) (want : BitVec 128) {s : State} (hz : Keeps zz s) :
    Keeps zz (renarrow n base len want s).2 := by
  unfold renarrow
  repeat (with_reducible first
    | assumption | (intro _; exact ⟨rfl, rfl, rfl⟩) | (intro _; exact ⟨rfl, rfl, rfl, rfl⟩) | (intro _)
    | (extract_lets +onlyGivenNames w; refine keeps_cut zz w ?_ ?_; (unfold w; clear w); rotate_left; intro _; clear_value w; revert w; intro _ _)
    | (extract_lets +onlyGivenNames w; refine (fun (_ : MemSys) => ?_) w; revert w; intro _)
    | (extract_lets +onlyGivenNames w; refine (fun (_ : Ferry) => ?_) w; revert w; intro _)
    | (extract_lets +onlyGivenNames w; refine (fun (_ : Sec) => ?_) w; revert w; intro _)
    | (extract_lets +onlyGivenNames w; refine keeps_cut_snd zz w ?_ ?_; (unfold w; clear w); rotate_left; intro _; clear_value w; revert w; intro _ _)
    | (extract_lets +onlyGivenNames w; refine keeps_cut_fst zz w ?_ ?_; (unfold w; clear w); rotate_left; intro _; clear_value w; revert w; intro _ _)
    | (extract_lets +onlyGivenNames w; refine keeps_cut_thd zz w ?_ ?_; (unfold w; clear w); rotate_left; intro _; clear_value w; revert w; intro _ _)
    | (extract_lets +onlyGivenNames w; refine (fun (_ : _ → _) => ?_) w; unfold w; clear w)
    | (extract_lets +onlyGivenNames w; clear_value w; revert w; intro _) | apply drawBytes_keeps | apply memPut_keeps
    | apply keeps_ite | split
    | (rename_i hq; replace hq := congrArg Prod.snd hq; dsimp only at hq; rw [← hq]; clear hq)
    | (apply keeps_put; exact ⟨rfl, by simp, by simp, rfl, rfl, rfl, rfl, rfl, rfl, rfl, rfl, rfl⟩))

theorem askReload_keeps {zz : State} (n entry half : Nat) (r : Region) (redo : Bool) {s : State} (hz : Keeps zz s) :
    Keeps zz (askReload n entry half r redo s) := by
  unfold askReload
  repeat (with_reducible first
    | assumption | apply sendControl_keeps | apply updStep_keeps)

theorem raiseFatal_keeps {zz : State} (n : Nat) (code : Status) {s : State} (hz : Keeps zz s) :
    Keeps zz (raiseFatal n code s) := by
  unfold raiseFatal
  repeat (with_reducible first
    | assumption | apply updStep_keeps)

theorem repairCopy_keeps {zz : State} (n half : Nat) (e : Nat × Region) {s : State} (hz : Keeps zz s) :
    Keeps zz (repairCopy n half e s) := by
  unfold repairCopy
  repeat (with_reducible first
    | assumption | (intro _; exact ⟨rfl, rfl, rfl⟩) | (intro _; exact ⟨rfl, rfl, rfl, rfl⟩) | (intro _)
    | (extract_lets +onlyGivenNames w; refine keeps_cut zz w ?_ ?_; (unfold w; clear w); rotate_left; intro _; clear_value w; revert w; intro _ _)
    | (extract_lets +onlyGivenNames w; refine (fun (_ : MemSys) => ?_) w; revert w; intro _)
    | (extract_lets +onlyGivenNames w; refine (fun (_ : Ferry) => ?_) w; revert w; intro _)
    | (extract_lets +onlyGivenNames w; refine (fun (_ : Sec) => ?_) w; revert w; intro _)
    | (extract_lets +onlyGivenNames w; refine keeps_cut_snd zz w ?_ ?_; (unfold w; clear w); rotate_left; intro _; clear_value w; revert w; intro _ _)
    | (extract_lets +onlyGivenNames w; refine keeps_cut_fst zz w ?_ ?_; (unfold w; clear w); rotate_left; intro _; clear_value w; revert w; intro _ _)
    | (extract_lets +onlyGivenNames w; refine keeps_cut_thd zz w ?_ ?_; (unfold w; clear w); rotate_left; intro _; clear_value w; revert w; intro _ _)
    | (extract_lets +onlyGivenNames w; refine (fun (_ : _ → _) => ?_) w; unfold w; clear w)
    | (extract_lets +onlyGivenNames w; clear_value w; revert w; intro _) | apply renarrow_keeps
    | apply raiseFatal_keeps | apply askReload_keeps | apply keeps_ite | split
    | (rename_i hq; replace hq := congrArg Prod.snd hq; dsimp only at hq; rw [← hq]; clear hq)
    | (apply keeps_put; exact ⟨rfl, by simp, by simp, rfl, rfl, rfl, rfl, rfl, rfl, rfl, rfl, rfl⟩))

theorem sendCopyParcel_keeps {zz : State} (n node : Nat) (o : Origin) (h : Nat × Nat × Bool) (base dest p : Nat) {s : State} (hz : Keeps zz s) :
    Keeps zz (sendCopyParcel n node o h base dest p s) := by
  unfold sendCopyParcel
  repeat (with_reducible first
    | assumption | apply memGet_keeps | apply sendReq_keeps
    | (apply keeps_put; exact ⟨rfl, by simp, by simp, rfl, rfl, rfl, rfl, rfl, rfl, rfl, rfl, rfl⟩))

theorem sendCopy_keeps {zz : State} (n node entry base dest : Nat) {s : State} (hz : Keeps zz s) :
    Keeps zz (sendCopy n node entry base dest s) := by
  unfold sendCopy
  repeat (with_reducible first
    | assumption | apply rpcDrop_keeps | apply memGet_keeps | apply sendReq_keeps | apply sendCopyParcel_keeps
    | (apply keeps_foldl; intro _ _ _)
    | (apply keeps_put; exact ⟨rfl, by simp, by simp, rfl, rfl, rfl, rfl, rfl, rfl, rfl, rfl, rfl⟩))

theorem serveReload_keeps {zz : State} (n node layer copy half dest : Nat) {s : State} (hz : Keeps zz s) :
    Keeps zz (serveReload n node layer copy half dest s) := by
  unfold serveReload
  repeat (with_reducible first
    | assumption | (extract_lets +onlyGivenNames w; clear_value w; revert w; intro _) | apply sendReloadDone_keeps
    | apply reloadsServed_keeps | apply updPart_keeps | apply sendCopy_keeps | split)

theorem digestStart_keeps {zz : State} (d : Desc) {s : State} (hz : Keeps zz s) :
    Keeps zz (digestStart d s) := by
  unfold digestStart
  repeat (with_reducible first
    | assumption | apply memGet_keeps | apply finishDesc_keeps | apply emit_keeps
    | (apply keeps_put; exact ⟨rfl, by simp, by simp, rfl, rfl, rfl, rfl, rfl, rfl, rfl, rfl, rfl⟩))

theorem execDigest_keeps {zz : State} (id : Nat) {s : State} (hz : Keeps zz s) :
    KeepsR zz (execDigest id s) := by
  unfold execDigest
  repeat (with_reducible first
    | assumption | (intro _) | apply keepsR_next | apply checked_keeps | apply acceptThen_keeps
    | apply digestStart_keeps | split)

end Sys2Proof.Machine
end

