-- ==== Sys2Proof/Laws/KeepsSteps.lean ====
section
/-!
SUPPORT. What the operations of Machine/Steps.lean keep (Laws/Keeps.lean).
-/
set_option linter.all false
namespace Sys2Proof.Machine

theorem writeBases_keeps {zz : State} (n : Nat) {s : State} (hz : Keeps zz s) :
    Keeps zz (writeBases n s) := by
  unfold writeBases
  repeat (with_reducible first
    | assumption | apply memPut_keeps
    | (apply keeps_put; exact ⟨rfl, by simp, by simp, rfl, rfl, rfl, rfl, rfl, rfl, rfl, rfl, rfl⟩))

theorem resetCores_keeps {zz : State} (n : Nat) {s : State} (hz : Keeps zz s) :
    Keeps zz (resetCores n s) := by
  unfold resetCores
  repeat (with_reducible first
    | assumption | apply resetCore_keeps | (apply keeps_foldl; intro _ _ _))

theorem freshMemory_keeps {zz : State} (n : Nat) {s : State} (hz : Keeps zz s) :
    Keeps zz (freshMemory n s) := by
  unfold freshMemory
  repeat (with_reducible first
    | assumption | apply rpcClear_keeps | apply stashReleaseAll_keeps)

theorem stepOpen_keeps {zz : State} (d : Desc) {s : State} (hz : Keeps zz s) :
    Keeps zz (stepOpen d s) := by
  unfold stepOpen
  repeat (with_reducible first
    | assumption | (intro _; exact ⟨rfl, rfl, rfl⟩) | (intro _; exact ⟨rfl, rfl, rfl, rfl⟩) | (intro _)
    | (extract_lets +onlyGivenNames w; refine keeps_cut zz w ?_ ?_; (unfold w; clear w); rotate_left; intro _; clear_value w; revert w; intro _ _)
    | (extract_lets +onlyGivenNames w; refine (fun (_ : MemSys) => ?_) w; revert w; intro _)
    | (extract_lets +onlyGivenNames w; refine (fun (_ : Ferry) => ?_) w; revert w; intro _)
    | (extract_lets +onlyGivenNames w; refine (fun (_ : Sec) => ?_) w; revert w; intro _)
    | (extract_lets +onlyGivenNames w; refine keeps_cut_snd zz w ?_ ?_; (unfold w; clear w); rotate_left; intro _; clear_value w; revert w; intro _ _)
    | (extract_lets +onlyGivenNames w; refine keeps_cut_fst zz w ?_ ?_; (unfold w; clear w); rotate_left; intro _; clear_value w; revert w; intro _ _)
    | (extract_lets +onlyGivenNames w; refine keeps_cut_thd zz w ?_ ?_; (unfold w; clear w); rotate_left; intro _; clear_value w; revert w; intro _ _)
    | (extract_lets +onlyGivenNames w; refine (fun (_ : _ → _) => ?_) w; unfold w; clear w)
    | (extract_lets +onlyGivenNames w; clear_value w; revert w; intro _) | apply updPart_keeps | apply govDrain_keeps
    | apply govOpen_keeps | apply freshMemory_keeps | apply poolFree_keeps | apply finishDesc_keeps
    | apply govAttempt_keeps | apply writeBases_keeps | apply resetCores_keeps | apply keeps_ite | split
    | (rename_i hq; replace hq := congrArg Prod.snd hq; dsimp only at hq; rw [← hq]; clear hq)
    | (apply keeps_put; exact ⟨rfl, by simp, by simp, rfl, rfl, rfl, rfl, rfl, rfl, rfl, rfl, rfl⟩))

theorem execStepBegin_keeps {zz : State} (id : Nat) {s : State} (hz : Keeps zz s) :
    KeepsR zz (execStepBegin id s) := by
  unfold execStepBegin
  repeat (with_reducible first
    | assumption | (intro _) | apply keepsR_next | apply checked_keeps | apply acceptThen_keeps | apply stepOpen_keeps
    | split)

theorem execStepCommit_keeps {zz : State} (id : Nat) {s : State} (hz : Keeps zz s) :
    KeepsR zz (execStepCommit id s) := by
  unfold execStepCommit
  repeat (with_reducible first
    | assumption | (intro _) | apply keepsR_next | apply acceptThen_keeps | apply setPhase_keeps | apply updDesc_keeps
    | apply refuseDesc_keeps | split)

theorem compareReport_keeps {zz : State} (n : Nat) (t : Step) {s : State} (hz : Keeps zz s) :
    Keeps zz (compareReport n t s) := by
  unfold compareReport
  repeat (with_reducible first
    | assumption | apply postEvent_keeps | apply emit_keeps | apply keeps_ite | (apply keeps_foldl; intro _ _ _))

theorem finishWith_keeps {zz : State} (l : List Status) (id : Nat) (st : Status) {s : State} (hz : Keeps zz s) :
    Keeps zz (finishWith l id st s) := by
  unfold finishWith
  repeat (with_reducible first
    | assumption | apply finishDesc_keeps | apply noteDesc_keeps | (apply keeps_foldl; intro _ _ _))

theorem finishHeld_keeps {zz : State} (n : Nat) (t : Step) (code : Option Status) {s : State} (hz : Keeps zz s) :
    Keeps zz (finishHeld n t code s) := by
  unfold finishHeld
  repeat (with_reducible first
    | assumption | apply finishWith_keeps | apply finishDesc_keeps | apply setPhase_keeps | apply updPart_keeps
    | (apply keeps_foldl; intro _ _ _) | split)

theorem finishCommits_keeps {zz : State} (n : Nat) (t : Step) (code : Status) {s : State} (hz : Keeps zz s) :
    Keeps zz (finishCommits n t code s) := by
  unfold finishCommits
  repeat (with_reducible first
    | assumption | apply finishDesc_keeps | apply finishWith_keeps | (apply keeps_foldl; intro _ _ _))

theorem commitStep_keeps {zz : State} (n : Nat) {s : State} (hz : Keeps zz s) :
    Keeps zz (commitStep n s) := by
  unfold commitStep
  repeat (with_reducible first
    | assumption | apply compareReport_keeps | apply govCommit_keeps | apply updPart_keeps | apply overdueMoves_keeps
    | apply slotReturn_keeps | apply dropHeld_keeps | apply stashReleaseAll_keeps | apply finishCommits_keeps
    | apply finishHeld_keeps | split)

theorem execStepCommitted_keeps {zz : State} (dt part : Nat) {s : State} (hz : Keeps zz s) :
    KeepsR zz (execStepCommitted dt part s) := by
  unfold execStepCommitted
  repeat (with_reducible first
    | assumption | apply keepsR_next | apply commitStep_keeps | apply pass_keeps | split)

theorem execOrderedCompareFold_keeps {zz : State} (part : Nat) {s : State} (hz : Keeps zz s) :
    KeepsR zz (execOrderedCompareFold part s) := by
  unfold execOrderedCompareFold
  repeat (with_reducible first
    | assumption | apply keepsR_next | apply raiseCause_keeps | apply updStep_keeps | split)

theorem recordCut_keeps {zz : State} (n : Nat) (code : Status) {s : State} (hz : Keeps zz s) :
    Keeps zz (recordCut n code s) := by
  unfold recordCut
  repeat (with_reducible first
    | assumption | (intro _; exact ⟨rfl, rfl, rfl⟩) | (intro _; exact ⟨rfl, rfl, rfl, rfl⟩) | (intro _)
    | apply collRecord_keeps | apply keeps_ite | (apply keeps_foldl; intro _ _ _)
    | (apply keeps_foldl_snd; intro _ _ _) | (apply keeps_foldl_fst; intro _ _ _) | split
    | (rename_i hq; replace hq := congrArg Prod.snd hq; dsimp only at hq; rw [← hq]; clear hq)
    | (apply keeps_put; exact ⟨rfl, by simp, by simp, rfl, rfl, rfl, rfl, rfl, rfl, rfl, rfl, rfl⟩))

theorem stepEnds_keeps {zz : State} (n : Nat) (code : Status) (gov : Bool) {s : State} (hz : Keeps zz s) :
    Keeps zz (stepEnds n code gov s) := by
  unfold stepEnds
  repeat (with_reducible first
    | assumption | apply recordCut_keeps | apply govEnd_keeps | apply postEvent_keeps | apply updPart_keeps
    | apply slotReturn_keeps | apply dropHeld_keeps | apply finishCommits_keeps | apply finishHeld_keeps
    | apply rungTwo_keeps | apply countEvent_keeps | apply uncorrected_keeps | split
    | (apply keeps_put; exact ⟨rfl, by simp, by simp, rfl, rfl, rfl, rfl, rfl, rfl, rfl, rfl, rfl⟩))

theorem failStep_keeps {zz : State} (n : Nat) (code : Status) {s : State} (hz : Keeps zz s) :
    Keeps zz (failStep n code s) := by
  unfold failStep
  repeat (with_reducible first
    | assumption | apply stepEnds_keeps | apply raiseFatal_keeps | apply keeps_ite)

theorem abortColl_keeps {zz : State} (n : Nat) {s : State} (c : Coll) (hz : Keeps zz s) :
    Keeps zz (abortColl n s c) := by
  unfold abortColl
  repeat (with_reducible first
    | assumption | apply updPart_keeps | apply updColl_keeps | apply dropOrigins_keeps | apply cutColl_keeps | split
    | (apply keeps_put; exact ⟨rfl, by simp, by simp, rfl, rfl, rfl, rfl, rfl, rfl, rfl, rfl, rfl⟩))

theorem execAttemptEnd_keeps {zz : State} (dt part : Nat) {s : State} (hz : Keeps zz s) :
    KeepsR zz (execAttemptEnd dt part s) := by
  unfold execAttemptEnd
  repeat (with_reducible first
    | assumption | apply keepsR_next | apply govDrain_keeps | apply stopCore_keeps | apply pass_keeps
    | apply abortColl_keeps | apply updStep_keeps | (apply keeps_foldl; intro _ _ _) | split
    | (apply keeps_put; exact ⟨rfl, by simp, by simp, rfl, rfl, rfl, rfl, rfl, rfl, rfl, rfl, rfl⟩))

theorem suspectCore_keeps {zz : State} (n : Nat) {s : State} (c : Nat) (hz : Keeps zz s) :
    Keeps zz (suspectCore n s c) := by
  unfold suspectCore
  repeat (with_reducible first
    | assumption | apply replaceCore_keeps | apply retireSite_keeps | apply suspectMove_keeps | apply updStep_keeps
    | split)

theorem checkCopy_keeps {zz : State} (n : Nat) {s : State} (e : Nat × Region) (hz : Keeps zz s) :
    Keeps zz (checkCopy n s e) := by
  unfold checkCopy
  repeat (with_reducible first
    | assumption | (intro _; exact ⟨rfl, rfl, rfl⟩) | (intro _; exact ⟨rfl, rfl, rfl, rfl⟩) | (intro _)
    | (extract_lets +onlyGivenNames w; refine keeps_cut zz w ?_ ?_; (unfold w; clear w); rotate_left; intro _; clear_value w; revert w; intro _ _)
    | (extract_lets +onlyGivenNames w; refine (fun (_ : MemSys) => ?_) w; revert w; intro _)
    | (extract_lets +onlyGivenNames w; refine (fun (_ : Ferry) => ?_) w; revert w; intro _)
    | (extract_lets +onlyGivenNames w; refine (fun (_ : Sec) => ?_) w; revert w; intro _)
    | (extract_lets +onlyGivenNames w; refine keeps_cut_snd zz w ?_ ?_; (unfold w; clear w); rotate_left; intro _; clear_value w; revert w; intro _ _)
    | (extract_lets +onlyGivenNames w; refine keeps_cut_fst zz w ?_ ?_; (unfold w; clear w); rotate_left; intro _; clear_value w; revert w; intro _ _)
    | (extract_lets +onlyGivenNames w; refine keeps_cut_thd zz w ?_ ?_; (unfold w; clear w); rotate_left; intro _; clear_value w; revert w; intro _ _)
    | (extract_lets +onlyGivenNames w; refine (fun (_ : _ → _) => ?_) w; unfold w; clear w)
    | (extract_lets +onlyGivenNames w; clear_value w; revert w; intro _) | apply readCopy_keeps
    | apply raiseFatal_keeps | apply repairCopy_keeps | apply updStep_keeps | apply keeps_ite | split
    | (rename_i hq; replace hq := congrArg Prod.snd hq; dsimp only at hq; rw [← hq]; clear hq)
    | (apply keeps_put; exact ⟨rfl, by simp, by simp, rfl, rfl, rfl, rfl, rfl, rfl, rfl, rfl, rfl⟩))

theorem sendNotices_keeps {zz : State} (n : Nat) {s : State} (hz : Keeps zz s) :
    Keeps zz (sendNotices n s) := by
  unfold sendNotices
  repeat (with_reducible first
    | assumption | apply sendControl_keeps | (apply keeps_foldl; intro _ _ _) | split)

theorem replaysEnd_keeps {zz : State} (n nxt : Nat) {s : State} (hz : Keeps zz s) :
    Keeps zz (replaysEnd n nxt s) := by
  unfold replaysEnd
  repeat (with_reducible first
    | assumption | apply finishDesc_keeps | apply updDesc_keeps | apply updStep_keeps
    | (apply keeps_foldl; intro _ _ _) | split)

theorem prepareReplay_keeps {zz : State} (n nxt : Nat) (t : Step) {s : State} (hz : Keeps zz s) :
    Keeps zz (prepareReplay n nxt t s) := by
  unfold prepareReplay
  repeat (with_reducible first
    | assumption | (intro _; exact ⟨rfl, rfl, rfl⟩) | (intro _; exact ⟨rfl, rfl, rfl, rfl⟩) | (intro _)
    | (extract_lets +onlyGivenNames w; refine keeps_cut zz w ?_ ?_; (unfold w; clear w); rotate_left; intro _; clear_value w; revert w; intro _ _)
    | (extract_lets +onlyGivenNames w; refine (fun (_ : MemSys) => ?_) w; revert w; intro _)
    | (extract_lets +onlyGivenNames w; refine (fun (_ : Ferry) => ?_) w; revert w; intro _)
    | (extract_lets +onlyGivenNames w; refine (fun (_ : Sec) => ?_) w; revert w; intro _)
    | (extract_lets +onlyGivenNames w; refine keeps_cut_snd zz w ?_ ?_; (unfold w; clear w); rotate_left; intro _; clear_value w; revert w; intro _ _)
    | (extract_lets +onlyGivenNames w; refine keeps_cut_fst zz w ?_ ?_; (unfold w; clear w); rotate_left; intro _; clear_value w; revert w; intro _ _)
    | (extract_lets +onlyGivenNames w; refine keeps_cut_thd zz w ?_ ?_; (unfold w; clear w); rotate_left; intro _; clear_value w; revert w; intro _ _)
    | (extract_lets +onlyGivenNames w; refine (fun (_ : _ → _) => ?_) w; unfold w; clear w)
    | (extract_lets +onlyGivenNames w; clear_value w; revert w; intro _) | apply suspectCore_keeps
    | apply govConfirm_keeps | apply updStep_keeps | apply checkCopy_keeps | apply stepEnds_keeps
    | apply postEvent_keeps | apply replaysEnd_keeps | apply updPart_keeps | apply sendNotices_keeps | apply keeps_ite
    | (apply keeps_foldl; intro _ _ _) | (apply keeps_foldl_snd; intro _ _ _) | (apply keeps_foldl_fst; intro _ _ _)
    | split | (rename_i hq; replace hq := congrArg Prod.snd hq; dsimp only at hq; rw [← hq]; clear hq)
    | (apply keeps_put; exact ⟨rfl, by simp, by simp, rfl, rfl, rfl, rfl, rfl, rfl, rfl, rfl, rfl⟩))

theorem endAtLast_keeps {zz : State} (n : Nat) (t : Step) {s : State} (hz : Keeps zz s) :
    Keeps zz (endAtLast n t s) := by
  unfold endAtLast
  repeat (with_reducible first
    | assumption | apply postEvent_keeps | apply stepEnds_keeps | apply suspectCore_keeps | apply keeps_ite
    | (apply keeps_foldl; intro _ _ _)
    | (apply keeps_put; exact ⟨rfl, by simp, by simp, rfl, rfl, rfl, rfl, rfl, rfl, rfl, rfl, rfl⟩))

theorem execAttemptEndConfirm_keeps {zz : State} (dt part : Nat) {s : State} (hz : Keeps zz s) :
    KeepsR zz (execAttemptEndConfirm dt part s) := by
  unfold execAttemptEndConfirm
  repeat (with_reducible first
    | assumption
    | (extract_lets +onlyGivenNames w; refine keeps_cut zz w ?_ ?_; (unfold w; clear w); rotate_left; intro _; clear_value w; revert w; intro _ _)
    | apply keepsR_next | apply govDrain_keeps | apply pass_keeps | apply stepEnds_keeps | apply endAtLast_keeps
    | apply prepareReplay_keeps | split)

theorem rewriteCore_keeps {zz : State} {s : State} (c : Nat) (hz : Keeps zz s) :
    Keeps zz (rewriteCore s c) := by
  unfold rewriteCore
  repeat (with_reducible first
    | assumption | (extract_lets +onlyGivenNames w; clear_value w; revert w; intro _) | apply updCore_keeps | split)

theorem freshColls_keeps {zz : State} (n : Nat) {s : State} (hz : Keeps zz s) :
    Keeps zz (freshColls n s) := by
  unfold freshColls
  repeat (with_reducible first
    | assumption | apply dropOrigins_keeps | apply updColl_keeps | (apply keeps_foldl; intro _ _ _))

theorem restartStreams_keeps {zz : State} (n : Nat) {s : State} (hz : Keeps zz s) :
    Keeps zz (restartStreams n s) := by
  unfold restartStreams
  repeat (with_reducible first
    | assumption
    | (extract_lets +onlyGivenNames w; refine keeps_cut zz w ?_ ?_; (unfold w; clear w); rotate_left; intro _; clear_value w; revert w; intro _ _)
    | (extract_lets +onlyGivenNames w; refine (fun (_ : MemSys) => ?_) w; revert w; intro _)
    | (extract_lets +onlyGivenNames w; refine (fun (_ : Ferry) => ?_) w; revert w; intro _)
    | (extract_lets +onlyGivenNames w; refine (fun (_ : Sec) => ?_) w; revert w; intro _)
    | (extract_lets +onlyGivenNames w; refine keeps_cut_snd zz w ?_ ?_; (unfold w; clear w); rotate_left; intro _; clear_value w; revert w; intro _ _)
    | (extract_lets +onlyGivenNames w; refine keeps_cut_fst zz w ?_ ?_; (unfold w; clear w); rotate_left; intro _; clear_value w; revert w; intro _ _)
    | (extract_lets +onlyGivenNames w; refine keeps_cut_thd zz w ?_ ?_; (unfold w; clear w); rotate_left; intro _; clear_value w; revert w; intro _ _)
    | (extract_lets +onlyGivenNames w; refine (fun (_ : _ → _) => ?_) w; unfold w; clear w)
    | (extract_lets +onlyGivenNames w; clear_value w; revert w; intro _) | apply updStep_keeps
    | apply startStreamNow_keeps | (apply keeps_foldl; intro _ _ _) | split
    | (apply keeps_put; exact ⟨rfl, by simp, by simp, rfl, rfl, rfl, rfl, rfl, rfl, rfl, rfl, rfl⟩))

end Sys2Proof.Machine
end

