-- ==== Sys2Proof/Laws/KeepsSlipway.lean ====
section
/-!
SUPPORT. What the operations of Machine/Slipway.lean keep (Laws/Keeps.lean).
-/
set_option linter.all false
namespace Sys2Proof.Machine

theorem takeNotice_keeps {zz : State} (k : Packet) (n : Nat) (t : Step) {s : State} (hz : Keeps zz s) :
    Keeps zz (takeNotice k n t s) := by
  unfold takeNotice
  repeat (with_reducible first
    | assumption | apply updStep_keeps | apply raiseCause_keeps | apply keeps_ite)

theorem repairMinority_keeps {zz : State} (n i : Nat) (e : Nat × Region) (want : BitVec 128) (t : Step) {s : State} (hz : Keeps zz s) :
    Keeps zz (repairMinority n i e want t s) := by
  unfold repairMinority
  repeat (with_reducible first
    | assumption | apply renarrow_keeps | apply noteStep_keeps | apply updStep_keeps | apply raiseFatal_keeps
    | apply askReload_keeps | apply keeps_ite)

theorem compareCopy_keeps {zz : State} (n : Nat) (t : Step) {s : State} (x : Nat × Nat × Region) (hz : Keeps zz s) :
    Keeps zz (compareCopy n t s x) := by
  unfold compareCopy
  repeat (with_reducible first
    | assumption
    | (extract_lets +onlyGivenNames w; refine keeps_cut zz w ?_ ?_; (unfold w; clear w); rotate_left; intro _; clear_value w; revert w; intro _ _)
    | (extract_lets +onlyGivenNames w; clear_value w; revert w; intro _) | apply raiseCause_keeps
    | apply postEvent_keeps | apply repairMinority_keeps | (apply keeps_foldl; intro _ _ _) | split)

theorem compareLists_keeps {zz : State} (n : Nat) {s : State} (hz : Keeps zz s) :
    Keeps zz (compareLists n s) := by
  unfold compareLists
  repeat (with_reducible first
    | assumption | apply compareCopy_keeps | apply updStep_keeps | (apply keeps_foldl; intro _ _ _) | split)

theorem sendList_keeps {zz : State} (n : Nat) (t : Step) (l : List (BitVec 128)) {s : State} (m : Nat) (hz : Keeps zz s) :
    Keeps zz (sendList n t l s m) := by
  unfold sendList
  repeat (with_reducible first
    | assumption | apply sendControl_keeps | (apply keeps_foldl; intro _ _ _))

theorem sendLists_keeps {zz : State} (n : Nat) {s : State} (hz : Keeps zz s) :
    Keeps zz (sendLists n s) := by
  unfold sendLists
  repeat (with_reducible first
    | assumption | apply compareLists_keeps | apply sendList_keeps | apply updStep_keeps
    | (apply keeps_foldl; intro _ _ _) | split)

theorem foldCopies_keeps {zz : State} (n : Nat) (t : Step) {s : State} (hz : Keeps zz s) :
    Keeps zz (foldCopies n t s) := by
  unfold foldCopies
  repeat (with_reducible first
    | assumption | apply readCopy_keeps | apply repairCopy_keeps | apply postEvent_keeps | apply sendLists_keeps
    | apply updStep_keeps | apply keeps_ite | (apply keeps_foldl; intro _ _ _)
    | (apply keeps_put; exact ⟨rfl, by simp, by simp, rfl, rfl, rfl, rfl, rfl, rfl, rfl, rfl, rfl⟩))

theorem execDigestFold_keeps {zz : State} (part : Nat) {s : State} (hz : Keeps zz s) :
    KeepsR zz (execDigestFold part s) := by
  unfold execDigestFold
  repeat (with_reducible first
    | assumption | apply keepsR_next | apply foldCopies_keeps | split)

theorem takeList_keeps {zz : State} (pkt : Packet) (n : Nat) (t : Step) {s : State} (hz : Keeps zz s) :
    Keeps zz (takeList pkt n t s) := by
  unfold takeList
  repeat (with_reducible first
    | assumption | (intro _; exact ⟨rfl, rfl, rfl⟩) | (intro _; exact ⟨rfl, rfl, rfl, rfl⟩) | (intro _)
    | (extract_lets +onlyGivenNames w; refine keeps_cut zz w ?_ ?_; (unfold w; clear w); rotate_left; intro _; clear_value w; revert w; intro _ _)
    | (extract_lets +onlyGivenNames w; refine (fun (_ : MemSys) => ?_) w; revert w; intro _)
    | (extract_lets +onlyGivenNames w; refine (fun (_ : Ferry) => ?_) w; revert w; intro _)
    | (extract_lets +onlyGivenNames w; refine (fun (_ : Sec) => ?_) w; revert w; intro _)
    | (extract_lets +onlyGivenNames w; refine keeps_cut_snd zz w ?_ ?_; (unfold w; clear w); rotate_left; intro _; clear_value w; revert w; intro _ _)
    | (extract_lets +onlyGivenNames w; refine keeps_cut_fst zz w ?_ ?_; (unfold w; clear w); rotate_left; intro _; clear_value w; revert w; intro _ _)
    | (extract_lets +onlyGivenNames w; refine keeps_cut_thd zz w ?_ ?_; (unfold w; clear w); rotate_left; intro _; clear_value w; revert w; intro _ _)
    | (extract_lets +onlyGivenNames w; refine (fun (_ : _ → _) => ?_) w; unfold w; clear w)
    | (extract_lets +onlyGivenNames w; clear_value w; revert w; intro _) | apply compareLists_keeps
    | apply updStep_keeps | apply keeps_ite | split
    | (rename_i hq; replace hq := congrArg Prod.snd hq; dsimp only at hq; rw [← hq]; clear hq)
    | (apply keeps_put; exact ⟨rfl, by simp, by simp, rfl, rfl, rfl, rfl, rfl, rfl, rfl, rfl, rfl⟩))

theorem execDigestDeadline_keeps {zz : State} (dt part : Nat) {s : State} (hz : Keeps zz s) :
    KeepsR zz (execDigestDeadline dt part s) := by
  unfold execDigestDeadline
  repeat (with_reducible first
    | assumption
    | (extract_lets +onlyGivenNames w; refine keeps_cut zz w ?_ ?_; (unfold w; clear w); rotate_left; intro _; clear_value w; revert w; intro _ _)
    | apply keepsR_next | apply pass_keeps | apply compareLists_keeps | split)

theorem takeReloadReq_keeps {zz : State} (pkt : Packet) (n : Nat) (_t : Step) {s : State} (hz : Keeps zz s) :
    Keeps zz (takeReloadReq pkt n _t s) := by
  unfold takeReloadReq
  repeat (with_reducible first
    | assumption | (intro _; exact ⟨rfl, rfl, rfl⟩) | (intro _; exact ⟨rfl, rfl, rfl, rfl⟩) | (intro _)
    | apply serveReload_keeps | apply keeps_ite | split
    | (rename_i hq; replace hq := congrArg Prod.snd hq; dsimp only at hq; rw [← hq]; clear hq)
    | (apply keeps_put; exact ⟨rfl, by simp, by simp, rfl, rfl, rfl, rfl, rfl, rfl, rfl, rfl, rfl⟩))

theorem reloadCame_keeps {zz : State} (n : Nat) (t : Step) (r : Reload) {s : State} (hz : Keeps zz s) :
    Keeps zz (reloadCame n t r s) := by
  unfold reloadCame
  repeat (with_reducible first
    | assumption | apply readCopy_keeps | apply updStep_keeps | apply failStep_keeps | apply sendLists_keeps
    | apply noteStep_keeps | apply keeps_ite
    | (apply keeps_put; exact ⟨rfl, by simp, by simp, rfl, rfl, rfl, rfl, rfl, rfl, rfl, rfl, rfl⟩))

theorem takeReloadDone_keeps {zz : State} (pkt : Packet) (n : Nat) (t : Step) {s : State} (hz : Keeps zz s) :
    Keeps zz (takeReloadDone pkt n t s) := by
  unfold takeReloadDone
  repeat (with_reducible first
    | assumption | (intro _; exact ⟨rfl, rfl, rfl⟩) | (intro _; exact ⟨rfl, rfl, rfl, rfl⟩) | (intro _)
    | apply reloadCame_keeps | apply keeps_ite | split
    | (rename_i hq; replace hq := congrArg Prod.snd hq; dsimp only at hq; rw [← hq]; clear hq)
    | (apply keeps_put; exact ⟨rfl, by simp, by simp, rfl, rfl, rfl, rfl, rfl, rfl, rfl, rfl, rfl⟩))

theorem controlAct_keeps {zz : State} (k : Packet) (n : Nat) (t : Step) {s : State} (hz : Keeps zz s) :
    Keeps zz (controlAct k n t s) := by
  unfold controlAct
  repeat (with_reducible first
    | assumption | (intro _; exact ⟨rfl, rfl, rfl⟩) | (intro _; exact ⟨rfl, rfl, rfl, rfl⟩) | (intro _)
    | apply takeNotice_keeps | apply takeList_keeps | apply takeReloadReq_keeps | apply takeReloadDone_keeps
    | apply keeps_ite | split
    | (rename_i hq; replace hq := congrArg Prod.snd hq; dsimp only at hq; rw [← hq]; clear hq)
    | (apply keeps_put; exact ⟨rfl, by simp, by simp, rfl, rfl, rfl, rfl, rfl, rfl, rfl, rfl, rfl⟩))

theorem takeControl_keeps {zz : State} (k : Packet) (n : Nat) {s : State} (hz : Keeps zz s) :
    Keeps zz (takeControl k n s) := by
  unfold takeControl
  repeat (with_reducible first
    | assumption | (intro _; exact ⟨rfl, rfl, rfl⟩) | (intro _; exact ⟨rfl, rfl, rfl, rfl⟩) | (intro _)
    | apply controlAct_keeps | apply keeps_ite | split
    | (rename_i hq; replace hq := congrArg Prod.snd hq; dsimp only at hq; rw [← hq]; clear hq)
    | (apply keeps_put; exact ⟨rfl, by simp, by simp, rfl, rfl, rfl, rfl, rfl, rfl, rfl, rfl, rfl⟩))

theorem execReloadDeadline_keeps {zz : State} (dt part : Nat) {s : State} (hz : Keeps zz s) :
    KeepsR zz (execReloadDeadline dt part s) := by
  unfold execReloadDeadline
  repeat (with_reducible first
    | assumption
    | (extract_lets +onlyGivenNames w; refine keeps_cut zz w ?_ ?_; (unfold w; clear w); rotate_left; intro _; clear_value w; revert w; intro _ _)
    | apply keepsR_next | apply pass_keeps | apply failStep_keeps | apply updStep_keeps | split)

theorem replayStart_keeps {zz : State} (d : Desc) {s : State} (hz : Keeps zz s) :
    Keeps zz (replayStart d s) := by
  unfold replayStart
  repeat (with_reducible first
    | assumption | apply raiseCause_keeps | apply updStep_keeps | apply setPhase_keeps)

theorem replayReady_keeps {zz : State} (d : Desc) {s : State} (hz : Keeps zz s) :
    Keeps zz (replayReady d s) := by
  unfold replayReady
  repeat (with_reducible first
    | assumption | apply checked_keeps | apply replayStart_keeps)

theorem execReplayStep_keeps {zz : State} (id : Nat) {s : State} (hz : Keeps zz s) :
    KeepsR zz (execReplayStep id s) := by
  unfold execReplayStep
  repeat (with_reducible first
    | assumption | (intro _) | apply keepsR_next | apply checked_keeps | apply acceptThen_keeps
    | apply replayReady_keeps | split)

end Sys2Proof.Machine
end

