-- ==== Sys2Proof/Laws/KeepsArrivals.lean ====
section
/-!
SUPPORT. What the operations of Machine/Arrivals.lean keep (Laws/Keeps.lean).
-/
set_option linter.all false
namespace Sys2Proof.Machine

theorem applyFull_keeps {zz : State} (p : Nat) (k : Packet) (reread : Bool) (n : Nat) {s : State} (hz : Keeps zz s) :
    Keeps zz (applyFull p k reread n s) := by
  unfold applyFull
  repeat (with_reducible first
    | assumption | (intro _; exact ⟨rfl, rfl, rfl⟩) | (intro _; exact ⟨rfl, rfl, rfl, rfl⟩) | (intro _)
    | apply owePacket_keeps | apply takeControl_keeps | apply applyAny_keeps | apply keeps_ite | split
    | (rename_i hq; replace hq := congrArg Prod.snd hq; dsimp only at hq; rw [← hq]; clear hq)
    | (apply keeps_put; exact ⟨rfl, by simp, by simp, rfl, rfl, rfl, rfl, rfl, rfl, rfl, rfl, rfl⟩))

theorem takeUp_keeps {zz : State} (p : Nat) (k : Packet) (reread : Bool) {s : State} (hz : Keeps zz s) :
    Keeps zz (takeUp p k reread s) := by
  unfold takeUp
  repeat (with_reducible first
    | assumption | (intro _; exact ⟨rfl, rfl, rfl⟩) | (intro _; exact ⟨rfl, rfl, rfl, rfl⟩) | (intro _)
    | apply multicastBurst_keeps | apply admitPacket_keeps | apply applyFull_keeps | apply keeps_ite | split
    | (rename_i hq; replace hq := congrArg Prod.snd hq; dsimp only at hq; rw [← hq]; clear hq)
    | (apply keeps_put; exact ⟨rfl, by simp, by simp, rfl, rfl, rfl, rfl, rfl, rfl, rfl, rfl, rfl⟩))

theorem unparkOne_keeps {zz : State} {s : State} (e : Parked) (hz : Keeps zz s) :
    Keeps zz (unparkOne s e) := by
  unfold unparkOne
  repeat (with_reducible first
    | assumption | (intro _; exact ⟨rfl, rfl, rfl⟩) | (intro _; exact ⟨rfl, rfl, rfl, rfl⟩) | (intro _)
    | apply parkPacket_keeps | apply readmit_keeps | apply applyFull_keeps | apply takeUp_keeps | apply keeps_ite
    | split | (rename_i hq; replace hq := congrArg Prod.snd hq; dsimp only at hq; rw [← hq]; clear hq)
    | (apply keeps_put; exact ⟨rfl, by simp, by simp, rfl, rfl, rfl, rfl, rfl, rfl, rfl, rfl, rfl⟩))

theorem unpark_keeps {zz : State} {s : State} (hz : Keeps zz s) :
    Keeps zz (unpark s) := by
  unfold unpark
  repeat (with_reducible first
    | assumption | (intro _; exact ⟨rfl, rfl, rfl⟩) | (intro _; exact ⟨rfl, rfl, rfl, rfl⟩) | (intro _)
    | apply unparkOne_keeps | apply keeps_ite | (apply keeps_foldl; intro _ _ _)
    | (apply keeps_foldl_snd; intro _ _ _) | (apply keeps_foldl_fst; intro _ _ _) | split
    | (rename_i hq; replace hq := congrArg Prod.snd hq; dsimp only at hq; rw [← hq]; clear hq)
    | (apply keeps_put; exact ⟨rfl, by simp, by simp, rfl, rfl, rfl, rfl, rfl, rfl, rfl, rfl, rfl⟩))

theorem request_keeps {zz : State} (ok : Bool) (port : Nat) (k : Packet) (reread : Bool) {s : State} (hz : Keeps zz s) :
    Keeps zz (request ok port k reread s) := by
  unfold request
  repeat (with_reducible first
    | assumption | (intro _; exact ⟨rfl, rfl, rfl⟩) | (intro _; exact ⟨rfl, rfl, rfl, rfl⟩) | (intro _)
    | apply unpark_keeps | apply arriveOn_keeps | apply takeUp_keeps | apply keeps_ite | split
    | (rename_i hq; replace hq := congrArg Prod.snd hq; dsimp only at hq; rw [← hq]; clear hq)
    | (apply keeps_put; exact ⟨rfl, by simp, by simp, rfl, rfl, rfl, rfl, rfl, rfl, rfl, rfl, rfl⟩))

theorem execReadPacket_keeps {zz : State} (port : Nat) (pkt : Packet) {s : State} (hz : Keeps zz s) :
    KeepsR zz (execReadPacket port pkt s) := by
  unfold execReadPacket
  repeat (with_reducible first
    | assumption | (intro _; exact ⟨rfl, rfl, rfl⟩) | apply keepsR_next | exact keepsR_fault | apply keepsR_ite
    | apply request_keeps)

theorem execWritePacket_keeps {zz : State} (port : Nat) (pkt : Packet) {s : State} (hz : Keeps zz s) :
    KeepsR zz (execWritePacket port pkt s) := by
  unfold execWritePacket
  repeat (with_reducible first
    | assumption | (intro _; exact ⟨rfl, rfl, rfl⟩) | apply keepsR_next | exact keepsR_fault | apply keepsR_ite
    | apply request_keeps)

theorem execAddfPacket_keeps {zz : State} (port : Nat) (pkt : Packet) {s : State} (hz : Keeps zz s) :
    KeepsR zz (execAddfPacket port pkt s) := by
  unfold execAddfPacket
  repeat (with_reducible first
    | assumption | (intro _; exact ⟨rfl, rfl, rfl⟩) | apply keepsR_next | exact keepsR_fault | apply keepsR_ite
    | apply request_keeps)

theorem execAddiPacket_keeps {zz : State} (port : Nat) (pkt : Packet) {s : State} (hz : Keeps zz s) :
    KeepsR zz (execAddiPacket port pkt s) := by
  unfold execAddiPacket
  repeat (with_reducible first
    | assumption | (intro _; exact ⟨rfl, rfl, rfl⟩) | apply keepsR_next | exact keepsR_fault | apply keepsR_ite
    | apply request_keeps)

theorem execParcelPacket_keeps {zz : State} (port : Nat) (pkt : Packet) {s : State} (hz : Keeps zz s) :
    KeepsR zz (execParcelPacket port pkt s) := by
  unfold execParcelPacket
  repeat (with_reducible first
    | assumption | (intro _; exact ⟨rfl, rfl, rfl⟩) | apply keepsR_next | exact keepsR_fault | apply keepsR_ite
    | apply request_keeps)

theorem execSignalPacket_keeps {zz : State} (port : Nat) (pkt : Packet) {s : State} (hz : Keeps zz s) :
    KeepsR zz (execSignalPacket port pkt s) := by
  unfold execSignalPacket
  repeat (with_reducible first
    | assumption | (intro _; exact ⟨rfl, rfl, rfl⟩) | apply keepsR_next | exact keepsR_fault | apply keepsR_ite
    | apply request_keeps)

theorem execWaitPacket_keeps {zz : State} (port : Nat) (pkt : Packet) {s : State} (hz : Keeps zz s) :
    KeepsR zz (execWaitPacket port pkt s) := by
  unfold execWaitPacket
  repeat (with_reducible first
    | assumption | (intro _; exact ⟨rfl, rfl, rfl⟩) | apply keepsR_next | exact keepsR_fault | apply keepsR_ite
    | apply request_keeps)

theorem execHeldPacketTimeout_keeps {zz : State} (dt n : Nat) {s : State} (hz : Keeps zz s) :
    KeepsR zz (execHeldPacketTimeout dt n s) := by
  unfold execHeldPacketTimeout
  repeat (with_reducible first
    | assumption | (intro _; exact ⟨rfl, rfl, rfl⟩) | (intro _; exact ⟨rfl, rfl, rfl, rfl⟩) | (intro _)
    | (extract_lets +onlyGivenNames w; refine keeps_cut zz w ?_ ?_; (unfold w; clear w); rotate_left; intro _; clear_value w; revert w; intro _ _)
    | (extract_lets +onlyGivenNames w; refine (fun (_ : MemSys) => ?_) w; revert w; intro _)
    | (extract_lets +onlyGivenNames w; refine (fun (_ : Ferry) => ?_) w; revert w; intro _)
    | (extract_lets +onlyGivenNames w; refine (fun (_ : Sec) => ?_) w; revert w; intro _)
    | (extract_lets +onlyGivenNames w; refine keeps_cut_snd zz w ?_ ?_; (unfold w; clear w); rotate_left; intro _; clear_value w; revert w; intro _ _)
    | (extract_lets +onlyGivenNames w; refine keeps_cut_fst zz w ?_ ?_; (unfold w; clear w); rotate_left; intro _; clear_value w; revert w; intro _ _)
    | (extract_lets +onlyGivenNames w; refine keeps_cut_thd zz w ?_ ?_; (unfold w; clear w); rotate_left; intro _; clear_value w; revert w; intro _ _)
    | (extract_lets +onlyGivenNames w; refine (fun (_ : _ → _) => ?_) w; unfold w; clear w)
    | (extract_lets +onlyGivenNames w; clear_value w; revert w; intro _) | apply keepsR_next | exact keepsR_fault
    | apply keepsR_ite | apply pass_keeps | apply unpark_keeps | apply freeBuffer_keeps | apply stalePacket_keeps
    | apply closePsn_keeps | apply keeps_ite | split
    | (rename_i hq; replace hq := congrArg Prod.snd hq; dsimp only at hq; rw [← hq]; clear hq)
    | (apply keeps_put; exact ⟨rfl, by simp, by simp, rfl, rfl, rfl, rfl, rfl, rfl, rfl, rfl, rfl⟩))

theorem execJoin_keeps {zz : State} (port : Nat) (pkt : Packet) {s : State} (hz : Keeps zz s) :
    KeepsR zz (execJoin port pkt s) := by
  unfold execJoin
  repeat (with_reducible first
    | assumption | apply keepsR_next | apply request_keeps
    | (apply keeps_put; exact ⟨rfl, by simp, by simp, rfl, rfl, rfl, rfl, rfl, rfl, rfl, rfl, rfl⟩))

theorem execWindow_keeps {zz : State} (port : Nat) (pkt : Packet) {s : State} (hz : Keeps zz s) :
    KeepsR zz (execWindow port pkt s) := by
  unfold execWindow
  repeat (with_reducible first
    | assumption | apply keepsR_next | apply request_keeps
    | (apply keeps_put; exact ⟨rfl, by simp, by simp, rfl, rfl, rfl, rfl, rfl, rfl, rfl, rfl, rfl⟩))

theorem execCollData_keeps {zz : State} (port : Nat) (burst : StagedBurst) {s : State} (hz : Keeps zz s) :
    KeepsR zz (execCollData port burst s) := by
  unfold execCollData
  repeat (with_reducible first
    | assumption | apply keepsR_next | apply keepsR_ite | apply request_keeps
    | (apply keeps_put; exact ⟨rfl, by simp, by simp, rfl, rfl, rfl, rfl, rfl, rfl, rfl, rfl, rfl⟩))

theorem execCollEnd_keeps {zz : State} (port : Nat) (pkt : Packet) {s : State} (hz : Keeps zz s) :
    KeepsR zz (execCollEnd port pkt s) := by
  unfold execCollEnd
  repeat (with_reducible first
    | assumption | apply keepsR_next | apply request_keeps
    | (apply keeps_put; exact ⟨rfl, by simp, by simp, rfl, rfl, rfl, rfl, rfl, rfl, rfl, rfl, rfl⟩))

theorem execMissing_keeps {zz : State} (port : Nat) (pkt : Packet) {s : State} (hz : Keeps zz s) :
    KeepsR zz (execMissing port pkt s) := by
  unfold execMissing
  repeat (with_reducible first
    | assumption | apply keepsR_next | apply request_keeps
    | (apply keeps_put; exact ⟨rfl, by simp, by simp, rfl, rfl, rfl, rfl, rfl, rfl, rfl, rfl, rfl⟩))

theorem execDone_keeps {zz : State} (port : Nat) (pkt : Packet) {s : State} (hz : Keeps zz s) :
    KeepsR zz (execDone port pkt s) := by
  unfold execDone
  repeat (with_reducible first
    | assumption | apply keepsR_next | apply request_keeps
    | (apply keeps_put; exact ⟨rfl, by simp, by simp, rfl, rfl, rfl, rfl, rfl, rfl, rfl, rfl, rfl⟩))

theorem execResult_keeps {zz : State} (port : Nat) (pkt : Packet) {s : State} (hz : Keeps zz s) :
    KeepsR zz (execResult port pkt s) := by
  unfold execResult
  repeat (with_reducible first
    | assumption | apply keepsR_next | apply request_keeps
    | (apply keeps_put; exact ⟨rfl, by simp, by simp, rfl, rfl, rfl, rfl, rfl, rfl, rfl, rfl, rfl⟩))

theorem execAbort_keeps {zz : State} (port : Nat) (pkt : Packet) {s : State} (hz : Keeps zz s) :
    KeepsR zz (execAbort port pkt s) := by
  unfold execAbort
  repeat (with_reducible first
    | assumption | apply keepsR_next | apply request_keeps
    | (apply keeps_put; exact ⟨rfl, by simp, by simp, rfl, rfl, rfl, rfl, rfl, rfl, rfl, rfl, rfl⟩))

theorem execReplayNotice_keeps {zz : State} (port : Nat) (pkt : Packet) {s : State} (hz : Keeps zz s) :
    KeepsR zz (execReplayNotice port pkt s) := by
  unfold execReplayNotice
  repeat (with_reducible first
    | assumption | apply keepsR_next | apply request_keeps
    | (apply keeps_put; exact ⟨rfl, by simp, by simp, rfl, rfl, rfl, rfl, rfl, rfl, rfl, rfl, rfl⟩))

theorem execDigestList_keeps {zz : State} (port : Nat) (pkt : Packet) {s : State} (hz : Keeps zz s) :
    KeepsR zz (execDigestList port pkt s) := by
  unfold execDigestList
  repeat (with_reducible first
    | assumption | (intro _) | apply keepsR_next | apply request_keeps | apply keeps_ite
    | (apply keeps_put; exact ⟨rfl, by simp, by simp, rfl, rfl, rfl, rfl, rfl, rfl, rfl, rfl, rfl⟩))

theorem execReloadReq_keeps {zz : State} (port : Nat) (pkt : Packet) {s : State} (hz : Keeps zz s) :
    KeepsR zz (execReloadReq port pkt s) := by
  unfold execReloadReq
  repeat (with_reducible first
    | assumption | (intro _) | apply keepsR_next | apply request_keeps
    | (apply keeps_put; exact ⟨rfl, by simp, by simp, rfl, rfl, rfl, rfl, rfl, rfl, rfl, rfl, rfl⟩))

theorem execReloadDone_keeps {zz : State} (port : Nat) (pkt : Packet) {s : State} (hz : Keeps zz s) :
    KeepsR zz (execReloadDone port pkt s) := by
  unfold execReloadDone
  repeat (with_reducible first
    | assumption | (intro _) | apply keepsR_next | apply request_keeps | split
    | (apply keeps_put; exact ⟨rfl, by simp, by simp, rfl, rfl, rfl, rfl, rfl, rfl, rfl, rfl, rfl⟩))

theorem execAttemptStart_keeps {zz : State} (dt part : Nat) {s : State} (hz : Keeps zz s) :
    KeepsR zz (execAttemptStart dt part s) := by
  unfold execAttemptStart
  repeat (with_reducible first
    | assumption | (intro _; exact ⟨rfl, rfl, rfl⟩) | (intro _; exact ⟨rfl, rfl, rfl, rfl⟩) | (intro _)
    | (extract_lets +onlyGivenNames w; refine keeps_cut zz w ?_ ?_; (unfold w; clear w); rotate_left; intro _; clear_value w; revert w; intro _ _)
    | (extract_lets +onlyGivenNames w; refine (fun (_ : MemSys) => ?_) w; revert w; intro _)
    | (extract_lets +onlyGivenNames w; refine (fun (_ : Ferry) => ?_) w; revert w; intro _)
    | (extract_lets +onlyGivenNames w; refine (fun (_ : Sec) => ?_) w; revert w; intro _)
    | (extract_lets +onlyGivenNames w; refine keeps_cut_snd zz w ?_ ?_; (unfold w; clear w); rotate_left; intro _; clear_value w; revert w; intro _ _)
    | (extract_lets +onlyGivenNames w; refine keeps_cut_fst zz w ?_ ?_; (unfold w; clear w); rotate_left; intro _; clear_value w; revert w; intro _ _)
    | (extract_lets +onlyGivenNames w; refine keeps_cut_thd zz w ?_ ?_; (unfold w; clear w); rotate_left; intro _; clear_value w; revert w; intro _ _)
    | (extract_lets +onlyGivenNames w; refine (fun (_ : _ → _) => ?_) w; unfold w; clear w)
    | (extract_lets +onlyGivenNames w; clear_value w; revert w; intro _) | apply keepsR_next | exact keepsR_fault
    | apply keepsR_ite | apply pass_keeps | apply stepEnds_keeps | apply freshColls_keeps | apply updDesc_keeps
    | apply updStep_keeps | apply rewriteCore_keeps | apply resetCores_keeps | apply govAttempt_keeps
    | apply freshMemory_keeps | apply writeBases_keeps | apply unpark_keeps | apply applyHeld_keeps
    | apply applyFull_keeps | apply restartStreams_keeps | apply keeps_ite | (apply keeps_foldl; intro _ _ _)
    | (apply keeps_foldl_snd; intro _ _ _) | (apply keeps_foldl_fst; intro _ _ _) | split
    | (rename_i hq; replace hq := congrArg Prod.snd hq; dsimp only at hq; rw [← hq]; clear hq)
    | (apply keeps_put; exact ⟨rfl, by simp, by simp, rfl, rfl, rfl, rfl, rfl, rfl, rfl, rfl, rfl⟩))

end Sys2Proof.Machine
end

