-- ==== Sys2Proof/Laws/KeepsIngest.lean ====
section
/-!
SUPPORT. What the operations of Machine/Ingest.lean keep (Laws/Keeps.lean).
-/
set_option linter.all false
namespace Sys2Proof.Machine

theorem updJob_keeps {zz : State} (n js : Nat) (f : Job → Job) {s : State} (hz : Keeps zz s) :
    Keeps zz (updJob n js f s) := by
  unfold updJob
  repeat (with_reducible first
    | assumption | apply updPart_keeps)

theorem ingPut_keeps {zz : State} (n a : Nat) (d : Bytes) {s : State} (hz : Keeps zz s) :
    Keeps zz (ingPut n a d s) := by
  unfold ingPut
  repeat (with_reducible first
    | assumption | (intro _; exact ⟨rfl, rfl, rfl⟩) | (intro _; exact ⟨rfl, rfl, rfl, rfl⟩) | (intro _)
    | apply memPut_keeps | apply keeps_ite | (apply keeps_foldl; intro _ _ _) | (apply keeps_foldl_snd; intro _ _ _)
    | (apply keeps_foldl_fst; intro _ _ _) | split
    | (rename_i hq; replace hq := congrArg Prod.snd hq; dsimp only at hq; rw [← hq]; clear hq)
    | (apply keeps_put; exact ⟨rfl, by simp, by simp, rfl, rfl, rfl, rfl, rfl, rfl, rfl, rfl, rfl⟩))

theorem ingestStart_keeps {zz : State} (d : Desc) {s : State} (hz : Keeps zz s) :
    Keeps zz (ingestStart d s) := by
  unfold ingestStart
  repeat (with_reducible first
    | assumption | apply ingPut_keeps | apply updPart_keeps | apply setPhase_keeps | split
    | (apply keeps_put; exact ⟨rfl, by simp, by simp, rfl, rfl, rfl, rfl, rfl, rfl, rfl, rfl, rfl⟩))

theorem ingestAccept_keeps {zz : State} (d : Desc) {s : State} (hz : Keeps zz s) :
    Keeps zz (ingestAccept d s) := by
  unfold ingestAccept
  repeat (with_reducible first
    | assumption | apply memGet_keeps | apply acceptThen_keeps | apply ingestStart_keeps | apply updPart_keeps
    | (apply keeps_put; exact ⟨rfl, by simp, by simp, rfl, rfl, rfl, rfl, rfl, rfl, rfl, rfl, rfl⟩))

theorem execIngestSubmit_keeps {zz : State} (id : Nat) {s : State} (hz : Keeps zz s) :
    KeepsR zz (execIngestSubmit id s) := by
  unfold execIngestSubmit
  repeat (with_reducible first
    | assumption | apply keepsR_next | apply checked_keeps | apply ingestAccept_keeps | split)

theorem updPipe_keeps {zz : State} (k : Nat) (f : Pipe → Pipe) {s : State} (hz : Keeps zz s) :
    Keeps zz (updPipe k f s) := by
  unfold updPipe
  repeat (with_reducible first
    | assumption | (intro _; exact ⟨rfl, rfl, rfl⟩) | (intro _; exact ⟨rfl, rfl, rfl, rfl⟩) | (intro _)
    | apply keeps_ite | split
    | (rename_i hq; replace hq := congrArg Prod.snd hq; dsimp only at hq; rw [← hq]; clear hq)
    | (apply keeps_put; exact ⟨rfl, by simp, by simp, rfl, rfl, rfl, rfl, rfl, rfl, rfl, rfl, rfl⟩))

theorem pipeEvent_keeps {zz : State} (bit phys : Nat) {s : State} (hz : Keeps zz s) :
    Keeps zz (pipeEvent bit phys s) := by
  unfold pipeEvent
  repeat (with_reducible first
    | assumption | apply setReg_keeps | apply postEvent_keeps)

theorem ingEvent_keeps {zz : State} (n bit js : Nat) {s : State} (hz : Keeps zz s) :
    Keeps zz (ingEvent n bit js s) := by
  unfold ingEvent
  repeat (with_reducible first
    | assumption | apply setReg_keeps)

theorem execPipeKnownAnswerTest_keeps {zz : State} (dt pipe : Nat) {s : State} (hz : Keeps zz s) :
    KeepsR zz (execPipeKnownAnswerTest dt pipe s) := by
  unfold execPipeKnownAnswerTest
  repeat (with_reducible first
    | assumption | apply keepsR_next | apply keepsR_ite | apply pass_keeps | apply updPipe_keeps)

theorem pipeFails_keeps {zz : State} (k : Nat) {s : State} (hz : Keeps zz s) :
    Keeps zz (pipeFails k s) := by
  unfold pipeFails
  repeat (with_reducible first
    | assumption | apply updPipe_keeps | apply pipeEvent_keeps | apply queueRepair_keeps | apply updJob_keeps | split)

theorem execPipeTestDone_keeps {zz : State} (dt pipe : Nat) (pass_ : Bool) {s : State} (hz : Keeps zz s) :
    KeepsR zz (execPipeTestDone dt pipe pass_ s) := by
  unfold execPipeTestDone
  repeat (with_reducible first
    | assumption
    | (extract_lets +onlyGivenNames w; refine keeps_cut zz w ?_ ?_; (unfold w; clear w); rotate_left; intro _; clear_value w; revert w; intro _ _)
    | apply keepsR_next | apply pass_keeps | apply updPipe_keeps | apply pipeFails_keeps | split)

theorem clearSlot_keeps {zz : State} (n : Nat) (b : Bytes) (slot : Nat) {s : State} (hz : Keeps zz s) :
    Keeps zz (clearSlot n b slot s) := by
  unfold clearSlot
  repeat (with_reducible first
    | assumption | apply ingPut_keeps | apply keeps_ite)

theorem ingestFar_keeps {zz : State} (n a len : Nat) (far : HostRead) {s : State} (hz : Keeps zz s) :
    Keeps zz (ingestFar n a len far s).2 := by
  unfold ingestFar
  repeat (with_reducible first
    | assumption | (intro _; exact ⟨rfl, rfl, rfl⟩) | (intro _; exact ⟨rfl, rfl, rfl, rfl⟩) | (intro _)
    | (extract_lets +onlyGivenNames w; refine keeps_cut zz w ?_ ?_; (unfold w; clear w); rotate_left; intro _; clear_value w; revert w; intro _ _)
    | (extract_lets +onlyGivenNames w; refine (fun (_ : MemSys) => ?_) w; revert w; intro _)
    | (extract_lets +onlyGivenNames w; refine (fun (_ : Ferry) => ?_) w; revert w; intro _)
    | (extract_lets +onlyGivenNames w; refine (fun (_ : Sec) => ?_) w; revert w; intro _)
    | (extract_lets +onlyGivenNames w; refine keeps_cut_snd zz w ?_ ?_; (unfold w; clear w); rotate_left; intro _; clear_value w; revert w; intro _ _)
    | (extract_lets +onlyGivenNames w; refine keeps_cut_fst zz w ?_ ?_; (unfold w; clear w); rotate_left; intro _; clear_value w; revert w; intro _ _)
    | (extract_lets +onlyGivenNames w; refine keeps_cut_thd zz w ?_ ?_; (unfold w; clear w); rotate_left; intro _; clear_value w; revert w; intro _ _)
    | (extract_lets +onlyGivenNames w; refine (fun (_ : _ → _) => ?_) w; unfold w; clear w)
    | (extract_lets +onlyGivenNames w; clear_value w; revert w; intro _) | apply rpcServe_keeps | apply rpcWant_keeps
    | apply keeps_ite | (apply keeps_foldl; intro _ _ _) | (apply keeps_foldl_snd; intro _ _ _)
    | (apply keeps_foldl_fst; intro _ _ _) | split
    | (rename_i hq; replace hq := congrArg Prod.snd hq; dsimp only at hq; rw [← hq]; clear hq)
    | (apply keeps_put; exact ⟨rfl, by simp, by simp, rfl, rfl, rfl, rfl, rfl, rfl, rfl, rfl, rfl⟩))

theorem ingestRead_keeps {zz : State} (n a len : Nat) (far : HostRead) {s : State} (hz : Keeps zz s) :
    Keeps zz (ingestRead n a len far s).2 := by
  unfold ingestRead
  repeat (with_reducible first
    | assumption | apply rangeRead_keeps | apply ingestFar_keeps | split
    | (apply keeps_put; exact ⟨rfl, by simp, by simp, rfl, rfl, rfl, rfl, rfl, rfl, rfl, rfl, rfl⟩))

theorem takeSlot_keeps {zz : State} (n js k : Nat) {s : State} (hz : Keeps zz s) :
    Keeps zz (takeSlot n js k s) := by
  unfold takeSlot
  repeat (with_reducible first
    | assumption | (extract_lets +onlyGivenNames w; clear_value w; revert w; intro _) | apply clearSlot_keeps
    | apply updJob_keeps | split)

theorem dispatch_keeps {zz : State} (n js k : Nat) (j : Job) (x : Nat × Bool) (entry segment : HostRead) {s : State} (hz : Keeps zz s) :
    Keeps zz (dispatch n js k j x entry segment s) := by
  unfold dispatch
  repeat (with_reducible first
    | assumption | apply takeSlot_keeps | apply ingestRead_keeps | apply updPipe_keeps | apply updJob_keeps
    | apply updPart_keeps | split)

theorem execSampleDispatch_keeps {zz : State} (dt part : Nat) (entry segment : HostRead) {s : State} (hz : Keeps zz s) :
    KeepsR zz (execSampleDispatch dt part entry segment s) := by
  unfold execSampleDispatch
  repeat (with_reducible first
    | assumption
    | (extract_lets +onlyGivenNames w; refine keeps_cut zz w ?_ ?_; (unfold w; clear w); rotate_left; intro _; clear_value w; revert w; intro _ _)
    | (extract_lets +onlyGivenNames w; clear_value w; revert w; intro _) | apply keepsR_next | apply pass_keeps
    | apply updJob_keeps | apply dispatch_keeps | (apply keeps_foldl; intro _ _ _) | split)

theorem putBlock_keeps {zz : State} (n : Nat) (h : Shape) (a g : Nat) (b : NBlock) {s : State} (hz : Keeps zz s) :
    Keeps zz (putBlock n h a g b s) := by
  unfold putBlock
  repeat (with_reducible first
    | assumption | apply ingPut_keeps)

theorem keeps_foldl_thd {zz : State} {α β γ : Type} {f : β × γ × State → α → β × γ × State} {l : List α} {p : β × γ × State}
    (hf : ∀ p x, Keeps zz p.2.2 → Keeps zz (f p x).2.2) (h : Keeps zz p.2.2) : Keeps zz (l.foldl f p).2.2 := by
  induction l generalizing p with
  | nil => exact h
  | cons x l ih => exact ih (hf p x h)

theorem putToken_keeps {zz : State} (n : Nat) (h : Shape) (a : Nat) {x : Nat × Nat × State} (row : Nat × List Num)
    (hz : Keeps zz x.2.2) : Keeps zz (putToken n h a x row).2.2 := by
  unfold putToken
  split
  · exact ingPut_keeps _ _ _ hz
  · exact keeps_foldl_thd (fun p j k => putBlock_keeps _ _ _ _ _ k) hz

theorem putFrames_keeps {zz : State} (n : Nat) (h : Shape) (a place : Nat) (l : List Picture) {s : State} (hz : Keeps zz s) :
    Keeps zz (putFrames n h a place l s).2.2 := by
  unfold putFrames
  exact keeps_foldl_thd (fun p f k => keeps_foldl_thd (fun q r m => putToken_keeps _ _ _ _ m) k) hz

theorem finishSample_keeps {zz : State} (k : Nat) (t : Task) (x : Sample) {s : State} (hz : Keeps zz s) :
    Keeps zz (finishSample k t x s) := by
  unfold finishSample
  repeat (with_reducible first
    | assumption
    | (extract_lets +onlyGivenNames w; refine keeps_cut zz w ?_ ?_; (unfold w; clear w); rotate_left; intro _; clear_value w; revert w; intro _ _)
    | (extract_lets +onlyGivenNames w; refine keeps_cut_thd zz w ?_ ?_; (unfold w; clear w); rotate_left; intro _; clear_value w; revert w; intro _ _)
    | (extract_lets +onlyGivenNames w; clear_value w; revert w; intro _) | apply updPipe_keeps | apply putFrames_keeps
    | apply ingPut_keeps | apply updJob_keeps | apply ingEvent_keeps | apply updPart_keeps | split)

theorem execSampleDone_keeps {zz : State} (pipe : Nat) {s : State} (hz : Keeps zz s) :
    KeepsR zz (execSampleDone pipe s) := by
  unfold execSampleDone
  repeat (with_reducible first
    | assumption | (extract_lets +onlyGivenNames w; clear_value w; revert w; intro _) | apply keepsR_next
    | apply finishSample_keeps | split)

theorem execSampleWatchdog_keeps {zz : State} (dt pipe : Nat) {s : State} (hz : Keeps zz s) :
    KeepsR zz (execSampleWatchdog dt pipe s) := by
  unfold execSampleWatchdog
  repeat (with_reducible first
    | assumption
    | (extract_lets +onlyGivenNames w; refine keeps_cut zz w ?_ ?_; (unfold w; clear w); rotate_left; intro _; clear_value w; revert w; intro _ _)
    | apply keepsR_next | apply pass_keeps | apply pipeEvent_keeps | apply finishSample_keeps | apply updJob_keeps
    | apply updPipe_keeps | split)

theorem slotCrcs_keeps {zz : State} (n : Nat) (h : Shape) (a : Nat) {s : State} (hz : Keeps zz s) :
    Keeps zz (slotCrcs n h a s) := by
  unfold slotCrcs
  repeat (with_reducible first
    | assumption | (intro _; exact ⟨rfl, rfl, rfl⟩) | (intro _; exact ⟨rfl, rfl, rfl, rfl⟩) | (intro _)
    | (extract_lets +onlyGivenNames w; refine keeps_cut zz w ?_ ?_; (unfold w; clear w); rotate_left; intro _; clear_value w; revert w; intro _ _)
    | (extract_lets +onlyGivenNames w; refine (fun (_ : MemSys) => ?_) w; revert w; intro _)
    | (extract_lets +onlyGivenNames w; refine (fun (_ : Ferry) => ?_) w; revert w; intro _)
    | (extract_lets +onlyGivenNames w; refine (fun (_ : Sec) => ?_) w; revert w; intro _)
    | (extract_lets +onlyGivenNames w; refine keeps_cut_snd zz w ?_ ?_; (unfold w; clear w); rotate_left; intro _; clear_value w; revert w; intro _ _)
    | (extract_lets +onlyGivenNames w; refine keeps_cut_fst zz w ?_ ?_; (unfold w; clear w); rotate_left; intro _; clear_value w; revert w; intro _ _)
    | (extract_lets +onlyGivenNames w; refine keeps_cut_thd zz w ?_ ?_; (unfold w; clear w); rotate_left; intro _; clear_value w; revert w; intro _ _)
    | (extract_lets +onlyGivenNames w; refine (fun (_ : _ → _) => ?_) w; unfold w; clear w)
    | (extract_lets +onlyGivenNames w; clear_value w; revert w; intro _) | apply memGet_keeps | apply ingPut_keeps
    | apply keeps_ite | split
    | (rename_i hq; replace hq := congrArg Prod.snd hq; dsimp only at hq; rw [← hq]; clear hq)
    | (apply keeps_put; exact ⟨rfl, by simp, by simp, rfl, rfl, rfl, rfl, rfl, rfl, rfl, rfl, rfl⟩))

theorem jobEnds_keeps {zz : State} (n js : Nat) (j : Job) (st : Status) {s : State} (hz : Keeps zz s) :
    Keeps zz (jobEnds n js j st s) := by
  unfold jobEnds
  repeat (with_reducible first
    | assumption | apply updPipe_keeps | apply spoilSlots_keeps | apply updPart_keeps | apply ingEvent_keeps
    | apply finishDesc_keeps | apply noteDesc_keeps | (apply keeps_foldl; intro _ _ _) | split)

theorem execBufferFilled_keeps {zz : State} (part slot : Nat) {s : State} (hz : Keeps zz s) :
    KeepsR zz (execBufferFilled part slot s) := by
  unfold execBufferFilled
  repeat (with_reducible first
    | assumption | (intro _; exact ⟨rfl, rfl, rfl⟩) | (intro _; exact ⟨rfl, rfl, rfl, rfl⟩) | (intro _)
    | (extract_lets +onlyGivenNames w; refine keeps_cut zz w ?_ ?_; (unfold w; clear w); rotate_left; intro _; clear_value w; revert w; intro _ _)
    | (extract_lets +onlyGivenNames w; refine (fun (_ : MemSys) => ?_) w; revert w; intro _)
    | (extract_lets +onlyGivenNames w; refine (fun (_ : Ferry) => ?_) w; revert w; intro _)
    | (extract_lets +onlyGivenNames w; refine (fun (_ : Sec) => ?_) w; revert w; intro _)
    | (extract_lets +onlyGivenNames w; refine keeps_cut_snd zz w ?_ ?_; (unfold w; clear w); rotate_left; intro _; clear_value w; revert w; intro _ _)
    | (extract_lets +onlyGivenNames w; refine keeps_cut_fst zz w ?_ ?_; (unfold w; clear w); rotate_left; intro _; clear_value w; revert w; intro _ _)
    | (extract_lets +onlyGivenNames w; refine keeps_cut_thd zz w ?_ ?_; (unfold w; clear w); rotate_left; intro _; clear_value w; revert w; intro _ _)
    | (extract_lets +onlyGivenNames w; refine (fun (_ : _ → _) => ?_) w; unfold w; clear w)
    | (extract_lets +onlyGivenNames w; clear_value w; revert w; intro _) | apply keepsR_next | exact keepsR_fault
    | apply keepsR_ite | apply slotCrcs_keeps | apply ingPut_keeps | apply postSignal_keeps | apply updJob_keeps
    | apply leaveIdle_keeps | apply jobEnds_keeps | apply keeps_ite | split
    | (rename_i hq; replace hq := congrArg Prod.snd hq; dsimp only at hq; rw [← hq]; clear hq)
    | (apply keeps_put; exact ⟨rfl, by simp, by simp, rfl, rfl, rfl, rfl, rfl, rfl, rfl, rfl, rfl⟩))

end Sys2Proof.Machine
end

