-- ==== Sys2Proof/Laws/KeepsFerry.lean ====
section
/-!
SUPPORT. What the operations of Machine/Ferry.lean keep (Laws/Keeps.lean).
-/
set_option linter.all false
namespace Sys2Proof.Machine

theorem updFer_keeps {zz : State} (f : Ferry → Ferry) {s : State}
    (hf : ∀ x, (f x).events = x.events ∧ (f x).limit = x.limit ∧ (f x).fuses = x.fuses) (hz : Keeps zz s) :
    Keeps zz (updFer f s) :=
  hz.trans (SameCore.keeps ⟨rfl, List.suffix_refl _, Nat.le_refl _, rfl, rfl, (hf _).1, (hf _).2.1, (hf _).2.2, rfl, rfl, rfl, rfl⟩)

theorem fmnEvent_keeps {zz : State} (bit : Nat) {s : State} (hz : Keeps zz s) :
    Keeps zz (fmnEvent bit s) := by
  unfold fmnEvent
  repeat (with_reducible first
    | assumption | apply orReg_keeps)

theorem settleClock_keeps {zz : State} {s : State} (hz : Keeps zz s) :
    Keeps zz (settleClock s) := by
  unfold settleClock
  repeat (with_reducible first
    | assumption | (intro _; exact ⟨rfl, rfl, rfl⟩) | apply updFer_keeps | apply keeps_ite)

theorem domainMargin_keeps {zz : State} (d : Nat) {s : State} (hz : Keeps zz s) :
    Keeps zz (domainMargin d s) := by
  unfold domainMargin
  repeat (with_reducible first
    | assumption | (intro _; exact ⟨rfl, rfl, rfl⟩) | apply updSite_keeps | apply postEvent_keeps
    | apply fmnEvent_keeps | apply updFer_keeps | (apply keeps_foldl; intro _ _ _))

theorem execRegulatorAdjust_keeps {zz : State} (dt domain marginMhz : Nat) {s : State} (hz : Keeps zz s) :
    KeepsR zz (execRegulatorAdjust dt domain marginMhz s) := by
  unfold execRegulatorAdjust
  repeat (with_reducible first
    | assumption | (intro _; exact ⟨rfl, rfl, rfl⟩) | apply keepsR_next | apply keepsR_ite | apply pass_keeps
    | apply updFer_keeps | apply domainMargin_keeps)

theorem execClockRaise_keeps {zz : State} (dt : Nat) {s : State} (hz : Keeps zz s) :
    KeepsR zz (execClockRaise dt s) := by
  unfold execClockRaise
  repeat (with_reducible first
    | assumption | (intro _; exact ⟨rfl, rfl, rfl⟩) | apply keepsR_next | apply keepsR_ite | apply updFer_keeps
    | apply pass_keeps)

theorem execDomainReport_keeps {zz : State} (dt : Nat) {s : State} (hz : Keeps zz s) :
    KeepsR zz (execDomainReport dt s) := by
  unfold execDomainReport
  repeat (with_reducible first
    | assumption | (intro _; exact ⟨rfl, rfl, rfl⟩) | apply keepsR_next | apply updFer_keeps | apply pass_keeps)

theorem powerLowered_keeps {zz : State} {s : State} (hz : Keeps zz s) :
    Keeps zz (powerLowered s) := by
  unfold powerLowered
  repeat (with_reducible first
    | assumption | apply settleClock_keeps | apply fmnEvent_keeps)

theorem fastRule_keeps {zz : State} (p : Nat) {s : State} (hz : Keeps zz s) :
    Keeps zz (fastRule p s) := by
  unfold fastRule
  repeat (with_reducible first
    | assumption | (intro _; exact ⟨rfl, rfl, rfl⟩) | apply powerLowered_keeps | apply updFer_keeps | apply keeps_ite)

theorem vinRecord_keeps {zz : State} (rail mv : Nat) {s : State} (hz : Keeps zz s) :
    Keeps zz (vinRecord rail mv s) := by
  unfold vinRecord
  repeat (with_reducible first
    | assumption | apply postEvent_keeps)

theorem powerCycled_keeps {zz : State} {s : State} (hz : Keeps zz s) :
    Keeps zz (powerCycled s) := by
  unfold powerCycled
  repeat (with_reducible first
    | assumption | (intro _; exact ⟨rfl, rfl, rfl⟩) | (intro _; exact ⟨rfl, rfl, rfl, rfl⟩) | (intro _)
    | apply keeps_ite | split
    | (rename_i hq; replace hq := congrArg Prod.snd hq; dsimp only at hq; rw [← hq]; clear hq)
    | (apply keeps_put; exact ⟨rfl, by simp, by simp, rfl, rfl, rfl, rfl, rfl, rfl, rfl, rfl, rfl⟩))

theorem vinDies_keeps {zz : State} {s : State} (hz : Keeps zz s) :
    Keeps zz (vinDies s) := by
  unfold vinDies
  repeat (with_reducible first
    | assumption | (intro _; exact ⟨rfl, rfl, rfl⟩) | (intro _; exact ⟨rfl, rfl, rfl, rfl⟩) | (intro _)
    | (extract_lets +onlyGivenNames w; refine keeps_cut zz w ?_ ?_; (unfold w; clear w); rotate_left; intro _; clear_value w; revert w; intro _ _)
    | (extract_lets +onlyGivenNames w; refine (fun (_ : MemSys) => ?_) w; revert w; intro _)
    | (extract_lets +onlyGivenNames w; refine (fun (_ : Ferry) => ?_) w; revert w; intro _)
    | (extract_lets +onlyGivenNames w; refine (fun (_ : Sec) => ?_) w; revert w; intro _)
    | (extract_lets +onlyGivenNames w; refine keeps_cut_snd zz w ?_ ?_; (unfold w; clear w); rotate_left; intro _; clear_value w; revert w; intro _ _)
    | (extract_lets +onlyGivenNames w; refine keeps_cut_fst zz w ?_ ?_; (unfold w; clear w); rotate_left; intro _; clear_value w; revert w; intro _ _)
    | (extract_lets +onlyGivenNames w; refine keeps_cut_thd zz w ?_ ?_; (unfold w; clear w); rotate_left; intro _; clear_value w; revert w; intro _ _)
    | (extract_lets +onlyGivenNames w; refine (fun (_ : _ → _) => ?_) w; unfold w; clear w)
    | (extract_lets +onlyGivenNames w; clear_value w; revert w; intro _) | apply warmReset_keeps
    | apply powerRequeue_keeps | apply keeps_ite | split
    | (rename_i hq; replace hq := congrArg Prod.snd hq; dsimp only at hq; rw [← hq]; clear hq)
    | (apply keeps_put; exact ⟨rfl, by simp, by simp, rfl, rfl, rfl, rfl, rfl, rfl, rfl, rfl, rfl⟩))

theorem vinRule_keeps {zz : State} (mv : Nat) {s : State} (hz : Keeps zz s) :
    Keeps zz (vinRule mv s) := by
  unfold vinRule
  repeat (with_reducible first
    | assumption | (intro _; exact ⟨rfl, rfl, rfl⟩) | (intro _; exact ⟨rfl, rfl, rfl, rfl⟩) | (intro _)
    | (extract_lets +onlyGivenNames w; refine keeps_cut zz w ?_ ?_; (unfold w; clear w); rotate_left; intro _; clear_value w; revert w; intro _ _)
    | (extract_lets +onlyGivenNames w; refine (fun (_ : MemSys) => ?_) w; revert w; intro _)
    | (extract_lets +onlyGivenNames w; refine (fun (_ : Ferry) => ?_) w; revert w; intro _)
    | (extract_lets +onlyGivenNames w; refine (fun (_ : Sec) => ?_) w; revert w; intro _)
    | (extract_lets +onlyGivenNames w; refine keeps_cut_snd zz w ?_ ?_; (unfold w; clear w); rotate_left; intro _; clear_value w; revert w; intro _ _)
    | (extract_lets +onlyGivenNames w; refine keeps_cut_fst zz w ?_ ?_; (unfold w; clear w); rotate_left; intro _; clear_value w; revert w; intro _ _)
    | (extract_lets +onlyGivenNames w; refine keeps_cut_thd zz w ?_ ?_; (unfold w; clear w); rotate_left; intro _; clear_value w; revert w; intro _ _)
    | (extract_lets +onlyGivenNames w; refine (fun (_ : _ → _) => ?_) w; unfold w; clear w)
    | (extract_lets +onlyGivenNames w; clear_value w; revert w; intro _) | apply updFer_keeps
    | apply powerCycled_keeps | apply vinRecord_keeps | apply fmnEvent_keeps | apply vinDies_keeps
    | apply settleClock_keeps | apply keeps_ite | split
    | (rename_i hq; replace hq := congrArg Prod.snd hq; dsimp only at hq; rw [← hq]; clear hq)
    | (apply keeps_put; exact ⟨rfl, by simp, by simp, rfl, rfl, rfl, rfl, rfl, rfl, rfl, rfl, rfl⟩))

theorem execVinSample_keeps {zz : State} (dt millivolts milliamps : Nat) {s : State} (hz : Keeps zz s) :
    KeepsR zz (execVinSample dt millivolts milliamps s) := by
  unfold execVinSample
  repeat (with_reducible first
    | assumption | (intro _; exact ⟨rfl, rfl, rfl⟩) | (intro _; exact ⟨rfl, rfl, rfl, rfl⟩) | (intro _)
    | (extract_lets +onlyGivenNames w; refine keeps_cut zz w ?_ ?_; (unfold w; clear w); rotate_left; intro _; clear_value w; revert w; intro _ _)
    | (extract_lets +onlyGivenNames w; refine (fun (_ : MemSys) => ?_) w; revert w; intro _)
    | (extract_lets +onlyGivenNames w; refine (fun (_ : Ferry) => ?_) w; revert w; intro _)
    | (extract_lets +onlyGivenNames w; refine (fun (_ : Sec) => ?_) w; revert w; intro _)
    | (extract_lets +onlyGivenNames w; refine keeps_cut_snd zz w ?_ ?_; (unfold w; clear w); rotate_left; intro _; clear_value w; revert w; intro _ _)
    | (extract_lets +onlyGivenNames w; refine keeps_cut_fst zz w ?_ ?_; (unfold w; clear w); rotate_left; intro _; clear_value w; revert w; intro _ _)
    | (extract_lets +onlyGivenNames w; refine keeps_cut_thd zz w ?_ ?_; (unfold w; clear w); rotate_left; intro _; clear_value w; revert w; intro _ _)
    | (extract_lets +onlyGivenNames w; refine (fun (_ : _ → _) => ?_) w; unfold w; clear w)
    | (extract_lets +onlyGivenNames w; clear_value w; revert w; intro _) | apply keepsR_next | exact keepsR_fault
    | apply keepsR_ite | apply pass_keeps | apply updFer_keeps | apply vinRule_keeps | apply fastRule_keeps
    | apply keeps_ite | split
    | (rename_i hq; replace hq := congrArg Prod.snd hq; dsimp only at hq; rw [← hq]; clear hq))

theorem execVinRecovered_keeps {zz : State} (dt : Nat) {s : State} (hz : Keeps zz s) :
    KeepsR zz (execVinRecovered dt s) := by
  unfold execVinRecovered
  repeat (with_reducible first
    | assumption | (intro _; exact ⟨rfl, rfl, rfl⟩) | (intro _; exact ⟨rfl, rfl, rfl, rfl⟩) | (intro _)
    | (extract_lets +onlyGivenNames w; refine keeps_cut zz w ?_ ?_; (unfold w; clear w); rotate_left; intro _; clear_value w; revert w; intro _ _)
    | (extract_lets +onlyGivenNames w; refine (fun (_ : MemSys) => ?_) w; revert w; intro _)
    | (extract_lets +onlyGivenNames w; refine (fun (_ : Ferry) => ?_) w; revert w; intro _)
    | (extract_lets +onlyGivenNames w; refine (fun (_ : Sec) => ?_) w; revert w; intro _)
    | (extract_lets +onlyGivenNames w; refine keeps_cut_snd zz w ?_ ?_; (unfold w; clear w); rotate_left; intro _; clear_value w; revert w; intro _ _)
    | (extract_lets +onlyGivenNames w; refine keeps_cut_fst zz w ?_ ?_; (unfold w; clear w); rotate_left; intro _; clear_value w; revert w; intro _ _)
    | (extract_lets +onlyGivenNames w; refine keeps_cut_thd zz w ?_ ?_; (unfold w; clear w); rotate_left; intro _; clear_value w; revert w; intro _ _)
    | (extract_lets +onlyGivenNames w; refine (fun (_ : _ → _) => ?_) w; unfold w; clear w)
    | (extract_lets +onlyGivenNames w; clear_value w; revert w; intro _) | apply keepsR_next | exact keepsR_fault
    | apply keepsR_ite | apply pass_keeps | apply settleClock_keeps | apply updFer_keeps | apply coldReset_keeps
    | apply keeps_ite | split
    | (rename_i hq; replace hq := congrArg Prod.snd hq; dsimp only at hq; rw [← hq]; clear hq)
    | (apply keeps_put; exact ⟨rfl, by simp, by simp, rfl, rfl, rfl, rfl, rfl, rfl, rfl, rfl, rfl⟩))

theorem execVauxSample_keeps {zz : State} (dt millivolts : Nat) {s : State} (hz : Keeps zz s) :
    KeepsR zz (execVauxSample dt millivolts s) := by
  unfold execVauxSample
  repeat (with_reducible first
    | assumption | (intro _; exact ⟨rfl, rfl, rfl⟩) | apply keepsR_next | apply keepsR_ite | apply pass_keeps
    | apply updFer_keeps | apply vinRecord_keeps)

theorem overLimit_keeps {zz : State} {s : State} (hz : Keeps zz s) :
    Keeps zz (overLimit s) := by
  unfold overLimit
  repeat (with_reducible first
    | assumption | (intro _; exact ⟨rfl, rfl, rfl⟩) | apply updFer_keeps | apply powerLowered_keeps | apply keeps_ite)

theorem underLimit_keeps {zz : State} {s : State} (hz : Keeps zz s) :
    Keeps zz (underLimit s) := by
  unfold underLimit
  repeat (with_reducible first
    | assumption | (intro _; exact ⟨rfl, rfl, rfl⟩) | apply settleClock_keeps | apply updFer_keeps)

theorem execPowerMean1ms_keeps {zz : State} (dt : Nat) {s : State} (hz : Keeps zz s) :
    KeepsR zz (execPowerMean1ms dt s) := by
  unfold execPowerMean1ms
  repeat (with_reducible first
    | assumption | (intro _; exact ⟨rfl, rfl, rfl⟩) | apply keepsR_next | apply keepsR_ite | apply pass_keeps
    | apply updFer_keeps | apply overLimit_keeps | apply underLimit_keeps | apply keeps_ite)

theorem execPowerRecoveryStep_keeps {zz : State} (dt : Nat) {s : State} (hz : Keeps zz s) :
    KeepsR zz (execPowerRecoveryStep dt s) := by
  unfold execPowerRecoveryStep
  repeat (with_reducible first
    | assumption | (intro _; exact ⟨rfl, rfl, rfl⟩) | apply keepsR_next | apply keepsR_ite | apply pass_keeps
    | apply settleClock_keeps | apply updFer_keeps)

theorem execFastRecoveryStep_keeps {zz : State} (dt : Nat) {s : State} (hz : Keeps zz s) :
    KeepsR zz (execFastRecoveryStep dt s) := by
  unfold execFastRecoveryStep
  repeat (with_reducible first
    | assumption | (intro _; exact ⟨rfl, rfl, rfl⟩) | apply keepsR_next | apply keepsR_ite | apply pass_keeps
    | apply settleClock_keeps | apply updFer_keeps)

theorem execPwrlimNFall_keeps {zz : State} {s : State} (hz : Keeps zz s) :
    KeepsR zz (execPwrlimNFall s) := by
  unfold execPwrlimNFall
  repeat (with_reducible first
    | assumption | (intro _; exact ⟨rfl, rfl, rfl⟩) | (intro _; exact ⟨rfl, rfl, rfl, rfl⟩) | (intro _)
    | apply keepsR_next | exact keepsR_fault | apply keepsR_ite | apply keeps_ite | split
    | (rename_i hq; replace hq := congrArg Prod.snd hq; dsimp only at hq; rw [← hq]; clear hq)
    | (apply keeps_put; exact ⟨rfl, by simp, by simp, rfl, rfl, rfl, rfl, rfl, rfl, rfl, rfl, rfl⟩))

theorem execPwrlimNRise_keeps {zz : State} {s : State} (hz : Keeps zz s) :
    KeepsR zz (execPwrlimNRise s) := by
  unfold execPwrlimNRise
  repeat (with_reducible first
    | assumption | (intro _; exact ⟨rfl, rfl, rfl⟩) | (intro _; exact ⟨rfl, rfl, rfl, rfl⟩) | (intro _)
    | apply keepsR_next | exact keepsR_fault | apply keepsR_ite | apply keeps_ite | split
    | (rename_i hq; replace hq := congrArg Prod.snd hq; dsimp only at hq; rw [← hq]; clear hq)
    | (apply keeps_put; exact ⟨rfl, by simp, by simp, rfl, rfl, rfl, rfl, rfl, rfl, rfl, rfl, rfl⟩))

theorem pldmAlert_keeps {zz : State} (sensor threshold up : Nat) {s : State} (hz : Keeps zz s) :
    Keeps zz (pldmAlert sensor threshold up s) := by
  unfold pldmAlert
  repeat (with_reducible first
    | assumption | (intro _; exact ⟨rfl, rfl, rfl⟩) | (intro _; exact ⟨rfl, rfl, rfl, rfl⟩) | (intro _)
    | apply emit_keeps | apply keeps_ite | split
    | (rename_i hq; replace hq := congrArg Prod.snd hq; dsimp only at hq; rw [← hq]; clear hq)
    | (apply keeps_put; exact ⟨rfl, by simp, by simp, rfl, rfl, rfl, rfl, rfl, rfl, rfl, rfl, rfl⟩))

theorem crossRecord_keeps {zz : State} (sensor : Nat) {s : State} (hz : Keeps zz s) :
    Keeps zz (crossRecord sensor s) := by
  unfold crossRecord
  repeat (with_reducible first
    | assumption | apply postEvent_keeps)

theorem cross95_keeps {zz : State} (i : Nat) (up : Bool) {s : State} (hz : Keeps zz s) :
    Keeps zz (cross95 i up s) := by
  unfold cross95
  repeat (with_reducible first
    | assumption | (intro _; exact ⟨rfl, rfl, rfl⟩) | apply updFer_keeps | apply fmnEvent_keeps
    | apply pldmAlert_keeps | apply crossRecord_keeps | apply keeps_ite)

theorem cross103_keeps {zz : State} (i : Nat) (up : Bool) {s : State} (hz : Keeps zz s) :
    Keeps zz (cross103 i up s) := by
  unfold cross103
  repeat (with_reducible first
    | assumption | (intro _; exact ⟨rfl, rfl, rfl⟩) | apply crossRecord_keeps | apply settleClock_keeps
    | apply fmnEvent_keeps | apply updFer_keeps | apply pldmAlert_keeps | apply keeps_ite)

theorem crossings_keeps {zz : State} (i sum n top : Nat) {s : State} (hz : Keeps zz s) :
    Keeps zz (crossings i sum n top s) := by
  unfold crossings
  repeat (with_reducible first
    | assumption | (intro _; exact ⟨rfl, rfl, rfl⟩) | apply updFer_keeps | apply cross95_keeps | apply cross103_keeps
    | apply pldmAlert_keeps | apply keeps_ite)

theorem diesOff_keeps {zz : State} (reason : Nat) {s : State} (hz : Keeps zz s) :
    Keeps zz (diesOff reason s) := by
  unfold diesOff
  repeat (with_reducible first
    | assumption | (intro _; exact ⟨rfl, rfl, rfl⟩) | (intro _; exact ⟨rfl, rfl, rfl, rfl⟩) | (intro _)
    | (extract_lets +onlyGivenNames w; refine keeps_cut zz w ?_ ?_; (unfold w; clear w); rotate_left; intro _; clear_value w; revert w; intro _ _)
    | (extract_lets +onlyGivenNames w; refine (fun (_ : MemSys) => ?_) w; revert w; intro _)
    | (extract_lets +onlyGivenNames w; refine (fun (_ : Ferry) => ?_) w; revert w; intro _)
    | (extract_lets +onlyGivenNames w; refine (fun (_ : Sec) => ?_) w; revert w; intro _)
    | (extract_lets +onlyGivenNames w; refine keeps_cut_snd zz w ?_ ?_; (unfold w; clear w); rotate_left; intro _; clear_value w; revert w; intro _ _)
    | (extract_lets +onlyGivenNames w; refine keeps_cut_fst zz w ?_ ?_; (unfold w; clear w); rotate_left; intro _; clear_value w; revert w; intro _ _)
    | (extract_lets +onlyGivenNames w; refine keeps_cut_thd zz w ?_ ?_; (unfold w; clear w); rotate_left; intro _; clear_value w; revert w; intro _ _)
    | (extract_lets +onlyGivenNames w; refine (fun (_ : _ → _) => ?_) w; unfold w; clear w)
    | (extract_lets +onlyGivenNames w; clear_value w; revert w; intro _) | apply portDown_keeps | apply keeps_ite
    | (apply keeps_foldl; intro _ _ _) | (apply keeps_foldl_snd; intro _ _ _) | (apply keeps_foldl_fst; intro _ _ _)
    | split | (rename_i hq; replace hq := congrArg Prod.snd hq; dsimp only at hq; rw [← hq]; clear hq)
    | (apply keeps_put; exact ⟨rfl, by simp, by simp, rfl, rfl, rfl, rfl, rfl, rfl, rfl, rfl, rfl⟩))

theorem tripBegins_keeps {zz : State} (kind sensor temp : Nat) {s : State} (hz : Keeps zz s) :
    Keeps zz (tripBegins kind sensor temp s) := by
  unfold tripBegins
  repeat (with_reducible first
    | assumption | (intro _; exact ⟨rfl, rfl, rfl⟩) | (intro _; exact ⟨rfl, rfl, rfl, rfl⟩) | (intro _)
    | (extract_lets +onlyGivenNames w; refine keeps_cut zz w ?_ ?_; (unfold w; clear w); rotate_left; intro _; clear_value w; revert w; intro _ _)
    | (extract_lets +onlyGivenNames w; refine (fun (_ : MemSys) => ?_) w; revert w; intro _)
    | (extract_lets +onlyGivenNames w; refine (fun (_ : Ferry) => ?_) w; revert w; intro _)
    | (extract_lets +onlyGivenNames w; refine (fun (_ : Sec) => ?_) w; revert w; intro _)
    | (extract_lets +onlyGivenNames w; refine keeps_cut_snd zz w ?_ ?_; (unfold w; clear w); rotate_left; intro _; clear_value w; revert w; intro _ _)
    | (extract_lets +onlyGivenNames w; refine keeps_cut_fst zz w ?_ ?_; (unfold w; clear w); rotate_left; intro _; clear_value w; revert w; intro _ _)
    | (extract_lets +onlyGivenNames w; refine keeps_cut_thd zz w ?_ ?_; (unfold w; clear w); rotate_left; intro _; clear_value w; revert w; intro _ _)
    | (extract_lets +onlyGivenNames w; refine (fun (_ : _ → _) => ?_) w; unfold w; clear w)
    | (extract_lets +onlyGivenNames w; clear_value w; revert w; intro _) | apply postEvent_keeps
    | apply fmnEvent_keeps | apply haltPart_keeps | apply powerRequeue_keeps | apply diesOff_keeps | apply spoil_keeps
    | apply keeps_ite | (apply keeps_foldl; intro _ _ _) | (apply keeps_foldl_snd; intro _ _ _)
    | (apply keeps_foldl_fst; intro _ _ _) | split
    | (rename_i hq; replace hq := congrArg Prod.snd hq; dsimp only at hq; rw [← hq]; clear hq)
    | (apply keeps_put; exact ⟨rfl, by simp, by simp, rfl, rfl, rfl, rfl, rfl, rfl, rfl, rfl, rfl⟩))

theorem tripCools_keeps {zz : State} {s : State} (hz : Keeps zz s) :
    Keeps zz (tripCools s) := by
  unfold tripCools
  repeat (with_reducible first
    | assumption | (intro _; exact ⟨rfl, rfl, rfl⟩) | apply updFer_keeps)

theorem junctionOne_keeps {zz : State} {s : State} (e : Nat × Nat) (hz : Keeps zz s) :
    Keeps zz (junctionOne s e) := by
  unfold junctionOne
  repeat (with_reducible first
    | assumption | (intro _; exact ⟨rfl, rfl, rfl⟩) | apply updFer_keeps | apply crossings_keeps
    | apply tripBegins_keeps | apply keeps_ite)

theorem execJunctionSample_keeps {zz : State} (dt : Nat) (temps : List Nat) {s : State} (hz : Keeps zz s) :
    KeepsR zz (execJunctionSample dt temps s) := by
  unfold execJunctionSample
  repeat (with_reducible first
    | assumption | apply keepsR_next | apply keepsR_ite | apply pass_keeps | apply tripCools_keeps
    | apply junctionOne_keeps | (apply keeps_foldl; intro _ _ _))

theorem stackOne_keeps {zz : State} {s : State} (e : Nat × Nat) (hz : Keeps zz s) :
    Keeps zz (stackOne s e) := by
  unfold stackOne
  repeat (with_reducible first
    | assumption | (intro _; exact ⟨rfl, rfl, rfl⟩) | apply updFer_keeps | apply crossings_keeps
    | apply updStack_keeps | apply tripBegins_keeps | apply keeps_ite)

theorem execStackTempSample_keeps {zz : State} (dt : Nat) (temps : List Nat) {s : State} (hz : Keeps zz s) :
    KeepsR zz (execStackTempSample dt temps s) := by
  unfold execStackTempSample
  repeat (with_reducible first
    | assumption | apply keepsR_next | apply keepsR_ite | apply pass_keeps | apply tripCools_keeps
    | apply stackOne_keeps | (apply keeps_foldl; intro _ _ _))

theorem execThermalStep_keeps {zz : State} (dt : Nat) {s : State} (hz : Keeps zz s) :
    KeepsR zz (execThermalStep dt s) := by
  unfold execThermalStep
  repeat (with_reducible first
    | assumption | (intro _; exact ⟨rfl, rfl, rfl⟩) | apply keepsR_next | apply keepsR_ite | apply pass_keeps
    | apply settleClock_keeps | apply fmnEvent_keeps | apply updFer_keeps)

theorem execThermtripRelease_keeps {zz : State} (dt : Nat) {s : State} (hz : Keeps zz s) :
    KeepsR zz (execThermtripRelease dt s) := by
  unfold execThermtripRelease
  repeat (with_reducible first
    | assumption | (intro _; exact ⟨rfl, rfl, rfl⟩) | (intro _; exact ⟨rfl, rfl, rfl, rfl⟩) | (intro _)
    | (extract_lets +onlyGivenNames w; refine keeps_cut zz w ?_ ?_; (unfold w; clear w); rotate_left; intro _; clear_value w; revert w; intro _ _)
    | (extract_lets +onlyGivenNames w; refine (fun (_ : MemSys) => ?_) w; revert w; intro _)
    | (extract_lets +onlyGivenNames w; refine (fun (_ : Ferry) => ?_) w; revert w; intro _)
    | (extract_lets +onlyGivenNames w; refine (fun (_ : Sec) => ?_) w; revert w; intro _)
    | (extract_lets +onlyGivenNames w; refine keeps_cut_snd zz w ?_ ?_; (unfold w; clear w); rotate_left; intro _; clear_value w; revert w; intro _ _)
    | (extract_lets +onlyGivenNames w; refine keeps_cut_fst zz w ?_ ?_; (unfold w; clear w); rotate_left; intro _; clear_value w; revert w; intro _ _)
    | (extract_lets +onlyGivenNames w; refine keeps_cut_thd zz w ?_ ?_; (unfold w; clear w); rotate_left; intro _; clear_value w; revert w; intro _ _)
    | (extract_lets +onlyGivenNames w; refine (fun (_ : _ → _) => ?_) w; unfold w; clear w)
    | (extract_lets +onlyGivenNames w; clear_value w; revert w; intro _) | apply keepsR_next | exact keepsR_fault
    | apply keepsR_ite | apply pass_keeps | apply powerCycle_keeps | apply coldReset_keeps | apply warmReset_keeps
    | apply keeps_ite | split
    | (rename_i hq; replace hq := congrArg Prod.snd hq; dsimp only at hq; rw [← hq]; clear hq)
    | (apply keeps_put; exact ⟨rfl, by simp, by simp, rfl, rfl, rfl, rfl, rfl, rfl, rfl, rfl, rfl⟩))

theorem execErrorCountSample_keeps {zz : State} (dt : Nat) {s : State} (hz : Keeps zz s) :
    KeepsR zz (execErrorCountSample dt s) := by
  unfold execErrorCountSample
  repeat (with_reducible first
    | assumption | apply keepsR_next | apply keepsR_ite | apply pass_keeps | apply serviceUpdate_keeps)

theorem execEnterIdle_keeps {zz : State} {s : State} (hz : Keeps zz s) :
    KeepsR zz (execEnterIdle s) := by
  unfold execEnterIdle
  repeat (with_reducible first
    | assumption | (intro _; exact ⟨rfl, rfl, rfl⟩) | (intro _; exact ⟨rfl, rfl, rfl, rfl⟩) | (intro _)
    | apply keepsR_next | exact keepsR_fault | apply keepsR_ite | apply keeps_ite | split
    | (rename_i hq; replace hq := congrArg Prod.snd hq; dsimp only at hq; rw [← hq]; clear hq)
    | (apply keeps_put; exact ⟨rfl, by simp, by simp, rfl, rfl, rfl, rfl, rfl, rfl, rfl, rfl, rfl⟩))

theorem pwrWrite_keeps {zz : State} (fn : Nat) (want : Power) {s : State} (hz : Keeps zz s) :
    Keeps zz (pwrWrite fn want s) := by
  unfold pwrWrite
  repeat (with_reducible first
    | assumption | (intro _; exact ⟨rfl, rfl, rfl⟩) | (intro _; exact ⟨rfl, rfl, rfl, rfl⟩) | (intro _)
    | apply hostPost_keeps | apply powerRequest_keeps | apply keeps_ite | split
    | (rename_i hq; replace hq := congrArg Prod.snd hq; dsimp only at hq; rw [← hq]; clear hq))

theorem execPwrReqActive_keeps {zz : State} (fn : Nat) {s : State} (hz : Keeps zz s) :
    KeepsR zz (execPwrReqActive fn s) := by
  unfold execPwrReqActive
  repeat (with_reducible first
    | assumption | apply keepsR_next | apply pwrWrite_keeps)

theorem execPwrReqDeep_keeps {zz : State} (fn : Nat) {s : State} (hz : Keeps zz s) :
    KeepsR zz (execPwrReqDeep fn s) := by
  unfold execPwrReqDeep
  repeat (with_reducible first
    | assumption | apply keepsR_next | apply pwrWrite_keeps)

theorem execPwrReqStandby_keeps {zz : State} (fn : Nat) {s : State} (hz : Keeps zz s) :
    KeepsR zz (execPwrReqStandby fn s) := by
  unfold execPwrReqStandby
  repeat (with_reducible first
    | assumption | apply keepsR_next | apply pwrWrite_keeps)

theorem execWakeN_keeps {zz : State} (dt : Nat) {s : State} (hz : Keeps zz s) :
    KeepsR zz (execWakeN dt s) := by
  unfold execWakeN
  repeat (with_reducible first
    | assumption | apply keepsR_next | apply keepsR_ite | apply pass_keeps | apply powerRequest_keeps)

theorem goDeep_keeps {zz : State} (source : Nat) {s : State} (hz : Keeps zz s) :
    Keeps zz (goDeep source s) := by
  unfold goDeep
  repeat (with_reducible first
    | assumption | (intro _; exact ⟨rfl, rfl, rfl⟩) | (intro _; exact ⟨rfl, rfl, rfl, rfl⟩) | (intro _)
    | (extract_lets +onlyGivenNames w; refine keeps_cut zz w ?_ ?_; (unfold w; clear w); rotate_left; intro _; clear_value w; revert w; intro _ _)
    | (extract_lets +onlyGivenNames w; refine (fun (_ : MemSys) => ?_) w; revert w; intro _)
    | (extract_lets +onlyGivenNames w; refine (fun (_ : Ferry) => ?_) w; revert w; intro _)
    | (extract_lets +onlyGivenNames w; refine (fun (_ : Sec) => ?_) w; revert w; intro _)
    | (extract_lets +onlyGivenNames w; refine keeps_cut_snd zz w ?_ ?_; (unfold w; clear w); rotate_left; intro _; clear_value w; revert w; intro _ _)
    | (extract_lets +onlyGivenNames w; refine keeps_cut_fst zz w ?_ ?_; (unfold w; clear w); rotate_left; intro _; clear_value w; revert w; intro _ _)
    | (extract_lets +onlyGivenNames w; refine keeps_cut_thd zz w ?_ ?_; (unfold w; clear w); rotate_left; intro _; clear_value w; revert w; intro _ _)
    | (extract_lets +onlyGivenNames w; refine (fun (_ : _ → _) => ?_) w; unfold w; clear w)
    | (extract_lets +onlyGivenNames w; clear_value w; revert w; intro _) | apply setPower_keeps | apply diesOff_keeps
    | apply emit_keeps | apply keeps_ite | split
    | (rename_i hq; replace hq := congrArg Prod.snd hq; dsimp only at hq; rw [← hq]; clear hq)
    | (apply keeps_put; exact ⟨rfl, by simp, by simp, rfl, rfl, rfl, rfl, rfl, rfl, rfl, rfl, rfl⟩))

theorem execEnterDeep_keeps {zz : State} (dt : Nat) {s : State} (hz : Keeps zz s) :
    KeepsR zz (execEnterDeep dt s) := by
  unfold execEnterDeep
  repeat (with_reducible first
    | assumption | (intro _; exact ⟨rfl, rfl, rfl⟩) | apply keepsR_next | apply powerNext_keeps | apply updFer_keeps
    | apply goDeep_keeps | apply pass_keeps | split)

theorem execWakeFromDeep_keeps {zz : State} (dt : Nat) {s : State} (hz : Keeps zz s) :
    KeepsR zz (execWakeFromDeep dt s) := by
  unfold execWakeFromDeep
  repeat (with_reducible first
    | assumption | (intro _; exact ⟨rfl, rfl, rfl⟩) | (intro _; exact ⟨rfl, rfl, rfl, rfl⟩) | (intro _)
    | (extract_lets +onlyGivenNames w; refine keeps_cut zz w ?_ ?_; (unfold w; clear w); rotate_left; intro _; clear_value w; revert w; intro _ _)
    | (extract_lets +onlyGivenNames w; refine (fun (_ : MemSys) => ?_) w; revert w; intro _)
    | (extract_lets +onlyGivenNames w; refine (fun (_ : Ferry) => ?_) w; revert w; intro _)
    | (extract_lets +onlyGivenNames w; refine (fun (_ : Sec) => ?_) w; revert w; intro _)
    | (extract_lets +onlyGivenNames w; refine keeps_cut_snd zz w ?_ ?_; (unfold w; clear w); rotate_left; intro _; clear_value w; revert w; intro _ _)
    | (extract_lets +onlyGivenNames w; refine keeps_cut_fst zz w ?_ ?_; (unfold w; clear w); rotate_left; intro _; clear_value w; revert w; intro _ _)
    | (extract_lets +onlyGivenNames w; refine keeps_cut_thd zz w ?_ ?_; (unfold w; clear w); rotate_left; intro _; clear_value w; revert w; intro _ _)
    | (extract_lets +onlyGivenNames w; refine (fun (_ : _ → _) => ?_) w; unfold w; clear w)
    | (extract_lets +onlyGivenNames w; clear_value w; revert w; intro _) | apply keepsR_next | exact keepsR_fault
    | apply keepsR_ite | apply pass_keeps | apply setPower_keeps | apply powerNext_keeps | apply updFer_keeps
    | apply keeps_ite | (apply keeps_foldl; intro _ _ _) | (apply keeps_foldl_snd; intro _ _ _)
    | (apply keeps_foldl_fst; intro _ _ _) | split
    | (rename_i hq; replace hq := congrArg Prod.snd hq; dsimp only at hq; rw [← hq]; clear hq)
    | (apply keeps_put; exact ⟨rfl, by simp, by simp, rfl, rfl, rfl, rfl, rfl, rfl, rfl, rfl, rfl⟩))

theorem execEnterStandby_keeps {zz : State} (dt : Nat) {s : State} (hz : Keeps zz s) :
    KeepsR zz (execEnterStandby dt s) := by
  unfold execEnterStandby
  repeat (with_reducible first
    | assumption | (intro _; exact ⟨rfl, rfl, rfl⟩) | (intro _; exact ⟨rfl, rfl, rfl, rfl⟩) | (intro _)
    | (extract_lets +onlyGivenNames w; refine keeps_cut zz w ?_ ?_; (unfold w; clear w); rotate_left; intro _; clear_value w; revert w; intro _ _)
    | (extract_lets +onlyGivenNames w; refine (fun (_ : MemSys) => ?_) w; revert w; intro _)
    | (extract_lets +onlyGivenNames w; refine (fun (_ : Ferry) => ?_) w; revert w; intro _)
    | (extract_lets +onlyGivenNames w; refine (fun (_ : Sec) => ?_) w; revert w; intro _)
    | (extract_lets +onlyGivenNames w; refine keeps_cut_snd zz w ?_ ?_; (unfold w; clear w); rotate_left; intro _; clear_value w; revert w; intro _ _)
    | (extract_lets +onlyGivenNames w; refine keeps_cut_fst zz w ?_ ?_; (unfold w; clear w); rotate_left; intro _; clear_value w; revert w; intro _ _)
    | (extract_lets +onlyGivenNames w; refine keeps_cut_thd zz w ?_ ?_; (unfold w; clear w); rotate_left; intro _; clear_value w; revert w; intro _ _)
    | (extract_lets +onlyGivenNames w; refine (fun (_ : _ → _) => ?_) w; unfold w; clear w)
    | (extract_lets +onlyGivenNames w; clear_value w; revert w; intro _) | apply keepsR_next | exact keepsR_fault
    | apply keepsR_ite | apply pass_keeps | apply goDeep_keeps | apply setPower_keeps | apply powerNext_keeps
    | apply updFer_keeps | apply keeps_ite | split
    | (rename_i hq; replace hq := congrArg Prod.snd hq; dsimp only at hq; rw [← hq]; clear hq)
    | (apply keeps_put; exact ⟨rfl, by simp, by simp, rfl, rfl, rfl, rfl, rfl, rfl, rfl, rfl, rfl⟩))

theorem execWakeFromStandby_keeps {zz : State} (dt : Nat) {s : State} (hz : Keeps zz s) :
    KeepsR zz (execWakeFromStandby dt s) := by
  unfold execWakeFromStandby
  repeat (with_reducible first
    | assumption | apply keepsR_next | apply requestVin_keeps | apply pass_keeps | split)

theorem execVinWaitTimeout_keeps {zz : State} (dt : Nat) {s : State} (hz : Keeps zz s) :
    KeepsR zz (execVinWaitTimeout dt s) := by
  unfold execVinWaitTimeout
  repeat (with_reducible first
    | assumption | (intro _; exact ⟨rfl, rfl, rfl⟩) | apply keepsR_next | apply keepsR_ite | apply pass_keeps
    | apply vinRecord_keeps | apply updFer_keeps)

end Sys2Proof.Machine
end

