-- ==== Sys2Proof/Laws/KeepsManagement.lean ====
section
/-!
SUPPORT. What the operations of Machine/Management.lean keep (Laws/Keeps.lean).
-/
set_option linter.all false
namespace Sys2Proof.Machine

theorem sendTo_keeps {zz : State} (c : Nat × Bytes) (data : Bytes) {s : State} (hz : Keeps zz s) :
    Keeps zz (sendTo c data s) := by
  unfold sendTo
  repeat (with_reducible first
    | assumption | apply emit_keeps | split)

theorem sendReport_keeps {zz : State} (data : Bytes) {s : State} (hz : Keeps zz s) :
    Keeps zz (sendReport data s) := by
  unfold sendReport
  repeat (with_reducible first
    | assumption | apply sendTo_keeps | (apply keeps_foldl; intro _ _ _))

/-- Passing over records and taking them leave the event store, the limit and the fuses. -/
theorem passOver_same (l : List Event) (f : Ferry) :
    (passOver l f).2.events = f.events ∧ (passOver l f).2.limit = f.limit ∧ (passOver l f).2.fuses = f.fuses := by
  induction l generalizing f with
  | nil => exact ⟨rfl, rfl, rfl⟩
  | cons e t ih =>
    unfold passOver
    split
    · exact ih _
    · exact ⟨rfl, rfl, rfl⟩

theorem takeRecords_same (n : Nat) (l : List Event) (f : Ferry) :
    (takeRecords n l f).2.events = f.events ∧ (takeRecords n l f).2.limit = f.limit ∧ (takeRecords n l f).2.fuses = f.fuses := by
  induction n generalizing l f with
  | zero => exact ⟨rfl, rfl, rfl⟩
  | succ n ih =>
    cases l with
    | nil => exact ⟨rfl, rfl, rfl⟩
    | cons e t =>
      rw [takeRecords]
      split
      · exact ⟨rfl, rfl, rfl⟩
      · exact ih _ _

theorem execReportDatagram_keeps {zz : State} (dt : Nat) {s : State} (hz : Keeps zz s) :
    KeepsR zz (execReportDatagram dt s) := by
  unfold execReportDatagram
  extract_lets t
  have ht : Keeps zz t := pass_keeps dt hz
  clear_value t
  split
  · rename_i p r u _
    have hp := passOver_same (unsent s) t.fer
    have hr := takeRecords_same 40 p.1 p.2
    have hu : Keeps zz u := ht.trans (SameCore.keeps ⟨rfl, List.suffix_refl _, Nat.le_refl _, rfl, rfl,
      hr.1.trans hp.1, hr.2.1.trans hp.2.1, hr.2.2.trans hp.2.2, rfl, rfl, rfl, rfl⟩)
    split
    · exact keepsR_next hu
    · exact keepsR_next (sendReport_keeps _ hu)
  · exact keepsR_next hz

theorem execRateLimitSecond_keeps {zz : State} (dt : Nat) {s : State} (hz : Keeps zz s) :
    KeepsR zz (execRateLimitSecond dt s) := by
  unfold execRateLimitSecond
  repeat (with_reducible first
    | assumption | (intro _; exact ⟨rfl, rfl, rfl⟩) | (intro _; exact ⟨rfl, rfl, rfl, rfl⟩) | (intro _)
    | (extract_lets +onlyGivenNames w; refine keeps_cut zz w ?_ ?_; (unfold w; clear w); rotate_left; intro _; clear_value w; revert w; intro _ _)
    | (extract_lets +onlyGivenNames w; refine (fun (_ : MemSys) => ?_) w; revert w; intro _)
    | (extract_lets +onlyGivenNames w; refine (fun (_ : Ferry) => ?_) w; revert w; intro _)
    | (extract_lets +onlyGivenNames w; refine (fun (_ : Sec) => ?_) w; revert w; intro _)
    | (extract_lets +onlyGivenNames w; refine keeps_cut_snd zz w ?_ ?_; (unfold w; clear w); rotate_left; intro _; clear_value w; revert w; intro _ _)
    | (extract_lets +onlyGivenNames w; refine keeps_cut_fst zz w ?_ ?_; (unfold w; clear w); rotate_left; intro _; clear_value w; revert w; intro _ _)
    | (extract_lets +onlyGivenNames w; refine keeps_cut_thd zz w ?_ ?_; (unfold w; clear w); rotate_left; intro _; clear_value w; revert w; intro _ _)
    | (extract_lets +onlyGivenNames w; refine (fun (_ : _ → _) => ?_) w; unfold w; clear w)
    | (extract_lets +onlyGivenNames w; clear_value w; revert w; intro _) | apply keepsR_next | exact keepsR_fault
    | apply keepsR_ite | apply pass_keeps | apply postEvent_keeps | apply keeps_ite | (apply keeps_foldl; intro _ _ _)
    | (apply keeps_foldl_snd; intro _ _ _) | (apply keeps_foldl_fst; intro _ _ _) | split
    | (rename_i hq; replace hq := congrArg Prod.snd hq; dsimp only at hq; rw [← hq]; clear hq)
    | (apply keeps_put; exact ⟨rfl, by simp, by simp, rfl, rfl, rfl, rfl, rfl, rfl, rfl, rfl, rfl⟩))

theorem execHeartbeatDatagram_keeps {zz : State} (dt : Nat) {s : State} (hz : Keeps zz s) :
    KeepsR zz (execHeartbeatDatagram dt s) := by
  unfold execHeartbeatDatagram
  repeat (with_reducible first
    | assumption | (intro _; exact ⟨rfl, rfl, rfl⟩) | (intro _; exact ⟨rfl, rfl, rfl, rfl⟩) | (intro _)
    | (extract_lets +onlyGivenNames w; refine keeps_cut zz w ?_ ?_; (unfold w; clear w); rotate_left; intro _; clear_value w; revert w; intro _ _)
    | (extract_lets +onlyGivenNames w; refine (fun (_ : MemSys) => ?_) w; revert w; intro _)
    | (extract_lets +onlyGivenNames w; refine (fun (_ : Ferry) => ?_) w; revert w; intro _)
    | (extract_lets +onlyGivenNames w; refine (fun (_ : Sec) => ?_) w; revert w; intro _)
    | (extract_lets +onlyGivenNames w; refine keeps_cut_snd zz w ?_ ?_; (unfold w; clear w); rotate_left; intro _; clear_value w; revert w; intro _ _)
    | (extract_lets +onlyGivenNames w; refine keeps_cut_fst zz w ?_ ?_; (unfold w; clear w); rotate_left; intro _; clear_value w; revert w; intro _ _)
    | (extract_lets +onlyGivenNames w; refine keeps_cut_thd zz w ?_ ?_; (unfold w; clear w); rotate_left; intro _; clear_value w; revert w; intro _ _)
    | (extract_lets +onlyGivenNames w; refine (fun (_ : _ → _) => ?_) w; unfold w; clear w)
    | (extract_lets +onlyGivenNames w; clear_value w; revert w; intro _) | apply keepsR_next | exact keepsR_fault
    | apply keepsR_ite | apply pass_keeps | apply sendReport_keeps | apply keeps_ite | split
    | (rename_i hq; replace hq := congrArg Prod.snd hq; dsimp only at hq; rw [← hq]; clear hq)
    | (apply keeps_put; exact ⟨rfl, by simp, by simp, rfl, rfl, rfl, rfl, rfl, rfl, rfl, rfl, rfl⟩))

theorem cmdGetStatus_keeps {zz : State} (b : Bytes) {s : State} (hz : Keeps zz s) :
    Keeps zz (cmdGetStatus b s).2 := by
  unfold cmdGetStatus
  repeat (with_reducible first
    | assumption | split)

theorem cmdGetEvents_keeps {zz : State} (b : Bytes) {s : State} (hz : Keeps zz s) :
    Keeps zz (cmdGetEvents b s).2 := by
  unfold cmdGetEvents
  repeat (with_reducible first
    | assumption | (extract_lets +onlyGivenNames w; clear_value w; revert w; intro _) | split)

theorem cmdGetJournal_keeps {zz : State} (b : Bytes) {s : State} (hz : Keeps zz s) :
    Keeps zz (cmdGetJournal b s).2 := by
  unfold cmdGetJournal
  repeat (with_reducible first
    | assumption | (extract_lets +onlyGivenNames w; clear_value w; revert w; intro _) | split)

theorem cmdSetPower_keeps {zz : State} (b : Bytes) {s : State} (hz : Keeps zz s) :
    Keeps zz (cmdSetPower b s).2 := by
  unfold cmdSetPower
  repeat (with_reducible first
    | assumption | apply powerRequest_keeps | split)

theorem cmdReset_keeps {zz : State} (b : Bytes) {s : State} (hz : Keeps zz s) :
    Keeps zz (cmdReset b s).2 := by
  unfold cmdReset
  repeat (with_reducible first
    | assumption | (extract_lets +onlyGivenNames w; clear_value w; revert w; intro _) | apply prtReset_keeps | split)

theorem putLimit_keeps {zz : State} (w : Nat) {s : State} (hz : Keeps zz s) : Keeps zz (putLimit w s) :=
  hz.trans ⟨rfl, List.suffix_refl _, Nat.le_refl _, rfl, rfl, rfl, rfl, rfl,
    fun i => ⟨i.memory, i.store, Nat.le_max_left _ _, Nat.max_le.mpr ⟨by show (1500 : Nat) ≤ 3300; omega, Nat.min_le_left _ _⟩⟩⟩

theorem cmdSetLimit_keeps {zz : State} (b : Bytes) {s : State} (hz : Keeps zz s) :
    Keeps zz (cmdSetLimit b s).2 := by
  unfold cmdSetLimit
  repeat (with_reducible first
    | assumption | apply putLimit_keeps | split)

theorem cmdSetNet_keeps {zz : State} (b : Bytes) {s : State} (hz : Keeps zz s) :
    Keeps zz (cmdSetNet b s).2 := by
  unfold cmdSetNet
  repeat (with_reducible first
    | assumption | (intro _; exact ⟨rfl, rfl, rfl⟩) | (intro _; exact ⟨rfl, rfl, rfl, rfl⟩) | (intro _)
    | (extract_lets +onlyGivenNames w; refine keeps_cut zz w ?_ ?_; (unfold w; clear w); rotate_left; intro _; clear_value w; revert w; intro _ _)
    | (extract_lets +onlyGivenNames w; refine (fun (_ : MemSys) => ?_) w; revert w; intro _)
    | (extract_lets +onlyGivenNames w; refine (fun (_ : Ferry) => ?_) w; revert w; intro _)
    | (extract_lets +onlyGivenNames w; refine (fun (_ : Sec) => ?_) w; revert w; intro _)
    | (extract_lets +onlyGivenNames w; refine keeps_cut_snd zz w ?_ ?_; (unfold w; clear w); rotate_left; intro _; clear_value w; revert w; intro _ _)
    | (extract_lets +onlyGivenNames w; refine keeps_cut_fst zz w ?_ ?_; (unfold w; clear w); rotate_left; intro _; clear_value w; revert w; intro _ _)
    | (extract_lets +onlyGivenNames w; refine keeps_cut_thd zz w ?_ ?_; (unfold w; clear w); rotate_left; intro _; clear_value w; revert w; intro _ _)
    | (extract_lets +onlyGivenNames w; refine (fun (_ : _ → _) => ?_) w; unfold w; clear w)
    | (extract_lets +onlyGivenNames w; clear_value w; revert w; intro _) | apply keeps_ite | split
    | (rename_i hq; replace hq := congrArg Prod.snd hq; dsimp only at hq; rw [← hq]; clear hq)
    | (apply keeps_put; exact ⟨rfl, by simp, by simp, rfl, rfl, rfl, rfl, rfl, rfl, rfl, rfl, rfl⟩))

theorem cmdSetPtp_keeps {zz : State} (b : Bytes) {s : State} (hz : Keeps zz s) :
    Keeps zz (cmdSetPtp b s).2 := by
  unfold cmdSetPtp
  repeat (with_reducible first
    | assumption | (intro _; exact ⟨rfl, rfl, rfl⟩) | (intro _; exact ⟨rfl, rfl, rfl, rfl⟩) | (intro _)
    | apply keeps_ite | split
    | (rename_i hq; replace hq := congrArg Prod.snd hq; dsimp only at hq; rw [← hq]; clear hq)
    | (apply keeps_put; exact ⟨rfl, by simp, by simp, rfl, rfl, rfl, rfl, rfl, rfl, rfl, rfl, rfl⟩))

theorem cmdPrepareSwap_keeps {zz : State} (b : Bytes) {s : State} (hz : Keeps zz s) :
    Keeps zz (cmdPrepareSwap b s).2 := by
  unfold cmdPrepareSwap
  repeat (with_reducible first
    | assumption | (intro _; exact ⟨rfl, rfl, rfl⟩) | (intro _; exact ⟨rfl, rfl, rfl, rfl⟩) | (intro _)
    | apply powerRequest_keeps | apply keeps_ite | split
    | (rename_i hq; replace hq := congrArg Prod.snd hq; dsimp only at hq; rw [← hq]; clear hq)
    | (apply keeps_put; exact ⟨rfl, by simp, by simp, rfl, rfl, rfl, rfl, rfl, rfl, rfl, rfl, rfl⟩))

theorem runCommand_keeps {zz : State} (code : Nat) (b : Bytes) {s : State} (hz : Keeps zz s) :
    Keeps zz (runCommand code b s).2 := by
  unfold runCommand
  repeat (with_reducible first
    | assumption | (intro _; exact ⟨rfl, rfl, rfl⟩) | (intro _; exact ⟨rfl, rfl, rfl, rfl⟩) | (intro _)
    | apply cmdGetStatus_keeps | apply cmdGetEvents_keeps | apply cmdGetJournal_keeps | apply cmdSetPower_keeps
    | apply cmdReset_keeps | apply cmdSetLimit_keeps | apply cmdSetNet_keeps | apply cmdSetPtp_keeps
    | apply cmdPrepareSwap_keeps | apply keeps_ite | split
    | (rename_i hq; replace hq := congrArg Prod.snd hq; dsimp only at hq; rw [← hq]; clear hq))

theorem mailboxPut_keeps {zz : State} (b : Bytes) {s : State} (hz : Keeps zz s) :
    Keeps zz (mailboxPut b s) := by
  unfold mailboxPut
  repeat (with_reducible first
    | assumption | (intro _; exact ⟨rfl, rfl, rfl⟩) | (intro _; exact ⟨rfl, rfl, rfl, rfl⟩) | (intro _)
    | apply keeps_ite | (apply keeps_foldl; intro _ _ _) | (apply keeps_foldl_snd; intro _ _ _)
    | (apply keeps_foldl_fst; intro _ _ _) | split
    | (rename_i hq; replace hq := congrArg Prod.snd hq; dsimp only at hq; rw [← hq]; clear hq)
    | (apply keeps_put; exact ⟨rfl, by simp, by simp, rfl, rfl, rfl, rfl, rfl, rfl, rfl, rfl, rfl⟩))

theorem mailboxDone_keeps {zz : State} (code : Nat) (a : Answer) {s : State} (hz : Keeps zz s) :
    Keeps zz (mailboxDone code a s) := by
  unfold mailboxDone
  repeat (with_reducible first
    | assumption | apply setReg_keeps | apply emit_keeps | apply mailboxPut_keeps)

theorem command_keeps {zz : State} (code : Nat) (path : MgmtPath) (body : Bytes) {s : State} (hz : Keeps zz s) :
    Keeps zz (command code path body s) := by
  unfold command
  repeat (with_reducible first
    | assumption | apply runCommand_keeps | apply emit_keeps | apply mailboxPut_keeps | apply barAccess_keeps
    | apply mailboxDone_keeps | apply sendTo_keeps | split)

theorem execGetStatus_keeps {zz : State} (path : MgmtPath) (body : Bytes) {s : State} (hz : Keeps zz s) :
    KeepsR zz (execGetStatus path body s) := by
  unfold execGetStatus
  repeat (with_reducible first
    | assumption | apply keepsR_next | apply command_keeps)

theorem execGetEvents_keeps {zz : State} (path : MgmtPath) (body : Bytes) {s : State} (hz : Keeps zz s) :
    KeepsR zz (execGetEvents path body s) := by
  unfold execGetEvents
  repeat (with_reducible first
    | assumption | apply keepsR_next | apply command_keeps)

theorem execGetJournal_keeps {zz : State} (path : MgmtPath) (body : Bytes) {s : State} (hz : Keeps zz s) :
    KeepsR zz (execGetJournal path body s) := by
  unfold execGetJournal
  repeat (with_reducible first
    | assumption | apply keepsR_next | apply command_keeps)

theorem execSetPower_keeps {zz : State} (path : MgmtPath) (body : Bytes) {s : State} (hz : Keeps zz s) :
    KeepsR zz (execSetPower path body s) := by
  unfold execSetPower
  repeat (with_reducible first
    | assumption | apply keepsR_next | apply command_keeps)

theorem execReset_keeps {zz : State} (path : MgmtPath) (body : Bytes) {s : State} (hz : Keeps zz s) :
    KeepsR zz (execReset path body s) := by
  unfold execReset
  repeat (with_reducible first
    | assumption | apply keepsR_next | apply command_keeps)

theorem execSetLimit_keeps {zz : State} (path : MgmtPath) (body : Bytes) {s : State} (hz : Keeps zz s) :
    KeepsR zz (execSetLimit path body s) := by
  unfold execSetLimit
  repeat (with_reducible first
    | assumption | apply keepsR_next | apply command_keeps)

theorem execSetNet_keeps {zz : State} (path : MgmtPath) (body : Bytes) {s : State} (hz : Keeps zz s) :
    KeepsR zz (execSetNet path body s) := by
  unfold execSetNet
  repeat (with_reducible first
    | assumption | apply keepsR_next | apply command_keeps)

theorem execSetPtp_keeps {zz : State} (path : MgmtPath) (body : Bytes) {s : State} (hz : Keeps zz s) :
    KeepsR zz (execSetPtp path body s) := by
  unfold execSetPtp
  repeat (with_reducible first
    | assumption | apply keepsR_next | apply command_keeps)

theorem execPrepareSwap_keeps {zz : State} (path : MgmtPath) (body : Bytes) {s : State} (hz : Keeps zz s) :
    KeepsR zz (execPrepareSwap path body s) := by
  unfold execPrepareSwap
  repeat (with_reducible first
    | assumption | apply keepsR_next | apply command_keeps)

theorem execArpRequest_keeps {zz : State} (target : Bytes) {s : State} (hz : Keeps zz s) :
    KeepsR zz (execArpRequest target s) := by
  unfold execArpRequest
  repeat (with_reducible first
    | assumption | apply keepsR_next | apply keepsR_ite | apply emit_keeps)

theorem execNeighbourSolicitation_keeps {zz : State} (target : Bytes) {s : State} (hz : Keeps zz s) :
    KeepsR zz (execNeighbourSolicitation target s) := by
  unfold execNeighbourSolicitation
  repeat (with_reducible first
    | assumption | apply keepsR_next | apply keepsR_ite | apply emit_keeps)

theorem execIcmpEcho_keeps {zz : State} (target data : Bytes) {s : State} (hz : Keeps zz s) :
    KeepsR zz (execIcmpEcho target data s) := by
  unfold execIcmpEcho
  repeat (with_reducible first
    | assumption | apply keepsR_next | apply keepsR_ite | apply emit_keeps)

theorem execMctpControl_keeps {zz : State} (req : Bytes) {s : State} (hz : Keeps zz s) :
    KeepsR zz (execMctpControl req s) := by
  unfold execMctpControl
  repeat (with_reducible first
    | assumption | (intro _; exact ⟨rfl, rfl, rfl⟩) | (intro _; exact ⟨rfl, rfl, rfl, rfl⟩) | (intro _)
    | (extract_lets +onlyGivenNames w; refine keeps_cut zz w ?_ ?_; (unfold w; clear w); rotate_left; intro _; clear_value w; revert w; intro _ _)
    | (extract_lets +onlyGivenNames w; refine (fun (_ : MemSys) => ?_) w; revert w; intro _)
    | (extract_lets +onlyGivenNames w; refine (fun (_ : Ferry) => ?_) w; revert w; intro _)
    | (extract_lets +onlyGivenNames w; refine (fun (_ : Sec) => ?_) w; revert w; intro _)
    | (extract_lets +onlyGivenNames w; refine keeps_cut_snd zz w ?_ ?_; (unfold w; clear w); rotate_left; intro _; clear_value w; revert w; intro _ _)
    | (extract_lets +onlyGivenNames w; refine keeps_cut_fst zz w ?_ ?_; (unfold w; clear w); rotate_left; intro _; clear_value w; revert w; intro _ _)
    | (extract_lets +onlyGivenNames w; refine keeps_cut_thd zz w ?_ ?_; (unfold w; clear w); rotate_left; intro _; clear_value w; revert w; intro _ _)
    | (extract_lets +onlyGivenNames w; refine (fun (_ : _ → _) => ?_) w; unfold w; clear w)
    | (extract_lets +onlyGivenNames w; clear_value w; revert w; intro _) | apply keepsR_next | exact keepsR_fault
    | apply keepsR_ite | apply emit_keeps | apply keeps_ite | split
    | (rename_i hq; replace hq := congrArg Prod.snd hq; dsimp only at hq; rw [← hq]; clear hq)
    | (apply keeps_put; exact ⟨rfl, by simp, by simp, rfl, rfl, rfl, rfl, rfl, rfl, rfl, rfl, rfl⟩))

theorem execPldmDiscovery_keeps {zz : State} (req : Bytes) {s : State} (hz : Keeps zz s) :
    KeepsR zz (execPldmDiscovery req s) := by
  unfold execPldmDiscovery
  repeat (with_reducible first
    | assumption | apply keepsR_next | apply keepsR_ite | apply emit_keeps)

theorem execPldmPlatform_keeps {zz : State} (req : Bytes) (readsEvent : Bool) {s : State} (hz : Keeps zz s) :
    KeepsR zz (execPldmPlatform req readsEvent s) := by
  unfold execPldmPlatform
  repeat (with_reducible first
    | assumption | (intro _; exact ⟨rfl, rfl, rfl⟩) | (intro _; exact ⟨rfl, rfl, rfl, rfl⟩) | (intro _)
    | (extract_lets +onlyGivenNames w; refine keeps_cut zz w ?_ ?_; (unfold w; clear w); rotate_left; intro _; clear_value w; revert w; intro _ _)
    | (extract_lets +onlyGivenNames w; refine (fun (_ : MemSys) => ?_) w; revert w; intro _)
    | (extract_lets +onlyGivenNames w; refine (fun (_ : Ferry) => ?_) w; revert w; intro _)
    | (extract_lets +onlyGivenNames w; refine (fun (_ : Sec) => ?_) w; revert w; intro _)
    | (extract_lets +onlyGivenNames w; refine keeps_cut_snd zz w ?_ ?_; (unfold w; clear w); rotate_left; intro _; clear_value w; revert w; intro _ _)
    | (extract_lets +onlyGivenNames w; refine keeps_cut_fst zz w ?_ ?_; (unfold w; clear w); rotate_left; intro _; clear_value w; revert w; intro _ _)
    | (extract_lets +onlyGivenNames w; refine keeps_cut_thd zz w ?_ ?_; (unfold w; clear w); rotate_left; intro _; clear_value w; revert w; intro _ _)
    | (extract_lets +onlyGivenNames w; refine (fun (_ : _ → _) => ?_) w; unfold w; clear w)
    | (extract_lets +onlyGivenNames w; clear_value w; revert w; intro _) | apply keepsR_next | exact keepsR_fault
    | apply keepsR_ite | apply emit_keeps | apply keeps_ite | split
    | (rename_i hq; replace hq := congrArg Prod.snd hq; dsimp only at hq; rw [← hq]; clear hq)
    | (apply keeps_put; exact ⟨rfl, by simp, by simp, rfl, rfl, rfl, rfl, rfl, rfl, rfl, rfl, rfl⟩))

theorem updateState_keeps {zz : State} (c st : Nat) {s : State} (hz : Keeps zz s) :
    Keeps zz (updateState c st s) := by
  unfold updateState
  repeat (with_reducible first
    | assumption | (intro _; exact ⟨rfl, rfl, rfl⟩) | (intro _; exact ⟨rfl, rfl, rfl, rfl⟩) | (intro _)
    | apply postEvent_keeps | apply keeps_ite | split
    | (rename_i hq; replace hq := congrArg Prod.snd hq; dsimp only at hq; rw [← hq]; clear hq)
    | (apply keeps_put; exact ⟨rfl, by simp, by simp, rfl, rfl, rfl, rfl, rfl, rfl, rfl, rfl, rfl⟩))

theorem execPldmFirmwareUpdate_keeps {zz : State} (component : Nat) (verifyComplete : Bool) (data : Bytes) {s : State} (hz : Keeps zz s) :
    KeepsR zz (execPldmFirmwareUpdate component verifyComplete data s) := by
  unfold execPldmFirmwareUpdate
  repeat (with_reducible first
    | assumption | (intro _; exact ⟨rfl, rfl, rfl⟩) | (intro _; exact ⟨rfl, rfl, rfl, rfl⟩) | (intro _)
    | (extract_lets +onlyGivenNames w; refine keeps_cut zz w ?_ ?_; (unfold w; clear w); rotate_left; intro _; clear_value w; revert w; intro _ _)
    | (extract_lets +onlyGivenNames w; refine (fun (_ : MemSys) => ?_) w; revert w; intro _)
    | (extract_lets +onlyGivenNames w; refine (fun (_ : Ferry) => ?_) w; revert w; intro _)
    | (extract_lets +onlyGivenNames w; refine (fun (_ : Sec) => ?_) w; revert w; intro _)
    | (extract_lets +onlyGivenNames w; refine keeps_cut_snd zz w ?_ ?_; (unfold w; clear w); rotate_left; intro _; clear_value w; revert w; intro _ _)
    | (extract_lets +onlyGivenNames w; refine keeps_cut_fst zz w ?_ ?_; (unfold w; clear w); rotate_left; intro _; clear_value w; revert w; intro _ _)
    | (extract_lets +onlyGivenNames w; refine keeps_cut_thd zz w ?_ ?_; (unfold w; clear w); rotate_left; intro _; clear_value w; revert w; intro _ _)
    | (extract_lets +onlyGivenNames w; refine (fun (_ : _ → _) => ?_) w; unfold w; clear w)
    | (extract_lets +onlyGivenNames w; clear_value w; revert w; intro _) | apply keepsR_next | exact keepsR_fault
    | apply keepsR_ite | apply updateState_keeps | apply emit_keeps | apply keeps_ite | split
    | (rename_i hq; replace hq := congrArg Prod.snd hq; dsimp only at hq; rw [← hq]; clear hq)
    | (apply keeps_put; exact ⟨rfl, by simp, by simp, rfl, rfl, rfl, rfl, rfl, rfl, rfl, rfl, rfl⟩))

theorem execFwActivate_keeps {zz : State} (component : Nat) {s : State} (hz : Keeps zz s) :
    KeepsR zz (execFwActivate component s) := by
  unfold execFwActivate
  repeat (with_reducible first
    | assumption | (intro _; exact ⟨rfl, rfl, rfl⟩) | (intro _; exact ⟨rfl, rfl, rfl, rfl⟩) | (intro _)
    | (extract_lets +onlyGivenNames w; refine keeps_cut zz w ?_ ?_; (unfold w; clear w); rotate_left; intro _; clear_value w; revert w; intro _ _)
    | (extract_lets +onlyGivenNames w; refine (fun (_ : MemSys) => ?_) w; revert w; intro _)
    | (extract_lets +onlyGivenNames w; refine (fun (_ : Ferry) => ?_) w; revert w; intro _)
    | (extract_lets +onlyGivenNames w; refine (fun (_ : Sec) => ?_) w; revert w; intro _)
    | (extract_lets +onlyGivenNames w; refine keeps_cut_snd zz w ?_ ?_; (unfold w; clear w); rotate_left; intro _; clear_value w; revert w; intro _ _)
    | (extract_lets +onlyGivenNames w; refine keeps_cut_fst zz w ?_ ?_; (unfold w; clear w); rotate_left; intro _; clear_value w; revert w; intro _ _)
    | (extract_lets +onlyGivenNames w; refine keeps_cut_thd zz w ?_ ?_; (unfold w; clear w); rotate_left; intro _; clear_value w; revert w; intro _ _)
    | (extract_lets +onlyGivenNames w; refine (fun (_ : _ → _) => ?_) w; unfold w; clear w)
    | (extract_lets +onlyGivenNames w; clear_value w; revert w; intro _) | apply keepsR_next | exact keepsR_fault
    | apply keepsR_ite | apply updateState_keeps | apply verifyStage_keeps | apply commitSvn_keeps | apply keeps_ite
    | split | (rename_i hq; replace hq := congrArg Prod.snd hq; dsimp only at hq; rw [← hq]; clear hq)
    | (apply keeps_put; exact ⟨rfl, by simp, by simp, rfl, rfl, rfl, rfl, rfl, rfl, rfl, rfl, rfl⟩))

theorem execPtpSync_keeps {zz : State} (dt : Nat) (t1 t2 : DWord) {s : State} (hz : Keeps zz s) :
    KeepsR zz (execPtpSync dt t1 t2 s) := by
  unfold execPtpSync
  repeat (with_reducible first
    | assumption | (intro _; exact ⟨rfl, rfl, rfl⟩) | (intro _; exact ⟨rfl, rfl, rfl, rfl⟩) | (intro _)
    | (extract_lets +onlyGivenNames w; refine keeps_cut zz w ?_ ?_; (unfold w; clear w); rotate_left; intro _; clear_value w; revert w; intro _ _)
    | (extract_lets +onlyGivenNames w; refine (fun (_ : MemSys) => ?_) w; revert w; intro _)
    | (extract_lets +onlyGivenNames w; refine (fun (_ : Ferry) => ?_) w; revert w; intro _)
    | (extract_lets +onlyGivenNames w; refine (fun (_ : Sec) => ?_) w; revert w; intro _)
    | (extract_lets +onlyGivenNames w; refine keeps_cut_snd zz w ?_ ?_; (unfold w; clear w); rotate_left; intro _; clear_value w; revert w; intro _ _)
    | (extract_lets +onlyGivenNames w; refine keeps_cut_fst zz w ?_ ?_; (unfold w; clear w); rotate_left; intro _; clear_value w; revert w; intro _ _)
    | (extract_lets +onlyGivenNames w; refine keeps_cut_thd zz w ?_ ?_; (unfold w; clear w); rotate_left; intro _; clear_value w; revert w; intro _ _)
    | (extract_lets +onlyGivenNames w; refine (fun (_ : _ → _) => ?_) w; unfold w; clear w)
    | (extract_lets +onlyGivenNames w; clear_value w; revert w; intro _) | apply keepsR_next | exact keepsR_fault
    | apply keepsR_ite | apply pass_keeps | apply timeRecord_keeps | apply correctTime_keeps | apply keeps_ite | split
    | (rename_i hq; replace hq := congrArg Prod.snd hq; dsimp only at hq; rw [← hq]; clear hq)
    | (apply keeps_put; exact ⟨rfl, by simp, by simp, rfl, rfl, rfl, rfl, rfl, rfl, rfl, rfl, rfl⟩))

theorem execPtpDelayResp_keeps {zz : State} (t3 t4 : DWord) {s : State} (hz : Keeps zz s) :
    KeepsR zz (execPtpDelayResp t3 t4 s) := by
  unfold execPtpDelayResp
  repeat (with_reducible first
    | assumption | (intro _; exact ⟨rfl, rfl, rfl⟩) | (intro _; exact ⟨rfl, rfl, rfl, rfl⟩) | (intro _)
    | (extract_lets +onlyGivenNames w; refine keeps_cut zz w ?_ ?_; (unfold w; clear w); rotate_left; intro _; clear_value w; revert w; intro _ _)
    | (extract_lets +onlyGivenNames w; refine (fun (_ : MemSys) => ?_) w; revert w; intro _)
    | (extract_lets +onlyGivenNames w; refine (fun (_ : Ferry) => ?_) w; revert w; intro _)
    | (extract_lets +onlyGivenNames w; refine (fun (_ : Sec) => ?_) w; revert w; intro _)
    | (extract_lets +onlyGivenNames w; refine keeps_cut_snd zz w ?_ ?_; (unfold w; clear w); rotate_left; intro _; clear_value w; revert w; intro _ _)
    | (extract_lets +onlyGivenNames w; refine keeps_cut_fst zz w ?_ ?_; (unfold w; clear w); rotate_left; intro _; clear_value w; revert w; intro _ _)
    | (extract_lets +onlyGivenNames w; refine keeps_cut_thd zz w ?_ ?_; (unfold w; clear w); rotate_left; intro _; clear_value w; revert w; intro _ _)
    | (extract_lets +onlyGivenNames w; refine (fun (_ : _ → _) => ?_) w; unfold w; clear w)
    | (extract_lets +onlyGivenNames w; clear_value w; revert w; intro _) | apply keepsR_next | exact keepsR_fault
    | apply keepsR_ite | apply keeps_ite | split
    | (rename_i hq; replace hq := congrArg Prod.snd hq; dsimp only at hq; rw [← hq]; clear hq)
    | (apply keeps_put; exact ⟨rfl, by simp, by simp, rfl, rfl, rfl, rfl, rfl, rfl, rfl, rfl, rfl⟩))

theorem execPtpLost_keeps {zz : State} (dt : Nat) {s : State} (hz : Keeps zz s) :
    KeepsR zz (execPtpLost dt s) := by
  unfold execPtpLost
  repeat (with_reducible first
    | assumption | (intro _; exact ⟨rfl, rfl, rfl⟩) | (intro _; exact ⟨rfl, rfl, rfl, rfl⟩) | (intro _)
    | (extract_lets +onlyGivenNames w; refine keeps_cut zz w ?_ ?_; (unfold w; clear w); rotate_left; intro _; clear_value w; revert w; intro _ _)
    | (extract_lets +onlyGivenNames w; refine (fun (_ : MemSys) => ?_) w; revert w; intro _)
    | (extract_lets +onlyGivenNames w; refine (fun (_ : Ferry) => ?_) w; revert w; intro _)
    | (extract_lets +onlyGivenNames w; refine (fun (_ : Sec) => ?_) w; revert w; intro _)
    | (extract_lets +onlyGivenNames w; refine keeps_cut_snd zz w ?_ ?_; (unfold w; clear w); rotate_left; intro _; clear_value w; revert w; intro _ _)
    | (extract_lets +onlyGivenNames w; refine keeps_cut_fst zz w ?_ ?_; (unfold w; clear w); rotate_left; intro _; clear_value w; revert w; intro _ _)
    | (extract_lets +onlyGivenNames w; refine keeps_cut_thd zz w ?_ ?_; (unfold w; clear w); rotate_left; intro _; clear_value w; revert w; intro _ _)
    | (extract_lets +onlyGivenNames w; refine (fun (_ : _ → _) => ?_) w; unfold w; clear w)
    | (extract_lets +onlyGivenNames w; clear_value w; revert w; intro _) | apply keepsR_next | exact keepsR_fault
    | apply keepsR_ite | apply pass_keeps | apply timeRecord_keeps | apply fmnEvent_keeps | apply keeps_ite | split
    | (rename_i hq; replace hq := congrArg Prod.snd hq; dsimp only at hq; rw [← hq]; clear hq)
    | (apply keeps_put; exact ⟨rfl, by simp, by simp, rfl, rfl, rfl, rfl, rfl, rfl, rfl, rfl, rfl⟩))

theorem fuseRecord_keeps {zz : State} (cls result : Nat) {s : State} (hz : Keeps zz s) :
    Keeps zz (fuseRecord cls result s) := by
  unfold fuseRecord
  repeat (with_reducible first
    | assumption | apply postEvent_keeps)

theorem execFuseWrite_keeps {zz : State} (dt : Nat) {s : State} (hz : Keeps zz s) :
    KeepsR zz (execFuseWrite dt s) := by
  unfold execFuseWrite
  repeat (with_reducible first
    | assumption | (intro _; exact ⟨rfl, rfl, rfl⟩) | (intro _; exact ⟨rfl, rfl, rfl, rfl⟩) | (intro _)
    | (extract_lets +onlyGivenNames w; refine keeps_cut zz w ?_ ?_; (unfold w; clear w); rotate_left; intro _; clear_value w; revert w; intro _ _)
    | (extract_lets +onlyGivenNames w; refine (fun (_ : MemSys) => ?_) w; revert w; intro _)
    | (extract_lets +onlyGivenNames w; refine (fun (_ : Ferry) => ?_) w; revert w; intro _)
    | (extract_lets +onlyGivenNames w; refine (fun (_ : Sec) => ?_) w; revert w; intro _)
    | (extract_lets +onlyGivenNames w; refine keeps_cut_snd zz w ?_ ?_; (unfold w; clear w); rotate_left; intro _; clear_value w; revert w; intro _ _)
    | (extract_lets +onlyGivenNames w; refine keeps_cut_fst zz w ?_ ?_; (unfold w; clear w); rotate_left; intro _; clear_value w; revert w; intro _ _)
    | (extract_lets +onlyGivenNames w; refine keeps_cut_thd zz w ?_ ?_; (unfold w; clear w); rotate_left; intro _; clear_value w; revert w; intro _ _)
    | (extract_lets +onlyGivenNames w; refine (fun (_ : _ → _) => ?_) w; unfold w; clear w)
    | (extract_lets +onlyGivenNames w; clear_value w; revert w; intro _) | apply keepsR_next | exact keepsR_fault
    | apply keepsR_ite | apply pass_keeps | apply fuseRecord_keeps | apply fmnEvent_keeps | apply keeps_ite | split
    | (rename_i hq; replace hq := congrArg Prod.snd hq; dsimp only at hq; rw [← hq]; clear hq)
    | (apply keeps_put; exact ⟨rfl, by simp, by simp, rfl, rfl, rfl, rfl, rfl, rfl, rfl, rfl, rfl⟩))

/-- A fuse write that has held moves one counter up, revokes one key or appends one repair record, and nothing else of what
`Keeps` looks at. -/
theorem fuseBlown_forward (r : Repair) (s : State) :
    (fuseBlown r s).pending = s.pending ∧ Forward s (fuseBlown r s) ∧ (Sound s → Sound (fuseBlown r s)) := by
  unfold fuseBlown
  split
  · refine ⟨rfl, ⟨List.suffix_refl _, Nat.le_refl _, fun c => ?_, by simp, List.prefix_refl _, rfl, rfl⟩,
      fun i => ⟨i.memory, i.store, i.limitLow, i.limitHigh⟩⟩
    show _ ≤ Tbl.get 0 (Tbl.upd 0 s.sec.svn r.what fun n => n + 1) c
    rw [Tbl.get_upd]
    split
    · rename_i h; subst h; exact Nat.le_succ _
    · exact Nat.le_refl _
  · split
    · exact ⟨rfl, ⟨List.suffix_refl _, Nat.le_refl _, fun _ => Nat.le_refl _, by simp [← BitVec.or_assoc], List.prefix_refl _,
        rfl, rfl⟩, fun i => ⟨i.memory, i.store, i.limitLow, i.limitHigh⟩⟩
    · exact ⟨rfl, ⟨List.suffix_refl _, Nat.le_refl _, fun _ => Nat.le_refl _, by simp, List.prefix_append _ _, rfl, rfl⟩,
        fun i => ⟨i.memory, i.store, i.limitLow, i.limitHigh⟩⟩

/-- FUSE_WRITE_DONE is the one command that moves what is fused, and it moves it forward. -/
theorem execFuseWriteDone_forward (dt : Nat) (readBack : Bool) (s t : State) (h : execFuseWriteDone dt readBack s = .next t) :
    t.pending = s.pending ∧ Forward s t ∧ (Sound s → Sound t) := by
  have same : ∀ u, Keeps s u → u.pending = s.pending ∧ Forward s u ∧ (Sound s → Sound u) :=
    fun u k => ⟨k.queue, k.forward, k.sound⟩
  have hp : Keeps s (pass dt s) := pass_keeps dt (Keeps.refl s)
  have put : ∀ f : Option (Repair × Bool), ∀ n, Keeps s { pass dt s with fer := { (pass dt s).fer with fuseNow := f, fuseAt := n } } :=
    fun f n => hp.trans (SameCore.keeps ⟨rfl, List.suffix_refl _, Nat.le_refl _, rfl, rfl, rfl, rfl, rfl, rfl, rfl, rfl, rfl⟩)
  cases hf : s.fer.fuseNow with
  | none => simp only [execFuseWriteDone, hf] at h; cases h; exact same _ (Keeps.refl s)
  | some p =>
    obtain ⟨r, again⟩ := p
    by_cases hc : s.fer.fuseAt + 2000000 ≤ (pass dt s).clock
    · cases readBack with
      | true =>
        simp only [execFuseWriteDone, hf, hc, if_true] at h
        cases h
        have k := put none (pass dt s).fer.fuseAt
        have b := fuseBlown_forward r { pass dt s with fer := { (pass dt s).fer with fuseNow := none } }
        have m := fuseRecord_keeps r.cls 0 (Keeps.refl (fuseBlown r { pass dt s with fer := { (pass dt s).fer with fuseNow := none } }))
        exact ⟨m.queue.trans (b.1.trans k.queue), (k.forward.trans b.2.1).trans m.forward, m.sound ∘ b.2.2 ∘ k.sound⟩
      | false =>
        cases again with
        | true =>
          simp only [execFuseWriteDone, hf, hc, if_true, Bool.false_eq_true, if_false] at h
          cases h; exact same _ (fuseRecord_keeps _ _ (put none (pass dt s).fer.fuseAt))
        | false =>
          simp only [execFuseWriteDone, hf, hc, if_true, Bool.false_eq_true, if_false] at h
          cases h; exact same _ (put _ _)
    · simp only [execFuseWriteDone, hf, hc, if_false] at h
      cases h; exact same _ (Keeps.refl s)

end Sys2Proof.Machine
end

