-- ==== Sys2Proof/Laws/KeepsSecurity.lean ====
section
/-!
SUPPORT. What the operations of Machine/Security.lean keep (Laws/Keeps.lean).
-/
set_option linter.all false
namespace Sys2Proof.Machine

theorem updSec_keeps {zz : State} (f : Sec → Sec) {s : State}
    (hf : ∀ x, (f x).svn = x.svn ∧ (f x).revoked = x.revoked ∧ (f x).keyHashes = x.keyHashes ∧
      (f x).debugDisable = x.debugDisable) (hz : Keeps zz s) :
    Keeps zz (updSec f s) :=
  hz.trans (SameCore.keeps ⟨rfl, List.suffix_refl _, Nat.le_refl _, rfl, rfl, rfl, rfl, rfl, (hf _).1, (hf _).2.1, (hf _).2.2.1, (hf _).2.2.2⟩)

theorem doeSend_keeps {zz : State} (fn : Nat) (msg : Bytes) {s : State} (hz : Keeps zz s) :
    Keeps zz (doeSend fn msg s) := by
  unfold doeSend
  repeat (with_reducible first
    | assumption | (intro _; exact ⟨rfl, rfl, rfl, rfl⟩) | apply emit_keeps | apply updSec_keeps)

theorem respond_keeps {zz : State} (fn : Nat) (msg : Bytes) {s : State} (hz : Keeps zz s) :
    Keeps zz (respond fn msg s) := by
  unfold respond
  repeat (with_reducible first
    | assumption | (intro _; exact ⟨rfl, rfl, rfl, rfl⟩) | apply updSec_keeps | apply doeSend_keeps | apply keeps_ite)

theorem respondSigned_keeps {zz : State} (fn slot : Nat) (msg : Bytes) {s : State} (hz : Keeps zz s) :
    Keeps zz (respondSigned fn slot msg s) := by
  unfold respondSigned
  repeat (with_reducible first
    | assumption | (intro _; exact ⟨rfl, rfl, rfl, rfl⟩) | apply updSec_keeps)

theorem spdmError_keeps {zz : State} (fn : Nat) {s : State} (hz : Keeps zz s) :
    Keeps zz (spdmError fn s) := by
  unfold spdmError
  repeat (with_reducible first
    | assumption | apply respond_keeps)

theorem spdmAnswer_keeps {zz : State} (fn need : Nat) (answer : State → State) {s : State} (h_answer : ∀ (v0 : State), Keeps zz v0 → Keeps zz (answer v0)) (hz : Keeps zz s) :
    KeepsR zz (spdmAnswer fn need answer s) := by
  unfold spdmAnswer
  repeat (with_reducible first
    | assumption | apply keepsR_next | apply keepsR_ite | apply h_answer | apply spdmError_keeps | apply keeps_ite)

theorem execGetVersion_keeps {zz : State} (fn : Nat) (req : Bytes) {s : State} (hz : Keeps zz s) :
    KeepsR zz (execGetVersion fn req s) := by
  unfold execGetVersion
  repeat (with_reducible first
    | assumption | (intro _; exact ⟨rfl, rfl, rfl, rfl⟩) | (intro _) | apply spdmAnswer_keeps | apply respond_keeps
    | apply updSec_keeps)

theorem execGetCapabilities_keeps {zz : State} (fn : Nat) (req : Bytes) {s : State} (hz : Keeps zz s) :
    KeepsR zz (execGetCapabilities fn req s) := by
  unfold execGetCapabilities
  repeat (with_reducible first
    | assumption | (intro _; exact ⟨rfl, rfl, rfl, rfl⟩) | (intro _) | apply spdmAnswer_keeps | apply respond_keeps
    | apply updSec_keeps)

theorem execNegotiateAlgorithms_keeps {zz : State} (fn : Nat) (req : Bytes) {s : State} (hz : Keeps zz s) :
    KeepsR zz (execNegotiateAlgorithms fn req s) := by
  unfold execNegotiateAlgorithms
  repeat (with_reducible first
    | assumption | (intro _; exact ⟨rfl, rfl, rfl, rfl⟩) | (intro _) | apply spdmAnswer_keeps | apply respond_keeps
    | apply updSec_keeps)

theorem execGetDigests_keeps {zz : State} (fn : Nat) (req : Bytes) {s : State} (hz : Keeps zz s) :
    KeepsR zz (execGetDigests fn req s) := by
  unfold execGetDigests
  repeat (with_reducible first
    | assumption | (intro _) | apply spdmAnswer_keeps | apply respond_keeps)

theorem execGetCertificate_keeps {zz : State} (fn slot off len : Nat) {s : State} (hz : Keeps zz s) :
    KeepsR zz (execGetCertificate fn slot off len s) := by
  unfold execGetCertificate
  repeat (with_reducible first
    | assumption | (intro _) | apply spdmAnswer_keeps | apply spdmError_keeps | apply respond_keeps | apply keeps_ite)

theorem execChallenge_keeps {zz : State} (fn slot : Nat) (req : Bytes) {s : State} (hz : Keeps zz s) :
    KeepsR zz (execChallenge fn slot req s) := by
  unfold execChallenge
  repeat (with_reducible first
    | assumption | (intro _) | apply spdmAnswer_keeps | apply spdmError_keeps | apply respondSigned_keeps
    | apply keeps_ite)

theorem execGetMeasurements_keeps {zz : State} (fn index : Nat) (req : Bytes) {s : State} (hz : Keeps zz s) :
    KeepsR zz (execGetMeasurements fn index req s) := by
  unfold execGetMeasurements
  repeat (with_reducible first
    | assumption | (intro _) | apply spdmAnswer_keeps | apply spdmError_keeps | apply respondSigned_keeps
    | apply keeps_ite)

theorem execKeyExchange_keeps {zz : State} (fn : Nat) (req : Bytes) {s : State} (hz : Keeps zz s) :
    KeepsR zz (execKeyExchange fn req s) := by
  unfold execKeyExchange
  repeat (with_reducible first
    | assumption | (intro _; exact ⟨rfl, rfl, rfl, rfl⟩) | (intro _) | apply spdmAnswer_keeps | apply spdmError_keeps
    | apply respondSigned_keeps | apply updSec_keeps | apply keeps_ite)

theorem updSession_keeps {zz : State} (fn n : Nat) (f : Session → Session) {s : State} (hz : Keeps zz s) :
    Keeps zz (updSession fn n f s) := by
  unfold updSession
  repeat (with_reducible first
    | assumption | (intro _; exact ⟨rfl, rfl, rfl, rfl⟩) | apply updSec_keeps)

theorem respondSealed_keeps {zz : State} (x : Session) (msg : Bytes) {s : State} (hz : Keeps zz s) :
    Keeps zz (respondSealed x msg s) := by
  unfold respondSealed
  repeat (with_reducible first
    | assumption | apply respond_keeps | apply updSession_keeps)

theorem inSession_keeps {zz : State} (fn n : Nat) (opened : Bool) (answer : Session → State → State) {s : State} (h_answer : ∀ (v0 : Session) (v1 : State), Keeps zz v1 → Keeps zz (answer v0 v1)) (hz : Keeps zz s) :
    KeepsR zz (inSession fn n opened answer s) := by
  unfold inSession
  repeat (with_reducible first
    | assumption | apply keepsR_next | apply h_answer | apply spdmError_keeps | split)

theorem execFinish_keeps {zz : State} (fn session : Nat) (req : Bytes) {s : State} (hz : Keeps zz s) :
    KeepsR zz (execFinish fn session req s) := by
  unfold execFinish
  repeat (with_reducible first
    | assumption | (intro _) | apply inSession_keeps | apply respondSealed_keeps | apply updSession_keeps)

theorem execEndSession_keeps {zz : State} (fn session : Nat) {s : State} (hz : Keeps zz s) :
    KeepsR zz (execEndSession fn session s) := by
  unfold execEndSession
  repeat (with_reducible first
    | assumption | (intro _; exact ⟨rfl, rfl, rfl, rfl⟩) | (intro _) | apply inSession_keeps | apply updSec_keeps
    | apply respondSealed_keeps)

theorem execKeyUpdate_keeps {zz : State} (fn session : Nat) (req : Bytes) {s : State} (hz : Keeps zz s) :
    KeepsR zz (execKeyUpdate fn session req s) := by
  unfold execKeyUpdate
  repeat (with_reducible first
    | assumption | (intro _) | apply inSession_keeps | apply updSession_keeps | apply respondSealed_keeps)

theorem execHeartbeat_keeps {zz : State} (fn session : Nat) {s : State} (hz : Keeps zz s) :
    KeepsR zz (execHeartbeat fn session s) := by
  unfold execHeartbeat
  repeat (with_reducible first
    | assumption | (intro _) | apply inSession_keeps | apply respondSealed_keeps)

theorem execChunkSend_keeps {zz : State} (fn seq : Nat) (last : Bool) (data : Bytes) {s : State} (hz : Keeps zz s) :
    KeepsR zz (execChunkSend fn seq last data s) := by
  unfold execChunkSend
  repeat (with_reducible first
    | assumption | (intro _; exact ⟨rfl, rfl, rfl, rfl⟩) | (intro _) | apply spdmAnswer_keeps | apply spdmError_keeps
    | apply respond_keeps | apply updSec_keeps | apply keeps_ite)

theorem execChunkGet_keeps {zz : State} (fn seq : Nat) {s : State} (hz : Keeps zz s) :
    KeepsR zz (execChunkGet fn seq s) := by
  unfold execChunkGet
  repeat (with_reducible first
    | assumption | (intro _) | apply spdmAnswer_keeps | apply respond_keeps)

theorem releaseWaiting_keeps {zz : State} (y0 : List SignReq) (y1 : List Nat) {y2 : State} (hz : Keeps zz y2) :
    Keeps zz (releaseWaiting y0 y1 y2).2 := by
  induction y0 generalizing y1 y2 with
  | nil => exact hz
  | cons q l ih =>
    unfold releaseWaiting
    repeat (with_reducible first
      | assumption | apply ih | apply doeSend_keeps | split)

theorem execSpdmSignatureDone_keeps {zz : State} (dt : Nat) {s : State} (hz : Keeps zz s) :
    KeepsR zz (execSpdmSignatureDone dt s) := by
  unfold execSpdmSignatureDone
  repeat (with_reducible first
    | assumption | (intro _; exact ⟨rfl, rfl, rfl, rfl⟩) | apply keepsR_next | apply doeSend_keeps | apply pass_keeps
    | apply releaseWaiting_keeps | apply updSec_keeps | split)

theorem ideError_keeps {zz : State} (x : Session) {s : State} (hz : Keeps zz s) :
    Keeps zz (ideError x s) := by
  unfold ideError
  repeat (with_reducible first
    | assumption | apply respondSealed_keeps)

theorem execKeyProg_keeps {zz : State} (fn session stream : Nat) (key : Bytes) {s : State} (hz : Keeps zz s) :
    KeepsR zz (execKeyProg fn session stream key s) := by
  unfold execKeyProg
  repeat (with_reducible first
    | assumption | (intro _; exact ⟨rfl, rfl, rfl, rfl⟩) | (intro _) | apply inSession_keeps | apply ideError_keeps
    | apply respondSealed_keeps | apply updSec_keeps | split)

theorem sendPending_keeps {zz : State} (fn : Nat) {s : State} (hz : Keeps zz s) :
    Keeps zz (sendPending fn s) := by
  unfold sendPending
  repeat (with_reducible first
    | assumption | (intro _; exact ⟨rfl, rfl, rfl⟩) | (intro _; exact ⟨rfl, rfl, rfl, rfl⟩) | (intro _)
    | (extract_lets +onlyGivenNames w; refine keeps_cut zz w ?_ ?_; (unfold w; clear w); rotate_left; intro _; clear_value w; revert w; intro _ _)
    | (extract_lets +onlyGivenNames w; refine (fun (_ : MemSys) => ?_) w; revert w; intro _)
    | (extract_lets +onlyGivenNames w; refine (fun (_ : Ferry) => ?_) w; revert w; intro _)
    | (extract_lets +onlyGivenNames w; refine (fun (_ : Sec) => ?_) w; revert w; intro _)
    | (extract_lets +onlyGivenNames w; refine keeps_cut_snd zz w ?_ ?_; (unfold w; clear w); rotate_left; intro _; clear_value w; revert w; intro _ _)
    | (extract_lets +onlyGivenNames w; refine keeps_cut_fst zz w ?_ ?_; (unfold w; clear w); rotate_left; intro _; clear_value w; revert w; intro _ _)
    | (extract_lets +onlyGivenNames w; refine keeps_cut_thd zz w ?_ ?_; (unfold w; clear w); rotate_left; intro _; clear_value w; revert w; intro _ _)
    | (extract_lets +onlyGivenNames w; refine (fun (_ : _ → _) => ?_) w; unfold w; clear w)
    | (extract_lets +onlyGivenNames w; clear_value w; revert w; intro _) | apply signalVector_keeps | apply keeps_ite
    | (apply keeps_foldl; intro _ _ _) | (apply keeps_foldl_snd; intro _ _ _) | (apply keeps_foldl_fst; intro _ _ _)
    | split | (rename_i hq; replace hq := congrArg Prod.snd hq; dsimp only at hq; rw [← hq]; clear hq)
    | (apply keeps_put; exact ⟨rfl, by simp, by simp, rfl, rfl, rfl, rfl, rfl, rfl, rfl, rfl, rfl⟩))

theorem execKSetGo_keeps {zz : State} (fn session stream : Nat) {s : State} (hz : Keeps zz s) :
    KeepsR zz (execKSetGo fn session stream s) := by
  unfold execKSetGo
  repeat (with_reducible first
    | assumption | (intro _; exact ⟨rfl, rfl, rfl, rfl⟩) | (intro _) | apply inSession_keeps | apply sendPending_keeps
    | apply respondSealed_keeps | apply updSec_keeps | apply ideError_keeps | apply keeps_ite)

theorem execKSetStop_keeps {zz : State} (fn session stream : Nat) {s : State} (hz : Keeps zz s) :
    KeepsR zz (execKSetStop fn session stream s) := by
  unfold execKSetStop
  repeat (with_reducible first
    | assumption | (intro _; exact ⟨rfl, rfl, rfl, rfl⟩) | (intro _) | apply inSession_keeps
    | apply respondSealed_keeps | apply updSec_keeps | apply ideError_keeps | apply keeps_ite)

theorem newNonce_keeps {zz : State} {s : State} (hz : Keeps zz s) :
    Keeps zz (newNonce s) := by
  unfold newNonce
  repeat (with_reducible first
    | assumption | (intro _; exact ⟨rfl, rfl, rfl, rfl⟩) | apply drawBits_keeps | apply updSec_keeps)

theorem dbgArmed_keeps {zz : State} {s : State} (hz : Keeps zz s) :
    Keeps zz (dbgArmed s) := by
  unfold dbgArmed
  repeat (with_reducible first
    | assumption | apply newNonce_keeps)

theorem dbgGone_keeps {zz : State} {s : State} (hz : Keeps zz s) :
    Keeps zz (dbgGone s) := by
  unfold dbgGone
  repeat (with_reducible first
    | assumption | (intro _; exact ⟨rfl, rfl, rfl, rfl⟩) | apply updSec_keeps | apply coldReset_keeps
    | apply newNonce_keeps | apply keeps_ite)

theorem execDbgArm_keeps {zz : State} (fn : Nat) {s : State} (hz : Keeps zz s) :
    KeepsR zz (execDbgArm fn s) := by
  unfold execDbgArm
  repeat (with_reducible first
    | assumption | (intro _; exact ⟨rfl, rfl, rfl⟩) | (intro _; exact ⟨rfl, rfl, rfl, rfl⟩) | (intro _)
    | apply keepsR_next | exact keepsR_fault | apply keepsR_ite | apply hostPost_keeps | apply dbgArmed_keeps
    | apply keeps_ite | split
    | (rename_i hq; replace hq := congrArg Prod.snd hq; dsimp only at hq; rw [← hq]; clear hq))

theorem execDbgGo_keeps {zz : State} (fn : Nat) {s : State} (hz : Keeps zz s) :
    KeepsR zz (execDbgGo fn s) := by
  unfold execDbgGo
  repeat (with_reducible first
    | assumption | (intro _; exact ⟨rfl, rfl, rfl⟩) | (intro _; exact ⟨rfl, rfl, rfl, rfl⟩) | (intro _)
    | apply keepsR_next | exact keepsR_fault | apply keepsR_ite | apply hostPost_keeps | apply dbgGone_keeps
    | apply keeps_ite | split
    | (rename_i hq; replace hq := congrArg Prod.snd hq; dsimp only at hq; rw [← hq]; clear hq))

end Sys2Proof.Machine
end

