-- ==== Sys2Proof/Laws/KeepsRegisters.lean ====
section
/-!
SUPPORT. What the operations of Machine/Registers.lean keep (Laws/Keeps.lean).
-/
set_option linter.all false
namespace Sys2Proof.Machine

theorem readWord_keeps {zz : State} (fn off : Nat) {s : State} (hz : Keeps zz s) :
    Keeps zz (readWord fn off s).2 := by
  unfold readWord
  repeat (with_reducible first
    | assumption | (intro _; exact ⟨rfl, rfl, rfl⟩) | (intro _; exact ⟨rfl, rfl, rfl, rfl⟩) | (intro _)
    | (extract_lets +onlyGivenNames w; refine keeps_cut zz w ?_ ?_; (unfold w; clear w); rotate_left; intro _; clear_value w; revert w; intro _ _)
    | (extract_lets +onlyGivenNames w; refine (fun (_ : MemSys) => ?_) w; revert w; intro _)
    | (extract_lets +onlyGivenNames w; refine (fun (_ : Ferry) => ?_) w; revert w; intro _)
    | (extract_lets +onlyGivenNames w; refine (fun (_ : Sec) => ?_) w; revert w; intro _)
    | (extract_lets +onlyGivenNames w; refine keeps_cut_snd zz w ?_ ?_; (unfold w; clear w); rotate_left; intro _; clear_value w; revert w; intro _ _)
    | (extract_lets +onlyGivenNames w; refine keeps_cut_fst zz w ?_ ?_; (unfold w; clear w); rotate_left; intro _; clear_value w; revert w; intro _ _)
    | (extract_lets +onlyGivenNames w; refine keeps_cut_thd zz w ?_ ?_; (unfold w; clear w); rotate_left; intro _; clear_value w; revert w; intro _ _)
    | (extract_lets +onlyGivenNames w; refine (fun (_ : _ → _) => ?_) w; unfold w; clear w)
    | (extract_lets +onlyGivenNames w; clear_value w; revert w; intro _) | apply keeps_ite | split
    | (rename_i hq; replace hq := congrArg Prod.snd hq; dsimp only at hq; rw [← hq]; clear hq)
    | (apply keeps_put; exact ⟨rfl, by simp, by simp, rfl, rfl, rfl, rfl, rfl, rfl, rfl, rfl, rfl⟩))

theorem execLatchedRead_keeps {zz : State} (fn : Nat) (read : RegRead) {s : State} (hz : Keeps zz s) :
    KeepsR zz (execLatchedRead fn read s) := by
  unfold execLatchedRead
  repeat (with_reducible first
    | assumption | apply keepsR_next | apply keepsR_ite | apply barAccess_keeps | apply readWord_keeps
    | apply emit_keeps)

theorem execBar0UnsupportedAccess_keeps {zz : State} (fn off width : Nat) (_write : Bool) {s : State} (hz : Keeps zz s) :
    KeepsR zz (execBar0UnsupportedAccess fn off width _write s) := by
  unfold execBar0UnsupportedAccess
  repeat (with_reducible first
    | assumption | apply keepsR_next | apply keepsR_ite | apply emit_keeps | apply barAccess_keeps)

theorem putMask_keeps {zz : State} (k : Nat) (mask v : Word) {s : State} (hz : Keeps zz s) :
    Keeps zz (putMask k mask v s) := by
  unfold putMask
  repeat (with_reducible first
    | assumption | apply setReg_keeps)

theorem clearMask_keeps {zz : State} (k : Nat) (mask v : Word) {s : State} (hz : Keeps zz s) :
    Keeps zz (clearMask k mask v s) := by
  unfold clearMask
  repeat (with_reducible first
    | assumption | apply setReg_keeps)

theorem ringCtlWrite_keeps {zz : State} (r v : Nat) {s : State} (hz : Keeps zz s) :
    Keeps zz (ringCtlWrite r v s) := by
  unfold ringCtlWrite
  repeat (with_reducible first
    | assumption | apply updRing_keeps | apply ringOn_keeps | apply ringOff_keeps | apply keeps_ite)

theorem writeRing_keeps {zz : State} (fn r off v : Nat) {s : State} (hz : Keeps zz s) :
    Keeps zz (writeRing fn r off v s) := by
  unfold writeRing
  repeat (with_reducible first
    | assumption | apply updRing_keeps | apply ringCtlWrite_keeps | split)

theorem writeMsix_keeps {zz : State} (fn i v : Nat) {s : State} (hz : Keeps zz s) :
    Keeps zz (writeMsix fn i v s) := by
  unfold writeMsix
  repeat (with_reducible first
    | assumption | (intro _; exact ⟨rfl, rfl, rfl⟩) | (intro _; exact ⟨rfl, rfl, rfl, rfl⟩) | (intro _)
    | (extract_lets +onlyGivenNames w; refine keeps_cut zz w ?_ ?_; (unfold w; clear w); rotate_left; intro _; clear_value w; revert w; intro _ _)
    | (extract_lets +onlyGivenNames w; refine (fun (_ : MemSys) => ?_) w; revert w; intro _)
    | (extract_lets +onlyGivenNames w; refine (fun (_ : Ferry) => ?_) w; revert w; intro _)
    | (extract_lets +onlyGivenNames w; refine (fun (_ : Sec) => ?_) w; revert w; intro _)
    | (extract_lets +onlyGivenNames w; refine keeps_cut_snd zz w ?_ ?_; (unfold w; clear w); rotate_left; intro _; clear_value w; revert w; intro _ _)
    | (extract_lets +onlyGivenNames w; refine keeps_cut_fst zz w ?_ ?_; (unfold w; clear w); rotate_left; intro _; clear_value w; revert w; intro _ _)
    | (extract_lets +onlyGivenNames w; refine keeps_cut_thd zz w ?_ ?_; (unfold w; clear w); rotate_left; intro _; clear_value w; revert w; intro _ _)
    | (extract_lets +onlyGivenNames w; refine (fun (_ : _ → _) => ?_) w; unfold w; clear w)
    | (extract_lets +onlyGivenNames w; clear_value w; revert w; intro _) | apply signalVector_keeps | apply keeps_ite
    | split | (rename_i hq; replace hq := congrArg Prod.snd hq; dsimp only at hq; rw [← hq]; clear hq)
    | (apply keeps_put; exact ⟨rfl, by simp, by simp, rfl, rfl, rfl, rfl, rfl, rfl, rfl, rfl, rfl⟩))

theorem writeHif_keeps {zz : State} (fn off v : Nat) {s : State} (hz : Keeps zz s) :
    Keeps zz (writeHif fn off v s) := by
  unfold writeHif
  repeat (with_reducible first
    | assumption | (intro _; exact ⟨rfl, rfl, rfl⟩) | (intro _; exact ⟨rfl, rfl, rfl, rfl⟩) | (intro _)
    | (extract_lets +onlyGivenNames w; refine keeps_cut zz w ?_ ?_; (unfold w; clear w); rotate_left; intro _; clear_value w; revert w; intro _ _)
    | (extract_lets +onlyGivenNames w; refine (fun (_ : MemSys) => ?_) w; revert w; intro _)
    | (extract_lets +onlyGivenNames w; refine (fun (_ : Ferry) => ?_) w; revert w; intro _)
    | (extract_lets +onlyGivenNames w; refine (fun (_ : Sec) => ?_) w; revert w; intro _)
    | (extract_lets +onlyGivenNames w; refine keeps_cut_snd zz w ?_ ?_; (unfold w; clear w); rotate_left; intro _; clear_value w; revert w; intro _ _)
    | (extract_lets +onlyGivenNames w; refine keeps_cut_fst zz w ?_ ?_; (unfold w; clear w); rotate_left; intro _; clear_value w; revert w; intro _ _)
    | (extract_lets +onlyGivenNames w; refine keeps_cut_thd zz w ?_ ?_; (unfold w; clear w); rotate_left; intro _; clear_value w; revert w; intro _ _)
    | (extract_lets +onlyGivenNames w; refine (fun (_ : _ → _) => ?_) w; unfold w; clear w)
    | (extract_lets +onlyGivenNames w; clear_value w; revert w; intro _) | apply writeMsix_keeps
    | apply writeRing_keeps | apply sendPending_keeps | apply putMask_keeps | apply clearMask_keeps
    | apply setReg_keeps | apply keeps_ite | split
    | (rename_i hq; replace hq := congrArg Prod.snd hq; dsimp only at hq; rw [← hq]; clear hq))

theorem writeCtx_keeps {zz : State} (base n off v : Nat) {s : State} (hz : Keeps zz s) :
    Keeps zz (writeCtx base n off v s) := by
  unfold writeCtx
  repeat (with_reducible first
    | assumption
    | (extract_lets +onlyGivenNames w; refine keeps_cut zz w ?_ ?_; (unfold w; clear w); rotate_left; intro _; clear_value w; revert w; intro _ _)
    | (extract_lets +onlyGivenNames w; refine (fun (_ : _ → _) => ?_) w; unfold w; clear w)
    | (extract_lets +onlyGivenNames w; clear_value w; revert w; intro _) | apply putMask_keeps | apply setReg_keeps
    | apply rpcClear_keeps | apply clearMask_keeps | split)

theorem writePwr_keeps {zz : State} (v : Nat) {s : State} (hz : Keeps zz s) :
    Keeps zz (writePwr v s) := by
  unfold writePwr
  repeat (with_reducible first
    | assumption | (intro _; exact ⟨rfl, rfl, rfl⟩) | (intro _; exact ⟨rfl, rfl, rfl, rfl⟩) | (intro _)
    | (extract_lets +onlyGivenNames w; refine keeps_cut zz w ?_ ?_; (unfold w; clear w); rotate_left; intro _; clear_value w; revert w; intro _ _)
    | (extract_lets +onlyGivenNames w; refine (fun (_ : MemSys) => ?_) w; revert w; intro _)
    | (extract_lets +onlyGivenNames w; refine (fun (_ : Ferry) => ?_) w; revert w; intro _)
    | (extract_lets +onlyGivenNames w; refine (fun (_ : Sec) => ?_) w; revert w; intro _)
    | (extract_lets +onlyGivenNames w; refine keeps_cut_snd zz w ?_ ?_; (unfold w; clear w); rotate_left; intro _; clear_value w; revert w; intro _ _)
    | (extract_lets +onlyGivenNames w; refine keeps_cut_fst zz w ?_ ?_; (unfold w; clear w); rotate_left; intro _; clear_value w; revert w; intro _ _)
    | (extract_lets +onlyGivenNames w; refine keeps_cut_thd zz w ?_ ?_; (unfold w; clear w); rotate_left; intro _; clear_value w; revert w; intro _ _)
    | (extract_lets +onlyGivenNames w; refine (fun (_ : _ → _) => ?_) w; unfold w; clear w)
    | (extract_lets +onlyGivenNames w; clear_value w; revert w; intro _) | apply powerRequest_keeps | apply keeps_ite
    | split | (rename_i hq; replace hq := congrArg Prod.snd hq; dsimp only at hq; rw [← hq]; clear hq)
    | (apply keeps_put; exact ⟨rfl, by simp, by simp, rfl, rfl, rfl, rfl, rfl, rfl, rfl, rfl, rfl⟩))

theorem writeMbox_keeps {zz : State} (v : Nat) {s : State} (hz : Keeps zz s) :
    Keeps zz (writeMbox v s) := by
  unfold writeMbox
  repeat (with_reducible first
    | assumption | apply setReg_keeps | apply runCommand_keeps | apply mailboxDone_keeps | apply keeps_ite)

theorem writeFmn_keeps {zz : State} (off v : Nat) {s : State} (hz : Keeps zz s) :
    Keeps zz (writeFmn off v s) := by
  unfold writeFmn
  repeat (with_reducible first
    | assumption | (intro _; exact ⟨rfl, rfl, rfl⟩) | (intro _; exact ⟨rfl, rfl, rfl, rfl⟩) | (intro _)
    | (extract_lets +onlyGivenNames w; refine keeps_cut zz w ?_ ?_; (unfold w; clear w); rotate_left; intro _; clear_value w; revert w; intro _ _)
    | (extract_lets +onlyGivenNames w; refine (fun (_ : MemSys) => ?_) w; revert w; intro _)
    | (extract_lets +onlyGivenNames w; refine (fun (_ : Ferry) => ?_) w; revert w; intro _)
    | (extract_lets +onlyGivenNames w; refine (fun (_ : Sec) => ?_) w; revert w; intro _)
    | (extract_lets +onlyGivenNames w; refine keeps_cut_snd zz w ?_ ?_; (unfold w; clear w); rotate_left; intro _; clear_value w; revert w; intro _ _)
    | (extract_lets +onlyGivenNames w; refine keeps_cut_fst zz w ?_ ?_; (unfold w; clear w); rotate_left; intro _; clear_value w; revert w; intro _ _)
    | (extract_lets +onlyGivenNames w; refine keeps_cut_thd zz w ?_ ?_; (unfold w; clear w); rotate_left; intro _; clear_value w; revert w; intro _ _)
    | (extract_lets +onlyGivenNames w; refine (fun (_ : _ → _) => ?_) w; unfold w; clear w)
    | (extract_lets +onlyGivenNames w; clear_value w; revert w; intro _) | apply putMask_keeps | apply writePwr_keeps
    | apply putLimit_keeps | apply clearMask_keeps | apply writeMbox_keeps | apply keeps_ite | split
    | (rename_i hq; replace hq := congrArg Prod.snd hq; dsimp only at hq; rw [← hq]; clear hq)
    | (apply keeps_put; exact ⟨rfl, by simp, by simp, rfl, rfl, rfl, rfl, rfl, rfl, rfl, rfl, rfl⟩))

theorem writeSec_keeps {zz : State} (off v : Nat) {s : State} (hz : Keeps zz s) :
    Keeps zz (writeSec off v s) := by
  unfold writeSec
  repeat (with_reducible first
    | assumption | (intro _; exact ⟨rfl, rfl, rfl, rfl⟩) | apply updSec_keeps | apply dbgArmed_keeps
    | apply dbgGone_keeps | apply keeps_ite | (apply keeps_foldl; intro _ _ _))

theorem writeCore_keeps {zz : State} (fn c off v : Nat) {s : State} (hz : Keeps zz s) :
    Keeps zz (writeCore fn c off v s) := by
  unfold writeCore
  repeat (with_reducible first
    | assumption | apply updCore_keeps | apply armInjection_keeps | (apply keeps_foldl; intro _ _ _) | split)

theorem writeReg_keeps {zz : State} (fn off v : Nat) {s : State} (hz : Keeps zz s) :
    Keeps zz (writeReg fn off v s) := by
  unfold writeReg
  repeat (with_reducible first
    | assumption | (intro _; exact ⟨rfl, rfl, rfl⟩) | (intro _; exact ⟨rfl, rfl, rfl, rfl⟩) | (intro _)
    | (extract_lets +onlyGivenNames w; refine keeps_cut zz w ?_ ?_; (unfold w; clear w); rotate_left; intro _; clear_value w; revert w; intro _ _)
    | (extract_lets +onlyGivenNames w; refine (fun (_ : MemSys) => ?_) w; revert w; intro _)
    | (extract_lets +onlyGivenNames w; refine (fun (_ : Ferry) => ?_) w; revert w; intro _)
    | (extract_lets +onlyGivenNames w; refine (fun (_ : Sec) => ?_) w; revert w; intro _)
    | (extract_lets +onlyGivenNames w; refine keeps_cut_snd zz w ?_ ?_; (unfold w; clear w); rotate_left; intro _; clear_value w; revert w; intro _ _)
    | (extract_lets +onlyGivenNames w; refine keeps_cut_fst zz w ?_ ?_; (unfold w; clear w); rotate_left; intro _; clear_value w; revert w; intro _ _)
    | (extract_lets +onlyGivenNames w; refine keeps_cut_thd zz w ?_ ?_; (unfold w; clear w); rotate_left; intro _; clear_value w; revert w; intro _ _)
    | (extract_lets +onlyGivenNames w; refine (fun (_ : _ → _) => ?_) w; unfold w; clear w)
    | (extract_lets +onlyGivenNames w; clear_value w; revert w; intro _) | apply writeHif_keeps
    | apply writeCore_keeps | apply writeCtx_keeps | apply putMask_keeps | apply prtReset_keeps
    | apply clearMask_keeps | apply gzlCtlWrite_keeps | apply writeFmn_keeps | apply writeSec_keeps | apply keeps_ite
    | split | (rename_i hq; replace hq := congrArg Prod.snd hq; dsimp only at hq; rw [← hq]; clear hq))

theorem execRegisterWrite_keeps {zz : State} (fn off width : Nat) (value : DWord) {s : State} (hz : Keeps zz s) :
    KeepsR zz (execRegisterWrite fn off width value s) := by
  unfold execRegisterWrite
  repeat (with_reducible first
    | assumption | apply keepsR_next | apply keepsR_ite | apply barAccess_keeps | apply writeReg_keeps
    | apply emit_keeps | apply keeps_ite)

end Sys2Proof.Machine
end

