-- ==== Sys2Proof/Laws/KeepsSchedule.lean ====
section
/-!
SUPPORT. What the operations of Machine/Schedule.lean keep (Laws/Keeps.lean).
-/
set_option linter.all false
namespace Sys2Proof.Machine

theorem startOf_keeps {zz : State} (op : Nat) (y0 : Desc) {y1 : State} (hz : Keeps zz y1) :
    Keeps zz (startOf op y0 y1) := by
  unfold startOf
  repeat (with_reducible first
    | assumption | apply loadStart_keeps | apply streamStart_keeps | apply copyReady_keeps | apply fillStart_keeps
    | apply fenceStart_keeps | apply signalStart_keeps | apply waitStart_keeps | apply ingestStart_keeps
    | apply collStart_keeps | apply stepOpen_keeps | apply setPhase_keeps | apply replayReady_keeps
    | apply digestStart_keeps | apply selftestStart_keeps | apply checkpointStart_keeps | apply configReady_keeps
    | apply startStart_keeps | apply stopStart_keeps | split)

theorem execNotBeforeReached_keeps {zz : State} (dt id : Nat) {s : State} (hz : Keeps zz s) :
    KeepsR zz (execNotBeforeReached dt id s) := by
  unfold execNotBeforeReached
  repeat (with_reducible first
    | assumption
    | (extract_lets +onlyGivenNames w; refine keeps_cut zz w ?_ ?_; (unfold w; clear w); rotate_left; intro _; clear_value w; revert w; intro _ _)
    | apply keepsR_next | apply pass_keeps | apply startOf_keeps | split)

end Sys2Proof.Machine
end

