-- ==== Sys2Proof/Laws/State.lean ====
section
/-!
SUPPORT. What each named update of the state leaves as it was, and what a read finds after it.
-/
namespace Sys2Proof.Machine

/-! ## pass -/

@[simp] theorem pass_pending (dt : Nat) (s : State) : (pass dt s).pending = s.pending := rfl
@[simp] theorem pass_out (dt : Nat) (s : State) : (pass dt s).out = s.out := rfl
@[simp] theorem pass_free (dt : Nat) (s : State) : (pass dt s).free = s.free := rfl
@[simp] theorem pass_bootTime (dt : Nat) (s : State) : (pass dt s).bootTime = s.bootTime := rfl
@[simp] theorem pass_regs (dt : Nat) (s : State) : (pass dt s).regs = s.regs := rfl
@[simp] theorem pass_latches (dt : Nat) (s : State) : (pass dt s).latches = s.latches := rfl
@[simp] theorem pass_places (dt : Nat) (s : State) : (pass dt s).places = s.places := rfl
@[simp] theorem pass_sites (dt : Nat) (s : State) : (pass dt s).sites = s.sites := rfl
@[simp] theorem pass_cores (dt : Nat) (s : State) : (pass dt s).cores = s.cores := rfl
@[simp] theorem pass_parts (dt : Nat) (s : State) : (pass dt s).parts = s.parts := rfl
@[simp] theorem pass_rings (dt : Nat) (s : State) : (pass dt s).rings = s.rings := rfl
@[simp] theorem pass_funcs (dt : Nat) (s : State) : (pass dt s).funcs = s.funcs := rfl
@[simp] theorem pass_descs (dt : Nat) (s : State) : (pass dt s).descs = s.descs := rfl
@[simp] theorem pass_accepts (dt : Nat) (s : State) : (pass dt s).accepts = s.accepts := rfl
@[simp] theorem pass_journal (dt : Nat) (s : State) : (pass dt s).journal = s.journal := rfl
@[simp] theorem pass_link (dt : Nat) (s : State) : (pass dt s).link = s.link := rfl
@[simp] theorem pass_flrPf0 (dt : Nat) (s : State) : (pass dt s).flrPf0 = s.flrPf0 := rfl
@[simp] theorem pass_ldr (dt : Nat) (s : State) : (pass dt s).ldr = s.ldr := rfl
@[simp] theorem pass_mem (dt : Nat) (s : State) : (pass dt s).mem = s.mem := rfl
@[simp] theorem pass_syn (dt : Nat) (s : State) : (pass dt s).syn = s.syn := rfl
@[simp] theorem pass_pipes (dt : Nat) (s : State) : (pass dt s).pipes = s.pipes := rfl
@[simp] theorem pass_fer (dt : Nat) (s : State) : (pass dt s).fer = s.fer := rfl
@[simp] theorem pass_sec (dt : Nat) (s : State) : (pass dt s).sec = s.sec := rfl
@[simp] theorem pass_brd (dt : Nat) (s : State) : (pass dt s).brd = s.brd := rfl
@[simp] theorem pass_rst (dt : Nat) (s : State) : (pass dt s).rst = s.rst := rfl

/-! ## emit -/

@[simp] theorem emit_pending (o : Out) (s : State) : (emit o s).pending = s.pending := rfl
@[simp] theorem emit_free (o : Out) (s : State) : (emit o s).free = s.free := rfl
@[simp] theorem emit_now (o : Out) (s : State) : (emit o s).now = s.now := rfl
@[simp] theorem emit_clock (o : Out) (s : State) : (emit o s).clock = s.clock := rfl
@[simp] theorem emit_bootTime (o : Out) (s : State) : (emit o s).bootTime = s.bootTime := rfl
@[simp] theorem emit_regs (o : Out) (s : State) : (emit o s).regs = s.regs := rfl
@[simp] theorem emit_latches (o : Out) (s : State) : (emit o s).latches = s.latches := rfl
@[simp] theorem emit_places (o : Out) (s : State) : (emit o s).places = s.places := rfl
@[simp] theorem emit_sites (o : Out) (s : State) : (emit o s).sites = s.sites := rfl
@[simp] theorem emit_cores (o : Out) (s : State) : (emit o s).cores = s.cores := rfl
@[simp] theorem emit_parts (o : Out) (s : State) : (emit o s).parts = s.parts := rfl
@[simp] theorem emit_rings (o : Out) (s : State) : (emit o s).rings = s.rings := rfl
@[simp] theorem emit_funcs (o : Out) (s : State) : (emit o s).funcs = s.funcs := rfl
@[simp] theorem emit_descs (o : Out) (s : State) : (emit o s).descs = s.descs := rfl
@[simp] theorem emit_accepts (o : Out) (s : State) : (emit o s).accepts = s.accepts := rfl
@[simp] theorem emit_journal (o : Out) (s : State) : (emit o s).journal = s.journal := rfl
@[simp] theorem emit_link (o : Out) (s : State) : (emit o s).link = s.link := rfl
@[simp] theorem emit_flrPf0 (o : Out) (s : State) : (emit o s).flrPf0 = s.flrPf0 := rfl
@[simp] theorem emit_ldr (o : Out) (s : State) : (emit o s).ldr = s.ldr := rfl
@[simp] theorem emit_mem (o : Out) (s : State) : (emit o s).mem = s.mem := rfl
@[simp] theorem emit_syn (o : Out) (s : State) : (emit o s).syn = s.syn := rfl
@[simp] theorem emit_fab (o : Out) (s : State) : (emit o s).fab = s.fab := rfl
@[simp] theorem emit_pipes (o : Out) (s : State) : (emit o s).pipes = s.pipes := rfl
@[simp] theorem emit_fer (o : Out) (s : State) : (emit o s).fer = s.fer := rfl
@[simp] theorem emit_sec (o : Out) (s : State) : (emit o s).sec = s.sec := rfl
@[simp] theorem emit_brd (o : Out) (s : State) : (emit o s).brd = s.brd := rfl
@[simp] theorem emit_rst (o : Out) (s : State) : (emit o s).rst = s.rst := rfl

/-! ## setReg -/

@[simp] theorem setReg_pending (k : Nat) (v : Word) (s : State) : (setReg k v s).pending = s.pending := rfl
@[simp] theorem setReg_out (k : Nat) (v : Word) (s : State) : (setReg k v s).out = s.out := rfl
@[simp] theorem setReg_free (k : Nat) (v : Word) (s : State) : (setReg k v s).free = s.free := rfl
@[simp] theorem setReg_now (k : Nat) (v : Word) (s : State) : (setReg k v s).now = s.now := rfl
@[simp] theorem setReg_clock (k : Nat) (v : Word) (s : State) : (setReg k v s).clock = s.clock := rfl
@[simp] theorem setReg_bootTime (k : Nat) (v : Word) (s : State) : (setReg k v s).bootTime = s.bootTime := rfl
@[simp] theorem setReg_latches (k : Nat) (v : Word) (s : State) : (setReg k v s).latches = s.latches := rfl
@[simp] theorem setReg_places (k : Nat) (v : Word) (s : State) : (setReg k v s).places = s.places := rfl
@[simp] theorem setReg_sites (k : Nat) (v : Word) (s : State) : (setReg k v s).sites = s.sites := rfl
@[simp] theorem setReg_cores (k : Nat) (v : Word) (s : State) : (setReg k v s).cores = s.cores := rfl
@[simp] theorem setReg_parts (k : Nat) (v : Word) (s : State) : (setReg k v s).parts = s.parts := rfl
@[simp] theorem setReg_rings (k : Nat) (v : Word) (s : State) : (setReg k v s).rings = s.rings := rfl
@[simp] theorem setReg_funcs (k : Nat) (v : Word) (s : State) : (setReg k v s).funcs = s.funcs := rfl
@[simp] theorem setReg_descs (k : Nat) (v : Word) (s : State) : (setReg k v s).descs = s.descs := rfl
@[simp] theorem setReg_accepts (k : Nat) (v : Word) (s : State) : (setReg k v s).accepts = s.accepts := rfl
@[simp] theorem setReg_journal (k : Nat) (v : Word) (s : State) : (setReg k v s).journal = s.journal := rfl
@[simp] theorem setReg_link (k : Nat) (v : Word) (s : State) : (setReg k v s).link = s.link := rfl
@[simp] theorem setReg_flrPf0 (k : Nat) (v : Word) (s : State) : (setReg k v s).flrPf0 = s.flrPf0 := rfl
@[simp] theorem setReg_ldr (k : Nat) (v : Word) (s : State) : (setReg k v s).ldr = s.ldr := rfl
@[simp] theorem setReg_mem (k : Nat) (v : Word) (s : State) : (setReg k v s).mem = s.mem := rfl
@[simp] theorem setReg_syn (k : Nat) (v : Word) (s : State) : (setReg k v s).syn = s.syn := rfl
@[simp] theorem setReg_fab (k : Nat) (v : Word) (s : State) : (setReg k v s).fab = s.fab := rfl
@[simp] theorem setReg_pipes (k : Nat) (v : Word) (s : State) : (setReg k v s).pipes = s.pipes := rfl
@[simp] theorem setReg_fer (k : Nat) (v : Word) (s : State) : (setReg k v s).fer = s.fer := rfl
@[simp] theorem setReg_sec (k : Nat) (v : Word) (s : State) : (setReg k v s).sec = s.sec := rfl
@[simp] theorem setReg_brd (k : Nat) (v : Word) (s : State) : (setReg k v s).brd = s.brd := rfl
@[simp] theorem setReg_rst (k : Nat) (v : Word) (s : State) : (setReg k v s).rst = s.rst := rfl

/-! ## orReg -/

@[simp] theorem orReg_pending (k : Nat) (v : Word) (s : State) : (orReg k v s).pending = s.pending := rfl
@[simp] theorem orReg_out (k : Nat) (v : Word) (s : State) : (orReg k v s).out = s.out := rfl
@[simp] theorem orReg_free (k : Nat) (v : Word) (s : State) : (orReg k v s).free = s.free := rfl
@[simp] theorem orReg_now (k : Nat) (v : Word) (s : State) : (orReg k v s).now = s.now := rfl
@[simp] theorem orReg_clock (k : Nat) (v : Word) (s : State) : (orReg k v s).clock = s.clock := rfl
@[simp] theorem orReg_bootTime (k : Nat) (v : Word) (s : State) : (orReg k v s).bootTime = s.bootTime := rfl
@[simp] theorem orReg_latches (k : Nat) (v : Word) (s : State) : (orReg k v s).latches = s.latches := rfl
@[simp] theorem orReg_places (k : Nat) (v : Word) (s : State) : (orReg k v s).places = s.places := rfl
@[simp] theorem orReg_sites (k : Nat) (v : Word) (s : State) : (orReg k v s).sites = s.sites := rfl
@[simp] theorem orReg_cores (k : Nat) (v : Word) (s : State) : (orReg k v s).cores = s.cores := rfl
@[simp] theorem orReg_parts (k : Nat) (v : Word) (s : State) : (orReg k v s).parts = s.parts := rfl
@[simp] theorem orReg_rings (k : Nat) (v : Word) (s : State) : (orReg k v s).rings = s.rings := rfl
@[simp] theorem orReg_funcs (k : Nat) (v : Word) (s : State) : (orReg k v s).funcs = s.funcs := rfl
@[simp] theorem orReg_descs (k : Nat) (v : Word) (s : State) : (orReg k v s).descs = s.descs := rfl
@[simp] theorem orReg_accepts (k : Nat) (v : Word) (s : State) : (orReg k v s).accepts = s.accepts := rfl
@[simp] theorem orReg_journal (k : Nat) (v : Word) (s : State) : (orReg k v s).journal = s.journal := rfl
@[simp] theorem orReg_link (k : Nat) (v : Word) (s : State) : (orReg k v s).link = s.link := rfl
@[simp] theorem orReg_flrPf0 (k : Nat) (v : Word) (s : State) : (orReg k v s).flrPf0 = s.flrPf0 := rfl
@[simp] theorem orReg_ldr (k : Nat) (v : Word) (s : State) : (orReg k v s).ldr = s.ldr := rfl
@[simp] theorem orReg_mem (k : Nat) (v : Word) (s : State) : (orReg k v s).mem = s.mem := rfl
@[simp] theorem orReg_syn (k : Nat) (v : Word) (s : State) : (orReg k v s).syn = s.syn := rfl
@[simp] theorem orReg_fab (k : Nat) (v : Word) (s : State) : (orReg k v s).fab = s.fab := rfl
@[simp] theorem orReg_pipes (k : Nat) (v : Word) (s : State) : (orReg k v s).pipes = s.pipes := rfl
@[simp] theorem orReg_fer (k : Nat) (v : Word) (s : State) : (orReg k v s).fer = s.fer := rfl
@[simp] theorem orReg_sec (k : Nat) (v : Word) (s : State) : (orReg k v s).sec = s.sec := rfl
@[simp] theorem orReg_brd (k : Nat) (v : Word) (s : State) : (orReg k v s).brd = s.brd := rfl
@[simp] theorem orReg_rst (k : Nat) (v : Word) (s : State) : (orReg k v s).rst = s.rst := rfl

/-! ## setCore -/

@[simp] theorem setCore_pending (c : Nat) (v : Core) (s : State) : (setCore c v s).pending = s.pending := rfl
@[simp] theorem setCore_out (c : Nat) (v : Core) (s : State) : (setCore c v s).out = s.out := rfl
@[simp] theorem setCore_free (c : Nat) (v : Core) (s : State) : (setCore c v s).free = s.free := rfl
@[simp] theorem setCore_now (c : Nat) (v : Core) (s : State) : (setCore c v s).now = s.now := rfl
@[simp] theorem setCore_clock (c : Nat) (v : Core) (s : State) : (setCore c v s).clock = s.clock := rfl
@[simp] theorem setCore_bootTime (c : Nat) (v : Core) (s : State) : (setCore c v s).bootTime = s.bootTime := rfl
@[simp] theorem setCore_regs (c : Nat) (v : Core) (s : State) : (setCore c v s).regs = s.regs := rfl
@[simp] theorem setCore_latches (c : Nat) (v : Core) (s : State) : (setCore c v s).latches = s.latches := rfl
@[simp] theorem setCore_places (c : Nat) (v : Core) (s : State) : (setCore c v s).places = s.places := rfl
@[simp] theorem setCore_sites (c : Nat) (v : Core) (s : State) : (setCore c v s).sites = s.sites := rfl
@[simp] theorem setCore_parts (c : Nat) (v : Core) (s : State) : (setCore c v s).parts = s.parts := rfl
@[simp] theorem setCore_rings (c : Nat) (v : Core) (s : State) : (setCore c v s).rings = s.rings := rfl
@[simp] theorem setCore_funcs (c : Nat) (v : Core) (s : State) : (setCore c v s).funcs = s.funcs := rfl
@[simp] theorem setCore_descs (c : Nat) (v : Core) (s : State) : (setCore c v s).descs = s.descs := rfl
@[simp] theorem setCore_accepts (c : Nat) (v : Core) (s : State) : (setCore c v s).accepts = s.accepts := rfl
@[simp] theorem setCore_journal (c : Nat) (v : Core) (s : State) : (setCore c v s).journal = s.journal := rfl
@[simp] theorem setCore_link (c : Nat) (v : Core) (s : State) : (setCore c v s).link = s.link := rfl
@[simp] theorem setCore_flrPf0 (c : Nat) (v : Core) (s : State) : (setCore c v s).flrPf0 = s.flrPf0 := rfl
@[simp] theorem setCore_ldr (c : Nat) (v : Core) (s : State) : (setCore c v s).ldr = s.ldr := rfl
@[simp] theorem setCore_mem (c : Nat) (v : Core) (s : State) : (setCore c v s).mem = s.mem := rfl
@[simp] theorem setCore_syn (c : Nat) (v : Core) (s : State) : (setCore c v s).syn = s.syn := rfl
@[simp] theorem setCore_fab (c : Nat) (v : Core) (s : State) : (setCore c v s).fab = s.fab := rfl
@[simp] theorem setCore_pipes (c : Nat) (v : Core) (s : State) : (setCore c v s).pipes = s.pipes := rfl
@[simp] theorem setCore_fer (c : Nat) (v : Core) (s : State) : (setCore c v s).fer = s.fer := rfl
@[simp] theorem setCore_sec (c : Nat) (v : Core) (s : State) : (setCore c v s).sec = s.sec := rfl
@[simp] theorem setCore_brd (c : Nat) (v : Core) (s : State) : (setCore c v s).brd = s.brd := rfl
@[simp] theorem setCore_rst (c : Nat) (v : Core) (s : State) : (setCore c v s).rst = s.rst := rfl

/-! ## updCore -/

@[simp] theorem updCore_pending (c : Nat) (f : Core → Core) (s : State) : (updCore c f s).pending = s.pending := rfl
@[simp] theorem updCore_out (c : Nat) (f : Core → Core) (s : State) : (updCore c f s).out = s.out := rfl
@[simp] theorem updCore_free (c : Nat) (f : Core → Core) (s : State) : (updCore c f s).free = s.free := rfl
@[simp] theorem updCore_now (c : Nat) (f : Core → Core) (s : State) : (updCore c f s).now = s.now := rfl
@[simp] theorem updCore_clock (c : Nat) (f : Core → Core) (s : State) : (updCore c f s).clock = s.clock := rfl
@[simp] theorem updCore_bootTime (c : Nat) (f : Core → Core) (s : State) : (updCore c f s).bootTime = s.bootTime := rfl
@[simp] theorem updCore_regs (c : Nat) (f : Core → Core) (s : State) : (updCore c f s).regs = s.regs := rfl
@[simp] theorem updCore_latches (c : Nat) (f : Core → Core) (s : State) : (updCore c f s).latches = s.latches := rfl
@[simp] theorem updCore_places (c : Nat) (f : Core → Core) (s : State) : (updCore c f s).places = s.places := rfl
@[simp] theorem updCore_sites (c : Nat) (f : Core → Core) (s : State) : (updCore c f s).sites = s.sites := rfl
@[simp] theorem updCore_parts (c : Nat) (f : Core → Core) (s : State) : (updCore c f s).parts = s.parts := rfl
@[simp] theorem updCore_rings (c : Nat) (f : Core → Core) (s : State) : (updCore c f s).rings = s.rings := rfl
@[simp] theorem updCore_funcs (c : Nat) (f : Core → Core) (s : State) : (updCore c f s).funcs = s.funcs := rfl
@[simp] theorem updCore_descs (c : Nat) (f : Core → Core) (s : State) : (updCore c f s).descs = s.descs := rfl
@[simp] theorem updCore_accepts (c : Nat) (f : Core → Core) (s : State) : (updCore c f s).accepts = s.accepts := rfl
@[simp] theorem updCore_journal (c : Nat) (f : Core → Core) (s : State) : (updCore c f s).journal = s.journal := rfl
@[simp] theorem updCore_link (c : Nat) (f : Core → Core) (s : State) : (updCore c f s).link = s.link := rfl
@[simp] theorem updCore_flrPf0 (c : Nat) (f : Core → Core) (s : State) : (updCore c f s).flrPf0 = s.flrPf0 := rfl
@[simp] theorem updCore_ldr (c : Nat) (f : Core → Core) (s : State) : (updCore c f s).ldr = s.ldr := rfl
@[simp] theorem updCore_mem (c : Nat) (f : Core → Core) (s : State) : (updCore c f s).mem = s.mem := rfl
@[simp] theorem updCore_syn (c : Nat) (f : Core → Core) (s : State) : (updCore c f s).syn = s.syn := rfl
@[simp] theorem updCore_fab (c : Nat) (f : Core → Core) (s : State) : (updCore c f s).fab = s.fab := rfl
@[simp] theorem updCore_pipes (c : Nat) (f : Core → Core) (s : State) : (updCore c f s).pipes = s.pipes := rfl
@[simp] theorem updCore_fer (c : Nat) (f : Core → Core) (s : State) : (updCore c f s).fer = s.fer := rfl
@[simp] theorem updCore_sec (c : Nat) (f : Core → Core) (s : State) : (updCore c f s).sec = s.sec := rfl
@[simp] theorem updCore_brd (c : Nat) (f : Core → Core) (s : State) : (updCore c f s).brd = s.brd := rfl
@[simp] theorem updCore_rst (c : Nat) (f : Core → Core) (s : State) : (updCore c f s).rst = s.rst := rfl

/-! ## updSite -/

@[simp] theorem updSite_pending (t : Nat) (f : Site → Site) (s : State) : (updSite t f s).pending = s.pending := rfl
@[simp] theorem updSite_out (t : Nat) (f : Site → Site) (s : State) : (updSite t f s).out = s.out := rfl
@[simp] theorem updSite_free (t : Nat) (f : Site → Site) (s : State) : (updSite t f s).free = s.free := rfl
@[simp] theorem updSite_now (t : Nat) (f : Site → Site) (s : State) : (updSite t f s).now = s.now := rfl
@[simp] theorem updSite_clock (t : Nat) (f : Site → Site) (s : State) : (updSite t f s).clock = s.clock := rfl
@[simp] theorem updSite_bootTime (t : Nat) (f : Site → Site) (s : State) : (updSite t f s).bootTime = s.bootTime := rfl
@[simp] theorem updSite_regs (t : Nat) (f : Site → Site) (s : State) : (updSite t f s).regs = s.regs := rfl
@[simp] theorem updSite_latches (t : Nat) (f : Site → Site) (s : State) : (updSite t f s).latches = s.latches := rfl
@[simp] theorem updSite_places (t : Nat) (f : Site → Site) (s : State) : (updSite t f s).places = s.places := rfl
@[simp] theorem updSite_cores (t : Nat) (f : Site → Site) (s : State) : (updSite t f s).cores = s.cores := rfl
@[simp] theorem updSite_parts (t : Nat) (f : Site → Site) (s : State) : (updSite t f s).parts = s.parts := rfl
@[simp] theorem updSite_rings (t : Nat) (f : Site → Site) (s : State) : (updSite t f s).rings = s.rings := rfl
@[simp] theorem updSite_funcs (t : Nat) (f : Site → Site) (s : State) : (updSite t f s).funcs = s.funcs := rfl
@[simp] theorem updSite_descs (t : Nat) (f : Site → Site) (s : State) : (updSite t f s).descs = s.descs := rfl
@[simp] theorem updSite_accepts (t : Nat) (f : Site → Site) (s : State) : (updSite t f s).accepts = s.accepts := rfl
@[simp] theorem updSite_journal (t : Nat) (f : Site → Site) (s : State) : (updSite t f s).journal = s.journal := rfl
@[simp] theorem updSite_link (t : Nat) (f : Site → Site) (s : State) : (updSite t f s).link = s.link := rfl
@[simp] theorem updSite_flrPf0 (t : Nat) (f : Site → Site) (s : State) : (updSite t f s).flrPf0 = s.flrPf0 := rfl
@[simp] theorem updSite_ldr (t : Nat) (f : Site → Site) (s : State) : (updSite t f s).ldr = s.ldr := rfl
@[simp] theorem updSite_mem (t : Nat) (f : Site → Site) (s : State) : (updSite t f s).mem = s.mem := rfl
@[simp] theorem updSite_syn (t : Nat) (f : Site → Site) (s : State) : (updSite t f s).syn = s.syn := rfl
@[simp] theorem updSite_fab (t : Nat) (f : Site → Site) (s : State) : (updSite t f s).fab = s.fab := rfl
@[simp] theorem updSite_pipes (t : Nat) (f : Site → Site) (s : State) : (updSite t f s).pipes = s.pipes := rfl
@[simp] theorem updSite_fer (t : Nat) (f : Site → Site) (s : State) : (updSite t f s).fer = s.fer := rfl
@[simp] theorem updSite_sec (t : Nat) (f : Site → Site) (s : State) : (updSite t f s).sec = s.sec := rfl
@[simp] theorem updSite_brd (t : Nat) (f : Site → Site) (s : State) : (updSite t f s).brd = s.brd := rfl
@[simp] theorem updSite_rst (t : Nat) (f : Site → Site) (s : State) : (updSite t f s).rst = s.rst := rfl

/-! ## updPart -/

@[simp] theorem updPart_pending (n : Nat) (f : Part → Part) (s : State) : (updPart n f s).pending = s.pending := rfl
@[simp] theorem updPart_out (n : Nat) (f : Part → Part) (s : State) : (updPart n f s).out = s.out := rfl
@[simp] theorem updPart_free (n : Nat) (f : Part → Part) (s : State) : (updPart n f s).free = s.free := rfl
@[simp] theorem updPart_now (n : Nat) (f : Part → Part) (s : State) : (updPart n f s).now = s.now := rfl
@[simp] theorem updPart_clock (n : Nat) (f : Part → Part) (s : State) : (updPart n f s).clock = s.clock := rfl
@[simp] theorem updPart_bootTime (n : Nat) (f : Part → Part) (s : State) : (updPart n f s).bootTime = s.bootTime := rfl
@[simp] theorem updPart_regs (n : Nat) (f : Part → Part) (s : State) : (updPart n f s).regs = s.regs := rfl
@[simp] theorem updPart_latches (n : Nat) (f : Part → Part) (s : State) : (updPart n f s).latches = s.latches := rfl
@[simp] theorem updPart_places (n : Nat) (f : Part → Part) (s : State) : (updPart n f s).places = s.places := rfl
@[simp] theorem updPart_sites (n : Nat) (f : Part → Part) (s : State) : (updPart n f s).sites = s.sites := rfl
@[simp] theorem updPart_cores (n : Nat) (f : Part → Part) (s : State) : (updPart n f s).cores = s.cores := rfl
@[simp] theorem updPart_rings (n : Nat) (f : Part → Part) (s : State) : (updPart n f s).rings = s.rings := rfl
@[simp] theorem updPart_funcs (n : Nat) (f : Part → Part) (s : State) : (updPart n f s).funcs = s.funcs := rfl
@[simp] theorem updPart_descs (n : Nat) (f : Part → Part) (s : State) : (updPart n f s).descs = s.descs := rfl
@[simp] theorem updPart_accepts (n : Nat) (f : Part → Part) (s : State) : (updPart n f s).accepts = s.accepts := rfl
@[simp] theorem updPart_journal (n : Nat) (f : Part → Part) (s : State) : (updPart n f s).journal = s.journal := rfl
@[simp] theorem updPart_link (n : Nat) (f : Part → Part) (s : State) : (updPart n f s).link = s.link := rfl
@[simp] theorem updPart_flrPf0 (n : Nat) (f : Part → Part) (s : State) : (updPart n f s).flrPf0 = s.flrPf0 := rfl
@[simp] theorem updPart_ldr (n : Nat) (f : Part → Part) (s : State) : (updPart n f s).ldr = s.ldr := rfl
@[simp] theorem updPart_mem (n : Nat) (f : Part → Part) (s : State) : (updPart n f s).mem = s.mem := rfl
@[simp] theorem updPart_syn (n : Nat) (f : Part → Part) (s : State) : (updPart n f s).syn = s.syn := rfl
@[simp] theorem updPart_fab (n : Nat) (f : Part → Part) (s : State) : (updPart n f s).fab = s.fab := rfl
@[simp] theorem updPart_pipes (n : Nat) (f : Part → Part) (s : State) : (updPart n f s).pipes = s.pipes := rfl
@[simp] theorem updPart_fer (n : Nat) (f : Part → Part) (s : State) : (updPart n f s).fer = s.fer := rfl
@[simp] theorem updPart_sec (n : Nat) (f : Part → Part) (s : State) : (updPart n f s).sec = s.sec := rfl
@[simp] theorem updPart_brd (n : Nat) (f : Part → Part) (s : State) : (updPart n f s).brd = s.brd := rfl
@[simp] theorem updPart_rst (n : Nat) (f : Part → Part) (s : State) : (updPart n f s).rst = s.rst := rfl

/-! ## updStep -/

@[simp] theorem updStep_pending (n : Nat) (f : Step → Step) (s : State) : (updStep n f s).pending = s.pending := rfl
@[simp] theorem updStep_out (n : Nat) (f : Step → Step) (s : State) : (updStep n f s).out = s.out := rfl
@[simp] theorem updStep_free (n : Nat) (f : Step → Step) (s : State) : (updStep n f s).free = s.free := rfl
@[simp] theorem updStep_now (n : Nat) (f : Step → Step) (s : State) : (updStep n f s).now = s.now := rfl
@[simp] theorem updStep_clock (n : Nat) (f : Step → Step) (s : State) : (updStep n f s).clock = s.clock := rfl
@[simp] theorem updStep_bootTime (n : Nat) (f : Step → Step) (s : State) : (updStep n f s).bootTime = s.bootTime := rfl
@[simp] theorem updStep_regs (n : Nat) (f : Step → Step) (s : State) : (updStep n f s).regs = s.regs := rfl
@[simp] theorem updStep_latches (n : Nat) (f : Step → Step) (s : State) : (updStep n f s).latches = s.latches := rfl
@[simp] theorem updStep_places (n : Nat) (f : Step → Step) (s : State) : (updStep n f s).places = s.places := rfl
@[simp] theorem updStep_sites (n : Nat) (f : Step → Step) (s : State) : (updStep n f s).sites = s.sites := rfl
@[simp] theorem updStep_cores (n : Nat) (f : Step → Step) (s : State) : (updStep n f s).cores = s.cores := rfl
@[simp] theorem updStep_rings (n : Nat) (f : Step → Step) (s : State) : (updStep n f s).rings = s.rings := rfl
@[simp] theorem updStep_funcs (n : Nat) (f : Step → Step) (s : State) : (updStep n f s).funcs = s.funcs := rfl
@[simp] theorem updStep_descs (n : Nat) (f : Step → Step) (s : State) : (updStep n f s).descs = s.descs := rfl
@[simp] theorem updStep_accepts (n : Nat) (f : Step → Step) (s : State) : (updStep n f s).accepts = s.accepts := rfl
@[simp] theorem updStep_journal (n : Nat) (f : Step → Step) (s : State) : (updStep n f s).journal = s.journal := rfl
@[simp] theorem updStep_link (n : Nat) (f : Step → Step) (s : State) : (updStep n f s).link = s.link := rfl
@[simp] theorem updStep_flrPf0 (n : Nat) (f : Step → Step) (s : State) : (updStep n f s).flrPf0 = s.flrPf0 := rfl
@[simp] theorem updStep_ldr (n : Nat) (f : Step → Step) (s : State) : (updStep n f s).ldr = s.ldr := rfl
@[simp] theorem updStep_mem (n : Nat) (f : Step → Step) (s : State) : (updStep n f s).mem = s.mem := rfl
@[simp] theorem updStep_syn (n : Nat) (f : Step → Step) (s : State) : (updStep n f s).syn = s.syn := rfl
@[simp] theorem updStep_fab (n : Nat) (f : Step → Step) (s : State) : (updStep n f s).fab = s.fab := rfl
@[simp] theorem updStep_pipes (n : Nat) (f : Step → Step) (s : State) : (updStep n f s).pipes = s.pipes := rfl
@[simp] theorem updStep_fer (n : Nat) (f : Step → Step) (s : State) : (updStep n f s).fer = s.fer := rfl
@[simp] theorem updStep_sec (n : Nat) (f : Step → Step) (s : State) : (updStep n f s).sec = s.sec := rfl
@[simp] theorem updStep_brd (n : Nat) (f : Step → Step) (s : State) : (updStep n f s).brd = s.brd := rfl
@[simp] theorem updStep_rst (n : Nat) (f : Step → Step) (s : State) : (updStep n f s).rst = s.rst := rfl

/-! ## updDesc -/

@[simp] theorem updDesc_pending (id : Nat) (f : Desc → Desc) (s : State) : (updDesc id f s).pending = s.pending := rfl
@[simp] theorem updDesc_out (id : Nat) (f : Desc → Desc) (s : State) : (updDesc id f s).out = s.out := rfl
@[simp] theorem updDesc_free (id : Nat) (f : Desc → Desc) (s : State) : (updDesc id f s).free = s.free := rfl
@[simp] theorem updDesc_now (id : Nat) (f : Desc → Desc) (s : State) : (updDesc id f s).now = s.now := rfl
@[simp] theorem updDesc_clock (id : Nat) (f : Desc → Desc) (s : State) : (updDesc id f s).clock = s.clock := rfl
@[simp] theorem updDesc_bootTime (id : Nat) (f : Desc → Desc) (s : State) : (updDesc id f s).bootTime = s.bootTime := rfl
@[simp] theorem updDesc_regs (id : Nat) (f : Desc → Desc) (s : State) : (updDesc id f s).regs = s.regs := rfl
@[simp] theorem updDesc_latches (id : Nat) (f : Desc → Desc) (s : State) : (updDesc id f s).latches = s.latches := rfl
@[simp] theorem updDesc_places (id : Nat) (f : Desc → Desc) (s : State) : (updDesc id f s).places = s.places := rfl
@[simp] theorem updDesc_sites (id : Nat) (f : Desc → Desc) (s : State) : (updDesc id f s).sites = s.sites := rfl
@[simp] theorem updDesc_cores (id : Nat) (f : Desc → Desc) (s : State) : (updDesc id f s).cores = s.cores := rfl
@[simp] theorem updDesc_parts (id : Nat) (f : Desc → Desc) (s : State) : (updDesc id f s).parts = s.parts := rfl
@[simp] theorem updDesc_rings (id : Nat) (f : Desc → Desc) (s : State) : (updDesc id f s).rings = s.rings := rfl
@[simp] theorem updDesc_funcs (id : Nat) (f : Desc → Desc) (s : State) : (updDesc id f s).funcs = s.funcs := rfl
@[simp] theorem updDesc_accepts (id : Nat) (f : Desc → Desc) (s : State) : (updDesc id f s).accepts = s.accepts := rfl
@[simp] theorem updDesc_journal (id : Nat) (f : Desc → Desc) (s : State) : (updDesc id f s).journal = s.journal := rfl
@[simp] theorem updDesc_link (id : Nat) (f : Desc → Desc) (s : State) : (updDesc id f s).link = s.link := rfl
@[simp] theorem updDesc_flrPf0 (id : Nat) (f : Desc → Desc) (s : State) : (updDesc id f s).flrPf0 = s.flrPf0 := rfl
@[simp] theorem updDesc_ldr (id : Nat) (f : Desc → Desc) (s : State) : (updDesc id f s).ldr = s.ldr := rfl
@[simp] theorem updDesc_mem (id : Nat) (f : Desc → Desc) (s : State) : (updDesc id f s).mem = s.mem := rfl
@[simp] theorem updDesc_syn (id : Nat) (f : Desc → Desc) (s : State) : (updDesc id f s).syn = s.syn := rfl
@[simp] theorem updDesc_fab (id : Nat) (f : Desc → Desc) (s : State) : (updDesc id f s).fab = s.fab := rfl
@[simp] theorem updDesc_pipes (id : Nat) (f : Desc → Desc) (s : State) : (updDesc id f s).pipes = s.pipes := rfl
@[simp] theorem updDesc_fer (id : Nat) (f : Desc → Desc) (s : State) : (updDesc id f s).fer = s.fer := rfl
@[simp] theorem updDesc_sec (id : Nat) (f : Desc → Desc) (s : State) : (updDesc id f s).sec = s.sec := rfl
@[simp] theorem updDesc_brd (id : Nat) (f : Desc → Desc) (s : State) : (updDesc id f s).brd = s.brd := rfl
@[simp] theorem updDesc_rst (id : Nat) (f : Desc → Desc) (s : State) : (updDesc id f s).rst = s.rst := rfl

/-! ## finishDesc -/

@[simp] theorem finishDesc_pending (id : Nat) (st : Status) (s : State) : (finishDesc id st s).pending = s.pending := rfl
@[simp] theorem finishDesc_out (id : Nat) (st : Status) (s : State) : (finishDesc id st s).out = s.out := rfl
@[simp] theorem finishDesc_free (id : Nat) (st : Status) (s : State) : (finishDesc id st s).free = s.free := rfl
@[simp] theorem finishDesc_now (id : Nat) (st : Status) (s : State) : (finishDesc id st s).now = s.now := rfl
@[simp] theorem finishDesc_clock (id : Nat) (st : Status) (s : State) : (finishDesc id st s).clock = s.clock := rfl
@[simp] theorem finishDesc_bootTime (id : Nat) (st : Status) (s : State) : (finishDesc id st s).bootTime = s.bootTime := rfl
@[simp] theorem finishDesc_regs (id : Nat) (st : Status) (s : State) : (finishDesc id st s).regs = s.regs := rfl
@[simp] theorem finishDesc_latches (id : Nat) (st : Status) (s : State) : (finishDesc id st s).latches = s.latches := rfl
@[simp] theorem finishDesc_places (id : Nat) (st : Status) (s : State) : (finishDesc id st s).places = s.places := rfl
@[simp] theorem finishDesc_sites (id : Nat) (st : Status) (s : State) : (finishDesc id st s).sites = s.sites := rfl
@[simp] theorem finishDesc_cores (id : Nat) (st : Status) (s : State) : (finishDesc id st s).cores = s.cores := rfl
@[simp] theorem finishDesc_parts (id : Nat) (st : Status) (s : State) : (finishDesc id st s).parts = s.parts := rfl
@[simp] theorem finishDesc_rings (id : Nat) (st : Status) (s : State) : (finishDesc id st s).rings = s.rings := rfl
@[simp] theorem finishDesc_funcs (id : Nat) (st : Status) (s : State) : (finishDesc id st s).funcs = s.funcs := rfl
@[simp] theorem finishDesc_accepts (id : Nat) (st : Status) (s : State) : (finishDesc id st s).accepts = s.accepts := rfl
@[simp] theorem finishDesc_journal (id : Nat) (st : Status) (s : State) : (finishDesc id st s).journal = s.journal := rfl
@[simp] theorem finishDesc_link (id : Nat) (st : Status) (s : State) : (finishDesc id st s).link = s.link := rfl
@[simp] theorem finishDesc_flrPf0 (id : Nat) (st : Status) (s : State) : (finishDesc id st s).flrPf0 = s.flrPf0 := rfl
@[simp] theorem finishDesc_ldr (id : Nat) (st : Status) (s : State) : (finishDesc id st s).ldr = s.ldr := rfl
@[simp] theorem finishDesc_mem (id : Nat) (st : Status) (s : State) : (finishDesc id st s).mem = s.mem := rfl
@[simp] theorem finishDesc_syn (id : Nat) (st : Status) (s : State) : (finishDesc id st s).syn = s.syn := rfl
@[simp] theorem finishDesc_fab (id : Nat) (st : Status) (s : State) : (finishDesc id st s).fab = s.fab := rfl
@[simp] theorem finishDesc_pipes (id : Nat) (st : Status) (s : State) : (finishDesc id st s).pipes = s.pipes := rfl
@[simp] theorem finishDesc_fer (id : Nat) (st : Status) (s : State) : (finishDesc id st s).fer = s.fer := rfl
@[simp] theorem finishDesc_sec (id : Nat) (st : Status) (s : State) : (finishDesc id st s).sec = s.sec := rfl
@[simp] theorem finishDesc_brd (id : Nat) (st : Status) (s : State) : (finishDesc id st s).brd = s.brd := rfl
@[simp] theorem finishDesc_rst (id : Nat) (st : Status) (s : State) : (finishDesc id st s).rst = s.rst := rfl

/-! ## refuseDesc -/

@[simp] theorem refuseDesc_pending (id : Nat) (st : Status) (s : State) : (refuseDesc id st s).pending = s.pending := rfl
@[simp] theorem refuseDesc_out (id : Nat) (st : Status) (s : State) : (refuseDesc id st s).out = s.out := rfl
@[simp] theorem refuseDesc_free (id : Nat) (st : Status) (s : State) : (refuseDesc id st s).free = s.free := rfl
@[simp] theorem refuseDesc_now (id : Nat) (st : Status) (s : State) : (refuseDesc id st s).now = s.now := rfl
@[simp] theorem refuseDesc_clock (id : Nat) (st : Status) (s : State) : (refuseDesc id st s).clock = s.clock := rfl
@[simp] theorem refuseDesc_bootTime (id : Nat) (st : Status) (s : State) : (refuseDesc id st s).bootTime = s.bootTime := rfl
@[simp] theorem refuseDesc_regs (id : Nat) (st : Status) (s : State) : (refuseDesc id st s).regs = s.regs := rfl
@[simp] theorem refuseDesc_latches (id : Nat) (st : Status) (s : State) : (refuseDesc id st s).latches = s.latches := rfl
@[simp] theorem refuseDesc_places (id : Nat) (st : Status) (s : State) : (refuseDesc id st s).places = s.places := rfl
@[simp] theorem refuseDesc_sites (id : Nat) (st : Status) (s : State) : (refuseDesc id st s).sites = s.sites := rfl
@[simp] theorem refuseDesc_cores (id : Nat) (st : Status) (s : State) : (refuseDesc id st s).cores = s.cores := rfl
@[simp] theorem refuseDesc_parts (id : Nat) (st : Status) (s : State) : (refuseDesc id st s).parts = s.parts := rfl
@[simp] theorem refuseDesc_rings (id : Nat) (st : Status) (s : State) : (refuseDesc id st s).rings = s.rings := rfl
@[simp] theorem refuseDesc_funcs (id : Nat) (st : Status) (s : State) : (refuseDesc id st s).funcs = s.funcs := rfl
@[simp] theorem refuseDesc_accepts (id : Nat) (st : Status) (s : State) : (refuseDesc id st s).accepts = s.accepts := rfl
@[simp] theorem refuseDesc_journal (id : Nat) (st : Status) (s : State) : (refuseDesc id st s).journal = s.journal := rfl
@[simp] theorem refuseDesc_link (id : Nat) (st : Status) (s : State) : (refuseDesc id st s).link = s.link := rfl
@[simp] theorem refuseDesc_flrPf0 (id : Nat) (st : Status) (s : State) : (refuseDesc id st s).flrPf0 = s.flrPf0 := rfl
@[simp] theorem refuseDesc_ldr (id : Nat) (st : Status) (s : State) : (refuseDesc id st s).ldr = s.ldr := rfl
@[simp] theorem refuseDesc_mem (id : Nat) (st : Status) (s : State) : (refuseDesc id st s).mem = s.mem := rfl
@[simp] theorem refuseDesc_syn (id : Nat) (st : Status) (s : State) : (refuseDesc id st s).syn = s.syn := rfl
@[simp] theorem refuseDesc_fab (id : Nat) (st : Status) (s : State) : (refuseDesc id st s).fab = s.fab := rfl
@[simp] theorem refuseDesc_pipes (id : Nat) (st : Status) (s : State) : (refuseDesc id st s).pipes = s.pipes := rfl
@[simp] theorem refuseDesc_fer (id : Nat) (st : Status) (s : State) : (refuseDesc id st s).fer = s.fer := rfl
@[simp] theorem refuseDesc_sec (id : Nat) (st : Status) (s : State) : (refuseDesc id st s).sec = s.sec := rfl
@[simp] theorem refuseDesc_brd (id : Nat) (st : Status) (s : State) : (refuseDesc id st s).brd = s.brd := rfl
@[simp] theorem refuseDesc_rst (id : Nat) (st : Status) (s : State) : (refuseDesc id st s).rst = s.rst := rfl

/-! ## noteDesc -/

@[simp] theorem noteDesc_pending (id : Nat) (c : Status) (s : State) : (noteDesc id c s).pending = s.pending := rfl
@[simp] theorem noteDesc_out (id : Nat) (c : Status) (s : State) : (noteDesc id c s).out = s.out := rfl
@[simp] theorem noteDesc_free (id : Nat) (c : Status) (s : State) : (noteDesc id c s).free = s.free := rfl
@[simp] theorem noteDesc_now (id : Nat) (c : Status) (s : State) : (noteDesc id c s).now = s.now := rfl
@[simp] theorem noteDesc_clock (id : Nat) (c : Status) (s : State) : (noteDesc id c s).clock = s.clock := rfl
@[simp] theorem noteDesc_bootTime (id : Nat) (c : Status) (s : State) : (noteDesc id c s).bootTime = s.bootTime := rfl
@[simp] theorem noteDesc_regs (id : Nat) (c : Status) (s : State) : (noteDesc id c s).regs = s.regs := rfl
@[simp] theorem noteDesc_latches (id : Nat) (c : Status) (s : State) : (noteDesc id c s).latches = s.latches := rfl
@[simp] theorem noteDesc_places (id : Nat) (c : Status) (s : State) : (noteDesc id c s).places = s.places := rfl
@[simp] theorem noteDesc_sites (id : Nat) (c : Status) (s : State) : (noteDesc id c s).sites = s.sites := rfl
@[simp] theorem noteDesc_cores (id : Nat) (c : Status) (s : State) : (noteDesc id c s).cores = s.cores := rfl
@[simp] theorem noteDesc_parts (id : Nat) (c : Status) (s : State) : (noteDesc id c s).parts = s.parts := rfl
@[simp] theorem noteDesc_rings (id : Nat) (c : Status) (s : State) : (noteDesc id c s).rings = s.rings := rfl
@[simp] theorem noteDesc_funcs (id : Nat) (c : Status) (s : State) : (noteDesc id c s).funcs = s.funcs := rfl
@[simp] theorem noteDesc_accepts (id : Nat) (c : Status) (s : State) : (noteDesc id c s).accepts = s.accepts := rfl
@[simp] theorem noteDesc_journal (id : Nat) (c : Status) (s : State) : (noteDesc id c s).journal = s.journal := rfl
@[simp] theorem noteDesc_link (id : Nat) (c : Status) (s : State) : (noteDesc id c s).link = s.link := rfl
@[simp] theorem noteDesc_flrPf0 (id : Nat) (c : Status) (s : State) : (noteDesc id c s).flrPf0 = s.flrPf0 := rfl
@[simp] theorem noteDesc_ldr (id : Nat) (c : Status) (s : State) : (noteDesc id c s).ldr = s.ldr := rfl
@[simp] theorem noteDesc_mem (id : Nat) (c : Status) (s : State) : (noteDesc id c s).mem = s.mem := rfl
@[simp] theorem noteDesc_syn (id : Nat) (c : Status) (s : State) : (noteDesc id c s).syn = s.syn := rfl
@[simp] theorem noteDesc_fab (id : Nat) (c : Status) (s : State) : (noteDesc id c s).fab = s.fab := rfl
@[simp] theorem noteDesc_pipes (id : Nat) (c : Status) (s : State) : (noteDesc id c s).pipes = s.pipes := rfl
@[simp] theorem noteDesc_fer (id : Nat) (c : Status) (s : State) : (noteDesc id c s).fer = s.fer := rfl
@[simp] theorem noteDesc_sec (id : Nat) (c : Status) (s : State) : (noteDesc id c s).sec = s.sec := rfl
@[simp] theorem noteDesc_brd (id : Nat) (c : Status) (s : State) : (noteDesc id c s).brd = s.brd := rfl
@[simp] theorem noteDesc_rst (id : Nat) (c : Status) (s : State) : (noteDesc id c s).rst = s.rst := rfl

/-! ## setPhase -/

@[simp] theorem setPhase_pending (id : Nat) (ph : DescPhase) (s : State) : (setPhase id ph s).pending = s.pending := rfl
@[simp] theorem setPhase_out (id : Nat) (ph : DescPhase) (s : State) : (setPhase id ph s).out = s.out := rfl
@[simp] theorem setPhase_free (id : Nat) (ph : DescPhase) (s : State) : (setPhase id ph s).free = s.free := rfl
@[simp] theorem setPhase_now (id : Nat) (ph : DescPhase) (s : State) : (setPhase id ph s).now = s.now := rfl
@[simp] theorem setPhase_clock (id : Nat) (ph : DescPhase) (s : State) : (setPhase id ph s).clock = s.clock := rfl
@[simp] theorem setPhase_bootTime (id : Nat) (ph : DescPhase) (s : State) : (setPhase id ph s).bootTime = s.bootTime := rfl
@[simp] theorem setPhase_regs (id : Nat) (ph : DescPhase) (s : State) : (setPhase id ph s).regs = s.regs := rfl
@[simp] theorem setPhase_latches (id : Nat) (ph : DescPhase) (s : State) : (setPhase id ph s).latches = s.latches := rfl
@[simp] theorem setPhase_places (id : Nat) (ph : DescPhase) (s : State) : (setPhase id ph s).places = s.places := rfl
@[simp] theorem setPhase_sites (id : Nat) (ph : DescPhase) (s : State) : (setPhase id ph s).sites = s.sites := rfl
@[simp] theorem setPhase_cores (id : Nat) (ph : DescPhase) (s : State) : (setPhase id ph s).cores = s.cores := rfl
@[simp] theorem setPhase_parts (id : Nat) (ph : DescPhase) (s : State) : (setPhase id ph s).parts = s.parts := rfl
@[simp] theorem setPhase_rings (id : Nat) (ph : DescPhase) (s : State) : (setPhase id ph s).rings = s.rings := rfl
@[simp] theorem setPhase_funcs (id : Nat) (ph : DescPhase) (s : State) : (setPhase id ph s).funcs = s.funcs := rfl
@[simp] theorem setPhase_accepts (id : Nat) (ph : DescPhase) (s : State) : (setPhase id ph s).accepts = s.accepts := rfl
@[simp] theorem setPhase_journal (id : Nat) (ph : DescPhase) (s : State) : (setPhase id ph s).journal = s.journal := rfl
@[simp] theorem setPhase_link (id : Nat) (ph : DescPhase) (s : State) : (setPhase id ph s).link = s.link := rfl
@[simp] theorem setPhase_flrPf0 (id : Nat) (ph : DescPhase) (s : State) : (setPhase id ph s).flrPf0 = s.flrPf0 := rfl
@[simp] theorem setPhase_ldr (id : Nat) (ph : DescPhase) (s : State) : (setPhase id ph s).ldr = s.ldr := rfl
@[simp] theorem setPhase_mem (id : Nat) (ph : DescPhase) (s : State) : (setPhase id ph s).mem = s.mem := rfl
@[simp] theorem setPhase_syn (id : Nat) (ph : DescPhase) (s : State) : (setPhase id ph s).syn = s.syn := rfl
@[simp] theorem setPhase_fab (id : Nat) (ph : DescPhase) (s : State) : (setPhase id ph s).fab = s.fab := rfl
@[simp] theorem setPhase_pipes (id : Nat) (ph : DescPhase) (s : State) : (setPhase id ph s).pipes = s.pipes := rfl
@[simp] theorem setPhase_fer (id : Nat) (ph : DescPhase) (s : State) : (setPhase id ph s).fer = s.fer := rfl
@[simp] theorem setPhase_sec (id : Nat) (ph : DescPhase) (s : State) : (setPhase id ph s).sec = s.sec := rfl
@[simp] theorem setPhase_brd (id : Nat) (ph : DescPhase) (s : State) : (setPhase id ph s).brd = s.brd := rfl
@[simp] theorem setPhase_rst (id : Nat) (ph : DescPhase) (s : State) : (setPhase id ph s).rst = s.rst := rfl

/-! ## barAccess -/

@[simp] theorem barAccess_pending (s : State) : (barAccess s).pending = s.pending := rfl
@[simp] theorem barAccess_out (s : State) : (barAccess s).out = s.out := rfl
@[simp] theorem barAccess_free (s : State) : (barAccess s).free = s.free := rfl
@[simp] theorem barAccess_now (s : State) : (barAccess s).now = s.now := rfl
@[simp] theorem barAccess_clock (s : State) : (barAccess s).clock = s.clock := rfl
@[simp] theorem barAccess_bootTime (s : State) : (barAccess s).bootTime = s.bootTime := rfl
@[simp] theorem barAccess_regs (s : State) : (barAccess s).regs = s.regs := rfl
@[simp] theorem barAccess_latches (s : State) : (barAccess s).latches = s.latches := rfl
@[simp] theorem barAccess_places (s : State) : (barAccess s).places = s.places := rfl
@[simp] theorem barAccess_sites (s : State) : (barAccess s).sites = s.sites := rfl
@[simp] theorem barAccess_cores (s : State) : (barAccess s).cores = s.cores := rfl
@[simp] theorem barAccess_parts (s : State) : (barAccess s).parts = s.parts := rfl
@[simp] theorem barAccess_rings (s : State) : (barAccess s).rings = s.rings := rfl
@[simp] theorem barAccess_funcs (s : State) : (barAccess s).funcs = s.funcs := rfl
@[simp] theorem barAccess_descs (s : State) : (barAccess s).descs = s.descs := rfl
@[simp] theorem barAccess_accepts (s : State) : (barAccess s).accepts = s.accepts := rfl
@[simp] theorem barAccess_journal (s : State) : (barAccess s).journal = s.journal := rfl
@[simp] theorem barAccess_flrPf0 (s : State) : (barAccess s).flrPf0 = s.flrPf0 := rfl
@[simp] theorem barAccess_ldr (s : State) : (barAccess s).ldr = s.ldr := rfl
@[simp] theorem barAccess_mem (s : State) : (barAccess s).mem = s.mem := rfl
@[simp] theorem barAccess_syn (s : State) : (barAccess s).syn = s.syn := rfl
@[simp] theorem barAccess_fab (s : State) : (barAccess s).fab = s.fab := rfl
@[simp] theorem barAccess_pipes (s : State) : (barAccess s).pipes = s.pipes := rfl
@[simp] theorem barAccess_fer (s : State) : (barAccess s).fer = s.fer := rfl
@[simp] theorem barAccess_sec (s : State) : (barAccess s).sec = s.sec := rfl
@[simp] theorem barAccess_brd (s : State) : (barAccess s).brd = s.brd := rfl
@[simp] theorem barAccess_rst (s : State) : (barAccess s).rst = s.rst := rfl

/-! ## postEvent -/

@[simp] theorem postEvent_pending (e : Ev) (s : State) : (postEvent e s).pending = s.pending := rfl
@[simp] theorem postEvent_out (e : Ev) (s : State) : (postEvent e s).out = s.out := rfl
@[simp] theorem postEvent_free (e : Ev) (s : State) : (postEvent e s).free = s.free := rfl
@[simp] theorem postEvent_now (e : Ev) (s : State) : (postEvent e s).now = s.now := rfl
@[simp] theorem postEvent_clock (e : Ev) (s : State) : (postEvent e s).clock = s.clock := rfl
@[simp] theorem postEvent_bootTime (e : Ev) (s : State) : (postEvent e s).bootTime = s.bootTime := rfl
@[simp] theorem postEvent_regs (e : Ev) (s : State) : (postEvent e s).regs = s.regs := rfl
@[simp] theorem postEvent_latches (e : Ev) (s : State) : (postEvent e s).latches = s.latches := rfl
@[simp] theorem postEvent_places (e : Ev) (s : State) : (postEvent e s).places = s.places := rfl
@[simp] theorem postEvent_sites (e : Ev) (s : State) : (postEvent e s).sites = s.sites := rfl
@[simp] theorem postEvent_cores (e : Ev) (s : State) : (postEvent e s).cores = s.cores := rfl
@[simp] theorem postEvent_parts (e : Ev) (s : State) : (postEvent e s).parts = s.parts := rfl
@[simp] theorem postEvent_rings (e : Ev) (s : State) : (postEvent e s).rings = s.rings := rfl
@[simp] theorem postEvent_funcs (e : Ev) (s : State) : (postEvent e s).funcs = s.funcs := rfl
@[simp] theorem postEvent_descs (e : Ev) (s : State) : (postEvent e s).descs = s.descs := rfl
@[simp] theorem postEvent_accepts (e : Ev) (s : State) : (postEvent e s).accepts = s.accepts := rfl
@[simp] theorem postEvent_journal (e : Ev) (s : State) : (postEvent e s).journal = s.journal := rfl
@[simp] theorem postEvent_link (e : Ev) (s : State) : (postEvent e s).link = s.link := rfl
@[simp] theorem postEvent_flrPf0 (e : Ev) (s : State) : (postEvent e s).flrPf0 = s.flrPf0 := rfl
@[simp] theorem postEvent_ldr (e : Ev) (s : State) : (postEvent e s).ldr = s.ldr := rfl
@[simp] theorem postEvent_mem (e : Ev) (s : State) : (postEvent e s).mem = s.mem := rfl
@[simp] theorem postEvent_syn (e : Ev) (s : State) : (postEvent e s).syn = s.syn := rfl
@[simp] theorem postEvent_fab (e : Ev) (s : State) : (postEvent e s).fab = s.fab := rfl
@[simp] theorem postEvent_pipes (e : Ev) (s : State) : (postEvent e s).pipes = s.pipes := rfl
@[simp] theorem postEvent_sec (e : Ev) (s : State) : (postEvent e s).sec = s.sec := rfl
@[simp] theorem postEvent_brd (e : Ev) (s : State) : (postEvent e s).brd = s.brd := rfl
@[simp] theorem postEvent_rst (e : Ev) (s : State) : (postEvent e s).rst = s.rst := rfl

/-! ## queueRepair -/

@[simp] theorem queueRepair_pending (cls what : Nat) (s : State) : (queueRepair cls what s).pending = s.pending := rfl
@[simp] theorem queueRepair_out (cls what : Nat) (s : State) : (queueRepair cls what s).out = s.out := rfl
@[simp] theorem queueRepair_free (cls what : Nat) (s : State) : (queueRepair cls what s).free = s.free := rfl
@[simp] theorem queueRepair_now (cls what : Nat) (s : State) : (queueRepair cls what s).now = s.now := rfl
@[simp] theorem queueRepair_clock (cls what : Nat) (s : State) : (queueRepair cls what s).clock = s.clock := rfl
@[simp] theorem queueRepair_bootTime (cls what : Nat) (s : State) : (queueRepair cls what s).bootTime = s.bootTime := rfl
@[simp] theorem queueRepair_regs (cls what : Nat) (s : State) : (queueRepair cls what s).regs = s.regs := rfl
@[simp] theorem queueRepair_latches (cls what : Nat) (s : State) : (queueRepair cls what s).latches = s.latches := rfl
@[simp] theorem queueRepair_places (cls what : Nat) (s : State) : (queueRepair cls what s).places = s.places := rfl
@[simp] theorem queueRepair_sites (cls what : Nat) (s : State) : (queueRepair cls what s).sites = s.sites := rfl
@[simp] theorem queueRepair_cores (cls what : Nat) (s : State) : (queueRepair cls what s).cores = s.cores := rfl
@[simp] theorem queueRepair_parts (cls what : Nat) (s : State) : (queueRepair cls what s).parts = s.parts := rfl
@[simp] theorem queueRepair_rings (cls what : Nat) (s : State) : (queueRepair cls what s).rings = s.rings := rfl
@[simp] theorem queueRepair_funcs (cls what : Nat) (s : State) : (queueRepair cls what s).funcs = s.funcs := rfl
@[simp] theorem queueRepair_descs (cls what : Nat) (s : State) : (queueRepair cls what s).descs = s.descs := rfl
@[simp] theorem queueRepair_accepts (cls what : Nat) (s : State) : (queueRepair cls what s).accepts = s.accepts := rfl
@[simp] theorem queueRepair_journal (cls what : Nat) (s : State) : (queueRepair cls what s).journal = s.journal := rfl
@[simp] theorem queueRepair_link (cls what : Nat) (s : State) : (queueRepair cls what s).link = s.link := rfl
@[simp] theorem queueRepair_flrPf0 (cls what : Nat) (s : State) : (queueRepair cls what s).flrPf0 = s.flrPf0 := rfl
@[simp] theorem queueRepair_ldr (cls what : Nat) (s : State) : (queueRepair cls what s).ldr = s.ldr := rfl
@[simp] theorem queueRepair_mem (cls what : Nat) (s : State) : (queueRepair cls what s).mem = s.mem := rfl
@[simp] theorem queueRepair_syn (cls what : Nat) (s : State) : (queueRepair cls what s).syn = s.syn := rfl
@[simp] theorem queueRepair_fab (cls what : Nat) (s : State) : (queueRepair cls what s).fab = s.fab := rfl
@[simp] theorem queueRepair_pipes (cls what : Nat) (s : State) : (queueRepair cls what s).pipes = s.pipes := rfl
@[simp] theorem queueRepair_sec (cls what : Nat) (s : State) : (queueRepair cls what s).sec = s.sec := rfl
@[simp] theorem queueRepair_brd (cls what : Nat) (s : State) : (queueRepair cls what s).brd = s.brd := rfl
@[simp] theorem queueRepair_rst (cls what : Nat) (s : State) : (queueRepair cls what s).rst = s.rst := rfl

/-! ## raiseCause -/

@[simp] theorem raiseCause_pending (n bit : Nat) (s : State) : (raiseCause n bit s).pending = s.pending := rfl
@[simp] theorem raiseCause_out (n bit : Nat) (s : State) : (raiseCause n bit s).out = s.out := rfl
@[simp] theorem raiseCause_free (n bit : Nat) (s : State) : (raiseCause n bit s).free = s.free := rfl
@[simp] theorem raiseCause_now (n bit : Nat) (s : State) : (raiseCause n bit s).now = s.now := rfl
@[simp] theorem raiseCause_clock (n bit : Nat) (s : State) : (raiseCause n bit s).clock = s.clock := rfl
@[simp] theorem raiseCause_bootTime (n bit : Nat) (s : State) : (raiseCause n bit s).bootTime = s.bootTime := rfl
@[simp] theorem raiseCause_regs (n bit : Nat) (s : State) : (raiseCause n bit s).regs = s.regs := rfl
@[simp] theorem raiseCause_latches (n bit : Nat) (s : State) : (raiseCause n bit s).latches = s.latches := rfl
@[simp] theorem raiseCause_places (n bit : Nat) (s : State) : (raiseCause n bit s).places = s.places := rfl
@[simp] theorem raiseCause_sites (n bit : Nat) (s : State) : (raiseCause n bit s).sites = s.sites := rfl
@[simp] theorem raiseCause_cores (n bit : Nat) (s : State) : (raiseCause n bit s).cores = s.cores := rfl
@[simp] theorem raiseCause_rings (n bit : Nat) (s : State) : (raiseCause n bit s).rings = s.rings := rfl
@[simp] theorem raiseCause_funcs (n bit : Nat) (s : State) : (raiseCause n bit s).funcs = s.funcs := rfl
@[simp] theorem raiseCause_descs (n bit : Nat) (s : State) : (raiseCause n bit s).descs = s.descs := rfl
@[simp] theorem raiseCause_accepts (n bit : Nat) (s : State) : (raiseCause n bit s).accepts = s.accepts := rfl
@[simp] theorem raiseCause_journal (n bit : Nat) (s : State) : (raiseCause n bit s).journal = s.journal := rfl
@[simp] theorem raiseCause_link (n bit : Nat) (s : State) : (raiseCause n bit s).link = s.link := rfl
@[simp] theorem raiseCause_flrPf0 (n bit : Nat) (s : State) : (raiseCause n bit s).flrPf0 = s.flrPf0 := rfl
@[simp] theorem raiseCause_ldr (n bit : Nat) (s : State) : (raiseCause n bit s).ldr = s.ldr := rfl
@[simp] theorem raiseCause_mem (n bit : Nat) (s : State) : (raiseCause n bit s).mem = s.mem := rfl
@[simp] theorem raiseCause_syn (n bit : Nat) (s : State) : (raiseCause n bit s).syn = s.syn := rfl
@[simp] theorem raiseCause_fab (n bit : Nat) (s : State) : (raiseCause n bit s).fab = s.fab := rfl
@[simp] theorem raiseCause_pipes (n bit : Nat) (s : State) : (raiseCause n bit s).pipes = s.pipes := rfl
@[simp] theorem raiseCause_fer (n bit : Nat) (s : State) : (raiseCause n bit s).fer = s.fer := rfl
@[simp] theorem raiseCause_sec (n bit : Nat) (s : State) : (raiseCause n bit s).sec = s.sec := rfl
@[simp] theorem raiseCause_brd (n bit : Nat) (s : State) : (raiseCause n bit s).brd = s.brd := rfl
@[simp] theorem raiseCause_rst (n bit : Nat) (s : State) : (raiseCause n bit s).rst = s.rst := rfl

/-! ## raiseEnd -/

@[simp] theorem raiseEnd_pending (n : Nat) (code : Status) (s : State) : (raiseEnd n code s).pending = s.pending := rfl
@[simp] theorem raiseEnd_out (n : Nat) (code : Status) (s : State) : (raiseEnd n code s).out = s.out := rfl
@[simp] theorem raiseEnd_free (n : Nat) (code : Status) (s : State) : (raiseEnd n code s).free = s.free := rfl
@[simp] theorem raiseEnd_now (n : Nat) (code : Status) (s : State) : (raiseEnd n code s).now = s.now := rfl
@[simp] theorem raiseEnd_clock (n : Nat) (code : Status) (s : State) : (raiseEnd n code s).clock = s.clock := rfl
@[simp] theorem raiseEnd_bootTime (n : Nat) (code : Status) (s : State) : (raiseEnd n code s).bootTime = s.bootTime := rfl
@[simp] theorem raiseEnd_regs (n : Nat) (code : Status) (s : State) : (raiseEnd n code s).regs = s.regs := rfl
@[simp] theorem raiseEnd_latches (n : Nat) (code : Status) (s : State) : (raiseEnd n code s).latches = s.latches := rfl
@[simp] theorem raiseEnd_places (n : Nat) (code : Status) (s : State) : (raiseEnd n code s).places = s.places := rfl
@[simp] theorem raiseEnd_sites (n : Nat) (code : Status) (s : State) : (raiseEnd n code s).sites = s.sites := rfl
@[simp] theorem raiseEnd_cores (n : Nat) (code : Status) (s : State) : (raiseEnd n code s).cores = s.cores := rfl
@[simp] theorem raiseEnd_rings (n : Nat) (code : Status) (s : State) : (raiseEnd n code s).rings = s.rings := rfl
@[simp] theorem raiseEnd_funcs (n : Nat) (code : Status) (s : State) : (raiseEnd n code s).funcs = s.funcs := rfl
@[simp] theorem raiseEnd_descs (n : Nat) (code : Status) (s : State) : (raiseEnd n code s).descs = s.descs := rfl
@[simp] theorem raiseEnd_accepts (n : Nat) (code : Status) (s : State) : (raiseEnd n code s).accepts = s.accepts := rfl
@[simp] theorem raiseEnd_journal (n : Nat) (code : Status) (s : State) : (raiseEnd n code s).journal = s.journal := rfl
@[simp] theorem raiseEnd_link (n : Nat) (code : Status) (s : State) : (raiseEnd n code s).link = s.link := rfl
@[simp] theorem raiseEnd_flrPf0 (n : Nat) (code : Status) (s : State) : (raiseEnd n code s).flrPf0 = s.flrPf0 := rfl
@[simp] theorem raiseEnd_ldr (n : Nat) (code : Status) (s : State) : (raiseEnd n code s).ldr = s.ldr := rfl
@[simp] theorem raiseEnd_mem (n : Nat) (code : Status) (s : State) : (raiseEnd n code s).mem = s.mem := rfl
@[simp] theorem raiseEnd_syn (n : Nat) (code : Status) (s : State) : (raiseEnd n code s).syn = s.syn := rfl
@[simp] theorem raiseEnd_fab (n : Nat) (code : Status) (s : State) : (raiseEnd n code s).fab = s.fab := rfl
@[simp] theorem raiseEnd_pipes (n : Nat) (code : Status) (s : State) : (raiseEnd n code s).pipes = s.pipes := rfl
@[simp] theorem raiseEnd_fer (n : Nat) (code : Status) (s : State) : (raiseEnd n code s).fer = s.fer := rfl
@[simp] theorem raiseEnd_sec (n : Nat) (code : Status) (s : State) : (raiseEnd n code s).sec = s.sec := rfl
@[simp] theorem raiseEnd_brd (n : Nat) (code : Status) (s : State) : (raiseEnd n code s).brd = s.brd := rfl
@[simp] theorem raiseEnd_rst (n : Nat) (code : Status) (s : State) : (raiseEnd n code s).rst = s.rst := rfl

/-! ## noteStep -/

@[simp] theorem noteStep_pending (n : Nat) (c : Status) (s : State) : (noteStep n c s).pending = s.pending := rfl
@[simp] theorem noteStep_out (n : Nat) (c : Status) (s : State) : (noteStep n c s).out = s.out := rfl
@[simp] theorem noteStep_free (n : Nat) (c : Status) (s : State) : (noteStep n c s).free = s.free := rfl
@[simp] theorem noteStep_now (n : Nat) (c : Status) (s : State) : (noteStep n c s).now = s.now := rfl
@[simp] theorem noteStep_clock (n : Nat) (c : Status) (s : State) : (noteStep n c s).clock = s.clock := rfl
@[simp] theorem noteStep_bootTime (n : Nat) (c : Status) (s : State) : (noteStep n c s).bootTime = s.bootTime := rfl
@[simp] theorem noteStep_regs (n : Nat) (c : Status) (s : State) : (noteStep n c s).regs = s.regs := rfl
@[simp] theorem noteStep_latches (n : Nat) (c : Status) (s : State) : (noteStep n c s).latches = s.latches := rfl
@[simp] theorem noteStep_places (n : Nat) (c : Status) (s : State) : (noteStep n c s).places = s.places := rfl
@[simp] theorem noteStep_sites (n : Nat) (c : Status) (s : State) : (noteStep n c s).sites = s.sites := rfl
@[simp] theorem noteStep_cores (n : Nat) (c : Status) (s : State) : (noteStep n c s).cores = s.cores := rfl
@[simp] theorem noteStep_rings (n : Nat) (c : Status) (s : State) : (noteStep n c s).rings = s.rings := rfl
@[simp] theorem noteStep_funcs (n : Nat) (c : Status) (s : State) : (noteStep n c s).funcs = s.funcs := rfl
@[simp] theorem noteStep_descs (n : Nat) (c : Status) (s : State) : (noteStep n c s).descs = s.descs := rfl
@[simp] theorem noteStep_accepts (n : Nat) (c : Status) (s : State) : (noteStep n c s).accepts = s.accepts := rfl
@[simp] theorem noteStep_journal (n : Nat) (c : Status) (s : State) : (noteStep n c s).journal = s.journal := rfl
@[simp] theorem noteStep_link (n : Nat) (c : Status) (s : State) : (noteStep n c s).link = s.link := rfl
@[simp] theorem noteStep_flrPf0 (n : Nat) (c : Status) (s : State) : (noteStep n c s).flrPf0 = s.flrPf0 := rfl
@[simp] theorem noteStep_ldr (n : Nat) (c : Status) (s : State) : (noteStep n c s).ldr = s.ldr := rfl
@[simp] theorem noteStep_mem (n : Nat) (c : Status) (s : State) : (noteStep n c s).mem = s.mem := rfl
@[simp] theorem noteStep_syn (n : Nat) (c : Status) (s : State) : (noteStep n c s).syn = s.syn := rfl
@[simp] theorem noteStep_fab (n : Nat) (c : Status) (s : State) : (noteStep n c s).fab = s.fab := rfl
@[simp] theorem noteStep_pipes (n : Nat) (c : Status) (s : State) : (noteStep n c s).pipes = s.pipes := rfl
@[simp] theorem noteStep_fer (n : Nat) (c : Status) (s : State) : (noteStep n c s).fer = s.fer := rfl
@[simp] theorem noteStep_sec (n : Nat) (c : Status) (s : State) : (noteStep n c s).sec = s.sec := rfl
@[simp] theorem noteStep_brd (n : Nat) (c : Status) (s : State) : (noteStep n c s).brd = s.brd := rfl
@[simp] theorem noteStep_rst (n : Nat) (c : Status) (s : State) : (noteStep n c s).rst = s.rst := rfl

/-! ## countEvent -/

@[simp] theorem countEvent_pending (n : Nat) (s : State) : (countEvent n s).pending = s.pending := rfl
@[simp] theorem countEvent_out (n : Nat) (s : State) : (countEvent n s).out = s.out := rfl
@[simp] theorem countEvent_free (n : Nat) (s : State) : (countEvent n s).free = s.free := rfl
@[simp] theorem countEvent_now (n : Nat) (s : State) : (countEvent n s).now = s.now := rfl
@[simp] theorem countEvent_clock (n : Nat) (s : State) : (countEvent n s).clock = s.clock := rfl
@[simp] theorem countEvent_bootTime (n : Nat) (s : State) : (countEvent n s).bootTime = s.bootTime := rfl
@[simp] theorem countEvent_latches (n : Nat) (s : State) : (countEvent n s).latches = s.latches := rfl
@[simp] theorem countEvent_places (n : Nat) (s : State) : (countEvent n s).places = s.places := rfl
@[simp] theorem countEvent_sites (n : Nat) (s : State) : (countEvent n s).sites = s.sites := rfl
@[simp] theorem countEvent_cores (n : Nat) (s : State) : (countEvent n s).cores = s.cores := rfl
@[simp] theorem countEvent_rings (n : Nat) (s : State) : (countEvent n s).rings = s.rings := rfl
@[simp] theorem countEvent_funcs (n : Nat) (s : State) : (countEvent n s).funcs = s.funcs := rfl
@[simp] theorem countEvent_descs (n : Nat) (s : State) : (countEvent n s).descs = s.descs := rfl
@[simp] theorem countEvent_accepts (n : Nat) (s : State) : (countEvent n s).accepts = s.accepts := rfl
@[simp] theorem countEvent_journal (n : Nat) (s : State) : (countEvent n s).journal = s.journal := rfl
@[simp] theorem countEvent_link (n : Nat) (s : State) : (countEvent n s).link = s.link := rfl
@[simp] theorem countEvent_flrPf0 (n : Nat) (s : State) : (countEvent n s).flrPf0 = s.flrPf0 := rfl
@[simp] theorem countEvent_ldr (n : Nat) (s : State) : (countEvent n s).ldr = s.ldr := rfl
@[simp] theorem countEvent_mem (n : Nat) (s : State) : (countEvent n s).mem = s.mem := rfl
@[simp] theorem countEvent_syn (n : Nat) (s : State) : (countEvent n s).syn = s.syn := rfl
@[simp] theorem countEvent_fab (n : Nat) (s : State) : (countEvent n s).fab = s.fab := rfl
@[simp] theorem countEvent_pipes (n : Nat) (s : State) : (countEvent n s).pipes = s.pipes := rfl
@[simp] theorem countEvent_fer (n : Nat) (s : State) : (countEvent n s).fer = s.fer := rfl
@[simp] theorem countEvent_sec (n : Nat) (s : State) : (countEvent n s).sec = s.sec := rfl
@[simp] theorem countEvent_brd (n : Nat) (s : State) : (countEvent n s).brd = s.brd := rfl
@[simp] theorem countEvent_rst (n : Nat) (s : State) : (countEvent n s).rst = s.rst := rfl

/-! ## noteCore -/

@[simp] theorem noteCore_pending (c : Nat) (code : Status) (s : State) : (noteCore c code s).pending = s.pending := rfl
@[simp] theorem noteCore_out (c : Nat) (code : Status) (s : State) : (noteCore c code s).out = s.out := rfl
@[simp] theorem noteCore_free (c : Nat) (code : Status) (s : State) : (noteCore c code s).free = s.free := rfl
@[simp] theorem noteCore_now (c : Nat) (code : Status) (s : State) : (noteCore c code s).now = s.now := rfl
@[simp] theorem noteCore_clock (c : Nat) (code : Status) (s : State) : (noteCore c code s).clock = s.clock := rfl
@[simp] theorem noteCore_bootTime (c : Nat) (code : Status) (s : State) : (noteCore c code s).bootTime = s.bootTime := rfl
@[simp] theorem noteCore_regs (c : Nat) (code : Status) (s : State) : (noteCore c code s).regs = s.regs := rfl
@[simp] theorem noteCore_latches (c : Nat) (code : Status) (s : State) : (noteCore c code s).latches = s.latches := rfl
@[simp] theorem noteCore_places (c : Nat) (code : Status) (s : State) : (noteCore c code s).places = s.places := rfl
@[simp] theorem noteCore_sites (c : Nat) (code : Status) (s : State) : (noteCore c code s).sites = s.sites := rfl
@[simp] theorem noteCore_rings (c : Nat) (code : Status) (s : State) : (noteCore c code s).rings = s.rings := rfl
@[simp] theorem noteCore_funcs (c : Nat) (code : Status) (s : State) : (noteCore c code s).funcs = s.funcs := rfl
@[simp] theorem noteCore_descs (c : Nat) (code : Status) (s : State) : (noteCore c code s).descs = s.descs := rfl
@[simp] theorem noteCore_accepts (c : Nat) (code : Status) (s : State) : (noteCore c code s).accepts = s.accepts := rfl
@[simp] theorem noteCore_journal (c : Nat) (code : Status) (s : State) : (noteCore c code s).journal = s.journal := rfl
@[simp] theorem noteCore_link (c : Nat) (code : Status) (s : State) : (noteCore c code s).link = s.link := rfl
@[simp] theorem noteCore_flrPf0 (c : Nat) (code : Status) (s : State) : (noteCore c code s).flrPf0 = s.flrPf0 := rfl
@[simp] theorem noteCore_ldr (c : Nat) (code : Status) (s : State) : (noteCore c code s).ldr = s.ldr := rfl
@[simp] theorem noteCore_mem (c : Nat) (code : Status) (s : State) : (noteCore c code s).mem = s.mem := rfl
@[simp] theorem noteCore_syn (c : Nat) (code : Status) (s : State) : (noteCore c code s).syn = s.syn := rfl
@[simp] theorem noteCore_fab (c : Nat) (code : Status) (s : State) : (noteCore c code s).fab = s.fab := rfl
@[simp] theorem noteCore_pipes (c : Nat) (code : Status) (s : State) : (noteCore c code s).pipes = s.pipes := rfl
@[simp] theorem noteCore_fer (c : Nat) (code : Status) (s : State) : (noteCore c code s).fer = s.fer := rfl
@[simp] theorem noteCore_sec (c : Nat) (code : Status) (s : State) : (noteCore c code s).sec = s.sec := rfl
@[simp] theorem noteCore_brd (c : Nat) (code : Status) (s : State) : (noteCore c code s).brd = s.brd := rfl
@[simp] theorem noteCore_rst (c : Nat) (code : Status) (s : State) : (noteCore c code s).rst = s.rst := rfl

/-! ## updStack -/

@[simp] theorem updStack_pending (k : Nat) (f : Stack → Stack) (s : State) : (updStack k f s).pending = s.pending := rfl
@[simp] theorem updStack_out (k : Nat) (f : Stack → Stack) (s : State) : (updStack k f s).out = s.out := rfl
@[simp] theorem updStack_free (k : Nat) (f : Stack → Stack) (s : State) : (updStack k f s).free = s.free := rfl
@[simp] theorem updStack_now (k : Nat) (f : Stack → Stack) (s : State) : (updStack k f s).now = s.now := rfl
@[simp] theorem updStack_clock (k : Nat) (f : Stack → Stack) (s : State) : (updStack k f s).clock = s.clock := rfl
@[simp] theorem updStack_bootTime (k : Nat) (f : Stack → Stack) (s : State) : (updStack k f s).bootTime = s.bootTime := rfl
@[simp] theorem updStack_regs (k : Nat) (f : Stack → Stack) (s : State) : (updStack k f s).regs = s.regs := rfl
@[simp] theorem updStack_latches (k : Nat) (f : Stack → Stack) (s : State) : (updStack k f s).latches = s.latches := rfl
@[simp] theorem updStack_places (k : Nat) (f : Stack → Stack) (s : State) : (updStack k f s).places = s.places := rfl
@[simp] theorem updStack_sites (k : Nat) (f : Stack → Stack) (s : State) : (updStack k f s).sites = s.sites := rfl
@[simp] theorem updStack_cores (k : Nat) (f : Stack → Stack) (s : State) : (updStack k f s).cores = s.cores := rfl
@[simp] theorem updStack_parts (k : Nat) (f : Stack → Stack) (s : State) : (updStack k f s).parts = s.parts := rfl
@[simp] theorem updStack_rings (k : Nat) (f : Stack → Stack) (s : State) : (updStack k f s).rings = s.rings := rfl
@[simp] theorem updStack_funcs (k : Nat) (f : Stack → Stack) (s : State) : (updStack k f s).funcs = s.funcs := rfl
@[simp] theorem updStack_descs (k : Nat) (f : Stack → Stack) (s : State) : (updStack k f s).descs = s.descs := rfl
@[simp] theorem updStack_accepts (k : Nat) (f : Stack → Stack) (s : State) : (updStack k f s).accepts = s.accepts := rfl
@[simp] theorem updStack_journal (k : Nat) (f : Stack → Stack) (s : State) : (updStack k f s).journal = s.journal := rfl
@[simp] theorem updStack_link (k : Nat) (f : Stack → Stack) (s : State) : (updStack k f s).link = s.link := rfl
@[simp] theorem updStack_flrPf0 (k : Nat) (f : Stack → Stack) (s : State) : (updStack k f s).flrPf0 = s.flrPf0 := rfl
@[simp] theorem updStack_ldr (k : Nat) (f : Stack → Stack) (s : State) : (updStack k f s).ldr = s.ldr := rfl
@[simp] theorem updStack_syn (k : Nat) (f : Stack → Stack) (s : State) : (updStack k f s).syn = s.syn := rfl
@[simp] theorem updStack_fab (k : Nat) (f : Stack → Stack) (s : State) : (updStack k f s).fab = s.fab := rfl
@[simp] theorem updStack_pipes (k : Nat) (f : Stack → Stack) (s : State) : (updStack k f s).pipes = s.pipes := rfl
@[simp] theorem updStack_fer (k : Nat) (f : Stack → Stack) (s : State) : (updStack k f s).fer = s.fer := rfl
@[simp] theorem updStack_sec (k : Nat) (f : Stack → Stack) (s : State) : (updStack k f s).sec = s.sec := rfl
@[simp] theorem updStack_brd (k : Nat) (f : Stack → Stack) (s : State) : (updStack k f s).brd = s.brd := rfl
@[simp] theorem updStack_rst (k : Nat) (f : Stack → Stack) (s : State) : (updStack k f s).rst = s.rst := rfl

/-! ## setLine -/

@[simp] theorem setLine_pending (ln : Nat) (l : Option Line) (s : State) : (setLine ln l s).pending = s.pending := rfl
@[simp] theorem setLine_out (ln : Nat) (l : Option Line) (s : State) : (setLine ln l s).out = s.out := rfl
@[simp] theorem setLine_free (ln : Nat) (l : Option Line) (s : State) : (setLine ln l s).free = s.free := rfl
@[simp] theorem setLine_now (ln : Nat) (l : Option Line) (s : State) : (setLine ln l s).now = s.now := rfl
@[simp] theorem setLine_clock (ln : Nat) (l : Option Line) (s : State) : (setLine ln l s).clock = s.clock := rfl
@[simp] theorem setLine_bootTime (ln : Nat) (l : Option Line) (s : State) : (setLine ln l s).bootTime = s.bootTime := rfl
@[simp] theorem setLine_regs (ln : Nat) (l : Option Line) (s : State) : (setLine ln l s).regs = s.regs := rfl
@[simp] theorem setLine_latches (ln : Nat) (l : Option Line) (s : State) : (setLine ln l s).latches = s.latches := rfl
@[simp] theorem setLine_places (ln : Nat) (l : Option Line) (s : State) : (setLine ln l s).places = s.places := rfl
@[simp] theorem setLine_sites (ln : Nat) (l : Option Line) (s : State) : (setLine ln l s).sites = s.sites := rfl
@[simp] theorem setLine_cores (ln : Nat) (l : Option Line) (s : State) : (setLine ln l s).cores = s.cores := rfl
@[simp] theorem setLine_parts (ln : Nat) (l : Option Line) (s : State) : (setLine ln l s).parts = s.parts := rfl
@[simp] theorem setLine_rings (ln : Nat) (l : Option Line) (s : State) : (setLine ln l s).rings = s.rings := rfl
@[simp] theorem setLine_funcs (ln : Nat) (l : Option Line) (s : State) : (setLine ln l s).funcs = s.funcs := rfl
@[simp] theorem setLine_descs (ln : Nat) (l : Option Line) (s : State) : (setLine ln l s).descs = s.descs := rfl
@[simp] theorem setLine_accepts (ln : Nat) (l : Option Line) (s : State) : (setLine ln l s).accepts = s.accepts := rfl
@[simp] theorem setLine_journal (ln : Nat) (l : Option Line) (s : State) : (setLine ln l s).journal = s.journal := rfl
@[simp] theorem setLine_link (ln : Nat) (l : Option Line) (s : State) : (setLine ln l s).link = s.link := rfl
@[simp] theorem setLine_flrPf0 (ln : Nat) (l : Option Line) (s : State) : (setLine ln l s).flrPf0 = s.flrPf0 := rfl
@[simp] theorem setLine_ldr (ln : Nat) (l : Option Line) (s : State) : (setLine ln l s).ldr = s.ldr := rfl
@[simp] theorem setLine_syn (ln : Nat) (l : Option Line) (s : State) : (setLine ln l s).syn = s.syn := rfl
@[simp] theorem setLine_fab (ln : Nat) (l : Option Line) (s : State) : (setLine ln l s).fab = s.fab := rfl
@[simp] theorem setLine_pipes (ln : Nat) (l : Option Line) (s : State) : (setLine ln l s).pipes = s.pipes := rfl
@[simp] theorem setLine_fer (ln : Nat) (l : Option Line) (s : State) : (setLine ln l s).fer = s.fer := rfl
@[simp] theorem setLine_sec (ln : Nat) (l : Option Line) (s : State) : (setLine ln l s).sec = s.sec := rfl
@[simp] theorem setLine_brd (ln : Nat) (l : Option Line) (s : State) : (setLine ln l s).brd = s.brd := rfl
@[simp] theorem setLine_rst (ln : Nat) (l : Option Line) (s : State) : (setLine ln l s).rst = s.rst := rfl

/-! ## hbmWr -/

@[simp] theorem hbmWr_pending (a : Nat) (d : Bytes) (s : State) : (hbmWr a d s).pending = s.pending := rfl
@[simp] theorem hbmWr_out (a : Nat) (d : Bytes) (s : State) : (hbmWr a d s).out = s.out := rfl
@[simp] theorem hbmWr_free (a : Nat) (d : Bytes) (s : State) : (hbmWr a d s).free = s.free := rfl
@[simp] theorem hbmWr_now (a : Nat) (d : Bytes) (s : State) : (hbmWr a d s).now = s.now := rfl
@[simp] theorem hbmWr_clock (a : Nat) (d : Bytes) (s : State) : (hbmWr a d s).clock = s.clock := rfl
@[simp] theorem hbmWr_bootTime (a : Nat) (d : Bytes) (s : State) : (hbmWr a d s).bootTime = s.bootTime := rfl
@[simp] theorem hbmWr_regs (a : Nat) (d : Bytes) (s : State) : (hbmWr a d s).regs = s.regs := rfl
@[simp] theorem hbmWr_latches (a : Nat) (d : Bytes) (s : State) : (hbmWr a d s).latches = s.latches := rfl
@[simp] theorem hbmWr_places (a : Nat) (d : Bytes) (s : State) : (hbmWr a d s).places = s.places := rfl
@[simp] theorem hbmWr_sites (a : Nat) (d : Bytes) (s : State) : (hbmWr a d s).sites = s.sites := rfl
@[simp] theorem hbmWr_cores (a : Nat) (d : Bytes) (s : State) : (hbmWr a d s).cores = s.cores := rfl
@[simp] theorem hbmWr_parts (a : Nat) (d : Bytes) (s : State) : (hbmWr a d s).parts = s.parts := rfl
@[simp] theorem hbmWr_rings (a : Nat) (d : Bytes) (s : State) : (hbmWr a d s).rings = s.rings := rfl
@[simp] theorem hbmWr_funcs (a : Nat) (d : Bytes) (s : State) : (hbmWr a d s).funcs = s.funcs := rfl
@[simp] theorem hbmWr_descs (a : Nat) (d : Bytes) (s : State) : (hbmWr a d s).descs = s.descs := rfl
@[simp] theorem hbmWr_accepts (a : Nat) (d : Bytes) (s : State) : (hbmWr a d s).accepts = s.accepts := rfl
@[simp] theorem hbmWr_journal (a : Nat) (d : Bytes) (s : State) : (hbmWr a d s).journal = s.journal := rfl
@[simp] theorem hbmWr_link (a : Nat) (d : Bytes) (s : State) : (hbmWr a d s).link = s.link := rfl
@[simp] theorem hbmWr_flrPf0 (a : Nat) (d : Bytes) (s : State) : (hbmWr a d s).flrPf0 = s.flrPf0 := rfl
@[simp] theorem hbmWr_ldr (a : Nat) (d : Bytes) (s : State) : (hbmWr a d s).ldr = s.ldr := rfl
@[simp] theorem hbmWr_syn (a : Nat) (d : Bytes) (s : State) : (hbmWr a d s).syn = s.syn := rfl
@[simp] theorem hbmWr_fab (a : Nat) (d : Bytes) (s : State) : (hbmWr a d s).fab = s.fab := rfl
@[simp] theorem hbmWr_pipes (a : Nat) (d : Bytes) (s : State) : (hbmWr a d s).pipes = s.pipes := rfl
@[simp] theorem hbmWr_fer (a : Nat) (d : Bytes) (s : State) : (hbmWr a d s).fer = s.fer := rfl
@[simp] theorem hbmWr_sec (a : Nat) (d : Bytes) (s : State) : (hbmWr a d s).sec = s.sec := rfl
@[simp] theorem hbmWr_brd (a : Nat) (d : Bytes) (s : State) : (hbmWr a d s).brd = s.brd := rfl
@[simp] theorem hbmWr_rst (a : Nat) (d : Bytes) (s : State) : (hbmWr a d s).rst = s.rst := rfl

/-! ## updRing -/

@[simp] theorem updRing_pending (r : Nat) (f : Ring → Ring) (s : State) : (updRing r f s).pending = s.pending := rfl
@[simp] theorem updRing_out (r : Nat) (f : Ring → Ring) (s : State) : (updRing r f s).out = s.out := rfl
@[simp] theorem updRing_free (r : Nat) (f : Ring → Ring) (s : State) : (updRing r f s).free = s.free := rfl
@[simp] theorem updRing_now (r : Nat) (f : Ring → Ring) (s : State) : (updRing r f s).now = s.now := rfl
@[simp] theorem updRing_clock (r : Nat) (f : Ring → Ring) (s : State) : (updRing r f s).clock = s.clock := rfl
@[simp] theorem updRing_bootTime (r : Nat) (f : Ring → Ring) (s : State) : (updRing r f s).bootTime = s.bootTime := rfl
@[simp] theorem updRing_regs (r : Nat) (f : Ring → Ring) (s : State) : (updRing r f s).regs = s.regs := rfl
@[simp] theorem updRing_latches (r : Nat) (f : Ring → Ring) (s : State) : (updRing r f s).latches = s.latches := rfl
@[simp] theorem updRing_places (r : Nat) (f : Ring → Ring) (s : State) : (updRing r f s).places = s.places := rfl
@[simp] theorem updRing_sites (r : Nat) (f : Ring → Ring) (s : State) : (updRing r f s).sites = s.sites := rfl
@[simp] theorem updRing_cores (r : Nat) (f : Ring → Ring) (s : State) : (updRing r f s).cores = s.cores := rfl
@[simp] theorem updRing_parts (r : Nat) (f : Ring → Ring) (s : State) : (updRing r f s).parts = s.parts := rfl
@[simp] theorem updRing_funcs (r : Nat) (f : Ring → Ring) (s : State) : (updRing r f s).funcs = s.funcs := rfl
@[simp] theorem updRing_descs (r : Nat) (f : Ring → Ring) (s : State) : (updRing r f s).descs = s.descs := rfl
@[simp] theorem updRing_accepts (r : Nat) (f : Ring → Ring) (s : State) : (updRing r f s).accepts = s.accepts := rfl
@[simp] theorem updRing_journal (r : Nat) (f : Ring → Ring) (s : State) : (updRing r f s).journal = s.journal := rfl
@[simp] theorem updRing_link (r : Nat) (f : Ring → Ring) (s : State) : (updRing r f s).link = s.link := rfl
@[simp] theorem updRing_flrPf0 (r : Nat) (f : Ring → Ring) (s : State) : (updRing r f s).flrPf0 = s.flrPf0 := rfl
@[simp] theorem updRing_ldr (r : Nat) (f : Ring → Ring) (s : State) : (updRing r f s).ldr = s.ldr := rfl
@[simp] theorem updRing_mem (r : Nat) (f : Ring → Ring) (s : State) : (updRing r f s).mem = s.mem := rfl
@[simp] theorem updRing_syn (r : Nat) (f : Ring → Ring) (s : State) : (updRing r f s).syn = s.syn := rfl
@[simp] theorem updRing_fab (r : Nat) (f : Ring → Ring) (s : State) : (updRing r f s).fab = s.fab := rfl
@[simp] theorem updRing_pipes (r : Nat) (f : Ring → Ring) (s : State) : (updRing r f s).pipes = s.pipes := rfl
@[simp] theorem updRing_fer (r : Nat) (f : Ring → Ring) (s : State) : (updRing r f s).fer = s.fer := rfl
@[simp] theorem updRing_sec (r : Nat) (f : Ring → Ring) (s : State) : (updRing r f s).sec = s.sec := rfl
@[simp] theorem updRing_brd (r : Nat) (f : Ring → Ring) (s : State) : (updRing r f s).brd = s.brd := rfl
@[simp] theorem updRing_rst (r : Nat) (f : Ring → Ring) (s : State) : (updRing r f s).rst = s.rst := rfl

/-! ## updPort -/

@[simp] theorem updPort_pending (p : Nat) (f : Port → Port) (s : State) : (updPort p f s).pending = s.pending := rfl
@[simp] theorem updPort_out (p : Nat) (f : Port → Port) (s : State) : (updPort p f s).out = s.out := rfl
@[simp] theorem updPort_free (p : Nat) (f : Port → Port) (s : State) : (updPort p f s).free = s.free := rfl
@[simp] theorem updPort_now (p : Nat) (f : Port → Port) (s : State) : (updPort p f s).now = s.now := rfl
@[simp] theorem updPort_clock (p : Nat) (f : Port → Port) (s : State) : (updPort p f s).clock = s.clock := rfl
@[simp] theorem updPort_bootTime (p : Nat) (f : Port → Port) (s : State) : (updPort p f s).bootTime = s.bootTime := rfl
@[simp] theorem updPort_regs (p : Nat) (f : Port → Port) (s : State) : (updPort p f s).regs = s.regs := rfl
@[simp] theorem updPort_latches (p : Nat) (f : Port → Port) (s : State) : (updPort p f s).latches = s.latches := rfl
@[simp] theorem updPort_places (p : Nat) (f : Port → Port) (s : State) : (updPort p f s).places = s.places := rfl
@[simp] theorem updPort_sites (p : Nat) (f : Port → Port) (s : State) : (updPort p f s).sites = s.sites := rfl
@[simp] theorem updPort_cores (p : Nat) (f : Port → Port) (s : State) : (updPort p f s).cores = s.cores := rfl
@[simp] theorem updPort_parts (p : Nat) (f : Port → Port) (s : State) : (updPort p f s).parts = s.parts := rfl
@[simp] theorem updPort_rings (p : Nat) (f : Port → Port) (s : State) : (updPort p f s).rings = s.rings := rfl
@[simp] theorem updPort_funcs (p : Nat) (f : Port → Port) (s : State) : (updPort p f s).funcs = s.funcs := rfl
@[simp] theorem updPort_descs (p : Nat) (f : Port → Port) (s : State) : (updPort p f s).descs = s.descs := rfl
@[simp] theorem updPort_accepts (p : Nat) (f : Port → Port) (s : State) : (updPort p f s).accepts = s.accepts := rfl
@[simp] theorem updPort_journal (p : Nat) (f : Port → Port) (s : State) : (updPort p f s).journal = s.journal := rfl
@[simp] theorem updPort_link (p : Nat) (f : Port → Port) (s : State) : (updPort p f s).link = s.link := rfl
@[simp] theorem updPort_flrPf0 (p : Nat) (f : Port → Port) (s : State) : (updPort p f s).flrPf0 = s.flrPf0 := rfl
@[simp] theorem updPort_ldr (p : Nat) (f : Port → Port) (s : State) : (updPort p f s).ldr = s.ldr := rfl
@[simp] theorem updPort_mem (p : Nat) (f : Port → Port) (s : State) : (updPort p f s).mem = s.mem := rfl
@[simp] theorem updPort_syn (p : Nat) (f : Port → Port) (s : State) : (updPort p f s).syn = s.syn := rfl
@[simp] theorem updPort_pipes (p : Nat) (f : Port → Port) (s : State) : (updPort p f s).pipes = s.pipes := rfl
@[simp] theorem updPort_fer (p : Nat) (f : Port → Port) (s : State) : (updPort p f s).fer = s.fer := rfl
@[simp] theorem updPort_sec (p : Nat) (f : Port → Port) (s : State) : (updPort p f s).sec = s.sec := rfl
@[simp] theorem updPort_brd (p : Nat) (f : Port → Port) (s : State) : (updPort p f s).brd = s.brd := rfl
@[simp] theorem updPort_rst (p : Nat) (f : Port → Port) (s : State) : (updPort p f s).rst = s.rst := rfl

/-! ## updDest -/

@[simp] theorem updDest_pending (node : Nat) (f : Dest → Dest) (s : State) : (updDest node f s).pending = s.pending := rfl
@[simp] theorem updDest_out (node : Nat) (f : Dest → Dest) (s : State) : (updDest node f s).out = s.out := rfl
@[simp] theorem updDest_free (node : Nat) (f : Dest → Dest) (s : State) : (updDest node f s).free = s.free := rfl
@[simp] theorem updDest_now (node : Nat) (f : Dest → Dest) (s : State) : (updDest node f s).now = s.now := rfl
@[simp] theorem updDest_clock (node : Nat) (f : Dest → Dest) (s : State) : (updDest node f s).clock = s.clock := rfl
@[simp] theorem updDest_bootTime (node : Nat) (f : Dest → Dest) (s : State) : (updDest node f s).bootTime = s.bootTime := rfl
@[simp] theorem updDest_regs (node : Nat) (f : Dest → Dest) (s : State) : (updDest node f s).regs = s.regs := rfl
@[simp] theorem updDest_latches (node : Nat) (f : Dest → Dest) (s : State) : (updDest node f s).latches = s.latches := rfl
@[simp] theorem updDest_places (node : Nat) (f : Dest → Dest) (s : State) : (updDest node f s).places = s.places := rfl
@[simp] theorem updDest_sites (node : Nat) (f : Dest → Dest) (s : State) : (updDest node f s).sites = s.sites := rfl
@[simp] theorem updDest_cores (node : Nat) (f : Dest → Dest) (s : State) : (updDest node f s).cores = s.cores := rfl
@[simp] theorem updDest_parts (node : Nat) (f : Dest → Dest) (s : State) : (updDest node f s).parts = s.parts := rfl
@[simp] theorem updDest_rings (node : Nat) (f : Dest → Dest) (s : State) : (updDest node f s).rings = s.rings := rfl
@[simp] theorem updDest_funcs (node : Nat) (f : Dest → Dest) (s : State) : (updDest node f s).funcs = s.funcs := rfl
@[simp] theorem updDest_descs (node : Nat) (f : Dest → Dest) (s : State) : (updDest node f s).descs = s.descs := rfl
@[simp] theorem updDest_accepts (node : Nat) (f : Dest → Dest) (s : State) : (updDest node f s).accepts = s.accepts := rfl
@[simp] theorem updDest_journal (node : Nat) (f : Dest → Dest) (s : State) : (updDest node f s).journal = s.journal := rfl
@[simp] theorem updDest_link (node : Nat) (f : Dest → Dest) (s : State) : (updDest node f s).link = s.link := rfl
@[simp] theorem updDest_flrPf0 (node : Nat) (f : Dest → Dest) (s : State) : (updDest node f s).flrPf0 = s.flrPf0 := rfl
@[simp] theorem updDest_ldr (node : Nat) (f : Dest → Dest) (s : State) : (updDest node f s).ldr = s.ldr := rfl
@[simp] theorem updDest_mem (node : Nat) (f : Dest → Dest) (s : State) : (updDest node f s).mem = s.mem := rfl
@[simp] theorem updDest_syn (node : Nat) (f : Dest → Dest) (s : State) : (updDest node f s).syn = s.syn := rfl
@[simp] theorem updDest_pipes (node : Nat) (f : Dest → Dest) (s : State) : (updDest node f s).pipes = s.pipes := rfl
@[simp] theorem updDest_fer (node : Nat) (f : Dest → Dest) (s : State) : (updDest node f s).fer = s.fer := rfl
@[simp] theorem updDest_sec (node : Nat) (f : Dest → Dest) (s : State) : (updDest node f s).sec = s.sec := rfl
@[simp] theorem updDest_brd (node : Nat) (f : Dest → Dest) (s : State) : (updDest node f s).brd = s.brd := rfl
@[simp] theorem updDest_rst (node : Nat) (f : Dest → Dest) (s : State) : (updDest node f s).rst = s.rst := rfl

/-! ## updRx -/

@[simp] theorem updRx_pending (node flow vc : Nat) (f : SeqRx → SeqRx) (s : State) : (updRx node flow vc f s).pending = s.pending := rfl
@[simp] theorem updRx_out (node flow vc : Nat) (f : SeqRx → SeqRx) (s : State) : (updRx node flow vc f s).out = s.out := rfl
@[simp] theorem updRx_free (node flow vc : Nat) (f : SeqRx → SeqRx) (s : State) : (updRx node flow vc f s).free = s.free := rfl
@[simp] theorem updRx_now (node flow vc : Nat) (f : SeqRx → SeqRx) (s : State) : (updRx node flow vc f s).now = s.now := rfl
@[simp] theorem updRx_clock (node flow vc : Nat) (f : SeqRx → SeqRx) (s : State) : (updRx node flow vc f s).clock = s.clock := rfl
@[simp] theorem updRx_bootTime (node flow vc : Nat) (f : SeqRx → SeqRx) (s : State) : (updRx node flow vc f s).bootTime = s.bootTime := rfl
@[simp] theorem updRx_regs (node flow vc : Nat) (f : SeqRx → SeqRx) (s : State) : (updRx node flow vc f s).regs = s.regs := rfl
@[simp] theorem updRx_latches (node flow vc : Nat) (f : SeqRx → SeqRx) (s : State) : (updRx node flow vc f s).latches = s.latches := rfl
@[simp] theorem updRx_places (node flow vc : Nat) (f : SeqRx → SeqRx) (s : State) : (updRx node flow vc f s).places = s.places := rfl
@[simp] theorem updRx_sites (node flow vc : Nat) (f : SeqRx → SeqRx) (s : State) : (updRx node flow vc f s).sites = s.sites := rfl
@[simp] theorem updRx_cores (node flow vc : Nat) (f : SeqRx → SeqRx) (s : State) : (updRx node flow vc f s).cores = s.cores := rfl
@[simp] theorem updRx_parts (node flow vc : Nat) (f : SeqRx → SeqRx) (s : State) : (updRx node flow vc f s).parts = s.parts := rfl
@[simp] theorem updRx_rings (node flow vc : Nat) (f : SeqRx → SeqRx) (s : State) : (updRx node flow vc f s).rings = s.rings := rfl
@[simp] theorem updRx_funcs (node flow vc : Nat) (f : SeqRx → SeqRx) (s : State) : (updRx node flow vc f s).funcs = s.funcs := rfl
@[simp] theorem updRx_descs (node flow vc : Nat) (f : SeqRx → SeqRx) (s : State) : (updRx node flow vc f s).descs = s.descs := rfl
@[simp] theorem updRx_accepts (node flow vc : Nat) (f : SeqRx → SeqRx) (s : State) : (updRx node flow vc f s).accepts = s.accepts := rfl
@[simp] theorem updRx_journal (node flow vc : Nat) (f : SeqRx → SeqRx) (s : State) : (updRx node flow vc f s).journal = s.journal := rfl
@[simp] theorem updRx_link (node flow vc : Nat) (f : SeqRx → SeqRx) (s : State) : (updRx node flow vc f s).link = s.link := rfl
@[simp] theorem updRx_flrPf0 (node flow vc : Nat) (f : SeqRx → SeqRx) (s : State) : (updRx node flow vc f s).flrPf0 = s.flrPf0 := rfl
@[simp] theorem updRx_ldr (node flow vc : Nat) (f : SeqRx → SeqRx) (s : State) : (updRx node flow vc f s).ldr = s.ldr := rfl
@[simp] theorem updRx_mem (node flow vc : Nat) (f : SeqRx → SeqRx) (s : State) : (updRx node flow vc f s).mem = s.mem := rfl
@[simp] theorem updRx_syn (node flow vc : Nat) (f : SeqRx → SeqRx) (s : State) : (updRx node flow vc f s).syn = s.syn := rfl
@[simp] theorem updRx_pipes (node flow vc : Nat) (f : SeqRx → SeqRx) (s : State) : (updRx node flow vc f s).pipes = s.pipes := rfl
@[simp] theorem updRx_fer (node flow vc : Nat) (f : SeqRx → SeqRx) (s : State) : (updRx node flow vc f s).fer = s.fer := rfl
@[simp] theorem updRx_sec (node flow vc : Nat) (f : SeqRx → SeqRx) (s : State) : (updRx node flow vc f s).sec = s.sec := rfl
@[simp] theorem updRx_brd (node flow vc : Nat) (f : SeqRx → SeqRx) (s : State) : (updRx node flow vc f s).brd = s.brd := rfl
@[simp] theorem updRx_rst (node flow vc : Nat) (f : SeqRx → SeqRx) (s : State) : (updRx node flow vc f s).rst = s.rst := rfl

/-! ## updTx -/

@[simp] theorem updTx_pending (node flow vc : Nat) (f : SeqTx → SeqTx) (s : State) : (updTx node flow vc f s).pending = s.pending := rfl
@[simp] theorem updTx_out (node flow vc : Nat) (f : SeqTx → SeqTx) (s : State) : (updTx node flow vc f s).out = s.out := rfl
@[simp] theorem updTx_free (node flow vc : Nat) (f : SeqTx → SeqTx) (s : State) : (updTx node flow vc f s).free = s.free := rfl
@[simp] theorem updTx_now (node flow vc : Nat) (f : SeqTx → SeqTx) (s : State) : (updTx node flow vc f s).now = s.now := rfl
@[simp] theorem updTx_clock (node flow vc : Nat) (f : SeqTx → SeqTx) (s : State) : (updTx node flow vc f s).clock = s.clock := rfl
@[simp] theorem updTx_bootTime (node flow vc : Nat) (f : SeqTx → SeqTx) (s : State) : (updTx node flow vc f s).bootTime = s.bootTime := rfl
@[simp] theorem updTx_regs (node flow vc : Nat) (f : SeqTx → SeqTx) (s : State) : (updTx node flow vc f s).regs = s.regs := rfl
@[simp] theorem updTx_latches (node flow vc : Nat) (f : SeqTx → SeqTx) (s : State) : (updTx node flow vc f s).latches = s.latches := rfl
@[simp] theorem updTx_places (node flow vc : Nat) (f : SeqTx → SeqTx) (s : State) : (updTx node flow vc f s).places = s.places := rfl
@[simp] theorem updTx_sites (node flow vc : Nat) (f : SeqTx → SeqTx) (s : State) : (updTx node flow vc f s).sites = s.sites := rfl
@[simp] theorem updTx_cores (node flow vc : Nat) (f : SeqTx → SeqTx) (s : State) : (updTx node flow vc f s).cores = s.cores := rfl
@[simp] theorem updTx_parts (node flow vc : Nat) (f : SeqTx → SeqTx) (s : State) : (updTx node flow vc f s).parts = s.parts := rfl
@[simp] theorem updTx_rings (node flow vc : Nat) (f : SeqTx → SeqTx) (s : State) : (updTx node flow vc f s).rings = s.rings := rfl
@[simp] theorem updTx_funcs (node flow vc : Nat) (f : SeqTx → SeqTx) (s : State) : (updTx node flow vc f s).funcs = s.funcs := rfl
@[simp] theorem updTx_descs (node flow vc : Nat) (f : SeqTx → SeqTx) (s : State) : (updTx node flow vc f s).descs = s.descs := rfl
@[simp] theorem updTx_accepts (node flow vc : Nat) (f : SeqTx → SeqTx) (s : State) : (updTx node flow vc f s).accepts = s.accepts := rfl
@[simp] theorem updTx_journal (node flow vc : Nat) (f : SeqTx → SeqTx) (s : State) : (updTx node flow vc f s).journal = s.journal := rfl
@[simp] theorem updTx_link (node flow vc : Nat) (f : SeqTx → SeqTx) (s : State) : (updTx node flow vc f s).link = s.link := rfl
@[simp] theorem updTx_flrPf0 (node flow vc : Nat) (f : SeqTx → SeqTx) (s : State) : (updTx node flow vc f s).flrPf0 = s.flrPf0 := rfl
@[simp] theorem updTx_ldr (node flow vc : Nat) (f : SeqTx → SeqTx) (s : State) : (updTx node flow vc f s).ldr = s.ldr := rfl
@[simp] theorem updTx_mem (node flow vc : Nat) (f : SeqTx → SeqTx) (s : State) : (updTx node flow vc f s).mem = s.mem := rfl
@[simp] theorem updTx_syn (node flow vc : Nat) (f : SeqTx → SeqTx) (s : State) : (updTx node flow vc f s).syn = s.syn := rfl
@[simp] theorem updTx_pipes (node flow vc : Nat) (f : SeqTx → SeqTx) (s : State) : (updTx node flow vc f s).pipes = s.pipes := rfl
@[simp] theorem updTx_fer (node flow vc : Nat) (f : SeqTx → SeqTx) (s : State) : (updTx node flow vc f s).fer = s.fer := rfl
@[simp] theorem updTx_sec (node flow vc : Nat) (f : SeqTx → SeqTx) (s : State) : (updTx node flow vc f s).sec = s.sec := rfl
@[simp] theorem updTx_brd (node flow vc : Nat) (f : SeqTx → SeqTx) (s : State) : (updTx node flow vc f s).brd = s.brd := rfl
@[simp] theorem updTx_rst (node flow vc : Nat) (f : SeqTx → SeqTx) (s : State) : (updTx node flow vc f s).rst = s.rst := rfl

/-! ## updGov -/

@[simp] theorem updGov_pending (n : Nat) (f : Gov → Gov) (s : State) : (updGov n f s).pending = s.pending := rfl
@[simp] theorem updGov_out (n : Nat) (f : Gov → Gov) (s : State) : (updGov n f s).out = s.out := rfl
@[simp] theorem updGov_free (n : Nat) (f : Gov → Gov) (s : State) : (updGov n f s).free = s.free := rfl
@[simp] theorem updGov_now (n : Nat) (f : Gov → Gov) (s : State) : (updGov n f s).now = s.now := rfl
@[simp] theorem updGov_clock (n : Nat) (f : Gov → Gov) (s : State) : (updGov n f s).clock = s.clock := rfl
@[simp] theorem updGov_bootTime (n : Nat) (f : Gov → Gov) (s : State) : (updGov n f s).bootTime = s.bootTime := rfl
@[simp] theorem updGov_regs (n : Nat) (f : Gov → Gov) (s : State) : (updGov n f s).regs = s.regs := rfl
@[simp] theorem updGov_latches (n : Nat) (f : Gov → Gov) (s : State) : (updGov n f s).latches = s.latches := rfl
@[simp] theorem updGov_places (n : Nat) (f : Gov → Gov) (s : State) : (updGov n f s).places = s.places := rfl
@[simp] theorem updGov_sites (n : Nat) (f : Gov → Gov) (s : State) : (updGov n f s).sites = s.sites := rfl
@[simp] theorem updGov_cores (n : Nat) (f : Gov → Gov) (s : State) : (updGov n f s).cores = s.cores := rfl
@[simp] theorem updGov_rings (n : Nat) (f : Gov → Gov) (s : State) : (updGov n f s).rings = s.rings := rfl
@[simp] theorem updGov_funcs (n : Nat) (f : Gov → Gov) (s : State) : (updGov n f s).funcs = s.funcs := rfl
@[simp] theorem updGov_descs (n : Nat) (f : Gov → Gov) (s : State) : (updGov n f s).descs = s.descs := rfl
@[simp] theorem updGov_accepts (n : Nat) (f : Gov → Gov) (s : State) : (updGov n f s).accepts = s.accepts := rfl
@[simp] theorem updGov_journal (n : Nat) (f : Gov → Gov) (s : State) : (updGov n f s).journal = s.journal := rfl
@[simp] theorem updGov_link (n : Nat) (f : Gov → Gov) (s : State) : (updGov n f s).link = s.link := rfl
@[simp] theorem updGov_flrPf0 (n : Nat) (f : Gov → Gov) (s : State) : (updGov n f s).flrPf0 = s.flrPf0 := rfl
@[simp] theorem updGov_ldr (n : Nat) (f : Gov → Gov) (s : State) : (updGov n f s).ldr = s.ldr := rfl
@[simp] theorem updGov_mem (n : Nat) (f : Gov → Gov) (s : State) : (updGov n f s).mem = s.mem := rfl
@[simp] theorem updGov_syn (n : Nat) (f : Gov → Gov) (s : State) : (updGov n f s).syn = s.syn := rfl
@[simp] theorem updGov_fab (n : Nat) (f : Gov → Gov) (s : State) : (updGov n f s).fab = s.fab := rfl
@[simp] theorem updGov_pipes (n : Nat) (f : Gov → Gov) (s : State) : (updGov n f s).pipes = s.pipes := rfl
@[simp] theorem updGov_fer (n : Nat) (f : Gov → Gov) (s : State) : (updGov n f s).fer = s.fer := rfl
@[simp] theorem updGov_sec (n : Nat) (f : Gov → Gov) (s : State) : (updGov n f s).sec = s.sec := rfl
@[simp] theorem updGov_brd (n : Nat) (f : Gov → Gov) (s : State) : (updGov n f s).brd = s.brd := rfl
@[simp] theorem updGov_rst (n : Nat) (f : Gov → Gov) (s : State) : (updGov n f s).rst = s.rst := rfl

/-! ## updLayer -/

@[simp] theorem updLayer_pending (n i : Nat) (f : Layer → Layer) (s : State) : (updLayer n i f s).pending = s.pending := rfl
@[simp] theorem updLayer_out (n i : Nat) (f : Layer → Layer) (s : State) : (updLayer n i f s).out = s.out := rfl
@[simp] theorem updLayer_free (n i : Nat) (f : Layer → Layer) (s : State) : (updLayer n i f s).free = s.free := rfl
@[simp] theorem updLayer_now (n i : Nat) (f : Layer → Layer) (s : State) : (updLayer n i f s).now = s.now := rfl
@[simp] theorem updLayer_clock (n i : Nat) (f : Layer → Layer) (s : State) : (updLayer n i f s).clock = s.clock := rfl
@[simp] theorem updLayer_bootTime (n i : Nat) (f : Layer → Layer) (s : State) : (updLayer n i f s).bootTime = s.bootTime := rfl
@[simp] theorem updLayer_regs (n i : Nat) (f : Layer → Layer) (s : State) : (updLayer n i f s).regs = s.regs := rfl
@[simp] theorem updLayer_latches (n i : Nat) (f : Layer → Layer) (s : State) : (updLayer n i f s).latches = s.latches := rfl
@[simp] theorem updLayer_places (n i : Nat) (f : Layer → Layer) (s : State) : (updLayer n i f s).places = s.places := rfl
@[simp] theorem updLayer_sites (n i : Nat) (f : Layer → Layer) (s : State) : (updLayer n i f s).sites = s.sites := rfl
@[simp] theorem updLayer_cores (n i : Nat) (f : Layer → Layer) (s : State) : (updLayer n i f s).cores = s.cores := rfl
@[simp] theorem updLayer_rings (n i : Nat) (f : Layer → Layer) (s : State) : (updLayer n i f s).rings = s.rings := rfl
@[simp] theorem updLayer_funcs (n i : Nat) (f : Layer → Layer) (s : State) : (updLayer n i f s).funcs = s.funcs := rfl
@[simp] theorem updLayer_descs (n i : Nat) (f : Layer → Layer) (s : State) : (updLayer n i f s).descs = s.descs := rfl
@[simp] theorem updLayer_accepts (n i : Nat) (f : Layer → Layer) (s : State) : (updLayer n i f s).accepts = s.accepts := rfl
@[simp] theorem updLayer_journal (n i : Nat) (f : Layer → Layer) (s : State) : (updLayer n i f s).journal = s.journal := rfl
@[simp] theorem updLayer_link (n i : Nat) (f : Layer → Layer) (s : State) : (updLayer n i f s).link = s.link := rfl
@[simp] theorem updLayer_flrPf0 (n i : Nat) (f : Layer → Layer) (s : State) : (updLayer n i f s).flrPf0 = s.flrPf0 := rfl
@[simp] theorem updLayer_ldr (n i : Nat) (f : Layer → Layer) (s : State) : (updLayer n i f s).ldr = s.ldr := rfl
@[simp] theorem updLayer_mem (n i : Nat) (f : Layer → Layer) (s : State) : (updLayer n i f s).mem = s.mem := rfl
@[simp] theorem updLayer_syn (n i : Nat) (f : Layer → Layer) (s : State) : (updLayer n i f s).syn = s.syn := rfl
@[simp] theorem updLayer_fab (n i : Nat) (f : Layer → Layer) (s : State) : (updLayer n i f s).fab = s.fab := rfl
@[simp] theorem updLayer_pipes (n i : Nat) (f : Layer → Layer) (s : State) : (updLayer n i f s).pipes = s.pipes := rfl
@[simp] theorem updLayer_fer (n i : Nat) (f : Layer → Layer) (s : State) : (updLayer n i f s).fer = s.fer := rfl
@[simp] theorem updLayer_sec (n i : Nat) (f : Layer → Layer) (s : State) : (updLayer n i f s).sec = s.sec := rfl
@[simp] theorem updLayer_brd (n i : Nat) (f : Layer → Layer) (s : State) : (updLayer n i f s).brd = s.brd := rfl
@[simp] theorem updLayer_rst (n i : Nat) (f : Layer → Layer) (s : State) : (updLayer n i f s).rst = s.rst := rfl

/-! ## govFlag -/

@[simp] theorem govFlag_pending (n bit : Nat) (s : State) : (govFlag n bit s).pending = s.pending := rfl
@[simp] theorem govFlag_out (n bit : Nat) (s : State) : (govFlag n bit s).out = s.out := rfl
@[simp] theorem govFlag_free (n bit : Nat) (s : State) : (govFlag n bit s).free = s.free := rfl
@[simp] theorem govFlag_now (n bit : Nat) (s : State) : (govFlag n bit s).now = s.now := rfl
@[simp] theorem govFlag_clock (n bit : Nat) (s : State) : (govFlag n bit s).clock = s.clock := rfl
@[simp] theorem govFlag_bootTime (n bit : Nat) (s : State) : (govFlag n bit s).bootTime = s.bootTime := rfl
@[simp] theorem govFlag_latches (n bit : Nat) (s : State) : (govFlag n bit s).latches = s.latches := rfl
@[simp] theorem govFlag_places (n bit : Nat) (s : State) : (govFlag n bit s).places = s.places := rfl
@[simp] theorem govFlag_sites (n bit : Nat) (s : State) : (govFlag n bit s).sites = s.sites := rfl
@[simp] theorem govFlag_cores (n bit : Nat) (s : State) : (govFlag n bit s).cores = s.cores := rfl
@[simp] theorem govFlag_parts (n bit : Nat) (s : State) : (govFlag n bit s).parts = s.parts := rfl
@[simp] theorem govFlag_rings (n bit : Nat) (s : State) : (govFlag n bit s).rings = s.rings := rfl
@[simp] theorem govFlag_funcs (n bit : Nat) (s : State) : (govFlag n bit s).funcs = s.funcs := rfl
@[simp] theorem govFlag_descs (n bit : Nat) (s : State) : (govFlag n bit s).descs = s.descs := rfl
@[simp] theorem govFlag_accepts (n bit : Nat) (s : State) : (govFlag n bit s).accepts = s.accepts := rfl
@[simp] theorem govFlag_journal (n bit : Nat) (s : State) : (govFlag n bit s).journal = s.journal := rfl
@[simp] theorem govFlag_link (n bit : Nat) (s : State) : (govFlag n bit s).link = s.link := rfl
@[simp] theorem govFlag_flrPf0 (n bit : Nat) (s : State) : (govFlag n bit s).flrPf0 = s.flrPf0 := rfl
@[simp] theorem govFlag_ldr (n bit : Nat) (s : State) : (govFlag n bit s).ldr = s.ldr := rfl
@[simp] theorem govFlag_mem (n bit : Nat) (s : State) : (govFlag n bit s).mem = s.mem := rfl
@[simp] theorem govFlag_syn (n bit : Nat) (s : State) : (govFlag n bit s).syn = s.syn := rfl
@[simp] theorem govFlag_fab (n bit : Nat) (s : State) : (govFlag n bit s).fab = s.fab := rfl
@[simp] theorem govFlag_pipes (n bit : Nat) (s : State) : (govFlag n bit s).pipes = s.pipes := rfl
@[simp] theorem govFlag_fer (n bit : Nat) (s : State) : (govFlag n bit s).fer = s.fer := rfl
@[simp] theorem govFlag_sec (n bit : Nat) (s : State) : (govFlag n bit s).sec = s.sec := rfl
@[simp] theorem govFlag_brd (n bit : Nat) (s : State) : (govFlag n bit s).brd = s.brd := rfl
@[simp] theorem govFlag_rst (n bit : Nat) (s : State) : (govFlag n bit s).rst = s.rst := rfl

/-! ## updFer -/

@[simp] theorem updFer_pending (f : Ferry → Ferry) (s : State) : (updFer f s).pending = s.pending := rfl
@[simp] theorem updFer_out (f : Ferry → Ferry) (s : State) : (updFer f s).out = s.out := rfl
@[simp] theorem updFer_free (f : Ferry → Ferry) (s : State) : (updFer f s).free = s.free := rfl
@[simp] theorem updFer_now (f : Ferry → Ferry) (s : State) : (updFer f s).now = s.now := rfl
@[simp] theorem updFer_clock (f : Ferry → Ferry) (s : State) : (updFer f s).clock = s.clock := rfl
@[simp] theorem updFer_bootTime (f : Ferry → Ferry) (s : State) : (updFer f s).bootTime = s.bootTime := rfl
@[simp] theorem updFer_regs (f : Ferry → Ferry) (s : State) : (updFer f s).regs = s.regs := rfl
@[simp] theorem updFer_latches (f : Ferry → Ferry) (s : State) : (updFer f s).latches = s.latches := rfl
@[simp] theorem updFer_places (f : Ferry → Ferry) (s : State) : (updFer f s).places = s.places := rfl
@[simp] theorem updFer_sites (f : Ferry → Ferry) (s : State) : (updFer f s).sites = s.sites := rfl
@[simp] theorem updFer_cores (f : Ferry → Ferry) (s : State) : (updFer f s).cores = s.cores := rfl
@[simp] theorem updFer_parts (f : Ferry → Ferry) (s : State) : (updFer f s).parts = s.parts := rfl
@[simp] theorem updFer_rings (f : Ferry → Ferry) (s : State) : (updFer f s).rings = s.rings := rfl
@[simp] theorem updFer_funcs (f : Ferry → Ferry) (s : State) : (updFer f s).funcs = s.funcs := rfl
@[simp] theorem updFer_descs (f : Ferry → Ferry) (s : State) : (updFer f s).descs = s.descs := rfl
@[simp] theorem updFer_accepts (f : Ferry → Ferry) (s : State) : (updFer f s).accepts = s.accepts := rfl
@[simp] theorem updFer_journal (f : Ferry → Ferry) (s : State) : (updFer f s).journal = s.journal := rfl
@[simp] theorem updFer_link (f : Ferry → Ferry) (s : State) : (updFer f s).link = s.link := rfl
@[simp] theorem updFer_flrPf0 (f : Ferry → Ferry) (s : State) : (updFer f s).flrPf0 = s.flrPf0 := rfl
@[simp] theorem updFer_ldr (f : Ferry → Ferry) (s : State) : (updFer f s).ldr = s.ldr := rfl
@[simp] theorem updFer_mem (f : Ferry → Ferry) (s : State) : (updFer f s).mem = s.mem := rfl
@[simp] theorem updFer_syn (f : Ferry → Ferry) (s : State) : (updFer f s).syn = s.syn := rfl
@[simp] theorem updFer_fab (f : Ferry → Ferry) (s : State) : (updFer f s).fab = s.fab := rfl
@[simp] theorem updFer_pipes (f : Ferry → Ferry) (s : State) : (updFer f s).pipes = s.pipes := rfl
@[simp] theorem updFer_sec (f : Ferry → Ferry) (s : State) : (updFer f s).sec = s.sec := rfl
@[simp] theorem updFer_brd (f : Ferry → Ferry) (s : State) : (updFer f s).brd = s.brd := rfl
@[simp] theorem updFer_rst (f : Ferry → Ferry) (s : State) : (updFer f s).rst = s.rst := rfl

/-! ## putLimit -/

@[simp] theorem putLimit_pending (w : Nat) (s : State) : (putLimit w s).pending = s.pending := rfl
@[simp] theorem putLimit_out (w : Nat) (s : State) : (putLimit w s).out = s.out := rfl
@[simp] theorem putLimit_free (w : Nat) (s : State) : (putLimit w s).free = s.free := rfl
@[simp] theorem putLimit_now (w : Nat) (s : State) : (putLimit w s).now = s.now := rfl
@[simp] theorem putLimit_clock (w : Nat) (s : State) : (putLimit w s).clock = s.clock := rfl
@[simp] theorem putLimit_bootTime (w : Nat) (s : State) : (putLimit w s).bootTime = s.bootTime := rfl
@[simp] theorem putLimit_regs (w : Nat) (s : State) : (putLimit w s).regs = s.regs := rfl
@[simp] theorem putLimit_latches (w : Nat) (s : State) : (putLimit w s).latches = s.latches := rfl
@[simp] theorem putLimit_places (w : Nat) (s : State) : (putLimit w s).places = s.places := rfl
@[simp] theorem putLimit_sites (w : Nat) (s : State) : (putLimit w s).sites = s.sites := rfl
@[simp] theorem putLimit_cores (w : Nat) (s : State) : (putLimit w s).cores = s.cores := rfl
@[simp] theorem putLimit_parts (w : Nat) (s : State) : (putLimit w s).parts = s.parts := rfl
@[simp] theorem putLimit_rings (w : Nat) (s : State) : (putLimit w s).rings = s.rings := rfl
@[simp] theorem putLimit_funcs (w : Nat) (s : State) : (putLimit w s).funcs = s.funcs := rfl
@[simp] theorem putLimit_descs (w : Nat) (s : State) : (putLimit w s).descs = s.descs := rfl
@[simp] theorem putLimit_accepts (w : Nat) (s : State) : (putLimit w s).accepts = s.accepts := rfl
@[simp] theorem putLimit_journal (w : Nat) (s : State) : (putLimit w s).journal = s.journal := rfl
@[simp] theorem putLimit_link (w : Nat) (s : State) : (putLimit w s).link = s.link := rfl
@[simp] theorem putLimit_flrPf0 (w : Nat) (s : State) : (putLimit w s).flrPf0 = s.flrPf0 := rfl
@[simp] theorem putLimit_ldr (w : Nat) (s : State) : (putLimit w s).ldr = s.ldr := rfl
@[simp] theorem putLimit_mem (w : Nat) (s : State) : (putLimit w s).mem = s.mem := rfl
@[simp] theorem putLimit_syn (w : Nat) (s : State) : (putLimit w s).syn = s.syn := rfl
@[simp] theorem putLimit_fab (w : Nat) (s : State) : (putLimit w s).fab = s.fab := rfl
@[simp] theorem putLimit_pipes (w : Nat) (s : State) : (putLimit w s).pipes = s.pipes := rfl
@[simp] theorem putLimit_sec (w : Nat) (s : State) : (putLimit w s).sec = s.sec := rfl
@[simp] theorem putLimit_brd (w : Nat) (s : State) : (putLimit w s).brd = s.brd := rfl
@[simp] theorem putLimit_rst (w : Nat) (s : State) : (putLimit w s).rst = s.rst := rfl

/-! ## updPipe -/

@[simp] theorem updPipe_pending (k : Nat) (f : Pipe → Pipe) (s : State) : (updPipe k f s).pending = s.pending := rfl
@[simp] theorem updPipe_out (k : Nat) (f : Pipe → Pipe) (s : State) : (updPipe k f s).out = s.out := rfl
@[simp] theorem updPipe_free (k : Nat) (f : Pipe → Pipe) (s : State) : (updPipe k f s).free = s.free := rfl
@[simp] theorem updPipe_now (k : Nat) (f : Pipe → Pipe) (s : State) : (updPipe k f s).now = s.now := rfl
@[simp] theorem updPipe_clock (k : Nat) (f : Pipe → Pipe) (s : State) : (updPipe k f s).clock = s.clock := rfl
@[simp] theorem updPipe_bootTime (k : Nat) (f : Pipe → Pipe) (s : State) : (updPipe k f s).bootTime = s.bootTime := rfl
@[simp] theorem updPipe_regs (k : Nat) (f : Pipe → Pipe) (s : State) : (updPipe k f s).regs = s.regs := rfl
@[simp] theorem updPipe_latches (k : Nat) (f : Pipe → Pipe) (s : State) : (updPipe k f s).latches = s.latches := rfl
@[simp] theorem updPipe_places (k : Nat) (f : Pipe → Pipe) (s : State) : (updPipe k f s).places = s.places := rfl
@[simp] theorem updPipe_sites (k : Nat) (f : Pipe → Pipe) (s : State) : (updPipe k f s).sites = s.sites := rfl
@[simp] theorem updPipe_cores (k : Nat) (f : Pipe → Pipe) (s : State) : (updPipe k f s).cores = s.cores := rfl
@[simp] theorem updPipe_parts (k : Nat) (f : Pipe → Pipe) (s : State) : (updPipe k f s).parts = s.parts := rfl
@[simp] theorem updPipe_rings (k : Nat) (f : Pipe → Pipe) (s : State) : (updPipe k f s).rings = s.rings := rfl
@[simp] theorem updPipe_funcs (k : Nat) (f : Pipe → Pipe) (s : State) : (updPipe k f s).funcs = s.funcs := rfl
@[simp] theorem updPipe_descs (k : Nat) (f : Pipe → Pipe) (s : State) : (updPipe k f s).descs = s.descs := rfl
@[simp] theorem updPipe_accepts (k : Nat) (f : Pipe → Pipe) (s : State) : (updPipe k f s).accepts = s.accepts := rfl
@[simp] theorem updPipe_journal (k : Nat) (f : Pipe → Pipe) (s : State) : (updPipe k f s).journal = s.journal := rfl
@[simp] theorem updPipe_link (k : Nat) (f : Pipe → Pipe) (s : State) : (updPipe k f s).link = s.link := rfl
@[simp] theorem updPipe_flrPf0 (k : Nat) (f : Pipe → Pipe) (s : State) : (updPipe k f s).flrPf0 = s.flrPf0 := rfl
@[simp] theorem updPipe_ldr (k : Nat) (f : Pipe → Pipe) (s : State) : (updPipe k f s).ldr = s.ldr := rfl
@[simp] theorem updPipe_mem (k : Nat) (f : Pipe → Pipe) (s : State) : (updPipe k f s).mem = s.mem := rfl
@[simp] theorem updPipe_syn (k : Nat) (f : Pipe → Pipe) (s : State) : (updPipe k f s).syn = s.syn := rfl
@[simp] theorem updPipe_fab (k : Nat) (f : Pipe → Pipe) (s : State) : (updPipe k f s).fab = s.fab := rfl
@[simp] theorem updPipe_fer (k : Nat) (f : Pipe → Pipe) (s : State) : (updPipe k f s).fer = s.fer := rfl
@[simp] theorem updPipe_sec (k : Nat) (f : Pipe → Pipe) (s : State) : (updPipe k f s).sec = s.sec := rfl
@[simp] theorem updPipe_brd (k : Nat) (f : Pipe → Pipe) (s : State) : (updPipe k f s).brd = s.brd := rfl
@[simp] theorem updPipe_rst (k : Nat) (f : Pipe → Pipe) (s : State) : (updPipe k f s).rst = s.rst := rfl

/-! ## updSec -/

@[simp] theorem updSec_pending (f : Sec → Sec) (s : State) : (updSec f s).pending = s.pending := rfl
@[simp] theorem updSec_out (f : Sec → Sec) (s : State) : (updSec f s).out = s.out := rfl
@[simp] theorem updSec_free (f : Sec → Sec) (s : State) : (updSec f s).free = s.free := rfl
@[simp] theorem updSec_now (f : Sec → Sec) (s : State) : (updSec f s).now = s.now := rfl
@[simp] theorem updSec_clock (f : Sec → Sec) (s : State) : (updSec f s).clock = s.clock := rfl
@[simp] theorem updSec_bootTime (f : Sec → Sec) (s : State) : (updSec f s).bootTime = s.bootTime := rfl
@[simp] theorem updSec_regs (f : Sec → Sec) (s : State) : (updSec f s).regs = s.regs := rfl
@[simp] theorem updSec_latches (f : Sec → Sec) (s : State) : (updSec f s).latches = s.latches := rfl
@[simp] theorem updSec_places (f : Sec → Sec) (s : State) : (updSec f s).places = s.places := rfl
@[simp] theorem updSec_sites (f : Sec → Sec) (s : State) : (updSec f s).sites = s.sites := rfl
@[simp] theorem updSec_cores (f : Sec → Sec) (s : State) : (updSec f s).cores = s.cores := rfl
@[simp] theorem updSec_parts (f : Sec → Sec) (s : State) : (updSec f s).parts = s.parts := rfl
@[simp] theorem updSec_rings (f : Sec → Sec) (s : State) : (updSec f s).rings = s.rings := rfl
@[simp] theorem updSec_funcs (f : Sec → Sec) (s : State) : (updSec f s).funcs = s.funcs := rfl
@[simp] theorem updSec_descs (f : Sec → Sec) (s : State) : (updSec f s).descs = s.descs := rfl
@[simp] theorem updSec_accepts (f : Sec → Sec) (s : State) : (updSec f s).accepts = s.accepts := rfl
@[simp] theorem updSec_journal (f : Sec → Sec) (s : State) : (updSec f s).journal = s.journal := rfl
@[simp] theorem updSec_link (f : Sec → Sec) (s : State) : (updSec f s).link = s.link := rfl
@[simp] theorem updSec_flrPf0 (f : Sec → Sec) (s : State) : (updSec f s).flrPf0 = s.flrPf0 := rfl
@[simp] theorem updSec_ldr (f : Sec → Sec) (s : State) : (updSec f s).ldr = s.ldr := rfl
@[simp] theorem updSec_mem (f : Sec → Sec) (s : State) : (updSec f s).mem = s.mem := rfl
@[simp] theorem updSec_syn (f : Sec → Sec) (s : State) : (updSec f s).syn = s.syn := rfl
@[simp] theorem updSec_fab (f : Sec → Sec) (s : State) : (updSec f s).fab = s.fab := rfl
@[simp] theorem updSec_pipes (f : Sec → Sec) (s : State) : (updSec f s).pipes = s.pipes := rfl
@[simp] theorem updSec_fer (f : Sec → Sec) (s : State) : (updSec f s).fer = s.fer := rfl
@[simp] theorem updSec_brd (f : Sec → Sec) (s : State) : (updSec f s).brd = s.brd := rfl
@[simp] theorem updSec_rst (f : Sec → Sec) (s : State) : (updSec f s).rst = s.rst := rfl

/-! ## setPlace -/

@[simp] theorem setPlace_pending (c : Nat) (p : Place) (s : State) : (setPlace c p s).pending = s.pending := rfl
@[simp] theorem setPlace_out (c : Nat) (p : Place) (s : State) : (setPlace c p s).out = s.out := rfl
@[simp] theorem setPlace_free (c : Nat) (p : Place) (s : State) : (setPlace c p s).free = s.free := rfl
@[simp] theorem setPlace_now (c : Nat) (p : Place) (s : State) : (setPlace c p s).now = s.now := rfl
@[simp] theorem setPlace_clock (c : Nat) (p : Place) (s : State) : (setPlace c p s).clock = s.clock := rfl
@[simp] theorem setPlace_bootTime (c : Nat) (p : Place) (s : State) : (setPlace c p s).bootTime = s.bootTime := rfl
@[simp] theorem setPlace_regs (c : Nat) (p : Place) (s : State) : (setPlace c p s).regs = s.regs := rfl
@[simp] theorem setPlace_latches (c : Nat) (p : Place) (s : State) : (setPlace c p s).latches = s.latches := rfl
@[simp] theorem setPlace_sites (c : Nat) (p : Place) (s : State) : (setPlace c p s).sites = s.sites := rfl
@[simp] theorem setPlace_cores (c : Nat) (p : Place) (s : State) : (setPlace c p s).cores = s.cores := rfl
@[simp] theorem setPlace_parts (c : Nat) (p : Place) (s : State) : (setPlace c p s).parts = s.parts := rfl
@[simp] theorem setPlace_rings (c : Nat) (p : Place) (s : State) : (setPlace c p s).rings = s.rings := rfl
@[simp] theorem setPlace_funcs (c : Nat) (p : Place) (s : State) : (setPlace c p s).funcs = s.funcs := rfl
@[simp] theorem setPlace_descs (c : Nat) (p : Place) (s : State) : (setPlace c p s).descs = s.descs := rfl
@[simp] theorem setPlace_accepts (c : Nat) (p : Place) (s : State) : (setPlace c p s).accepts = s.accepts := rfl
@[simp] theorem setPlace_journal (c : Nat) (p : Place) (s : State) : (setPlace c p s).journal = s.journal := rfl
@[simp] theorem setPlace_link (c : Nat) (p : Place) (s : State) : (setPlace c p s).link = s.link := rfl
@[simp] theorem setPlace_flrPf0 (c : Nat) (p : Place) (s : State) : (setPlace c p s).flrPf0 = s.flrPf0 := rfl
@[simp] theorem setPlace_ldr (c : Nat) (p : Place) (s : State) : (setPlace c p s).ldr = s.ldr := rfl
@[simp] theorem setPlace_mem (c : Nat) (p : Place) (s : State) : (setPlace c p s).mem = s.mem := rfl
@[simp] theorem setPlace_syn (c : Nat) (p : Place) (s : State) : (setPlace c p s).syn = s.syn := rfl
@[simp] theorem setPlace_fab (c : Nat) (p : Place) (s : State) : (setPlace c p s).fab = s.fab := rfl
@[simp] theorem setPlace_pipes (c : Nat) (p : Place) (s : State) : (setPlace c p s).pipes = s.pipes := rfl
@[simp] theorem setPlace_fer (c : Nat) (p : Place) (s : State) : (setPlace c p s).fer = s.fer := rfl
@[simp] theorem setPlace_sec (c : Nat) (p : Place) (s : State) : (setPlace c p s).sec = s.sec := rfl
@[simp] theorem setPlace_brd (c : Nat) (p : Place) (s : State) : (setPlace c p s).brd = s.brd := rfl
@[simp] theorem setPlace_rst (c : Nat) (p : Place) (s : State) : (setPlace c p s).rst = s.rst := rfl

/-! ## dropOrigins -/

@[simp] theorem dropOrigins_pending (gone : Origin → Bool) (s : State) : (dropOrigins gone s).pending = s.pending := rfl
@[simp] theorem dropOrigins_out (gone : Origin → Bool) (s : State) : (dropOrigins gone s).out = s.out := rfl
@[simp] theorem dropOrigins_free (gone : Origin → Bool) (s : State) : (dropOrigins gone s).free = s.free := rfl
@[simp] theorem dropOrigins_now (gone : Origin → Bool) (s : State) : (dropOrigins gone s).now = s.now := rfl
@[simp] theorem dropOrigins_clock (gone : Origin → Bool) (s : State) : (dropOrigins gone s).clock = s.clock := rfl
@[simp] theorem dropOrigins_bootTime (gone : Origin → Bool) (s : State) : (dropOrigins gone s).bootTime = s.bootTime := rfl
@[simp] theorem dropOrigins_regs (gone : Origin → Bool) (s : State) : (dropOrigins gone s).regs = s.regs := rfl
@[simp] theorem dropOrigins_latches (gone : Origin → Bool) (s : State) : (dropOrigins gone s).latches = s.latches := rfl
@[simp] theorem dropOrigins_places (gone : Origin → Bool) (s : State) : (dropOrigins gone s).places = s.places := rfl
@[simp] theorem dropOrigins_sites (gone : Origin → Bool) (s : State) : (dropOrigins gone s).sites = s.sites := rfl
@[simp] theorem dropOrigins_cores (gone : Origin → Bool) (s : State) : (dropOrigins gone s).cores = s.cores := rfl
@[simp] theorem dropOrigins_parts (gone : Origin → Bool) (s : State) : (dropOrigins gone s).parts = s.parts := rfl
@[simp] theorem dropOrigins_rings (gone : Origin → Bool) (s : State) : (dropOrigins gone s).rings = s.rings := rfl
@[simp] theorem dropOrigins_funcs (gone : Origin → Bool) (s : State) : (dropOrigins gone s).funcs = s.funcs := rfl
@[simp] theorem dropOrigins_descs (gone : Origin → Bool) (s : State) : (dropOrigins gone s).descs = s.descs := rfl
@[simp] theorem dropOrigins_accepts (gone : Origin → Bool) (s : State) : (dropOrigins gone s).accepts = s.accepts := rfl
@[simp] theorem dropOrigins_journal (gone : Origin → Bool) (s : State) : (dropOrigins gone s).journal = s.journal := rfl
@[simp] theorem dropOrigins_link (gone : Origin → Bool) (s : State) : (dropOrigins gone s).link = s.link := rfl
@[simp] theorem dropOrigins_flrPf0 (gone : Origin → Bool) (s : State) : (dropOrigins gone s).flrPf0 = s.flrPf0 := rfl
@[simp] theorem dropOrigins_ldr (gone : Origin → Bool) (s : State) : (dropOrigins gone s).ldr = s.ldr := rfl
@[simp] theorem dropOrigins_mem (gone : Origin → Bool) (s : State) : (dropOrigins gone s).mem = s.mem := rfl
@[simp] theorem dropOrigins_syn (gone : Origin → Bool) (s : State) : (dropOrigins gone s).syn = s.syn := rfl
@[simp] theorem dropOrigins_pipes (gone : Origin → Bool) (s : State) : (dropOrigins gone s).pipes = s.pipes := rfl
@[simp] theorem dropOrigins_fer (gone : Origin → Bool) (s : State) : (dropOrigins gone s).fer = s.fer := rfl
@[simp] theorem dropOrigins_sec (gone : Origin → Bool) (s : State) : (dropOrigins gone s).sec = s.sec := rfl
@[simp] theorem dropOrigins_brd (gone : Origin → Bool) (s : State) : (dropOrigins gone s).brd = s.brd := rfl
@[simp] theorem dropOrigins_rst (gone : Origin → Bool) (s : State) : (dropOrigins gone s).rst = s.rst := rfl

/-! ## rpcClear -/

@[simp] theorem rpcClear_pending (n : Nat) (s : State) : (rpcClear n s).pending = s.pending := rfl
@[simp] theorem rpcClear_out (n : Nat) (s : State) : (rpcClear n s).out = s.out := rfl
@[simp] theorem rpcClear_free (n : Nat) (s : State) : (rpcClear n s).free = s.free := rfl
@[simp] theorem rpcClear_now (n : Nat) (s : State) : (rpcClear n s).now = s.now := rfl
@[simp] theorem rpcClear_clock (n : Nat) (s : State) : (rpcClear n s).clock = s.clock := rfl
@[simp] theorem rpcClear_bootTime (n : Nat) (s : State) : (rpcClear n s).bootTime = s.bootTime := rfl
@[simp] theorem rpcClear_regs (n : Nat) (s : State) : (rpcClear n s).regs = s.regs := rfl
@[simp] theorem rpcClear_latches (n : Nat) (s : State) : (rpcClear n s).latches = s.latches := rfl
@[simp] theorem rpcClear_places (n : Nat) (s : State) : (rpcClear n s).places = s.places := rfl
@[simp] theorem rpcClear_sites (n : Nat) (s : State) : (rpcClear n s).sites = s.sites := rfl
@[simp] theorem rpcClear_cores (n : Nat) (s : State) : (rpcClear n s).cores = s.cores := rfl
@[simp] theorem rpcClear_rings (n : Nat) (s : State) : (rpcClear n s).rings = s.rings := rfl
@[simp] theorem rpcClear_funcs (n : Nat) (s : State) : (rpcClear n s).funcs = s.funcs := rfl
@[simp] theorem rpcClear_descs (n : Nat) (s : State) : (rpcClear n s).descs = s.descs := rfl
@[simp] theorem rpcClear_accepts (n : Nat) (s : State) : (rpcClear n s).accepts = s.accepts := rfl
@[simp] theorem rpcClear_journal (n : Nat) (s : State) : (rpcClear n s).journal = s.journal := rfl
@[simp] theorem rpcClear_link (n : Nat) (s : State) : (rpcClear n s).link = s.link := rfl
@[simp] theorem rpcClear_flrPf0 (n : Nat) (s : State) : (rpcClear n s).flrPf0 = s.flrPf0 := rfl
@[simp] theorem rpcClear_ldr (n : Nat) (s : State) : (rpcClear n s).ldr = s.ldr := rfl
@[simp] theorem rpcClear_mem (n : Nat) (s : State) : (rpcClear n s).mem = s.mem := rfl
@[simp] theorem rpcClear_syn (n : Nat) (s : State) : (rpcClear n s).syn = s.syn := rfl
@[simp] theorem rpcClear_pipes (n : Nat) (s : State) : (rpcClear n s).pipes = s.pipes := rfl
@[simp] theorem rpcClear_fer (n : Nat) (s : State) : (rpcClear n s).fer = s.fer := rfl
@[simp] theorem rpcClear_sec (n : Nat) (s : State) : (rpcClear n s).sec = s.sec := rfl
@[simp] theorem rpcClear_brd (n : Nat) (s : State) : (rpcClear n s).brd = s.brd := rfl
@[simp] theorem rpcClear_rst (n : Nat) (s : State) : (rpcClear n s).rst = s.rst := rfl

/-! ## rpcDrop -/

@[simp] theorem rpcDrop_pending (n page : Nat) (s : State) : (rpcDrop n page s).pending = s.pending := rfl
@[simp] theorem rpcDrop_out (n page : Nat) (s : State) : (rpcDrop n page s).out = s.out := rfl
@[simp] theorem rpcDrop_free (n page : Nat) (s : State) : (rpcDrop n page s).free = s.free := rfl
@[simp] theorem rpcDrop_now (n page : Nat) (s : State) : (rpcDrop n page s).now = s.now := rfl
@[simp] theorem rpcDrop_clock (n page : Nat) (s : State) : (rpcDrop n page s).clock = s.clock := rfl
@[simp] theorem rpcDrop_bootTime (n page : Nat) (s : State) : (rpcDrop n page s).bootTime = s.bootTime := rfl
@[simp] theorem rpcDrop_regs (n page : Nat) (s : State) : (rpcDrop n page s).regs = s.regs := rfl
@[simp] theorem rpcDrop_latches (n page : Nat) (s : State) : (rpcDrop n page s).latches = s.latches := rfl
@[simp] theorem rpcDrop_places (n page : Nat) (s : State) : (rpcDrop n page s).places = s.places := rfl
@[simp] theorem rpcDrop_sites (n page : Nat) (s : State) : (rpcDrop n page s).sites = s.sites := rfl
@[simp] theorem rpcDrop_cores (n page : Nat) (s : State) : (rpcDrop n page s).cores = s.cores := rfl
@[simp] theorem rpcDrop_rings (n page : Nat) (s : State) : (rpcDrop n page s).rings = s.rings := rfl
@[simp] theorem rpcDrop_funcs (n page : Nat) (s : State) : (rpcDrop n page s).funcs = s.funcs := rfl
@[simp] theorem rpcDrop_descs (n page : Nat) (s : State) : (rpcDrop n page s).descs = s.descs := rfl
@[simp] theorem rpcDrop_accepts (n page : Nat) (s : State) : (rpcDrop n page s).accepts = s.accepts := rfl
@[simp] theorem rpcDrop_journal (n page : Nat) (s : State) : (rpcDrop n page s).journal = s.journal := rfl
@[simp] theorem rpcDrop_link (n page : Nat) (s : State) : (rpcDrop n page s).link = s.link := rfl
@[simp] theorem rpcDrop_flrPf0 (n page : Nat) (s : State) : (rpcDrop n page s).flrPf0 = s.flrPf0 := rfl
@[simp] theorem rpcDrop_ldr (n page : Nat) (s : State) : (rpcDrop n page s).ldr = s.ldr := rfl
@[simp] theorem rpcDrop_mem (n page : Nat) (s : State) : (rpcDrop n page s).mem = s.mem := rfl
@[simp] theorem rpcDrop_syn (n page : Nat) (s : State) : (rpcDrop n page s).syn = s.syn := rfl
@[simp] theorem rpcDrop_pipes (n page : Nat) (s : State) : (rpcDrop n page s).pipes = s.pipes := rfl
@[simp] theorem rpcDrop_fer (n page : Nat) (s : State) : (rpcDrop n page s).fer = s.fer := rfl
@[simp] theorem rpcDrop_sec (n page : Nat) (s : State) : (rpcDrop n page s).sec = s.sec := rfl
@[simp] theorem rpcDrop_brd (n page : Nat) (s : State) : (rpcDrop n page s).brd = s.brd := rfl
@[simp] theorem rpcDrop_rst (n page : Nat) (s : State) : (rpcDrop n page s).rst = s.rst := rfl

/-! ## updColl -/

@[simp] theorem updColl_pending (n id : Nat) (f : Coll → Coll) (s : State) : (updColl n id f s).pending = s.pending := rfl
@[simp] theorem updColl_out (n id : Nat) (f : Coll → Coll) (s : State) : (updColl n id f s).out = s.out := rfl
@[simp] theorem updColl_free (n id : Nat) (f : Coll → Coll) (s : State) : (updColl n id f s).free = s.free := rfl
@[simp] theorem updColl_now (n id : Nat) (f : Coll → Coll) (s : State) : (updColl n id f s).now = s.now := rfl
@[simp] theorem updColl_clock (n id : Nat) (f : Coll → Coll) (s : State) : (updColl n id f s).clock = s.clock := rfl
@[simp] theorem updColl_bootTime (n id : Nat) (f : Coll → Coll) (s : State) : (updColl n id f s).bootTime = s.bootTime := rfl
@[simp] theorem updColl_regs (n id : Nat) (f : Coll → Coll) (s : State) : (updColl n id f s).regs = s.regs := rfl
@[simp] theorem updColl_latches (n id : Nat) (f : Coll → Coll) (s : State) : (updColl n id f s).latches = s.latches := rfl
@[simp] theorem updColl_places (n id : Nat) (f : Coll → Coll) (s : State) : (updColl n id f s).places = s.places := rfl
@[simp] theorem updColl_sites (n id : Nat) (f : Coll → Coll) (s : State) : (updColl n id f s).sites = s.sites := rfl
@[simp] theorem updColl_cores (n id : Nat) (f : Coll → Coll) (s : State) : (updColl n id f s).cores = s.cores := rfl
@[simp] theorem updColl_rings (n id : Nat) (f : Coll → Coll) (s : State) : (updColl n id f s).rings = s.rings := rfl
@[simp] theorem updColl_funcs (n id : Nat) (f : Coll → Coll) (s : State) : (updColl n id f s).funcs = s.funcs := rfl
@[simp] theorem updColl_descs (n id : Nat) (f : Coll → Coll) (s : State) : (updColl n id f s).descs = s.descs := rfl
@[simp] theorem updColl_accepts (n id : Nat) (f : Coll → Coll) (s : State) : (updColl n id f s).accepts = s.accepts := rfl
@[simp] theorem updColl_journal (n id : Nat) (f : Coll → Coll) (s : State) : (updColl n id f s).journal = s.journal := rfl
@[simp] theorem updColl_link (n id : Nat) (f : Coll → Coll) (s : State) : (updColl n id f s).link = s.link := rfl
@[simp] theorem updColl_flrPf0 (n id : Nat) (f : Coll → Coll) (s : State) : (updColl n id f s).flrPf0 = s.flrPf0 := rfl
@[simp] theorem updColl_ldr (n id : Nat) (f : Coll → Coll) (s : State) : (updColl n id f s).ldr = s.ldr := rfl
@[simp] theorem updColl_mem (n id : Nat) (f : Coll → Coll) (s : State) : (updColl n id f s).mem = s.mem := rfl
@[simp] theorem updColl_syn (n id : Nat) (f : Coll → Coll) (s : State) : (updColl n id f s).syn = s.syn := rfl
@[simp] theorem updColl_fab (n id : Nat) (f : Coll → Coll) (s : State) : (updColl n id f s).fab = s.fab := rfl
@[simp] theorem updColl_pipes (n id : Nat) (f : Coll → Coll) (s : State) : (updColl n id f s).pipes = s.pipes := rfl
@[simp] theorem updColl_fer (n id : Nat) (f : Coll → Coll) (s : State) : (updColl n id f s).fer = s.fer := rfl
@[simp] theorem updColl_sec (n id : Nat) (f : Coll → Coll) (s : State) : (updColl n id f s).sec = s.sec := rfl
@[simp] theorem updColl_brd (n id : Nat) (f : Coll → Coll) (s : State) : (updColl n id f s).brd = s.brd := rfl
@[simp] theorem updColl_rst (n id : Nat) (f : Coll → Coll) (s : State) : (updColl n id f s).rst = s.rst := rfl

/-! ## dropUnsent -/

@[simp] theorem dropUnsent_pending (n id : Nat) (all : Bool) (s : State) : (dropUnsent n id all s).pending = s.pending := rfl
@[simp] theorem dropUnsent_out (n id : Nat) (all : Bool) (s : State) : (dropUnsent n id all s).out = s.out := rfl
@[simp] theorem dropUnsent_free (n id : Nat) (all : Bool) (s : State) : (dropUnsent n id all s).free = s.free := rfl
@[simp] theorem dropUnsent_now (n id : Nat) (all : Bool) (s : State) : (dropUnsent n id all s).now = s.now := rfl
@[simp] theorem dropUnsent_clock (n id : Nat) (all : Bool) (s : State) : (dropUnsent n id all s).clock = s.clock := rfl
@[simp] theorem dropUnsent_bootTime (n id : Nat) (all : Bool) (s : State) : (dropUnsent n id all s).bootTime = s.bootTime := rfl
@[simp] theorem dropUnsent_regs (n id : Nat) (all : Bool) (s : State) : (dropUnsent n id all s).regs = s.regs := rfl
@[simp] theorem dropUnsent_latches (n id : Nat) (all : Bool) (s : State) : (dropUnsent n id all s).latches = s.latches := rfl
@[simp] theorem dropUnsent_places (n id : Nat) (all : Bool) (s : State) : (dropUnsent n id all s).places = s.places := rfl
@[simp] theorem dropUnsent_sites (n id : Nat) (all : Bool) (s : State) : (dropUnsent n id all s).sites = s.sites := rfl
@[simp] theorem dropUnsent_cores (n id : Nat) (all : Bool) (s : State) : (dropUnsent n id all s).cores = s.cores := rfl
@[simp] theorem dropUnsent_parts (n id : Nat) (all : Bool) (s : State) : (dropUnsent n id all s).parts = s.parts := rfl
@[simp] theorem dropUnsent_rings (n id : Nat) (all : Bool) (s : State) : (dropUnsent n id all s).rings = s.rings := rfl
@[simp] theorem dropUnsent_funcs (n id : Nat) (all : Bool) (s : State) : (dropUnsent n id all s).funcs = s.funcs := rfl
@[simp] theorem dropUnsent_descs (n id : Nat) (all : Bool) (s : State) : (dropUnsent n id all s).descs = s.descs := rfl
@[simp] theorem dropUnsent_accepts (n id : Nat) (all : Bool) (s : State) : (dropUnsent n id all s).accepts = s.accepts := rfl
@[simp] theorem dropUnsent_journal (n id : Nat) (all : Bool) (s : State) : (dropUnsent n id all s).journal = s.journal := rfl
@[simp] theorem dropUnsent_link (n id : Nat) (all : Bool) (s : State) : (dropUnsent n id all s).link = s.link := rfl
@[simp] theorem dropUnsent_flrPf0 (n id : Nat) (all : Bool) (s : State) : (dropUnsent n id all s).flrPf0 = s.flrPf0 := rfl
@[simp] theorem dropUnsent_ldr (n id : Nat) (all : Bool) (s : State) : (dropUnsent n id all s).ldr = s.ldr := rfl
@[simp] theorem dropUnsent_mem (n id : Nat) (all : Bool) (s : State) : (dropUnsent n id all s).mem = s.mem := rfl
@[simp] theorem dropUnsent_syn (n id : Nat) (all : Bool) (s : State) : (dropUnsent n id all s).syn = s.syn := rfl
@[simp] theorem dropUnsent_pipes (n id : Nat) (all : Bool) (s : State) : (dropUnsent n id all s).pipes = s.pipes := rfl
@[simp] theorem dropUnsent_fer (n id : Nat) (all : Bool) (s : State) : (dropUnsent n id all s).fer = s.fer := rfl
@[simp] theorem dropUnsent_sec (n id : Nat) (all : Bool) (s : State) : (dropUnsent n id all s).sec = s.sec := rfl
@[simp] theorem dropUnsent_brd (n id : Nat) (all : Bool) (s : State) : (dropUnsent n id all s).brd = s.brd := rfl
@[simp] theorem dropUnsent_rst (n id : Nat) (all : Bool) (s : State) : (dropUnsent n id all s).rst = s.rst := rfl

/-! ## stampSite -/

@[simp] theorem stampSite_pending (t : Nat) (s : State) : (stampSite t s).pending = s.pending := rfl
@[simp] theorem stampSite_out (t : Nat) (s : State) : (stampSite t s).out = s.out := rfl
@[simp] theorem stampSite_free (t : Nat) (s : State) : (stampSite t s).free = s.free := rfl
@[simp] theorem stampSite_now (t : Nat) (s : State) : (stampSite t s).now = s.now := rfl
@[simp] theorem stampSite_clock (t : Nat) (s : State) : (stampSite t s).clock = s.clock := rfl
@[simp] theorem stampSite_bootTime (t : Nat) (s : State) : (stampSite t s).bootTime = s.bootTime := rfl
@[simp] theorem stampSite_regs (t : Nat) (s : State) : (stampSite t s).regs = s.regs := rfl
@[simp] theorem stampSite_latches (t : Nat) (s : State) : (stampSite t s).latches = s.latches := rfl
@[simp] theorem stampSite_places (t : Nat) (s : State) : (stampSite t s).places = s.places := rfl
@[simp] theorem stampSite_cores (t : Nat) (s : State) : (stampSite t s).cores = s.cores := rfl
@[simp] theorem stampSite_parts (t : Nat) (s : State) : (stampSite t s).parts = s.parts := rfl
@[simp] theorem stampSite_rings (t : Nat) (s : State) : (stampSite t s).rings = s.rings := rfl
@[simp] theorem stampSite_funcs (t : Nat) (s : State) : (stampSite t s).funcs = s.funcs := rfl
@[simp] theorem stampSite_descs (t : Nat) (s : State) : (stampSite t s).descs = s.descs := rfl
@[simp] theorem stampSite_accepts (t : Nat) (s : State) : (stampSite t s).accepts = s.accepts := rfl
@[simp] theorem stampSite_journal (t : Nat) (s : State) : (stampSite t s).journal = s.journal := rfl
@[simp] theorem stampSite_link (t : Nat) (s : State) : (stampSite t s).link = s.link := rfl
@[simp] theorem stampSite_flrPf0 (t : Nat) (s : State) : (stampSite t s).flrPf0 = s.flrPf0 := rfl
@[simp] theorem stampSite_ldr (t : Nat) (s : State) : (stampSite t s).ldr = s.ldr := rfl
@[simp] theorem stampSite_mem (t : Nat) (s : State) : (stampSite t s).mem = s.mem := rfl
@[simp] theorem stampSite_syn (t : Nat) (s : State) : (stampSite t s).syn = s.syn := rfl
@[simp] theorem stampSite_fab (t : Nat) (s : State) : (stampSite t s).fab = s.fab := rfl
@[simp] theorem stampSite_pipes (t : Nat) (s : State) : (stampSite t s).pipes = s.pipes := rfl
@[simp] theorem stampSite_fer (t : Nat) (s : State) : (stampSite t s).fer = s.fer := rfl
@[simp] theorem stampSite_sec (t : Nat) (s : State) : (stampSite t s).sec = s.sec := rfl
@[simp] theorem stampSite_brd (t : Nat) (s : State) : (stampSite t s).brd = s.brd := rfl
@[simp] theorem stampSite_rst (t : Nat) (s : State) : (stampSite t s).rst = s.rst := rfl

/-! ## restartCounts -/

@[simp] theorem restartCounts_pending (t : Nat) (s : State) : (restartCounts t s).pending = s.pending := rfl
@[simp] theorem restartCounts_out (t : Nat) (s : State) : (restartCounts t s).out = s.out := rfl
@[simp] theorem restartCounts_free (t : Nat) (s : State) : (restartCounts t s).free = s.free := rfl
@[simp] theorem restartCounts_now (t : Nat) (s : State) : (restartCounts t s).now = s.now := rfl
@[simp] theorem restartCounts_clock (t : Nat) (s : State) : (restartCounts t s).clock = s.clock := rfl
@[simp] theorem restartCounts_bootTime (t : Nat) (s : State) : (restartCounts t s).bootTime = s.bootTime := rfl
@[simp] theorem restartCounts_regs (t : Nat) (s : State) : (restartCounts t s).regs = s.regs := rfl
@[simp] theorem restartCounts_latches (t : Nat) (s : State) : (restartCounts t s).latches = s.latches := rfl
@[simp] theorem restartCounts_places (t : Nat) (s : State) : (restartCounts t s).places = s.places := rfl
@[simp] theorem restartCounts_cores (t : Nat) (s : State) : (restartCounts t s).cores = s.cores := rfl
@[simp] theorem restartCounts_parts (t : Nat) (s : State) : (restartCounts t s).parts = s.parts := rfl
@[simp] theorem restartCounts_rings (t : Nat) (s : State) : (restartCounts t s).rings = s.rings := rfl
@[simp] theorem restartCounts_funcs (t : Nat) (s : State) : (restartCounts t s).funcs = s.funcs := rfl
@[simp] theorem restartCounts_descs (t : Nat) (s : State) : (restartCounts t s).descs = s.descs := rfl
@[simp] theorem restartCounts_accepts (t : Nat) (s : State) : (restartCounts t s).accepts = s.accepts := rfl
@[simp] theorem restartCounts_journal (t : Nat) (s : State) : (restartCounts t s).journal = s.journal := rfl
@[simp] theorem restartCounts_link (t : Nat) (s : State) : (restartCounts t s).link = s.link := rfl
@[simp] theorem restartCounts_flrPf0 (t : Nat) (s : State) : (restartCounts t s).flrPf0 = s.flrPf0 := rfl
@[simp] theorem restartCounts_ldr (t : Nat) (s : State) : (restartCounts t s).ldr = s.ldr := rfl
@[simp] theorem restartCounts_mem (t : Nat) (s : State) : (restartCounts t s).mem = s.mem := rfl
@[simp] theorem restartCounts_syn (t : Nat) (s : State) : (restartCounts t s).syn = s.syn := rfl
@[simp] theorem restartCounts_fab (t : Nat) (s : State) : (restartCounts t s).fab = s.fab := rfl
@[simp] theorem restartCounts_pipes (t : Nat) (s : State) : (restartCounts t s).pipes = s.pipes := rfl
@[simp] theorem restartCounts_fer (t : Nat) (s : State) : (restartCounts t s).fer = s.fer := rfl
@[simp] theorem restartCounts_sec (t : Nat) (s : State) : (restartCounts t s).sec = s.sec := rfl
@[simp] theorem restartCounts_brd (t : Nat) (s : State) : (restartCounts t s).brd = s.brd := rfl
@[simp] theorem restartCounts_rst (t : Nat) (s : State) : (restartCounts t s).rst = s.rst := rfl

/-! ## updJob -/

@[simp] theorem updJob_pending (n js : Nat) (f : Job → Job) (s : State) : (updJob n js f s).pending = s.pending := rfl
@[simp] theorem updJob_out (n js : Nat) (f : Job → Job) (s : State) : (updJob n js f s).out = s.out := rfl
@[simp] theorem updJob_free (n js : Nat) (f : Job → Job) (s : State) : (updJob n js f s).free = s.free := rfl
@[simp] theorem updJob_now (n js : Nat) (f : Job → Job) (s : State) : (updJob n js f s).now = s.now := rfl
@[simp] theorem updJob_clock (n js : Nat) (f : Job → Job) (s : State) : (updJob n js f s).clock = s.clock := rfl
@[simp] theorem updJob_bootTime (n js : Nat) (f : Job → Job) (s : State) : (updJob n js f s).bootTime = s.bootTime := rfl
@[simp] theorem updJob_regs (n js : Nat) (f : Job → Job) (s : State) : (updJob n js f s).regs = s.regs := rfl
@[simp] theorem updJob_latches (n js : Nat) (f : Job → Job) (s : State) : (updJob n js f s).latches = s.latches := rfl
@[simp] theorem updJob_places (n js : Nat) (f : Job → Job) (s : State) : (updJob n js f s).places = s.places := rfl
@[simp] theorem updJob_sites (n js : Nat) (f : Job → Job) (s : State) : (updJob n js f s).sites = s.sites := rfl
@[simp] theorem updJob_cores (n js : Nat) (f : Job → Job) (s : State) : (updJob n js f s).cores = s.cores := rfl
@[simp] theorem updJob_rings (n js : Nat) (f : Job → Job) (s : State) : (updJob n js f s).rings = s.rings := rfl
@[simp] theorem updJob_funcs (n js : Nat) (f : Job → Job) (s : State) : (updJob n js f s).funcs = s.funcs := rfl
@[simp] theorem updJob_descs (n js : Nat) (f : Job → Job) (s : State) : (updJob n js f s).descs = s.descs := rfl
@[simp] theorem updJob_accepts (n js : Nat) (f : Job → Job) (s : State) : (updJob n js f s).accepts = s.accepts := rfl
@[simp] theorem updJob_journal (n js : Nat) (f : Job → Job) (s : State) : (updJob n js f s).journal = s.journal := rfl
@[simp] theorem updJob_link (n js : Nat) (f : Job → Job) (s : State) : (updJob n js f s).link = s.link := rfl
@[simp] theorem updJob_flrPf0 (n js : Nat) (f : Job → Job) (s : State) : (updJob n js f s).flrPf0 = s.flrPf0 := rfl
@[simp] theorem updJob_ldr (n js : Nat) (f : Job → Job) (s : State) : (updJob n js f s).ldr = s.ldr := rfl
@[simp] theorem updJob_mem (n js : Nat) (f : Job → Job) (s : State) : (updJob n js f s).mem = s.mem := rfl
@[simp] theorem updJob_syn (n js : Nat) (f : Job → Job) (s : State) : (updJob n js f s).syn = s.syn := rfl
@[simp] theorem updJob_fab (n js : Nat) (f : Job → Job) (s : State) : (updJob n js f s).fab = s.fab := rfl
@[simp] theorem updJob_pipes (n js : Nat) (f : Job → Job) (s : State) : (updJob n js f s).pipes = s.pipes := rfl
@[simp] theorem updJob_fer (n js : Nat) (f : Job → Job) (s : State) : (updJob n js f s).fer = s.fer := rfl
@[simp] theorem updJob_sec (n js : Nat) (f : Job → Job) (s : State) : (updJob n js f s).sec = s.sec := rfl
@[simp] theorem updJob_brd (n js : Nat) (f : Job → Job) (s : State) : (updJob n js f s).brd = s.brd := rfl
@[simp] theorem updJob_rst (n js : Nat) (f : Job → Job) (s : State) : (updJob n js f s).rst = s.rst := rfl

/-! ## fillBanks -/

@[simp] theorem fillBanks_pending (k : Core) (s : State) : (fillBanks k s).pending = s.pending := rfl
@[simp] theorem fillBanks_out (k : Core) (s : State) : (fillBanks k s).out = s.out := rfl
@[simp] theorem fillBanks_free (k : Core) (s : State) : (fillBanks k s).free = s.free := rfl
@[simp] theorem fillBanks_now (k : Core) (s : State) : (fillBanks k s).now = s.now := rfl
@[simp] theorem fillBanks_clock (k : Core) (s : State) : (fillBanks k s).clock = s.clock := rfl
@[simp] theorem fillBanks_bootTime (k : Core) (s : State) : (fillBanks k s).bootTime = s.bootTime := rfl
@[simp] theorem fillBanks_regs (k : Core) (s : State) : (fillBanks k s).regs = s.regs := rfl
@[simp] theorem fillBanks_latches (k : Core) (s : State) : (fillBanks k s).latches = s.latches := rfl
@[simp] theorem fillBanks_places (k : Core) (s : State) : (fillBanks k s).places = s.places := rfl
@[simp] theorem fillBanks_sites (k : Core) (s : State) : (fillBanks k s).sites = s.sites := rfl
@[simp] theorem fillBanks_cores (k : Core) (s : State) : (fillBanks k s).cores = s.cores := rfl
@[simp] theorem fillBanks_parts (k : Core) (s : State) : (fillBanks k s).parts = s.parts := rfl
@[simp] theorem fillBanks_rings (k : Core) (s : State) : (fillBanks k s).rings = s.rings := rfl
@[simp] theorem fillBanks_funcs (k : Core) (s : State) : (fillBanks k s).funcs = s.funcs := rfl
@[simp] theorem fillBanks_descs (k : Core) (s : State) : (fillBanks k s).descs = s.descs := rfl
@[simp] theorem fillBanks_accepts (k : Core) (s : State) : (fillBanks k s).accepts = s.accepts := rfl
@[simp] theorem fillBanks_journal (k : Core) (s : State) : (fillBanks k s).journal = s.journal := rfl
@[simp] theorem fillBanks_link (k : Core) (s : State) : (fillBanks k s).link = s.link := rfl
@[simp] theorem fillBanks_flrPf0 (k : Core) (s : State) : (fillBanks k s).flrPf0 = s.flrPf0 := rfl
@[simp] theorem fillBanks_mem (k : Core) (s : State) : (fillBanks k s).mem = s.mem := rfl
@[simp] theorem fillBanks_syn (k : Core) (s : State) : (fillBanks k s).syn = s.syn := rfl
@[simp] theorem fillBanks_fab (k : Core) (s : State) : (fillBanks k s).fab = s.fab := rfl
@[simp] theorem fillBanks_pipes (k : Core) (s : State) : (fillBanks k s).pipes = s.pipes := rfl
@[simp] theorem fillBanks_fer (k : Core) (s : State) : (fillBanks k s).fer = s.fer := rfl
@[simp] theorem fillBanks_sec (k : Core) (s : State) : (fillBanks k s).sec = s.sec := rfl
@[simp] theorem fillBanks_brd (k : Core) (s : State) : (fillBanks k s).brd = s.brd := rfl
@[simp] theorem fillBanks_rst (k : Core) (s : State) : (fillBanks k s).rst = s.rst := rfl

/-! ## reserve -/

@[simp] theorem reserve_pending (n : Nat) (s : State) : (reserve n s).pending = s.pending := rfl
@[simp] theorem reserve_out (n : Nat) (s : State) : (reserve n s).out = s.out := rfl
@[simp] theorem reserve_now (n : Nat) (s : State) : (reserve n s).now = s.now := rfl
@[simp] theorem reserve_clock (n : Nat) (s : State) : (reserve n s).clock = s.clock := rfl
@[simp] theorem reserve_bootTime (n : Nat) (s : State) : (reserve n s).bootTime = s.bootTime := rfl
@[simp] theorem reserve_regs (n : Nat) (s : State) : (reserve n s).regs = s.regs := rfl
@[simp] theorem reserve_latches (n : Nat) (s : State) : (reserve n s).latches = s.latches := rfl
@[simp] theorem reserve_places (n : Nat) (s : State) : (reserve n s).places = s.places := rfl
@[simp] theorem reserve_sites (n : Nat) (s : State) : (reserve n s).sites = s.sites := rfl
@[simp] theorem reserve_cores (n : Nat) (s : State) : (reserve n s).cores = s.cores := rfl
@[simp] theorem reserve_parts (n : Nat) (s : State) : (reserve n s).parts = s.parts := rfl
@[simp] theorem reserve_rings (n : Nat) (s : State) : (reserve n s).rings = s.rings := rfl
@[simp] theorem reserve_funcs (n : Nat) (s : State) : (reserve n s).funcs = s.funcs := rfl
@[simp] theorem reserve_descs (n : Nat) (s : State) : (reserve n s).descs = s.descs := rfl
@[simp] theorem reserve_accepts (n : Nat) (s : State) : (reserve n s).accepts = s.accepts := rfl
@[simp] theorem reserve_journal (n : Nat) (s : State) : (reserve n s).journal = s.journal := rfl
@[simp] theorem reserve_link (n : Nat) (s : State) : (reserve n s).link = s.link := rfl
@[simp] theorem reserve_flrPf0 (n : Nat) (s : State) : (reserve n s).flrPf0 = s.flrPf0 := rfl
@[simp] theorem reserve_ldr (n : Nat) (s : State) : (reserve n s).ldr = s.ldr := rfl
@[simp] theorem reserve_mem (n : Nat) (s : State) : (reserve n s).mem = s.mem := rfl
@[simp] theorem reserve_syn (n : Nat) (s : State) : (reserve n s).syn = s.syn := rfl
@[simp] theorem reserve_fab (n : Nat) (s : State) : (reserve n s).fab = s.fab := rfl
@[simp] theorem reserve_pipes (n : Nat) (s : State) : (reserve n s).pipes = s.pipes := rfl
@[simp] theorem reserve_fer (n : Nat) (s : State) : (reserve n s).fer = s.fer := rfl
@[simp] theorem reserve_sec (n : Nat) (s : State) : (reserve n s).sec = s.sec := rfl
@[simp] theorem reserve_brd (n : Nat) (s : State) : (reserve n s).brd = s.brd := rfl
@[simp] theorem reserve_rst (n : Nat) (s : State) : (reserve n s).rst = s.rst := rfl

/-! ## incReg -/

@[simp] theorem incReg_pending (k : Nat) (s : State) : (incReg k s).pending = s.pending := by
  simp only [incReg]; (repeat' split) <;> simp
@[simp] theorem incReg_out (k : Nat) (s : State) : (incReg k s).out = s.out := by
  simp only [incReg]; (repeat' split) <;> simp
@[simp] theorem incReg_free (k : Nat) (s : State) : (incReg k s).free = s.free := by
  simp only [incReg]; (repeat' split) <;> simp
@[simp] theorem incReg_now (k : Nat) (s : State) : (incReg k s).now = s.now := by
  simp only [incReg]; (repeat' split) <;> simp
@[simp] theorem incReg_clock (k : Nat) (s : State) : (incReg k s).clock = s.clock := by
  simp only [incReg]; (repeat' split) <;> simp
@[simp] theorem incReg_bootTime (k : Nat) (s : State) : (incReg k s).bootTime = s.bootTime := by
  simp only [incReg]; (repeat' split) <;> simp
@[simp] theorem incReg_latches (k : Nat) (s : State) : (incReg k s).latches = s.latches := by
  simp only [incReg]; (repeat' split) <;> simp
@[simp] theorem incReg_places (k : Nat) (s : State) : (incReg k s).places = s.places := by
  simp only [incReg]; (repeat' split) <;> simp
@[simp] theorem incReg_sites (k : Nat) (s : State) : (incReg k s).sites = s.sites := by
  simp only [incReg]; (repeat' split) <;> simp
@[simp] theorem incReg_cores (k : Nat) (s : State) : (incReg k s).cores = s.cores := by
  simp only [incReg]; (repeat' split) <;> simp
@[simp] theorem incReg_parts (k : Nat) (s : State) : (incReg k s).parts = s.parts := by
  simp only [incReg]; (repeat' split) <;> simp
@[simp] theorem incReg_rings (k : Nat) (s : State) : (incReg k s).rings = s.rings := by
  simp only [incReg]; (repeat' split) <;> simp
@[simp] theorem incReg_funcs (k : Nat) (s : State) : (incReg k s).funcs = s.funcs := by
  simp only [incReg]; (repeat' split) <;> simp
@[simp] theorem incReg_descs (k : Nat) (s : State) : (incReg k s).descs = s.descs := by
  simp only [incReg]; (repeat' split) <;> simp
@[simp] theorem incReg_accepts (k : Nat) (s : State) : (incReg k s).accepts = s.accepts := by
  simp only [incReg]; (repeat' split) <;> simp
@[simp] theorem incReg_journal (k : Nat) (s : State) : (incReg k s).journal = s.journal := by
  simp only [incReg]; (repeat' split) <;> simp
@[simp] theorem incReg_link (k : Nat) (s : State) : (incReg k s).link = s.link := by
  simp only [incReg]; (repeat' split) <;> simp
@[simp] theorem incReg_flrPf0 (k : Nat) (s : State) : (incReg k s).flrPf0 = s.flrPf0 := by
  simp only [incReg]; (repeat' split) <;> simp
@[simp] theorem incReg_ldr (k : Nat) (s : State) : (incReg k s).ldr = s.ldr := by
  simp only [incReg]; (repeat' split) <;> simp
@[simp] theorem incReg_mem (k : Nat) (s : State) : (incReg k s).mem = s.mem := by
  simp only [incReg]; (repeat' split) <;> simp
@[simp] theorem incReg_syn (k : Nat) (s : State) : (incReg k s).syn = s.syn := by
  simp only [incReg]; (repeat' split) <;> simp
@[simp] theorem incReg_fab (k : Nat) (s : State) : (incReg k s).fab = s.fab := by
  simp only [incReg]; (repeat' split) <;> simp
@[simp] theorem incReg_pipes (k : Nat) (s : State) : (incReg k s).pipes = s.pipes := by
  simp only [incReg]; (repeat' split) <;> simp
@[simp] theorem incReg_fer (k : Nat) (s : State) : (incReg k s).fer = s.fer := by
  simp only [incReg]; (repeat' split) <;> simp
@[simp] theorem incReg_sec (k : Nat) (s : State) : (incReg k s).sec = s.sec := by
  simp only [incReg]; (repeat' split) <;> simp
@[simp] theorem incReg_brd (k : Nat) (s : State) : (incReg k s).brd = s.brd := by
  simp only [incReg]; (repeat' split) <;> simp
@[simp] theorem incReg_rst (k : Nat) (s : State) : (incReg k s).rst = s.rst := by
  simp only [incReg]; (repeat' split) <;> simp

/-! ## leaveIdle -/

@[simp] theorem leaveIdle_pending (s : State) : (leaveIdle s).pending = s.pending := by
  simp only [leaveIdle]; (repeat' split) <;> simp
@[simp] theorem leaveIdle_out (s : State) : (leaveIdle s).out = s.out := by
  simp only [leaveIdle]; (repeat' split) <;> simp
@[simp] theorem leaveIdle_free (s : State) : (leaveIdle s).free = s.free := by
  simp only [leaveIdle]; (repeat' split) <;> simp
@[simp] theorem leaveIdle_now (s : State) : (leaveIdle s).now = s.now := by
  simp only [leaveIdle]; (repeat' split) <;> simp
@[simp] theorem leaveIdle_clock (s : State) : (leaveIdle s).clock = s.clock := by
  simp only [leaveIdle]; (repeat' split) <;> simp
@[simp] theorem leaveIdle_bootTime (s : State) : (leaveIdle s).bootTime = s.bootTime := by
  simp only [leaveIdle]; (repeat' split) <;> simp
@[simp] theorem leaveIdle_regs (s : State) : (leaveIdle s).regs = s.regs := by
  simp only [leaveIdle]; (repeat' split) <;> simp
@[simp] theorem leaveIdle_latches (s : State) : (leaveIdle s).latches = s.latches := by
  simp only [leaveIdle]; (repeat' split) <;> simp
@[simp] theorem leaveIdle_places (s : State) : (leaveIdle s).places = s.places := by
  simp only [leaveIdle]; (repeat' split) <;> simp
@[simp] theorem leaveIdle_sites (s : State) : (leaveIdle s).sites = s.sites := by
  simp only [leaveIdle]; (repeat' split) <;> simp
@[simp] theorem leaveIdle_cores (s : State) : (leaveIdle s).cores = s.cores := by
  simp only [leaveIdle]; (repeat' split) <;> simp
@[simp] theorem leaveIdle_parts (s : State) : (leaveIdle s).parts = s.parts := by
  simp only [leaveIdle]; (repeat' split) <;> simp
@[simp] theorem leaveIdle_rings (s : State) : (leaveIdle s).rings = s.rings := by
  simp only [leaveIdle]; (repeat' split) <;> simp
@[simp] theorem leaveIdle_funcs (s : State) : (leaveIdle s).funcs = s.funcs := by
  simp only [leaveIdle]; (repeat' split) <;> simp
@[simp] theorem leaveIdle_descs (s : State) : (leaveIdle s).descs = s.descs := by
  simp only [leaveIdle]; (repeat' split) <;> simp
@[simp] theorem leaveIdle_accepts (s : State) : (leaveIdle s).accepts = s.accepts := by
  simp only [leaveIdle]; (repeat' split) <;> simp
@[simp] theorem leaveIdle_journal (s : State) : (leaveIdle s).journal = s.journal := by
  simp only [leaveIdle]; (repeat' split) <;> simp
@[simp] theorem leaveIdle_link (s : State) : (leaveIdle s).link = s.link := by
  simp only [leaveIdle]; (repeat' split) <;> simp
@[simp] theorem leaveIdle_flrPf0 (s : State) : (leaveIdle s).flrPf0 = s.flrPf0 := by
  simp only [leaveIdle]; (repeat' split) <;> simp
@[simp] theorem leaveIdle_ldr (s : State) : (leaveIdle s).ldr = s.ldr := by
  simp only [leaveIdle]; (repeat' split) <;> simp
@[simp] theorem leaveIdle_mem (s : State) : (leaveIdle s).mem = s.mem := by
  simp only [leaveIdle]; (repeat' split) <;> simp
@[simp] theorem leaveIdle_syn (s : State) : (leaveIdle s).syn = s.syn := by
  simp only [leaveIdle]; (repeat' split) <;> simp
@[simp] theorem leaveIdle_fab (s : State) : (leaveIdle s).fab = s.fab := by
  simp only [leaveIdle]; (repeat' split) <;> simp
@[simp] theorem leaveIdle_pipes (s : State) : (leaveIdle s).pipes = s.pipes := by
  simp only [leaveIdle]; (repeat' split) <;> simp
@[simp] theorem leaveIdle_sec (s : State) : (leaveIdle s).sec = s.sec := by
  simp only [leaveIdle]; (repeat' split) <;> simp
@[simp] theorem leaveIdle_brd (s : State) : (leaveIdle s).brd = s.brd := by
  simp only [leaveIdle]; (repeat' split) <;> simp
@[simp] theorem leaveIdle_rst (s : State) : (leaveIdle s).rst = s.rst := by
  simp only [leaveIdle]; (repeat' split) <;> simp

/-! ## signalVector -/

@[simp] theorem signalVector_pending (fn v : Nat) (s : State) : (signalVector fn v s).pending = s.pending := by
  simp only [signalVector]; (repeat' split) <;> simp
@[simp] theorem signalVector_free (fn v : Nat) (s : State) : (signalVector fn v s).free = s.free := by
  simp only [signalVector]; (repeat' split) <;> simp
@[simp] theorem signalVector_now (fn v : Nat) (s : State) : (signalVector fn v s).now = s.now := by
  simp only [signalVector]; (repeat' split) <;> simp
@[simp] theorem signalVector_clock (fn v : Nat) (s : State) : (signalVector fn v s).clock = s.clock := by
  simp only [signalVector]; (repeat' split) <;> simp
@[simp] theorem signalVector_bootTime (fn v : Nat) (s : State) : (signalVector fn v s).bootTime = s.bootTime := by
  simp only [signalVector]; (repeat' split) <;> simp
@[simp] theorem signalVector_regs (fn v : Nat) (s : State) : (signalVector fn v s).regs = s.regs := by
  simp only [signalVector]; (repeat' split) <;> simp
@[simp] theorem signalVector_latches (fn v : Nat) (s : State) : (signalVector fn v s).latches = s.latches := by
  simp only [signalVector]; (repeat' split) <;> simp
@[simp] theorem signalVector_places (fn v : Nat) (s : State) : (signalVector fn v s).places = s.places := by
  simp only [signalVector]; (repeat' split) <;> simp
@[simp] theorem signalVector_sites (fn v : Nat) (s : State) : (signalVector fn v s).sites = s.sites := by
  simp only [signalVector]; (repeat' split) <;> simp
@[simp] theorem signalVector_cores (fn v : Nat) (s : State) : (signalVector fn v s).cores = s.cores := by
  simp only [signalVector]; (repeat' split) <;> simp
@[simp] theorem signalVector_parts (fn v : Nat) (s : State) : (signalVector fn v s).parts = s.parts := by
  simp only [signalVector]; (repeat' split) <;> simp
@[simp] theorem signalVector_rings (fn v : Nat) (s : State) : (signalVector fn v s).rings = s.rings := by
  simp only [signalVector]; (repeat' split) <;> simp
@[simp] theorem signalVector_descs (fn v : Nat) (s : State) : (signalVector fn v s).descs = s.descs := by
  simp only [signalVector]; (repeat' split) <;> simp
@[simp] theorem signalVector_accepts (fn v : Nat) (s : State) : (signalVector fn v s).accepts = s.accepts := by
  simp only [signalVector]; (repeat' split) <;> simp
@[simp] theorem signalVector_journal (fn v : Nat) (s : State) : (signalVector fn v s).journal = s.journal := by
  simp only [signalVector]; (repeat' split) <;> simp
@[simp] theorem signalVector_flrPf0 (fn v : Nat) (s : State) : (signalVector fn v s).flrPf0 = s.flrPf0 := by
  simp only [signalVector]; (repeat' split) <;> simp
@[simp] theorem signalVector_ldr (fn v : Nat) (s : State) : (signalVector fn v s).ldr = s.ldr := by
  simp only [signalVector]; (repeat' split) <;> simp
@[simp] theorem signalVector_mem (fn v : Nat) (s : State) : (signalVector fn v s).mem = s.mem := by
  simp only [signalVector]; (repeat' split) <;> simp
@[simp] theorem signalVector_syn (fn v : Nat) (s : State) : (signalVector fn v s).syn = s.syn := by
  simp only [signalVector]; (repeat' split) <;> simp
@[simp] theorem signalVector_fab (fn v : Nat) (s : State) : (signalVector fn v s).fab = s.fab := by
  simp only [signalVector]; (repeat' split) <;> simp
@[simp] theorem signalVector_pipes (fn v : Nat) (s : State) : (signalVector fn v s).pipes = s.pipes := by
  simp only [signalVector]; (repeat' split) <;> simp
@[simp] theorem signalVector_fer (fn v : Nat) (s : State) : (signalVector fn v s).fer = s.fer := by
  simp only [signalVector]; (repeat' split) <;> simp
@[simp] theorem signalVector_sec (fn v : Nat) (s : State) : (signalVector fn v s).sec = s.sec := by
  simp only [signalVector]; (repeat' split) <;> simp
@[simp] theorem signalVector_brd (fn v : Nat) (s : State) : (signalVector fn v s).brd = s.brd := by
  simp only [signalVector]; (repeat' split) <;> simp
@[simp] theorem signalVector_rst (fn v : Nat) (s : State) : (signalVector fn v s).rst = s.rst := by
  simp only [signalVector]; (repeat' split) <;> simp

/-! ## notice -/

@[simp] theorem notice_pending (fn bit : Nat) (s : State) : (notice fn bit s).pending = s.pending := by
  simp only [notice]; (repeat' split) <;> simp
@[simp] theorem notice_free (fn bit : Nat) (s : State) : (notice fn bit s).free = s.free := by
  simp only [notice]; (repeat' split) <;> simp
@[simp] theorem notice_now (fn bit : Nat) (s : State) : (notice fn bit s).now = s.now := by
  simp only [notice]; (repeat' split) <;> simp
@[simp] theorem notice_clock (fn bit : Nat) (s : State) : (notice fn bit s).clock = s.clock := by
  simp only [notice]; (repeat' split) <;> simp
@[simp] theorem notice_bootTime (fn bit : Nat) (s : State) : (notice fn bit s).bootTime = s.bootTime := by
  simp only [notice]; (repeat' split) <;> simp
@[simp] theorem notice_latches (fn bit : Nat) (s : State) : (notice fn bit s).latches = s.latches := by
  simp only [notice]; (repeat' split) <;> simp
@[simp] theorem notice_places (fn bit : Nat) (s : State) : (notice fn bit s).places = s.places := by
  simp only [notice]; (repeat' split) <;> simp
@[simp] theorem notice_sites (fn bit : Nat) (s : State) : (notice fn bit s).sites = s.sites := by
  simp only [notice]; (repeat' split) <;> simp
@[simp] theorem notice_cores (fn bit : Nat) (s : State) : (notice fn bit s).cores = s.cores := by
  simp only [notice]; (repeat' split) <;> simp
@[simp] theorem notice_parts (fn bit : Nat) (s : State) : (notice fn bit s).parts = s.parts := by
  simp only [notice]; (repeat' split) <;> simp
@[simp] theorem notice_rings (fn bit : Nat) (s : State) : (notice fn bit s).rings = s.rings := by
  simp only [notice]; (repeat' split) <;> simp
@[simp] theorem notice_descs (fn bit : Nat) (s : State) : (notice fn bit s).descs = s.descs := by
  simp only [notice]; (repeat' split) <;> simp
@[simp] theorem notice_accepts (fn bit : Nat) (s : State) : (notice fn bit s).accepts = s.accepts := by
  simp only [notice]; (repeat' split) <;> simp
@[simp] theorem notice_journal (fn bit : Nat) (s : State) : (notice fn bit s).journal = s.journal := by
  simp only [notice]; (repeat' split) <;> simp
@[simp] theorem notice_flrPf0 (fn bit : Nat) (s : State) : (notice fn bit s).flrPf0 = s.flrPf0 := by
  simp only [notice]; (repeat' split) <;> simp
@[simp] theorem notice_ldr (fn bit : Nat) (s : State) : (notice fn bit s).ldr = s.ldr := by
  simp only [notice]; (repeat' split) <;> simp
@[simp] theorem notice_mem (fn bit : Nat) (s : State) : (notice fn bit s).mem = s.mem := by
  simp only [notice]; (repeat' split) <;> simp
@[simp] theorem notice_syn (fn bit : Nat) (s : State) : (notice fn bit s).syn = s.syn := by
  simp only [notice]; (repeat' split) <;> simp
@[simp] theorem notice_fab (fn bit : Nat) (s : State) : (notice fn bit s).fab = s.fab := by
  simp only [notice]; (repeat' split) <;> simp
@[simp] theorem notice_pipes (fn bit : Nat) (s : State) : (notice fn bit s).pipes = s.pipes := by
  simp only [notice]; (repeat' split) <;> simp
@[simp] theorem notice_fer (fn bit : Nat) (s : State) : (notice fn bit s).fer = s.fer := by
  simp only [notice]; (repeat' split) <;> simp
@[simp] theorem notice_sec (fn bit : Nat) (s : State) : (notice fn bit s).sec = s.sec := by
  simp only [notice]; (repeat' split) <;> simp
@[simp] theorem notice_brd (fn bit : Nat) (s : State) : (notice fn bit s).brd = s.brd := by
  simp only [notice]; (repeat' split) <;> simp
@[simp] theorem notice_rst (fn bit : Nat) (s : State) : (notice fn bit s).rst = s.rst := by
  simp only [notice]; (repeat' split) <;> simp

/-! ## Reads after updates -/

@[simp] theorem getPart_updPart (n m : Nat) (f : Part → Part) (s : State) :
    getPart (updPart n f s) m = if m = n then f (getPart s n) else getPart s m := by simp [getPart, updPart, Tbl.get_upd]

@[simp] theorem getCore_setCore (c d : Nat) (k : Core) (s : State) : getCore (setCore c k s) d = if d = c then k else getCore s d := by
  simp [getCore, setCore, Tbl.get_set]

@[simp] theorem getCore_updCore (c d : Nat) (f : Core → Core) (s : State) :
    getCore (updCore c f s) d = if d = c then f (getCore s c) else getCore s d := by simp [updCore]

@[simp] theorem getSite_updSite (t u : Nat) (f : Site → Site) (s : State) :
    getSite (updSite t f s) u = if u = t then f (getSite s t) else getSite s u := by simp [getSite, updSite, Tbl.get_upd]

@[simp] theorem getRing_updRing (r q : Nat) (f : Ring → Ring) (s : State) :
    getRing (updRing r f s) q = if q = r then f (getRing s r) else getRing s q := by simp [getRing, updRing, Tbl.get_upd]

@[simp] theorem getStack_updStack (k j : Nat) (f : Stack → Stack) (s : State) :
    getStack (updStack k f s) j = if j = k then f (getStack s k) else getStack s j := by simp [getStack, updStack, Tbl.get_upd]

@[simp] theorem getPort_updPort (p q : Nat) (f : Port → Port) (s : State) :
    getPort (updPort p f s) q = if q = p then f (getPort s p) else getPort s q := by simp [getPort, updPort, Tbl.get_upd]

theorem regs_reg (a b : State) (h : a.regs = b.regs) (k : Nat) : reg a k = reg b k := by simp [reg, h]

@[simp] theorem reg_setReg (k j : Nat) (v : Word) (s : State) : reg (setReg k v s) j = if j = k then v else reg s j := by
  simp only [reg, setReg, Tbl.get_set]
  split
  · rename_i h; rw [h, BitVec.xor_assoc, BitVec.xor_self, BitVec.xor_zero]
  · rfl

@[simp] theorem reg_orReg (k j : Nat) (v : Word) (s : State) : reg (orReg k v s) j = if j = k then reg s k ||| v else reg s j := by
  simp [orReg]

@[simp] theorem openStep_updPart (n m : Nat) (f : Part → Part) (s : State) :
    openStep (updPart n f s) m = if m = n then (f (getPart s n)).step else openStep s m := by
  simp only [openStep, getPart_updPart]; split <;> rfl

@[simp] theorem openStep_updStep (n m : Nat) (f : Step → Step) (s : State) :
    openStep (updStep n f s) m = if m = n then (openStep s n).map f else openStep s m := by
  simp only [updStep, openStep_updPart]; rfl

theorem findDesc_updDesc (id j : Nat) (f : Desc → Desc) (s : State) (h : ∀ d, d.id = id → (f d).id = id) :
    findDesc (updDesc id f s) j = if j = id then (findDesc s id).map f else findDesc s j := by
  simp only [findDesc, updDesc]
  induction s.descs with
  | nil => simp
  | cons d l ih =>
    rw [List.map_cons, List.find?_cons, List.find?_cons, List.find?_cons, ih]
    by_cases hd : d.id = id
    · have := h d hd
      by_cases hj : j = id
      · subst hj; simp [hd, this]
      · have h1 : (id == j) = false := by simp; omega
        simp [hd, this, hj, h1]
    · by_cases hj : j = id
      · subst hj
        have h1 : (d.id == j) = false := by simpa using hd
        simp [hd, h1]
      · simp [hd, hj]

theorem findDesc_finishDesc (id j : Nat) (st : Status) (s : State) : findDesc (finishDesc id st s) j =
    if j = id then (findDesc s id).map (fun d => if d.live then
      { d with phase := .done (if statusCompletes st then highestStatus (st :: d.codes) else st) } else d)
    else findDesc s j := by
  unfold finishDesc
  apply findDesc_updDesc
  intro d hd; split <;> exact hd

theorem findDesc_refuseDesc (id j : Nat) (st : Status) (s : State) : findDesc (refuseDesc id st s) j =
    if j = id then (findDesc s id).map (fun d => if d.live then { d with phase := .done st, refused := true } else d)
    else findDesc s j := by
  unfold refuseDesc
  apply findDesc_updDesc
  intro d hd; split <;> exact hd

theorem findDesc_setPhase (id j : Nat) (ph : DescPhase) (s : State) : findDesc (setPhase id ph s) j =
    if j = id then (findDesc s id).map (fun d => if d.live then { d with phase := ph } else d) else findDesc s j := by
  unfold setPhase
  apply findDesc_updDesc
  intro d hd; split <;> exact hd

/-- A descriptor at its turn passes to its acceptance checks. -/
theorem atAcceptance_of {s : State} {id op : Nat} {d : Desc} (h : AtTurn s id op d) : atAcceptance s id op = some d := by
  simp [atAcceptance, h.found, h.fetched, h.code, h.turn]

theorem findDesc_id {s : State} {id : Nat} {d : Desc} (h : findDesc s id = some d) : d.id = id := by
  have := List.find?_some h
  simpa using this

/-- An instruction that a core is about to issue is carried out. -/
theorem issueOp_run {s : State} {c : Nat} {i : NInstr} (h : Issues s c i) {is : NInstr → Bool} (hi : is i = true)
    (f : Core → NInstr → State → State) : issueOp c is f s = .next (f (getCore s c) i s) := by
  have hu : (usesReg i).all (fun r => !(getCore s c).locked.contains r) = true := by
    simpa using h.unlocked
  simp only [issueOp, canIssue, h.run, h.going, h.free, h.native, h.here, hi, hu]
  simp

/-- An access of a function that reaches the device. -/
theorem hostPost_open {s : State} {fn : Nat} (h : HostOpen s fn) (go : State → State) : hostPost fn go s = go (barAccess s) := by
  have : ¬ 8 < fn := by have := h.2.1; omega
  simp [hostPost, h.1, this, h.2.2]

end Sys2Proof.Machine
end

