-- ==== Sys2Proof/WellFormed.lean ====
section
/-!
DEFINITION. Which commands name things that exist on the device: functions PF0 and VF1 to VF8 (R22), configuration
windows of logical cores (R164), partitions 1 to 8 (R9), ports 0 to 7, stacks 0 to 19, sites (R14), rings (R22),
engines (R131) and the like. A command that is not well formed names nothing the device has, and no agent can send it.
-/
namespace Sys2Proof

/-- The window number of a logical core (R9, R164). -/
def coreOk (c : Nat) : Bool := decide (c % 64 < 48) && decide (c / 64 < 48)

/-- PF0 or VF1 to VF8. -/
def fnOk (n : Nat) : Bool := decide (n ≤ 8)

/-- A partition number. -/
def partOk (p : Nat) : Bool := decide (1 ≤ p) && decide (p ≤ 8)

/-- A fabric port. -/
def portOk (p : Nat) : Bool := decide (p < 8)

/-- A stack. -/
def stackOk (n : Nat) : Bool := decide (n < 20)

/-- A core site, 600 per die (R14). -/
def siteOk (n : Nat) : Bool := decide (n < 2400)

/-- A submission ring. -/
def ringOk (r : Nat) : Bool := decide (r < 256)

/-- A decode pipe of the 64 that tasks go to. -/
def pipeOk (p : Nat) : Bool := decide (p < 64)

/-- A node that a device can have: 0xFFFF is never assigned (R3). -/
def nodeOk (n : Nat) : Bool := decide (n < 0xFFFF)

/-- A sequence of a node: flow 0 to 7 and virtual channel. -/
def seqOk (node flow vc : Nat) : Bool := nodeOk node && decide (flow < 8) && decide (vc < 8)

/-- An access to BAR0, which is 16 MiB. -/
def bar0Ok (off width : Nat) : Bool := decide (off + width ≤ 0x1000000)

/-- A management body that one datagram can carry; a body of the wrong length is a command of its own, answered INVALID (R517). -/
def bodyOk (b : Bytes) : Bool := decide (b.length ≤ 65535)

/-- A packet's header fields are in their widths (R365). -/
def packetOk (p : Packet) : Bool :=
  decide (p.type < 256) && decide (p.vc < 8) && decide (p.dst < 65536) && decide (p.src < 65536) &&
  decide (p.psn < 16777216) && decide (p.flow < 8) && decide (p.payload.length ≤ 4096)

/-- Well-formed commands. -/
def Instr.wf : Instr → Bool
  | .bar0UnsupportedAccess fn off w _ => fnOk fn && bar0Ok off w && decide (w ≠ 0)
  | .registerWrite fn off w _ => fnOk fn && bar0Ok off w && (w == 4 || w == 8) && off % w == 0
  | .latchedRead fn ⟨off, w⟩ => fnOk fn && bar0Ok off w && (w == 4 || w == 8) && off % w == 0
  | .sop c | .smovi c | .sst c | .sid c | .loop c | .endloop c | .br c | .bankswap c | .halt c | .haltFault c
  | .issuePastEnd c | .ewait c | .wait c | .waitVerdict c | .sigControlCore c | .sigXf c | .aspush c
  | .xferStore c | .xferLoad c | .xferAddf c | .xferAddi c | .xferPstore c | .xferPload c | .xferRowcast c
  | .xferColcast c | .mma c | .wld c | .wldm c | .nrw c | .dnrw c | .vop c | .red c | .coreHalted c
  | .coreRemap c | .sld c _ => coreOk c
  | .engineStart c e _ | .engineCompletion c e => coreOk c && decide (1 ≤ e) && decide (e ≤ 5)
  | .checkLaneDisagree c a _ _ _ | .checkLaneVote c a _ => coreOk c && decide (a < 2)
  | .maChkClear fn c a => fnOk fn && coreOk c && decide (a < 2)
  | .injArrayMa0 fn c | .injArrayMa1 fn c | .injLaneMa0 fn c | .injLaneMa1 fn c | .coreFaultClear fn c =>
    fnOk fn && coreOk c
  | .descriptorFetch _ r b => ringOk r && decide (b.length % 64 = 0) && decide (b.length ≤ 4096)
  | .coalesceTimeout _ r | .ringDrained r => ringOk r
  | .ringEnable fn r | .ringDisable fn r => fnOk fn && ringOk r
  | .doorbellSqTail fn r _ _ | .doorbellCqHead fn r _ _ => fnOk fn && ringOk r
  | .stepCommitted _ p | .governorRecord p | .attemptEnd _ p | .attemptEndConfirm _ p | .attemptStart _ p
  | .reloadDeadline _ p | .digestFold p | .digestDeadline _ p | .orderedCompareFold p | .sampleDispatch _ p _ _
  | .drainDone _ p | .drainTimeout _ p | .rpcFetchDone p _ _ => partOk p
  | .bufferFilled p slot => partOk p && decide (slot < 4)
  | .govTWrite fn p _ _ | .rpcInval fn p => fnOk fn && partOk p
  | .siteCheckDone _ st _ _ | .coreTestStart st | .coreTestDone _ st _ => siteOk st
  | .memoryRead r len _ => decide (r.part ≤ 8) && decide (1 ≤ len) && decide (len ≤ 4096)
  | .memoryWrite r d => decide (r.part ≤ 8) && decide (1 ≤ d.length) && decide (d.length ≤ 4096)
  | .memoryAdd r _ d _ => decide (r.part ≤ 8) && decide (1 ≤ d.length) && decide (d.length ≤ 128)
  | .stackFailure n | .hbmRefresh _ n | .scrub _ n _ => stackOk n
  | .laneFailed p l => portOk p && decide (l < 17)
  | .lane p _ l w _ => portOk p && decide (l < 32) && decide (w < 32)
  | .codewordUncorrectable p _ | .link p _ _ _ | .time _ p _ _ _ _ | .timeOkExpiry _ p | .delayMeasure _ p
  | .delayResp _ p _ _ _ | .param p _ _ _ _ | .portSignalDetect p | .portTrainDone p _ | .portAlignDone p
  | .portUp p | .portStateTimeout _ p | .portRetry _ p | .portLossOfSignal _ p _ | .creditStallTimeout _ p => portOk p
  | .readPacket p k | .writePacket p k | .addfPacket p k | .addiPacket p k | .parcelPacket p k | .signalPacket p k
  | .waitPacket p k | .ack p k | .readData p k | .nak p k | .verdict p k | .join p k | .window p k | .collData p ⟨k, _⟩
  | .collEnd p k | .missing p k | .done p k | .result p k | .abort p k | .reservedPacketType p k =>
    portOk p && packetOk k
  | .replayNotice p k | .digestList p k | .reloadReq p k | .reloadDone p k => portOk p && packetOk k
  | .ackTimeout _ n f v | .cumulativeAck _ n f v => seqOk n f v
  | .heldReplyTimeout _ n f v q => seqOk n f v && decide (q < 16777216)
  | .destinationRetry _ n => nodeOk n
  | .sampleDone p | .sampleWatchdog _ p | .pipeKnownAnswerTest _ p | .pipeTestDone _ p _ => pipeOk p
  | .flrVf n => decide (1 ≤ n) && decide (n ≤ 8)
  | .bar4Read fn _ len => fnOk fn && decide (1 ≤ len) && decide (len ≤ 4096)
  | .bar4Write fn _ d => fnOk fn && decide (1 ≤ d.length) && decide (d.length ≤ 4096)
  | .portEnWrite fn _ | .prtPartReset fn _ | .prtWarmReset fn _ | .prtColdReset fn _ | .pwrReqActive fn
  | .pwrReqDeep fn | .pwrReqStandby fn | .dbgArm fn | .dbgGo fn => fnOk fn
  | .junctionSample _ t => decide (t.length ≤ 256)
  | .stackTempSample _ t => decide (t.length ≤ 20)
  | .regulatorAdjust _ d _ => decide (d < 64)
  | .getStatus _ b | .getEvents _ b | .getJournal _ b | .setPower _ b | .reset _ b | .setLimit _ b | .setNet _ b
  | .setPtp _ b | .prepareSwap _ b => bodyOk b
  | .pldmFirmwareUpdate c _ _ | .fwActivate c => decide (c < 8)
  | .getVersion fn _ | .getCapabilities fn _ | .negotiateAlgorithms fn _ | .getDigests fn _ | .getCertificate fn _ _ _
  | .challenge fn _ _ | .getMeasurements fn _ _ | .keyExchange fn _ | .finish fn _ _ | .endSession fn _
  | .keyUpdate fn _ _ | .heartbeat fn _ | .chunkSend fn _ _ _ | .chunkGet fn _ | .keyProg fn _ _ _
  | .kSetStop fn _ _ | .kSetGo fn _ _ => fnOk fn
  | .loadProgram _ | .loadProgramDone _ _ _ | .startStream _ | .notBeforeReached _ _ | .descriptorComplete _ _
  | .copy _ _ | .fill _ | .fence _ | .syncSignal _ | .syncWait _ | .stepBegin _ | .stepCommit _ | .replayStep _
  | .digest _ | .selftest _ | .selftestDone _ _ _ | .collective _ | .collectiveFused _ | .collectiveArm _ _
  | .scratchSlotGrant _ | .missingTimer _ _ | .collectiveDeadline _ _ | .ingestSubmit _ | .configPartition _ _
  | .startPartition _ | .stopPartition _ | .checkpoint _ => true
  | .enterIdle | .regulatorInterval _ | .meshFlitRetry _ _ | .signalApply _ | .waitRequest _ | .waitDeadline _ _
  | .waitBusyResend _ _ | .remoteWaitGrace _ _ | .heldPacketTimeout _ _ | .perstAssert | .pcieLinkDown | .flrPf0
  | .pf0FlrTimeout _ | .pcieL1Entry _ | .warmResetDone _ | .warmResetTimeout _ | .powerCycleIgnored _
  | .sysctlWatchdog _ | .thermtripRelease _ | .thermalStep _ | .vinSample _ _ _ | .vinRecovered _ | .vauxSample _ _
  | .powerMean1ms _ | .powerRecoveryStep _ | .fastRecoveryStep _ | .clockRaise _ | .domainReport _
  | .errorCountSample _ | .pwrlimNFall | .pwrlimNRise | .wakeN _ | .enterDeep _ | .wakeFromDeep _ | .enterStandby _
  | .wakeFromStandby _ | .vinWaitTimeout _ | .reportDatagram _ | .rateLimitSecond _ | .heartbeatDatagram _
  | .arpRequest _ | .neighbourSolicitation _ | .icmpEcho _ _ | .mctpControl _ | .pldmDiscovery _
  | .pldmPlatform _ _ | .ptpSync _ _ _ | .ptpDelayResp _ _ | .ptpLost _ | .fuseWrite _ | .fuseWriteDone _ _
  | .vauxUp _ _ | .vauxLoss | .vinUp _ _ _ _ | .brdRstNFall | .brdRstNRise _ | .frefLoss | .frefReturn
  | .spdmSignatureDone _ | .pcieLinkTraining _ _ _ => true

end Sys2Proof
end

