-- ==== Sys2Proof/Tests/Slice0.lean ====
section
/-!
SUPPORT. Tests on small states: the ill-formed terms that `Instr.wf` refuses, worked examples of the spec, and for each
statement of Certificates/Slice0/Obligations.lean the states and operands that meet its hypotheses, clause by clause.
-/
namespace Sys2Proof.Tests
open Sys2Proof Sys2Proof.Machine

set_option Elab.async false

/-! ## Small states -/

/-- An instruction by opcode, MOD, RA, RB, RC and IMM. -/
def ins (op mod ra rb rc : Nat) (imm : DWord := 0) : NInstr := ⟨op, mod, ra, rb, rc, 0, 0, imm⟩

/-- A running core of partition 1 at a one-instruction program. -/
def coreAt (i : NInstr) (regs : Tbl DWord := []) : Core :=
  { run := .running, part := 1, group := 1, size := 1, sregs := regs, bank0 := { valid := true, gen := 1, code := [i] } }

/-- Partition 1, started: core 0 in group 1 (FWD), 1 GiB of memory, 16 counters, pipe 0, ring 1. -/
def part1 : Part :=
  { st := .started, rects := [⟨0, 0, 0, 0⟩], groups := [⟨1, 0, false, 100, [⟨0, 0, 0, 0⟩]⟩], rbase := 1, rcount := 1, qlen := 1
    pcount := 16, pipes := 1 }

/-- An open step. -/
def step5 : Step := { num := 5, seed := 9, holdBase := 0, holdLen := 0 }

/-- The device with partition 1, in a step, and a core 0. -/
def inStep (k : Core) : State :=
  { State.reset with cores := [(0, k)], parts := [(1, { part1 with step := some step5 })] }

/-- The hypotheses of `Issues` as a test. -/
def ready (s : State) (c : Nat) (i : NInstr) : Bool :=
  (getCore s c).run == .running && !(getCore s c).halting && (getCore s c).stall == .none && !(getCore s c).openEntry &&
  curIns (getCore s c) == some i && (usesReg i).all fun r => !(getCore s c).locked.contains r

theorem issues_iff {s : State} {c : Nat} {i : NInstr} : Issues s c i ↔ ready s c i = true := by
  simp only [ready, Bool.and_eq_true, beq_iff_eq, Bool.not_eq_true', List.all_eq_true, List.contains_eq_mem, decide_eq_false_iff_not]
  exact ⟨fun h => ⟨⟨⟨⟨⟨h.run, h.going⟩, h.free⟩, h.native⟩, h.here⟩, h.unlocked⟩,
    fun h => ⟨h.1.1.1.1.1, h.1.1.1.1.2, h.1.1.1.2, h.1.1.2, h.1.2, h.2⟩⟩

/-- The state in which core 0 of partition 1 is at an instruction, and whether it issues it. -/
abbrev Starts (i : NInstr) (regs : Tbl DWord := []) : Prop := Issues (inStep (coreAt i regs)) 0 i

/-- A core with three tensor descriptors in its SRAM: 0 an E2M1 tensor of one zero block at 0x1000, scales at 0x2000, checksums at 0x3000;
1 an FP32 tensor of 32 elements at 0x4000; 2 an FP32 tensor of one element at 0x5000. -/
def tensors (k : Core) : Core :=
  { k with sram := [(0, 6), (6, 0x80), (7, 0x3F), (8, 1), (12, 32), (16, 1), (33, 0x10), (41, 0x20), (49, 0x30),
                    (72, 1), (76, 32), (80, 128), (97, 0x40), (136, 1), (140, 1), (144, 4), (161, 0x50),
                    (0x3000, 135), (0x3001, 192), (0x3002, 165), (0x3003, 136)] }

/-- A queued instruction with its latched registers. -/
def queued (i : NInstr) (args : List DWord := []) : Queued := { pc := 0, bank := 0, gen := 1, ins := i, args := args }

/-- A core whose engine `e` has an instruction at the front of its queue and two addresses in stream 0. -/
def unitAt (e : Nat) (q : Queued) (adr : Nat := 2) : Core :=
  tensors { coreAt (ins 0x14 0 0 0 0) with queues := [(e, [q])], streams := Tbl.set [] [] 0 (if adr = 0 then [] else [⟨0, adr, 0⟩]) }

/-- The device with partition 1 and no step open. -/
def outStep (k : Core) : State := { State.reset with cores := [(0, k)], parts := [(1, part1)] }

/-- A descriptor of VF1 in ring 1, number 4: opcode, flags byte, bytes from 16 on. -/
def descOf (op flags : Nat) (body : Bytes) (ph : DescPhase := .fetched) : Desc :=
  { id := 4, fn := 1, ring := 1, generation := 0, jseq := 1, accepted := 0, phase := ph
    bytes := leBytes 1 op ++ leBytes 1 flags ++ [1] ++ zeros 13 ++ body ++ zeros (48 - body.length) }

/-- A state with that one descriptor. -/
def withDesc (d : Desc) (s : State) : State := { s with descs := [d] }

/-- The hypotheses of `AtTurn` as a test. -/
def turned (s : State) (id op : Nat) (d : Desc) : Bool :=
  findDesc s id == some d && d.phase == .fetched && d.opcode == op && ringTurn s d

theorem atTurn_iff {s : State} {id op : Nat} {d : Desc} : AtTurn s id op d ↔ turned s id op d = true := by
  simp only [turned, Bool.and_eq_true, beq_iff_eq]
  exact ⟨fun h => ⟨⟨⟨h.found, h.fetched⟩, h.code⟩, h.turn⟩, fun h => ⟨h.1.1.1, h.1.1.2, h.1.2, h.2⟩⟩

/-- An idle core that holds a bank of generation 1. -/
def idle1 : Core := { coreAt (ins 0x14 0 0 0 0) with run := .idle, bank0 := { valid := true, gen := 1, code := [ins 0x14 0 0 0 0], entries := [0] } }

/-- The device in a step that a function changes, with a descriptor. -/
def stepWith (f : Step → Step) (l : List Desc) : State :=
  { outStep idle1 with parts := [(1, { part1 with step := some (f step5) })], descs := l }

/-- Port 0 is up, node 5 sends with epoch 1 and next PSN 9 on every sequence used here; partition 1 has job 3; the peer table has
members 0 (this device, node 0) and 1 (node 5). -/
def onFabric (s : State) : State :=
  { setReg (ctx bSlwCtx 1 0x10) 2 (setReg (ctx bGzlCtx 1 0) 3 s) with
    fab := { ports := [(0, { st := .up, width := 3 })], epochs := [(5, some 1)]
             rx := ((List.range 8).map fun v => (seqKey 5 0 v, { expected := some 9 })) }
    mem := { hbm := [(2, 5)] } }

/-- A packet of node 5 for job 3, with its ECRC: type, VC, TSPEC, address, payload. -/
def pkt (type vc tspec : Nat) (addr : BitVec 48) (payload : Bytes) (psn : Nat := 9) : Packet :=
  sealPacket { type := type, vc := vc, mcast := false, stepValid := false, attempt := 0, resync := false, dst := 0, src := 5, psn := psn
               flow := 0, hint := 0, job := 3, tag := 0, addr := addr, step := 0, epoch := 1, tspec := tspec, ext := []
               payload := payload, ecrc := 0 }

/-- The hypotheses of `Admitted` as a test. -/
def admits (s : State) (port : Nat) (k : Packet) (n : Nat) : Bool :=
  portUp s port && !vcBlocked s port k.vc && k.ecrc == pktEcrc k && s.fab.epochs.get none k.src == some k.epoch &&
  (getRx s k.src k.flow k.vc).expected == some k.psn && decide (k.psn < 2 ^ 24) && decide (k.flow < 8) && !k.mcast &&
  jobPart s k.job == some n && fits s n k && attemptOrder s n k == 0 && s.fab.parked == [] && s.mem.waiting == []

theorem admitted_iff {s : State} {port : Nat} {k : Packet} {n : Nat} : Admitted s port k n ↔ admits s port k n = true := by
  simp only [admits, Bool.and_eq_true, beq_iff_eq, Bool.not_eq_true', decide_eq_true_eq]
  exact ⟨fun h => ⟨⟨⟨⟨⟨⟨⟨⟨⟨⟨⟨⟨h.up, h.unblocked⟩, h.intact⟩, h.epoch⟩, h.expected⟩, h.psn⟩, h.flow⟩, h.single⟩, h.job⟩, h.ranges⟩, h.present⟩,
      h.parked⟩, h.served⟩,
    fun h => ⟨h.1.1.1.1.1.1.1.1.1.1.1.1, h.1.1.1.1.1.1.1.1.1.1.1.2, h.1.1.1.1.1.1.1.1.1.1.2, h.1.1.1.1.1.1.1.1.1.2, h.1.1.1.1.1.1.1.1.2,
      h.1.1.1.1.1.1.1.2, h.1.1.1.1.1.1.2, h.1.1.1.1.1.2, h.1.1.1.1.2, h.1.1.1.2, h.1.1.2, h.1.2, h.2⟩⟩

/-! ## Core instructions -/

/-- SopWritesResult: every MOD, and for ICVT a NaN, both infinities and a number. -/
theorem witness_SopWritesResult : (∀ m < 18, Starts (ins 1 m 1 2 3)) ∧
    fp32Num 0x7FC00000 = .nan ∧ fp32Num 0x7F800000 = .inf false ∧ fp32Num 0xFF800000 = .inf true ∧
    fp32Num 0xBFC00000 = .fin true 0xC00000 (-23) := by
  simp only [Starts, issues_iff]; decide +kernel

/-- ScalarInstructions: SMOVI, SLD at the last address with both extensions, SST there, every value of SID, BR by every condition. -/
theorem witness_ScalarInstructions : Starts (ins 2 0 1 0 0 7) ∧
    (∀ i ∈ [ins 3 0 1 2 0 0x7FFFF, ins 3 3 1 2 0 0x7FFFF, ins 3 4 1 2 0 0x7FFFF, ins 3 7 1 2 0 0x7FFF8, ins 4 3 1 2 0 0x7FFFF],
      Starts i ∧ (sreg (coreAt i) i.rb + i.imm).toNat / 2 ^ (i.mod % 4) * 2 ^ (i.mod % 4) < 524288) ∧
    (∀ m < 18, Starts (ins 5 m 1 0 0)) ∧ (∀ m < 10, Starts (ins 0x12 m 1 2 0)) ∧ Starts (ins 0x12 0 1 2 0) [(1, 1)] ∧
    fp32Num 0x7FC00000 = .nan := by
  simp only [Starts, issues_iff]; decide +kernel

/-- IssueFaults: each fault at the boundary of its condition, in an open step. -/
theorem witness_IssueFaults :
    (∀ i ∈ [ins 3 0 1 2 0 0x80000, ins 3 0 1 2 0 0x7FFFF, ins 4 0 1 2 0 0x80000, ins 0x14 1 0 0 0 0xFFFFFFFF, ins 0x13 0 0 0 0 1],
      Starts i ∧ (openStep (inStep (coreAt i)) 1).isSome) ∧
    Starts (ins 0x10 0 1 0 0) [(1, 0x100000000)] ∧ Starts (ins 0x20 0 1 2 3) [(2, 4097)] ∧
    (bankOf (coreAt (ins 0x13 0 0 0 0 1)) 1).valid = false ∧
    Issues (inStep { coreAt (ins 0x13 0 0 0 0 1) with bank1 := { valid := true, gen := 2 } }) 0 (ins 0x13 0 0 0 0 1) := by
  simp only [Starts, issues_iff]; decide +kernel

/-- ControlFlow: a count of 1, the largest count, a count of 0 with its ENDLOOP, a loop that goes round and one that closes, a swap,
HALT, and issue past the end. -/
theorem witness_ControlFlow :
    Starts (ins 0x10 0 1 0 0) [(1, 1)] ∧ Starts (ins 0x10 0 1 0 0) [(1, 0xFFFFFFFF)] ∧
    (let k : Core := { coreAt (ins 0x10 0 1 0 0) with bank0 := { valid := true, gen := 1, code := [ins 0x10 0 1 0 0, ins 0x11 0 0 0 0] } }
     Issues (inStep k) 0 (ins 0x10 0 1 0 0) ∧ matchEnd (k.bank0.code.drop 1) 1 0 = some 1) ∧
    (∀ n ∈ [1, 2], Issues (inStep { coreAt (ins 0x11 0 0 0 0) with loops := [⟨0, n, 0⟩] }) 0 (ins 0x11 0 0 0 0)) ∧
    Issues (inStep { coreAt (ins 0x13 0 0 0 0 2) with bank1 := { valid := true, gen := 2, entries := [0] } }) 0 (ins 0x13 0 0 0 0 2) ∧
    Starts (ins 0x14 0 0 0 0) ∧ (∀ b ∈ [false, true], let k : Core := { coreAt (ins 0x14 0 0 0 0) with pc := 1, openEntry := b }
      k.run = .running ∧ k.halting = false ∧ k.stall = .none ∧ (bankOf k k.active).code.length ≤ k.pc ∧ k.openEntry = b ∧
      (openStep (inStep k) k.part).isSome) := by
  simp only [Starts, issues_iff]; decide +kernel

/-- The device in a step, with job 3 for partition 1. -/
def withJob (k : Core) : State := { inStep k with regs := [(ctx bGzlCtx 1 0, 3)] }

/-- WaitsAndSignals: EWAIT met, not met, and on a hungry engine; the three verdicts; WAIT and SIG here, here by node, and elsewhere. -/
theorem witness_WaitsAndSignals :
    (let i := ins 0x15 3 1 0 0
     Starts i ∧ Starts i [(1, 1)] ∧ isHungry (coreAt i) 3 = false ∧
     (let k : Core := { coreAt i [(1, 1)] with cur := [(3, [{ q := queued i, hungry := true }])] }
      Issues (inStep k) 0 i ∧ isHungry k 3 = true ∧ countOf k 3 = 0)) ∧
    (∀ st ∈ [Status.ok, .syncTimeout, .remoteUnreachable], let k : Core := { coreAt (ins 0x16 0 1 2 3) with stall := .verdict st 7 }
      k.run = .running ∧ k.stall = .verdict st 7 ∧ curIns k = some (ins 0x16 0 1 2 3) ∧ (openStep (inStep k) k.part).isSome) ∧
    (∀ i ∈ [ins 0x16 0 1 2 3, ins 0x17 0 1 0 0 0xFFFFFFFF],
      Issues (withJob (coreAt i)) 0 i ∧ Issues (withJob (coreAt i [(1, 0x7FFF000000010000)])) 0 i ∧
      (sreg (coreAt i [(1, 0x7FFF000000010000)]) 1).toNat / 2 ^ 48 ≠ nodeId (withJob (coreAt i)) ∧
      partJob (withJob (coreAt i)) 1 = 3 ∧ (getDest (withJob (coreAt i)) 0x7FFF).unreachable = false ∧
      Issues (withJob (coreAt i [(1, 0x0000000000010000)])) 0 i ∧
      nodeId (withJob (coreAt i)) = 0) := by
  simp only [Starts, issues_iff]; decide +kernel

/-- EngineQueues: ASPUSH of no address, of 4,096 into a stream with 31 entries, into a full one; every engine instruction before an empty
queue and XFER before a full one. -/
theorem witness_EngineQueues :
    (let i := ins 0x20 0 1 2 3
     Starts i ∧ (∀ n ∈ [31, 32], Issues (inStep { coreAt i [(2, 4096)] with streams := [(0, List.replicate n ⟨0, 1, 0⟩)] }) 0 i)) ∧
    (∀ m < 8, Starts (ins 0x21 m 1 2 3)) ∧ Starts (ins 0x17 5 1 0 0 1) ∧
    (∀ n ∈ [15, 16], Issues (inStep { coreAt (ins 0x21 0 1 2 3) with queues := [(5, List.replicate n (queued (ins 0x21 0 1 2 3)))] }) 0
      (ins 0x21 0 1 2 3)) ∧
    (let i := ins 0x30 0 0 0 4
     let k := tensors (coreAt i [(4, 1), (5, 32), (6, 1)])
     Issues (inStep k) 0 i ∧ mmaCheck k i = none) ∧
    (∀ o ∈ [0x31, 0x32], let i := ins o 0 0 0 0; Issues (inStep (tensors (coreAt i))) 0 i ∧ wldCheck (tensors (coreAt i)) i = none) ∧
    (let i := ins 0x33 0 1 0 0
     Issues (inStep (tensors (coreAt i))) 0 i ∧ nrwCheck (tensors (coreAt i)) i (nrwSetting (inStep (tensors (coreAt i))) 1 i 0) = none) ∧
    (∀ o ∈ [0x34, 0x35, 0x36], Starts (ins o 0 1 2 3)) := by
  simp only [Starts, issues_iff]; decide +kernel

/-- OperandFaults: an operand of a wide format, and each check of an MMA and an NRW that fails. -/
theorem witness_OperandFaults :
    (∀ o ∈ [0x30, 0x31, 0x32], let i := ins o 0 1 1 4
      Issues (inStep (tensors (coreAt i))) 0 i ∧ fmtNarrow (issueTdesc (tensors (coreAt i)) 1).fmt = false ∧
      (openStep (inStep (tensors (coreAt i))) 1).isSome) ∧
    (let i := ins 0x30 0 0 0 4
     Issues (inStep (tensors (coreAt i))) 0 i ∧ mmaCheck (tensors (coreAt i)) i = some { cause := 0x06 }) ∧
    (let i := ins 0x33 0 0 0 0
     Issues (inStep (tensors (coreAt i))) 0 i ∧ nrwCheck (tensors (coreAt i)) i (nrwSetting (inStep (tensors (coreAt i))) 1 i 0) = some { cause := 0x07 }) := by
  simp only [issues_iff]; decide +kernel

set_option maxRecDepth 1000000 in
/-- UnitStarts: MMA, WLD, WLDM, DNRW, VOP and RED with the addresses they need, on engines 1 to 4; an MMA with none; a VOP of a wide
operand in BF16. -/
theorem witness_UnitStarts :
    (∀ x ∈ [(1, queued (ins 0x30 0 0 0 4) [1, 32, 1, 0], 2), (2, queued (ins 0x31 1 0 0 0), 1), (1, queued (ins 0x32 0 0 0 0), 1),
        (4, queued (ins 0x34 0 0 1 0), 0), (3, queued (ins 0x35 0 2 2 2), 0), (3, queued (ins 0x36 0 9 2 0), 0),
        (1, queued (ins 0x30 0 0 0 4) [1, 32, 1, 0], 0)],
      let k := unitAt x.1 x.2.1 x.2.2
      let tds := readTds k x.2.1
      k.run = .running ∧ k.stall = .none ∧ k.cur.get [] x.1 = [] ∧ k.queues.get [] x.1 = [x.2.1] ∧ rowsBusy k x.2.1.ins tds = false ∧
      startFlt x.2.1 tds = none ∧
      (takeStreams (streamNeeds x.2.1 tds) [] k.streams).2.2 = !(x.1 == 1 && x.2.2 == 0) ∧ k.inj = 0 ∧
      isStarted (inStep k) k.part = true ∧ addressFault k x.2.1 tds (takeStreams (streamNeeds x.2.1 tds) [] k.streams).1 = false) ∧
    (let q := queued (ins 0x21 4 0 1 0) [0, 0, 1]
     let k := unitAt 5 q
     startFlt q (readTds k q) = some { cause := 0x07 } ∧ k.run = .running ∧ k.cur.get [] 5 = [] ∧ k.queues.get [] 5 = [q] ∧
       rowsBusy k q.ins (readTds k q) = false ∧ (openStep (inStep k) k.part).isSome) ∧
    (let q := queued (ins 0x30 0 0 0 4) [1, 32, 1, 0]
     (runMma (unitAt 1 q) q (readTds (unitAt 1 q) q) [(0, [0, 0])]).2.2 = none) ∧
    (∀ o ∈ [0x31, 0x32], let q := queued (ins o 0 0 0 0)
      (runWld (unitAt 1 q) q (readTds (unitAt 1 q) q) [(0, [0])]).2 = none) ∧
    (let q := queued (ins 0x34 0 0 1 0)
     (runDnrw (unitAt 4 q) (readTds (unitAt 4 q) q)).2 = none) ∧
    (let q := queued (ins 0x35 0 2 2 2)
     (runVop (unitAt 3 q) q.ins (readTds (unitAt 3 q) q)).2 = none) ∧
    (let q := queued (ins 0x36 0 9 2 0)
     (runRed (unitAt 3 q) q.ins (readTds (unitAt 3 q) q)).toOption = some 0) := by decide +kernel

/-- MmaStaysInItsRows: an MMA of row 511 of array 0: the other array, and the row below. -/
theorem witness_MmaStaysInItsRows :
    let q := queued (ins 0x30 0 0 0 4) [1, 32, 1, 511]
    let p := mmaPar0 q (readTds (unitAt 1 q) q)
    p.base + p.m * p.nt ≤ 512 ∧ p.array ≠ 1 ∧ 510 < p.base ∧ bitOf p.flags 1 = false := by decide +kernel

/-- A START_STREAM of group 1. -/
def stream (ph : DescPhase) : Desc :=
  { id := 4, fn := 1, ring := 1, generation := 0, jseq := 1, bytes := [2] ++ zeros 15 ++ [1] ++ zeros 47, accepted := 0, phase := ph }

/-- A core that halts, and as it is then. -/
def halting : Core := { coreAt (ins 0x14 0 0 0 0) with halting := true }
def halted : Core := { halting with run := .halted, halting := false, streams := [] }

/-- CompletionsAndHalts: a RED and another instruction at their end, an MMA without a vote; a core that halts with and without a stream. -/
theorem witness_CompletionsAndHalts :
    (∀ x ∈ [(3, queued (ins 0x36 0 9 2 0), some (5 : DWord)), (1, queued (ins 0x30 0 0 0 4), none)],
      let r : Running := { q := x.2.1, result := x.2.2 }
      let k : Core := { coreAt (ins 0x14 0 0 0 0) with cur := [(x.1, [r])], locked := [9], stall := .ewait x.1 1 }
      k.cur.get [] x.1 = [r] ∧ r.hungry = false ∧ r.waiting = 0 ∧ voting k x.1 = false ∧ (getPart (inStep k) k.part).gov.inbox = [] ∧
      (r.q.ins.op = 0x30 → (endMma k r).2 = none)) ∧
    halting.run = .running ∧ halting.halting = true ∧ halting.cur = [] ∧ halting.queues = [] ∧ halting.sigsOut = [] ∧ halting.codes = [] ∧
    streamDesc (setCore 0 halted (inStep halting)) 0 = none ∧
    streamDesc (setCore 0 halted { inStep halting with descs := [stream .started] }) 0 = some (stream .started) ∧
    groupCores (getPart (inStep halting) 1) ((stream .started).at 16 2) = [0] ∧
    findDesc { inStep halting with descs := [stream .started] } 4 = some (stream .started) := by decide +kernel

/-- A pass of one block for row 0 with an element of each operand, scale 1: an outlier stands in A's at position 3. -/
def pass1 : TilePass :=
  let b : BlockData := { scale := 127, codes := 4 :: List.replicate 31 0, outl := [(3, 0x4000)] }
  { nt := 0, kt := 0, buf := 0, tile := some { fmt := 0, cols := List.replicate 32 [{ b with codes := List.replicate 32 2, outl := [] }] }
    slabs := [[(0, [b])]] }

/-- A running MMA of one row and 32 columns whose operands have a format: its pass is `pass1`. -/
def mmaOf (fmt : Nat) : Running :=
  let td := [BitVec.ofNat 8 fmt] ++ zeros 3 ++ leBytes 4 1 ++ leBytes 4 32 ++ zeros 52
  { q := queued (ins 0x30 0 0 0 4) [1, 32, 32, 0], tds := [td, td], passes := [pass1] }

/-- Whether a vote stands for each outcome at a place: original, check lane, neither. -/
def votes3 (x : LanePlace) (p : MmaPar) : List (List Int × List Int × Int) :=
  let g := groupSums p pass1 x
  let t := if x.outlier then (termAt p pass1 x).toList else g.2
  let c := if x.outlier then t.headD 0 else groupCheck p pass1 x
  [(t, t, c + 2 ^ 90), (t, t.map (· + 2 ^ 90), c), (t, t.map (· + 2 ^ 90), c + 2 ^ 91)]

/-- ArrayChecks: a run sum and an outlier term in E2M1 and E5M2, with and without errors beyond the bound of R116; a held disagreement
for each verdict; a host that reaches the window. -/
theorem witness_ArrayChecks :
    (∀ fmt ∈ [0x6, 0x3], ∀ o ∈ [false, true],
      let r := mmaOf fmt
      let p := r.mma
      let x : LanePlace := { pass := 0, row := 0, col := 5, block := 0, outlier := o, term := 0 }
      let k : Core := { coreAt (ins 0x14 0 0 0 0) with cur := [(1, [r])] }
      let g := groupSums p pass1 x
      runningMma k 0 = some r ∧ r.passes[x.pass]? = some pass1 ∧ r.verdicts ≤ x.pass ∧ k.votes.get none 0 = none ∧ p.a.fmt = fmt ∧
      placeThere pass1 x = true ∧ (∀ n ∈ g.1, n.special = none) ∧ (groupCodes p pass1 x).1.length ≤ 4 ∧
      (groupCodes p pass1 x).2.length = 32 ∧ (∀ l ∈ (groupCodes p pass1 x).1, l.length = 32) ∧
      (termAt p pass1 x).isSome ∧ termAt p pass1 { x with term := 1 } = none ∧
      (∀ d ∈ [0, 2 ^ 90], (0 < (g.2.map (· + d)).sum ∧ (fmt = 0x6 → (d = 0 ↔ g.2.sum + d = groupCheck p pass1 x)) ∧
        (fmt = 0x3 → (d = 0 ↔ (groupCheck p pass1 x - (g.2.sum + d)).natAbs < 2 ^ (topExp g.1 - 34 - chkUnit fmt).toNat)))) ∧
      k.run = .running ∧ (openStep (inStep k) k.part).isSome ∧ k.fault.getLsbD 31 = false ∧
      (∀ v ∈ votes3 x p, ({ k with votes := [(0, some ⟨x, v.2.1, v.2.2⟩)] } : Core).votes.get none 0 = some ⟨x, v.2.1, v.2.2⟩) ∧
      (votes3 x p).map (fun v => (decide (v.1 = v.2.1), if o then decide (v.1.headD 0 = v.2.2) else checkPasses fmt g.1 v.1 v.2.2)) =
        [(true, false), (false, true), (false, false)]) ∧
    (∀ fn ∈ [0, 1], let s := inStep (coreAt (ins 0x14 0 0 0 0))
      HostOpen s fn ∧ windowReached s fn 0 = true) := by decide +kernel

/-! ## Descriptors -/

/-- LOAD_PROGRAM of group 1 into the inactive bank, from the host at 0x1000: LENGTH, FLAGS. -/
def loadBody (len bank fl : Nat) : Bytes := [1, 0, 1, 0] ++ leBytes 1 bank ++ leBytes 1 fl ++ zeros 2 ++ leBytes 8 0x1000 ++ leBytes 4 len

/-- LoadProgram: no length, the least and the largest length, a running core's active bank; a load at its end. -/
theorem witness_LoadProgram :
    (∀ len ∈ [0, 1, 1048576], let d := descOf 1 0 (loadBody len 2 0)
      let s := withDesc d (outStep idle1)
      AtTurn s 4 1 d ∧ openStep s 1 = none ∧ startsNow s d = true ∧ d.at 32 4 = len ∧ bitsOf (d.at 21 1) 3 5 = 0 ∧
      zeroAt d.bytes [(22, 2), (48, 16)] = true ∧ d.at 20 1 ≤ 2 ∧ hasGroup (getPart s 1) (d.at 16 2) = true ∧ d.codes = [] ∧
      d.at 24 8 % 8 = 0 ∧ d.at 36 4 = 0 ∧ bitOf (d.at 21 1) 0 = false ∧ bitOf (d.at 21 1) 1 = false ∧
      (groupCores (getPart s 1) (d.at 16 2)) = [0] ∧ (getCore s 0).run ≠ .running) ∧
    (let d := descOf 1 0 (loadBody 1 0 0)
     let s := withDesc d (outStep { idle1 with run := .running })
     AtTurn s 4 1 d ∧ (getCore s 0).run = .running ∧ loadBank (d.at 20 1) (getCore s 0) = (getCore s 0).active) ∧
    (let d := descOf 1 0 (loadBody 1 2 0) .started
     let s := { withDesc d (outStep { idle1 with loads := [(4, 1)] }) with ldr := { queue := [4] } }
     findDesc s 4 = some d ∧ 4 ∈ s.ldr.queue ∧ loadBlocked s 4 = false ∧ d.at 40 8 = 0) := by
  simp only [atTurn_iff]; decide +kernel

/-- START_STREAM of group 1 with generation 1, entry 0. -/
def streamD : Desc := descOf 2 0 [1, 0, 1, 0]

/-- StartStream: outside a step, in a step with 63 and with 64 held, with a core still running, and of a group without cores. -/
theorem witness_StartStream :
    (let s := withDesc streamD (outStep idle1)
     AtTurn s 4 2 streamD ∧ streamCheck s streamD = none ∧ startsNow s streamD = true ∧ openStep s 1 = none ∧
     (getCore s 0).bank0.entries[streamD.at 20 4 / 8]? = some 0) ∧
    (∀ n ∈ [63, 64], let s := { withDesc streamD (outStep idle1) with
        parts := [(1, { part1 with step := some { step5 with streams := List.range n } })] }
      AtTurn s 4 2 streamD ∧ streamCheck s streamD = none ∧ (openStep s 1).map (fun t => t.streams.length) = some n) ∧
    (let s := withDesc streamD (outStep { idle1 with run := .running })
     AtTurn s 4 2 streamD ∧ (getCore s 0).run = .running ∧ groupCores (getPart s 1) (streamD.at 16 2) = [0] ∧
     hasGroup (getPart s 1) (streamD.at 16 2) = true) ∧
    (let p : Part := { part1 with groups := [⟨1, 0, false, 100, [⟨0, 0, 0, 0⟩]⟩, ⟨2, 0, true, 100, [⟨0, 0, 0, 0⟩]⟩] }
     let s := { withDesc streamD (outStep idle1) with parts := [(1, p)] }
     AtTurn s 4 2 streamD ∧ streamCheck s streamD = none ∧ startsNow s streamD = true ∧ openStep s 1 = none ∧ streamD.codes = [] ∧
     groupCores (getPart s 1) (streamD.at 16 2) = []) := by
  simp only [atTurn_iff]; decide +kernel

/-- DescriptorFetched: ring 1 runs and holds one descriptor more than was fetched: a good one, one that is refused. -/
theorem witness_DescriptorFetched :
    let s := { outStep idle1 with rings := [(1, { state := .running, enable := true, sqTail := 1 })], accepts := 7 }
    mayFetch (pass 0 s) 1 = true ∧ ringOwner s 1 = 1 ∧ streamD.bytes.length = 64 ∧ fetchCheck (pass 0 s) 1 streamD.bytes = none ∧
    fetchCheck (pass 0 s) 1 (zeros 64) = some .descMalformed ∧ (∀ e ∈ s.descs, e.id < s.accepts) := by decide +kernel

/-- DescriptorReported: an ended descriptor, its ring as it was, and enabled anew. -/
theorem witness_DescriptorReported : ∀ g ∈ [0, 1],
    let d := descOf 9 0 [] (.done .ok)
    let s := { withDesc d (outStep idle1) with
      rings := [(1, { state := .running, enable := true, generation := g, cqTail := 63 })]
      journal := [(4, some (journalEntry d 0 0))] }
    findDesc s 4 = some d ∧ d.irq = false ∧ writesDone s d = true ∧ hostReach s 1 = true ∧ s.flrPf0 = none ∧
    (∀ e ∈ s.descs, e.opcode ≠ 0x0A) ∧ now48 (pass 1 s) ≠ 0 ∧ (getRing s 1).generation = g ∧ (s.journal.get none 4).map (fun o => (o.fn, o.jseq)) = some (1, 1) ∧ ringSize (getRing s 1) = 64 ∧
    d.refused = false := by decide +kernel

/-- A descriptor with NB whose time is 1 s. -/
def later (op : Nat) (body : Bytes) (ph : DescPhase := .fetched) : Desc :=
  { descOf op 1 body ph with bytes := leBytes 1 op ++ [1, 1, 0, 0, 0, 0, 0] ++ leBytes 6 1000000000 ++ zeros 2 ++ body ++ zeros (48 - body.length) }

/-- WaitsFencesAndCounters: FENCE, FILL and SYNC_SIGNAL before their time and at it; the last counter of the range and the first past
it, a zero increment, this device by its own node number. -/
theorem witness_WaitsFencesAndCounters :
    (∀ x ∈ [(0x0A, []), (0x09, zeros 8 ++ leBytes 8 4), (0x10, leBytes 8 15 ++ leBytes 4 1)],
      let d := later x.1 x.2
      let s := withDesc d (outStep idle1)
      AtTurn s 4 x.1 d ∧ startsNow s d = false) ∧
    fillCheck (outStep idle1) (later 0x09 (zeros 8 ++ leBytes 8 4)) = none ∧
    (let d := later 0x10 (leBytes 8 15 ++ leBytes 4 1)
     counterRsv (d.at 16 8) = false ∧ zeroAt d.bytes [(28, 36)] = true ∧ d.at 24 4 ≠ 0 ∧ counterOut (outStep idle1) d = false) ∧
    (let d := later 0x0A [] .waiting
     findDesc (withDesc d (outStep idle1)) 4 = some d ∧ startsNow (pass 1000000000 (withDesc d (outStep idle1))) d = true ∧
     bitsOf (d.at 16 1) 1 7 = 0 ∧ zeroAt d.bytes [(17, 47)] = true) ∧
    (∀ x ∈ [(0x0A, [0]), (0x0A, [1]), (0x10, leBytes 8 15), (0x10, leBytes 8 15 ++ leBytes 4 1), (0x10, leBytes 8 0x10010 ++ leBytes 4 1),
        (0x11, leBytes 8 15), (0x11, leBytes 8 16)],
      let d := descOf x.1 0 x.2
      let s := withDesc d (outStep idle1)
      AtTurn s 4 x.1 d ∧ startsNow s d = true ∧ d.codes = [] ∧ (x.1 ≠ 0x0A → counterRsv (d.at 16 8) = false) ∧
      zeroAt d.bytes [(28, 36)] = true ∧ d.at 16 8 / 2 ^ 48 = nodeId s ∧ bitsOf (d.at 16 1) 1 7 = (if x.1 = 0x0A then 0 else d.at 16 1 / 2)) := by
  simp only [atTurn_iff]; decide +kernel

/-- FillAndCopy: a FILL of one word at the end of the quota, a COPY of one byte from the host. -/
theorem witness_FillAndCopy :
    (let d := descOf 9 0 (leBytes 8 0x3FFFFFFC ++ leBytes 8 4 ++ leBytes 4 0xAABBCCDD)
     let s := withDesc d (outStep idle1)
     AtTurn s 4 9 d ∧ startsNow s d = true ∧ fillCheck s d = none ∧ gNode (flDst d) = nodeId s ∧ gStash (flDst d) = false ∧
     d.fn ≠ 0 ∧ d.codes = [] ∧ d.waiting = 0 ∧ d.got = [] ∧ s.mem.waiting = []) ∧
    (let d := descOf 8 0 (leBytes 8 0x1000 ++ leBytes 8 0x2000 ++ leBytes 8 1 ++ [1])
     let s := withDesc d (outStep idle1)
     AtTurn s 4 8 d ∧ startsNow s d = true ∧ copyCheck s d = none ∧ cpSrcHost d = true ∧ hostReach s 1 = true ∧
     gNode (cpDst d) = nodeId s ∧ gStash (cpDst d) = false ∧ d.waiting = 0 ∧ d.got = [] ∧ d.fn ≠ 0 ∧
     d.codes = [] ∧ s.mem.waiting = []) := by
  simp only [atTurn_iff]; decide +kernel

/-! ## Steps -/

/-- Partition 1 with a core in each pass group. -/
def part3 : Part :=
  { part1 with groups := [⟨1, 0, false, 100, [⟨0, 0, 0, 0⟩]⟩, ⟨2, 1, false, 100, [⟨1, 1, 0, 0⟩]⟩, ⟨3, 2, false, 100, [⟨2, 2, 0, 0⟩]⟩]
               rects := [⟨0, 2, 0, 0⟩] }

/-- StepBegins: a step that may open, one whose partition lacks a pass group, one that waits behind an open step. -/
theorem witness_StepBegins :
    (let d := descOf 0x28 0 (leBytes 8 1)
     (let s := { withDesc d (outStep idle1) with parts := [(1, part3)] }
      AtTurn s 4 0x28 d ∧ beginWaits s d = false ∧ beginCheck s d = none ∧ startsNow s d = true ∧ d.codes = [] ∧ govCount s 1 = 0 ∧ s.mem.waiting = []) ∧
     (let s := withDesc d (outStep idle1)
      AtTurn s 4 0x28 d ∧ beginWaits s d = false ∧ beginCheck s d = some .descMalformed) ∧
     (let s := stepWith id [d]
      AtTurn s 4 0x28 d ∧ beginWaits s d = true)) := by
  simp only [atTurn_iff]; decide +kernel

/-- StepCommits: the open step named, another one, none open; a step at its commit. -/
theorem witness_StepCommits :
    (∀ n ∈ [5, 6], let d := descOf 0x29 0 (leBytes 8 n)
      let s := stepWith id [d]
      AtTurn s 4 0x29 d ∧ openStep s 1 = some step5 ∧ zeroAt d.bytes [(24, 40)] = true ∧ startsNow s d = true ∧
      (step5.num = BitVec.ofNat 64 (d.at 16 8) ↔ n = 5)) ∧
    (let d := descOf 0x29 0 (leBytes 8 5)
     AtTurn (withDesc d (outStep idle1)) 4 0x29 d ∧ openStep (withDesc d (outStep idle1)) 1 = none) ∧
    (let s := stepWith id [descOf 0x29 0 (leBytes 8 5) .held]
     openStep s 1 = some step5 ∧ atCommit s 1 step5 = true ∧ mayNotCommit step5 = false ∧ (heldDescs s 1 0x29).length = 1 ∧ s.mem.waiting = [] ∧
     step5.streams = []) := by
  simp only [atTurn_iff]; decide +kernel

/-- A statistics record of layer 0, class 0, with so many elements. -/
def govRec (n : Nat) : Bytes := leBytes 4 0x3F800000 ++ leBytes 2 0 ++ leBytes 1 0 ++ [0] ++ leBytes 4 n ++ zeros 52

/-- GovernorCommands: a record that leaves its window open, and one that closes it; PF0 and VF1 at T, in a step and outside one. -/
theorem witness_GovernorCommands :
    (∀ n ∈ [99, 100], let p : Part := { part1 with gov := { table := [(0, { outElems := 100 })], inbox := [(0, govRec n)] } }
      let s := setReg (ctx bGovCtx 1 0x18) 1 { outStep idle1 with parts := [(1, p)] }
      isStarted s 1 = true ∧ (getPart s 1).gov.inbox = [(0, govRec n)] ∧ leAt (govRec n) 6 1 ≤ 1 ∧ leAt (govRec n) 8 4 = n ∧
      (govLayer s 1 (leAt (govRec n) 4 2)).map Layer.outElems = some 100) ∧
    (∀ fn ∈ [0, 1], HostOpen (outStep idle1) fn ∧ diesDark (outStep idle1) = false ∧ openStep (outStep idle1) 1 = none ∧
      HostOpen (stepWith id []) fn ∧ openStep (stepWith id []) 1 = some step5) := by decide +kernel

/-- Attempts: ending; confirmed with no cause, with a cause and no attempt left, with a cause and one left; gated, without streams and with one
held, with a remap or a site check open; the first ordered attempt of a COMPARE at its commit. -/
theorem witness_Attempts :
    (let s := stepWith (fun p => { p with phase := .ending }) []
     (openStep s 1).map Step.phase = some .ending ∧ votesDone s 1 = true) ∧
    (∀ x ∈ [((0 : Nat), (0 : BitVec 8)), (2, 1), (1, 1), (0, 1)],
      let s := stepWith (fun p => { p with phase := .stopping, attempt := x.1, causes := x.2 }) []
      openStep s 1 = some { step5 with phase := .stopping, attempt := x.1, causes := x.2 } ∧ (getPart s 1).gov.inbox = [] ∧
      s.mem.waiting = [] ∧ step5.fatal = none ∧ step5.suspects = [] ∧ step5.peerGate = none ∧ step5.peerAttempt = 0 ∧
      x.2.getLsbD cCHECKSUM = false ∧ (maxReplays s 1 < x.1 + 1 ↔ x.1 = 2)) ∧
    (∀ l ∈ [[], [4]], let d := { streamD with phase := .held }
      let s := stepWith (fun p => { p with phase := .gated, next := 1, streams := l }) [d]
      step5.reloads = [] ∧ step5.gate.toNat ≤ (pass 0 s).now.toNat ∧ s.fab.held = [] ∧ s.fab.parked = [] ∧ s.mem.waiting = [] ∧
      remapOpen s 1 = false ∧ checkOpen s 1 = false ∧ imageLost s 1 = false ∧ findDesc s 4 = some d ∧
      hasGroup (getPart s 1) (d.at 16 2) = true) ∧
    (∀ k ∈ ([{ retired := true }, { check := some { captured := none, core := 0, part := 1, moved := false } }] : List Site),
      let s := { stepWith (fun p => { p with phase := .gated, next := 1 }) [] with sites := [(0, k)] }
      (openStep s 1).map Step.phase = some .gated ∧ (remapOpen s 1 || checkOpen s 1) = true) ∧
    (let p := { step5 with cmp := 1, cmpAttempt := some 0 }
     let s := stepWith (fun _ => p) [descOf 0x29 0 (leBytes 8 5) .held]
     openStep s 1 = some p ∧ atCommit s 1 p = true ∧ mayNotCommit p = true ∧ p.causes = 0) := by decide +kernel

/-- The payload of a CONTROL packet of step 5: attempt, bytes 12 to 15, the rest. -/
def ctlBody (att : Nat) (four rest : Bytes) : Bytes := leBytes 8 5 ++ leBytes 1 att ++ [0] ++ leBytes 2 1 ++ four ++ rest

/-- ReplayRequests: notices of the present attempt, of the next one while it runs and while it is gated; REPLAY_STEP that may and may not. -/
theorem witness_ReplayRequests :
    (∀ a ∈ [0, 1], let k := pkt 0x0A 2 0x10 0 (ctlBody a [1, 0, 0, 0] (leBytes 6 100 ++ zeros 10))
      (let s := onFabric (stepWith id [])
       Admitted s 0 k 1 ∧ k.type = 0x0A ∧ k.vc = 2 ∧ k.tspec = 0x10 ∧ openStep s 1 = some step5 ∧ step5.num = ctlStep k ∧ ctlAttempt k = a) ∧
      (let p := { step5 with phase := .gated, next := 1 }
       let s := onFabric (stepWith (fun _ => p) [])
       Admitted s 0 k 1 ∧ openStep s 1 = some p ∧ a ≤ maxReplays s 1)) ∧
    (∀ n ∈ [5, 6], let d := descOf 0x2A 0 (leBytes 8 n)
      let s := stepWith id [d]
      AtTurn s 4 0x2A d ∧ openStep s 1 = some step5 ∧ startsNow s d = true ∧
      replayCheck s d = if n = 5 then none else some .descMalformed) := by
  simp only [atTurn_iff, admitted_iff]; decide +kernel

/-- A region-table entry of layer 3: a copy whose owner is a member; its two halves lie at 0x10000 and 0x20000. -/
def region (owner : Nat) : Region := { half0 := 0x10000, half1 := 0x20000, len := 4096, kind := 1, copy := 0, owner := owner, layer := 3 }

/-- The device in step 5 with such a copy of one parcel in both halves; the header's DIGEST is `dig` in half 0, and steps divisible by 5 are
digest steps. -/
def withCopy (owner : Nat) (dig : Byte) (p : Step) (l : List Desc) : State :=
  let s := setReg (ctx bSlwCtx 1 0x1C) 5 (onFabric (stepWith (fun _ => p) l))
  { s with parts := [(1, { part1 with step := some p, regions := [region owner] })]
           mem := { hbm := [(2, 5), (0x10002, 6), (0x10020, 1)] ++ (if dig = 0 then [] else [(0x10030, dig)]) ++ [(0x20002, 6), (0x20020, 1)] } }

/-- Digests: DIGEST of one parcel, misaligned, with and without outliers; a fold; a list in time and late; the deadline. -/
theorem witness_Digests :
    (∀ x ∈ [(0, 0), (0, 64), (4, 0)], let d := descOf 0x2B 0 (leBytes 8 x.1 ++ leBytes 4 1 ++ zeros 4 ++ leBytes 8 x.2 ++ leBytes 8 16)
      let s := withDesc d (outStep idle1)
      AtTurn s 4 0x2B d ∧ startsNow s d = true ∧ d.codes = [] ∧ s.mem.waiting = [] ∧ digestCheck s d = if x.1 = 0 then none else some .descBounds) ∧
    (let s := withCopy 0 0 step5 [descOf 0x29 0 (leBytes 8 5) .held]
     openStep s 1 = some step5 ∧ digestStep s 1 step5 = true ∧ heldDescs s 1 0x29 ≠ [] ∧ (heldColls s 1).all Coll.good = true ∧
     listsIn s 1 step5 = false ∧ s.now.toNat < listsDue s 1 step5 ∧ (weightEntries s 1).length = 1 ∧
     copyDigest s 0x10000 4096 = some (headDigest s 0x10000)) ∧
    (let k := pkt 0x0A 2 0x11 0 (ctlBody 0 [0, 0, 1, 0] (zeros 16))
     ∀ t ∈ [0, 0xF4240], let s := { withCopy 0 0 step5 [] with now := BitVec.ofNat 64 t }
      Admitted s 0 k 1 ∧ openStep s 1 = some step5 ∧ step5.num = ctlStep k ∧ ctlAttempt k = step5.attempt ∧ leAt k.payload 14 2 = 1 ∧
      ctlMember k < peerCount s 1 ∧ ctlMember k ≠ ownMember s 1 ∧ (s.now.toNat < listsDue s 1 step5 ↔ t = 0)) ∧
    (let p := { step5 with listSent := true }
     let s := withCopy 0 0 p []
     openStep s 1 = some p ∧ listsDue s 1 p ≤ (pass 0xF4240 s).now.toNat) := by
  simp only [atTurn_iff, admitted_iff]; decide +kernel

/-- A reload of that copy's half 0 from node 5, asked at time 0. -/
def reload1 : Reload := { entry := 0, addr := 0x10000, len := 4096, node := 5, since := 0, redo := false }

/-- Reloads: RELOAD_REQ to the owner and to another member; RELOAD_DONE with STATUS 1, with a copy that differs, with one that does not;
the deadline in a running attempt and in a gated one. -/
theorem witness_Reloads :
    (∀ o < 2, let k := pkt 0x0A 2 0x12 0 (ctlBody 0 [3, 0, 0, 0] (leBytes 6 0x4000 ++ zeros 10))
      let s := withCopy o 0 step5 []
      Admitted s 0 k 1 ∧ openStep s 1 = some step5 ∧ step5.num = ctlStep k ∧ (getDest s 5).unreachable = false ∧
      ((weightEntries s 1).find? (fun e => e.2.layer == leAt k.payload 12 2 && e.2.copy == leAt k.payload 14 1 &&
        e.2.owner == ownMember s 1)).isSome = (o == 0) ∧
      copyOk (copyHead s (halfOf (region o) (leAt k.payload 15 1))) 4096 = true) ∧
    (∀ x ∈ [((1 : Byte), (0 : Byte), AttemptPhase.running), (0, 1, .running), (0, 0, .gated)],
      let k := pkt 0x0A 2 0x13 0 (ctlBody 0 [x.1, 0, 0, 0] (zeros 16))
      let p := { step5 with phase := x.2.2, reloads := [reload1] }
      let s := withCopy 1 x.2.1 p []
      Admitted s 0 k 1 ∧ openStep s 1 = some p ∧ p.num = ctlStep k ∧ leAt k.payload 12 1 = x.1.toNat ∧ reloadOf s p k = some reload1 ∧
      (copyDigest s 0x10000 4096 = some (reloadWant s 1 p reload1) ↔ x.2.1 = 0)) ∧
    (∀ ph ∈ [AttemptPhase.running, .gated], let p := { step5 with phase := ph, reloads := [reload1] }
      let s := withCopy 1 0 p []
      openStep s 1 = some p ∧ reload1.since.toNat + digestNs s 1 ≤ (pass 1000000 s).now.toNat) := by
  simp only [admitted_iff]; decide +kernel

/-- The last fabric time at which a site tested at 0 is fresh. -/
def freshEnd : DWord := 604800000000000

/-- CoreTests: a spare whose test is overdue; a test at its end, of a core outside a step and inside one; a site check at its end, the core
moved and not; a core on a retired site with a tested spare and without one. -/
theorem witness_CoreTests :
    (let s := { State.reset with now := freshEnd + 1 }
     (getSite s 24).fused = false ∧ (getSite s 24).check = none ∧ sitePart s 24 = 0 ∧ testFresh s 24 = false ∧
     testFresh { s with now := freshEnd } 24 = true) ∧
    (let s := { State.reset with sites := [(24, { testing := true })] }
     (getSite s 24).testing = true ∧ (getSite s 24).since + 35000000 ≤ s.clock + 35000000 ∧ sitePart s 24 = 0) ∧
    (let s := { stepWith id [] with sites := [(0, { testing := true })] }
     (getSite s 0).testing = true ∧ coreOn s 0 = some 0 ∧ stepBoundary s (getCore s 0).part = false ∧ partTesting s (getCore s 0).part = false) ∧
    (∀ b ∈ [true, false], let k : SiteCheck := { captured := none, core := 0, part := 1, moved := b }
      let s := { State.reset with sites := [(24, { check := some k })] }
      (getSite s 24).check = some k ∧ (getSite s 24).since + 35000000 ≤ s.clock + 35000000) ∧
    (∀ t ∈ [0, 604800000000001], let s := { outStep idle1 with sites := [(0, { retired := true })], now := BitVec.ofNat 64 t }
      siteOf s 0 = some 0 ∧ (getSite s 0).retired = true ∧ stepBoundary s (getCore s 0).part = true ∧
      nearestSite 0 (fun v => freeSpare s v && testFresh s v) = (if t = 0 then some 24 else none) ∧ isStarted s (getCore s 0).part = true) := by
  decide +kernel

/-- A core that runs and waits at an EWAIT, one engine hungry; one that issues. -/
def waits1 : Core := { idle1 with run := .running, stall := .ewait 3 1, cur := [(3, [{ q := queued (ins 0x21 0 1 2 3), hungry := true }])] }

/-- SelftestAndCheckpoint: SELFTEST with a core running, in a step, and free, with and without time before its deadline; its end with and
without REPAIR; CHECKPOINT in a step, accepted, waiting and met; a device at rest, one whose core waits, one whose core issues. -/
theorem witness_SelftestAndCheckpoint :
    (∀ dl ∈ [34999999, 35000000], let d := descOf 0x2C 0 (zeros 8 ++ leBytes 6 dl)
      let s := withDesc d (outStep idle1)
      AtTurn s 4 0x2C d ∧ startsNow s d = true ∧ d.at 16 1 ≤ 1 ∧ bitsOf (d.at 17 1) 1 7 = 0 ∧ zeroAt d.bytes [(18, 6), (30, 2), (40, 24)] = true ∧
      openStep s 1 = none ∧ (∀ c ∈ partCores s 1, (getCore s c).run ≠ .running) ∧
      (timeReached (now48 s + 34999999) (BitVec.ofNat 48 (d.at 24 6)) = true ↔ dl = 34999999) ∧ testCores s 1 false = [0] ∧
      AtTurn (stepWith id [d]) 4 0x2C d) ∧
    (∀ b ∈ [0, 1], let d := { descOf 0x2C 0 [0, b] .started with aux := 2 }
     let s := { withDesc d (outStep idle1) with sites := [(0, { testing := true })] }
     findDesc s 4 = some d ∧ d.opcode = 0x2C ∧ sitesInTest s 1 = [0] ∧ testsOver (pass 35000000 s) (sitesInTest s 1) = true ∧
     (bitOf (d.at 17 1) 0 = false ↔ b = 0)) ∧
    (let d := descOf 0x30 0 (leBytes 8 0xFFFFFFFFFFFFFFFF)
     AtTurn (stepWith id [d]) 4 0x30 d ∧ AtTurn (withDesc d (outStep idle1)) 4 0x30 d ∧ checkpointCheck (withDesc d (outStep idle1)) d = none ∧
     (let d := { d with phase := .started, aux := 1 }
      let s := withDesc d (outStep idle1)
      let e := { descOf 9 0 [] with id := 3 }
      findDesc s 4 = some d ∧ d.opcode = 0x30 ∧ checkpointMet s d = true ∧ bitOf (d.at 24 1) 0 = false ∧
      findDesc { s with descs := [e, d] } 4 = some d ∧ checkpointMet { s with descs := [e, d] } d = false)) ∧
    (∀ k ∈ [idle1, waits1, { idle1 with run := .running }], let s := outStep k
     s.fer.power = .active ∧ s.rst = none ∧ s.fer.trip = none ∧ (∀ n ∈ partNums, isStarted s n = true → ∀ c ∈ partCores s n, getCore s c = k) ∧
     (isStarted s 1 = true ∧ partCores s 1 = [0]) ∧ (k.run ≠ .running ∨ (k.stall ≠ .none ∧ ∀ e < 16, engineRests k e = true) ∨ k.stall = .none)) := by
  simp only [atTurn_iff]; decide +kernel

/-! ## Memory, mesh, counters -/

/-- The device outside a step, stack 0 with so many tokens for group 1 of partition 1. -/
def paid (t : Int) : State :=
  { outStep idle1 with mem := { hbmStacks := [(0, { tokens := if t = 0 then [] else [(65537, t)] })] } }

/-- A request of partition 1's group 1 at an address. -/
def req1 (a : Nat) : MemReq := { part := 1, group := 1, addr := BitVec.ofNat 64 a, hint := 0 }

/-- Partition 1 with job 3 and its stash granule of slot 0, entry 0 in the remote pool of node 5 at 0x7000000. -/
def inPool : State :=
  let p : Part := { part1 with stash := { granules := [{ slot := 0, entry := 0, index := 0, remote := true, place := 0 }], written := [(0, 0)] } }
  setReg (ctx bGzlCtx 1 0) 3 (setReg (ctx bMemCtx 1 0x20) 0x7000000 (setReg (ctx bMemCtx 1 0x1C) 0x10005 { outStep idle1 with parts := [(1, p)] }))

/-- MemoryRequests: a read that waits and one that does not; the last address of the quota and the first past it, for a read, a write
and an add, also one at an unaligned address; stash accesses that are discarded, answered by the device, and go to the pool. -/
theorem witness_MemoryRequests :
    (∀ a ∈ [0, 0x3FFFFFFF, 0x40000000], ∀ t ∈ [(0 : Int), 1], reqHere (paid t) (req1 a) 1 = true ∧
      readPlace (paid t) 1 a 1 = (if a = 0x40000000 then .refused else .here a)) ∧
    reqWaits (paid 0) (req1 0) 0 1 = true ∧ reqWaits (paid 1) (req1 0) 0 1 = false ∧
    (∀ a ∈ [0, 0x40000000 - 8, 0x40000000], reqHere (paid 1) (req1 a) 8 = true ∧
      (writePlace 1 a 8 (paid 1)).1 = (if a = 0x40000000 then .refused else .here a) ∧
      reqWaits (writePlace 1 0 8 (paid 1)).2 (req1 0) 0 8 = false ∧ gStash a = false) ∧
    quotaOk (paid 1) 1 0 8 true = true ∧
    (let s := { paid 1 with parts := [(1, { part1 with step := some { step5 with holdLen := 4096 } })] }
     reqHere s (req1 0) 8 = true ∧ readPlace s 1 0 8 = .here 0 ∧ quotaOk s 1 0 8 true = false) ∧
    (let s := { paid 1 with parts := [(1, { part1 with stash := { marks := [(0, 0)] } })] }
     (writePlace 1 0x20000000000 8 s).1 = .discard) ∧
    (∀ fp ∈ [false, true], reqHere (paid 1) (addReq (req1 0x1F3) fp) 8 = true ∧ gStash (addReq (req1 0x1F3) fp).addr.toNat = false ∧
      readPlace (paid 1) 1 (addReq (req1 0x1F3) fp).addr.toNat 8 = .here 0x1F0 ∧ quotaOk (paid 1) 1 0x1F0 8 true = true) ∧
    (∀ a ∈ [0x20000000000, 0x21FE0000000], reqHere inPool (req1 a) 2 = true ∧
      readPlace inPool 1 a 2 = (if a = 0x20000000000 then .there 0x7000000 else .bytes [0, 0]) ∧
      (writePlace 1 0x20000000000 8 inPool).1 = .there 0x7000000) ∧
    Reaches inPool 1 := by
  refine ⟨by decide +kernel, by decide +kernel, by decide +kernel, by decide +kernel, by decide +kernel, by decide +kernel, by decide +kernel,
    by decide +kernel, by decide +kernel, ⟨by decide, by decide +kernel, fun _ => rfl⟩⟩

/-- MemoryCare: no request waits and groups have numbers that fit, before 1 µs and at it, no bucket owing; the first and the last stack, due
for a refresh, with scrubbing enabled, its time come and not; a page on its way to its frame, its READs answered and one open; VF1 and PF0 at INVAL. -/
theorem witness_MemoryCare :
    (let s := outStep idle1
     s.mem.waiting = [] ∧ (∀ n ∈ partNums, ∀ g ∈ (getPart s n).groups, g.num < 65536) ∧ isStarted s 1 = true ∧ s.descs = [] ∧
     (∀ k ∈ activeStacks s, ∀ n ∈ partNums, ∀ g ∈ bucketsOf s n, 0 ≤ (getStack s k).tokens.get 0 (bucketKey n g)) ∧
     s.clock + 999 < s.mem.refilled + 1000 ∧ s.mem.refilled + 1000 ≤ s.clock + 1000) ∧
    (∀ k ∈ [0, 19], let s := setReg bMem 2 State.reset
      k ∈ activeStacks s ∧ (getStack s k).refreshed + refreshNs s k ≤ s.clock + 3900 ∧ bitOf (regN s bMem) 1 = true ∧
      s.fer.power = .active ∧ s.rst = none ∧ (getStack s k).failed = false ∧ s.fer.trip = none ∧
      s.clock + 3899 < (getStack s k).refreshed + refreshNs s k ∧ (getStack s k).scrubAt + scrubNs s ≤ s.clock + scrubNs s ∧
      s.clock + (scrubNs s - 1) < (getStack s k).scrubAt + scrubNs s) ∧
    (let s := { outStep idle1 with parts := [(1, { part1 with rpc := { frames := [(0, { page := 7, valid := false, used := 0 })] } })] }
     (getPart s 1).rpc.frames.find? (fun e => e.2.page == 7 && !e.2.valid) = some (0, { page := 7, valid := false, used := 0 }) ∧
     openRequests s (fetches 1 (some 7)) = 0 ∧
     (let o : Sent := { psn := 0, pkt := pkt 1 0 256 0 [], origin := .rpc 1 7, dest := 5, port := 0, held := none, degraded := false }
      openRequests { s with fab := { tx := [(0, { unacked := [o] })] } } (fetches 1 (some 7)) = 1)) ∧
    (∀ fn ∈ [0, 1], HostOpen (outStep idle1) fn ∧ diesDark (outStep idle1) = false ∧ mayCtx fn 1 = true) := by decide +kernel

/-- A signal and a wait of partition 1 at counter `i`. -/
def sig1 (i : Nat) : Signal := { part := 1, index := i, inc := 1, origin := .none }
def wait1 (i : Nat) (v : DWord) (dl : BitVec 48) (o : Origin) : Wait := { part := 1, issuer := 1, index := i, expected := v, deadline := dl, origin := o }

/-- The device outside a step with that state of the counters. -/
def synAt (y : SyncSys) : State := { outStep idle1 with syn := y }

/-- MeshAndSignals: the first replay of a link, its 31st and its 32nd in a row; a signal for the last counter and one past it, a counter
that stays below 2^64 and one that does not; a signal with an earlier one of its source to the same unit. -/
theorem witness_MeshAndSignals :
    (∀ n ∈ [0, 30, 31], let s := synAt { replays := if n = 0 then [] else [(0, n)], replayedAt := if n = 0 then [] else [(0, some 0)] }
      linkExists 0 = true ∧ s.rst = none ∧ s.fer.trip = none ∧
      (match s.syn.replayedAt.get none 0 with | some t => decide (s.clock + 0 ≤ t + replayNs s 0) | none => false) = (n != 0) ∧
      s.syn.replays.get 0 0 = n) ∧
    (∀ i ∈ [15, 16], ∀ v ∈ [(2 ^ 64 - 2 : Nat), 2 ^ 64 - 1],
      let s := synAt { counters := [(15, BitVec.ofNat 64 v)], signals := [sig1 i], waiters := [wait1 15 (BitVec.ofNat 64 0xFFFFFFFFFFFFFFFF) 0xFFFF (.coreWait 0)] }
      s.syn.signals[0]? = some (sig1 i) ∧ sentBefore s (sig1 i).source 1 i (sig1 i).no = false ∧
      sentBefore { s with syn := { s.syn with signals := [{ sig1 15 with no := 1 }, sig1 14] } } (sig1 i).source 1 15 1 = true ∧
      counterOf s 1 i = (if i = 15 then some 15 else none) ∧ isSaturated s 15 = false ∧
      ((getCounter s 15).toNat + 1 < 2 ^ 64 ↔ v = 2 ^ 64 - 2) ∧
      (∀ w ∈ s.syn.waiters, counterOf s w.part w.index = some 15 ∧ deadlinePast s w = false ∧ w.expected.toNat ≤ 2 ^ 64 - 2 + 1)) := by
  decide +kernel

/-- A core of partition 1 in WAIT. -/
def waitingCore : Core := { idle1 with run := .running, stall := .wait }

/-- A descriptor that waits for its VERDICT. -/
def waitDesc : Desc := descOf 0x11 0 (leBytes 8 15 ++ leBytes 8 1) .started

/-- Waits: a request behind an earlier message of its source; one that its counter just meets, and one that it just does not, before its deadline, its unit free and full; the same
sent again; entries at their deadline, of a core and of a descriptor; a remote wait at the end of its grace. -/
theorem witness_Waits :
    (∀ v ∈ [1, 2], ∀ full ∈ [false, true],
      let w := wait1 15 (BitVec.ofNat 64 v) 100 (.coreWait 0)
      let s := { outStep waitingCore with syn := {
        counters := [(15, 1)], requests := [w], busy := [w], waiters := if full then List.replicate 128 (wait1 0 5 200 .none) else [w] } }
      counterOf s 1 15 = some 15 ∧ isSaturated s 15 = false ∧ (getCore s 0).stall = .wait ∧ s.syn.requests[0]? = some w ∧ s.syn.busy[0]? = some w ∧
      sentBefore s w.source w.part w.index w.no = false ∧ sentBefore { s with syn := { s.syn with signals := [sig1 15] } } (sig1 15).source 1 15 1 = true ∧
      (w.expected.toNat ≤ (getCounter s 15).toNat ↔ v = 1) ∧ timeReached (now48 s) w.deadline = false ∧
      timeReached (now48 (pass 99 s)) w.deadline = false ∧ unitFull s (15 / 256) = full) ∧
    (∀ o ∈ [Origin.coreWait 0, .desc 4],
      let w := wait1 15 2 100 o
      let s := withDesc waitDesc { outStep waitingCore with syn := { counters := [(15, 1)], waiters := [w] } }
      counterOf s 1 15 = some 15 ∧ isSaturated s 15 = false ∧ s.syn.waiters[0]? = some w ∧ (getCounter s 15).toNat < w.expected.toNat ∧
      timeReached (now48 (pass 100 s)) w.deadline = true ∧ (getCore s 0).stall = .wait ∧ findDesc s 4 = some waitDesc ∧ waitDesc.live = true) ∧
    (let w : RemoteWait := { origin := .desc 4, deadline := 100, node := 5 }
     let s := withDesc waitDesc (synAt { remotes := [w] })
     s.syn.remotes[0]? = some w ∧ findDesc s 4 = some waitDesc ∧ timeReached (now48 (pass 10100 s)) (w.deadline + 10000) = true ∧
     timeReached (now48 (pass 10099 s)) (w.deadline + 10000) = false) := by decide +kernel

/-! ## The fabric -/

/-- Port 0 in a state. -/
def portAt (q : Port) : State := { outStep idle1 with fab := { ports := [(0, q)] } }

/-- PortLinks: the spare itself that fails; a LINK flit before the 64th codeword; the 14th lane that fails and the 13th; the spare still free and used; a LANE flit that answers and one that does not; credit
without a queue, the ninth resend, a stall of 10 ms with a packet queued, 13 lost lanes; PORT_EN of port 0 cleared and kept. -/
theorem witness_PortLinks :
    (∀ n ∈ [12, 13], let q : Port := { st := .up, width := 0, failed := BitVec.ofNat 17 (2 ^ n - 1) }
      portUp (portAt q) 0 = true ∧ n < 17 ∧ bitOf (getPort (portAt q) 0).failed.toNat n = false ∧
      (healthyLanes (BitVec.ofNat 17 (setBits q.failed.toNat n 1 1)) < 4 ↔ n = 13)) ∧
    (∀ b ∈ [false, true], let q : Port := { st := .up, width := 3, spareUsed := b, failed := if b then 1 else 0 }
      portUp (portAt q) 0 = true ∧ bitOf q.failed.toNat 15 = false ∧ 4 ≤ healthyLanes (BitVec.ofNat 17 (setBits q.failed.toNat 15 1 1)) ∧
      (getPort (portAt q) 0).width = 3 ∧ (getPort (portAt q) 0).spareUsed = b ∧
      bitOf (BitVec.ofNat 17 (setBits q.failed.toNat 15 1 1)).toNat 16 = false ∧
      bitOf q.failed.toNat 16 = false ∧ 4 ≤ healthyLanes (BitVec.ofNat 17 (setBits q.failed.toNat 16 1 1))) ∧
    (∀ h ∈ [some 1, none], let q : Port := { st := .up, width := 3, handshake := h, resends := 8, queue := if h.isSome then [pkt 2 0 0 0 [1]] else [] }
      portUp (portAt q) 0 = true ∧ ((getPort (portAt q) 0).handshake = some 1 ↔ h = some 1) ∧ 15 < laneCount q.width ∧
      (List.replicate 8 1).length = 8 ∧ 8 ≤ (getPort (portAt q) 0).resends ∧ (getPort (portAt q) 0).txAcked < 1024 ∧
      (getPort (portAt q) 0).sinceLink < 63 ∧ (getPort (portAt { q with resends := 7 }) 0).resends < 8 ∧
      ((getPort (portAt q) 0).queue = [] ↔ h = none) ∧ max q.since q.creditAt + 10000000 ≤ (portAt q).clock + 10000000) ∧
    (let s := portAt { st := .up, width := 3 }
     HostOpen s 0 ∧ diesDark s = false ∧ bitOf (0xFE : Word).toNat 0 = false ∧ bitOf (0xFF : Word).toNat 7 = true ∧ bitOf (regN s bGzl) 7 = true ∧
     bitOf (0xFF : Word).toNat 0 = true ∧ bitOf (regN (setReg bGzl 0 s) bGzl) 0 = false) := by decide +kernel

/-- PortBringUp: a port in each state, enabled at reset; four lanes and three; the switch's PARAM flit with the right role and plane, node 0xFFFE
and 0xFFFF, partition 1 started and none; the limit of each state just over; a fallen port after 1 s. -/
theorem witness_PortBringUp :
    (∀ p ∈ [0, 7], let s := { State.reset with fab := { ports := [(p, { holdoff := false })] } }
      (getPort s p).st = .down ∧ (getPort s p).holdoff = false ∧ portEnabled s p = true ∧ s.rst = none ∧ s.fer.power = .active) ∧
    (∀ n ∈ [13, 14], (widthOf (healthyLanes (BitVec.ofNat 17 (2 ^ n - 1))) = 0 ↔ n = 14)) ∧
    (∀ x ∈ [(State.reset, true), (outStep idle1, false)], nodeId x.1 = 0 ∧
      (((∀ o < 8, portUp x.1 o = false) ∧ ∀ n ∈ partNums, isStarted x.1 n = false) ↔ x.2 = true)) ∧
    (∀ st ∈ [PortState.train, .align, .param, .time], let s := { State.reset with fab := { ports := [(0, { st := st })] } }
      (getPort s 0).st = st ∧ (getPort s 0).since ≤ (getPort s 0).lastTime ∧ (getPort s 0).measured = false ∧ (∀ o < 8, portUp s o = false) ∧
      ∃ l, stateLimit st = some l ∧ (getPort s 0).since + l ≤ s.clock + l) ∧
    (let s := { State.reset with fab := { ports := [(0, { st := .time, measured := true })] } }
     (getPort s 0).st = .time ∧ (getPort s 0).measured = true ∧ (getPort s 0).since ≤ (getPort s 0).lastTime) ∧
    (let s := { State.reset with fab := { ports := [(0, { holdoff := true })] } }
     (getPort s 0).st = .down ∧ (getPort s 0).holdoff = true ∧ portEnabled s 0 = true ∧ (getPort s 0).since + 1000000000 ≤ s.clock + 1000000000) := by
  refine ⟨by decide +kernel, by decide +kernel, by decide +kernel, ?_, by decide +kernel, by decide +kernel⟩
  intro st h; simp at h
  rcases h with rfl | rfl | rfl | rfl <;> exact ⟨by decide, by decide, by decide, by decide +kernel, _, rfl, by decide +kernel⟩

/-- FabricTime: a port in TIME and one in UP, the only one, before a second after its last DELAY_REQ and at it; a TIME flit 1 µs ahead and a
nanosecond more, a nanosecond more than 1 µs behind with a partition started and with none; a source silent for 10 µs. -/
theorem witness_FabricTime :
    (∀ x ∈ [(PortState.time, true), (.up, true), (.up, false)],
      let s := { (if x.2 then outStep idle1 else State.reset) with now := 5000, fab := { ports := [(0, { st := x.1, timeOk := true })] } }
      (getPort s 0).st = x.1 ∧ (getPort s 0).timeOk = true ∧ (∀ o < 8, o ≠ 0 → portUp s o = false) ∧
      (getPort s 0).sentAt + 1000000000 ≤ s.clock + 1000000000 ∧ s.clock + 999999999 < (getPort s 0).sentAt + 1000000000 ∧
      (∀ n ∈ [3999, 4000, 6000, 6001], let e : Int := ((BitVec.ofNat 64 n : DWord).toNat : Int) +
          (2 * ((32767 : Nat) : Int) + 65536 * (getPort s 0).delay + 65536) / 131072 - ((pass 0 s).now.toNat : Int)
        (e < -1000 ↔ n = 3999) ∧ (1000 < e ↔ n = 6001) ∧ (-1000 ≤ e ∧ e ≤ 1000 ↔ n = 4000 ∨ n = 6000)) ∧
      ((∃ n ∈ partNums, isStarted s n = true) ↔ x.2 = true) ∧ (getPort s 0).goodTime + 10000 ≤ s.clock + 10000) := by decide +kernel

/-- A PARCEL of node 5: elements at 0x1000, `m` scale bytes (E2M1 1 byte a block of 32 …), checksum, outliers. -/
def parcelPkt (outl : Bool) (fmt : Nat) : Packet :=
  let k := pkt 0x05 0 (fmt + if outl then 16 else 0) 0x1000 []
  let m := pktScales k
  sealPacket { k with ext := leBytes 6 0x2000 ++ leBytes 6 0x3000 ++ (if outl then leBytes 6 0x4000 else []),
                      payload := zeros (256 + (m + 3) / 4 * 4) ++ zeros (if outl then 36 else 4) }

set_option maxRecDepth 1000000 in
/-- MemoryPackets: a READ of the last byte of the quota, a WRITE of 256 bytes, adds of one element, a PARCEL with and without outliers. -/
theorem witness_MemoryPackets :
    (∀ k ∈ [pkt 0x01 1 1 0x3FFFFFFF [], pkt 0x02 0 0 0x3FFFFF00 (zeros 256), pkt 0x03 0 0 0x3FFFFFFC (zeros 4), pkt 0x04 0 0 0x3FFFFFF8 (zeros 8)],
      Admitted (onFabric (outStep idle1)) 0 k 1) ∧
    (∀ o ∈ [false, true], ∀ f ∈ [0, 2], let k := parcelPkt o f
      Admitted (onFabric (outStep idle1)) 0 k 1 ∧ k.type = 0x05 ∧ k.vc = 0 ∧
      k.payload.length = 256 + (pktScales k + 3) / 4 * 4 + (if bitOf k.tspec 4 then 36 else 4) ∧
      ((pktRanges k).map fun r => (gLocal r.1, r.2.1)).Pairwise (fun x y => rangesMeet x.1 x.2 y.1 y.2 = false)) := by
  simp only [admitted_iff]; decide +kernel

/-- PacketsNotApplied: a WRITE whose ECRC fails; one at a gap and one again; one for no partition; one outside the quota; one of the
attempt before the partition's and of the one after; one behind a held packet of its VC, and a copy of that one; a reserved TYPE. -/
theorem witness_PacketsNotApplied :
    let s := onFabric (outStep idle1)
    let k := pkt 0x02 0 0 0x1000 (zeros 4)
    let known (s : State) (k : Packet) : Bool := k.ecrc == pktEcrc k && s.fab.epochs.get none k.src == some k.epoch
    let fresh (s : State) (k : Packet) : Bool := (getRx s k.src k.flow 0).expected == some k.psn && decide (k.psn < 2 ^ 24)
    portUp s 0 = true ∧ vcBlocked s 0 0 = false ∧ k.type = 0x02 ∧ k.vc = 0 ∧ k.flow < 8 ∧ k.mcast = false ∧ s.fab.parked = [] ∧
    (∀ p ∈ [9, 10], let k := pkt 0x02 0 0 0x1000 (zeros 4) p
     let u := { s with fab := { s.fab with held := [{ port := 0, pkt := pkt 0x02 0 0 0x1000 (zeros 4), at_ := 0 }] } }
     portUp u 0 = true ∧ u.fab.parked = [] ∧ k.ecrc = pktEcrc k ∧ vcBlocked u 0 0 = true ∧ heldCopy u k = (p == 9)) ∧
    (let b := { k with ecrc := k.ecrc ^^^ 1 }
     b.ecrc ≠ pktEcrc b) ∧
    (∀ x ∈ [(10, 1), (9 + 2 ^ 23 - 1, 2 ^ 23 - 1), (9 + 2 ^ 23, 2 ^ 23), (8, 2 ^ 24 - 1)], let k := pkt 0x02 0 0 0x1000 (zeros 4) x.1
      known s k = true ∧ k.resync = false ∧ (getRx s k.src k.flow 0).expected = some 9 ∧ psnDist k.psn 9 = x.2 ∧ s.fab.held = []) ∧
    (let k := sealPacket { k with job := 4 }
     known s k = true ∧ fresh s k = true ∧ jobPart s k.job = none) ∧
    (let k := pkt 0x02 0 0 0x3FFFFFFD (zeros 4)
     known s k = true ∧ fresh s k = true ∧ jobPart s k.job = some 1 ∧ fits s 1 k = false) ∧
    (∀ a ∈ [0, 1, 2], let s := onFabric (stepWith (fun p => { p with attempt := 1 }) [])
      let k := sealPacket { k with stepValid := true, step := 5, attempt := a }
      known s k = true ∧ fresh s k = true ∧ jobPart s k.job = some 1 ∧ fits s 1 k = true ∧ attemptOrder s 1 k = (a : Int) - 1) ∧
    (let k := pkt 0x06 0 0 0 []
     k.ecrc = pktEcrc k ∧ k.type ∉ [1, 2, 3, 4, 5, 8, 9, 0xA, 0xC, 0xD, 0x10, 0x11, 0x12, 0x13]) := by decide +kernel

/-- A SIGNAL of node 5: index and parts; a WAIT: index, value, deadline. -/
def sigPkt (i parts : Nat) : Packet := pkt 0x08 2 0 0 (leBytes 4 1 ++ leBytes 2 i ++ leBytes 1 parts ++ [0] ++ leBytes 4 77)
def waitPkt (i v dl : Nat) : Packet := pkt 0x09 2 0 0 (leBytes 2 i ++ zeros 6 ++ leBytes 8 v ++ leBytes 6 dl ++ zeros 2)

/-- The first of two parts of node 5's signal 77, gathered; so many signals that are not complete. -/
def gather1 (i : Nat) : Gather := { node := 5, sigId := 77, part := 1, index := i, inc := 1, parts := 2, seen := [7], origins := [] }
def synOf (n : Nat) : State :=
  onFabric (synAt { counters := [(15, 1)], gathers := List.replicate n { gather1 0 with sigId := 5 } })

/-- SyncPackets: a signal of one part and of two, for the last counter and one past it, the first part and the last, the counter saturated by
it; 1,023 and 1,024 incomplete signals; a WAIT there, met, not met, past its deadline, saturated, and at a full unit. -/
theorem witness_SyncPackets :
    (∀ i ∈ [15, 16], ∀ n ∈ [1, 2], let k := sigPkt i n
      Admitted (synOf 0) 0 k 1 ∧ k.vc = 2 ∧ k.type = 0x08 ∧ (synOf 0).syn.gathers = [] ∧ sgParts k = n ∧
      counterOf (synOf 0) 1 (sgIndex k) = (if i = 15 then some 15 else none) ∧ isSaturated (synOf 0) 15 = false ∧
      (let g := gather1 i
       let u := onFabric (synAt { counters := [(15, 1)], gathers := [g] })
       Admitted u 0 (sigPkt i 2) 1 ∧ u.syn.gathers.find? (fun g => g.node == (sigPkt i 2).src && g.sigId == sgId (sigPkt i 2)) = some g ∧
       (sigPkt i 2).tspec ∉ g.seen ∧ g.parts ≤ g.seen.length + 1 ∧ ({ g with parts := 3 } : Gather).seen.length + 1 < 3)) ∧
    (∀ n ∈ [1023, 1024], Admitted (synOf n) 0 (sigPkt 15 2) 1 ∧ (synOf n).syn.gathers.length = n ∧
      (synOf n).syn.gathers.find? (fun g => g.node == (sigPkt 15 2).src && g.sigId == sgId (sigPkt 15 2)) = none) ∧
    (∀ i ∈ [15, 16], ∀ v ∈ [1, 2], ∀ dl ∈ [0, 100], ∀ x ∈ [(false, false), (false, true), (true, false)],
      let k := waitPkt i v dl
      let s := onFabric (synAt { counters := [(15, 1)], saturated := if x.2 then [(15, true)] else []
                                 waiters := if x.1 then List.replicate 128 (wait1 0 5 200 .none) else [] })
      Admitted s 0 k 1 ∧ k.vc = 2 ∧ k.type = 0x09 ∧ counterOf s 1 (leAt k.payload 0 2) = (if i = 15 then some 15 else none) ∧
      (leAt k.payload 8 8 ≤ (getCounter s 15).toNat ↔ v = 1) ∧ timeReached (now48 s) (BitVec.ofNat 48 (leAt k.payload 16 6)) = (dl == 0) ∧
      isSaturated s 15 = x.2 ∧ unitFull s (15 / 256) = x.1) := by
  simp only [admitted_iff]; refine ⟨?_, ?_, ?_⟩ <;> decide +kernel

/-- A request of this device to node 5, open, for descriptor 4. -/
def openReq (type vc : Nat) (held : Option Nat) : Sent :=
  { psn := 9, pkt := { pkt type vc 0 0x1000 [] with dst := 5, src := 0 }, origin := .desc 4, dest := 0x2000, port := 0, held := held, degraded := false }

/-- The device with that request, a descriptor, ports 0 and 1 up, and what is known of node 5. -/
def sentAt (o : Sent) (vc : Nat) (d : Desc) (x : Dest := {}) : State :=
  let s := withDesc d (outStep idle1)
  { s with fab := { ports := [(0, { st := .up, width := 3 }), (1, { st := .up, width := 3 })], tx := [(seqKey 5 0 vc, { next := 10, unacked := [o] })]
                    dests := if x = {} then [] else [(5, x)] } }

/-- A COPY of 4 bytes from node 5 to the host that waits for its data. -/
def copyOut : Desc := { descOf 8 0 (leBytes 8 0x5000000001000 ++ leBytes 8 0x2000 ++ leBytes 8 4 ++ [2]) .started with waiting := 1 }

/-- Replies: an ACK of each kind for a FILL, READ_DATA for a COPY to the host, a VERDICT of each kind, a NAK of each kind. -/
theorem witness_Replies :
    (∀ x ∈ [(0x10, 4, 0x02, 0, { descOf 9 0 [] .started with waiting := 1 }), (0x11, 5, 0x01, 1, copyOut), (0x13, 6, 0x09, 2, waitDesc),
        (0x12, 4, 0x02, 0, { descOf 9 0 [] .started with waiting := 1 })],
      ∀ st ∈ [0, 1, 2, 3, 4], let k := pkt x.1 x.2.1 st 0 [1, 2, 3, 4]
      let o := openReq x.2.2.1 x.2.2.2.1 none
      let d := x.2.2.2.2
      let s := sentAt o x.2.2.2.1 d
      portUp s 0 = true ∧ k.ecrc = pktEcrc k ∧ 4 ≤ k.vc ∧ k.vc < 8 ∧ k.flow < 8 ∧ portDegraded s 0 k.flow = false ∧
      (getTx s k.src k.flow (k.vc - 4)).unacked = [o] ∧ o.psn = k.psn ∧ o.psn < 2 ^ 24 ∧ o.degraded = false ∧ o.retried = false ∧ o.held = none ∧
      o.origin = .desc 4 ∧ findDesc s 4 = some d ∧ d.phase = .started ∧ d.codes = [] ∧ k.type = x.1 ∧ k.tspec = st ∧
      (k.type = 0x10 → d.opcode = 0x09 ∧ d.waiting ≤ 1 ∧ o.pkt.type = 0x02) ∧
      (k.type = 0x11 → d.opcode = 0x08 ∧ d.got = [] ∧ cpDstHost d = true ∧ d.waiting = 1) ∧ (k.type = 0x13 → d.opcode = 0x11) ∧
      o.quiet = false ∧ isReturning s k.src k.flow = false ∧ psnDist o.psn ((8 + 1) % 2 ^ 24) < 2 ^ 23 ∧ o.pkt.dst = k.src ∧ o.pkt.flow = k.flow ∧ destPort s k.src k.flow = some 0 ∧ portUp s 1 = true ∧
      (1 : Nat) ∉ (getDest s k.src).tried ∧ ∀ n ∈ partNums, (getPart s n).colls = []) := by decide +kernel

/-- PacketTimers: an acknowledgement owed for 100 ns; a request at its time-out, the third and the fourth in a row, another port up and none; a
destination after 1 s; a packet held for 500 ms; a reply held for 1 s. -/
theorem witness_PacketTimers :
    (let s := { onFabric State.reset with fab := { ports := [(0, { st := .up })], rx := [(seqKey 5 0 0, { expected := some 9, owed := 1 })] } }
     (getRx s 5 0 0).owed ≠ 0 ∧ (getRx s 5 0 0).owedSince + 100 ≤ s.clock + 100 ∧ portUp s (getRx s 5 0 0).port = true) ∧
    (∀ n ∈ [2, 3], ∀ two ∈ [false, true], let o := openReq 0x02 0 none
      let u := sentAt o 0 copyOut { timeouts := [(0, n)] }
      let s := if two then u else updPort 1 (fun q => { q with st := .down }) u
      (getTx s 5 0 0).unacked = [o] ∧ o.quiet = false ∧ o.at_ + ackTimeout s ≤ s.clock + 40000 ∧ sendPort s o = some 0 ∧
      o.pkt.dst = 5 ∧ o.pkt.flow = 0 ∧ (getDest s 5).timeouts.get 0 0 = n ∧
      (portUp s 1 = true ∧ 1 ∉ (getDest s 5).tried ↔ two = true) ∧
      ((∀ q < 8, q ≠ 0 → portUp s q = false) ↔ two = false)) ∧
    (∀ x ∈ [({ unreachable := true } : Dest), { tried := [0] }], let s := sentAt (openReq 0x02 0 none) 0 copyOut x
      ((getDest s 5).unreachable = true ∨ (getDest s 5).tried ≠ []) ∧ (getDest s 5).since + 1000000000 ≤ s.clock + 1000000000) ∧
    (let h : HeldPkt := { port := 0, pkt := pkt 0x02 0 0 0 [1], at_ := 0 }
     let s := { State.reset with fab := { ports := [(0, { st := .up })], held := [h] } }
     s.fab.parked = [] ∧ s.fab.held[0]? = some h ∧ h.at_ + 500000000 ≤ s.clock + 500000000 ∧ portUp s h.port = true) ∧
    (let o := openReq 0x01 1 (some 0)
     let s := sentAt o 1 copyOut
     (getTx s 5 0 1).unacked = [o] ∧ o.held = some 0 ∧ 0 + 1000000000 ≤ s.clock + 1000000000 ∧ o.origin = .desc 4 ∧ findDesc s 4 = some copyOut ∧
     copyOut.phase = .started ∧ copyOut.opcode = 0x08) :=
  ⟨by decide +kernel, by decide +kernel, by decide +kernel, by decide +kernel, by decide +kernel⟩

/-! ## Collectives -/

/-- The bytes from 16 of a collective of partition 1: operation, flags, root, count; a plain one's data at 8 MiB and 9 MiB, a fused one's list at 8 MiB. -/
def collBody (op flags root count : Nat) (fused : Bool) : Bytes :=
  leBytes 1 op ++ leBytes 1 flags ++ leBytes 2 root ++ zeros 8 ++ leBytes 4 count ++ leBytes 6 0x800000 ++
    leBytes 6 (if fused then 0 else 0x900000) ++ zeros 10 ++ leBytes 1 0 ++ zeros 1 ++ leBytes 6 0xFFFFFFFF ++ zeros 2

/-- Partition 1 with its collectives enabled, two members, one scratch slot, an entry of one element at the list, and descriptors. -/
def collOn (p : Part) (l : List Desc) : State :=
  let s := setReg (ctx bCollCtx 1 0x14) 1 (setReg (ctx bCollCtx 1 0) 1 (onFabric (outStep idle1)))
  { s with parts := [(1, p)], descs := l, mem := { hbm := [(2, 5), (0x800002, 0xA0), (0x800008, 0xB0), (0x80000C, 1)] } }

/-- That partition reaches its members. -/
theorem collOn_reaches {p : Part} {l : List Desc} : Reaches (collOn p l) 1 ↔ true = true :=
  iff_of_true ⟨by decide, (by decide +kernel : partJob (collOn part1 []) 1 ≠ 0), fun _ => rfl⟩ rfl

/-- CollectiveStarts: plain and fused, refused, held in a step and started outside one; a member arms and sends its JOIN; a receiving point
gets its slot. -/
theorem witness_CollectiveStarts :
    (∀ f ∈ [false, true], ∀ root ∈ [0, 1, 2], let d := descOf (if f then 0x21 else 0x20) 0 (collBody 0 0 root 1 f)
      let s := collOn part1 [d]
      let u := collOn { part1 with step := some step5 } [d]
      AtTurn s 4 (if f then 0x21 else 0x20) d ∧ AtTurn u 4 (if f then 0x21 else 0x20) d ∧ d.codes = [] ∧
      collAccept s d = (if root = 2 then some .descMalformed else none) ∧ collAccept u d = (if root = 2 then some .descMalformed else none) ∧
      (openStep u 1).isSome = true ∧ openStep s 1 = none ∧ startsNow s d = true) ∧
    (let d := descOf 0x20 0 (collBody 0 0 1 1 false) .started
     let s := collOn { part1 with colls := [{ id := 4 }] } [d]
     let u := pass (77 - collSetup d) s
     findDesc s 4 = some d ∧ d.opcode = 0x20 ∧ findColl s 1 4 = some { id := 4 } ∧ collSetup d ≤ 77 ∧ collRuns u d = true ∧ collTimeCome u d = true ∧
     collTriggered u d { id := 4 } = true ∧ collDeadlineCome u d = false ∧ (needsSlot u d = false ∨ collSlots u d.fn ≠ 0) ∧ Reaches s 1 ∧
     ownMember s 1 ≠ cRoot d) ∧
    (let d := descOf 0x20 0 (collBody 0 0 0 1 false) .started
     let c : Coll := { id := 4, phase := .armed, joined := [1] }
     let s := collOn { part1 with colls := [c] } [d]
     findDesc s 4 = some d ∧ d.opcode = 0x20 ∧ findColl s 1 4 = some c ∧ needsSlot s d = true ∧ slotsUsed s 1 < collSlots s 1 ∧ 0 < cTotal s d ∧
     Reaches s 1 ∧ c.granted.get 0 1 < min (cTotal s d) (collWindow s 1 (collChildren s 1 (cRoot d) (ownMember s 1)).length) ∧
     min (cTotal s d) (collWindow s 1 (collChildren s 1 (cRoot d) (ownMember s 1)).length) < 2 ^ 32) := by
  simp only [atTurn_iff, collOn_reaches]; repeat' apply And.intro
  all_goals decide +kernel

/-- A collective message of node 5 with a signature: kind, value, NaN count, run length. -/
def ctlColl (kind sig : Nat) (v nan cnt : Nat) (member : Nat := 1) : Packet :=
  pkt 0x0D 2 kind 0 (leBytes 8 sig ++ leBytes 2 member ++ zeros 2 ++ leBytes 4 v ++ zeros 4 ++ leBytes 4 nan ++ zeros 4 ++ leBytes 4 cnt)

/-- An armed collective of this member: operation, root; what the member holds of it; whether both members are in one pod. -/
def collArmed (op root : Nat) (c : Coll) (one : Bool := false) : State :=
  let s := collOn { part1 with colls := [c] } [descOf 0x20 0 (collBody op 0 root 1 false) .started]
  { (if one then setReg (ctx bCollCtx 1 0x04) 0x100 s else s) with
    fab := { (onFabric State.reset).fab with ports := [(0, { st := .up, width := 3 })] } }

/-- So does it with a collective armed. -/
theorem collArmed_reaches {op root : Nat} {c : Coll} {one : Bool} : Reaches (collArmed op root c one) 1 ↔ true = true := by
  cases one
  · exact iff_of_true ⟨by decide, (by decide +kernel : partJob (collOn part1 []) 1 ≠ 0), fun _ => rfl⟩ rfl
  · exact iff_of_true ⟨by decide, (by decide +kernel : partJob (setReg (ctx bCollCtx 1 0x04) 0x100 (collOn part1 [])) 1 ≠ 0), fun _ => rfl⟩ rfl

/-- What the member holds of its collective before a message of a kind, its descriptor, the message. -/
def collHas (kind : Nat) : Coll := { id := 4, phase := .armed, sent := if kind = 4 ∨ kind = 5 then 1 else 0, endSent := [1] }
def collDesc (op root : Nat) : Desc := descOf 0x20 0 (collBody op 0 root 1 false) .started
def collMsg (kind op root : Nat) : Packet :=
  ctlColl kind (collSig (collArmed op root (collHas kind)) 1 (collDesc op root)) (if kind = 4 then 0 else 1) 0 1

/-- Three members, this one the pod root of member 2, with a reduction to member 1 armed. -/
def three : State := setReg (ctx bSlwCtx 1 0x10) 3 (collArmed 0 1 { id := 4, phase := .armed })

/-- Each kind of message with the operation and the root of the collective it comes to, and whether the members share a pod. -/
def messages : List (Nat × Nat × Nat × Bool) :=
  [(1, 0, 0, false), (2, 0, 1, false), (2, 0, 1, true), (3, 2, 1, false), (4, 2, 0, false), (5, 2, 0, false), (6, 2, 1, false), (7, 2, 1, false)]

/-- CollectiveMessages: a JOIN with no collective here, with a wrong signature, and with the right one; WINDOW at a leaf and at a pod root alone; END, MISSING; DONE that is the
last; RESULT; ABORT. -/
theorem witness_CollectiveMessages :
    (let k := ctlColl 1 7 0 0 0
     let s := collOn part1 []
     Admitted s 0 k 1 ∧ k.type = 0x0D ∧ k.vc = 2 ∧ Reaches s 1 ∧ k.tspec = 1 ∧ openColls s 1 = []) ∧
    (∀ x ∈ messages,
      let c := collHas x.1
      let s := collArmed x.2.1 x.2.2.1 c x.2.2.2
      let d := collDesc x.2.1 x.2.2.1
      let k := collMsg x.1 x.2.1 x.2.2.1
      Admitted s 0 k 1 ∧ k.type = 0x0D ∧ k.vc = 2 ∧ Reaches s 1 ∧ k.tspec = x.1 ∧ collBySig s 1 (ccSig k) = some (d, c) ∧ findColl s 1 4 = some c ∧
      findDesc s 4 = some d ∧ d.codes = [] ∧ bitOf (cFlags d) 1 = false ∧ portDegraded s 0 k.flow = false ∧ cOp d = x.2.1 ∧ c.degraded = false ∧ d.phase = .started ∧ c.nan = 0) ∧
    (∀ x ∈ messages,
      let s := collArmed x.2.1 x.2.2.1 (collHas x.1) x.2.2.2
      let d := collDesc x.2.1 x.2.2.1
      let k := collMsg x.1 x.2.1 x.2.2.1
      (x.1 = 1 → ccMember k ∈ collExpect s 1 d ∧ (collHas x.1).got = [] ∧ 0 < cTotal s d) ∧
      (x.1 = 2 → ownMember s 1 ≠ cRoot d ∧ 0 < cTotal s d ∧ cTotal s d ≤ ccValue k ∧ collReceives s 1 d = !x.2.2.2 ∧
        collChildren s 1 (cRoot d) (ownMember s 1) = []) ∧
      (x.1 = 4 → ccMember k ∈ collFeeds s 1 d ∧ ccMember k ∈ (collHas x.1).endSent ∧ ccValue k ≤ 0 ∧ 0 < ccValue k + ccCount2 k ∧ 0 < bcTotal s d) ∧
      (x.1 = 5 → ownMember s 1 = cRoot d ∧ ∀ o ∈ othersOf s 1 (ownMember s 1), o = ccMember k) ∧ (x.1 = 7 → ownMember s 1 ≠ cRoot d)) ∧
    (let s := three
     let d := collDesc 0 1
     let k := ctlColl 1 (collSig s 1 d + 1) 0 0 0 2
     Admitted s 0 k 1 ∧ openColls s 1 = [(d, { id := 4, phase := .armed })] ∧ ccSig k ≠ BitVec.ofNat 64 (collSig s 1 d) ∧
     ccSig k ∉ (getPart s 1).collPast ∧ ccMember k ∈ collExpect s 1 d ∧ ownMember s 1 ≠ cRoot d) ∧ Reaches three 1 ∧
    (let s := { collArmed 2 0 (collHas 5) with fab := { (onFabric State.reset).fab with ports := (List.range 8).map fun p => (p, { st := .up, width := 3 }) } }
     Admitted s 0 (collMsg 5 2 0) 1 ∧ collBySig s 1 (ccSig (collMsg 5 2 0)) = some (collDesc 2 0, collHas 5) ∧
     ∀ f < 8, destPort s 5 f = some f ∧ (getPort s f).width = 3 ∧ isReturning s 5 f = false) := by
  simp only [admitted_iff, collOn_reaches, collArmed_reaches]; repeat' apply And.intro
  all_goals first | decide +kernel | exact fun _ => rfl

set_option maxRecDepth 1000000 in
/-- CollectiveDataAndTimers: the only burst of a byte broadcast, to a writable place and to one outside the quota; a reduction burst whose checksum
fails; 2 µs after END with a burst missing; the deadline, and a nanosecond after it. -/
theorem witness_CollectiveDataAndTimers :
    (∀ q ∈ [0, 1], let c : Coll := { id := 4, phase := .armed, endFrom := some (1, 0) }
     let s := { collArmed 2 1 c with parts := [(1, { part1 with colls := [c], qlen := q })] }
     let d := descOf 0x20 0 (collBody 2 0 1 1 false) .started
     let k := pkt 0x0C 3 2 0 (leBytes 8 (collSig s 1 d) ++ zeros 24 ++ zeros 256)
     Admitted s 0 k 1 ∧ k.type = 0x0C ∧ k.vc = 3 ∧ collBySig s 1 (BitVec.ofNat 64 (leAt k.payload 0 8)) = some (d, c) ∧
     findColl s 1 4 = some c ∧ findDesc s 4 = some d ∧ d.opcode = 0x20 ∧ cOp d = 2 ∧ ownMember s 1 ≠ cRoot d ∧ bitsOf k.tspec 0 2 = 2 ∧
     (∀ m ∈ partNums, m ≠ 1 → (getPart s m).colls = []) ∧ quotaOk s 1 (d.at 38 6) 256 true = (q == 1) ∧
     k.payload.length = 288 ∧ leAt k.payload 8 4 < cCount d ∧ missingRun c (bcTotal s d) = some (0, 1) ∧ 0 + 2000 ≤ s.clock + 2000 ∧
     bitOf (cFlags d) 1 = false ∧ collDeadlineOver (pass 0xFFFFFFFF s) d = false ∧ collDeadlineOver (pass 0x100000000 s) d = true) ∧
    Reaches (collArmed 2 1 { id := 4, phase := .armed, endFrom := some (1, 0) }) 1 ∧
    (let c : Coll := { id := 4, phase := .armed, joined := [1] }
     let s := collArmed 0 0 c
     let d := collDesc 0 0
     let k := pkt 0x0C 3 (1 + 4 * fE2M1) 0 (leBytes 8 (collSig s 1 d) ++ zeros 4 ++ leBytes 2 1 ++ zeros 18 ++ zeros 276)
     Admitted s 0 k 1 ∧ k.type = 0x0C ∧ k.vc = 3 ∧ collBySig s 1 (BitVec.ofNat 64 (leAt k.payload 0 8)) = some (d, c) ∧
     findColl s 1 4 = some c ∧ findDesc s 4 = some d ∧ d.fn = 1 ∧ d.phase = .started ∧ cOp d = 0 ∧ secondLevel s 1 d 1 = true ∧
     (burstPlace s d true 0).isSome ∧ leAt k.payload 12 2 ∈ c.joined ∧ bitsOf k.tspec 0 2 = 1 ∧ bitsOf k.tspec 2 4 = levelFmt true ∧
     parcelOk (levelFmt true) false (burstParcel (levelFmt true) (k.payload.drop 32)) = false) := by
  simp only [admitted_iff, collArmed_reaches]; repeat' apply And.intro
  all_goals decide +kernel

/-! ## Ingest -/

/-- A job block: one sample, one reader, one frame of 8 by 8 in BF16, two Landing slots of 8 KiB from 0x200000 with one place each, the queue at
0x300000, counter 1 for FILL and 2 for FREE; its sample table at 0x100000. -/
def jobBlock : Bytes :=
  leBytes 8 0x100000 ++ leBytes 8 1 ++ zeros 12 ++ leBytes 4 1 ++ zeros 16 ++ [1, 8, 0, 0] ++ leBytes 4 1 ++ leBytes 2 8 ++ leBytes 2 8 ++
    zeros 8 ++ [1, 0] ++ zeros 34 ++ leBytes 8 0x200000 ++ leBytes 4 8192 ++ leBytes 2 2 ++ leBytes 2 1 ++ leBytes 8 0x300000 ++
    leBytes 2 1 ++ leBytes 2 2 ++ zeros 60

/-- Bytes at an address, as HBM cells. -/
def cells (a : Nat) (b : Bytes) : Tbl Byte := ((List.range b.length).map fun i => (a + i, b.getD i 0)).filter fun e => e.2 != 0

/-- INGEST_SUBMIT of the block at 0x10000 into slot 0, of so many samples; `nb` with a not-before time of 1 s. -/
def submit (nb : Bool) (n : Nat) (ph : DescPhase := .fetched) : Desc :=
  let body := leBytes 8 0x10000 ++ leBytes 8 n ++ zeros 32
  if nb then later 0x18 body ph else descOf 0x18 0 body ph

/-- A job of so many samples with buffers in hand. -/
def jobOf (n : DWord) (l : List Buffer) (signalled : Nat := 0) : Job :=
  { id := 4, block := jobBlock, blockAddr := 0x10000, samples := n, nextJ := 0, fillBase := 0, freeBase := 0, freeList := [1], buffers := l
    signalled := signalled }

/-- Partition 1 with a job, its descriptor started; the sample table and the block lie in memory. -/
def jobAt (j : Option Job) (pipe : Pipe := {}) (d : Desc := submit false 1 .started) : State :=
  { withDesc d (outStep idle1) with
    parts := [(1, { part1 with jobs := match j with | some j => [(0, some j)] | none => [] })]
    pipes := if pipe = {} then [] else [(0, pipe)]
    mem := { hbm := cells 0x10000 jobBlock } }

/-- The first buffer of a job, with so many ended and failed samples. -/
def buffer0 (filled failed : Nat) : Buffer := { num := 0, slot := 0, filled := filled, failed := failed }

/-- IngestJobs: a start whose counter values the quota lets be written, and one whose block it does not let; from a partition without pipes, for a slot in use, good and starting, good and waiting; a full buffer that is not the last, the
last, and one with ERR_LIMIT reached. -/
theorem witness_IngestJobs :
    (∀ nb ∈ [false, true], let d := submit nb 1
      AtTurn (jobAt none {} d) 4 0x18 d ∧ ingestCheck (jobAt none {} d) d = none ∧ startsNow (jobAt none {} d) d = !nb ∧
      AtTurn (jobAt (some (jobOf 1 [])) {} d) 4 0x18 d ∧ d.fn ≠ 0 ∧ (getPart (jobAt none {} d) d.fn).pipes ≠ 0 ∧
      ((getPart (jobAt (some (jobOf 1 [])) {} d) 1).jobs.get none (isSlot d)).isSome = true ∧ (jobAt none {} d).mem.waiting = [] ∧
      (∀ h ∈ [0, 4096], let s := { jobAt none {} d with parts := [(1, { part1 with step := some { step5 with holdBase := 0x10000, holdLen := h } })] }
        AtTurn s 4 0x18 d ∧ ingestCheck s d = none ∧ quotaOk s 1 (isBlock d + 192) 16 true = (h == 0))) ∧
    (let d := submit false 1
     let s := { jobAt none {} d with parts := [(1, { part1 with pipes := 0 })] }
     AtTurn s 4 0x18 d ∧ (getPart s 1).pipes = 0) ∧
    (∀ n ∈ [1, 2], ∀ lim ∈ [0, 1], let j := { jobOf (BitVec.ofNat 64 n) [buffer0 1 1] with block := jobBlock.set 100 lim }
      let s := jobAt (some j)
      (getPart s 1).jobs.get none 0 = some j ∧ j.buffers.find? (fun u => u.num == j.signalled) = some (buffer0 1 1) ∧ bufferCount j 0 ≤ 1 ∧
      isStarted s 1 = true ∧ s.mem.waiting = [] ∧ findDesc s 4 = some (submit false 1 .started) ∧ (submit false 1 .started).codes = [] ∧ j.degraded = false ∧
      (jbErrLimit j.block ≠ 0 ∧ jbErrLimit j.block ≤ j.failedSig + 1 ↔ lim = 1) ∧
      ((j.samples ≠ BitVec.allOnes 64 ∧ j.samples.toNat ≤ 0 * jbPlaces j.block + bufferCount j 0) ↔ n = 1)) := by
  simp only [atTurn_iff]; repeat' apply And.intro
  all_goals decide +kernel

/-- A sample of that job in the pipe, its table entry lost. -/
def task1 (redone : Bool) : Task := { part := 1, jslot := 0, j := 0, redone := redone, since := 0, entry := none, segment := none }

/-- DecodePipes: a pipe that is due; its test at its end, with a spare and with none; a sample for the lowest free pipe, new and decoded again;
an ended sample; one past its watchdog. -/
theorem witness_DecodePipes :
    (let s := jobAt (some (jobOf 1 []))
     (0 : Nat) < 64 ∧ 1 ∈ partNums ∧ ownsPipe s 1 0 = true ∧ (getPart s 1).jobs.get none 0 = some (jobOf 1 []) ∧ jobRuns s (jobOf 1 []) = true ∧
     (getPipe s 0).testing = none ∧ testDue (pass 0 s) 0 = true) ∧
    (∀ sp ∈ [true, false], let s := jobAt none { testing := some 0 }
      let u := { s with pipes := s.pipes ++ (if sp then [] else [(1, { phys := some 64 }), (2, { phys := some 65 }), (3, { phys := some 66 }), (4, { phys := some 67 })]) }
      (getPipe u 0).testing = some 0 ∧ 0 + 4000000 ≤ u.clock + 4000000 ∧ (sparePipes u).head? = (if sp then some 64 else none)) ∧
    (∀ r ∈ [false, true], let j := { jobOf 1 [] with redo := if r then [0] else [] }
      let s := jobAt (some j) { testedAt := some 0 }
      isStarted s 1 = true ∧ (List.range 64).find? (pipeFree (pass 0 s) 1) = some 0 ∧
      (jobTurns (getPart s 1)).find? (fun i => ((getPart s 1).jobs.get none i).any fun j => jobRuns s j && jobCan (getPart s 1) j) = some 0 ∧
      (getPart s 1).jobs.get none 0 = some j ∧ jobNext j = some (0, r) ∧ s.mem.waiting = []) ∧
    (∀ r ∈ [false, true], let j := jobOf 1 [buffer0 0 0]
      let s := jobAt (some j) { task := some (task1 r) }
      (getPipe s 0).task = some (task1 r) ∧ (getPipe s 0).testing = none ∧ s.mem.waiting = [] ∧ (task1 r).part ∈ partNums ∧ (getPart s 1).jobs.get none 0 = some j ∧
      j.buffers.find? (fun u => u.num == bufferOf j.block 0) = some (buffer0 0 0) ∧ (taskSample s (task1 r)).status ≠ 0 ∧
      0 + 4 * (taskSample s (task1 r)).expected + 10000000 < s.clock + 10000001) := by
  refine ⟨?_, ?_, ?_, ?_⟩ <;> decide +kernel

/-! ## The host -/

/-- HostRegisters: widths and alignments that are refused; PF0 and VF1; a register of the device for a VF; a partition's register while it is
started, while it stops and while it is not; reads of both widths with and without a latched word; a ring's base in IDLE and in RUNNING. -/
theorem witness_HostRegisters :
    (∀ fn ∈ [0, 1, 8], HostOpen (outStep idle1) fn ∧ fn ≤ 8) ∧ barOpen (outStep idle1) = true ∧ diesDark (outStep idle1) = false ∧
    ¬(((4 : Nat) = 4 ∨ (4 : Nat) = 8) ∧ 2 % 4 = 0) ∧ ¬(((2 : Nat) = 4 ∨ (2 : Nat) = 8) ∧ 0 % 2 = 0) ∧
    bHifDev ≤ bHifDev ∧ bHifDev < bCore ∧ bHifDev ≤ bCore - 4 ∧ ctxOf bHifDev = none ∧ ctxOf (bCore - 4) = none ∧
    
    (∀ st ∈ [PartState.started, .stopping, .configured], let s := { outStep idle1 with parts := [(1, { part1 with st := st })] }
      HostOpen s 1 ∧ (getPart s 1).st = st) ∧
    (∀ st ∈ [RingState.idle, .running], let s := { outStep idle1 with rings := [(1, { state := st, sqTail := 1 })] }
      ringOwner s 1 = 1 ∧ (getRing s 1).state = st) ∧ ringOwner (outStep idle1) 255 = 0 ∧
    latchLow 0x40040 = false ∧ latchLow 0x40044 = false ∧ (outStep idle1).latches = [] ∧ latchLow (bCore + 0x20) = true ∧
    latchLow (bCore + 0x24) = false := by decide +kernel

/-- CompletionCountReads: PF0 and the owner VF1 at core 0's window; a stream that may start on it. -/
theorem witness_CompletionCountReads :
    (∀ fn ∈ [0, 1], HostOpen (outStep idle1) fn ∧ windowReached (outStep idle1) fn 0 = true) ∧
    (let s := withDesc streamD (outStep idle1)
     AtTurn s 4 2 streamD ∧ streamCheck s streamD = none ∧ startsNow s streamD = true ∧ openStep s 1 = none ∧
     0 ∈ groupCores (getPart s 1) (streamD.at 16 2)) := by
  simp only [atTurn_iff]; decide +kernel

/-- HostResets: FLR of a VF whose partition is started and of one whose partition is free; of PF0 with a descriptor in flight and without; its
limit; an idle link; a link that may train. -/
theorem witness_HostResets :
    barOpen (outStep idle1) = true ∧ 1 ∈ partNums ∧ (getPart (outStep idle1) 1).st = .started ∧ (getPart (outStep idle1) 8).st = .free ∧
    (∀ d ∈ (withDesc streamD State.reset).descs, d.fn ≠ 0) ∧
    (let s := withDesc { streamD with fn := 0 } State.reset
     (∃ d ∈ s.descs, d.fn = 0) ∧ s.flrPf0 = none ∧ barOpen s = true) ∧
    (let s := { State.reset with flrPf0 := some 0 }
     s.flrPf0 = some 0 ∧ 0 + 100000000 ≤ s.clock + 100000000) ∧
    State.reset.link.l1 = false ∧ State.reset.descs = [] ∧ State.reset.link.lastAccess + 100000 ≤ State.reset.clock + 100000 ∧
    (let s := { State.reset with brd := { State.reset.brd with refclk := true } }
     barOpen s = true ∧ s.brd.refclk = true) := by decide +kernel

/-- Bar4Accesses: PF0 and VF1 at the last byte they reach and at the first they do not; a byte of the held range; a VF without quota. -/
theorem witness_Bar4Accesses :
    HostOpen (outStep idle1) 0 ∧ HostOpen (outStep idle1) 1 ∧ HostOpen (outStep idle1) 2 ∧ (getPart (outStep idle1) 2).qlen = 0 ∧
    (let s := outStep idle1
     (getPart s 1).qlen * gib = 0x40000000 ∧ quotaOk s 1 0x3FFFFFFF 1 false = true ∧ quotaOk s 1 0x3FFFFFFF 1 true = true ∧
     partOfAddr s 0x40000000 = 0 ∧ quotaOk s 0 0x40000000 512 true = true ∧ 0x40000000 % 4096 + 512 ≤ 4096 ∧ 0x40000000 + 512 ≤ partSpace s) ∧
    (let s := { outStep idle1 with parts := [(1, { part1 with step := some { step5 with holdLen := 4096 } })] }
     (getPart s 1).step = some { step5 with holdLen := 4096 } ∧ rangesMeet 4095 1 0 4096 = true ∧ quotaOk s 1 4095 1 false = true ∧
     quotaOk s 1 4095 1 true = false) := by decide +kernel

/-- Ring 1 of partition 1 in a state, with a pending completion. -/
def ringAt (st : RingState) : State :=
  { outStep idle1 with rings := [(1, { state := st, enable := true, coalPending := 1, coalTime := 10, vector := 2 })]
                       funcs := [(1, { msix := [(11, 1)] })] }

/-- RingCommands: a doorbell of VF1 for its ring at the last index and at the size, for a ring of another function, for one that is not
running; IDLE, RUNNING and ERROR at ENABLE; a drained ring; a pending completion whose time has passed. -/
theorem witness_RingCommands :
    HostOpen (ringAt .running) 1 ∧ ringOwner (ringAt .running) 1 = 1 ∧ ringOwner (ringAt .running) 255 ≠ 1 ∧ ringSize (getRing (ringAt .running) 1) = 64 ∧
    (getRing (ringAt .running) 1).state = .running ∧ (getRing (ringAt .idle) 1).state = .idle ∧ HostOpen (ringAt .idle) 1 ∧
    (getRing (ringAt .error) 1).state = .error ∧ (getRing (ringAt .draining) 1).state = .draining ∧ ringFlight (ringAt .draining) 1 = 0 ∧
    (let s := ringAt .running
     (getRing s 1).coalPending ≠ 0 ∧ (getRing s 1).coalSince + 100 * (getRing s 1).coalTime ≤ s.clock + 1000 ∧ hostReach s 1 = true ∧
     bitOf ((s.funcs.get {} 1).msix.get 0 (4 * (getRing s 1).vector + 3)).toNat 0 = true) := by decide +kernel

/-! ## Partitions and resets -/

/-- A descriptor of PF0. -/
def pf0 (d : Desc) : Desc := { d with fn := 0, ring := 0 }

/-- CONFIG_PARTITION of partition 1: byte 17, RING_BASE, first rectangle word; 1 GiB of memory, 64 counters, ring 1, pipe 0, one group entry. -/
def config1 (b17 : Byte) (ring : Byte := 1) (rect : Nat := 0) (part : Byte := 1) : Desc :=
  pf0 (descOf 0x38 0 (if b17 = 0x80 then [part, 0x80] else [part, b17, ring, 1] ++ leBytes 2 0 ++ leBytes 2 1 ++ leBytes 2 0 ++ leBytes 2 64 ++
    leBytes 4 rect ++ zeros 12 ++ leBytes 8 1 ++ leBytes 8 0x1000 ++ [1]))

/-- The group entry of group 1: FWD, share 100, one rectangle of core 0. -/
def groupEntry : Bytes := leBytes 2 1 ++ [0, 100, 1] ++ zeros 27

/-- Partition 1 in a state of R476, one peer (this device), its counter base table at 4096; a descriptor. -/
def partAt (st : PartState) (l : List Desc) : State :=
  { setReg (ctx bSlwCtx 1 0x14) 4096 (setReg (ctx bSlwCtx 1 0x10) 1 State.reset) with
    cores := [(0, idle1)], parts := [(1, { part1 with st := st })], descs := l }

/-- Partitions: CONFIG_PARTITION with bad fields, releasing, out of bounds, with a ring that is not IDLE, and good; START of a partition that is
STOPPING, of none, of one that is not CONFIGURED, and good; STOP in each state; a drain that is settled, with and without a reset. -/
theorem witness_Partitions :
    (∀ x ∈ [(config1 0, PartState.configured), (config1 0x80, .configured), (config1 1 1 48, .configured), (config1 1, .configured),
        (config1 1, .free)],
      let s := partAt x.2 [x.1]
      AtTurn s 4 0x38 x.1 ∧ startsNow s x.1 = true ∧ hostReach s x.1.fn = true ∧ x.1.codes = []) ∧
    (cfFieldsOk (partAt .configured []) (config1 0) = false ∧ cfFieldsOk (partAt .configured []) (config1 0x80) = true ∧
      cfRelease (config1 0x80) = true ∧ cfFieldsOk (partAt .configured []) (config1 1 1 48) = true ∧ cfRelease (config1 1 1 48) = false ∧
      cfBoundsOk (partAt .configured []) (config1 1 1 48) = false) ∧
    (let d := config1 1
     let s := partAt .configured [d]
     let u := { s with rings := [(1, { state := .running })] }
     cfFieldsOk s d = true ∧ cfRelease d = false ∧ cfBoundsOk s d = true ∧ cfRingsIdle s d = true ∧ cfRingsIdle u d = false ∧ cfFieldsOk u d = true ∧
     cfBoundsOk u d = true ∧
     (let es := (List.range (cfCount d)).map fun i => sliceB groupEntry (32 * i) 32
      es.all groupFieldsOk = true ∧ groupsOk (rectsAt d.bytes 28 (cfNrect d)) (es.map groupOf) = true)) ∧
    (∀ st ∈ [PartState.free, .configured, .started, .stopping], ∀ op ∈ [0x39, 0x3A], let d := pf0 (descOf op 0 [1])
      let s := partAt st [d]
      AtTurn s 4 op d ∧ startsNow s d = true ∧ d.at 16 1 = 1 ∧ d.at 16 1 ∈ partNums ∧ zeroAt d.bytes [(17, 47)] = true ∧ d.codes = [] ∧
      (getPart s 1).st = st ∧ startCheck s 1 = (if st = .configured then none else some .descMalformed)) ∧
    (let d := pf0 (descOf 0x39 0 [9])
     let s := partAt .configured [d]
     AtTurn s 4 0x39 d ∧ startsNow s d = true ∧ d.at 16 1 ∉ partNums ∧ (getPart s (d.at 16 1)).st ≠ .stopping) ∧
    (∀ r ∈ [false, true], let q : Drain := { status := .partStopped, since := 0, reset := r, auto := false }
      let d := pf0 (descOf 0x3A 0 [1] .started)
      let s := { partAt .stopping [d] with parts := [(1, { part1 with st := .stopping, drain := some q })] }
      (getPart s 1).drain = some q ∧ (getPart s 1).st = .stopping ∧ drainSettled s 1 = true ∧ bitOf (regN s bPrt) 8 = false ∧
      findDesc s 4 = some d ∧ d.opcode = 0x3A ∧ d.at 16 1 = 1 ∧ d.phase = .started ∧ d.codes = []) := by
  simp only [atTurn_iff]; repeat' apply And.intro
  all_goals decide +kernel

/-- Resets: the key and another one, for partition 1 started and configured; a drain at 100 ms; the watchdog; a warm reset at its end and at
10 s, with FREF and without; a power cycle that has not come. -/
theorem witness_Resets :
    HostOpen (partAt .started []) 0 ∧ (partAt .started []).fer.trip = none ∧ (getPart (partAt .started []) 1).st = .started ∧
    (getPart (partAt .configured []) 1).st = .configured ∧ bitOf (regN (partAt .configured []) bPrt) 8 = false ∧
    (∀ n ∈ partNums, (getPart State.reset n).st = .free) ∧
    (∀ k ∈ [0xA5, 0x5A], ∀ c ∈ [1, 0x100, 0x200], let v : Word := BitVec.ofNat 32 (0x1000000 * k + c)
      (bitsOf v.toNat 24 8 = 0xA5 ↔ k = 0xA5) ∧ bitsOf v.toNat 8 2 = c / 256 ∧ (bitOf v.toNat 9 = true ↔ c = 0x200) ∧ bitOf v.toNat 0 = (c == 1)) ∧
    (let q : Drain := { status := .partStopped, since := 0, reset := false, auto := false }
     let s := { partAt .stopping [] with parts := [(1, { part1 with st := .stopping, drain := some q })] }
     (getPart s 1).drain = some q ∧ (getPart s 1).st = .stopping ∧ q.since + 100000000 ≤ s.clock + 100000000 ∧ s.rst = none ∧ s.fer.trip = none ∧
     s.sec.held = false ∧ s.fer.power ≠ .standby) ∧
    (∀ b ∈ [true, false], let r : Reset := { cold := false, since := 0, waitFref := false }
      let s := { State.reset with rst := some r, brd := { State.reset.brd with fref := b } }
      s.rst = some r ∧ r.cold = false ∧ resetBarred s = false ∧ s.sec.held = false ∧ s.brd.fref = b ∧ s.fer.powerQ = [] ∧
      16 ≤ (activeStacks s).length ∧ (∀ k ∈ activeStacks s, (getStack s k).failed = false ∧ (getStack s k).st ≠ .retirePending) ∧
      r.waitFref = false ∧ r.since + 10000000000 ≤ s.clock + 10000000000) ∧
    (let s := { State.reset with brd := { State.reset.brd with pwrcyc := true }, fer := { State.reset.fer with pwrcycSince := some 0 } }
     s.fer.pwrcycSince = some 0 ∧ s.brd.pwrcyc = true ∧ s.fer.pwrcycReport + 60000000000 ≤ s.clock + 60000000000) := by
  repeat' apply And.intro
  all_goals decide +kernel

/-! ## Ferryman -/

/-- The device with Ferryman in a state. -/
def ferAt (f : Ferry) : State := { State.reset with fer := f }

/-- FerrymanLoops, temperatures: a mean of 103 °C at a sensor that had not reached it; the third reading of 110 °C; a stack at 105 °C; a trip after
10 cool seconds; a hot and a cool junction at the thermal loop's step. -/
theorem witness_FerrymanLoops :
    fmnRuns State.reset = true ∧
    (∀ x ∈ [103, 109], let f := State.reset.fer
      [x][0]? = some x ∧ (f.sensors.get {} 0).over103 = false ∧
      (let l := (x :: (f.sensors.get {} 0).samples).take 8
       103 * l.length ≤ l.sum) ∧ ∀ y ∈ [x], y < 110) ∧
    (let f := { State.reset.fer with sensors := [(75, { hotRun := 2 })] }
     (List.replicate 76 110)[75]? = some 110 ∧ 2 ≤ (f.sensors.get {} 75).hotRun ∧ f.trip = none ∧ f.power ≠ .standby ∧ fmnRuns (ferAt f) = true) ∧
    ((List.replicate 20 105)[19]? = some 105 ∧ (getStack State.reset 19).st ≠ .retired) ∧
    (let r : Trip := { kind := 0, coolSince := some 0, cold := false }
     let f := { State.reset.fer with trip := some r }
     f.trip = some r ∧ r.coolSince = some 0 ∧ 0 + 10000000000 ≤ (ferAt f).clock + 10000000000 ∧ f.power ≠ .standby ∧ fmnRuns (ferAt f) = true) ∧
    (∀ h ∈ [true, false], let f := { State.reset.fer with sensors := if h then [(0, { over95 := true })] else [], thermal := 700 }
      criticalJunction (ferAt f) = false ∧ hotJunction (ferAt f) = h ∧ f.thermalAt + 10000000 ≤ (ferAt f).clock + 10000000 ∧ 650 < f.thermal ∧
      f.thermal < 1300 ∧ fmnRuns (ferAt f) = true) := by
  repeat' apply And.intro
  all_goals decide +kernel

/-- FerrymanLoops, supplies and power: VIN in range, below it for 1 ms, below 9.5 V, again in range; VAUX low for 1 ms; a mean over the limit for the
7th, 8th and 10th time; the recovery steps of the slow and the fast loop. -/
theorem witness_FerrymanLoops_supplies :
    vinOk 10800 = true ∧ vinOk 10799 = false ∧ 12000 * 300000 ≤ 3600000000 ∧ 3600000000 < 12000 * 300001 ∧
    (let f := { State.reset.fer with vinOutSince := some 0, vinInSince := some 0, vauxOutSince := some 0 }
     f.vinOutSince = some 0 ∧ 0 + 1000000 ≤ (ferAt f).clock + 1000000 ∧ f.vinHeld = false ∧ f.power ≠ .standby ∧ (ferAt f).brd.vinOn = true ∧
     f.vauxOutSince = some 0 ∧ f.vauxTold = false ∧ fmnRuns (ferAt f) = true) ∧
    (∀ b ∈ [true, false], let f := { State.reset.fer with vinInSince := some 0, vinHeld := b, vinDead := !b }
      f.vinInSince = some 0 ∧ (f.vinHeld = true ↔ b = true) ∧ (f.vinDead = true ↔ b = false) ∧ 0 + 100000000 ≤ (ferAt f).clock + 100000000 ∧
      f.power ≠ .standby ∧ f.trip = none ∧ fmnRuns (ferAt f) = true) ∧
    (∀ n ∈ [6, 7, 9], let f := { State.reset.fer with n1ms := 1, sum1ms := 3300000001, overRun := n }
      f.n1ms ≠ 0 ∧ powerLimit (pass 0 (ferAt f)) * 1000000 * f.n1ms < f.sum1ms ∧ f.cutFrom = none ∧ f.overRun = n ∧ fmnRuns (ferAt f) = true) ∧
    (let f := { State.reset.fer with slow := 700, fast := 650, watts := 3234000000 }
     f.slow < 1300 ∧ f.cutFrom = none ∧ f.slowAt + 10000000 ≤ (ferAt f).clock + 10000000 ∧ f.fast < 1300 ∧ f.fastAt + 100000 ≤ (ferAt f).clock + 100000 ∧
     100 * f.watts ≤ 98 * (powerLimit (pass 0 (ferAt f)) * 1000000) ∧ fmnRuns (ferAt f) = true) ∧
    (let f := { State.reset.fer with raiseTo := 1300, marginOk := List.range 64 }
     f.raiseTo ≠ 0 ∧ (∀ d < 64, d ∈ f.marginOk) ∧ fmnRuns (ferAt f) = true ∧ f.power = .active ∧ f.lowMargin = []) := by
  repeat' apply And.intro
  all_goals decide +kernel

/-- FerrymanLoops, regulators: the domain of core 0 has an owned core, and a site that is not marked. -/
theorem witness_FerrymanLoops_domain : domainSites (partAt .started []) 0 ≠ [] ∧ domainSites (partAt .started []) 1 = [] := by decide +kernel

/-- PowerStates: PF0 and VF1; a request in flight and none; a partition started and none; each change of state at its end; a wake; VIN
that has not come for 10 s. -/
theorem witness_PowerStates :
    (∀ x ∈ [(partAt .started [], true), (partAt .configured [], false)],
      HostOpen x.1 0 ∧ HostOpen x.1 1 ∧ x.1.fer.powerQ = [] ∧ powerWaits x.1 = false ∧ x.1.fer.power = .active ∧
      ((∃ n ∈ partNums, isStarted x.1 n = true) ↔ x.2 = true) ∧ ((∀ n ∈ partNums, isStarted x.1 n = false) ↔ x.2 = false)) ∧
    (let f := { State.reset.fer with entering := some { want := .deep, source := 0 } }
     HostOpen (ferAt f) 0 ∧ powerWaits (ferAt f) = true ∧ f.powerQ = []) ∧
    (∀ p ∈ [Power.deep, .standby], let s := ferAt { State.reset.fer with power := p }
      fmnRuns s = true ∧ s.brd.brdRstN = true ∧ powerWaits s = false ∧ s.fer.powerQ = [] ∧ s.fer.power = p ∧ (p = .deep → HostOpen s 0)) ∧
    (∀ w ∈ [Power.deep, .active, .standby], ∀ p ∈ [Power.deep, .standby], let r : PowerReq := { want := w, source := 0 }
      let s := { ferAt { State.reset.fer with entering := some r, power := p } with brd := { State.reset.brd with pwrReq := false } }
      s.fer.entering = some r ∧ s.fer.powerQ = [] ∧ r.want = w ∧ s.fer.power = p ∧ s.fer.fuseQ = [] ∧ s.fer.fuseNow = none ∧ s.brd.pwrReq = false) ∧
    (let f := { State.reset.fer with entering := some { want := .standby, source := 0 }, fuseQ := [{ cls := 4, what := 0 }] }
     f.entering = some { want := .standby, source := 0 } ∧ f.powerQ = [] ∧ f.fuseQ ≠ []) ∧
    (let s := ferAt { State.reset.fer with pwrReqSince := some 0 }
     s.fer.pwrReqSince = some 0 ∧ s.fer.pwrReqReport + 10000000000 ≤ s.clock + 10000000000 ∧ s.brd.pwrlimN = true) := by
  repeat' apply And.intro
  all_goals decide +kernel

/-- The device with its board in a state. -/
def brdAt (b : Board) (f : Ferry := {}) (r : Option Reset := none) : State := { State.reset with brd := b, fer := f, rst := r }

/-- BoardEvents: VAUX off; VIN awaited in STANDBY; BRD_RST_N high, low for 1 ms and for less, in STANDBY and out of it; FREF present, and
absent in a reset of each kind that waits for it. -/
theorem witness_BoardEvents :
    (brdAt { vauxOn := false }).brd.vauxOn = false ∧
    (let s := brdAt {} { power := .standby, pwrReqSince := some 0 }
     s.brd.vauxOn = true ∧ s.brd.pwrReq = true ∧ s.brd.brdRstN = true ∧ s.fer.pwrReqSince.isSome = true ∧ s.fer.power = .standby ∧
     s.fer.moduleReplace = false ∧ ∀ e ∈ s.mem.hbmStacks, e.2.failed = false ∧ e.2.st = .active) ∧
    State.reset.brd.brdRstN = true ∧
    (∀ p ∈ [Power.active, .standby], let s := brdAt { brdRstN := false } { power := p }
      s.brd.brdRstN = false ∧ s.brd.vauxOn = true ∧ s.brd.brdLowSince + 1000000 ≤ s.clock + 1000000 ∧ s.clock + 999999 < s.brd.brdLowSince + 1000000 ∧
      s.fer.power = p ∧ s.fer.trip = none ∧ s.brd.fref = true ∧ s.rst = none ∧ s.sec.held = false) ∧
    (brdAt { fref := false }).brd.fref = false ∧ (brdAt { fref := false }).rst = none ∧
    (∀ c ∈ [true, false], let r : Reset := { cold := c, since := 0, waitFref := true }
      let s := brdAt { fref := false } {} (some r)
      s.brd.fref = false ∧ s.rst = some r ∧ r.waitFref = true ∧ r.cold = c ∧ resetBarred s = false ∧ (brdAt {} {} (some r)).rst.isSome = true) := by
  repeat' apply And.intro
  all_goals decide +kernel

/-- A SET_NET body: address, port and collectors zero. -/
def netBody : Bytes := [10, 0, 0, 1, 24, 3] ++ zeros 154

/-- FerrymanCommands: a partition started and none; numbers of records and of slots at their bounds; a body of SET_NET; a device
without Ferryman. -/
theorem witness_FerrymanCommands :
    (∀ x ∈ [(partAt .started [], true), (partAt .configured [], false)],
      fmnRuns x.1 = true ∧ ((∃ n ∈ partNums, isStarted x.1 n = true) ↔ x.2 = true) ∧ powerWaits x.1 = false ∧ x.1.fer.powerQ = [] ∧
      x.1.fer.power = .active ∧ (∀ n ∈ partNums, (getPart x.1 n).st ≠ .stopping) ∧ x.1.rst = none ∧ x.1.fer.trip = none ∧ HostOpen x.1 0 ∧
      ∀ c ∈ x.1.fer.net.collectors, c.2 ≠ []) ∧
    (getPart (partAt .started []) 1).st = .started ∧ (1 : Nat) ≤ 40 ∧ (0 : Nat) ≤ 4095 ∧ (65535 : Nat) < 65536 ∧ (zeros 15).length ≠ 16 ∧
    (netBody.length = 160 ∧ leAt netBody 4 1 ≤ 32 ∧ leAt netBody 5 1 < 4 ∧ zeroAt netBody [(12, 4), (33, 15)] = true ∧ leAt netBody 32 1 ≤ 128 ∧
      (∀ o ∈ [64, 88, 112, 136], leAt netBody o 1 = 0 ∨ leAt netBody o 1 = 4 ∨ leAt netBody o 1 = 6) ∧
      ∀ o ∈ [64, 88, 112, 136], zeroAt netBody [(o + 1, 3), (o + 20, 4)] = true ∧ (leAt netBody o 1 = 4 → zeroAt netBody [(o + 8, 12)] = true)) ∧
    fmnRuns (brdAt { vauxOn := false }) = false := by
  repeat' apply And.intro
  all_goals decide +kernel

/-- The newest event. -/
def event1 : Event :=
  { seq := 1, time := 0, kind := 0x13, status := 0, step := 0, part := 0, attempt := 0, core := 0, site := 0, layer := 0, detail := 0 }

/-- Ferryman with the management network in use: one collector, an own IPv4 address, an unsent event; so much of its registers. -/
def netAt (fmn : Word) : State :=
  setReg bFmn fmn { brdAt { straps := 0x20 } { net := { collectors := [(4, [10, 0, 0, 9])], ipv4 := [10, 0, 0, 1], ipv4Prefix := 24, ipv4Valid := true }
                                               events := [event1], evSeq := 2 } with
    regs := (setReg bGzl 0x1FF State.reset).regs }

/-- ManagementTraffic: events to report, a heartbeat that is due, a second that is over; the own addresses; a slot to be written, one to be
activated; PTP steering; a repair, a counter and a key to be blown, with VIN in range and out of it, the record full; a write at its end. -/
theorem witness_ManagementTraffic :
    (let s := netAt 3
     reportsOn s = true ∧ bitOf (regN s bFmn) 0 = true ∧ bitOf (regN s bFmn) 1 = true ∧ s.fer.perKind = [] ∧ unsent s = [event1] ∧ fmnRuns s = true ∧
     s.fer.secondAt + 1000000000 ≤ s.clock + 1000000000 ∧ s.fer.heartbeatAt + heartbeatNs s ≤ s.clock + 1000000000 ∧
     nextHop s.fer.net 4 [10, 0, 0, 9] = some [10, 0, 0, 9] ∧ ownV4 s [10, 0, 0, 1] = true ∧ ownV6 s linkLocal = true ∧ s.brd.vauxOn = true ∧
     s.sec.slots.get 0 2 ≤ 1 ∧ ptpSteers s = true) ∧
    ((ferAt { updates := [(2, { verified := true })] }).fer.updates.get {} 2).verified = true ∧
    (let s := { netAt 3 with fer := { (netAt 3).fer with ptpAt := some 0 } }
     ptpSteers s = true ∧ s.fer.ptpAt.isSome = true ∧ s.fer.ptpAt = some 0 ∧ 0 + 3000000000 ≤ s.clock + 3000000000 ∧ fmnRuns s = true) ∧
    (∀ c ∈ [4, 7, 8], ∀ v ∈ [12000, 9000], let r : Repair := { cls := c, what := 0 }
      let s := ferAt { fuseQ := [r], vin := v }
      fmnRuns s = true ∧ s.fer.fuseNow = none ∧ s.fer.fuseQ = [r] ∧ (inRecord r = true ↔ c = 4) ∧ s.fer.fuses.length < 1024 ∧
      (fuseable s = true ↔ v = 12000) ∧ r.deferred = false) ∧
    (let r : Repair := { cls := 4, what := 0 }
     let f : Ferry := { fuseQ := [r], fuses := List.replicate 1024 r }
     f.fuseQ = [r] ∧ f.fuseNow = none ∧ inRecord r = true ∧ 1024 ≤ f.fuses.length) ∧
    (let r : Repair := { cls := 4, what := 0, deferred := true }
     let s := ferAt { fuseQ := [r], vin := 9000 }
     s.fer.fuseQ = [r] ∧ fuseable s = false ∧ r.deferred = true ∧ s.fer.fuses.length < 1024) ∧
    (∀ again ∈ [true, false], ∀ c ∈ [4, 7, 8], let r : Repair := { cls := c, what := 0 }
      let s := ferAt { fuseNow := some (r, again) }
      s.fer.fuseNow = some (r, again) ∧ s.fer.fuseAt + 2000000 ≤ s.clock + 2000000 ∧ r.cls = c ∧ (inRecord r = true ↔ c = 4)) := by
  repeat' apply And.intro
  all_goals first | exact (by simp [ownV6] : ownV6 (netAt 3) linkLocal = true) | decide +kernel

/-- The device with its security block in a state. -/
def secAt (y : Sec) : State := { State.reset with sec := y }

/-- SecurityCommands: a function at each stage of SPDM, with a response of its own waiting and none; the last slot; no session, one not open and
one open; a stream of its own, of another function and of none; a signature at its end with responses behind it; a partition started,
one that stops and none; the fuse blown. -/
theorem witness_SecurityCommands :
    (∀ fn ∈ [0, 8], ∀ g ∈ [0, 1, 2, 3], ∀ b ∈ [false, true],
      let s := secAt { spdm := if g = 0 then [] else [(fn, g)], signQ := if b then [{ fn := fn, slot := some 1, msg := [] }] else [] }
      barOpen s = true ∧ fn ≤ 8 ∧ ((∃ q ∈ s.sec.signQ, q.fn = fn) ↔ b = true) ∧ spdmStage s fn = g ∧ s.sec.chunkSeq.get 0 fn = 0 ∧
      findSession s fn 1 = none) ∧
    leAt (zeros 4) 3 1 % 16 < 2 ∧
    (∀ o ∈ [false, true], ∀ fn ∈ [0, 1], let x : Session := { fn := 1, num := 1, key := [1], opened := o }
      let s := secAt { sessions := [x], ide := [{ fn := fn, stream := 0, session := 1, key := [1], secure := false }] }
      barOpen s = true ∧ s.sec.signQ = [] ∧ findSession s 1 1 = some x ∧ x.fn = 1 ∧ x.num = 1 ∧ (∀ y ∈ s.sec.sessions, y = x) ∧ x.opened = o ∧
      s.sec.ide.find? (fun i => i.stream == 1) = none ∧ s.sec.ide.length < 8 ∧ (s.sec.ide.find? (fun i => i.stream == 0)).isSome ∧ ((∃ i ∈ s.sec.ide, i.stream = 0 ∧ i.fn = 1) ↔ fn = 1) ∧
      ((∀ i ∈ s.sec.ide, i.stream = 0 → i.fn ≠ 1) ↔ fn = 0)) ∧
    (let q : SignReq := { fn := 1, slot := some 1, msg := [1] }
     let rest : List SignReq := [{ fn := 1, slot := none, msg := [2] }, { fn := 2, slot := some 0, msg := [] }, { fn := 2, slot := none, msg := [] }]
     (secAt { signQ := q :: rest }).sec.signQ = q :: rest ∧ q.slot = some 1) ∧
    HostOpen (partAt .started []) 0 ∧ (∀ st ∈ [PartState.started, .stopping], ∃ n ∈ partNums, (getPart (partAt st []) n).st = st) ∧ (secAt { debugDisable := true }).sec.debugDisable = true ∧
    (∀ n ∈ partNums, (getPart State.reset n).st = .free) ∧ State.reset.sec.debugDisable = false ∧ State.reset.fer.trip = none ∧
    HostOpen State.reset 0 ∧ resetBarred State.reset = false ∧ State.reset.brd.fref = true := by
  repeat' apply And.intro
  all_goals decide +kernel

/-! ## The invariants -/

/-- SoundAtReset holds, and SoundKept and ForwardKept: a sound state with a command at the front that a step carries out. -/
theorem witness_SoundKept_ForwardKept :
    let s := { outStep idle1 with pending := [.pwrlimNFall] }
    Sound s ∧ ∃ t, step s = .next t ∧ t ≠ s :=
  ⟨⟨by decide +kernel, by decide +kernel, by decide +kernel, by decide +kernel⟩, _, rfl, by decide +kernel⟩

/-! ## Commands that name nothing -/

/-- A packet whose destination is out of its width. -/
def badPacket : Packet := { pkt 0x02 0 0 0 [] with dst := 65536 }

/-- One ill-formed term for each check of `Instr.wf`: functions, cores, engines, arrays, windows of BAR0. -/
theorem test_wf_refuses_core :
    ([.bar0UnsupportedAccess 9 0 4 false, .bar0UnsupportedAccess 0 0x1000000 1 false, .bar0UnsupportedAccess 0 0 0 true, .registerWrite 9 0 4 0,
      .registerWrite 0 0x1000000 4 0, .registerWrite 0 0 2 0, .registerWrite 0 4 8 0, .latchedRead 9 ⟨0, 4⟩, .latchedRead 0 ⟨2, 4⟩, .latchedRead 0 ⟨4, 8⟩, .latchedRead 0 ⟨0, 2⟩, .latchedRead 0 ⟨0x1000000, 4⟩,
      .sop 48, .mma (64 * 48), .engineStart 0 0 .clean, .engineCompletion 0 6, .engineStart 48 1 .clean, .checkLaneDisagree 0 2 ⟨false, 0, 0, 0, 0, 0⟩ [] 0,
      .checkLaneVote 48 0 [], .maChkClear 9 0 0, .maChkClear 0 0 2, .injArrayMa0 9 0, .coreFaultClear 0 48] : List Instr).all
      (fun c => !c.wf) = true := by decide +kernel

/-- Rings, partitions, sites, memory requests, stacks. -/
theorem test_wf_refuses_host :
    ([.descriptorFetch 0 256 [], .descriptorFetch 0 0 (zeros 63), .coalesceTimeout 0 256, .ringDrained 256, .ringEnable 9 0, .ringDisable 0 256,
      .doorbellSqTail 9 0 4 0, .doorbellCqHead 0 256 4 0, .stepCommitted 0 0, .governorRecord 9, .bufferFilled 0 0, .bufferFilled 1 4,
      .govTWrite 9 1 false 0, .rpcInval 0 0, .siteCheckDone 0 2400 true .pass, .coreTestStart 2400, .coreTestDone 0 2400 .pass,
      .memoryRead ⟨9, 0, 0, 0⟩ 1 .none, .memoryRead ⟨0, 0, 0, 0⟩ 0 .none, .memoryWrite ⟨0, 0, 0, 0⟩ [], .memoryAdd ⟨0, 0, 0, 0⟩ true (zeros 132) .agree,
      .stackFailure 20, .hbmRefresh 0 20, .scrub 0 20 .none] : List Instr).all (fun c => !c.wf) = true := by decide +kernel

/-- Ports, packets, sequences, pipes, the BAR4 window, Ferryman's samples and the functions of the last commands. -/
theorem test_wf_refuses_fabric :
    ([.laneFailed 8 0, .laneFailed 0 17, .lane 0 0 32 0 0, .lane 0 0 0 32 0, .portUp 8, .readPacket 8 (pkt 1 1 0 0 []), .writePacket 0 badPacket,
      .replayNotice 0 badPacket, .ackTimeout 0 0xFFFF 0 0, .cumulativeAck 0 0 8 0, .ackTimeout 0 0 0 8, .heldReplyTimeout 0 0 0 0 16777216,
      .destinationRetry 0 0xFFFF, .sampleDone 64, .pipeTestDone 0 64 true, .flrVf 0, .flrVf 9, .bar4Read 9 0 1, .bar4Read 0 0 0, .bar4Write 0 0 [],
      .portEnWrite 9 0, .dbgGo 9, .junctionSample 0 (List.replicate 257 0), .stackTempSample 0 (List.replicate 21 0), .regulatorAdjust 0 64 0,
      .pldmFirmwareUpdate 8 true [], .fwActivate 8, .getVersion 9 [], .kSetGo 9 0 0] : List Instr).all (fun c => !c.wf) = true := by decide +kernel

/-- The last number of each kind is accepted. -/
theorem test_wf_accepts :
    ([.registerWrite 8 0xFFFFF8 8 0, .latchedRead 8 ⟨0xFFFFFC, 4⟩, .sop (64 * 47 + 47), .engineStart 0 5 .clean, .ringDrained 255, .stepCommitted 0 8,
      .bufferFilled 8 3, .coreTestStart 2399, .scrub 0 19 .none, .laneFailed 7 16, .heldReplyTimeout 0 0xFFFE 7 7 16777215, .sampleDone 63, .flrVf 8,
      .regulatorAdjust 0 63 0, .fwActivate 2] : List Instr).all Instr.wf = true := by decide

/-! ## Examples of the spec -/

/-- R380's example: the low 48 bits of time read 0xFFFFFFFFF000, a deadline 0x1000; it lies ahead. -/
theorem test_deadline_wraps :
    timeReached 0xFFFFFFFFF000 0x000000001000 = false ∧ timeReached 0x000000001000 0xFFFFFFFFF000 = true ∧ timeReached 5 5 = true := by decide

/-- R292's example: address 0x01000A00 with 20 active stacks, and with S13 retired. -/
theorem test_address_map :
    place State.reset 0x01000A00 = (5, 838912, 8) ∧
    (let p := place { State.reset with mem := { hbmStacks := [(13, { st := .retired })] } } 0x01000A00
     p.1 = 9 ∧ p.2.1 = 882944) := by decide +kernel

/-- R313's example: 19 active stacks leave 1,824 GiB, of which the partition space is 1,823 GiB. -/
theorem test_capacity :
    let s := { State.reset with mem := { hbmStacks := [(13, { st := .retired })] } }
    capacity s = 1824 * gib ∧ partSpace s = 1823 * gib := by decide +kernel

/-- R370's example: granules 16 to 19 of a store to node 0x0213 fall in flows 1, 0, 3 and 2. -/
theorem test_flows : [0x1000, 0x1100, 0x1200, 0x1300].map (fun a => flowOf a 0x0213) = [1, 0, 3, 2] := by decide

/-- The rounding example of R49 and R50: 5.2, 5.0, −2.5, 0.4 and 0.06 in E2M1 (codes 7, 7, D, 1, 0) and E3M0 (6, 6, D, 3, 0). -/
theorem test_rounding :
    ([(false, 52, 10), (false, 5, 1), (true, 5, 2), (false, 4, 10), (false, 6, 100)].map
      fun x => ((writeFrac fE2M1 false x.1 x.2.1 x.2.2 0).code, (writeFrac fE3M0 false x.1 x.2.1 x.2.2 0).code)) =
      [(7, 6), (7, 6), (0xD, 0xD), (1, 3), (0, 0)] := by decide

/-- R501's example: the 8th mean of 3,450 W above 3,300 W lowers the clock from 1,300 to 1,250 MHz; the next, 3,330 W, to 1,200 MHz. -/
theorem test_power_example :
    (match exec (.powerMean1ms 0) (ferAt { n1ms := 1, sum1ms := 3450000000, overRun := 7 }) with
     | .next t => t.fer.mhz == 1250 && t.fer.overRun == 8
     | _ => false) = true ∧
    (match exec (.powerMean1ms 0) (ferAt { n1ms := 1, sum1ms := 3330000000, overRun := 8, slow := 1250, mhz := 1250 }) with
     | .next t => t.fer.mhz == 1200
     | _ => false) = true := by decide +kernel

/-- R142's example: the inner LOOP latches the count 3 of s5; when its body has set s5 to 1, ENDLOOP still goes on to the second iteration. -/
theorem test_loop_latches :
    (match exec (.loop 0) (inStep (coreAt (ins 0x10 1 5 0 0) [(5, 3)])) with
     | .next t => (getCore t 0).loops == [⟨1, 3, 0⟩] && (getCore t 0).pc == 1
     | _ => false) = true ∧
    (let k := coreAt (ins 0x11 1 0 0 0) [(5, 1)]
     match exec (.endloop 0) (inStep { k with loops := [⟨0, 3, 0⟩] }) with
     | .next t => (getCore t 0).loops == [⟨0, 3, 1⟩] && (getCore t 0).pc == 0
     | _ => false) = true := by decide +kernel

end Sys2Proof.Tests
end

section
/-!
PROOFS. Accesses to BAR0 (R6, R7): the registers that a write reaches and how it changes them, what a read returns and what it
latches, and from these the statement about a host's accesses to registers.
-/
namespace Sys2Proof.Machine

/-! ## Accesses that arrive -/

theorem bar0Open_iff (s : State) (fn : Nat) : bar0Open s fn = true ↔ barOpen s = true ∧ fn ≤ 8 := by simp [bar0Open]

@[simp] theorem hostReach_barAccess (s : State) (fn : Nat) : hostReach (barAccess s) fn = hostReach s fn := rfl
@[simp] theorem diesDark_barAccess (s : State) : diesDark (barAccess s) = diesDark s := rfl
@[simp] theorem reg_barAccess (s : State) (k : Nat) : reg (barAccess s) k = reg s k := rfl
@[simp] theorem getPart_barAccess (s : State) (n : Nat) : getPart (barAccess s) n = getPart s n := rfl
@[simp] theorem getRing_barAccess (s : State) (r : Nat) : getRing (barAccess s) r = getRing s r := rfl
@[simp] theorem ringOwner_barAccess (s : State) (r : Nat) : ringOwner (barAccess s) r = ringOwner s r := rfl

section
variable {s : State} {fn : Nat}

theorem exec_bar0UnsupportedAccess {off width : Nat} (write : Bool) (ho : barOpen s = true) (hf : fn ≤ 8)
    (hw : ¬((width = 4 ∨ width = 8) ∧ off % width = 0)) :
    exec (.bar0UnsupportedAccess fn off width write) s = .next (emit (.unsupported fn) (barAccess s)) := by
  have hopen := (bar0Open_iff s fn).mpr ⟨ho, hf⟩
  have hbad : ((width == 4 || width == 8) && off % width == 0) = false := by simpa using hw
  show execBar0UnsupportedAccess fn off width write s = _
  simp [execBar0UnsupportedAccess, hopen, hbad]

theorem exec_registerWrite (h : HostOpen s fn) (off width : Nat) (v : DWord) : exec (.registerWrite fn off width v) s =
    .next (if width = 8 then writeReg fn (off + 4) (wordOf v.toNat 1) (writeReg fn off (wordOf v.toNat 0) (barAccess s))
      else writeReg fn off (wordOf v.toNat 0) (barAccess s)) := by
  obtain ⟨ho, hf, hr⟩ := h
  have hopen := (bar0Open_iff s fn).mpr ⟨ho, hf⟩
  show execRegisterWrite fn off width v s = _
  simp [execRegisterWrite, hopen, hr]

theorem exec_latchedRead (h : HostOpen s fn) (off width : Nat) : exec (.latchedRead fn ⟨off, width⟩) s =
    .next (let r := readWord fn off (barAccess s)
      if width = 8 then
        emit (.readReply fn (leBytes 4 r.1 ++ leBytes 4 (readWord fn (off + 4) r.2).1)) (readWord fn (off + 4) r.2).2
      else emit (.readReply fn (leBytes 4 r.1)) r.2) := by
  obtain ⟨ho, hf, hr⟩ := h
  have hopen := (bar0Open_iff s fn).mpr ⟨ho, hf⟩
  show execLatchedRead fn ⟨off, width⟩ s = _
  simp only [execLatchedRead, hopen, hostReach_barAccess, hr, if_true]
  split <;> rfl

end

/-! ## Words -/

@[simp] theorem ofNat_wordOf_zero (v : DWord) : BitVec.ofNat 32 (wordOf v.toNat 0) = v.setWidth 32 := by
  apply BitVec.eq_of_toNat_eq; simp [wordOf]

@[simp] theorem ofNat_wordOf_one (v : DWord) : BitVec.ofNat 32 (wordOf v.toNat 1) = (v >>> 32).setWidth 32 := by
  apply BitVec.eq_of_toNat_eq; simp [wordOf, Nat.shiftRight_eq_div_pow]

/-- The low half of a 64-bit value replaced by the low half of another. -/
theorem ofNat_setBits_low (x v : DWord) :
    BitVec.ofNat 64 (setBits x.toNat 0 32 (wordOf v.toNat 0)) = (x >>> 32) <<< 32 ||| v &&& 0xFFFFFFFF := by
  have hset : setBits x.toNat 0 32 (wordOf v.toNat 0) = x.toNat / 2 ^ 32 * 2 ^ 32 + v.toNat % 2 ^ 32 := by
    simp only [setBits, bitsOf, wordOf, Nat.mul_zero, Nat.pow_zero, Nat.div_one, Nat.mul_one]
    omega
  have hmask : v.toNat &&& (0xFFFFFFFF : DWord).toNat = v.toNat % 2 ^ 32 := Nat.and_two_pow_sub_one_eq_mod v.toNat 32
  have hlow : v.toNat % 2 ^ 32 < 2 ^ 32 := Nat.mod_lt _ (Nat.two_pow_pos 32)
  have hfit : x.toNat / 2 ^ 32 * 2 ^ 32 < 2 ^ 64 := Nat.lt_of_le_of_lt (Nat.div_mul_le_self _ _) x.isLt
  have hval : ((x >>> 32) <<< 32 ||| v &&& 0xFFFFFFFF).toNat = x.toNat / 2 ^ 32 * 2 ^ 32 + v.toNat % 2 ^ 32 := by
    rw [BitVec.toNat_or, BitVec.toNat_shiftLeft, BitVec.toNat_ushiftRight, BitVec.toNat_and, hmask, Nat.shiftRight_eq_div_pow,
      Nat.shiftLeft_eq, Nat.mod_eq_of_lt hfit, ← Nat.shiftLeft_eq, Nat.shiftLeft_add_eq_or_of_lt hlow]
  rw [hset, ← hval, BitVec.ofNat_toNat, BitVec.setWidth_eq]

/-- The bytes of a number are those of its remainder. -/
theorem leBytes_mod (n x : Nat) : leBytes n (x % 256 ^ n) = leBytes n x := by
  induction n generalizing x with
  | zero => rfl
  | succ n ih =>
    have hbyte : BitVec.ofNat 8 (x % 256 ^ (n + 1)) = BitVec.ofNat 8 x := by
      apply BitVec.eq_of_toNat_eq
      rw [BitVec.toNat_ofNat, BitVec.toNat_ofNat, Nat.pow_succ', Nat.mod_mul_right_mod]
    have hrest : x % 256 ^ (n + 1) / 256 = x / 256 % 256 ^ n := by
      rw [Nat.pow_succ', Nat.mod_mul_right_div_self]
    rw [leBytes, leBytes, hbyte, hrest, ih]

theorem leBytes_word (x : Nat) : leBytes 4 (x % 2 ^ 32) = leBytes 4 x := leBytes_mod 4 x

/-! ## The register that a write reaches -/

/-- The context block at `b` holds a BAR0 offset. -/
def ctxBlockHolds (off b : Nat) : Bool := decide (b ≤ off) && decide (off < b + 0x200)

theorem ctxOf_eq_find (off : Nat) :
    ctxOf off = (ctxBases.find? (ctxBlockHolds off)).map fun b => (b, (off - b) / 0x40 + 1, (off - b) % 0x40) := rfl

/-- A register of a partition's context lies in its block, at its partition and offset (R563). -/
theorem ctxOf_ctx {base n o : Nat} (hb : base ∈ ctxBases) (hn : n ∈ partNums) (ho : o < 0x40) :
    ctxOf (ctx base n o) = some (base, n, o) := by
  have hparts : ∀ m ∈ partNums, 1 ≤ m ∧ m ≤ 8 := by decide
  have hapart : ∀ a ∈ ctxBases, ∀ b ∈ ctxBases, b = a ∨ a + 0x200 ≤ b ∨ b + 0x200 ≤ a := by decide
  obtain ⟨hn1, hn8⟩ := hparts n hn
  have hblock : ∀ b ∈ ctxBases, ctxBlockHolds (ctx base n o) b = true ↔ b = base := by
    intro b hb'
    have := hapart base hb b hb'
    rw [ctxBlockHolds, Bool.and_eq_true, decide_eq_true_eq, decide_eq_true_eq, ctx]
    omega
  obtain ⟨b, hfind⟩ := Option.isSome_iff_exists.mp (List.find?_isSome.mpr ⟨base, hb, (hblock base hb).mpr rfl⟩)
  have hbase : b = base := (hblock b (List.mem_of_find?_eq_some hfind)).mp (List.find?_some hfind)
  have hpart : (ctx base n o - base) / 0x40 + 1 = n := by unfold ctx; omega
  have hplace : (ctx base n o - base) % 0x40 = o := by unfold ctx; omega
  rw [ctxOf_eq_find, hfind, hbase, Option.map_some, hpart, hplace]

/-- A write of a context's register reaches it, where the block is lit and the function may. -/
theorem writeReg_ctx {base n o fn : Nat} (hb : base ∈ ctxBases) (hlit : bIng ≤ base) (hn : n ∈ partNums) (ho : o < 0x40)
    (hf : fn = 0 ∨ fn = n) (v : Nat) (s : State) : writeReg fn (ctx base n o) v s = writeCtx base n o v s := by
  have hend : ctx base n o < bCore ∧ bIng ≤ ctx base n o := by
    have hb' : ∀ b ∈ ctxBases, b + 0x200 ≤ bCore := by decide
    have hn' : ∀ m ∈ partNums, m ≤ 8 := by decide
    have := hb' base hb; have := hn' n hn
    unfold ctx; omega
  have hmay : mayCtx fn n = true := by simp [mayCtx, hf, hn]
  have h1 : ¬ ctx base n o < bHifDev := by unfold bHifDev; unfold bIng at hend; omega
  have h2 : ¬ bCore ≤ ctx base n o := by omega
  have h3 : ¬ ctx base n o < bIng := by omega
  simp only [writeReg, h1, h2, h3, ctxOf_ctx hb hn ho, hmay]
  simp

/-- A register of the device outside the contexts and the core windows is left alone by a VF. -/
theorem writeReg_device_vf {fn off : Nat} (hf : fn ≠ 0) (h1 : bHifDev ≤ off) (h2 : off < bCore) (hc : ctxOf off = none) (v : Nat)
    (s : State) : writeReg fn off v s = s := by
  simp [writeReg, Nat.not_lt.mpr h1, Nat.not_le.mpr h2, hc, hf]

/-- A register of a ring is written at its place in the function's own block (R473). -/
theorem writeReg_ring {r o : Nat} (hr : r < 256) (ho : o < 0x40) (fn v : Nat) (s : State) :
    writeReg fn (0x1000 + 0x40 * r + o) v s = writeRing fn r o v s := by
  have h1 : 0x1000 + 0x40 * r + o < bHifDev := by unfold bHifDev; omega
  have h2 : ¬ 0x10000 ≤ 0x1000 + 0x40 * r + o := by omega
  have h3 : ¬ 0x8000 ≤ 0x1000 + 0x40 * r + o := by omega
  have h4 : 0x1000 ≤ 0x1000 + 0x40 * r + o := by omega
  have h5 : 0x1000 + 0x40 * r + o < 0x5000 := by omega
  have h6 : (0x1000 + 0x40 * r + o - 0x1000) / 0x40 = r := by omega
  have h7 : (0x1000 + 0x40 * r + o - 0x1000) % 0x40 = o := by omega
  simp only [writeReg, writeHif, if_pos h1, if_neg h2, if_neg h3, if_pos h4, if_pos h5, h6, h7]

/-! ## What a write changes -/

@[simp] theorem putMask_all (k : Nat) (v : Word) (s : State) : putMask k 0xFFFFFFFF v s = setReg k v s := by
  have hall : (0xFFFFFFFF : Word) = BitVec.allOnes 32 := rfl
  rw [putMask, hall, BitVec.not_allOnes, BitVec.and_zero, BitVec.zero_or, BitVec.and_allOnes]

/-- PF0's scratch registers store what is written (R562). -/
theorem writeReg_scratch {off : Nat} (h : off ∈ [0x40040, 0x40044, 0x40048, 0x4004C]) (v : Nat) (s : State) :
    writeReg 0 off v s = setReg off (BitVec.ofNat 32 v) s := by
  have hplace : ∀ o ∈ [0x40040, 0x40044, 0x40048, 0x4004C], 0x40040 ≤ o ∧ o < 0x40050 ∧ ctxOf o = none := by decide
  obtain ⟨hlow, hhigh, hctx⟩ := hplace off h
  have h1 : ¬ off < bHifDev := by unfold bHifDev; omega
  have h2 : ¬ bCore ≤ off := by unfold bCore; omega
  have h3 : ¬ bMem ≤ off := by unfold bMem; omega
  rw [← putMask_all]
  simp [writeReg, h1, h2, h3, hctx, hlow, hhigh]

/-- The event bits of MEM that are written 1 clear (R320). -/
theorem writeReg_memEvents {s : State} (h : diesDark s = false) (v : Nat) :
    writeReg 0 (bMem + 0x10) v s = clearMask (bMem + 0x10) 0xFF (BitVec.ofNat 32 v) s := by
  have hctx : ctxOf 0x200010 = none := by decide
  simp [writeReg, h, hctx, bMem, bHifDev, bCore, bPrt]

/-- Registers of a partition's contexts by block, offset and the bits they hold: fields that are only read and written. -/
def heldFields : List (Nat × Nat × Word) :=
  [(bCollCtx, 4, 0xFFFFFFFF), (bCollCtx, 0x14, 0x1FF), (bSlwCtx, 0x10, 0x1FFF), (bSlwCtx, 0x34, 0x1FFF), (bGovCtx, 0x18, 0x1FFF),
    (bSlwCtx, 0x08, 0xFFFFFFFF)]

/-- Such a register takes the bits it holds, except while its partition is started or stops (R476). -/
theorem writeCtx_heldFields {base o : Nat} {m : Word} (h : (base, o, m) ∈ heldFields) (n v : Nat) (s : State) :
    writeCtx base n o v s = if (getPart s n).st = .started ∨ (getPart s n).st = .stopping then s
      else putMask (ctx base n o) m (BitVec.ofNat 32 v) s := by
  have hcase : writeCtx base n o v s = if (getPart s n).st == .started || (getPart s n).st == .stopping then s
      else putMask (ctx base n o) m (BitVec.ofNat 32 v) s := by
    simp only [heldFields, List.mem_cons, Prod.mk.injEq, List.not_mem_nil, or_false] at h
    rcases h with ⟨rfl, rfl, rfl⟩ | ⟨rfl, rfl, rfl⟩ | ⟨rfl, rfl, rfl⟩ | ⟨rfl, rfl, rfl⟩ | ⟨rfl, rfl, rfl⟩ | ⟨rfl, rfl, rfl⟩ <;> rfl
  simp only [hcase, Bool.or_eq_true, beq_iff_eq]

/-- A write of such a register by a function that may. -/
theorem writeReg_heldFields {base o : Nat} {m : Word} (h : (base, o, m) ∈ heldFields) {n fn : Nat} (hn : n ∈ partNums)
    (hf : fn = 0 ∨ fn = n) (v : Nat) (s : State) : writeReg fn (ctx base n o) v s =
      if (getPart s n).st = .started ∨ (getPart s n).st = .stopping then s else putMask (ctx base n o) m (BitVec.ofNat 32 v) s := by
  have hplace : ∀ e ∈ heldFields, e.1 ∈ ctxBases ∧ bIng ≤ e.1 ∧ e.2.1 < 0x40 := by decide
  obtain ⟨hb, hlit, ho⟩ := hplace _ h
  rw [writeReg_ctx hb hlit hn ho hf, writeCtx_heldFields h]

/-- The low word of a ring's submission base, held while the ring is not IDLE (R475). -/
def putSqBaseLow (v : DWord) (g : Ring) : Ring :=
  if g.state = .idle then { g with sqBase := (g.sqBase >>> 32) <<< 32 ||| v &&& 0xFFFFFFFF } else g

theorem writeRing_sqBaseLow {s : State} {fn r : Nat} (h : ringOwner s r = fn) (v : DWord) :
    writeRing fn r 8 (wordOf v.toNat 0) s = updRing r (putSqBaseLow v) s := by
  have howner : ¬ (ringOwner s r != fn) = true := by simp [h]
  simp only [writeRing, if_neg howner, ofNat_setBits_low]
  rfl

/-! ## What a read returns -/

section
variable {s : State} {fn off : Nat}

theorem readWord_plain (hl : latchLow off = false) (hn : s.latches.get none (hif fn off) = none) :
    readWord fn off s = (readReg s fn off, s) := by
  simp [readWord, hl, hn]

/-- A low word's read latches its high word (R171). -/
theorem readWord_low (hl : latchLow off = true) : readWord fn off s = (readReg s fn off,
    { s with latches := Tbl.set none s.latches (hif fn (off + 4)) (some (BitVec.ofNat 32 (readReg s fn (off + 4)))) }) := by
  simp [readWord, hl, hif, Nat.add_assoc]

/-- A latched word answers one read. -/
theorem readWord_latched {v : Word} (hl : latchLow off = false) (hv : s.latches.get none (hif fn off) = some v) :
    readWord fn off s = (v.toNat, { s with latches := Tbl.set none s.latches (hif fn off) none }) := by
  simp [readWord, hl, hv]

/-- A 64-bit read of a latching pair returns both words as they stand at the access, and leaves no latch of the high word. -/
theorem exec_latchedRead_pair (h : HostOpen s fn) (hl : latchLow off = true) (hh : latchLow (off + 4) = false) :
    ∃ l : Tbl (Option Word), l.get none (hif fn (off + 4)) = none ∧ exec (.latchedRead fn ⟨off, 8⟩) s = .next { barAccess s with
      out := .readReply fn (leBytes 4 (readReg (barAccess s) fn off) ++ leBytes 4 (readReg (barAccess s) fn (off + 4))) :: s.out
      latches := l } := by
  have hlatch := Tbl.get_set_self none s.latches (hif fn (off + 4)) (some (BitVec.ofNat 32 (readReg (barAccess s) fn (off + 4))))
  have hread := exec_latchedRead h off 8
  rw [readWord_low hl, if_pos rfl, readWord_latched hh hlatch, BitVec.toNat_ofNat, leBytes_word] at hread
  exact ⟨_, Tbl.get_set_self .., hread⟩

end

/-! ## The statement -/

/-- Settles O44: each clause is the access's equation (`exec_registerWrite`, `exec_latchedRead`) with the lemma of the register. -/
theorem hostRegisters : Obligations.HostRegisters := by
  unfold Obligations.HostRegisters
  refine ⟨?unsupported, ?ownBits, ?deviceByVf, ?context, ?ringBase, ?reads⟩
  case unsupported =>
    intro s fn off width write ho hf hw
    exact exec_bar0UnsupportedAccess write ho hf hw
  case ownBits =>
    intro s v h
    refine ⟨fun off hoff => ?_, fun off hoff => ?_, fun hlit => ?_⟩
    · rw [exec_registerWrite h, if_neg (by decide), writeReg_scratch hoff, ofNat_wordOf_zero]
    · have hlow : ∀ o ∈ [0x40040, 0x40048], o ∈ [0x40040, 0x40044, 0x40048, 0x4004C] ∧
        o + 4 ∈ [0x40040, 0x40044, 0x40048, 0x4004C] := by decide
      obtain ⟨h0, h4⟩ := hlow off hoff
      rw [exec_registerWrite h, if_pos rfl, writeReg_scratch h0, writeReg_scratch h4, ofNat_wordOf_zero, ofNat_wordOf_one]
    · rw [exec_registerWrite h, if_neg (by decide), writeReg_memEvents ((diesDark_barAccess s).trans hlit),
        ofNat_wordOf_zero, clearMask, reg_barAccess]
  case deviceByVf =>
    intro s fn off v h hf h1 h2 hc
    rw [exec_registerWrite h, if_neg (by decide), writeReg_device_vf hf h1 h2 hc]
  case context =>
    intro s fn n v h hn hf stays k m hk
    obtain ⟨⟨base, o, _⟩, he, ⟨⟩⟩ := List.mem_map.mp
      (show (k, m) ∈ heldFields.map fun e => (ctx e.1 n e.2.1, e.2.2) from hk)
    rw [exec_registerWrite h, if_neg (by decide), writeReg_heldFields he hn hf, getPart_barAccess]
    refine ⟨fun hs => by rw [if_pos hs], fun hs => ?_⟩
    rw [if_neg hs, putMask, reg_barAccess, ofNat_wordOf_zero]
  case ringBase =>
    intro s fn r v h hr hown
    have hoff : 0x1008 + 0x40 * r = 0x1000 + 0x40 * r + 8 := by omega
    refine ⟨updRing r (putSqBaseLow v) (barAccess s), ?_, rfl, fun q hq => ?_, ?_⟩
    · rw [exec_registerWrite h, if_neg (by decide), hoff, writeReg_ring hr (by decide),
        writeRing_sqBaseLow ((ringOwner_barAccess s r).trans hown)]
    · rw [getRing_updRing, if_neg hq, getRing_barAccess]
    · rw [getRing_updRing, if_pos rfl, getRing_barAccess, putSqBaseLow]
  case reads =>
    intro s fn off h
    refine ⟨fun hl hn => ?_, fun hl hl4 hn hn4 => ?_, fun hl hh => ?_⟩
    · simp [exec_latchedRead h, readWord_plain (s := barAccess s) hl hn]
    · simp [exec_latchedRead h, readWord_plain (s := barAccess s) hl hn, readWord_plain (s := barAccess s) hl4 hn4]
    · obtain ⟨l, hempty, hread⟩ := exec_latchedRead_pair h hl hh
      exact ⟨_, hread, rfl, hempty⟩

end Sys2Proof.Machine
end

section
/-!
PROOFS. Where the cores lie, and the sites: the operations that leave both as they are, among them all that a partition's stop does but
the end of its tests.
-/
namespace Sys2Proof.Machine

/-- Every core lies where it lay, and every site is as it was. -/
abbrev SameMap (s t : State) : Prop := t.places = s.places ∧ t.sites = s.sites

theorem SameMap.trans {s t u : State} (h : SameMap s t) (k : SameMap t u) : SameMap s u := ⟨k.1.trans h.1, k.2.trans h.2⟩

theorem SameMap.foldl {α : Type} {f : State → α → State} (h : ∀ s x, SameMap s (f s x)) (l : List α) (s : State) :
    SameMap s (l.foldl f s) := by
  induction l generalizing s with
  | nil => exact ⟨rfl, rfl⟩
  | cons x l ih => exact (h s x).trans (ih (f s x))

/-! ## Memory -/

@[simp] theorem spoil_sameMap (a len : Nat) (s : State) : SameMap s (spoil a len s) := by
  refine SameMap.foldl (fun s e => ?_) _ s
  split
  · split <;> simp [SameMap]
  · simp [SameMap]

@[simp] theorem charge_sameMap (st n g units : Nat) (s : State) : SameMap s (charge st n g units s) := by
  unfold charge; split <;> simp [SameMap]

@[simp] theorem writeBack_sameMap (ln : Nat) (l : Line) (g : Nat) (s : State) : SameMap s (writeBack ln l g s) := by
  simp only [writeBack]; split <;> simp [SameMap]

@[simp] theorem nextTick_sameMap (s : State) : SameMap s (nextTick s).2 := ⟨rfl, rfl⟩

@[simp] theorem allocLine_sameMap (ln : Nat) (data : Bytes) (dirty keep : Bool) (g : Nat) (s : State) :
    SameMap s (allocLine ln data dirty keep g s) := by
  unfold allocLine
  extract_lets all w allowed keeps free pick t
  have ht : SameMap s t.2 := nextTick_sameMap s
  clear_value pick free
  cases pick with
  | some e => simp [SameMap, ht]
  | none =>
    cases free with
    | some k => simp [SameMap, ht]
    | none => dsimp only; split <;> simp [SameMap, ht]

@[simp] theorem touchLine_sameMap (ln : Nat) (l : Line) (keep : Bool) (s : State) : SameMap s (touchLine ln l keep s) := by
  simp [SameMap, touchLine]

@[simp] theorem lineRead_sameMap (n g hint a len : Nat) (s : State) : SameMap s (lineRead n g hint a len s).2 := by
  simp only [lineRead]
  split
  · dsimp only; (repeat' split) <;> simp [SameMap]
  · split <;> simp [SameMap]

@[simp] theorem lineWrite_sameMap (n g hint a : Nat) (d : Bytes) (s : State) : SameMap s (lineWrite n g hint a d s) := by
  simp only [lineWrite]
  split
  · split <;> simp [SameMap]
  · (repeat' split) <;> simp [SameMap]

@[simp] theorem memReadPieces_sameMap (n g hint : Nat) (l : List (Nat × Bytes)) (s : State) :
    SameMap s (memReadPieces n g hint l s).2 := by
  induction l generalizing s with
  | nil => exact ⟨rfl, rfl⟩
  | cons p l ih => exact (lineRead_sameMap ..).trans (ih _)

@[simp] theorem sliceGet_sameMap (n g hint a len : Nat) (s : State) : SameMap s (sliceGet n g hint a len s).2 :=
  memReadPieces_sameMap ..

@[simp] theorem slicePut_sameMap (n g hint a : Nat) (d : Bytes) (s : State) : SameMap s (slicePut n g hint a d s) :=
  SameMap.foldl (fun _ _ => lineWrite_sameMap ..) _ s

@[simp] theorem sliceAdd_sameMap (n g hint : Nat) (fp : Bool) (a : Nat) (d : Bytes) (s : State) :
    SameMap s (sliceAdd n g hint fp a d s) := by simp [SameMap, sliceAdd]

@[simp] theorem memEvent_sameMap (bit st : Nat) (s : State) : SameMap s (memEvent bit st s) := ⟨rfl, rfl⟩

@[simp] theorem incStack_sameMap (which st : Nat) (s : State) : SameMap s (incStack which st s) := by simp [SameMap, incStack]

@[simp] theorem retirePending_sameMap (st : Nat) (s : State) : SameMap s (retirePending st s) := by
  unfold retirePending; split <;> simp [SameMap]

@[simp] theorem repairRow_sameMap (st off : Nat) (s : State) : SameMap s (repairRow st off s) := by
  simp only [repairRow]; split <;> simp [SameMap]

@[simp] theorem correctedRead_sameMap (a : Nat) (s : State) : SameMap s (correctedRead a s) := by
  simp only [correctedRead]; split <;> simp [SameMap]

@[simp] theorem damageImage_sameMap (s : State) : SameMap s (damageImage s) := by
  simp only [damageImage]; split <;> exact ⟨rfl, rfl⟩

@[simp] theorem lostLine_sameMap (a : Nat) (s : State) : SameMap s (lostLine a s) := by
  simp only [lostLine]
  (repeat' split) <;> simp [SameMap]

@[simp] theorem noteCover_sameMap (n g a : Nat) (c : Status) (s : State) : SameMap s (noteCover n g a c s) :=
  SameMap.trans (t := noteStep n c s) ⟨by simp, by simp⟩ (SameMap.foldl (fun _ _ => by simp [SameMap]) _ _)

@[simp] theorem lostRead_sameMap (n g a : Nat) (s : State) : SameMap s (lostRead n g a s) := by
  simp only [lostRead]; split <;> simp [SameMap]

@[simp] theorem readError_sameMap (n g a : Nat) (e : ReadErr) (s : State) : SameMap s (readError n g a e s) := by
  cases e with
  | none => exact ⟨rfl, rfl⟩
  | corrected => exact correctedRead_sameMap a s
  | cleanLine =>
    simp only [readError]
    split
    · split <;> simp [SameMap]
    · simp [SameMap]
  | rereadOk => simp [SameMap, readError]
  | lost => simp [SameMap, readError]

@[simp] theorem adderVote_sameMap (n g a : Nat) (r : AdderResult) (s : State) : SameMap s (adderVote n g a r s) := by
  cases r with
  | agree => exact ⟨rfl, rfl⟩
  | allDiffer => exact lostRead_sameMap n g a s
  | outvoted row =>
    simp only [adderVote]
    (repeat' split) <;> simp [SameMap]

@[simp] theorem memServe_sameMap (w : MemWait) (s : State) : SameMap s (memServe w s) := by
  simp only [memServe]
  (repeat' split) <;> simp [SameMap]

@[simp] theorem serveBefore_sameMap (a len : Nat) (s : State) : SameMap s (serveBefore a len s) := by
  simp only [serveBefore]
  split
  · simp [SameMap]
  · exact SameMap.foldl (fun _ _ => memServe_sameMap ..) _ _

@[simp] theorem memPut_sameMap (n g hint a : Nat) (d : Bytes) (s : State) : SameMap s (memPut n g hint a d s) :=
  (serveBefore_sameMap ..).trans (slicePut_sameMap ..)

/-! ## Ports and replies -/

@[simp] theorem sendLink_sameMap (p : Nat) (resend : Bool) (s : State) : SameMap s (sendLink p resend s) := ⟨rfl, rfl⟩

@[simp] theorem packetLeaves_sameMap (p : Nat) (k : Packet) (s : State) : SameMap s (packetLeaves p k s) := ⟨rfl, rfl⟩

@[simp] theorem portSend_sameMap (p : Nat) (k : Packet) (s : State) : SameMap s (portSend p k s) := by
  simp only [portSend, linkDue]
  (repeat' split) <;> simp [SameMap]

@[simp] theorem freeBuffer_sameMap (p : Nat) (k : Packet) (s : State) : SameMap s (freeBuffer p k s) := by
  unfold freeBuffer; split <;> simp [SameMap]

@[simp] theorem sendReply_sameMap (p : Nat) (k : Packet) (s : State) : SameMap s (sendReply p k s) := by
  unfold sendReply
  (repeat' split) <;> simp [SameMap]

@[simp] theorem sendVerdict_sameMap (node flow vc psn tag job port v : Nat) (s : State) :
    SameMap s (sendVerdict node flow vc psn tag job port v s) := by simp [SameMap, sendVerdict]

@[simp] theorem sendAck_sameMap (p : Nat) (r : Packet) (status : Nat) (s : State) : SameMap s (sendAck p r status s) :=
  sendReply_sameMap ..

/-! ## Collectives -/

@[simp] theorem collRecord_sameMap (n : Nat) (d : Desc) (c : Coll) (st : Status) (first : Nat) (s : State) :
    SameMap s (collRecord n d c st first s) := memPut_sameMap ..

@[simp] theorem cutColl_sameMap (n : Nat) (d : Desc) (c : Coll) (s : State) : SameMap s (cutColl n d c s) := by
  simp only [cutColl, collSpoil]
  split
  · exact SameMap.trans (t := dropUnsent n c.id true s) ⟨rfl, rfl⟩ (SameMap.foldl (fun _ _ => spoil_sameMap ..) _ _)
  · simp [SameMap]

@[simp] theorem cutColls_sameMap (n : Nat) (st : Status) (s : State) : SameMap s (cutColls n st s) := by
  refine SameMap.foldl (fun s c => ?_) _ s
  split
  · exact ⟨rfl, rfl⟩
  · split <;> simp [SameMap]
  · exact ⟨rfl, rfl⟩

/-! ## Cores -/

@[simp] theorem detachCore_sameMap (c : Nat) (s : State) : SameMap s (detachCore c s) := ⟨rfl, rfl⟩

@[simp] theorem spoilAll_sameMap (l : List (Nat × Nat × Nat)) (k : Core) (s : State) : SameMap s (spoilAll l k s).2 := by
  induction l generalizing k s with
  | nil => exact ⟨rfl, rfl⟩
  | cons r l ih => exact SameMap.trans (t := (spoilRows r s k).2) ⟨rfl, rfl⟩ (ih _ _)

@[simp] theorem stopCore_sameMap (st : CoreRun) (c : Nat) (s : State) : SameMap s (stopCore st c s) := by
  simp only [stopCore, spoilMmas]; split <;> simp [SameMap]

/-! ## The drain of a partition -/

@[simp] theorem layerStore_sameMap (n i : Nat) (l : Layer) (s : State) : SameMap s (layerStore n i l s) := by simp [SameMap, layerStore]

@[simp] theorem govStop_sameMap (n : Nat) (s : State) : SameMap s (govStop n s) := by
  simp only [govStop, layerStoreAll]
  exact SameMap.foldl (fun _ _ => layerStore_sameMap ..) _ _

@[simp] theorem dropHeld_sameMap (n : Nat) (s : State) : SameMap s (dropHeld n s) :=
  SameMap.foldl (fun _ _ => by simp [SameMap]) _ s

@[simp] theorem drainWaits_sameMap (n : Nat) (s : State) : SameMap s (drainWaits n s) := by
  refine SameMap.foldl (fun s w => ?_) _ _
  split <;> simp [SameMap]

@[simp] theorem spoilJobs_sameMap (n : Nat) (s : State) : SameMap s (spoilJobs n s) := by
  refine SameMap.foldl (fun s k => ?_) _ s
  split
  · exact SameMap.foldl (fun _ _ => spoil_sameMap ..) _ _
  · exact ⟨rfl, rfl⟩

@[simp] theorem drainIngest_sameMap (n : Nat) (s : State) : SameMap s (drainIngest n s) := by
  simp only [drainIngest]
  split <;> simp [SameMap]

@[simp] theorem cutLoads_sameMap (ids : List Nat) (s : State) (c : Nat) : SameMap s (cutLoads ids s c) := by
  refine SameMap.foldl (fun s l => ?_) _ s
  dsimp only
  split <;> exact ⟨rfl, rfl⟩

@[simp] theorem drainLoads_sameMap (n : Nat) (s : State) : SameMap s (drainLoads n s) := by
  simp only [drainLoads]
  exact (SameMap.foldl (fun _ _ => cutLoads_sameMap ..) _ _).trans (SameMap.foldl (fun _ _ => by simp [SameMap]) _ _)

@[simp] theorem endDescs_sameMap (fn : Nat) (st : Status) (s : State) : SameMap s (endDescs fn st s) := ⟨rfl, rfl⟩

@[simp] theorem stepLost_sameMap (n : Nat) (st : Status) (s : State) : SameMap s (stepLost n st s) := by
  unfold stepLost; split <;> simp [SameMap]

@[simp] theorem takeRung_sameMap (r n : Nat) (st : Status) (s : State) : SameMap s (takeRung r n st s) := by
  simp only [takeRung]; split <;> simp [SameMap]

end Sys2Proof.Machine
end

section
/-!
PROOFS. Core tests, site checks and remaps (R18, R19, R271, R279): what the move of a core onto a spare and the loss of its
coordinate change, what the outcome of a test does to its site, and from these the statement about the tests that no descriptor asks for.
-/
namespace Sys2Proof.Machine

/-! ## A stop leaves the cores where they lie -/

/-- Every core lies where it lay, and no site is retired or taken back. -/
abbrev SameRetired (s t : State) : Prop := t.places = s.places ∧ ∀ u, (getSite t u).retired = (getSite s u).retired

theorem SameMap.sameRetired {s t : State} (h : SameMap s t) : SameRetired s t := ⟨h.1, fun u => by rw [getSite, h.2, getSite]⟩

theorem SameRetired.trans {s t u : State} (h : SameRetired s t) (k : SameRetired t u) : SameRetired s u :=
  ⟨k.1.trans h.1, fun v => (k.2 v).trans (h.2 v)⟩

/-- The end of a test changes no place, and retires nothing. -/
theorem updSite_sameRetired {f : Site → Site} (h : ∀ k, (f k).retired = k.retired) (t : Nat) (s : State) :
    SameRetired s (updSite t f s) := by
  refine ⟨rfl, fun u => ?_⟩
  rw [getSite_updSite]
  split
  · next hu => rw [h, hu]
  · rfl

theorem haltPart_sameRetired (n : Nat) (st : Status) (s : State) : SameRetired s (haltPart n st s) := by
  unfold haltPart
  extract_lets stopped untested cut freed quiet gone sync settled
  have hstop : SameMap s stopped := (stepLost_sameMap n st s).trans (SameMap.foldl (fun _ _ => stopCore_sameMap ..) _ _)
  have htest : SameRetired stopped untested := by
    refine List.foldlRecOn (motive := SameRetired stopped) _ _ ⟨rfl, fun _ => rfl⟩ fun t ht c _ => ht.trans ?_
    split
    · exact updSite_sameRetired (f := fun k => { k with testing := false }) (fun _ => rfl) _ t
    · exact ⟨rfl, fun _ => rfl⟩
  have hcut : SameMap untested cut := by simp [SameMap, cut]
  have hfree : SameMap cut freed := by simp [SameMap, freed, poolFree, stashReleaseAll]
  refine hstop.sameRetired.trans (htest.trans (hcut.trans (hfree.trans ?_)).sameRetired)
  simp [SameMap, settled, quiet]

@[simp] theorem getPart_endDescs (fn : Nat) (st : Status) (s : State) (n : Nat) : getPart (endDescs fn st s) n = getPart s n := rfl

theorem drainBegin_sameRetired (n : Nat) (st : Status) (isReset auto : Bool) (s : State) :
    SameRetired s (drainBegin n st isReset auto s) := by
  unfold drainBegin
  split
  · exact (haltPart_sameRetired n st s).trans (SameMap.sameRetired (by simp [SameMap]))
  · split <;> exact SameMap.sameRetired (by simp [SameMap])

/-- A stop of a started partition puts it into STOPPING. -/
theorem drainBegin_stopping {s : State} {n : Nat} (h : (getPart s n).st = .started) (st : Status) (isReset auto : Bool) :
    (getPart (drainBegin n st isReset auto s) n).st = .stopping := by
  simp [drainBegin, h]

/-! ## A coordinate becomes unmapped -/

/-- What the loss of a core is before its partition stops: the coordinate is unmapped, and the event takes rung 2 (R19, R488). -/
def coreLost (c : Nat) (s : State) : State :=
  let n := (getCore s c).part
  takeRung 2 n .coreRetired (countEvent n (postEvent { kind := 0x18, part := n, core := some c } (setPlace c .unmapped s)))

theorem unmapCore_unowned {c : Nat} {s : State} (h : (getCore s c).part = 0) :
    unmapCore c s = postEvent { kind := 0x18, core := some c } (setPlace c .unmapped s) := by
  simp [unmapCore, h]

theorem unmapCore_owned {c : Nat} {s : State} (h : (getCore s c).part ≠ 0) :
    unmapCore c s = if (getPart (coreLost c s) (getCore s c).part).st = .started then
      notice (getCore s c).part 1 (drainBegin (getCore s c).part .partStopped false true (coreLost c s)) else coreLost c s := by
  simp only [unmapCore, if_neg h]; rfl

theorem coreLost_sameMap (c : Nat) (s : State) : SameMap (setPlace c .unmapped s) (coreLost c s) := by simp [SameMap, coreLost]

@[simp] theorem takeRung_parts (r n : Nat) (st : Status) (s : State) : (takeRung r n st s).parts = s.parts := by
  simp only [takeRung]; split <;> simp

theorem coreLost_st (c m : Nat) (s : State) : (getPart (coreLost c s) m).st = (getPart s m).st := by
  have hcount : getPart (coreLost c s) m = getPart (countEvent (getCore s c).part (setPlace c .unmapped s)) m := by
    rw [getPart, coreLost, takeRung_parts]; rfl
  rw [hcount, countEvent, getPart_updPart]
  split
  · next h => rw [h]; rfl
  · rfl

theorem unmapCore_sameRetired (c : Nat) (s : State) : SameRetired (setPlace c .unmapped s) (unmapCore c s) := by
  by_cases h : (getCore s c).part = 0
  · rw [unmapCore_unowned h]; exact SameMap.sameRetired (by simp [SameMap])
  · rw [unmapCore_owned h]
    refine (coreLost_sameMap c s).sameRetired.trans ?_
    split
    · exact (drainBegin_sameRetired (getCore s c).part .partStopped false true _).trans (SameMap.sameRetired (by simp [SameMap]))
    · exact ⟨rfl, fun _ => rfl⟩

theorem siteOf_unmapCore (c : Nat) (s : State) : siteOf (unmapCore c s) c = none := by
  rw [siteOf, (unmapCore_sameRetired c s).1, setPlace, Tbl.get_set_self]

/-- The partition that loses a core stops (R19, R488). -/
theorem unmapCore_stopping {s : State} {c : Nat} (h : isStarted s (getCore s c).part = true) (h0 : (getCore s c).part ≠ 0) :
    (getPart (unmapCore c s) (getCore s c).part).st = .stopping := by
  have hst : (getPart (coreLost c s) (getCore s c).part).st = .started := by
    rw [coreLost_st]; simpa [isStarted] using h
  rw [unmapCore_owned h0, if_pos hst, getPart, notice_parts]
  exact drainBegin_stopping hst ..

/-! ## A core moves -/

@[simp] theorem sramWr_run (k : Core) (a : Nat) (d : Bytes) : (sramWr k a d).run = k.run := by
  induction d generalizing k a with
  | nil => rfl
  | cons b d ih => exact ih _ _

@[simp] theorem sramWr_sregs (k : Core) (a : Nat) (d : Bytes) : (sramWr k a d).sregs = k.sregs := by
  induction d generalizing k a with
  | nil => rfl
  | cons b d ih => exact ih _ _

/-- Data images change a core's SRAM alone: it runs as before, with the registers it had. -/
theorem writeImages_run_sregs (l : List DataImage) (k : Core) :
    (l.foldl writeImage k).run = k.run ∧ (l.foldl writeImage k).sregs = k.sregs := by
  refine List.foldlRecOn (motive := fun q : Core => q.run = k.run ∧ q.sregs = k.sregs) l _ ⟨rfl, rfl⟩ fun q hq d _ => ?_
  simpa [writeImage] using hq

theorem moveCore_sites (c t : Nat) (s : State) : (moveCore c t s).sites = s.sites := rfl
theorem moveCore_parts (c t : Nat) (s : State) : (moveCore c t s).parts = s.parts := rfl
theorem moveCore_fuseQ (c t : Nat) (s : State) : (moveCore c t s).fer.fuseQ = s.fer.fuseQ ++ [{ cls := 1, what := c }] := rfl

theorem moveCore_places (c t : Nat) (s : State) :
    (moveCore c t s).places = Tbl.set .natural s.places c (if naturalSite c = t then .natural else .moved t) := rfl

theorem siteOf_moveCore (c t : Nat) (s : State) : siteOf (moveCore c t s) c = some t := by
  rw [siteOf, moveCore_places, Tbl.get_set_self]
  by_cases h : naturalSite c = t <;> simp [h]

theorem siteOf_moveCore_ne {b c : Nat} (h : b ≠ c) (t : Nat) (s : State) : siteOf (moveCore c t s) b = siteOf s b := by
  rw [siteOf, moveCore_places, Tbl.get_set_ne _ _ _ h, siteOf]

theorem getCore_moveCore (c t : Nat) (s : State) :
    (getCore (moveCore c t s) c).run = (getCore s c).run ∧ (getCore (moveCore c t s) c).sregs = (getCore s c).sregs := by
  have hcore : getCore (moveCore c t s) c = _ := Tbl.get_set_self ..
  rw [hcore]
  exact writeImages_run_sregs ..

theorem getCore_moveCore_ne {b c : Nat} (h : b ≠ c) (t : Nat) (s : State) : getCore (moveCore c t s) b = getCore s b :=
  Tbl.get_set_ne _ _ _ h

/-! ## The end of a test -/

theorem testOutcome_pass (act : Bool) (t part : Nat) (s : State) :
    testOutcome act t part .pass s = (.none, testEvent t part 0 (stampSite t s)) := rfl

/-- A test that failed and may act retires its site; the core on it, if any, is replaced at a step boundary. -/
theorem testOutcome_fail (t part : Nat) (s : State) : (testOutcome true t part .fail s).2 =
    match coreOn s t with
    | some c =>
      if stepBoundary s (getCore s c).part then replaceCore c t (retireSite t part (testEvent t part 1 s))
      else retireSite t part (testEvent t part 1 s)
    | none => retireSite t part (testEvent t part 1 s) := by
  have hon : coreOn (testEvent t part 1 s) t = coreOn s t := rfl
  simp only [testOutcome, if_true, hon]
  cases coreOn s t with
  | none => rfl
  | some c =>
    have hb : stepBoundary (retireSite t part (testEvent t part 1 s)) (getCore (retireSite t part (testEvent t part 1 s)) c).part =
      stepBoundary s (getCore s c).part := rfl
    simp only [hb]
    split
    · dsimp only
    · rfl

theorem getSite_retireSite (t part : Nat) (s : State) :
    getSite (retireSite t part s) t = { getSite s t with retired := true, testing := false, check := none, capture := none } :=
  (getSite_updSite t t (fun k => { k with retired := true, testing := false, check := none, capture := none }) s).trans (if_pos rfl)

/-- A core on a site goes to the nearest spare that was tested in time, or loses its coordinate. -/
theorem replaceCore_eq_elim (c t : Nat) (s : State) : replaceCore c t s =
    (nearestSite t fun u => freeSpare s u && testFresh s u).elim (unmapCore c s) fun v => moveCore c v s := by
  unfold replaceCore
  cases nearestSite t fun u => freeSpare s u && testFresh s u with
  | some v => rw [Option.elim_some]
  | none => rw [Option.elim_none]

theorem replaceCore_moves {c t v : Nat} {s : State} (h : nearestSite t (fun u => freeSpare s u && testFresh s u) = some v) :
    replaceCore c t s = moveCore c v s := by rw [replaceCore_eq_elim, h, Option.elim_some]

theorem replaceCore_unmaps {c t : Nat} {s : State} (h : nearestSite t (fun u => freeSpare s u && testFresh s u) = none) :
    replaceCore c t s = unmapCore c s := by rw [replaceCore_eq_elim, h, Option.elim_none]

/-- The replacement of a core that no partition owns changes no site, and adds its repairs behind those that wait. -/
theorem replaceCore_unowned {c : Nat} {s : State} (h : (getCore s c).part = 0) (t : Nat) :
    (replaceCore c t s).sites = s.sites ∧ ∃ r, (replaceCore c t s).fer.fuseQ = s.fer.fuseQ ++ r := by
  cases hv : nearestSite t (fun u => freeSpare s u && testFresh s u) with
  | some v => rw [replaceCore_moves hv]; exact ⟨moveCore_sites c v s, _, moveCore_fuseQ c v s⟩
  | none => rw [replaceCore_unmaps hv, unmapCore_unowned h]; exact ⟨rfl, [], (List.append_nil _).symm⟩

/-- A failed test of a site whose core, if any, no partition owns. -/
theorem testOutcome_fail_unowned {u : Nat} {s : State} (h : sitePart s u = 0) :
    (testOutcome true u 0 .fail s).2.sites = (retireSite u 0 s).sites ∧
    ∃ r, (testOutcome true u 0 .fail s).2.fer.fuseQ = (s.fer.fuseQ ++ [{ cls := 0, what := u }]) ++ r := by
  have hkept : (retireSite u 0 (testEvent u 0 1 s)).sites = (retireSite u 0 s).sites ∧
    ∃ r, (retireSite u 0 (testEvent u 0 1 s)).fer.fuseQ = (s.fer.fuseQ ++ [{ cls := 0, what := u }]) ++ r :=
    ⟨rfl, [], (List.append_nil _).symm⟩
  rw [testOutcome_fail]
  cases hon : coreOn s u with
  | none => exact hkept
  | some c =>
    have hpart : (getCore s c).part = 0 := by simpa [sitePart, hon] using h
    by_cases hb : stepBoundary s (getCore s c).part = true
    · simp only [hb, if_true]
      exact replaceCore_unowned (s := retireSite u 0 (testEvent u 0 1 s)) hpart u
    · simp only [hb]
      exact hkept

/-- A failed test of a core whose partition runs an attempt retires the site; the core stays until the step boundary (R18). -/
theorem testOutcome_fail_pending {u c : Nat} {s : State} (hon : coreOn s u = some c) (hb : stepBoundary s (getCore s c).part = false)
    (part : Nat) : (testOutcome true u part .fail s).2 = retireSite u part (testEvent u part 1 s) := by
  rw [testOutcome_fail, hon]
  simp [hb]

theorem getSite_stampSite (t u : Nat) (s : State) : getSite (stampSite t s) u = if u = t then
    { getSite s t with testing := false, tested := some s.now, laneFaults := [], transients := [], marked := false }
    else getSite s u := by rw [stampSite, getSite_updSite]

theorem events_head_postEvent (e : Ev) (s : State) : ∃ r, (postEvent e s).fer.events.head? = some r ∧
    r.kind = e.kind ∧ r.detail = BitVec.ofNat 64 e.detail ∧ r.site = siteField e.site := ⟨_, rfl, rfl, rfl, rfl⟩

/-! ## The commands -/

/-- CORE_TEST_DONE, 35 ms after the test began, unless a descriptor's test covers the site. -/
theorem exec_coreTestDone {s : State} {dt u : Nat} (ht : (getSite s u).testing = true) (ho : (getSite s u).since + 35000000 ≤ s.clock + dt)
    (hn : sitePart s u = 0 ∨ partTesting s (sitePart s u) = false) (r : TestResult) :
    exec (.coreTestDone dt u r) s = .next (testOutcome true u (sitePart s u) r (pass dt s)).2 := by
  have hover : ((getSite s u).testing && decide ((getSite s u).since + testNs ≤ s.clock + dt) &&
      !(sitePart s u != 0 && partTesting s (sitePart s u))) = true := by
    rcases hn with hn | hn <;> simp [ht, ho, hn]
  exact if_pos hover

section
variable {s : State} {dt u : Nat} {k : SiteCheck}

/-- SITE_CHECK_DONE with agreement and a passed test. -/
theorem exec_siteCheckDone_pass (hk : (getSite s u).check = some k) (ho : (getSite s u).since + 35000000 ≤ s.clock + dt) :
    exec (.siteCheckDone dt u true .pass) s =
      .next (stampSite u (updSite u (fun k => { k with check := none, capture := none }) (pass dt s))) := by
  have hk' : (getSite (pass dt s) u).check = some k := hk
  have ho' : (getSite (pass dt s) u).since + testNs ≤ (pass dt s).clock := ho
  show execSiteCheckDone dt u true .pass s = _
  simp [execSiteCheckDone, hk', ho']

/-- SITE_CHECK_DONE with any other outcome. -/
theorem exec_siteCheckDone_fail (hk : (getSite s u).check = some k) {agree : Bool} {r : TestResult}
    (h : agree = false ∨ r ≠ .pass ∧ (getSite s u).since + 35000000 ≤ s.clock + dt) :
    exec (.siteCheckDone dt u agree r) s = .next (if k.moved then noteStep k.part .coreRetired (retireSite u k.part (pass dt s))
      else unmapCore k.core (retireSite u k.part (pass dt s))) := by
  have hk' : (getSite (pass dt s) u).check = some k := hk
  have hend : (!agree || decide ((getSite (pass dt s) u).since + testNs ≤ (pass dt s).clock)) = true := by
    rcases h with h | ⟨-, ho⟩
    · simp [h]
    · simpa using .inr ho
  have hbad : (agree && r == .pass) = false := by
    rcases h with h | ⟨hr, -⟩
    · simp [h]
    · simp [hr]
  show execSiteCheckDone dt u agree r s = _
  simp only [execSiteCheckDone, hk', hend, hbad, if_true]
  cases k.moved <;> rfl

end

/-! ## The statement -/

/-- Settles O25: each command's equation (`exec_coreTestDone`, `exec_siteCheckDone_pass`, `exec_siteCheckDone_fail`), with what
the outcome of a test, a move or an unmapping leaves. -/
theorem coreTests : Obligations.CoreTests := by
  unfold Obligations.CoreTests
  refine ⟨?start, ?done, ?pending, ?check, ?remap⟩
  case start =>
    intro s u hu hf hr ht hc hp ho
    show execCoreTestStart u s = _
    simp [execCoreTestStart, hu, hf, hr, ht, hc, hp, ho]
  case done =>
    intro s dt u ht ho hp
    have hexec (r : TestResult) := exec_coreTestDone ht ho (.inl hp) r
    rw [hp] at hexec
    refine ⟨⟨_, hexec .pass, ?_⟩, ⟨_, hexec .fail, ?_⟩⟩
    · rw [testOutcome_pass]
      obtain ⟨e, he, hkind, hdetail, hsite⟩ := events_head_postEvent
        { kind := 0x0B, part := 0, core := coreOn s u, site := some u, detail := 0 } (stampSite u (pass dt s))
      exact ⟨(getSite_stampSite u u _).trans (if_pos rfl), fun v hv => (getSite_stampSite u v _).trans (if_neg hv), rfl, rfl,
        e, he, hkind, hdetail, hsite⟩
    · obtain ⟨hsites, r, hfuse⟩ := testOutcome_fail_unowned (s := pass dt s) hp
      have hsite := getSite_retireSite u 0 (pass dt s)
      rw [getSite, ← hsites, ← getSite] at hsite
      rw [hsite]
      exact ⟨rfl, rfl, _, hfuse.trans (List.append_assoc ..), rfl⟩
  case pending =>
    intro s dt u c ht ho hon hb hn
    have hpart : sitePart s u = (getCore s c).part := by simp [sitePart, hon]
    refine ⟨_, exec_coreTestDone ht ho (.inr (hpart ▸ hn)) .fail, ?_⟩
    rw [testOutcome_fail_pending (s := pass dt s) hon hb]
    refine ⟨?_, ?_, rfl, rfl⟩ <;> rw [getSite_retireSite]
  case check =>
    intro s dt u k hk
    refine ⟨fun ho => ⟨_, exec_siteCheckDone_pass hk ho, ?_⟩, fun agree r h => ⟨_, exec_siteCheckDone_fail hk h, ?_⟩⟩
    · dsimp only
      rw [getSite_stampSite, if_pos rfl, getSite_updSite, if_pos rfl]
      exact ⟨rfl, rfl, rfl, rfl, rfl⟩
    · have hret : (getSite (retireSite u k.part (pass dt s)) u).retired = true := by rw [getSite_retireSite]
      cases hm : k.moved with
      | true => exact ⟨hret, fun _ => rfl, nofun⟩
      | false =>
        exact ⟨((unmapCore_sameRetired k.core _).2 u).trans hret, nofun, fun _ => siteOf_unmapCore k.core _⟩
  case remap =>
    intro s c u hx hy hu hr hb
    have hexec : exec (.coreRemap c) s = .next (replaceCore c u s) := by
      show execCoreRemap c s = _
      simp [execCoreRemap, hu, hx, hy, hr, hb]
    refine ⟨fun v hv => ⟨_, hexec, ?_⟩, fun hnone => ⟨_, hexec, ?_⟩⟩
    · rw [replaceCore_moves hv]
      exact ⟨siteOf_moveCore c v s, (getCore_moveCore c v s).1, (getCore_moveCore c v s).2,
        fun b hbc => ⟨getCore_moveCore_ne hbc v s, siteOf_moveCore_ne hbc v s⟩, moveCore_parts c v s⟩
    · rw [replaceCore_unmaps hnone]
      exact ⟨siteOf_unmapCore c s, unmapCore_stopping⟩

end Sys2Proof.Machine
end

section
/-!
PROOFS. Power states (R32 to R35, R505 to R507): how a request is taken up, what the dies lose when they go off, and from these the
statement about power requests and the changes of power state.
-/
namespace Sys2Proof.Machine

/-! ## Requests -/

section
variable {s : State} {want : Power} {source : Nat}

theorem powerNext_empty (h : s.fer.powerQ = []) : powerNext s = s := by rw [powerNext, h, List.length_nil, powerQueue]

/-- A request that arrives while another change, a reset or a trip goes on is kept. -/
theorem powerRequest_waits (hq : s.fer.powerQ = []) (h : powerWaits s = true) :
    powerRequest want source s = { s with fer := { s.fer with powerQ := [{ want := want, source := source }] } } := by
  have h' : powerWaits { s with fer := { s.fer with powerQ := [{ want := want, source := source }] } } = true := h
  simp [powerRequest, powerNext, powerQueue, hq, h']

theorem powerRequest_taken (hq : s.fer.powerQ = []) (h : powerWaits s = false) :
    powerRequest want source s = powerTake { want := want, source := source } s := by
  have h' : powerWaits { s with fer := { s.fer with powerQ := [{ want := want, source := source }] } } = false := h
  have hs : { s with fer := { s.fer with powerQ := [] } } = s := by rw [← hq]
  simp [powerRequest, powerNext, powerQueue, hq, h', hs]

theorem powerTake_present {r : PowerReq} (h : r.want = s.fer.power) : powerTake r s = s := if_pos h

/-- R34: with a partition started the device neither goes to DEEP nor to STANDBY. -/
theorem powerRefused_started (hw : want = .deep ∨ want = .standby) (h : ∃ n ∈ partNums, isStarted s n = true) :
    powerRefused s want = true := by
  have hany : partNums.any (isStarted s) = true := List.any_eq_true.mpr h
  rcases hw with rfl | rfl <;> simp [powerRefused, hany]

theorem powerRefused_unstarted (hp : s.fer.power ≠ .standby) (h : ∀ n ∈ partNums, isStarted s n = false) :
    powerRefused s want = false := by
  have hany : partNums.any (isStarted s) = false := by simpa using h
  simp [powerRefused, hany, hp]

theorem powerTake_refused (h : want ≠ s.fer.power) (hr : powerRefused s want = true) :
    powerTake { want := want, source := source } s =
      { s with fer := { s.fer with refused := true, swapWanted := s.fer.swapWanted && source != 3 } } := by
  simp [powerTake, h, hr]

/-- A change of state begins: any but the return from IDLE, which is made at once. -/
theorem powerTake_enters (h : want ≠ s.fer.power) (hr : powerRefused s want = false) (hi : want ≠ .active ∨ s.fer.power ≠ .idle) :
    powerTake { want := want, source := source } s =
      { s with fer := { s.fer with entering := some { want := want, source := source } } } := by
  have hi' : (decide (want = .active) && decide (s.fer.power = .idle)) = false := by
    rcases hi with hi | hi
    · rw [decide_eq_false hi, Bool.false_and]
    · rw [decide_eq_false hi, Bool.and_false]
  simp only [powerTake, h, hr, hi', if_false, Bool.false_eq_true]

theorem powerRefused_active : powerRefused s .active = false := by simp [powerRefused]

theorem pwrWrite_pf0 (h : HostOpen s 0) : pwrWrite 0 want s = powerRequest want 0 (barAccess s) := hostPost_open h _

/-- A VF writes REQ of FMN_PWR without effect. -/
theorem pwrWrite_vf {fn : Nat} (h : HostOpen s fn) (hf : fn ≠ 0) : pwrWrite fn want s = barAccess s := by
  rw [pwrWrite, hostPost_open h]
  simp [hf]

theorem enteringFor_of {r : PowerReq} (h : s.fer.entering = some r) : enteringFor s r.want = some r := by
  simp [enteringFor, h]

end

/-! ## Dies that go off -/

/-- What a fold over numbers does at each, and undoes at none, holds of every number it goes through. -/
theorem foldl_establishes {σ : Type} {f : σ → Nat → σ} {P : σ → Nat → Prop} (does : ∀ s p, P (f s p) p)
    (keeps : ∀ s p q, P s q → P (f s p) q) {l : List Nat} {q : Nat} (hq : q ∈ l) (s : σ) : P (l.foldl f s) q := by
  have hkept (l : List Nat) (s : σ) (h : P s q) : P (l.foldl f s) q :=
    List.foldlRecOn (motive := (P · q)) l f h fun s h p _ => keeps s p q h
  induction l generalizing s with
  | nil => cases hq
  | cons p l ih =>
    rcases List.mem_cons.mp hq with rfl | hq
    · exact hkept l _ (does s q)
    · exact ih hq _

theorem get_keepTbl {α : Type} [DecidableEq α] (d : α) (f : α → α) (t : Tbl α) (k : Nat) :
    (keepTbl d f t).get d k = d ∨ ∃ v, (keepTbl d f t).get d k = f v := by
  refine List.foldlRecOn (motive := fun u : Tbl α => u.get d k = d ∨ ∃ v, u.get d k = f v) t _ (.inl rfl) fun u hu e _ => ?_
  rw [Tbl.get_set]
  split
  · exact .inr ⟨e.2, rfl⟩
  · exact hu

/-- Ports change, their registers and the event store, and nothing else. -/
def PortsOnly (s t : State) : Prop := ∃ regs fab events evSeq,
  t = { s with regs := regs, fab := fab, fer := { s.fer with events := events, evSeq := evSeq } }

theorem PortsOnly.refl (s : State) : PortsOnly s s := ⟨_, _, _, _, rfl⟩

theorem PortsOnly.trans {s t u : State} (h : PortsOnly s t) (k : PortsOnly t u) : PortsOnly s u := by
  obtain ⟨_, _, _, _, rfl⟩ := h
  obtain ⟨_, _, _, _, rfl⟩ := k
  exact ⟨_, _, _, _, rfl⟩

theorem portDown_portsOnly (p reason : Nat) (s : State) : PortsOnly s (portDown p reason s) := by
  simp only [portDown]
  split
  · exact ⟨_, _, _, _, rfl⟩
  · split <;> exact ⟨_, _, _, _, rfl⟩

theorem getPort_portDown (p reason q : Nat) (s : State) :
    (getPort (portDown p reason s) q).st = if q = p then .down else (getPort s q).st := by
  have h (f : Port → Port) (hf : ∀ k, (f k).st = .down) :
      (getPort (updPort p f s) q).st = if q = p then .down else (getPort s q).st := by
    rw [getPort_updPort]; split
    · exact hf _
    · rfl
  simp only [portDown]
  split
  · exact h _ fun _ => rfl
  · split <;> exact h _ fun _ => rfl

/-- The dies go off (R507): ports and meshes, and of the cores all but owner and group. -/
theorem diesOff_eq (reason : Nat) (s : State) : ∃ t, PortsOnly s t ∧ (∀ p < 8, (getPort t p).st = .down) ∧
    diesOff reason s = { t with cores := keepTbl {} (fun k => { part := k.part, group := k.group }) s.cores
                                syn := { replays := s.syn.replays } } := by
  unfold diesOff
  extract_lets t
  have hports : PortsOnly s t := by
    refine List.foldlRecOn (motive := PortsOnly s) _ _ (.refl s) fun t ht p _ => ht.trans ?_
    split
    · exact .refl t
    · exact portDown_portsOnly p reason t
  have hdown (p : Nat) (hp : p < 8) : (getPort t p).st = .down := by
    refine foldl_establishes (P := fun t p => (getPort t p).st = .down) (fun s p => ?_) (fun s p q hq => ?_) (List.mem_range.mpr hp) s
    · split
      · assumption
      · rw [getPort_portDown, if_pos rfl]
    · split
      · exact hq
      · rw [getPort_portDown]; split
        · rfl
        · exact hq
  refine ⟨t, hports, hdown, ?_⟩
  obtain ⟨_, _, _, _, ht⟩ := hports
  rw [ht]

theorem setPower_eq (p : Power) (source : Nat) (s : State) : ∃ events evSeq,
    setPower p source s = { s with fer := { s.fer with power := p, events := events, evSeq := evSeq } } := by
  unfold setPower
  split
  · next h => exact ⟨s.fer.events, s.fer.evSeq, by rw [← h]⟩
  · exact ⟨_, _, rfl⟩

theorem getPort_setPower (p : Power) (source : Nat) (s : State) (q : Nat) : getPort (setPower p source s) q = getPort s q := by
  unfold setPower
  split <;> rfl

/-- DEEP (R507): the dies go off, and the link goes to L1. -/
theorem goDeep_eq (source : Nat) (s : State) : ∃ t, PortsOnly s t ∧ (∀ p < 8, (getPort t p).st = .down) ∧
    goDeep source s = { t with out := .requestL1 :: s.out, fer := { t.fer with power := .deep }, link := { s.link with l1 := true }
                               cores := keepTbl {} (fun k => { part := k.part, group := k.group }) s.cores
                               syn := { replays := s.syn.replays } } := by
  obtain ⟨t, hports, hdown, hoff⟩ := diesOff_eq 8 s
  obtain ⟨events, evSeq, hpower⟩ := setPower_eq .deep source (diesOff 8 s)
  refine ⟨{ t with fer := { t.fer with events := events, evSeq := evSeq } }, hports.trans ⟨_, _, _, _, rfl⟩, hdown, ?_⟩
  obtain ⟨_, _, _, _, rfl⟩ := hports
  unfold goDeep
  rw [hpower, hoff]
  rfl

/-- Of the cores nothing but owner and group outlasts DEEP. -/
theorem getCore_goDeep (source : Nat) (s : State) (c : Nat) : (getCore (goDeep source s) c).sregs = [] ∧
    (getCore (goDeep source s) c).sram = [] ∧ (getCore (goDeep source s) c).run ≠ .running := by
  obtain ⟨t, -, -, hgo⟩ := goDeep_eq source s
  have hcore : getCore (goDeep source s) c = Tbl.get {} (keepTbl {} (fun k => { part := k.part, group := k.group }) s.cores) c := by
    rw [hgo]; rfl
  rcases get_keepTbl {} (fun k : Core => { part := k.part, group := k.group }) s.cores c with h | ⟨v, h⟩ <;>
    · rw [hcore, h]
      exact ⟨rfl, rfl, nofun⟩

/-- Ports that may train. -/
def freePorts (t : Tbl Port) : Tbl Port := (List.range 8).foldl (fun t p => Tbl.upd {} t p fun q => { q with holdoff := false }) t

theorem get_freePorts (t : Tbl Port) {p : Nat} (hp : p < 8) : (Tbl.get {} (freePorts t) p : Port).holdoff = false := by
  refine foldl_establishes (P := fun t p => (Tbl.get {} t p : Port).holdoff = false) (fun t p => ?_) (fun t p q hq => ?_)
    (List.mem_range.mpr hp) t
  · rw [Tbl.get_upd, if_pos rfl]
  · rw [Tbl.get_upd]; split
    · rfl
    · exact hq

/-- What a wake from DEEP finds (R338, R476, R507): no partition, no core, no count. -/
def diesBack (s : State) : State :=
  { s with parts := [], cores := [], syn := { replays := s.syn.replays }, fab := { s.fab with ports := freePorts s.fab.ports } }

theorem getPort_diesBack (s : State) (p : Nat) : getPort (diesBack s) p = Tbl.get {} (freePorts s.fab.ports) p := by
  rw [getPort, diesBack]

/-! ## The changes of state -/

section
variable {s : State} {r : PowerReq} (dt : Nat)

theorem exec_enterDeep (h : s.fer.entering = some r) (hw : r.want = .deep) (hq : s.fer.powerQ = []) : exec (.enterDeep dt) s =
    .next (updFer (fun f => { f with entering := none }) (goDeep r.source (pass dt s))) := by
  have hent : enteringFor s .deep = some r := hw ▸ enteringFor_of h
  obtain ⟨t, ⟨_, _, _, _, rfl⟩, -, hgo⟩ := goDeep_eq r.source (pass dt s)
  show execEnterDeep dt s = _
  simp only [execEnterDeep, hent]
  rw [powerNext_empty (by rw [hgo]; exact hq)]

theorem exec_wakeFromDeep (h : s.fer.entering = some r) (hw : r.want = .active) (hp : s.fer.power = .deep) (hq : s.fer.powerQ = []) :
    exec (.wakeFromDeep dt) s = .next (updFer (fun f => { f with entering := none })
      (setPower .active r.source (diesBack (pass dt s)))) := by
  have hent : enteringFor s .active = some r := hw ▸ enteringFor_of h
  obtain ⟨events, evSeq, hpower⟩ := setPower_eq .active r.source (diesBack (pass dt s))
  show execWakeFromDeep dt s = _
  unfold execWakeFromDeep
  rw [hent]
  dsimp only
  rw [if_pos hp, powerNext_empty]
  · rfl
  · exact (congrArg (fun t => t.fer.powerQ) hpower).trans hq

/-- STANDBY is entered through DEEP. -/
theorem exec_enterStandby (h : s.fer.entering = some r) (hw : r.want = .standby) (hf : s.fer.fuseQ = []) (hn : s.fer.fuseNow = none)
    (hq : s.fer.powerQ = []) : ∃ d : State, d.brd = s.brd ∧ d.fer.swapWanted = s.fer.swapWanted ∧
      exec (.enterStandby dt) s = .next (updFer (fun f => { f with entering := none, swapReady := f.swapWanted, swapWanted := false })
        (setPower .standby r.source { d with brd := { d.brd with pwrReq := false } })) := by
  have hent : enteringFor s .standby = some r := hw ▸ enteringFor_of h
  have hfree : (s.fer.fuseQ.isEmpty && s.fer.fuseNow.isNone) = true := by simp [hf, hn]
  have hdeep : ∃ d : State, (d.brd = s.brd ∧ d.fer.swapWanted = s.fer.swapWanted ∧ d.fer.powerQ = []) ∧
      d = if (pass dt s).fer.power = .deep then pass dt s else goDeep r.source (pass dt s) := by
    refine ⟨_, ?_, rfl⟩
    split
    · exact ⟨rfl, rfl, hq⟩
    · obtain ⟨t, ⟨_, _, _, _, rfl⟩, -, hgo⟩ := goDeep_eq r.source (pass dt s)
      rw [hgo]
      exact ⟨rfl, rfl, hq⟩
  obtain ⟨d, ⟨hbrd, hswap, hempty⟩, hd⟩ := hdeep
  obtain ⟨events, evSeq, hpower⟩ := setPower_eq .standby r.source { d with brd := { d.brd with pwrReq := false } }
  refine ⟨d, hbrd, hswap, ?_⟩
  show execEnterStandby dt s = _
  unfold execEnterStandby
  rw [hent]
  dsimp only
  rw [if_pos hfree, ← hd, powerNext_empty]
  exact (congrArg (fun t => t.fer.powerQ) hpower).trans hempty

/-- The entry into STANDBY waits for the deferred e-fuse writes (R519). -/
theorem exec_enterStandby_waits (h : s.fer.entering = some r) (hw : r.want = .standby) (hf : s.fer.fuseQ ≠ [] ∨ s.fer.fuseNow ≠ none) :
    exec (.enterStandby dt) s = .next s := by
  have hent : enteringFor s .standby = some r := hw ▸ enteringFor_of h
  show execEnterStandby dt s = _
  rcases hf with hf | hf <;> simp [execEnterStandby, hent, hf]

theorem exec_wakeFromStandby (h : s.fer.entering = some r) (hw : r.want = .active) (hp : s.fer.power = .standby) (hb : s.brd.pwrReq = false) :
    exec (.wakeFromStandby dt) s = .next (requestVin (pass dt s)) := by
  have hent : enteringFor s .active = some r := hw ▸ enteringFor_of h
  show execWakeFromStandby dt s = _
  simp [execWakeFromStandby, hent, hp, hb]

end

/-- WAKE_N, low for 1 ms, asks for ACTIVE (R505, R547). -/
theorem exec_wakeN {s : State} {dt : Nat} (hr : fmnRuns s = true) (hb : s.brd.brdRstN = true) (hdt : 1000000 ≤ dt) :
    exec (.wakeN dt) s = .next (powerRequest .active 2 (pass dt s)) := by
  show execWakeN dt s = _
  simp [execWakeN, hr, hb, hdt]

theorem exec_vinWaitTimeout {s : State} {dt t0 : Nat} (h : s.fer.pwrReqSince = some t0)
    (ho : s.fer.pwrReqReport + 10000000000 ≤ s.clock + dt) : exec (.vinWaitTimeout dt) s =
      .next (vinRecord 0 s.fer.vin (updFer (fun f => { f with pwrReqReport := s.clock + dt }) (pass dt s))) := by
  have ho' : s.fer.pwrReqReport + 10000000000 ≤ (pass dt s).clock := ho
  show execVinWaitTimeout dt s = _
  simp only [execVinWaitTimeout, h, ho']
  rfl

theorem exec_pwrlimNFall {s : State} (h : s.brd.pwrlimN = true) : exec .pwrlimNFall s =
    .next { s with brd := { s.brd with pwrlimN := false }, fer := { s.fer with pwrlimSince := some s.clock } } := if_pos h

/-! ## The statement -/

/-- Settles O52: a request is kept, refused, or begins a change (`powerRequest_waits`, `powerTake_refused`, `powerTake_enters`); each
change is its command's equation with what the dies that go off keep (`goDeep_eq`). -/
theorem powerStates : Obligations.PowerStates := by
  unfold Obligations.PowerStates
  refine ⟨?request, ?wake, ?changes, ?vin, ?limit⟩
  case request =>
    intro s want fn ho hq go c hc
    have hexec : exec c s = .next (pwrWrite fn want s) := by
      cases want with
      | active => cases show some (Instr.pwrReqActive fn) = some c from hc; rfl
      | deep => cases show some (Instr.pwrReqDeep fn) = some c from hc; rfl
      | standby => cases show some (Instr.pwrReqStandby fn) = some c from hc; rfl
      | idle => exact nomatch show none = some c from hc
    have hq' : (barAccess s).fer.powerQ = [] := hq
    have hstandby : s.fer.power ≠ .standby := by
      have hopen := ho.1
      simp only [barOpen, Bool.and_eq_true, bne_iff_ne] at hopen
      exact hopen.2
    rw [hexec]
    refine ⟨fun hf => by rw [pwrWrite_vf ho hf], ?_, ?_⟩
    · rintro rfl hwait
      rw [pwrWrite_pf0 ho, powerRequest_waits hq' hwait]
      rfl
    · rintro rfl hwait
      rw [pwrWrite_pf0 ho, powerRequest_taken hq' hwait]
      refine ⟨fun hp => by rw [powerTake_present (s := barAccess s) hp], fun ha hp hs => ?_, fun ha hp hs => ?_, fun ha hp => ?_⟩
      · have hdown : want = .deep ∨ want = .standby := by
          cases want with
          | active => exact absurd rfl ha
          | deep => exact .inl rfl
          | standby => exact .inr rfl
          | idle => exact nomatch show none = some c from hc
        rw [powerTake_refused (s := barAccess s) hp (powerRefused_started hdown hs)]
        simp
      · rw [powerTake_enters (s := barAccess s) hp (powerRefused_unstarted hstandby hs) (.inl ha)]
        rfl
      · subst ha
        have hnow : (barAccess s).fer.power = .deep := hp
        rw [powerTake_enters (by rw [hnow]; decide) powerRefused_active (.inr (by rw [hnow]; decide))]
        rfl
  case wake =>
    intro s dt hr hb hdt hwait hq hp
    have hp' : Power.active ≠ (pass dt s).fer.power ∧ (pass dt s).fer.power ≠ .idle := by
      rcases hp with hp | hp <;> simp [hp]
    rw [exec_wakeN hr hb hdt, powerRequest_taken (s := pass dt s) hq hwait, powerTake_enters hp'.1 powerRefused_active (.inr hp'.2)]
    rfl
  case changes =>
    intro s dt r he hq
    refine ⟨fun hw => ⟨_, exec_enterDeep dt he hw hq, ?_⟩, fun hw hp => ⟨_, exec_wakeFromDeep dt he hw hp hq, ?_⟩,
      fun hw hf => exec_enterStandby_waits dt he hw hf, fun hw hf hn => ?_, fun hw hp hb => ⟨_, exec_wakeFromStandby dt he hw hp hb, ?_⟩⟩
    · obtain ⟨t, ⟨_, _, _, _, rfl⟩, hdown, hgo⟩ := goDeep_eq r.source (pass dt s)
      have hcores := getCore_goDeep r.source (pass dt s)
      rw [hgo] at hcores ⊢
      exact ⟨rfl, rfl, rfl, rfl, rfl, rfl, hdown, hcores⟩
    · obtain ⟨events, evSeq, hpower⟩ := setPower_eq .active r.source (diesBack (pass dt s))
      have hports (p : Nat) (hp : p < 8) : (getPort (setPower .active r.source (diesBack (pass dt s))) p).holdoff = false := by
        rw [getPort_setPower, getPort_diesBack, get_freePorts _ hp]
      rw [hpower] at hports ⊢
      exact ⟨rfl, rfl, rfl, rfl, rfl, rfl, hports⟩
    · obtain ⟨d, hbrd, hswap, hexec⟩ := exec_enterStandby dt he hw hf hn hq
      obtain ⟨events, evSeq, hpower⟩ := setPower_eq .standby r.source { d with brd := { d.brd with pwrReq := false } }
      rw [hpower] at hexec
      exact ⟨_, hexec, rfl, rfl, by rw [← hbrd]; rfl, hswap⟩
    · exact ⟨rfl, rfl, rfl, hp⟩
  case vin =>
    intro s dt t0 h ho
    exact ⟨_, exec_vinWaitTimeout h ho, rfl, rfl, _, rfl, rfl⟩
  case limit =>
    intro s
    exact ⟨exec_pwrlimNFall, rfl⟩

end Sys2Proof.Machine
end

section
/-!
PROOFS. Faults at issue (R88, R105, R161 to R163, R191 to R193): what the fault of a running core leaves of it while its partition has a
step open, which operands the checks of MMA, WLD, WLDM and NRW turn away, and from these the statement about operands.
-/
namespace Sys2Proof.Machine

/-! ## The fault record -/

theorem bitOf_toNat {n : Nat} (x : BitVec n) (i : Nat) : bitOf x.toNat i = x.getLsbD i := by
  rw [BitVec.getLsbD, Nat.testBit_eq_decide_div_mod_eq, bitOf, Bool.eq_iff_iff, beq_iff_eq, decide_eq_true_iff]

/-- MORE of a record set (R169). -/
theorem ofNat_setBits_more (x : Word) : BitVec.ofNat 32 (setBits x.toNat 30 1 1) = x ||| 0x40000000 := by
  have hhigh : (x.toNat ||| 2 ^ 30) / 2 ^ 30 = x.toNat / 2 ^ 30 ||| 1 := Nat.or_div_two_pow
  have hlow : (x.toNat ||| 2 ^ 30) % 2 ^ 30 = x.toNat % 2 ^ 30 := by
    rw [Nat.or_mod_two_pow, Nat.mod_self, Nat.or_zero]
  have hrest : (x.toNat / 2 ^ 30 ||| 1) / 2 ^ 1 = x.toNat / 2 ^ 30 / 2 ^ 1 := by
    rw [Nat.or_div_two_pow, Nat.div_eq_of_lt (by decide : 1 < 2 ^ 1), Nat.or_zero]
  have hset : (x.toNat / 2 ^ 30 ||| 1) % 2 = 1 := Nat.or_mod_two_eq_one.mpr (.inr rfl)
  have hval : setBits x.toNat 30 1 1 = x.toNat ||| 2 ^ 30 := by simp only [setBits, bitsOf]; omega
  rw [hval, BitVec.ofNat_or, BitVec.ofNat_toNat, BitVec.setWidth_eq]
  rfl

theorem statusNum_lt (st : Status) : statusNum st < 2 ^ 8 := by cases st <;> decide

section
variable {engine : Nat} {atIssue : Bool} {loc : Word} {f : Flt} {k : Core}

/-- A fault changes its core's record and nothing else of the core. -/
theorem recordFault_eq : recordFault engine atIssue loc f k = { k with
    fault := (recordFault engine atIssue loc f k).fault
    faultPc := (recordFault engine atIssue loc f k).faultPc
    faultInfo := (recordFault engine atIssue loc f k).faultInfo } := by
  unfold recordFault; split <;> rfl

/-- The fields of CORE_FAULT fit in its 32 bits. -/
theorem recordFault_fresh (h : k.fault.getLsbD 31 = false) (hf : f.cause < 2 ^ 8) (he : engine < 8) :
    (recordFault engine atIssue loc f k).fault.toNat =
      statusNum (causeStatus f.cause) + 2 ^ 8 * f.cause + 2 ^ 16 * engine + 2 ^ 19 * b2n atIssue + 2 ^ 31 ∧
    (recordFault engine atIssue loc f k).faultInfo = BitVec.ofNat 32 f.info := by
  have hst := statusNum_lt (causeStatus f.cause)
  have hissue : b2n atIssue ≤ 1 := by cases atIssue <;> decide
  have hv : ¬ bitOf k.fault.toNat 31 = true := by rw [bitOf_toNat, h]; exact Bool.false_ne_true
  rw [recordFault, if_neg hv]
  refine ⟨?_, rfl⟩
  rw [BitVec.toNat_ofNat]
  exact Nat.mod_eq_of_lt (by omega)

theorem recordFault_more (h : k.fault.getLsbD 31 = true) :
    (recordFault engine atIssue loc f k).fault = k.fault ||| 0x40000000 ∧
    (recordFault engine atIssue loc f k).faultInfo = k.faultInfo := by
  have hv : bitOf k.fault.toNat 31 = true := by rw [bitOf_toNat, h]
  rw [recordFault, if_pos hv]
  exact ⟨ofNat_setBits_more _, rfl⟩

end

/-! ## A core enters FAULTED -/

theorem getCore_congr {s t : State} (h : t.cores = s.cores) (c : Nat) : getCore t c = getCore s c := by rw [getCore, h, getCore]

/-- Rows that become unspecified are of the accumulators. -/
theorem spoilRows_core (r : Nat × Nat × Nat) (s : State) (k : Core) : ∃ acc, (spoilRows r s k).1 = { k with acc := acc } :=
  List.foldlRecOn (motive := fun q : Core => ∃ acc, q = { k with acc := acc }) _ _ ⟨k.acc, rfl⟩
    fun _ hq _ _ => by obtain ⟨_, rfl⟩ := hq; exact ⟨_, rfl⟩

theorem spoilAll_core (l : List (Nat × Nat × Nat)) (k : Core) (s : State) : ∃ acc, (spoilAll l k s).1 = { k with acc := acc } := by
  induction l generalizing k s with
  | nil => exact ⟨k.acc, rfl⟩
  | cons r l ih =>
    obtain ⟨_, hr⟩ := spoilRows_core r s k
    obtain ⟨acc, hl⟩ := ih (spoilRows r s k).1 (spoilRows r s k).2
    exact ⟨acc, hl.trans (by rw [hr])⟩

@[simp] theorem spoilAll_parts (l : List (Nat × Nat × Nat)) (k : Core) (s : State) : (spoilAll l k s).2.parts = s.parts := by
  induction l generalizing k s with
  | nil => rfl
  | cons r l ih => exact ih (spoilRows r s k).1 (spoilRows r s k).2

@[simp] theorem enterFaulted_parts (c engine : Nat) (s : State) : (enterFaulted c engine s).parts = s.parts := spoilAll_parts _ _ s

/-- The faulting core is FAULTED, with nothing queued; of the rest, its engines and accumulators alone may have changed. -/
theorem getCore_enterFaulted (c engine : Nat) (s : State) : ∃ acc cur, getCore (enterFaulted c engine s) c = { getCore s c with
    acc := acc, cur := cur, run := .faulted, stall := .none, halting := false, queues := [], streams := [] } := by
  obtain ⟨acc, hacc⟩ := spoilAll_core (startedRows (getCore s c) fun r => r.hungry) (getCore s c) s
  exact ⟨acc, _, (getCore_setCore ..).trans ((if_pos rfl).trans (by rw [hacc]))⟩

section
variable {s : State} {c : Nat}

/-- In an open step Slipway takes a fault by a mark of the step (R265): the core is as its fault left it. -/
theorem getCore_coreFault (hrun : (getCore s c).run = .running) (hstep : (openStep s (getCore s c).part).isSome)
    (engine : Nat) (atIssue : Bool) (loc : Word) (f : Flt) : getCore (coreFault c engine atIssue loc f s) c =
      recordFault engine atIssue loc f (getCore (enterFaulted c engine s) c) := by
  obtain ⟨t, ht⟩ := Option.isSome_iff_exists.mp hstep
  unfold coreFault
  extract_lets k first code entered recorded n suspect noted logged ended _ _
  have hfirst : first = true := beq_iff_eq.mpr hrun
  have hentered : entered = enterFaulted c engine s := if_pos hfirst
  have hrecorded : getCore recorded c = recordFault engine atIssue loc f (getCore (enterFaulted c engine s) c) := by
    simp [recorded, hentered]
  have hnoted : noted.cores = recorded.cores ∧ noted.parts = s.parts := by
    have hparts : recorded.parts = s.parts := by simp [recorded, hentered]
    unfold noted; split <;> simp [hparts]
  have hlogged : logged.cores = recorded.cores ∧ logged.parts = s.parts := by
    unfold logged; split <;> simp [hnoted]
  have hended : ended.cores = recorded.cores := by
    unfold ended; (repeat' split) <;> simp [hlogged]
  have hopen : openStep logged n = some t := by rw [openStep, getPart, hlogged.2]; exact ht
  rw [hfirst, hopen, ← hrecorded]
  refine getCore_congr ?_ c
  simp only [Bool.not_true, Bool.false_and, Bool.false_eq_true, if_false]
  (repeat' split) <;> simp [hended]

/-- What the fault of a running core leaves of it. -/
theorem coreFault_faulted (hrun : (getCore s c).run = .running) (hstep : (openStep s (getCore s c).part).isSome)
    {engine : Nat} (he : engine < 8) (atIssue : Bool) (loc : Word) {f : Flt} (hf : f.cause < 2 ^ 8) :
    Faulted c engine atIssue f s (coreFault c engine atIssue loc f s) := by
  obtain ⟨acc, cur, hk⟩ := getCore_enterFaulted c engine s
  have hcore := getCore_coreFault hrun hstep engine atIssue loc f
  have hkept := hcore.trans recordFault_eq
  rw [hk] at hcore hkept
  exact {
    run := by rw [hkept]
    queues := by rw [hkept]
    streams := by rw [hkept]
    fresh := fun h => by rw [hcore]; exact recordFault_fresh h hf he
    more := fun h => by rw [hcore]; exact recordFault_more h
    registers := by rw [hkept]; exact ⟨rfl, rfl, rfl, rfl⟩ }

/-- The fault of an instruction at issue. -/
theorem issueFault_faulted {i : NInstr} (h : Issues s c i) (hstep : (openStep s (getCore s c).part).isSome) {f : Flt}
    (hf : f.cause < 2 ^ 8) : Faulted c 0 true f s (issueFault c (getCore s c) i f s) :=
  coreFault_faulted h.run hstep (by decide) true _ hf

end

/-! ## The checks of operands -/

section
variable {k : Core} {i : NInstr} {f : Flt}

theorem mmaCheck_operands (h : (issueTdesc k i.ra).loc ≠ 0 ∨ (issueTdesc k i.ra).fmt ≠ (issueTdesc k i.rb).fmt ∨
    fmtNarrow (issueTdesc k i.ra).fmt = false) : mmaCheck k i = some { cause := 0x07 } :=
  if_pos (by rcases h with h | h | h <;> simp [h])

theorem wldCheck_operand (h : (issueTdesc k i.ra).loc ≠ 0 ∨ fmtNarrow (issueTdesc k i.ra).fmt = false) :
    wldCheck k i = some { cause := 0x07 } :=
  if_pos (by rcases h with h | h <;> simp [h])

theorem mmaCheck_cause (h : mmaCheck k i = some f) : f.cause = 0x06 ∨ f.cause = 0x07 ∨ f.cause = 0x08 := by
  unfold mmaCheck at h
  extract_lets a b fl v d at h
  (repeat' split at h) <;> cases h <;> simp only [true_or, or_true]

theorem nrwCheck_cause {gov : Option (Setting × Setting)} (h : nrwCheck k i gov = some f) : f.cause = 0x06 ∨ f.cause = 0x07 := by
  unfold nrwCheck at h
  extract_lets dual src d1 d2 dsts badFmt at h
  (repeat' split at h) <;> cases h <;> simp only [true_or, or_true]

end

/-! ## Instructions that fail their check -/

section
variable {s : State} {c : Nat} {i : NInstr} {f : Flt}

theorem isOp_of {op : Nat} (h : i.op = op) : isOp op i = true := by rw [isOp, h, beq_self_eq_true]

theorem exec_mma_fault (h : Issues s c i) (hop : i.op = 0x30) (hf : mmaCheck (getCore s c) i = some f) :
    exec (.mma c) s = .next (issueFault c (getCore s c) i f s) := by
  show execMma c s = _
  simp only [execMma, issueOp_run h (isOp_of hop), hf]

theorem exec_wld_fault (h : Issues s c i) (hop : i.op = 0x31) (hf : wldCheck (getCore s c) i = some f) :
    exec (.wld c) s = .next (issueFault c (getCore s c) i f s) := by
  show execWld c s = _
  simp only [execWld, issueOp_run h (isOp_of hop), hf]

theorem exec_wldm_fault (h : Issues s c i) (hop : i.op = 0x32) (hf : wldCheck (getCore s c) i = some f) :
    exec (.wldm c) s = .next (issueFault c (getCore s c) i f s) := by
  show execWldm c s = _
  simp only [execWldm, issueOp_run h (isOp_of hop), hf]

theorem exec_nrw_fault (h : Issues s c i) (hop : i.op = 0x33)
    (hf : nrwCheck (getCore s c) i (nrwSetting s (getCore s c).part i ((sreg (getCore s c) i.rd).toNat % 65536)) = some f) :
    exec (.nrw c) s = .next (issueFault c (getCore s c) i f s) := by
  have hlayer : bitsOf (sreg (getCore s c) i.rd).toNat 0 16 = (sreg (getCore s c) i.rd).toNat % 65536 := by simp [bitsOf]
  show execNrw c s = _
  simp only [execNrw, issueOp_run h (isOp_of hop), hlayer, hf]

end

/-- Settles O7: an operand that its rule turns away fails the check (`mmaCheck_operands`, `wldCheck_operand`), an instruction that fails
its check faults at issue (`exec_mma_fault` and those after it), and its core is then as `issueFault_faulted` says. -/
theorem operandFaults : Obligations.OperandFaults := by
  unfold Obligations.OperandFaults
  intro s c i h hstep
  dsimp only
  have faulted {f : Flt} (hf : f.cause < 2 ^ 8) := issueFault_faulted h hstep hf
  refine ⟨fun hop ha => ⟨_, exec_mma_fault h hop (mmaCheck_operands ha), faulted (by decide)⟩, fun hop f hf => ?_,
    fun hop ha => ⟨_, exec_wld_fault h hop (wldCheck_operand ha), faulted (by decide)⟩,
    fun hop ha => ⟨_, exec_wldm_fault h hop (wldCheck_operand ha), faulted (by decide)⟩, fun hop f hf => ?_⟩
  · have hcause := mmaCheck_cause hf
    exact ⟨_, exec_mma_fault h hop hf, faulted (by omega)⟩
  · have hcause := nrwCheck_cause hf
    exact ⟨_, exec_nrw_fault h hop hf, faulted (by omega)⟩

end Sys2Proof.Machine
end

section
/-!
PROOFS. The rows of an MMA (R99, R105, R120 to R124): what its feeders keep of their core and which rows they bring into an array, which
accumulator entries promotion, write-back and record leave as they were, and from these the statement about an MMA's rows.
-/
namespace Sys2Proof.Machine

/-! ## Maps and folds that stop at a fault -/

/-- A property that every step of a fold keeps holds where the fold stops. -/
theorem foldStop_induct {σ α : Type} {f : σ → α → σ × Option Flt} {motive : σ → Prop} (l : List α) (s : σ) (start : motive s)
    (step : ∀ s, ∀ a ∈ l, motive s → motive (f s a).1) : motive (foldStop f s l).1 := by
  induction l generalizing s with
  | nil => exact start
  | cons a l ih =>
    have hone := step s a List.mem_cons_self start
    unfold foldStop
    split
    next s' hs => rw [hs] at hone; exact ih s' hone fun s b hb => step s b (List.mem_cons_of_mem a hb)
    next s' e hs => rwa [hs] at hone

theorem mem_mapExcept {ε α β : Type} {f : α → Except ε β} {l : List α} {m : List β} (h : mapExcept f l = .ok m) {b : β} (hb : b ∈ m) :
    ∃ a ∈ l, f a = .ok b := by
  induction l generalizing m with
  | nil => cases h; cases hb
  | cons a l ih =>
    unfold mapExcept at h
    split at h
    · cases h
    next b' hf =>
      split at h
      · cases h
      next m' hm =>
        cases h
        rcases List.mem_cons.mp hb with rfl | hb
        · exact ⟨a, List.mem_cons_self, hf⟩
        · obtain ⟨a', ha', hfa⟩ := ih hm hb
          exact ⟨a', List.mem_cons_of_mem a ha', hfa⟩

/-! ## What the feeders bring in (R99, R100, R105) -/

/-- A pass of an MMA: one of its column tiles, with rows of its streaming operand. -/
structure Within (p : MmaPar) (t : TilePass) : Prop where
  tile : t.nt < p.nt
  rows : ∀ r ∈ t.slabs.flatten, r.1 < p.m

/-- What feeders have done on a core: they changed its stationary buffers alone, and every pass is one of the MMA. -/
structure Fed (p : MmaPar) (k : Core) (st : Streamed) : Prop where
  core : ∃ bufs, st.core = { k with bufs := bufs }
  passes : ∀ t ∈ st.passes, Within p t

theorem readSlab_rows {c : Core} {p : MmaPar} {nt kt : Nat} {sg : Nat × Int} {l : Slab} (h : readSlab c p nt kt sg = .ok (some l)) :
    ∀ r ∈ l, r.1 < p.m := by
  intro r hr
  unfold readSlab at h
  extract_lets rps rows at h
  split at h
  · cases h
  · split at h
    · cases h
    next m hm =>
      cases h
      obtain ⟨a, ha, hfa⟩ := mem_mapExcept hm hr
      have hlive := (List.mem_filter.mp ha).2
      rw [Bool.and_eq_true, decide_eq_true_iff] at hlive
      split at hfa
      · cases hfa
      · cases hfa; exact hlive.1

theorem length_mmaAddrs_le (p : MmaPar) (shared : Bool) (n : Nat) (sa sb : List Int) : (mmaAddrs p shared n sa sb).length ≤ n := by
  induction n generalizing sa sb with
  | zero => exact Nat.le_refl 0
  | succ n ih =>
    unfold mmaAddrs
    extract_lets pre b sa'
    split
    · exact Nat.zero_le _
    · split
      · exact Nat.succ_le_succ (Nat.zero_le n)
      · exact Nat.succ_le_succ (ih _ _)

theorem streamTile_fed {p : MmaPar} {k : Core} {st : Streamed} (h : Fed p k st) {x : Nat × Option Int × List Int} (hx : x.1 < p.tiles) :
    Fed p k (streamTile p st x).1 := by
  obtain ⟨⟨bufs, hcore⟩, hpasses⟩ := h
  have htile : x.1 / p.kt < p.nt := Nat.div_lt_of_lt_mul (by rwa [Nat.mul_comm])
  unfold streamTile
  extract_lets nt kt buf blocks loaded
  have hloaded : ∀ c, loaded = .ok c → ∃ bufs, c = { k with bufs := bufs } := by
    intro c hc
    unfold loaded at hc
    split at hc
    · cases hc; exact ⟨bufs, hcore⟩
    · split at hc
      · cases hc
      · cases hc; exact ⟨_, by rw [setBuf, hcore]⟩
  clear_value loaded
  split
  · exact ⟨⟨bufs, hcore⟩, hpasses⟩
  next c =>
    refine ⟨hloaded c rfl, fun t ht => ?_⟩
    rcases List.mem_append.mp ht with ht | ht
    · exact hpasses t ht
    · rw [List.mem_singleton.mp ht]
      refine ⟨htile, ?_⟩
      refine foldStop_induct (motive := fun y : List Slab × Nat => ∀ r ∈ y.1.flatten, r.1 < p.m) _ _ (by simp) fun y sg _ hy => ?_
      split
      · exact hy
      · exact hy
      next l hl =>
        intro r hr
        rw [List.flatten_append, List.flatten_singleton] at hr
        exact (List.mem_append.mp hr).elim (hy r) (readSlab_rows hl r)

theorem mmaStream_fed (k : Core) (p : MmaPar) (shared : Bool) (sa sb : List Int) : Fed p k (mmaStream k p shared sa sb).1 := by
  unfold mmaStream
  extract_lets seq
  refine foldStop_induct (motive := Fed p k) _ _ ⟨⟨k.bufs, rfl⟩, fun t ht => by cases ht⟩ fun st x hx hst => streamTile_fed hst ?_
  have hlt := List.mem_range.mp (List.of_mem_zip hx).1
  exact Nat.lt_of_lt_of_le hlt (length_mmaAddrs_le p shared p.tiles sa sb)

theorem runMma_fed (k : Core) (q : Queued) (tds : List Bytes) (got : Tbl (List Int)) :
    Fed (mmaPar q tds (runMma k q tds got).1) k (runMma k q tds got).2.1 := by
  unfold runMma
  extract_lets mk mask imm sa sb
  split
  · exact ⟨⟨k.bufs, rfl⟩, fun t ht => by cases ht⟩
  · exact mmaStream_fed k _ _ _ _

/-! ## What promotion, write-back and record leave (R105, R121, R124) -/

/-- An accumulator entry that no MMA of these parameters works on: of the other array, or of a row outside its rows. -/
structure Outside (p : MmaPar) (array row col : Nat) : Prop where
  array_lt : array < 2
  row_lt : row < 512
  col_lt : col < 32
  apart : array ≠ p.array ∨ row < p.base ∨ p.base + p.m * p.nt ≤ row

/-- A core after work of an MMA: only SRAM and accumulators may differ, and no entry outside the MMA's rows does. -/
structure InRows (p : MmaPar) (h t : Core) : Prop where
  core : ∃ sram acc, t = { h with sram := sram, acc := acc }
  outside : ∀ array row col, Outside p array row col → accGet t array row col = accGet h array row col

theorem InRows.refl (p : MmaPar) (h : Core) : InRows p h h := ⟨⟨h.sram, h.acc, rfl⟩, fun _ _ _ _ => rfl⟩

/-- Setting one number leaves every other as it was, whatever an unlisted one reads as. -/
theorem get_set_ne_dflt {α : Type} [DecidableEq α] (d d' : α) (t : Tbl α) {k j : Nat} (v : α) (h : j ≠ k) :
    Tbl.get d' (Tbl.set d t k v) j = Tbl.get d' t j := by
  unfold Tbl.set
  split
  · exact Tbl.get_erase_ne d' t h
  · rw [Tbl.get_insert_ne d' _ v h, Tbl.get_erase_ne d' t h]

theorem accGet_accSet_ne {c : Core} {array row col array' row' col' v : Nat} (h : accKey array' row' col' ≠ accKey array row col) :
    accGet (accSet c array row col v) array' row' col' = accGet c array' row' col' :=
  congrArg BitVec.toNat (get_set_ne_dflt _ _ c.acc _ h)

/-- The entry of row `r` of a column tile of an MMA is none outside its rows. -/
theorem Outside.accKey_ne {p : MmaPar} {array row col : Nat} (h : Outside p array row col) (hp : p.base + p.m * p.nt ≤ 512)
    {nt r n : Nat} (hnt : nt < p.nt) (hr : r < p.m) (hn : n < 32) :
    accKey array row col ≠ accKey p.array (p.base + nt * p.m + r) n := by
  obtain ⟨harray, hrow, hcol, hapart⟩ := h
  have htop : nt * p.m + p.m ≤ p.m * p.nt := by
    rw [← Nat.succ_mul, Nat.mul_comm p.m]; exact Nat.mul_le_mul_right _ hnt
  generalize nt * p.m = below, p.m * p.nt = all at *
  unfold accKey
  omega

theorem sramWr_core (k : Core) (a : Nat) (d : Bytes) : ∃ sram, sramWr k a d = { k with sram := sram } := by
  induction d generalizing k a with
  | nil => exact ⟨k.sram, rfl⟩
  | cons b d ih =>
    obtain ⟨sram, h⟩ := ih { k with sram := Tbl.set (sramDflt k a) k.sram a b } (a + 1)
    exact ⟨sram, h⟩

/-- An element written to a wide tensor in core SRAM (R186). -/
theorem widePut_sram {c c' : Core} {d : Tdesc} (hloc : d.loc = 0) {r j code : Nat} (h : widePut c d r j code = .ok c') :
    ∃ a b, c' = sramWr c a b := by
  simp only [widePut, widePlace, if_pos hloc] at h
  by_cases hin : inSram ((d.data + r * d.pitch + j * wideSize d.fmt : Nat) : Int) (wideSize d.fmt) = true
  · rw [if_pos hin] at h; cases h; exact ⟨_, _, rfl⟩
  · rw [if_neg hin] at h; cases h

theorem InRows.sramWr {p : MmaPar} {h t : Core} (ht : InRows p h t) (a : Nat) (d : Bytes) : InRows p h (sramWr t a d) := by
  obtain ⟨⟨_, acc, hcore⟩, hout⟩ := ht
  obtain ⟨sram, hwr⟩ := sramWr_core t a d
  rw [hwr]
  exact ⟨⟨sram, acc, by rw [hcore]⟩, hout⟩

section
variable {p : MmaPar} (hp : p.base + p.m * p.nt ≤ 512) {h t : Core}
include hp

theorem InRows.accSet (ht : InRows p h t) {nt r n : Nat} (hnt : nt < p.nt) (hr : r < p.m) (hn : n < 32) (v : Nat) :
    InRows p h (accSet t p.array (p.base + nt * p.m + r) n v) := by
  obtain ⟨⟨sram, _, hcore⟩, hout⟩ := ht
  refine ⟨⟨sram, _, by rw [Machine.accSet, hcore]⟩, fun array row col hentry => ?_⟩
  rw [accGet_accSet_ne (hentry.accKey_ne hp hnt hr hn), hout array row col hentry]

theorem promotePass_inRows {x : Nat × TilePass} (hx : Within p x.2) (fixes : List Fix) {st : Core × MmaCnt} (hst : InRows p h st.1) :
    InRows p h (promotePass p fixes st x).1 := by
  unfold promotePass
  refine List.foldlRecOn (motive := fun st : Core × MmaCnt => InRows p h st.1) _ _ hst fun st hst r hr => ?_
  refine List.foldlRecOn (motive := fun st : Core × MmaCnt => InRows p h st.1) _ _ hst fun st hst b _ => ?_
  refine List.foldlRecOn (motive := fun st : Core × MmaCnt => InRows p h st.1) _ _ hst fun st hst n hn => ?_
  exact InRows.accSet hp hst hx.tile (hx.rows r hr) (List.mem_range.mp (List.mem_filter.mp hn).1) _

theorem mmaPromote_inRows {passes : List TilePass} (hpasses : ∀ t ∈ passes, Within p t) (fixes : List Fix) :
    InRows p h (mmaPromote h p passes fixes).1 :=
  List.foldlRecOn (motive := fun st : Core × MmaCnt => InRows p h st.1) _ _ (.refl p h) fun _ hst _ hx =>
    promotePass_inRows hp (hpasses _ (List.of_mem_zip hx).2) fixes hst

/-- A write-back in place stays in the rows; one to a destination in core SRAM touches no accumulator. -/
theorem mmaWriteBack_inRows {dst : Option Tdesc} (hdst : ∀ d, dst = some d → d.loc = 0) {st : Core × MmaCnt} (hst : InRows p h st.1)
    {mn : Nat × Nat} (hm : mn.1 < p.m) (hn : mn.2 < p.n) : InRows p h (mmaWriteBack p dst st mn).1.1 := by
  have hnt : mn.2 / 32 < p.nt := by unfold MmaPar.nt; omega
  unfold mmaWriteBack
  extract_lets nt row x
  split
  · exact hst
  · split
    · exact InRows.accSet hp hst hnt hm (Nat.mod_lt _ (by decide)) _
    next d =>
      extract_lets w
      split
      · exact hst
      next c hc =>
        obtain ⟨a, b, rfl⟩ := widePut_sram (hdst d rfl) hc
        exact hst.sramWr a b

theorem mmaFinish_inRows {r : Running} (hpasses : ∀ t ∈ r.passes, Within p t) {wb : Option Tdesc} (hwb : ∀ d, wb = some d → d.loc = 0)
    (recAddr : Nat) : InRows p h (mmaFinish h p r wb recAddr).1 := by
  have hpromoted : InRows p h (mmaPromote h p r.passes r.fixes).1 := mmaPromote_inRows hp hpasses r.fixes
  unfold mmaFinish
  extract_lets st _ st' ents
  have hents : ∀ mn ∈ ents, mn.1 < p.m ∧ mn.2 < p.n := by simp [ents]; omega
  have hback : InRows p h (if bitOf p.flags 1 || bitOf p.flags 2 then foldStop (mmaWriteBack p wb) st' ents else (st', none)).1.1 := by
    split
    · exact foldStop_induct (motive := fun st : Core × MmaCnt => InRows p h st.1) _ _ hpromoted fun st mn hmn hst =>
        mmaWriteBack_inRows hp hwb hst (hents mn hmn).1 (hents mn hmn).2
    · exact hpromoted
  split
  next hs => rwa [hs] at hback
  next hs =>
    rw [hs] at hback
    dsimp only
    split
    · exact hback.sramWr _ _
    · exact hback

end

/-- Settles O9: feeders change stationary buffers alone and bring in rows of the MMA (`runMma_fed`); its end then writes SRAM and those
rows alone (`mmaFinish_inRows`). -/
theorem mmaStaysInItsRows : Obligations.MmaStaysInItsRows := by
  unfold Obligations.MmaStaysInItsRows
  intro k h q tds got fixes tr lf array row col
  extract_lets p x r t kept
  obtain ⟨⟨bufs, hcore⟩, hpasses⟩ := runMma_fed k q tds got
  refine ⟨by rw [hcore], by rw [hcore], by simp only [kept]; rw [hcore]; exact ⟨rfl, rfl, rfl⟩,
    fun hfit harray hrow hcol hapart hloc => ?_⟩
  have hwb : ∀ d, (if bitOf p.flags 1 && !bitOf p.flags 2 then some (tdAt tds 2) else none) = some d → d.loc = 0 := by
    intro d hd
    split at hd
    next hflags => cases hd; simp only [Bool.and_eq_true, Bool.not_eq_true'] at hflags; exact hloc hflags.1 hflags.2
    · cases hd
  have hend : InRows (mmaPar q tds x.1) h t := mmaFinish_inRows (p := mmaPar q tds x.1) hfit hpasses hwb _
  obtain ⟨sram, acc, ht⟩ := hend.core
  exact ⟨hend.outside array row col ⟨harray, hrow, hcol, hapart⟩, by simp only [kept]; rw [ht]; exact ⟨rfl, rfl, rfl⟩⟩

end Sys2Proof.Machine
end

section
/-!
PROOFS. The check lane's sums (R107, R108, R115, R116, R126): what a run sum loses of the exact sum of its products, what the loss of a
group of runs can be, and from these which comparisons pass and which an injection makes fail.
-/
namespace Sys2Proof.Machine

/-! ## Sums over a list -/

section
variable {α : Type} {l : List α} {f : α → Int}

theorem sum_map_add_int (l : List α) (f g : α → Int) : (l.map fun a => f a + g a).sum = (l.map f).sum + (l.map g).sum := by
  induction l with
  | nil => rfl
  | cons a l ih => simp only [List.map_cons, List.sum_cons, ih]; omega

theorem sum_map_mul_int (l : List α) (f : α → Int) (d : Int) : (l.map fun a => f a * d).sum = (l.map f).sum * d := by
  induction l with
  | nil => exact (Int.zero_mul d).symm
  | cons a l ih => simp only [List.map_cons, List.sum_cons, ih, Int.add_mul]

theorem sum_map_nonneg_int (h : ∀ a ∈ l, 0 ≤ f a) : 0 ≤ (l.map f).sum := by
  induction l with
  | nil => exact Int.le_refl 0
  | cons a l ih =>
    have hhead := h a List.mem_cons_self
    have htail := ih fun b hb => h b (List.mem_cons_of_mem a hb)
    rw [List.map_cons, List.sum_cons]
    omega

theorem sum_map_le_int {n : Int} (h : ∀ a ∈ l, f a ≤ n) : (l.map f).sum ≤ l.length * n := by
  induction l with
  | nil => exact Int.le_of_eq (Int.zero_mul n).symm
  | cons a l ih =>
    have hhead := h a List.mem_cons_self
    have htail := ih fun b hb => h b (List.mem_cons_of_mem a hb)
    rw [List.map_cons, List.sum_cons, List.length_cons, Int.natCast_add, Int.add_mul, Int.natCast_one, Int.one_mul]
    omega

theorem sum_map_zero_int (h : ∀ a ∈ l, f a = 0) : (l.map f).sum = 0 := by
  have hlow := sum_map_nonneg_int fun a ha => Int.le_of_eq (h a ha).symm
  have hhigh := sum_map_le_int fun a ha => Int.le_of_eq (h a ha)
  rw [Int.mul_zero] at hhigh
  omega

end

/-! ## The loss of a run sum (R107, R108) -/

/-- The products of two blocks' codes, in units of the square of the element unit. -/
def runProducts (fmt : Nat) (a b : List Nat) : List Int := (a.zip b).map fun x => elemInt fmt x.1 * elemInt fmt x.2

/-- The largest product magnitude of a run. -/
def runBig (fmt : Nat) (a b : List Nat) : Nat := ((runProducts fmt a b).map Int.natAbs).foldl max 0

/-- How many bits the window of R108 drops from the products of a run. -/
def runShift (fmt : Nat) (a b : List Nat) : Nat := if fmt == fE5M2 then (runBig fmt a b).log2 - 41 else 0

/-- The exponent of a format's product quantum in the unit of comparison. -/
def unitShift (fmt : Nat) : Nat := (2 * elemUnit fmt - chkUnit fmt).toNat

/-- What a run sum lacks of the exact sum of its products, in the unit of comparison. -/
def runLoss (fmt : Nat) (a b : List Nat) : Int :=
  ((runProducts fmt a b).map fun x => x % (2 ^ runShift fmt a b : Int)).sum * 2 ^ unitShift fmt

theorem chkUnit_add_unitShift (fmt : Nat) : chkUnit fmt + unitShift fmt = 2 * elemUnit fmt := by
  unfold unitShift chkUnit; split <;> omega

theorem unitShift_e5m2 : unitShift fE5M2 = 41 := by decide

/-- A run without a special value. -/
theorem runVal_finite {fmt : Nat} {a b : List Nat} (h : (runVal fmt a b).special = none) :
    (runVal fmt a b).s = ((runProducts fmt a b).map fun x => x / (2 ^ runShift fmt a b : Int)).sum ∧
    (runVal fmt a b).u = 2 * elemUnit fmt + runShift fmt a b ∧
    (runVal fmt a b).top = if runBig fmt a b = 0 then none else some (2 * elemUnit fmt + (runBig fmt a b).log2) := by
  unfold runVal at h ⊢
  extract_lets at h ⊢
  split at h
  · cases h
  next hfin => rw [if_neg hfin]; exact ⟨rfl, rfl, rfl⟩

theorem sum_ediv_mul_add_sum_emod (l : List Int) (d : Int) : (l.map fun x => x / d).sum * d + (l.map fun x => x % d).sum = l.sum := by
  induction l with
  | nil => simp
  | cons a l ih =>
    have hdiv := Int.ediv_mul_add_emod a d
    simp only [List.map_cons, List.sum_cons, Int.add_mul]
    omega

theorem inUnit_add_runLoss {fmt : Nat} {a b : List Nat} (h : (runVal fmt a b).special = none) :
    (runVal fmt a b).inUnit fmt + runLoss fmt a b = (runProducts fmt a b).sum * 2 ^ unitShift fmt := by
  obtain ⟨hs, hu, -⟩ := runVal_finite h
  have hunit := chkUnit_add_unitShift fmt
  have hexp : ((runVal fmt a b).u - chkUnit fmt).toNat = runShift fmt a b + unitShift fmt := by omega
  rw [RunVal.inUnit, hexp, hs, runLoss, Int.pow_add, ← Int.mul_assoc, ← Int.add_mul, sum_ediv_mul_add_sum_emod]

theorem runLoss_unshifted {fmt : Nat} {a b : List Nat} (h : runShift fmt a b = 0) : runLoss fmt a b = 0 := by
  rw [runLoss, h, Int.pow_zero, sum_map_zero_int fun x _ => Int.emod_one x, Int.zero_mul]

theorem runLoss_exact {fmt : Nat} (hf : fmt ≠ fE5M2) (a b : List Nat) : runLoss fmt a b = 0 :=
  runLoss_unshifted (if_neg fun h => hf (beq_iff_eq.mp h))

theorem runLoss_nonneg (fmt : Nat) (a b : List Nat) : 0 ≤ runLoss fmt a b :=
  Int.mul_nonneg (sum_map_nonneg_int fun x _ => Int.emod_nonneg x (Int.pow_ne_zero (by decide))) (Int.pow_nonneg (by decide))

theorem le_topExp {runs : List RunVal} {r : RunVal} (hr : r ∈ runs) {e : Int} (he : r.top = some e) : e ≤ topExp runs := by
  have hmem : e ∈ runs.filterMap RunVal.top := List.mem_filterMap.mpr ⟨r, hr, he⟩
  unfold topExp
  split
  next hnil => rw [hnil] at hmem; cases hmem
  next p t hcons =>
    rw [hcons] at hmem
    exact (List.max?_eq_some_iff.mp (List.max?_cons' (x := p) (xs := t))).2 e hmem

theorem le_topExp_of_tops {runs : List RunVal} {e : Int} (he : e ≤ -32) (h : ∀ r ∈ runs, ∀ p, r.top = some p → e ≤ p) :
    e ≤ topExp runs := by
  unfold topExp
  split
  · exact he
  next p t hcons =>
    have hmax := (List.max?_eq_some_iff.mp (List.max?_cons' (x := p) (xs := t))).1
    rw [← hcons] at hmax
    obtain ⟨r, hr, hp⟩ := List.mem_filterMap.mp hmax
    exact h r hr _ hp

/-- The exponent of R116's bound in the unit of comparison. -/
def boundExp (fmt : Nat) (runs : List RunVal) : Nat := (topExp runs - 34 - chkUnit fmt).toNat

/-- At most 32 products of E5M2 lose less than a quarter of R116's bound. -/
theorem runLoss_lt {a b : List Nat} (hb : b.length ≤ 32) (hfin : (runVal fE5M2 a b).special = none) {runs : List RunVal}
    (hr : runVal fE5M2 a b ∈ runs) : 4 * runLoss fE5M2 a b ≤ 2 ^ boundExp fE5M2 runs - 1 := by
  obtain ⟨-, -, htop⟩ := runVal_finite hfin
  have hpos : (0 : Int) < 2 ^ boundExp fE5M2 runs := Int.pow_pos (by decide)
  by_cases hsh : runShift fE5M2 a b = 0
  · have hzero := runLoss_unshifted hsh
    omega
  have hshift : runShift fE5M2 a b = (runBig fE5M2 a b).log2 - 41 := rfl
  have hbig : runBig fE5M2 a b ≠ 0 := by intro h0; rw [h0] at hshift; exact hsh hshift
  rw [if_neg hbig] at htop
  have hle := le_topExp hr htop
  have hquantum : 2 * elemUnit fE5M2 = -32 := by decide
  have hunit : chkUnit fE5M2 = -73 := by decide
  have hexp : runShift fE5M2 a b + 48 ≤ boundExp fE5M2 runs := by unfold boundExp; omega
  have hlen : (runProducts fE5M2 a b).length ≤ 32 := by simp [runProducts]; omega
  have hsum : ((runProducts fE5M2 a b).map fun x => x % (2 ^ runShift fE5M2 a b : Int)).sum ≤ 32 * (2 ^ runShift fE5M2 a b - 1) := by
    have hpow : (0 : Int) < 2 ^ runShift fE5M2 a b := Int.pow_pos (by decide)
    have hmost := sum_map_le_int (l := runProducts fE5M2 a b) (n := 2 ^ runShift fE5M2 a b - 1) fun x _ =>
      Int.le_sub_one_of_lt (Int.emod_lt_of_pos x hpow)
    exact Int.le_trans hmost (Int.mul_le_mul_of_nonneg_right (Int.ofNat_le.mpr hlen) (by omega))
  have hgrow : (2 : Int) ^ (runShift fE5M2 a b + 48) ≤ 2 ^ boundExp fE5M2 runs :=
    mod_cast Nat.pow_le_pow_right (by decide : 0 < 2) hexp
  rw [Int.pow_add] at hgrow
  rw [runLoss, unitShift_e5m2]
  omega

/-! ## A group (R115) -/

/-- A group of rows and a column as an array holds them, without a special value: at most 4 runs of at most 32 products. -/
structure FiniteGroup (fmt : Nat) (rows : List (List Nat)) (col : List Nat) : Prop where
  rows_le : rows.length ≤ 4
  col_le : col.length ≤ 32
  even : ∀ r ∈ rows, r.length = col.length
  finite : ∀ r ∈ rows, (runVal fmt r col).special = none

/-- The runs of a group. -/
def groupRuns (fmt : Nat) (rows : List (List Nat)) (col : List Nat) : List RunVal := rows.map fun a => runVal fmt a col

/-- The run sums of a group in the unit of comparison. -/
def runSums (fmt : Nat) (rows : List (List Nat)) (col : List Nat) : List Int := (groupRuns fmt rows col).map fun r => r.inUnit fmt

theorem sum_runProducts {a b : List Nat} (fmt : Nat) (h : a.length = b.length) : (runProducts fmt a b).sum =
    ((List.range b.length).map fun k => elemInt fmt (a.getD k 0) * elemInt fmt (b.getD k 0)).sum := by
  refine congrArg List.sum (List.ext_getElem (by simp [runProducts, h]) fun i hi hi' => ?_)
  have hb : i < b.length := by simpa using hi'
  simp [runProducts, List.getD_eq_getElem?_getD, hb, h ▸ hb]

/-- Summing rows first, as the check lane does, or columns first. -/
theorem sum_rows_mul (f : List Nat → Nat → Int) (g : Nat → Int) (rows : List (List Nat)) (l : List Nat) :
    (l.map fun k => (rows.map fun r => f r k).sum * g k).sum = (rows.map fun r => (l.map fun k => f r k * g k).sum).sum := by
  induction rows with
  | nil => exact sum_map_zero_int fun k _ => Int.zero_mul (g k)
  | cons r rows ih => simp only [List.map_cons, List.sum_cons, Int.add_mul, sum_map_add_int, ih]

theorem checkSum_eq_sum_products {fmt : Nat} {rows : List (List Nat)} {col : List Nat} (h : ∀ r ∈ rows, r.length = col.length) :
    checkSum fmt rows col = (rows.map fun r => (runProducts fmt r col).sum * 2 ^ unitShift fmt).sum := by
  rw [sum_map_mul_int, List.map_congr_left fun r hr => sum_runProducts fmt (h r hr)]
  exact congrArg (· * 2 ^ unitShift fmt) (sum_rows_mul ..)

theorem checkSum_eq {fmt : Nat} {rows : List (List Nat)} {col : List Nat} (h : FiniteGroup fmt rows col) :
    checkSum fmt rows col = (runSums fmt rows col).sum + (rows.map fun r => runLoss fmt r col).sum := by
  rw [checkSum_eq_sum_products h.even, runSums, groupRuns, List.map_map, ← sum_map_add_int]
  exact congrArg List.sum (List.map_congr_left fun r hr => (inUnit_add_runLoss (h.finite r hr)).symm)

theorem checkSum_exact {fmt : Nat} {rows : List (List Nat)} {col : List Nat} (h : FiniteGroup fmt rows col) (hf : fmt ≠ fE5M2) :
    checkSum fmt rows col = (runSums fmt rows col).sum := by
  rw [checkSum_eq h, sum_map_zero_int fun r _ => runLoss_exact hf r col, Int.add_zero]

/-- The check lane's E5M2 result lies above the run sums by less than R116's bound. -/
theorem checkSum_e5m2 {rows : List (List Nat)} {col : List Nat} (h : FiniteGroup fE5M2 rows col) :
    0 ≤ checkSum fE5M2 rows col - (runSums fE5M2 rows col).sum ∧
    checkSum fE5M2 rows col - (runSums fE5M2 rows col).sum < 2 ^ boundExp fE5M2 (groupRuns fE5M2 rows col) := by
  have hpos : (0 : Int) < 2 ^ boundExp fE5M2 (groupRuns fE5M2 rows col) := Int.pow_pos (by decide)
  have hlow : 0 ≤ (rows.map fun r => runLoss fE5M2 r col).sum := sum_map_nonneg_int fun r _ => runLoss_nonneg fE5M2 r col
  have hhigh := sum_map_le_int (f := fun r => runLoss fE5M2 r col * 4) (n := 2 ^ boundExp fE5M2 (groupRuns fE5M2 rows col) - 1) fun r hr => by
    rw [Int.mul_comm]; exact runLoss_lt h.col_le (h.finite r hr) (List.mem_map_of_mem hr)
  rw [sum_map_mul_int] at hhigh
  have hfour := Int.le_trans hhigh (Int.mul_le_mul_of_nonneg_right (Int.ofNat_le.mpr h.rows_le) (by omega))
  have heq := checkSum_eq h
  omega

/-- The bit that an injection flips in an E5M2 group weighs 32 times R116's bound. -/
theorem injectBit_e5m2 {rows : List (List Nat)} {col : List Nat} (h : FiniteGroup fE5M2 rows col) :
    injectBit fE5M2 (groupRuns fE5M2 rows col) = boundExp fE5M2 (groupRuns fE5M2 rows col) + 5 := by
  have hquantum : 2 * elemUnit fE5M2 = -32 := by decide
  have hlow : -32 ≤ topExp (groupRuns fE5M2 rows col) := le_topExp_of_tops (by decide) fun r hr p hp => by
    obtain ⟨a, ha, rfl⟩ := List.mem_map.mp hr
    rw [(runVal_finite (h.finite a ha)).2.2] at hp
    split at hp
    · cases hp
    · cases hp; omega
  have hunit : chkUnit fE5M2 = -73 := by decide
  have hbit : injectBit fE5M2 (groupRuns fE5M2 rows col) = (topExp (groupRuns fE5M2 rows col) - 29 - chkUnit fE5M2).toNat := rfl
  unfold boundExp
  omega

/-! ## Comparisons (R115, R116, R126) -/

theorem checkPasses_exact_iff {fmt : Nat} (hf : fmt ≠ fE5M2) {runs : List RunVal} {sums : List Int} {c : Int} :
    checkPasses fmt runs sums c = true ↔ sums.sum = c := by
  rw [checkPasses, if_neg (by simpa using hf), beq_iff_eq, eq_comm]

theorem checkPasses_e5m2_iff {runs : List RunVal} {sums : List Int} {c : Int} :
    checkPasses fE5M2 runs sums c = true ↔ (c - sums.sum).natAbs < 2 ^ boundExp fE5M2 runs := by
  rw [checkPasses, if_pos (by decide), decide_eq_true_iff, boundExp]

theorem natAbs_lt_two_pow (x : Int) (n : Nat) : x.natAbs < 2 ^ n ↔ -2 ^ n < x ∧ x < 2 ^ n := by
  have hcast : ((2 ^ n : Nat) : Int) = 2 ^ n := Int.natCast_pow 2 n
  omega

/-- Without an error the comparison passes. -/
theorem checkPasses_group {fmt : Nat} {rows : List (List Nat)} {col : List Nat} (h : FiniteGroup fmt rows col) :
    checkPasses fmt (groupRuns fmt rows col) (runSums fmt rows col) (checkSum fmt rows col) = true := by
  by_cases hf : fmt = fE5M2
  · subst hf
    obtain ⟨hlow, hhigh⟩ := checkSum_e5m2 h
    rw [checkPasses_e5m2_iff, natAbs_lt_two_pow]
    omega
  · exact (checkPasses_exact_iff hf).mpr (checkSum_exact h hf).symm

theorem flipBit_cases (w : Nat) (v : Int) : flipBit w v - v = 2 ^ w ∨ flipBit w v - v = -2 ^ w := by
  unfold flipBit; split <;> omega

/-- A comparison whose sides differ by the bit that an injection flips fails. -/
theorem checkPasses_flipped {fmt : Nat} {rows : List (List Nat)} {col : List Nat} (h : FiniteGroup fmt rows col) {sums : List Int} {c e : Int}
    (he : e = 2 ^ injectBit fmt (groupRuns fmt rows col) ∨ e = -2 ^ injectBit fmt (groupRuns fmt rows col))
    (hc : c - sums.sum = checkSum fmt rows col - (runSums fmt rows col).sum + e) :
    checkPasses fmt (groupRuns fmt rows col) sums c = false := by
  rw [← Bool.not_eq_true]
  by_cases hf : fmt = fE5M2
  · subst hf
    obtain ⟨hlow, hhigh⟩ := checkSum_e5m2 h
    rw [injectBit_e5m2 h, Int.pow_add] at he
    rw [checkPasses_e5m2_iff, natAbs_lt_two_pow]
    omega
  · have hzero := checkSum_exact h hf
    have hbit : (0 : Int) < 2 ^ injectBit fmt (groupRuns fmt rows col) := Int.pow_pos (by decide)
    rw [checkPasses_exact_iff hf]
    omega

end Sys2Proof.Machine
end

section
/-!
PROOFS. Comparisons, votes and the window's write-one bits (R115 to R120, R124 to R126, R162, R169): what a comparison at a place
finds, what each verdict leaves of its core, and from these the statement about the check lane.
-/
namespace Sys2Proof.Machine

/-! ## Errors on a list of sums -/

theorem length_indexed {α : Type} (l : List α) : (indexed l).length = l.length := by simp [indexed]

theorem length_withErrors (l errs : List Int) : (withErrors l errs).length = l.length := by rw [withErrors, List.length_map, length_indexed]

theorem getElem_withErrors (l errs : List Int) (i : Nat) (h : i < (withErrors l errs).length) :
    (withErrors l errs)[i] = l[i]'(by rwa [length_withErrors] at h) + errs.getD i 0 := by simp [withErrors, indexed]

@[simp] theorem withErrors_nil (l : List Int) : withErrors l [] = l :=
  List.ext_getElem (length_withErrors l []) fun i h _ => by simp [getElem_withErrors]

/-- One error falls on the first number. -/
theorem withErrors_single (a e : Int) (l : List Int) : withErrors (a :: l) [e] = (a + e) :: l :=
  List.ext_getElem (by simp [length_withErrors]) fun i h _ => by cases i <;> simp [getElem_withErrors]

/-! ## What a comparison finds (R115 to R118) -/

section
variable {p : MmaPar} {t : TilePass} {x : LanePlace}

theorem laneCompare_unchecked {errs : List Int} {lane : Int} (ho : x.outlier = false) (h : ∃ r ∈ (groupSums p t x).1, r.special.isSome = true) :
    laneCompare p t x errs lane = none := by
  have hany : ((groupSums p t x).1.any fun r => r.special.isSome) = true := List.any_eq_true.mpr h
  by_cases hx : placeThere t x = true <;> simp [laneCompare, hx, ho, hany]

theorem laneCompare_group (hx : placeThere t x = true) (ho : x.outlier = false) (h : ∀ r ∈ (groupSums p t x).1, r.special = none)
    (errs : List Int) (lane : Int) : laneCompare p t x errs lane =
      if checkPasses p.a.fmt (groupSums p t x).1 (withErrors (groupSums p t x).2 errs) (groupCheck p t x + lane) then none
      else some { place := x, sums := withErrors (groupSums p t x).2 errs, check := groupCheck p t x + lane } := by
  have hany : ((groupSums p t x).1.any fun r => r.special.isSome) = false := by simpa using h
  simp [laneCompare, hx, ho, hany]

theorem laneCompare_noTerm (ho : x.outlier = true) (h : termAt p t x = none) (errs : List Int) (lane : Int) :
    laneCompare p t x errs lane = none := by
  by_cases hx : placeThere t x = true <;> simp [laneCompare, hx, ho, h]

theorem laneCompare_term (hx : placeThere t x = true) (ho : x.outlier = true) {v : Int} (h : termAt p t x = some v) (errs : List Int)
    (lane : Int) : laneCompare p t x errs lane =
      if v + errs.headD 0 = v + lane then none else some { place := x, sums := [v + errs.headD 0], check := v + lane } := by
  simp [laneCompare, hx, ho, h]

/-! ## What a vote finds (R118, R126) -/

variable {v : Vote} {errs : List Int}

theorem laneVote_group (ho : v.place.outlier = false) : laneVote p t v errs =
    if withErrors (groupSums p t v.place).2 errs = v.sums then .laneFault { place := v.place, sums := v.sums }
    else if checkPasses p.a.fmt (groupSums p t v.place).1 (withErrors (groupSums p t v.place).2 errs) v.check then
      .transient { place := v.place, sums := withErrors (groupSums p t v.place).2 errs }
    else .suspect := by
  simp [laneVote, ho]

theorem laneVote_term (ho : v.place.outlier = true) : laneVote p t v errs =
    if [(termAt p t v.place).getD 0 + errs.headD 0] = v.sums then .transient { place := v.place, sums := v.sums }
    else if (termAt p t v.place).getD 0 + errs.headD 0 = v.check then
      .transient { place := v.place, sums := [(termAt p t v.place).getD 0 + errs.headD 0] }
    else .suspect := by
  simp [laneVote, ho]

/-- A place's group, as its comparison takes it, is a group of finite runs. -/
abbrev FinitePlace (p : MmaPar) (t : TilePass) (x : LanePlace) : Prop :=
  FiniteGroup p.a.fmt (groupCodes p t x).1 (groupCodes p t x).2

theorem FinitePlace.special (h : FinitePlace p t x) : ∀ r ∈ (groupSums p t x).1, r.special = none := by
  intro r hr
  obtain ⟨a, ha, rfl⟩ := List.mem_map.mp hr
  exact h.finite a ha

theorem FinitePlace.passes (h : FinitePlace p t x) :
    checkPasses p.a.fmt (groupSums p t x).1 (groupSums p t x).2 (groupCheck p t x) = true := checkPasses_group h

theorem laneCompare_clean (ho : x.outlier = false) (h : FinitePlace p t x) : laneCompare p t x [] 0 = none := by
  by_cases hx : placeThere t x = true
  · rw [laneCompare_group hx ho h.special, withErrors_nil, Int.add_zero, if_pos h.passes]
  · simp [laneCompare, hx]

theorem groupSums_nonempty (hx : placeThere t x = true) : ∃ a l, (groupSums p t x).2 = a :: l := by
  have hrows : groupRows t x.row ≠ [] := by
    intro h; simp [placeThere, h] at hx
  refine List.exists_cons_of_ne_nil fun h => hrows ?_
  simpa [groupSums, groupCodes] using h

/-- An injection in the array is found, and the re-run agrees with the check lane (R126). -/
theorem injectVote_array (hx : placeThere t x = true) (ho : x.outlier = false) (h : FinitePlace p t x) :
    injectVote p t x false = some (.transient { place := x, sums := (groupSums p t x).2 }) := by
  obtain ⟨a, l, hsums⟩ := groupSums_nonempty (p := p) hx
  have hflip := flipBit_cases (injectBit p.a.fmt (groupSums p t x).1) a
  have hbit : (0 : Int) < 2 ^ injectBit p.a.fmt (groupSums p t x).1 := Int.pow_pos (by decide)
  generalize hw : flipBit (injectBit p.a.fmt (groupSums p t x).1) a - a = e at hflip
  have hfails : checkPasses p.a.fmt (groupSums p t x).1 ((a + e) :: l) (groupCheck p t x) = false := by
    have hsum : (runSums p.a.fmt (groupCodes p t x).1 (groupCodes p t x).2).sum = a + l.sum := by
      rw [← List.sum_cons, ← hsums]; rfl
    have hneg : -e = 2 ^ injectBit p.a.fmt (groupSums p t x).1 ∨ -e = -2 ^ injectBit p.a.fmt (groupSums p t x).1 := by omega
    refine checkPasses_flipped h hneg ?_
    rw [hsum, List.sum_cons, groupCheck]
    omega
  have hfound : laneCompare p t x [e] 0 = some { place := x, sums := (a + e) :: l, check := groupCheck p t x } := by
    rw [laneCompare_group hx ho h.special, hsums, withErrors_single, Int.add_zero, hfails]; rfl
  have hne : ¬ a :: l = (a + e) :: l := by simp; omega
  have hpasses := h.passes
  rw [hsums] at hpasses
  simp only [injectVote, hsums, List.headD_cons, hw, hfound, Bool.false_eq_true, if_false, Option.map_some]
  rw [laneVote_group ho, hsums, withErrors_nil, if_neg hne, if_pos hpasses]

/-- An injection in the check lane is found, and the re-run gives the original sums (R126). -/
theorem injectVote_lane (hx : placeThere t x = true) (ho : x.outlier = false) (h : FinitePlace p t x) :
    injectVote p t x true = some (.laneFault { place := x, sums := (groupSums p t x).2 }) := by
  have hflip := flipBit_cases (injectBit p.a.fmt (groupSums p t x).1) (groupCheck p t x)
  generalize hw : flipBit (injectBit p.a.fmt (groupSums p t x).1) (groupCheck p t x) - groupCheck p t x = e at hflip
  have hfails : checkPasses p.a.fmt (groupSums p t x).1 (groupSums p t x).2 (groupCheck p t x + e) = false := by
    have hsums : (groupSums p t x).2 = runSums p.a.fmt (groupCodes p t x).1 (groupCodes p t x).2 := rfl
    refine checkPasses_flipped h hflip ?_
    rw [hsums, groupCheck]
    omega
  have hfound : laneCompare p t x [] e =
      some { place := x, sums := (groupSums p t x).2, check := groupCheck p t x + e } := by
    rw [laneCompare_group hx ho h.special, withErrors_nil, hfails]; rfl
  simp only [injectVote, hw, hfound, if_true, Option.map_some]
  rw [laneVote_group ho, withErrors_nil, if_pos rfl]

end

/-! ## A comparison that is commanded (R118) -/

section
variable {s : State} {c array : Nat} {r : Running} {t : TilePass} {x : LanePlace} {sums : List Int} {lane : Int}

theorem exec_checkLaneDisagree (ha : array ≤ 1) (hr : runningMma (getCore s c) array = some r) (ht : r.passes[x.pass]? = some t)
    (hv : r.verdicts ≤ x.pass) (hn : (getCore s c).votes.get none array = none) :
    exec (.checkLaneDisagree c array x sums lane) s = .next ((laneCompare r.mma t x sums lane).elim s fun v =>
      setCore c { getCore s c with votes := Tbl.set none (getCore s c).votes array (some v)
                                   rerun := Tbl.set [] (getCore s c).rerun array (rerunSlabs t x.row) } s) := by
  have hopen : (decide (1 < array) || decide (x.pass < r.verdicts) || ((getCore s c).votes.get none array).isSome) = false := by
    simp [hn]; omega
  show execCheckLaneDisagree c array x sums lane s = _
  simp only [execCheckLaneDisagree, hr, ht, hopen]
  cases laneCompare r.mma t x sums lane <;> rfl

end

/-! ## CORE_MA_CHK (R125) -/

/-- CORE_MA_CHK of an array. -/
def chkOf (array : Nat) (k : Core) : Word := if array = 0 then k.chk0 else k.chk1

theorem chkOf_updChk (array : Nat) (f : Word → Word) (k : Core) : chkOf array (updChk array f k) = f (chkOf array k) := by
  unfold chkOf updChk; split <;> rfl

section
variable (array : Nat) (f : Word → Word) (k : Core)

@[simp] theorem updChk_run : (updChk array f k).run = k.run := by unfold updChk; split <;> rfl
@[simp] theorem updChk_part : (updChk array f k).part = k.part := by unfold updChk; split <;> rfl
@[simp] theorem updChk_cur : (updChk array f k).cur = k.cur := by unfold updChk; split <;> rfl
@[simp] theorem updChk_acc : (updChk array f k).acc = k.acc := by unfold updChk; split <;> rfl
@[simp] theorem updChk_sram : (updChk array f k).sram = k.sram := by unfold updChk; split <;> rfl
@[simp] theorem updChk_votes : (updChk array f k).votes = k.votes := by unfold updChk; split <;> rfl
@[simp] theorem updChk_fault : (updChk array f k).fault = k.fault := by unfold updChk; split <;> rfl

end

/-- A field of CORE_MA_CHK counts up to 255. -/
theorem bitsOf_bumpField {lo : Nat} (hlo : lo = 0 ∨ lo = 8 ∨ lo = 16) (w : Word) :
    bitsOf (bumpField lo w).toNat lo 8 = min 255 (bitsOf w.toNat lo 8 + 1) := by
  have hw : w.toNat < 2 ^ 32 := w.isLt
  rcases hlo with rfl | rfl | rfl <;>
  · simp only [bumpField, setBits, bitsOf, satTo, BitVec.toNat_ofNat]
    omega

/-! ## What a counted vote leaves (R118, R124) -/

/-- What a vote promotes and counts, in the entry of its MMA. -/
def counted (lane : Bool) (f : Fix) (r : Running) : Running :=
  { r with fixes := f :: r.fixes, laneFaults := r.laneFaults + b2n lane, transients := r.transients + b2n (!lane) }

theorem updMma_congr {array : Nat} {f g : Running → Running} (h : ∀ r, f r = g r) (k : Core) : updMma array f k = updMma array g k := by
  rw [funext h]

theorem runningMma_updMma {array : Nat} {f : Running → Running} (hq : ∀ r, (f r).q = r.q) (hh : ∀ r, (f r).hungry = r.hungry)
    {k : Core} {r : Running} (h : runningMma k array = some r) : runningMma (updMma array f k) array = some (f r) := by
  unfold runningMma at h
  have hmma := List.find?_some h
  have hcur : (updMma array f k).cur.get [] (1 + array) =
      (k.cur.get [] (1 + array)).map fun r => if r.q.ins.op == 0x30 && !r.hungry then f r else r := by
    rw [updMma, Tbl.get_upd, if_pos rfl]
  have hsame : ((fun r : Running => r.q.ins.op == 0x30 && !r.hungry) ∘ fun r => if r.q.ins.op == 0x30 && !r.hungry then f r else r) =
      fun r => r.q.ins.op == 0x30 && !r.hungry := by
    funext r
    rw [Function.comp]
    split
    · rw [hq, hh]
    · rfl
  rw [runningMma, hcur, List.find?_map, hsame, h, Option.map_some, if_pos hmma]

theorem siteFault_cores (t array : Nat) (lane : Bool) (s : State) : (siteFault t array lane s).cores = s.cores := rfl

theorem getCore_noteCore (c : Nat) (code : Status) (s : State) :
    getCore (noteCore c code s) c = { getCore s c with codes := addCode (getCore s c).codes code } := by
  have hnote : getCore (noteStep (getCore s c).part code s) c = getCore s c := rfl
  rw [noteCore, getCore_updCore, if_pos rfl, hnote]

/-- The core after a counted vote: its MMA's entry and CORE_MA_CHK have counted, and of the rest its list of codes alone may differ. -/
theorem getCore_voteCounted (c array : Nat) (lane : Bool) (f : Fix) (s : State) : ∃ codes, getCore (voteCounted c array lane f s) c =
    { updMma array (counted lane f) (updChk array (bumpField (if lane then 8 else 0)) (getCore s c)) with codes := codes } := by
  unfold voteCounted
  extract_lets bumped k posted noted
  have hbumped : getCore bumped c = updMma array (counted lane f) (updChk array (bumpField (if lane then 8 else 0)) (getCore s c)) := by
    rw [getCore_updCore, if_pos rfl]
    exact updMma_congr (fun r => by cases lane <;> rfl) _
  have hposted : getCore posted c = getCore bumped c := getCore_congr rfl c
  have hnoted : ∃ codes, getCore noted c = { getCore posted c with codes := codes } := by
    unfold noted
    split
    · exact ⟨_, rfl⟩
    · exact ⟨_, getCore_noteCore ..⟩
  obtain ⟨codes, hnoted⟩ := hnoted
  refine ⟨codes, Eq.trans ?_ (hnoted.trans (by rw [hposted, hbumped]))⟩
  split
  · exact getCore_congr (siteFault_cores ..) c
  · rfl

/-! ## What a suspect array leaves (R120, R161, R162) -/

/-- A fault of an engine of a running core whose partition has a step open: its record is written, and of the rest its accumulators
and what its engines do alone may differ. -/
theorem getCore_engineFault {s : State} {c e : Nat} (hrun : (getCore s c).run = .running)
    (hstep : (openStep s (getCore s c).part).isSome) (q : Queued) (f : Flt) :
    ∃ loc acc cur, getCore (engineFault c e q f s) c = recordFault e false loc f { getCore s c with
      acc := acc, cur := cur, run := .faulted, stall := .none, halting := false, queues := [], streams := [] } := by
  obtain ⟨acc, cur, hk⟩ := getCore_enterFaulted c e s
  have hcore := getCore_coreFault hrun hstep e false (queuedLoc s q f.cause) f
  rw [hk] at hcore
  unfold engineFault
  extract_lets keep faulted
  split
  · exact ⟨_, acc, cur, hcore⟩
  · refine ⟨queuedLoc s q f.cause, acc, Tbl.set [] cur e keep, ?_⟩
    have hcur : (getCore faulted c).cur = cur := by rw [hcore, recordFault_eq]
    rw [getCore_updCore, if_pos rfl, hcur, hcore]
    unfold recordFault
    split <;> rfl

section
variable (engine : Nat) (atIssue : Bool) (loc : Word) (f : Flt) (k : Core)

@[simp] theorem recordFault_run : (recordFault engine atIssue loc f k).run = k.run := by rw [recordFault_eq]
@[simp] theorem recordFault_votes : (recordFault engine atIssue loc f k).votes = k.votes := by rw [recordFault_eq]
@[simp] theorem chkOf_recordFault (array : Nat) : chkOf array (recordFault engine atIssue loc f k) = chkOf array k := by
  rw [recordFault_eq]; rfl

end

/-- A suspect array faults its core: the fault is recorded in a core that has counted it and is FAULTED, with record and votes as they
were. -/
theorem getCore_voteSuspect {s : State} {c array : Nat} (hrun : (getCore s c).run = .running)
    (hstep : (openStep s (getCore s c).part).isSome) (x : LanePlace) (t : TilePass) (r : Running) :
    ∃ loc k, getCore (voteSuspect c array x t r s) c = recordFault (1 + array) false loc { cause := 0x05 } k ∧
      k.run = .faulted ∧ k.votes = (getCore s c).votes ∧ k.fault = (getCore s c).fault ∧
      chkOf array k = bumpField 16 (chkOf array (getCore s c)) := by
  unfold voteSuspect
  extract_lets bumped captured k y
  have hcaptured : captured.cores = bumped.cores ∧ captured.parts = s.parts := by
    unfold captured; split <;> exact ⟨rfl, rfl⟩
  have hk : k = updChk array (bumpField 16) (getCore s c) := by
    unfold k
    rw [getCore_congr hcaptured.1, getCore_updCore, if_pos rfl]
  obtain ⟨acc, hy⟩ := spoilAll_core (mmaRows r.q).toList { k with cur := Tbl.upd [] k.cur (1 + array) fun l => l.filter fun e => e.q.ins.op != 0x30 }
    captured
  have hcore : getCore (setCore c y.1 y.2) c = { k with cur := Tbl.upd [] k.cur (1 + array) fun l => l.filter fun e => e.q.ins.op != 0x30, acc := acc } := by
    rw [getCore_setCore, if_pos rfl, hy]
  have hparts : (setCore c y.1 y.2).parts = s.parts := (spoilAll_parts ..).trans hcaptured.2
  have hpart : k.part = (getCore s c).part := by rw [hk, updChk_part]
  have hopen : openStep (setCore c y.1 y.2) k.part = openStep s (getCore s c).part := by rw [openStep, getPart, hparts, hpart]; rfl
  obtain ⟨loc, acc', cur', hend⟩ := getCore_engineFault (e := 1 + array) (s := setCore c y.1 y.2) (c := c)
    (by rw [hcore, hk]; exact (updChk_run ..).trans hrun) (by rw [hcore, hopen]; exact hstep) r.q { cause := 0x05 }
  rw [hcore, hk] at hend
  exact ⟨loc, _, hend, rfl, updChk_votes .., updChk_fault .., chkOf_updChk ..⟩


/-! ## A vote that is commanded (R118, R119) -/

/-- A core whose vote on an array has been taken. -/
def voteTaken (c array : Nat) (s : State) : State :=
  setCore c { getCore s c with votes := Tbl.set none (getCore s c).votes array none } s

theorem getCore_voteTaken (c array : Nat) (s : State) : getCore (voteTaken c array s) c =
    { getCore s c with votes := Tbl.set none (getCore s c).votes array none } := by rw [voteTaken, getCore_setCore, if_pos rfl]

theorem votes_voteTaken (c array : Nat) (s : State) : (getCore (voteTaken c array s) c).votes.get none array = none := by
  simp [voteTaken, Tbl.get_set_self]

section
variable {s : State} {c array : Nat} {r : Running}

theorem exec_checkLaneVote {v : Vote} {t : TilePass} {errs : List Int} (hv : (getCore s c).votes.get none array = some v)
    (hr : runningMma (getCore s c) array = some r) (ht : r.passes[v.place.pass]? = some t) :
    let t' : TilePass := { t with slabs := (getCore s c).rerun.get [] array }
    exec (.checkLaneVote c array errs) s =
      .next (verdictDone c array v.place t' r (laneVote r.mma t' v errs) (voteTaken c array s)) := by
  show execCheckLaneVote c array errs s = _
  simp only [execCheckLaneVote, hv, hr, ht]
  rfl

/-- A verdict that keeps or replaces what a group gave: its array has counted, and its MMA promotes what the vote gave. -/
theorem voteCounted_leaves (hr : runningMma (getCore s c) array = some r) (lane : Bool) (f : Fix) :
    let lo := if lane then 8 else 0
    let u := getCore (voteCounted c array lane f s) c
    u.votes = (getCore s c).votes ∧ u.run = (getCore s c).run ∧ u.acc = (getCore s c).acc ∧ u.sram = (getCore s c).sram ∧
    bitsOf (chkOf array u).toNat lo 8 = min 255 (bitsOf (chkOf array (getCore s c)).toNat lo 8 + 1) ∧
    runningMma u array = some (counted lane f r) := by
  extract_lets lo u
  obtain ⟨codes, hu⟩ : ∃ codes, u = _ := getCore_voteCounted c array lane f s
  have hlo : lo = 0 ∨ lo = 8 ∨ lo = 16 := by unfold lo; cases lane <;> decide
  have hchk : chkOf array u = bumpField lo (chkOf array (getCore s c)) := by rw [hu]; exact chkOf_updChk ..
  have hmma : runningMma (updChk array (bumpField lo) (getCore s c)) array = some r := by rw [runningMma, updChk_cur]; exact hr
  refine ⟨?_, ?_, ?_, ?_, by rw [hchk]; exact bitsOf_bumpField hlo _, ?_⟩ <;> rw [hu]
  · exact updChk_votes ..
  · exact updChk_run ..
  · exact updChk_acc ..
  · exact updChk_sram ..
  · exact runningMma_updMma (f := counted lane f) (fun _ => rfl) (fun _ => rfl) hmma

/-- A verdict that finds neither side right: the core is FAULTED with ARRAY_SUSPECT at its array. -/
theorem voteSuspect_leaves (ha : array ≤ 1) (hrun : (getCore s c).run = .running) (hstep : (openStep s (getCore s c).part).isSome)
    (x : LanePlace) (t : TilePass) :
    let u := getCore (voteSuspect c array x t r s) c
    u.run = .faulted ∧ u.votes = (getCore s c).votes ∧
    bitsOf (chkOf array u).toNat 16 8 = min 255 (bitsOf (chkOf array (getCore s c)).toNat 16 8 + 1) ∧
    ((getCore s c).fault.getLsbD 31 = false → bitsOf u.fault.toNat 8 8 = 0x05 ∧ bitsOf u.fault.toNat 16 3 = 1 + array) := by
  extract_lets u
  obtain ⟨loc, k, hu, hfaulted, hvotes, hfault, hchk⟩ := getCore_voteSuspect (array := array) hrun hstep x t r
  unfold u
  rw [hu, recordFault_run, recordFault_votes, chkOf_recordFault, hchk, ← hfault]
  refine ⟨hfaulted, hvotes, bitsOf_bumpField (by decide) _, fun hfresh => ?_⟩
  have hst := statusNum_lt (causeStatus 0x05)
  rw [(recordFault_fresh hfresh (by decide) (by omega)).1]
  simp only [bitsOf, b2n]
  omega

/-- The core after a vote on an array that counted. -/
theorem getCore_vote_counted (hr : runningMma (getCore s c) array = some r) (lane : Bool) (f : Fix) :
    let lo := if lane then 8 else 0
    let u := getCore (voteCounted c array lane f (voteTaken c array s)) c
    u.votes.get none array = none ∧ u.run = (getCore s c).run ∧ u.acc = (getCore s c).acc ∧ u.sram = (getCore s c).sram ∧
    bitsOf (chkOf array u).toNat lo 8 = min 255 (bitsOf (chkOf array (getCore s c)).toNat lo 8 + 1) ∧
    runningMma u array = some (counted lane f r) := by
  have htaken := getCore_voteTaken c array s
  have hover := votes_voteTaken c array s
  obtain ⟨hvotes, hleft⟩ := voteCounted_leaves (s := voteTaken c array s) (c := c) (r := r) (by rw [htaken]; exact hr) lane f
  rw [← hvotes] at hover
  rw [htaken] at hleft
  exact ⟨hover, hleft⟩

/-- The core after a vote on an array that found it suspect. -/
theorem getCore_vote_suspect (ha : array ≤ 1) (hrun : (getCore s c).run = .running) (hstep : (openStep s (getCore s c).part).isSome)
    (x : LanePlace) (t : TilePass) :
    let u := getCore (voteSuspect c array x t r (voteTaken c array s)) c
    u.run = .faulted ∧ u.votes.get none array = none ∧
    bitsOf (chkOf array u).toNat 16 8 = min 255 (bitsOf (chkOf array (getCore s c)).toNat 16 8 + 1) ∧
    ((getCore s c).fault.getLsbD 31 = false → bitsOf u.fault.toNat 8 8 = 0x05 ∧ bitsOf u.fault.toNat 16 3 = 1 + array) := by
  have htaken := getCore_voteTaken c array s
  have hover := votes_voteTaken c array s
  obtain ⟨hfaulted, hvotes, hleft⟩ := voteSuspect_leaves (r := r) ha (s := voteTaken c array s) (c := c) (by rw [htaken]; exact hrun)
    (by rw [htaken]; exact hstep) x t
  rw [← hvotes] at hover
  rw [htaken] at hleft
  exact ⟨hfaulted, hover, hleft⟩

end

/-! ## The window's write-one bits (R125, R126, R169) -/

section
variable {s : State} {fn c : Nat}

theorem exec_maChkClear (h : HostOpen s fn) (hw : windowReached s fn c = true) {array : Nat} (ha : array ≤ 1) :
    exec (.maChkClear fn c array) s = .next (setCore c (updChk array (fun _ => 0) (getCore s c)) (barAccess s)) := by
  have hreach : (windowReached (barAccess s) fn c && decide (array ≤ 1)) = true := by
    rw [Bool.and_eq_true, decide_eq_true_iff]; exact ⟨hw, ha⟩
  show execMaChkClear fn c array s = _
  rw [execMaChkClear, hostPost_open h, if_pos hreach]
  rfl

theorem exec_coreFaultClear (h : HostOpen s fn) (hw : windowReached s fn c = true) : exec (.coreFaultClear fn c) s =
    .next (setCore c { getCore s c with fault := 0, faultPc := 0, faultInfo := 0 } (barAccess s)) := by
  show execCoreFaultClear fn c s = _
  rw [execCoreFaultClear, hostPost_open h, if_pos (show windowReached (barAccess s) fn c = true from hw)]
  rfl

theorem armInjection_pf0 (h : HostOpen s 0) (hw : windowReached s 0 c = true) (bit : Nat) : armInjection 0 c bit s =
    setCore c { getCore s c with inj := (getCore s c).inj ||| BitVec.ofNat 4 (2 ^ bit) } (barAccess s) := by
  have hreach : (decide (0 = 0) && windowReached (barAccess s) 0 c) = true := by
    rw [Bool.and_eq_true]; exact ⟨rfl, hw⟩
  rw [armInjection, hostPost_open h, if_pos hreach]
  rfl

theorem armInjection_vf (h : HostOpen s fn) (hf : fn ≠ 0) (bit : Nat) : armInjection fn c bit s = barAccess s := by
  rw [armInjection, hostPost_open h, if_neg (by simp [hf])]

end

/-! ## The statement -/

/-- Settles O11: sums and check lane agree within R116's bound (`checkPasses_group`), an injected bit lies beyond it
(`injectVote_array`, `injectVote_lane`), and each command's equation with what its verdict leaves (`getCore_vote_counted`,
`getCore_vote_suspect`). -/
theorem arrayChecks : Obligations.ArrayChecks := by
  unfold Obligations.ArrayChecks
  refine ⟨?sums, fun s c array r ha hr => ⟨?compare, ?vote⟩, ?window⟩
  case sums =>
    intro p t x ho g u k hrows hcol heven hspecial
    have hgroup : FinitePlace p t x := ⟨hrows, hcol, heven, fun a ha => hspecial _ (List.mem_map_of_mem ha)⟩
    exact ⟨fun hf => (checkSum_exact hgroup hf).symm, hgroup.passes, laneCompare_clean ho hgroup,
      fun hx => ⟨⟨_, injectVote_array hx ho hgroup, rfl⟩, _, injectVote_lane hx ho hgroup, rfl⟩⟩
  case compare =>
    intro x t sums lane ht hv hn hx
    extract_lets held passes
    have hexec := exec_checkLaneDisagree (x := x) (sums := sums) (lane := lane) ha hr ht hv hn
    have hpass (h : laneCompare r.mma t x sums lane = none) : passes := by unfold passes; rw [hexec, h]; rfl
    have hheld {v : Vote} (h : laneCompare r.mma t x sums lane = some v) : held v := by unfold held; rw [hexec, h]; rfl
    refine ⟨fun ho => ⟨fun hs => hpass (laneCompare_unchecked ho hs), fun hs => ?_⟩, fun ho => ⟨fun hterm => ?_, fun v hterm => ?_⟩⟩
    · have hcompare := laneCompare_group hx ho hs sums lane
      refine ⟨fun hf h => hpass ?_, fun hf h => hheld ?_, fun hf h => hpass ?_, fun hf h => hheld ?_⟩
      · rw [hcompare, if_pos ((checkPasses_exact_iff hf).mpr h)]
      · rw [hcompare, if_neg fun hp => h ((checkPasses_exact_iff hf).mp hp)]
      · rw [hf] at hcompare h
        rw [hcompare, if_pos (checkPasses_e5m2_iff.mpr h)]
      · rw [hf] at hcompare h
        rw [hcompare, if_neg fun hp => Nat.not_lt.mpr h (checkPasses_e5m2_iff.mp hp)]
    · exact hpass (laneCompare_noTerm ho hterm sums lane)
    · have hcompare := laneCompare_term hx ho hterm sums lane
      exact ⟨fun h => hpass (by rw [hcompare, if_pos h]), fun h => hheld (by rw [hcompare, if_neg h])⟩
  case vote =>
    intro v t errs hv ht
    extract_lets t' g again term chk counts suspect
    have hexec := exec_checkLaneVote (errs := errs) hv hr ht
    have hlane {f : List Int} (h : laneVote r.mma t' v errs = .laneFault { place := v.place, sums := f }) : counts 8 f :=
      ⟨_, hexec.trans (by rw [h]; rfl), getCore_vote_counted hr true { place := v.place, sums := f }⟩
    have htransient {f : List Int} (h : laneVote r.mma t' v errs = .transient { place := v.place, sums := f }) : counts 0 f :=
      ⟨_, hexec.trans (by rw [h]; rfl), getCore_vote_counted hr false { place := v.place, sums := f }⟩
    have hsuspect (h : laneVote r.mma t' v errs = .suspect) : suspect := fun hrun hstep =>
      ⟨_, hexec.trans (by rw [h]; rfl), getCore_vote_suspect ha hrun hstep v.place t'⟩
    refine ⟨fun ho => ?_, fun ho => ?_⟩
    · have hvote := laneVote_group (p := r.mma) (t := t') (errs := errs) ho
      refine ⟨fun h => hlane ?_, fun h hp => htransient ?_, fun h hp => hsuspect ?_⟩
      · rw [hvote, if_pos h]
      · rw [hvote, if_neg h, if_pos hp]
      · rw [hvote, if_neg h, if_neg (Bool.eq_false_iff.mp hp)]
    · have hvote := laneVote_term (p := r.mma) (t := t') (errs := errs) ho
      refine ⟨fun h => htransient ?_, fun h hp => htransient ?_, fun h hp => hsuspect ?_⟩
      · rw [hvote, if_pos h]
      · rw [hvote, if_neg h, if_pos hp]
      · rw [hvote, if_neg h, if_neg hp]
  case window =>
    intro s fn c h hw
    refine ⟨exec_maChkClear h hw (by decide), exec_maChkClear h hw (by decide), exec_coreFaultClear h hw, ?_, ?_, ?_, ?_, fun hf => ?_⟩
    · rintro rfl; exact congrArg _ (armInjection_pf0 h hw 0)
    · rintro rfl; exact congrArg _ (armInjection_pf0 h hw 1)
    · rintro rfl; exact congrArg _ (armInjection_pf0 h hw 2)
    · rintro rfl; exact congrArg _ (armInjection_pf0 h hw 3)
    · exact ⟨congrArg _ (armInjection_vf h hf 0), congrArg _ (armInjection_vf h hf 1), congrArg _ (armInjection_vf h hf 2),
        congrArg _ (armInjection_vf h hf 3)⟩

end Sys2Proof.Machine
end

section
/-!
PROOFS. Faults of the control core's own instructions at issue (R136, R138, R140, R148, R152, R162, R178, R180): the fault that each
instruction issues, and from these the statement about faults at issue.
-/
namespace Sys2Proof.Machine

theorem addrInfo_natCast (a : Nat) : addrInfo a = a % 2 ^ 32 := Int.toNat_natCast (a % 2 ^ 32)

theorem isMod_of {i : NInstr} {op m : Nat} (h : i.op = op) (hm : i.mod = m) : isMod op m i = true := by
  rw [isMod, h, hm, beq_self_eq_true, beq_self_eq_true]; rfl

section
variable {s : State} {c : Nat} {i : NInstr}

theorem exec_sld_bounds (h : Issues s c i) (hop : i.op = 0x03) (ha : sramSize ≤ slAddr (getCore s c) i) (e : Ecc) :
    exec (.sld c e) s =
      .next (issueFault c (getCore s c) i { cause := 0x09, info := slAddr (getCore s c) i % 2 ^ 32 } s) := by
  show execSld c e s = _
  simp only [execSld, issueOp_run h (isOp_of hop), if_pos ha, fltBounds, addrInfo_natCast]

theorem exec_sld_uncorrectable (h : Issues s c i) (hop : i.op = 0x03) (ha : slAddr (getCore s c) i < sramSize) (u : Nat) :
    exec (.sld c (.uncorrectable u)) s = .next (issueFault c (getCore s c) i { cause := 0x0D, info := u } s) := by
  show execSld c (.uncorrectable u) s = _
  simp only [execSld, issueOp_run h (isOp_of hop), if_neg (Nat.not_le.mpr ha)]

theorem exec_sst_bounds (h : Issues s c i) (hop : i.op = 0x04) (ha : sramSize ≤ slAddr (getCore s c) i) :
    exec (.sst c) s =
      .next (issueFault c (getCore s c) i { cause := 0x09, info := slAddr (getCore s c) i % 2 ^ 32 } s) := by
  show execSst c s = _
  simp only [execSst, issueOp_run h (isOp_of hop), if_pos ha, fltBounds, addrInfo_natCast]

theorem exec_haltFault (h : Issues s c i) (hop : i.op = 0x14) (hm : i.mod = 1) :
    exec (.haltFault c) s = .next (issueFault c (getCore s c) i { cause := 0x10, info := i.imm.toNat % 2 ^ 32 } s) := by
  show execHaltFault c s = _
  rw [execHaltFault, issueOp_run h (isMod_of hop hm)]

theorem exec_loop_count (h : Issues s c i) (hop : i.op = 0x10) (hv : 2 ^ 32 ≤ (sreg (getCore s c) i.ra).toNat) :
    exec (.loop c) s = .next (issueFault c (getCore s c) i { cause := 0x0A } s) := by
  show execLoop c s = _
  simp only [execLoop, issueOp_run h (isOp_of hop), if_pos hv]

theorem exec_aspush_count (h : Issues s c i) (hop : i.op = 0x20) (hn : 4096 < (sreg (getCore s c) i.rb).toNat) :
    exec (.aspush c) s = .next (issueFault c (getCore s c) i { cause := 0x0A } s) := by
  have hsome : ¬ (sreg (getCore s c) i.rb).toNat = 0 := by omega
  show execAspush c s = _
  simp only [execAspush, issueOp_run h (isOp_of hop), if_neg hsome, if_pos hn]

/-- A bank is free of loads and does not match: BANKSWAP goes neither of its two other ways (R152). -/
theorem exec_bankswap_gen (h : Issues s c i) (hop : i.op = 0x13)
    (hfree : ∀ l ∈ (getCore s c).loads, l.2 ≠ 1 - (getCore s c).active)
    (hgen : (bankOf (getCore s c) (1 - (getCore s c).active)).valid = false ∨
      (bankOf (getCore s c) (1 - (getCore s c).active)).gen.toNat ≠ i.imm.toNat % 65536) :
    exec (.bankswap c) s = .next (issueFault c (getCore s c) i { cause := 0x0C } s) := by
  have hload : ¬ ((getCore s c).loads.any fun l => l.2 == 1 - (getCore s c).active) = true := by
    rw [List.any_eq_true]
    exact fun ⟨l, hl, heq⟩ => hfree l hl (beq_iff_eq.mp heq)
  have hmatch : ¬ ((bankOf (getCore s c) (1 - (getCore s c).active)).valid &&
      (bankOf (getCore s c) (1 - (getCore s c).active)).gen == BitVec.ofNat 16 (i.imm.toNat % 2 ^ 16)) = true := by
    rw [Bool.and_eq_true, beq_iff_eq]
    rintro ⟨hvalid, heq⟩
    refine hgen.elim (Bool.eq_false_iff.mp · hvalid) fun hne => hne ?_
    rw [heq, BitVec.toNat_ofNat]
    exact Nat.mod_mod ..
  show execBankswap c s = _
  simp only [execBankswap, issueOp_run h (isOp_of hop), if_neg hload, if_neg hmatch]

end

/-- Settles O3: each instruction's fault (`exec_sld_bounds` and those after it), and its core is then as `issueFault_faulted` says. -/
theorem issueFaults : Obligations.IssueFaults := by
  unfold Obligations.IssueFaults
  intro s c i h hstep k n a
  have faulted {cause info : Nat} (hc : cause < 2 ^ 8) := issueFault_faulted h hstep (f := ⟨cause, info⟩) hc
  refine ⟨?sldBounds, ?sldEcc, ?sst, ?halt, ?loop, ?aspush, ?bankswap⟩
  case sldBounds => exact fun hop ha e => ⟨_, exec_sld_bounds h hop ha e, faulted (by decide)⟩
  case sldEcc => exact fun hop ha u => ⟨_, exec_sld_uncorrectable h hop ha u, faulted (by decide)⟩
  case sst => exact fun hop ha => ⟨_, exec_sst_bounds h hop ha, faulted (by decide)⟩
  case halt => exact fun hop hm => ⟨_, exec_haltFault h hop hm, faulted (by decide)⟩
  case loop => exact fun hop hv => ⟨_, exec_loop_count h hop hv, faulted (by decide)⟩
  case aspush => exact fun hop hn => ⟨_, exec_aspush_count h hop hn, faulted (by decide)⟩
  case bankswap => exact fun hop hfree hgen => ⟨_, exec_bankswap_gen h hop hfree hgen, faulted (by decide)⟩

end Sys2Proof.Machine
end

section
/-!
PROOFS. SOP (R177): the value of each of its operations as one on 64-bit words, that a result in FP32 leaves bits 63 to 32 zero, and from
these the statement about SOP.
-/
namespace Sys2Proof.Machine

/-! ## Words as integers -/

theorem signed_toNat {n : Nat} (hn : 0 < n) (x : BitVec n) : signed n x.toNat = x.toInt := by
  have hlt : x.toNat < 2 ^ n := x.isLt
  have hpow : 2 ^ n = 2 * 2 ^ (n - 1) := (Nat.two_pow_pred_mul_two hn).symm.trans (Nat.mul_comm ..)
  have hcast : (2 ^ n : Int) = ((2 ^ n : Nat) : Int) := by push_cast; rfl
  rw [signed, BitVec.toInt_eq_toNat_cond, Nat.mod_eq_of_lt hlt, hcast]
  exact ite_congr (propext (by omega)) (fun _ => rfl) fun _ => rfl

theorem ofNat_wrapInt (n : Nat) (i : Int) : BitVec.ofNat n (wrapInt n i) = BitVec.ofInt n i := by
  apply BitVec.eq_of_toNat_eq
  rw [BitVec.toNat_ofInt, BitVec.toNat_ofNat, wrapInt, Nat.mod_eq_of_lt]
  have := Int.emod_lt_of_pos i (b := ((2 ^ n : Nat) : Int)) (Int.natCast_pos.mpr (Nat.two_pow_pos n))
  omega

theorem ofNat_toNat_self {n : Nat} (x : BitVec n) : BitVec.ofNat n x.toNat = x := by
  rw [BitVec.ofNat_toNat, BitVec.setWidth_eq]

/-! ## FP32 results -/

/-- A magnitude within the FP32 maximum has its leading bit at 2^127 or below. -/
theorem log2_add_le_of_magLe {r : Nat} {q : Int} (hr : r ≠ 0) (h : magLe r q (fmtMax fFP32).1 (fmtMax fFP32).2 = true) :
    r.log2 + q ≤ 127 := by
  rw [magLe, decide_eq_true_iff] at h
  change r * 2 ^ (q - min q 104).toNat ≤ 0xFFFFFF * 2 ^ (104 - min q 104).toNat at h
  have hlow : 2 ^ (r.log2 + (q - min q 104).toNat) ≤ r * 2 ^ (q - min q 104).toNat := by
    rw [Nat.pow_add]; exact Nat.mul_le_mul_right _ (Nat.log2_self_le hr)
  have hhigh : 0xFFFFFF * 2 ^ (104 - min q 104).toNat < 2 ^ (24 + (104 - min q 104).toNat) := by
    rw [Nat.pow_add]; exact Nat.mul_lt_mul_of_pos_right (by decide) (Nat.two_pow_pos _)
  have hexp := (Nat.pow_lt_pow_iff_right (by decide)).mp (Nat.lt_of_le_of_lt hlow (Nat.lt_of_le_of_lt h hhigh))
  omega

/-- A significand scaled to bit 23 stays below bit 24. -/
theorem scaled_log2_lt (r : Nat) : r * 2 ^ 23 / 2 ^ r.log2 < 2 ^ 24 := by
  have hlt : r < 2 ^ (r.log2 + 1) := Nat.lt_log2_self
  rw [Nat.div_lt_iff_lt_mul (Nat.two_pow_pos _)]
  rw [Nat.pow_succ] at hlt
  omega

theorem fmtEncode_fp32_lt (neg : Bool) {r : Nat} {q : Int} (h : magLe r q (fmtMax fFP32).1 (fmtMax fFP32).2 = true) :
    fmtEncode fFP32 neg r q < 2 ^ 32 := by
  have hsign : ∀ b : Bool, b2n b ≤ 1 := by decide
  change b2n (neg && (true || _)) * 2 ^ 31 + (if r = 0 then 0 else if r.log2 + q < -126 then 0
    else (((r.log2 : Int) + q - -126 + 1).toNat - 1) * 2 ^ 23 + r * 2 ^ 23 / 2 ^ r.log2) < 2 ^ 32
  have hs := hsign (neg && (true || false))
  simp only [Bool.true_or] at hs ⊢
  split
  · omega
  next hr =>
    have hexp := log2_add_le_of_magLe hr h
    have hman := scaled_log2_lt r
    split
    · omega
    · omega

theorem toFp32_lt (x : Num) : toFp32 x < 2 ^ 32 := by
  cases x with
  | nan => decide
  | inf n => cases n <;> decide
  | fin n m e =>
    rw [toFp32, writeNum, writeFrac, if_neg (by decide)]
    dsimp only
    split
    · cases n <;> decide
    next h =>
      rw [magLt, Bool.not_eq_true, Bool.not_eq_false'] at h
      exact fmtEncode_fp32_lt n h

/-! ## The operations -/

section
variable (a b : DWord)

theorem sopOp_sub : BitVec.ofNat 64 (sopOp 1 a.toNat b.toNat) = a - b := by
  apply BitVec.eq_of_toInt_eq
  show (BitVec.ofNat 64 (wrapInt 64 ((a.toNat : Int) - b.toNat))).toInt = _
  rw [ofNat_wrapInt, BitVec.toInt_ofInt, BitVec.toInt_sub, BitVec.toInt_eq_toNat_bmod a, BitVec.toInt_eq_toNat_bmod b,
    Int.bmod_sub_bmod, Int.sub_bmod_bmod]

theorem sopOp_add : BitVec.ofNat 64 (sopOp 0 a.toNat b.toNat) = a + b := by
  show BitVec.ofNat 64 ((a.toNat + b.toNat) % 2 ^ 64) = _
  rw [← BitVec.toNat_add, ofNat_toNat_self]

theorem sopOp_mul : BitVec.ofNat 64 (sopOp 2 a.toNat b.toNat) = a * b := by
  show BitVec.ofNat 64 (a.toNat * b.toNat % 2 ^ 64) = _
  rw [← BitVec.toNat_mul, ofNat_toNat_self]

theorem sopOp_and : BitVec.ofNat 64 (sopOp 3 a.toNat b.toNat) = a &&& b := by
  show BitVec.ofNat 64 (a.toNat &&& b.toNat) = _
  rw [← BitVec.toNat_and, ofNat_toNat_self]

theorem sopOp_or : BitVec.ofNat 64 (sopOp 4 a.toNat b.toNat) = a ||| b := by
  show BitVec.ofNat 64 (a.toNat ||| b.toNat) = _
  rw [← BitVec.toNat_or, ofNat_toNat_self]

theorem sopOp_xor : BitVec.ofNat 64 (sopOp 5 a.toNat b.toNat) = a ^^^ b := by
  show BitVec.ofNat 64 (a.toNat ^^^ b.toNat) = _
  rw [← BitVec.toNat_xor, ofNat_toNat_self]

theorem sopOp_shl : BitVec.ofNat 64 (sopOp 6 a.toNat b.toNat) = a <<< (b.toNat % 64) := by
  show BitVec.ofNat 64 (a.toNat * 2 ^ (b.toNat % 64) % 2 ^ 64) = _
  rw [← Nat.shiftLeft_eq, ← BitVec.toNat_shiftLeft, ofNat_toNat_self]

theorem sopOp_shr : BitVec.ofNat 64 (sopOp 7 a.toNat b.toNat) = a >>> (b.toNat % 64) := by
  show BitVec.ofNat 64 (a.toNat / 2 ^ (b.toNat % 64)) = _
  rw [← Nat.shiftRight_eq_div_pow, ← BitVec.toNat_ushiftRight, ofNat_toNat_self]

theorem sopOp_sar : BitVec.ofNat 64 (sopOp 8 a.toNat b.toNat) = a.sshiftRight (b.toNat % 64) := by
  show BitVec.ofNat 64 (wrapInt 64 (signed 64 a.toNat / (2 ^ (b.toNat % 64) : Int))) = _
  rw [ofNat_wrapInt, signed_toNat (by decide), BitVec.sshiftRight_eq, Int.shiftRight_eq_div_pow]
  push_cast; rfl

theorem sopOp_min : BitVec.ofNat 64 (sopOp 9 a.toNat b.toNat) = if a.toInt ≤ b.toInt then a else b := by
  show BitVec.ofNat 64 (if signed 64 a.toNat ≤ signed 64 b.toNat then a.toNat else b.toNat) = _
  rw [signed_toNat (by decide), signed_toNat (by decide), apply_ite (BitVec.ofNat 64), ofNat_toNat_self, ofNat_toNat_self]

theorem sopOp_max : BitVec.ofNat 64 (sopOp 10 a.toNat b.toNat) = if a.toInt ≤ b.toInt then b else a := by
  show BitVec.ofNat 64 (if signed 64 a.toNat ≤ signed 64 b.toNat then b.toNat else a.toNat) = _
  rw [signed_toNat (by decide), signed_toNat (by decide), apply_ite (BitVec.ofNat 64), ofNat_toNat_self, ofNat_toNat_self]

theorem sopOp_minu : BitVec.ofNat 64 (sopOp 11 a.toNat b.toNat) = if a.toNat ≤ b.toNat then a else b := by
  show BitVec.ofNat 64 (min a.toNat b.toNat) = _
  rw [Nat.min_def, apply_ite (BitVec.ofNat 64), ofNat_toNat_self, ofNat_toNat_self]

theorem sopOp_maxu : BitVec.ofNat 64 (sopOp 12 a.toNat b.toNat) = if a.toNat ≤ b.toNat then b else a := by
  show BitVec.ofNat 64 (max a.toNat b.toNat) = _
  rw [Nat.max_def, apply_ite (BitVec.ofNat 64), ofNat_toNat_self, ofNat_toNat_self]

theorem sopOp_fcvt : sopOp 15 a.toNat b.toNat = toFp32 (numOfInt a.toInt 0 false) := by
  show toFp32 (numOfInt (signed 64 a.toNat) 0 false) = _
  rw [signed_toNat (by decide)]

theorem sopOp_fp32_lt {m : Nat} (hlow : 13 ≤ m) (hhigh : m ≤ 15) : sopOp m a.toNat b.toNat < 2 ^ 32 := by
  obtain rfl | rfl | rfl : m = 13 ∨ m = 14 ∨ m = 15 := by omega
  · exact toFp32_lt _
  · exact toFp32_lt _
  · exact toFp32_lt _

end

/-- ICVT of a finite value: its rounded magnitude with its sign, saturated. -/
theorem ofNat_icvt_fin (n : Bool) (m : Nat) (e : Int) : BitVec.ofNat 64 (icvt (.fin n m e)) =
    let r : Nat := if 0 ≤ e then m * 2 ^ e.toNat else (2 * m + 2 ^ (-e).toNat) / (2 * 2 ^ (-e).toNat)
    if n then BitVec.ofInt 64 (-(min r (2 ^ 63) : Nat)) else BitVec.ofNat 64 (min r (2 ^ 63 - 1)) := by
  extract_lets r
  show BitVec.ofNat 64 (if n then (if 2 ^ 63 ≤ r then 2 ^ 63 else wrapInt 64 (-(r : Int))) else min r (2 ^ 63 - 1)) = _
  cases n with
  | false => rfl
  | true =>
    rw [if_pos rfl, if_pos rfl]
    split
    next h => rw [Nat.min_eq_right h]; decide
    next h => rw [Nat.min_eq_left (Nat.le_of_not_le h), ofNat_wrapInt]

/-! ## The statement -/

theorem exec_sop {s : State} {c : Nat} {i : NInstr} (h : Issues s c i) (hop : i.op = 0x01) : exec (.sop c) s =
    .next (setCore c (advance (setSreg (getCore s c) i.ra (BitVec.ofNat 64 (sopOp i.mod (sreg (getCore s c) i.rb).toNat
      (if i.flags.getLsbD 0 then i.imm else sreg (getCore s c) i.rc).toNat)))) s) := by
  show execSop c s = _
  simp only [execSop, issueOp_run h (isOp_of hop), bitOf_toNat]

/-- Settles O1: SOP writes the value of its operation (`exec_sop`), and each operation's value is that of the words (`sopOp_add` and
those after it, `ofNat_icvt_fin`), an FP32 result within its 32 bits (`toFp32_lt`). -/
theorem sopWritesResult : Obligations.SopWritesResult := by
  unfold Obligations.SopWritesResult
  intro s c i h hop k a b x y gives
  have writes {v : DWord} (hv : BitVec.ofNat 64 (sopOp i.mod a.toNat b.toNat) = v) : gives v := by
    rw [← hv]; exact exec_sop h hop
  have does {m : Nat} {v : DWord} (hv : BitVec.ofNat 64 (sopOp m a.toNat b.toNat) = v) (hm : i.mod = m) : gives v :=
    writes (by rw [hm, hv])
  have converts {v : DWord} (hv : BitVec.ofNat 64 (icvt x) = v) (hm : i.mod = 16) : gives v := does (m := 16) hv hm
  refine ⟨does (sopOp_add a b), does (sopOp_sub a b), does (sopOp_mul a b), does (sopOp_and a b), does (sopOp_or a b),
    does (sopOp_xor a b), does (sopOp_shl a b), does (sopOp_shr a b), does (sopOp_sar a b), does (sopOp_min a b), does (sopOp_max a b),
    does (sopOp_minu a b), does (sopOp_maxu a b), does (m := 13) rfl, does (m := 14) rfl, does (by rw [sopOp_fcvt]), ?fp32,
    ?icvt, does (m := 17) (ofNat_toNat_self a)⟩
  case fp32 =>
    rintro ⟨hlow, hhigh⟩
    exact ⟨_, Nat.lt_of_le_of_lt (BitVec.toNat_ofNat .. ▸ Nat.mod_le _ _) (sopOp_fp32_lt a b hlow hhigh), writes rfl⟩
  case icvt =>
    refine fun hm => ⟨fun hx => converts ?_ hm, fun hx => converts ?_ hm, fun hx => converts ?_ hm,
      fun n m e hx => converts ?_ hm⟩
    · rw [hx]; rfl
    · rw [hx]; rfl
    · rw [hx]; rfl
    · rw [hx]; exact ofNat_icvt_fin n m e

end Sys2Proof.Machine
end

section
/-!
PROOFS. LOAD_PROGRAM (R150, R203 to R205, R259, R462): what an update of a list of cores leaves of each, what acceptance answers, what the
load writes and what its end leaves, and from these the statement about loads.
-/
namespace Sys2Proof.Machine

/-! ## Updates of several cores -/

/-- A list of cores changed one after another. -/
def updEach (f : Core → Core) (l : List Nat) (s : State) : State := l.foldl (fun s c => updCore c f s) s

theorem updEach_frame (f : Core → Core) (l : List Nat) (s : State) : updEach f l s = { s with cores := (updEach f l s).cores } := by
  induction l generalizing s with
  | nil => rfl
  | cons x l ih => exact ih (updCore x f s)

theorem repeat_apply {α : Type} (f : α → α) (n : Nat) (a : α) : Nat.repeat f n (f a) = Nat.repeat f (n + 1) a := by
  induction n with
  | zero => rfl
  | succ n ih => exact congrArg f ih

theorem repeat_fixed {α : Type} {f : α → α} {a : α} (h : f a = a) (n : Nat) : Nat.repeat f n a = a := by
  induction n with
  | zero => rfl
  | succ n ih => exact (congrArg f ih).trans h

/-- A core is changed as often as the list names it. -/
theorem getCore_updEach (f : Core → Core) (l : List Nat) (s : State) (c : Nat) :
    getCore (updEach f l s) c = Nat.repeat f (l.count c) (getCore s c) := by
  induction l generalizing s with
  | nil => rfl
  | cons x l ih =>
    refine (ih (updCore x f s)).trans ?_
    rw [getCore_updCore, List.count_cons]
    by_cases hx : c = x
    · subst hx; rw [if_pos rfl, if_pos (beq_self_eq_true c), repeat_apply]
    · rw [if_neg hx, if_neg (fun h => hx (beq_iff_eq.mp h).symm), Nat.add_zero]

theorem getCore_updEach_of_notMem (f : Core → Core) {l : List Nat} (s : State) {c : Nat} (h : c ∉ l) :
    getCore (updEach f l s) c = getCore s c := by
  rw [getCore_updEach, List.count_eq_zero.mpr h]; rfl

theorem mem_keys_of_get_ne {α : Type} {d : α} {t : Tbl α} {k : Nat} (h : t.get d k ≠ d) : k ∈ t.map Prod.fst := by
  induction t with
  | nil => exact absurd rfl h
  | cons e t ih =>
    obtain ⟨j, a⟩ := e
    by_cases hj : j = k
    · exact hj ▸ List.mem_cons_self
    · rw [Tbl.get, if_neg hj] at h
      exact List.mem_cons_of_mem _ (ih h)

/-- A change that is the same done twice, and that leaves an untouched core alone, is done once to every core. -/
theorem getCore_updCores {f : Core → Core} (hrest : f {} = {}) (htwice : ∀ k, f (f k) = f k) (s : State) (c : Nat) :
    getCore (updCores f s) c = f (getCore s c) := by
  refine (getCore_updEach f (s.cores.map Prod.fst) s c).trans ?_
  by_cases hc : getCore s c = {}
  · rw [hc, hrest]; exact repeat_fixed hrest _
  · have hmem : 0 < (s.cores.map Prod.fst).count c := List.count_pos_iff.mpr (mem_keys_of_get_ne hc)
    rw [← Nat.sub_add_cancel hmem, ← repeat_apply]
    exact repeat_fixed (htwice _) _

theorem updCores_frame (f : Core → Core) (s : State) : updCores f s = { s with cores := (updCores f s).cores } :=
  updEach_frame f (s.cores.map Prod.fst) s

/-! ## Where a descriptor stands after an update -/

theorem highestStatus_singleton (st : Status) : highestStatus [st] = st := by cases st <;> rfl

section
variable {s : State} {id : Nat} {d : Desc} (h : findDesc s id = some d) (hlive : d.live = true)
include h hlive

theorem setPhase_stands (ph : DescPhase) : Stands (setPhase id ph s) id ph := by
  rw [Stands, findDesc_setPhase, if_pos rfl, h, Option.map_some, if_pos hlive]
  exact ⟨_, rfl, rfl⟩

theorem refuseDesc_stands (st : Status) : Stands (refuseDesc id st s) id (.done st) := by
  rw [Stands, findDesc_refuseDesc, if_pos rfl, h, Option.map_some, if_pos hlive]
  exact ⟨_, rfl, rfl⟩

theorem finishDesc_stands (hcodes : d.codes = []) (st : Status) : Stands (finishDesc id st s) id (.done st) := by
  rw [Stands, findDesc_finishDesc, if_pos rfl, h, Option.map_some, if_pos hlive, hcodes, highestStatus_singleton, ite_self]
  exact ⟨_, rfl, rfl⟩

end

theorem live_of_fetched {d : Desc} (h : d.phase = .fetched) : d.live = true := by rw [Desc.live, h]
theorem live_of_started {d : Desc} (h : d.phase = .started) : d.live = true := by rw [Desc.live, h]

/-! ## Acceptance (R203, R204, R259) -/

/-- The fields of a LOAD_PROGRAM are well formed, and its group exists. -/
structure LoadForm (s : State) (d : Desc) : Prop where
  flags : bitsOf (d.at 21 1) 3 5 = 0
  zero : zeroAt d.bytes [(22, 2), (48, 16)] = true
  bank : d.at 20 1 ≤ 2
  group : hasGroup (getPart s d.fn) (d.at 16 2) = true

/-- The object of a LOAD_PROGRAM has a length, its place and that of its report are within bounds. -/
structure LoadRange (s : State) (d : Desc) : Prop where
  nonempty : 0 < d.at 32 4
  short : d.at 32 4 ≤ 1048576
  aligned : d.at 24 8 % 8 = 0
  report : d.at 36 4 = 0 ∨ 64 ≤ d.at 36 4
  readable : bitOf (d.at 21 1) 0 = true → gNode (d.at 24 8) = nodeId s → rangeReadOk s d.fn (d.at 24 8) (d.at 32 4) = true

/-- The cores of a load's group. -/
abbrev loadCores (s : State) (d : Desc) : List Nat := groupCores (getPart s d.fn) (d.at 16 2)

/-- A load would overwrite the bank that a running core executes from (R203). -/
abbrev LoadHits (s : State) (d : Desc) (c : Nat) : Prop :=
  (getCore s c).run = .running ∧ loadBank (d.at 20 1) (getCore s c) = (getCore s c).active

/-- A load targets a bank of a core. -/
def addLoad (d : Desc) (k : Core) : Core := { k with loads := k.loads ++ [(d.id, loadBank (d.at 20 1) k)] }

section
variable {s : State} {d : Desc}

theorem exec_loadProgram {id : Nat} (h : AtTurn s id 0x01 d) (hstep : openStep s d.fn = none) :
    exec (.loadProgram id) s = .next (loadAccept d s) := by
  show execLoadProgram id s = _
  simp [execLoadProgram, atAcceptance_of h, hstep]

theorem loadAccept_empty (hf : LoadForm s d) (hlen : d.at 32 4 = 0) : loadAccept d s = finishDesc d.id .ok s := by
  have hbank : ¬ 2 < d.at 20 1 := Nat.not_lt.mpr hf.bank
  simp [loadAccept, hf.flags, hf.zero, hbank, hf.group, hlen]

/-- What remains to be decided of a load whose form and range are in order. -/
theorem loadAccept_checked (hf : LoadForm s d) (hr : LoadRange s d) : loadAccept d s =
    if (loadCores s d).any fun c => (getCore s c).run == .running && loadBank (d.at 20 1) (getCore s c) == (getCore s c).active then
      refuseDesc d.id .imemBusy s
    else if bitOf (d.at 21 1) 1 && (loadCores s d).any fun c => (getCore s c).run == .running then refuseDesc d.id .descMalformed s
    else
      let u := updEach (addLoad d) (loadCores s d) s
      acceptThen d loadStart { u with ldr := { u.ldr with queue := u.ldr.queue ++ [d.id] } } := by
  have hform : (bitsOf (d.at 21 1) 3 5 != 0 || !zeroAt d.bytes [(22, 2), (48, 16)] || decide (2 < d.at 20 1) ||
      !hasGroup (getPart s d.fn) (d.at 16 2)) = false := by
    have hbank : ¬ 2 < d.at 20 1 := Nat.not_lt.mpr hf.bank
    simp [hf.flags, hf.zero, hbank, hf.group]
  have hrange : (decide (1048576 < d.at 32 4) || d.at 24 8 % 8 != 0 || (decide (1 ≤ d.at 36 4) && decide (d.at 36 4 ≤ 63)) ||
      (bitOf (d.at 21 1) 0 && gNode (d.at 24 8) == nodeId s && !rangeReadOk s d.fn (d.at 24 8) (d.at 32 4))) = false := by
    have hshort : ¬ 1048576 < d.at 32 4 := Nat.not_lt.mpr hr.short
    have hreport : 1 ≤ d.at 36 4 → 63 < d.at 36 4 := by have := hr.report; omega
    have hread := hr.readable
    simpa [hshort, hr.aligned] using And.intro hreport hread
  unfold loadAccept
  simp only [hform, hrange, if_neg (Nat.pos_iff_ne_zero.mp hr.nonempty), Bool.false_eq_true, if_false]
  rfl

theorem loadAccept_busy (hf : LoadForm s d) (hr : LoadRange s d) (h : ∃ c ∈ loadCores s d, LoadHits s d c) :
    loadAccept d s = refuseDesc d.id .imemBusy s := by
  rw [loadAccept_checked hf hr, if_pos]
  obtain ⟨c, hc, hrun, hbank⟩ := h
  exact List.any_eq_true.mpr ⟨c, hc, by rw [hrun, hbank, beq_self_eq_true, beq_self_eq_true]; rfl⟩

/-- The state that acceptance leaves, but for the descriptor's phase: each core of the group has the load, and it is last in the queue. -/
def loadQueued (d : Desc) (s : State) : State := { s with
  cores := (updEach (addLoad d) (loadCores s d) s).cores
  ldr := { s.ldr with queue := s.ldr.queue ++ [d.id] } }

theorem loadAccept_accepted (hf : LoadForm s d) (hr : LoadRange s d) (hfree : ∀ c ∈ loadCores s d, ¬ LoadHits s d c)
    (hdata : bitOf (d.at 21 1) 1 = true → ∀ c ∈ loadCores s d, (getCore s c).run ≠ .running) :
    loadAccept d s = setPhase d.id (if startsNow s d then .started else .waiting) (loadQueued d s) := by
  rw [loadAccept_checked hf hr, if_neg, if_neg]
  · have hframe := updEach_frame (addLoad d) (loadCores s d) s
    have hqueued : loadQueued d s = { updEach (addLoad d) (loadCores s d) s with
        ldr := { (updEach (addLoad d) (loadCores s d) s).ldr with
          queue := (updEach (addLoad d) (loadCores s d) s).ldr.queue ++ [d.id] } } := by rw [hframe]; rfl
    show acceptThen d loadStart _ = _
    rw [← hqueued, acceptThen, show startsNow (loadQueued d s) d = startsNow s d from rfl, loadStart]
    split <;> rfl
  · rw [Bool.and_eq_true, List.any_eq_true]
    rintro ⟨hbit, c, hc, hrun⟩
    exact hdata hbit c hc (beq_iff_eq.mp hrun)
  · rw [List.any_eq_true]
    rintro ⟨c, hc, hhit⟩
    rw [Bool.and_eq_true, beq_iff_eq, beq_iff_eq] at hhit
    exact hfree c hc hhit

/-- However often a load is added to a core, its bank is the one that it first resolved to. -/
theorem mem_loads_repeat_addLoad (n : Nat) (k : Core) : (d.id, loadBank (d.at 20 1) k) ∈ (Nat.repeat (addLoad d) (n + 1) k).loads := by
  induction n with
  | zero => exact List.mem_append_right _ List.mem_cons_self
  | succ n ih => exact List.mem_append_left _ ih

theorem loads_loadQueued {c : Nat} (hc : c ∈ loadCores s d) :
    (d.id, loadBank (d.at 20 1) (getCore s c)) ∈ (getCore (loadQueued d s) c).loads := by
  have hcount : 0 < (loadCores s d).count c := List.count_pos_iff.mpr hc
  show _ ∈ (getCore (updEach (addLoad d) (loadCores s d) s) c).loads
  rw [getCore_updEach, ← Nat.sub_add_cancel hcount]
  exact mem_loads_repeat_addLoad _ _

theorem getCore_loadQueued_of_notMem {c : Nat} (hc : c ∉ loadCores s d) : getCore (loadQueued d s) c = getCore s c :=
  getCore_updEach_of_notMem (addLoad d) s hc

end

/-! ## The bank that a load writes (R149, R205) -/

section
variable (k : Core) (b : Nat) (v w : Bank)

@[simp] theorem bankOf_loads (l : List (Nat × Nat)) : bankOf { k with loads := l } b = bankOf k b := rfl
theorem bankOf_setBank : bankOf (setBank k b v) b = v := by unfold bankOf setBank; split <;> rfl
theorem setBank_setBank : setBank (setBank k b v) b w = setBank k b w := by unfold setBank; split <;> rfl
@[simp] theorem setBank_loads : (setBank k b v).loads = k.loads := by unfold setBank; split <;> rfl
@[simp] theorem setBank_run : (setBank k b v).run = k.run := by unfold setBank; split <;> rfl
@[simp] theorem setBank_sregs : (setBank k b v).sregs = k.sregs := by unfold setBank; split <;> rfl

end

/-- What a bank holds once a load of an object has written it (R149); `order` is the loader's count then. -/
def loadedBank (d : Desc) (hash : BitVec 256) (i : Image) (order : Nat) : Bank where
  valid := true
  gen := BitVec.ofNat 16 (d.at 18 2)
  code := i.code
  entries := i.entries
  tbase := i.tdescBase
  hash := hash
  order := order

section
variable {d : Desc} {hash : BitVec 256} {i : Image} {c bank : Nat}

theorem getCore_loadCore_self {s : State} (h : (getCore s c).loads.find? (fun l => l.1 == d.id) = some (d.id, bank)) :
    getCore (loadCore d hash i none s c) c = setBank (getCore s c) bank (loadedBank d hash i (s.ldr.tick + 1)) := by
  rw [loadCore, h]
  exact (getCore_updCore ..).trans (if_pos rfl)

theorem getCore_loadCore_ne {s : State} {x : Nat} (h : c ≠ x) : getCore (loadCore d hash i none s x) c = getCore s c := by
  unfold loadCore
  split
  · exact (getCore_updCore ..).trans (if_neg h)
  · rfl

@[simp] theorem loadCore_descs (s : State) (x : Nat) : (loadCore d hash i none s x).descs = s.descs := by
  unfold loadCore; split <;> rfl

theorem loadCores_descs (l : List Nat) (s : State) : (l.foldl (loadCore d hash i none) s).descs = s.descs :=
  List.foldlRecOn (motive := fun t : State => t.descs = s.descs) l _ rfl fun _ ht x _ => (loadCore_descs _ x).trans ht

theorem getCore_loadCores_of_notMem {l : List Nat} (hc : c ∉ l) (s : State) :
    getCore (l.foldl (loadCore d hash i none) s) c = getCore s c := by
  induction l generalizing s with
  | nil => rfl
  | cons x l ih =>
    obtain ⟨hx, hl⟩ := not_or.mp (mt List.mem_cons.mpr hc)
    exact (ih hl _).trans (getCore_loadCore_ne hx)

/-- A core that the load targets has its bank written: the last writing counts. -/
theorem getCore_loadCores {l : List Nat} (hc : c ∈ l) {s : State}
    (h : (getCore s c).loads.find? (fun l => l.1 == d.id) = some (d.id, bank)) :
    ∃ order, getCore (l.foldl (loadCore d hash i none) s) c = setBank (getCore s c) bank (loadedBank d hash i order) := by
  induction l generalizing s with
  | nil => exact absurd hc List.not_mem_nil
  | cons x l ih =>
    by_cases hx : c = x
    · subst hx
      have hone := getCore_loadCore_self (hash := hash) (i := i) h
      by_cases hl : c ∈ l
      · obtain ⟨order, hlast⟩ := ih hl (s := loadCore d hash i none s c) (by rw [hone, setBank_loads]; exact h)
        exact ⟨order, hlast.trans (by rw [hone, setBank_setBank])⟩
      · exact ⟨_, (getCore_loadCores_of_notMem hl _).trans hone⟩
    · have hother := getCore_loadCore_ne (d := d) (hash := hash) (i := i) (s := s) hx
      obtain ⟨order, hlast⟩ := ih (List.mem_of_ne_of_mem hx hc) (s := loadCore d hash i none s x) (by rw [hother]; exact h)
      exact ⟨order, hlast.trans (by rw [hother])⟩

end

/-! ## The end of a load -/

section
variable (id : Nat) (st : Status) (s : State)

theorem getCore_loadEnd (c : Nat) : getCore (loadEnd id st s) c =
    { getCore s c with loads := (getCore s c).loads.filter fun l => l.1 != id } :=
  getCore_updCores (f := fun k => { k with loads := k.loads.filter fun l => l.1 != id }) rfl
    (fun k => by simp only [List.filter_filter, Bool.and_self]) s c

theorem loadEnd_frame : loadEnd id st s = { s with
    cores := (loadEnd id st s).cores
    descs := (finishDesc id st s).descs
    ldr := { s.ldr with queue := s.ldr.queue.filter fun i => i != id } } := by
  unfold loadEnd
  rw [updCores_frame]
  rfl

theorem notMem_queue_loadEnd : id ∉ (loadEnd id st s).ldr.queue := by
  rw [loadEnd_frame]
  exact fun h => bne_iff_ne.mp (List.mem_filter.mp h).2 rfl

theorem findDesc_loadEnd (j : Nat) : findDesc (loadEnd id st s) j = findDesc (finishDesc id st s) j := by
  rw [loadEnd_frame]; rfl

theorem reg_loadEnd (k : Nat) : reg (loadEnd id st s) k = reg s k := by rw [loadEnd_frame]; rfl

theorem banks_loadEnd (c : Nat) : (getCore (loadEnd id st s) c).bank0 = (getCore s c).bank0 ∧
    (getCore (loadEnd id st s) c).bank1 = (getCore s c).bank1 := by rw [getCore_loadEnd]; exact ⟨rfl, rfl⟩

end

theorem loadEnd_stands {s : State} {id : Nat} {d : Desc} (h : findDesc s id = some d) (hlive : d.live = true) (hcodes : d.codes = [])
    (st : Status) : Stands (loadEnd id st s) id (.done st) := by
  rw [Stands, findDesc_loadEnd]
  exact finishDesc_stands h hlive hcodes st

/-- A notice's bit stands in HIF_NOTICE (R470). -/
theorem bitOf_notice (fn : Nat) {bit : Nat} (hbit : bit < 32) (s : State) :
    bitOf (regN (notice fn bit s) (hif fn 0x04)) bit = true := by
  have hreg : reg (notice fn bit s) (hif fn 0x04) = reg s (hif fn 0x04) ||| BitVec.ofNat 32 (2 ^ bit) := by
    have hsent : ∀ v u, reg (signalVector fn v u) (hif fn 0x04) = reg u (hif fn 0x04) :=
      fun v u => regs_reg _ _ (signalVector_regs fn v u) _
    simp only [notice]
    split
    · rw [hsent, reg_orReg, if_pos rfl]
    · rw [reg_orReg, if_pos rfl]
  have hset : (BitVec.ofNat 32 (2 ^ bit)).getLsbD bit = true := by
    rw [BitVec.getLsbD_ofNat, Nat.testBit_two_pow_self, Bool.and_true, decide_eq_true hbit]
  rw [regN, hreg, bitOf_toNat, BitVec.getLsbD_or, hset, Bool.or_true]

/-! ## LOAD_PROGRAM_DONE -/

/-- A load from host memory without INIT_DATA and without a report, whose turn has come (R204, R205). -/
structure HostLoad (s : State) (id : Nat) (d : Desc) : Prop where
  found : findDesc s id = some d
  started : d.phase = .started
  queued : id ∈ s.ldr.queue
  first : loadBlocked s id = false
  fromHost : bitOf (d.at 21 1) 0 = false
  noData : bitOf (d.at 21 1) 1 = false
  noReport : d.at 40 8 = 0
  clean : d.codes = []

namespace HostLoad
variable {s : State} {id : Nat} {d : Desc} (h : HostLoad s id d)
include h

theorem itsTurn : (s.ldr.queue.contains id && d.phase == .started && !loadBlocked s id) = true := by
  simp [h.queued, h.started, h.first]

theorem exec_data (dt : Nat) (o : Bytes) :
    exec (.loadProgramDone dt id (.data o)) s = .next (loadRun d (sliceB o 0 (d.at 32 4)) (pass dt s)) := by
  show execLoadProgramDone dt id (.data o) s = _
  simp only [execLoadProgramDone, h.found, if_pos h.itsTurn, loadObject, h.fromHost, Bool.false_and, Bool.false_eq_true, if_false]

theorem exec_failed (dt : Nat) :
    exec (.loadProgramDone dt id .failed) s = .next (loadEnd id .internalError (notice d.fn 6 (pass dt s))) := by
  show execLoadProgramDone dt id .failed s = _
  simp only [execLoadProgramDone, h.found, if_pos h.itsTurn, loadObject, loadFailed, h.fromHost, Bool.false_and, Bool.false_eq_true,
    if_false, findDesc_id h.found]

theorem stands {u : State} (hu : u.descs = s.descs) (st : Status) : Stands (loadEnd id st u) id (.done st) :=
  loadEnd_stands (by rw [findDesc, hu]; exact h.found) (live_of_started h.started) h.clean st

theorem loadRun_error (dt : Nat) {b : Bytes} {e : XErr} (ht : translate (opsOf s) b = .error e) :
    loadRun d b (pass dt s) = loadEnd id .xlateFailed (pass dt s) := by
  have ht' : translate (opsOf (pass dt s)) b = .error e := ht
  simp only [loadRun, h.noData, h.noReport, ht', Bool.false_and, Bool.false_eq_true, if_false, if_true, findDesc_id h.found]

/-- The object's native image is cached, the banks are written, the load ends. -/
theorem loadRun_ok (dt : Nat) {b : Bytes} {i : Image} (ht : translate (opsOf s) b = .ok i) : ∃ n,
    loadRun d b (pass dt s) = loadEnd id .ok
      ((s.cores.map Prod.fst).foldl (loadCore d (sha256 b) i none) (cacheNative n (pass dt s))) := by
  have ht' : translate (opsOf (pass dt s)) b = .ok i := ht
  refine ⟨{ hash := sha256 b, loader := loaderVer s, code := i.code, entries := i.entries, tbase := i.tdescBase, used := 0 }, ?_⟩
  simp only [loadRun, h.noData, h.noReport, ht', Bool.false_and, Bool.false_eq_true, if_false, if_true, findDesc_id h.found]
  rfl

/-- A core that the load targets, after it: its bank written, the load gone from its list, nothing else changed. -/
theorem getCore_loaded {c bank : Nat} (hload : (getCore s c).loads.find? (fun l => l.1 == id) = some (id, bank)) (hash : BitVec 256)
    (i : Image) {u : State} (hu : u.cores = s.cores) : ∃ order,
      getCore (loadEnd id .ok ((s.cores.map Prod.fst).foldl (loadCore d hash i none) u)) c =
        { setBank (getCore s c) bank (loadedBank d hash i order) with loads := (getCore s c).loads.filter fun l => l.1 != id } := by
  have hid := findDesc_id h.found
  have hkey : c ∈ s.cores.map Prod.fst := by
    refine mem_keys_of_get_ne (d := {}) fun hrest => ?_
    rw [getCore, hrest] at hload
    cases hload
  have hbefore : getCore u c = getCore s c := getCore_congr hu c
  obtain ⟨order, hcore⟩ := getCore_loadCores (d := d) (hash := hash) (i := i) (bank := bank) hkey (s := u)
    (by rw [hid, hbefore]; exact hload)
  exact ⟨order, by rw [getCore_loadEnd, hcore, hbefore, setBank_loads]⟩

end HostLoad

/-! ## The statement -/

/-- Settles O12: acceptance by what its checks find (`loadAccept_empty`, `loadAccept_busy`, `loadAccept_accepted`), and the end by what the
object gives (`HostLoad.loadRun_ok` with `HostLoad.getCore_loaded`, `HostLoad.loadRun_error`, `HostLoad.exec_failed`). -/
theorem loadProgram : Obligations.LoadProgram := by
  unfold Obligations.LoadProgram
  refine ⟨fun s id d h hstep => ?accept, fun s dt id d o hfound hphase hqueue hfirst hhost hnodata hnoreport hcodes => ?done⟩
  case accept =>
    have hid := findDesc_id h.found
    have hlive := live_of_fetched h.fetched
    have hexec := exec_loadProgram h hstep
    subst hid
    intro cores len hits hflags hzero hbank hgroup
    have hform : LoadForm s d := ⟨hflags, hzero, hbank, hgroup⟩
    refine ⟨fun hlen hcodes => ?_, fun hsome hshort haligned hreport hread => ?_⟩
    · rw [loadAccept_empty hform hlen] at hexec
      exact ⟨_, hexec, finishDesc_stands h.found hlive hcodes .ok, rfl⟩
    have hrange : LoadRange s d := ⟨hsome, hshort, haligned, hreport, hread⟩
    refine ⟨fun hbusy => ?_, fun hfree hdata => ?_⟩
    · rw [loadAccept_busy hform hrange hbusy] at hexec
      exact ⟨_, hexec, refuseDesc_stands h.found hlive .imemBusy, rfl⟩
    · rw [loadAccept_accepted hform hrange hfree hdata] at hexec
      exact ⟨_, hexec, setPhase_stands (s := loadQueued d s) h.found hlive _, rfl, fun c => loads_loadQueued,
        fun c => getCore_loadQueued_of_notMem, rfl⟩
  case done =>
    have h : HostLoad s id d := ⟨hfound, hphase, hqueue, hfirst, hhost, hnodata, hnoreport, hcodes⟩
    intro b
    refine ⟨⟨_, h.exec_data dt o, ?_⟩, _, h.exec_failed dt, h.stands (by simp) .internalError, notMem_queue_loadEnd _ _ _, ?_,
      fun c => ?_⟩
    · cases ht : translate (opsOf s) b with
      | error e =>
        rw [h.loadRun_error dt ht]
        exact ⟨notMem_queue_loadEnd _ _ _, h.stands (pass_descs dt s) .xlateFailed, banks_loadEnd id .xlateFailed (pass dt s)⟩
      | ok i =>
        obtain ⟨n, hrun⟩ := h.loadRun_ok dt ht
        rw [hrun]
        refine ⟨notMem_queue_loadEnd _ _ _, h.stands (loadCores_descs _ (cacheNative n (pass dt s))) .ok, fun c bank hload => ?_⟩
        obtain ⟨order, hcore⟩ := h.getCore_loaded hload (sha256 b) i (u := cacheNative n (pass dt s)) rfl
        rw [hcore, bankOf_loads, bankOf_setBank]
        exact ⟨rfl, rfl, rfl, rfl, rfl, fun l hl => bne_iff_ne.mp (List.mem_filter.mp hl).2, setBank_run .., setBank_sregs ..⟩
    · rw [regN, reg_loadEnd]
      exact bitOf_notice d.fn (by decide) (pass dt s)
    · have hcores : getCore (notice d.fn 6 (pass dt s)) c = getCore s c := getCore_congr (by simp) c
      rw [← hcores]
      exact banks_loadEnd ..

end Sys2Proof.Machine
end

section
/-!
PROOFS. The precision governor's commands (R239, R243, R246, R247, R254, R257): what a trip leaves as it stood, how a record joins its
window, what a write of a threshold stores, and from these the statement about them.
-/
namespace Sys2Proof.Machine

@[simp] theorem getPart_updGov (n m : Nat) (f : Gov → Gov) (s : State) :
    getPart (updGov n f s) m = if m = n then { getPart s n with gov := f (getPart s n).gov } else getPart s m := getPart_updPart ..

/-! ## What changes outside a partition -/

/-- The partitions but `n`, the cores, the memory, the descriptors and the counters stand as they stood. -/
structure OnlyPart (n : Nat) (s t : State) : Prop where
  others : ∀ m, m ≠ n → getPart t m = getPart s m
  cores : t.cores = s.cores
  mem : t.mem = s.mem
  descs : t.descs = s.descs
  syn : t.syn = s.syn

namespace OnlyPart

variable {n : Nat} {s t u : State}

theorem refl (n : Nat) (s : State) : OnlyPart n s s := ⟨fun _ _ => rfl, rfl, rfl, rfl, rfl⟩

theorem trans (h : OnlyPart n s t) (k : OnlyPart n t u) : OnlyPart n s u :=
  ⟨fun m hm => (k.others m hm).trans (h.others m hm), k.cores.trans h.cores, k.mem.trans h.mem, k.descs.trans h.descs, k.syn.trans h.syn⟩

theorem updPart (n : Nat) (f : Part → Part) (s : State) : OnlyPart n s (updPart n f s) :=
  ⟨fun m hm => by rw [getPart_updPart, if_neg hm], rfl, rfl, rfl, rfl⟩

theorem updGov (n : Nat) (f : Gov → Gov) (s : State) : OnlyPart n s (updGov n f s) := updPart n _ s

end OnlyPart

/-! ## What a trip leaves as it stood (R246, R247) -/

/-- A context's waiting records, windows, observations and outlier sums stand as they stood. -/
structure SameWindows (g h : Gov) : Prop where
  inbox : h.inbox = g.inbox
  windows : h.windows = g.windows
  obs : h.obs = g.obs
  outl : h.outl = g.outl

/-- Nothing changes outside partition `n`, and none of its windows. -/
structure WindowsKept (n : Nat) (s t : State) : Prop extends OnlyPart n s t where
  gov : SameWindows (getPart s n).gov (getPart t n).gov

namespace WindowsKept

variable {n : Nat} {s t : State}

theorem refl (n : Nat) (s : State) : WindowsKept n s s := ⟨.refl n s, rfl, rfl, rfl, rfl⟩

theorem setReg (h : WindowsKept n s t) (k : Nat) (v : Word) : WindowsKept n s (setReg k v t) :=
  ⟨h.toOnlyPart.trans ⟨fun _ _ => rfl, rfl, rfl, rfl, rfl⟩, h.gov⟩

theorem govFlag (h : WindowsKept n s t) (bit : Nat) : WindowsKept n s (govFlag n bit t) := h.setReg _ _

theorem updPart (h : WindowsKept n s t) {f : Part → Part} (hf : ∀ p, SameWindows p.gov (f p).gov) :
    WindowsKept n s (updPart n f t) := by
  refine ⟨h.toOnlyPart.trans (.updPart n f t), ?_⟩
  obtain ⟨hinbox, hwindows, hobs, houtl⟩ := hf (getPart t n)
  rw [getPart_updPart, if_pos rfl]
  exact ⟨hinbox.trans h.gov.inbox, hwindows.trans h.gov.windows, hobs.trans h.gov.obs, houtl.trans h.gov.outl⟩

theorem updGov (h : WindowsKept n s t) {f : Gov → Gov} (hf : ∀ g, SameWindows g (f g) := by exact fun _ => ⟨rfl, rfl, rfl, rfl⟩) :
    WindowsKept n s (updGov n f t) := h.updPart fun p => hf p.gov

theorem updStep (h : WindowsKept n s t) (f : Step → Step) : WindowsKept n s (updStep n f t) := h.updPart fun _ => ⟨rfl, rfl, rfl, rfl⟩

theorem raiseCause (h : WindowsKept n s t) (bit : Nat) : WindowsKept n s (raiseCause n bit t) := h.updStep _

theorem tripLayer (h : WindowsKept n s t) (i count cause : Nat) : WindowsKept n s (tripLayer n i count cause t) := by
  unfold Machine.tripLayer updLayer
  exact h.updGov

end WindowsKept

/-- A trip marks its layer, counts, and asks for a replay; no window is touched. -/
theorem govTrip_windowsKept (n i : Nat) (causes : List Nat) (ratio : Option Nat) (s : State) :
    WindowsKept n s (govTrip n i causes ratio s) := by
  unfold govTrip
  split
  · exact .refl n s
  split
  · exact .refl n s
  extract_lets cause counted between tripped a named ratioed g marked
  have hcounted : WindowsKept n s counted := (WindowsKept.refl n s).tripLayer _ _ _
  have hbetween : WindowsKept n s between := by
    unfold between
    split
    · exact hcounted.updGov
    · exact hcounted
  have hnamed : WindowsKept n s named := hbetween.updGov.setReg _ _
  have hratioed : WindowsKept n s ratioed := by
    unfold ratioed
    split
    · exact hnamed.updGov
    · exact hnamed
  have hmarked : WindowsKept n s marked := hratioed.updGov
  clear_value named ratioed marked
  split
  · exact hnamed.govFlag _
  split
  · exact hnamed.updGov
  split
  · split
    · exact hratioed
    split
    · exact hmarked
    · exact ((hmarked.updStep _).govFlag _).raiseCause _
  · exact hnamed.updGov.govFlag _

/-! ## A record joins its window (R243) -/

/-- The number of a record's layer and class in the tables of a context. -/
def recordKey (b : Bytes) : Nat := 2 * leAt b 4 2 + leAt b 6 1

/-- The elements that a layer's window of a record's class counts to. -/
def recordExpect (b : Bytes) (l : Layer) : Nat := if leAt b 6 1 = 0 then l.outElems else l.gradElems

/-- The window that a record joins, with its SUMSQ and ELEMENTS in it. -/
def windowWith (b : Bytes) (g : Gov) : Window :=
  let w := g.windows.get {} (recordKey b)
  { sum := w.sum + (fp32Units (leAt b 0 4)).1, inf := w.inf || (fp32Units (leAt b 0 4)).2, elems := w.elems + leAt b 8 4 }

/-- The outlier sums of a context with a record's counts in them. -/
def countOutliers (b : Bytes) (g : Gov) : Gov :=
  { g with outl := Tbl.upd {} g.outl (recordKey b) fun o =>
      { outl := o.outl + leAt b 28 4, blocks := o.blocks + leAt b 12 4, drops := o.drops + leAt b 36 4 } }

/-- The window of a record's layer and class replaced. -/
def putWindow (b : Bytes) (w : Window) (g : Gov) : Gov := { g with windows := Tbl.set {} g.windows (recordKey b) w }

theorem get_putWindow (b : Bytes) (w : Window) (g : Gov) : (putWindow b w g).windows.get {} (recordKey b) = w := Tbl.get_set_self ..

/-- The observation of a closed window of a record's layer and class. -/
def recordObs (b : Bytes) (w : Window) (jump : Bool) : Obs :=
  { layer := leAt b 4 2, cls := leAt b 6 1, o := BitVec.ofNat 32 (obsOf w.sum w.inf w.elems), n := w.elems, jump := jump }

/-- A window closes: it starts anew, and its observation joins the others. -/
def closeWindow (b : Bytes) (w : Window) (jump : Bool) (g : Gov) : Gov :=
  { putWindow b {} g with obs := g.obs ++ [recordObs b w jump] }

/-- A record's window stays open below the expected count of elements and closes from there on; a count of 0 opens none. -/
def joinWindow (n expect : Nat) (b : Bytes) (jump : Bool) (s : State) : State :=
  let w := windowWith b (getPart s n).gov
  if expect = 0 then s else if expect ≤ w.elems then updGov n (closeWindow b w jump) s else updGov n (putWindow b w) s

section
variable {n expect : Nat} {b : Bytes} {jump : Bool} {s : State}

theorem joinWindow_none : joinWindow n 0 b jump s = s := rfl

theorem joinWindow_closes (hzero : expect ≠ 0) (h : expect ≤ (windowWith b (getPart s n).gov).elems) :
    joinWindow n expect b jump s = updGov n (closeWindow b (windowWith b (getPart s n).gov) jump) s := by
  rw [joinWindow, if_neg hzero, if_pos h]

theorem joinWindow_open (h : (windowWith b (getPart s n).gov).elems < expect) :
    joinWindow n expect b jump s = updGov n (putWindow b (windowWith b (getPart s n).gov)) s := by
  rw [joinWindow, if_neg (Nat.ne_zero_of_lt h), if_neg (Nat.not_le.mpr h)]

/-- A record joins no window, closes the one it joins, or leaves it open. -/
theorem joinWindow_cases {p : State → Prop} (hnone : p s) (hgov : ∀ f : Gov → Gov,
    (∀ g, (f g).inbox = g.inbox ∧ (f g).outl = g.outl) → p (updGov n f s)) : p (joinWindow n expect b jump s) := by
  by_cases hzero : expect = 0
  · rwa [hzero, joinWindow_none]
  by_cases hreached : expect ≤ (windowWith b (getPart s n).gov).elems
  · rw [joinWindow_closes hzero hreached]
    exact hgov _ fun _ => ⟨rfl, rfl⟩
  · rw [joinWindow_open (Nat.lt_of_not_le hreached)]
    exact hgov _ fun _ => ⟨rfl, rfl⟩

theorem joinWindow_onlyPart : OnlyPart n s (joinWindow n expect b jump s) :=
  joinWindow_cases (.refl n s) fun f _ => .updGov n f s

theorem joinWindow_inbox : (getPart (joinWindow n expect b jump s) n).gov.inbox = (getPart s n).gov.inbox :=
  joinWindow_cases (p := fun t => (getPart t n).gov.inbox = _) rfl fun f hf => by
    rw [getPart_updGov, if_pos rfl]; exact (hf _).1

theorem joinWindow_outl : (getPart (joinWindow n expect b jump s) n).gov.outl = (getPart s n).gov.outl :=
  joinWindow_cases (p := fun t => (getPart t n).gov.outl = _) rfl fun f hf => by
    rw [getPart_updGov, if_pos rfl]; exact (hf _).2

end

/-- A record of a layer of the table counts its outliers and joins its window; the trip that it may raise touches no window. -/
theorem govTake_of_layer {n : Nat} {b : Bytes} {s : State} {l : Layer} (hcls : leAt b 6 1 ≤ 1) (hl : govLayer s n (leAt b 4 2) = some l) :
    ∃ jump, WindowsKept n (joinWindow n (recordExpect b l) b jump (updGov n (countOutliers b) s)) (govTake n b s) := by
  generalize htake : govTake n b s = t
  unfold govTake at htake
  extract_lets i cls key counted w units w' o at htake
  rw [if_neg (by omega), show govLayer s n i = some l from hl] at htake
  dsimp -zeta only at htake
  extract_lets expect closes jump joined causes at htake
  have hjoined : joined = joinWindow n expect b jump counted := by
    have hcloses : closes = true ↔ expect ≠ 0 ∧ expect ≤ w'.elems := by simp [closes]
    unfold joined
    by_cases hzero : expect = 0
    · rw [if_pos hzero, hzero, joinWindow_none]
    rw [if_neg hzero]
    by_cases hreached : expect ≤ w'.elems
    · rw [if_pos (hcloses.mpr ⟨hzero, hreached⟩), joinWindow_closes hzero hreached]
      rfl
    · rw [if_neg fun h => hreached (hcloses.mp h).2, joinWindow_open (Nat.lt_of_not_le hreached)]
      rfl
  subst htake
  exact ⟨jump, hjoined ▸ govTrip_windowsKept ..⟩

/-! ## GOVERNOR_RECORD -/

section
variable {s t : State} {n c : Nat} {b : Bytes} {rest : List (Nat × Bytes)} {l : Layer}

/-- The oldest record leaves the inbox of a context. -/
def popInbox (n : Nat) (rest : List (Nat × Bytes)) (s : State) : State := updGov n (fun g => { g with inbox := rest }) s

theorem exec_governorRecord (hstart : isStarted s n = true) (hinbox : (getPart s n).gov.inbox = (c, b) :: rest) :
    exec (.governorRecord n) s = .next (govTake n b (popInbox n rest s)) := by
  change execGovernorRecord n s = _
  rw [execGovernorRecord, hinbox]
  exact if_pos hstart

theorem govLayer_popInbox (i : Nat) : govLayer (popInbox n rest s) n i = govLayer s n i := by
  unfold govLayer
  rw [popInbox, getPart_updGov, if_pos rfl]
  rfl

/-- The oldest record out of the inbox, its outliers counted. -/
def recordCounted (n : Nat) (b : Bytes) (rest : List (Nat × Bytes)) (s : State) : State := updGov n (countOutliers b) (popInbox n rest s)

theorem recordCounted_gov : (getPart (recordCounted n b rest s) n).gov = countOutliers b { (getPart s n).gov with inbox := rest } := by
  simp [recordCounted, popInbox]

theorem recordCounted_onlyPart : OnlyPart n s (recordCounted n b rest s) := (OnlyPart.updGov n _ s).trans (.updGov n _ _)

theorem windowWith_recordCounted : windowWith b (getPart (recordCounted n b rest s) n).gov = windowWith b (getPart s n).gov := by
  rw [recordCounted_gov]
  rfl

/-- The state of a record's command but for its trip: the record out of the inbox and counted, its window joined. -/
def recordJoined (n expect : Nat) (b : Bytes) (rest : List (Nat × Bytes)) (jump : Bool) (s : State) : State :=
  joinWindow n expect b jump (recordCounted n b rest s)

theorem exec_governorRecord_joins (hstart : isStarted s n = true) (hinbox : (getPart s n).gov.inbox = (c, b) :: rest)
    (hcls : leAt b 6 1 ≤ 1) (hl : govLayer s n (leAt b 4 2) = some l) :
    ∃ jump, Does (.governorRecord n) s (WindowsKept n (recordJoined n (recordExpect b l) b rest jump s)) := by
  obtain ⟨jump, hkept⟩ := govTake_of_layer hcls ((govLayer_popInbox (rest := rest) _).trans hl)
  exact ⟨jump, _, exec_governorRecord hstart hinbox, hkept⟩

variable {expect : Nat} {jump : Bool}

theorem recordJoined_onlyPart : OnlyPart n s (recordJoined n expect b rest jump s) := recordCounted_onlyPart.trans joinWindow_onlyPart

theorem recordJoined_inbox : (getPart (recordJoined n expect b rest jump s) n).gov.inbox = rest := by
  rw [recordJoined, joinWindow_inbox, recordCounted_gov]
  rfl

theorem recordJoined_outl : ((getPart (recordJoined n expect b rest jump s) n).gov.outl.get {} (recordKey b)).outl =
    ((getPart s n).gov.outl.get {} (recordKey b)).outl + leAt b 28 4 := by
  rw [recordJoined, joinWindow_outl, recordCounted_gov, countOutliers, Tbl.get_upd, if_pos rfl]

theorem recordJoined_open (h : (windowWith b (getPart s n).gov).elems < expect) :
    (getPart (recordJoined n expect b rest jump s) n).gov.windows.get {} (recordKey b) = windowWith b (getPart s n).gov ∧
    (getPart (recordJoined n expect b rest jump s) n).gov.obs = (getPart s n).gov.obs := by
  have hw := windowWith_recordCounted (n := n) (b := b) (rest := rest) (s := s)
  rw [recordJoined, joinWindow_open (hw ▸ h), getPart_updGov, if_pos rfl, hw, recordCounted_gov]
  exact ⟨get_putWindow .., rfl⟩

theorem recordJoined_closes (hzero : expect ≠ 0) (h : expect ≤ (windowWith b (getPart s n).gov).elems) :
    (getPart (recordJoined n expect b rest jump s) n).gov.windows.get {} (recordKey b) = {} ∧
    (getPart (recordJoined n expect b rest jump s) n).gov.obs =
      (getPart s n).gov.obs ++ [recordObs b (windowWith b (getPart s n).gov) jump] := by
  have hw := windowWith_recordCounted (n := n) (b := b) (rest := rest) (s := s)
  rw [recordJoined, joinWindow_closes hzero (hw ▸ h), getPart_updGov, if_pos rfl, hw, recordCounted_gov]
  exact ⟨get_putWindow b {} _, rfl⟩

end

/-! ## GOV_T_WRITE (R254, R257) -/

section
variable {s : State} {fn n : Nat} {v : Word}

theorem exec_govTWrite_inStep (h : HostOpen s fn) {p : Step} (hp : openStep s n = some p) (g : Bool) :
    exec (.govTWrite fn n g v) s = .next (barAccess s) := by
  change execGovTWrite fn n g v s = _
  have hopen : openStep (barAccess s) n = some p := hp
  rw [execGovTWrite, hostPost_open h, hopen, Option.isNone_some, Bool.and_false, if_neg Bool.false_ne_true]

theorem exec_govTWrite_idle (h : HostOpen s fn) (hfn : fn = 0 ∨ fn = n) (hn : n ∈ partNums) (hp : openStep s n = none) (g : Bool) :
    exec (.govTWrite fn n g v) s =
      .next ((clampT v).elim (barAccess s) fun w => setReg (ctx bGovCtx n (if g then 0xC else 8)) w (barAccess s)) := by
  change execGovTWrite fn n g v s = _
  have hreach : ((decide (fn = 0) || decide (fn = n)) && partNums.contains n && (openStep (barAccess s) n).isNone) = true := by
    simp [hfn, hn, show openStep (barAccess s) n = none from hp]
  rw [execGovTWrite, hostPost_open h, if_pos hreach]
  cases clampT v <;> rfl

end

/-! ## The statement -/

/-- Settles O20: a record by `exec_governorRecord_joins`, with `recordJoined_open` and `recordJoined_closes` for its window; a threshold
by `exec_govTWrite_inStep` and `exec_govTWrite_idle`. -/
theorem governorCommands : Obligations.GovernorCommands := by
  unfold Obligations.GovernorCommands
  refine ⟨fun s n c b rest l hstart hinbox hcls hl => ?record, fun s fn n v hhost hfn hn => ⟨?inStep, fun hp => ⟨fun hnan g => ?nan,
    fun w hw => ⟨?out, ?grad⟩⟩⟩, by decide, by decide, by decide, by decide, by decide⟩
  case record =>
    obtain ⟨jump, t, hexec, honly, hinbox', hwindows, hobs, houtl⟩ := exec_governorRecord_joins hstart hinbox hcls hl
    obtain ⟨hothers, hcores, hmem, hdescs, hsyn⟩ := recordJoined_onlyPart.trans honly
    refine ⟨t, hexec, hinbox'.trans recordJoined_inbox, fun hopen => ?_, fun hzero hreached => ?_, houtl ▸ recordJoined_outl, hothers,
      hcores, hmem, hdescs, hsyn⟩
    · rw [hwindows, hobs]
      exact recordJoined_open hopen
    · rw [hwindows, hobs]
      obtain ⟨hempty, hobserved⟩ := recordJoined_closes hzero hreached
      exact ⟨hempty, _, hobserved, rfl, rfl, rfl⟩
  case inStep => exact fun p hp g => exec_govTWrite_inStep hhost hp g
  case nan => rw [exec_govTWrite_idle hhost hfn hn hp, hnan]; rfl
  case out => rw [exec_govTWrite_idle hhost hfn hn hp, hw]; rfl
  case grad => rw [exec_govTWrite_idle hhost hfn hn hp, hw]; rfl

end Sys2Proof.Machine
end

section
/-!
PROOFS. What one step does: the front command runs and answers a next state; from what every command keeps
(Laws/Keeps.lean), the two invariants of a step.
-/
namespace Sys2Proof.Machine

/-! ## Every command answers a next state -/

/-- A result that is a next state: no fault and no refusal. -/
def Answers (r : Result) : Prop := ∃ t, r = .next t

theorem answers_next (t : State) : Answers (.next t) := ⟨t, rfl⟩

theorem answers_ite {p : Prop} [Decidable p] {q r : Result} (hq : Answers q) (hr : Answers r) : Answers (if p then q else r) := by
  split <;> assumption

theorem answers_issueOp (c : Nat) (is : NInstr → Bool) (f : Core → NInstr → State → State) (s : State) :
    Answers (issueOp c is f s) := by
  unfold issueOp
  repeat (with_reducible first | exact answers_next _ | apply answers_ite | split)

theorem answers_spdmAnswer (fn need : Nat) (answer : State → State) (s : State) : Answers (spdmAnswer fn need answer s) := by
  unfold spdmAnswer
  repeat (with_reducible first | exact answers_next _ | apply answers_ite | split)

theorem answers_inSession (fn n : Nat) (opened : Bool) (answer : Session → State → State) (s : State) :
    Answers (inSession fn n opened answer s) := by
  unfold inSession
  repeat (with_reducible first | exact answers_next _ | apply answers_ite | split)

/-- Every branch of every meaning ends in a next state. -/
theorem exec_answers (c : Instr) (s : State) : Answers (exec c s) := by
  cases c <;> simp only [exec]
  all_goals
    try delta execBar0UnsupportedAccess execRegisterWrite execLatchedRead execCoreRemap execEnterIdle execSop execSmovi execSld
    try delta execSst execSid execLoop execEndloop execBr execBankswap execHalt execHaltFault execIssuePastEnd execEwait execWait
    try delta execWaitVerdict execSigControlCore execSigXf execAspush execXferStore execXferLoad execXferAddf execXferAddi
    try delta execXferPstore execXferPload execXferRowcast execXferColcast execMma execWld execWldm execNrw execDnrw execVop
    try delta execRed execEngineStart execEngineCompletion execCoreHalted execCheckLaneDisagree execCheckLaneVote execLoadProgram
    try delta execLoadProgramDone execStartStream execDescriptorFetch execNotBeforeReached execDescriptorComplete execCopy
    try delta execFill execFence execSyncSignal execSyncWait execStepBegin execStepCommit execStepCommitted execGovernorRecord
    try delta execAttemptEnd execAttemptEndConfirm execAttemptStart execReloadDeadline execDigestFold execDigestDeadline
    try delta execSiteCheckDone execCoreTestStart execCoreTestDone execReplayStep execOrderedCompareFold execDigest execSelftest
    try delta execSelftestDone execMemoryRead execMemoryWrite execMemoryAdd execStackFailure execRegulatorInterval execHbmRefresh
    try delta execScrub execRpcFetchDone execMeshFlitRetry execSignalApply execWaitRequest execWaitDeadline execWaitBusyResend
    try delta execRemoteWaitGrace execLaneFailed execLane execCodewordUncorrectable execLink execTime execTimeOkExpiry
    try delta execDelayMeasure execDelayResp execParam execPortSignalDetect execPortTrainDone execPortAlignDone execPortUp
    try delta execPortStateTimeout execPortRetry execPortLossOfSignal execCreditStallTimeout execAckTimeout execDestinationRetry
    try delta execHeldPacketTimeout execHeldReplyTimeout execCollectiveArm execScratchSlotGrant execMissingTimer
    try delta execCollectiveDeadline execIngestSubmit execSampleDispatch execSampleDone execSampleWatchdog execPipeKnownAnswerTest
    try delta execPipeTestDone execBufferFilled execFlrVf execFlrPf0 execPf0FlrTimeout execBar4Read execBar4Write
    try delta execDoorbellSqTail execDoorbellCqHead execCoalesceTimeout execPcieL1Entry execRingDrained execConfigPartition
    try delta execStartPartition execStopPartition execDrainDone execDrainTimeout execCheckpoint execWarmResetDone
    try delta execWarmResetTimeout execPowerCycleIgnored execSysctlWatchdog execJunctionSample execThermtripRelease
    try delta execThermalStep execStackTempSample execVinSample execVinRecovered execVauxSample execPowerMean1ms
    try delta execPowerRecoveryStep execFastRecoveryStep execRegulatorAdjust execClockRaise execErrorCountSample execPwrlimNFall
    try delta execWakeN execEnterDeep execWakeFromDeep execEnterStandby execWakeFromStandby execVinWaitTimeout execReportDatagram
    try delta execRateLimitSecond execHeartbeatDatagram execArpRequest execNeighbourSolicitation execIcmpEcho execMctpControl
    try delta execPldmDiscovery execPldmPlatform execPldmFirmwareUpdate execFwActivate execPtpSync execPtpDelayResp execPtpLost
    try delta execFuseWrite execFuseWriteDone execVauxUp execVinUp execBrdRstNFall execBrdRstNRise execFrefLoss execFrefReturn
    try delta execGetVersion execGetCapabilities execNegotiateAlgorithms execGetDigests execGetCertificate execChallenge
    try delta execGetMeasurements execKeyExchange execFinish execEndSession execKeyUpdate execHeartbeat execChunkSend execChunkGet
    try delta execSpdmSignatureDone execKeyProg execKSetStop execPcieLinkTraining execKSetGo execReservedPacketType
    try delta execCumulativeAck
  all_goals repeat (with_reducible first
    | exact answers_next _ | apply answers_issueOp | apply answers_spdmAnswer | apply answers_inSession | apply answers_ite | split
    | (extract_lets +onlyGivenNames w; clear_value w))
  all_goals exact ⟨_, rfl⟩

/-- Settles O57: the first two clauses are the two equations of `step`, the third is `exec_answers`. -/
theorem stepRunsTheFront : Obligations.StepRunsTheFront := by
  unfold Obligations.StepRunsTheFront
  exact ⟨fun _ _ _ => rfl, fun _ => rfl, fun s c => exec_answers c s⟩

/-! ## What every command keeps -/

/-- Every command but FUSE_WRITE_DONE keeps the queue, a sound state sound, and takes nothing back. -/
theorem exec_keeps (c : Instr) (s : State) (hc : ∀ dt readBack, c ≠ .fuseWriteDone dt readBack) : KeepsR s (exec c s) := by
  have h := Keeps.refl s
  cases c with
  | bar0UnsupportedAccess fn off width write => exact execBar0UnsupportedAccess_keeps fn off width write h
  | registerWrite fn off width value => exact execRegisterWrite_keeps fn off width value h
  | latchedRead fn read => exact execLatchedRead_keeps fn read h
  | coreRemap core => exact execCoreRemap_keeps core h
  | enterIdle => exact execEnterIdle_keeps h
  | sop core => exact execSop_keeps core h
  | smovi core => exact execSmovi_keeps core h
  | sld core ecc => exact execSld_keeps core ecc h
  | sst core => exact execSst_keeps core h
  | sid core => exact execSid_keeps core h
  | loop core => exact execLoop_keeps core h
  | endloop core => exact execEndloop_keeps core h
  | br core => exact execBr_keeps core h
  | bankswap core => exact execBankswap_keeps core h
  | halt core => exact execHalt_keeps core h
  | haltFault core => exact execHaltFault_keeps core h
  | issuePastEnd core => exact execIssuePastEnd_keeps core h
  | ewait core => exact execEwait_keeps core h
  | wait core => exact execWait_keeps core h
  | waitVerdict core => exact execWaitVerdict_keeps core h
  | sigControlCore core => exact execSigControlCore_keeps core h
  | sigXf core => exact execSigXf_keeps core h
  | aspush core => exact execAspush_keeps core h
  | xferStore core => exact execXferStore_keeps core h
  | xferLoad core => exact execXferLoad_keeps core h
  | xferAddf core => exact execXferAddf_keeps core h
  | xferAddi core => exact execXferAddi_keeps core h
  | xferPstore core => exact execXferPstore_keeps core h
  | xferPload core => exact execXferPload_keeps core h
  | xferRowcast core => exact execXferRowcast_keeps core h
  | xferColcast core => exact execXferColcast_keeps core h
  | mma core => exact execMma_keeps core h
  | wld core => exact execWld_keeps core h
  | wldm core => exact execWldm_keeps core h
  | nrw core => exact execNrw_keeps core h
  | dnrw core => exact execDnrw_keeps core h
  | vop core => exact execVop_keeps core h
  | red core => exact execRed_keeps core h
  | engineStart core engine ecc => exact execEngineStart_keeps core engine ecc h
  | engineCompletion core engine => exact execEngineCompletion_keeps core engine h
  | coreHalted core => exact execCoreHalted_keeps core h
  | checkLaneDisagree core array outlierLane original check => exact execCheckLaneDisagree_keeps core array outlierLane original check h
  | checkLaneVote core array rerun => exact execCheckLaneVote_keeps core array rerun h
  | maChkClear fn core array => exact execMaChkClear_keeps fn core array h
  | injArrayMa0 fn core => exact execInjArrayMa0_keeps fn core h
  | injArrayMa1 fn core => exact execInjArrayMa1_keeps fn core h
  | injLaneMa0 fn core => exact execInjLaneMa0_keeps fn core h
  | injLaneMa1 fn core => exact execInjLaneMa1_keeps fn core h
  | coreFaultClear fn core => exact execCoreFaultClear_keeps fn core h
  | loadProgram id => exact execLoadProgram_keeps id h
  | loadProgramDone dt id object => exact execLoadProgramDone_keeps dt id object h
  | startStream id => exact execStartStream_keeps id h
  | descriptorFetch dt ring bytes => exact execDescriptorFetch_keeps dt ring bytes h
  | notBeforeReached dt id => exact execNotBeforeReached_keeps dt id h
  | descriptorComplete dt id => exact execDescriptorComplete_keeps dt id h
  | copy id host => exact execCopy_keeps id host h
  | fill id => exact execFill_keeps id h
  | fence id => exact execFence_keeps id h
  | syncSignal id => exact execSyncSignal_keeps id h
  | syncWait id => exact execSyncWait_keeps id h
  | stepBegin id => exact execStepBegin_keeps id h
  | stepCommit id => exact execStepCommit_keeps id h
  | stepCommitted dt part => exact execStepCommitted_keeps dt part h
  | governorRecord part => exact execGovernorRecord_keeps part h
  | govTWrite fn part grad value => exact execGovTWrite_keeps fn part grad value h
  | attemptEnd dt part => exact execAttemptEnd_keeps dt part h
  | attemptEndConfirm dt part => exact execAttemptEndConfirm_keeps dt part h
  | attemptStart dt part => exact execAttemptStart_keeps dt part h
  | replayNotice port pkt => exact execReplayNotice_keeps port pkt h
  | digestList port pkt => exact execDigestList_keeps port pkt h
  | reloadReq port pkt => exact execReloadReq_keeps port pkt h
  | reloadDone port pkt => exact execReloadDone_keeps port pkt h
  | reloadDeadline dt part => exact execReloadDeadline_keeps dt part h
  | digestFold part => exact execDigestFold_keeps part h
  | digestDeadline dt part => exact execDigestDeadline_keeps dt part h
  | siteCheckDone dt site agree result => exact execSiteCheckDone_keeps dt site agree result h
  | coreTestStart site => exact execCoreTestStart_keeps site h
  | coreTestDone dt site result => exact execCoreTestDone_keeps dt site result h
  | replayStep id => exact execReplayStep_keeps id h
  | orderedCompareFold part => exact execOrderedCompareFold_keeps part h
  | digest id => exact execDigest_keeps id h
  | selftest id => exact execSelftest_keeps id h
  | selftestDone dt id results => exact execSelftestDone_keeps dt id results h
  | memoryRead req len err => exact execMemoryRead_keeps req len err h
  | memoryWrite req data => exact execMemoryWrite_keeps req data h
  | memoryAdd req fp data res => exact execMemoryAdd_keeps req fp data res h
  | stackFailure stack => exact execStackFailure_keeps stack h
  | regulatorInterval dt => exact execRegulatorInterval_keeps dt h
  | hbmRefresh dt stack => exact execHbmRefresh_keeps dt stack h
  | scrub dt stack err => exact execScrub_keeps dt stack err h
  | rpcFetchDone part page ok => exact execRpcFetchDone_keeps part page ok h
  | rpcInval fn part => exact execRpcInval_keeps fn part h
  | meshFlitRetry dt link => exact execMeshFlitRetry_keeps dt link h
  | signalApply n => exact execSignalApply_keeps n h
  | waitRequest n => exact execWaitRequest_keeps n h
  | waitDeadline dt n => exact execWaitDeadline_keeps dt n h
  | waitBusyResend dt n => exact execWaitBusyResend_keeps dt n h
  | remoteWaitGrace dt n => exact execRemoteWaitGrace_keeps dt n h
  | laneFailed port lane => exact execLaneFailed_keeps port lane h
  | lane port op failed width handshake => exact execLane_keeps port op failed width handshake h
  | codewordUncorrectable port cseq => exact execCodewordUncorrectable_keeps port cseq h
  | link port ackCseq resend report => exact execLink_keeps port ackCseq resend report h
  | time dt port time frac plane quality => exact execTime_keeps dt port time frac plane quality h
  | timeOkExpiry dt port => exact execTimeOkExpiry_keeps dt port h
  | delayMeasure dt port => exact execDelayMeasure_keeps dt port h
  | delayResp dt port t1 t2 t3 => exact execDelayResp_keeps dt port t1 t2 t3 h
  | param port plane role node creds => exact execParam_keeps port plane role node creds h
  | portSignalDetect port => exact execPortSignalDetect_keeps port h
  | portTrainDone port failed => exact execPortTrainDone_keeps port failed h
  | portAlignDone port => exact execPortAlignDone_keeps port h
  | portUp port => exact execPortUp_keeps port h
  | portStateTimeout dt port => exact execPortStateTimeout_keeps dt port h
  | portRetry dt port => exact execPortRetry_keeps dt port h
  | portLossOfSignal dt port lanes => exact execPortLossOfSignal_keeps dt port lanes h
  | creditStallTimeout dt port => exact execCreditStallTimeout_keeps dt port h
  | portEnWrite fn value => exact execPortEnWrite_keeps fn value h
  | readPacket port pkt => exact execReadPacket_keeps port pkt h
  | writePacket port pkt => exact execWritePacket_keeps port pkt h
  | addfPacket port pkt => exact execAddfPacket_keeps port pkt h
  | addiPacket port pkt => exact execAddiPacket_keeps port pkt h
  | parcelPacket port pkt => exact execParcelPacket_keeps port pkt h
  | signalPacket port pkt => exact execSignalPacket_keeps port pkt h
  | waitPacket port pkt => exact execWaitPacket_keeps port pkt h
  | ack port pkt => exact execAck_keeps port pkt h
  | readData port pkt => exact execReadData_keeps port pkt h
  | nak port pkt => exact execNak_keeps port pkt h
  | verdict port pkt => exact execVerdict_keeps port pkt h
  | ackTimeout dt node flow vc => exact execAckTimeout_keeps dt node flow vc h
  | destinationRetry dt node => exact execDestinationRetry_keeps dt node h
  | heldPacketTimeout dt n => exact execHeldPacketTimeout_keeps dt n h
  | heldReplyTimeout dt node flow vc psn => exact execHeldReplyTimeout_keeps dt node flow vc psn h
  | collective id => exact execCollective_keeps id h
  | collectiveFused id => exact execCollectiveFused_keeps id h
  | collectiveArm dt id => exact execCollectiveArm_keeps dt id h
  | scratchSlotGrant id => exact execScratchSlotGrant_keeps id h
  | join port pkt => exact execJoin_keeps port pkt h
  | window port pkt => exact execWindow_keeps port pkt h
  | collData port burst => exact execCollData_keeps port burst h
  | collEnd port pkt => exact execCollEnd_keeps port pkt h
  | missingTimer dt id => exact execMissingTimer_keeps dt id h
  | missing port pkt => exact execMissing_keeps port pkt h
  | done port pkt => exact execDone_keeps port pkt h
  | result port pkt => exact execResult_keeps port pkt h
  | abort port pkt => exact execAbort_keeps port pkt h
  | collectiveDeadline dt id => exact execCollectiveDeadline_keeps dt id h
  | ingestSubmit id => exact execIngestSubmit_keeps id h
  | sampleDispatch dt part entry segment => exact execSampleDispatch_keeps dt part entry segment h
  | sampleDone pipe => exact execSampleDone_keeps pipe h
  | sampleWatchdog dt pipe => exact execSampleWatchdog_keeps dt pipe h
  | pipeKnownAnswerTest dt pipe => exact execPipeKnownAnswerTest_keeps dt pipe h
  | pipeTestDone dt pipe pass => exact execPipeTestDone_keeps dt pipe pass h
  | bufferFilled part slot => exact execBufferFilled_keeps part slot h
  | perstAssert => exact execPerstAssert_keeps h
  | pcieLinkDown => exact execPcieLinkDown_keeps h
  | flrVf n => exact execFlrVf_keeps n h
  | flrPf0 => exact execFlrPf0_keeps h
  | pf0FlrTimeout dt => exact execPf0FlrTimeout_keeps dt h
  | bar4Read fn off len => exact execBar4Read_keeps fn off len h
  | bar4Write fn off data => exact execBar4Write_keeps fn off data h
  | doorbellSqTail fn ring width value => exact execDoorbellSqTail_keeps fn ring width value h
  | doorbellCqHead fn ring width value => exact execDoorbellCqHead_keeps fn ring width value h
  | coalesceTimeout dt ring => exact execCoalesceTimeout_keeps dt ring h
  | pcieL1Entry dt => exact execPcieL1Entry_keeps dt h
  | ringEnable fn ring => exact execRingEnable_keeps fn ring h
  | ringDisable fn ring => exact execRingDisable_keeps fn ring h
  | ringDrained ring => exact execRingDrained_keeps ring h
  | configPartition id table => exact execConfigPartition_keeps id table h
  | startPartition id => exact execStartPartition_keeps id h
  | stopPartition id => exact execStopPartition_keeps id h
  | drainDone dt part => exact execDrainDone_keeps dt part h
  | drainTimeout dt part => exact execDrainTimeout_keeps dt part h
  | checkpoint id => exact execCheckpoint_keeps id h
  | prtPartReset fn value => exact execPrtPartReset_keeps fn value h
  | prtWarmReset fn value => exact execPrtWarmReset_keeps fn value h
  | prtColdReset fn value => exact execPrtColdReset_keeps fn value h
  | warmResetDone dt => exact execWarmResetDone_keeps dt h
  | warmResetTimeout dt => exact execWarmResetTimeout_keeps dt h
  | powerCycleIgnored dt => exact execPowerCycleIgnored_keeps dt h
  | sysctlWatchdog dt => exact execSysctlWatchdog_keeps dt h
  | junctionSample dt temps => exact execJunctionSample_keeps dt temps h
  | thermtripRelease dt => exact execThermtripRelease_keeps dt h
  | thermalStep dt => exact execThermalStep_keeps dt h
  | stackTempSample dt temps => exact execStackTempSample_keeps dt temps h
  | vinSample dt millivolts milliamps => exact execVinSample_keeps dt millivolts milliamps h
  | vinRecovered dt => exact execVinRecovered_keeps dt h
  | vauxSample dt millivolts => exact execVauxSample_keeps dt millivolts h
  | powerMean1ms dt => exact execPowerMean1ms_keeps dt h
  | powerRecoveryStep dt => exact execPowerRecoveryStep_keeps dt h
  | fastRecoveryStep dt => exact execFastRecoveryStep_keeps dt h
  | regulatorAdjust dt domain marginMhz => exact execRegulatorAdjust_keeps dt domain marginMhz h
  | clockRaise dt => exact execClockRaise_keeps dt h
  | domainReport dt => exact execDomainReport_keeps dt h
  | errorCountSample dt => exact execErrorCountSample_keeps dt h
  | pwrlimNFall => exact execPwrlimNFall_keeps h
  | pwrlimNRise => exact execPwrlimNRise_keeps h
  | wakeN dt => exact execWakeN_keeps dt h
  | pwrReqActive fn => exact execPwrReqActive_keeps fn h
  | pwrReqDeep fn => exact execPwrReqDeep_keeps fn h
  | pwrReqStandby fn => exact execPwrReqStandby_keeps fn h
  | enterDeep dt => exact execEnterDeep_keeps dt h
  | wakeFromDeep dt => exact execWakeFromDeep_keeps dt h
  | enterStandby dt => exact execEnterStandby_keeps dt h
  | wakeFromStandby dt => exact execWakeFromStandby_keeps dt h
  | vinWaitTimeout dt => exact execVinWaitTimeout_keeps dt h
  | reportDatagram dt => exact execReportDatagram_keeps dt h
  | rateLimitSecond dt => exact execRateLimitSecond_keeps dt h
  | heartbeatDatagram dt => exact execHeartbeatDatagram_keeps dt h
  | getStatus path body => exact execGetStatus_keeps path body h
  | getEvents path body => exact execGetEvents_keeps path body h
  | getJournal path body => exact execGetJournal_keeps path body h
  | setPower path body => exact execSetPower_keeps path body h
  | reset path body => exact execReset_keeps path body h
  | setLimit path body => exact execSetLimit_keeps path body h
  | setNet path body => exact execSetNet_keeps path body h
  | setPtp path body => exact execSetPtp_keeps path body h
  | prepareSwap path body => exact execPrepareSwap_keeps path body h
  | arpRequest target => exact execArpRequest_keeps target h
  | neighbourSolicitation target => exact execNeighbourSolicitation_keeps target h
  | icmpEcho target data => exact execIcmpEcho_keeps target data h
  | mctpControl req => exact execMctpControl_keeps req h
  | pldmDiscovery req => exact execPldmDiscovery_keeps req h
  | pldmPlatform req readsEvent => exact execPldmPlatform_keeps req readsEvent h
  | pldmFirmwareUpdate component verifyComplete data => exact execPldmFirmwareUpdate_keeps component verifyComplete data h
  | fwActivate component => exact execFwActivate_keeps component h
  | ptpSync dt t1 t2 => exact execPtpSync_keeps dt t1 t2 h
  | ptpDelayResp t3 t4 => exact execPtpDelayResp_keeps t3 t4 h
  | ptpLost dt => exact execPtpLost_keeps dt h
  | fuseWrite dt => exact execFuseWrite_keeps dt h
  | fuseWriteDone dt readBack => exact absurd rfl (hc dt readBack)
  | vauxUp dt straps => exact execVauxUp_keeps dt straps h
  | vauxLoss => exact execVauxLoss_keeps h
  | vinUp dt straps fref stacksFailed => exact execVinUp_keeps dt straps fref stacksFailed h
  | brdRstNFall => exact execBrdRstNFall_keeps h
  | brdRstNRise dt => exact execBrdRstNRise_keeps dt h
  | frefLoss => exact execFrefLoss_keeps h
  | frefReturn => exact execFrefReturn_keeps h
  | getVersion fn req => exact execGetVersion_keeps fn req h
  | getCapabilities fn req => exact execGetCapabilities_keeps fn req h
  | negotiateAlgorithms fn req => exact execNegotiateAlgorithms_keeps fn req h
  | getDigests fn req => exact execGetDigests_keeps fn req h
  | getCertificate fn slot off len => exact execGetCertificate_keeps fn slot off len h
  | challenge fn slot req => exact execChallenge_keeps fn slot req h
  | getMeasurements fn index req => exact execGetMeasurements_keeps fn index req h
  | keyExchange fn req => exact execKeyExchange_keeps fn req h
  | finish fn session req => exact execFinish_keeps fn session req h
  | endSession fn session => exact execEndSession_keeps fn session h
  | keyUpdate fn session req => exact execKeyUpdate_keeps fn session req h
  | heartbeat fn session => exact execHeartbeat_keeps fn session h
  | chunkSend fn seq last data => exact execChunkSend_keeps fn seq last data h
  | chunkGet fn seq => exact execChunkGet_keeps fn seq h
  | spdmSignatureDone dt => exact execSpdmSignatureDone_keeps dt h
  | keyProg fn session stream key => exact execKeyProg_keeps fn session stream key h
  | kSetStop fn session stream => exact execKSetStop_keeps fn session stream h
  | dbgArm fn => exact execDbgArm_keeps fn h
  | dbgGo fn => exact execDbgGo_keeps fn h
  | pcieLinkTraining rate width flit => exact execPcieLinkTraining_keeps rate width flit h
  | kSetGo fn session stream => exact execKSetGo_keeps fn session stream h
  | reservedPacketType port pkt => exact execReservedPacketType_keeps port pkt h
  | cumulativeAck dt node flow vc => exact execCumulativeAck_keeps dt node flow vc h

/-- A command goes forward and keeps a sound state sound. -/
theorem exec_forward_sound {c : Instr} {s t : State} (h : exec c s = .next t) : Forward s t ∧ (Sound s → Sound t) := by
  by_cases hc : ∃ dt readBack, c = .fuseWriteDone dt readBack
  · obtain ⟨dt, readBack, rfl⟩ := hc
    exact (execFuseWriteDone_forward dt readBack s t h).2
  · have k : Keeps s t := (exec_keeps c s fun dt readBack e => hc ⟨dt, readBack, e⟩).next t h
    exact ⟨k.forward, k.sound⟩

/-- A step idles on an empty queue, and otherwise runs the front command on the state with the queue's rest. -/
theorem step_cases {s t : State} (h : step s = .next t) :
    t = s ∨ ∃ c rest, s.pending = c :: rest ∧ exec c { s with pending := rest } = .next t := by
  unfold step at h
  split at h
  · cases h; exact .inl rfl
  · exact .inr ⟨_, _, ‹_›, h⟩

/-- Taking a command from the queue leaves what `Sound` and `Forward` look at. -/
theorem sound_pending {s : State} (h : Sound s) (rest : List Instr) : Sound { s with pending := rest } :=
  ⟨h.memory, h.store, h.limitLow, h.limitHigh⟩

theorem forward_pending (s : State) (rest : List Instr) : Forward s { s with pending := rest } :=
  ⟨List.suffix_refl _, Nat.le_refl _, fun _ => Nat.le_refl _, BitVec.or_self, List.prefix_refl _, rfl, rfl⟩

/-- Settles O59, by `step_cases` and `exec_forward_sound`. -/
theorem soundKept : Obligations.SoundKept := by
  unfold Obligations.SoundKept
  intro s t hsound hstep
  obtain rfl | ⟨c, rest, -, hexec⟩ := step_cases hstep
  · exact hsound
  · exact (exec_forward_sound hexec).2 (sound_pending hsound rest)

/-- Settles O60, by `step_cases` and `exec_forward_sound`. -/
theorem forwardKept : Obligations.ForwardKept := by
  unfold Obligations.ForwardKept
  intro s t hstep
  obtain rfl | ⟨c, rest, -, hexec⟩ := step_cases hstep
  · exact (Keeps.refl _).forward
  · exact (forward_pending s rest).trans (exec_forward_sound hexec).1

end Sys2Proof.Machine
end

section
/-!
PROOFS. Rules of the state that the statements below share: bit fields of registers, two states compared field by field, what
a register reads after an event, a table after it is set.
-/
namespace Sys2Proof.Machine

/-! ## Bit fields -/

theorem bitOf_eq_testBit (v i : Nat) : bitOf v i = v.testBit i := by
  simp [bitOf, Nat.testBit_eq_decide_div_mod_eq]
  rfl

theorem setBits_eq (v lo n x : Nat) : setBits v lo n x = 2 ^ lo * (2 ^ n * (v / 2 ^ (lo + n)) + x % 2 ^ n) + v % 2 ^ lo := by
  have hv : v = 2 ^ lo * (2 ^ n * (v / 2 ^ (lo + n)) + bitsOf v lo n) + v % 2 ^ lo := by
    rw [bitsOf, Nat.pow_add, ← Nat.div_div_eq_div_mul, Nat.div_add_mod, Nat.div_add_mod]
  have hsub : v - bitsOf v lo n * 2 ^ lo = 2 ^ lo * (2 ^ n * (v / 2 ^ (lo + n))) + v % 2 ^ lo := by
    rw [Nat.mul_add] at hv
    rw [Nat.mul_comm (bitsOf v lo n)]
    omega
  rw [setBits, hsub, Nat.mul_add, Nat.mul_comm (x % 2 ^ n)]
  omega

theorem testBit_setBits (v lo n x i : Nat) :
    (setBits v lo n x).testBit i = if lo ≤ i ∧ i < lo + n then x.testBit (i - lo) else v.testBit i := by
  rw [setBits_eq, Nat.testBit_two_pow_mul_add _ (Nat.mod_lt _ (Nat.two_pow_pos lo))]
  by_cases hlo : i < lo
  · rw [if_pos hlo, if_neg (by omega), Nat.testBit_mod_two_pow, decide_eq_true hlo, Bool.true_and]
  · rw [if_neg hlo, Nat.testBit_two_pow_mul_add _ (Nat.mod_lt _ (Nat.two_pow_pos n))]
    by_cases hn : i - lo < n
    · rw [if_pos hn, if_pos (by omega), Nat.testBit_mod_two_pow, decide_eq_true hn, Bool.true_and]
    · rw [if_neg hn, if_neg (by omega), Nat.testBit_div_two_pow]
      congr 1
      omega

theorem bitOf_setBits (v lo n x i : Nat) :
    bitOf (setBits v lo n x) i = if lo ≤ i ∧ i < lo + n then bitOf x (i - lo) else bitOf v i := by
  simp only [bitOf_eq_testBit, testBit_setBits]

theorem bitsOf_setBits_self (v lo n x : Nat) : bitsOf (setBits v lo n x) lo n = x % 2 ^ n := by
  rw [bitsOf, setBits_eq, Nat.mul_add_div (Nat.two_pow_pos lo), Nat.div_eq_of_lt (Nat.mod_lt _ (Nat.two_pow_pos lo)), Nat.add_zero,
    Nat.mul_add_mod, Nat.mod_mod]

theorem testBit_bitsOf (v lo n i : Nat) : (bitsOf v lo n).testBit i = (decide (i < n) && v.testBit (lo + i)) := by
  rw [bitsOf, Nat.testBit_mod_two_pow, Nat.testBit_div_two_pow, Nat.add_comm]

theorem bitsOf_setBits_ne {lo n lo' n' : Nat} (h : lo + n ≤ lo' ∨ lo' + n' ≤ lo) (v x : Nat) :
    bitsOf (setBits v lo' n' x) lo n = bitsOf v lo n := by
  refine Nat.eq_of_testBit_eq fun i => ?_
  rw [testBit_bitsOf, testBit_bitsOf, testBit_setBits]
  by_cases hi : i < n
  · rw [if_neg (by omega)]
  · simp [hi]

theorem bitOf_mod {w i : Nat} (h : i < w) (v : Nat) : bitOf (v % 2 ^ w) i = bitOf v i := by
  simp [bitOf_eq_testBit, Nat.testBit_mod_two_pow, h]

theorem bitsOf_mod {w lo n : Nat} (h : lo + n ≤ w) (v : Nat) : bitsOf (v % 2 ^ w) lo n = bitsOf v lo n := by
  refine Nat.eq_of_testBit_eq fun i => ?_
  rw [testBit_bitsOf, testBit_bitsOf, Nat.testBit_mod_two_pow]
  by_cases hi : i < n
  · rw [decide_eq_true (by omega : lo + i < w), Bool.true_and]
  · simp [hi]

/-! ## Registers -/

@[simp] theorem regN_setReg (k j : Nat) (v : Word) (s : State) : regN (setReg k v s) j = if j = k then v.toNat else regN s j := by
  unfold regN; rw [reg_setReg]; split <;> rfl

theorem regN_congr {s t : State} (h : t.regs = s.regs) (k : Nat) : regN t k = regN s k := by rw [regN, regs_reg _ _ h, regN]

/-- A saturating count that is below its maximum rises by one. -/
theorem reg_incReg (k j : Nat) (s : State) : reg (incReg k s) j =
    if j = k ∧ reg s k ≠ 0xFFFFFFFF then reg s k + 1 else reg s j := by
  unfold incReg
  by_cases h : reg s k = 0xFFFFFFFF
  · rw [if_pos h, if_neg (fun c => c.2 h)]
  · rw [if_neg h, reg_setReg]; simp only [ne_eq, h, not_false_eq_true, and_true]

theorem reg_incReg_ne {k j : Nat} (h : j ≠ k) (s : State) : reg (incReg k s) j = reg s j := by
  rw [reg_incReg, if_neg fun c => h c.1]

theorem reg_incReg_self {k : Nat} {s : State} (h : reg s k ≠ 0xFFFFFFFF) : reg (incReg k s) k = reg s k + 1 := by
  rw [reg_incReg, if_pos ⟨rfl, h⟩]

theorem incReg_frame (k : Nat) (s : State) : incReg k s = { s with regs := (incReg k s).regs } := by
  unfold incReg; split <;> rfl

/-! ## States compared field by field -/

theorem state_ext {s t : State} (h1 : s.pending = t.pending) (h2 : s.out = t.out) (h3 : s.free = t.free) (h4 : s.now = t.now)
    (h5 : s.clock = t.clock) (h6 : s.bootTime = t.bootTime) (h7 : s.regs = t.regs) (h8 : s.latches = t.latches) (h9 : s.places = t.places)
    (h10 : s.sites = t.sites) (h11 : s.cores = t.cores) (h12 : s.parts = t.parts) (h13 : s.rings = t.rings) (h14 : s.funcs = t.funcs)
    (h15 : s.descs = t.descs) (h16 : s.accepts = t.accepts) (h17 : s.journal = t.journal) (h18 : s.link = t.link)
    (h19 : s.flrPf0 = t.flrPf0) (h20 : s.ldr = t.ldr) (h21 : s.mem = t.mem) (h22 : s.syn = t.syn) (h23 : s.fab = t.fab)
    (h24 : s.pipes = t.pipes) (h25 : s.fer = t.fer) (h26 : s.sec = t.sec) (h27 : s.brd = t.brd) (h28 : s.rst = t.rst) : s = t := by
  cases s; cases t
  simp only [State.mk.injEq]
  exact ⟨h1, h2, h3, h4, h5, h6, h7, h8, h9, h10, h11, h12, h13, h14, h15, h16, h17, h18, h19, h20, h21, h22, h23, h24, h25, h26, h27, h28⟩

end Sys2Proof.Machine
end

section
/-!
PROOFS. Bytes of local memory (R296 to R300): what a write through the cache slices makes every byte read as, and that a read, a token
and an eviction leave every byte as it was.
-/
namespace Sys2Proof.Machine

/-! ## Byte strings -/

theorem getD_append_range {a b : Bytes} {i : Nat} : (a ++ b).getD i 0 = if i < a.length then a.getD i 0 else b.getD (i - a.length) 0 := by
  split
  · next h => exact List.getD_append _ _ _ _ h
  · next h => exact List.getD_append_right _ _ _ _ (by omega)

theorem getD_of_le {b : Bytes} {i : Nat} (h : b.length ≤ i) : b.getD i 0 = 0 := by simp [List.getD, List.getElem?_eq_none h]

@[simp] theorem length_sliceB (b : Bytes) (off n : Nat) : (sliceB b off n).length = n := by
  simp [sliceB]

theorem getD_sliceB (b : Bytes) (off n i : Nat) : (sliceB b off n).getD i 0 = if i < n then b.getD (off + i) 0 else 0 := by
  unfold sliceB
  extract_lets t
  have hlen : t.length = min n (b.length - off) := by simp [t]
  rw [getD_append_range]
  by_cases hi : i < t.length
  · rw [if_pos hi, if_pos (by omega)]
    simp only [t, List.getD_eq_getElem?_getD]
    rw [List.getElem?_take_of_lt (by omega), List.getElem?_drop]
  · rw [if_neg hi]
    have hz : (List.replicate (n - t.length) (0 : Byte)).getD (i - t.length) 0 = 0 := by
      simp [List.getD_eq_getElem?_getD, List.getElem?_replicate]
      split <;> rfl
    rw [hz]
    split
    · rw [getD_of_le (by omega)]
    · rfl

@[simp] theorem length_devRd (s : State) (a n : Nat) : (devRd s a n).length = n := by simp [devRd]

theorem getD_devRd (s : State) (a n i : Nat) : (devRd s a n).getD i 0 = if i < n then memByte s (a + i) else 0 := by
  split
  · next h => simp [devRd, List.getD_eq_getElem?_getD, h]
  · next h => exact getD_of_le (by rw [length_devRd]; omega)

/-- A string with bytes put in has them at their places, and the others where they were. -/
theorem getD_putB (b d : Bytes) (off i : Nat) : (putB b off d).getD i 0 =
    if off ≤ i ∧ i < off + d.length then d.getD (i - off) 0 else b.getD i 0 := by
  rw [putB, getD_append_range, getD_append_range, List.length_append, length_sliceB, getD_sliceB]
  by_cases h1 : i < off
  · rw [if_pos (by omega), if_pos h1, if_pos h1, if_neg (by omega), Nat.zero_add]
  · by_cases h2 : i < off + d.length
    · rw [if_pos h2, if_neg h1, if_pos (by omega)]
    · rw [if_neg h2, if_neg (by omega), List.getD_eq_getElem?_getD, List.getElem?_drop, List.getD_eq_getElem?_getD]
      congr 2
      omega

theorem length_putB {b d : Bytes} {off : Nat} (h : off + d.length ≤ b.length) : (putB b off d).length = b.length := by
  simp [putB]; omega

/-! ## Lines and HBM -/

/-- What every byte of memory is read from. -/
structure SameBytes (s t : State) : Prop where
  lines : t.mem.lines = s.mem.lines
  hbm : t.mem.hbm = s.mem.hbm
  fresh : t.mem.fresh = s.mem.fresh

theorem SameBytes.trans {s t u : State} (h : SameBytes s t) (k : SameBytes t u) : SameBytes s u :=
  ⟨k.lines.trans h.lines, k.hbm.trans h.hbm, k.fresh.trans h.fresh⟩

theorem hbmByte_congr {s t : State} (hh : t.mem.hbm = s.mem.hbm) (hf : t.mem.fresh = s.mem.fresh) (x : Nat) : hbmByte t x = hbmByte s x := by
  rw [hbmByte, hbmByte, hbmDflt, hbmDflt, hh, hf]

theorem SameBytes.getLine {s t : State} (h : SameBytes s t) (ln : Nat) : getLine t ln = getLine s ln := by
  rw [Machine.getLine, h.lines, Machine.getLine]

theorem SameBytes.memByte {s t : State} (h : SameBytes s t) (x : Nat) : memByte t x = memByte s x := by
  rw [Machine.memByte, h.getLine, hbmByte_congr h.hbm h.fresh, Machine.memByte]

theorem charge_sameBytes (st n g units : Nat) (s : State) : SameBytes s (charge st n g units s) := by
  unfold charge; split <;> exact ⟨rfl, rfl, rfl⟩

theorem nextTick_sameBytes (s : State) : SameBytes s (nextTick s).2 := ⟨rfl, rfl, rfl⟩

theorem getLine_setLine (ln k : Nat) (l : Option Line) (s : State) : getLine (setLine ln l s) k = if k = ln then l else getLine s k :=
  Tbl.get_set ..

theorem hbmByte_setLine (ln : Nat) (l : Option Line) (s : State) (x : Nat) : hbmByte (setLine ln l s) x = hbmByte s x := rfl

theorem memByte_uncached {s : State} {x : Nat} (h : getLine s (x / 128) = none) : memByte s x = hbmByte s x := by rw [memByte, h]

theorem memByte_setLine (ln : Nat) (l : Line) (s : State) (x : Nat) : memByte (setLine ln (some l) s) x =
    if x / 128 = ln then (if l.dirty then l.data.getD (x % 128) 0 else hbmByte s x) else memByte s x := by
  rw [memByte, getLine_setLine]
  by_cases h : x / 128 = ln
  · rw [if_pos h, if_pos h]; rfl
  · rw [if_neg h, if_neg h]; rfl

theorem getLine_hbmPut (m : MemSys) (a : Nat) (d : Bytes) : (hbmPut m a d).lines = m.lines ∧ (hbmPut m a d).fresh = m.fresh := by
  induction d generalizing m a with
  | nil => exact ⟨rfl, rfl⟩
  | cons b t ih => exact ih _ _

theorem getLine_hbmWr (a : Nat) (d : Bytes) (s : State) (ln : Nat) : getLine (hbmWr a d s) ln = getLine s ln := by
  rw [getLine, hbmWr, (getLine_hbmPut s.mem a d).1, getLine]

theorem hbmByte_hbmWr (a : Nat) (d : Bytes) (s : State) (x : Nat) :
    hbmByte (hbmWr a d s) x = if a ≤ x ∧ x < a + d.length then d.getD (x - a) 0 else hbmByte s x := by
  induction d generalizing a s with
  | nil => rw [if_neg (by simp)]; rfl
  | cons b t ih =>
    have hset : hbmByte { s with mem := { s.mem with hbm := Tbl.set (hbmDflt s.mem a) s.mem.hbm a b } } x =
        if x = a then b else hbmByte s x := by
      split
      · next h => rw [h]; exact Tbl.get_set_self ..
      · next h => exact get_set_ne_dflt _ _ _ _ h
    refine (ih (a + 1) { s with mem := { s.mem with hbm := Tbl.set (hbmDflt s.mem a) s.mem.hbm a b } }).trans ?_
    rw [hset, List.length_cons]
    by_cases hx : x = a
    · rw [if_neg (by omega), if_pos hx, if_pos (by omega), hx, Nat.sub_self, List.getD_cons_zero]
    · by_cases hr : a + 1 ≤ x ∧ x < a + 1 + t.length
      · rw [if_pos hr, if_pos (by omega), show x - a = (x - (a + 1)) + 1 by omega, List.getD_cons_succ]
      · rw [if_neg hr, if_neg hx, if_neg (by omega)]

theorem length_lineBytes (l : Line) : (lineBytes l).length = 128 := by simp [lineBytes]

theorem getD_lineBytes (l : Line) {i : Nat} (h : i < 128) : (lineBytes l).getD i 0 = l.data.getD i 0 := by
  simp [lineBytes, List.getD_eq_getElem?_getD, h]

/-- A dirty line written to HBM leaves every byte as it was. -/
theorem hbmByte_lineBack {ln : Nat} {l : Line} (s : State) (x : Nat) :
    hbmByte (hbmWr (128 * ln) (lineBytes l) s) x = if x / 128 = ln then l.data.getD (x % 128) 0 else hbmByte s x := by
  rw [hbmByte_hbmWr, length_lineBytes]
  by_cases h : x / 128 = ln
  · rw [if_pos h, if_pos (by omega), show x - 128 * ln = x % 128 by omega, getD_lineBytes l (by omega)]
  · rw [if_neg h, if_neg (by omega)]

theorem getLine_writeBack (ln : Nat) (l : Line) (g : Nat) (s : State) (k : Nat) :
    getLine (writeBack ln l g s) k = if k = ln then none else getLine s k := by
  simp only [writeBack]
  split
  · rw [(charge_sameBytes ..).getLine, getLine_hbmWr, getLine_setLine]
  · exact getLine_setLine ..

theorem hbmByte_writeBack (ln : Nat) (l : Line) (g : Nat) (s : State) (x : Nat) :
    hbmByte (writeBack ln l g s) x = if l.dirty = true ∧ x / 128 = ln then l.data.getD (x % 128) 0 else hbmByte s x := by
  simp only [writeBack]
  split
  · next h =>
    have hc := charge_sameBytes (place (setLine ln none s) (128 * ln)).1 (partOfAddr (setLine ln none s) (128 * ln)) g 2
      (hbmWr (128 * ln) (lineBytes l) (setLine ln none s))
    rw [hbmByte_congr hc.hbm hc.fresh, hbmByte_lineBack, h]
    simp only [true_and, hbmByte_setLine]
  · next h => rw [if_neg fun c => h c.1]; rfl

/-- A line that leaves the cache leaves every byte as it was. -/
theorem memByte_writeBack {ln : Nat} {l : Line} {s : State} (h : getLine s ln = some l) (g x : Nat) :
    memByte (writeBack ln l g s) x = memByte s x := by
  rw [memByte, memByte, getLine_writeBack, hbmByte_writeBack]
  by_cases hx : x / 128 = ln
  · rw [if_pos hx, hx, h]; simp
  · rw [if_neg hx, if_neg fun c => hx c.2]

/-! ## Lines that enter the cache -/

theorem getLine_of_mem_setLines {s : State} {set : Nat × Nat} {e : Nat × Line} (h : e ∈ setLines s set) : getLine s e.1 = some e.2 := by
  obtain ⟨e', -, he⟩ := List.mem_filterMap.mp (List.mem_filter.mp h).1
  obtain ⟨l, hl, rfl⟩ := Option.map_eq_some_iff.mp he
  exact hl

theorem findMin_mem {α : Type} {key : α → Nat} {l : List α} {a : α} (h : findMin key l = some a) : a ∈ l := by
  induction l generalizing a with
  | nil => cases h
  | cons b t ih =>
    simp only [findMin] at h
    split at h
    · cases h; exact List.mem_cons_self
    · next c hc =>
      split at h
      · cases h; exact List.mem_cons_self
      · cases h; exact List.mem_cons_of_mem _ (ih hc)

/-- The line that an allocation takes the place of. -/
def allocPick (ln : Nat) (keep : Bool) (s : State) : Option (Nat × Line) :=
  let all := setLines s (lineSet s ln)
  let w := waysOf s (partOfAddr s (128 * ln))
  let allowed := all.filter fun e => bitOf w e.2.way
  let keeps := all.filter fun e => e.2.keep
  let free := (List.range 16).find? fun k => bitOf w k && !(all.any fun e => e.2.way == k)
  if keep && 12 ≤ keeps.length then
    match lruOf (keeps.filter fun e => bitOf w e.2.way) with
    | some e => some e
    | none => lruOf keeps
  else if free.isSome then none
  else match lruOf (allowed.filter fun e => !e.2.keep) with
    | some e => some e
    | none => lruOf allowed

theorem allocPick_cached {ln : Nat} {keep : Bool} {s : State} {e : Nat × Line} (h : allocPick ln keep s = some e) :
    getLine s e.1 = some e.2 := by
  have hmem {l : List (Nat × Line)} (hl : ∀ e ∈ l, e ∈ setLines s (lineSet s ln)) (he : lruOf l = some e) : getLine s e.1 = some e.2 :=
    getLine_of_mem_setLines (hl e (findMin_mem he))
  simp only [allocPick] at h
  split at h
  · split at h
    · next he => exact hmem (fun e h => (List.mem_filter.mp (List.mem_filter.mp h).1).1) (he.trans h)
    · exact hmem (fun e h => (List.mem_filter.mp h).1) h
  · split at h
    · cases h
    · split at h
      · next he => exact hmem (fun e h => (List.mem_filter.mp (List.mem_filter.mp h).1).1) (he.trans h)
      · exact hmem (fun e h => (List.mem_filter.mp h).1) h

/-- An allocation replaces the line picked, takes a free way, or has no place. -/
theorem allocLine_cases (ln : Nat) (data : Bytes) (dirty keep : Bool) (g : Nat) (s : State) {p : State → Prop}
    (replaces : ∀ e l, allocPick ln keep s = some e → l.data = data → l.dirty = dirty →
      p (setLine ln (some l) (writeBack e.1 e.2 g (nextTick s).2)))
    (takes : ∀ l : Line, l.data = data → l.dirty = dirty → p (setLine ln (some l) (nextTick s).2))
    (noPlace : p (if dirty then hbmWr (128 * ln) data (nextTick s).2 else (nextTick s).2)) :
    p (allocLine ln data dirty keep g s) := by
  unfold allocLine
  extract_lets all w allowed keeps free pick t
  have hp : pick = allocPick ln keep s := rfl
  clear_value pick free
  cases pick with
  | some e => exact replaces e _ hp.symm rfl rfl
  | none =>
    cases free with
    | some k => exact takes _ rfl rfl
    | none => exact noPlace

theorem memByte_allocLine {ln : Nat} {data : Bytes} {dirty : Bool} {s : State} (h : getLine s ln = none)
    (hdata : dirty = true → data.length = 128) (keep : Bool) (g x : Nat) : memByte (allocLine ln data dirty keep g s) x =
      if dirty = true ∧ x / 128 = ln then data.getD (x % 128) 0 else memByte s x := by
  have hnone (hx : x / 128 = ln) : memByte s x = hbmByte s x := memByte_uncached (hx ▸ h)
  refine allocLine_cases ln data dirty keep g s (p := fun u => memByte u x =
    if dirty = true ∧ x / 128 = ln then data.getD (x % 128) 0 else memByte s x) (fun e l hpick hd hdirty => ?_) (fun l hd hdirty => ?_) ?_
  · have hcached := allocPick_cached hpick
    have hne : e.1 ≠ ln := fun c => by rw [c, h] at hcached; cases hcached
    rw [memByte_setLine, hd, hdirty, memByte_writeBack (s := (nextTick s).2) hcached]
    by_cases hx : x / 128 = ln
    · have hkept : hbmByte (writeBack e.1 e.2 g (nextTick s).2) x = hbmByte s x := by
        rw [hbmByte_writeBack, if_neg fun c => hne (c.2.symm.trans hx)]; rfl
      rw [if_pos hx, hkept, hnone hx]
      simp [hx]
    · rw [if_neg hx, if_neg fun c => hx c.2]; rfl
  · rw [memByte_setLine, hd, hdirty]
    by_cases hx : x / 128 = ln
    · rw [if_pos hx, hnone hx]
      simp [hx, show hbmByte (nextTick s).2 x = hbmByte s x from rfl]
    · rw [if_neg hx, if_neg fun c => hx c.2]; rfl
  · split
    · next hd =>
      by_cases hx : x / 128 = ln
      · rw [memByte_uncached (by rw [getLine_hbmWr, hx]; exact h), hbmByte_hbmWr, hdata hd, if_pos ⟨by omega, by omega⟩, if_pos ⟨hd, hx⟩,
          show x - 128 * ln = x % 128 by omega]
      · rw [memByte, getLine_hbmWr, hbmByte_hbmWr, hdata hd, if_neg (by omega), if_neg fun c => hx c.2]; rfl
    · next hd => rw [if_neg fun c => hd c.1]; rfl

/-! ## Reads and writes of a line -/

theorem memByte_touchLine {ln : Nat} {l : Line} {s : State} (h : getLine s ln = some l) (keep : Bool) (x : Nat) :
    memByte (touchLine ln l keep s) x = memByte s x := by
  simp only [touchLine]
  rw [memByte_setLine]
  split
  · next hx => rw [memByte, hx, h]; rfl
  · rfl

/-- The bytes of a line, with some of them written. -/
theorem getD_lineWritten (s : State) {a : Nat} (d : Bytes) {x : Nat} (hx : x / 128 = a / 128) :
    (putB (devRd s (128 * (a / 128)) 128) (a % 128) d).getD (x % 128) 0 =
      if a ≤ x ∧ x < a + d.length then d.getD (x - a) 0 else memByte s x := by
  rw [getD_putB, getD_devRd, if_pos (by omega : x % 128 < 128)]
  by_cases hr : a ≤ x ∧ x < a + d.length
  · rw [if_pos (by omega), if_pos hr, show x % 128 - a % 128 = x - a by omega]
  · rw [if_neg (by omega), if_neg hr, show 128 * (a / 128) + x % 128 = x by omega]

/-- A write to bytes of one line (R298, R300). -/
theorem memByte_lineWrite {a : Nat} {d : Bytes} (h : a % 128 + d.length ≤ 128) (hd : d ≠ []) (n g hint : Nat) (s : State) (x : Nat) :
    memByte (lineWrite n g hint a d s) x = if a ≤ x ∧ x < a + d.length then d.getD (x - a) 0 else memByte s x := by
  have hpos : 0 < d.length := List.length_pos_iff.mpr hd
  have hout (hx : x / 128 ≠ a / 128) : ¬(a ≤ x ∧ x < a + d.length) := by omega
  have hlen : (putB (devRd s (128 * (a / 128)) 128) (a % 128) d).length = 128 := by
    rw [length_putB (by rw [length_devRd]; exact h), length_devRd]
  simp only [lineWrite]
  split
  · next l hl =>
    have hset : memByte (setLine (a / 128) (some { l with data := putB (devRd s (128 * (a / 128)) 128) (a % 128) d, dirty := true }) s) x =
        if a ≤ x ∧ x < a + d.length then d.getD (x - a) 0 else memByte s x := by
      rw [memByte_setLine]
      by_cases hx : x / 128 = a / 128
      · rw [if_pos hx, if_pos rfl, getD_lineWritten s d hx]
      · rw [if_neg hx, if_neg (hout hx)]
    split
    · exact hset
    · rw [memByte_touchLine (by rw [getLine_setLine, if_pos rfl]), hset]
  · next hl =>
    split
    · rw [(charge_sameBytes ..).memByte]
      by_cases hx : x / 128 = a / 128
      · rw [memByte_uncached (by rw [getLine_hbmWr, hx]; exact hl), hbmByte_hbmWr, memByte_uncached (hx ▸ hl)]
      · rw [memByte, getLine_hbmWr, hbmByte_hbmWr, if_neg (hout hx), if_neg (hout hx), memByte]
    · have halloc {u : State} (hu : SameBytes s u) :
          memByte (allocLine (a / 128) (putB (devRd s (128 * (a / 128)) 128) (a % 128) d) true (hint == 2) g u) x =
            if a ≤ x ∧ x < a + d.length then d.getD (x - a) 0 else memByte s x := by
        rw [memByte_allocLine ((hu.getLine _).trans hl) (fun _ => hlen), hu.memByte]
        by_cases hx : x / 128 = a / 128
        · rw [if_pos ⟨rfl, hx⟩, getD_lineWritten s d hx]
        · rw [if_neg fun c => hx c.2, if_neg (hout hx)]
      split
      · exact halloc ⟨rfl, rfl, rfl⟩
      · exact halloc (charge_sameBytes ..)

/-- A read of bytes of one line gives them and, but for a LAST read, leaves every byte as it was. -/
theorem memByte_lineRead {hint : Nat} (h : hint ≠ 3) (n g a len : Nat) (s : State) (x : Nat) :
    memByte (lineRead n g hint a len s).2 x = memByte s x := by
  simp only [lineRead]
  split
  · next l hl =>
    dsimp only
    rw [if_neg h]
    split
    · rfl
    · exact memByte_touchLine hl _ x
  · next hl =>
    split
    · exact (charge_sameBytes ..).memByte x
    · rw [memByte_allocLine ((charge_sameBytes ..).getLine _ |>.trans hl) (fun c => by cases c), if_neg (fun c => by cases c.1),
        (charge_sameBytes ..).memByte]

theorem lineRead_fst (n g hint a len : Nat) (s : State) : (lineRead n g hint a len s).1 = devRd s a len := by
  simp only [lineRead]
  split
  · rfl
  · split <;> rfl

/-! ## Ranges -/

theorem memByte_lineWrites (n g hint : Nat) {f a : Nat} {d : Bytes} (h : a % 128 + d.length ≤ 128 * f) (s : State) (x : Nat) :
    memByte ((linePieces f a d).foldl (fun s p => lineWrite n g hint p.1 p.2 s) s) x =
      if a ≤ x ∧ x < a + d.length then d.getD (x - a) 0 else memByte s x := by
  induction f generalizing a d s with
  | zero => rw [if_neg (by omega)]; rfl
  | succ f ih =>
    cases d with
    | nil => rw [if_neg (by simp)]; rfl
    | cons b t =>
      have hlen : ((b :: t).drop (128 - a % 128)).length = (b :: t).length - (128 - a % 128) := List.length_drop
      have hfirst : ((b :: t).take (128 - a % 128)).length = min (128 - a % 128) (b :: t).length := List.length_take
      have hne : (b :: t).take (128 - a % 128) ≠ [] := List.ne_nil_of_length_pos (by rw [hfirst, List.length_cons]; omega)
      rw [linePieces, List.foldl_cons, ih (by omega), memByte_lineWrite (by omega) hne]
      by_cases h1 : a + (128 - a % 128) ≤ x ∧ x < a + (b :: t).length
      · rw [if_pos (by omega), if_pos (by omega), List.getD_eq_getElem?_getD, List.getD_eq_getElem?_getD, List.getElem?_drop]
        congr 2; omega
      · rw [if_neg (by omega)]
        by_cases h2 : a ≤ x ∧ x < a + (b :: t).length
        · rw [if_pos (by omega), if_pos h2, List.getD_eq_getElem?_getD, List.getD_eq_getElem?_getD, List.getElem?_take_of_lt (by omega)]
        · rw [if_neg (by omega), if_neg h2]

theorem memByte_slicePut (n g hint a : Nat) (d : Bytes) (s : State) (x : Nat) : memByte (slicePut n g hint a d s) x =
    if a ≤ x ∧ x < a + d.length then d.getD (x - a) 0 else memByte s x :=
  memByte_lineWrites n g hint (by omega) s x

theorem devRd_congr {s t : State} (h : ∀ x, memByte t x = memByte s x) (a n : Nat) : devRd t a n = devRd s a n := by
  simp only [devRd, h]

theorem devRd_append (s : State) (a n m : Nat) : devRd s a n ++ devRd s (a + n) m = devRd s a (n + m) := by
  simp [devRd, List.range_add, Nat.add_assoc]

theorem memReadPieces_bytes {hint : Nat} (hh : hint ≠ 3) (n g : Nat) {f a : Nat} {d : Bytes} (h : a % 128 + d.length ≤ 128 * f) (s : State) :
    (memReadPieces n g hint (linePieces f a d) s).1 = devRd s a d.length ∧
      ∀ x, memByte (memReadPieces n g hint (linePieces f a d) s).2 x = memByte s x := by
  induction f generalizing a d s with
  | zero => rw [show d.length = 0 by omega]; exact ⟨rfl, fun _ => rfl⟩
  | succ f ih =>
    cases d with
    | nil => exact ⟨rfl, fun _ => rfl⟩
    | cons b t =>
      have hlen : ((b :: t).drop (128 - a % 128)).length = (b :: t).length - (128 - a % 128) := List.length_drop
      have hfirst : ((b :: t).take (128 - a % 128)).length = min (128 - a % 128) (b :: t).length := List.length_take
      have hread := memByte_lineRead hh n g a ((b :: t).take (128 - a % 128)).length s
      obtain ⟨hbytes, hkept⟩ := ih (a := a + (128 - a % 128)) (d := (b :: t).drop (128 - a % 128)) (by omega)
        (lineRead n g hint a ((b :: t).take (128 - a % 128)).length s).2
      refine ⟨?_, fun x => (hkept x).trans (hread x)⟩
      change (lineRead n g hint a _ s).1 ++ _ = _
      rw [lineRead_fst, hbytes, devRd_congr hread]
      by_cases hk : (b :: t).length ≤ 128 - a % 128
      · rw [hlen, hfirst, Nat.sub_eq_zero_of_le hk, Nat.min_eq_right hk]
        simp [devRd]
      · rw [hfirst, hlen, Nat.min_eq_left (by omega), devRd_append]
        congr 1; omega

/-- A read that is not LAST gives the bytes of its range and leaves every byte as it was. -/
theorem sliceGet_bytes {hint : Nat} (hh : hint ≠ 3) (n g a len : Nat) (s : State) :
    (sliceGet n g hint a len s).1 = devRd s a len ∧ ∀ x, memByte (sliceGet n g hint a len s).2 x = memByte s x := by
  have h := memReadPieces_bytes hh n g (f := (zeros len).length / 128 + 2) (a := a) (d := zeros len) (by omega) s
  exact ⟨h.1.trans (by rw [zeros, List.length_replicate]), h.2⟩

/-! ## What an access to the slices leaves as it was -/

/-- Memory only changes, and no request that waits for it. -/
def MemOnly (s t : State) : Prop := t = { s with mem := t.mem } ∧ t.mem.waiting = s.mem.waiting

namespace MemOnly

theorem refl (s : State) : MemOnly s s := ⟨rfl, rfl⟩

theorem trans {s t u : State} (h : MemOnly s t) (k : MemOnly t u) : MemOnly s u :=
  ⟨by rw [k.1, h.1], k.2.trans h.2⟩

end MemOnly

theorem setLine_memOnly (ln : Nat) (l : Option Line) (s : State) : MemOnly s (setLine ln l s) := ⟨rfl, rfl⟩

theorem hbmPut_waiting (m : MemSys) (a : Nat) (d : Bytes) : (hbmPut m a d).waiting = m.waiting := by
  induction d generalizing m a with
  | nil => rfl
  | cons b t ih => exact ih _ _

theorem hbmWr_memOnly (a : Nat) (d : Bytes) (s : State) : MemOnly s (hbmWr a d s) := ⟨rfl, hbmPut_waiting ..⟩

theorem nextTick_memOnly (s : State) : MemOnly s (nextTick s).2 := ⟨rfl, rfl⟩

theorem charge_memOnly (st n g units : Nat) (s : State) : MemOnly s (charge st n g units s) := by
  unfold charge; split <;> exact ⟨rfl, rfl⟩

theorem writeBack_memOnly (ln : Nat) (l : Line) (g : Nat) (s : State) : MemOnly s (writeBack ln l g s) := by
  simp only [writeBack]
  split
  · exact (setLine_memOnly ..).trans ((hbmWr_memOnly ..).trans (charge_memOnly ..))
  · exact setLine_memOnly ..

theorem allocLine_memOnly (ln : Nat) (data : Bytes) (dirty keep : Bool) (g : Nat) (s : State) :
    MemOnly s (allocLine ln data dirty keep g s) := by
  refine allocLine_cases ln data dirty keep g s (fun e l _ _ _ => ?_) (fun l _ _ => ?_) ?_
  · exact (nextTick_memOnly s).trans ((writeBack_memOnly ..).trans (setLine_memOnly ..))
  · exact (nextTick_memOnly s).trans (setLine_memOnly ..)
  · split
    · exact (nextTick_memOnly s).trans (hbmWr_memOnly ..)
    · exact nextTick_memOnly s

theorem touchLine_memOnly (ln : Nat) (l : Line) (keep : Bool) (s : State) : MemOnly s (touchLine ln l keep s) := ⟨rfl, rfl⟩

theorem lineRead_memOnly (n g hint a len : Nat) (s : State) : MemOnly s (lineRead n g hint a len s).2 := by
  simp only [lineRead]
  split
  · dsimp only; (repeat' split) <;> exact ⟨rfl, rfl⟩
  · split
    · exact charge_memOnly ..
    · exact (charge_memOnly ..).trans (allocLine_memOnly ..)

theorem lineWrite_memOnly (n g hint a : Nat) (d : Bytes) (s : State) : MemOnly s (lineWrite n g hint a d s) := by
  simp only [lineWrite]
  split
  · split <;> exact ⟨rfl, rfl⟩
  · split
    · exact (hbmWr_memOnly ..).trans (charge_memOnly ..)
    · split
      · exact allocLine_memOnly ..
      · exact (charge_memOnly ..).trans (allocLine_memOnly ..)

theorem memOnly_foldl {α : Type} {f : State → α → State} (h : ∀ s x, MemOnly s (f s x)) (l : List α) (s : State) : MemOnly s (l.foldl f s) := by
  induction l generalizing s with
  | nil => exact .refl s
  | cons x l ih => exact (h s x).trans (ih (f s x))

theorem memReadPieces_memOnly (n g hint : Nat) (l : List (Nat × Bytes)) (s : State) : MemOnly s (memReadPieces n g hint l s).2 := by
  induction l generalizing s with
  | nil => exact .refl s
  | cons p l ih => exact (lineRead_memOnly ..).trans (ih _)

theorem slicePut_memOnly (n g hint a : Nat) (d : Bytes) (s : State) : MemOnly s (slicePut n g hint a d s) :=
  memOnly_foldl (fun _ _ => lineWrite_memOnly ..) _ s

theorem sliceGet_memOnly (n g hint a len : Nat) (s : State) : MemOnly s (sliceGet n g hint a len s).2 := memReadPieces_memOnly ..

/-! ## Accesses with no request that waits before them -/

theorem serveBefore_empty {s : State} (h : s.mem.waiting = []) (a len : Nat) : serveBefore a len s = s := by
  rw [serveBefore, h]; rfl

theorem memPut_empty {s : State} (h : s.mem.waiting = []) (n g hint a : Nat) (d : Bytes) : memPut n g hint a d s = slicePut n g hint a d s := by
  rw [memPut, serveBefore_empty h]

theorem memGet_empty {s : State} (h : s.mem.waiting = []) (n g hint a len : Nat) : memGet n g hint a len s = sliceGet n g hint a len s := by
  rw [memGet, serveBefore_empty h]

theorem memPut_memOnly {s : State} (h : s.mem.waiting = []) (n g hint a : Nat) (d : Bytes) : MemOnly s (memPut n g hint a d s) :=
  memPut_empty h .. ▸ slicePut_memOnly ..

theorem memByte_memPut {s : State} (h : s.mem.waiting = []) (n g hint a : Nat) (d : Bytes) (x : Nat) : memByte (memPut n g hint a d s) x =
    if a ≤ x ∧ x < a + d.length then d.getD (x - a) 0 else memByte s x := by rw [memPut_empty h, memByte_slicePut]

theorem memGet_memOnly {s : State} (h : s.mem.waiting = []) (n g hint a len : Nat) : MemOnly s (memGet n g hint a len s).2 :=
  memGet_empty h .. ▸ sliceGet_memOnly ..

theorem memGet_bytes {s : State} (h : s.mem.waiting = []) {hint : Nat} (hh : hint ≠ 3) (n g a len : Nat) :
    (memGet n g hint a len s).1 = devRd s a len ∧ ∀ x, memByte (memGet n g hint a len s).2 x = memByte s x :=
  memGet_empty h .. ▸ sliceGet_bytes hh n g a len s

end Sys2Proof.Machine
end

section
/-!
PROOFS. Byte strings: their slices and little-endian numbers in a concatenation, in the bytes of a number, and in a string with bytes
put in.
-/
namespace Sys2Proof.Machine

theorem bytes_ext {a b : Bytes} (hlen : a.length = b.length) (h : ∀ i < a.length, a.getD i 0 = b.getD i 0) : a = b := by
  refine List.ext_getElem hlen fun i hi hi' => ?_
  have := h i hi
  rwa [List.getD_eq_getElem _ _ hi, List.getD_eq_getElem _ _ hi'] at this

@[simp] theorem length_leBytes (n v : Nat) : (leBytes n v).length = n := by
  induction n generalizing v with
  | zero => rfl
  | succ n ih => simp [leBytes, ih]

@[simp] theorem length_zeros (n : Nat) : (zeros n).length = n := List.length_replicate

theorem leNat_leBytes (n v : Nat) : leNat (leBytes n v) = v % 256 ^ n := by
  induction n generalizing v with
  | zero => rw [Nat.pow_zero, Nat.mod_one]; rfl
  | succ n ih =>
    rw [leBytes, leNat, ih, BitVec.toNat_ofNat, show 256 ^ (n + 1) = 256 * 256 ^ n from Nat.pow_succ']
    exact (Nat.mod_mul (x := v) (a := 256) (b := 256 ^ n)).symm

theorem sliceB_self {b : Bytes} {n : Nat} (h : b.length = n) : sliceB b 0 n = b :=
  bytes_ext (by simp [h]) fun i hi => by
    rw [length_sliceB] at hi
    rw [getD_sliceB, if_pos hi, Nat.zero_add]

theorem sliceB_append_left {a : Bytes} {off n : Nat} (h : off + n ≤ a.length) (b : Bytes) :
    sliceB (a ++ b) off n = sliceB a off n :=
  bytes_ext (by simp) fun i hi => by
    rw [length_sliceB] at hi
    rw [getD_sliceB, getD_sliceB, if_pos hi, if_pos hi, List.getD_append _ _ _ _ (by omega)]

theorem sliceB_append_right {a : Bytes} {off n : Nat} (h : a.length ≤ off) (b : Bytes) :
    sliceB (a ++ b) off n = sliceB b (off - a.length) n :=
  bytes_ext (by simp) fun i hi => by
    rw [length_sliceB] at hi
    rw [getD_sliceB, getD_sliceB, if_pos hi, if_pos hi, List.getD_append_right _ _ _ _ (by omega)]
    congr 1; omega

theorem leAt_append_left {a : Bytes} {off n : Nat} (h : off + n ≤ a.length) (b : Bytes) : leAt (a ++ b) off n = leAt a off n := by
  rw [leAt, sliceB_append_left h, leAt]

theorem leAt_append_right {a : Bytes} {off n : Nat} (h : a.length ≤ off) (b : Bytes) :
    leAt (a ++ b) off n = leAt b (off - a.length) n := by
  rw [leAt, sliceB_append_right h, leAt]

theorem leAt_leBytes (n v : Nat) : leAt (leBytes n v) 0 n = v % 256 ^ n := by
  rw [leAt, sliceB_self (length_leBytes n v), leNat_leBytes]

theorem leNat_zeros (n : Nat) : leNat (zeros n) = 0 := by
  induction n with
  | zero => rfl
  | succ n ih => rw [zeros, List.replicate_succ, leNat, ← zeros, ih]; rfl

theorem leAt_zeros (m off n : Nat) : leAt (zeros m) off n = 0 := by
  rw [leAt, show sliceB (zeros m) off n = zeros n from bytes_ext (by simp) fun i hi => ?_, leNat_zeros]
  rw [length_sliceB] at hi
  rw [getD_sliceB, if_pos hi, zeros, zeros, List.getD_eq_getElem?_getD, List.getD_eq_getElem?_getD, List.getElem?_replicate,
    List.getElem?_replicate, if_pos hi]
  split <;> rfl

theorem sliceB_putB_same {b d : Bytes} {off : Nat} : sliceB (putB b off d) off d.length = d := by
  rw [putB, List.append_assoc, sliceB_append_right (by simp), sliceB_append_left (by simp), length_sliceB, Nat.sub_self,
    sliceB_self rfl]

theorem getD_putB_off {b d : Bytes} {off i : Nat} (h : i < off ∨ off + d.length ≤ i) : (putB b off d).getD i 0 = b.getD i 0 := by
  rw [putB, List.append_assoc]
  rcases h with h | h
  · rw [List.getD_append _ _ _ _ (by simpa using h), getD_sliceB, if_pos h, Nat.zero_add]
  · rw [List.getD_append_right _ _ _ _ (by simp; omega), List.getD_append_right _ _ _ _ (by simp; omega), length_sliceB,
      List.getD_eq_getElem?_getD, List.getElem?_drop, List.getD_eq_getElem?_getD]
    congr 2; omega

theorem leAt_putB_off {b d : Bytes} {off o n : Nat} (h : o + n ≤ off ∨ off + d.length ≤ o) : leAt (putB b off d) o n = leAt b o n := by
  rw [leAt, leAt, show sliceB (putB b off d) o n = sliceB b o n from bytes_ext (by simp) fun i hi => ?_]
  rw [length_sliceB] at hi
  rw [getD_sliceB, getD_sliceB, if_pos hi, if_pos hi, getD_putB_off (by omega)]

end Sys2Proof.Machine
end

section
/-!
PROOFS. What the end of work in the device, with the accesses to memory that go with it, leaves as it was: the state seen without
what they may change (`back`). An operation that keeps it is said so by an equation, so that `simp` carries it through sequences.
-/
namespace Sys2Proof.Machine

/-- The state without memory, registers, messages, free values, partitions, descriptors, the loader, sites, cores, the sync units, the
fabric, pipes, and without Ferryman's event store and fuse queue. -/
def back (s : State) : State :=
  { s with out := [], free := 0, regs := [], parts := [], descs := [], ldr := {}, mem := {}, sites := [], cores := [], syn := {}, fab := {}
           pipes := [], fer := { s.fer with events := [], evSeq := 0, fuseQ := [] } }

/-- What `back` shows of two states that agree in it. -/
theorem of_back {α : Type} (f : State → α) (hf : ∀ s, f (back s) = f s) {s t : State} (h : back t = back s) : f t = f s := by
  rw [← hf t, h, hf]

/-- The state without memory, registers, messages, free values, partitions, descriptors, the loader, the fabric, and without Ferryman's
event store and fuse queue: what an access to memory or the end of a collective may change. -/
def memRest (s : State) : State :=
  { s with out := [], free := 0, regs := [], parts := [], descs := [], ldr := {}, mem := {}, fab := {}
           fer := { s.fer with events := [], evSeq := 0, fuseQ := [] } }

/-- What `memRest` shows of two states that agree in it. -/
theorem of_memRest {α : Type} (f : State → α) (hf : ∀ s, f (memRest s) = f s) {s t : State} (h : memRest t = memRest s) : f t = f s := by
  rw [← hf t, h, hf]

theorem back_of_memRest {s t : State} (h : memRest t = memRest s) : back t = back s :=
  show back (memRest t) = back (memRest s) by rw [h]

theorem memRest_foldl {α : Type} {f : State → α → State} (h : ∀ s x, memRest (f s x) = memRest s) (l : List α) (s : State) :
    memRest (l.foldl f s) = memRest s := by
  induction l generalizing s with
  | nil => rfl
  | cons x l ih => exact (ih (f s x)).trans (h s x)

theorem back_foldl {α : Type} {f : State → α → State} (h : ∀ s x, back (f s x) = back s) (l : List α) (s : State) :
    back (l.foldl f s) = back s := by
  induction l generalizing s with
  | nil => rfl
  | cons x l ih => exact (ih (f s x)).trans (h s x)

/-! ## Named updates -/

section
variable (s : State)

@[simp] theorem back_emit (o : Out) : back (emit o s) = back s := rfl
@[simp] theorem back_setReg (k : Nat) (v : Word) : back (setReg k v s) = back s := rfl
@[simp] theorem back_orReg (k : Nat) (v : Word) : back (orReg k v s) = back s := rfl
@[simp] theorem back_updPart (n : Nat) (f : Part → Part) : back (updPart n f s) = back s := rfl
@[simp] theorem back_updStep (n : Nat) (f : Step → Step) : back (updStep n f s) = back s := rfl
@[simp] theorem back_noteStep (n : Nat) (c : Status) : back (noteStep n c s) = back s := rfl
@[simp] theorem back_raiseCause (n bit : Nat) : back (raiseCause n bit s) = back s := rfl
@[simp] theorem back_raiseEnd (n : Nat) (c : Status) : back (raiseEnd n c s) = back s := rfl
@[simp] theorem back_updDesc (id : Nat) (f : Desc → Desc) : back (updDesc id f s) = back s := rfl
@[simp] theorem back_noteDesc (id : Nat) (c : Status) : back (noteDesc id c s) = back s := rfl
@[simp] theorem back_finishDesc (id : Nat) (st : Status) : back (finishDesc id st s) = back s := rfl
@[simp] theorem back_setPhase (id : Nat) (ph : DescPhase) : back (setPhase id ph s) = back s := rfl
@[simp] theorem back_postEvent (e : Ev) : back (postEvent e s) = back s := rfl
@[simp] theorem back_queueRepair (c w : Nat) : back (queueRepair c w s) = back s := rfl
@[simp] theorem back_countEvent (n : Nat) : back (countEvent n s) = back s := rfl
@[simp] theorem back_updStack (k : Nat) (f : Stack → Stack) : back (updStack k f s) = back s := rfl
@[simp] theorem back_setLine (ln : Nat) (l : Option Line) : back (setLine ln l s) = back s := rfl
@[simp] theorem back_hbmWr (a : Nat) (d : Bytes) : back (hbmWr a d s) = back s := rfl
@[simp] theorem back_memEvent (bit st : Nat) : back (memEvent bit st s) = back s := by rw [memEvent, back_setReg]
@[simp] theorem back_updColl (n id : Nat) (f : Coll → Coll) : back (updColl n id f s) = back s := rfl
@[simp] theorem back_setCore (c : Nat) (k : Core) : back (setCore c k s) = back s := rfl
@[simp] theorem back_updCore (c : Nat) (f : Core → Core) : back (updCore c f s) = back s := rfl
@[simp] theorem back_noteCore (c : Nat) (st : Status) : back (noteCore c st s) = back s := rfl
@[simp] theorem back_updSite (t : Nat) (f : Site → Site) : back (updSite t f s) = back s := rfl
@[simp] theorem back_updPort (p : Nat) (f : Port → Port) : back (updPort p f s) = back s := rfl
@[simp] theorem back_updDest (n : Nat) (f : Dest → Dest) : back (updDest n f s) = back s := rfl
@[simp] theorem back_updRx (n f v : Nat) (g : SeqRx → SeqRx) : back (updRx n f v g s) = back s := rfl
@[simp] theorem back_updTx (n f v : Nat) (g : SeqTx → SeqTx) : back (updTx n f v g s) = back s := rfl
@[simp] theorem back_dropOrigins (gone : Origin → Bool) : back (dropOrigins gone s) = back s := rfl
@[simp] theorem back_dropUnsent (n id : Nat) (all : Bool) : back (dropUnsent n id all s) = back s := rfl
@[simp] theorem back_rpcClear (n : Nat) : back (rpcClear n s) = back s := rfl
@[simp] theorem back_gzlEvent (bit p : Nat) : back (gzlEvent bit p s) = back s := by rw [gzlEvent, back_setReg]
@[simp] theorem back_sendLink (p : Nat) (resend : Bool) : back (sendLink p resend s) = back s := rfl
@[simp] theorem back_packetLeaves (p : Nat) (k : Packet) : back (packetLeaves p k s) = back s := rfl
@[simp] theorem back_detachCore (c : Nat) : back (detachCore c s) = back s := rfl
@[simp] theorem back_endDescs (fn : Nat) (st : Status) : back (endDescs fn st s) = back s := rfl
@[simp] theorem back_poolFree (n : Nat) : back (poolFree n s) = back s := rfl
@[simp] theorem back_stashReleaseAll (n : Nat) : back (stashReleaseAll n s) = back s := rfl
@[simp] theorem back_incReg (k : Nat) : back (incReg k s) = back s := by rw [incReg_frame]; rfl

@[simp] theorem memRest_emit (o : Out) : memRest (emit o s) = memRest s := rfl
@[simp] theorem memRest_setReg (k : Nat) (v : Word) : memRest (setReg k v s) = memRest s := rfl
@[simp] theorem memRest_orReg (k : Nat) (v : Word) : memRest (orReg k v s) = memRest s := rfl
@[simp] theorem memRest_updPart (n : Nat) (f : Part → Part) : memRest (updPart n f s) = memRest s := rfl
@[simp] theorem memRest_updStep (n : Nat) (f : Step → Step) : memRest (updStep n f s) = memRest s := rfl
@[simp] theorem memRest_noteStep (n : Nat) (c : Status) : memRest (noteStep n c s) = memRest s := rfl
@[simp] theorem memRest_raiseCause (n bit : Nat) : memRest (raiseCause n bit s) = memRest s := rfl
@[simp] theorem memRest_raiseEnd (n : Nat) (c : Status) : memRest (raiseEnd n c s) = memRest s := rfl
@[simp] theorem memRest_updDesc (id : Nat) (f : Desc → Desc) : memRest (updDesc id f s) = memRest s := rfl
@[simp] theorem memRest_noteDesc (id : Nat) (c : Status) : memRest (noteDesc id c s) = memRest s := rfl
@[simp] theorem memRest_finishDesc (id : Nat) (st : Status) : memRest (finishDesc id st s) = memRest s := rfl
@[simp] theorem memRest_setPhase (id : Nat) (ph : DescPhase) : memRest (setPhase id ph s) = memRest s := rfl
@[simp] theorem memRest_postEvent (e : Ev) : memRest (postEvent e s) = memRest s := rfl
@[simp] theorem memRest_queueRepair (c w : Nat) : memRest (queueRepair c w s) = memRest s := rfl
@[simp] theorem memRest_countEvent (n : Nat) : memRest (countEvent n s) = memRest s := rfl
@[simp] theorem memRest_updStack (k : Nat) (f : Stack → Stack) : memRest (updStack k f s) = memRest s := rfl
@[simp] theorem memRest_setLine (ln : Nat) (l : Option Line) : memRest (setLine ln l s) = memRest s := rfl
@[simp] theorem memRest_hbmWr (a : Nat) (d : Bytes) : memRest (hbmWr a d s) = memRest s := rfl
@[simp] theorem memRest_memEvent (bit st : Nat) : memRest (memEvent bit st s) = memRest s := by rw [memEvent, memRest_setReg]
@[simp] theorem memRest_updColl (n id : Nat) (f : Coll → Coll) : memRest (updColl n id f s) = memRest s := rfl
@[simp] theorem memRest_updPort (p : Nat) (f : Port → Port) : memRest (updPort p f s) = memRest s := rfl
@[simp] theorem memRest_updDest (n : Nat) (f : Dest → Dest) : memRest (updDest n f s) = memRest s := rfl
@[simp] theorem memRest_updRx (n f v : Nat) (g : SeqRx → SeqRx) : memRest (updRx n f v g s) = memRest s := rfl
@[simp] theorem memRest_updTx (n f v : Nat) (g : SeqTx → SeqTx) : memRest (updTx n f v g s) = memRest s := rfl
@[simp] theorem memRest_dropUnsent (n id : Nat) (all : Bool) : memRest (dropUnsent n id all s) = memRest s := rfl
@[simp] theorem memRest_rpcClear (n : Nat) : memRest (rpcClear n s) = memRest s := rfl
@[simp] theorem memRest_gzlEvent (bit p : Nat) : memRest (gzlEvent bit p s) = memRest s := by rw [gzlEvent, memRest_setReg]
@[simp] theorem memRest_sendLink (p : Nat) (resend : Bool) : memRest (sendLink p resend s) = memRest s := rfl
@[simp] theorem memRest_packetLeaves (p : Nat) (k : Packet) : memRest (packetLeaves p k s) = memRest s := rfl
@[simp] theorem memRest_endDescs (fn : Nat) (st : Status) : memRest (endDescs fn st s) = memRest s := rfl
@[simp] theorem memRest_poolFree (n : Nat) : memRest (poolFree n s) = memRest s := rfl
@[simp] theorem memRest_stashReleaseAll (n : Nat) : memRest (stashReleaseAll n s) = memRest s := rfl
@[simp] theorem memRest_incReg (k : Nat) : memRest (incReg k s) = memRest s := by rw [incReg_frame]; rfl

end

/-! ## Memory -/

@[simp] theorem memRest_incStack (which st : Nat) (s : State) : memRest (incStack which st s) = memRest s := by simp [incStack]

@[simp] theorem memRest_spoil (a len : Nat) (s : State) : memRest (spoil a len s) = memRest s := by
  refine memRest_foldl (fun s e => ?_) _ s
  split
  · split <;> rfl
  · rfl

@[simp] theorem memRest_charge (st n g units : Nat) (s : State) : memRest (charge st n g units s) = memRest s := by
  unfold charge; split <;> rfl

@[simp] theorem memRest_writeBack (ln : Nat) (l : Line) (g : Nat) (s : State) : memRest (writeBack ln l g s) = memRest s := by
  simp only [writeBack]; split <;> simp

@[simp] theorem memRest_nextTick (s : State) : memRest (nextTick s).2 = memRest s := rfl

@[simp] theorem memRest_allocLine (ln : Nat) (data : Bytes) (dirty keep : Bool) (g : Nat) (s : State) :
    memRest (allocLine ln data dirty keep g s) = memRest s := by
  unfold allocLine
  extract_lets all w allowed keeps free pick t
  have ht : memRest t.2 = memRest s := memRest_nextTick s
  clear_value pick free
  cases pick with
  | some e => simp [ht]
  | none =>
    cases free with
    | some k => simp [ht]
    | none => dsimp only; split <;> simp [ht]

@[simp] theorem memRest_touchLine (ln : Nat) (l : Line) (keep : Bool) (s : State) : memRest (touchLine ln l keep s) = memRest s := by
  simp [touchLine]

@[simp] theorem memRest_lineRead (n g hint a len : Nat) (s : State) : memRest (lineRead n g hint a len s).2 = memRest s := by
  simp only [lineRead]
  split
  · dsimp only; (repeat' split) <;> simp
  · split <;> simp

@[simp] theorem memRest_lineWrite (n g hint a : Nat) (d : Bytes) (s : State) : memRest (lineWrite n g hint a d s) = memRest s := by
  simp only [lineWrite]
  split
  · split <;> simp
  · (repeat' split) <;> simp

@[simp] theorem memRest_memReadPieces (n g hint : Nat) (l : List (Nat × Bytes)) (s : State) : memRest (memReadPieces n g hint l s).2 = memRest s := by
  induction l generalizing s with
  | nil => rfl
  | cons p l ih => exact (ih _).trans (memRest_lineRead ..)

@[simp] theorem memRest_sliceGet (n g hint a len : Nat) (s : State) : memRest (sliceGet n g hint a len s).2 = memRest s := memRest_memReadPieces ..

@[simp] theorem memRest_slicePut (n g hint a : Nat) (d : Bytes) (s : State) : memRest (slicePut n g hint a d s) = memRest s :=
  memRest_foldl (fun _ _ => memRest_lineWrite ..) _ s

@[simp] theorem memRest_sliceAdd (n g hint : Nat) (fp : Bool) (a : Nat) (d : Bytes) (s : State) :
    memRest (sliceAdd n g hint fp a d s) = memRest s := by simp [sliceAdd]

@[simp] theorem memRest_retirePending (st : Nat) (s : State) : memRest (retirePending st s) = memRest s := by
  unfold retirePending; split <;> simp

@[simp] theorem memRest_repairRow (st off : Nat) (s : State) : memRest (repairRow st off s) = memRest s := by
  simp only [repairRow]; split <;> simp

@[simp] theorem memRest_correctedRead (a : Nat) (s : State) : memRest (correctedRead a s) = memRest s := by
  simp only [correctedRead]; split <;> simp

@[simp] theorem memRest_damageImage (s : State) : memRest (damageImage s) = memRest s := by
  simp only [damageImage]; split <;> rfl

@[simp] theorem memRest_lostLine (a : Nat) (s : State) : memRest (lostLine a s) = memRest s := by
  simp only [lostLine]
  (repeat' split) <;> simp

@[simp] theorem memRest_noteCover (n g a : Nat) (c : Status) (s : State) : memRest (noteCover n g a c s) = memRest s :=
  (memRest_foldl (fun _ _ => by simp) _ _).trans (memRest_noteStep ..)

@[simp] theorem memRest_lostRead (n g a : Nat) (s : State) : memRest (lostRead n g a s) = memRest s := by
  simp only [lostRead]; split <;> simp

@[simp] theorem memRest_readError (n g a : Nat) (e : ReadErr) (s : State) : memRest (readError n g a e s) = memRest s := by
  cases e with
  | none => rfl
  | corrected => exact memRest_correctedRead a s
  | cleanLine =>
    simp only [readError]
    split
    · split <;> simp
    · simp
  | rereadOk => simp [readError]
  | lost => simp [readError]

@[simp] theorem memRest_adderVote (n g a : Nat) (r : AdderResult) (s : State) : memRest (adderVote n g a r s) = memRest s := by
  cases r with
  | agree => rfl
  | allDiffer => exact memRest_lostRead n g a s
  | outvoted row =>
    simp only [adderVote]
    (repeat' split) <;> simp

@[simp] theorem memRest_memServe (w : MemWait) (s : State) : memRest (memServe w s) = memRest s := by
  simp only [memServe]
  (repeat' split) <;> simp

@[simp] theorem memRest_serveBefore (a len : Nat) (s : State) : memRest (serveBefore a len s) = memRest s := by
  simp only [serveBefore]
  split
  · simp
  · exact memRest_foldl (fun _ _ => memRest_memServe ..) _ _

@[simp] theorem memRest_memPut (n g hint a : Nat) (d : Bytes) (s : State) : memRest (memPut n g hint a d s) = memRest s :=
  (memRest_slicePut ..).trans (memRest_serveBefore ..)

@[simp] theorem memRest_memGet (n g hint a len : Nat) (s : State) : memRest (memGet n g hint a len s).2 = memRest s := by
  simp only [memGet]; simp

/-! ## Ports and replies -/

@[simp] theorem memRest_portSend (p : Nat) (k : Packet) (s : State) : memRest (portSend p k s) = memRest s := by
  simp only [portSend, linkDue]
  (repeat' split) <;> simp

@[simp] theorem memRest_freeBuffer (p : Nat) (k : Packet) (s : State) : memRest (freeBuffer p k s) = memRest s := by
  unfold freeBuffer; split <;> simp

@[simp] theorem memRest_sendReply (p : Nat) (k : Packet) (s : State) : memRest (sendReply p k s) = memRest s := by
  unfold sendReply
  (repeat' split) <;> simp

@[simp] theorem memRest_sendVerdict (node flow vc psn tag job port v : Nat) (s : State) :
    memRest (sendVerdict node flow vc psn tag job port v s) = memRest s := by simp [sendVerdict]

@[simp] theorem memRest_sendAck (p : Nat) (r : Packet) (status : Nat) (s : State) : memRest (sendAck p r status s) = memRest s :=
  memRest_sendReply ..

@[simp] theorem memRest_portDown (p reason : Nat) (s : State) : memRest (portDown p reason s) = memRest s := by
  simp only [portDown]
  (repeat' split) <;> rfl

/-! ## Collectives -/

@[simp] theorem memRest_collRecord (n : Nat) (d : Desc) (c : Coll) (st : Status) (first : Nat) (s : State) :
    memRest (collRecord n d c st first s) = memRest s := memRest_memPut ..

@[simp] theorem memRest_cutColl (n : Nat) (d : Desc) (c : Coll) (s : State) : memRest (cutColl n d c s) = memRest s := by
  simp only [cutColl, collSpoil]
  split
  · exact (memRest_foldl (fun _ _ => memRest_spoil ..) _ _).trans (memRest_dropUnsent ..)
  · simp

@[simp] theorem memRest_cutColls (n : Nat) (st : Status) (s : State) : memRest (cutColls n st s) = memRest s := by
  refine memRest_foldl (fun s c => ?_) _ s
  split
  · rfl
  · split <;> simp
  · rfl

/-! ## What a partition's work leaves in memory -/

@[simp] theorem memRest_layerStore (n i : Nat) (l : Layer) (s : State) : memRest (layerStore n i l s) = memRest s := by simp [layerStore]

@[simp] theorem memRest_govStop (n : Nat) (s : State) : memRest (govStop n s) = memRest s := by
  simp only [govStop, layerStoreAll]
  exact memRest_foldl (fun _ _ => memRest_layerStore ..) _ _

@[simp] theorem memRest_dropHeld (n : Nat) (s : State) : memRest (dropHeld n s) = memRest s := by
  simp only [dropHeld]
  exact memRest_foldl (f := fun s (h : HeldPkt) => freeBuffer h.port h.pkt (incReg (bSlwDev + 8) (sendAck h.port h.pkt 1 s))) (fun _ _ => by simp) _ s

@[simp] theorem memRest_spoilJobs (n : Nat) (s : State) : memRest (spoilJobs n s) = memRest s := by
  refine memRest_foldl (fun s k => ?_) _ s
  split
  · exact memRest_foldl (fun _ _ => memRest_spoil ..) _ _
  · rfl

@[simp] theorem memRest_stepLost (n : Nat) (st : Status) (s : State) : memRest (stepLost n st s) = memRest s := by
  unfold stepLost; split <;> rfl

@[simp] theorem memRest_takeRung (r n : Nat) (st : Status) (s : State) : memRest (takeRung r n st s) = memRest s := by
  simp only [takeRung]; split <;> rfl

/-! ## The same, seen with less -/

@[simp] theorem back_memPut (n g hint a : Nat) (d : Bytes) (s : State) : back (memPut n g hint a d s) = back s :=
  back_of_memRest (memRest_memPut ..)

@[simp] theorem back_sendVerdict (node flow vc psn tag job port v : Nat) (s : State) : back (sendVerdict node flow vc psn tag job port v s) = back s :=
  back_of_memRest (memRest_sendVerdict ..)

@[simp] theorem back_portDown (p reason : Nat) (s : State) : back (portDown p reason s) = back s :=
  back_of_memRest (memRest_portDown ..)

@[simp] theorem back_cutColls (n : Nat) (st : Status) (s : State) : back (cutColls n st s) = back s :=
  back_of_memRest (memRest_cutColls ..)

@[simp] theorem back_govStop (n : Nat) (s : State) : back (govStop n s) = back s :=
  back_of_memRest (memRest_govStop ..)

@[simp] theorem back_dropHeld (n : Nat) (s : State) : back (dropHeld n s) = back s :=
  back_of_memRest (memRest_dropHeld ..)

@[simp] theorem back_spoilJobs (n : Nat) (s : State) : back (spoilJobs n s) = back s :=
  back_of_memRest (memRest_spoilJobs ..)

@[simp] theorem back_stepLost (n : Nat) (st : Status) (s : State) : back (stepLost n st s) = back s :=
  back_of_memRest (memRest_stepLost ..)

@[simp] theorem back_takeRung (r n : Nat) (st : Status) (s : State) : back (takeRung r n st s) = back s :=
  back_of_memRest (memRest_takeRung ..)

/-! ## Cores -/

@[simp] theorem back_spoilAll (l : List (Nat × Nat × Nat)) (k : Core) (s : State) : back (spoilAll l k s).2 = back s := by
  induction l generalizing k s with
  | nil => rfl
  | cons r l ih => exact (ih _ _).trans (show back (spoilRows r s k).2 = back s from rfl)

@[simp] theorem back_spoilMmas (c : Nat) (s : State) : back (spoilMmas c s) = back s := by simp [spoilMmas]

@[simp] theorem back_stopCore (st : CoreRun) (c : Nat) (s : State) : back (stopCore st c s) = back s := by
  simp only [stopCore]; split <;> simp

@[simp] theorem back_resetCore (c : Nat) (s : State) : back (resetCore c s) = back s := by simp [resetCore]

@[simp] theorem back_clearCores (s : State) : back (clearCores s) = back s :=
  back_foldl (f := fun s (e : Nat × Core) => setCore e.1 (spoilAll (startedRows e.2 fun _ => true) {} s).1 (spoilAll (startedRows e.2 fun _ => true) {} s).2)
    (fun _ _ => by simp) s.cores _

/-! ## The drain of a partition -/

@[simp] theorem back_drainWaits (n : Nat) (s : State) : back (drainWaits n s) = back s := by
  refine (back_foldl (fun s w => ?_) _ _ : _)
  split <;> simp

@[simp] theorem back_drainIngest (n : Nat) (s : State) : back (drainIngest n s) = back s := by
  unfold drainIngest
  extract_lets p runs spoilt quiet ended
  have hspoilt : back spoilt = back s := back_spoilJobs n s
  clear_value spoilt
  split <;> exact hspoilt

@[simp] theorem back_cutLoads (ids : List Nat) (s : State) (c : Nat) : back (cutLoads ids s c) = back s := by
  refine back_foldl (fun s l => ?_) _ s
  dsimp only
  split <;> rfl

@[simp] theorem back_drainLoads (n : Nat) (s : State) : back (drainLoads n s) = back s := by
  simp only [drainLoads]
  exact (back_foldl (f := fun s c => updCore c _ s) (fun _ _ => by simp) _ _).trans (back_foldl (fun _ _ => back_cutLoads ..) _ _)

@[simp] theorem back_haltPart (n : Nat) (st : Status) (s : State) : back (haltPart n st s) = back s := by
  unfold haltPart
  extract_lets stopped untested cut freed quiet gone sync settled
  have hstop : back stopped = back s := (back_foldl (fun _ _ => back_stopCore ..) _ _).trans (back_stepLost n st s)
  have htest : back untested = back stopped := by
    refine back_foldl (fun s c => ?_) _ stopped
    split <;> rfl
  have hfreed : back freed = back untested := by simp [freed, cut]
  have hall := hfreed.trans (htest.trans hstop)
  clear_value freed
  exact hall

@[simp] theorem back_drainBegin (n : Nat) (st : Status) (isReset auto : Bool) (s : State) : back (drainBegin n st isReset auto s) = back s := by
  unfold drainBegin
  split
  · simp
  · split <;> simp

/-! ## Cores that are cleared -/

theorem descs_spoilAll (l : List (Nat × Nat × Nat)) (k : Core) (s : State) : (spoilAll l k s).2.descs = s.descs := by
  induction l generalizing k s with
  | nil => rfl
  | cons r l ih => exact (ih _ _).trans (show (spoilRows r s k).2.descs = s.descs from rfl)

theorem cores_spoilAll (l : List (Nat × Nat × Nat)) (k : Core) (s : State) : (spoilAll l k s).2.cores = s.cores := by
  induction l generalizing k s with
  | nil => rfl
  | cons r l ih => exact (ih _ _).trans (show (spoilRows r s k).2.cores = s.cores from rfl)

theorem clearCores_cleared (s : State) : CoresCleared s (clearCores s) := by
  have key : ∀ (l done : List (Nat × Core)) (t : State),
      (∀ c, getCore t c = { acc := (getCore t c).acc } ∧
        ((∀ e ∈ done, e.1 = c → startedRows e.2 (fun _ => true) = []) → getCore t c = {})) →
      ∀ c, let u := l.foldl (fun s e => let r := spoilAll (startedRows e.2 fun _ => true) {} s; setCore e.1 r.1 r.2) t
        getCore u c = { acc := (getCore u c).acc } ∧
        ((∀ e ∈ done ++ l, e.1 = c → startedRows e.2 (fun _ => true) = []) → getCore u c = {}) := by
    intro l
    induction l with
    | nil => intro done t h c; simpa using h c
    | cons e l ih =>
      intro done t h c
      have hd : done ++ e :: l = (done ++ [e]) ++ l := by simp
      rw [hd]
      refine ih (done ++ [e]) _ (fun c => ?_) c
      have hother : getCore (spoilAll (startedRows e.2 fun _ => true) {} t).2 c = getCore t c := by
        unfold getCore; rw [cores_spoilAll]
      simp only [getCore_setCore]
      split
      · next hc =>
        obtain ⟨acc, hacc⟩ := spoilAll_core (startedRows e.2 fun _ => true) {} t
        refine ⟨by rw [hacc], fun hrows => ?_⟩
        rw [hrows e (by simp) hc.symm]; rfl
      · rw [hother]
        exact ⟨(h c).1, fun hrows => (h c).2 fun e' he' => hrows e' (List.mem_append_left _ he')⟩
  have h0 := key s.cores [] { s with cores := [] } (fun c => ⟨rfl, fun _ => rfl⟩)
  intro c
  exact h0 c

/-! ## A warm reset -/

/-- What a warm reset does to the part of the state that `back` shows. -/
def warmCleared (s : State) : State :=
  { s with
    rings := [], funcs := s.funcs.map fun e => (e.1, { e.2 with msix := [], pba := [] }), latches := [], flrPf0 := none
    fer := { s.fer with epoch := s.fer.epoch + 1 }
    sec := { s.sec with stage := 2, sessions := [], signQ := [], spdm := [], chunksIn := [], chunkSeq := [], chunksOut := [], ide := [] }
    rst := some { cold := false, since := s.clock, waitFref := false } }

theorem back_warmCleared (s : State) : back (warmCleared (back s)) = back (warmCleared s) := rfl

/-- The last part of a warm reset: what is cleared at once, with no other unit asked. -/
def warmTail (s : State) : State :=
  setReg (bGzl + 4) (BitVec.ofNat 32 (nodeId s)) { s with
    parts := [], rings := [], funcs := s.funcs.map fun e => (e.1, { e.2 with msix := [], pba := [] })
    latches := [], syn := { replays := s.syn.replays }
    fab := { slew := s.fab.slew, ports := s.fab.ports }
    pipes := s.pipes.map fun e => (e.1, { e.2 with task := none, testing := none })
    sites := s.sites.map fun e => (e.1, { e.2 with testing := false, check := none, capture := none })
    ldr := { s.ldr with queue := [] }, regs := s.regs.filter fun e => decide (e.1 < 2 ^ 24) && !(decide (bHifDev ≤ e.1) && decide (e.1 < bPrt))
    flrPf0 := none, mem := { s.mem with waiting := [] }
    fer := { s.fer with epoch := s.fer.epoch + 1 }
    sec := { s.sec with stage := 2, sessions := [], signQ := [], spdm := [], chunksIn := [], chunkSeq := [], chunksOut := [], ide := [] }
    rst := some { cold := false, since := s.clock, waitFref := false } }

theorem back_warmTail (s : State) : back (warmTail s) = back (warmCleared (back s)) := rfl

/-- A warm reset: work in memory ends, the descriptors in flight end, the cores are cleared, then all the rest at once. -/
theorem warmReset_eq (s : State) : ∃ u, memRest u = memRest s ∧ (∀ d ∈ u.descs, d.live = false) ∧ warmReset s = warmTail (clearCores u) := by
  unfold warmReset
  extract_lets ended descsEnded down cleared
  have hended : memRest ended = memRest s := by
    refine memRest_foldl (fun s n => ?_) _ s
    split
    · rfl
    · simp
  clear_value ended
  have hdead : ∀ d ∈ descsEnded.descs, d.live = false := by
    intro d hd
    obtain ⟨e, -, rfl⟩ := List.mem_map.mp hd
    split
    · rfl
    · next h => exact Bool.eq_false_iff.mpr h
  have hdown : memRest down = memRest descsEnded ∧ down.descs = descsEnded.descs := by
    refine List.foldlRecOn (motive := fun t => memRest t = memRest descsEnded ∧ t.descs = descsEnded.descs) _ _ ⟨rfl, rfl⟩ fun t ht p _ => ?_
    split
    · exact ht
    · refine ⟨(memRest_portDown p 8 t).trans ht.1, Eq.trans ?_ ht.2⟩
      simp only [portDown]
      (repeat' split) <;> rfl
  refine ⟨down, hdown.1.trans hended, by rw [hdown.2]; exact hdead, ?_⟩
  show _ = warmTail cleared
  clear_value cleared
  rfl

theorem back_warmReset (s : State) : back (warmReset s) = back (warmCleared s) := by
  obtain ⟨u, hu, -, h⟩ := warmReset_eq s
  rw [h, back_warmTail, back_clearCores, back_of_memRest hu, back_warmCleared]

theorem parts_warmReset (s : State) : (warmReset s).parts = [] := rfl

theorem rst_warmReset (s : State) : (warmReset s).rst = some { cold := false, since := s.clock, waitFref := false } :=
  of_back State.rst (fun _ => rfl) (back_warmReset s)

theorem dead_warmReset {s : State} {d : Desc} (hd : d ∈ (warmReset s).descs) : d.live = false := by
  obtain ⟨u, -, hdead, h⟩ := warmReset_eq s
  have hdescs : (clearCores u).descs = u.descs :=
    List.foldlRecOn (motive := fun t : State => t.descs = u.descs) _ _ rfl fun t ht e _ => by
      refine Eq.trans ?_ ht
      exact descs_spoilAll ..
  rw [h] at hd
  exact hdead d (hdescs ▸ hd)

/-- A warm reset clears every core but for the rows that MMAs in progress were writing. -/
theorem cores_warmReset (s : State) : CoresCleared s (warmReset s) := by
  obtain ⟨u, hu, -, h⟩ := warmReset_eq s
  have hcores : u.cores = s.cores := of_memRest State.cores (fun _ => rfl) hu
  have hc := clearCores_cleared u
  intro c
  rw [h, ← hcores]
  exact hc c

end Sys2Proof.Machine
end

section
/-!
PROOFS. O55: reports and heartbeats, the management port, PLDM and firmware update, PTP, and the e-fuse writes.
-/
namespace Sys2Proof.Machine

/-! ## Bits set by `orReg`; the clock -/

theorem clock_pass (dt : Nat) (s : State) : (pass dt s).clock = s.clock + dt := rfl

theorem bitOf_orReg_self {k bit : Nat} (hbit : bit < 32) (s : State) :
    bitOf (regN (orReg k (BitVec.ofNat 32 (2 ^ bit)) s) k) bit = true := by
  rw [regN, reg_orReg, if_pos rfl, bitOf_toNat, BitVec.getLsbD_or, BitVec.getLsbD_ofNat, Nat.testBit_two_pow_self]
  simp [hbit]

/-- A bit of FMN_EVENT stands once its event has come, whatever records follow. -/
theorem bitOf_fmnEvent {bit : Nat} (hbit : bit < 32) {e : Ev} (s : State) :
    bitOf (regN (postEvent e (fmnEvent bit s)) (bFmn + 0x14)) bit = true := by
  rw [regN_congr (s := fmnEvent bit s) (postEvent_regs _ _)]
  exact bitOf_orReg_self hbit s

/-! ## Datagrams -/

/-- The datagrams of a report, one for each collector that a hop leads to, in the collectors' order. -/
def reportOuts (net : Net) (data : Bytes) (l : List (Nat × Bytes)) : List Out :=
  l.filterMap fun c => (nextHop net c.1 c.2).map fun via => .datagram c.2 via net.port data

theorem sendTo_eq (c : Nat × Bytes) (data : Bytes) (s : State) :
    sendTo c data s = { s with out := (reportOuts s.fer.net data [c]).reverse ++ s.out } := by
  unfold sendTo reportOuts
  cases h : nextHop s.fer.net c.1 c.2 with
  | none => simp [h]
  | some via => rw [List.filterMap_cons, List.filterMap_nil, h]; rfl

theorem foldl_sendTo (data : Bytes) (l : List (Nat × Bytes)) (s : State) :
    l.foldl (fun s c => sendTo c data s) s = { s with out := (reportOuts s.fer.net data l).reverse ++ s.out } := by
  induction l generalizing s with
  | nil => rfl
  | cons c l ih =>
    rw [List.foldl_cons, ih, sendTo_eq]
    simp only [reportOuts, List.filterMap_cons, List.filterMap_nil]
    cases nextHop s.fer.net c.1 c.2 <;> simp

theorem sendReport_eq (data : Bytes) (s : State) :
    sendReport data s = { s with out := (reportOuts s.fer.net data s.fer.net.collectors).reverse ++ s.out } := foldl_sendTo data _ s

theorem mem_sendReport {data : Bytes} {s : State} {c : Nat × Bytes} (hc : c ∈ s.fer.net.collectors) {via : Bytes}
    (hvia : nextHop s.fer.net c.1 c.2 = some via) : .datagram c.2 via s.fer.net.port data ∈ (sendReport data s).out := by
  rw [sendReport_eq]
  refine List.mem_append_left _ (List.mem_reverse.mpr (List.mem_filterMap.mpr ⟨c, hc, ?_⟩))
  rw [hvia, Option.map_some]

theorem datagramBytes_congr {s t : State} (hregs : t.regs = s.regs) (hboots : t.fer.boots = s.fer.boots) (type count first : Nat) (body : Bytes) :
    datagramBytes type count first body t = datagramBytes type count first body s := by
  have hnode : reportNode t = reportNode s := by
    unfold reportNode nodeId
    rw [regN_congr hregs]
  unfold datagramBytes
  rw [hnode, hboots]

/-! ## Which records go out -/

/-- Fewer than 100 records of each kind have gone out, with room for `n` more: all of the first `n` are taken. -/
theorem takeRecords_fst {n : Nat} {f : Ferry} (h : ∀ k, f.perKind.get 0 k + n ≤ 100) (l : List Event) : (takeRecords n l f).1 = l.take n := by
  induction n generalizing l f with
  | zero => rfl
  | succ n ih =>
    cases l with
    | nil => rfl
    | cons e l =>
      have hroom : ¬100 ≤ f.perKind.get 0 e.kind := by have := h e.kind; omega
      rw [takeRecords, if_neg hroom, List.take_succ_cons]
      refine congrArg (e :: ·) (ih (fun k => ?_) l)
      rw [Tbl.get_upd]
      split
      · have := h e.kind; omega
      · have := h k; omega

/-- Taking records moves only the counts of the kinds and the number to send from. -/
theorem takeRecords_snd (n : Nat) (l : List Event) (f : Ferry) :
    (takeRecords n l f).2 = { f with perKind := (takeRecords n l f).2.perKind, sendFrom := (takeRecords n l f).2.sendFrom } ∧
    ∀ x, (takeRecords n l f).1.getLast? = some x → (takeRecords n l f).2.sendFrom = x.seq + 1 := by
  induction n generalizing l f with
  | zero => exact ⟨rfl, fun x hx => by cases hx⟩
  | succ n ih =>
    cases l with
    | nil => exact ⟨rfl, fun x hx => by cases hx⟩
    | cons e l =>
      rw [takeRecords]
      split
      · exact ⟨rfl, fun x hx => by cases hx⟩
      · obtain ⟨heq, hlast⟩ := ih l { f with perKind := Tbl.upd 0 f.perKind e.kind fun n => n + 1, sendFrom := e.seq + 1 }
        refine ⟨by simp only; rw [heq], fun x hx => ?_⟩
        simp only at hx ⊢
        cases hr : (takeRecords n l { f with perKind := Tbl.upd 0 f.perKind e.kind fun n => n + 1, sendFrom := e.seq + 1 }).1 with
        | nil =>
          rw [hr, List.getLast?_singleton, Option.some.injEq] at hx
          subst hx
          cases n with
          | zero => rfl
          | succ n =>
            cases l with
            | nil => rfl
            | cons d l =>
              rw [takeRecords] at hr ⊢
              split
              · rfl
              · next h => rw [if_neg h] at hr; cases hr
        | cons y r =>
          rw [hr, List.getLast?_cons_cons] at hx
          exact hlast x (by rw [hr]; exact hx)

theorem exec_reportDatagram {s : State} {dt : Nat} (hr : reportsOn s = true) (hon : bitOf (regN s bFmn) 0 = true) (hk : s.fer.perKind = [])
    {e : Event} {rest : List Event} (hu : unsent s = e :: rest) : ∃ f : Ferry,
      f.net = s.fer.net ∧ f.events = s.fer.events ∧
      (∀ x, ((e :: rest).take 40).getLast? = some x → f.sendFrom = x.seq + 1) ∧
      exec (.reportDatagram dt) s = .next (sendReport (datagramBytes 0 ((e :: rest).take 40).length e.seq.toNat
        ((((e :: rest).take 40).map eventBytes).flatten) s) { pass dt s with fer := f }) := by
  have hover : passOver (e :: rest) s.fer = (e :: rest, s.fer) := by
    rw [passOver, hk]; rfl
  have htake : (takeRecords 40 (e :: rest) s.fer).1 = (e :: rest).take 40 :=
    takeRecords_fst (fun k => by rw [hk]; simp [Tbl.get]) _
  obtain ⟨hf, hlast⟩ := takeRecords_snd 40 (e :: rest) s.fer
  rw [htake] at hlast
  have hgo : (reportsOn s && bitOf (regN s bFmn) 0 && !(unsent s).isEmpty) = true := by simp [hr, hon, hu]
  have hb := congrArg Ferry.boots hf
  have hnet := congrArg Ferry.net hf
  have hev := congrArg Ferry.events hf
  refine ⟨_, hnet, hev, hlast, ?_⟩
  rw [← datagramBytes_congr (s := s) (t := { pass dt s with fer := (takeRecords 40 (e :: rest) s.fer).2 }) rfl hb]
  show execReportDatagram dt s = _
  unfold execReportDatagram
  rw [if_pos hgo, hu, pass_fer, hover]
  dsimp only
  rw [htake]
  rfl

/-! ## Time -/

theorem exec_rateLimitSecond {s : State} {dt : Nat} (hr : fmnRuns s = true) (hd : s.fer.secondAt + 1000000000 ≤ s.clock + dt) :
    exec (.rateLimitSecond dt) s = .next (s.fer.suppressed.foldl (fun s e => postEvent { kind := 0x25, detail := packB [(1, e.1), (4, e.2)] } s)
      { pass dt s with fer := { s.fer with perKind := [], suppressed := [], secondAt := s.clock + dt } }) := by
  refine if_pos ?_
  rw [hr, Bool.true_and]; exact decide_eq_true hd

/-- What stored records leave unchanged. -/
theorem foldl_postEvent {α : Type} (f : α → Ev) (l : List α) (s : State) : ∃ ev n,
    l.foldl (fun s a => postEvent (f a) s) s = { s with fer := { s.fer with events := ev, evSeq := n } } := by
  induction l generalizing s with
  | nil => exact ⟨_, _, rfl⟩
  | cons a l ih =>
    obtain ⟨ev, n, h⟩ := ih (postEvent (f a) s)
    exact ⟨ev, n, by rw [List.foldl_cons, h]; rfl⟩

/-- A source of fabric time does not appear by the passing of time. -/
theorem timeSource_pass {s : State} (h : timeSource s = none) (dt : Nat) : timeSource (pass dt s) = none := by
  have hlow : (List.range 8).find? (fun p => timeGood s p) = none := by
    cases hl : (List.range 8).find? (fun p => timeGood s p) with
    | none => rfl
    | some p =>
      unfold timeSource at h
      rw [hl] at h
      cases hq : s.fab.source with
      | none => rw [hq] at h; cases h
      | some q =>
        rw [hq] at h
        simp only at h
        split at h <;> cases h
  have hlow' : (List.range 8).find? (fun p => timeGood (pass dt s) p) = none := hlow
  unfold timeSource
  rw [hlow']
  cases (pass dt s).fab.source <;> rfl

theorem ptpSteers_pass {s : State} (h : ptpSteers s = true) (dt : Nat) : ptpSteers (pass dt s) = true := by
  unfold ptpSteers at h ⊢
  simp only [Bool.and_eq_true, Option.isNone_iff_eq_none] at h ⊢
  exact ⟨h.1, timeSource_pass h.2 dt⟩

/-- A correction within 1 µs is slewed. -/
theorem correctTime_slews {e : Int} (hlo : -1000 ≤ e) (hhi : e ≤ 1000) (p : Nat) (s : State) :
    (correctTime e p s).now = s.now ∧ (correctTime e p s).fab.slew = e := by
  have h : (decide (-1000 ≤ e) && decide (e ≤ 1000)) = true := by simp [hlo, hhi]
  unfold correctTime
  extract_lets a s'
  rw [h, if_pos rfl]
  exact ⟨rfl, rfl⟩

/-- A correction forward by more than 1 µs is a step. -/
theorem correctTime_steps {e : Int} (hhi : 1000 < e) (p : Nat) (s : State) :
    (correctTime e p s).now = s.now + BitVec.ofInt 64 e ∧ (correctTime e p s).fab.slew = 0 := by
  have h : (decide (-1000 ≤ e) && decide (e ≤ 1000)) = false := by
    rw [Bool.and_eq_false_iff]; right; simp; omega
  have h0 : decide (0 < e) = true := by simp; omega
  unfold correctTime
  extract_lets a s'
  rw [h, h0, Bool.true_or, if_neg Bool.false_ne_true, if_pos rfl]
  exact ⟨rfl, rfl⟩

/-- A correction leaves what PTP remembers of its last Sync. -/
theorem correctTime_ptp (e : Int) (p : Nat) (s : State) : (correctTime e p s).fer.ptpAt = s.fer.ptpAt ∧
    (correctTime e p s).fer.ptpT1 = s.fer.ptpT1 ∧ (correctTime e p s).fer.ptpT2 = s.fer.ptpT2 := by
  unfold correctTime
  extract_lets a s'
  split
  · exact ⟨rfl, rfl, rfl⟩
  · split <;> exact ⟨rfl, rfl, rfl⟩

/-! ## Firmware update -/

@[simp] theorem updateState_sec (c st : Nat) (s : State) : (updateState c st s).sec = s.sec := by
  unfold updateState; split <;> rfl

@[simp] theorem updateState_cores (c st : Nat) (s : State) : (updateState c st s).cores = s.cores := by
  unfold updateState; split <;> rfl

@[simp] theorem updateState_mem (c st : Nat) (s : State) : (updateState c st s).mem = s.mem := by
  unfold updateState; split <;> rfl

@[simp] theorem updateState_brd (c st : Nat) (s : State) : (updateState c st s).brd = s.brd := by
  unfold updateState; split <;> rfl

theorem updateState_updates (c st : Nat) (s : State) :
    (updateState c st s).fer.updates.get {} c = { s.fer.updates.get {} c with state := st } := by
  unfold updateState
  split
  · next h => subst h; rfl
  · simp only [postEvent, Tbl.get_upd, if_true]

theorem imageOk_congr {s t : State} (h : t.sec = s.sec) (c slot : Nat) : imageOk t c slot = imageOk s c slot := by
  unfold imageOk flashImage svnOf; rw [h]

theorem chooseSlot_congr {s t : State} (h : t.sec = s.sec) (c : Nat) : chooseSlot t c = chooseSlot s c := by
  unfold chooseSlot; rw [imageOk_congr h, imageOk_congr h]; unfold flashImage; rw [h]

/-- What a stage's choice leaves unchanged. -/
theorem verifyStage_frame (stage c : Nat) (s : State) : ∃ ev n sl, (verifyStage stage c s).2 =
    { s with fer := { s.fer with events := ev, evSeq := n }, sec := { s.sec with slots := sl } } := by
  unfold verifyStage
  split
  · exact ⟨_, _, _, rfl⟩
  · exact ⟨_, _, _, rfl⟩

theorem verifyStage_fst (stage c : Nat) (s : State) : (verifyStage stage c s).1 = (chooseSlot s c).isSome := by
  unfold verifyStage
  split
  · next h => rw [h]; rfl
  · next h => rw [h]; rfl

theorem foldl_queueRepair {α : Type} (f : α → Nat × Nat) (l : List α) (s : State) : ∃ q,
    l.foldl (fun s a => queueRepair (f a).1 (f a).2 s) s = { s with fer := { s.fer with fuseQ := q } } := by
  induction l generalizing s with
  | nil => exact ⟨_, rfl⟩
  | cons a l ih =>
    obtain ⟨q, h⟩ := ih (queueRepair (f a).1 (f a).2 s)
    exact ⟨q, by rw [List.foldl_cons, h]; rfl⟩

/-- The first boot of a component only adds e-fuse writes to the queue. -/
theorem commitSvn_frame (c : Nat) (s : State) : ∃ q, commitSvn c s = { s with fer := { s.fer with fuseQ := q } } := by
  unfold commitSvn
  extract_lets i queued keys
  split
  · obtain ⟨q, h⟩ := foldl_queueRepair (fun _ => (7, c)) (List.range (min 64 i.svn - svnOf s c - queued)) s
    rw [h]
    obtain ⟨q', h'⟩ := foldl_queueRepair (fun k => (8, k)) keys { s with fer := { s.fer with fuseQ := q } }
    exact ⟨q', h'⟩
  · exact ⟨_, rfl⟩

/-- A firmware image's bytes so far, an update's state before VerifyComplete. -/
theorem exec_pldmFirmwareUpdate {s : State} (hv : s.brd.vauxOn = true) {c : Nat} (hc : c < 3) (v : Bool) (data : Bytes)
    (hslot : s.sec.slots.get 0 c ≤ 1) :
    let image := (if (s.fer.updates.get {} c).state = 3 then (s.fer.updates.get {} c).image else []) ++ data
    Does (.pldmFirmwareUpdate c v data) s fun t =>
      flashImage t c (otherSlot s c) = slotImage image ∧
      flashImage t c (s.sec.slots.get 0 c) = flashImage s c (s.sec.slots.get 0 c) ∧
      t.sec.slots = s.sec.slots ∧ t.sec.svn = s.sec.svn ∧ t.cores = s.cores ∧ t.mem = s.mem ∧
      (v = false → (t.fer.updates.get {} c).image = image ∧ (t.fer.updates.get {} c).verified = false ∧ (t.fer.updates.get {} c).state = 3) ∧
      (v = true → (t.fer.updates.get {} c).verified = imageOk t c (otherSlot s c)) := by
  intro image
  have hgo : (!s.brd.vauxOn || decide (3 ≤ c)) = false := by simp [hv]; omega
  -- the state with the image in its slot
  let s1 : State := { s with
    sec := { s.sec with flash := Tbl.set { component := c } s.sec.flash (2 * c + otherSlot s c) (slotImage image) }
    fer := { s.fer with updates := Tbl.upd {} s.fer.updates c fun u => { u with image := image, verified := false } } }
  have hflash : flashImage s1 c (otherSlot s c) = slotImage image := Tbl.get_set_self _ _ _ _
  have hother : flashImage s1 c (s.sec.slots.get 0 c) = flashImage s c (s.sec.slots.get 0 c) :=
    Tbl.get_set_ne _ _ _ (by unfold otherSlot; omega)
  have hu2 := updateState_updates c 3 s1
  have hget : s1.fer.updates.get {} c = { s.fer.updates.get {} c with image := image, verified := false } := by
    simp only [s1, Tbl.get_upd, if_true]
  rw [hget] at hu2
  have hexec : exec (.pldmFirmwareUpdate c v data) s = .next (
      let s := if v then
          let ok := imageOk (updateState c 3 s1) c (otherSlot (updateState c 3 s1) c)
          updateState c (if ok then 5 else 0) (updateState c 4 { updateState c 3 s1 with
            fer := { (updateState c 3 s1).fer with updates := Tbl.upd {} (updateState c 3 s1).fer.updates c fun u => { u with image := [], verified := ok } } })
        else updateState c 3 s1
      emit (.mctp 1 (Config.standardReply 5 data (leBytes 1 c ++ leBytes 1 (s.fer.updates.get {} c).state))) s) := by
    show execPldmFirmwareUpdate c v data s = _
    unfold execPldmFirmwareUpdate
    rw [hgo]; rfl
  have hs2 : (updateState c 3 s1).sec = s1.sec := updateState_sec _ _ _
  have hc2 : (updateState c 3 s1).cores = s.cores := updateState_cores _ _ _
  have hm2 : (updateState c 3 s1).mem = s.mem := updateState_mem _ _ _
  have hos : otherSlot (updateState c 3 s1) c = otherSlot s c := by unfold otherSlot; rw [hs2]
  have hflashes : ∀ t : State, t.sec = s1.sec → ∀ k, flashImage t c k = flashImage s1 c k := fun t h k => by unfold flashImage; rw [h]
  rw [hos] at hexec
  generalize updateState c 3 s1 = x at hu2 hexec hs2 hc2 hm2
  cases v with
  | false =>
    refine ⟨_, hexec, ?_⟩
    simp only [Bool.false_eq_true, if_false, false_implies, and_true, true_implies, emit_fer, hu2, emit_sec, emit_cores, emit_mem, hc2, hm2]
    rw [hflashes (emit _ x) hs2, hflashes (emit _ x) hs2, hs2]
    exact ⟨hflash, hother, rfl, rfl⟩
  | true =>
    refine ⟨_, hexec, ?_⟩
    generalize hok : imageOk x c (otherSlot s c) = ok
    simp only [if_true, true_implies, reduceCtorEq, false_implies, true_and, emit_fer, emit_sec, emit_cores, emit_mem, updateState_sec,
      updateState_cores, updateState_mem, updateState_updates, Tbl.get_upd, hc2, hm2, hs2]
    refine ⟨(hflashes _ ?_ _).trans hflash, (hflashes _ ?_ _).trans hother, rfl, rfl, ?_⟩
    · simp only [emit_sec, updateState_sec]
    · simp only [emit_sec, updateState_sec]
    · rw [← hok]
      exact (imageOk_congr (by simp only [emit_sec, updateState_sec, hs2]) _ _).symm

/-- A new image is taken into use: BOOT and SYSCTL at the next reset, FERRYMAN at once. -/
theorem exec_fwActivate {s : State} (hv : s.brd.vauxOn = true) {c : Nat} (hc : c < 3) (hok : (s.fer.updates.get {} c).verified = true) :
    Does (.fwActivate c) s fun t =>
      (t.fer.updates.get {} c).verified = false ∧ t.sec.flash = s.sec.flash ∧ t.sec.svn = s.sec.svn ∧ t.cores = s.cores ∧
      (c ≠ 2 → t.sec = s.sec) ∧
      (c = 2 → (t.sec.ferryRecovery = true ↔ chooseSlot s 2 = none ∨ s.brd.straps.getLsbD 6 = true)) := by
  have hgo : (s.brd.vauxOn && decide (c < 3) && (s.fer.updates.get {} c).verified) = true := by simp [hv, hc, hok]
  let s1 : State := { s with fer := { s.fer with updates := Tbl.upd {} s.fer.updates c fun u => { u with verified := false } } }
  have hs1 : (s1.fer.updates.get {} c).verified = false := by simp only [s1, Tbl.get_upd, if_true]
  have hexec : exec (.fwActivate c) s = .next (
      let s := updateState c 0 (updateState c 6 s1)
      if c = 2 then commitSvn 2 { (verifyStage 0 2 s).2 with sec := { (verifyStage 0 2 s).2.sec with
        ferryRecovery := !(verifyStage 0 2 s).1 || bitOf (verifyStage 0 2 s).2.brd.straps.toNat 6 } }
      else s) := by
    show execFwActivate c s = _
    unfold execFwActivate
    rw [hgo, if_pos rfl]
    by_cases h : c = 2
    · rw [if_pos h, if_pos h]
    · rw [if_neg h, if_neg h]
  refine ⟨_, hexec, ?_⟩
  dsimp only
  have hxv : ((updateState c 0 (updateState c 6 s1)).fer.updates.get {} c).verified = false := by
    rw [updateState_updates, updateState_updates]; exact hs1
  have hxs : (updateState c 0 (updateState c 6 s1)).sec = s.sec := by rw [updateState_sec, updateState_sec]
  have hxc : (updateState c 0 (updateState c 6 s1)).cores = s.cores := by rw [updateState_cores, updateState_cores]
  have hxb : (updateState c 0 (updateState c 6 s1)).brd = s.brd := by rw [updateState_brd, updateState_brd]
  generalize updateState c 0 (updateState c 6 s1) = x at hxv hxs hxc hxb
  by_cases h : c = 2
  · subst h
    rw [if_pos rfl]
    obtain ⟨evv, nv, sl, hvs⟩ := verifyStage_frame 0 2 x
    have hv1 := verifyStage_fst 0 2 x
    rw [chooseSlot_congr hxs] at hv1
    generalize verifyStage 0 2 x = w at hvs hv1
    obtain ⟨q, hq⟩ := commitSvn_frame 2 { w.2 with sec := { w.2.sec with ferryRecovery := !w.1 || bitOf w.2.brd.straps.toNat 6 } }
    rw [hq, hv1]
    simp only [hvs, hxs, hxc, hxb, hxv, bitOf_toNat, ne_eq, not_true_eq_false, false_implies, true_implies, true_and]
    cases chooseSlot s 2 <;> simp
  · rw [if_neg h]
    exact ⟨hxv, by rw [hxs], by rw [hxs], hxc, fun _ => hxs, fun h' => absurd h' h⟩

/-! ## E-fuse writes -/

/-- A write that waits begins or is put off while there is room for it. -/
theorem exec_fuseWrite_room {s : State} (hr : fmnRuns s = true) (hn : s.fer.fuseNow = none) {r : Repair} {rest : List Repair}
    (hq : s.fer.fuseQ = r :: rest) (hroom : inRecord r = false ∨ s.fer.fuses.length < 1024) (dt : Nat) :
    exec (.fuseWrite dt) s = .next (if fuseable s then
        { pass dt s with fer := { s.fer with fuseQ := rest, fuseNow := some (r, false), fuseAt := s.clock + dt } }
      else if r.deferred then s
      else fuseRecord r.cls 1 (fmnEvent 6 { pass dt s with fer := { s.fer with fuseQ := { r with deferred := true } :: rest } })) := by
  have hfull : (inRecord r && decide (1024 ≤ s.fer.fuses.length)) = false := by
    rcases hroom with h | h
    · rw [h, Bool.false_and]
    · rw [decide_eq_false (by omega), Bool.and_false]
  show execFuseWrite dt s = _
  unfold execFuseWrite
  split
  · next r' rest' hn' hq' =>
    obtain ⟨rfl, rfl⟩ := List.cons.inj (hq'.symm.trans hq)
    rw [hr, hfull, Bool.not_true, if_neg Bool.false_ne_true, if_neg Bool.false_ne_true]
    split
    · rfl
    · split <;> rfl
  · next h => exact absurd hq (h _ _ hn)

theorem exec_fuseWrite_full {s : State} (hr : fmnRuns s = true) (hn : s.fer.fuseNow = none) {r : Repair} {rest : List Repair}
    (hq : s.fer.fuseQ = r :: rest) (hrec : inRecord r = true) (hfull : 1024 ≤ s.fer.fuses.length) (dt : Nat) :
    exec (.fuseWrite dt) s = .next (fuseRecord r.cls 0
      { pass dt s with fer := { s.fer with fuseQ := rest, flashRepairs := s.fer.flashRepairs ++ [r] } }) := by
  have h : (inRecord r && decide (1024 ≤ s.fer.fuses.length)) = true := by rw [hrec, Bool.true_and]; exact decide_eq_true hfull
  show execFuseWrite dt s = _
  unfold execFuseWrite
  split
  · next r' rest' hn' hq' =>
    obtain ⟨rfl, rfl⟩ := List.cons.inj (hq'.symm.trans hq)
    rw [hr, h, Bool.not_true, if_neg Bool.false_ne_true, if_pos rfl]
    rfl
  · next h' => exact absurd hq (h' _ _ hn)

/-- What a write that is over does with its read-back (R519). -/
theorem exec_fuseWriteDone {s : State} {r : Repair} {again : Bool} (hn : s.fer.fuseNow = some (r, again)) {dt : Nat}
    (ht : s.fer.fuseAt + 2000000 ≤ s.clock + dt) (ok : Bool) :
    exec (.fuseWriteDone dt ok) s = .next (if ok then fuseRecord r.cls 0 (fuseBlown r { pass dt s with fer := { s.fer with fuseNow := none } })
      else if again then fuseRecord r.cls 2 { pass dt s with fer := { s.fer with fuseNow := none } }
      else { pass dt s with fer := { s.fer with fuseNow := some (r, true), fuseAt := s.clock + dt } }) := by
  show execFuseWriteDone dt ok s = _
  unfold execFuseWriteDone
  simp only [hn, clock_pass, ht, if_true]
  split
  · rfl
  · split <;> rfl

/-- Which of its three stores a write that has held goes to. -/
theorem fuseBlown_stores (r : Repair) (s : State) :
    (inRecord r = true → fuseBlown r s = { s with fer := { s.fer with fuses := s.fer.fuses ++ [{ r with deferred := false }] } }) ∧
    (r.cls = 7 → fuseBlown r s = { s with sec := { s.sec with svn := Tbl.upd 0 s.sec.svn r.what fun n => n + 1 } }) ∧
    (r.cls = 8 → fuseBlown r s = { s with sec := { s.sec with revoked := s.sec.revoked ||| BitVec.ofNat 4 (2 ^ r.what) } }) := by
  refine ⟨fun h => ?_, fun h => if_pos h, fun h => ?_⟩
  · simp only [inRecord, Bool.and_eq_true, bne_iff_ne, ne_eq] at h
    unfold fuseBlown; rw [if_neg h.1, if_neg h.2]
  · unfold fuseBlown; rw [if_neg (by omega), if_pos h]

theorem exec_ptpLost {s : State} (hr : fmnRuns s = true) {t0 dt : Nat} (hp : s.fer.ptpAt = some t0) (ht : t0 + 3000000000 ≤ s.clock + dt) :
    exec (.ptpLost dt) s = .next (timeRecord 2 0 (fmnEvent 7 { pass dt s with fer := { s.fer with ptpAt := none } })) := by
  show execPtpLost dt s = _
  unfold execPtpLost
  simp only [hp]
  rw [hr, Bool.true_and, clock_pass, if_pos (decide_eq_true ht)]
  rfl

theorem exec_ptpSync {s : State} (h : ptpSteers s = true) (dt : Nat) (t1 t2 : DWord) : ∃ u : State,
    u.now = (pass dt s).now ∧ u.clock = s.clock + dt ∧
    exec (.ptpSync dt t1 t2) s = .next (correctTime ((t1.toNat : Int) + u.fer.ptpDelay - (t2.toNat : Int)) 0
      { u with fer := { u.fer with ptpAt := some u.clock, ptpT1 := t1, ptpT2 := t2 } }) ∧ u.fer.ptpDelay = s.fer.ptpDelay := by
  show ∃ u : State, _ ∧ _ ∧ execPtpSync dt t1 t2 s = _ ∧ _
  unfold execPtpSync
  rw [if_pos (ptpSteers_pass h dt)]
  by_cases hp : (pass dt s).fer.ptpAt.isNone
  · refine ⟨timeRecord 2 ((t1.toNat : Int) + s.fer.ptpDelay - (t2.toNat : Int)) (pass dt s), rfl, rfl, ?_, rfl⟩
    dsimp only; rw [if_pos hp]; rfl
  · refine ⟨pass dt s, rfl, rfl, ?_, rfl⟩
    dsimp only; rw [if_neg hp]

theorem exec_mctpControl {s : State} (hv : s.brd.vauxOn = true) (req : Bytes) : exec (.mctpControl req) s = .next (
    let e := (Config.mctpAssigns req).getD s.fer.mctpEid
    emit (.mctp 0 (Config.standardReply 0 req (leBytes 1 (0x30 + bitsOf s.brd.straps.toNat 0 3) ++ leBytes 1 e)))
      { s with fer := { s.fer with mctpEid := e } }) := by
  show execMctpControl req s = _
  unfold execMctpControl
  rw [if_pos hv]
  cases Config.mctpAssigns req <;> rfl

theorem exec_pldmPlatform {s : State} (hr : fmnRuns s = true) (req : Bytes) : ∃ b, exec (.pldmPlatform req true) s = .next
    (emit (.mctp 1 b) { s with fer := { s.fer with pldmPending := s.fer.pldmPending - 1 }
                               brd := { s.brd with alert := decide (1 < s.fer.pldmPending) } }) := by
  exact ⟨Config.standardReply 2 req (sensorFacts { s with fer := { s.fer with pldmPending := s.fer.pldmPending - 1 }
                                                          brd := { s.brd with alert := decide (1 < s.fer.pldmPending) } }), if_pos hr⟩

theorem exec_heartbeatDatagram {s : State} {dt : Nat} (hr : reportsOn s = true) (hon : bitOf (regN s bFmn) 1 = true)
    (hd : s.fer.heartbeatAt + heartbeatNs s ≤ s.clock + dt) : exec (.heartbeatDatagram dt) s = .next
      (sendReport (datagramBytes 1 0 s.fer.evSeq.toNat (statusBlock (pass dt s)) s)
        { pass dt s with fer := { s.fer with heartbeatAt := s.clock + dt } }) := by
  have hgo : (reportsOn s && bitOf (regN s bFmn) 1 && decide (s.fer.heartbeatAt + heartbeatNs s ≤ (pass dt s).clock)) = true := by
    rw [hr, hon, Bool.true_and, Bool.true_and]; exact decide_eq_true hd
  show execHeartbeatDatagram dt s = _
  unfold execHeartbeatDatagram
  rw [if_pos hgo]
  rfl

/-- Settles O55, clause by clause over the commands' own equations. -/
theorem managementTraffic : Obligations.ManagementTraffic := by
  unfold Obligations.ManagementTraffic
  intro s dt now net sent
  refine ⟨fun hr hon hk e rest hu => ?_, fun hr hd => ?_, fun hr hon hd => ?_, fun hr a d => ⟨fun ha => ?_, fun ha => ?_, fun ha => ?_⟩,
    fun req => ⟨fun hv => ?_, fun hr => ?_, fun hr => ?_⟩, fun hv c data v hc => ?_, fun hv c hc hok => exec_fwActivate hv hc hok,
    fun h t1 t2 => ?_, fun h ha t3 t4 => ?_, fun hr t0 hp ht => ?_, fun hr hn r rest hq => ⟨fun hroom => ⟨fun hf => ?_, fun hf hd => ?_, fun hf hd => ?_⟩, fun hrec hfull => ?_⟩,
    fun r again hn ht => ⟨?_, fun ha => ?_, fun ha => ?_⟩⟩
  · obtain ⟨f, hnet, hev, hlast, hexec⟩ := exec_reportDatagram (dt := dt) hr hon hk hu
    refine ⟨_, hexec, ?_, ?_, ?_, ?_⟩
    · rw [sendReport_eq]
    · rw [sendReport_eq]; exact hev
    · rw [sendReport_eq]; exact hlast
    · intro c hc via hvia
      have h := mem_sendReport (s := { pass dt s with fer := f }) (c := c) (via := via) (by rw [hnet]; exact hc) (by rw [hnet]; exact hvia)
        (data := datagramBytes 0 ((e :: rest).take 40).length e.seq.toNat ((((e :: rest).take 40).map eventBytes).flatten) s)
      rw [hnet] at h
      exact h
  · refine ⟨_, exec_rateLimitSecond hr hd, ?_⟩
    obtain ⟨ev, n, h⟩ := foldl_postEvent (fun e : Nat × Nat => { kind := 0x25, detail := packB [(1, e.1), (4, e.2)] }) s.fer.suppressed
      { pass dt s with fer := { s.fer with perKind := [], suppressed := [], secondAt := s.clock + dt } }
    refine ⟨by rw [h], by rw [h], by rw [h], by rw [h], fun h0 => by rw [h0]; rfl⟩
  · refine ⟨_, exec_heartbeatDatagram hr hon hd, ?_, ?_⟩
    · rw [sendReport_eq]
    · intro c hc via hvia
      exact mem_sendReport (s := { pass dt s with fer := { s.fer with heartbeatAt := s.clock + dt } }) hc hvia
  · exact if_pos (by rw [hr, ha]; rfl)
  · exact if_pos (by rw [hr, ha]; rfl)
  · exact if_pos (by rw [hr]; simpa using ha)
  · exact ⟨_, exec_mctpControl hv req, ⟨_, rfl⟩, rfl⟩
  · exact ⟨_, if_pos hr, ⟨_, rfl⟩, rfl⟩
  · obtain ⟨b, h⟩ := exec_pldmPlatform hr req
    exact ⟨_, h, ⟨b, rfl⟩, rfl, by simp [emit], rfl⟩
  · intro other u image hslot
    exact exec_pldmFirmwareUpdate hv hc v data hslot
  · obtain ⟨u, hnow, hclock, hexec, hdelay⟩ := exec_ptpSync h dt t1 t2
    rw [hdelay] at hexec
    generalize hx : ({ u with fer := { u.fer with ptpAt := some u.clock, ptpT1 := t1, ptpT2 := t2 } } : State) = x at hexec
    have hxat : x.fer.ptpAt = some u.clock := by rw [← hx]
    have hx1 : x.fer.ptpT1 = t1 := by rw [← hx]
    have hx2 : x.fer.ptpT2 = t2 := by rw [← hx]
    have hxnow : x.now = (pass dt s).now := by rw [← hx]; exact hnow
    refine ⟨_, hexec, ?_⟩
    generalize (t1.toNat : Int) + s.fer.ptpDelay - (t2.toNat : Int) = e
    obtain ⟨hat, h1, h2⟩ := correctTime_ptp e 0 x
    refine ⟨by rw [hat, hxat, hclock], by rw [h1, hx1], by rw [h2, hx2], fun hlo hhi => ?_, fun hhi => ?_⟩
    · obtain ⟨hn, hs⟩ := correctTime_slews hlo hhi 0 x
      exact ⟨hn.trans hxnow, hs⟩
    · obtain ⟨hn, hs⟩ := correctTime_steps hhi 0 x
      exact ⟨by rw [hn, hxnow], hs⟩
  · exact if_pos (by rw [h, ha]; rfl)
  · exact ⟨_, exec_ptpLost hr hp ht, rfl, rfl, bitOf_fmnEvent (by decide) _⟩
  · rw [exec_fuseWrite_room hr hn hq hroom, if_pos hf]
  · rw [exec_fuseWrite_room hr hn hq hroom, if_neg (by simp [hf]), if_pos hd]
  · refine ⟨_, exec_fuseWrite_room hr hn hq hroom dt, ?_⟩
    rw [if_neg (by simp [hf]), if_neg (by simp [hd])]
    exact ⟨rfl, rfl, bitOf_fmnEvent (by decide) _⟩
  · exact ⟨_, exec_fuseWrite_full hr hn hq hrec hfull dt, rfl, rfl, rfl⟩
  · obtain ⟨h1, h7, h8⟩ := fuseBlown_stores r { pass dt s with fer := { s.fer with fuseNow := none } }
    refine ⟨_, exec_fuseWriteDone hn ht true, ?_, fun h => ?_, fun h => ?_, fun h => ?_⟩
    · rw [if_pos rfl]; unfold fuseBlown; split
      · rfl
      · split <;> rfl
    · rw [if_pos rfl, h1 h]; exact ⟨rfl, rfl⟩
    · rw [if_pos rfl, h7 h]; exact ⟨by simp only [fuseRecord, postEvent_sec, pass_sec, Tbl.get_upd, if_true], rfl⟩
    · rw [if_pos rfl, h8 h]; exact ⟨rfl, rfl⟩
  · rw [exec_fuseWriteDone hn ht, if_neg (by decide), if_neg (by simp [ha])]
  · refine ⟨_, exec_fuseWriteDone hn ht false, ?_⟩
    rw [if_neg (by decide), if_pos ha]
    exact ⟨rfl, rfl, rfl, _, rfl, rfl⟩

end Sys2Proof.Machine
end

section
/-!
PROOFS. O54: Ferryman's nine commands, the three paths they come on, and what each makes of a body that R517 allows.
-/
namespace Sys2Proof.Machine

/-! ## The paths -/

theorem command_mctp {s : State} (h : fmnRuns s = true) (code : Nat) (b : Bytes) : command code .mctp b s =
    emit (.mgmtReply .mctp code (runCommand code b s).1.result (runCommand code b s).1.body) (runCommand code b s).2 := by
  simp [command, h]

theorem command_off {s : State} (h : fmnRuns s = false) (code : Nat) (path : MgmtPath) (b : Bytes) : command code path b s = s := by
  simp [command, h]

/-- Over UDP only queries are answered. -/
theorem command_udp_notQuery {code : Nat} (h : 3 < code) (a b : Bytes) (s : State) : command code (.udp a) b s = s := by
  have hq : (reportsOn s && decide (code ≤ 3)) = false := by rw [decide_eq_false (by omega), Bool.and_false]
  unfold command
  split
  · rfl
  · simp only [hq]; rfl

/-- Over UDP only a collector is answered. -/
theorem command_udp_stranger {s : State} {a : Bytes} (h : ∀ c ∈ s.fer.net.collectors, c.2 ≠ a) (code : Nat) (b : Bytes) :
    command code (.udp a) b s = s := by
  have hf : s.fer.net.collectors.find? (fun c => c.2 == a) = none :=
    List.find?_eq_none.mpr fun c hc => by simpa using h c hc
  unfold command
  split
  · rfl
  · simp only [hf]; split <;> rfl

@[simp] theorem mailboxPut_nil (s : State) : mailboxPut [] s = s := rfl

/-- What the mailbox takes stands in Ferryman's state only. -/
theorem mailboxPut_frame (b : Bytes) (s : State) : mailboxPut b s = { s with fer := (mailboxPut b s).fer } := by
  unfold mailboxPut
  generalize List.range ((b.length + 3) / 4) = l
  induction l generalizing s with
  | nil => rfl
  | cons i l ih => rw [List.foldl_cons, ih]

/-! ## Bodies: their fields, read back -/

theorem zeroAt_zeros {a : Bytes} {o n : Nat} (ho : o = a.length) : zeroAt (a ++ zeros n) [(o, n)] = true := by
  subst ho
  simp [zeroAt, leAt_append_right (Nat.le_refl _), leAt_zeros]

/-! ## The commands of power -/

theorem powerRequest_eq {s : State} (hq : s.fer.powerQ = []) (hw : powerWaits s = false) (want : Power) (source : Nat) :
    powerRequest want source s = powerTake { want := want, source := source } s := by
  have hs : ({ s with fer := { s.fer with powerQ := [] } } : State) = s := by rw [← hq]
  unfold powerRequest powerNext
  rw [hq]
  show powerQueue 1 _ = _
  rw [powerQueue, if_neg (by simpa [powerWaits] using hw)]
  simp only [List.nil_append, powerQueue]
  rw [hs]

theorem any_started {s : State} (h : ∃ n ∈ partNums, isStarted s n = true) : partNums.any (isStarted s) = true :=
  List.any_eq_true.mpr h

theorem none_started {s : State} (h : ¬∃ n ∈ partNums, isStarted s n = true) : partNums.any (isStarted s) = false := by
  rw [← Bool.not_eq_true]; exact fun hc => h (List.any_eq_true.mp hc)

/-- STANDBY is asked for while no partition runs. -/
theorem powerRequest_standby (hw : powerWaits s = false) (hq : s.fer.powerQ = []) (hp : s.fer.power = .active ∨ s.fer.power = .idle)
    (hst : ¬∃ n ∈ partNums, isStarted s n = true) (source : Nat) :
    powerRequest .standby source s = { s with fer := { s.fer with entering := some { want := .standby, source := source } } } := by
  have href : powerRefused s .standby = false := by unfold powerRefused; rw [none_started hst]; rfl
  have hne : Power.standby ≠ s.fer.power := by rcases hp with h | h <;> rw [h] <;> decide
  rw [powerRequest_eq hq hw, powerTake, if_neg hne, if_neg (by simp [href]), if_neg (by simp)]

theorem any_stopping {s : State} (h : ¬∃ n ∈ partNums, isStarted s n = true) (hs : ∀ n ∈ partNums, (getPart s n).st ≠ .stopping) :
    (partNums.any fun n => (getPart s n).st == .started || (getPart s n).st == .stopping) = false := by
  rw [List.any_eq_false]
  intro n hn hc
  have h1 : ¬isStarted s n = true := fun hc => h ⟨n, hn, hc⟩
  have h2 := hs n hn
  unfold isStarted at h1
  cases hp : (getPart s n).st <;> simp_all

/-! ## The commands over MCTP -/

section
variable {s : State} (hr : fmnRuns s = true)
include hr

theorem getEvents_mctp {n lo : Nat} (h1 : 1 ≤ n) (h40 : n ≤ 40) (hlo : lo < 2 ^ 64) :
    let l := ((s.fer.events.filter fun e => decide (lo ≤ e.seq.toNat)).reverse).take n
    exec (.getEvents .mctp (leBytes 8 lo ++ leBytes 1 n ++ zeros 7)) s = .next (emit (.mgmtReply .mctp 2 0
      (leBytes 8 (((l.head?).map fun e => e.seq.toNat).getD s.fer.evSeq.toNat) ++ leBytes 1 l.length ++ zeros 7 ++ (l.map eventBytes).flatten)) s) := by
  have hn : leAt (leBytes 8 lo ++ leBytes 1 n ++ zeros 7) 8 1 = n := by
    rw [leAt_append_left (by simp), leAt_append_right (by simp)]
    exact (leAt_leBytes 1 n).trans (Nat.mod_eq_of_lt (by omega))
  have hfrom : leAt (leBytes 8 lo ++ leBytes 1 n ++ zeros 7) 0 8 = lo := by
    rw [leAt_append_left (by simp), leAt_append_left (by simp)]
    exact (leAt_leBytes 8 lo).trans (Nat.mod_eq_of_lt hlo)
  have hz : zeroAt (leBytes 8 lo ++ leBytes 1 n ++ zeros 7) [(9, 7)] = true := zeroAt_zeros (by simp)
  have hlen : (leBytes 8 lo ++ leBytes 1 n ++ zeros 7).length = 16 := by simp
  show Host.Outcome.next (command 2 .mctp _ s) = _
  rw [command_mctp hr]
  generalize leBytes 8 lo ++ leBytes 1 n ++ zeros 7 = b at hn hfrom hz hlen
  have hok : (b.length != 16 || decide (n < 1) || decide (40 < n) || !zeroAt b [(9, 7)]) = false := by
    simp [hz, hlen]; omega
  simp only [runCommand, cmdGetEvents, hn, hfrom, hok]
  rfl

theorem getJournal_mctp {n lo : Nat} (h1 : 1 ≤ n) (h40 : n ≤ 40) (hlo : lo ≤ 4095) :
    let k := min n (4096 - lo)
    exec (.getJournal .mctp (leBytes 2 lo ++ leBytes 1 n ++ zeros 5)) s =
      .next (emit (.mgmtReply .mctp 3 0 (leBytes 2 lo ++ leBytes 1 k ++ zeros 5 ++ ((List.range k).map fun i => journalSlot s (lo + i)).flatten)) s) := by
  have hn : leAt (leBytes 2 lo ++ leBytes 1 n ++ zeros 5) 2 1 = n := by
    rw [leAt_append_left (by simp), leAt_append_right (by simp)]
    exact (leAt_leBytes 1 n).trans (Nat.mod_eq_of_lt (by omega))
  have hfrom : leAt (leBytes 2 lo ++ leBytes 1 n ++ zeros 5) 0 2 = lo := by
    rw [leAt_append_left (by simp), leAt_append_left (by simp)]
    exact (leAt_leBytes 2 lo).trans (Nat.mod_eq_of_lt (by omega))
  have hz : zeroAt (leBytes 2 lo ++ leBytes 1 n ++ zeros 5) [(3, 5)] = true := zeroAt_zeros (by simp)
  have hlen : (leBytes 2 lo ++ leBytes 1 n ++ zeros 5).length = 8 := by simp
  show Host.Outcome.next (command 3 .mctp _ s) = _
  rw [command_mctp hr]
  generalize leBytes 2 lo ++ leBytes 1 n ++ zeros 5 = b at hn hfrom hz hlen
  have hok : (b.length != 8 || decide (4095 < lo) || decide (n < 1) || decide (40 < n) || !zeroAt b [(3, 5)]) = false := by
    simp [hz, hlen]; omega
  simp only [runCommand, cmdGetJournal, hn, hfrom, hok]
  rfl

/-- DEEP is refused while a partition runs. -/
theorem setPower_mctp_refused (hw : powerWaits s = false) (hq : s.fer.powerQ = []) (hp : s.fer.power = .active ∨ s.fer.power = .idle)
    (hst : ∃ n ∈ partNums, isStarted s n = true) :
    exec (.setPower .mctp [2, 0, 0, 0]) s = .next (emit (.mgmtReply .mctp 4 2 []) { s with fer := { s.fer with refused := true } }) := by
  have href : powerRefused s .deep = true := by unfold powerRefused; rw [any_started hst]; rfl
  have hne : Power.deep ≠ s.fer.power := by rcases hp with h | h <;> rw [h] <;> decide
  show Host.Outcome.next (command 4 .mctp _ s) = _
  rw [command_mctp hr]
  show Host.Outcome.next (emit (.mgmtReply .mctp 4 (if !powerWaits s && s.fer.powerQ.isEmpty && (Power.deep != s.fer.power) && powerRefused s .deep then 2 else 0) [])
    (powerRequest .deep 1 s)) = _
  have hno : (!powerWaits s && s.fer.powerQ.isEmpty && (Power.deep != s.fer.power) && powerRefused s .deep) = true := by
    simp [hw, hq, href, hne]
  rw [if_pos hno, powerRequest_eq hq hw, powerTake, if_neg hne, if_pos href]
  simp

theorem setPower_mctp_standby (hw : powerWaits s = false) (hq : s.fer.powerQ = []) (hp : s.fer.power = .active ∨ s.fer.power = .idle)
    (hst : ¬∃ n ∈ partNums, isStarted s n = true) : exec (.setPower .mctp [3, 0, 0, 0]) s = .next (emit (.mgmtReply .mctp 4 0 [])
      { s with fer := { s.fer with entering := some { want := .standby, source := 1 } } }) := by
  have href : powerRefused s .standby = false := by unfold powerRefused; rw [none_started hst]; rfl
  show Host.Outcome.next (command 4 .mctp _ s) = _
  rw [command_mctp hr]
  show Host.Outcome.next (emit (.mgmtReply .mctp 4 (if !powerWaits s && s.fer.powerQ.isEmpty && (Power.standby != s.fer.power) && powerRefused s .standby then 2 else 0) [])
    (powerRequest .standby 1 s)) = _
  rw [if_neg (by simp [href]), powerRequest_standby hw hq hp hst]

theorem prepareSwap_mctp (hw : powerWaits s = false) (hq : s.fer.powerQ = []) (hp : s.fer.power = .active ∨ s.fer.power = .idle)
    (hst : ¬∃ n ∈ partNums, isStarted s n = true) (hs : ∀ n ∈ partNums, (getPart s n).st ≠ .stopping) :
    exec (.prepareSwap .mctp []) s = .next (emit (.mgmtReply .mctp 9 0 [])
        { s with fer := { s.fer with entering := some { want := .standby, source := 3 }, swapWanted := true } }) := by
  have hne : s.fer.power ≠ .standby := by rcases hp with h | h <;> rw [h] <;> decide
  show Host.Outcome.next (command 9 .mctp _ s) = _
  rw [command_mctp hr]
  have hrun : runCommand 9 [] s = ({}, powerRequest .standby 3 { s with fer := { s.fer with swapWanted := true } }) := by
    show cmdPrepareSwap [] s = _
    unfold cmdPrepareSwap
    rw [if_neg (by decide), if_neg (by rw [any_stopping hst hs]; decide), if_neg hne]
  rw [hrun]
  have := powerRequest_standby (s := { s with fer := { s.fer with swapWanted := true } }) hw hq hp hst 3
  rw [this]

theorem prepareSwap_mctp_refused (hst : ∃ n ∈ partNums, isStarted s n = true) :
    exec (.prepareSwap .mctp []) s = .next (emit (.mgmtReply .mctp 9 2 []) s) := by
  have hany : (partNums.any fun n => (getPart s n).st == .started || (getPart s n).st == .stopping) = true := by
    obtain ⟨n, hn, h⟩ := hst
    refine List.any_eq_true.mpr ⟨n, hn, ?_⟩
    unfold isStarted at h
    rw [h, Bool.true_or]
  show Host.Outcome.next (command 9 .mctp _ s) = _
  rw [command_mctp hr]
  have hrun : runCommand 9 [] s = ({ result := 2 }, s) := by
    show cmdPrepareSwap [] s = _
    unfold cmdPrepareSwap
    rw [if_neg (by decide), if_pos hany]
  rw [hrun]

theorem setLimit_mctp {w : Nat} (hw : w < 65536) : exec (.setLimit .mctp (leBytes 2 w ++ zeros 2)) s =
    .next (emit (.mgmtReply .mctp 6 0 (leBytes 2 (clampLimit w))) (putLimit w s)) := by
  have hat : leAt (leBytes 2 w ++ zeros 2) 0 2 = w := by
    rw [leAt_append_left (by simp)]
    exact (leAt_leBytes 2 w).trans (Nat.mod_eq_of_lt hw)
  have hz : zeroAt (leBytes 2 w ++ zeros 2) [(2, 2)] = true := zeroAt_zeros (by simp)
  have hlen : (leBytes 2 w ++ zeros 2).length = 4 := by simp
  show Host.Outcome.next (command 6 .mctp _ s) = _
  rw [command_mctp hr]
  generalize leBytes 2 w ++ zeros 2 = b at hat hz hlen
  have hok : (b.length != 4 || !zeroAt b [(2, 2)]) = false := by simp [hz, hlen]
  simp only [runCommand, cmdSetLimit, hok, hat]
  rfl

theorem setPtp_mctp {d v : Nat} (hd : d < 256) (hv : v = 4 ∨ v = 6) :
    exec (.setPtp .mctp [BitVec.ofNat 8 d, BitVec.ofNat 8 v, 0, 0]) s =
      .next (emit (.mgmtReply .mctp 8 0 []) { s with fer := { s.fer with ptpDomain := d, ptpV6 := v == 6 } }) := by
  have hd0 : leAt [BitVec.ofNat 8 d, BitVec.ofNat 8 v, 0, 0] 0 1 = d := by
    show (BitVec.ofNat 8 d).toNat + 256 * 0 = d
    rw [BitVec.toNat_ofNat]; omega
  have hv1 : leAt [BitVec.ofNat 8 d, BitVec.ofNat 8 v, 0, 0] 1 1 = v := by
    show (BitVec.ofNat 8 v).toNat + 256 * 0 = v
    rw [BitVec.toNat_ofNat]; omega
  have hz : zeroAt [BitVec.ofNat 8 d, BitVec.ofNat 8 v, 0, 0] [(2, 2)] = true := rfl
  show Host.Outcome.next (command 8 .mctp _ s) = _
  rw [command_mctp hr]
  have hlen : [BitVec.ofNat 8 d, BitVec.ofNat 8 v, 0, 0].length = 4 := rfl
  generalize [BitVec.ofNat 8 d, BitVec.ofNat 8 v, 0, 0] = b at hd0 hv1 hz hlen
  have hok : (b.length != 4 || !zeroAt b [(2, 2)] || !(v == 4 || v == 6)) = false := by rcases hv with h | h <;> simp [hz, hlen, h]
  simp only [runCommand, cmdSetPtp, hd0, hv1, hok]
  rfl

theorem getStatus_mctp : exec (.getStatus .mctp []) s = .next (emit (.mgmtReply .mctp 1 0 (statusBlock s)) s) := by
  show Host.Outcome.next (command 1 .mctp _ s) = _
  rw [command_mctp hr]
  rfl

theorem getStatus_mctp_invalid {b : Bytes} (h : b ≠ []) : exec (.getStatus .mctp b) s = .next (emit (.mgmtReply .mctp 1 3 []) s) := by
  have hlen : b.length ≠ 0 := fun hc => h (List.length_eq_zero_iff.mp hc)
  show Host.Outcome.next (command 1 .mctp _ s) = _
  rw [command_mctp hr]
  simp only [runCommand, cmdGetStatus, if_neg hlen]

theorem getEvents_mctp_invalid {b : Bytes} (h : b.length ≠ 16) : exec (.getEvents .mctp b) s = .next (emit (.mgmtReply .mctp 2 3 []) s) := by
  have hbad : (b.length != 16 || decide (leAt b 8 1 < 1) || decide (40 < leAt b 8 1) || !zeroAt b [(9, 7)]) = true := by simp [h]
  show Host.Outcome.next (command 2 .mctp _ s) = _
  rw [command_mctp hr]
  simp only [runCommand, cmdGetEvents, hbad, if_true]

/-- RESET of a partition is PART_RESET's bit of PRT_RESET. -/
theorem reset_mctp_part {n : Nat} (hn : n ∈ partNums) : exec (.reset .mctp [0, BitVec.ofNat 8 n, 0, 0]) s =
    .next (emit (.mgmtReply .mctp 5 0 []) (prtReset (BitVec.ofNat 32 (0xA5000000 + 2 ^ (n - 1))) s)) := by
  have h8 : 1 ≤ n ∧ n ≤ 8 := by
    simp only [partNums, List.mem_cons, List.not_mem_nil, or_false] at hn; omega
  have hk : leAt [0, BitVec.ofNat 8 n, 0, 0] 0 1 = 0 := rfl
  have hv : leAt [0, BitVec.ofNat 8 n, 0, 0] 1 1 = n := by
    show (BitVec.ofNat 8 n).toNat + 256 * 0 = n
    rw [BitVec.toNat_ofNat]; omega
  have hz : zeroAt [0, BitVec.ofNat 8 n, 0, 0] [(2, 2)] = true := rfl
  have hlen : [0, BitVec.ofNat 8 n, 0, 0].length = 4 := rfl
  show Host.Outcome.next (command 5 .mctp _ s) = _
  rw [command_mctp hr]
  generalize [0, BitVec.ofNat 8 n, 0, 0] = b at hk hv hz hlen
  have hrun : runCommand 5 b s = ({}, prtReset (BitVec.ofNat 32 (0xA5000000 + 2 ^ (n - 1))) s) := by
    show cmdReset b s = _
    unfold cmdReset
    dsimp only
    rw [hk, hv, if_neg (by simp [hz, hlen]; omega), if_pos rfl]
  rw [hrun]

theorem reset_mctp_warm (h : s.rst = none) (ht : s.fer.trip = none) (hp : s.fer.power ≠ .standby) :
    exec (.reset .mctp [1, 0, 0, 0]) s = .next (emit (.mgmtReply .mctp 5 0 []) (warmReset s)) := by
  have hw : warmAsked s = warmReset s := by
    rw [warmAsked, if_neg]
    simp [h, ht, hp]
  show Host.Outcome.next (command 5 .mctp _ s) = _
  rw [command_mctp hr, ← hw]
  rfl

/-- The network settings that a SET_NET body names. -/
def netOf (b : Bytes) : Net :=
  { ipv4 := sliceB b 0 4, ipv4Prefix := leAt b 4 1, ipv4Valid := bitOf (leAt b 5 1) 0, ipv4Gw := sliceB b 8 4
    ipv6 := sliceB b 16 16, ipv6Prefix := leAt b 32 1, ipv6Valid := bitOf (leAt b 5 1) 1, ipv6Gw := sliceB b 48 16
    port := if leAt b 6 2 = 0 then 20470 else leAt b 6 2
    collectors := ([64, 88, 112, 136].map (collectorAt b)).filter fun c => c.1 != 0 }

theorem setNet_mctp {b : Bytes} (hlen : b.length = 160) (h4 : leAt b 4 1 ≤ 32) (h5 : leAt b 5 1 < 4)
    (hz : zeroAt b [(12, 4), (33, 15)] = true) (h6 : leAt b 32 1 ≤ 128)
    (hkind : ∀ o ∈ [64, 88, 112, 136], leAt b o 1 = 0 ∨ leAt b o 1 = 4 ∨ leAt b o 1 = 6)
    (hpad : ∀ o ∈ [64, 88, 112, 136], zeroAt b [(o + 1, 3), (o + 20, 4)] = true ∧ (leAt b o 1 = 4 → zeroAt b [(o + 8, 12)] = true)) :
    exec (.setNet .mctp b) s = .next (emit (.mgmtReply .mctp 7 0 []) { s with fer := { s.fer with net := netOf b } }) := by
  have hrec : ([64, 88, 112, 136].any fun o => ! [0, 4, 6].contains (leAt b o 1) || !zeroAt b [(o + 1, 3), (o + 20, 4)] ||
      (leAt b o 1 == 4 && !zeroAt b [(o + 8, 12)])) = false := by
    rw [List.any_eq_false]
    intro o ho hc
    obtain ⟨hz1, hz2⟩ := hpad o ho
    rcases hkind o ho with h | h | h <;> simp [h, hz1, hz2] at hc
  have hok : (b.length != 160 || decide (32 < leAt b 4 1) || decide (4 ≤ leAt b 5 1) || !zeroAt b [(12, 4), (33, 15)] ||
      decide (128 < leAt b 32 1) || [64, 88, 112, 136].any fun o => ! [0, 4, 6].contains (leAt b o 1) ||
        !zeroAt b [(o + 1, 3), (o + 20, 4)] || (leAt b o 1 == 4 && !zeroAt b [(o + 8, 12)])) = false := by
    rw [hrec]; simp [hlen, hz]; omega
  show Host.Outcome.next (command 7 .mctp _ s) = _
  rw [command_mctp hr]
  have hrun : runCommand 7 b s = ({}, { s with fer := { s.fer with net := netOf b } }) := by
    show cmdSetNet b s = _
    unfold cmdSetNet
    exact if_neg (by rw [hok]; decide)
  rw [hrun]

/-- GET_STATUS in the mailbox. -/
theorem getStatus_mailbox (ho : HostOpen s 0) : ∃ t, exec (.getStatus .mailbox []) s = .next t ∧
    t.out = .mgmtReply .mailbox 1 0 (statusBlock s) :: s.out ∧ t.cores = s.cores ∧ t.parts = s.parts := by
  obtain ⟨hb, -, hreach⟩ := ho
  have hgo : pf0Reach s = true := by rw [pf0Reach, hb, hreach]; rfl
  have hexec : exec (.getStatus .mailbox []) s = .next (mailboxDone 1 { body := statusBlock s, first := s.fer.evSeq.toNat } (barAccess s)) := by
    show Host.Outcome.next (command 1 .mailbox [] s) = _
    simp only [command, hr, hgo, Bool.not_true, Bool.false_eq_true, if_false, if_true, mailboxPut_nil]
    rfl
  refine ⟨_, hexec, ?_⟩
  unfold mailboxDone
  dsimp only
  rw [mailboxPut_frame]
  exact ⟨rfl, rfl, rfl⟩

end

/-- A keyed write of one partition's bit stops that partition (R494). -/
theorem prtReset_part {s : State} {n : Nat} (hn : n ∈ partNums) (hst : (getPart s n).st = .started) :
    prtReset (BitVec.ofNat 32 (0xA5000000 + 2 ^ (n - 1))) s = notice n 1 (drainBegin n .partReset true false s) := by
  have hall : ∀ m ∈ partNums, let v := (BitVec.ofNat 32 (0xA5000000 + 2 ^ (m - 1)) : Word).toNat
      (bitsOf v 24 8 != 0xA5) = false ∧ bitOf v 9 = false ∧ bitOf v 8 = false ∧ (partNums.filter fun j => bitOf v (j - 1)) = [m] := by decide
  obtain ⟨hkey, h9, h8, hsel⟩ := hall n hn
  unfold prtReset
  simp only [hkey, h9, h8, hsel, Bool.false_eq_true, if_false, List.foldl_cons, List.foldl_nil, hst]

/-- Settles O54, command by command. -/
theorem ferrymanCommands : Obligations.FerrymanCommands := by
  unfold Obligations.FerrymanCommands
  refine ⟨fun s hr => ?_, fun s p b hoff => ⟨congrArg Host.Outcome.next (command_off hoff ..), congrArg Host.Outcome.next (command_off hoff ..)⟩⟩
  refine ⟨getStatus_mctp hr, fun b hb => getStatus_mctp_invalid hr hb, fun n lo h1 h40 hlo => ?_, fun b hb => getEvents_mctp_invalid hr hb,
    fun n lo h1 h40 hlo => getJournal_mctp hr h1 h40 hlo, fun hw hq hp => ⟨setPower_mctp_refused hr hw hq hp, setPower_mctp_standby hr hw hq hp,
      prepareSwap_mctp hr hw hq hp⟩, prepareSwap_mctp_refused hr, fun n hn hst => ?_, fun h ht hp => ?_, fun w hw => setLimit_mctp hr hw,
    fun b hlen h4 h5 hz h6 hkind hpad => ⟨_, setNet_mctp hr hlen h4 h5 hz h6 hkind hpad, rfl, rfl, rfl, rfl, rfl⟩,
    fun d v hd hv => setPtp_mctp hr hd hv, getStatus_mailbox hr,
    fun a b => ⟨congrArg Host.Outcome.next (command_udp_notQuery (by decide) ..), congrArg Host.Outcome.next (command_udp_notQuery (by decide) ..),
      congrArg Host.Outcome.next (command_udp_notQuery (by decide) ..)⟩,
    fun a ha => congrArg Host.Outcome.next (command_udp_stranger ha ..)⟩
  · have h := getEvents_mctp hr h1 h40 hlo
    dsimp only at h ⊢
    rw [h]
    cases ((s.fer.events.filter fun e => decide (lo ≤ e.seq.toNat)).reverse).take n <;> rfl
  · refine ⟨_, reset_mctp_part hr hn, ?_, rfl⟩
    rw [prtReset_part hn hst]
    show (getPart (notice n 1 _) n).st = .stopping
    rw [getPart, notice_parts]
    exact drainBegin_stopping hst ..
  · exact ⟨_, reset_mctp_warm hr h ht hp, rst_warmReset s, parts_warmReset s, rfl⟩

end Sys2Proof.Machine
end

section
/-!
PROOFS. Boots: what the stages of a cold boot, the work on HBM at a reset and the power requests that follow leave as it was, seen in the
state without what a boot may change (`bootRest`); which of its two ends a cold boot takes.
-/
namespace Sys2Proof.Machine

/-- The state without what a boot may change: registers, the link, ports, the stacks and what lies in them, the slots and the stage
of the security block, and Ferryman's power state, events, queued repairs and service bits. -/
def bootRest (s : State) : State :=
  { s with
    regs := [], bootTime := 0, rst := none, link := {}, fab := { s.fab with ports := [] }
    mem := { s.mem with hbm := [], lines := [], hbmStacks := [] }
    sec := { s.sec with slots := [], stage := 0, held := false, aliasFrom := [] }
    fer := { s.fer with power := .active, entering := none, powerQ := [], refused := false, swapWanted := false, events := [], evSeq := 0
                        fuseQ := [], service := 0, serviceCond := 0, moduleReplace := false } }

/-- What `bootRest` shows of two states that agree in it. -/
theorem of_bootRest {α : Type} (f : State → α) (hf : ∀ s, f (bootRest s) = f s) {s t : State} (h : bootRest t = bootRest s) : f t = f s := by
  rw [← hf t, h, hf]

theorem bootRest_foldl {α : Type} {f : State → α → State} (h : ∀ s x, bootRest (f s x) = bootRest s) (l : List α) (s : State) :
    bootRest (l.foldl f s) = bootRest s := by
  induction l generalizing s with
  | nil => rfl
  | cons x l ih => exact (ih (f s x)).trans (h s x)

section
variable (s : State)

@[simp] theorem bootRest_postEvent (e : Ev) : bootRest (postEvent e s) = bootRest s := rfl
@[simp] theorem bootRest_queueRepair (c w : Nat) : bootRest (queueRepair c w s) = bootRest s := rfl
@[simp] theorem bootRest_setReg (k : Nat) (v : Word) : bootRest (setReg k v s) = bootRest s := rfl
@[simp] theorem bootRest_orReg (k : Nat) (v : Word) : bootRest (orReg k v s) = bootRest s := rfl
@[simp] theorem bootRest_updStack (k : Nat) (f : Stack → Stack) : bootRest (updStack k f s) = bootRest s := rfl
@[simp] theorem bootRest_memEvent (bit st : Nat) : bootRest (memEvent bit st s) = bootRest s := rfl
@[simp] theorem bootRest_bootRecord (stage r slot : Nat) : bootRest (bootRecord stage r slot s) = bootRest s := rfl
@[simp] theorem bootRest_bootHeld (stage : Nat) : bootRest (bootHeld stage s) = bootRest s := rfl
@[simp] theorem bootRest_retireStack (k : Nat) : bootRest (retireStack k s) = bootRest s := by
  unfold retireStack
  extract_lets u v cut
  have hv : bootRest v = bootRest s := by
    simp only [v, u, bootRest_queueRepair, bootRest_memEvent, bootRest_postEvent, bootRest_updStack]
  clear_value v
  exact hv

@[simp] theorem bootRest_verifyStage (stage c : Nat) : bootRest (verifyStage stage c s).2 = bootRest s := by
  unfold verifyStage; split <;> rfl

@[simp] theorem bootRest_commitSvn (c : Nat) : bootRest (commitSvn c s) = bootRest s := by
  obtain ⟨q, h⟩ := commitSvn_frame c s
  rw [h]; rfl

@[simp] theorem bootRest_harden : bootRest (harden s) = bootRest s := by
  unfold harden
  refine bootRest_foldl (fun s k => ?_) _ s
  dsimp only
  rw [bootRest_updStack]
  refine bootRest_foldl (fun _ _ => ?_) _ s
  rfl

@[simp] theorem bootRest_setPower (p : Power) (source : Nat) : bootRest (setPower p source s) = bootRest s := by
  unfold setPower; split <;> rfl

@[simp] theorem bootRest_powerTake (r : PowerReq) : bootRest (powerTake r s) = bootRest s := by
  unfold powerTake
  split
  · rfl
  · split
    · rfl
    · split
      · exact bootRest_setPower ..
      · rfl

end

@[simp] theorem bootRest_powerQueue (n : Nat) (s : State) : bootRest (powerQueue n s) = bootRest s := by
  induction n generalizing s with
  | zero => rfl
  | succ n ih =>
    rw [powerQueue]
    split
    · rfl
    · split
      · rfl
      · exact (ih _).trans (bootRest_powerTake ..)

@[simp] theorem bootRest_powerNext (s : State) : bootRest (powerNext s) = bootRest s := bootRest_powerQueue ..

theorem bootRest_bootEnds (s : State) : bootRest (bootEnds s) = bootRest s := by
  unfold bootEnds
  extract_lets u v
  exact (bootRest_powerNext _).trans (bootRest_setPower ..)

/-- A module to be replaced, once the device is in reset. -/
theorem moduleReplace_of_rst {s : State} (h : s.rst.isSome = true) (cause : Nat) :
    moduleReplace cause s = postEvent { kind := 0x17, detail := cause } { s with fer := { s.fer with moduleReplace := true } } := by
  rw [moduleReplace, if_pos h]

/-! ## The resets that a boot keeps running -/

theorem rst_foldl {α : Type} {f : State → α → State} (h : ∀ s x, (f s x).rst = s.rst) (l : List α) (s : State) :
    (l.foldl f s).rst = s.rst := by
  induction l generalizing s with
  | nil => rfl
  | cons x l ih => exact (ih (f s x)).trans (h s x)

@[simp] theorem verifyStage_rst (stage c : Nat) (s : State) : (verifyStage stage c s).2.rst = s.rst := by
  unfold verifyStage; split <;> rfl

@[simp] theorem commitSvn_rst (c : Nat) (s : State) : (commitSvn c s).rst = s.rst := by
  obtain ⟨q, h⟩ := commitSvn_frame c s
  rw [h]

@[simp] theorem harden_rst (s : State) : (harden s).rst = s.rst := by
  unfold harden
  refine rst_foldl (fun s k => ?_) _ s
  dsimp only
  rw [updStack_rst]
  refine rst_foldl (fun _ _ => ?_) _ s
  rfl

@[simp] theorem retireStack_rst (k : Nat) (s : State) : (retireStack k s).rst = s.rst := by
  unfold retireStack; rfl

/-! ## Stages of a cold boot -/

/-- Stage 1 of a cold boot: the debug level of an unlock, the count of boots, the strap for PTP, FERRYMAN's rollback counter. -/
def bootStart (s : State) : State :=
  let level := if s.sec.debugDisable then 0 else s.sec.dbgLevel.getD 0
  let s := { s with sec := { s.sec with stage := 1, debug := level, dbgLevel := none }
                    fer := { s.fer with boots := s.fer.boots + 1 } }
  commitSvn 2 (if bitOf s.brd.straps.toNat 3 then orReg bGzl 0x100 s else s)

/-- Stage 4: the alias key, BOOT's rollback counter, and the work on HBM. -/
def bootStacks (s : State) : State :=
  let s := { s with sec := { s.sec with aliasFrom := aliasInput s } }
  let due := (activeStacks s).filter fun k => (getStack s k).failed || (getStack s k).st == .retirePending
  due.foldl (fun s k => retireStack k s) (harden (commitSvn 0 s))

/-- The end of a cold boot, after which no service bit stands whose condition has gone. -/
def bootDone (s : State) : State :=
  let s := bootEnds (commitSvn 1 s)
  { s with fer := { s.fer with service := s.fer.service &&& serviceNow s } }

theorem coldBoot_eq {s : State} (h : s.brd.fref = true) : coldBoot s =
    let b := verifyStage 2 0 (bootStart s)
    if !b.1 then bootHeld 1 b.2
    else
      let c := verifyStage 3 1 b.2
      if !c.1 then bootHeld 2 c.2
      else if tooFewStacks (bootStacks c.2) then moduleReplace 1 (bootHeld 3 (bootStacks c.2)) else bootDone (bootStacks c.2) := by
  unfold coldBoot bootDone bootStacks bootStart
  rw [h, Bool.not_true, if_neg Bool.false_ne_true]

theorem coldBoot_noFref {s : State} (h : s.brd.fref = false) :
    coldBoot s = bootRecord 1 2 0 { s with rst := some { cold := true, since := s.clock, waitFref := true } } := by
  unfold coldBoot
  rw [h]; rfl

/-- What stage 1 sets that lasts: the debug level and the count of boots. -/
def booted (s : State) : State :=
  { s with sec := { s.sec with debug := if s.sec.debugDisable then 0 else s.sec.dbgLevel.getD 0, dbgLevel := none }
           fer := { s.fer with boots := s.fer.boots + 1 } }

theorem bootRest_bootStart (s : State) : bootRest (bootStart s) = bootRest (booted s) := by
  unfold bootStart
  extract_lets level u
  rw [bootRest_commitSvn]
  split <;> rfl

theorem bootRest_bootStacks (s : State) : bootRest (bootStacks s) = bootRest s := by
  unfold bootStacks
  extract_lets u due
  rw [bootRest_foldl fun _ _ => bootRest_retireStack .., bootRest_harden, bootRest_commitSvn]
  rfl

theorem bootRest_bootDone (s : State) : bootRest (bootDone s) = bootRest s := by
  unfold bootDone
  extract_lets u
  have hu : bootRest u = bootRest s := (bootRest_bootEnds _).trans (bootRest_commitSvn ..)
  clear_value u
  exact hu

theorem bootStacks_rst (s : State) : (bootStacks s).rst = s.rst := by
  unfold bootStacks
  extract_lets u due
  rw [rst_foldl fun _ _ => retireStack_rst .., harden_rst, commitSvn_rst]

theorem bootStart_rst (s : State) : (bootStart s).rst = s.rst := by
  unfold bootStart
  extract_lets level u
  rw [commitSvn_rst]
  split <;> rfl

/-- A cold boot, once the reference clock runs. -/
theorem bootRest_coldBoot {s : State} (h : s.brd.fref = true) (hr : s.rst.isSome = true) : bootRest (coldBoot s) = bootRest (booted s) := by
  have hb : bootRest (verifyStage 2 0 (bootStart s)).2 = bootRest (booted s) := (bootRest_verifyStage ..).trans (bootRest_bootStart s)
  have hbr : (verifyStage 2 0 (bootStart s)).2.rst = s.rst := (verifyStage_rst ..).trans (bootStart_rst s)
  rw [coldBoot_eq h]
  generalize verifyStage 2 0 (bootStart s) = b at hb hbr
  have hc : bootRest (verifyStage 3 1 b.2).2 = bootRest (booted s) := (bootRest_verifyStage ..).trans hb
  have hcr : (verifyStage 3 1 b.2).2.rst = s.rst := (verifyStage_rst ..).trans hbr
  dsimp only
  generalize verifyStage 3 1 b.2 = c at hc hcr
  have hu : bootRest (bootStacks c.2) = bootRest (booted s) := (bootRest_bootStacks _).trans hc
  have hur : (bootStacks c.2).rst = s.rst := (bootStacks_rst _).trans hcr
  generalize bootStacks c.2 = u at hu hur
  split
  · exact hb
  · split
    · exact hc
    · split
      · rw [moduleReplace_of_rst (by rw [show (bootHeld 3 u).rst = u.rst from rfl, hur, hr])]
        exact hu
      · exact (bootRest_bootDone u).trans hu

/-! ## A memory that holds nothing -/

/-- No byte of memory and no line of the cache is listed. -/
def NoBytes (s : State) : Prop := s.mem.hbm = [] ∧ s.mem.lines = []

theorem NoBytes.congr {s t : State} (h : NoBytes s) (hmem : t.mem = s.mem) : NoBytes t := by rw [NoBytes, hmem]; exact h

theorem NoBytes.foldl {α : Type} {f : State → α → State} (h : ∀ s x, NoBytes s → NoBytes (f s x)) (l : List α) {s : State} (hs : NoBytes s) :
    NoBytes (l.foldl f s) := by
  induction l generalizing s with
  | nil => exact hs
  | cons x l ih => exact ih (h s x hs)

theorem NoBytes.updStack {s : State} (h : NoBytes s) (k : Nat) (f : Stack → Stack) : NoBytes (updStack k f s) := h

theorem memByte_of_noBytes {s : State} (h : NoBytes s) (hf : s.mem.fresh = []) (a : Nat) : memByte s a = 0 := by
  obtain ⟨hh, hl⟩ := h
  unfold memByte getLine hbmByte hbmDflt
  rw [hl, hh, hf]; rfl

@[simp] theorem verifyStage_mem (stage c : Nat) (s : State) : (verifyStage stage c s).2.mem = s.mem := by
  unfold verifyStage; split <;> rfl

@[simp] theorem commitSvn_mem (c : Nat) (s : State) : (commitSvn c s).mem = s.mem := by
  obtain ⟨q, h⟩ := commitSvn_frame c s
  rw [h]

theorem mem_foldl {α : Type} {f : State → α → State} (h : ∀ s x, (f s x).mem = s.mem) (l : List α) (s : State) :
    (l.foldl f s).mem = s.mem := by
  induction l generalizing s with
  | nil => rfl
  | cons x l ih => exact (ih (f s x)).trans (h s x)

theorem NoBytes.harden {s : State} (h : NoBytes s) : NoBytes (harden s) := by
  unfold Machine.harden
  refine NoBytes.foldl (fun s k hs => ?_) _ h
  refine NoBytes.updStack (NoBytes.congr hs ?_) _ _
  refine mem_foldl (fun _ _ => ?_) _ s
  rfl

theorem NoBytes.retireStack {s : State} (h : NoBytes s) (k : Nat) : NoBytes (retireStack k s) := by
  unfold Machine.retireStack
  extract_lets u v cut
  have hv : NoBytes v := NoBytes.congr (NoBytes.updStack h k _) rfl
  clear_value v
  exact ⟨by show v.mem.hbm.filter _ = []; rw [hv.1]; rfl, by show v.mem.lines.filter _ = []; rw [hv.2]; rfl⟩

@[simp] theorem setPower_mem (p : Power) (source : Nat) (s : State) : (setPower p source s).mem = s.mem := by
  unfold setPower; split <;> rfl

@[simp] theorem powerTake_mem (r : PowerReq) (s : State) : (powerTake r s).mem = s.mem := by
  unfold powerTake
  (repeat' split) <;> simp

@[simp] theorem powerQueue_mem (n : Nat) (s : State) : (powerQueue n s).mem = s.mem := by
  induction n generalizing s with
  | zero => rfl
  | succ n ih =>
    rw [powerQueue]
    split
    · rfl
    · split
      · rfl
      · rw [ih, powerTake_mem]

@[simp] theorem bootEnds_mem (s : State) : (bootEnds s).mem = s.mem := by
  unfold bootEnds
  extract_lets u v
  exact (powerQueue_mem ..).trans (setPower_mem ..)

theorem NoBytes.bootStacks {s : State} (h : NoBytes s) : NoBytes (bootStacks s) := by
  unfold Machine.bootStacks
  extract_lets u due
  exact NoBytes.foldl (fun _ k hs => hs.retireStack k) _ (NoBytes.harden (h.congr (by rw [commitSvn_mem])))

@[simp] theorem bootStart_mem (s : State) : (bootStart s).mem = s.mem := by
  unfold bootStart
  extract_lets level u
  rw [commitSvn_mem]
  split <;> rfl

@[simp] theorem bootDone_mem (s : State) : (bootDone s).mem = s.mem := by
  unfold bootDone
  extract_lets u
  exact (bootEnds_mem _).trans (commitSvn_mem ..)

theorem NoBytes.coldBoot {s : State} (h : NoBytes s) (hr : s.rst.isSome = true) : NoBytes (coldBoot s) := by
  cases hf : s.brd.fref with
  | false => rw [coldBoot_noFref hf]; exact h
  | true =>
    have hb : NoBytes (verifyStage 2 0 (bootStart s)).2 := h.congr (by simp)
    have hbr : (verifyStage 2 0 (bootStart s)).2.rst = s.rst := (verifyStage_rst ..).trans (bootStart_rst s)
    rw [coldBoot_eq hf]
    generalize verifyStage 2 0 (bootStart s) = b at hb hbr
    have hc : NoBytes (verifyStage 3 1 b.2).2 := hb.congr (by simp)
    have hcr : (verifyStage 3 1 b.2).2.rst = s.rst := (verifyStage_rst ..).trans hbr
    dsimp only
    generalize verifyStage 3 1 b.2 = c at hc hcr
    have hu : NoBytes (Machine.bootStacks c.2) := hc.bootStacks
    have hur : (Machine.bootStacks c.2).rst = s.rst := (bootStacks_rst _).trans hcr
    generalize Machine.bootStacks c.2 = u at hu hur
    split
    · exact hb
    · split
      · exact hc
      · split
        · rw [moduleReplace_of_rst (by rw [show (bootHeld 3 u).rst = u.rst from rfl, hur, hr])]
          exact hu
        · exact hu.congr (bootDone_mem u)

/-! ## A cold reset -/

theorem coldClear_noBytes (s : State) : NoBytes (coldClear s) := ⟨rfl, rfl⟩

theorem coldClear_rst (s : State) : (coldClear s).rst.isSome = true := rfl

theorem back_resetEnds (s : State) : back (resetEnds s) = back s := by
  unfold resetEnds
  extract_lets u
  have hu : back u = back s := back_foldl (fun _ _ => back_stepLost ..) _ s
  clear_value u
  exact hu

/-- The state that a clearing starts from, but for its power requests. -/
theorem powerRequeue_frame (s : State) : ∃ e q, powerRequeue s = { s with fer := { s.fer with entering := e, powerQ := q } } := by
  unfold powerRequeue
  split
  · exact ⟨_, _, rfl⟩
  · exact ⟨_, _, rfl⟩

/-- A descriptor in flight has ended. -/
theorem not_live_resetEnds {s : State} {d : Desc} (h : d ∈ (resetEnds s).descs) : d.live = false := by
  obtain ⟨e, -, rfl⟩ := List.mem_map.mp h
  split
  · rfl
  · next h => exact Bool.eq_false_iff.mpr h

/-- What a cold clearing leaves of the state (R486): nothing of the partitions, cores, rings and memory; the journal; EPOCH raised. -/
structure ColdCleared (s t : State) : Prop where
  parts : t.parts = []
  cores : t.cores = []
  rings : t.rings = []
  journal : t.journal = s.journal
  epoch : t.fer.epoch = s.fer.epoch + 1
  trip : t.fer.trip = none
  fuses : t.fer.fuses = s.fer.fuses
  svn : t.sec.svn = s.sec.svn
  nonceLive : t.sec.nonceLive = false
  clock : t.clock = s.clock
  brd : t.brd = { s.brd with thermtrip := false }
  dead : ∀ d ∈ t.descs, d.live = false
  noBytes : NoBytes t
  fresh : t.mem.fresh = []

theorem ColdCleared.memByte {s t : State} (h : ColdCleared s t) (a : Nat) : memByte t a = 0 := memByte_of_noBytes h.noBytes h.fresh a

theorem coldClear_cleared (s : State) : ColdCleared s (coldClear s) := by
  obtain ⟨e, q, h⟩ := powerRequeue_frame (resetEnds s)
  have hb := back_resetEnds s
  have hdead : ∀ d ∈ (resetEnds s).descs, d.live = false := fun _ hd => not_live_resetEnds hd
  unfold coldClear
  rw [h]
  generalize resetEnds s = u at hb hdead
  have hj : u.journal = s.journal := of_back State.journal (fun _ => rfl) hb
  have he : u.fer.epoch = s.fer.epoch := of_back (fun x : State => x.fer.epoch) (fun _ => rfl) hb
  have hf : u.fer.fuses = s.fer.fuses := of_back (fun x : State => x.fer.fuses) (fun _ => rfl) hb
  have hs : u.sec = s.sec := of_back State.sec (fun _ => rfl) hb
  have hc : u.clock = s.clock := of_back State.clock (fun _ => rfl) hb
  have hbrd : u.brd = s.brd := of_back State.brd (fun _ => rfl) hb
  exact ⟨rfl, rfl, rfl, hj, by show u.fer.epoch + 1 = _; rw [he], rfl, hf, by show u.sec.svn = _; rw [hs], rfl, hc,
    by show { u.brd with thermtrip := false } = _; rw [hbrd], hdead, ⟨rfl, rfl⟩, rfl⟩

/-- What a boot may change does not matter to a cold clearing. -/
theorem ColdCleared.of_bootRest {s u t : State} (h : ColdCleared s u) (ht : bootRest t = bootRest u) (hm : NoBytes t) : ColdCleared s t where
  parts := (congrArg State.parts ht).trans h.parts
  cores := (congrArg State.cores ht).trans h.cores
  rings := (congrArg State.rings ht).trans h.rings
  journal := (congrArg State.journal ht).trans h.journal
  epoch := (congrArg (fun x : State => x.fer.epoch) ht).trans h.epoch
  trip := (congrArg (fun x : State => x.fer.trip) ht).trans h.trip
  fuses := (congrArg (fun x : State => x.fer.fuses) ht).trans h.fuses
  svn := (congrArg (fun x : State => x.sec.svn) ht).trans h.svn
  nonceLive := (congrArg (fun x : State => x.sec.nonceLive) ht).trans h.nonceLive
  clock := (congrArg State.clock ht).trans h.clock
  brd := (congrArg State.brd ht).trans h.brd
  dead := fun d hd => h.dead d ((congrArg State.descs ht) ▸ hd)
  noBytes := hm
  fresh := (congrArg (fun x : State => x.mem.fresh) ht).trans h.fresh

/-- A cold boot after a clearing keeps it. -/
theorem ColdCleared.coldBoot {s u : State} (h : ColdCleared s u) (hr : u.rst.isSome = true) : ColdCleared s (coldBoot u) := by
  have hm : NoBytes (Machine.coldBoot u) := h.noBytes.coldBoot hr
  cases hf : u.brd.fref with
  | false => exact h.of_bootRest (by rw [coldBoot_noFref hf]; rfl) hm
  | true =>
    have hbooted : ColdCleared s (booted u) := ⟨h.parts, h.cores, h.rings, h.journal, h.epoch, h.trip, h.fuses, h.svn, h.nonceLive, h.clock, h.brd,
      h.dead, h.noBytes, h.fresh⟩
    exact hbooted.of_bootRest (bootRest_coldBoot hf hr) hm

/-- A cold reset out of STANDBY and without a thermal trip clears the device, whether or not something bars the boot. -/
theorem coldReset_eq {s : State} (hp : s.fer.power ≠ .standby) (ht : s.fer.trip = none) :
    coldReset s = if resetBarred s then coldClear s else coldBoot (coldClear s) := by
  unfold coldReset
  rw [if_neg hp, ht]

theorem coldReset_cleared {s : State} (hp : s.fer.power ≠ .standby) (ht : s.fer.trip = none) : ColdCleared s (coldReset s) := by
  rw [coldReset_eq hp ht]
  split
  · exact coldClear_cleared s
  · exact (coldClear_cleared s).coldBoot (coldClear_rst s)

/-- What a cold clearing keeps of the security block. -/
theorem coldClear_sec (s : State) : (coldClear s).sec =
    { flash := s.sec.flash, slots := s.sec.slots, svn := s.sec.svn, revoked := s.sec.revoked, keyHashes := s.sec.keyHashes
      debugDisable := s.sec.debugDisable, ferryRecovery := s.sec.ferryRecovery, dbgLevel := s.sec.dbgLevel, stage := 0 } := by
  obtain ⟨e, q, h⟩ := powerRequeue_frame (resetEnds s)
  have hb := back_resetEnds s
  unfold coldClear
  rw [h]
  generalize resetEnds s = u at hb
  have hs : u.sec = s.sec := of_back State.sec (fun _ => rfl) hb
  rw [← hs]

end Sys2Proof.Machine
end

section
/-!
PROOFS. O56: the order of SPDM requests, sessions and the keys of IDE streams, the signatures that responses wait for, and the debug unlock.
-/
namespace Sys2Proof.Machine

/-! ## Responses -/

/-- A response waits while its mailbox waits for a signature, and else leaves (R533). -/
theorem respond_eq (fn : Nat) (m : Bytes) (x : State) : respond fn m x =
    if (∃ q ∈ x.sec.signQ, q.fn = fn) then { x with sec := { x.sec with signQ := x.sec.signQ ++ [{ fn := fn, slot := none, msg := m }] } }
    else { x with out := .doe fn m :: x.out, sec := { x.sec with chunksOut := Tbl.set [] x.sec.chunksOut fn m } } := by
  have hiff : (x.sec.signQ.any fun q => q.fn == fn) = true ↔ ∃ q ∈ x.sec.signQ, q.fn = fn := by
    simp [List.any_eq_true]
  unfold respond
  by_cases h : ∃ q ∈ x.sec.signQ, q.fn = fn
  · rw [if_pos (hiff.mpr h), if_pos h]; rfl
  · rw [if_neg (mt hiff.mp h), if_neg h]; rfl

/-- A response leaves what the sessions are. -/
theorem respond_updSession (fn k n : Nat) (m : Bytes) (f : Session → Session) (s : State) :
    respond k m (updSession fn n f s) = updSession fn n f (respond k m s) := by
  unfold respond
  rw [show (updSession fn n f s).sec.signQ = s.sec.signQ from rfl]
  by_cases h : (s.sec.signQ.any fun q => q.fn == k) = true
  · rw [if_pos h, if_pos h]; rfl
  · rw [if_neg h, if_neg h]; rfl

theorem spdmAnswer_eq {s : State} {fn : Nat} (h : doeOpen s fn = true) (need : Nat) (answer : State → State) :
    spdmAnswer fn need answer s = .next (if need ≤ spdmStage s fn then answer s else respond fn (Config.standardReply 0x7F [] []) s) := if_pos h

/-! ## Sessions -/

theorem inSession_eq {s : State} {fn n : Nat} (h : doeOpen s fn = true) {x : Session} (hx : findSession s fn n = some x) (o : Bool)
    (answer : Session → State → State) :
    inSession fn n o answer s = .next (if x.opened = o then answer x s else respond fn (Config.standardReply 0x7F [] []) s) := by
  unfold inSession
  rw [if_pos h, hx]; rfl

theorem inSession_none {s : State} {fn n : Nat} (h : doeOpen s fn = true) (hx : findSession s fn n = none) (o : Bool)
    (answer : Session → State → State) : inSession fn n o answer s = .next (respond fn (Config.standardReply 0x7F [] []) s) := by
  unfold inSession
  rw [if_pos h, hx]; rfl

/-- A request to a session that is not there, or not at the request's stage, is an error. -/
theorem inSession_refused {s : State} {fn n : Nat} (h : doeOpen s fn = true) {o : Bool}
    (hx : findSession s fn n = none ∨ ∃ x, findSession s fn n = some x ∧ x.opened = !o) (answer : Session → State → State) :
    inSession fn n o answer s = .next (respond fn (Config.standardReply 0x7F [] []) s) := by
  obtain hx | ⟨x, hx, ho⟩ := hx
  · exact inSession_none h hx o answer
  · rw [inSession_eq h hx, if_neg (by rw [ho]; cases o <;> decide)]

theorem findSession_mine {s : State} {fn n : Nat} {x : Session} (h : findSession s fn n = some x) : x.fn = fn ∧ x.num = n := by
  have := List.find?_some h
  simpa using this

theorem updSession_eq (fn n : Nat) (f : Session → Session) (s : State) : updSession fn n f s =
    { s with sec := { s.sec with sessions := s.sec.sessions.map fun y => if y.fn = fn ∧ y.num = n then f y else y } } := by
  have hf : (fun y : Session => if (decide (y.fn = fn) && decide (y.num = n)) = true then f y else y) =
      fun y => if y.fn = fn ∧ y.num = n then f y else y := by
    funext y
    simp only [Bool.and_eq_true, decide_eq_true_eq]
  unfold updSession
  rw [hf]; rfl

theorem updSession_updSession {fn n : Nat} {g : Session → Session} (hg : ∀ y, (g y).fn = y.fn ∧ (g y).num = y.num)
    (f : Session → Session) (s : State) : updSession fn n f (updSession fn n g s) = updSession fn n (fun y => f (g y)) s := by
  rw [updSession_eq, updSession_eq, updSession_eq]
  simp only [List.map_map]
  have hmap : ((fun y => if y.fn = fn ∧ y.num = n then f y else y) ∘ fun y => if y.fn = fn ∧ y.num = n then g y else y) =
      fun y => if y.fn = fn ∧ y.num = n then f (g y) else y := by
    funext y
    by_cases h : y.fn = fn ∧ y.num = n
    · simp [h, hg y]
    · simp [h]
  rw [hmap]

theorem respondSealed_eq {s z : State} {fn n : Nat} {x : Session} (h : findSession s fn n = some x) (m : Bytes) :
    respondSealed x m z = respond fn (Config.seal x.key x.seq m) (updSession fn n (fun y => { y with seq := y.seq + 1 }) z) := by
  obtain ⟨h1, h2⟩ := findSession_mine h
  unfold respondSealed
  rw [h1, h2]

section
variable {s : State} {fn n : Nat} (hopen : doeOpen s fn = true) {x : Session} (hx : findSession s fn n = some x)
include hopen hx

theorem exec_finish (ho : x.opened = false) (req : Bytes) : exec (.finish fn n req) s = .next (respond fn
    (Config.seal x.key x.seq (Config.standardReply 0x65 req [])) (updSession fn n (fun y => { y with opened := true, seq := y.seq + 1 }) s)) := by
  show execFinish fn n req s = _
  unfold execFinish
  rw [inSession_eq hopen hx, if_pos ho, respondSealed_eq hx,
    updSession_updSession (g := fun y => { y with opened := true }) (fun _ => ⟨rfl, rfl⟩)]

theorem exec_keyUpdate (ho : x.opened = true) (req : Bytes) : exec (.keyUpdate fn n req) s = .next (respond fn
    (Config.seal x.key x.seq (Config.standardReply 0x69 req []))
    (updSession fn n (fun y => { y with key := Config.deriveKey 2 x.key, seq := 0 }) s)) := by
  show execKeyUpdate fn n req s = _
  unfold execKeyUpdate
  rw [inSession_eq hopen hx, if_pos ho, respondSealed_eq hx, ← respond_updSession,
    updSession_updSession (g := fun y => { y with seq := y.seq + 1 }) (fun _ => ⟨rfl, rfl⟩)]

theorem exec_heartbeat (ho : x.opened = true) : exec (.heartbeat fn n) s = .next (respond fn
    (Config.seal x.key x.seq (Config.standardReply 0x68 [] [])) (updSession fn n (fun y => { y with seq := y.seq + 1 }) s)) := by
  show execHeartbeat fn n s = _
  unfold execHeartbeat
  rw [inSession_eq hopen hx, if_pos ho, respondSealed_eq hx]

end

/-- The sessions that are left when one ends. -/
def otherSessions (fn n : Nat) (l : List Session) : List Session := l.filter fun z => !(z.fn == fn && z.num == n)

theorem mem_otherSessions {fn n : Nat} {l : List Session} {y : Session} : y ∈ otherSessions fn n l ↔ y ∈ l ∧ ¬(y.fn = fn ∧ y.num = n) := by
  simp only [otherSessions, List.mem_filter, Bool.not_eq_true', Bool.and_eq_false_iff, beq_eq_false_iff_ne, not_and_or, ne_eq]

theorem find?_otherSessions (fn n : Nat) (l : List Session) : (otherSessions fn n l).find? (fun x => x.fn == fn && x.num == n) = none := by
  rw [List.find?_eq_none]
  intro y hy
  have := (mem_otherSessions.mp hy).2
  simpa using this

/-- The end of a session takes out the same sessions, whatever was done to them. -/
theorem otherSessions_updated (fn n : Nat) (f : Session → Session) (hf : ∀ y, (f y).fn = y.fn ∧ (f y).num = y.num) (l : List Session) :
    otherSessions fn n (l.map fun y => if y.fn = fn ∧ y.num = n then f y else y) = otherSessions fn n l := by
  induction l with
  | nil => rfl
  | cons y l ih =>
    unfold otherSessions at ih ⊢
    by_cases h : y.fn = fn ∧ y.num = n
    · have hz : ∀ z : Session, z.fn = y.fn ∧ z.num = y.num → ¬(!(z.fn == fn && z.num == n)) = true := fun z hz => by simp [hz, h]
      rw [List.map_cons, if_pos h, List.filter_cons, List.filter_cons, if_neg (hz _ (hf y)), if_neg (hz y ⟨rfl, rfl⟩), ih]
    · have hz : (!(y.fn == fn && y.num == n)) = true := by
        simp only [Bool.not_eq_true', Bool.and_eq_false_iff, beq_eq_false_iff_ne, ne_eq]
        exact not_and_or.mp h
      rw [List.map_cons, if_neg h, List.filter_cons, List.filter_cons, if_pos hz, if_pos hz, ih]

theorem exec_endSession {s : State} {fn n : Nat} (hopen : doeOpen s fn = true) {x : Session} (hx : findSession s fn n = some x)
    (ho : x.opened = true) : exec (.endSession fn n) s = .next (respond fn (Config.seal x.key x.seq (Config.standardReply 0x6C [] []))
      { s with sec := { s.sec with sessions := otherSessions fn n s.sec.sessions } }) := by
  show execEndSession fn n s = _
  unfold execEndSession
  rw [inSession_eq hopen hx, if_pos ho, respondSealed_eq hx, updSession_eq, respond_eq, respond_eq]
  by_cases h : ∃ q ∈ s.sec.signQ, q.fn = fn
  · rw [if_pos h, if_pos h]
    simp only [updSec, ← otherSessions_updated fn n (fun y => { y with seq := y.seq + 1 }) (fun _ => ⟨rfl, rfl⟩) s.sec.sessions]
    rfl
  · rw [if_neg h, if_neg h]
    simp only [updSec, ← otherSessions_updated fn n (fun y => { y with seq := y.seq + 1 }) (fun _ => ⟨rfl, rfl⟩) s.sec.sessions]
    rfl

/-! ## Keys of IDE streams -/

section
variable {s : State} {fn n : Nat} (hopen : doeOpen s fn = true) {x : Session} (hx : findSession s fn n = some x) (ho : x.opened = true)
include hopen hx ho

theorem exec_keyProg_keyed (stream : Nat) (key : Bytes) {i : Ide} (hi : (s.sec.ide.find? fun i => i.stream == stream) = some i) :
    exec (.keyProg fn n stream key) s = .next (if i.fn = fn then
      respondSealed x (Config.standardReply 0x81 [] (facts [0])) { s with sec := { s.sec with
        ide := s.sec.ide.map fun i => if i.stream = stream then { i with session := n, key := key } else i } }
      else ideError x s) := by
  show execKeyProg fn n stream key s = _
  unfold execKeyProg
  rw [inSession_eq hopen hx, if_pos ho]
  simp only [hi]
  by_cases h : i.fn = fn
  · rw [if_neg (by simp [h]), if_pos h]; rfl
  · rw [if_pos (by simpa using h), if_neg h]

theorem exec_keyProg_new (stream : Nat) (key : Bytes) (hi : (s.sec.ide.find? fun i => i.stream == stream) = none) :
    exec (.keyProg fn n stream key) s = .next (if s.sec.ide.length < 8 then
      respondSealed x (Config.standardReply 0x81 [] (facts [0])) { s with sec := { s.sec with
        ide := s.sec.ide ++ [{ fn := fn, stream := stream, session := n, key := key, secure := false }] } }
      else ideError x s) := by
  show execKeyProg fn n stream key s = _
  unfold execKeyProg
  rw [inSession_eq hopen hx, if_pos ho]
  simp only [hi]
  by_cases h : s.sec.ide.length < 8
  · rw [if_neg (by omega), if_pos h]; rfl
  · rw [if_pos (by omega), if_neg h]

theorem exec_kSetStop (stream : Nat) : exec (.kSetStop fn n stream) s = .next (
    if (s.sec.ide.any fun i => i.stream == stream && i.fn == fn) = true then
      respondSealed x (Config.standardReply 0x83 [] (facts [0])) { s with sec := { s.sec with ide := s.sec.ide.filter fun i => i.stream != stream } }
    else ideError x s) := by
  show execKSetStop fn n stream s = _
  unfold execKSetStop
  rw [inSession_eq hopen hx, if_pos ho]; rfl

theorem exec_kSetGo (stream : Nat) : exec (.kSetGo fn n stream) s = .next (
    if (s.sec.ide.any fun i => i.stream == stream && i.fn == fn) = true then
      sendPending fn (respondSealed x (Config.standardReply 0x82 [] (facts [0])) { s with sec := { s.sec with
        ide := s.sec.ide.map fun i => if i.stream = stream then { i with secure := true } else i } })
    else ideError x s) := by
  show execKSetGo fn n stream s = _
  unfold execKSetGo
  rw [inSession_eq hopen hx, if_pos ho]; rfl

end

/-! ## Vectors that waited -/

/-- An entry of a function's MSI-X table lets its vector go. -/
def vectorOpen (f : Func) (v : Nat) : Prop := bitOf (f.msix.get 0 (4 * v + 3)).toNat 0 = true

/-- What a run of signalled vectors makes of a state: messages in front of those sent, pending bits, the link. -/
structure Signalled (fn : Nat) (f : Func) (done : List Nat) (u t : State) : Prop where
  frame : t = { u with out := t.out, funcs := t.funcs, link := t.link }
  msix : (t.funcs.get {} fn).msix = f.msix
  sent : ∃ l, t.out = l ++ u.out ∧ ∀ o, o ∈ l ↔ ∃ v ∈ done, vectorOpen f v ∧ o = .msix fn v
  pending : ∀ v, v ∈ (t.funcs.get {} fn).pba ↔ v ∈ done ∧ ¬vectorOpen f v

theorem Signalled.step {fn : Nat} {f : Func} {done : List Nat} {u t : State} (h : Signalled fn f done u t) (hreach : hostReach t fn = true)
    (v : Nat) : Signalled fn f (done ++ [v]) u (signalVector fn v t) := by
  obtain ⟨hframe, hmsix, ⟨l, hl, hmem⟩, hpend⟩ := h
  unfold signalVector
  dsimp only
  rw [hreach, Bool.and_true]
  generalize hg : t.funcs.get {} fn = g at hmsix hpend
  by_cases ho : vectorOpen f v
  · rw [if_pos (by rw [hmsix]; exact ho)]
    refine ⟨by simp only [emit]; rw [hframe], hg ▸ hmsix, ⟨.msix fn v :: l, by simp [emit, hl], fun o => ?_⟩, fun w => ?_⟩
    · simp only [List.mem_cons, hmem, List.mem_append, List.not_mem_nil, or_false]
      constructor
      · rintro (rfl | ⟨w, hw, h1, h2⟩)
        · exact ⟨v, .inr rfl, ho, rfl⟩
        · exact ⟨w, .inl hw, h1, h2⟩
      · rintro ⟨w, hw | rfl, h1, h2⟩
        · exact .inr ⟨w, hw, h1, h2⟩
        · exact .inl h2
    · simp only [List.mem_append, List.mem_singleton]
      rw [show (emit (.msix fn v) { t with link := { t.link with l1 := false } }).funcs = t.funcs from rfl, hg, hpend]
      constructor
      · exact fun h => ⟨.inl h.1, h.2⟩
      · rintro ⟨hw | rfl, h⟩
        · exact ⟨hw, h⟩
        · exact absurd ho h
  · have hnew : ∀ w, (w = v ∨ w ∈ g.pba) ↔ (w ∈ done ++ [v] ∧ ¬vectorOpen f w) := fun w => by
      simp only [List.mem_append, List.mem_singleton, hpend]
      constructor
      · rintro (rfl | h)
        · exact ⟨.inr rfl, ho⟩
        · exact ⟨.inl h.1, h.2⟩
      · rintro ⟨hw | rfl, h⟩
        · exact .inr ⟨hw, h⟩
        · exact .inl rfl
    have hsent : ∀ o, o ∈ l ↔ ∃ w ∈ done ++ [v], vectorOpen f w ∧ o = .msix fn w := fun o => by
      rw [hmem]
      constructor
      · rintro ⟨w, hw, h⟩; exact ⟨w, List.mem_append_left _ hw, h⟩
      · rintro ⟨w, hw, h1, h2⟩
        rcases List.mem_append.mp hw with hw | hw
        · exact ⟨w, hw, h1, h2⟩
        · exact absurd (List.mem_singleton.mp hw ▸ h1) ho
    rw [if_neg (by rw [hmsix]; exact ho)]
    split
    · next hc =>
      have hvc : v ∈ g.pba := by simpa using hc
      exact ⟨hframe, hg ▸ hmsix, ⟨l, hl, hsent⟩, fun w => by
        rw [← hnew w, hg]
        exact ⟨.inr, fun h => h.elim (fun h => h ▸ hvc) id⟩⟩
    · refine ⟨by rw [hframe], ?_, ⟨l, hl, hsent⟩, fun w => ?_⟩
      · simp only [Tbl.get_set_self]; exact hmsix
      · simp only [Tbl.get_set_self, List.mem_cons]; exact hnew w

theorem Signalled.reach {fn : Nat} {f : Func} {done : List Nat} {u t : State} (h : Signalled fn f done u t) (hu : hostReach u fn = true) :
    hostReach t fn = true := by
  rw [h.frame]; exact hu

theorem Signalled.foldl {fn : Nat} {f : Func} {u : State} (hu : hostReach u fn = true) (l : List Nat) {done : List Nat} {t : State}
    (h : Signalled fn f done u t) : Signalled fn f (done ++ l) u (l.foldl (fun s v => signalVector fn v s) t) := by
  induction l generalizing done t with
  | nil => rw [List.append_nil]; exact h
  | cons v l ih =>
    have := ih (h.step (h.reach hu) v)
    rwa [List.append_assoc] at this

/-- What was held for a function goes out, but for the vectors that its table masks. -/
theorem sendPending_signalled {fn : Nat} {u : State} (hu : hostReach u fn = true) :
    Signalled fn (u.funcs.get {} fn) (u.funcs.get {} fn).pba.reverse u (sendPending fn u) := by
  have h0 : Signalled fn (u.funcs.get {} fn) [] u { u with funcs := Tbl.upd {} u.funcs fn fun f => { f with pba := [] } } := by
    refine ⟨rfl, ?_, ⟨[], rfl, by simp⟩, ?_⟩
    · simp only [Tbl.get_upd, if_true]
    · simp [Tbl.get_upd]
  have := Signalled.foldl hu (u.funcs.get {} fn).pba.reverse h0
  rwa [List.nil_append] at this

/-! ## Responses behind a signature -/

/-- A response of a mailbox queue waits on: for its own signature, or behind one of its mailbox that does. -/
def waitsOn (rest : List SignReq) (r : SignReq × Nat) : Bool :=
  r.1.slot.isSome || (rest.take r.2).any fun p => p.fn == r.1.fn && p.slot.isSome

theorem releaseWaiting_eq (l pre : List SignReq) {held : List Nat} (hheld : ∀ f, f ∈ held ↔ ∃ p ∈ pre, p.fn = f ∧ p.slot.isSome = true)
    (s : State) : (releaseWaiting l held s).1 = ((l.zipIdx pre.length).filter (waitsOn (pre ++ l))).map Prod.fst ∧
      (releaseWaiting l held s).2.clock = s.clock ∧
      (releaseWaiting l held s).2.out =
        (((l.zipIdx pre.length).filter fun r => !waitsOn (pre ++ l) r).map fun r => .doe r.1.fn r.1.msg).reverse ++ s.out := by
  induction l generalizing pre held s with
  | nil => exact ⟨rfl, rfl, rfl⟩
  | cons q l ih =>
    have hq : waitsOn (pre ++ q :: l) (q, pre.length) = (q.slot.isSome || held.contains q.fn) := by
      unfold waitsOn
      simp only [List.take_left]
      congr 1
      rw [Bool.eq_iff_iff, List.any_eq_true, List.contains_iff_mem, hheld]
      simp only [Bool.and_eq_true, beq_iff_eq]
    have hpre : pre ++ q :: l = (pre ++ [q]) ++ l := by simp
    have hlen : (pre ++ [q]).length = pre.length + 1 := by simp
    rw [List.zipIdx_cons, List.filter_cons, List.filter_cons, hq, releaseWaiting]
    by_cases hw : (q.slot.isSome || held.contains q.fn) = true
    · have hgo : ¬(q.slot.isNone && !held.contains q.fn) = true := by
        rw [← Option.not_isSome, ← Bool.not_or, hw]; decide
      have hheld' : ∀ f, f ∈ q.fn :: held ↔ ∃ p ∈ pre ++ [q], p.fn = f ∧ p.slot.isSome = true := fun f => by
        rw [List.mem_cons, hheld]
        constructor
        · rintro (rfl | ⟨p, hp, h⟩)
          · by_cases hs : q.slot.isSome = true
            · exact ⟨q, by simp, rfl, hs⟩
            · have : q.fn ∈ held := by simpa [hs] using hw
              obtain ⟨p, hp, h⟩ := (hheld _).mp this
              exact ⟨p, List.mem_append_left _ hp, h⟩
          · exact ⟨p, List.mem_append_left _ hp, h⟩
        · rintro ⟨p, hp, h1, h2⟩
          rcases List.mem_append.mp hp with hp | hp
          · exact .inr ⟨p, hp, h1, h2⟩
          · exact .inl (List.mem_singleton.mp hp ▸ h1.symm)
      obtain ⟨h1, h2, h3⟩ := ih (pre ++ [q]) hheld' s
      rw [hlen, ← hpre] at h1 h3
      rw [if_neg hgo, if_pos hw, if_neg (by rw [hw]; decide)]
      exact ⟨by rw [List.map_cons, ← h1], h2, h3⟩
    · have hgo : (q.slot.isNone && !held.contains q.fn) = true := by
        rw [← Option.not_isSome, ← Bool.not_or]; simpa using hw
      have hheld' : ∀ f, f ∈ held ↔ ∃ p ∈ pre ++ [q], p.fn = f ∧ p.slot.isSome = true := fun f => by
        rw [hheld]
        constructor
        · rintro ⟨p, hp, h⟩; exact ⟨p, List.mem_append_left _ hp, h⟩
        · rintro ⟨p, hp, h1, h2⟩
          rcases List.mem_append.mp hp with hp | hp
          · exact ⟨p, hp, h1, h2⟩
          · rw [List.mem_singleton.mp hp] at h2
            exact absurd (by rw [h2]; rfl) hw
      obtain ⟨h1, h2, h3⟩ := ih (pre ++ [q]) hheld' (doeSend q.fn q.msg s)
      rw [hlen, ← hpre] at h1 h3
      rw [if_pos hgo, if_neg hw, if_pos (by simpa using hw)]
      refine ⟨h1, h2, ?_⟩
      rw [h3, List.map_cons, List.reverse_cons, List.append_assoc]
      rfl

/-- The oldest response is signed and leaves; what waited for it follows. -/
theorem exec_spdmSignatureDone {s : State} {q : SignReq} {rest : List SignReq} (hq : s.sec.signQ = q :: rest) {slot : Nat}
    (hslot : q.slot = some slot) (dt : Nat) : exec (.spdmSignatureDone dt) s = .next (
      let r := releaseWaiting rest [] (doeSend q.fn (q.msg ++ Config.slhSign (slotKey s slot) q.msg) (pass dt s))
      updSec (fun x => { x with signQ := r.1 }) r.2) := by
  show execSpdmSignatureDone dt s = _
  unfold execSpdmSignatureDone
  simp only [hq, hslot]

/-! ## The debug unlock -/

theorem any_busy (s : State) : (partNums.any fun n => (getPart s n).st == .started || (getPart s n).st == .stopping) = true ↔
    ∃ n ∈ partNums, (getPart s n).st = .started ∨ (getPart s n).st = .stopping := by
  simp [List.any_eq_true]

section
variable {s : State} (ho : HostOpen s 0)
include ho

theorem exec_dbgGo : exec (.dbgGo 0) s = .next (dbgGone (barAccess s)) := by
  show Host.Outcome.next (hostPost 0 _ s) = _
  rw [hostPost_open ho]; rfl

theorem exec_dbgArm : exec (.dbgArm 0) s = .next (newNonce (barAccess s)) := by
  show Host.Outcome.next (hostPost 0 _ s) = _
  rw [hostPost_open ho]; rfl

/-- A busy partition, or the blown fuse, refuses the unlock. -/
theorem exec_dbgGo_refused (h : (∃ n ∈ partNums, (getPart s n).st = .started ∨ (getPart s n).st = .stopping) ∨ s.sec.debugDisable = true) :
    exec (.dbgGo 0) s = .next { barAccess s with sec := { s.sec with dbgRefused := true, nonceLive := false } } := by
  have hno : ((partNums.any fun n => (getPart (barAccess s) n).st == .started || (getPart (barAccess s) n).st == .stopping) ||
      (barAccess s).sec.debugDisable) = true := by
    rcases h with h | h
    · rw [show (partNums.any fun n => (getPart (barAccess s) n).st == .started || (getPart (barAccess s) n).st == .stopping) = true from
        (any_busy s).mpr h]; rfl
    · rw [show (barAccess s).sec.debugDisable = true from h, Bool.or_true]
  rw [exec_dbgGo ho]
  unfold dbgGone
  dsimp only
  rw [if_pos hno]; rfl

/-- Otherwise a token that verifies resets the device into its level, and one that does not draws a new nonce. -/
theorem exec_dbgGo_judged (h : ¬∃ n ∈ partNums, (getPart s n).st = .started ∨ (getPart s n).st = .stopping) (hd : s.sec.debugDisable = false) :
    exec (.dbgGo 0) s = .next (if tokenOk s = true then
      coldReset { barAccess s with sec := { s.sec with dbgLevel := some (leNat (tokenAt s 40 1)), nonceLive := false } }
      else newNonce { barAccess s with sec := { s.sec with dbgRefused := true } }) := by
  have hno : ¬((partNums.any fun n => (getPart (barAccess s) n).st == .started || (getPart (barAccess s) n).st == .stopping) ||
      (barAccess s).sec.debugDisable) = true := by
    rw [show (barAccess s).sec.debugDisable = false from hd, Bool.or_false]
    exact mt (any_busy s).mp h
  rw [exec_dbgGo ho]
  unfold dbgGone
  dsimp only
  rw [if_neg hno]
  rfl

end

/-- The level that a cold reset boots into after an unlock. -/
theorem debug_coldReset {s : State} (hp : s.fer.power ≠ .standby) (ht : s.fer.trip = none) (hb : resetBarred s = false) (hf : s.brd.fref = true)
    (hd : s.sec.debugDisable = false) : (coldReset s).sec.debug = s.sec.dbgLevel.getD 0 := by
  have hfc : (coldClear s).brd.fref = true := by rw [(coldClear_cleared s).brd]; exact hf
  have hs := coldClear_sec s
  rw [coldReset_eq hp ht, if_neg (by rw [hb]; decide)]
  have hrest := bootRest_coldBoot hfc (coldClear_rst s)
  generalize coldClear s = u at hs hrest
  generalize coldBoot u = t at hrest
  have h : t.sec.debug = (booted u).sec.debug := by
    have h2 : (bootRest t).sec.debug = (bootRest (booted u)).sec.debug := by rw [hrest]
    exact h2
  rw [h]
  show (if u.sec.debugDisable then 0 else u.sec.dbgLevel.getD 0) = _
  rw [hs, if_neg (by simp [hd])]

/-! ## The obligation -/

theorem exec_of_spdmAnswer {s : State} {fn : Nat} (h : doeOpen s fn = true) {c : Instr} {need : Nat} {answer : State → State}
    (hc : exec c s = spdmAnswer fn need answer s) {t : State} (ht : answer s = t) :
    exec c s = .next (if need ≤ spdmStage s fn then t else respond fn (Config.standardReply 0x7F [] []) s) := by
  rw [hc, spdmAnswer_eq h, ht]

/-- A function's request that needs no session, answered once its requester has come far enough. -/
theorem spdmRequests {s : State} {fn : Nat} (hopen : doeOpen s fn = true) (req : Bytes) :
    let err : Bytes := Config.standardReply 0x7F [] []
    let asks (need : Nat) (c : Instr) (t : State) : Prop := exec c s = .next (if need ≤ spdmStage s fn then t else respond fn err s)
    let at_ (k : Nat) : State := { s with sec := { s.sec with spdm := Tbl.set 0 s.sec.spdm fn k } }
    let digest (slot : Nat) : Bytes := hashBytes (sha256 (slotChain s slot))
    let slot := leAt req 3 1 % 16
    let no := s.sec.sessionNo + 1
    asks 0 (.getVersion fn req) (respond fn (Config.standardReply 0x04 req (facts [0x14])) (at_ 1)) ∧
    asks 1 (.getCapabilities fn req) (respond fn (Config.standardReply 0x61 req []) (at_ (max 2 (spdmStage s fn)))) ∧
    asks 2 (.negotiateAlgorithms fn req) (respond fn (Config.standardReply 0x63 req []) (at_ 3)) ∧
    asks 3 (.getDigests fn req) (respond fn (Config.standardReply 0x01 req (digest 0 ++ digest 1)) s) ∧
    (∀ slot off len, let part := ((slotChain s slot).drop off).take len
      asks 3 (.getCertificate fn slot off len) (respond fn (if slot < 2 then
        Config.standardReply 0x02 part (leBytes 4 ((slotChain s slot).length - off - part.length)) else err) s)) ∧
    (∀ slot, asks 3 (.challenge fn slot req) (if slot < 2 then respondSigned fn slot (Config.standardReply 0x03 req (digest slot)) s
      else respond fn err s)) ∧
    (∀ i, let block (i : Nat) : Bytes := leBytes 1 i ++ hashBytes (measurement s i)
      let all (l : Bytes) : State := respondSigned fn 1 (Config.standardReply 0x60 req (leBytes 1 6 ++ l)) s
      asks 3 (.getMeasurements fn i req) (if i = 0 then all [] else if i = 0xFF then
        all (block 1 ++ block 2 ++ block 3 ++ block 4 ++ block 5 ++ block 6) else if i ≤ 6 then all (block i) else respond fn err s)) ∧
    asks 3 (.keyExchange fn req) (if slot < 2 then respondSigned fn slot (Config.standardReply 0x64 req (leBytes 4 no)) { s with sec := { s.sec with
      sessionNo := no, sessions := s.sec.sessions ++ [{ fn := fn, num := no, key := Config.kem req no, opened := false }] } }
      else respond fn err s) ∧
    (∀ (seq : Nat) (last : Bool), asks 2 (.chunkSend fn seq last req) (if s.sec.chunkSeq.get 0 fn = seq then
      respond fn (Config.standardReply 0x05 req (leBytes 2 seq)) { s with sec := { s.sec with
        chunksIn := Tbl.set [] s.sec.chunksIn fn (if last then [] else s.sec.chunksIn.get [] fn ++ req)
        chunkSeq := Tbl.set 0 s.sec.chunkSeq fn (if last then 0 else seq + 1) } }
      else respond fn err s)) ∧
    (∀ seq, asks 2 (.chunkGet fn seq) (respond fn (Config.standardReply 0x06 (s.sec.chunksOut.get [] fn) (leBytes 2 seq)) s)) := by
  intro err asks at_ digest slot no
  refine ⟨?_, ?_, ?_, ?_, fun slot off len => ?_, fun slot => ?_, fun i => ?_, ?_, fun seq last => ?_, fun seq => ?_⟩
  · exact exec_of_spdmAnswer hopen (show _ = execGetVersion fn req s from rfl) rfl
  · exact exec_of_spdmAnswer hopen (show _ = execGetCapabilities fn req s from rfl) rfl
  · exact exec_of_spdmAnswer hopen (show _ = execNegotiateAlgorithms fn req s from rfl) rfl
  · exact exec_of_spdmAnswer hopen (show _ = execGetDigests fn req s from rfl) rfl
  · refine exec_of_spdmAnswer hopen (show _ = execGetCertificate fn slot off len s from rfl) ?_
    by_cases h : slot < 2
    · rw [if_neg (by omega), if_pos h]
    · rw [if_pos (by omega), if_neg h]; rfl
  · refine exec_of_spdmAnswer hopen (show _ = execChallenge fn slot req s from rfl) ?_
    by_cases h : slot < 2
    · rw [if_neg (by omega), if_pos h]
    · rw [if_pos (by omega), if_neg h]; rfl
  · intro block all
    refine exec_of_spdmAnswer hopen (show _ = execGetMeasurements fn i req s from rfl) ?_
    dsimp only
    by_cases h0 : i = 0
    · subst h0; rfl
    · by_cases h255 : i = 0xFF
      · subst h255
        show respondSigned fn 1 _ s = respondSigned fn 1 _ s
        simp [block]
      · rw [if_neg h0, if_neg h255, if_neg h255]
        by_cases h6 : i ≤ 6
        · have hin : (decide (1 ≤ i) && decide (i ≤ 6)) = true := by simp; omega
          rw [if_pos hin, if_pos h6, if_neg (by simp)]
          show respondSigned fn 1 _ s = respondSigned fn 1 _ s
          simp [block]
        · have hin : ¬(decide (1 ≤ i) && decide (i ≤ 6)) = true := by simp; omega
          rw [if_neg hin, if_neg h6, if_pos (by simpa using h0)]; rfl
  · refine exec_of_spdmAnswer hopen (show _ = execKeyExchange fn req s from rfl) ?_
    by_cases h : slot < 2
    · rw [if_pos h]
      simp only [if_neg (show ¬2 ≤ leAt req 3 1 % 16 from by omega)]
      rfl
    · rw [if_neg h]
      simp only [if_pos (show 2 ≤ leAt req 3 1 % 16 from by omega)]
      rfl
  · refine exec_of_spdmAnswer hopen (show _ = execChunkSend fn seq last req s from rfl) ?_
    by_cases h : s.sec.chunkSeq.get 0 fn = seq
    · rw [if_pos h, if_neg (by simpa using h)]; rfl
    · rw [if_neg h, if_pos (by simpa using h)]; rfl
  · exact exec_of_spdmAnswer hopen (show _ = execChunkGet fn seq s from rfl) rfl

/-- A reply inside a session, with the use that it counts. -/
theorem respondSealed_sealed {s : State} {fn n : Nat} {x : Session} (hx : findSession s fn n = some x) (m : Bytes) (z : State) :
    respondSealed x m z = respond fn (Config.seal x.key x.seq m) { z with sec := { z.sec with
      sessions := z.sec.sessions.map fun y => if y.fn = fn ∧ y.num = n then { y with seq := y.seq + 1 } else y } } := by
  rw [respondSealed_eq hx, updSession_eq]

/-- A function's mailbox answers while the registers are open. -/
theorem doeOpen_of {s : State} {fn : Nat} (hb : barOpen s = true) (hfn : fn ≤ 8) : doeOpen s fn = true := by
  rw [doeOpen, hb, decide_eq_true hfn]; rfl

theorem exec_of_inSession_refused {s : State} {fn n : Nat} (h : doeOpen s fn = true) {o : Bool}
    (hx : findSession s fn n = none ∨ ∃ x, findSession s fn n = some x ∧ x.opened = !o) {c : Instr} {answer : Session → State → State}
    (hc : exec c s = inSession fn n o answer s) : exec c s = .next (respond fn (Config.standardReply 0x7F [] []) s) :=
  hc.trans (inSession_refused h hx answer)

/-- A request of a session that is not there, or not at the request's stage. -/
theorem sessionRequests_refused {s : State} {fn n : Nat} (hopen : doeOpen s fn = true) (stream : Nat) (req : Bytes) {c : Instr}
    (hc : c ∈ [Instr.finish fn n req, .endSession fn n, .keyUpdate fn n req, .heartbeat fn n, .keyProg fn n stream req,
      .kSetGo fn n stream, .kSetStop fn n stream])
    (hx : findSession s fn n = none ∨ ∃ x, findSession s fn n = some x ∧ x.opened = decide (c = .finish fn n req)) :
    exec c s = .next (respond fn (Config.standardReply 0x7F [] []) s) := by
  simp only [List.mem_cons, List.not_mem_nil, or_false] at hc
  rcases hc with rfl | hc
  · exact exec_of_inSession_refused hopen (o := false) (by simpa using hx) (show _ = execFinish fn n req s from rfl)
  · have hx' : findSession s fn n = none ∨ ∃ x, findSession s fn n = some x ∧ x.opened = !true := by
      rcases hc with rfl | rfl | rfl | rfl | rfl | rfl <;> simpa using hx
    rcases hc with rfl | rfl | rfl | rfl | rfl | rfl
    · exact exec_of_inSession_refused hopen hx' (show _ = execEndSession fn n s from rfl)
    · exact exec_of_inSession_refused hopen hx' (show _ = execKeyUpdate fn n req s from rfl)
    · exact exec_of_inSession_refused hopen hx' (show _ = execHeartbeat fn n s from rfl)
    · exact exec_of_inSession_refused hopen hx' (show _ = execKeyProg fn n stream req s from rfl)
    · exact exec_of_inSession_refused hopen hx' (show _ = execKSetGo fn n stream s from rfl)
    · exact exec_of_inSession_refused hopen hx' (show _ = execKSetStop fn n stream s from rfl)

/-- A stream that its function owns is secured: what was held for the function goes out behind the reply. -/
theorem kSetGo_goes {s : State} {fn n : Nat} (hopen : doeOpen s fn = true) {x : Session} (hx : findSession s fn n = some x) (ho : x.opened = true)
    {stream : Nat} (hown : ∃ i ∈ s.sec.ide, i.stream = stream ∧ i.fn = fn) :
    ∃ u t, u = respondSealed x (Config.standardReply 0x82 [] (facts [0])) { s with sec := { s.sec with
        ide := s.sec.ide.map fun i => if i.stream = stream then { i with secure := true } else i } } ∧
      exec (.kSetGo fn n stream) s = .next t ∧ hostReach t fn = true ∧
      Signalled fn (s.funcs.get {} fn) (s.funcs.get {} fn).pba.reverse u t := by
  obtain ⟨i, hi, hstream, hfn⟩ := hown
  have hany : (s.sec.ide.any fun i => i.stream == stream && i.fn == fn) = true :=
    List.any_eq_true.mpr ⟨i, hi, by simp [hstream, hfn]⟩
  have hexec := exec_kSetGo hopen hx ho stream
  rw [if_pos hany] at hexec
  refine ⟨_, _, rfl, hexec, ?_⟩
  rw [respondSealed_eq hx]
  generalize hz : ({ s with sec := { s.sec with ide := s.sec.ide.map fun i => if i.stream = stream then { i with secure := true } else i } } : State) = z
  have hide : (z.sec.ide.any fun i => i.fn == fn && i.secure) = true := by
    rw [← hz]
    exact List.any_eq_true.mpr ⟨_, List.mem_map_of_mem hi, by simp [hstream, hfn]⟩
  have hfuncs : z.funcs = s.funcs := by rw [← hz]
  generalize hu : respond fn (Config.seal x.key x.seq (Config.standardReply 0x82 [] (facts [0])))
    (updSession fn n (fun y => { y with seq := y.seq + 1 }) z) = u
  have hkeep : u.funcs = z.funcs ∧ u.sec.ide = z.sec.ide := by
    rw [← hu, respond_eq]
    split <;> exact ⟨rfl, rfl⟩
  have hreach : hostReach u fn = true := by
    unfold hostReach
    rw [hkeep.2, hide, Bool.or_true]
  have hsig := sendPending_signalled hreach
  rw [hkeep.1, hfuncs] at hsig
  exact ⟨hsig.reach hreach, hsig⟩

/-- Settles O56: the equations of the requests, with `respond` as what the statement calls an answer. -/
theorem securityCommands : Obligations.SecurityCommands := by
  unfold Obligations.SecurityCommands
  intro err queued answers signs
  have ha : ∀ fn m x, answers fn m x = respond fn m x := fun fn m x => (respond_eq fn m x).symm
  have hsg : ∀ fn slot m x, signs fn slot m x = respondSigned fn slot m x := fun _ _ _ _ => rfl
  clear_value answers signs
  refine ⟨fun s fn req hb hfn => ?_, fun s dt slot q rest hq hslot => ?_, fun s ho => ⟨?_, fun h => exec_dbgGo_refused ho h, fun hbusy hd ht => ?_⟩⟩
  · have hopen := doeOpen_of hb hfn
    simp only [ha, hsg]
    obtain ⟨h1, h2, h3, h4, h5, h6, h7, h8, h9, h10⟩ := spdmRequests hopen req
    refine ⟨h1, h2, h3, h4, h5, h6, h7, h8, h9, h10, fun n stream c hc hx => sessionRequests_refused hopen stream req hc hx, fun n x hx => ?_⟩
    refine ⟨findSession_mine hx, fun ho => ?_, fun ho => ⟨?_, ?_, ?_, fun stream => ?_⟩⟩
    · rw [← updSession_eq fn n]; exact exec_finish hopen hx ho req
    · refine ⟨_, exec_endSession hopen hx ho, ?_⟩
      have hs : ∀ m z, (respond fn m z).sec.sessions = z.sec.sessions ∧ (respond fn m z).sec.ide = z.sec.ide := fun m z => by
        rw [respond_eq]; split <;> exact ⟨rfl, rfl⟩
      obtain ⟨hs1, hs2⟩ := hs (Config.seal x.key x.seq (Config.standardReply 0x6C [] []))
        { s with sec := { s.sec with sessions := otherSessions fn n s.sec.sessions } }
      refine ⟨?_, hs2, ?_, fun y => ?_⟩
      · unfold findSession; rw [hs1]; exact find?_otherSessions ..
      · rw [hs1]
      · rw [hs1]; exact mem_otherSessions
    · rw [← updSession_eq fn n]; exact exec_keyUpdate hopen hx ho req
    · rw [← updSession_eq fn n]; exact exec_heartbeat hopen hx ho
    · have hown : (∃ i ∈ s.sec.ide, i.stream = stream ∧ i.fn = fn) ↔ (s.sec.ide.any fun i => i.stream == stream && i.fn == fn) = true := by
        simp [List.any_eq_true]
      refine ⟨fun i hi => ?_, fun hi => ?_, fun hn => ⟨?_, ?_⟩, fun hy => ⟨?_, ?_⟩⟩
      · rw [exec_keyProg_keyed hopen hx ho stream req hi, ideError, respondSealed_sealed hx, respondSealed_sealed hx]
      · rw [exec_keyProg_new hopen hx ho stream req hi, ideError, respondSealed_sealed hx, respondSealed_sealed hx]
      · rw [exec_kSetGo hopen hx ho, if_neg (mt hown.mpr hn), ideError, respondSealed_sealed hx]
      · rw [exec_kSetStop hopen hx ho, if_neg (mt hown.mpr hn), ideError, respondSealed_sealed hx]
      · rw [exec_kSetStop hopen hx ho, if_pos (hown.mp hy), respondSealed_sealed hx]
      · obtain ⟨u, t, hu, hexec, hreach, hframe, -, hsent, hpend⟩ := kSetGo_goes hopen hx ho hy
        rw [respondSealed_sealed hx] at hu
        refine ⟨t, hexec, ?_⟩
        simp only [List.mem_reverse] at hsent hpend
        rw [← hu]
        exact ⟨hframe, hreach, hsent, hpend⟩
  · intro behind
    obtain ⟨h1, h2, h3⟩ := releaseWaiting_eq rest [] (held := []) (fun f => by simp)
      (doeSend q.fn (q.msg ++ Config.slhSign (slotKey s slot) q.msg) (pass dt s))
    have hexec := exec_spdmSignatureDone hq hslot dt
    simp only [List.nil_append, List.length_nil] at h1 h3
    dsimp only at hexec
    generalize releaseWaiting rest [] (doeSend q.fn (q.msg ++ Config.slhSign (slotKey s slot) q.msg) (pass dt s)) = r at hexec h1 h2 h3
    have hb : behind = waitsOn rest := rfl
    rw [hb]
    refine ⟨_, hexec, h2, h1, ?_⟩
    exact h3
  · exact ⟨_, exec_dbgArm ho, rfl, rfl, rfl, rfl, rfl⟩
  · have hexec := exec_dbgGo_judged ho hbusy hd
    by_cases htok : tokenOk s = true
    · rw [if_pos htok] at hexec
      have hp : s.fer.power ≠ .standby := by
        have := ho.1
        intro hc
        rw [barOpen, hc] at this
        simp at this
      have hc := coldReset_cleared (s := { barAccess s with sec := { s.sec with
        dbgLevel := some (leNat (tokenAt s 40 1)), nonceLive := false } }) hp ht
      refine ⟨_, hexec, ?_⟩
      beta_reduce
      rw [if_pos htok]
      exact ⟨hc.parts, hc.cores, hc.epoch, hc.nonceLive, fun hbar hf => debug_coldReset (s := { barAccess s with sec := { s.sec with
        dbgLevel := some (leNat (tokenAt s 40 1)), nonceLive := false } }) hp ht hbar hf hd⟩
    · rw [if_neg htok] at hexec
      refine ⟨_, hexec, ?_⟩
      beta_reduce
      rw [if_neg htok]
      exact ⟨rfl, rfl, rfl, rfl, rfl⟩

end Sys2Proof.Machine
end

section
/-!
PROOFS. O53: the two ends of a cold boot, and the events of the board.
-/
namespace Sys2Proof.Machine

/-! ## Stacks that need nothing of a boot -/

theorem Tbl.forall_get {α : Type} {P : α → Prop} {d : α} (hd : P d) {t : Tbl α} (ht : ∀ e ∈ t, P e.2) (k : Nat) : P (t.get d k) := by
  induction t with
  | nil => exact hd
  | cons e t ih =>
    obtain ⟨j, a⟩ := e
    rw [Tbl.get]
    split
    · exact ht _ (List.mem_cons_self ..)
    · exact ih fun e he => ht e (List.mem_cons_of_mem _ he)

theorem Tbl.forall_keepTbl {α : Type} [DecidableEq α] {P : α → Prop} {d : α} {f : α → α} {t : Tbl α} (ht : ∀ e ∈ t, P (f e.2)) :
    ∀ e ∈ keepTbl d f t, P e.2 := by
  unfold keepTbl
  refine List.foldlRecOn (motive := fun u : Tbl α => ∀ e ∈ u, P e.2) _ _ (fun e he => by cases he) fun u hu e he x hx => ?_
  rcases Tbl.mem_set hx with h | h
  · rw [h.1]; exact ht e he
  · exact hu x h.1

/-- Every stack is active and has not failed. -/
def Healthy (s : State) : Prop := ∀ k, (getStack s k).st = .active ∧ (getStack s k).failed = false

theorem Healthy.congr {s t : State} (h : Healthy s) (hmem : t.mem = s.mem) : Healthy t := fun k => by
  unfold getStack; rw [hmem]; exact h k

theorem coldClear_healthy {s : State} (h : ∀ e ∈ s.mem.hbmStacks, e.2.failed = false ∧ e.2.st = .active) : Healthy (coldClear s) := by
  obtain ⟨e, q, hp⟩ := powerRequeue_frame (resetEnds s)
  have hmem : (resetEnds s).mem = s.mem := by
    unfold resetEnds
    extract_lets ended
    have hended : ended.mem = s.mem := by
      refine mem_foldl (fun s n => ?_) _ s
      unfold stepLost; split <;> rfl
    clear_value ended
    exact hended
  have hstacks : (coldClear s).mem.hbmStacks = keepTbl {} keptStack s.mem.hbmStacks := by
    unfold coldClear
    rw [hp]
    clear hp
    generalize resetEnds s = u at hmem
    show keepTbl {} keptStack u.mem.hbmStacks = _
    rw [hmem]
  intro k
  unfold getStack
  rw [hstacks]
  exact Tbl.forall_get (P := fun x : Stack => x.st = .active ∧ x.failed = false) ⟨rfl, rfl⟩
    (Tbl.forall_keepTbl (P := fun x : Stack => x.st = .active ∧ x.failed = false) fun e he => ⟨(h e he).2, (h e he).1⟩) k

theorem Healthy.harden {s : State} (h : Healthy s) : Healthy (harden s) := by
  unfold Machine.harden
  refine List.foldlRecOn (motive := Healthy) _ _ h fun t ht k _ => ?_
  intro j
  have hrows : ∀ rows : List Nat, (rows.foldl (fun s row => queueRepair 10 (k + 32 * row)
      (postEvent { kind := 0x1A, detail := packB [(1, k), (1, 1)] } s)) t).mem = t.mem := fun rows => by
    refine mem_foldl (fun _ _ => ?_) _ t
    rfl
  have hgood := ht.congr (hrows (getStack t k).softRows.reverse)
  dsimp only
  rw [getStack_updStack]
  split
  · exact hgood k
  · exact hgood j

theorem Healthy.due {s : State} (h : Healthy s) :
    ((activeStacks s).filter fun k => (getStack s k).failed || (getStack s k).st == .retirePending) = [] := by
  rw [List.filter_eq_nil_iff]
  intro k _
  rw [(h k).2, (h k).1]
  decide

theorem Healthy.enough {s : State} (h : Healthy s) : tooFewStacks s = false := by
  have hall : activeStacks s = List.range 20 := by
    unfold activeStacks
    rw [List.filter_eq_self]
    intro k _
    rw [(h k).1]; rfl
  rw [tooFewStacks, hall]; rfl

theorem bootStacks_healthy {s : State} (h : Healthy s) : Healthy (bootStacks s) := by
  unfold bootStacks
  extract_lets sec u due
  have hu : Healthy u := h
  have hdue : due = [] := hu.due
  rw [hdue, List.foldl_nil]
  exact Healthy.harden (hu.congr (commitSvn_mem ..))

/-! ## The choice of slots -/

/-- The choice of a slot rests on the flash, the rollback counters, the revoked keys and the key hashes. -/
theorem chooseSlot_of {s t : State} (hf : t.sec.flash = s.sec.flash) (hv : t.sec.svn = s.sec.svn) (hr : t.sec.revoked = s.sec.revoked)
    (hk : t.sec.keyHashes = s.sec.keyHashes) (c : Nat) : chooseSlot t c = chooseSlot s c := by
  unfold chooseSlot imageOk flashImage svnOf
  rw [hf, hv, hr, hk]

theorem chooseSlot_of_bootRest {s t : State} (h : bootRest t = bootRest s) (c : Nat) : chooseSlot t c = chooseSlot s c := by
  have hsec : ∀ {α : Type} (f : State → α), (∀ s, f (bootRest s) = f s) → f t = f s := fun f hf => by rw [← hf t, h, hf]
  exact chooseSlot_of (hsec (fun x => x.sec.flash) fun _ => rfl) (hsec (fun x => x.sec.svn) fun _ => rfl)
    (hsec (fun x => x.sec.revoked) fun _ => rfl) (hsec (fun x => x.sec.keyHashes) fun _ => rfl) c

theorem chooseSlot_bootStart (s : State) (c : Nat) : chooseSlot (bootStart s) c = chooseSlot s c :=
  (chooseSlot_of_bootRest (bootRest_bootStart s) c).trans (chooseSlot_of rfl rfl rfl rfl c)

theorem chooseSlot_coldClear (s : State) (c : Nat) : chooseSlot (coldClear s) c = chooseSlot s c := by
  have h := coldClear_sec s
  exact chooseSlot_of (by rw [h]) (by rw [h]) (by rw [h]) (by rw [h]) c

/-! ## The power state after a boot -/

@[simp] theorem power_verifyStage (stage c : Nat) (s : State) : (verifyStage stage c s).2.fer.power = s.fer.power := by
  unfold verifyStage; split <;> rfl

@[simp] theorem power_commitSvn (c : Nat) (s : State) : (commitSvn c s).fer.power = s.fer.power := by
  obtain ⟨q, h⟩ := commitSvn_frame c s
  rw [h]

theorem power_bootStart (s : State) : (bootStart s).fer.power = s.fer.power := by
  unfold bootStart
  extract_lets level u
  rw [power_commitSvn]
  split <;> rfl

theorem power_setPower (p : Power) (source : Nat) (s : State) : (setPower p source s).fer.power = p := by
  unfold setPower
  split
  · next h => exact h
  · rfl

theorem power_powerTake {s : State} (h : s.fer.power = .active) (r : PowerReq) : (powerTake r s).fer.power = .active := by
  unfold powerTake
  split
  · exact h
  · split
    · exact h
    · split
      · exact power_setPower ..
      · exact h

theorem power_powerQueue (n : Nat) {s : State} (h : s.fer.power = .active) : (powerQueue n s).fer.power = .active := by
  induction n generalizing s with
  | zero => exact h
  | succ n ih =>
    rw [powerQueue]
    split
    · exact h
    · split
      · exact h
      · exact ih (power_powerTake (by exact h) _)

@[simp] theorem powerQueue_rst (n : Nat) (s : State) : (powerQueue n s).rst = s.rst := by
  have htake : ∀ r (s : State), (powerTake r s).rst = s.rst := fun r s => by
    unfold powerTake setPower
    (repeat' split) <;> rfl
  induction n generalizing s with
  | zero => rfl
  | succ n ih =>
    rw [powerQueue]
    split
    · rfl
    · split
      · rfl
      · rw [ih, htake]

@[simp] theorem powerQueue_sec (n : Nat) (s : State) : (powerQueue n s).sec = s.sec := by
  have htake : ∀ r (s : State), (powerTake r s).sec = s.sec := fun r s => by
    unfold powerTake setPower
    (repeat' split) <;> rfl
  induction n generalizing s with
  | zero => rfl
  | succ n ih =>
    rw [powerQueue]
    split
    · rfl
    · split
      · rfl
      · rw [ih, htake]

/-- A boot that reaches stage 6 ends the reset, and the device is active. -/
theorem bootDone_up (s : State) : (bootDone s).rst = none ∧ (bootDone s).sec.stage = 6 ∧ (bootDone s).fer.power = .active := by
  unfold bootDone
  extract_lets u
  have hu : u.rst = none ∧ u.sec.stage = 6 ∧ u.fer.power = .active := by
    simp only [u, bootEnds, powerNext]
    refine ⟨?_, ?_, power_powerQueue _ (power_setPower ..)⟩
    · rw [powerQueue_rst]; unfold setPower; split <;> rfl
    · rw [powerQueue_sec]; unfold setPower; split <;> rfl
  clear_value u
  exact hu

/-- A cold boot whose BOOT or SYSCTL does not verify is held. -/
theorem coldBoot_held {s : State} (h : s.brd.fref = true) (hr : s.rst.isSome = true)
    (hbad : ¬((chooseSlot s 0).isSome ∧ (chooseSlot s 1).isSome)) :
    (coldBoot s).rst.isSome = true ∧ (coldBoot s).sec.held = true ∧ (coldBoot s).fer.power = s.fer.power := by
  have hb1 : (verifyStage 2 0 (bootStart s)).1 = (chooseSlot s 0).isSome := by rw [verifyStage_fst, chooseSlot_bootStart]
  have hbr : (verifyStage 2 0 (bootStart s)).2.rst = s.rst := (verifyStage_rst ..).trans (bootStart_rst s)
  have hbp : (verifyStage 2 0 (bootStart s)).2.fer.power = s.fer.power := (power_verifyStage ..).trans (power_bootStart s)
  have hbs : chooseSlot (verifyStage 2 0 (bootStart s)).2 1 = chooseSlot s 1 :=
    (chooseSlot_of_bootRest (bootRest_verifyStage ..) 1).trans (chooseSlot_bootStart s 1)
  rw [coldBoot_eq h]
  generalize verifyStage 2 0 (bootStart s) = b at hb1 hbr hbp hbs
  dsimp only
  by_cases h0 : (chooseSlot s 0).isSome = true
  · have hb : ¬(!b.1) = true := by rw [hb1, h0]; decide
    have hc1 : (verifyStage 3 1 b.2).1 = false := by
      rw [verifyStage_fst, hbs]
      exact Bool.eq_false_iff.mpr fun hc => hbad ⟨h0, hc⟩
    have hcr : (verifyStage 3 1 b.2).2.rst = s.rst := (verifyStage_rst ..).trans hbr
    have hcp : (verifyStage 3 1 b.2).2.fer.power = s.fer.power := (power_verifyStage ..).trans hbp
    rw [if_neg hb]
    generalize verifyStage 3 1 b.2 = c at hc1 hcr hcp
    rw [if_pos (by rw [hc1]; rfl)]
    exact ⟨by show c.2.rst.isSome = true; rw [hcr, hr], rfl, hcp⟩
  · have hb : (!b.1) = true := by rw [hb1]; simpa using h0
    rw [if_pos hb]
    exact ⟨by show b.2.rst.isSome = true; rw [hbr, hr], rfl, hbp⟩

/-- A cold boot with both verified and every stack in use comes up. -/
theorem coldBoot_up {s : State} (h : s.brd.fref = true) (h0 : (chooseSlot s 0).isSome) (h1 : (chooseSlot s 1).isSome) (hs : Healthy s) :
    (coldBoot s).rst = none ∧ (coldBoot s).sec.stage = 6 ∧ (coldBoot s).fer.power = .active := by
  have hb1 : (verifyStage 2 0 (bootStart s)).1 = true := by rw [verifyStage_fst, chooseSlot_bootStart, h0]
  have hbs : chooseSlot (verifyStage 2 0 (bootStart s)).2 1 = chooseSlot s 1 :=
    (chooseSlot_of_bootRest (bootRest_verifyStage ..) 1).trans (chooseSlot_bootStart s 1)
  have hbh : Healthy (verifyStage 2 0 (bootStart s)).2 := hs.congr (by simp)
  rw [coldBoot_eq h]
  generalize verifyStage 2 0 (bootStart s) = b at hb1 hbs hbh
  dsimp only
  have hc1 : (verifyStage 3 1 b.2).1 = true := by rw [verifyStage_fst, hbs, h1]
  have hch : Healthy (verifyStage 3 1 b.2).2 := hbh.congr (by simp)
  generalize verifyStage 3 1 b.2 = c at hc1 hch
  rw [if_neg (by rw [hb1]; decide), if_neg (by rw [hc1]; decide), if_neg (by rw [(bootStacks_healthy hch).enough]; decide)]
  exact bootDone_up _

/-- A cold boot ends up or held: if the reset runs on, the device is held. -/
theorem coldBoot_ends {s : State} (h : s.brd.fref = true) (hr : s.rst.isSome = true) :
    (coldBoot s).rst = none ∨ (coldBoot s).sec.held = true := by
  rw [coldBoot_eq h]
  dsimp only
  have hbr : (verifyStage 2 0 (bootStart s)).2.rst = s.rst := (verifyStage_rst ..).trans (bootStart_rst s)
  generalize verifyStage 2 0 (bootStart s) = b at hbr
  have hcr : (verifyStage 3 1 b.2).2.rst = s.rst := (verifyStage_rst ..).trans hbr
  generalize verifyStage 3 1 b.2 = c at hcr
  have hur : (bootStacks c.2).rst = s.rst := (bootStacks_rst _).trans hcr
  generalize bootStacks c.2 = u at hur
  split
  · exact .inr rfl
  · split
    · exact .inr rfl
    · split
      · rw [moduleReplace_of_rst (by rw [show (bootHeld 3 u).rst = u.rst from rfl, hur, hr])]
        exact .inr rfl
      · exact .inl (bootDone_up u).1

/-! ## VAUX -/

theorem undoRepair_same (r : Repair) (s : State) : (undoRepair r s).fer = s.fer ∧ (undoRepair r s).sec = s.sec ∧
    (undoRepair r s).out = s.out ∧ (undoRepair r s).free = s.free := by
  unfold undoRepair
  split <;> exact ⟨rfl, rfl, rfl, rfl⟩

theorem undoRepairs_same (l : List Repair) (s : State) : let t := l.foldl (fun s r => undoRepair r s) s
    t.fer = s.fer ∧ t.sec = s.sec ∧ t.out = s.out ∧ t.free = s.free := by
  refine List.foldlRecOn (motive := fun t : State => t.fer = s.fer ∧ t.sec = s.sec ∧ t.out = s.out ∧ t.free = s.free) _ _ ⟨rfl, rfl, rfl, rfl⟩
    fun t ⟨h1, h2, h3, h4⟩ r _ => ?_
  obtain ⟨k1, k2, k3, k4⟩ := undoRepair_same r t
  exact ⟨k1.trans h1, k2.trans h2, k3.trans h3, k4.trans h4⟩

/-- What a loss of VAUX leaves of a state whose unwritten repairs are undone. -/
theorem exec_vauxLoss (s : State) : ∃ u t : State, u.fer = s.fer ∧ u.sec = s.sec ∧ u.out = s.out ∧ u.free = s.free ∧ exec .vauxLoss s = .next t ∧
    t.fer = { power := .standby, boots := 0, fuses := u.fer.fuses, flashRepairs := u.fer.flashRepairs } ∧
    t.brd.vauxOn = false ∧ t.brd.pwrReq = false ∧ t.journal = [] ∧ t.descs = [] ∧ t.parts = [] ∧ t.cores = [] ∧ NoBytes t ∧ t.mem.fresh = [] ∧
    t.sec.svn = u.sec.svn ∧ t.sec.flash = u.sec.flash ∧ t.out = u.out ∧ t.free = u.free := by
  obtain ⟨h1, h2, h3, h4⟩ := undoRepairs_same (s.fer.fuseQ ++ (s.fer.fuseNow.map fun r => [r.1]).getD []) s
  exact ⟨_, _, h1, h2, h3, h4, rfl, rfl, rfl, rfl, rfl, rfl, rfl, rfl, ⟨rfl, rfl⟩, rfl, rfl, rfl, rfl, rfl⟩

/-- VAUX in range: the straps, and FERRYMAN or recovery mode. -/
theorem exec_vauxUp {s : State} {dt : Nat} (hv : s.brd.vauxOn = false) (hdt : 1000000 ≤ dt) (straps : BitVec 7) :
    Does (.vauxUp dt straps) s fun t =>
      t.brd.vauxOn = true ∧ t.brd.straps = straps ∧ t.brd.phyRun = straps.getLsbD 5 ∧ t.mem = s.mem ∧ t.descs = s.descs ∧
      (t.sec.ferryRecovery = true ↔ chooseSlot s 2 = none ∨ straps.getLsbD 6 = true) ∧
      (t.brd.pwrReq = true ↔ s.brd.pwrReq = true ∨ (straps.getLsbD 4 = true ∧ t.sec.ferryRecovery = false)) := by
  have hgo : (!s.brd.vauxOn && decide (1000000 ≤ dt)) = true := by simp [hv, hdt]
  let s1 : State := { s with clock := s.clock + dt, brd := { s.brd with vauxOn := true, straps := straps, phyRun := bitOf straps.toNat 5 } }
  obtain ⟨ev, n, sl, hframe⟩ := verifyStage_frame 0 2 s1
  have h1 : (verifyStage 0 2 s1).1 = (chooseSlot s 2).isSome := verifyStage_fst 0 2 s1
  have hexec : exec (.vauxUp dt straps) s = .next (
      let b := verifyStage 0 2 s1
      let u := { b.2 with sec := { b.2.sec with ferryRecovery := !b.1 || bitOf straps.toNat 6 } }
      if bitOf straps.toNat 4 && !u.sec.ferryRecovery then requestVin u else u) := if_pos hgo
  refine ⟨_, hexec, ?_⟩
  dsimp only
  generalize verifyStage 0 2 s1 = b at hframe h1
  obtain ⟨b1, b2⟩ := b
  simp only at hframe h1
  subst hframe h1
  have hrec : ((!(chooseSlot s 2).isSome || bitOf straps.toNat 6) = true) ↔ chooseSlot s 2 = none ∨ straps.getLsbD 6 = true := by
    rw [bitOf_toNat]; cases chooseSlot s 2 <;> simp
  by_cases h4 : (bitOf straps.toNat 4 && !(!(chooseSlot s 2).isSome || bitOf straps.toNat 6)) = true
  · rw [if_pos h4]
    refine ⟨rfl, rfl, bitOf_toNat .., rfl, rfl, hrec, ⟨fun _ => .inr ?_, fun _ => rfl⟩⟩
    rw [Bool.and_eq_true, Bool.not_eq_true'] at h4
    exact ⟨by rw [← bitOf_toNat]; exact h4.1, h4.2⟩
  · rw [if_neg h4]
    refine ⟨rfl, rfl, bitOf_toNat .., rfl, rfl, hrec, ⟨fun h => .inl h, fun h => h.elim id fun h => absurd ?_ h4⟩⟩
    rw [bitOf_toNat, h.1, Bool.true_and, Bool.not_eq_true']
    exact h.2

/-! ## VIN -/

/-- What a boot leaves of when VIN was asked for. -/
theorem pwrReqSince_coldBoot {s : State} (hr : s.rst.isSome = true) : (coldBoot s).fer.pwrReqSince = s.fer.pwrReqSince := by
  cases hf : s.brd.fref with
  | false => rw [coldBoot_noFref hf]; rfl
  | true =>
    have h := bootRest_coldBoot hf hr
    generalize coldBoot s = t at h
    have h2 : (bootRest t).fer.pwrReqSince = (bootRest (booted s)).fer.pwrReqSince := by rw [h]
    exact h2

theorem coldClear_fer (s : State) : (coldClear s).fer.pwrReqSince = s.fer.pwrReqSince ∧ (coldClear s).fer.power = s.fer.power ∧
    (coldClear s).fer.boots = s.fer.boots := by
  obtain ⟨e, q, h⟩ := powerRequeue_frame (resetEnds s)
  have hb := back_resetEnds s
  unfold coldClear
  rw [h]
  clear h
  generalize resetEnds s = u at hb
  have hsince := of_back (fun x : State => x.fer.pwrReqSince) (fun _ => rfl) hb
  have hpower := of_back (fun x : State => x.fer.power) (fun _ => rfl) hb
  have hboots := of_back (fun x : State => x.fer.boots) (fun _ => rfl) hb
  exact ⟨hsince, hpower, hboots⟩

/-- The state that VIN_UP clears: VIN and the reference as they come. -/
def vinState (dt : Nat) (straps : BitVec 7) (fref : Bool) (s : State) : State :=
  { pass dt s with
    fer := { s.fer with pwrReqSince := none, vinDead := false }
    brd := { s.brd with vinOn := true, fref := fref, straps := BitVec.ofNat 7 (setBits s.brd.straps.toNat 3 1 (bitsOf straps.toNat 3 1)) } }

theorem exec_vinUp {s : State} (hv : s.brd.vauxOn = true) (hp : s.brd.pwrReq = true) (hb : s.brd.brdRstN = true)
    (hr : s.fer.pwrReqSince.isSome = true) (hs : s.fer.power = .standby) (hm : s.fer.moduleReplace = false) (dt : Nat) (straps : BitVec 7)
    (fref : Bool) : exec (.vinUp dt straps fref []) s = .next (coldBoot (coldClear (vinState dt straps fref s))) := by
  have hgo : (s.brd.vauxOn && s.brd.pwrReq && s.brd.brdRstN && s.fer.pwrReqSince.isSome && (s.fer.power == .standby) && !s.fer.moduleReplace) = true := by
    rw [hv, hp, hb, hr, hs, hm]; rfl
  show execVinUp dt straps fref [] s = _
  unfold execVinUp
  dsimp only
  rw [if_pos hgo, List.filter_nil, List.foldl_nil]
  rfl

/-- VIN boots the device from cold: held without the reference clock or an image that verifies, else up. -/
theorem vinUp_boots {s : State} (hv : s.brd.vauxOn = true) (hp : s.brd.pwrReq = true) (hb : s.brd.brdRstN = true)
    (hr : s.fer.pwrReqSince.isSome = true) (hs : s.fer.power = .standby) (hm : s.fer.moduleReplace = false) (dt : Nat) (straps : BitVec 7)
    (fref : Bool) : Does (.vinUp dt straps fref []) s fun t =>
      (t.parts = [] ∧ t.cores = [] ∧ t.rings = [] ∧ t.journal = s.journal ∧ t.fer.epoch = s.fer.epoch + 1 ∧
        t.sec.svn = s.sec.svn ∧ (∀ a, memByte t a = 0) ∧ ∀ d ∈ t.descs, d.live = false) ∧
      t.brd.vinOn = true ∧ t.brd.fref = fref ∧ t.fer.pwrReqSince = none ∧ t.fer.fuses = s.fer.fuses ∧
      (fref = false → t.rst = some { cold := true, since := s.clock + dt, waitFref := true } ∧ t.fer.power = .standby) ∧
      (fref = true → (∀ e ∈ s.mem.hbmStacks, e.2.failed = false ∧ e.2.st = .active) →
        if (chooseSlot s 0).isSome ∧ (chooseSlot s 1).isSome then t.rst = none ∧ t.sec.stage = 6 ∧ t.fer.power = .active
        else t.rst.isSome ∧ t.sec.held = true ∧ t.fer.power = .standby) := by
  have hexec := exec_vinUp hv hp hb hr hs hm dt straps fref
  -- what the state that is cleared shares with `s`
  have h1 : (vinState dt straps fref s).journal = s.journal := rfl
  have h2 : (vinState dt straps fref s).fer.epoch = s.fer.epoch := rfl
  have h3 : (vinState dt straps fref s).fer.fuses = s.fer.fuses := rfl
  have h4 : (vinState dt straps fref s).fer.power = .standby := hs
  have h5 : (vinState dt straps fref s).sec = s.sec := rfl
  have h6 : (vinState dt straps fref s).mem.hbmStacks = s.mem.hbmStacks := rfl
  have h7 : (vinState dt straps fref s).clock = s.clock + dt := rfl
  have h8 : (vinState dt straps fref s).brd.vinOn = true := rfl
  have h9 : (vinState dt straps fref s).brd.fref = fref := rfl
  have h10 : (vinState dt straps fref s).fer.pwrReqSince = none := rfl
  generalize vinState dt straps fref s = v at hexec h1 h2 h3 h4 h5 h6 h7 h8 h9 h10
  have hclear := coldClear_cleared v
  obtain ⟨hsince, hpower, -⟩ := coldClear_fer v
  have hrst := coldClear_rst v
  have hslot := chooseSlot_coldClear v
  have hhealth := coldClear_healthy (s := v)
  generalize coldClear v = u at hexec hclear hsince hpower hrst hslot hhealth
  have hc := hclear.coldBoot hrst
  have hpw := pwrReqSince_coldBoot hrst
  have hfref : u.brd.fref = fref := by rw [hclear.brd]; exact h9
  refine ⟨_, hexec, ⟨hc.parts, hc.cores, hc.rings, hc.journal.trans h1, by rw [hc.epoch, h2], by rw [hc.svn, h5], hc.memByte, hc.dead⟩,
    by rw [hc.brd]; exact h8, by rw [hc.brd]; exact h9, by rw [hpw, hsince, h10], by rw [hc.fuses, h3], fun hfr => ?_, fun hfr hst => ?_⟩
  · rw [coldBoot_noFref (hfref.trans hfr)]
    exact ⟨by show some _ = some _; rw [hclear.clock, h7], hpower.trans h4⟩
  · rw [← chooseSlot_congr h5 0, ← chooseSlot_congr h5 1, ← hslot 0, ← hslot 1]
    split
    · next hboth => exact coldBoot_up (hfref.trans hfr) hboth.1 hboth.2 (hhealth (by rw [h6]; exact hst))
    · next hbad =>
      obtain ⟨k1, k2, k3⟩ := coldBoot_held (hfref.trans hfr) hrst hbad
      exact ⟨k1, k2, k3.trans (hpower.trans h4)⟩

/-! ## BRD_RST_N and FREF -/

theorem exec_brdRstNRise {s : State} (h : s.brd.brdRstN = false) (dt : Nat) : exec (.brdRstNRise dt) s = .next (
    if s.brd.vauxOn && decide (s.brd.brdLowSince + 1000000 ≤ s.clock + dt) then coldReset { pass dt s with brd := { s.brd with brdRstN := true } }
    else { pass dt s with brd := { s.brd with brdRstN := true } }) := by
  show execBrdRstNRise dt s = _
  unfold execBrdRstNRise
  rw [h]; rfl

/-- Rung 3 out of a running device: the warm reset, with a power cycle or without. -/
theorem rungThree_warm {s : State} (hr : s.rst = none) (ht : s.fer.trip = none) (n : Nat) (st : Status) :
    (rungThree n st s).rst = some { cold := false, since := s.clock, waitFref := false } ∧ (rungThree n st s).parts = [] ∧
    CoresCleared s (rungThree n st s) ∧ (rungThree n st s).fer.epoch = s.fer.epoch + 1 ∧
    (rungThree n st s).brd = { s.brd with pwrcyc := (rungThree n st s).brd.pwrcyc } ∧
    ∀ d ∈ (rungThree n st s).descs, d.live = false := by
  unfold rungThree
  extract_lets old fer u
  have hu : memRest u = memRest { s with fer := { s.fer with rung3 := s.clock :: old } } := memRest_takeRung ..
  have hrst : u.rst = none := (of_memRest State.rst (fun _ => rfl) hu :).trans hr
  have htrip : u.fer.trip = none := (of_memRest (fun x => x.fer.trip) (fun _ => rfl) hu :).trans ht
  have hclock : u.clock = s.clock := (of_memRest State.clock (fun _ => rfl) hu :)
  have hepoch : u.fer.epoch = s.fer.epoch := (of_memRest (fun x => x.fer.epoch) (fun _ => rfl) hu :)
  have hbrd : u.brd = s.brd := (of_memRest State.brd (fun _ => rfl) hu :)
  have hcores : u.cores = s.cores := (of_memRest State.cores (fun _ => rfl) hu :)
  clear_value u
  have hw1 := rst_warmReset u
  have hw2 := parts_warmReset u
  have hw3 : CoresCleared s (warmReset u) := fun c => hcores ▸ cores_warmReset u c
  have hw4 : (warmReset u).fer.epoch = u.fer.epoch + 1 := (of_back (fun x => x.fer.epoch) (fun _ => rfl) (back_warmReset u) :)
  have hw5 : (warmReset u).brd = u.brd := (of_back State.brd (fun _ => rfl) (back_warmReset u) :)
  have hw6 : ∀ d ∈ (warmReset u).descs, d.live = false := fun d hd => dead_warmReset hd
  rw [hclock] at hw1
  rw [hepoch] at hw4
  rw [hbrd] at hw5
  split
  · unfold powerCycle
    rw [hrst]
    simp only [Option.isSome_none, Bool.false_eq_true, if_false]
    generalize warmReset u = w at hw1 hw2 hw3 hw4 hw5 hw6
    generalize hx : ({ w with brd := { w.brd with pwrcyc := true }
                              fer := { w.fer with pwrcycSince := some w.clock, pwrcycReport := w.clock } } : State) = x
    have h1 : x.rst = w.rst := by rw [← hx]
    have h2 : x.parts = w.parts := by rw [← hx]
    have h3 : x.cores = w.cores := by rw [← hx]
    have h4 : x.fer.epoch = w.fer.epoch := by rw [← hx]
    have h5 : x.brd = { w.brd with pwrcyc := true } := by rw [← hx]
    have h6 : x.descs = w.descs := by rw [← hx]
    have hk : ∀ t : State, (takeRung 4 0 .deviceResetting t).parts = t.parts ∧ (takeRung 4 0 .deviceResetting t).descs = t.descs := fun t => by
      simp only [takeRung]; split <;> exact ⟨rfl, rfl⟩
    have hm := memRest_takeRung 4 0 .deviceResetting x
    obtain ⟨k1, k2⟩ := hk x
    generalize takeRung 4 0 .deviceResetting x = y at hm k1 k2
    have m1 : y.rst = x.rst := (of_memRest State.rst (fun _ => rfl) hm :)
    have m3 : y.cores = x.cores := (of_memRest State.cores (fun _ => rfl) hm :)
    have m4 : y.fer.epoch = x.fer.epoch := (of_memRest (fun x => x.fer.epoch) (fun _ => rfl) hm :)
    have m5 : y.brd = x.brd := (of_memRest State.brd (fun _ => rfl) hm :)
    refine ⟨by rw [m1, h1, hw1], by rw [k1, h2, hw2], fun c => ?_, by rw [m4, h4, hw4], by rw [m5, h5, hw5], by rw [k2, h6]; exact hw6⟩
    have hc : getCore y c = getCore w c := by unfold getCore; rw [m3, h3]
    rw [hc]; exact hw3 c
  · rw [hrst, htrip]
    exact ⟨hw1, hw2, hw3, hw4, by rw [show (if (none : Option Reset).isSome || (none : Option Trip).isSome then u else warmReset u) = warmReset u from rfl, hw5], hw6⟩

/-- Settles O53, event by event. -/
theorem boardEvents : Obligations.BoardEvents := by
  unfold Obligations.BoardEvents
  intro cleared
  have hcleared : ∀ {s t : State}, ColdCleared s t → cleared s t := fun h =>
    ⟨h.parts, h.cores, h.rings, h.journal, h.epoch, h.svn, h.memByte, h.dead⟩
  refine ⟨fun s => ?_, fun s dt straps hv hdt => exec_vauxUp hv hdt straps, fun s dt straps fref hv hp hb hr hs hm => ?_, fun s h => if_pos h,
    fun s dt h => ⟨fun hv hl hs ht => ?_, fun hv hl hs => ?_, fun hl => ?_⟩, fun s h => ⟨fun hp hr hh ht => ?_, fun hq => ?_⟩,
    fun s h => ⟨fun hr => ?_, fun r hr hw hc => ?_, fun r hr hw hc hb => ?_⟩⟩
  · obtain ⟨u, t, hf, hs, ho, hfree, hexec, h1, h2, h3, h4, h5, h6, h7, h8, h9, h10, h11, h12, h13⟩ := exec_vauxLoss s
    exact ⟨t, hexec, by rw [h1], h2, h3, h4, h5, h6, h7, memByte_of_noBytes h8 h9, by rw [h1, hf], by rw [h1], by rw [h10, hs], by rw [h11, hs],
      by rw [h12, ho], by rw [h13, hfree]⟩
  · exact vinUp_boots hv hp hb hr hs hm dt straps fref
  · have hgo : (s.brd.vauxOn && decide (s.brd.brdLowSince + 1000000 ≤ s.clock + dt)) = true := by simp [hv, hl]
    have hexec := exec_brdRstNRise h dt
    rw [if_pos hgo] at hexec
    have hc := coldReset_cleared (s := { pass dt s with brd := { s.brd with brdRstN := true } }) hs ht
    exact ⟨_, hexec, ⟨hc.parts, hc.cores, hc.rings, hc.journal, hc.epoch, hc.svn, hc.memByte, hc.dead⟩, by rw [hc.brd], by rw [hc.brd]⟩
  · have hgo : (s.brd.vauxOn && decide (s.brd.brdLowSince + 1000000 ≤ s.clock + dt)) = true := by simp [hv, hl]
    rw [exec_brdRstNRise h dt, if_pos hgo]
    exact congrArg Host.Outcome.next (if_pos hs)
  · have hgo : (s.brd.vauxOn && decide (s.brd.brdLowSince + 1000000 ≤ s.clock + dt)) = false := by
      rw [decide_eq_false (by omega), Bool.and_false]
    rw [exec_brdRstNRise h dt, if_neg (by rw [hgo]; decide)]
  · have hexec : exec .frefLoss s = .next (rungThree 0 .deviceResetting { s with brd := { s.brd with fref := false } }) := by
      show execFrefLoss s = _
      unfold execFrefLoss
      rw [if_pos h]
      exact congrArg Host.Outcome.next (if_neg (by simp [hp, hr, hh]))
    obtain ⟨h1, h2, h3, h4, h5, -⟩ := rungThree_warm (s := { s with brd := { s.brd with fref := false } }) hr ht 0 .deviceResetting
    exact ⟨_, hexec, by rw [h5], h1, h2, h3, h4⟩
  · show execFrefLoss s = _
    unfold execFrefLoss
    rw [if_pos h]
    refine congrArg Host.Outcome.next (if_pos ?_)
    rcases hq with hq | hq <;> simp [hq]
  · show execFrefReturn s = _
    unfold execFrefReturn
    simp only [h, hr]; rfl
  · show execFrefReturn s = _
    unfold execFrefReturn
    simp only [h, hr, hw, hc]; rfl
  · have hexec : exec .frefReturn s = .next (coldBoot { s with brd := { s.brd with fref := true } }) := by
      show execFrefReturn s = _
      unfold execFrefReturn
      rw [h, if_neg Bool.false_ne_true]
      dsimp only
      rw [hr]
      refine if_pos ?_
      rw [hw, hc]
      show (!resetBarred s) = true
      rw [hb]; rfl
    have hrs : ({ s with brd := { s.brd with fref := true } } : State).rst.isSome = true := by show s.rst.isSome = true; rw [hr]; rfl
    have hrest := bootRest_coldBoot (s := { s with brd := { s.brd with fref := true } }) rfl hrs
    have hends := coldBoot_ends (s := { s with brd := { s.brd with fref := true } }) rfl hrs
    generalize coldBoot { s with brd := { s.brd with fref := true } } = t at hexec hrest hends
    refine ⟨t, hexec, ?_, ?_, ?_, fun e he => ?_⟩
    · rw [of_bootRest State.brd (fun _ => rfl) hrest]; rfl
    · exact (of_bootRest (fun x => x.fer.boots) (fun _ => rfl) hrest :)
    · exact (of_bootRest State.journal (fun _ => rfl) hrest :)
    · rcases hends with h | h
      · rw [h] at he; cases he
      · exact .inr h

end Sys2Proof.Machine
end

section
/-!
PROOFS. Descriptors of one ring: not-before waits, FENCE, SYNC_SIGNAL and SYNC_WAIT (R347 to R349, R457, R463), fetch
and report (R455, R464 to R466).
-/
namespace Sys2Proof.Machine

/-! ## A descriptor starts, or waits for its not-before time -/

theorem acceptThen_waits {s : State} {d : Desc} (hn : startsNow s d = false) (go : Desc → State → State) :
    acceptThen d go s = setPhase d.id .waiting s := if_neg (by rw [hn]; exact Bool.false_ne_true)

theorem acceptThen_starts {s : State} {d : Desc} (hn : startsNow s d = true) (go : Desc → State → State) :
    acceptThen d go s = go d s := if_pos hn

theorem waiting_stands {s : State} {id op : Nat} {d : Desc} (h : AtTurn s id op d) :
    Stands (setPhase d.id .waiting s) id .waiting := by
  rw [findDesc_id h.found]
  exact setPhase_stands h.found (live_of_fetched h.fetched) _

/-- What a started descriptor reads as. -/
theorem findDesc_started {s : State} {id : Nat} {d : Desc} (h : findDesc s id = some d) (hlive : d.live = true) :
    findDesc (setPhase d.id .started s) d.id = some { d with phase := .started } := by
  obtain rfl := findDesc_id h
  rw [findDesc_setPhase, if_pos rfl, h, Option.map_some, if_pos hlive]

theorem checked_bounds (d : Desc) (go : State → State) (s : State) :
    checked d (some .descBounds) go s = refuseDesc d.id .descBounds s := rfl

/-! ## FENCE (R463) -/

/-- A change that keeps every descriptor's number, function and ring keeps what a FENCE waits for. -/
theorem fenceMet_map {s t : State} {f : Desc → Desc} (ht : t.descs = s.descs.map f)
    (hf : ∀ d, (f d).id = d.id ∧ (f d).fn = d.fn ∧ (f d).ring = d.ring) (d : Desc) : fenceMet t d = fenceMet s d := by
  have hany (p : Desc → Bool) (hp : ∀ e, p (f e) = p e) : t.descs.any p = s.descs.any p := by
    rw [ht, List.any_map]
    exact congrArg (s.descs.any ·) (funext hp)
  unfold fenceMet
  dsimp only
  rw [hany]
  intro e
  obtain ⟨hid, hfn, hring⟩ := hf e
  rw [hid, hfn, hring]

theorem fenceMet_setPhase (id : Nat) (ph : DescPhase) (s : State) (d : Desc) :
    fenceMet (setPhase id ph s) d = fenceMet s d := by
  refine fenceMet_map (s := s) rfl (fun e => ?_) d
  dsimp only
  split
  · split <;> exact ⟨rfl, rfl, rfl⟩
  · exact ⟨rfl, rfl, rfl⟩

/-- A FENCE that starts completes at once when nothing it waits for is open, else it stands started. -/
theorem fenceStart_stands {s : State} {id : Nat} {d : Desc} (h : findDesc s id = some d) (hlive : d.live = true)
    (hcodes : d.codes = []) :
    Stands (fenceStart d s) id (if fenceMet s d then .done .ok else .started) ∧
      fenceStart d s = { s with descs := (fenceStart d s).descs } := by
  obtain rfl := findDesc_id h
  have hstart := findDesc_started h hlive
  unfold fenceStart
  dsimp only
  rw [fenceMet_setPhase]
  split
  · refine ⟨?_, rfl⟩
    exact finishDesc_stands hstart rfl hcodes .ok
  · exact ⟨⟨_, hstart, rfl⟩, rfl⟩

theorem exec_fence {s : State} {id : Nat} {d : Desc} (h : AtTurn s id 0x0A d) (hrsv : bitsOf (d.at 16 1) 1 7 = 0)
    (hz : zeroAt d.bytes [(17, 47)] = true) : exec (.fence id) s = .next (acceptThen d fenceStart s) := by
  show execFence id s = _
  rw [execFence, atAcceptance_of h]
  dsimp only
  rw [hrsv, hz]
  rfl

theorem exec_fill {s : State} {id : Nat} {d : Desc} (h : AtTurn s id 0x09 d) (hc : fillCheck s d = none) :
    exec (.fill id) s = .next (acceptThen d fillStart s) := by
  show execFill id s = _
  rw [execFill, atAcceptance_of h]
  dsimp only
  rw [hc]
  rfl

/-! ## SYNC_SIGNAL and SYNC_WAIT (R347 to R349) -/

theorem exec_syncSignal {s : State} {id : Nat} {d : Desc} (h : AtTurn s id 0x10 d) (hrsv : counterRsv (d.at 16 8) = false)
    (hz : zeroAt d.bytes [(28, 36)] = true) :
    exec (.syncSignal id) s = .next (checked d (if d.at 24 4 = 0 then some .ok else if counterOut s d then some .descBounds else none)
      (acceptThen d signalStart) s) := by
  show execSyncSignal id s = _
  rw [execSyncSignal, atAcceptance_of h]
  dsimp only
  rw [hrsv, hz]
  rfl

theorem exec_syncWait {s : State} {id : Nat} {d : Desc} (h : AtTurn s id 0x11 d) (hrsv : counterRsv (d.at 16 8) = false)
    (hz : zeroAt d.bytes [(38, 2), (40, 24)] = true) :
    exec (.syncWait id) s = .next (checked d (if counterOut s d then some .descBounds else none) (acceptThen d waitStart) s) := by
  show execSyncWait id s = _
  rw [execSyncWait, atAcceptance_of h]
  dsimp only
  rw [hrsv, hz]
  rfl

/-! ## A COUNTER field (R183) -/

theorem leNat_lt (b : Bytes) : leNat b < 256 ^ b.length := by
  induction b with
  | nil => exact Nat.one_pos
  | cons x t ih =>
    rw [leNat, List.length_cons, Nat.pow_succ]
    have hx := x.isLt
    omega

theorem leAt_lt (b : Bytes) (off n : Nat) : leAt b off n < 256 ^ n :=
  Nat.lt_of_lt_of_eq (leNat_lt _) (by rw [length_sliceB])

section
variable (d : Desc)

theorem counter_lt : d.at 16 8 < 2 ^ 64 := leAt_lt d.bytes 16 8

theorem counter_toNat : (BitVec.ofNat 64 (d.at 16 8) : DWord).toNat = d.at 16 8 :=
  Nat.mod_eq_of_lt (counter_lt d)

theorem refIndex_counter : refIndex (BitVec.ofNat 64 (d.at 16 8)) = d.at 16 8 % 2 ^ 14 := by
  rw [refIndex, counter_toNat, bitsOf, Nat.pow_zero, Nat.div_one]

theorem far_counter : (BitVec.ofNat 64 (d.at 16 8) : DWord).getLsbD 16 = bitOf (d.at 16 8) 16 := by
  rw [← BitVec.testBit_toNat, counter_toNat, bitOf_eq_testBit]

theorem counterOut_eq (s : State) : counterOut s d =
    (!(BitVec.ofNat 64 (d.at 16 8) : DWord).getLsbD 16 && decide ((getPart s d.fn).pcount ≤ d.at 16 8 % 2 ^ 14)) := by
  rw [counterOut, refIndex_counter, counter_toNat, far_counter]

theorem reaches_counter {far : Bool} {index count : Nat} (h : far = true ∨ index < count) :
    (!far && decide (count ≤ index)) = false := by
  rcases h with h | h
  · rw [h]; rfl
  · rw [decide_eq_false (Nat.not_le_of_lt h), Bool.and_false]

/-- A reference to this node is local, whatever its REMOTE bit says. -/
theorem refRemote_here {s : State}
    (h : (BitVec.ofNat 64 (d.at 16 8) : DWord).getLsbD 16 = false ∨ d.at 16 8 / 2 ^ 48 = nodeId s) :
    refRemote s (BitVec.ofNat 64 (d.at 16 8)) = false := by
  have hlt := counter_lt d
  rw [refRemote, counter_toNat, ← far_counter, bitsOf, Nat.mod_eq_of_lt (a := d.at 16 8 / 2 ^ 48) (by omega)]
  rcases h with h | h
  · rw [h, Bool.false_and]
  · rw [h, bne_self_eq_false, Bool.and_false]

end

theorem signalStart_here {s : State} {d : Desc} (h : refRemote s (BitVec.ofNat 64 (d.at 16 8)) = false) :
    signalStart d s = postSignal { part := d.fn, index := d.at 16 8 % 2 ^ 14, inc := d.at 24 4, origin := .desc d.id
                                   far := (BitVec.ofNat 64 (d.at 16 8) : DWord).getLsbD 16 } (setPhase d.id .started s) := by
  rw [signalStart, if_neg (by rw [show refRemote (setPhase d.id .started s) _ = refRemote s _ from rfl, h]; exact Bool.false_ne_true),
    refIndex_counter, counter_toNat, far_counter]

theorem waitStart_here {s : State} {d : Desc} (h : refRemote s (BitVec.ofNat 64 (d.at 16 8)) = false) :
    waitStart d s = postWait { part := d.fn, issuer := d.fn, index := d.at 16 8 % 2 ^ 14, expected := BitVec.ofNat 64 (d.at 24 8)
                               deadline := BitVec.ofNat 48 (d.at 32 6), origin := .desc d.id
                               far := (BitVec.ofNat 64 (d.at 16 8) : DWord).getLsbD 16 } (setPhase d.id .started s) := by
  rw [waitStart, if_neg (by rw [show refRemote (setPhase d.id .started s) _ = refRemote s _ from rfl, h]; exact Bool.false_ne_true),
    refIndex_counter, counter_toNat, far_counter]

/-- Settles O16: each command passes its checks, then waits for its not-before time or starts; a start of a SYNC_SIGNAL or
SYNC_WAIT of this node posts one message. -/
theorem waitsFencesAndCounters : Obligations.WaitsFencesAndCounters := by
  unfold Obligations.WaitsFencesAndCounters
  refine ⟨fun s id d => ⟨fun h hn hrsv hz => ?_, fun h hn hc => ?_, fun h hn hrsv hz hinc hin => ?_, fun dt h hw hop hn hcodes => ?_⟩,
    fun s id d hn hcodes => ⟨fun h hrsv hz => ?_, fun h hrsv hz here => ⟨fun hinc => ?_, fun hinc hl hout => ?_, ?_⟩,
      fun h hrsv hz here => ⟨fun hl hout => ?_, fun hgo => ?_⟩⟩⟩
  · exact ⟨_, exec_fence h hrsv hz, by rw [acceptThen_waits hn]; exact ⟨waiting_stands h, rfl⟩⟩
  · exact ⟨_, exec_fill h hc, by rw [acceptThen_waits hn]; exact ⟨waiting_stands h, rfl⟩⟩
  · refine ⟨_, exec_syncSignal h hrsv hz, ?_⟩
    rw [if_neg hinc, hin, if_neg Bool.false_ne_true, checked, acceptThen_waits hn]
    exact ⟨waiting_stands h, rfl⟩
  · have hlive : d.live = true := by rw [Desc.live, hw]
    refine ⟨fenceStart d (pass dt s), ?_, fenceStart_stands h hlive hcodes⟩
    show execNotBeforeReached dt id s = _
    have hf : findDesc (pass dt s) id = some d := h
    rw [execNotBeforeReached, hf]
    dsimp only
    rw [hw, hn, hop]
    rfl
  · refine ⟨_, exec_fence h hrsv hz, ?_⟩
    rw [acceptThen_starts hn]
    exact fenceStart_stands h.found (live_of_fetched h.fetched) hcodes
  · refine ⟨_, exec_syncSignal h hrsv hz, ?_⟩
    rw [if_pos hinc, checked, findDesc_id h.found]
    exact ⟨finishDesc_stands h.found (live_of_fetched h.fetched) hcodes _, rfl⟩
  · refine ⟨_, exec_syncSignal h hrsv hz, ?_⟩
    rw [if_neg hinc, counterOut_eq, hl, decide_eq_true hout, Bool.not_false, Bool.and_true, if_pos rfl, checked_bounds, findDesc_id h.found]
    exact ⟨refuseDesc_stands h.found (live_of_fetched h.fetched) _, rfl⟩
  · intro hinc hgo
    obtain rfl := findDesc_id h.found
    have hin : counterOut s d = false := by rw [counterOut_eq]; exact reaches_counter hgo
    refine ⟨_, exec_syncSignal h hrsv hz, ?_⟩
    rw [if_neg hinc, hin, if_neg Bool.false_ne_true, checked, acceptThen_starts hn, signalStart_here (refRemote_here d here)]
    exact ⟨setPhase_stands h.found (live_of_fetched h.fetched) _, rfl⟩
  · refine ⟨_, exec_syncWait h hrsv hz, ?_⟩
    rw [counterOut_eq, hl, decide_eq_true hout, Bool.not_false, Bool.and_true, if_pos rfl, checked_bounds, findDesc_id h.found]
    exact ⟨refuseDesc_stands h.found (live_of_fetched h.fetched) _, rfl⟩
  · obtain rfl := findDesc_id h.found
    have hin : counterOut s d = false := by rw [counterOut_eq]; exact reaches_counter hgo
    refine ⟨_, exec_syncWait h hrsv hz, ?_⟩
    rw [hin, if_neg Bool.false_ne_true, checked, acceptThen_starts hn, waitStart_here (refRemote_here d here)]
    exact ⟨setPhase_stands h.found (live_of_fetched h.fetched) _, rfl⟩

end Sys2Proof.Machine
end

section
/-!
PROOFS. A descriptor is fetched (O14: R458, R464 to R466) and reported when it has ended (O15: R455, R463, R490).
-/
namespace Sys2Proof.Machine

/-! ## Messages to the host -/

theorem journalHost_eq (e : JEntry) (s : State) : ∃ o, journalHost e s = { s with out := o ++ s.out } := by
  unfold journalHost
  split
  · exact ⟨[_], rfl⟩
  · exact ⟨[], rfl⟩

/-- A function's vector is signalled, or stays pending. -/
theorem signalVector_eq (fn v : Nat) (s : State) : ∃ o fs l,
    signalVector fn v s = { s with out := o ++ s.out, funcs := fs, link := l } := by
  unfold signalVector
  dsimp only
  split
  · exact ⟨[_], _, _, rfl⟩
  · split
    · exact ⟨[], _, _, rfl⟩
    · exact ⟨[], _, _, rfl⟩

/-! ## Fetch (R458, R464 to R466) -/

/-- The checks of R458 look at the device's resets and its partitions. -/
theorem fetchCheck_congr {s t : State} (hr : t.rst = s.rst) (hf : t.fer = s.fer) (hp : t.parts = s.parts) (fn : Nat) (b : Bytes) :
    fetchCheck t fn b = fetchCheck s fn b := by
  unfold fetchCheck mayOpcode isStarted getPart
  rw [hr, hf, hp]

/-- The refusal of the newest descriptor leaves the others alone. -/
theorem refuseDesc_newest {s : State} {l : List Desc} {d : Desc} (hs : s.descs = l ++ [d]) (hl : ∀ e ∈ l, e.id ≠ d.id) (hlive : d.live = true)
    (st : Status) : refuseDesc d.id st s = { s with descs := l ++ [{ d with phase := .done st, refused := true }] } := by
  have hold : l.map (fun e => if e.id = d.id then (if e.live then { e with phase := .done st, refused := true } else e) else e) = l :=
    List.map_congr_left (fun e he => if_neg (hl e he)) |>.trans (List.map_id l)
  rw [refuseDesc, updDesc, hs, List.map_append, hold, List.map_singleton, if_pos rfl, if_pos hlive]

/-- The descriptor that a fetch numbers (R465). -/
def fetchedDesc (r : Nat) (b : Bytes) (s : State) : Desc :=
  { id := s.accepts, fn := ringOwner s r, ring := r, generation := (getRing s r).generation
    jseq := (s.funcs.get {} (ringOwner s r)).jseq, bytes := b, accepted := s.now }

/-- The state in which a descriptor has its numbers and its journal entry, and the queue's head has moved on. -/
def fetchNumbered (r : Nat) (b : Bytes) (s : State) : State :=
  updRing r (fun g => { g with sqHead := (g.sqHead + 1) % ringSize g }) { s with
    accepts := s.accepts + 1, descs := s.descs ++ [fetchedDesc r b s]
    journal := Tbl.set none s.journal (s.accepts % 4096) (some (journalEntry (fetchedDesc r b s) 0 0))
    funcs := Tbl.set {} s.funcs (ringOwner s r)
      { s.funcs.get {} (ringOwner s r) with jseq := (s.funcs.get {} (ringOwner s r)).jseq + 1 } }

/-- The descriptor as the checks of the header leave it (R458). -/
def checkedDesc (c : Option Status) (d : Desc) : Desc :=
  match c with
  | none => d
  | some st => { d with phase := .done st, refused := true }

theorem checkedDesc_phase (c : Option Status) {d : Desc} (h : d.phase = .fetched) :
    (checkedDesc c d).phase = (match c with | none => .fetched | some st => .done st) := by
  cases c with
  | none => exact h
  | some st => rfl

theorem checkedDesc_fields (c : Option Status) (d : Desc) : (checkedDesc c d).id = d.id ∧ (checkedDesc c d).fn = d.fn ∧
    (checkedDesc c d).ring = d.ring ∧ (checkedDesc c d).jseq = d.jseq ∧ (checkedDesc c d).bytes = d.bytes ∧
    (checkedDesc c d).accepted = d.accepted := by cases c <;> exact ⟨rfl, rfl, rfl, rfl, rfl, rfl⟩

theorem fetchNumbered_journal (r : Nat) (b : Bytes) (s : State) :
    (fetchNumbered r b s).journal.get none (s.accepts % 4096) = some (journalEntry (fetchedDesc r b s) 0 0) := by
  show (Tbl.set none s.journal (s.accepts % 4096) (some (journalEntry (fetchedDesc r b s) 0 0))).get none (s.accepts % 4096) = _
  exact Tbl.get_set_self none s.journal _ _

/-- One fetch numbers its descriptor, then checks its header. -/
theorem fetchOne_eq (r : Nat) (b : Bytes) (s : State) (hids : ∀ e ∈ s.descs, e.id < s.accepts) : ∃ o, fetchOne r b s =
    { fetchNumbered r b s with out := o, descs := s.descs ++ [checkedDesc (fetchCheck s (ringOwner s r) b) (fetchedDesc r b s)] } := by
  obtain ⟨o, ho⟩ := journalHost_eq (journalEntry (fetchedDesc r b s) 0 0) (fetchNumbered r b s)
  have hcheck := fetchCheck_congr (s := s) (t := journalHost (journalEntry (fetchedDesc r b s) 0 0) (fetchNumbered r b s))
    (by rw [ho]; rfl) (by rw [ho]; rfl) (by rw [ho]; rfl) (ringOwner s r) b
  have hone : fetchOne r b s =
      match fetchCheck (journalHost (journalEntry (fetchedDesc r b s) 0 0) (fetchNumbered r b s)) (ringOwner s r) b with
      | some st => refuseDesc (fetchedDesc r b s).id st (journalHost (journalEntry (fetchedDesc r b s) 0 0) (fetchNumbered r b s))
      | none => journalHost (journalEntry (fetchedDesc r b s) 0 0) (fetchNumbered r b s) := rfl
  refine ⟨o ++ s.out, ?_⟩
  rw [hone, hcheck, ho]
  cases fetchCheck s (ringOwner s r) b with
  | none => rfl
  | some st => exact refuseDesc_newest (l := s.descs) rfl (fun e he => Nat.ne_of_lt (hids e he)) rfl st

theorem exec_descriptorFetch_one {s : State} {dt r : Nat} {b : Bytes} (hlen : b.length = 64) (hm : mayFetch (pass dt s) r = true) :
    exec (.descriptorFetch dt r b) s = .next (fetchOne r b (pass dt s)) := by
  show execDescriptorFetch dt r b s = _
  have htake : b.take 64 = b := List.take_of_length_le hlen.le
  simp only [execDescriptorFetch, hm, hlen, chunks, fetchAll, htake]
  rfl

/-- Settles O14, by the equation of one fetch. -/
theorem descriptorFetched : Obligations.DescriptorFetched := by
  unfold Obligations.DescriptorFetched
  intro s dt r b hlen hm hids
  obtain ⟨o, ho⟩ := fetchOne_eq r b (pass dt s) hids
  refine ⟨_, exec_descriptorFetch_one hlen hm, ?_⟩
  rw [ho]
  clear ho
  refine ⟨⟨_, rfl, ?_⟩, rfl, fun e he => ?_, ?_, ?_, ⟨journalEntry (fetchedDesc r b (pass dt s)) 0 0, fetchNumbered_journal r b (pass dt s), rfl, rfl, rfl, rfl, rfl, ?_⟩, rfl, rfl, rfl⟩
  · obtain ⟨hid, hfn, hring, hjseq, hbytes, hacc⟩ :=
      checkedDesc_fields (fetchCheck (pass dt s) (ringOwner s r) b) (fetchedDesc r b (pass dt s))
    exact ⟨hid, hfn, hring, hjseq, hbytes, hacc, checkedDesc_phase _ rfl⟩
  · have hno := (checkedDesc_fields (fetchCheck (pass dt s) (ringOwner s r) b) (fetchedDesc r b (pass dt s))).1
    obtain he | he := List.mem_append.mp he
    · exact Nat.lt_succ_of_lt (hids e he)
    · rw [List.mem_singleton.mp he]
      exact Nat.lt_succ_of_le hno.le
  · exact congrArg Func.jseq (Tbl.get_set_self _ _ _ _)
  · show (getRing (fetchNumbered r b (pass dt s)) r).sqHead = _
    rw [fetchNumbered, getRing_updRing, if_pos rfl]; rfl
  · rfl

/-! ## Report (R455, R463, R490) -/

/-- The journal after a descriptor's completion: its entry is renewed while the SRAM still holds it (R466). -/
def journalAfter (d : Desc) (e : JEntry) (s : State) : Tbl (Option JEntry) :=
  match s.journal.get none (d.id % 4096) with
  | some o => if o.fn = d.fn && o.jseq == d.jseq then Tbl.set none s.journal (d.id % 4096) (some e) else s.journal
  | none => s.journal

theorem journalAfter_held {d : Desc} {e o : JEntry} {s : State} (h : s.journal.get none (d.id % 4096) = some o) (hfn : o.fn = d.fn)
    (hj : o.jseq = d.jseq) : (journalAfter d e s).get none (d.id % 4096) = some e := by
  rw [journalAfter, h]
  dsimp only
  rw [hfn, hj, decide_eq_true rfl, beq_self_eq_true, Bool.and_self, if_pos rfl]
  exact Tbl.get_set_self none s.journal _ _

theorem ite_journalHost (c : Prop) [Decidable c] (e : JEntry) (u : State) :
    ∃ o, (if c then journalHost e u else u) = { u with out := o } := by
  split
  · obtain ⟨o, ho⟩ := journalHost_eq e u
    exact ⟨_, ho⟩
  · exact ⟨_, rfl⟩

theorem journalDone_eq (d : Desc) (e : JEntry) (s : State) :
    ∃ o, journalDone d e s = { s with out := o, journal := journalAfter d e s } := by
  unfold journalDone journalAfter
  dsimp only
  cases s.journal.get none (d.id % 4096) with
  | none => exact ite_journalHost _ e s
  | some o =>
    dsimp only
    by_cases hc : (decide (o.fn = d.fn) && o.jseq == d.jseq) = true
    · simp only [if_pos hc]
      exact ite_journalHost _ e { s with journal := Tbl.set none s.journal (d.id % 4096) (some e) }
    · simp only [if_neg hc]
      exact ite_journalHost _ e s

/-- A ring in which one more completion is counted for coalescing. -/
def countedRing (s : State) (g : Ring) : Ring :=
  { g with coalPending := g.coalPending + 1, coalSince := if g.coalPending = 0 then s.clock else g.coalSince }

/-- A signalled or counted completion leaves a ring's tail and phase (R469). -/
theorem coalesce_eq (r : Nat) (s : State) : ∃ o fs l rs,
    coalesce r s = { s with out := o ++ s.out, funcs := fs, link := l, rings := rs } ∧
    (Tbl.get {} rs r).cqTail = (getRing s r).cqTail ∧ (Tbl.get {} rs r).phase = (getRing s r).phase := by
  have hone : coalesce r s =
      if (getRing (updRing r (countedRing s) s) r).coalCount = 0 ||
        (getRing (updRing r (countedRing s) s) r).coalCount ≤ (getRing (updRing r (countedRing s) s) r).coalPending then
        ringSignal r (updRing r (countedRing s) s) else updRing r (countedRing s) s := rfl
  rw [hone]
  split
  · obtain ⟨o, fs, l, ho⟩ := signalVector_eq (ringOwner (updRing r (countedRing s) s) r)
      (getRing (updRing r (countedRing s) s) r).vector (updRing r (fun g => { g with coalPending := 0 }) (updRing r (countedRing s) s))
    refine ⟨o, fs, l, _, ho, ?_⟩
    show (getRing (updRing r _ (updRing r _ s)) r).cqTail = _ ∧ (getRing (updRing r _ (updRing r _ s)) r).phase = _
    rw [getRing_updRing, if_pos rfl, getRing_updRing, if_pos rfl]
    exact ⟨rfl, rfl⟩
  · refine ⟨[], _, _, _, rfl, ?_⟩
    show (getRing (updRing r _ s) r).cqTail = _ ∧ (getRing (updRing r _ s) r).phase = _
    rw [getRing_updRing, if_pos rfl]
    exact ⟨rfl, rfl⟩

theorem noticeRing_eq (fn bit r : Nat) (s : State) : ∃ o fs l rg,
    noticeRing fn bit r s = { s with out := o, funcs := fs, link := l, regs := rg } := by
  unfold noticeRing notice
  dsimp only
  split
  · obtain ⟨o, fs, l, ho⟩ := signalVector_eq fn
      (bitsOf (regN (setReg (hif fn 0x04) (BitVec.ofNat 32 (setBits (regN s (hif fn 0x04)) 16 8 r)) s) (hif fn 0x08)) 16 11)
      (orReg (hif fn 0x04) (BitVec.ofNat 32 (2 ^ bit))
        (setReg (hif fn 0x04) (BitVec.ofNat 32 (setBits (regN s (hif fn 0x04)) 16 8 r)) s))
    exact ⟨_, _, _, _, ho⟩
  · exact ⟨_, _, _, _, rfl⟩

theorem finishDesc_ids (id : Nat) (st : Status) (s : State) : (finishDesc id st s).descs.map Desc.id = s.descs.map Desc.id := by
  rw [finishDesc, updDesc, List.map_map]
  refine List.map_congr_left fun d _ => ?_
  dsimp only [Function.comp_apply]
  split
  · split <;> rfl
  · rfl

/-- FENCEs that end change nothing but their own phases. -/
theorem foldl_finishDesc (st : Status) (l : List Desc) (s : State) : ∃ ds,
    l.foldl (fun s d => finishDesc d.id st s) s = { s with descs := ds } ∧ ds.map Desc.id = s.descs.map Desc.id := by
  induction l generalizing s with
  | nil => exact ⟨_, rfl, rfl⟩
  | cons d l ih =>
    obtain ⟨ds, hds, hids⟩ := ih (finishDesc d.id st s)
    exact ⟨ds, hds, hids.trans (finishDesc_ids d.id st s)⟩

theorem fencesMet_eq (s : State) : ∃ ds, fencesMet s = { s with descs := ds } ∧ ds.map Desc.id = s.descs.map Desc.id :=
  foldl_finishDesc .ok _ s

theorem fencesMet_noFence {s : State} (h : ∀ e ∈ s.descs, e.opcode ≠ 0x0A) : fencesMet s = s := by
  have hnone : (s.descs.filter fun d => d.opcode == 0x0A && d.phase == .started && fenceMet s d) = [] := by
    refine List.filter_eq_nil_iff.mpr fun d hd => ?_
    rw [beq_eq_false_iff_ne.mpr (h d hd), Bool.false_and, Bool.false_and]
    exact Bool.false_ne_true
  rw [fencesMet, hnone, List.foldl_nil]

/-- The bookkeeping of a descriptor that has ended, up to its ring: its further codes are recorded, it leaves, and its journal entry is
renewed. -/
theorem reportStart_eq (d : Desc) (e : JEntry) (l : List Status) (s : State) : ∃ o f,
    journalDone d e { l.foldl (fun s c =>
      postEvent { kind := 0x22, status := statusNum c, part := d.fn, detail := d.jseq.toNat } s) s with
        descs := (l.foldl (fun s c =>
          postEvent { kind := 0x22, status := statusNum c, part := d.fn, detail := d.jseq.toNat } s) s).descs.filter fun o => o.id != d.id } =
      { s with out := o, fer := f, descs := s.descs.filter fun o => o.id != d.id, journal := journalAfter d e s } := by
  obtain ⟨ev, n, hev⟩ := foldl_postEvent
    (fun c => { kind := 0x22, status := statusNum c, part := d.fn, detail := d.jseq.toNat }) l s
  rw [hev]
  obtain ⟨o, ho⟩ := journalDone_eq d e { s with
    fer := { s.fer with events := ev, evSeq := n }, descs := s.descs.filter fun o => o.id != d.id }
  exact ⟨o, _, ho⟩

/-- What the report of a descriptor leaves of the rest (R455, R463). -/
structure Left (d : Desc) (e : JEntry) (s t : State) : Prop where
  ids : t.descs.map Desc.id = (s.descs.map Desc.id).filter fun i => i != d.id
  others : (∀ o ∈ s.descs, o.opcode ≠ 0x0A) → t.descs = s.descs.filter fun o => o.id != d.id
  journal : t.journal = journalAfter d e s
  mem : t.mem = s.mem
  cores : t.cores = s.cores
  parts : t.parts = s.parts
  clock : t.clock = s.clock

/-- FENCEs that end, and the reset of PF0 that none waits for, complete a report. -/
theorem left_of_report {d : Desc} {e : JEntry} {s u : State} (hf : u.flrPf0 = none) (hd : u.descs = s.descs.filter fun o => o.id != d.id)
    (hj : u.journal = journalAfter d e s) (hm : u.mem = s.mem) (hc : u.cores = s.cores) (hp : u.parts = s.parts) (hk : u.clock = s.clock) :
    Left d e s (flrPf0Ends (fencesMet u)) ∧ ∃ ds, flrPf0Ends (fencesMet u) = { u with descs := ds } := by
  obtain ⟨ds, hds, hids⟩ := fencesMet_eq u
  have hend : flrPf0Ends (fencesMet u) = fencesMet u := by
    rw [flrPf0Ends, hds, show ({ u with descs := ds } : State).flrPf0 = none from hf]
    rfl
  rw [hend]
  refine ⟨⟨?_, fun hno => ?_, ?_, ?_, ?_, ?_, ?_⟩, ds, hds⟩
  · rw [hds]
    show ds.map Desc.id = _
    rw [hids, hd, List.filter_map]
    rfl
  · rw [fencesMet_noFence fun o ho => hno o (List.mem_of_mem_filter (hd ▸ ho)), hd]
  · rw [hds]; exact hj
  · rw [hds]; exact hm
  · rw [hds]; exact hc
  · rw [hds]; exact hp
  · rw [hds]; exact hk

theorem exec_descriptorComplete {s : State} {dt id : Nat} {d : Desc} {st : Status} (h : findDesc s id = some d) (hp : d.phase = .done st)
    (hw : writesDone s d = true) (hr : hostReach s d.fn = true) :
    exec (.descriptorComplete dt id) s = .next (completeDesc d st (pass dt s)) := by
  show execDescriptorComplete dt id s = _
  rw [execDescriptorComplete, h]
  dsimp only
  rw [hp]
  dsimp only
  rw [hw, hr]
  rfl

/-- The time that a completion entry gives (R455, R464). -/
def doneTime (d : Desc) (s : State) : BitVec 48 :=
  if d.refused then d.accepted.setWidth 48 else if now48 s = 0 then 1 else now48 s

/-- A completion ring that has taken one more entry (R455). -/
def nextEntry (g : Ring) : Ring :=
  { g with cqTail := (g.cqTail + 1) % ringSize g, phase := if g.cqTail + 1 = ringSize g then !g.phase else g.phase }

/-- The entry goes to the queue's tail. -/
def queueEntry (d : Desc) (e : JEntry) (s : State) : State :=
  updRing d.ring nextEntry (emit (.hostWrite d.fn (BitVec.ofNat 64 ((getRing s d.ring).cqBase.toNat + 32 * (getRing s d.ring).cqTail))
    (entryBytes e (getRing s d.ring).sqHead (getRing s d.ring).phase)) s)

/-- What a report gives the descriptor's ring (R455, R490). -/
def ringReport (d : Desc) (e : JEntry) (s : State) : State :=
  if (getRing s d.ring).generation = d.generation then
    if d.irq then coalesce d.ring (queueEntry d e s) else queueEntry d e s
  else noticeRing d.fn 2 d.ring s

/-- A state without a descriptor, with its journal entry renewed. -/
def withoutDesc (d : Desc) (e : JEntry) (o : List Out) (f : Ferry) (s : State) : State :=
  { s with out := o, fer := f, descs := s.descs.filter fun o => o.id != d.id, journal := journalAfter d e s }

theorem completeDesc_eq (d : Desc) (st : Status) (s : State) : ∃ o f, completeDesc d st s =
    flrPf0Ends (fencesMet (ringReport d (journalEntry d (statusNum st) (doneTime d s))
      (withoutDesc d (journalEntry d (statusNum st) (doneTime d s)) o f s))) := by
  obtain ⟨o, f, h⟩ := reportStart_eq d (journalEntry d (statusNum st) (doneTime d s))
    (if statusCompletes st then d.codes.filter fun c => c != st else []) s
  exact ⟨o, f, congrArg (fun u => flrPf0Ends (fencesMet (ringReport d _ u))) h⟩

/-- The completion queue takes its entry, and its tail moves on (R455). -/
theorem ringReport_queued {d : Desc} (e : JEntry) {s : State} (hg : (getRing s d.ring).generation = d.generation) : ∃ o fs l rs,
    ringReport d e s = { s with out := o, funcs := fs, link := l, rings := rs } ∧
    .hostWrite d.fn (BitVec.ofNat 64 ((getRing s d.ring).cqBase.toNat + 32 * (getRing s d.ring).cqTail))
      (entryBytes e (getRing s d.ring).sqHead (getRing s d.ring).phase) ∈ o ∧
    (Tbl.get {} rs d.ring).cqTail = (nextEntry (getRing s d.ring)).cqTail ∧
    (Tbl.get {} rs d.ring).phase = (nextEntry (getRing s d.ring)).phase := by
  have hring : getRing (queueEntry d e s) d.ring = nextEntry (getRing s d.ring) := by
    rw [queueEntry, getRing_updRing, if_pos rfl]; rfl
  rw [ringReport, if_pos hg]
  split
  · obtain ⟨o, fs, l, rs, h, hq, hphase⟩ := coalesce_eq d.ring (queueEntry d e s)
    exact ⟨_, fs, l, rs, h, List.mem_append_right o List.mem_cons_self, hq.trans (congrArg Ring.cqTail hring),
      hphase.trans (congrArg Ring.phase hring)⟩
  · exact ⟨_, _, _, (queueEntry d e s).rings, rfl, List.mem_cons_self, congrArg Ring.cqTail hring, congrArg Ring.phase hring⟩

/-- A ring that was enabled anew gets a notice and no entry (R490). -/
theorem ringReport_noticed {d : Desc} (e : JEntry) {s : State} (hg : (getRing s d.ring).generation ≠ d.generation) : ∃ o fs l rg,
    ringReport d e s = { s with out := o, funcs := fs, link := l, regs := rg } ∧
    bitOf (regN (ringReport d e s) (hif d.fn 4)) 2 = true := by
  rw [ringReport, if_neg hg]
  obtain ⟨o, fs, l, rg, h⟩ := noticeRing_eq d.fn 2 d.ring s
  exact ⟨o, fs, l, rg, h, bitOf_notice d.fn (by decide) _⟩

theorem completeDesc_queued {d : Desc} {st : Status} {s : State} (hf : s.flrPf0 = none)
    (hg : (getRing s d.ring).generation = d.generation) :
    Left d (journalEntry d (statusNum st) (doneTime d s)) s (completeDesc d st s) ∧
    .hostWrite d.fn (BitVec.ofNat 64 ((getRing s d.ring).cqBase.toNat + 32 * (getRing s d.ring).cqTail))
      (entryBytes (journalEntry d (statusNum st) (doneTime d s)) (getRing s d.ring).sqHead (getRing s d.ring).phase) ∈
        (completeDesc d st s).out ∧
    (getRing (completeDesc d st s) d.ring).cqTail = (nextEntry (getRing s d.ring)).cqTail ∧
    (getRing (completeDesc d st s) d.ring).phase = (nextEntry (getRing s d.ring)).phase := by
  obtain ⟨o, f, heq⟩ := completeDesc_eq d st s
  obtain ⟨o', fs, l, rs, hrep, hout, hq, hphase⟩ := ringReport_queued (d := d) (journalEntry d (statusNum st) (doneTime d s))
    (s := withoutDesc d (journalEntry d (statusNum st) (doneTime d s)) o f s) hg
  rw [heq, hrep]
  obtain ⟨hl, ds, hds⟩ := left_of_report (d := d) (e := journalEntry d (statusNum st) (doneTime d s)) (s := s)
    (u := { withoutDesc d (journalEntry d (statusNum st) (doneTime d s)) o f s with out := o', funcs := fs, link := l, rings := rs })
    hf rfl rfl rfl rfl rfl rfl
  refine ⟨hl, ?_⟩
  rw [hds]
  exact ⟨hout, hq, hphase⟩

theorem completeDesc_noticed {d : Desc} {st : Status} {s : State} (hf : s.flrPf0 = none)
    (hg : (getRing s d.ring).generation ≠ d.generation) :
    Left d (journalEntry d (statusNum st) (doneTime d s)) s (completeDesc d st s) ∧
    (completeDesc d st s).rings = s.rings ∧ bitOf (regN (completeDesc d st s) (hif d.fn 4)) 2 = true := by
  obtain ⟨o, f, heq⟩ := completeDesc_eq d st s
  obtain ⟨o', fs, l, rg, hrep, hbit⟩ := ringReport_noticed (d := d) (journalEntry d (statusNum st) (doneTime d s))
    (s := withoutDesc d (journalEntry d (statusNum st) (doneTime d s)) o f s) hg
  rw [hrep] at hbit
  rw [heq, hrep]
  obtain ⟨hl, ds, hds⟩ := left_of_report (d := d) (e := journalEntry d (statusNum st) (doneTime d s)) (s := s)
    (u := { withoutDesc d (journalEntry d (statusNum st) (doneTime d s)) o f s with out := o', funcs := fs, link := l, regs := rg })
    hf rfl rfl rfl rfl rfl rfl
  refine ⟨hl, ?_⟩
  rw [hds]
  exact ⟨rfl, hbit⟩

/-- Settles O15: a report is the bookkeeping of its descriptor, then its ring's part, then the FENCEs it frees. -/
theorem descriptorReported : Obligations.DescriptorReported := by
  unfold Obligations.DescriptorReported
  intro s dt id d st h hp hw hr hf
  obtain rfl := findDesc_id h
  have hleft {t : State} (hl : Left d (journalEntry d (statusNum st) (doneTime d (pass dt s))) (pass dt s) t) :
      t.descs.map Desc.id = (s.descs.map Desc.id).filter (fun i => i != d.id) ∧
      ((∀ e ∈ s.descs, e.opcode ≠ 0x0A) → t.descs = s.descs.filter fun o => o.id != d.id) ∧
      (∀ o, s.journal.get none (d.id % 4096) = some o → o.fn = d.fn → o.jseq = d.jseq →
        t.journal.get none (d.id % 4096) = some (journalEntry d (statusNum st) (doneTime d (pass dt s)))) ∧
      t.mem = s.mem ∧ t.cores = s.cores ∧ t.parts = s.parts ∧ t.clock = s.clock + dt :=
    ⟨hl.ids, hl.others, fun o ho hfn hj => by rw [hl.journal]; exact journalAfter_held (s := pass dt s) ho hfn hj,
      hl.mem, hl.cores, hl.parts, hl.clock⟩
  refine ⟨fun hg => ⟨_, exec_descriptorComplete h hp hw hr, ?_⟩, fun hg => ⟨_, exec_descriptorComplete h hp hw hr, ?_⟩⟩
  · obtain ⟨hl, hrest⟩ := completeDesc_queued (st := st) (s := pass dt s) hf hg
    exact ⟨hleft hl, hrest⟩
  · obtain ⟨hl, hrest⟩ := completeDesc_noticed (st := st) (s := pass dt s) hf hg
    exact ⟨hleft hl, hrest⟩

end Sys2Proof.Machine
end

section
/-!
PROOFS. O48: doorbells, the states of a ring, and coalescing (R449, R451, R469, R475).
-/
namespace Sys2Proof.Machine

/-! ## Rings -/

theorem getRing_upd_self (r : Nat) (f : Ring → Ring) (s : State) : getRing (updRing r f s) r = f (getRing s r) := by
  rw [getRing_updRing, if_pos rfl]

theorem getRing_upd_ne {r q : Nat} (h : q ≠ r) (f : Ring → Ring) (s : State) : getRing (updRing r f s) q = getRing s q := by
  rw [getRing_updRing, if_neg h]

/-- Two changes that agree on a ring as it stands are one. -/
theorem updRing_congr {r : Nat} {f g : Ring → Ring} {s : State} (h : f (getRing s r) = g (getRing s r)) : updRing r f s = updRing r g s := by
  have h : f (Tbl.get {} s.rings r) = g (Tbl.get {} s.rings r) := h
  rw [updRing, updRing, Tbl.upd, Tbl.upd, h]

theorem getRing_eq {s t : State} (h : t.rings = s.rings) (r : Nat) : getRing t r = getRing s r := by
  rw [getRing, getRing, h]

/-! ## The notice of a ring (R470, R474) -/

theorem reg_noticeRing (fn bit r : Nat) (s : State) : reg (noticeRing fn bit r s) (hif fn 0x04) =
    BitVec.ofNat 32 (setBits (regN s (hif fn 0x04)) 16 8 r) ||| BitVec.ofNat 32 (2 ^ bit) := by
  have hsent (v : Nat) (u : State) : reg (signalVector fn v u) (hif fn 0x04) = reg u (hif fn 0x04) :=
    regs_reg _ _ (signalVector_regs fn v u) _
  have hor : reg (orReg (hif fn 0x04) (BitVec.ofNat 32 (2 ^ bit))
      (setReg (hif fn 0x04) (BitVec.ofNat 32 (setBits (regN s (hif fn 0x04)) 16 8 r)) s)) (hif fn 0x04) =
      BitVec.ofNat 32 (setBits (regN s (hif fn 0x04)) 16 8 r) ||| BitVec.ofNat 32 (2 ^ bit) := by
    rw [reg_orReg, if_pos rfl, reg_setReg, if_pos rfl]
  unfold noticeRing notice
  dsimp only
  split
  · rw [hsent, hor]
  · exact hor

/-- LAST_RING of HIF_NOTICE names the ring (R474). -/
theorem lastRing_noticeRing (fn : Nat) {bit r : Nat} (hbit : bit < 16) (hr : r < 256) (s : State) :
    bitsOf (regN (noticeRing fn bit r s) (hif fn 0x04)) 16 8 = r := by
  rw [regN, reg_noticeRing]
  have hlow : bitsOf (BitVec.ofNat 32 (setBits (regN s (hif fn 0x04)) 16 8 r) ||| BitVec.ofNat 32 (2 ^ bit)).toNat 16 8 =
      bitsOf (BitVec.ofNat 32 (setBits (regN s (hif fn 0x04)) 16 8 r)).toNat 16 8 := by
    refine Nat.eq_of_testBit_eq fun i => ?_
    rw [testBit_bitsOf, testBit_bitsOf, BitVec.toNat_or, Nat.testBit_or, BitVec.toNat_ofNat (2 ^ bit), Nat.testBit_mod_two_pow,
      Nat.testBit_two_pow_of_ne (n := bit) (m := 16 + i) (by omega), Bool.and_false, Bool.or_false]
  rw [hlow, BitVec.toNat_ofNat, bitsOf_mod (by decide), bitsOf_setBits_self]
  exact Nat.mod_eq_of_lt hr

theorem rings_noticeRing (fn bit r : Nat) (s : State) : (noticeRing fn bit r s).rings = s.rings := by
  obtain ⟨o, fs, l, rg, h⟩ := noticeRing_eq fn bit r s
  rw [h]

theorem descs_noticeRing (fn bit r : Nat) (s : State) : (noticeRing fn bit r s).descs = s.descs := by
  obtain ⟨o, fs, l, rg, h⟩ := noticeRing_eq fn bit r s
  rw [h]

/-! ## Doorbells (R449, R451) -/

section
variable {s : State} {fn r : Nat} {v : Word} {put : Nat → Ring → Ring} (hopen : HostOpen s fn)
include hopen

theorem doorbell_dropped (h : ringOwner s r ≠ fn ∨ (getRing s r).state ≠ .running) :
    doorbell fn r 4 v put s = noticeRing fn 4 r (barAccess s) := by
  have hd : (ringOwner (barAccess s) r != fn || (getRing (barAccess s) r).state != .running) = true := by
    rcases h with h | h
    · rw [show (ringOwner (barAccess s) r != fn) = true from bne_iff_ne.mpr h, Bool.true_or]
    · rw [show ((getRing (barAccess s) r).state != .running) = true from bne_iff_ne.mpr h, Bool.or_true]
  rw [doorbell, if_neg (by decide), show hostReach (barAccess s) fn = true from hopen.2.2, if_neg (by decide), if_pos hd]

variable (howner : ringOwner s r = fn) (hrun : (getRing s r).state = .running)
include howner hrun

theorem doorbell_own : doorbell fn r 4 v put s =
    if ringSize (getRing s r) ≤ v.toNat then noticeRing fn 3 r (updRing r (fun g => { g with state := .error }) (barAccess s))
    else leaveIdle (updRing r (put v.toNat) (barAccess s)) := by
  have hd : (ringOwner (barAccess s) r != fn || (getRing (barAccess s) r).state != .running) = false := by
    rw [show (ringOwner (barAccess s) r != fn) = false from bne_eq_false_iff_eq.mpr howner,
      show ((getRing (barAccess s) r).state != .running) = false from bne_eq_false_iff_eq.mpr hrun]
    rfl
  rw [doorbell, if_neg (by decide), show hostReach (barAccess s) fn = true from hopen.2.2, if_neg (by decide), if_neg (by rw [hd]; decide)]
  rfl

/-- A value past the ring's end puts the ring in ERROR. -/
theorem doorbell_error (hv : ringSize (getRing s r) ≤ v.toNat) :
    getRing (doorbell fn r 4 v put s) r = { getRing s r with state := .error } ∧
      (∀ q, q ≠ r → getRing (doorbell fn r 4 v put s) q = getRing s q) ∧
      bitOf (regN (doorbell fn r 4 v put s) (hif fn 4)) 3 = true ∧ (doorbell fn r 4 v put s).descs = s.descs := by
  rw [doorbell_own hopen howner hrun, if_pos hv]
  have hrings := getRing_eq (rings_noticeRing fn 3 r (updRing r (fun g => { g with state := .error }) (barAccess s)))
  refine ⟨?_, fun q hq => ?_, bitOf_notice fn (by decide) _, descs_noticeRing _ _ _ _⟩
  · rw [hrings, getRing_upd_self]; rfl
  · rw [hrings, getRing_upd_ne hq]; rfl

/-- A value inside the ring moves its index, and leaves IDLE. -/
theorem doorbell_moves (hv : v.toNat < ringSize (getRing s r)) :
    getRing (doorbell fn r 4 v put s) r = put v.toNat (getRing s r) ∧
      (∀ q, q ≠ r → getRing (doorbell fn r 4 v put s) q = getRing s q) ∧
      doorbell fn r 4 v put s =
        { barAccess s with rings := (doorbell fn r 4 v put s).rings, fer := (doorbell fn r 4 v put s).fer } ∧
      (doorbell fn r 4 v put s).fer = { s.fer with power := if s.fer.power = .idle then .active else s.fer.power } := by
  have hleave (u : State) : leaveIdle u = { u with fer := { u.fer with power := if u.fer.power = .idle then .active else u.fer.power } } := by
    unfold leaveIdle
    split <;> rfl
  rw [doorbell_own hopen howner hrun, if_neg (Nat.not_le_of_lt hv), hleave]
  exact ⟨getRing_upd_self _ _ _, fun q hq => getRing_upd_ne hq _ _, rfl, rfl⟩

end

/-- The two doorbells are one operation on two indices. -/
theorem exec_doorbell {s : State} {fn r : Nat} (hopen : HostOpen s fn) (hr : r < 256) (width : Nat) (v : Word) (head : Bool) :
    exec (if head then Instr.doorbellCqHead fn r width v else Instr.doorbellSqTail fn r width v) s = .next (doorbell fn r width v
      (fun v g => if head then { g with cqHead := v } else { g with sqTail := v }) s) := by
  obtain ⟨hbar, hfn, -⟩ := hopen
  have hgo : (barOpen s && decide (fn ≤ 8) && decide (r < 256)) = true := by rw [hbar, decide_eq_true hfn, decide_eq_true hr]; rfl
  cases head
  · exact if_pos hgo
  · exact if_pos hgo

/-! ## ENABLE, the drain and coalescing (R469, R475) -/

section
variable {s : State} {fn r : Nat} (hopen : HostOpen s fn) (hr : r < 256) (howner : ringOwner s r = fn)
include hopen hr howner

theorem exec_ringEnable (h : (getRing s r).state = .idle) : exec (.ringEnable fn r) s = .next (updRing r (fun g => { g with
    enable := true, state := .running, sqHead := 0, sqTail := 0, cqHead := 0, cqTail := 0, phase := true, coalPending := 0,
    generation := g.generation + 1 }) (barAccess s)) := by
  show execRingEnable fn r s = _
  have hgo : (decide (r < 256) && ringOwner (barAccess s) r == fn && (getRing (barAccess s) r).state == .idle) = true := by
    rw [show ringOwner (barAccess s) r = fn from howner, show (getRing (barAccess s) r).state = .idle from h, decide_eq_true hr,
      beq_self_eq_true]
    rfl
  rw [execRingEnable, hostPost_open hopen, if_pos hgo, ringOn]
  exact congrArg Host.Outcome.next (updRing_congr (s := barAccess s) (if_pos h))

theorem exec_ringDisable (h : (getRing s r).state = .running ∨ (getRing s r).state = .error) : exec (.ringDisable fn r) s =
    .next (updRing r (fun g => { g with enable := false, state := .draining }) (barAccess s)) := by
  show execRingDisable fn r s = _
  have hst : ((getRing (barAccess s) r).state == .running || (getRing (barAccess s) r).state == .error) = true := by
    rcases h with h | h
    · rw [show (getRing (barAccess s) r).state = .running from h]; rfl
    · rw [show (getRing (barAccess s) r).state = .error from h]; rfl
  have hgo : (decide (r < 256) && ringOwner (barAccess s) r == fn &&
      ((getRing (barAccess s) r).state == .running || (getRing (barAccess s) r).state == .error)) = true := by
    rw [hst, show ringOwner (barAccess s) r = fn from howner, decide_eq_true hr, beq_self_eq_true]
    rfl
  have hdrain : (decide ((getRing s r).state = .running) || decide ((getRing s r).state = .error)) = true := by
    rcases h with h | h <;> rw [h] <;> rfl
  rw [execRingDisable, hostPost_open hopen, if_pos hgo, ringOff]
  exact congrArg Host.Outcome.next (updRing_congr (s := barAccess s)
    (congrArg (fun st => ({ getRing s r with enable := false, state := st } : Ring)) (if_pos hdrain)))

end

/-- What a vector's signal sends, or keeps pending (R469). -/
theorem signalVector_sends {fn v : Nat} {s : State} (hm : bitOf (((s.funcs.get {} fn).msix.get 0 (4 * v + 3)).toNat) 0 = true)
    (hr : hostReach s fn = true) : (signalVector fn v s).out = .msix fn v :: s.out := by
  rw [signalVector, hm, hr]
  rfl

theorem signalVector_pends {fn v : Nat} {s : State} (hm : bitOf (((s.funcs.get {} fn).msix.get 0 (4 * v + 3)).toNat) 0 = false) :
    (signalVector fn v s).out = s.out ∧ v ∈ ((signalVector fn v s).funcs.get {} fn).pba := by
  rw [signalVector, hm, Bool.false_and, if_neg Bool.false_ne_true]
  split
  next hp => exact ⟨rfl, List.contains_iff_mem.mp hp⟩
  next => exact ⟨rfl, by rw [Tbl.get_set_self]; exact List.mem_cons_self⟩

/-- Settles O48: a doorbell by the branch it takes, a ring's states by one update each, a coalescing time-out by its signal. -/
theorem ringCommands : Obligations.RingCommands := by
  unfold Obligations.RingCommands
  refine ⟨fun s fn r width v head hopen hr => ?_, fun s fn r hopen hr howner => ⟨exec_ringEnable hopen hr howner,
    exec_ringDisable hopen hr howner⟩, fun s r hst hfl => ?_, fun s dt r hp ht => ?_⟩
  · have hexec := exec_doorbell hopen hr
    refine ⟨fun hw => ?_, fun hw h => ?_, fun hw howner hrun => ⟨fun hv => ?_, fun hv => ?_⟩⟩
    · rw [hexec, doorbell, if_pos (bne_iff_ne.mpr hw)]
    · subst hw
      refine ⟨_, hexec _ _ _, ?_⟩
      rw [doorbell_dropped hopen h]
      exact ⟨rings_noticeRing _ _ _ _, bitOf_notice fn (by decide) _, lastRing_noticeRing fn (by decide) hr _, descs_noticeRing _ _ _ _⟩
    · subst hw
      exact ⟨_, hexec _ _ _, doorbell_error hopen howner hrun hv⟩
    · subst hw
      exact ⟨_, hexec _ _ _, doorbell_moves hopen howner hrun hv⟩
  · show execRingDrained r s = _
    rw [execRingDrained, hst, hfl]
    rfl
  · refine ⟨ringSignal r (pass dt s), ?_, ?_⟩
    · show execCoalesceTimeout dt r s = _
      have hgo : (decide ((getRing (pass dt s) r).coalPending ≠ 0) &&
          decide ((getRing (pass dt s) r).coalSince + 100 * (getRing (pass dt s) r).coalTime ≤ (pass dt s).clock)) = true := by
        exact Bool.and_eq_true_iff.mpr ⟨decide_eq_true hp, decide_eq_true ht⟩
      exact if_pos hgo
    · have hrings := getRing_eq (signalVector_rings (ringOwner s r) (getRing s r).vector
        (updRing r (fun g => { g with coalPending := 0 }) (pass dt s)))
      refine ⟨?_, fun q hq => ?_, fun hm hreach => signalVector_sends (s := updRing r _ (pass dt s)) hm hreach,
        fun hm => signalVector_pends (s := updRing r _ (pass dt s)) hm⟩
      · exact (hrings r).trans (getRing_upd_self _ _ _)
      · exact (hrings q).trans (getRing_upd_ne hq _ _)

end Sys2Proof.Machine
end

section
/-!
PROOFS. The mesh, the counters and the waits on them (R328, R331, R339 to R346): what a replay leaves, what a failed link begins, what
a signal adds and to which counter, how a wait ends.
-/
namespace Sys2Proof.Machine

/-! ## Replays of a mesh link (R328) -/

/-- The register that counts the replays of a link. -/
def replayReg (l : Nat) : Nat := if linkEdge l then bNoc + 0x20 else bNoc + 0x10 + 4 * linkDie l

theorem replayReg_ne (l : Nat) : replayReg l ≠ bNoc := by
  unfold replayReg; split <;> omega

/-- Replays in a row on a link, this one counted (log entry 19). -/
def replaysNow (l : Nat) (s : State) : Nat :=
  if (match s.syn.replayedAt.get none l with | some t => decide (s.clock ≤ t + replayNs s l) | none => false)
  then s.syn.replays.get 0 l + 1 else 1

/-- A replay counted in its register. -/
def replayCounted (dt l : Nat) (s : State) : State := nocEvent (b2n (linkEdge l)) (linkDie l) (incReg (replayReg l) (pass dt s))

/-- A replay counted in its row. -/
def replayNoted (l : Nat) (s : State) : State :=
  { s with syn := { s.syn with replays := Tbl.set 0 s.syn.replays l (replaysNow l s)
                               replayedAt := Tbl.set none s.syn.replayedAt l (some s.clock) } }

theorem exec_meshFlitRetry {l : Nat} (h : linkExists l = true) (dt : Nat) (s : State) : exec (.meshFlitRetry dt l) s =
    .next (if 32 ≤ replaysNow l (replayCounted dt l s) then linkFails l (replayNoted l (replayCounted dt l s))
      else replayNoted l (replayCounted dt l s)) := if_pos h

theorem replayCounted_frame (dt l : Nat) (s : State) :
    replayCounted dt l s = { pass dt s with regs := (replayCounted dt l s).regs } := by
  rw [replayCounted, nocEvent, incReg_frame]
  rfl

theorem reg_replayCounted {dt l : Nat} {s : State} (h : reg s (replayReg l) ≠ 0xFFFFFFFF) :
    reg (replayCounted dt l s) (replayReg l) = reg s (replayReg l) + 1 := by
  rw [replayCounted, nocEvent, reg_setReg, if_neg (replayReg_ne l)]
  exact reg_incReg_self (s := pass dt s) h

theorem bitOf_nocEvent {bit : Nat} (h : bit < 16) (die : Nat) (s : State) : bitOf (regN (nocEvent bit die s) bNoc) bit = true := by
  rw [nocEvent, regN_setReg, if_pos rfl, BitVec.toNat_ofNat, bitOf_mod (by omega), bitOf_setBits, if_neg (by omega), bitOf_setBits,
    if_pos (by omega), Nat.sub_self]
  rfl

/-! ## A link that fails (R328) -/

theorem linkFailed_warmReset (s : State) : (warmReset s).fer.linkFailed = s.fer.linkFailed :=
  (of_back (fun x => x.fer.linkFailed) (fun _ => rfl) (back_warmReset s) :)

theorem isSome_rst_warmReset (s : State) : (warmReset s).rst.isSome = true := by rw [rst_warmReset]; rfl

theorem linkFailed_takeRung (r n : Nat) (st : Status) (s : State) : (takeRung r n st s).fer.linkFailed = s.fer.linkFailed := by
  simp only [takeRung]; split <;> rfl

theorem linkFailed_rungThree (n : Nat) (st : Status) (s : State) : (rungThree n st s).fer.linkFailed = s.fer.linkFailed := by
  unfold rungThree
  extract_lets old fer u
  have hu : u.fer.linkFailed = s.fer.linkFailed := linkFailed_takeRung ..
  clear_value u
  have hw := (linkFailed_warmReset u).trans hu
  unfold powerCycle
  generalize warmReset u = w at hw
  split
  · rw [linkFailed_takeRung]
    split
    · exact hu
    · exact hw
  · split
    · exact hu
    · exact hw

theorem moduleReplace_resets (cause : Nat) (s : State) :
    (moduleReplace cause s).rst.isSome = true ∧ (moduleReplace cause s).fer.linkFailed = s.fer.linkFailed := by
  have hw := linkFailed_warmReset s
  have hr := isSome_rst_warmReset s
  unfold moduleReplace
  generalize warmReset s = w at hw hr
  by_cases h : s.rst.isSome = true
  · rw [if_pos h]; exact ⟨h, rfl⟩
  · rw [if_neg h]; exact ⟨hr, hw⟩

/-- A link that fails outside a reset puts the device into one. -/
theorem linkFails_resets {l : Nat} {s : State} (hr : s.rst = none) (ht : s.fer.trip = none) :
    (linkFails l s).rst.isSome = true ∧ (linkFails l s).fer.linkFailed.get none l = some s.clock := by
  have hset : (Tbl.set none s.fer.linkFailed l (some s.clock)).get none l = some s.clock := Tbl.get_set_self none _ _ _
  unfold linkFails
  extract_lets again y fer u
  have hu : u.fer.linkFailed = Tbl.set none s.fer.linkFailed l (some s.clock) ∧ u.rst = none ∧ u.fer.trip = none := ⟨rfl, hr, ht⟩
  clear_value u
  obtain ⟨hlinks, hrst, htrip⟩ := hu
  rw [if_neg (by rw [hrst]; decide)]
  split
  · obtain ⟨h1, h2⟩ := moduleReplace_resets 2 u
    exact ⟨h1, by rw [h2, hlinks, hset]⟩
  · obtain ⟨h1, -⟩ := rungThree_warm hrst htrip 0 .deviceResetting
    have h2 := linkFailed_rungThree 0 .deviceResetting u
    generalize rungThree 0 .deviceResetting u = w at h1 h2
    exact ⟨by rw [h1]; rfl, by rw [h2, hlinks, hset]⟩

/-! ## What replies leave alone (R364, R366) -/

/-- What stays when replies leave on ports: all but messages, ports and receiving sequences. -/
def wire (s : State) : State := { s with out := [], fab := { s.fab with ports := [], rx := [] } }

theorem of_wire {α : Type} {s t : State} (f : State → α) (hf : ∀ s, f (wire s) = f s) (h : wire t = wire s) : f t = f s := by
  rw [← hf t, h, hf s]

theorem wire_updPort (p : Nat) (f : Port → Port) (s : State) : wire (updPort p f s) = wire s := rfl

theorem wire_portPut (p n : Nat) (o : Out) (s : State) : wire (portPut p n o s) = wire s := rfl

theorem wire_sendLink (p : Nat) (resend : Bool) (s : State) : wire (sendLink p resend s) = wire s := by
  rw [sendLink, wire_updPort, sendFlit, wire_portPut]

theorem wire_linkDue (p : Nat) (s : State) : wire (linkDue p s) = wire s := by
  unfold linkDue
  split
  · exact wire_sendLink ..
  · rfl

theorem wire_packetLeaves (p : Nat) (k : Packet) (s : State) : wire (packetLeaves p k s) = wire s := by
  rw [packetLeaves, wire_portPut, wire_updPort]

theorem wire_portSend (p : Nat) (k : Packet) (s : State) : wire (portSend p k s) = wire s := by
  unfold portSend
  dsimp only
  split
  · rfl
  · rw [wire_linkDue, wire_packetLeaves]

theorem wire_sendReply (p : Nat) (k : Packet) (s : State) : wire (sendReply p k s) = wire s := by
  unfold sendReply
  split
  · exact wire_portSend ..
  · split
    · exact wire_portSend ..
    · rfl

theorem wire_sendVerdict (node flow vc psn tag job port v : Nat) (s : State) :
    wire (sendVerdict node flow vc psn tag job port v s) = wire s := wire_sendReply ..

theorem wire_sendAck (p : Nat) (r : Packet) (status : Nat) (s : State) : wire (sendAck p r status s) = wire s := wire_sendReply ..

theorem wire_freeBuffer (p : Nat) (k : Packet) (s : State) : wire (freeBuffer p k s) = wire s := by
  unfold freeBuffer
  split
  · rw [wire_sendLink, wire_updPort]
  · rfl

/-! ## What a verdict leaves alone (R342, R345, R346) -/

/-- What stays when packets leave ports, and verdicts reach cores and descriptors: all but messages, registers, cores, descriptors, ports
and receiving sequences. -/
def told (s : State) : State :=
  { s with out := [], regs := [], cores := [], descs := [], fab := { s.fab with ports := [], rx := [] } }

theorem of_told {α : Type} {s t : State} (f : State → α) (hf : ∀ s, f (told s) = f s) (h : told t = told s) : f t = f s := by
  rw [← hf t, h, hf s]

theorem told_foldl {α : Type} {f : State → α → State} (h : ∀ s x, told (f s x) = told s) (l : List α) (s : State) :
    told (l.foldl f s) = told s := by
  induction l generalizing s with
  | nil => rfl
  | cons x l ih => exact (ih (f s x)).trans (h s x)

theorem told_of_wire {s t : State} (h : wire t = wire s) : told t = told s := show told (wire t) = told (wire s) by rw [h]

theorem told_giveVerdict (o : Origin) (e : Ending) (node : Nat) (s : State) : told (giveVerdict o e node s) = told s := by
  cases o with
  | remote n flow vc psn tag job port => exact told_of_wire (wire_sendVerdict ..)
  | _ => rfl

theorem told_endWait (w : Wait) (s : State) : told (endWait w s) = told s := by
  rw [endWait, told_giveVerdict, countTimeout, synEvent, incReg_frame]
  rfl

theorem told_signalDone (o : Origin) (saturated : Bool) (s : State) : told (signalDone o saturated s) = told s := by
  unfold signalDone
  split
  · dsimp only; split <;> rfl
  · rfl
  · rfl

/-! ## Registers that a verdict leaves -/

theorem regs_giveVerdict (o : Origin) (e : Ending) (node : Nat) (s : State) : (giveVerdict o e node s).regs = s.regs := by
  cases o with
  | remote n flow vc psn tag job port => exact of_wire State.regs (fun _ => rfl) (wire_sendVerdict ..)
  | _ => rfl

theorem regs_signalDone (o : Origin) (saturated : Bool) (s : State) : (signalDone o saturated s).regs = s.regs := by
  unfold signalDone
  split
  · dsimp only; split <;> rfl
  · rfl
  · rfl

/-- Bit 2 of an event register of the sync units, SATURATED, stays while waits end (R353). -/
theorem saturatedBit_endWait {n : Nat} {s : State} (h : bitOf (regN s (ctx bSynCtx n 4)) 2 = true) (w : Wait) :
    bitOf (regN (endWait w s) (ctx bSynCtx n 4)) 2 = true := by
  have hinc (k : Nat) : regN (incReg (ctx bSynCtx k 0xC) s) (ctx bSynCtx n 4) = regN s (ctx bSynCtx n 4) := by
    rw [regN, reg_incReg_ne (by unfold ctx; omega), regN]
  have hcount : bitOf (regN (countTimeout w s) (ctx bSynCtx n 4)) 2 = true := by
    unfold countTimeout synEvent
    dsimp only
    generalize (if w.issuer = 0 then w.part else w.issuer) = k
    rw [regN_setReg]
    split
    next hk =>
      rw [BitVec.toNat_ofNat, bitOf_mod (by decide), bitOf_setBits, if_neg (by decide), bitOf_setBits, if_neg (by decide), ← hk, hinc]
      exact h
    next => rw [hinc]; exact h
  rw [endWait, regN_congr (regs_giveVerdict ..)]
  exact hcount

theorem saturatedBit_recheck {n : Nat} {s : State} (h : bitOf (regN s (ctx bSynCtx n 4)) 2 = true) (c : Nat) :
    bitOf (regN (recheck c s) (ctx bSynCtx n 4)) 2 = true := by
  unfold recheck
  dsimp only
  refine List.foldlRecOn (motive := fun t : State => bitOf (regN t (ctx bSynCtx n 4)) 2 = true) _ _ ?_ fun t ht w _ => ?_
  · exact List.foldlRecOn (motive := fun t : State => bitOf (regN t (ctx bSynCtx n 4)) 2 = true) _ _ h
      fun t ht w _ => saturatedBit_endWait ht w
  · rw [regN_congr (regs_giveVerdict ..)]
    exact ht

/-! ## Counters (R339, R344) -/

/-- The waiter entries that a counter keeps after a recheck (R340, R342). -/
def waitersKept (c : Nat) (s : State) : List Wait :=
  let here := s.syn.waiters.filter fun w => counterOf s w.part w.index == some c
  s.syn.waiters.filter fun w => !((here.filter fun w => deadlinePast s w).contains w ||
    (here.filter fun w => !deadlinePast s w && waitMet s w).contains w)

theorem told_recheck (c : Nat) (s : State) :
    told (recheck c s) = told { s with syn := { s.syn with waiters := waitersKept c s } } := by
  unfold recheck
  dsimp only
  rw [told_foldl (fun _ _ => told_giveVerdict ..), told_foldl (fun _ _ => told_endWait ..)]
  rfl

theorem satisfied_leaves {c : Nat} {s : State} {w : Wait} (hin : w ∈ s.syn.waiters) (hc : counterOf s w.part w.index = some c)
    (hp : deadlinePast s w = false) (hm : waitMet s w = true) : w ∉ waitersKept c s := by
  intro hk
  have hmet : (((s.syn.waiters.filter fun w => counterOf s w.part w.index == some c).filter
      fun w => !deadlinePast s w && waitMet s w).contains w) = true := by
    rw [List.contains_iff_mem, List.mem_filter, List.mem_filter]
    exact ⟨⟨hin, by rw [hc, beq_self_eq_true]⟩, by rw [hp, hm]; rfl⟩
  have hkept := (List.mem_filter.mp hk).2
  rw [hmet, Bool.or_true] at hkept
  exact Bool.false_ne_true hkept

/-- What a signal leaves after its counter: its own answer, the landing slots it returns, and an idle device awake. -/
def signalEnds (g : Signal) (saturated : Bool) (s : State) : State := leaveIdle (slotReturn g.part (signalDone g.origin saturated s))

theorem signalEnds_keeps (g : Signal) (saturated : Bool) (s : State) : (signalEnds g saturated s).syn = s.syn ∧
    (signalEnds g saturated s).mem = s.mem ∧ (signalEnds g saturated s).regs = s.regs := by
  have hreturn (n : Nat) (t : State) : (leaveIdle (slotReturn n t)).syn = t.syn ∧ (leaveIdle (slotReturn n t)).mem = t.mem ∧
      (leaveIdle (slotReturn n t)).regs = t.regs := by
    unfold leaveIdle slotReturn
    split <;> split <;> exact ⟨rfl, rfl, rfl⟩
  obtain ⟨hsyn, hmem, hregs⟩ := hreturn g.part (signalDone g.origin saturated s)
  exact ⟨hsyn.trans (of_told State.syn (fun _ => rfl) (told_signalDone ..)),
    hmem.trans (of_told State.mem (fun _ => rfl) (told_signalDone ..)), hregs.trans (regs_signalDone ..)⟩

theorem exec_signalApply {s : State} {n : Nat} {g : Signal} (hg : s.syn.signals[n]? = some g)
    (h : sentBefore s g.source g.part g.index g.no = false) : exec (.signalApply n) s =
    .next (signalEnds g (applySignal g.part g.index g.inc g.far { s with syn := { s.syn with signals := removeAt n s.syn.signals } }).1
      (applySignal g.part g.index g.inc g.far { s with syn := { s.syn with signals := removeAt n s.syn.signals } }).2) := by
  show execSignalApply n s = _
  rw [execSignalApply, hg]
  dsimp only
  rw [h]
  rfl

/-- A counter after an increment that fits. -/
def incremented (c inc : Nat) (s : State) : State :=
  { s with syn := { s.syn with counters := Tbl.set 0 s.syn.counters c (BitVec.ofNat 64 ((getCounter s c).toNat + inc)) } }

theorem addCounter_fits {n i c inc : Nat} {s : State} (hs : isSaturated s c = false) (hv : (getCounter s c).toNat + inc < 2 ^ 64) :
    addCounter n i c inc s = (false, incremented c inc s) := by
  unfold addCounter
  rw [if_neg (by rw [hs]; decide)]
  exact if_neg (by omega)

theorem getCounter_incremented {c inc : Nat} {s : State} (hv : (getCounter s c).toNat + inc < 2 ^ 64) (b : Nat) :
    (getCounter (incremented c inc s) b).toNat = if b = c then (getCounter s c).toNat + inc else (getCounter s b).toNat := by
  show ((Tbl.set 0 s.syn.counters c (BitVec.ofNat 64 ((getCounter s c).toNat + inc))).get 0 b).toNat = _
  rw [Tbl.get_set]
  split
  · exact Nat.mod_eq_of_lt hv
  · rfl

/-- A counter at its end, marked (R344). -/
def saturatedAt (c : Nat) (s : State) : State :=
  { s with syn := { s.syn with counters := Tbl.set 0 s.syn.counters c (BitVec.ofNat 64 (2 ^ 64 - 1))
                               saturated := Tbl.set false s.syn.saturated c true } }

theorem saturatedAt_counter (c : Nat) (s : State) :
    (saturatedAt c s).syn.counters.get 0 c = BitVec.allOnes 64 ∧ (saturatedAt c s).syn.saturated.get false c = true := by
  refine ⟨?_, ?_⟩
  · show (Tbl.set 0 s.syn.counters c (BitVec.ofNat 64 (2 ^ 64 - 1))).get 0 c = _
    rw [Tbl.get_set_self]
    rfl
  · show (Tbl.set false s.syn.saturated c true).get false c = _
    rw [Tbl.get_set_self]

theorem addCounter_saturates {n i c inc : Nat} {s : State} (hs : isSaturated s c = false) (hv : 2 ^ 64 ≤ (getCounter s c).toNat + inc) :
    addCounter n i c inc s =
      (true, postEvent { kind := 0x1E, part := n, status := 0x41, detail := i } (synEvent n 2 i (saturatedAt c s))) := by
  unfold addCounter
  rw [if_neg (by rw [hs]; decide)]
  exact if_pos hv

theorem bitOf_synEvent {bit : Nat} (h : bit < 16) (n i : Nat) (s : State) :
    bitOf (regN (synEvent n bit i s) (ctx bSynCtx n 4)) bit = true := by
  rw [synEvent, regN_setReg, if_pos rfl, BitVec.toNat_ofNat, bitOf_mod (by omega), bitOf_setBits, if_neg (by omega), bitOf_setBits,
    if_pos (by omega), Nat.sub_self]
  rfl

/-! ## A signal at its sync unit (R184, R331, R339, R344, R345) -/

section
variable {s : State} {n c : Nat} {g : Signal} (hg : s.syn.signals[n]? = some g)
  (hturn : sentBefore s g.source g.part g.index g.no = false)
include hg hturn

/-- A signal whose sum fits adds its increment, and ends the waits that it satisfies. -/
theorem signal_counts (hc : counterOf s g.part g.index = some c) (hs : isSaturated s c = false)
    (hv : (getCounter s c).toNat + g.inc < 2 ^ 64) : Does (.signalApply n) s fun t =>
      (getCounter t c).toNat = (getCounter s c).toNat + g.inc ∧ (∀ b, b ≠ c → getCounter t b = getCounter s b) ∧
      t.syn.signals = removeAt n s.syn.signals ∧
      (∀ w ∈ s.syn.waiters, counterOf s w.part w.index = some c → deadlinePast s w = false →
        w.expected.toNat ≤ (getCounter s c).toNat + g.inc → w ∉ t.syn.waiters) ∧ t.mem = s.mem := by
  refine ⟨_, exec_signalApply hg hturn, ?_⟩
  obtain ⟨u, hu⟩ : ∃ u : State, u = { s with syn := { s.syn with signals := removeAt n s.syn.signals } } := ⟨_, rfl⟩
  have hcu : counterOf u g.part g.index = some c := by rw [hu]; exact hc
  have hsu : isSaturated u c = false := by rw [hu]; exact hs
  have hvu : getCounter u c = getCounter s c := by rw [hu]; rfl
  have happ : applySignal g.part g.index g.inc g.far u = (false, recheck c (incremented c g.inc u)) := by
    unfold applySignal
    rw [hcu]
    dsimp only
    rw [addCounter_fits hsu (by rw [hvu]; exact hv)]
  rw [← hu, happ]
  obtain ⟨hsyn, hmem, -⟩ := signalEnds_keeps g false (recheck c (incremented c g.inc u))
  have hre : (recheck c (incremented c g.inc u)).syn =
      { (incremented c g.inc u).syn with waiters := waitersKept c (incremented c g.inc u) } :=
    of_told State.syn (fun _ => rfl) (told_recheck c (incremented c g.inc u))
  have hval (b : Nat) : getCounter (signalEnds g false (recheck c (incremented c g.inc u))) b = getCounter (incremented c g.inc u) b := by
    rw [getCounter, hsyn, hre]; rfl
  have hsum (b : Nat) := getCounter_incremented (s := u) (c := c) (inc := g.inc) (by rw [hvu]; exact hv) b
  refine ⟨?_, fun b hb => ?_, ?_, fun w hw hwc hpast hexp => ?_, ?_⟩
  · rw [hval, hsum, if_pos rfl, hvu]
  · refine BitVec.eq_of_toNat_eq ?_
    rw [hval, hsum, if_neg hb, hu]
    rfl
  · rw [hsyn, hre, hu]; rfl
  · rw [hsyn, hre]
    refine satisfied_leaves (by rw [hu]; exact hw) (by rw [hu]; exact hwc) (by rw [hu]; exact hpast) ?_
    unfold waitMet
    rw [show counterOf (incremented c g.inc u) w.part w.index = some c by rw [hu]; exact hwc]
    dsimp only
    rw [hsum, if_pos rfl, hvu, decide_eq_true hexp, show isSaturated (incremented c g.inc u) c = false from hsu]
    rfl
  · rw [hmem]
    refine (of_told State.mem (fun _ => rfl) (told_recheck c (incremented c g.inc u))).trans ?_
    rw [hu]; rfl

/-- A signal whose sum does not fit leaves its counter at its end, marked, and an event (R344). -/
theorem signal_saturates (hc : counterOf s g.part g.index = some c) (hs : isSaturated s c = false)
    (hv : 2 ^ 64 ≤ (getCounter s c).toNat + g.inc) : Does (.signalApply n) s fun t =>
      getCounter t c = BitVec.allOnes 64 ∧ isSaturated t c = true ∧ bitOf (regN t (ctx bSynCtx g.part 4)) 2 = true := by
  refine ⟨_, exec_signalApply hg hturn, ?_⟩
  obtain ⟨u, hu⟩ : ∃ u : State, u = { s with syn := { s.syn with signals := removeAt n s.syn.signals } } := ⟨_, rfl⟩
  have hcu : counterOf u g.part g.index = some c := by rw [hu]; exact hc
  have hsu : isSaturated u c = false := by rw [hu]; exact hs
  have hvu : getCounter u c = getCounter s c := by rw [hu]; rfl
  obtain ⟨v, hvdef⟩ : ∃ v, v = postEvent { kind := 0x1E, part := g.part, status := 0x41, detail := g.index }
    (synEvent g.part 2 g.index (saturatedAt c u)) := ⟨_, rfl⟩
  have happ : applySignal g.part g.index g.inc g.far u = (true, recheck c v) := by
    unfold applySignal
    rw [hcu]
    dsimp only
    rw [addCounter_saturates hsu (by rw [hvu]; exact hv), hvdef]
  have hsynv : v.syn = (saturatedAt c u).syn := by rw [hvdef]; rfl
  have hbit : bitOf (regN v (ctx bSynCtx g.part 4)) 2 = true := by
    rw [hvdef, regN_congr (postEvent_regs ..)]
    exact bitOf_synEvent (by decide) _ _ _
  clear hvdef
  rw [← hu, happ]
  obtain ⟨hsyn, -, hregs⟩ := signalEnds_keeps g true (recheck c v)
  have hre : (recheck c v).syn = { v.syn with waiters := waitersKept c v } := of_told State.syn (fun _ => rfl) (told_recheck c v)
  refine ⟨?_, ?_, ?_⟩
  · rw [getCounter, hsyn, hre, hsynv]
    exact (saturatedAt_counter c u).1
  · rw [isSaturated, hsyn, hre, hsynv]
    exact (saturatedAt_counter c u).2
  · rw [regN_congr hregs]
    exact saturatedBit_recheck hbit c

/-- A signal outside its partition's range is counted and discarded (R184, R345). -/
theorem signal_discarded (hc : counterOf s g.part g.index = none) : Does (.signalApply n) s fun t => t.syn.counters = s.syn.counters ∧
    (reg s (ctx bSynCtx g.part 8) ≠ 0xFFFFFFFF → reg t (ctx bSynCtx g.part 8) = reg s (ctx bSynCtx g.part 8) + 1) ∧
    bitOf (regN t (ctx bSynCtx g.part 4)) (b2n g.far) = true := by
  refine ⟨_, exec_signalApply hg hturn, ?_⟩
  obtain ⟨u, hu⟩ : ∃ u : State, u = { s with syn := { s.syn with signals := removeAt n s.syn.signals } } := ⟨_, rfl⟩
  have happ : applySignal g.part g.index g.inc g.far u =
      (false, synEvent g.part (b2n g.far) g.index (incReg (ctx bSynCtx g.part 8) u)) := by
    unfold applySignal
    rw [show counterOf u g.part g.index = none by rw [hu]; exact hc]
  rw [← hu, happ]
  obtain ⟨hsyn, -, hregs⟩ := signalEnds_keeps g false (synEvent g.part (b2n g.far) g.index (incReg (ctx bSynCtx g.part 8) u))
  have hreg (k : Nat) : reg u k = reg s k := by rw [hu]; rfl
  refine ⟨?_, fun hfull => ?_, ?_⟩
  · rw [hsyn, synEvent, incReg_frame, hu]; rfl
  · rw [regs_reg _ _ hregs, synEvent, reg_setReg, if_neg (by unfold ctx; omega), reg_incReg_self (by rw [hreg]; exact hfull), hreg]
  · rw [regN_congr hregs]
    exact bitOf_synEvent (by cases g.far <;> decide) _ _ _

end

/-- Settles O29: a replay's row and registers, a failed link's reset, and the three things a signal can do. -/
theorem meshAndSignals : Obligations.MeshAndSignals := by
  unfold Obligations.MeshAndSignals
  refine ⟨fun s dt l hl => ?_, fun s n g hg => ⟨fun hb => ?_, fun hb => ⟨fun c hc hs hv => signal_counts hg hb hc hs hv,
    fun c hc hs hv => signal_saturates hg hb hc hs hv, fun hc => signal_discarded hg hb hc⟩⟩⟩
  · intro row k a
    have hframe := replayCounted_frame dt l s
    have hreg := reg_replayCounted (dt := dt) (l := l) (s := s)
    have hbit : bitOf (regN (replayCounted dt l s) bNoc) (b2n (linkEdge l)) = true :=
      bitOf_nocEvent (by cases linkEdge l <;> decide) _ _
    have hrow : replaysNow l (replayCounted dt l s) = k := by rw [hframe]; rfl
    have hexec := exec_meshFlitRetry hl dt s
    rw [hrow] at hexec
    generalize replayCounted dt l s = u at *
    refine ⟨fun hk => ⟨replayNoted l u, ?_, ?_, fun hr => hreg hr, hbit, ?_⟩, fun hk hr ht => ⟨linkFails l (replayNoted l u), ?_, ?_⟩⟩
    · rw [hexec, if_neg (by omega)]
    · rw [← hrow]
      exact Tbl.get_set_self 0 u.syn.replays l _
    · rw [hframe]; rfl
    · rw [hexec, if_pos hk]
    · obtain ⟨h1, h2⟩ := linkFails_resets (l := l) (s := replayNoted l u) (by rw [hframe]; exact hr) (by rw [hframe]; exact ht)
      refine ⟨h1, h2.trans ?_⟩
      rw [hframe]; rfl
  · show execSignalApply n s = _
    rw [execSignalApply, hg]
    exact if_pos hb

end Sys2Proof.Machine
end

section
/-!
PROOFS. O30: wait requests, their deadlines and their resends (R340 to R346).
-/
namespace Sys2Proof.Machine

/-! ## Verdicts -/

/-- A verdict ends the wait of a core that waits for it, and no other. -/
theorem coreWait_verdict {k : Nat} {s : State} (h : (getCore s k).stall = .wait) (e : Ending) (node : Nat) :
    (getCore (giveVerdict (.coreWait k) e node s) k).stall = .verdict (endingStatus true e) node ∧
    (giveVerdict (.coreWait k) e node s).syn = s.syn ∧
    ∀ j, j ≠ k → getCore (giveVerdict (.coreWait k) e node s) j = getCore s j := by
  refine ⟨?_, rfl, fun j hj => ?_⟩
  · rw [giveVerdict, getCore_updCore, if_pos rfl, if_pos h]
  · rw [giveVerdict, getCore_updCore, if_neg hj]

/-- A verdict ends the SYNC_WAIT that waits for it (R349); nothing else of its status applies to one that has timed out. -/
theorem desc_timedOut {id : Nat} {d : Desc} {s : State} (h : findDesc s id = some d) (hlive : d.live = true) (node : Nat) :
    Stands (giveVerdict (.desc id) .deadline node s) id (.done .syncTimeout) ∧ (giveVerdict (.desc id) .deadline node s).syn = s.syn := by
  refine ⟨?_, rfl⟩
  show Stands (finishDesc id .syncTimeout s) id _
  rw [Stands, findDesc_finishDesc, if_pos rfl, h, Option.map_some, if_pos hlive]
  exact ⟨_, rfl, rfl⟩

/-- A wait that ends at its deadline is counted, and its verdict given. -/
theorem endWait_eq {w : Wait} {c : Nat} {s : State} (hc : counterOf s w.part w.index = some c) (hs : isSaturated s c = false) :
    endWait w s = giveVerdict w.origin .deadline (nodeId s) (countTimeout w s) := by
  have hend : deadlineEnding s w = .deadline := by
    unfold deadlineEnding
    rw [hc]
    dsimp only
    rw [hs]
    rfl
  rw [endWait, hend]

theorem countTimeout_frame (w : Wait) (s : State) : countTimeout w s = { s with regs := (countTimeout w s).regs } := by
  unfold countTimeout synEvent
  dsimp only
  rw [incReg_frame]
  rfl

/-! ## A request at its sync unit -/

section
variable {s : State} {w : Wait} {c : Nat} (hc : counterOf s w.part w.index = some c) (hs : isSaturated s c = false)
include hc hs

theorem waitMet_eq : waitMet s w = decide (w.expected.toNat ≤ (getCounter s c).toNat) := by
  unfold waitMet
  rw [hc]
  dsimp only
  rw [hs]
  rfl

theorem takeWait_met (hm : w.expected.toNat ≤ (getCounter s c).toNat) :
    takeWait w s = giveVerdict w.origin .satisfied (nodeId s) s := by
  unfold takeWait
  rw [hc]
  dsimp only
  rw [waitMet_eq hc hs, decide_eq_true hm, if_pos rfl]

/-- A request that its counter does not satisfy, before its deadline, is kept by a unit with room and answered BUSY by a full one
(R343). -/
theorem takeWait_open (hm : ¬ w.expected.toNat ≤ (getCounter s c).toNat) (hd : timeReached (now48 s) w.deadline = false) :
    takeWait w s = if unitFull s (c / 256) then
      synEvent (if w.issuer = 0 then w.part else w.issuer) 4 (bitsOf (regN s (ctx bSynCtx (if w.issuer = 0 then w.part else w.issuer) 4)) 16 14)
        { s with syn := { s.syn with busy := s.syn.busy ++ [w] } }
      else { s with syn := { s.syn with waiters := s.syn.waiters ++ [w] } } := by
  unfold takeWait
  rw [hc]
  dsimp only
  rw [waitMet_eq hc hs, decide_eq_false hm, if_neg Bool.false_ne_true, deadlineCome, hd, if_neg Bool.false_ne_true, hs, Bool.not_false,
    Bool.true_and]

end

/-! ## The commands -/

/-- The state in which a request has left the meshes. -/
def requestLeft (n : Nat) (s : State) : State := { s with syn := { s.syn with requests := removeAt n s.syn.requests } }

theorem exec_waitRequest {s : State} {n : Nat} {w : Wait} (hw : s.syn.requests[n]? = some w)
    (h : sentBefore s w.source w.part w.index w.no = false) : exec (.waitRequest n) s = .next (takeWait w (requestLeft n s)) := by
  show execWaitRequest n s = _
  rw [execWaitRequest, hw]
  dsimp only
  rw [h]
  rfl

theorem exec_waitDeadline {s : State} {dt n c : Nat} {w : Wait} (hw : s.syn.waiters[n]? = some w)
    (hc : counterOf s w.part w.index = some c) (hs : isSaturated s c = false) (hm : ¬ w.expected.toNat ≤ (getCounter s c).toNat)
    (hd : timeReached (now48 (pass dt s)) w.deadline = true) : exec (.waitDeadline dt n) s =
    .next (endWait w { pass dt s with syn := { s.syn with waiters := removeAt n s.syn.waiters } }) := by
  show execWaitDeadline dt n s = _
  have hmet : waitMet (pass dt s) w = false := (waitMet_eq (s := pass dt s) hc hs).trans (decide_eq_false hm)
  rw [execWaitDeadline]
  dsimp only
  rw [show (pass dt s).syn = s.syn from rfl, hw]
  dsimp only
  rw [deadlineCome, hd, hmet]
  rfl

/-- Settles O30: a request ends, waits or is answered BUSY as its counter, its deadline and its unit say; a deadline ends its wait. -/
theorem waits : Obligations.Waits := by
  unfold Obligations.Waits
  refine ⟨fun s dt n w c hc hs => ⟨fun hw hb => ?_, fun hw hb => ⟨fun k ho hk hm => ?_, fun hm hd hfull => ?_, fun hm hd hfull => ?_⟩,
    fun hw hm hd hfull => ?_, fun hw hm hd => ⟨fun k ho hk => ?_, fun id d ho hdesc hlive => ?_⟩⟩, fun s dt n w id d hw ho hdesc hlive hd => ?_⟩
  · show execWaitRequest n s = _
    rw [execWaitRequest, hw]
    exact if_pos hb
  · refine ⟨_, exec_waitRequest hw hb, ?_⟩
    rw [takeWait_met (s := requestLeft n s) hc hs hm, ho]
    exact coreWait_verdict (s := requestLeft n s) hk .satisfied _
  · rw [exec_waitRequest hw hb, takeWait_open (s := requestLeft n s) hc hs hm hd]
    exact congrArg Host.Outcome.next (if_neg (by rw [show unitFull (requestLeft n s) (c / 256) = _ from hfull]; decide))
  · refine ⟨_, exec_waitRequest hw hb, ?_⟩
    rw [takeWait_open (s := requestLeft n s) hc hs hm hd, if_pos (show unitFull (requestLeft n s) (c / 256) = true from hfull)]
    exact ⟨rfl, rfl⟩
  · show execWaitBusyResend dt n s = _
    rw [execWaitBusyResend]
    dsimp only
    rw [show (pass dt s).syn = s.syn from rfl, hw]
    dsimp only
    rw [takeWait_open (s := { pass dt s with syn := { s.syn with busy := removeAt n s.syn.busy } }) hc hs hm hd]
    exact congrArg Host.Outcome.next (if_neg (fun h => Bool.false_ne_true (hfull.symm.trans h)))
  · refine ⟨_, exec_waitDeadline hw hc hs hm hd, ?_⟩
    rw [endWait_eq (s := { pass dt s with syn := { s.syn with waiters := removeAt n s.syn.waiters } }) hc hs, ho, countTimeout_frame]
    obtain ⟨hstall, hsyn, -⟩ := coreWait_verdict (k := k)
      (s := { pass dt s with
        syn := { s.syn with waiters := removeAt n s.syn.waiters }
        regs := (countTimeout w { pass dt s with syn := { s.syn with waiters := removeAt n s.syn.waiters } }).regs }) hk .deadline (nodeId s)
    exact ⟨hstall, hsyn⟩
  · refine ⟨_, exec_waitDeadline hw hc hs hm hd, ?_⟩
    rw [endWait_eq (s := { pass dt s with syn := { s.syn with waiters := removeAt n s.syn.waiters } }) hc hs, ho, countTimeout_frame]
    exact desc_timedOut (s := { pass dt s with
      syn := { s.syn with waiters := removeAt n s.syn.waiters }
      regs := (countTimeout w { pass dt s with syn := { s.syn with waiters := removeAt n s.syn.waiters } }).regs }) hdesc hlive _
  · refine ⟨_, ?_, desc_timedOut (s := { pass dt s with syn := { s.syn with remotes := removeAt n s.syn.remotes } }) hdesc hlive
      (nodeId s)⟩
    show execRemoteWaitGrace dt n s = _
    rw [execRemoteWaitGrace]
    dsimp only
    rw [show (pass dt s).syn = s.syn from rfl, hw]
    dsimp only
    rw [hd, ho]
    rfl

end Sys2Proof.Machine
end

section
/-!
PROOFS. What traffic leaves of a port, and what a port that falls or rises leaves of the others (R364, R371, R380, R385).
-/
namespace Sys2Proof.Machine

/-! ## A port but for its traffic -/

/-- What codewords and packets that leave do not change of a port. -/
def Port.shape (q : Port) : Port := { q with txSeq := 0, kept := [], sinceLink := 0, credits := [], queue := [], since := 0 }

/-- Traffic: ports keep their shape, those that are not UP keep all, and no register changes. -/
structure Traffic (s t : State) : Prop where
  shape : ∀ p, (getPort t p).shape = (getPort s p).shape
  quiet : ∀ p, portUp s p = false → getPort t p = getPort s p
  regs : t.regs = s.regs

theorem Traffic.st {s t : State} (h : Traffic s t) (p : Nat) : (getPort t p).st = (getPort s p).st :=
  (congrArg Port.st (h.shape p) :)

theorem Traffic.up {s t : State} (h : Traffic s t) (p : Nat) : portUp t p = portUp s p := by
  rw [portUp, h.st, portUp]

theorem Traffic.refl (s : State) : Traffic s s := ⟨fun _ => rfl, fun _ _ => rfl, rfl⟩

theorem Traffic.trans {s t u : State} (h : Traffic s t) (k : Traffic t u) : Traffic s u :=
  ⟨fun p => (k.shape p).trans (h.shape p), fun p hp => (k.quiet p ((h.up p).trans hp)).trans (h.quiet p hp), k.regs.trans h.regs⟩

theorem Traffic.foldl {α : Type} {f : State → α → State} {s : State} (l : List α)
    (h : ∀ t, Traffic s t → ∀ x ∈ l, Traffic t (f t x)) : Traffic s (l.foldl f s) :=
  List.foldlRecOn (motive := Traffic s) l f (.refl s) fun t ht x hx => ht.trans (h t ht x hx)

/-- What changes neither a port nor a register is traffic. -/
theorem Traffic.of_same {s t : State} (hp : t.fab.ports = s.fab.ports) (hr : t.regs = s.regs) : Traffic s t := by
  have h (p : Nat) : getPort t p = getPort s p := by rw [getPort, getPort, hp]
  exact ⟨fun p => by rw [h], fun p _ => h p, hr⟩

/-- An UP port that changes in its traffic only. -/
theorem Traffic.updPort {p : Nat} {s : State} (hup : portUp s p = true) {f : Port → Port} (hf : ∀ q, (f q).shape = q.shape) :
    Traffic s (updPort p f s) := by
  refine ⟨fun q => ?_, fun q hq => ?_, rfl⟩
  · rw [getPort_updPort]
    split
    next h => subst h; exact hf _
    next => rfl
  · rw [getPort_updPort, if_neg]
    rintro rfl
    exact Bool.false_ne_true (hq.symm.trans hup)

theorem Traffic.portPut {p : Nat} {s : State} (hup : portUp s p = true) (n : Nat) (o : Out) : Traffic s (portPut p n o s) :=
  (Traffic.updPort (f := fun q => { q with
    txSeq := (q.txSeq + n) % 1024, kept := q.kept ++ [((q.txSeq + n + 1023) % 1024, o)], sinceLink := q.sinceLink + n }) hup
    fun _ => rfl).trans (.of_same rfl rfl)

theorem Traffic.sendFlit {p : Nat} {s : State} (hup : portUp s p = true) (kind : Nat) (fields : List (Nat × Nat × Nat)) :
    Traffic s (sendFlit p kind fields s) := .portPut hup 1 _

theorem Traffic.sendLink {p : Nat} {s : State} (hup : portUp s p = true) (resend : Bool) : Traffic s (sendLink p resend s) := by
  have h := Traffic.sendFlit hup 0x01
    ((2, 2, (getPort s p).rxSeq + 32768 * b2n resend) :: eightFields 4 ((List.range 8).map fun v => (getPort s p).freed.get 0 v))
  exact h.trans (.updPort ((h.up p).trans hup) fun _ => rfl)

theorem Traffic.linkDue {p : Nat} {s : State} (hup : portUp s p = true) : Traffic s (linkDue p s) := by
  unfold Machine.linkDue
  split
  · exact .sendLink hup false
  · exact .refl s

theorem Traffic.packetLeaves {p : Nat} {s : State} (hup : portUp s p = true) (k : Packet) : Traffic s (packetLeaves p k s) := by
  have h : Traffic s (Machine.updPort p (fun q =>
    { q with credits := Tbl.set 0 q.credits k.vc (q.credits.get 0 k.vc - pktUnits k) }) s) := .updPort hup fun _ => rfl
  exact h.trans (.portPut ((h.up p).trans hup) _ _)

theorem Traffic.portSend {p : Nat} {s : State} (hup : portUp s p = true) (k : Packet) : Traffic s (portSend p k s) := by
  unfold Machine.portSend
  dsimp only
  split
  · exact .updPort hup fun _ => rfl
  · have h := Traffic.packetLeaves hup k
    exact h.trans (.linkDue ((h.up p).trans hup))

theorem Traffic.portDrain {p : Nat} {s : State} (hup : portUp s p = true) (n : Nat) (l kept : List Packet) :
    Traffic s (portDrain p n l kept s) := by
  induction n generalizing s l kept with
  | zero => exact .refl s
  | succ n ih =>
    cases l with
    | nil =>
      have h : Traffic s (Machine.updPort p (fun q => { q with queue := kept.reverse }) s) := .updPort hup fun _ => rfl
      exact h.trans (.linkDue ((h.up p).trans hup))
    | cons k t =>
      unfold Machine.portDrain
      split
      · exact ih hup ..
      · have h := Traffic.packetLeaves hup k
        exact h.trans (ih ((h.up p).trans hup) ..)

/-! ## Requests that are sent, and sent again (R371 to R373) -/

/-- A request is put on an UP port, or on none. -/
theorem onPort_up (s : State) (o : Sent) (h : (Sent.onPort s o).port < 8) : portUp s (Sent.onPort s o).port = true := by
  unfold Sent.onPort at h ⊢
  split at h
  next p hp =>
    unfold sendPort at hp
    split at hp
    next hret =>
      obtain rfl := Option.some.inj hp
      exact (Bool.and_eq_true_iff.mp hret).2
    next =>
      have hfound := List.find?_some hp
      exact (Bool.and_eq_true_iff.mp hfound).1
  next => exact absurd h (Nat.lt_irrefl 8)

theorem Traffic.putOnPort {s : State} {o : Sent} (hup : o.port < 8 → portUp s o.port = true) : Traffic s (putOnPort o s) := by
  unfold Machine.putOnPort
  extract_lets u
  have hu : Traffic s u := by
    dsimp only [u]
    split
    · split
      · exact .of_same rfl rfl
      · exact .refl s
    · exact .refl s
  clear_value u
  split
  next hp => exact hu.trans (.portSend ((hu.up _).trans (hup hp)) _)
  next => exact hu

theorem Traffic.resendSeq (key : Nat) (s : State) : Traffic s (resendSeq key s) := by
  unfold Machine.resendSeq resendSome
  extract_lets go l fab u
  have hu : Traffic s u := .of_same rfl rfl
  have hl : ∀ o ∈ l, o.port < 8 → portUp s o.port = true := by
    intro o ho hp
    obtain ⟨o', -, rfl⟩ := List.mem_map.mp ho
    exact onPort_up s o' hp
  clear_value u l
  exact hu.trans (.foldl l fun t ht o ho => .putOnPort fun hp => (ht.up _).trans ((hu.up _).trans (hl o ho hp)))

theorem Traffic.moveFlows (pick : Nat → Bool) (s : State) : Traffic s (moveFlows pick s) :=
  .foldl _ fun t _ k _ => .resendSeq k t

theorem Traffic.transmit (o : Sent) (s : State) : Traffic s (transmit o s) := by
  unfold Machine.transmit
  extract_lets k t o'
  have ho : o'.port < 8 → portUp s o'.port = true := onPort_up s _
  clear_value o'
  have hu : Traffic s (updTx k.dst k.flow k.vc (fun t =>
    { t with next := (t.next + 1) % 2 ^ 24, resync := false, unacked := t.unacked ++ [o'] }) s) := .of_same rfl rfl
  exact hu.trans (.putOnPort fun hp => (hu.up _).trans (ho hp))

theorem Traffic.pump (node flow vc n : Nat) (s : State) : Traffic s (pump node flow vc n s) := by
  induction n generalizing s with
  | zero => exact .refl s
  | succ n ih =>
    unfold Machine.pump
    split
    · exact .refl s
    next o l _ =>
      split
      · have hu : Traffic s (updTx node flow vc (fun t => { t with waitingQ := l }) s) := .of_same rfl rfl
        exact (hu.trans (.transmit o _)).trans (ih _)
      · exact .refl s

theorem Traffic.pumpAll (s : State) : Traffic s (pumpAll s) := .foldl _ fun t _ _ _ => .pump _ _ _ _ t

/-! ## Ports that fall and rise (R371, R380, R385) -/

/-- The bits of the fabric's registers that say which ports are enabled and which node this is (R388). -/
def Kept (s t : State) : Prop := reg t bGzl = reg s bGzl ∧ reg t (bGzl + 4) = reg s (bGzl + 4)

theorem Kept.refl (s : State) : Kept s s := ⟨rfl, rfl⟩
theorem Kept.trans {s t u : State} (h : Kept s t) (k : Kept t u) : Kept s u := ⟨k.1.trans h.1, k.2.trans h.2⟩
theorem Kept.of_regs {s t : State} (h : t.regs = s.regs) : Kept s t := ⟨regs_reg _ _ h _, regs_reg _ _ h _⟩

theorem Kept.setReg {k : Nat} (h : bGzl + 8 ≤ k) (v : Word) (s : State) : Kept s (setReg k v s) := by
  refine ⟨?_, ?_⟩
  · rw [reg_setReg, if_neg (by omega)]
  · rw [reg_setReg, if_neg (by omega)]

theorem Kept.node {s t : State} (h : Kept s t) : nodeId t = nodeId s := by rw [nodeId, regN, h.2, nodeId, regN]

theorem Kept.gzlEvent (bit p : Nat) (s : State) : Kept s (gzlEvent bit p s) := .setReg (Nat.le_refl _) _ _

/-- Ports stay as they are, and so do the registers that `Kept` names. -/
structure SamePorts (s t : State) : Prop where
  ports : t.fab.ports = s.fab.ports
  kept : Kept s t

theorem SamePorts.refl (s : State) : SamePorts s s := ⟨rfl, .refl s⟩
theorem SamePorts.trans {s t u : State} (h : SamePorts s t) (k : SamePorts t u) : SamePorts s u := ⟨k.ports.trans h.ports, h.kept.trans k.kept⟩
theorem SamePorts.of_regs {s t : State} (hp : t.fab.ports = s.fab.ports) (hr : t.regs = s.regs) : SamePorts s t := ⟨hp, .of_regs hr⟩

theorem SamePorts.port {s t : State} (h : SamePorts s t) (p : Nat) : getPort t p = getPort s p := by rw [getPort, getPort, h.ports]

theorem SamePorts.gzlEvent (bit p : Nat) (s : State) : SamePorts s (gzlEvent bit p s) := ⟨rfl, .gzlEvent ..⟩

theorem SamePorts.correctTime (e : Int) (p : Nat) (s : State) : SamePorts s (correctTime e p s) := by
  unfold Machine.correctTime
  extract_lets a u
  have hu : SamePorts s u := ⟨rfl, .setReg (show bGzl + 8 ≤ bGzl + 0x0C by omega) _ _⟩
  clear_value u
  split
  · exact hu.trans (.of_regs rfl rfl)
  · split
    · have h1 : SamePorts u { u with now := u.now + BitVec.ofInt 64 e, fab := { u.fab with slew := 0 } } := .of_regs rfl rfl
      exact (hu.trans h1).trans ((SamePorts.gzlEvent 6 p _).trans (.of_regs rfl rfl))
    · have h1 : SamePorts u { u with fab := { u.fab with slew := e } } := .of_regs rfl rfl
      exact (hu.trans h1).trans ((SamePorts.gzlEvent 7 p _).trans (.of_regs rfl rfl))

theorem SamePorts.followSource (s : State) : SamePorts s (followSource s) := by
  unfold Machine.followSource
  extract_lets new fab u src
  have hu : SamePorts s u := .of_regs rfl rfl
  clear_value new u
  subst src
  split
  · exact .refl s
  · split
    next p _ =>
      have h1 : SamePorts u (timeRecord 2 (timeOffset u p) u) := .of_regs rfl rfl
      exact (hu.trans h1).trans (.correctTime ..)
    next => exact hu.trans (.of_regs rfl rfl)

/-- What becomes of a port that falls (R385). -/
def downPort (reason clock : Nat) (q : Port) : Port :=
  { q with st := .down, width := 0, reason := reason, timeOk := false, queue := [], credits := [], lastCred := [], freed := []
           txSeq := 0, txAcked := 0, resends := 0, rxSeq := 0, kept := [], sinceLink := 0, handshake := none, spareUsed := false
           since := clock, holdoff := true, degradedSince := none }

theorem portDown_same (p reason : Nat) (s : State) : SamePorts (updPort p (downPort reason s.clock) s) (portDown p reason s) := by
  have hone : portDown p reason s =
      if (getPort s p).st = .up then
        postEvent { kind := 0x1B, detail := packB [(1, p), (1, 0), (1, 0), (1, reason)] } (gzlEvent 0 p (updPort p (downPort reason s.clock) s))
      else if (getPort s p).st = .down then updPort p (downPort reason s.clock) s
      else postEvent { kind := 0x1B, detail := packB [(1, p), (1, 0), (1, 0), (1, reason)] } (updPort p (downPort reason s.clock) s) := rfl
  rw [hone]
  split
  · exact (SamePorts.gzlEvent 0 p _).trans (.of_regs rfl rfl)
  · split
    · exact .refl _
    · exact .of_regs rfl rfl

/-- A port falls as `downPort` says, and the others keep their shape. -/
structure Falls (p reason : Nat) (s t : State) : Prop where
  fallen : getPort t p = downPort reason s.clock (getPort s p)
  others : ∀ q, q ≠ p → (getPort t q).shape = (getPort s q).shape
  kept : Kept s t

theorem portFails_falls (p reason : Nat) (s : State) : Falls p reason s (portFails p reason s) := by
  have hdown := portDown_same p reason s
  have hp : getPort (portDown p reason s) p = downPort reason s.clock (getPort s p) := by
    rw [hdown.port, getPort_updPort, if_pos rfl]
  have hq (q : Nat) (h : q ≠ p) : getPort (portDown p reason s) q = getPort s q := by
    rw [hdown.port, getPort_updPort, if_neg h]
  have hk : Kept s (portDown p reason s) := (Kept.of_regs rfl).trans hdown.kept
  unfold portFails
  extract_lets was carried moved u v src w
  subst src
  clear_value was carried moved
  change getPort u p = _ at hp
  change ∀ q, q ≠ p → getPort u q = getPort s q at hq
  change Kept s u at hk
  clear_value u
  split
  · have hv : SamePorts u v := by
      dsimp only [v]
      split
      · exact .refl u
      · exact .gzlEvent ..
    have hw : SamePorts u w := hv.trans (.of_regs rfl rfl)
    clear_value v w
    have hmove := Traffic.moveFlows (fun k => moved.contains (k / 8 % 8) || (w.fab.tx.get {} k).open.any fun o => o.port == p) w
    generalize moveFlows (fun k => moved.contains (k / 8 % 8) || (w.fab.tx.get {} k).open.any fun o => o.port == p) w = x at hmove
    have hlast := SamePorts.followSource x
    have hpw : getPort w p = downPort reason s.clock (getPort s p) := (hw.port p).trans hp
    refine ⟨?_, fun q h => ?_, ((hk.trans hw.kept).trans (.of_regs hmove.regs)).trans hlast.kept⟩
    · rw [hlast.port, hmove.quiet p (by rw [portUp, hpw]; rfl), hpw]
    · rw [hlast.port, hmove.shape, hw.port, hq q h]
  · exact ⟨hp, fun q h => by rw [hq q h], hk⟩

/-- A port that rises is UP with the width it trained to; the others keep their shape. -/
theorem portRises_up (p : Nat) (s : State) : (getPort (portRises p s) p).st = .up ∧ (getPort (portRises p s) p).width = (getPort s p).width := by
  unfold portRises
  extract_lets before u v moved back fab w x y
  have hu : getPort u p = { getPort s p with st := .up, since := s.clock } := by
    show getPort (updPort p (fun q => { q with st := .up, since := s.clock }) s) p = _
    rw [getPort_updPort, if_pos rfl]
  have hv : (getPort v p).st = .up ∧ (getPort v p).width = (getPort s p).width := by
    dsimp only [v]
    rw [getPort_updPort, if_pos rfl, hu]
    exact ⟨rfl, rfl⟩
  have hw : SamePorts v w := .of_regs rfl rfl
  have hx : Traffic w x := .moveFlows ..
  have hy : SamePorts x y := by
    dsimp only [y]
    split
    · exact .gzlEvent ..
    · exact (SamePorts.gzlEvent 4 p x).trans (.gzlEvent ..)
  clear_value v w x y
  have hz := SamePorts.followSource y
  have hpump := Traffic.pumpAll (followSource y)
  have hshape : (getPort (pumpAll (followSource y)) p).shape = (getPort v p).shape := by
    rw [hpump.shape, hz.port, hy.port, hx.shape, hw.port]
  exact ⟨(congrArg Port.st hshape :).trans hv.1, (congrArg Port.width hshape :).trans hv.2⟩

/-! ## Number of the field of a control flit (R361) -/

theorem linkFlit_kind {kind : Nat} {fields : List (Nat × Nat × Nat)} (h : ∀ f ∈ fields, 1 ≤ f.1) :
    leAt (linkFlit kind fields) 0 1 = kind % 256 := by
  refine List.foldlRecOn (motive := fun b => leAt b 0 1 = kind % 256) fields _ ?_ fun b hb f hf => ?_
  · rw [leAt_append_left (by rw [length_leBytes]), leAt_leBytes]
    rfl
  · rw [leAt_putB_off (.inl (by have := h f hf; omega))]
    exact hb

end Sys2Proof.Machine
end

section
/-!
PROOFS. O32: a port comes up, times out and tries again (R361, R363, R383 to R386).
-/
namespace Sys2Proof.Machine

theorem getPort_upd_self (p : Nat) (f : Port → Port) (s : State) : getPort (updPort p f s) p = f (getPort s p) := by
  rw [getPort_updPort, if_pos rfl]

theorem getPort_upd_ne {p q : Nat} (h : q ≠ p) (f : Port → Port) (s : State) : getPort (updPort p f s) q = getPort s q := by
  rw [getPort_updPort, if_neg h]

/-! ## A control flit comes (R361) -/

/-- A port but for its codewords. -/
def Port.body (q : Port) : Port := { q with txSeq := 0, kept := [], sinceLink := 0, rxSeq := 0 }

/-- What a control flit that comes on port `p` does: codewords are counted, LINK flits leave, and nothing else changes. -/
structure FlitTaken (p : Nat) (s t : State) : Prop where
  body : (getPort t p).body = (getPort s p).body
  others : ∀ q, q ≠ p → getPort t q = getPort s q
  out : ∃ l, t.out = l ++ s.out ∧ LinkFlits p l
  rest : t = { s with out := t.out, fab := { s.fab with ports := t.fab.ports } }

theorem FlitTaken.trans {p : Nat} {s t u : State} (h : FlitTaken p s t) (k : FlitTaken p t u) : FlitTaken p s u := by
  obtain ⟨l, hl, hlf⟩ := h.out
  obtain ⟨m, hm, hmf⟩ := k.out
  refine ⟨k.body.trans h.body, fun q hq => (k.others q hq).trans (h.others q hq), ⟨m ++ l, ?_, ?_⟩, ?_⟩
  · rw [hm, hl, List.append_assoc]
  · intro o ho
    exact (List.mem_append.mp ho).elim (hmf o) (hlf o)
  · have hr := k.rest
    rw [h.rest] at hr
    exact hr

theorem FlitTaken.refl (p : Nat) (s : State) : FlitTaken p s s := ⟨rfl, fun _ _ => rfl, ⟨[], rfl, fun _ h => absurd h List.not_mem_nil⟩, rfl⟩

theorem FlitTaken.updPort {p : Nat} {f : Port → Port} (hf : ∀ q, (f q).body = q.body) (s : State) : FlitTaken p s (updPort p f s) :=
  ⟨by rw [getPort_upd_self, hf], fun _ hq => getPort_upd_ne hq f s, ⟨[], rfl, fun _ h => absurd h List.not_mem_nil⟩, rfl⟩

theorem eightFields_offset {off : Nat} {l : List Nat} {f : Nat × Nat × Nat} (h : f ∈ eightFields off l) : off ≤ f.1 := by
  obtain ⟨e, -, rfl⟩ := List.mem_map.mp h
  exact Nat.le_add_right _ _

/-- The LINK flit that a port sends. -/
def linkOut (p : Nat) (resend : Bool) (s : State) : Bytes :=
  linkFlit 0x01 ((2, 2, (getPort s p).rxSeq + 32768 * b2n resend) :: eightFields 4 ((List.range 8).map fun v => (getPort s p).freed.get 0 v))

theorem linkOut_kind (p : Nat) (resend : Bool) (s : State) : leAt (linkOut p resend s) 0 1 = 0x01 := by
  refine linkFlit_kind fun f hf => ?_
  rcases List.mem_cons.mp hf with rfl | hf
  · exact Nat.one_le_ofNat
  · exact Nat.le_trans (by decide) (eightFields_offset hf)

theorem out_sendLink (p : Nat) (resend : Bool) (s : State) : (sendLink p resend s).out = .flit p (linkOut p resend s) :: s.out := rfl

theorem FlitTaken.sendLink (p : Nat) (resend : Bool) (s : State) : FlitTaken p s (sendLink p resend s) := by
  have h1 : FlitTaken p s (sendFlit p 0x01
      ((2, 2, (getPort s p).rxSeq + 32768 * b2n resend) :: eightFields 4 ((List.range 8).map fun v => (getPort s p).freed.get 0 v)) s) := by
    refine ⟨?_, fun q hq => ?_, ⟨[.flit p (linkOut p resend s)], rfl, fun o ho => ⟨_, List.mem_singleton.mp ho, linkOut_kind ..⟩⟩, rfl⟩
    · show (getPort (Machine.updPort p _ s) p).body = _
      rw [getPort_upd_self]; rfl
    · show getPort (Machine.updPort p _ s) q = _
      exact getPort_upd_ne hq _ _
  exact h1.trans (.updPort (f := fun q => { q with sinceLink := 0 }) (fun _ => rfl) _)

theorem FlitTaken.linkDue (p : Nat) (s : State) : FlitTaken p s (linkDue p s) := by
  unfold Machine.linkDue
  split
  · exact .sendLink ..
  · exact .refl p s

theorem FlitTaken.rxCodewords (p n : Nat) (s : State) : FlitTaken p s (rxCodewords p n s) :=
  (FlitTaken.updPort (f := fun q => { q with rxSeq := (q.rxSeq + n) % 1024, sinceLink := q.sinceLink + n }) (fun _ => rfl) s).trans
    (.linkDue ..)

theorem FlitTaken.rxFlit (p : Nat) (s : State) : FlitTaken p s (rxFlit p s) := by
  unfold Machine.rxFlit
  dsimp only
  split
  · exact (FlitTaken.rxCodewords p 1 s).trans (.sendLink ..)
  · exact .rxCodewords ..

theorem FlitTaken.st {p : Nat} {s t : State} (h : FlitTaken p s t) (q : Nat) : (getPort t q).st = (getPort s q).st := by
  by_cases hq : q = p
  · subst hq; exact (congrArg Port.st h.body :)
  · rw [h.others q hq]

theorem FlitTaken.up {p : Nat} {s t : State} (h : FlitTaken p s t) (q : Nat) : portUp t q = portUp s q := by
  rw [portUp, h.st, portUp]

theorem FlitTaken.regs {p : Nat} {s t : State} (h : FlitTaken p s t) : t.regs = s.regs := by rw [h.rest]

theorem FlitTaken.parts {p : Nat} {s t : State} (h : FlitTaken p s t) : t.parts = s.parts := by rw [h.rest]

/-! ## Tables that a flit fills -/

/-- A fold that sets distinct numbers leaves each its value. -/
theorem get_foldl_set {l : List (Nat × Nat)} (hl : (l.map Prod.fst).Nodup) {k v : Nat} (h : (k, v) ∈ l) (t : Tbl Nat) :
    (l.foldl (fun t e => Tbl.set 0 t e.1 e.2) t).get 0 k = v := by
  have hkeep (l : List (Nat × Nat)) (hk : k ∉ l.map Prod.fst) (t : Tbl Nat) :
      (l.foldl (fun t e => Tbl.set 0 t e.1 e.2) t).get 0 k = t.get 0 k := by
    induction l generalizing t with
    | nil => rfl
    | cons e l ih =>
      rw [List.map_cons, List.mem_cons, not_or] at hk
      rw [List.foldl_cons, ih hk.2, Tbl.get_set_ne _ _ _ hk.1]
  induction l generalizing t with
  | nil => exact absurd h List.not_mem_nil
  | cons e l ih =>
    rw [List.map_cons, List.nodup_cons] at hl
    rcases List.mem_cons.mp h with rfl | h
    · rw [List.foldl_cons, hkeep l hl.1, Tbl.get_set_self]
    · exact ih hl.2 h _

/-- The pairs of a flit's eight fields. -/
theorem mem_zip_range {l : List Nat} {n v : Nat} (hl : l.length = n) (hv : v < n) : (v, l.getD v 0) ∈ (List.range n).zip l := by
  have hlen : v < ((List.range n).zip l).length := by rw [List.length_zip, List.length_range, hl, Nat.min_self]; exact hv
  have hget : ((List.range n).zip l)[v] = (v, l.getD v 0) := by
    rw [List.getElem_zip, List.getElem_range, List.getD_eq_getElem?_getD, List.getElem?_eq_getElem (hl ▸ hv), Option.getD_some]
  exact hget ▸ List.getElem_mem hlen

theorem map_fst_zip_sublist {α β : Type} (a : List α) (b : List β) : ((a.zip b).map Prod.fst).Sublist a := by
  induction a generalizing b with
  | nil => exact List.Sublist.refl []
  | cons x a ih =>
    cases b with
    | nil => exact List.nil_sublist _
    | cons y b => exact (ih b).cons_cons x

theorem nodup_zip_range (n : Nat) (l : List Nat) : (((List.range n).zip l).map Prod.fst).Nodup :=
  List.nodup_range.sublist (map_fst_zip_sublist _ _)

/-! ## PARAM (R363, R384) -/

/-- No port is UP and no partition is started: the node's number may change (R384). -/
def nodeFree (s : State) : Bool := !((List.range 8).any fun p => portUp s p) && !(partNums.any fun n => isStarted s n)

theorem nodeFree_iff (s : State) : nodeFree s = true ↔ (∀ o < 8, portUp s o = false) ∧ ∀ n ∈ partNums, isStarted s n = false := by
  rw [nodeFree, Bool.and_eq_true, Bool.not_eq_true', Bool.not_eq_true', List.any_eq_false, List.any_eq_false]
  simp only [List.mem_range, Bool.not_eq_true]

theorem FlitTaken.nodeFree {p : Nat} {s t : State} (h : FlitTaken p s t) : nodeFree t = nodeFree s := by
  have hs : (fun n => isStarted t n) = fun n => isStarted s n := funext fun n => by rw [isStarted, getPart, h.parts, isStarted, getPart]
  have hu : (fun p => portUp t p) = fun p => portUp s p := funext h.up
  rw [Machine.nodeFree, Machine.nodeFree, hs, hu]

section
variable {s : State} {p : Nat} (h : (getPort s p).st = .param) (plane role node : Nat) (creds : List Nat)
include h

theorem exec_param_bad {reason : Nat} (hc : reason = 5 ∧ (role ≠ 1 ∨ plane ≠ p) ∨
    reason = 6 ∧ role = 1 ∧ plane = p ∧ ((nodeFree s = false ∧ node ≠ nodeId s) ∨ node = 0xFFFF)) :
    exec (.param p plane role node creds) s = .next (paramBad p reason (rxFlit p s)) := by
  have hrx := FlitTaken.rxFlit p s
  have hnode : nodeId (rxFlit p s) = nodeId s := (Kept.of_regs hrx.regs).node
  have hfree := hrx.nodeFree
  show execParam p plane role node creds s = _
  unfold execParam
  rw [h]
  dsimp only
  rw [if_pos (by rfl)]
  rcases hc with ⟨rfl, hc⟩ | ⟨rfl, rfl, rfl, hc⟩
  · rw [if_pos (by simpa using hc)]
  · rw [if_neg (by simp), if_pos]
    rw [hnode]
    rcases hc with ⟨hf, hn⟩ | rfl
    · have hbusy : ((List.range 8).any (fun p => portUp (rxFlit plane s) p) || partNums.any fun n => isStarted (rxFlit plane s) n) = true := by
        rw [← hfree, nodeFree] at hf
        rw [← Bool.not_eq_false', Bool.not_or]
        exact hf
      rw [hbusy, decide_eq_true hn, Bool.true_and, Bool.or_true]
    · rfl

/-- The state after a good PARAM flit, its node taken or not. -/
def paramTaken (p node : Nat) (creds : List Nat) (u : State) : State :=
  portEnters p .time (updPort p (fun q =>
    { q with credits := ((List.range 8).zip creds).foldl (fun t e => Tbl.set 0 t e.1 e.2) [], lastCred := [], freed := [], measured := false })
    (if nodeFree u then setReg (bGzl + 4) (BitVec.ofNat 32 (65536 + node % 65536)) u else u))

theorem exec_param_good (hr : role = 1) (hp : plane = p) (hn : node < 0xFFFF) (hc : nodeFree s = true ∨ node = nodeId s) :
    exec (.param p plane role node creds) s = .next (paramTaken p node creds (rxFlit p s)) := by
  have hrx := FlitTaken.rxFlit p s
  have hnode : nodeId (rxFlit p s) = nodeId s := (Kept.of_regs hrx.regs).node
  have hfree := hrx.nodeFree
  subst hr hp
  show execParam plane plane 1 node creds s = _
  unfold execParam
  rw [h]
  dsimp only
  have hgood : (decide (node % 65536 = 0xFFFF) || (((List.range 8).any (fun p => portUp (rxFlit plane s) p) ||
      partNums.any fun n => isStarted (rxFlit plane s) n) && decide (node ≠ nodeId (rxFlit plane s)))) = false := by
    rw [decide_eq_false (by omega), Bool.false_or, hnode]
    rcases hc with hc | hc
    · rw [← hfree, nodeFree, ← Bool.not_or, Bool.not_eq_true'] at hc
      rw [hc, Bool.false_and]
    · rw [decide_eq_false (not_not_intro hc), Bool.and_false]
  rw [if_pos (by rfl), if_neg (by simp), hgood, if_neg Bool.false_ne_true]
  rfl

end

theorem getPort_portEnters (p : Nat) (st : PortState) (s : State) : getPort (portEnters p st s) p = { getPort s p with st := st, since := s.clock } := by
  show getPort (updPort p _ s) p = _
  rw [getPort_upd_self]

theorem regs_portEnters (p : Nat) (st : PortState) (s : State) : (portEnters p st s).regs = s.regs := rfl

theorem paramTaken_port (p node : Nat) (creds : List Nat) (u : State) : (getPort (paramTaken p node creds u) p).st = .time ∧
    (getPort (paramTaken p node creds u) p).credits = ((List.range 8).zip creds).foldl (fun t e => Tbl.set 0 t e.1 e.2) [] := by
  rw [paramTaken, getPort_portEnters, getPort_upd_self]
  exact ⟨rfl, rfl⟩

theorem paramTaken_node (p node : Nat) (creds : List Nat) (u : State) :
    nodeId (paramTaken p node creds u) = if nodeFree u then node % 65536 else nodeId u := by
  have hregs : (paramTaken p node creds u).regs =
      (if nodeFree u then setReg (bGzl + 4) (BitVec.ofNat 32 (65536 + node % 65536)) u else u).regs := (regs_portEnters ..).trans rfl
  rw [nodeId, regN_congr hregs]
  split
  · rw [regN_setReg, if_pos rfl, BitVec.toNat_ofNat, bitsOf_mod (by decide), bitsOf]
    omega
  · rfl

theorem paramBad_falls (p reason : Nat) {s u : State} (h : FlitTaken p s u) : (getPort (paramBad p reason u) p).st = .down ∧
    (getPort (paramBad p reason u) p).reason = reason ∧ nodeId (paramBad p reason u) = nodeId s := by
  have hf := portFails_falls p reason u
  have hg := SamePorts.gzlEvent 8 p (portFails p reason u)
  have hport : getPort (paramBad p reason u) p = downPort reason u.clock (getPort u p) := (hg.port p).trans hf.fallen
  refine ⟨by rw [hport]; rfl, by rw [hport]; rfl, ?_⟩
  exact ((Kept.of_regs h.regs).trans (hf.kept.trans hg.kept)).node

/-! ## Time-outs -/

theorem exec_portStateTimeout {s : State} {dt p l : Nat} (hl : stateLimit (getPort s p).st = some l)
    (hc : (getPort s p).since + l ≤ s.clock + dt) : exec (.portStateTimeout dt p) s =
    .next (if (getPort s p).st = .time && (getPort s p).lastTime < (getPort s p).since then portRises p (pass dt s)
      else portFails p 9 (pass dt s)) := by
  show execPortStateTimeout dt p s = _
  unfold execPortStateTimeout
  dsimp only
  rw [show getPort (pass dt s) p = getPort s p from rfl, hl]
  exact if_pos hc

/-- Settles O32, state after state: each command enters the next state or falls, by what `portFails` and `portRises` leave of the port. -/
theorem portBringUp : Obligations.PortBringUp := by
  unfold Obligations.PortBringUp
  intro s p hp q
  refine ⟨fun hst hh hen hr hpow => ?_, fun hst failed => ⟨fun hw => ?_, fun hw => ?_⟩, fun hst => ?_, fun hst plane role node creds => ?_,
    fun hst hm ht => ?_, fun hm => ?_, fun dt l hl hc => ?_, fun dt hst hh hen hc => ?_⟩
  · refine ⟨portEnters p .train s, ?_, getPort_portEnters .., rfl⟩
    have hpower : (s.fer.power == .active || s.fer.power == .idle) = true := by
      rcases hpow with h | h <;> rw [h] <;> rfl
    have hgo : (decide (p < 8) && q.st == .down && !q.holdoff && portEnabled s p && s.rst.isNone &&
        (s.fer.power == .active || s.fer.power == .idle)) = true := by
      rw [decide_eq_true hp, hst, hh, hen, hr, hpower]; rfl
    exact if_pos hgo
  · refine ⟨portEnters p .align (updPort p (fun q => { q with
      failed := failed, width := widthOf (healthyLanes failed), spareUsed := widthOf (healthyLanes failed) == 3 && !bitOf failed.toNat 16 && (failed.toNat % 65536 != 0) }) s), ?_, ?_⟩
    · show execPortTrainDone p failed s = _
      unfold execPortTrainDone
      rw [show (getPort s p).st = .train from hst]
      exact (if_pos rfl).trans (if_neg hw)
    · beta_reduce
      rw [getPort_portEnters, getPort_upd_self]
      exact ⟨rfl, rfl, rfl⟩
  · refine ⟨portFails p 1 (updPort p (fun q => { q with
      failed := failed, width := widthOf (healthyLanes failed), spareUsed := widthOf (healthyLanes failed) == 3 && !bitOf failed.toNat 16 && (failed.toNat % 65536 != 0) }) s), ?_, ?_⟩
    · show execPortTrainDone p failed s = _
      unfold execPortTrainDone
      rw [show (getPort s p).st = .train from hst]
      exact (if_pos rfl).trans (if_pos hw)
    · beta_reduce
      rw [(portFails_falls p 1 _).fallen]
      exact ⟨rfl, rfl⟩
  · refine ⟨_, if_pos (by rw [hst]; rfl), ?_, rfl⟩
    show (getPort (updPort p _ (portEnters p .param s)) p).st = _
    rw [getPort_upd_self, getPort_portEnters]
  · have hrx := FlitTaken.rxFlit p s
    have hnode : nodeId (rxFlit p s) = nodeId s := (Kept.of_regs hrx.regs).node
    intro free
    have hfree : nodeFree s = true ↔ free := nodeFree_iff s
    have hbusy (h : ¬free) : nodeFree s = false := Bool.not_eq_true _ ▸ mt hfree.mp h
    refine ⟨fun hc => ?_, fun hr hpl hn hf => ?_, fun hr hpl hf hn hlt => ?_, fun hr hpl hc => ?_⟩
    · exact ⟨_, exec_param_bad hst plane role node creds (.inl ⟨rfl, hc⟩), paramBad_falls p 5 hrx⟩
    · refine ⟨_, exec_param_good hst plane role node creds hr hpl hn (.inl (hfree.mpr hf)), (paramTaken_port ..).1, ?_, fun v hv hlen => ?_⟩
      · rw [paramTaken_node, hrx.nodeFree, if_pos (hfree.mpr hf)]
        exact Nat.mod_eq_of_lt (by omega)
      · rw [(paramTaken_port ..).2]
        exact get_foldl_set (nodup_zip_range 8 creds) (mem_zip_range hlen hv) []
    · refine ⟨_, exec_param_good hst plane role node creds hr hpl hlt (.inr hn), (paramTaken_port ..).1, ?_⟩
      rw [paramTaken_node, hrx.nodeFree, if_neg (by rw [hbusy hf]; decide), hnode]
    · refine ⟨_, exec_param_bad hst plane role node creds (.inr ⟨rfl, hr, hpl, ?_⟩), paramBad_falls p 6 hrx⟩
      exact hc.imp (fun h => ⟨hbusy h.1, h.2⟩) id
  · refine ⟨_, if_pos ?_, portRises_up p s⟩
    show (q.st == .time && q.measured && decide (q.since ≤ q.lastTime)) = true
    rw [hst, hm, decide_eq_true ht]; rfl
  · refine if_neg ?_
    show ¬(q.st == .time && q.measured && decide (q.since ≤ q.lastTime)) = true
    rw [hm, Bool.and_false, Bool.false_and]
    decide
  · refine ⟨_, exec_portStateTimeout hl hc, fun hst hlt => ?_, fun hc => ?_⟩
    · rw [if_pos (by rw [decide_eq_true hst, decide_eq_true hlt]; rfl)]
      exact (portRises_up p (pass dt s)).1
    · have hnot : ¬((decide (q.st = .time) && decide (q.lastTime < q.since)) = true) := by
        rw [Bool.and_eq_true, decide_eq_true_eq, decide_eq_true_eq]
        rintro ⟨h1, h2⟩
        rcases hc with hc | hc
        · exact hc h1
        · omega
      rw [if_neg hnot, (portFails_falls p 9 (pass dt s)).fallen]
      exact ⟨rfl, rfl⟩
  · refine if_pos ?_
    show (q.st == .down && q.holdoff && portEnabled s p && decide (q.since + 1000000000 ≤ s.clock + dt)) = true
    rw [hst, hh, hen, decide_eq_true hc]; rfl

end Sys2Proof.Machine
end

section
/-!
PROOFS. O31: lanes, codewords, LINK flits and losses of a port (R359 to R362, R364, R385, R388, R390).
-/
namespace Sys2Proof.Machine

/-! ## LANE flits that leave (R360, R361) -/

/-- A port but for its codewords and handshakes. -/
def Port.lanes (q : Port) : Port := { q with handshake := none, handshakeNo := 0, txSeq := 0, kept := [], sinceLink := 0 }

theorem lanes_fields {q r : Port} (h : q.lanes = r.lanes) :
    q.st = r.st ∧ q.width = r.width ∧ q.failed = r.failed ∧ q.spareUsed = r.spareUsed :=
  ⟨(congrArg Port.st h :), (congrArg Port.width h :), (congrArg Port.failed h :), (congrArg Port.spareUsed h :)⟩

theorem body_width {q r : Port} (h : q.body = r.body) : q.width = r.width := (congrArg Port.width h :)

theorem getPort_portPut (p n : Nat) (o : Out) (s : State) : getPort (portPut p n o s) p = { getPort s p with
    txSeq := ((getPort s p).txSeq + n) % 1024
    kept := (getPort s p).kept ++ [(((getPort s p).txSeq + n + 1023) % 1024, o)], sinceLink := (getPort s p).sinceLink + n } := by
  show getPort (updPort p _ s) p = _
  rw [getPort_upd_self]

theorem getPort_portPut_ne {p q : Nat} (h : q ≠ p) (n : Nat) (o : Out) (s : State) : getPort (portPut p n o s) q = getPort s q := by
  show getPort (updPort p _ s) q = _
  rw [getPort_upd_ne h]

/-- The flit that tells the switch of a lane. -/
def laneBytes (op lane width no : Nat) : Bytes := linkFlit 0x06 [(2, 1, op), (3, 1, lane), (4, 1, width), (6, 2, no)]

theorem out_laneFlit (p op lane width no : Nat) (s : State) :
    (laneFlit p op lane width no s).out = .flit p (laneBytes op lane width no) :: s.out := rfl

theorem lanes_laneFlit (p op lane width no : Nat) (s : State) : (getPort (laneFlit p op lane width no s) p).lanes = (getPort s p).lanes := by
  rw [laneFlit, sendFlit, getPort_portPut]
  rfl

theorem out_sendLane (p op lane width : Nat) (s : State) :
    (sendLane p op lane width s).out = .flit p (laneBytes op lane width (getPort s p).handshakeNo) :: s.out := rfl

theorem lanes_sendLane (p op lane width : Nat) (s : State) : (getPort (sendLane p op lane width s) p).lanes = (getPort s p).lanes := by
  unfold sendLane
  dsimp only
  rw [lanes_laneFlit, getPort_upd_self]
  rfl

theorem sendLane_others {p q : Nat} (h : q ≠ p) (op lane width : Nat) (s : State) : getPort (sendLane p op lane width s) q = getPort s q := by
  unfold sendLane
  dsimp only
  rw [laneFlit, sendFlit, getPort_portPut_ne h, getPort_upd_ne h]

theorem getPort_portRecord (p lane q : Nat) (s : State) : getPort (portRecord p lane s) q = getPort s q := rfl

theorem getPort_gzlEvent (bit p q : Nat) (s : State) : getPort (gzlEvent bit p s) q = getPort s q := rfl

theorem out_portRecord (p lane : Nat) (s : State) : (portRecord p lane s).out = s.out := rfl

theorem out_gzlEvent (bit p : Nat) (s : State) : (gzlEvent bit p s).out = s.out := rfl

/-! ## A lane fails (R360) -/

section
variable (s : State) (p lane : Nat)

/-- The lanes of a port that are failed, with one more. -/
def failedWith (q : Port) (lane : Nat) : BitVec 17 := BitVec.ofNat 17 (setBits q.failed.toNat lane 1 1)

/-- The state in which the receiver has marked a lane. -/
def laneMarked : State := updPort p (fun q => { q with failed := failedWith (getPort s p) lane }) s

/-- The port maps its spare in, and tells the switch. -/
def spareMappedIn : State :=
  sendLane p 0 lane 16 (portRecord p lane (gzlEvent 2 p (updPort p (fun q => { q with spareUsed := true }) (laneMarked s p lane))))

/-- The port goes to a width, and tells the switch. -/
def narrowed (w : Nat) : State :=
  sendLane p 1 lane (laneCount w) (portRecord p lane (gzlEvent 3 p (updPort p (fun q =>
    { q with width := w, spareUsed := false, degradedSince := q.degradedSince <|> some (laneMarked s p lane).clock }) (laneMarked s p lane))))

variable {s p lane}

theorem exec_laneFailed (hup : portUp s p = true) (hl : lane < 17) (hf : bitOf (getPort s p).failed.toNat lane = false) :
    exec (.laneFailed p lane) s = .next (
      if healthyLanes (failedWith (getPort s p) lane) < 4 then portFails p 1 (laneMarked s p lane)
      else if (getPort s p).width = 3 && lane = 16 && !(getPort s p).spareUsed then portRecord p lane (laneMarked s p lane)
      else if (getPort s p).width = 3 && !(getPort s p).spareUsed && !bitOf (failedWith (getPort s p) lane).toNat 16 then spareMappedIn s p lane
      else narrowed s p lane (if (getPort s p).width = 1 then 1
        else min ((getPort s p).width - 1) (widthOf (healthyLanes (failedWith (getPort s p) lane))))) := by
  have hgo : ((getPort s p).st == .up && decide (lane < 17) && !bitOf (getPort s p).failed.toNat lane) = true := by
    rw [show ((getPort s p).st == .up) = true from hup, decide_eq_true hl, hf]; rfl
  refine (if_pos hgo).trans ?_
  rw [apply_ite Host.Outcome.next, apply_ite Host.Outcome.next, apply_ite Host.Outcome.next]
  rfl

theorem spareMappedIn_port : (getPort (spareMappedIn s p lane) p).spareUsed = true ∧ (getPort (spareMappedIn s p lane) p).width = (getPort s p).width ∧
    (getPort (spareMappedIn s p lane) p).failed = failedWith (getPort s p) lane ∧
    (spareMappedIn s p lane).out = .flit p (laneBytes 0 lane 16 (getPort s p).handshakeNo) :: s.out ∧
    ∀ o, o ≠ p → getPort (spareMappedIn s p lane) o = getPort s o := by
  have hbase : getPort (portRecord p lane (gzlEvent 2 p (updPort p (fun q => { q with spareUsed := true }) (laneMarked s p lane)))) p =
      { getPort s p with failed := failedWith (getPort s p) lane, spareUsed := true } := by
    rw [getPort_portRecord, getPort_gzlEvent, getPort_upd_self, laneMarked, getPort_upd_self]
  have hlanes := lanes_sendLane p 0 lane 16 (portRecord p lane (gzlEvent 2 p (updPort p (fun q => { q with spareUsed := true }) (laneMarked s p lane))))
  rw [hbase] at hlanes
  obtain ⟨-, hwidth, hfailed, hspare⟩ := lanes_fields hlanes
  refine ⟨hspare, hwidth, hfailed, ?_, fun o ho => ?_⟩
  · rw [spareMappedIn, out_sendLane, hbase, out_portRecord, out_gzlEvent, updPort_out, laneMarked, updPort_out]
  · rw [spareMappedIn, sendLane_others ho, getPort_portRecord, getPort_gzlEvent, getPort_upd_ne ho, laneMarked, getPort_upd_ne ho]

theorem narrowed_port (w : Nat) : (getPort (narrowed s p lane w) p).width = w ∧ (getPort (narrowed s p lane w) p).st = (getPort s p).st ∧
    (narrowed s p lane w).out = .flit p (laneBytes 1 lane (laneCount w) (getPort s p).handshakeNo) :: s.out := by
  obtain ⟨c, hc⟩ : ∃ c, c = (laneMarked s p lane).clock := ⟨_, rfl⟩
  unfold narrowed
  rw [← hc]
  have hbase : getPort (portRecord p lane (gzlEvent 3 p (updPort p (fun q =>
      { q with width := w, spareUsed := false, degradedSince := q.degradedSince <|> some c }) (laneMarked s p lane)))) p =
      { getPort s p with failed := failedWith (getPort s p) lane, width := w, spareUsed := false
                         degradedSince := (getPort s p).degradedSince <|> some c } := by
    rw [getPort_portRecord, getPort_gzlEvent, getPort_upd_self, laneMarked, getPort_upd_self]
  have hlanes := lanes_sendLane p 1 lane (laneCount w) (portRecord p lane (gzlEvent 3 p (updPort p (fun q =>
    { q with width := w, spareUsed := false, degradedSince := q.degradedSince <|> some c }) (laneMarked s p lane))))
  rw [hbase] at hlanes
  obtain ⟨hst, hwidth, -⟩ := lanes_fields hlanes
  refine ⟨hwidth, hst, ?_⟩
  rw [out_sendLane, hbase, out_portRecord, out_gzlEvent, updPort_out, laneMarked, updPort_out]

end

/-- The first part of O31: what a failed lane does. -/
theorem laneFailed_outcomes {s : State} {p lane : Nat} (hup : portUp s p = true) (hl : lane < 17)
    (hf : bitOf (getPort s p).failed.toNat lane = false) :
    let q := getPort s p
    let failed := failedWith q lane
    let left := healthyLanes failed
    let w := if q.width = 1 then 1 else min (q.width - 1) (widthOf left)
    let tells (t : State) (op width : Nat) : Prop := t.out = .flit p (laneBytes op lane width q.handshakeNo) :: s.out
    (left < 4 → Does (.laneFailed p lane) s fun t => (getPort t p).st = .down ∧ (getPort t p).reason = 1 ∧ (getPort t p).width = 0) ∧
    (4 ≤ left → q.width = 3 → q.spareUsed = false → lane ≠ 16 → bitOf failed.toNat 16 = false → Does (.laneFailed p lane) s fun t =>
      (getPort t p).spareUsed = true ∧ (getPort t p).width = 3 ∧ (getPort t p).failed = failed ∧ tells t 0 16 ∧
      ∀ o, o ≠ p → getPort t o = getPort s o) ∧
    (4 ≤ left → q.width = 3 → q.spareUsed = false → lane = 16 → Does (.laneFailed p lane) s fun t =>
      getPort t p = { q with failed := failed } ∧ t.out = s.out) ∧
    (4 ≤ left → q.width = 1 ∨ q.width = 2 ∨ (q.width = 3 ∧ (q.spareUsed = true ∨ bitOf q.failed.toNat 16 = true)) →
      Does (.laneFailed p lane) s fun t => (getPort t p).width = w ∧ (getPort t p).st = .up ∧ tells t 1 (laneCount w)) := by
  intro q failed left w tells
  have hexec := exec_laneFailed hup hl hf
  refine ⟨fun h => ⟨_, by rw [hexec, if_pos h], ?_⟩, fun h hw hs hne hb => ⟨spareMappedIn s p lane, ?_, ?_⟩,
    fun h hw hs heq => ⟨portRecord p lane (laneMarked s p lane), ?_, ?_, rfl⟩, fun h hc => ⟨narrowed s p lane w, ?_, ?_⟩⟩
  · beta_reduce
    rw [(portFails_falls p 1 _).fallen]
    exact ⟨rfl, rfl, rfl⟩
  · have hb' : bitOf (failedWith (getPort s p) lane).toNat 16 = false := hb
    rw [hexec, if_neg (Nat.not_lt_of_le h), if_neg (by rw [decide_eq_false hne]; simp),
      if_pos (by rw [show (getPort s p).width = 3 from hw, show (getPort s p).spareUsed = false from hs, hb']; rfl)]
  · obtain ⟨h1, h2, h3, h4, h5⟩ := spareMappedIn_port (s := s) (p := p) (lane := lane)
    exact ⟨h1, h2.trans hw, h3, h4, h5⟩
  · rw [hexec, if_neg (Nat.not_lt_of_le h), if_pos]
    rw [show (getPort s p).width = 3 from hw, show (getPort s p).spareUsed = false from hs, decide_eq_true heq]
    rfl
  · rw [getPort_portRecord, laneMarked, getPort_upd_self]
  · have hbit : bitOf (getPort s p).failed.toNat 16 = true → bitOf (failedWith (getPort s p) lane).toNat 16 = true := by
      intro hb
      rw [failedWith, BitVec.toNat_ofNat, bitOf_mod (by decide), bitOf_setBits]
      split
      · rw [show (16 : Nat) - lane = 0 by omega]; rfl
      · exact hb
    have hspare : ((getPort s p).width = 3 ∧ lane = 16) → (getPort s p).spareUsed = true := by
      rintro ⟨hw, rfl⟩
      rcases hc with hc | hc | ⟨-, hc | hc⟩
      · rw [show q.width = 3 from hw] at hc; exact absurd hc (by decide)
      · rw [show q.width = 3 from hw] at hc; exact absurd hc (by decide)
      · exact hc
      · exact absurd (hf.symm.trans hc) Bool.false_ne_true
    have hkeep : (getPort s p).width = 3 → (getPort s p).spareUsed = false → bitOf (failedWith (getPort s p) lane).toNat 16 = true := by
      intro hw hs
      rcases hc with hc | hc | ⟨-, hc | hc⟩
      · rw [show q.width = 3 from hw] at hc; exact absurd hc (by decide)
      · rw [show q.width = 3 from hw] at hc; exact absurd hc (by decide)
      · exact absurd (hs.symm.trans hc) Bool.false_ne_true
      · exact hbit hc
    rw [hexec, if_neg (Nat.not_lt_of_le h), if_neg, if_neg]
    · simp only [Bool.and_eq_true, decide_eq_true_eq, Bool.not_eq_true']
      rintro ⟨⟨hw, hs⟩, hb⟩
      exact Bool.false_ne_true (hb.symm.trans (hkeep hw hs))
    · simp only [Bool.and_eq_true, decide_eq_true_eq, Bool.not_eq_true']
      rintro ⟨hw, hs⟩
      exact Bool.false_ne_true (hs.symm.trans (hspare hw))
  · obtain ⟨h1, h2, h3⟩ := narrowed_port (s := s) (p := p) (lane := lane) w
    exact ⟨h1, h2.trans (beq_iff_eq.mp hup), h3⟩

/-! ## A LANE flit of the switch (R360, R361) -/

/-- What the port makes of the switch's request. -/
def laneFollowed (p op lane width had : Nat) (u : State) : State :=
  updPort p (fun q => { q with failed := BitVec.ofNat 17 (setBits q.failed.toNat (lane % 17) 1 1) })
    (if op = 0 then gzlEvent 2 p (updPort p (fun q => { q with spareUsed := true }) u)
     else if width < laneCount had then
       gzlEvent 3 p (updPort p (fun q => { q with width := widthOf width, degradedSince := q.degradedSince <|> some u.clock }) u)
     else u)

theorem exec_lane {s : State} {p : Nat} (hup : portUp s p = true) (op lane width no : Nat) : exec (.lane p op lane width no) s = .next (
    if (getPort s p).handshake = some no then updPort p (fun q => { q with handshake := none }) (rxFlit p s)
    else laneFlit p op lane width no (portRecord p lane (laneFollowed p op lane width (getPort s p).width (rxFlit p s)))) := by
  have hst : ¬((getPort s p).st != .up) = true := by
    rw [beq_iff_eq.mp hup]; decide
  refine (if_neg hst).trans ?_
  rw [apply_ite Host.Outcome.next]
  rfl

theorem laneFollowed_port (p op lane width had : Nat) (u : State) :
    (op = 0 → (getPort (laneFollowed p op lane width had u) p).spareUsed = true ∧
      (getPort (laneFollowed p op lane width had u) p).width = (getPort u p).width) ∧
    (op ≠ 0 → width < laneCount had → (getPort (laneFollowed p op lane width had u) p).width = widthOf width) ∧
    (laneFollowed p op lane width had u).out = u.out := by
  unfold laneFollowed
  rw [getPort_upd_self]
  refine ⟨fun h => ?_, fun h hw => ?_, ?_⟩
  · rw [if_pos h, getPort_gzlEvent, getPort_upd_self]
    exact ⟨rfl, rfl⟩
  · rw [if_neg h, if_pos hw, getPort_gzlEvent, getPort_upd_self]
  · split
    · rfl
    · split <;> rfl

/-- The port's own handshake is answered (R360). -/
theorem lane_answered {s : State} {p no : Nat} (op lane width : Nat) (hup : portUp s p = true) (h : (getPort s p).handshake = some no) :
    Does (.lane p op lane width no) s fun t =>
      (getPort t p).handshake = none ∧ (getPort t p).width = (getPort s p).width ∧ ∃ l, t.out = l ++ s.out ∧ LinkFlits p l := by
  have hexec := exec_lane hup op lane width no
  have hrx := FlitTaken.rxFlit p s
  generalize rxFlit p s = u at hexec hrx
  rw [if_pos h] at hexec
  obtain ⟨l, hl, hlf⟩ := hrx.out
  refine ⟨_, hexec, ?_, ?_, l, hl, hlf⟩
  · rw [getPort_upd_self]
  · rw [getPort_upd_self]; exact (body_width hrx.body :)

/-- The port follows the switch, and answers it with its own fields (R361). -/
theorem lane_followed {s : State} {p no : Nat} (op lane width : Nat) (hup : portUp s p = true) (h : (getPort s p).handshake ≠ some no) :
    Does (.lane p op lane width no) s fun t =>
      (∃ l, t.out = .flit p (laneBytes op lane width no) :: l ++ s.out ∧ LinkFlits p l) ∧
      (op = 0 → (getPort t p).spareUsed = true ∧ (getPort t p).width = (getPort s p).width) ∧
      (op ≠ 0 → width < laneCount (getPort s p).width → (getPort t p).width = widthOf width) := by
  have hexec := exec_lane hup op lane width no
  have hrx := FlitTaken.rxFlit p s
  generalize rxFlit p s = u at hexec hrx
  rw [if_neg h] at hexec
  obtain ⟨l, hl, hlf⟩ := hrx.out
  obtain ⟨h0, h1, hout⟩ := laneFollowed_port p op lane width (getPort s p).width u
  generalize laneFollowed p op lane width (getPort s p).width u = v at hexec h0 h1 hout
  have hlanes := lanes_laneFlit p op lane width no (portRecord p lane v)
  rw [getPort_portRecord] at hlanes
  obtain ⟨-, hw', -, hs'⟩ := lanes_fields hlanes
  refine ⟨_, hexec, ⟨l, ?_, hlf⟩, fun hop => ?_, fun hop hw => ?_⟩
  · rw [out_laneFlit, out_portRecord, hout, hl, List.cons_append]
  · obtain ⟨hs, hw⟩ := h0 hop
    exact ⟨hs'.trans hs, hw'.trans (hw.trans (body_width hrx.body))⟩
  · exact hw'.trans (h1 hop hw)

end Sys2Proof.Machine
end

section
/-!
PROOFS. O31, its other half: codewords, LINK flits, losses and PORT_EN (R361, R362, R364, R385, R388).
-/
namespace Sys2Proof.Machine

/-! ## A codeword that cannot be corrected (R362) -/

theorem linkOut_seq (p : Nat) (resend : Bool) (s : State) (h : (getPort s p).rxSeq < 1024) :
    leAt (linkOut p resend s) 2 2 = (getPort s p).rxSeq + 32768 * b2n resend := by
  unfold linkOut linkFlit
  rw [List.foldl_cons]
  have hb : b2n resend ≤ 1 := by cases resend <;> decide
  refine List.foldlRecOn (motive := fun b => leAt b 2 2 = (getPort s p).rxSeq + 32768 * b2n resend) _ _ ?_ fun b hb f hf => ?_
  · show leNat (sliceB (putB _ 2 (leBytes 2 _)) 2 2) = _
    have hslice : sliceB (putB (leBytes 1 0x01 ++ zeros 63) 2 (leBytes 2 ((getPort s p).rxSeq + 32768 * b2n resend))) 2 2 = _ :=
      sliceB_putB_same (b := leBytes 1 0x01 ++ zeros 63) (d := leBytes 2 ((getPort s p).rxSeq + 32768 * b2n resend)) (off := 2)
    rw [hslice, leNat_leBytes]
    exact Nat.mod_eq_of_lt (by omega)
  · rw [leAt_putB_off (.inl (by have := eightFields_offset hf; omega))]
    exact hb

theorem codeword_discarded {s : State} {p : Nat} (hup : portUp s p = true) (k : Nat) : Does (.codewordUncorrectable p k) s fun t =>
    (getPort t p).rxSeq = k % 1024 ∧ ∃ b, t.out = .flit p b :: s.out ∧ leAt b 0 1 = 0x01 ∧ leAt b 2 2 = k % 1024 + 32768 := by
  obtain ⟨u, hu⟩ : ∃ u, u = updPort p (fun q => { q with rxSeq := k % 1024 }) s := ⟨_, rfl⟩
  have hseq : (getPort u p).rxSeq = k % 1024 := by rw [hu, getPort_upd_self]
  refine ⟨sendLink p true u, (if_pos hup).trans (by rw [hu]), ?_, linkOut p true u, ?_, linkOut_kind .., ?_⟩
  · show (getPort (updPort p _ (portPut p 1 _ u)) p).rxSeq = _
    rw [getPort_upd_self, getPort_portPut]
    exact hseq
  · rw [out_sendLink, hu, updPort_out]
  · rw [linkOut_seq _ _ _ (by rw [hseq]; exact Nat.mod_lt _ (by decide)), hseq]
    rfl

/-! ## Credit (R364) -/

/-- One credit field of a LINK flit taken. -/
def takeCredit (clock : Nat) (q : Port) (e : Nat × Nat) : Port :=
  if creditBack q e.1 e.2 = 0 then q
  else { q with credits := Tbl.upd 0 q.credits e.1 (fun c => c + creditBack q e.1 e.2)
                lastCred := Tbl.set 0 q.lastCred e.1 (e.2 % 65536), creditAt := clock }

theorem takeCredits_eq (clock : Nat) (creds : List Nat) (q : Port) :
    takeCredits clock creds q = ((List.range 8).zip creds).foldl (takeCredit clock) q := rfl

/-- A port but for its credit. -/
def Port.uncredited (q : Port) : Port := { q with credits := [], lastCred := [], creditAt := 0 }

theorem uncredited_takeCredit (clock : Nat) (q : Port) (e : Nat × Nat) : (takeCredit clock q e).uncredited = q.uncredited := by
  unfold takeCredit
  split <;> rfl

theorem uncredited_foldl (clock : Nat) (l : List (Nat × Nat)) (q : Port) : (l.foldl (takeCredit clock) q).uncredited = q.uncredited := by
  induction l generalizing q with
  | nil => rfl
  | cons e l ih => exact (ih _).trans (uncredited_takeCredit clock q e)

theorem takeCredit_self (clock : Nat) (q : Port) (e : Nat × Nat) :
    (takeCredit clock q e).credits.get 0 e.1 = q.credits.get 0 e.1 + creditBack q e.1 e.2 := by
  unfold takeCredit
  split
  next h => rw [h, Nat.add_zero]
  next => rw [Tbl.get_upd, if_pos rfl]

theorem takeCredit_ne (clock : Nat) (q : Port) {e : Nat × Nat} {v : Nat} (h : v ≠ e.1) :
    (takeCredit clock q e).credits.get 0 v = q.credits.get 0 v ∧ (takeCredit clock q e).lastCred.get 0 v = q.lastCred.get 0 v := by
  unfold takeCredit
  split
  · exact ⟨rfl, rfl⟩
  · rw [Tbl.get_upd, if_neg h, Tbl.get_set_ne _ _ _ h]
    exact ⟨rfl, rfl⟩

theorem foldl_takeCredit_ne (clock : Nat) {l : List (Nat × Nat)} {v : Nat} (h : v ∉ l.map Prod.fst) (q : Port) :
    (l.foldl (takeCredit clock) q).credits.get 0 v = q.credits.get 0 v ∧
    (l.foldl (takeCredit clock) q).lastCred.get 0 v = q.lastCred.get 0 v := by
  induction l generalizing q with
  | nil => exact ⟨rfl, rfl⟩
  | cons e l ih =>
    rw [List.map_cons, List.mem_cons, not_or] at h
    obtain ⟨hc, hl⟩ := ih h.2 (takeCredit clock q e)
    obtain ⟨hc', hl'⟩ := takeCredit_ne clock q h.1
    exact ⟨hc.trans hc', hl.trans hl'⟩

/-- Every VC gets the credit that its own field returns. -/
theorem foldl_takeCredit (clock : Nat) {l : List (Nat × Nat)} (hl : (l.map Prod.fst).Nodup) {v x : Nat} (h : (v, x) ∈ l) (q : Port) :
    (l.foldl (takeCredit clock) q).credits.get 0 v = q.credits.get 0 v + creditBack q v x := by
  induction l generalizing q with
  | nil => exact absurd h List.not_mem_nil
  | cons e l ih =>
    rw [List.map_cons, List.nodup_cons] at hl
    rcases List.mem_cons.mp h with rfl | h
    · rw [List.foldl_cons, (foldl_takeCredit_ne clock hl.1 _).1, takeCredit_self]
    · have hne : v ≠ e.1 := fun heq => hl.1 (heq ▸ List.mem_map_of_mem h)
      obtain ⟨hc, hlast⟩ := takeCredit_ne clock q hne
      rw [List.foldl_cons, ih hl.2 h, hc, creditBack, hlast, creditBack]

theorem takeCredits_get (clock : Nat) {creds : List Nat} (hlen : creds.length = 8) (q : Port) {v : Nat} (hv : v < 8) :
    (takeCredits clock creds q).credits.get 0 v = q.credits.get 0 v + creditBack q v (creds.getD v 0) := by
  rw [takeCredits_eq]
  exact foldl_takeCredit clock (nodup_zip_range 8 creds) (mem_zip_range hlen hv) q

theorem takeCredits_same (clock : Nat) (creds : List Nat) (q : Port) : (takeCredits clock creds q).uncredited = q.uncredited := by
  rw [takeCredits_eq]
  exact uncredited_foldl clock _ q

/-! ## LINK (R361, R362) -/

/-- The registers of a port that count corrected and resent codewords (R388). -/
def portRegs (p : Nat) : Nat := bGzl + 0x100 + 0x20 * p

/-- What a LINK flit's acknowledgement leaves of its port. -/
def ackedPort (ack n : Nat) (creds : List Nat) (clock : Nat) (q : Port) : Port :=
  takeCredits clock creds { q with txAcked := ack, resends := n, kept := keptAfter q.txAcked ack q.kept }

/-- A LINK flit's codeword taken, and its report counted. -/
def linkCounted (p n : Nat) (s : State) : State :=
  setReg (portRegs p + 8) (BitVec.ofNat 32 (satTo 32 (regN (rxCodewords p 1 s) (portRegs p + 8) + n))) (rxCodewords p 1 s)

theorem exec_link {s : State} {p : Nat} (hup : portUp s p = true) (ack : Nat) (creds : List Nat) (n : Nat) :
    exec (.link p ack false ⟨creds, n⟩) s =
      .next (portDrain p ((getPort (updPort p (ackedPort (ack % 1024) (if (getPort s p).txAcked == ack % 1024 then (getPort s p).resends else 0)
          creds (linkCounted p n s).clock) (linkCounted p n s)) p).queue.length + 1)
        (getPort (updPort p (ackedPort (ack % 1024) (if (getPort s p).txAcked == ack % 1024 then (getPort s p).resends else 0)
          creds (linkCounted p n s).clock) (linkCounted p n s)) p).queue []
        (updPort p (ackedPort (ack % 1024) (if (getPort s p).txAcked == ack % 1024 then (getPort s p).resends else 0)
          creds (linkCounted p n s).clock) (linkCounted p n s))) := by
  have hst : ¬((getPort s p).st != .up) = true := by rw [beq_iff_eq.mp hup]; decide
  exact if_neg hst

/-- A resend asked for, counted. -/
def resendCounted (p ack n : Nat) (s : State) : State :=
  setReg (portRegs p + 0x0C) (BitVec.ofNat 32 (satTo 32 (regN (linkCounted p n s) (portRegs p + 0x0C) + cseqDist (getPort s p).txSeq (ack % 1024))))
    (linkCounted p n s)

/-- How often a codeword has now been asked for. -/
def resendsNow (q : Port) (ack : Nat) : Nat := if q.txAcked == ack then q.resends + 1 else 1

theorem exec_link_resend {s : State} {p : Nat} (hup : portUp s p = true) (ack : Nat) (creds : List Nat) (n : Nat) :
    exec (.link p ack true ⟨creds, n⟩) s =
      .next (if 8 < resendsNow (getPort s p) (ack % 1024) then portFails p 2 (resendCounted p ack n s)
        else
          let u := resendKept p (updPort p (ackedPort (ack % 1024) (resendsNow (getPort s p) (ack % 1024)) creds
            (resendCounted p ack n s).clock) (resendCounted p ack n s))
          portDrain p ((getPort u p).queue.length + 1) (getPort u p).queue [] u) := by
  have hst : ¬((getPort s p).st != .up) = true := by rw [beq_iff_eq.mp hup]; decide
  refine (if_neg hst).trans ?_
  have hite : (true && decide (8 < resendsNow (getPort s p) (ack % 1024))) = decide (8 < resendsNow (getPort s p) (ack % 1024)) := Bool.true_and _
  by_cases h : 8 < resendsNow (getPort s p) (ack % 1024)
  · rw [if_pos h]
    exact if_pos (by show (true && decide (8 < resendsNow (getPort s p) (ack % 1024))) = true; rw [hite]; exact decide_eq_true h)
  · rw [if_neg h]
    exact if_neg (by show ¬(true && decide (8 < resendsNow (getPort s p) (ack % 1024))) = true; rw [hite]; simpa using h)

theorem ackedPort_fields (ack n : Nat) (creds : List Nat) (clock : Nat) (q : Port) :
    (ackedPort ack n creds clock q).txAcked = ack ∧ (ackedPort ack n creds clock q).queue = q.queue ∧
    (ackedPort ack n creds clock q).sinceLink = q.sinceLink ∧ (ackedPort ack n creds clock q).kept = keptAfter q.txAcked ack q.kept ∧
    (ackedPort ack n creds clock q).st = q.st := by
  have h := takeCredits_same clock creds { q with txAcked := ack, resends := n, kept := keptAfter q.txAcked ack q.kept }
  rw [ackedPort]
  generalize takeCredits clock creds { q with txAcked := ack, resends := n, kept := keptAfter q.txAcked ack q.kept } = r at h
  exact ⟨(congrArg Port.txAcked h :), (congrArg Port.queue h :), (congrArg Port.sinceLink h :), (congrArg Port.kept h :),
    (congrArg Port.st h :)⟩

theorem body_fields {q r : Port} (h : q.body = r.body) : q.txAcked = r.txAcked ∧ q.queue = r.queue ∧ q.st = r.st ∧
    q.credits = r.credits ∧ q.lastCred = r.lastCred :=
  ⟨(congrArg Port.txAcked h :), (congrArg Port.queue h :), (congrArg Port.st h :), (congrArg Port.credits h :), (congrArg Port.lastCred h :)⟩

/-- A port far from its next LINK flit takes a codeword without a word (R361). -/
theorem rxCodewords_quiet {p : Nat} {s : State} (h : (getPort s p).sinceLink < 63) :
    rxCodewords p 1 s = updPort p (fun q => { q with rxSeq := (q.rxSeq + 1) % 1024, sinceLink := q.sinceLink + 1 }) s := by
  unfold rxCodewords linkDue
  rw [getPort_upd_self]
  exact if_neg (by show ¬64 ≤ (getPort s p).sinceLink + 1; omega)

theorem linkDue_quiet {p : Nat} {s : State} (h : (getPort s p).sinceLink < 64) : linkDue p s = s := if_neg (by omega)

/-- With nothing that waits, only a LINK flit may leave. -/
theorem portDrain_empty {p : Nat} {s : State} (h : (getPort s p).queue = []) :
    portDrain p ((getPort s p).queue.length + 1) (getPort s p).queue [] s = linkDue p (updPort p (fun q => { q with queue := [] }) s) := by
  rw [h]
  rfl

theorem regN_setReg_satTo (k x : Nat) (s : State) : regN (setReg k (BitVec.ofNat 32 (satTo 32 x)) s) k = satTo 32 x := by
  rw [regN_setReg, if_pos rfl, BitVec.toNat_ofNat]
  exact Nat.mod_eq_of_lt (Nat.lt_of_le_of_lt (Nat.min_le_right _ _) (by decide))

theorem foldl_emit (l : List (Nat × Out)) (s : State) :
    l.foldl (fun s e => emit e.2 s) s = { s with out := (l.map Prod.snd).reverse ++ s.out } := by
  induction l generalizing s with
  | nil => rfl
  | cons e l ih =>
    rw [List.foldl_cons, ih, List.map_cons, List.reverse_cons, List.append_assoc]
    rfl

theorem resendKept_eq (p : Nat) (s : State) :
    resendKept p s = { s with out := ((getPort s p).kept.map Prod.snd).reverse ++ s.out } := foldl_emit _ s

section
variable {s : State} {p : Nat} (hup : portUp s p = true)
include hup

/-- A LINK flit brings acknowledgement and credit. -/
theorem link_acknowledges (ack : Nat) (creds : List Nat) (n : Nat) (hlen : creds.length = 8) (hq : (getPort s p).queue = []) :
    Does (.link p ack false ⟨creds, n⟩) s fun t =>
      (getPort t p).txAcked = ack % 1024 ∧ (getPort t p).st = .up ∧ regN t (portRegs p + 8) = satTo 32 (regN s (portRegs p + 8) + n) ∧
      ((getPort s p).sinceLink < 63 → t.out = s.out ∧ (getPort t p).kept = keptAfter (getPort s p).txAcked (ack % 1024) (getPort s p).kept) ∧
      ∀ v < 8, (getPort t p).credits.get 0 v = (getPort s p).credits.get 0 v + creditBack (getPort s p) v (creds.getD v 0) := by
  have hexec := exec_link hup ack creds n
  have hrx := FlitTaken.rxCodewords p 1 s
  have hquiet := rxCodewords_quiet (p := p) (s := s)
  generalize hm : (if (getPort s p).txAcked == ack % 1024 then (getPort s p).resends else 0) = m at hexec
  have hregs : regN (linkCounted p n s) (portRegs p + 8) = satTo 32 (regN s (portRegs p + 8) + n) := by
    rw [linkCounted, regN_setReg_satTo, regN_congr hrx.regs]
  have hport : getPort (linkCounted p n s) p = getPort (rxCodewords p 1 s) p := rfl
  have hout : (linkCounted p n s).out = (rxCodewords p 1 s).out := rfl
  obtain ⟨hacked, hqueue, hst, hcred, hlast⟩ := body_fields hrx.body
  generalize rxCodewords p 1 s = r at hrx hquiet hport hout hacked hqueue hst hcred hlast
  generalize linkCounted p n s = u at hexec hregs hport hout
  obtain ⟨ha, hb, hc, hd, he⟩ := ackedPort_fields (ack % 1024) m creds u.clock (getPort u p)
  have hcredits (v : Nat) (hv : v < 8) : (ackedPort (ack % 1024) m creds u.clock (getPort u p)).credits.get 0 v =
      (getPort s p).credits.get 0 v + creditBack (getPort s p) v (creds.getD v 0) := by
    rw [ackedPort, takeCredits_get _ hlen _ hv, hport]
    show (getPort r p).credits.get 0 v + _ = _
    rw [hcred, creditBack, creditBack]
    show _ + (_ - (getPort r p).lastCred.get 0 v) % 65536 = _
    rw [hlast]
  have hw : getPort (updPort p (ackedPort (ack % 1024) m creds u.clock) u) p = ackedPort (ack % 1024) m creds u.clock (getPort u p) :=
    getPort_upd_self ..
  rw [portDrain_empty (by rw [hw, hb, hport, hqueue, hq])] at hexec
  refine ⟨_, hexec, ?_⟩
  have hdue := FlitTaken.linkDue p (updPort p (fun q => { q with queue := [] }) (updPort p (ackedPort (ack % 1024) m creds u.clock) u))
  obtain ⟨k1, -, k3, k4, -⟩ := body_fields hdue.body
  rw [getPort_upd_self, hw] at k1 k3 k4
  refine ⟨k1.trans ha, k3.trans (he.trans (by rw [hport, hst]; exact beq_iff_eq.mp hup)), ?_, fun hlt => ?_, fun v hv => ?_⟩
  · rw [regN_congr hdue.regs]
    exact hregs
  · have hr : getPort r p = { getPort s p with
        rxSeq := ((getPort s p).rxSeq + 1) % 1024, sinceLink := (getPort s p).sinceLink + 1 } := by rw [hquiet hlt, getPort_upd_self]
    rw [linkDue_quiet]
    · rw [getPort_upd_self, hw]
      refine ⟨?_, ?_⟩
      · rw [updPort_out, updPort_out, hout, hquiet hlt, updPort_out]
      · show (ackedPort _ _ _ _ _).kept = _
        rw [hd, hport, hr]
    · rw [getPort_upd_self, hw]
      show (ackedPort _ _ _ _ _).sinceLink < 64
      rw [hc, hport, hr]
      show (getPort s p).sinceLink + 1 < 64
      omega
  · rw [k4]
    exact hcredits v hv

/-- A resend counts what it asks for, and sends what the retry buffer still holds (R362). -/
theorem link_resends (ack : Nat) (creds : List Nat) (n : Nat) (hq : (getPort s p).queue = []) (hlt : (getPort s p).sinceLink < 63)
    (hr : (getPort s p).resends < 8) : Does (.link p ack true ⟨creds, n⟩) s fun t =>
      (getPort t p).st = .up ∧
      t.out = ((keptAfter (getPort s p).txAcked (ack % 1024) (getPort s p).kept).map Prod.snd).reverse ++ s.out ∧
      regN t (portRegs p + 0x0C) = satTo 32 (regN s (portRegs p + 0x0C) + cseqDist (getPort s p).txSeq (ack % 1024)) := by
  have hexec := exec_link_resend hup ack creds n
  have hnot : ¬8 < resendsNow (getPort s p) (ack % 1024) := by
    unfold resendsNow
    split <;> omega
  rw [if_neg hnot] at hexec
  generalize resendsNow (getPort s p) (ack % 1024) = m at hexec
  have hquiet := rxCodewords_quiet hlt
  have hregs : regN (resendCounted p ack n s) (portRegs p + 0x0C) =
      satTo 32 (regN s (portRegs p + 0x0C) + cseqDist (getPort s p).txSeq (ack % 1024)) := by
    rw [resendCounted, regN_setReg_satTo, linkCounted, regN_setReg, if_neg (by omega), hquiet, regN_congr (updPort_regs ..)]
  have hport : getPort (resendCounted p ack n s) p = { getPort s p with
      rxSeq := ((getPort s p).rxSeq + 1) % 1024, sinceLink := (getPort s p).sinceLink + 1 } := by
    have h : getPort (resendCounted p ack n s) p = getPort (rxCodewords p 1 s) p := rfl
    rw [h, hquiet, getPort_upd_self]
  have hout : (resendCounted p ack n s).out = s.out := by
    have h : (resendCounted p ack n s).out = (rxCodewords p 1 s).out := rfl
    rw [h, hquiet, updPort_out]
  generalize resendCounted p ack n s = u at hexec hregs hport hout
  obtain ⟨-, hb, hc, hd, he⟩ := ackedPort_fields (ack % 1024) m creds u.clock (getPort u p)
  have hw : getPort (updPort p (ackedPort (ack % 1024) m creds u.clock) u) p = ackedPort (ack % 1024) m creds u.clock (getPort u p) :=
    getPort_upd_self ..
  dsimp only at hexec
  rw [resendKept_eq, hw, hd] at hexec
  generalize hv : ({ updPort p (ackedPort (ack % 1024) m creds u.clock) u with
    out := ((keptAfter (getPort u p).txAcked (ack % 1024) (getPort u p).kept).map Prod.snd).reverse ++
      (updPort p (ackedPort (ack % 1024) m creds u.clock) u).out } : State) = v at hexec
  have hvport : getPort v p = ackedPort (ack % 1024) m creds u.clock (getPort u p) := by rw [← hv]; exact hw
  have hvregs : v.regs = u.regs := by rw [← hv]; rfl
  have hvout : v.out = ((keptAfter (getPort s p).txAcked (ack % 1024) (getPort s p).kept).map Prod.snd).reverse ++ s.out := by
    rw [← hv, hport]
    exact congrArg (_ ++ ·) hout
  rw [portDrain_empty (by rw [hvport, hb, hport]; exact hq), linkDue_quiet] at hexec
  · refine ⟨_, hexec, ?_, ?_, ?_⟩
    · rw [getPort_upd_self, hvport]
      show (ackedPort _ _ _ _ _).st = _
      rw [he, hport]
      exact beq_iff_eq.mp hup
    · rw [updPort_out]
      exact hvout
    · rw [regN_congr (updPort_regs ..), regN_congr hvregs]
      exact hregs
  · rw [getPort_upd_self, hvport]
    show (ackedPort _ _ _ _ _).sinceLink < 64
    rw [hc, hport]
    show (getPort s p).sinceLink + 1 < 64
    omega

/-- The ninth resend of one codeword takes the port down (R362, R385). -/
theorem link_gives_up (creds : List Nat) (n : Nat) (hr : 8 ≤ (getPort s p).resends) (hack : (getPort s p).txAcked < 1024) :
    Does (.link p (getPort s p).txAcked true ⟨creds, n⟩) s fun t => (getPort t p).st = .down ∧ (getPort t p).reason = 2 := by
  have hexec := exec_link_resend hup (getPort s p).txAcked creds n
  have hmany : 8 < resendsNow (getPort s p) ((getPort s p).txAcked % 1024) := by
    rw [Nat.mod_eq_of_lt hack, resendsNow, beq_self_eq_true, if_pos rfl]
    omega
  rw [if_pos hmany] at hexec
  refine ⟨_, hexec, ?_⟩
  beta_reduce
  rw [(portFails_falls p 2 _).fallen]
  exact ⟨rfl, rfl⟩

/-! ## Losses (R385) -/

theorem creditStall_falls (dt : Nat) (hq : (getPort s p).queue ≠ [])
    (hc : max (getPort s p).since (getPort s p).creditAt + 10000000 ≤ s.clock + dt) : Does (.creditStallTimeout dt p) s fun t =>
      (getPort t p).st = .down ∧ (getPort t p).reason = 4 ∧ (getPort t p).queue = [] := by
  have hgo : ((getPort s p).st == .up && !(getPort s p).queue.isEmpty &&
      decide (max (getPort s p).since (getPort s p).creditAt + 10000000 ≤ s.clock + dt)) = true := by
    rw [show ((getPort s p).st == .up) = true from hup, decide_eq_true hc, List.isEmpty_eq_false_iff.mpr hq]
    rfl
  refine ⟨portFails p 4 (pass dt s), if_pos hgo, ?_⟩
  beta_reduce
  rw [(portFails_falls p 4 _).fallen]
  exact ⟨rfl, rfl, rfl⟩

theorem lossOfSignal_falls (dt lanes : Nat) (hl : 12 < lanes) (hd : 1000 ≤ dt) : Does (.portLossOfSignal dt p lanes) s fun t =>
    (getPort t p).st = .down ∧ (getPort t p).reason = 3 := by
  have hgo : (portUp s p && decide (12 < lanes) && decide (1000 ≤ dt)) = true := by
    rw [hup, decide_eq_true hl, decide_eq_true hd]; rfl
  refine ⟨portFails p 3 (pass dt s), if_pos hgo, ?_⟩
  beta_reduce
  rw [(portFails_falls p 3 _).fallen]
  exact ⟨rfl, rfl⟩

end

/-! ## PORT_EN (R388) -/

/-- What a write of GZL_CTL does to one port, `old` being the register before. -/
def portEnable (value : Word) (old : Nat) (s : State) (p : Nat) : State :=
  if bitOf value.toNat p then (if bitOf old p then s else updPort p (fun q => { q with holdoff := false }) s)
  else if (getPort s p).st = .down then updPort p (fun q => { q with reason := 7 }) s
  else portFails p 7 s

theorem gzlCtlWrite_eq (value : Word) (s : State) :
    gzlCtlWrite value s = (List.range 8).foldl (portEnable value (regN s bGzl)) (setReg bGzl (value &&& 0x00FF01FF) s) := rfl

theorem portEnable_kept (value : Word) (old : Nat) (s : State) (p : Nat) : reg (portEnable value old s p) bGzl = reg s bGzl := by
  unfold portEnable
  split
  · split
    · rfl
    · exact (Kept.of_regs (updPort_regs ..)).1
  · split
    · exact (Kept.of_regs (updPort_regs ..)).1
    · exact (portFails_falls p 7 s).kept.1

/-- The other ports keep their shape. -/
theorem portEnable_others (value : Word) (old : Nat) (s : State) {p q : Nat} (h : q ≠ p) :
    (getPort (portEnable value old s p) q).shape = (getPort s q).shape := by
  unfold portEnable
  split
  · split
    · rfl
    · rw [getPort_upd_ne h]
  · split
    · rw [getPort_upd_ne h]
    · exact (portFails_falls p 7 s).others q h

/-- A port that the write disables is down by it; one that it newly enables may train at once. -/
theorem portEnable_self (value : Word) (old : Nat) (s : State) (p : Nat) :
    (bitOf value.toNat p = false → (getPort (portEnable value old s p) p).st = .down ∧ (getPort (portEnable value old s p) p).reason = 7) ∧
    (bitOf value.toNat p = true → bitOf old p = false →
      (getPort (portEnable value old s p) p).holdoff = false ∧ (getPort (portEnable value old s p) p).st = (getPort s p).st) := by
  unfold portEnable
  refine ⟨fun h => ?_, fun h ho => ?_⟩
  · rw [h, if_neg Bool.false_ne_true]
    split
    next hd => rw [getPort_upd_self]; exact ⟨hd, rfl⟩
    next => rw [(portFails_falls p 7 s).fallen]; exact ⟨rfl, rfl⟩
  · rw [if_pos h, ho, if_neg Bool.false_ne_true, getPort_upd_self]
    exact ⟨rfl, rfl⟩

/-- A fold whose steps each change one number's part: at one of its numbers it does what one step does to the part as it was. -/
theorem foldl_at {σ β : Type} {f : σ → Nat → σ} {part : σ → Nat → β} (hother : ∀ s p q, q ≠ p → part (f s p) q = part s q)
    {l : List Nat} (hl : l.Nodup) {q : Nat} (hq : q ∈ l) (s : σ) : ∃ u, part u q = part s q ∧ part (l.foldl f s) q = part (f u q) q := by
  have hkeep (l : List Nat) (h : q ∉ l) (s : σ) : part (l.foldl f s) q = part s q := by
    induction l generalizing s with
    | nil => rfl
    | cons p l ih =>
      rw [List.mem_cons, not_or] at h
      rw [List.foldl_cons, ih h.2, hother _ _ _ h.1]
  induction l generalizing s with
  | nil => exact absurd hq List.not_mem_nil
  | cons p l ih =>
    rw [List.nodup_cons] at hl
    rcases List.mem_cons.mp hq with rfl | hq
    · exact ⟨s, rfl, hkeep l hl.1 _⟩
    · obtain ⟨u, hu, hf⟩ := ih hl.2 hq (f s p)
      exact ⟨u, hu.trans (hother _ _ _ fun h => hl.1 (h ▸ hq)), hf⟩

theorem shape_fields {q r : Port} (h : q.shape = r.shape) : q.st = r.st ∧ q.reason = r.reason ∧ q.holdoff = r.holdoff :=
  ⟨(congrArg Port.st h :), (congrArg Port.reason h :), (congrArg Port.holdoff h :)⟩

theorem gzlCtlWrite_outcome (v : Word) (s : State) : reg (gzlCtlWrite v s) bGzl = v &&& 0x00FF01FF ∧ ∀ p < 8,
    (bitOf v.toNat p = false → (getPort (gzlCtlWrite v s) p).st = .down ∧ (getPort (gzlCtlWrite v s) p).reason = 7) ∧
    (bitOf v.toNat p = true → bitOf (regN s bGzl) p = false →
      (getPort (gzlCtlWrite v s) p).holdoff = false ∧ (getPort (gzlCtlWrite v s) p).st = (getPort s p).st) := by
  rw [gzlCtlWrite_eq]
  refine ⟨?_, fun p hp => ?_⟩
  · refine List.foldlRecOn (motive := fun t => reg t bGzl = v &&& 0x00FF01FF) _ _ ?_ fun t ht q _ => ?_
    · rw [reg_setReg, if_pos rfl]
    · rw [portEnable_kept, ht]
  · obtain ⟨u, hu, hf⟩ := foldl_at (part := fun t q => (getPort t q).shape) (fun t p q h => portEnable_others v (regN s bGzl) t h)
      List.nodup_range (List.mem_range.mpr hp) (setReg bGzl (v &&& 0x00FF01FF) s)
    obtain ⟨h1, h2, h3⟩ := shape_fields hf
    obtain ⟨k1, -, -⟩ := shape_fields hu
    obtain ⟨hoff, hon⟩ := portEnable_self v (regN s bGzl) u p
    refine ⟨fun h => ?_, fun h ho => ?_⟩
    · exact ⟨h1.trans (hoff h).1, h2.trans (hoff h).2⟩
    · exact ⟨h3.trans (hon h ho).1, (h1.trans (hon h ho).2).trans k1⟩

/-- Settles O31: lanes, the switch's LANE flits, codewords, LINK flits, and the ways in which a port falls. -/
theorem portLinks : Obligations.PortLinks := by
  unfold Obligations.PortLinks
  refine ⟨fun s p lane hup hl hf => laneFailed_outcomes hup hl hf, fun s p op lane width no hup =>
    ⟨fun h => lane_answered op lane width hup h, fun h => lane_followed op lane width hup h⟩,
    fun s p hup => ⟨fun k => codeword_discarded hup k, fun ack creds n hlen hq => link_acknowledges hup ack creds n hlen hq,
      fun ack creds n hq hlt hr => link_resends hup ack creds n hq hlt hr, fun creds n hr hack => link_gives_up hup creds n hr hack,
      fun dt hq hc => creditStall_falls hup dt hq hc, fun dt lanes hl hd => lossOfSignal_falls hup dt lanes hl hd⟩,
    fun s v hopen hdark => ⟨gzlCtlWrite v (barAccess s), ?_, gzlCtlWrite_outcome v (barAccess s)⟩⟩
  show execPortEnWrite 0 v s = _
  rw [execPortEnWrite, hostPost_open hopen]
  exact congrArg Host.Outcome.next (if_pos (by rw [show diesDark (barAccess s) = false from hdark]; rfl))

end Sys2Proof.Machine
end

section
/-!
PROOFS. O17: FILL and COPY write exactly their range (R303, R460 to R462).
-/
namespace Sys2Proof.Machine

/-! ## Stacks keep their state in an access -/

/-- Every stack stands as it stood. -/
structure StacksKept (s t : State) : Prop where
  st : ∀ k, (getStack t k).st = (getStack s k).st

theorem StacksKept.refl (s : State) : StacksKept s s := ⟨fun _ => rfl⟩

theorem StacksKept.trans {s t u : State} (h : StacksKept s t) (k : StacksKept t u) : StacksKept s u := ⟨fun n => (k.st n).trans (h.st n)⟩

theorem StacksKept.of_stacks {s t : State} (h : t.mem.hbmStacks = s.mem.hbmStacks) : StacksKept s t := ⟨fun k => by
  rw [getStack, getStack, h]⟩

theorem StacksKept.foldl {α : Type} {f : State → α → State} (h : ∀ s x, StacksKept s (f s x)) (l : List α) (s : State) :
    StacksKept s (l.foldl f s) := by
  induction l generalizing s with
  | nil => exact .refl s
  | cons x l ih => exact (h s x).trans (ih (f s x))

theorem StacksKept.charge (st n g units : Nat) (s : State) : StacksKept s (charge st n g units s) := by
  unfold Machine.charge
  split
  · exact .refl s
  · refine ⟨fun k => ?_⟩
    rw [getStack, updStack, Tbl.get_upd]
    split
    next h => subst h; rfl
    next => rfl

theorem hbmPut_stacks (m : MemSys) (a : Nat) (d : Bytes) : (hbmPut m a d).hbmStacks = m.hbmStacks := by
  induction d generalizing m a with
  | nil => rfl
  | cons b t ih => exact ih _ _

theorem StacksKept.hbmWr (a : Nat) (d : Bytes) (s : State) : StacksKept s (hbmWr a d s) := .of_stacks (hbmPut_stacks ..)

theorem StacksKept.setLine (ln : Nat) (l : Option Line) (s : State) : StacksKept s (setLine ln l s) := .of_stacks rfl

theorem StacksKept.writeBack (ln : Nat) (l : Line) (g : Nat) (s : State) : StacksKept s (writeBack ln l g s) := by
  unfold Machine.writeBack
  dsimp only
  split
  · exact ((StacksKept.setLine ln none s).trans (.hbmWr ..)).trans (.charge ..)
  · exact .setLine ..

theorem StacksKept.allocLine (ln : Nat) (data : Bytes) (dirty keep : Bool) (g : Nat) (s : State) :
    StacksKept s (allocLine ln data dirty keep g s) := by
  have htick : StacksKept s (nextTick s).2 := .of_stacks rfl
  refine allocLine_cases ln data dirty keep g s (p := StacksKept s) (fun e l _ _ _ => ?_) (fun l _ _ => ?_) ?_
  · exact (htick.trans (.writeBack ..)).trans (.setLine ..)
  · exact htick.trans (.setLine ..)
  · split
    · exact htick.trans (.hbmWr ..)
    · exact htick

theorem StacksKept.lineWrite (n g hint a : Nat) (d : Bytes) (s : State) : StacksKept s (lineWrite n g hint a d s) := by
  unfold Machine.lineWrite
  dsimp only
  split
  · split
    · exact .of_stacks rfl
    · exact .of_stacks rfl
  · split
    · exact (StacksKept.hbmWr ..).trans (.charge ..)
    · split
      · exact .allocLine ..
      · exact (StacksKept.charge ..).trans (.allocLine ..)

theorem StacksKept.slicePut (n g hint a : Nat) (d : Bytes) (s : State) : StacksKept s (slicePut n g hint a d s) :=
  .foldl (fun _ _ => .lineWrite ..) _ s

theorem StacksKept.partSpace {s t : State} (h : StacksKept s t) : partSpace t = partSpace s := by
  unfold Machine.partSpace capacity activeStacks
  simp only [h.st]

/-! ## The ranges of an access (R291, R295) -/

theorem partSpace_lt (s : State) : partSpace s < 2 ^ 41 := by
  have h : (activeStacks s).length ≤ 20 := (List.length_filter_le ..).trans (by rw [List.length_range])
  unfold partSpace capacity
  show 96 * 1073741824 * (activeStacks s).length - 1073741824 < 2 ^ 41
  omega

/-- What a quota asks of a range: it lies below the end of the partition space. -/
theorem quotaOk_space {s : State} {n a len : Nat} {w : Bool} (h : quotaOk s n a len w = true) : a + len ≤ partSpace s := by
  rw [quotaOk, Bool.and_eq_true, Bool.and_eq_true, decide_eq_true_eq] at h
  exact h.1.1

theorem rangesMeet_of_part {a len a' len' b m : Nat} (ha : a ≤ a') (hl : a' + len' ≤ a + len) (h : rangesMeet a' len' b m = true) :
    rangesMeet a len b m = true := by
  simp only [rangesMeet, Bool.and_eq_true, decide_eq_true_eq] at *
  omega

/-- A part of a range that the quota admits is admitted. -/
theorem quotaOk_part {s : State} {n a len a' len' : Nat} {w : Bool} (h : quotaOk s n a len w = true) (ha : a ≤ a')
    (hl : a' + len' ≤ a + len) : quotaOk s n a' len' w = true := by
  have hmeet {b m : Nat} (hb : rangesMeet a len b m = false) : rangesMeet a' len' b m = false :=
    Bool.eq_false_iff.mpr fun hm => Bool.false_ne_true (hb.symm.trans (rangesMeet_of_part ha hl hm))
  simp only [quotaOk, Bool.and_eq_true, Bool.or_eq_true, decide_eq_true_eq, beq_iff_eq, Bool.not_eq_true', Bool.and_eq_false_iff,
    List.any_eq_false, Bool.not_eq_true] at h ⊢
  obtain ⟨⟨hspace, hquota⟩, hrest⟩ := h
  refine ⟨⟨by omega, hquota.imp_right fun hq => by omega⟩, hrest.imp_right ?_⟩
  rintro ⟨⟨⟨hs, hr⟩, hc⟩, hp⟩
  exact ⟨⟨⟨hmeet hs, hmeet hr⟩, hmeet hc⟩, hp.imp_right fun hp r hr => hmeet (hp r hr)⟩

/-- The quota reads registers, partitions and the stacks' states. -/
theorem quotaOk_congr {s t : State} (hm : MemOnly s t) (hk : StacksKept s t) (n a len : Nat) (w : Bool) :
    quotaOk t n a len w = quotaOk s n a len w := by
  have hparts : t.parts = s.parts := by rw [hm.1]
  have hregs : t.regs = s.regs := by rw [hm.1]
  have hpart : getPart t n = getPart s n := by rw [getPart, hparts, getPart]
  have hreg (k : Nat) : regN t k = regN s k := regN_congr hregs k
  unfold quotaOk stashRange rpcRange protectedRanges reg64
  simp only [hpart, hreg, hk.partSpace]

/-! ## Global addresses of one node (R295) -/

/-- Inside 2^41 bytes of one place, an offset moves the local address only. -/
theorem addr_add {a x : Nat} (h : gLocal a + x < 2 ^ 41) :
    gLocal (a + x) = gLocal a + x ∧ gNode (a + x) = gNode a ∧ gStash (a + x) = gStash a ∧ gRsv (a + x) = gRsv a := by
  have hq : (a + x) / 2 ^ 41 = a / 2 ^ 41 := by
    unfold gLocal at h
    omega
  have hhigh (k : Nat) : (a + x) / 2 ^ (41 + k) = a / 2 ^ (41 + k) := by
    rw [Nat.pow_add, ← Nat.div_div_eq_div_mul, ← Nat.div_div_eq_div_mul, hq]
  refine ⟨?_, ?_, ?_, ?_⟩
  · unfold gLocal at h ⊢
    omega
  · rw [gNode, bitsOf, hhigh 7, gNode, bitsOf]
  · rw [gStash, bitOf, hhigh 0, gStash, bitOf]
  · rw [gRsv, bitsOf, hhigh 2, gRsv, bitsOf]

/-! ## Pieces of a range (R460) -/

/-- Pieces that follow each other from one offset to another, each of 1 to 256 bytes. -/
def Tiles : List (Nat × Nat) → Nat → Nat → Prop
  | [], o, n => o = n
  | p :: t, o, n => p.1 = o ∧ 0 < p.2 ∧ p.2 ≤ 256 ∧ Tiles t (o + p.2) n

theorem tiles_le {l : List (Nat × Nat)} {o n : Nat} (h : Tiles l o n) : o ≤ n := by
  induction l generalizing o with
  | nil => exact Nat.le_of_eq h
  | cons p l ih =>
    obtain ⟨-, -, -, ht⟩ := h
    exact Nat.le_trans (Nat.le_add_right _ _) (ih ht)

theorem tiles_append {l k : List (Nat × Nat)} {o m n : Nat} (h : Tiles l o m) (hk : Tiles k m n) : Tiles (l ++ k) o n := by
  induction l generalizing o with
  | nil => obtain rfl := h; exact hk
  | cons p l ih =>
    obtain ⟨h1, h2, h3, ht⟩ := h
    exact ⟨h1, h2, h3, ih ht⟩

theorem tiles_shift {l : List (Nat × Nat)} {o n : Nat} (h : Tiles l o n) (c : Nat) : Tiles (l.map fun q => (c + q.1, q.2)) (c + o) (c + n) := by
  induction l generalizing o with
  | nil => obtain rfl := h; exact rfl
  | cons p l ih =>
    obtain ⟨h1, h2, h3, ht⟩ := h
    exact ⟨congrArg (c + ·) h1, h2, h3, Nat.add_assoc c o p.2 ▸ ih ht⟩

/-- Pieces up to 256-byte boundaries tile their range, when there are enough of them. -/
theorem tiles_pieces256 {f a o n : Nat} (ho : o ≤ n) (hf : n - o = 0 ∨ n - o + (a + o) % 256 ≤ 256 * f) : Tiles (pieces256 f a o n) o n := by
  induction f generalizing o with
  | zero => exact (by omega : o = n)
  | succ f ih =>
    unfold pieces256
    split
    next h => exact Nat.le_antisymm ho h
    next h =>
      refine ⟨rfl, by omega, by omega, ih (by omega) ?_⟩
      rcases Nat.le_total (n - o) (256 - (a + o) % 256) with hm | hm
      · rw [Nat.min_eq_left hm]
        exact .inl (by omega)
      · rw [Nat.min_eq_right hm]
        exact .inr (by omega)

theorem tiles_rangePieces (a len : Nat) : Tiles (rangePieces a len) 0 len := tiles_pieces256 (Nat.zero_le len) (.inr (by omega))

/-- Pieces of pieces tile what the pieces tile. -/
theorem tiles_flatten {g : Nat × Nat → List (Nat × Nat)} (hg : ∀ p : Nat × Nat, p.2 ≤ 256 → Tiles (g p) p.1 (p.1 + p.2)) {l : List (Nat × Nat)}
    {o n : Nat} (h : Tiles l o n) : Tiles (l.map g).flatten o n := by
  induction l generalizing o with
  | nil => exact h
  | cons p l ih =>
    obtain ⟨rfl, h2, h3, ht⟩ := h
    exact tiles_append (hg p h3) (ih ht)

theorem tiles_copyPieces (d : Desc) : Tiles (copyPieces d) 0 (cpLen d) := by
  refine tiles_flatten (fun p hp => ?_) (tiles_rangePieces (cpDst d) (cpLen d))
  exact tiles_shift (tiles_pieces256 (f := 3) (a := cpSrc d + p.1) (Nat.zero_le p.2) (.inr (by omega))) p.1

/-- Pieces of an aligned range of words are aligned words. -/
theorem words_pieces256 {f a o n : Nat} (ha : a % 4 = 0) (ho : o % 4 = 0) (hn : n % 4 = 0) :
    ∀ p ∈ pieces256 f a o n, p.1 % 4 = 0 ∧ p.2 % 4 = 0 := by
  induction f generalizing o with
  | zero => exact fun p hp => absurd hp List.not_mem_nil
  | succ f ih =>
    unfold pieces256
    split
    · exact fun p hp => absurd hp List.not_mem_nil
    · intro p hp
      have hk : min (n - o) (256 - (a + o) % 256) % 4 = 0 := by omega
      rcases List.mem_cons.mp hp with rfl | hp
      · exact ⟨ho, hk⟩
      · exact ih (by omega) p hp

/-! ## Pieces that reach their destination -/

/-- The bytes `f` of the offsets from `o` up to `n`, at an address of a state's memory. -/
def RangeWritten (a o n : Nat) (f : Nat → Byte) (s t : State) : Prop :=
  ∀ b, memByte t b = if gLocal a + o ≤ b ∧ b < gLocal a + n then f (b - gLocal a) else memByte s b

/-- One piece that this device's quota admits goes to memory. -/
theorem putPiece_here {d : Desc} {hint dst : Nat} {b : Bytes} {s : State} (hfn : d.fn ≠ 0) (hn : gNode dst = nodeId s) (hr : gRsv dst = false)
    (hs : gStash dst = false) (hq : quotaOk s d.fn (gLocal dst) b.length true = true) :
    putPiece d false hint dst b s = memPut d.fn 0 hint (gLocal dst) b s := by
  have hplace : writePlace d.fn dst b.length s = (.here (gLocal dst), s) := by
    rw [writePlace, hr, if_neg Bool.false_ne_true, hs, if_neg Bool.false_ne_true, if_pos hq]
  unfold putPiece
  dsimp only
  rw [if_neg Bool.false_ne_true, if_pos hn, servedPart, if_neg hfn, hplace]

/-- The pieces of a range that the quota admits write exactly the range. -/
theorem putPieces {d : Desc} {hint a len : Nat} {bytes : Nat × Nat → Bytes} {f : Nat → Byte} (hfn : d.fn ≠ 0) (hr : gRsv a = false)
    (hs : gStash a = false) {l : List (Nat × Nat)} {o : Nat} (ht : Tiles l o len)
    (hb : ∀ p ∈ l, (bytes p).length = p.2 ∧ ∀ i < p.2, (bytes p).getD i 0 = f (p.1 + i)) {s : State} (hn : gNode a = nodeId s)
    (hq : quotaOk s d.fn (gLocal a) len true = true) (hw : s.mem.waiting = []) :
    MemOnly s (l.foldl (fun s p => putPiece d false hint (a + p.1) (bytes p) s) s) ∧
    RangeWritten a o len f s (l.foldl (fun s p => putPiece d false hint (a + p.1) (bytes p) s) s) := by
  induction l generalizing o s with
  | nil =>
    obtain rfl := ht
    exact ⟨.refl s, fun b => (if_neg (by omega)).symm⟩
  | cons p l ih =>
    obtain ⟨rfl, hpos, -, hrest⟩ := ht
    obtain ⟨hlen, hget⟩ := hb p List.mem_cons_self
    have hle := tiles_le hrest
    have hspace := quotaOk_space hq
    have hmax := partSpace_lt s
    obtain ⟨h1, h2, h3, h4⟩ := addr_add (a := a) (x := p.1) (by omega)
    have hput : putPiece d false hint (a + p.1) (bytes p) s = memPut d.fn 0 hint (gLocal a + p.1) (bytes p) s := by
      rw [putPiece_here hfn (h2.trans hn) (h4.trans hr) (h3.trans hs), h1]
      rw [h1]
      exact quotaOk_part hq (Nat.le_add_right _ _) (by omega)
    have honly : MemOnly s (memPut d.fn 0 hint (gLocal a + p.1) (bytes p) s) := memPut_memOnly hw ..
    have hstacks : StacksKept s (memPut d.fn 0 hint (gLocal a + p.1) (bytes p) s) := by
      rw [memPut_empty hw]
      exact .slicePut ..
    have hbyte := memByte_memPut hw d.fn 0 hint (gLocal a + p.1) (bytes p)
    rw [List.foldl_cons, hput]
    generalize memPut d.fn 0 hint (gLocal a + p.1) (bytes p) s = u at honly hstacks hbyte
    have hnode : nodeId u = nodeId s := (Kept.of_regs (by rw [honly.1])).node
    obtain ⟨ho, hwr⟩ := ih hrest (fun q hq => hb q (List.mem_cons_of_mem _ hq)) (hn.trans hnode.symm)
      ((quotaOk_congr honly hstacks ..).trans hq) (honly.2.trans hw)
    refine ⟨honly.trans ho, fun b => ?_⟩
    rw [hwr b, hbyte b, hlen]
    by_cases hin : gLocal a + p.1 ≤ b ∧ b < gLocal a + len
    · rw [if_pos hin]
      by_cases hlater : gLocal a + (p.1 + p.2) ≤ b ∧ b < gLocal a + len
      · rw [if_pos hlater]
      · rw [if_neg hlater, if_pos (by omega), hget _ (by omega)]
        congr 1
        omega
    · rw [if_neg hin, if_neg (by omega), if_neg (by omega)]

/-! ## The end of a FILL or COPY (R303) -/

/-- A descriptor that has moved its bytes, with nothing open, is done once its bucket has paid. -/
theorem finishIfDone_stands {s : State} {d : Desc} (h : findDesc s d.id = some d) (hp : d.phase = .started) (hw : d.waiting = 0)
    (hg : d.got = []) (hcodes : d.codes = []) :
    Stands (finishIfDone d.id s) d.id (if bucketOwes (finishIfDone d.id s) d.fn 0 then .started else .done .ok) ∧
    finishIfDone d.id s = { s with descs := (finishIfDone d.id s).descs } := by
  have hgo : (d.phase == .started && d.waiting == 0 && d.got.isEmpty && !bucketOwes s d.fn 0) = !bucketOwes s d.fn 0 := by
    rw [hp, hw, hg]; rfl
  have hone : finishIfDone d.id s = if bucketOwes s d.fn 0 then s else finishDesc d.id .ok s := by
    unfold finishIfDone
    rw [h]
    dsimp only
    rw [hgo]
    cases bucketOwes s d.fn 0 <;> rfl
  rw [hone]
  by_cases ho : bucketOwes s d.fn 0 = true
  · rw [if_pos ho, if_pos ho]
    exact ⟨⟨d, h, hp⟩, rfl⟩
  · rw [if_neg ho, if_neg (show ¬bucketOwes (finishDesc d.id .ok s) d.fn 0 = true from ho)]
    exact ⟨finishDesc_stands h (live_of_started hp) hcodes .ok, rfl⟩

theorem memByte_descs {s t : State} (h : t.mem = s.mem) (b : Nat) : memByte t b = memByte s b :=
  SameBytes.memByte ⟨by rw [h], by rw [h], by rw [h]⟩ b

/-- A started descriptor's pieces, written to a range of this device that its quota admits, then its end. -/
theorem range_writes {d : Desc} {hint a len : Nat} {bytes : Nat × Nat → Bytes} {f : Nat → Byte} {s u : State} {l : List (Nat × Nat)}
    (hfn : d.fn ≠ 0) (hn : gNode a = nodeId s) (hs : gStash a = false) (hok : rangeWriteOk s d.fn a len = true) (ht : Tiles l 0 len)
    (hb : ∀ p ∈ l, (bytes p).length = p.2 ∧ ∀ i < p.2, (bytes p).getD i 0 = f (p.1 + i)) (hw : s.mem.waiting = [])
    (hu : u = { s with descs := u.descs }) {e : Desc} (hid : e.id = d.id) (hefn : e.fn = d.fn) (he : findDesc u d.id = some e)
    (hp : e.phase = .started) (hwait : e.waiting = 0) (hg : e.got = []) (hcodes : e.codes = []) {t : State}
    (hdef : t = finishIfDone d.id (l.foldl (fun s p => putPiece d false hint (a + p.1) (bytes p) s) u)) :
    Stands t d.id (if bucketOwes t d.fn 0 then .started else .done .ok) ∧ t = { s with descs := t.descs, mem := t.mem } ∧
      ∀ b, memByte t b = if gLocal a ≤ b ∧ b < gLocal a + len then f (b - gLocal a) else memByte s b := by
  have hrsv : gRsv a = false := by
    rw [rangeWriteOk] at hok
    by_contra hc
    rw [if_pos (Bool.not_eq_false _ ▸ hc)] at hok
    exact Bool.false_ne_true hok
  have hq : quotaOk s d.fn (gLocal a) len true = true := by
    rw [rangeWriteOk, hrsv, if_neg Bool.false_ne_true, hs, if_neg Bool.false_ne_true] at hok
    exact hok
  have hmem : u.mem = s.mem := by rw [hu]
  obtain ⟨honly, hwr⟩ := putPieces (d := d) (hint := hint) (s := u) hfn hrsv hs ht hb (by rw [hu]; exact hn) (by rw [hu]; exact hq)
    (by rw [hmem]; exact hw)
  generalize l.foldl (fun s p => putPiece d false hint (a + p.1) (bytes p) s) u = v at honly hwr hdef
  have hfind : findDesc v e.id = some e := by
    rw [hid, ← he, findDesc, findDesc, honly.1]
  obtain ⟨hst, hframe⟩ := finishIfDone_stands hfind hp hwait hg hcodes
  rw [hid, hefn] at hst
  rw [hid] at hframe
  subst hdef
  have hmemt : (finishIfDone d.id v).mem = v.mem := by rw [hframe]
  refine ⟨hst, ?_, fun b => ?_⟩
  · rw [hframe, honly.1, hu]
  · rw [memByte_descs hmemt, hwr b, memByte_descs hmem]
    rfl

/-! ## FILL (R461) -/

theorem length_words (w : Bytes) (k : Nat) : (List.replicate k w).flatten.length = k * w.length := by
  rw [List.length_flatten, List.map_replicate, List.sum_replicate, smul_eq_mul]

theorem getD_words {w : Bytes} (hw : w.length = 4) {k i : Nat} (hi : i < 4 * k) : (List.replicate k w).flatten.getD i 0 = w.getD (i % 4) 0 := by
  induction k generalizing i with
  | zero => omega
  | succ k ih =>
    rw [List.replicate_succ, List.flatten_cons, getD_append_range, hw]
    split
    next h => rw [Nat.mod_eq_of_lt h]
    next h =>
      rw [ih (by omega)]
      congr 1
      omega

theorem exec_copy {s : State} {id : Nat} {d : Desc} (hnow : startsNow s d = true) (h : AtTurn s id 0x08 d) (hc : copyCheck s d = none) (hr : hostReach s d.fn = true) (host : HostRead) :
    exec (.copy id host) s = .next (copyMove d host s) := by
  show execCopy id host s = _
  have hnew : (d.phase == .started) = false := by rw [h.fetched]; rfl
  unfold execCopy
  rw [h.found]
  dsimp only
  rw [hr, hnew, Bool.and_false, Bool.false_and, Bool.not_true, if_neg Bool.false_ne_true, if_neg Bool.false_ne_true, atAcceptance_of h]
  dsimp only
  rw [hc, checked, acceptThen_starts hnow]

section
variable {s : State} {id : Nat} {d : Desc} (hfn : d.fn ≠ 0) (hnow : startsNow s d = true) (hcodes : d.codes = []) (hwait : d.waiting = 0)
  (hgot : d.got = []) (hw : s.mem.waiting = [])
include hfn hnow hcodes hwait hgot hw

theorem fill_writes (h : AtTurn s id 0x09 d) (hc : fillCheck s d = none) (hn : gNode (flDst d) = nodeId s) (hs : gStash (flDst d) = false) :
    Does (.fill id) s fun t => Stands t id (if bucketOwes t d.fn 0 then .started else .done .ok) ∧
      t = { s with descs := t.descs, mem := t.mem } ∧ ∀ b, memByte t b =
        if gLocal (flDst d) ≤ b ∧ b < gLocal (flDst d) + flLen d then (leBytes 4 (d.at 32 4)).getD ((b - gLocal (flDst d)) % 4) 0
        else memByte s b := by
  obtain rfl := findDesc_id h.found
  have hcheck : flLen d % 4 = 0 ∧ flDst d % 4 = 0 ∧ rangeWriteOk s d.fn (flDst d) (flLen d) = true := by
    unfold fillCheck at hc
    split at hc
    · exact absurd hc (by simp)
    next h1 =>
      split at hc
      · exact absurd hc (by simp)
      split at hc
      · exact absurd hc (by simp)
      split at hc
      · exact absurd hc (by simp)
      next h2 =>
        simp only [Bool.or_eq_true, bne_iff_ne, not_or, ne_eq, not_not] at h1
        simp only [hn, beq_self_eq_true, Bool.true_and, Bool.not_eq_true', Bool.not_eq_false, descRangeOk, if_neg hfn, if_true] at h2
        exact ⟨h1.1.1.2, h1.1.2, h2⟩
  obtain ⟨hlen, hdst, hok⟩ := hcheck
  have hstart := findDesc_started h.found (live_of_fetched h.fetched)
  refine ⟨fillStart d s, ?_, ?_⟩
  · rw [exec_fill h hc, acceptThen_starts hnow]
  · refine range_writes (u := setPhase d.id .started s) (e := { d with phase := .started })
      (bytes := fun p => (List.replicate (p.2 / 4) (leBytes 4 (d.at 32 4))).flatten)
      (f := fun i => (leBytes 4 (d.at 32 4)).getD (i % 4) 0) hfn hn hs hok (tiles_rangePieces (flDst d) (flLen d)) (fun p hp => ?_) hw rfl rfl rfl
      hstart rfl hwait hgot hcodes rfl
    obtain ⟨h1, h2⟩ := words_pieces256 hdst rfl hlen p hp
    refine ⟨?_, fun i hi => ?_⟩
    · rw [length_words, length_leBytes]
      omega
    · rw [getD_words (length_leBytes ..) (by omega)]
      congr 1
      omega

/-! ## COPY (R460, R462) -/

theorem copy_writes (h : AtTurn s id 0x08 d) (hc : copyCheck s d = none) (hn : gNode (cpDst d) = nodeId s) (hs : gStash (cpDst d) = false)
    (hsrc : cpSrcHost d = true) (hr : hostReach s d.fn = true) (b : Bytes) :
    Does (.copy id (.data b)) s fun t => Stands t id (if bucketOwes t d.fn 0 then .started else .done .ok) ∧
      t = { s with descs := t.descs, mem := t.mem } ∧ ∀ x, memByte t x =
        if gLocal (cpDst d) ≤ x ∧ x < gLocal (cpDst d) + cpLen d then b.getD (x - gLocal (cpDst d)) 0 else memByte s x := by
  have hexec := exec_copy hnow h hc hr (.data b)
  obtain rfl := findDesc_id h.found
  have hcheck : cpDstHost d = false ∧ rangeWriteOk s d.fn (cpDst d) (cpLen d) = true := by
    unfold copyCheck at hc
    dsimp only at hc
    split at hc
    · exact absurd hc (by simp)
    next h1 =>
      split at hc
      · exact absurd hc (by simp)
      split at hc
      · exact absurd hc (by simp)
      split at hc
      · exact absurd hc (by simp)
      next h2 =>
        simp only [Bool.or_eq_true, not_or, hsrc, Bool.true_and] at h1
        have hd : cpDstHost d = false := Bool.eq_false_iff.mpr h1.1.1.2
        simp only [hd, hn, hsrc, Bool.not_true, Bool.false_and, Bool.false_or, Bool.not_false, Bool.true_and, beq_self_eq_true,
          Bool.not_eq_true', Bool.not_eq_false, descRangeOk, if_neg hfn, if_true] at h2
        exact ⟨hd, h2⟩
  obtain ⟨hdst, hok⟩ := hcheck
  have hput : copyPiece d b = fun s p => putPiece d false (cpHint d) (cpDst d + p.1) (sliceB b p.1 p.2) s := by
    funext s p
    unfold copyPiece
    dsimp only
    rw [hsrc, if_pos rfl, hdst]
  have hmove : copyMove d (.data b) s = finishIfDone d.id ((copyPieces d).foldl
      (fun s p => putPiece d false (cpHint d) (cpDst d + p.1) (sliceB b p.1 p.2) s)
      (setPhase d.id .started (updDesc d.id (fun d => { d with aux := 0 }) s))) := by
    unfold copyMove
    rw [hsrc]
    dsimp only
    rw [hput]
  have hstart : findDesc (setPhase d.id .started (updDesc d.id (fun d => { d with aux := 0 }) s)) d.id =
      some { d with aux := 0, phase := .started } := by
    have haux : findDesc (updDesc d.id (fun d => { d with aux := 0 }) s) d.id = some { d with aux := 0 } := by
      rw [findDesc_updDesc d.id d.id (fun d => { d with aux := 0 }) s fun _ h => h, if_pos rfl, h.found]
      rfl
    exact findDesc_started (d := { d with aux := 0 }) haux (live_of_fetched h.fetched)
  refine ⟨_, hexec, ?_⟩
  exact range_writes (u := setPhase d.id .started (updDesc d.id (fun d => { d with aux := 0 }) s)) (e := { d with aux := 0, phase := .started })
    (bytes := fun p => sliceB b p.1 p.2) (f := fun i => b.getD i 0) hfn hn hs hok (tiles_copyPieces d)
    (fun p _ => ⟨length_sliceB .., fun i hi => by rw [getD_sliceB, if_pos hi]⟩) hw rfl rfl rfl hstart rfl hwait hgot hcodes hmove

omit hfn hwait hgot hw in
theorem copy_fails (h : AtTurn s id 0x08 d) (hc : copyCheck s d = none) (hsrc : cpSrcHost d = true) (hr : hostReach s d.fn = true) :
    Does (.copy id .failed) s fun t => Stands t id (.done .internalError) ∧ t.mem = s.mem ∧ bitOf (regN t (hif d.fn 4)) 6 = true := by
  have hexec := exec_copy hnow h hc hr .failed
  obtain rfl := findDesc_id h.found
  have hmove : copyMove d .failed s = finishDesc d.id .internalError (notice d.fn 6 s) := by
    unfold copyMove
    rw [hsrc]
  rw [hmove] at hexec
  have hfind : findDesc (notice d.fn 6 s) d.id = some d := by
    rw [findDesc, notice_descs]
    exact h.found
  refine ⟨_, hexec, finishDesc_stands hfind (live_of_fetched h.fetched) hcodes _, ?_, bitOf_notice d.fn (by decide) s⟩
  exact notice_mem d.fn 6 s

end

/-- Settles O17: the pieces of a FILL or COPY tile its range, each goes to memory, and a host read that fails moves nothing. -/
theorem fillAndCopy : Obligations.FillAndCopy := by
  unfold Obligations.FillAndCopy
  intro s id d hfn hnow hcodes hwait hgot hw plain writes
  exact ⟨fun h hc hp => fill_writes hfn hnow hcodes hwait hgot hw h hc hp.1 hp.2,
    fun h hc hp hsrc hr b => copy_writes hfn hnow hcodes hwait hgot hw h hc hp.1 hp.2 hsrc hr b,
    fun h hc hsrc hr => copy_fails hnow hcodes h hc hsrc hr⟩

end Sys2Proof.Machine
end

section
/-!
PROOFS. What the end of a partition's work leaves: of every partition its configuration, its state and its drain, of every descriptor all
but the codes noted for it, and of the partition's cores that none runs (R483).
-/
namespace Sys2Proof.Machine

/-! ## Partitions and descriptors in outline -/

/-- A partition's state, configuration and drain. -/
def Part.shell (p : Part) : Part :=
  { st := p.st, rects := p.rects, groups := p.groups, rbase := p.rbase, rcount := p.rcount, qbase := p.qbase, qlen := p.qlen
    pbase := p.pbase, pcount := p.pcount, pipes := p.pipes, drain := p.drain }

/-- A descriptor but for the codes noted for it. -/
def Desc.outline (d : Desc) : Desc := { d with codes := [] }

/-- The shells of the partitions, and the descriptors in outline. -/
@[irreducible] def plan (s : State) : (Nat → Part) × List Desc := (fun m => (getPart s m).shell, s.descs.map Desc.outline)

theorem plan_same {s t : State} (hp : t.parts = s.parts) (hd : t.descs = s.descs) : plan t = plan s := by
  unfold plan getPart
  rw [hp, hd]

theorem plan_then {s t u : State} (h : plan t = plan s) (hp : u.parts = t.parts) (hd : u.descs = t.descs) : plan u = plan s :=
  (plan_same hp hd).trans h

theorem plan_eq_iff {s t : State} : plan t = plan s ↔
    (∀ m, (getPart t m).shell = (getPart s m).shell) ∧ t.descs.map Desc.outline = s.descs.map Desc.outline := by
  unfold plan
  rw [Prod.mk.injEq, funext_iff]

theorem plan_foldl {α : Type} {f : State → α → State} (h : ∀ s x, plan (f s x) = plan s) (l : List α) (s : State) :
    plan (l.foldl f s) = plan s := by
  induction l generalizing s with
  | nil => rfl
  | cons x l ih => exact (ih (f s x)).trans (h s x)

theorem shell_of_plan {s t : State} (h : plan t = plan s) (m : Nat) : (getPart t m).shell = (getPart s m).shell :=
  (plan_eq_iff.1 h).1 m

theorem outline_of_plan {s t : State} (h : plan t = plan s) : t.descs.map Desc.outline = s.descs.map Desc.outline :=
  (plan_eq_iff.1 h).2

theorem shell_fields {p q : Part} (h : p.shell = q.shell) : p.st = q.st ∧ p.rects = q.rects ∧ p.rbase = q.rbase ∧ p.rcount = q.rcount :=
  ⟨(congrArg Part.st h :), (congrArg Part.rects h :), (congrArg Part.rbase h :), (congrArg Part.rcount h :)⟩

theorem plan_updPart {f : Part → Part} (hf : ∀ p, (f p).shell = p.shell) (n : Nat) (s : State) : plan (updPart n f s) = plan s := by
  refine plan_eq_iff.2 ⟨fun m => ?_, rfl⟩
  rw [getPart_updPart]
  split
  next h => subst h; exact hf _
  next => rfl

theorem plan_updStep (n : Nat) (f : Step → Step) (s : State) : plan (updStep n f s) = plan s :=
  plan_updPart (f := fun p => { p with step := p.step.map f }) (fun _ => rfl) n s

theorem plan_noteDesc (id : Nat) (c : Status) (s : State) : plan (noteDesc id c s) = plan s := by
  refine plan_eq_iff.2 ⟨fun _ => rfl, ?_⟩
  show (s.descs.map _).map Desc.outline = _
  rw [List.map_map]
  refine List.map_congr_left fun d _ => ?_
  show (if d.id = id then _ else d).outline = d.outline
  split <;> rfl

/-! ## Accesses to memory -/

theorem plan_of_memOnly {s t : State} (h : MemOnly s t) : plan t = plan s := plan_same (by rw [h.1]) (by rw [h.1])

theorem plan_incReg (k : Nat) (s : State) : plan (incReg k s) = plan s := by
  rw [incReg_frame]
  exact plan_same rfl rfl

theorem plan_incStack (which st : Nat) (s : State) : plan (incStack which st s) = plan s := plan_incReg ..

theorem plan_memEvent (bit st : Nat) (s : State) : plan (memEvent bit st s) = plan s := plan_same rfl rfl

theorem plan_postEvent (e : Ev) (s : State) : plan (postEvent e s) = plan s := plan_same rfl rfl

theorem plan_setLine (ln : Nat) (l : Option Line) (s : State) : plan (setLine ln l s) = plan s := plan_same rfl rfl

theorem plan_setReg (k : Nat) (v : Word) (s : State) : plan (setReg k v s) = plan s := plan_same rfl rfl

theorem plan_queueRepair (c w : Nat) (s : State) : plan (queueRepair c w s) = plan s := plan_same rfl rfl

theorem plan_updStack (k : Nat) (f : Stack → Stack) (s : State) : plan (updStack k f s) = plan s := plan_same rfl rfl

theorem plan_spoil (a len : Nat) (s : State) : plan (spoil a len s) = plan s := by
  have h : plan ((s.mem.lines.filter fun e => decide (128 * e.1 < a + len) && decide (a < 128 * e.1 + 128)).foldl (fun s e =>
      match getLine s e.1 with
      | some l => setLine e.1 none (if l.dirty then hbmWr (128 * e.1) (lineBytes l) s else s)
      | none => s) s) = plan s := by
    refine plan_foldl (fun s e => ?_) _ s
    split
    · split <;> exact plan_same rfl rfl
    · rfl
  exact plan_then h rfl rfl

theorem plan_sliceAdd (n g hint : Nat) (fp : Bool) (a : Nat) (d : Bytes) (s : State) : plan (sliceAdd n g hint fp a d s) = plan s :=
  (plan_of_memOnly (slicePut_memOnly ..)).trans (plan_of_memOnly (sliceGet_memOnly ..))

theorem plan_retirePending (st : Nat) (s : State) : plan (retirePending st s) = plan s := by
  unfold retirePending
  split
  · rw [plan_postEvent, plan_memEvent, plan_updStack]
  · rfl

theorem plan_repairRow (st off : Nat) (s : State) : plan (repairRow st off s) = plan s := by
  unfold repairRow
  dsimp only
  split
  · rw [plan_postEvent, plan_queueRepair, plan_memEvent, plan_updStack]
  · exact plan_retirePending ..

theorem plan_correctedRead (a : Nat) (s : State) : plan (correctedRead a s) = plan s := by
  unfold correctedRead
  dsimp only
  split
  · rw [plan_repairRow, plan_updStack, plan_memEvent, plan_incStack]
  · rw [plan_updStack, plan_memEvent, plan_incStack]

theorem plan_damageImage (s : State) : plan (damageImage s) = plan s := by
  unfold damageImage
  dsimp only
  split
  · rfl
  · exact plan_same rfl rfl

theorem plan_lostLine (a : Nat) (s : State) : plan (lostLine a s) = plan s := by
  unfold lostLine
  extract_lets p line u ues v w x y n z z'
  have hv : plan v = plan s := (plan_updStack ..).trans ((plan_memEvent ..).trans (plan_incStack ..))
  have hw : plan w = plan v := by
    dsimp only [w]
    split
    · exact plan_retirePending ..
    · rfl
  have hx : plan x = plan s := (plan_repairRow ..).trans (hw.trans hv)
  have hy : plan y = plan x := plan_spoil ..
  have hz : plan z = plan y := plan_postEvent ..
  have hz' : plan z' = plan z := by
    dsimp only [z']
    split
    · exact plan_updStep ..
    · rfl
  clear_value w x y z z'
  split
  · exact (plan_postEvent ..).trans ((plan_damageImage ..).trans hx)
  · split
    · exact (plan_updStep ..).trans (hz'.trans (hz.trans (hy.trans hx)))
    · exact (plan_postEvent ..).trans (hy.trans hx)

theorem plan_noteCover (n g a : Nat) (c : Status) (s : State) : plan (noteCover n g a c s) = plan s :=
  (plan_foldl (fun _ _ => plan_noteDesc ..) _ _).trans (plan_updStep ..)

theorem plan_lostRead (n g a : Nat) (s : State) : plan (lostRead n g a s) = plan s := by
  unfold lostRead
  dsimp only
  split
  · exact (plan_noteCover ..).trans (plan_lostLine ..)
  · exact plan_lostLine ..

theorem plan_readError (n g a : Nat) (e : ReadErr) (s : State) : plan (readError n g a e s) = plan s := by
  cases e with
  | none => rfl
  | corrected => exact plan_correctedRead a s
  | cleanLine =>
    unfold readError
    dsimp only
    split
    · split
      · rfl
      · exact (plan_setLine ..).trans ((plan_memEvent ..).trans (plan_incStack ..))
    · rfl
  | rereadOk => exact (plan_noteCover ..).trans (plan_of_memOnly (charge_memOnly ..))
  | lost =>
    show plan (lostRead n g a (charge (place s a).1 n g 6 s)) = _
    rw [plan_lostRead]
    exact plan_of_memOnly (charge_memOnly ..)

theorem plan_adderVote (n g a : Nat) (r : AdderResult) (s : State) : plan (adderVote n g a r s) = plan s := by
  cases r with
  | agree => rfl
  | allDiffer => exact plan_lostRead n g a s
  | outvoted row =>
    unfold adderVote
    dsimp only
    split
    · exact plan_same rfl rfl
    · split
      · rw [plan_postEvent, plan_queueRepair, plan_memEvent, plan_updStack]; exact plan_same rfl rfl
      · rw [plan_postEvent, plan_queueRepair, plan_memEvent, plan_updStack]; exact plan_same rfl rfl

theorem plan_memServe (w : MemWait) (s : State) : plan (memServe w s) = plan s := by
  have hemit (o : Out) (t : State) : plan (emit o t) = plan t := plan_same rfl rfl
  unfold memServe
  dsimp only
  split
  · rw [hemit]
    exact (plan_of_memOnly (sliceGet_memOnly ..)).trans (plan_readError ..)
  · split
    · rw [hemit]
      exact plan_of_memOnly (slicePut_memOnly ..)
    · rw [hemit]
      exact (plan_adderVote ..).trans (plan_sliceAdd ..)

theorem plan_serveBefore (a len : Nat) (s : State) : plan (serveBefore a len s) = plan s := by
  unfold serveBefore
  split
  · rfl
  · exact (plan_foldl (fun _ _ => plan_memServe ..) _ _).trans (plan_same rfl rfl)

theorem plan_memPut (n g hint a : Nat) (d : Bytes) (s : State) : plan (memPut n g hint a d s) = plan s :=
  (plan_of_memOnly (slicePut_memOnly ..)).trans (plan_serveBefore ..)

/-! ## The end of a partition's work (R483) -/

theorem plan_of_wire {s t : State} (h : wire t = wire s) : plan t = plan s :=
  plan_same (of_wire State.parts (fun _ => rfl) h) (of_wire State.descs (fun _ => rfl) h)

theorem plan_setCore (c : Nat) (k : Core) (s : State) : plan (setCore c k s) = plan s := plan_same rfl rfl

theorem plan_updCore (c : Nat) (f : Core → Core) (s : State) : plan (updCore c f s) = plan s := plan_same rfl rfl

theorem plan_spoilAll (l : List (Nat × Nat × Nat)) (k : Core) (s : State) : plan (spoilAll l k s).2 = plan s := by
  induction l generalizing k s with
  | nil => rfl
  | cons r l ih => exact (ih _ _).trans (plan_same rfl rfl)

theorem plan_spoilMmas (c : Nat) (s : State) : plan (spoilMmas c s) = plan s := (plan_setCore ..).trans (plan_spoilAll ..)

theorem plan_detachCore (c : Nat) (s : State) : plan (detachCore c s) = plan s := plan_same rfl rfl

theorem plan_stopCore (st : CoreRun) (c : Nat) (s : State) : plan (stopCore st c s) = plan s := by
  unfold stopCore
  dsimp only
  split
  · rw [plan_updCore, plan_detachCore, plan_spoilMmas]
  · rfl

theorem plan_resetCore (c : Nat) (s : State) : plan (resetCore c s) = plan s := by
  unfold resetCore
  rw [plan_updCore, plan_detachCore, plan_spoilMmas]

theorem plan_stepLost (n : Nat) (st : Status) (s : State) : plan (stepLost n st s) = plan s := by
  unfold stepLost
  split
  · exact plan_postEvent ..
  · rfl

theorem plan_cutColls (n : Nat) (st : Status) (s : State) : plan (cutColls n st s) = plan s := by
  have hcut (d : Desc) (c : Coll) (t : State) : plan (cutColl n d c t) = plan t := by
    unfold cutColl collSpoil
    split
    · exact (plan_foldl (fun _ _ => plan_spoil ..) _ _).trans (plan_same rfl rfl)
    · exact plan_same rfl rfl
  have hrecord (d : Desc) (c : Coll) (t : State) : plan (collRecord n d c st 0xFFFF t) = plan t := plan_memPut ..
  refine plan_foldl (fun t c => ?_) _ s
  split
  · rfl
  · rw [hrecord]
    split
    · exact hcut ..
    · rfl
  · rfl

theorem plan_govStop (n : Nat) (s : State) : plan (govStop n s) = plan s := by
  have hlayer (i : Nat) (l : Layer) (t : State) : plan (layerStore n i l t) = plan t := by
    unfold layerStore
    dsimp only
    rw [plan_memPut, plan_memPut, plan_memPut, plan_memPut]
  unfold govStop layerStoreAll
  extract_lets u
  have hu : plan u = plan s := by
    refine plan_updPart (fun p => ?_) n s
    rfl
  clear_value u
  rw [plan_setReg, ← hu]
  refine plan_foldl (fun t e => ?_) _ u
  exact hlayer e.1 e.2 t

theorem plan_dropHeld (n : Nat) (s : State) : plan (dropHeld n s) = plan s := by
  refine plan_then (plan_foldl (f := fun s (h : HeldPkt) =>
    freeBuffer h.port h.pkt (incReg (bSlwDev + 8) (sendAck h.port h.pkt 1 s))) (fun t h => ?_) _ s) rfl rfl
  rw [plan_of_wire (wire_freeBuffer ..), plan_incReg, plan_of_wire (wire_sendAck ..)]

theorem plan_drainWaits (n : Nat) (s : State) : plan (drainWaits n s) = plan s := by
  refine (plan_foldl (fun t w => ?_) _ _).trans (plan_same rfl rfl)
  split
  · exact plan_of_wire (wire_sendVerdict ..)
  · rfl

theorem plan_spoilJobs (n : Nat) (s : State) : plan (spoilJobs n s) = plan s := by
  refine plan_foldl (fun t k => ?_) _ s
  split
  · exact plan_foldl (fun _ _ => plan_spoil ..) _ _
  · rfl

theorem plan_drainIngest (n : Nat) (s : State) : plan (drainIngest n s) = plan s := by
  unfold drainIngest
  extract_lets p runs spoilt quiet ended
  have hspoilt : plan spoilt = plan s := plan_spoilJobs n s
  have hended : plan ended = plan spoilt := by
    refine (plan_updPart (fun p => ?_) n quiet).trans (plan_same rfl rfl)
    rfl
  clear_value spoilt ended
  split
  · exact hended.trans hspoilt
  · exact (plan_setReg ..).trans (hended.trans hspoilt)

theorem plan_drainLoads (n : Nat) (s : State) : plan (drainLoads n s) = plan s := by
  have hcut (ids : List Nat) (t : State) (c : Nat) : plan (cutLoads ids t c) = plan t := by
    refine plan_foldl (fun t l => ?_) _ t
    dsimp only
    split
    · exact (plan_updCore ..).trans (plan_same rfl rfl)
    · exact plan_same rfl rfl
  exact plan_then ((plan_foldl (fun _ _ => plan_updCore ..) _ _).trans (plan_foldl (fun t c => hcut _ t c) _ s)) rfl rfl

theorem plan_rpcClear (n : Nat) (s : State) : plan (rpcClear n s) = plan s :=
  plan_then (plan_updPart (f := fun p => { p with rpc := {} }) (fun _ => rfl) n s) rfl rfl

theorem plan_poolFree (n : Nat) (s : State) : plan (poolFree n s) = plan s :=
  plan_updPart (f := fun p => { p with stash := { p.stash with poolFull := false } }) (fun _ => rfl) n s

theorem plan_stashReleaseAll (n : Nat) (s : State) : plan (stashReleaseAll n s) = plan s :=
  plan_updPart (f := fun p => { p with stash := { poolFull := p.stash.poolFull } }) (fun _ => rfl) n s

theorem plan_haltPart (n : Nat) (st : Status) (s : State) : plan (haltPart n st s) = plan s := by
  unfold haltPart
  extract_lets stopped untested cut freed quiet gone sync settled
  have hstop : plan stopped = plan s := (plan_foldl (fun _ _ => plan_stopCore ..) _ _).trans (plan_stepLost n st s)
  have htest : plan untested = plan stopped := by
    refine plan_foldl (fun t c => ?_) _ stopped
    split
    · exact plan_same rfl rfl
    · rfl
  have hcut : plan cut = plan untested := by
    show plan (cutColls n st (dropHeld n (drainWaits n (drainIngest n (drainLoads n untested))))) = _
    rw [plan_cutColls, plan_dropHeld, plan_drainWaits, plan_drainIngest, plan_drainLoads]
  have hfreed : plan freed = plan cut := by
    show plan (govStop n (rpcClear n (poolFree n (stashReleaseAll n cut)))) = _
    rw [plan_govStop, plan_rpcClear, plan_poolFree, plan_stashReleaseAll]
  clear_value freed
  have hquiet : plan settled = plan freed := plan_same rfl rfl
  have hall := hquiet.trans (hfreed.trans (hcut.trans (htest.trans hstop)))
  clear_value settled
  exact (plan_updPart (f := fun p => { p with step := none, colls := [], joins := [] }) (fun _ => rfl) n settled).trans hall

/-! ## Cores of a partition that ends (R159, R483) -/

/-- How every core stands. -/
@[irreducible] def runs (s : State) (c : Nat) : CoreRun := (getCore s c).run

theorem runs_of_cores {s t : State} (h : t.cores = s.cores) : runs t = runs s := by
  unfold runs getCore
  rw [h]

theorem runs_then {s t u : State} (h : runs t = runs s) (hc : u.cores = t.cores) : runs u = runs s := (runs_of_cores hc).trans h

theorem runs_apply (s : State) (c : Nat) : runs s c = (getCore s c).run := by
  unfold runs
  rfl

theorem runs_of_memRest {s t : State} (h : memRest t = memRest s) : runs t = runs s := runs_of_cores (of_memRest State.cores (fun _ => rfl) h)

theorem runs_foldl {α : Type} {f : State → α → State} (h : ∀ s x, runs (f s x) = runs s) (l : List α) (s : State) :
    runs (l.foldl f s) = runs s := by
  induction l generalizing s with
  | nil => rfl
  | cons x l ih => exact (ih (f s x)).trans (h s x)

theorem runs_updCore {f : Core → Core} (hf : ∀ k, (f k).run = k.run) (c : Nat) (s : State) : runs (updCore c f s) = runs s := by
  funext e
  rw [runs_apply, runs_apply, getCore_updCore]
  split
  next h => subst h; exact hf _
  next => rfl

theorem getCore_spoilMmas_ne {c e : Nat} (h : e ≠ c) (s : State) : getCore (spoilMmas c s) e = getCore s e := by
  unfold spoilMmas
  dsimp only
  rw [getCore_setCore, if_neg h, getCore, cores_spoilAll, getCore]

theorem getCore_detachCore (c e : Nat) (s : State) : getCore (detachCore c s) e = getCore s e := rfl

/-- A core that is stopped does not run, and no other one is touched. -/
theorem stopCore_runs (st : CoreRun) (c : Nat) (s : State) :
    (∀ e, e ≠ c → getCore (stopCore st c s) e = getCore s e) ∧ (st ≠ .running → runs (stopCore st c s) c ≠ .running) := by
  unfold stopCore
  dsimp only
  split
  · refine ⟨fun e he => ?_, fun hst => ?_⟩
    · rw [getCore_updCore, if_neg he, getCore_detachCore]
      exact getCore_spoilMmas_ne he s
    · rw [runs_apply, getCore_updCore, if_pos rfl]
      exact hst
  next h =>
    refine ⟨fun _ _ => rfl, fun _ hrun => h ?_⟩
    rw [runs_apply] at hrun
    rw [hrun]
    decide

theorem runs_drainWaits (n : Nat) (s : State) : runs (drainWaits n s) = runs s := by
  refine (runs_foldl (fun t w => ?_) _ _).trans (runs_of_cores rfl)
  split
  · exact runs_of_cores (of_wire State.cores (fun _ => rfl) (wire_sendVerdict ..))
  · rfl

theorem runs_drainIngest (n : Nat) (s : State) : runs (drainIngest n s) = runs s := by
  unfold drainIngest
  extract_lets p l spoilt quiet ended
  have hspoilt : runs spoilt = runs s := runs_of_memRest (memRest_spoilJobs n s)
  clear_value spoilt
  split <;> exact runs_then hspoilt rfl

theorem runs_drainLoads (n : Nat) (s : State) : runs (drainLoads n s) = runs s := by
  have hbank (k : Core) (l : Nat) (b : Bank) : (setBank k l b).run = k.run := by
    unfold setBank
    split <;> rfl
  have hcut (ids : List Nat) (t : State) (c : Nat) : runs (cutLoads ids t c) = runs t := by
    refine runs_foldl (fun t l => ?_) _ t
    dsimp only
    split
    · exact (runs_updCore (fun k => hbank k _ _) c _).trans (runs_of_cores rfl)
    · exact runs_of_cores rfl
  unfold drainLoads
  extract_lets mine ids cut freed
  have hone : runs cut = runs s := runs_foldl (fun t c => hcut _ t c) _ s
  have htwo : runs freed = runs cut := by
    refine runs_foldl (fun t c => runs_updCore (fun k => ?_) c t) _ cut
    rfl
  exact runs_then (htwo.trans hone) rfl

/-- A halted partition runs no core. -/
theorem runs_haltPart (n : Nat) (st : Status) (s : State) {c : Nat} (hc : c ∈ partCores s n) : runs (haltPart n st s) c ≠ .running := by
  unfold haltPart
  extract_lets stopped untested cut freed quiet gone sync settled
  have hstop : runs stopped c ≠ .running := by
    refine foldl_establishes (f := fun s c => stopCore .stopped c s) (P := fun t c => runs t c ≠ .running)
      (fun t c => (stopCore_runs .stopped c t).2 (by decide)) (fun t c e he => ?_) hc _
    by_cases hec : e = c
    · subst hec
      exact (stopCore_runs .stopped e t).2 (by decide)
    · rw [runs_apply, (stopCore_runs .stopped c t).1 e hec]
      rw [← runs_apply]
      exact he
  have htest : runs untested = runs stopped := by
    refine runs_foldl (fun t c => ?_) _ stopped
    split
    · exact runs_of_cores rfl
    · rfl
  have hcut : runs cut = runs untested := by
    show runs (cutColls n st (dropHeld n (drainWaits n (drainIngest n (drainLoads n untested))))) = _
    rw [runs_of_memRest (memRest_cutColls ..), runs_of_memRest (memRest_dropHeld ..), runs_drainWaits, runs_drainIngest, runs_drainLoads]
  have hfreed : runs freed = runs cut := by
    show runs (govStop n (rpcClear n (poolFree n (stashReleaseAll n cut)))) = _
    rw [runs_of_memRest (memRest_govStop ..)]
    refine runs_of_cores ((rpcClear_cores ..).trans ?_)
    unfold poolFree stashReleaseAll
    rw [updPart_cores, updPart_cores]
  clear_value freed
  have hall : runs settled = runs stopped := runs_then (hfreed.trans (hcut.trans htest)) rfl
  clear_value settled
  have hlast : runs (updPart n (fun p => { p with step := none, colls := [], joins := [] }) settled) = runs settled := runs_of_cores rfl
  rw [hlast, hall]
  exact hstop

/-! ## A drain begins (R482, R483) -/

/-- The partition that starts to drain, and what it leaves of the others. -/
theorem drainBegin_started {s : State} {n : Nat} (h : (getPart s n).st = .started) (st : Status) (isReset auto : Bool) :
    let t := drainBegin n st isReset auto s
    (getPart t n).st = .stopping ∧ (getPart t n).step = none ∧ (getPart t n).colls = [] ∧
    (getPart t n).drain = some { status := st, since := s.clock, reset := isReset, auto := auto } ∧
    (∀ m, m ≠ n → (getPart t m).shell = (getPart s m).shell) ∧
    (getPart t n).rbase = (getPart s n).rbase ∧ (getPart t n).rcount = (getPart s n).rcount ∧
    (∀ c ∈ partCores s n, runs t c ≠ .running) := by
  have hplan := plan_haltPart n st s
  have hrun : ∀ c ∈ partCores s n, runs (haltPart n st s) c ≠ .running := fun c hc => runs_haltPart n st s hc
  have hclock : (haltPart n st s).clock = s.clock := (of_back State.clock (fun _ => rfl) (back_haltPart n st s) :)
  have hstep : (getPart (haltPart n st s) n).step = none ∧ (getPart (haltPart n st s) n).colls = [] := by
    unfold haltPart
    dsimp only
    rw [getPart_updPart, if_pos rfl]
    exact ⟨rfl, rfl⟩
  have hone : drainBegin n st isReset auto s = endDescs n st (updPart n (fun p =>
      { p with st := .stopping, drain := some { status := st, since := (haltPart n st s).clock, reset := isReset, auto := auto } })
      (haltPart n st s)) := if_pos h
  rw [hone]
  generalize haltPart n st s = u at hplan hrun hclock hstep
  obtain ⟨-, -, hb, hc⟩ := shell_fields (shell_of_plan hplan n)
  have hn : getPart (endDescs n st (updPart n (fun p =>
      { p with st := .stopping, drain := some { status := st, since := u.clock, reset := isReset, auto := auto } }) u)) n =
      { getPart u n with st := .stopping, drain := some { status := st, since := u.clock, reset := isReset, auto := auto } } := by
    rw [getPart_endDescs, getPart_updPart, if_pos rfl]
  intro t
  have hnt : getPart t n = { getPart u n with st := .stopping, drain := some { status := st, since := u.clock, reset := isReset, auto := auto } } := hn
  rw [hnt]
  refine ⟨rfl, hstep.1, hstep.2, ?_, fun m hm => ?_, hb, hc, fun c hcm => ?_⟩
  · show some _ = _
    rw [hclock]
  · show (getPart (endDescs n st _) m).shell = _
    rw [getPart_endDescs, getPart_updPart, if_neg hm]
    exact shell_of_plan hplan m
  · have hcores : runs t = runs u := runs_of_cores rfl
    rw [hcores]
    exact hrun c hcm

end Sys2Proof.Machine
end

section
/-!
PROOFS. The resets that reach the host interface (O46): PERST#, a link loss, the FLR of a function, link training and L1.
-/
namespace Sys2Proof.Machine

theorem Tbl.get_filter {α : Type} (d : α) (p : Nat → Bool) (t : Tbl α) (k : Nat) :
    Tbl.get d (t.filter fun e => p e.1) k = if p k = true then Tbl.get d t k else d := by
  induction t with
  | nil => exact (ite_self d).symm
  | cons e t ih =>
    cases he : p e.1 with
    | true =>
      rw [List.filter_cons_of_pos (p := fun e : Nat × α => p e.1) he]
      by_cases hk : e.1 = k
      · subst hk
        rw [if_pos he, Tbl.get, Tbl.get, if_pos rfl, if_pos rfl]
      · rw [Tbl.get, if_neg hk, ih, Tbl.get, if_neg hk]
    | false =>
      rw [List.filter_cons_of_neg (p := fun e : Nat × α => p e.1) (by rw [he]; exact Bool.false_ne_true), ih]
      by_cases hk : e.1 = k
      · subst hk
        rw [if_neg (by rw [he]; exact Bool.false_ne_true), if_neg (by rw [he]; exact Bool.false_ne_true)]
      · rw [Tbl.get, if_neg hk]

theorem Tbl.get_absent {α : Type} (d : α) {t : Tbl α} {k : Nat} (h : k ∉ t.map Prod.fst) : Tbl.get d t k = d := by
  induction t with
  | nil => rfl
  | cons e t ih =>
    rw [List.map_cons, List.mem_cons, not_or] at h
    rw [Tbl.get, if_neg (Ne.symm h.1), ih h.2]

/-! ## A function's host-interface state is reset (R444) -/

/-- The state without rings, function state, registers and latches. -/
def hostless (s : State) : State := { s with rings := [], funcs := [], regs := [], latches := [] }

theorem of_hostless {α : Type} (f : State → α) (hf : ∀ s, f (hostless s) = f s) {s t : State} (h : hostless t = hostless s) : f t = f s := by
  rw [← hf t, h, hf]

theorem hostless_foldl {α : Type} {f : State → α → State} (h : ∀ s x, hostless (f s x) = hostless s) (l : List α) (s : State) :
    hostless (l.foldl f s) = hostless s := by
  induction l generalizing s with
  | nil => rfl
  | cons x l ih => exact (ih (f s x)).trans (h s x)

theorem hostless_resetFunc (fn : Nat) (s : State) : hostless (resetFunc fn s) = hostless s :=
  (show hostless (resetFunc fn s) = hostless (List.foldl (fun s r => resetRing r s) s _) from rfl).trans (hostless_foldl (f := fun s r => resetRing r s) (fun _ _ => rfl) _ s)

theorem ringOwner_congr {s t : State} (h : ∀ m, (getPart t m).rbase = (getPart s m).rbase ∧ (getPart t m).rcount = (getPart s m).rcount) (r : Nat) :
    ringOwner t r = ringOwner s r := by
  unfold ringOwner
  congr 2
  funext m
  rw [(h m).1, (h m).2]

theorem ringOwner_of_parts {s t : State} (h : t.parts = s.parts) (r : Nat) : ringOwner t r = ringOwner s r :=
  ringOwner_congr (fun m => by rw [getPart, getPart, h]; exact ⟨rfl, rfl⟩) r

/-- A ring as a reset leaves it. -/
def Ring.cleared (g : Ring) : Prop := ∃ n, g = { generation := n }

theorem getRing_resetRing (r q : Nat) (s : State) :
    getRing (resetRing r s) q = if q = r then { generation := (getRing s r).generation + 1 } else getRing s q := by
  rw [getRing, resetRing, Tbl.get_set]
  rfl

theorem rings_resetRings (l : List Nat) (s : State) :
    let t := l.foldl (fun s r => resetRing r s) s
    (∀ r ∈ l, (getRing t r).cleared) ∧ (∀ r, getRing t r = getRing s r ∨ (getRing t r).cleared) ∧ (∀ r ∉ l, getRing t r = getRing s r) := by
  refine ⟨fun r hr => ?_, fun r => ?_, fun r hr => ?_⟩
  · refine foldl_establishes (f := fun s r => resetRing r s) (P := fun t r => (getRing t r).cleared) (fun t q => ?_) (fun t q p h => ?_) hr s
    · rw [getRing_resetRing, if_pos rfl]
      exact ⟨_, rfl⟩
    · rw [getRing_resetRing]
      split
      · exact ⟨_, rfl⟩
      · exact h
  · induction l generalizing s with
    | nil => exact .inl rfl
    | cons q l ih =>
      rcases ih (resetRing q s) with h | h
      · rw [List.foldl_cons, h, getRing_resetRing]
        split
        · exact .inr ⟨_, rfl⟩
        · exact .inl rfl
      · exact .inr h
  · induction l generalizing s with
    | nil => rfl
    | cons q l ih =>
      rw [List.mem_cons, not_or] at hr
      rw [List.foldl_cons, ih _ hr.2, getRing_resetRing, if_neg hr.1]

/-- The rings of a function, its MSI-X table and its registers are as after a reset. -/
def OwnCleared (t : State) (fn : Nat) : Prop :=
  (∀ r, ringOwner t r = fn → (getRing t r).cleared) ∧ (t.funcs.get {} fn).msix = [] ∧ (t.funcs.get {} fn).pba = [] ∧
  ∀ k < 2 ^ 24, t.regs.get 0 (hif fn k) = 0

theorem rings_resetFunc (fn : Nat) (s : State) :
    (resetFunc fn s).rings = (((usedRings s).filter fun r => ringOwner s r == fn).foldl (fun s r => resetRing r s) s).rings := rfl

theorem regs_resetFold (l : List Nat) (s : State) : (l.foldl (fun s r => resetRing r s) s).regs = s.regs := by
  induction l generalizing s with
  | nil => rfl
  | cons r l ih => exact ih _

theorem funcs_resetFold (l : List Nat) (s : State) : (l.foldl (fun s r => resetRing r s) s).funcs = s.funcs := by
  induction l generalizing s with
  | nil => rfl
  | cons r l ih => exact ih _

theorem get_regs_resetFunc (fn k : Nat) (s : State) : (resetFunc fn s).regs.get 0 k =
    if (!(decide (hif fn 0 ≤ k) && decide (k < hif fn 0 + 2 ^ 24))) = true then s.regs.get 0 k else 0 := by
  have h := Tbl.get_filter (0 : Word) (fun k => !(decide (hif fn 0 ≤ k) && decide (k < hif fn 0 + 2 ^ 24))) s.regs k
  rw [← regs_resetFold ((usedRings s).filter fun r => ringOwner s r == fn) s] at h
  exact h.trans (by rw [regs_resetFold])

theorem get_funcs_resetFunc (fn m : Nat) (s : State) : (resetFunc fn s).funcs.get {} m =
    if m = fn then { s.funcs.get {} fn with msix := [], pba := [] } else s.funcs.get {} m := by
  have h : (resetFunc fn s).funcs = Tbl.upd {} s.funcs fn (fun f => { f with msix := [], pba := [] }) := by
    rw [← funcs_resetFold ((usedRings s).filter fun r => ringOwner s r == fn) s]
    rfl
  rw [h, Tbl.get_upd]

theorem parts_resetFunc (fn : Nat) (s : State) : (resetFunc fn s).parts = s.parts := of_hostless State.parts (fun _ => rfl) (hostless_resetFunc fn s)

theorem ownCleared_resetFunc (fn : Nat) (s : State) : OwnCleared (resetFunc fn s) fn := by
  refine ⟨fun r hr => ?_, ?_, ?_, fun k hk => ?_⟩
  · rw [ringOwner_of_parts (parts_resetFunc fn s)] at hr
    rw [getRing_eq (rings_resetFunc fn s)]
    by_cases hused : r ∈ usedRings s
    · exact (rings_resetRings _ s).1 r (List.mem_filter.2 ⟨hused, beq_iff_eq.2 hr⟩)
    · rw [(rings_resetRings _ s).2.2 r fun h => hused (List.mem_filter.1 h).1]
      exact ⟨0, (Tbl.get_absent {} hused : s.rings.get {} r = {})⟩
  · rw [get_funcs_resetFunc, if_pos rfl]
  · rw [get_funcs_resetFunc, if_pos rfl]
  · rw [get_regs_resetFunc, if_neg]
    rw [decide_eq_true (by unfold hif; omega), decide_eq_true (by unfold hif; omega)]
    exact Bool.false_ne_true

/-- What one function's reset clears stays cleared through another's. -/
theorem OwnCleared.resetFunc {t : State} {fn : Nat} (h : OwnCleared t fn) (m : Nat) : OwnCleared (resetFunc m t) fn := by
  obtain ⟨hring, hmsix, hpba, hreg⟩ := h
  refine ⟨fun r hr => ?_, ?_, ?_, fun k hk => ?_⟩
  · rw [ringOwner_of_parts (parts_resetFunc m t)] at hr
    rw [getRing_eq (rings_resetFunc m t)]
    rcases (rings_resetRings ((usedRings t).filter fun r => ringOwner t r == m) t).2.1 r with h | h
    · rw [h]
      exact hring r hr
    · exact h
  · rw [get_funcs_resetFunc]
    split
    · rfl
    · exact hmsix
  · rw [get_funcs_resetFunc]
    split
    · rfl
    · exact hpba
  · rw [get_regs_resetFunc]
    split
    · exact hreg k hk
    · rfl

theorem jseq_resetFunc (fn m : Nat) (s : State) : ((resetFunc fn s).funcs.get {} m).jseq = (s.funcs.get {} m).jseq := by
  rw [get_funcs_resetFunc]
  split
  next h => subst h; rfl
  next => rfl

/-! ## PERST# and a link loss -/

theorem resetEndpoint_eq (s : State) :
    resetEndpoint s = { (List.range 9).foldl (fun s fn => resetFunc fn s) s with link := {}, flrPf0 := none } := rfl

theorem resetEndpoint_clears (s : State) {fn : Nat} (h : fn ≤ 8) : OwnCleared (resetEndpoint s) fn := by
  have hfn : fn ∈ List.range 9 := List.mem_range.2 (by omega)
  have key : OwnCleared ((List.range 9).foldl (fun s fn => resetFunc fn s) s) fn :=
    foldl_establishes (fun t m => ownCleared_resetFunc m t) (fun _ m _ h => h.resetFunc m) hfn s
  rw [resetEndpoint_eq]
  generalize (List.range 9).foldl (fun s fn => resetFunc fn s) s = u at key
  exact key

theorem hostless_resetEndpoint (s : State) : hostless (resetEndpoint s) = { hostless s with link := {}, flrPf0 := none } := by
  have h : hostless ((List.range 9).foldl (fun s fn => resetFunc fn s) s) = hostless s := hostless_foldl (fun s fn => hostless_resetFunc fn s) _ s
  rw [resetEndpoint_eq, ← h]
  generalize (List.range 9).foldl (fun s fn => resetFunc fn s) s = u
  rfl

theorem jseq_resetEndpoint (s : State) (m : Nat) : ((resetEndpoint s).funcs.get {} m).jseq = (s.funcs.get {} m).jseq := by
  have key : ∀ (l : List Nat) (s : State), ((l.foldl (fun s fn => resetFunc fn s) s).funcs.get {} m).jseq = (s.funcs.get {} m).jseq := by
    intro l
    induction l with
    | nil => exact fun _ => rfl
    | cons fn l ih => exact fun s => (ih _).trans (jseq_resetFunc fn m s)
  have h := key (List.range 9) s
  rw [resetEndpoint_eq]
  generalize (List.range 9).foldl (fun s fn => resetFunc fn s) s = u at h
  exact h

/-- What a reset of a function's host-interface state leaves to show, in the order of the statement. -/
theorem ownReset_of {s t : State} {fn : Nat} (h : OwnCleared t fn) (hown : ∀ r, ringOwner t r = ringOwner s r)
    (hseq : (t.funcs.get {} fn).jseq = (s.funcs.get {} fn).jseq) :
    (∀ r, ringOwner s r = fn → ∃ g, getRing t r = { generation := g }) ∧ (t.funcs.get {} fn).msix = [] ∧ (t.funcs.get {} fn).pba = [] ∧
    (t.funcs.get {} fn).jseq = (s.funcs.get {} fn).jseq ∧ (∀ k < 2 ^ 24, k ≠ 4 → t.regs.get 0 (hif fn k) = 0) := by
  obtain ⟨hring, hmsix, hpba, hreg⟩ := h
  exact ⟨fun r hr => hring r ((hown r).trans hr), hmsix, hpba, hseq, fun k hk _ => hreg k hk⟩

/-- What PERST# and a link loss leave. -/
theorem endpointReset {s t : State} (h : hostless t = { hostless s with link := {}, flrPf0 := none })
    (hclear : ∀ fn ≤ 8, OwnCleared t fn) (hseq : ∀ m, (t.funcs.get {} m).jseq = (s.funcs.get {} m).jseq) :
    (∀ fn ≤ 8, (∀ r, ringOwner s r = fn → ∃ g, getRing t r = { generation := g }) ∧
      (t.funcs.get {} fn).msix = [] ∧ (t.funcs.get {} fn).pba = [] ∧
      (t.funcs.get {} fn).jseq = (s.funcs.get {} fn).jseq ∧ (∀ k < 2 ^ 24, k ≠ 4 → t.regs.get 0 (hif fn k) = 0)) ∧
    t.link = {} ∧ t.descs = s.descs ∧ t.parts = s.parts ∧ t.cores = s.cores ∧ t.mem = s.mem ∧ t.journal = s.journal ∧ t.syn = s.syn ∧
    t.fab = s.fab := by
  have hparts : t.parts = s.parts := (congrArg State.parts h :)
  exact ⟨fun fn hfn => ownReset_of (hclear fn hfn) (ringOwner_of_parts hparts) (hseq fn), (congrArg State.link h :),
    (congrArg State.descs h :), hparts, (congrArg State.cores h :), (congrArg State.mem h :), (congrArg State.journal h :),
    (congrArg State.syn h :), (congrArg State.fab h :)⟩

/-! ## A notice without a vector -/

theorem notice_unsignalled {s : State} {fn bit : Nat} (h : bitOf (regN s (hif fn 0x08)) bit = false) :
    notice fn bit s = orReg (hif fn 0x04) (BitVec.ofNat 32 (2 ^ bit)) s := by
  unfold notice
  dsimp only
  rw [h, Bool.and_false, if_neg Bool.false_ne_true]

/-- After its reset a function has no vector enabled for its notices. -/
theorem OwnCleared.no_vector {t : State} {fn : Nat} (h : OwnCleared t fn) (bit : Nat) : bitOf (regN t (hif fn 0x08)) bit = false := by
  obtain ⟨-, -, -, hreg⟩ := h
  have hreset : regReset (hif fn 0x08) = 0 := by
    unfold regReset
    rw [if_pos (by unfold hif; omega), if_neg (by unfold hif; omega)]
  have hzero : regN t (hif fn 0x08) = 0 := by
    unfold regN reg
    rw [hreg 8 (by decide), hreset]
    rfl
  rw [hzero]
  unfold bitOf
  rw [Nat.zero_div]
  rfl

/-- A notice after the reset sets its bit and nothing else that the reset cleared. -/
theorem ownReset_notice {s u : State} {fn : Nat} (h : OwnCleared u fn) (hown : ∀ r, ringOwner u r = ringOwner s r)
    (hseq : (u.funcs.get {} fn).jseq = (s.funcs.get {} fn).jseq) (bit : Nat) :
    let t := notice fn bit u
    (∀ r, ringOwner s r = fn → ∃ g, getRing t r = { generation := g }) ∧ (t.funcs.get {} fn).msix = [] ∧ (t.funcs.get {} fn).pba = [] ∧
    (t.funcs.get {} fn).jseq = (s.funcs.get {} fn).jseq ∧ (∀ k < 2 ^ 24, k ≠ 4 → t.regs.get 0 (hif fn k) = 0) := by
  obtain ⟨hring, hmsix, hpba, hreg⟩ := h
  dsimp only
  rw [notice_unsignalled (OwnCleared.no_vector ⟨hring, hmsix, hpba, hreg⟩ bit)]
  refine ⟨fun r hr => hring r ((hown r).trans hr), hmsix, hpba, hseq, fun k hk hne => ?_⟩
  show Tbl.get 0 (Tbl.set 0 u.regs (hif fn 4) _) (hif fn k) = 0
  rw [Tbl.get_set_ne _ _ _ (by unfold hif; omega)]
  exact hreg k hk

/-! ## A partition starts, and its reset completes (R481, R486) -/

theorem parts_spoilAll (l : List (Nat × Nat × Nat)) (k : Core) (s : State) : (spoilAll l k s).2.parts = s.parts := by
  induction l generalizing k s with
  | nil => rfl
  | cons r l ih => exact (ih _ _).trans (show (spoilRows r s k).2.parts = s.parts from rfl)

theorem parts_spoilMmas (c : Nat) (s : State) : (spoilMmas c s).parts = s.parts := (setCore_parts ..).trans (parts_spoilAll ..)

theorem parts_detachCore (c : Nat) (s : State) : (detachCore c s).parts = s.parts := rfl

theorem parts_resetCore (c : Nat) (s : State) : (resetCore c s).parts = s.parts := by
  unfold resetCore
  rw [updCore_parts, parts_detachCore, parts_spoilMmas]

theorem parts_foldl {α : Type} {f : State → α → State} (h : ∀ s x, (f s x).parts = s.parts) (l : List α) (s : State) :
    (l.foldl f s).parts = s.parts := by
  induction l generalizing s with
  | nil => rfl
  | cons x l ih => exact (ih (f s x)).trans (h s x)

theorem govRead_parts (n : Nat) (s : State) : (∀ m, m ≠ n → getPart (govRead n s) m = getPart s m) ∧
    ∃ g, getPart (govRead n s) n = { getPart s n with gov := g } := by
  unfold govRead
  extract_lets ent tab u
  have hu : (∀ m, m ≠ n → getPart u m = getPart s m) ∧ ∃ g, getPart u n = { getPart s n with gov := g } := by
    refine ⟨fun m hm => ?_, { (getPart s n).gov with table := tab }, ?_⟩
    · rw [show u = updGov n _ s from rfl, getPart_updGov, if_neg hm]
    · rw [show u = updGov n _ s from rfl, getPart_updGov, if_pos rfl]
  have hflag : getPart (govFlag n 8 u) = getPart u := rfl
  split
  · rw [hflag]
    exact hu
  · exact hu

theorem govStart_parts (n : Nat) (s : State) : (∀ m, m ≠ n → getPart (govStart n s) m = getPart s m) ∧
    ∃ g, getPart (govStart n s) n = { getPart s n with gov := g } := by
  obtain ⟨hother, g, hself⟩ := govRead_parts n (updGov n (fun _ => {}) s)
  unfold govStart
  refine ⟨fun m hm => ?_, { g with settings := g.table }, ?_⟩
  · rw [getPart_updGov, if_neg hm, hother m hm, getPart_updGov, if_neg hm]
  · rw [getPart_updGov, if_pos rfl, hself, getPart_updGov, if_pos rfl]

/-- A partition as its start leaves it, but for the region table and the governor's context. -/
def Part.begun (p : Part) (l : List Region) (g : Gov) : Part :=
  { p with st := .started, last := none, lastGate := 0, step := none, regions := l, stash := {}, rpc := {}, colls := [], joins := []
           collPast := [], serving := [], jobs := [], jobEnd := [], jobFailed := [], replays := 0, boundary := none, gov := g }

theorem parts_clearAtStart (n : Nat) (s : State) : (clearAtStart n s).parts = s.parts := by
  unfold clearAtStart
  exact (parts_foldl (fun t k => setReg_parts k 0 t) _ _).trans (setReg_parts ..)

theorem back_clearAtStart (n : Nat) (s : State) : back (clearAtStart n s) = back s := by
  unfold clearAtStart
  exact (back_foldl (fun t k => back_setReg (s := t) k 0) _ _).trans (back_setReg ..)

theorem startPartition_parts (n : Nat) (s : State) : (∀ m, m ≠ n → getPart (startPartition n s) m = getPart s m) ∧
    ∃ l g, getPart (startPartition n s) n = (getPart s n).begun l g := by
  unfold startPartition
  extract_lets cleared reset regions begun
  have hreset : reset.parts = s.parts := by
    refine parts_foldl (fun t c => ?_) _ cleared
    rw [updCore_parts, parts_resetCore]
  clear_value reset
  have hget (m : Nat) : getPart (clearAtStart n reset) m = getPart s m := by
    rw [getPart, parts_clearAtStart, hreset, getPart]
  obtain ⟨hother, g, hself⟩ := govStart_parts n begun
  refine ⟨fun m hm => ?_, regions, g, ?_⟩
  · rw [hother m hm, show begun = updPart n _ (clearAtStart n reset) from rfl, getPart_updPart, if_neg hm, hget]
  · rw [hself, show begun = updPart n _ (clearAtStart n reset) from rfl, getPart_updPart, if_pos rfl, hget]
    rfl

theorem back_startPartition (n : Nat) (s : State) : back (startPartition n s) = back s := by
  have hread (t : State) : back (govRead n t) = back t := by
    unfold govRead
    extract_lets ent tab u
    split
    · exact back_setReg ..
    · exact back_updPart ..
  have hgov (t : State) : back (govStart n t) = back t := (back_updPart ..).trans ((hread _).trans (back_updPart ..))
  unfold startPartition
  extract_lets cleared reset regions begun
  have hreset : back reset = back cleared := back_foldl (fun t c => (back_updCore ..).trans (back_resetCore c t)) _ cleared
  have hbegun : back begun = back reset := by
    clear_value reset
    exact (back_updPart ..).trans (back_clearAtStart n reset)
  clear_value begun
  exact (hgov begun).trans (hbegun.trans hreset)

/-- The owned cores as a partition reset leaves them. -/
def endedCores (n : Nat) (s : State) : State := (partCores s n).foldl (fun s c => clearBanks c (resetCore c s)) s

theorem partResetDone_eq (n : Nat) (s : State) : partResetDone n s =
    if bitOf (regN (endedCores n s) bPrt) (8 + n - 1) && (startCheck (endedCores n s) n).isNone then startPartition n (endedCores n s)
    else endedCores n s := rfl

theorem parts_endedCores (n : Nat) (s : State) : (endedCores n s).parts = s.parts :=
  parts_foldl (f := fun s c => clearBanks c (resetCore c s)) (fun t c => (updCore_parts ..).trans (parts_resetCore c t)) _ s

theorem back_partResetDone (n : Nat) (s : State) : back (partResetDone n s) = back s := by
  have hreset : back (endedCores n s) = back s := back_foldl (fun t c => (back_updCore ..).trans (back_resetCore c t)) _ s
  rw [partResetDone_eq]
  split
  · exact (back_startPartition n _).trans hreset
  · exact hreset

/-- A partition reset that completes leaves every partition its rings. -/
theorem partResetDone_rings (n m : Nat) (s : State) :
    (getPart (partResetDone n s) m).rbase = (getPart s m).rbase ∧ (getPart (partResetDone n s) m).rcount = (getPart s m).rcount := by
  have hreset : getPart (endedCores n s) m = getPart s m := by rw [getPart, parts_endedCores, getPart]
  rw [partResetDone_eq]
  split
  · obtain ⟨hother, l, g, hself⟩ := startPartition_parts n (endedCores n s)
    by_cases hm : m = n
    · subst hm
      rw [hself, hreset]
      exact ⟨rfl, rfl⟩
    · rw [hother m hm, hreset]
      exact ⟨rfl, rfl⟩
  · rw [hreset]
    exact ⟨rfl, rfl⟩

/-! ## The FLR of a function (R444) -/

theorem drainBegin_rings (n m : Nat) (st : Status) (isReset auto : Bool) (s : State) :
    (getPart (drainBegin n st isReset auto s) m).rbase = (getPart s m).rbase ∧
    (getPart (drainBegin n st isReset auto s) m).rcount = (getPart s m).rcount := by
  unfold drainBegin
  split
  next h =>
    have hhalt := shell_of_plan (plan_haltPart n st s) m
    obtain ⟨-, -, hb, hc⟩ := shell_fields hhalt
    dsimp only
    generalize haltPart n st s = u at hb hc
    rw [getPart_endDescs, getPart_updPart]
    split
    next h => subst h; exact ⟨hb, hc⟩
    next => exact ⟨hb, hc⟩
  next =>
    split
    · rw [getPart_endDescs, getPart_updPart]
      split
      next h => subst h; exact ⟨rfl, rfl⟩
      next => exact ⟨rfl, rfl⟩
    · exact ⟨rfl, rfl⟩

/-- The partition reset that the FLR of VFn is. -/
def flrEnded (n : Nat) (s : State) : State :=
  match (getPart s n).st with
  | .free => s
  | .configured => partResetDone n s
  | _ => drainBegin n .partReset true false s

theorem flrEnded_free {s : State} {n : Nat} (h : (getPart s n).st = .free) : flrEnded n s = s := by
  unfold flrEnded
  rw [h]

theorem flrEnded_started {s : State} {n : Nat} (h : (getPart s n).st = .started) : flrEnded n s = drainBegin n .partReset true false s := by
  unfold flrEnded
  rw [h]

theorem back_flrEnded (n : Nat) (s : State) : back (flrEnded n s) = back s := by
  unfold flrEnded
  split
  · rfl
  · exact back_partResetDone n s
  · exact back_drainBegin ..

theorem flrEnded_rings (n m : Nat) (s : State) :
    (getPart (flrEnded n s) m).rbase = (getPart s m).rbase ∧ (getPart (flrEnded n s) m).rcount = (getPart s m).rcount := by
  unfold flrEnded
  split
  · exact ⟨rfl, rfl⟩
  · exact partResetDone_rings n m s
  · exact drainBegin_rings n m _ _ _ s

/-- After a partition reset no descriptor of the function is live, but for its STOP_PARTITIONs. -/
theorem endDescs_dead {s : State} {n : Nat} {st : Status} {d : Desc} (hd : d ∈ (endDescs n st s).descs) (hfn : d.fn = n) (hop : d.opcode ≠ 0x3A) :
    d.live = false := by
  obtain ⟨e, -, he⟩ := List.mem_map.1 hd
  split at he
  · subst he
    rfl
  next h =>
    subst he
    have hfn' : decide (e.fn = n) = true := decide_eq_true hfn
    have hop' : (e.opcode != 0x3A) = true := bne_iff_ne.2 hop
    rw [hfn', hop', Bool.true_and, Bool.true_and, Bool.or_eq_true, not_or] at h
    exact Bool.eq_false_iff.2 h.1

theorem exec_flrVf {s : State} {n : Nat} (hopen : barOpen s = true) (hn : n ∈ partNums) :
    exec (.flrVf n) s = .next (notice n 1 (resetFunc n (endDescs n .partReset (flrEnded n s)))) := by
  have hgo : (barOpen s && partNums.contains n) = true := by
    rw [hopen, List.contains_iff_mem.2 hn]
    rfl
  exact if_pos hgo

theorem exec_flrPf0 {s : State} (hopen : barOpen s = true) : exec .flrPf0 s = .next (flrPf0Ends { s with flrPf0 := s.flrPf0 <|> some s.clock }) :=
  if_pos hopen

theorem any_pf0 {s : State} : (s.descs.any fun d => d.fn == 0) = true ↔ ∃ d ∈ s.descs, d.fn = 0 := by
  rw [List.any_eq_true]
  exact exists_congr fun d => and_congr_right fun _ => beq_iff_eq

/-- An FLR of PF0 with no descriptor of PF0 in flight resets its part at once. -/
theorem flrPf0Ends_none {s : State} (h : ∀ d ∈ s.descs, d.fn ≠ 0) (hwait : s.flrPf0.isSome = true) :
    flrPf0Ends s = resetFunc 0 { s with flrPf0 := none } := by
  have hnone : (s.descs.any fun d => d.fn == 0) = false := Bool.eq_false_iff.2 fun ha => by
    obtain ⟨d, hd, hfn⟩ := any_pf0.1 ha
    exact h d hd hfn
  unfold flrPf0Ends
  rw [hwait, hnone]
  rfl

theorem flrPf0Ends_waits {s : State} (h : ∃ d ∈ s.descs, d.fn = 0) : flrPf0Ends s = s := by
  unfold flrPf0Ends
  rw [any_pf0.2 h, Bool.not_true, Bool.and_false, if_neg Bool.false_ne_true]

/-- PF0's descriptors after the 100 ms of its reset. -/
def pf0Ended (dt : Nat) (s : State) : State :=
  { pass dt s with
    flrPf0 := none, descs := s.descs.map fun d => if d.fn = 0 ∧ d.live = true then { d with phase := .done .partReset } else d }

theorem exec_pf0FlrTimeout {s : State} {dt t0 : Nat} (ht : s.flrPf0 = some t0) (hlate : t0 + 100000000 ≤ s.clock + dt) :
    exec (.pf0FlrTimeout dt) s = .next (resetFunc 0 (pf0Ended dt s)) := by
  have hmark : ((pass dt s).descs.map fun d => if d.fn = 0 && d.live then { d with phase := .done .partReset } else d) =
      s.descs.map fun d => if d.fn = 0 ∧ d.live = true then { d with phase := .done .partReset } else d := by
    refine List.map_congr_left fun d _ => if_congr ?_ rfl rfl
    rw [Bool.and_eq_true, decide_eq_true_eq]
  show execPf0FlrTimeout dt s = _
  unfold execPf0FlrTimeout pf0Ended
  rw [ht, ← hmark]
  exact if_pos hlate

/-- A reset of a function's part on a state that has its rings and numbers. -/
theorem ownReset_resetFunc {s u : State} (hparts : u.parts = s.parts) (hfuncs : u.funcs = s.funcs) (fn : Nat) :
    (∀ r, ringOwner s r = fn → ∃ g, getRing (resetFunc fn u) r = { generation := g }) ∧ ((resetFunc fn u).funcs.get {} fn).msix = [] ∧
    ((resetFunc fn u).funcs.get {} fn).pba = [] ∧ ((resetFunc fn u).funcs.get {} fn).jseq = (s.funcs.get {} fn).jseq ∧
    (∀ k < 2 ^ 24, k ≠ 4 → (resetFunc fn u).regs.get 0 (hif fn k) = 0) :=
  ownReset_of (ownCleared_resetFunc fn u) (fun r => (ringOwner_of_parts (parts_resetFunc fn u) r).trans (ringOwner_of_parts hparts r))
    (by rw [jseq_resetFunc, hfuncs])

/-- Settles O46, with what a reset of one function's part clears and keeps, and the partition reset that the FLR of VFn is. -/
theorem hostResets : Obligations.HostResets := by
  unfold Obligations.HostResets
  intro ownReset all
  have hall (s t : State) (h : hostless t = { hostless s with link := {}, flrPf0 := none }) (hclear : ∀ fn ≤ 8, OwnCleared t fn)
      (hseq : ∀ m, (t.funcs.get {} m).jseq = (s.funcs.get {} m).jseq) : all s t := endpointReset h hclear hseq
  refine ⟨fun s => ?perst, fun s => ?link, fun s n hopen hn => ?vf, fun s hopen => ⟨fun hnone => ?pf0, fun hsome hnew => ?waits⟩,
    fun s dt t0 ht hlate => ?late, fun s dt hl1 hidle => ?l1, fun s rate width flit hopen href h1 h7 h1w h3 hmode => ?train⟩
  case perst =>
    have h := hostless_resetEndpoint { s with brd := { s.brd with perstN := false } }
    refine ⟨resetEndpoint { s with brd := { s.brd with perstN := false } }, rfl, ?_⟩
    have hclear := fun fn hfn => resetEndpoint_clears { s with brd := { s.brd with perstN := false } } (fn := fn) hfn
    have hseq := jseq_resetEndpoint { s with brd := { s.brd with perstN := false } }
    generalize resetEndpoint { s with brd := { s.brd with perstN := false } } = t at h hclear hseq
    exact ⟨endpointReset (s := { s with brd := { s.brd with perstN := false } }) h hclear hseq, (congrArg State.brd h :)⟩
  case link =>
    have h := hostless_resetEndpoint s
    refine ⟨resetEndpoint s, rfl, ?_⟩
    have hclear := fun fn hfn => resetEndpoint_clears s (fn := fn) hfn
    have hseq := jseq_resetEndpoint s
    generalize resetEndpoint s = t at h hclear hseq
    exact ⟨hall s t h hclear hseq, (congrArg State.brd h :)⟩
  case vf =>
    refine ⟨_, exec_flrVf hopen hn, ?_⟩
    have hown (r : Nat) := ringOwner_congr (fun m => flrEnded_rings n m s) r
    have hfuncs : (flrEnded n s).funcs = s.funcs := of_back State.funcs (fun _ => rfl) (back_flrEnded n s)
    have hless := hostless_resetFunc n (endDescs n .partReset (flrEnded n s))
    have hparts : (resetFunc n (endDescs n .partReset (flrEnded n s))).parts = (flrEnded n s).parts := (congrArg State.parts hless :)
    have hdescs : (resetFunc n (endDescs n .partReset (flrEnded n s))).descs = (endDescs n .partReset (flrEnded n s)).descs :=
      (congrArg State.descs hless :)
    have hcores : (resetFunc n (endDescs n .partReset (flrEnded n s))).cores = (flrEnded n s).cores := (congrArg State.cores hless :)
    have hmem : (resetFunc n (endDescs n .partReset (flrEnded n s))).mem = (flrEnded n s).mem := (congrArg State.mem hless :)
    have hclear := ownCleared_resetFunc n (endDescs n .partReset (flrEnded n s))
    have hseq : ((resetFunc n (endDescs n .partReset (flrEnded n s))).funcs.get {} n).jseq = (s.funcs.get {} n).jseq :=
      (jseq_resetFunc ..).trans (by rw [show (endDescs n .partReset (flrEnded n s)).funcs = s.funcs from hfuncs])
    generalize resetFunc n (endDescs n .partReset (flrEnded n s)) = u at hparts hdescs hcores hmem hclear hseq
    refine ⟨ownReset_notice hclear (fun r => (ringOwner_of_parts hparts r).trans (hown r)) hseq 1, bitOf_notice n (by decide) u,
      fun d hd hfn hop => ?_, fun hfree => ?_, fun hstart => ?_⟩
    · rw [notice_descs, hdescs] at hd
      exact endDescs_dead hd hfn hop
    · rw [flrEnded_free hfree] at hparts hcores hmem
      exact ⟨(notice_parts ..).trans hparts, (notice_cores ..).trans hcores, (notice_mem ..).trans hmem⟩
    · obtain ⟨hst, hstep, -, hdrain, hothers, -, -, hrun⟩ := drainBegin_started hstart .partReset true false
      rw [flrEnded_started hstart] at hparts hcores
      have hget (m : Nat) : getPart (notice n 1 u) m = getPart (drainBegin n .partReset true false s) m := by
        rw [getPart, notice_parts, hparts, getPart]
      have hcore (c : Nat) : (getCore (notice n 1 u) c).run = runs (drainBegin n .partReset true false s) c := by
        rw [runs_apply, getCore, notice_cores, hcores, getCore]
      rw [hget]
      refine ⟨hst, hstep, hdrain, fun c hc => ?_, fun m hm => ?_⟩
      · rw [hcore]
        exact hrun c hc
      · rw [hget]
        exact (shell_fields (hothers m hm)).1
  case pf0 =>
    have hwait : ({ s with flrPf0 := s.flrPf0 <|> some s.clock } : State).flrPf0.isSome = true := by
      show (s.flrPf0 <|> some s.clock).isSome = true
      cases s.flrPf0 <;> rfl
    refine ⟨resetFunc 0 { s with flrPf0 := none }, ?_, ?_⟩
    · rw [exec_flrPf0 hopen]
      exact congrArg Host.Outcome.next (flrPf0Ends_none (s := { s with flrPf0 := s.flrPf0 <|> some s.clock }) hnone hwait)
    have hless := hostless_resetFunc 0 { s with flrPf0 := none }
    have hclear := ownCleared_resetFunc 0 { s with flrPf0 := none }
    have hown : ownReset s (resetFunc 0 { s with flrPf0 := none }) 0 := ownReset_resetFunc (u := { s with flrPf0 := none }) rfl rfl 0
    generalize resetFunc 0 { s with flrPf0 := none } = t at hless hclear hown
    obtain ⟨-, -, -, hreg⟩ := hclear
    exact ⟨hown, (congrArg State.flrPf0 hless :), hreg, (congrArg State.parts hless :), (congrArg State.descs hless :), (congrArg State.cores hless :)⟩
  case waits =>
    have hwait := flrPf0Ends_waits (s := { s with flrPf0 := s.flrPf0 <|> some s.clock }) hsome
    rw [exec_flrPf0 hopen, hwait, hnew]
    rfl
  case late =>
    refine ⟨resetFunc 0 (pf0Ended dt s), exec_pf0FlrTimeout ht hlate, ?_⟩
    have hless := hostless_resetFunc 0 (pf0Ended dt s)
    have hown : ownReset s (resetFunc 0 (pf0Ended dt s)) 0 := ownReset_resetFunc (u := pf0Ended dt s) rfl rfl 0
    generalize resetFunc 0 (pf0Ended dt s) = t at hless hown
    exact ⟨hown, (congrArg State.flrPf0 hless :), (congrArg State.parts hless :), (congrArg State.cores hless :), (congrArg State.descs hless :)⟩
  case l1 =>
    have hgo : (!s.link.l1 && (s.fer.power == .deep || (s.descs.isEmpty && decide (s.link.lastAccess + 100000 ≤ (pass dt s).clock)))) = true := by
      rw [hl1, Bool.not_false, Bool.true_and, Bool.or_eq_true]
      rcases hidle with hdeep | ⟨hnone, hlong⟩
      · exact .inl (beq_iff_eq.2 hdeep)
      · right
        rw [hnone]
        exact decide_eq_true hlong
    exact if_pos hgo
  case train =>
    have hgo : (s.rst.isNone && !s.sec.held && s.fer.power != .standby && s.brd.refclk && decide (1 ≤ rate) && decide (rate ≤ 7) &&
        decide (1 ≤ width) && decide (width ≤ 3) && (flit || decide (rate ≤ 5))) = true := by
      rw [show (s.rst.isNone && !s.sec.held && s.fer.power != .standby) = true from hopen, href, decide_eq_true h1, decide_eq_true h7,
        decide_eq_true h1w, decide_eq_true h3, Bool.true_and, Bool.true_and, Bool.true_and, Bool.true_and, Bool.true_and, Bool.true_and,
        Bool.or_eq_true, decide_eq_true_eq]
      exact hmode
    exact if_pos hgo

end Sys2Proof.Machine
end

section
/-!
PROOFS. CONFIG_PARTITION, START_PARTITION, STOP_PARTITION and the end of a drain (O49).
-/
namespace Sys2Proof.Machine

/-! ## Cores reset one after the other -/

/-- The state without cores, free values, the fabric and what the sync units hold of cores' requests. -/
def offCores (s : State) : State :=
  { s with cores := [], free := 0, fab := {}, syn := { s.syn with signals := [], requests := [], waiters := [], busy := [], remotes := [] } }

theorem of_offCores {α : Type} (f : State → α) (hf : ∀ s, f (offCores s) = f s) {s t : State} (h : offCores t = offCores s) : f t = f s := by
  rw [← hf t, h, hf]

theorem offCores_foldl {α : Type} {f : State → α → State} (h : ∀ s x, offCores (f s x) = offCores s) (l : List α) (s : State) :
    offCores (l.foldl f s) = offCores s := by
  induction l generalizing s with
  | nil => rfl
  | cons x l ih => exact (ih (f s x)).trans (h s x)

theorem offCores_spoilAll (l : List (Nat × Nat × Nat)) (k : Core) (s : State) : offCores (spoilAll l k s).2 = offCores s := by
  induction l generalizing k s with
  | nil => rfl
  | cons r l ih => exact (ih _ _).trans (show offCores (spoilRows r s k).2 = offCores s from rfl)

theorem offCores_updCore (c : Nat) (f : Core → Core) (s : State) : offCores (updCore c f s) = offCores s := rfl

theorem offCores_spoilMmas (c : Nat) (s : State) : offCores (spoilMmas c s) = offCores s := offCores_spoilAll ..

theorem offCores_detachCore (c : Nat) (s : State) : offCores (detachCore c s) = offCores s := rfl

theorem offCores_resetCore (c : Nat) (s : State) : offCores (resetCore c s) = offCores s := by
  unfold resetCore
  rw [offCores_updCore, offCores_detachCore, offCores_spoilMmas]

theorem getCore_spoilMmas_self (c : Nat) (s : State) : ∃ acc, getCore (spoilMmas c s) c = { getCore s c with acc := acc } := by
  unfold spoilMmas
  dsimp only
  rw [getCore_setCore, if_pos rfl]
  exact spoilAll_core ..

/-- A core as its reset leaves it, but for its accumulators. -/
theorem getCore_resetCore_self (c : Nat) (s : State) : ∃ acc, getCore (resetCore c s) c = { getCore s c with
    run := .idle, stall := .none, halting := false, openEntry := false, pc := 0, sregs := [], locked := [], loops := [], streams := []
    queues := [], cur := [], counts := [], votes := [], fault := 0, faultPc := 0, faultInfo := 0, sigsOut := [], flowsUsed := [], codes := []
    acc := acc } := by
  obtain ⟨acc, hacc⟩ := getCore_spoilMmas_self c s
  unfold resetCore
  rw [getCore_updCore, if_pos rfl, getCore_detachCore, hacc]
  exact ⟨acc, rfl⟩

theorem getCore_resetCore_ne {c e : Nat} (h : e ≠ c) (s : State) : getCore (resetCore c s) e = getCore s e := by
  unfold resetCore
  rw [getCore_updCore, if_neg h, getCore_detachCore, getCore_spoilMmas_ne h]

/-- What every step of a fold over cores keeps of each core, the fold keeps. -/
theorem getCore_foldl_keeps {β : Type} {part : Core → β} {f : State → Nat → State}
    (h : ∀ s c e, part (getCore (f s c) e) = part (getCore s e)) (l : List Nat) (s : State) (e : Nat) :
    part (getCore (l.foldl f s) e) = part (getCore s e) := by
  induction l generalizing s with
  | nil => rfl
  | cons c l ih => exact (ih (f s c)).trans (h s c e)

/-- A fold over cores leaves those that it does not name. -/
theorem getCore_foldl_ne {f : State → Nat → State} (h : ∀ s c e, e ≠ c → getCore (f s c) e = getCore s e) {l : List Nat} {e : Nat}
    (he : e ∉ l) (s : State) : getCore (l.foldl f s) e = getCore s e := by
  induction l generalizing s with
  | nil => rfl
  | cons c l ih =>
    rw [List.mem_cons, not_or] at he
    exact (ih he.2 (f s c)).trans (h s c e he.1)

/-- The cores of a partition that starts. -/
def startedCores (n : Nat) (s : State) : State :=
  (partCores s n).foldl (fun s c => updCore c (fun k => { k with chk0 := 0, chk1 := 0, sramCe := 0 }) (resetCore c s)) s

theorem offCores_startedCores (n : Nat) (s : State) : offCores (startedCores n s) = offCores s :=
  offCores_foldl (fun t c => (offCores_updCore ..).trans (offCores_resetCore c t)) _ s

/-- A core at the start of its partition (R481). -/
def Core.atStart (k : Core) : Prop := k.run = .idle ∧ k.sregs = [] ∧ k.counts = [] ∧ k.chk0 = 0 ∧ k.chk1 = 0

theorem startedCores_start {s : State} {n c : Nat} (hc : c ∈ partCores s n) : (getCore (startedCores n s) c).atStart := by
  refine foldl_establishes (P := fun t c => (getCore t c).atStart) (fun t c => ?_) (fun t c e he => ?_) hc s
  · obtain ⟨acc, hacc⟩ := getCore_resetCore_self c t
    rw [getCore_updCore, if_pos rfl, hacc]
    exact ⟨rfl, rfl, rfl, rfl, rfl⟩
  · by_cases hec : e = c
    · subst hec
      obtain ⟨acc, hacc⟩ := getCore_resetCore_self e t
      rw [getCore_updCore, if_pos rfl, hacc]
      exact ⟨rfl, rfl, rfl, rfl, rfl⟩
    · rw [getCore_updCore, if_neg hec, getCore_resetCore_ne hec]
      exact he

theorem sram_resetCore (c e : Nat) (s : State) : (getCore (resetCore c s) e).sram = (getCore s e).sram := by
  by_cases hec : e = c
  · subst hec
    obtain ⟨acc, hacc⟩ := getCore_resetCore_self e s
    rw [hacc]
  · rw [getCore_resetCore_ne hec]

theorem startedCores_sram (n c : Nat) (s : State) : (getCore (startedCores n s) c).sram = (getCore s c).sram := by
  refine getCore_foldl_keeps (part := Core.sram) (fun t c e => ?_) _ s c
  rw [getCore_updCore]
  split
  next h => subst h; exact sram_resetCore e e t
  next => exact sram_resetCore c e t

theorem offCores_endedCores (n : Nat) (s : State) : offCores (endedCores n s) = offCores s :=
  offCores_foldl (fun t c => (offCores_updCore ..).trans (offCores_resetCore c t)) _ s

/-- A core that a partition reset has reached (R486). -/
def Core.atReset (k : Core) : Prop := k.run = .idle ∧ k.bank0.valid = false ∧ k.bank1.valid = false

theorem endedCores_reset {s : State} {n c : Nat} (hc : c ∈ partCores s n) : (getCore (endedCores n s) c).atReset := by
  refine foldl_establishes (P := fun t c => (getCore t c).atReset) (fun t c => ?_) (fun t c e he => ?_) hc s
  · obtain ⟨acc, hacc⟩ := getCore_resetCore_self c t
    rw [clearBanks, getCore_updCore, if_pos rfl, hacc]
    exact ⟨rfl, rfl, rfl⟩
  · by_cases hec : e = c
    · subst hec
      obtain ⟨acc, hacc⟩ := getCore_resetCore_self e t
      rw [clearBanks, getCore_updCore, if_pos rfl, hacc]
      exact ⟨rfl, rfl, rfl⟩
    · rw [clearBanks, getCore_updCore, if_neg hec, getCore_resetCore_ne hec]
      exact he

/-! ## A start (R481) -/

theorem govStart_frame (n : Nat) (s : State) : ∃ p r, govStart n s = { s with parts := p, regs := r } := by
  have hread (t : State) : ∃ p r, govRead n t = { t with parts := p, regs := r } := by
    unfold govRead
    extract_lets ent tab u
    split
    · exact ⟨_, _, rfl⟩
    · exact ⟨_, _, rfl⟩
  obtain ⟨p, r, h⟩ := hread (updGov n (fun _ => {}) s)
  unfold govStart
  rw [h]
  exact ⟨_, _, rfl⟩

theorem clearAtStart_frame (n : Nat) (s : State) : ∃ r, clearAtStart n s = { s with regs := r } := by
  have hset (l : List Nat) (t : State) : ∃ r, l.foldl (fun s k => setReg k 0 s) t = { t with regs := r } := by
    induction l generalizing t with
    | nil => exact ⟨_, rfl⟩
    | cons k l ih =>
      obtain ⟨r, hr⟩ := ih (setReg k 0 t)
      exact ⟨r, hr⟩
  unfold clearAtStart
  obtain ⟨r, hr⟩ := hset [ctx bSynCtx n 8, ctx bSynCtx n 0xC, ctx bGzlCtx n 4, ctx bCollCtx n 0x24, ctx bIngCtx n 4]
    (setReg (ctx bSynCtx n 4) (BitVec.ofNat 32 (setBits (regN s (ctx bSynCtx n 4)) 0 16 0)) s)
  exact ⟨r, hr⟩

/-- Partitions and registers aside, a start clears the counters and resets the cores. -/
theorem startPartition_frame (n : Nat) (s : State) :
    ∃ p r, startPartition n s = { startedCores n (clearCounters n s) with parts := p, regs := r } := by
  obtain ⟨r, hr⟩ := clearAtStart_frame n (startedCores n (clearCounters n s))
  have hone (f : Part → Part) (t : State) : ∃ p r, govStart n (updPart n f t) = { t with parts := p, regs := r } := by
    obtain ⟨p, r, h⟩ := govStart_frame n (updPart n f t)
    exact ⟨p, r, h⟩
  obtain ⟨p, r', hp⟩ := hone _ (clearAtStart n (startedCores n (clearCounters n s)))
  refine ⟨p, r', hp.trans ?_⟩
  rw [hr]

/-- A counter of the partition's range reads zero after `clearCounters`, any other as before (R338). -/
theorem get_clearCounters (n i : Nat) (s : State) : (clearCounters n s).syn.counters.get 0 i =
    if (getPart s n).pbase ≤ i ∧ i < (getPart s n).pbase + (getPart s n).pcount then 0 else s.syn.counters.get 0 i := by
  have h := Tbl.get_filter (0 : DWord) (fun c => !(decide ((getPart s n).pbase ≤ c) && decide (c < (getPart s n).pbase + (getPart s n).pcount)))
    s.syn.counters i
  refine (show (clearCounters n s).syn.counters.get 0 i = _ from h).trans ?_
  rw [← ite_not]
  refine if_congr ?_ rfl rfl
  rw [Bool.not_eq_true', Bool.and_eq_false_iff, decide_eq_false_iff_not, decide_eq_false_iff_not, not_or, not_not, not_not]

/-- A START_PARTITION that passes its checks: the partition, its counters and its cores. -/
theorem startPartition_does (n : Nat) (s : State) :
    let t := startPartition n s
    (∀ m, m ≠ n → getPart t m = getPart s m) ∧ (∃ l g, getPart t n = (getPart s n).begun l g) ∧ t.descs = s.descs ∧
    (∀ i, t.syn.counters.get 0 i =
      if (getPart s n).pbase ≤ i ∧ i < (getPart s n).pbase + (getPart s n).pcount then 0 else s.syn.counters.get 0 i) ∧
    (∀ c ∈ partCores s n, (getCore t c).atStart ∧ (getCore t c).sram = (getCore s c).sram) := by
  obtain ⟨hother, l, g, hself⟩ := startPartition_parts n s
  obtain ⟨p, r, hframe⟩ := startPartition_frame n s
  have hoff := offCores_startedCores n (clearCounters n s)
  have hdescs : (startedCores n (clearCounters n s)).descs = s.descs := (of_offCores State.descs (fun _ => rfl) hoff :)
  have hcounters : (startedCores n (clearCounters n s)).syn.counters = (clearCounters n s).syn.counters :=
    of_offCores (fun u => u.syn.counters) (fun _ => rfl) hoff
  have hstart : ∀ c ∈ partCores s n, (getCore (startedCores n (clearCounters n s)) c).atStart ∧
      (getCore (startedCores n (clearCounters n s)) c).sram = (getCore s c).sram :=
    fun c hc => ⟨startedCores_start (s := clearCounters n s) hc, startedCores_sram n c (clearCounters n s)⟩
  refine ⟨hother, ⟨l, g, hself⟩, ?_, fun i => ?_, fun c hc => ?_⟩
  · rw [hframe]
    exact hdescs
  · rw [hframe, ← get_clearCounters]
    exact congrArg (Tbl.get 0 · i) hcounters
  · rw [hframe]
    exact hstart c hc

/-! ## A configuration (R479, R480) -/

theorem mem_insertNat {a b : Nat} {l : List Nat} : b ∈ insertNat a l ↔ b = a ∨ b ∈ l := by
  induction l with
  | nil => exact List.mem_cons
  | cons c l ih =>
    unfold insertNat
    split
    · exact List.mem_cons
    · rw [List.mem_cons, ih, List.mem_cons]
      exact or_left_comm

theorem mem_sortNat {b : Nat} {l : List Nat} : b ∈ sortNat l ↔ b ∈ l := by
  induction l with
  | nil => exact Iff.rfl
  | cons a l ih => rw [sortNat, List.foldr_cons, mem_insertNat, List.mem_cons, ← ih, sortNat]

theorem inRect_of_mem {r : Rect} {c : Nat} (hx : r.x1 < 64) (h : c ∈ rectCores r) : inRect r c = true := by
  unfold rectCores at h
  obtain ⟨row, hrow, hc⟩ := List.mem_flatten.1 h
  obtain ⟨j, hj, rfl⟩ := List.mem_map.1 hrow
  obtain ⟨i, hi, rfl⟩ := List.mem_map.1 hc
  rw [List.mem_range] at hi hj
  unfold inRect
  simp only [Bool.and_eq_true, decide_eq_true_eq]
  omega

theorem inRects_of_mem {l : List Rect} {c : Nat} (hx : ∀ r ∈ l, r.x1 < 64) (h : c ∈ rectsCores l) : inRects l c = true := by
  rw [rectsCores, mem_sortNat] at h
  induction l with
  | nil => cases h
  | cons r l ih =>
    unfold inRects
    rw [List.any_cons, Bool.or_eq_true]
    rcases List.mem_append.1 h with h | h
    · exact .inl (inRect_of_mem (hx r List.mem_cons_self) (List.mem_filter.1 h).1)
    · exact .inr (ih (fun q hq => hx q (List.mem_cons_of_mem _ hq)) h)

theorem rectsAt_narrow (b : Bytes) (off n : Nat) : ∀ r ∈ rectsAt b off n, r.x1 < 64 := by
  intro r hr
  obtain ⟨i, -, rfl⟩ := List.mem_map.1 hr
  exact Nat.mod_lt _ (by decide)

/-- A core with its memories zero and its banks invalid. -/
def Core.wiped (k : Core) : Prop := k.sram = [] ∧ k.acc = [] ∧ k.bank0.valid = false ∧ k.bank1.valid = false

/-- The cores that a partition gave up. -/
def disowned (l : List Nat) (s : State) : State := l.foldl disownCore s

theorem getCore_disownCore (s : State) (c e : Nat) : getCore (disownCore s c) e =
    if e = c then { wipeCore (getCore s c) with part := 0, group := 0, rank := 0, size := 0 } else getCore s e := getCore_updCore ..

theorem disowned_wiped {l : List Nat} {c : Nat} (hc : c ∈ l) (s : State) :
    (getCore (disowned l s) c).part = 0 ∧ (getCore (disowned l s) c).wiped := by
  refine foldl_establishes (P := fun t c => (getCore t c).part = 0 ∧ (getCore t c).wiped) (fun t c => ?_) (fun t c e he => ?_) hc s
  · rw [getCore_disownCore, if_pos rfl]
    exact ⟨rfl, rfl, rfl, rfl, rfl⟩
  · rw [getCore_disownCore]
    split
    · exact ⟨rfl, rfl, rfl, rfl, rfl⟩
    · exact he

theorem disowned_ne {l : List Nat} {c : Nat} (hc : c ∉ l) (s : State) : getCore (disowned l s) c = getCore s c :=
  getCore_foldl_ne (fun t c e he => by rw [getCore_disownCore, if_neg he]) hc s

/-- A core of partition `n`: as it was when it was the partition's already, else with its memories zero. -/
def Core.ownedBy (n : Nat) (old k : Core) : Prop :=
  k.part = n ∧ (old.part = n → k.sram = old.sram ∧ k.bank0 = old.bank0) ∧ (old.part ≠ n → k.wiped)

theorem getCore_ownCore_ne {c e : Nat} (h : e ≠ c) (n : Nat) (p : Part) (s : State) : getCore (ownCore n p s c) e = getCore s e := by
  unfold ownCore
  dsimp only
  rw [getCore_updCore, if_neg h]

/-- A core takes its owner. -/
theorem ownCore_owned {n c : Nat} {p : Part} {s : State} {old : Core} (h : getCore s c = old ∨ Core.ownedBy n old (getCore s c)) :
    Core.ownedBy n old (getCore (ownCore n p s c) c) := by
  unfold ownCore
  dsimp only
  rw [getCore_updCore, if_pos rfl]
  rcases h with h | ⟨hpart, hkeep, hwipe⟩
  · rw [h]
    refine ⟨rfl, fun hn => ?_, fun hn => ?_⟩
    · dsimp only
      rw [if_pos hn]
      exact ⟨rfl, rfl⟩
    · unfold Core.wiped
      dsimp only
      rw [if_neg hn]
      exact ⟨rfl, rfl, rfl, rfl⟩
  · refine ⟨rfl, fun hn => ?_, fun hn => ?_⟩
    · dsimp only
      rw [if_pos hpart]
      exact hkeep hn
    · unfold Core.wiped
      dsimp only
      rw [if_pos hpart]
      exact hwipe hn

theorem foldl_ownCore {n c : Nat} {p : Part} {old : Core} {l : List Nat} (hc : c ∈ l) {s : State} (h : getCore s c = old) :
    Core.ownedBy n old (getCore (l.foldl (ownCore n p) s) c) := by
  have key (l : List Nat) (s : State) (h : getCore s c = old ∨ Core.ownedBy n old (getCore s c))
      (hc : c ∈ l ∨ Core.ownedBy n old (getCore s c)) : Core.ownedBy n old (getCore (l.foldl (ownCore n p) s) c) := by
    induction l generalizing s with
    | nil => exact hc.resolve_left List.not_mem_nil
    | cons e l ih =>
      rw [List.foldl_cons]
      by_cases hce : c = e
      · subst hce
        have hown := ownCore_owned (p := p) h
        exact ih _ (.inr hown) (.inr hown)
      · rw [List.mem_cons] at hc
        exact ih _ (by rw [getCore_ownCore_ne hce]; exact h) (by rw [getCore_ownCore_ne hce]; exact hc.imp_left fun hc => hc.resolve_left hce)
  exact key l s (.inl h) (.inl hc)

theorem foldl_cores_frame {f : State → Nat → State} (h : ∀ s c, ∃ k, f s c = { s with cores := k }) (l : List Nat) (s : State) :
    ∃ k, l.foldl f s = { s with cores := k } := by
  induction l generalizing s with
  | nil => exact ⟨_, rfl⟩
  | cons c l ih =>
    obtain ⟨k, hk⟩ := h s c
    obtain ⟨k', hk'⟩ := ih (f s c)
    exact ⟨k', by rw [List.foldl_cons, hk', hk]⟩

theorem applyConfig_frame (n : Nat) (p : Part) (s : State) : ∃ k, applyConfig n p s = { updPart n (fun _ => p) s with cores := k } := by
  unfold applyConfig
  extract_lets old u v
  obtain ⟨k, hk⟩ := foldl_cores_frame (f := disownCore) (fun t c => ⟨_, rfl⟩) (old.filter fun c => !inRects p.rects c) u
  obtain ⟨k', hk'⟩ := foldl_cores_frame (f := ownCore n p) (fun t c => ⟨_, rfl⟩) (rectsCores p.rects) v
  refine ⟨k', hk'.trans ?_⟩
  rw [show v = _ from hk]

/-- The replaced configuration. -/
theorem getPart_applyConfig (n m : Nat) (p : Part) (s : State) : getPart (applyConfig n p s) m = if m = n then p else getPart s m := by
  obtain ⟨k, hk⟩ := applyConfig_frame n p s
  rw [hk]
  exact getPart_updPart n m (fun _ => p) s

/-- The cores of a new configuration. -/
theorem applyConfig_owned {n c : Nat} {p : Part} (hx : ∀ r ∈ p.rects, r.x1 < 64) (hc : c ∈ rectsCores p.rects) (s : State) :
    Core.ownedBy n (getCore s c) (getCore (applyConfig n p s) c) := by
  have hin := inRects_of_mem hx hc
  refine foldl_ownCore hc (disowned_ne (l := (partCores s n).filter fun c => !inRects p.rects c) (fun h => ?_) (updPart n (fun _ => p) s))
  have hout := (List.mem_filter.1 h).2
  rw [hin] at hout
  exact Bool.false_ne_true hout

/-- The cores that a new configuration does not name. -/
theorem applyConfig_others {n c : Nat} {p : Part} (hc : c ∉ rectsCores p.rects) (hold : c ∉ partCores s n) :
    getCore (applyConfig n p s) c = getCore s c :=
  (getCore_foldl_ne (fun t _ _ he => getCore_ownCore_ne he n p t) hc _).trans
    (disowned_ne (l := (partCores s n).filter fun c => !inRects p.rects c) (fun h => hold (List.mem_filter.1 h).1) (updPart n (fun _ => p) s))

/-- A release: every core of the partition is given up (R480). -/
theorem applyConfig_release {s : State} {n c : Nat} {p : Part} (hp : p.rects = []) (hc : c ∈ partCores s n) :
    (getCore (applyConfig n p s) c).part = 0 ∧ (getCore (applyConfig n p s) c).wiped := by
  have hmem : c ∈ (partCores s n).filter fun c => !inRects p.rects c := List.mem_filter.2 ⟨hc, by rw [hp]; rfl⟩
  have hone : applyConfig n p s = disowned ((partCores s n).filter fun c => !inRects p.rects c) (updPart n (fun _ => p) s) := by
    unfold applyConfig
    dsimp only
    rw [hp]
    rfl
  rw [hone]
  exact disowned_wiped hmem _

/-! ## Descriptors of partitions -/

section
variable {s : State} {id : Nat} {d : Desc} (h : findDesc s id = some d) (hlive : d.live = true)
include h hlive

theorem refused_only (st : Status) : Stands (refuseDesc d.id st s) id (.done st) ∧
    refuseDesc d.id st s = { s with descs := (refuseDesc d.id st s).descs } := by
  rw [findDesc_id h]
  exact ⟨refuseDesc_stands h hlive st, rfl⟩

theorem finished_only (hcodes : d.codes = []) (st : Status) : Stands (finishDesc d.id st s) id (.done st) ∧
    finishDesc d.id st s = { s with descs := (finishDesc d.id st s).descs } := by
  rw [findDesc_id h]
  exact ⟨finishDesc_stands h hlive hcodes st, rfl⟩

end

theorem exec_configPartition {s : State} {id : Nat} {d : Desc} (h : AtTurn s id 0x38 d) (hn : startsNow s d = true)
    (hreach : hostReach s d.fn = true) (table : HostRead) : exec (.configPartition id table) s = .next (configRun d table s) := by
  have hphase : (d.phase == .started) = false := by
    rw [h.fetched]
    rfl
  show execConfigPartition id table s = _
  unfold execConfigPartition
  rw [h.found]
  dsimp only
  rw [hreach, hphase, Bool.and_false, Bool.false_and, atAcceptance_of h]
  exact congrArg Host.Outcome.next (acceptThen_starts hn _)

section
variable {s : State} {d : Desc} {table : HostRead}

theorem configRun_fields (hf : cfFieldsOk s d = false) : configRun d table s = refuseDesc d.id .descMalformed s := by
  unfold configRun
  rw [hf]
  rfl

variable (hf : cfFieldsOk s d = true)
include hf

theorem configRun_release (hr : cfRelease d = true) :
    configRun d table s = finishDesc d.id .ok (applyConfig (cfPart d) { events := (getPart s (cfPart d)).events } s) := by
  unfold configRun
  rw [hf, hr]
  rfl

variable (hr : cfRelease d = false)
include hr

theorem configRun_bounds (hb : cfBoundsOk s d = false) : configRun d table s = refuseDesc d.id .descBounds s := by
  unfold configRun
  rw [hf, hr, hb]
  rfl

variable (hb : cfBoundsOk s d = true)
include hb

theorem configRun_rings (hi : cfRingsIdle s d = false) : configRun d table s = refuseDesc d.id .descMalformed s := by
  unfold configRun
  rw [hf, hr, hb, hi]
  rfl

theorem configRun_holds {b : Bytes} (hi : cfRingsIdle s d = true)
    (hes : ((List.range (cfCount d)).map fun i => sliceB b (32 * i) 32).all groupFieldsOk = true)
    (hgs : groupsOk (rectsAt d.bytes 28 (cfNrect d)) (((List.range (cfCount d)).map fun i => sliceB b (32 * i) 32).map groupOf) = true) :
    configRun d (.data b) s = finishDesc d.id .ok
      (applyConfig (cfPart d) (configOf s d (((List.range (cfCount d)).map fun i => sliceB b (32 * i) 32).map groupOf)) s) := by
  unfold configRun
  rw [hf, hr, hb, hi]
  dsimp only
  rw [hes, hgs]
  rfl

end

/-- A configuration that holds ends its descriptor OK; memory and the other partitions stay. -/
theorem applyConfig_does {s : State} {id : Nat} {d : Desc} (h : findDesc s id = some d) (hlive : d.live = true) (hcodes : d.codes = []) (n : Nat)
    (p : Part) :
    let t := finishDesc d.id .ok (applyConfig n p s)
    Stands t id (.done .ok) ∧ (∀ m, getPart t m = if m = n then p else getPart s m) ∧ t.mem = s.mem ∧
    ∀ c, getCore t c = getCore (applyConfig n p s) c := by
  obtain ⟨k, hk⟩ := applyConfig_frame n p s
  have hfind : findDesc (applyConfig n p s) id = some d := by
    rw [hk]
    exact h
  have hmem : (applyConfig n p s).mem = s.mem := by
    rw [hk]
    rfl
  have hget := fun m => getPart_applyConfig n m p s
  generalize applyConfig n p s = u at hfind hmem hget
  exact ⟨(finished_only hfind hlive hcodes .ok).1, hget, hmem, fun c => rfl⟩

theorem exec_startPartition {s : State} {id : Nat} {d : Desc} (h : AtTurn s id 0x39 d) (hst : (getPart s (d.at 16 1)).st ≠ .stopping) :
    exec (.startPartition id) s = .next (checked d
      (if zeroAt d.bytes [(17, 47)] && partNums.contains (d.at 16 1) then none else some .descMalformed) (acceptThen d startStart) s) := by
  show execStartPartition id s = _
  unfold execStartPartition
  rw [atAcceptance_of h]
  exact if_neg fun h => hst (beq_iff_eq.1 h)

theorem exec_stopPartition {s : State} {id : Nat} {d : Desc} (h : AtTurn s id 0x3A d) (hn : startsNow s d = true) (hpart : d.at 16 1 ∈ partNums)
    (hz : zeroAt d.bytes [(17, 47)] = true) : exec (.stopPartition id) s = .next (stopStart d s) := by
  show execStopPartition id s = _
  unfold execStopPartition
  rw [atAcceptance_of h]
  dsimp only
  rw [hz, List.contains_iff_mem.2 hpart]
  exact congrArg Host.Outcome.next (acceptThen_starts hn _)

/-! ## A stop (R482, R483) -/

theorem findDesc_outline {s t : State} {id : Nat} {d : Desc} (h : t.descs.map Desc.outline = s.descs.map Desc.outline)
    (hd : findDesc s id = some d) : ∃ e, findDesc t id = some e ∧ e.outline = d.outline := by
  have hfind (u : State) : (u.descs.map Desc.outline).find? (fun d => d.id == id) = (findDesc u id).map Desc.outline := by
    rw [List.find?_map]
    rfl
  have ht := hfind t
  rw [h, hfind s, hd] at ht
  cases he : findDesc t id with
  | none =>
    rw [he] at ht
    cases ht
  | some e =>
    rw [he] at ht
    exact ⟨e, rfl, (Option.some.inj ht).symm⟩

theorem outline_fields {d e : Desc} (h : d.outline = e.outline) : d.phase = e.phase ∧ d.bytes = e.bytes ∧ d.id = e.id :=
  ⟨(congrArg Desc.phase h :), (congrArg Desc.bytes h :), (congrArg Desc.id h :)⟩

theorem live_of_phase {d e : Desc} (h : d.phase = e.phase) : d.live = e.live := by rw [Desc.live, h, Desc.live]

theorem findDesc_endDescs {s : State} {n id : Nat} {st : Status} {d : Desc} (h : findDesc s id = some d) (hop : d.opcode = 0x3A) :
    findDesc (endDescs n st s) id = some d := by
  have hid : (fun e : Desc => e.id == id) ∘ (fun d : Desc =>
      if d.fn = n && d.opcode != 0x3A && (d.live || (st == .partReset && d.phase == .done .partStopped && !d.refused)) then
        { d with phase := .done st } else d) = fun e => e.id == id := by
    funext e
    dsimp only [Function.comp_apply]
    split <;> rfl
  rw [findDesc, endDescs, List.find?_map, hid, ← findDesc, h, Option.map_some, hop]
  simp

/-- A STOP_PARTITION outlives the stop that it begins. -/
theorem drainBegin_stop {s : State} {n id : Nat} {d : Desc} (h : findDesc s id = some d) (hop : d.opcode = 0x3A)
    (hst : (getPart s n).st = .started) (st : Status) (isReset auto : Bool) :
    (∃ e, findDesc (drainBegin n st isReset auto s) id = some e ∧ e.phase = d.phase) ∧
    ∀ e ∈ (drainBegin n st isReset auto s).descs, e.fn = n → e.opcode ≠ 0x3A → e.live = false := by
  obtain ⟨e, he, hout⟩ := findDesc_outline (outline_of_plan (plan_haltPart n st s)) h
  obtain ⟨hphase, hbytes, -⟩ := outline_fields hout
  have hope : e.opcode = 0x3A := by rw [Desc.opcode, hbytes, ← Desc.opcode, hop]
  have hone : drainBegin n st isReset auto s = endDescs n st (updPart n (fun p =>
      { p with st := .stopping, drain := some { status := st, since := (haltPart n st s).clock, reset := isReset, auto := auto } })
      (haltPart n st s)) := if_pos hst
  rw [hone]
  generalize haltPart n st s = u at he
  exact ⟨⟨e, findDesc_endDescs he hope, hphase⟩, fun x hx hfn hne => endDescs_dead hx hfn hne⟩

/-- A change of phase revives no descriptor. -/
theorem setPhase_dead {s : State} {id n : Nat} {ph : DescPhase} (h : ∀ e ∈ s.descs, e.fn = n → e.opcode ≠ 0x3A → e.live = false) :
    ∀ e ∈ (setPhase id ph s).descs, e.fn = n → e.opcode ≠ 0x3A → e.live = false := by
  intro e he hfn hop
  obtain ⟨d, hd, hde⟩ := List.mem_map.1 he
  dsimp only at hde
  by_cases hlive : d.live = true
  · have hkept : d.fn = e.fn ∧ d.opcode = e.opcode := by
      rw [← hde, if_pos hlive]
      split <;> exact ⟨rfl, rfl⟩
    have hdead := h d hd (hkept.1.trans hfn) (by rw [hkept.2]; exact hop)
    rw [hdead] at hlive
    exact absurd hlive Bool.false_ne_true
  · rw [if_neg hlive, ite_self] at hde
    exact hde ▸ Bool.eq_false_iff.2 hlive

/-! ## The end of a drain (R482, R484) -/

theorem Stands.finishDesc {s : State} {id : Nat} {st : Status} (h : Stands s id (.done st)) (j : Nat) (c : Status) :
    Stands (finishDesc j c s) id (.done st) := by
  obtain ⟨d, hd, hp⟩ := h
  rw [Stands, findDesc_finishDesc]
  split
  next hj =>
    subst hj
    have hdead : d.live = false := by rw [Desc.live, hp]
    rw [hd, Option.map_some, if_neg (by rw [hdead]; exact Bool.false_ne_true)]
    exact ⟨d, rfl, hp⟩
  next => exact ⟨d, hd, hp⟩

theorem foldl_finishDesc_stands {s : State} {id : Nat} {d : Desc} (h : findDesc s id = some d) (hlive : d.live = true) (hcodes : d.codes = [])
    {l : List Desc} (hd : d ∈ l) : Stands (l.foldl (fun s d => finishDesc d.id .ok s) s) id (.done .ok) := by
  have hkeep (l : List Desc) (t : State) (ht : Stands t id (.done .ok)) : Stands (l.foldl (fun s d => finishDesc d.id .ok s) t) id (.done .ok) := by
    induction l generalizing t with
    | nil => exact ht
    | cons e l ih => exact ih _ (ht.finishDesc e.id .ok)
  induction l generalizing s with
  | nil => cases hd
  | cons e l ih =>
    rw [List.foldl_cons]
    by_cases he : e.id = id
    · rw [he]
      exact hkeep l _ (finishDesc_stands h hlive hcodes .ok)
    · refine ih ?_ ((List.mem_cons.1 hd).resolve_left fun hde => he (hde ▸ findDesc_id h))
      rw [findDesc_finishDesc, if_neg (Ne.symm he)]
      exact h

/-- A partition reset that completes without AUTO_RESTART resets the cores and no more. -/
theorem partResetDone_resets {s : State} {n : Nat} (h : bitOf (regN s bPrt) (8 + n - 1) = false) : partResetDone n s = endedCores n s := by
  have hregs : (endedCores n s).regs = s.regs := of_offCores State.regs (fun _ => rfl) (offCores_endedCores n s)
  have hreg : regN (endedCores n s) bPrt = regN s bPrt := by rw [regN, reg, hregs, regN, reg]
  rw [partResetDone_eq, hreg, h]
  rfl

/-- The partition whose drain has ended, CONFIGURED. -/
def drainConfigured (n : Nat) (r : Drain) (s : State) : State :=
  updPart n (fun p => { p with st := .configured, drain := none, events := if r.auto then [] else p.events }) s

/-- The STOP_PARTITIONs that wait for the end of a partition's drain. -/
def stopsOf (n : Nat) (s : State) : List Desc := s.descs.filter fun d => d.opcode == 0x3A && d.at 16 1 == n && d.phase == .started

/-- The drain of a partition ends (R482, R484). -/
theorem drainEnds_does {s : State} {n : Nat} {r : Drain} (hauto : r.reset = true → bitOf (regN s bPrt) (8 + n - 1) = false) :
    let t := drainEnds n r s
    (getPart t n).st = .configured ∧ (getPart t n).drain = none ∧ t.mem = s.mem ∧
    (∀ id d, findDesc s id = some d → d.opcode = 0x3A → d.at 16 1 = n → d.phase = .started → d.codes = [] → Stands t id (.done .ok)) ∧
    (r.reset = true → ∀ c ∈ partCores s n, (getCore t c).atReset) ∧ (r.reset = false → t.cores = s.cores) := by
  obtain ⟨ds, hds, -⟩ := foldl_finishDesc .ok
    (stopsOf n s)
    (drainConfigured n r s)
  have hstop : ∀ id d, findDesc s id = some d → d.opcode = 0x3A → d.at 16 1 = n → d.phase = .started → d.codes = [] →
      Stands ((stopsOf n s).foldl (fun s d => finishDesc d.id .ok s) (drainConfigured n r s)) id (.done .ok) := by
    intro id d h hop hn hp hcodes
    have hmem : d ∈ stopsOf n s := by
      refine List.mem_filter.2 ⟨List.mem_of_find?_eq_some h, ?_⟩
      rw [hop, hn, hp, beq_self_eq_true, beq_self_eq_true]
      rfl
    exact foldl_finishDesc_stands (s := drainConfigured n r s) h (live_of_started hp) hcodes hmem
  have hpart : (getPart (drainConfigured n r s) n).st =
      .configured ∧ (getPart (drainConfigured n r s) n).drain = none ∧
      (getPart (drainConfigured n r s) n).rects =
        (getPart s n).rects := by
    rw [drainConfigured, getPart_updPart, if_pos rfl]
    exact ⟨rfl, rfl, rfl⟩
  have hone : drainEnds n r s = if r.reset then partResetDone n
      ((stopsOf n s).foldl (fun s d => finishDesc d.id .ok s) (drainConfigured n r s))
      else ((stopsOf n s).foldl (fun s d => finishDesc d.id .ok s) (drainConfigured n r s)) := rfl
  dsimp only
  rw [hone]
  rw [hds] at hstop ⊢
  obtain ⟨hst, hdrain, hrects⟩ := hpart
  generalize hu : drainConfigured n r s = u
    at hst hdrain hrects hstop
  have hregs : u.regs = s.regs := hu ▸ rfl
  have hmem : u.mem = s.mem := hu ▸ rfl
  have hcores : u.cores = s.cores := hu ▸ rfl
  cases hr : r.reset with
  | false =>
    rw [if_neg Bool.false_ne_true]
    exact ⟨hst, hdrain, hmem, hstop, fun h => absurd h Bool.false_ne_true, fun _ => hcores⟩
  | true =>
    have hbit : bitOf (regN { u with descs := ds } bPrt) (8 + n - 1) = false := by
      rw [← hauto hr, regN, reg, show ({ u with descs := ds } : State).regs = s.regs from hregs, regN, reg]
    rw [if_pos rfl, partResetDone_resets hbit]
    have hoff := offCores_endedCores n { u with descs := ds }
    have hget : getPart (endedCores n { u with descs := ds }) n = getPart u n := by
      rw [getPart, parts_endedCores, getPart]
    rw [hget]
    refine ⟨hst, hdrain, (of_offCores State.mem (fun _ => rfl) hoff).trans hmem, fun id d h hop hn hp hcodes => ?_, fun _ c hc => ?_,
      fun h => absurd h.symm Bool.false_ne_true⟩
    · obtain ⟨e, he, hphase⟩ := hstop id d h hop hn hp hcodes
      refine ⟨e, ?_, hphase⟩
      rw [findDesc, of_offCores State.descs (fun _ => rfl) hoff]
      exact he
    · refine endedCores_reset ?_
      rw [partCores, show getPart { u with descs := ds } n = getPart u n from rfl, hrects]
      exact hc

/-- A STOP_PARTITION of a started partition (R482, R483, R470). -/
theorem stopStart_started {s : State} {id n : Nat} {d : Desc} (h : findDesc s id = some d) (hlive : d.live = true) (hop : d.opcode = 0x3A)
    (hn : d.at 16 1 = n) (hst : (getPart s n).st = .started) :
    let t := stopStart d s
    Stands t id .started ∧ (getPart t n).st = .stopping ∧ (getPart t n).step = none ∧ (getPart t n).colls = [] ∧
    (getPart t n).drain = some { status := .partStopped, since := s.clock, reset := false, auto := false } ∧
    (∀ c ∈ partCores s n, (getCore t c).run ≠ .running) ∧ (∀ e ∈ t.descs, e.fn = n → e.opcode ≠ 0x3A → e.live = false) ∧
    (d.fn ≠ n → bitOf (regN t (hif n 4)) 1 = true) := by
  obtain ⟨hstop, hstep, hcolls, hdrain, -, -, -, hrun⟩ := drainBegin_started hst .partStopped false false
  obtain ⟨⟨e, he, hphase⟩, hdead⟩ := drainBegin_stop h hop hst .partStopped false false
  have hone : stopStart d s = if d.fn = n then setPhase d.id .started (drainBegin n .partStopped false false s)
      else notice n 1 (setPhase d.id .started (drainBegin n .partStopped false false s)) := by
    unfold stopStart
    dsimp only
    rw [hn, hst]
  dsimp only
  rw [hone]
  generalize drainBegin n .partStopped false false s = u at *
  have hstands : Stands (setPhase d.id .started u) id .started := by
    rw [findDesc_id h]
    exact setPhase_stands he ((live_of_phase hphase).trans hlive) _
  have hcore (c : Nat) (hc : c ∈ partCores s n) : (getCore (setPhase d.id .started u) c).run ≠ .running := by
    rw [show getCore (setPhase d.id .started u) c = getCore u c from rfl, ← runs_apply]
    exact hrun c hc
  split
  next hfn => exact ⟨hstands, hstop, hstep, hcolls, hdrain, hcore, setPhase_dead hdead, fun hne => absurd hfn hne⟩
  next hfn =>
    have hpart : getPart (notice n 1 (setPhase d.id .started u)) n = getPart u n := by
      rw [getPart, notice_parts]
      rfl
    rw [hpart]
    refine ⟨?_, hstop, hstep, hcolls, hdrain, fun c hc => ?_, fun x hx => ?_, fun _ => bitOf_notice n (by decide) _⟩
    · rw [Stands, findDesc, notice_descs]
      exact hstands
    · rw [getCore, notice_cores]
      exact hcore c hc
    · rw [notice_descs] at hx
      exact setPhase_dead hdead x hx

/-- Settles O49, by the rows of R479's and R481's tables, and by what a halted partition leaves. -/
theorem partitions : Obligations.Partitions := by
  unfold Obligations.Partitions
  intro only
  refine ⟨fun s id d table hat hnow hreach => ?config, fun s id d hat hnow => ?start, fun s id d hat hnow hpart hz => ?stop,
    fun s dt n r hr hst hsettled hauto => ?drain⟩
  case config =>
    intro n old
    have hlive := live_of_fetched hat.fetched
    refine ⟨fun hf => ?_, fun hf hrel hcodes => ?_, fun hf hrel hb => ?_, fun hf hrel hb hi => ?_, fun b htable hf hrel hb hi hcodes => ?_⟩
    · exact ⟨_, exec_configPartition hat hnow hreach table, by rw [configRun_fields hf]; exact refused_only hat.found hlive _⟩
    · refine ⟨_, exec_configPartition hat hnow hreach table, ?_⟩
      rw [configRun_release hf hrel]
      obtain ⟨hstands, hget, hmem, hcore⟩ := applyConfig_does hat.found hlive hcodes n { events := (getPart s n).events }
      refine ⟨hstands, (hget n).trans (if_pos rfl), fun m hm => (hget m).trans (if_neg hm), fun c hc => ?_, fun c hc => ?_, hmem⟩
      · rw [hcore]
        exact applyConfig_release rfl hc
      · rw [hcore]
        exact applyConfig_others (by exact List.not_mem_nil) hc
    · exact ⟨_, exec_configPartition hat hnow hreach table, by rw [configRun_bounds hf hrel hb]; exact refused_only hat.found hlive _⟩
    · exact ⟨_, exec_configPartition hat hnow hreach table, by rw [configRun_rings hf hrel hb hi]; exact refused_only hat.found hlive _⟩
    · intro es rects hes hgs
      refine ⟨_, exec_configPartition hat hnow hreach table, ?_⟩
      rw [htable, configRun_holds hf hrel hb hi hes hgs]
      obtain ⟨hstands, hget, hmem, hcore⟩ := applyConfig_does hat.found hlive hcodes n (configOf s d (es.map groupOf))
      have hself := (hget n).trans (if_pos rfl)
      refine ⟨hstands, hself, ?_, fun m hm => (hget m).trans (if_neg hm), hmem, fun c hc => ?_, fun c hc hold => ?_⟩
      · rw [hself]
        rfl
      · rw [hcore]
        exact applyConfig_owned (p := configOf s d (es.map groupOf)) (rectsAt_narrow _ _ _) hc s
      · rw [hcore]
        exact applyConfig_others hc hold
  case start =>
    intro n
    have hlive := live_of_fetched hat.fetched
    refine ⟨fun hst => ?_, fun hpart hst => ?_, fun hpart hst hz => ?_⟩
    · show execStartPartition id s = _
      unfold execStartPartition
      rw [atAcceptance_of hat]
      exact if_pos (beq_iff_eq.2 hst)
    · have hbad : (zeroAt d.bytes [(17, 47)] && partNums.contains (d.at 16 1)) = false := by
        rw [Bool.eq_false_iff.2 fun h => hpart (List.contains_iff_mem.1 h), Bool.and_false]
      refine ⟨_, exec_startPartition hat hst, ?_⟩
      rw [hbad]
      exact refused_only hat.found hlive .descMalformed
    · have hgood : (zeroAt d.bytes [(17, 47)] && partNums.contains (d.at 16 1)) = true := by
        rw [hz, List.contains_iff_mem.2 hpart]
        rfl
      have hexec : exec (.startPartition id) s = .next (startStart d s) := by
        rw [exec_startPartition hat hst, hgood]
        exact congrArg Host.Outcome.next (acceptThen_starts hnow _)
      refine ⟨fun st hcheck => ⟨startStart d s, hexec, ?_⟩, fun hcheck hcodes => ⟨startStart d s, hexec, ?_⟩⟩
      · unfold startStart
        rw [hcheck]
        exact refused_only hat.found hlive st
      · have hone : startStart d s = finishDesc d.id .ok (startPartition n s) := by
          unfold startStart
          rw [hcheck]
        rw [hone]
        obtain ⟨hother, ⟨l, g, hself⟩, hdescs, hcount, hcores⟩ := startPartition_does n s
        generalize startPartition n s = u at hother hself hdescs hcount hcores
        have hfind : findDesc u id = some d := by
          rw [findDesc, hdescs]
          exact hat.found
        have hp : getPart (finishDesc d.id .ok u) n = (getPart s n).begun l g := hself
        dsimp only
        rw [hp]
        refine ⟨(finished_only hfind hlive hcodes .ok).1, rfl, rfl, rfl, rfl, rfl, rfl, rfl, hother, fun i hi => ?_, fun i hi => ?_,
          fun c hc => ?_⟩
        · exact (hcount _).trans (if_pos ⟨Nat.le_add_right .., Nat.add_lt_add_left hi _⟩)
        · refine (hcount i).trans (if_neg fun h => ?_)
          exact hi.elim (Nat.not_lt.2 h.1) (Nat.not_le.2 h.2)
        · obtain ⟨⟨hrun, hsregs, hcounts, h0, h1⟩, hsram⟩ := hcores c hc
          exact ⟨hrun, hsregs, hcounts, h0, h1, hsram⟩
  case stop =>
    intro n
    have hlive := live_of_fetched hat.fetched
    have hexec := exec_stopPartition hat hnow hpart hz
    refine ⟨fun hst hcodes => ⟨_, hexec, ?_⟩, fun hst => ⟨_, hexec, ?_⟩, fun hst => ⟨_, hexec, stopStart_started hat.found hlive hat.code rfl hst⟩⟩
    · have hone : stopStart d s = finishDesc d.id .ok s := by
        unfold stopStart
        dsimp only
        rcases hst with hst | hst <;> rw [show (getPart s (d.at 16 1)).st = _ from hst]
      rw [hone]
      exact finished_only hat.found hlive hcodes .ok
    · have hone : stopStart d s = setPhase d.id .started s := by
        unfold stopStart
        dsimp only
        rw [show (getPart s (d.at 16 1)).st = _ from hst]
      rw [hone, findDesc_id hat.found]
      exact ⟨setPhase_stands hat.found hlive _, rfl⟩
  case drain =>
    have hexec : exec (.drainDone dt n) s = .next (drainEnds n r (pass dt s)) := by
      show execDrainDone dt n s = _
      unfold execDrainDone
      rw [hr, hst, hsettled]
      rfl
    exact ⟨_, hexec, drainEnds_does (s := pass dt s) hauto⟩

end Sys2Proof.Machine
end

section
/-!
PROOFS. What the end of a partition's work leaves of the HBM stacks: their temperatures, and which of them are retired (for O51).
-/
namespace Sys2Proof.Machine

/-- Temperature and heat of every stack, and whether it is retired. -/
@[irreducible] def heat (s : State) (k : Nat) : Nat × Bool × Bool :=
  ((getStack s k).temp, (getStack s k).hot, decide ((getStack s k).st = .retired))

theorem heat_same {s t : State} (h : t.mem.hbmStacks = s.mem.hbmStacks) : heat t = heat s := by
  unfold heat getStack
  rw [h]

theorem heat_of_mem {s t : State} (h : t.mem = s.mem) : heat t = heat s := heat_same (by rw [h])

theorem heat_foldl {α : Type} {f : State → α → State} (h : ∀ s x, heat (f s x) = heat s) (l : List α) (s : State) :
    heat (l.foldl f s) = heat s := by
  induction l generalizing s with
  | nil => rfl
  | cons x l ih => exact (ih (f s x)).trans (h s x)

theorem heat_fields {s t : State} (h : heat t = heat s) (k : Nat) : (getStack t k).temp = (getStack s k).temp ∧
    (getStack t k).hot = (getStack s k).hot ∧ ((getStack t k).st = .retired ↔ (getStack s k).st = .retired) := by
  have hk := congrFun h k
  unfold heat at hk
  rw [Prod.mk.injEq, Prod.mk.injEq, decide_eq_decide] at hk
  exact hk

/-- Heat and retirement of one stack, kept by a change of it. -/
def KeepsHeat (x y : Stack) : Prop := y.temp = x.temp ∧ y.hot = x.hot ∧ (y.st = .retired ↔ x.st = .retired)

theorem heat_updStack {k : Nat} {f : Stack → Stack} {s : State} (hf : KeepsHeat (getStack s k) (f (getStack s k))) : heat (updStack k f s) = heat s := by
  funext j
  unfold heat
  rw [getStack_updStack]
  split
  next h =>
    obtain ⟨htemp, hhot, hst⟩ := hf
    subst h
    rw [htemp, hhot, decide_eq_decide.2 hst]
  next => rfl

/-! ## Memory -/

theorem heat_setLine (ln : Nat) (l : Option Line) (s : State) : heat (setLine ln l s) = heat s := heat_same rfl

theorem heat_hbmWr (a : Nat) (d : Bytes) (s : State) : heat (hbmWr a d s) = heat s := heat_same (hbmPut_stacks ..)

theorem heat_spoil (a len : Nat) (s : State) : heat (spoil a len s) = heat s := by
  have hlines : heat ((s.mem.lines.filter fun e => decide (128 * e.1 < a + len) && decide (a < 128 * e.1 + 128)).foldl (fun s e =>
      match getLine s e.1 with
      | some l => setLine e.1 none (if l.dirty then hbmWr (128 * e.1) (lineBytes l) s else s)
      | none => s) s) = heat s := by
    refine heat_foldl (fun s e => ?_) _ s
    split
    · rw [heat_setLine]
      split
      · exact heat_hbmWr ..
      · rfl
    · rfl
  refine Eq.trans ?_ hlines
  exact heat_same rfl

theorem heat_charge (st n g units : Nat) (s : State) : heat (charge st n g units s) = heat s := by
  unfold charge
  split
  · rfl
  · exact heat_updStack ⟨rfl, rfl, Iff.rfl⟩

theorem heat_writeBack (ln : Nat) (l : Line) (g : Nat) (s : State) : heat (writeBack ln l g s) = heat s := by
  unfold writeBack
  dsimp only
  split
  · rw [heat_charge, heat_hbmWr, heat_setLine]
  · exact heat_setLine ..

theorem heat_nextTick (s : State) : heat (nextTick s).2 = heat s := heat_same rfl

theorem heat_allocLine (ln : Nat) (data : Bytes) (dirty keep : Bool) (g : Nat) (s : State) : heat (allocLine ln data dirty keep g s) = heat s := by
  refine allocLine_cases ln data dirty keep g s (p := fun t => heat t = heat s) (fun e l _ _ _ => ?_) (fun l _ _ => ?_) ?_
  · rw [heat_setLine, heat_writeBack, heat_nextTick]
  · rw [heat_setLine, heat_nextTick]
  · split
    · rw [heat_hbmWr, heat_nextTick]
    · exact heat_nextTick s

theorem heat_touchLine (ln : Nat) (l : Line) (keep : Bool) (s : State) : heat (touchLine ln l keep s) = heat s := by
  unfold touchLine
  rw [heat_setLine, heat_nextTick]

theorem heat_lineRead (n g hint a len : Nat) (s : State) : heat (lineRead n g hint a len s).2 = heat s := by
  simp only [lineRead]
  split
  · dsimp only; (repeat' split) <;> simp only [heat_setLine, heat_touchLine]
  · split
    · exact heat_charge ..
    · simp only [heat_allocLine, heat_charge]

theorem heat_lineWrite (n g hint a : Nat) (d : Bytes) (s : State) : heat (lineWrite n g hint a d s) = heat s := by
  simp only [lineWrite]
  split
  · split <;> simp only [heat_setLine, heat_touchLine]
  · (repeat' split) <;> simp only [heat_hbmWr, heat_charge, heat_allocLine]

theorem heat_memReadPieces (n g hint : Nat) (l : List (Nat × Bytes)) (s : State) : heat (memReadPieces n g hint l s).2 = heat s := by
  induction l generalizing s with
  | nil => rfl
  | cons p l ih => exact (ih _).trans (heat_lineRead ..)

theorem heat_sliceGet (n g hint a len : Nat) (s : State) : heat (sliceGet n g hint a len s).2 = heat s := heat_memReadPieces ..

theorem heat_slicePut (n g hint a : Nat) (d : Bytes) (s : State) : heat (slicePut n g hint a d s) = heat s :=
  heat_foldl (fun _ _ => heat_lineWrite ..) _ s

theorem heat_sliceAdd (n g hint : Nat) (fp : Bool) (a : Nat) (d : Bytes) (s : State) : heat (sliceAdd n g hint fp a d s) = heat s := by
  unfold sliceAdd
  dsimp only
  rw [heat_slicePut, heat_sliceGet]

theorem heat_setReg (k : Nat) (v : Word) (s : State) : heat (setReg k v s) = heat s := heat_same rfl

theorem heat_incReg (k : Nat) (s : State) : heat (incReg k s) = heat s := heat_of_mem (incReg_mem ..)

theorem heat_incStack (which st : Nat) (s : State) : heat (incStack which st s) = heat s := heat_incReg ..

theorem heat_memEvent (bit st : Nat) (s : State) : heat (memEvent bit st s) = heat s := heat_same rfl

theorem heat_postEvent (e : Ev) (s : State) : heat (postEvent e s) = heat s := heat_same rfl

theorem heat_queueRepair (c w : Nat) (s : State) : heat (queueRepair c w s) = heat s := heat_same rfl

theorem heat_updPart (n : Nat) (f : Part → Part) (s : State) : heat (updPart n f s) = heat s := heat_same rfl

theorem heat_updDesc (id : Nat) (f : Desc → Desc) (s : State) : heat (updDesc id f s) = heat s := heat_same rfl

theorem heat_retirePending (st : Nat) (s : State) : heat (retirePending st s) = heat s := by
  unfold retirePending
  split
  next h =>
    rw [heat_postEvent, heat_memEvent, heat_updStack]
    refine ⟨rfl, rfl, ?_⟩
    rw [h]
    exact iff_of_false StackState.noConfusion StackState.noConfusion
  next => rfl

theorem heat_repairRow (st off : Nat) (s : State) : heat (repairRow st off s) = heat s := by
  unfold repairRow
  dsimp only
  split
  · rw [heat_postEvent, heat_queueRepair, heat_memEvent, heat_updStack]
    exact ⟨rfl, rfl, Iff.rfl⟩
  · exact heat_retirePending ..

theorem heat_correctedRead (a : Nat) (s : State) : heat (correctedRead a s) = heat s := by
  unfold correctedRead
  extract_lets p row u old v
  have hv : heat v = heat s := (heat_updStack ⟨rfl, rfl, Iff.rfl⟩).trans ((heat_memEvent ..).trans (heat_incStack ..))
  clear_value v
  split
  · exact (heat_repairRow ..).trans hv
  · exact hv

theorem heat_damageImage (s : State) : heat (damageImage s) = heat s := by
  unfold damageImage
  dsimp only
  split
  · rfl
  · exact heat_same rfl

theorem heat_lostLine (a : Nat) (s : State) : heat (lostLine a s) = heat s := by
  unfold lostLine
  extract_lets p line u ues v w x y n z z'
  have hv : heat v = heat s := (heat_updStack ⟨rfl, rfl, Iff.rfl⟩).trans ((heat_memEvent ..).trans (heat_incStack ..))
  have hw : heat w = heat v := by
    dsimp only [w]
    split
    · exact heat_retirePending ..
    · rfl
  have hx : heat x = heat s := (heat_repairRow ..).trans (hw.trans hv)
  have hy : heat y = heat x := heat_spoil ..
  have hz : heat z = heat y := heat_postEvent ..
  have hz' : heat z' = heat z := by
    dsimp only [z']
    split
    · exact heat_updPart ..
    · rfl
  clear_value w x y z z'
  split
  · exact (heat_postEvent ..).trans ((heat_damageImage ..).trans hx)
  · split
    · exact (heat_updPart ..).trans (hz'.trans (hz.trans (hy.trans hx)))
    · exact (heat_postEvent ..).trans (hy.trans hx)

theorem heat_noteCover (n g a : Nat) (c : Status) (s : State) : heat (noteCover n g a c s) = heat s :=
  (heat_foldl (fun _ _ => heat_updDesc ..) _ _).trans (heat_updPart ..)

theorem heat_lostRead (n g a : Nat) (s : State) : heat (lostRead n g a s) = heat s := by
  unfold lostRead
  dsimp only
  split
  · exact (heat_noteCover ..).trans (heat_lostLine ..)
  · exact heat_lostLine ..

theorem heat_readError (n g a : Nat) (e : ReadErr) (s : State) : heat (readError n g a e s) = heat s := by
  cases e with
  | none => rfl
  | corrected => exact heat_correctedRead a s
  | cleanLine =>
    unfold readError
    dsimp only
    split
    · split
      · rfl
      · exact (heat_setLine ..).trans ((heat_memEvent ..).trans (heat_incStack ..))
    · rfl
  | rereadOk => exact (heat_noteCover ..).trans (heat_charge ..)
  | lost =>
    show heat (lostRead n g a (charge (place s a).1 n g 6 s)) = _
    rw [heat_lostRead, heat_charge]

theorem heat_adderVote (n g a : Nat) (r : AdderResult) (s : State) : heat (adderVote n g a r s) = heat s := by
  cases r with
  | agree => rfl
  | allDiffer => exact heat_lostRead n g a s
  | outvoted row =>
    unfold adderVote
    dsimp only
    split
    · rw [heat_updStack]
      · exact heat_setReg ..
      · exact ⟨rfl, rfl, Iff.rfl⟩
    · split
      · rw [heat_postEvent, heat_queueRepair, heat_memEvent, heat_updStack]
        · exact heat_setReg ..
        · exact ⟨rfl, rfl, Iff.rfl⟩
      · rw [heat_postEvent, heat_queueRepair, heat_memEvent, heat_updStack]
        · exact heat_setReg ..
        · exact ⟨rfl, rfl, Iff.rfl⟩

theorem heat_emit (o : Out) (s : State) : heat (emit o s) = heat s := heat_same rfl

theorem heat_memServe (w : MemWait) (s : State) : heat (memServe w s) = heat s := by
  unfold memServe
  dsimp only
  split
  · rw [heat_emit, heat_sliceGet, heat_readError]
  · split
    · rw [heat_emit, heat_slicePut]
    · rw [heat_emit, heat_adderVote, heat_sliceAdd]

theorem heat_serveBefore (a len : Nat) (s : State) : heat (serveBefore a len s) = heat s := by
  unfold serveBefore
  split
  · rfl
  · refine (heat_foldl (fun _ _ => heat_memServe ..) _ _).trans ?_
    exact heat_same rfl

theorem heat_memPut (n g hint a : Nat) (d : Bytes) (s : State) : heat (memPut n g hint a d s) = heat s :=
  (heat_slicePut ..).trans (heat_serveBefore ..)

/-! ## The end of a partition's work (R483) -/

theorem heat_of_wire {s t : State} (h : wire t = wire s) : heat t = heat s := heat_of_mem (of_wire State.mem (fun _ => rfl) h)

theorem heat_of_offCores {s t : State} (h : offCores t = offCores s) : heat t = heat s := heat_of_mem (of_offCores State.mem (fun _ => rfl) h)

theorem heat_stopCore (st : CoreRun) (c : Nat) (s : State) : heat (stopCore st c s) = heat s := by
  unfold stopCore
  dsimp only
  split
  · refine heat_of_offCores ?_
    rw [offCores_updCore, offCores_detachCore, offCores_spoilMmas]
  · rfl

theorem heat_stepLost (n : Nat) (st : Status) (s : State) : heat (stepLost n st s) = heat s := by
  unfold stepLost
  split
  · exact heat_postEvent ..
  · rfl

theorem heat_cutColls (n : Nat) (st : Status) (s : State) : heat (cutColls n st s) = heat s := by
  have hcut (d : Desc) (c : Coll) (t : State) : heat (cutColl n d c t) = heat t := by
    unfold cutColl collSpoil
    split
    · refine (heat_foldl (fun _ _ => heat_spoil ..) _ _).trans ?_
      exact heat_same rfl
    · exact heat_same rfl
  have hrecord (d : Desc) (c : Coll) (t : State) : heat (collRecord n d c st 0xFFFF t) = heat t := heat_memPut ..
  refine heat_foldl (fun t c => ?_) _ s
  split
  · rfl
  · rw [hrecord]
    split
    · exact hcut ..
    · rfl
  · rfl

theorem heat_govStop (n : Nat) (s : State) : heat (govStop n s) = heat s := by
  have hlayer (i : Nat) (l : Layer) (t : State) : heat (layerStore n i l t) = heat t := by
    unfold layerStore
    dsimp only
    rw [heat_memPut, heat_memPut, heat_memPut, heat_memPut]
  unfold govStop layerStoreAll
  extract_lets u
  have hu : heat u = heat s := heat_updPart ..
  clear_value u
  rw [heat_setReg, ← hu]
  refine heat_foldl (fun t e => ?_) _ u
  exact hlayer e.1 e.2 t

theorem heat_dropHeld (n : Nat) (s : State) : heat (dropHeld n s) = heat s := by
  unfold dropHeld
  extract_lets mine u
  have hu : heat u = heat s := by
    refine heat_foldl (fun t h => ?_) _ s
    rw [heat_of_wire (wire_freeBuffer ..), heat_incReg, heat_of_wire (wire_sendAck ..)]
  clear_value u
  rw [← hu]
  exact heat_same rfl

theorem heat_drainWaits (n : Nat) (s : State) : heat (drainWaits n s) = heat s := by
  unfold drainWaits
  extract_lets all far keep y u
  have hu : heat u = heat s := heat_same rfl
  rw [← hu]
  refine heat_foldl (fun t w => ?_) far u
  split
  · exact heat_of_wire (wire_sendVerdict ..)
  · rfl

theorem heat_drainIngest (n : Nat) (s : State) : heat (drainIngest n s) = heat s := by
  have hjobs : heat (spoilJobs n s) = heat s := by
    refine heat_foldl (fun t k => ?_) _ s
    split
    · exact heat_foldl (fun _ _ => heat_spoil ..) _ _
    · rfl
  unfold drainIngest
  extract_lets p runs spoilt quiet ended
  have hended : heat ended = heat spoilt := heat_same rfl
  have hspoilt : heat spoilt = heat s := hjobs
  clear_value spoilt ended
  split
  · exact hended.trans hspoilt
  · exact (heat_setReg ..).trans (hended.trans hspoilt)

theorem heat_drainLoads (n : Nat) (s : State) : heat (drainLoads n s) = heat s := by
  have hcut (ids : List Nat) (t : State) (c : Nat) : (cutLoads ids t c).mem = t.mem := by
    refine mem_foldl (fun t l => ?_) _ t
    dsimp only
    split <;> rfl
  unfold drainLoads
  extract_lets mine ids cut freed
  have hone : cut.mem = s.mem := mem_foldl (fun t c => hcut _ t c) _ s
  have htwo : freed.mem = cut.mem := mem_foldl (fun t c => updCore_mem ..) _ cut
  exact heat_of_mem (htwo.trans hone)

theorem heat_haltPart (n : Nat) (st : Status) (s : State) : heat (haltPart n st s) = heat s := by
  unfold haltPart
  extract_lets stopped untested cut freed quiet gone sync settled
  have hstop : heat stopped = heat s := (heat_foldl (fun _ _ => heat_stopCore ..) _ _).trans (heat_stepLost n st s)
  have htest : heat untested = heat stopped := by
    refine heat_foldl (fun t c => ?_) _ stopped
    split
    · exact heat_same rfl
    · rfl
  have hcut : heat cut = heat untested := by
    show heat (cutColls n st (dropHeld n (drainWaits n (drainIngest n (drainLoads n untested))))) = _
    rw [heat_cutColls, heat_dropHeld, heat_drainWaits, heat_drainIngest, heat_drainLoads]
  have hfreed : heat freed = heat cut := by
    show heat (govStop n (rpcClear n (poolFree n (stashReleaseAll n cut)))) = _
    rw [heat_govStop]
    exact heat_of_mem ((rpcClear_mem ..).trans (by unfold poolFree stashReleaseAll; rw [updPart_mem, updPart_mem]))
  clear_value freed
  have hquiet : heat settled = heat freed := heat_same rfl
  clear_value settled
  rw [heat_updPart, hquiet, hfreed, hcut, htest, hstop]

theorem portDown_mem (p reason : Nat) (s : State) : (portDown p reason s).mem = s.mem := by
  unfold portDown
  dsimp only
  split
  · rfl
  · split <;> rfl

theorem heat_diesOff (reason : Nat) (s : State) : heat (diesOff reason s) = heat s := by
  have hports : ((List.range 8).foldl (fun s p => if (getPort s p).st = .down then s else portDown p reason s) s).mem = s.mem := by
    refine mem_foldl (fun t p => ?_) _ s
    split
    · rfl
    · exact portDown_mem ..
  refine heat_of_mem (Eq.trans ?_ hports)
  unfold diesOff
  generalize (List.range 8).foldl (fun s p => if (getPort s p).st = .down then s else portDown p reason s) s = u
  rfl

end Sys2Proof.Machine
end

section
/-!
PROOFS. Ferryman's samples and control loops (O51): the clock, power, supply and voltage loops, the sensors and the thermal trip.
-/
namespace Sys2Proof.Machine

/-! ## Changes of Ferryman and its registers alone -/

/-- Nothing but Ferryman's own state and registers differs. -/
def FerryOnly (s t : State) : Prop := ∃ f r, t = { s with fer := f, regs := r }

theorem FerryOnly.refl (s : State) : FerryOnly s s := ⟨_, _, rfl⟩

theorem fmnEvent_fer (bit : Nat) (s : State) : (fmnEvent bit s).fer = s.fer := rfl

theorem FerryOnly.updFer {s t : State} (h : FerryOnly s t) (f : Ferry → Ferry) : FerryOnly s (updFer f t) := by
  obtain ⟨_, _, rfl⟩ := h
  exact ⟨_, _, rfl⟩

theorem FerryOnly.fmnEvent {s t : State} (h : FerryOnly s t) (bit : Nat) : FerryOnly s (fmnEvent bit t) := by
  obtain ⟨_, _, rfl⟩ := h
  exact ⟨_, _, rfl⟩

theorem FerryOnly.postEvent {s t : State} (h : FerryOnly s t) (e : Ev) : FerryOnly s (postEvent e t) := by
  obtain ⟨_, _, rfl⟩ := h
  exact ⟨_, _, rfl⟩

theorem FerryOnly.eq {s t : State} (h : FerryOnly s t) : t = { s with fer := t.fer, regs := t.regs } := by
  obtain ⟨_, _, rfl⟩ := h
  rfl

/-! ## The clock (R497, R498) -/

/-- The clock settles at or below the lowest setting, and never above where it stood. -/
theorem settleClock_eq (s : State) : ∃ r l, settleClock s =
    updFer (fun f => { f with mhz := min f.mhz (lowestMhz f), raiseTo := r, marginOk := l }) s := by
  unfold settleClock
  dsimp only
  split
  next h =>
    refine ⟨0, [], ?_⟩
    unfold updFer
    dsimp only
    rw [Nat.min_eq_right h]
  next h =>
    have hmin : min s.fer.mhz (lowestMhz s.fer) = s.fer.mhz := Nat.min_eq_left (Nat.le_of_not_le h)
    split
    · refine ⟨s.fer.raiseTo, s.fer.marginOk, ?_⟩
      unfold updFer
      dsimp only
      rw [hmin]
    · refine ⟨lowestMhz s.fer, [], ?_⟩
      unfold updFer
      dsimp only
      rw [hmin]

theorem FerryOnly.settleClock {s t : State} (h : FerryOnly s t) : FerryOnly s (settleClock t) := by
  obtain ⟨r, l, hs⟩ := settleClock_eq t
  rw [hs]
  exact h.updFer _

/-- What the clock's settling leaves of Ferryman's state. -/
structure Settled (f g : Ferry) : Prop where
  fields : ∃ m r l, g = { f with mhz := m, raiseTo := r, marginOk := l }
  bounded : g.mhz ≤ lowestMhz g
  falls : g.mhz ≤ f.mhz

theorem settleClock_settled (s : State) : Settled s.fer (settleClock s).fer := by
  obtain ⟨r, l, hs⟩ := settleClock_eq s
  rw [hs]
  exact ⟨⟨_, _, _, rfl⟩, Nat.min_le_right .., Nat.min_le_left ..⟩

theorem Settled.limiters {f g : Ferry} (h : Settled f g) : g.slow = f.slow ∧ g.fast = f.fast ∧ g.thermal = f.thermal ∧ g.supply = f.supply := by
  obtain ⟨m, r, l, rfl⟩ := h.fields
  exact ⟨rfl, rfl, rfl, rfl⟩

theorem lowestMhz_le (f : Ferry) : lowestMhz f ≤ f.slow ∧ lowestMhz f ≤ f.fast ∧ lowestMhz f ≤ f.thermal ∧ lowestMhz f ≤ f.supply := by
  unfold lowestMhz
  omega

section
variable {s : State} {dt : Nat} (hrun : fmnRuns s = true)
include hrun

/-! ## The thermal loop (R503) -/

theorem thermalStep_falls (hcrit : criticalJunction s = false) (hhot : hotJunction s = true) (hlong : s.fer.thermalAt + 1000000 ≤ s.clock + dt)
    (habove : 650 < s.fer.thermal) : Does (.thermalStep dt) s fun t => t = { pass dt s with fer := t.fer, regs := t.regs } ∧
      t.fer.thermal = max 650 (s.fer.thermal - 50) ∧ t.fer.mhz ≤ lowestMhz t.fer := by
  have hexec : exec (.thermalStep dt) s = .next (settleClock (fmnEvent 0
      (updFer (fun f => { f with thermal := max floorMhz (f.thermal - 50), thermalAt := (pass dt s).clock }) (pass dt s)))) := by
    show execThermalStep dt s = _
    unfold execThermalStep
    dsimp only
    rw [hrun, show criticalJunction (pass dt s) = false from hcrit, show hotJunction (pass dt s) = true from hhot, if_neg (by decide),
      if_neg (by decide), if_pos rfl]
    exact if_pos (Bool.and_eq_true_iff.2 ⟨decide_eq_true hlong, decide_eq_true habove⟩)
  obtain ⟨v, hv⟩ : ∃ v, v = updFer (fun f => { f with thermal := max floorMhz (f.thermal - 50), thermalAt := (pass dt s).clock }) (pass dt s) :=
    ⟨_, rfl⟩
  have hthermal : v.fer.thermal = max 650 (s.fer.thermal - 50) := by rw [hv]; rfl
  have honly : FerryOnly (pass dt s) v := by rw [hv]; exact (FerryOnly.refl _).updFer _
  have hset := settleClock_settled (fmnEvent 0 v)
  rw [fmnEvent_fer] at hset
  rw [← hv] at hexec
  obtain ⟨-, -, hlimit, -⟩ := hset.limiters
  exact ⟨_, hexec, ((honly.fmnEvent 0).settleClock).eq, hlimit.trans hthermal, hset.bounded⟩

theorem thermalStep_rises (hcrit : criticalJunction s = false) (hcool : hotJunction s = false) (hlong : s.fer.thermalAt + 10000000 ≤ s.clock + dt)
    (hbelow : s.fer.thermal < 1300) : Does (.thermalStep dt) s fun t => t = { pass dt s with fer := t.fer, regs := t.regs } ∧
      t.fer.thermal = min 1300 (s.fer.thermal + 50) ∧ t.fer.mhz ≤ lowestMhz t.fer := by
  have hexec : exec (.thermalStep dt) s = .next (settleClock
      (updFer (fun f => { f with thermal := min topMhz (f.thermal + 50), thermalAt := (pass dt s).clock }) (pass dt s))) := by
    show execThermalStep dt s = _
    unfold execThermalStep
    dsimp only
    rw [hrun, show criticalJunction (pass dt s) = false from hcrit, show hotJunction (pass dt s) = false from hcool]
    exact if_pos (Bool.and_eq_true_iff.2 ⟨decide_eq_true hbelow, decide_eq_true hlong⟩)
  refine ⟨_, hexec, (((FerryOnly.refl (pass dt s)).updFer _).settleClock).eq, ?_, (settleClock_settled _).bounded⟩
  exact (settleClock_settled _).limiters.2.2.1

/-! ## Power (R501) -/

theorem powerRecovers (hbelow : s.fer.slow < 1300) (hcut : s.fer.cutFrom = none) (hlong : s.fer.slowAt + 10000000 ≤ s.clock + dt)
    (hwatts : 100 * s.fer.watts ≤ 98 * (powerLimit (pass dt s) * 1000000)) : Does (.powerRecoveryStep dt) s fun t =>
      t = { pass dt s with fer := t.fer, regs := t.regs } ∧ t.fer.slow = min 1300 (s.fer.slow + 50) ∧ t.fer.mhz ≤ lowestMhz t.fer := by
  have hexec : exec (.powerRecoveryStep dt) s = .next (settleClock
      (updFer (fun f => { f with slow := min topMhz (f.slow + 50), slowAt := (pass dt s).clock }) (pass dt s))) := by
    show execPowerRecoveryStep dt s = _
    unfold execPowerRecoveryStep
    dsimp only
    refine if_pos ?_
    rw [hrun, show (pass dt s).fer.cutFrom = none from hcut, decide_eq_true (show (pass dt s).fer.slow < topMhz from hbelow),
      decide_eq_true (show (pass dt s).fer.slowAt + 10000000 ≤ (pass dt s).clock from hlong),
      decide_eq_true (show 100 * (pass dt s).fer.watts ≤ 98 * (powerLimit (pass dt s) * 1000000) from hwatts)]
    rfl
  refine ⟨_, hexec, (((FerryOnly.refl (pass dt s)).updFer _).settleClock).eq, ?_, (settleClock_settled _).bounded⟩
  exact (settleClock_settled _).limiters.1

theorem fastRecovers (hbelow : s.fer.fast < 1300) (hlong : s.fer.fastAt + 100000 ≤ s.clock + dt) : Does (.fastRecoveryStep dt) s fun t =>
    t = { pass dt s with fer := t.fer, regs := t.regs } ∧ t.fer.fast = (if s.fer.slow ≤ s.fer.fast + 50 then 1300 else s.fer.fast + 50) ∧
    t.fer.mhz ≤ lowestMhz t.fer := by
  have hexec : exec (.fastRecoveryStep dt) s = .next (settleClock (updFer (fun f =>
      { f with fast := if f.slow ≤ f.fast + 50 then topMhz else f.fast + 50, fastAt := (pass dt s).clock }) (pass dt s))) := by
    show execFastRecoveryStep dt s = _
    unfold execFastRecoveryStep
    dsimp only
    refine if_pos ?_
    rw [hrun, decide_eq_true (show (pass dt s).fer.fast < topMhz from hbelow),
      decide_eq_true (show (pass dt s).fer.fastAt + 100000 ≤ (pass dt s).clock from hlong)]
    rfl
  refine ⟨_, hexec, (((FerryOnly.refl (pass dt s)).updFer _).settleClock).eq, ?_, (settleClock_settled _).bounded⟩
  exact (settleClock_settled _).limiters.2.1

end

/-- What one change of a limiter and the settling that follows leave, when the limiter is the slow setting. -/
theorem powerLowered_slow (s : State) : FerryOnly s (powerLowered s) ∧ (powerLowered s).fer.slow = s.fer.slow ∧
    (powerLowered s).fer.mhz ≤ lowestMhz (powerLowered s).fer ∧ (powerLowered s).fer.overRun = s.fer.overRun ∧
    (powerLowered s).fer.sum1ms = s.fer.sum1ms ∧ (powerLowered s).fer.n1ms = s.fer.n1ms ∧ (powerLowered s).fer.means = s.fer.means ∧
    (powerLowered s).fer.cutFrom = s.fer.cutFrom := by
  have h := settleClock_settled (fmnEvent 1 s)
  refine ⟨((FerryOnly.refl s).fmnEvent 1).settleClock, h.limiters.1, h.bounded, ?_⟩
  obtain ⟨m, r, l, hf⟩ := h.fields
  unfold powerLowered
  rw [hf]
  exact ⟨rfl, rfl, rfl, rfl, rfl⟩

/-- A window whose mean lies above the limit (R501). -/
theorem overLimit_does (s : State) : FerryOnly s (overLimit s) ∧ (overLimit s).fer.sum1ms = s.fer.sum1ms ∧ (overLimit s).fer.n1ms = s.fer.n1ms ∧
    (overLimit s).fer.means = s.fer.means ∧ (overLimit s).fer.overRun = s.fer.overRun + 1 ∧
    (s.fer.overRun + 1 < 8 → (overLimit s).fer.mhz = s.fer.mhz ∧ (overLimit s).fer.slow = s.fer.slow) ∧
    (8 ≤ s.fer.overRun + 1 → s.fer.overRun + 1 ≠ 10 → s.fer.cutFrom = none →
      (overLimit s).fer.slow = max 650 (s.fer.slow - 50) ∧ (overLimit s).fer.mhz ≤ lowestMhz (overLimit s).fer) ∧
    (s.fer.overRun + 1 = 10 → (overLimit s).fer.slow = 650 ∧ (overLimit s).fer.mhz ≤ 650) := by
  have hstep : ∃ u, FerryOnly s u ∧ u.fer.sum1ms = s.fer.sum1ms ∧ u.fer.n1ms = s.fer.n1ms ∧ u.fer.means = s.fer.means ∧
      u.fer.overRun = s.fer.overRun + 1 ∧ (s.fer.overRun + 1 < 8 → u.fer.mhz = s.fer.mhz ∧ u.fer.slow = s.fer.slow) ∧
      (8 ≤ s.fer.overRun + 1 → s.fer.cutFrom = none → u.fer.slow = max 650 (s.fer.slow - 50) ∧ u.fer.mhz ≤ lowestMhz u.fer) ∧
      overLimit s = if s.fer.overRun + 1 = 10 then powerLowered (updFer (fun f => { f with cutFrom := some f.slow, slow := floorMhz }) u) else u := by
    unfold overLimit
    extract_lets n u v
    have hu : FerryOnly s u := (FerryOnly.refl s).updFer _
    by_cases hgo : (decide (8 ≤ n) && u.fer.cutFrom.isNone) = true
    · have hv : v = powerLowered (updFer (fun f => { f with slow := max floorMhz (f.slow - 50) }) u) := if_pos hgo
      obtain ⟨honly, hslow, hbound, hover, hsum, hn, hmeans, -⟩ :=
        powerLowered_slow (updFer (fun f => { f with slow := max floorMhz (f.slow - 50) }) u)
      have hlong : 8 ≤ n := of_decide_eq_true (Bool.and_eq_true_iff.1 hgo).1
      rw [← hv] at honly hslow hbound hover hsum hn hmeans
      refine ⟨v, ?_, hsum, hn, hmeans, hover, fun hshort => absurd hlong (Nat.not_le.2 hshort), fun _ _ => ⟨hslow, hbound⟩, rfl⟩
      obtain ⟨f, r, hfr⟩ := honly
      exact ⟨f, r, hfr⟩
    · have hv : v = u := if_neg hgo
      rw [hv]
      refine ⟨u, hu, rfl, rfl, rfl, rfl, fun _ => ⟨rfl, rfl⟩, fun hlong hcut => absurd ?_ hgo, rfl⟩
      rw [decide_eq_true hlong, show u.fer.cutFrom = none from hcut]
      rfl
  obtain ⟨u, honly, hsum, hn, hmeans, hover, hshort, hlong, heq⟩ := hstep
  rw [heq]
  split
  next h10 =>
    obtain ⟨honly', hslow', hbound', hover', hsum', hn', hmeans', -⟩ :=
      powerLowered_slow (updFer (fun f => { f with cutFrom := some f.slow, slow := floorMhz }) u)
    refine ⟨?_, hsum'.trans hsum, hn'.trans hn, hmeans'.trans hmeans, hover'.trans hover, fun h => absurd h (by omega), fun _ h => absurd h10 h,
      fun _ => ⟨hslow', Nat.le_trans hbound' ((lowestMhz_le _).1.trans (Nat.le_of_eq hslow'))⟩⟩
    obtain ⟨f, r, hfr⟩ := honly'
    obtain ⟨f', r', rfl⟩ := honly
    exact ⟨f, r, hfr⟩
  next h10 => exact ⟨honly, hsum, hn, hmeans, hover, hshort, fun h8 _ hcut => hlong h8 hcut, fun h => absurd h h10⟩

/-- The 1 ms mean taken into Ferryman's state. -/
def meanTaken (s : State) : State :=
  updFer (fun f => { f with
    sum1ms := 0, n1ms := 0, means := (s.fer.sum1ms / s.fer.n1ms :: s.fer.means).take 1000
    watts := ((s.fer.sum1ms / s.fer.n1ms :: s.fer.means).take 1000).sum / ((s.fer.sum1ms / s.fer.n1ms :: s.fer.means).take 1000).length }) s

theorem exec_powerMean1ms {s : State} {dt : Nat} (hrun : fmnRuns s = true) (hn : s.fer.n1ms ≠ 0) : exec (.powerMean1ms dt) s = .next
    (if powerLimit (pass dt s) * 1000000 * s.fer.n1ms < s.fer.sum1ms then overLimit (meanTaken (pass dt s)) else underLimit (meanTaken (pass dt s))) := by
  show execPowerMean1ms dt s = _
  unfold execPowerMean1ms
  dsimp only
  have hno : (decide ((pass dt s).fer.n1ms = 0) || !fmnRuns (pass dt s)) = false := by
    rw [show fmnRuns (pass dt s) = true from hrun, decide_eq_false (show ¬(pass dt s).fer.n1ms = 0 from hn)]
    rfl
  rw [hno, if_neg Bool.false_ne_true]
  congr 1
  by_cases hb : powerLimit (pass dt s) * 1000000 * s.fer.n1ms < s.fer.sum1ms
  · rw [if_pos hb]
    exact if_pos (decide_eq_true hb)
  · rw [if_neg hb]
    exact if_neg fun h => hb (of_decide_eq_true h)

/-- The mean of a 1 ms window (R501). -/
theorem powerMean_does {s : State} {dt : Nat} (hrun : fmnRuns s = true) (hn : s.fer.n1ms ≠ 0) : Does (.powerMean1ms dt) s fun t =>
    let beyond : Prop := powerLimit (pass dt s) * 1000000 * s.fer.n1ms < s.fer.sum1ms
    t = { pass dt s with fer := t.fer, regs := t.regs } ∧ t.fer.sum1ms = 0 ∧ t.fer.n1ms = 0 ∧
    t.fer.means = (s.fer.sum1ms / s.fer.n1ms :: s.fer.means).take 1000 ∧
    (¬beyond → t.fer.overRun = 0 ∧ t.fer.cutFrom = none ∧ t.fer.mhz ≤ lowestMhz t.fer) ∧
    (beyond → t.fer.overRun = s.fer.overRun + 1 ∧
      (s.fer.overRun + 1 < 8 → t.fer.mhz = s.fer.mhz ∧ t.fer.slow = s.fer.slow) ∧
      (8 ≤ s.fer.overRun + 1 → s.fer.overRun + 1 ≠ 10 → s.fer.cutFrom = none → t.fer.slow = max 650 (s.fer.slow - 50) ∧ t.fer.mhz ≤ lowestMhz t.fer) ∧
      (s.fer.overRun + 1 = 10 → t.fer.slow = 650 ∧ t.fer.mhz ≤ 650)) := by
  refine ⟨_, exec_powerMean1ms hrun hn, ?_⟩
  split
  next hb =>
    obtain ⟨⟨f, r, hfr⟩, hsum, hn1, hmeans, hover⟩ := overLimit_does (meanTaken (pass dt s))
    refine ⟨FerryOnly.eq ⟨f, r, hfr⟩, hsum, hn1, hmeans, fun h => absurd hb h, fun _ => hover⟩
  next hb =>
    have h := settleClock_settled (updFer (fun f => { f with overRun := 0, slow := f.cutFrom.getD f.slow, cutFrom := none }) (meanTaken (pass dt s)))
    have honly : FerryOnly (pass dt s) (underLimit (meanTaken (pass dt s))) := (((FerryOnly.refl (pass dt s)).updFer _).updFer _).settleClock
    have hbound : (underLimit (meanTaken (pass dt s))).fer.mhz ≤ lowestMhz (underLimit (meanTaken (pass dt s))).fer := h.bounded
    obtain ⟨m, r, l, hf⟩ : ∃ m r l, (underLimit (meanTaken (pass dt s))).fer = _ := h.fields
    generalize underLimit (meanTaken (pass dt s)) = u at honly hbound hf
    refine ⟨honly.eq, ?_, ?_, ?_, fun _ => ⟨?_, ?_, hbound⟩, fun h => absurd h hb⟩ <;> rw [hf] <;> rfl

/-! ## VIN (R502) -/

/-- What a VIN sample's rules leave alone, or change in Ferryman's state in a way that is followed: power samples, the limiters, the clock, the range's
times and the power state. -/
def vitals (f : Ferry) : Ferry :=
  { powerNow := f.powerNow, sum1ms := f.sum1ms, n1ms := f.n1ms, slow := f.slow, fast := f.fast, thermal := f.thermal, supply := f.supply
    mhz := f.mhz, vinOutSince := f.vinOutSince, vinHeld := f.vinHeld, power := f.power }

theorem of_vitals {α : Type} (g : Ferry → α) (hg : ∀ f, g (vitals f) = g f) {f f' : Ferry} (h : vitals f' = vitals f) : g f' = g f := by
  rw [← hg f', h, hg]

/-- The fast rule: a sample above 3,600 W lowers the fast setting by four steps. -/
theorem fastRule_does (p : Nat) (s : State) : FerryOnly s (fastRule p s) ∧
    (fastRule p s).fer.powerNow = s.fer.powerNow ∧ (fastRule p s).fer.sum1ms = s.fer.sum1ms ∧ (fastRule p s).fer.n1ms = s.fer.n1ms ∧
    (fastRule p s).fer.vinOutSince = s.fer.vinOutSince ∧ (fastRule p s).fer.vinHeld = s.fer.vinHeld ∧
    (fastRule p s).fer.power = s.fer.power ∧ (p ≤ 3600000000 → fastRule p s = s) ∧
    (3600000000 < p → (fastRule p s).fer.fast = max 650 (s.fer.mhz - 200) ∧ (fastRule p s).fer.mhz ≤ lowestMhz (fastRule p s).fer) := by
  unfold fastRule
  split
  next hp =>
    have hbig : 3600000000 < p := hp
    have hv : (updFer (fun f => { f with fast := max floorMhz (f.mhz - 200), fastAt := s.clock }) s).fer =
      { s.fer with fast := max floorMhz (s.fer.mhz - 200), fastAt := s.clock } := rfl
    have hquiet : FerryOnly s (updFer (fun f => { f with fast := max floorMhz (f.mhz - 200), fastAt := s.clock }) s) := (FerryOnly.refl s).updFer _
    generalize updFer (fun f => { f with fast := max floorMhz (f.mhz - 200), fastAt := s.clock }) s = v at hv hquiet
    have h := settleClock_settled (fmnEvent 1 v)
    have honly := (hquiet.fmnEvent 1).settleClock
    obtain ⟨m, r, l, hf⟩ := h.fields
    have hbound := h.bounded
    unfold powerLowered
    generalize settleClock (fmnEvent 1 v) = u at hf hbound honly
    rw [fmnEvent_fer, hv] at hf
    refine ⟨honly, ?_, ?_, ?_, ?_, ?_, ?_, fun hle => absurd hbig (Nat.not_lt.2 hle), fun _ => ⟨?_, hbound⟩⟩ <;> rw [hf]
  next hp => exact ⟨.refl s, rfl, rfl, rfl, rfl, rfl, rfl, fun _ => rfl, fun hlt => absurd hlt hp⟩

/-- The sample and the times of the range rule taken. -/
def vinTaken (mv : Nat) (s : State) : State :=
  updFer (fun f => { f with
    vin := mv
    vinOutSince := if vinOk mv then none else f.vinOutSince <|> some s.clock
    vinInSince := if vinOk mv then f.vinInSince <|> some s.clock else none }) s

/-- A fall below the minimum meets a request for a power cycle. -/
def vinLow (mv : Nat) (s : State) : State := if mv < 10800 then powerCycled s else s

/-- A fall below 9.5 V. -/
def vinFalls (mv : Nat) (s : State) : State := if mv < 9500 && s.brd.vinOn then vinRecord 0 mv (fmnEvent 3 (vinDies s)) else s

/-- VIN out of range for 1 ms sets the floor. -/
def vinHolds (mv : Nat) (s : State) : State :=
  match s.fer.vinOutSince with
  | some t =>
    if t + 1000000 ≤ s.clock && !s.fer.vinHeld then
      settleClock (vinRecord 0 mv (fmnEvent 3 (updFer (fun f => { f with vinHeld := true, supply := floorMhz }) s)))
    else s
  | none => s

theorem vinRule_eq (mv : Nat) (s : State) : vinRule mv s =
    if (vinLow mv (vinTaken mv s)).fer.power = .standby then
      { vinLow mv (vinTaken mv s) with brd := { (vinLow mv (vinTaken mv s)).brd with vinOn := vinOk mv } }
    else vinHolds mv (vinFalls mv (vinLow mv (vinTaken mv s))) := rfl

theorem vinLow_frame (mv : Nat) (s : State) : vitals (vinLow mv s).fer = vitals s.fer ∧ (vinLow mv s).clock = s.clock ∧
    (vinLow mv s).brd.vinOn = s.brd.vinOn ∧ (vinOk mv = true → vinLow mv s = s) := by
  have hok : mv < 10800 → vinOk mv ≠ true := fun hlt hok =>
    absurd (of_decide_eq_true (Bool.and_eq_true_iff.1 hok).1) (Nat.not_le.2 hlt)
  unfold vinLow powerCycled
  split
  next hlt =>
    split
    · exact ⟨rfl, rfl, rfl, fun h => absurd h (hok hlt)⟩
    · exact ⟨rfl, rfl, rfl, fun _ => rfl⟩
  next => exact ⟨rfl, rfl, rfl, fun _ => rfl⟩

/-- The dies lose VIN: a cold reset is due, and the limiters and the clock stay. -/
theorem vinDies_does (s : State) : vitals (vinDies s).fer = vitals s.fer ∧ (vinDies s).clock = s.clock ∧
    (∃ r, (vinDies s).rst = some r ∧ r.cold = true) ∧ (vinDies s).brd.vinOn = false ∧ (vinDies s).fer.vinDead = true := by
  have hone : ∃ u : State, vitals u.fer = vitals s.fer ∧ u.clock = s.clock ∧ u.rst.isSome = true ∧ vinDies s =
      { u with rst := u.rst.map fun r => { r with cold := true }, brd := { u.brd with vinOn := false }, fer := { u.fer with vinDead := true } } := by
    unfold vinDies
    split
    next h => exact ⟨s, rfl, rfl, h, rfl⟩
    next =>
      obtain ⟨e, q, hq⟩ := powerRequeue_frame s
      have hback := back_warmReset (powerRequeue s)
      refine ⟨warmReset (powerRequeue s), ?_, ?_, ?_, rfl⟩
      · rw [of_back (fun u : State => vitals u.fer) (fun _ => rfl) hback, hq]
        rfl
      · rw [of_back State.clock (fun _ => rfl) hback, hq]
        rfl
      · rw [rst_warmReset]
        rfl
  obtain ⟨u, hv, hclock, hrst, h⟩ := hone
  rw [h]
  obtain ⟨r, hr⟩ := Option.isSome_iff_exists.1 hrst
  exact ⟨hv, hclock, ⟨{ r with cold := true }, congrArg (Option.map _) hr, rfl⟩, rfl, rfl⟩

theorem vinFalls_does (mv : Nat) (s : State) : vitals (vinFalls mv s).fer = vitals s.fer ∧ (vinFalls mv s).clock = s.clock ∧
    (mv < 9500 → s.brd.vinOn = true → (∃ r, (vinFalls mv s).rst = some r ∧ r.cold = true) ∧ (vinFalls mv s).brd.vinOn = false ∧
      (vinFalls mv s).fer.vinDead = true) ∧ (¬mv < 9500 → vinFalls mv s = s) := by
  unfold vinFalls
  split
  next h =>
    obtain ⟨hv, hclock, hrst, hon, hdead⟩ := vinDies_does s
    generalize vinDies s = u at hv hclock hrst hon hdead
    have hlow := of_decide_eq_true (Bool.and_eq_true_iff.1 h).1
    exact ⟨hv, hclock, fun _ _ => ⟨hrst, hon, hdead⟩, fun hno => absurd hlow hno⟩
  next h =>
    refine ⟨rfl, rfl, fun hlow hon => absurd ?_ h, fun _ => rfl⟩
    rw [decide_eq_true hlow, hon]
    rfl

theorem vinHolds_does (mv : Nat) (s : State) : FerryOnly s (vinHolds mv s) ∧ (vinHolds mv s).fer.powerNow = s.fer.powerNow ∧
    (vinHolds mv s).fer.sum1ms = s.fer.sum1ms ∧ (vinHolds mv s).fer.n1ms = s.fer.n1ms ∧ (vinHolds mv s).fer.fast = s.fer.fast ∧
    (vinHolds mv s).fer.vinDead = s.fer.vinDead ∧
    (s.fer.mhz ≤ lowestMhz s.fer → (vinHolds mv s).fer.mhz ≤ lowestMhz (vinHolds mv s).fer) ∧
    (s.fer.vinOutSince = none → vinHolds mv s = s) ∧
    (∀ t0, s.fer.vinOutSince = some t0 → t0 + 1000000 ≤ s.clock → s.fer.vinHeld = false →
      (vinHolds mv s).fer.vinHeld = true ∧ (vinHolds mv s).fer.supply = 650 ∧ (vinHolds mv s).fer.mhz ≤ 650) := by
  have hkept : FerryOnly s s ∧ s.fer.powerNow = s.fer.powerNow ∧ s.fer.sum1ms = s.fer.sum1ms ∧ s.fer.n1ms = s.fer.n1ms ∧
      s.fer.fast = s.fer.fast ∧ s.fer.vinDead = s.fer.vinDead ∧ (s.fer.mhz ≤ lowestMhz s.fer → s.fer.mhz ≤ lowestMhz s.fer) :=
    ⟨.refl s, rfl, rfl, rfl, rfl, rfl, id⟩
  obtain ⟨hrefl, hpow, hsum, hn, hfast, hdead, hb⟩ := hkept
  unfold vinHolds
  cases hout : s.fer.vinOutSince with
  | none => exact ⟨hrefl, hpow, hsum, hn, hfast, hdead, hb, fun _ => rfl, fun t0 h => absurd h (by simp)⟩
  | some t =>
    dsimp only
    split
    next hgo =>
      have h := settleClock_settled (vinRecord 0 mv (fmnEvent 3 (updFer (fun f => { f with vinHeld := true, supply := floorMhz }) s)))
      have honly : FerryOnly s (settleClock (vinRecord 0 mv (fmnEvent 3 (updFer (fun f => { f with vinHeld := true, supply := floorMhz }) s)))) :=
        ((((FerryOnly.refl s).updFer _).fmnEvent 3).postEvent _).settleClock
      have hbound := h.bounded
      obtain ⟨m, r, l, hf⟩ := h.fields
      generalize settleClock (vinRecord 0 mv (fmnEvent 3 (updFer (fun f => { f with vinHeld := true, supply := floorMhz }) s))) = u
        at honly hbound hf
      have hsupply : u.fer.supply = 650 := by
        rw [hf]
        rfl
      refine ⟨honly, ?_, ?_, ?_, ?_, ?_, fun _ => hbound, fun h => absurd h (by simp), fun t0 _ _ _ =>
        ⟨?_, hsupply, hbound.trans ((lowestMhz_le _).2.2.2.trans (Nat.le_of_eq hsupply))⟩⟩ <;> rw [hf] <;> rfl
    next hgo =>
      refine ⟨hrefl, hpow, hsum, hn, hfast, hdead, hb, fun h => absurd h (by simp), fun t0 ht hlong hheld => absurd ?_ hgo⟩
      obtain rfl := Option.some.inj ht
      rw [decide_eq_true hlong, hheld]
      rfl

/-- A VIN sample (R501, R502). -/
theorem vinSample_does {s : State} (hrun : fmnRuns s = true) (dt mv ma : Nat) : Does (.vinSample dt mv ma) s fun t =>
    t.fer.powerNow = mv * ma ∧ t.fer.sum1ms = s.fer.sum1ms + mv * ma ∧ t.fer.n1ms = s.fer.n1ms + 1 ∧
    (vinOk mv = true → mv * ma ≤ 3600000000 → s.fer.power ≠ .standby → t = { pass dt s with fer := t.fer, regs := t.regs } ∧ t.fer.mhz = s.fer.mhz) ∧
    (3600000000 < mv * ma → t.fer.fast = max 650 (s.fer.mhz - 200) ∧ t.fer.mhz ≤ lowestMhz t.fer) ∧
    (∀ t0, vinOk mv = false → s.fer.vinOutSince = some t0 → t0 + 1000000 ≤ s.clock + dt → s.fer.vinHeld = false → s.fer.power ≠ .standby →
      t.fer.vinHeld = true ∧ t.fer.supply = 650 ∧ t.fer.mhz ≤ 650) ∧
    (mv < 9500 → s.brd.vinOn = true → s.fer.power ≠ .standby →
      (∃ r, t.rst = some r ∧ r.cold = true) ∧ t.brd.vinOn = false ∧ t.fer.vinDead = true) := by
  refine ⟨vinRule mv (fastRule (mv * ma) (updFer (fun f =>
    { f with powerNow := mv * ma, sum1ms := f.sum1ms + mv * ma, n1ms := f.n1ms + 1 }) (pass dt s))), if_pos hrun, ?_⟩
  obtain ⟨honly, hpow, hsum, hn, hout, hheld, hpower, hcalm, hfast⟩ := fastRule_does (mv * ma)
    (updFer (fun f => { f with powerNow := mv * ma, sum1ms := f.sum1ms + mv * ma, n1ms := f.n1ms + 1 }) (pass dt s))
  have hclock : (fastRule (mv * ma) (updFer (fun f => { f with powerNow := mv * ma, sum1ms := f.sum1ms + mv * ma, n1ms := f.n1ms + 1 })
      (pass dt s))).clock = s.clock + dt := by
    obtain ⟨f, r, h⟩ := honly
    rw [h]
    rfl
  have hon : (fastRule (mv * ma) (updFer (fun f => { f with powerNow := mv * ma, sum1ms := f.sum1ms + mv * ma, n1ms := f.n1ms + 1 })
      (pass dt s))).brd.vinOn = s.brd.vinOn := by
    obtain ⟨f, r, h⟩ := honly
    rw [h]
    rfl
  have honly' : FerryOnly (pass dt s) (fastRule (mv * ma) (updFer (fun f =>
      { f with powerNow := mv * ma, sum1ms := f.sum1ms + mv * ma, n1ms := f.n1ms + 1 }) (pass dt s))) := by
    obtain ⟨f, r, h⟩ := honly
    exact ⟨f, r, h⟩
  have hmhz : mv * ma ≤ 3600000000 → (fastRule (mv * ma) (updFer (fun f =>
      { f with powerNow := mv * ma, sum1ms := f.sum1ms + mv * ma, n1ms := f.n1ms + 1 }) (pass dt s))).fer.mhz = s.fer.mhz := fun h => by
    rw [hcalm h]
    rfl
  generalize fastRule (mv * ma) (updFer (fun f => { f with powerNow := mv * ma, sum1ms := f.sum1ms + mv * ma, n1ms := f.n1ms + 1 })
    (pass dt s)) = u at hpow hsum hn hout hheld hpower hfast hclock hon honly' hmhz
  clear honly hcalm
  obtain ⟨hv, hclock', hon', hsame⟩ := vinLow_frame mv (vinTaken mv u)
  have hpower' : (vinLow mv (vinTaken mv u)).fer.power = s.fer.power := (of_vitals Ferry.power (fun _ => rfl) hv).trans hpower
  have hbound : u.fer.mhz ≤ lowestMhz u.fer → (vinLow mv (vinTaken mv u)).fer.mhz ≤ lowestMhz (vinLow mv (vinTaken mv u)).fer := fun h => by
    rw [of_vitals lowestMhz (fun _ => rfl) hv, of_vitals Ferry.mhz (fun _ => rfl) hv]
    exact h
  rw [vinRule_eq]
  split
  next hst =>
    have hst' : s.fer.power = .standby := hpower'.symm.trans hst
    refine ⟨(of_vitals Ferry.powerNow (fun _ => rfl) hv).trans hpow, (of_vitals Ferry.sum1ms (fun _ => rfl) hv).trans hsum,
      (of_vitals Ferry.n1ms (fun _ => rfl) hv).trans hn, fun _ _ h => absurd hst' h, fun hbig => ?_, fun _ _ _ _ _ h => absurd hst' h,
      fun _ _ h => absurd hst' h⟩
    exact ⟨(of_vitals Ferry.fast (fun _ => rfl) hv).trans (hfast hbig).1, hbound (hfast hbig).2⟩
  next hst =>
    obtain ⟨hvf, hclockf, hdies, hstays⟩ := vinFalls_does mv (vinLow mv (vinTaken mv u))
    obtain ⟨honlyh, hpowh, hsumh, hnh, hfasth, hdeadh, hboundh, hidle, hholds⟩ := vinHolds_does mv (vinFalls mv (vinLow mv (vinTaken mv u)))
    have hv' := hvf.trans hv
    refine ⟨?_, ?_, ?_, fun hok hle _ => ?_, fun hbig => ⟨?_, ?_⟩, fun t0 hbad ht hlong hno _ => ?_, fun hlow hvin _ => ?_⟩
    · rw [hpowh]
      exact (of_vitals Ferry.powerNow (fun _ => rfl) hv').trans hpow
    · rw [hsumh]
      exact (of_vitals Ferry.sum1ms (fun _ => rfl) hv').trans hsum
    · rw [hnh]
      exact (of_vitals Ferry.n1ms (fun _ => rfl) hv').trans hn
    · have hhigh : ¬mv < 9500 := fun h => by
        have := of_decide_eq_true (Bool.and_eq_true_iff.1 hok).1
        omega
      have hnone : (vinTaken mv u).fer.vinOutSince = none := if_pos hok
      rw [hsame hok] at hstays hidle ⊢
      rw [hstays hhigh] at hidle ⊢
      rw [hidle hnone]
      exact ⟨(honly'.updFer _).eq, hmhz hle⟩
    · rw [hfasth]
      exact (of_vitals Ferry.fast (fun _ => rfl) hv').trans (hfast hbig).1
    · refine hboundh ?_
      rw [of_vitals lowestMhz (fun _ => rfl) hvf, of_vitals Ferry.mhz (fun _ => rfl) hvf]
      exact hbound (hfast hbig).2
    · refine hholds t0 ?_ ?_ ?_
      · refine (of_vitals Ferry.vinOutSince (fun _ => rfl) hv').trans ?_
        show (if vinOk mv = true then none else u.fer.vinOutSince <|> some u.clock) = some t0
        rw [hbad, if_neg Bool.false_ne_true, hout]
        show (s.fer.vinOutSince <|> some u.clock) = some t0
        rw [ht]
        rfl
      · rw [hclockf, hclock']
        show _ ≤ u.clock
        rw [hclock]
        exact hlong
      · exact (of_vitals Ferry.vinHeld (fun _ => rfl) hv').trans (hheld.trans hno)
    · obtain ⟨hrst, hoff, hdead⟩ := hdies hlow (hon'.trans (hon.trans hvin))
      obtain ⟨f, r, h⟩ := honlyh
      refine ⟨?_, ?_, hdeadh.trans hdead⟩
      · rw [h]
        exact hrst
      · rw [h]
        exact hoff

end Sys2Proof.Machine
end

section
/-!
PROOFS. Ferryman's sensors, the thermal trip and the loops of voltage and service conditions (O51).
-/
namespace Sys2Proof.Machine

/-! ## Samples taken in order -/

/-- A fold over pairs of different numbers: what holds of one number until its turn comes, and what then holds after it. -/
theorem foldl_turn {σ γ : Type} {f : σ → Nat × γ → σ} {l : List (Nat × γ)} (hl : (l.map Prod.fst).Nodup) {i : Nat} {x : γ} (hi : (i, x) ∈ l)
    {before after : σ → Prop} (hbefore : ∀ s e, e.1 ≠ i → before s → before (f s e)) (hturn : ∀ s, before s → after (f s (i, x)))
    (hafter : ∀ s e, e.1 ≠ i → after s → after (f s e)) {s : σ} (hs : before s) : after (l.foldl f s) := by
  have hkeep (l : List (Nat × γ)) (hl : i ∉ l.map Prod.fst) (s : σ) (hs : after s) : after (l.foldl f s) := by
    induction l generalizing s with
    | nil => exact hs
    | cons e l ih =>
      rw [List.map_cons, List.mem_cons, not_or] at hl
      exact ih hl.2 _ (hafter s e (Ne.symm hl.1) hs)
  induction l generalizing s with
  | nil => cases hi
  | cons e l ih =>
    rw [List.map_cons, List.nodup_cons] at hl
    rcases List.mem_cons.1 hi with he | hi
    · subst he
      exact hkeep l hl.1 _ (hturn s hs)
    · have hne : e.1 ≠ i := fun h => hl.1 (List.mem_map.2 ⟨_, hi, h.symm⟩)
      exact ih hl.2 hi (hbefore s e hne hs)

theorem mem_zip_of_getElem? {l : List Nat} {n i x : Nat} (hi : i < n) (hx : l[i]? = some x) : (i, x) ∈ (List.range n).zip l := by
  obtain ⟨hlt, hx⟩ := List.getElem?_eq_some_iff.1 hx
  have hlen : i < ((List.range n).zip l).length := by
    rw [List.length_zip, List.length_range]
    omega
  have hget : ((List.range n).zip l)[i] = (i, x) := by rw [List.getElem_zip, List.getElem_range, hx]
  exact hget ▸ List.getElem_mem hlen

/-! ## A sensor's crossings (R496, R503) -/

/-- The thermal setting is the floor, and the clock at or below it. -/
def Floored (f : Ferry) : Prop := f.thermal = 650 ∧ f.mhz ≤ 650

/-- Messages, the alert, registers and Ferryman's own state aside, nothing differs, and the trip stands. -/
def SensorsOnly (s t : State) : Prop :=
  ∃ o f r b, t = { s with out := o, fer := f, regs := r, brd := { s.brd with alert := b } } ∧ f.trip = s.fer.trip ∧ f.power = s.fer.power

/-- What one sensor's crossings leave: its samples, every other sensor, and a floor that is set. -/
structure Crossed (i : Nat) (s t : State) : Prop where
  only : SensorsOnly s t
  others : ∀ j, j ≠ i → t.fer.sensors.get {} j = s.fer.sensors.get {} j
  samples : (t.fer.sensors.get {} i).samples = (s.fer.sensors.get {} i).samples
  hotRun : (t.fer.sensors.get {} i).hotRun = (s.fer.sensors.get {} i).hotRun
  floored : Floored s.fer → Floored t.fer

theorem SensorsOnly.trans {s t u : State} (h : SensorsOnly s t) (k : SensorsOnly t u) : SensorsOnly s u := by
  obtain ⟨_, _, _, _, rfl, ht, hp⟩ := h
  obtain ⟨o, f, r, b, rfl, ht', hp'⟩ := k
  exact ⟨o, f, r, b, rfl, ht'.trans ht, hp'.trans hp⟩

theorem Crossed.trans {i : Nat} {s t u : State} (h : Crossed i s t) (k : Crossed i t u) : Crossed i s u where
  only := h.only.trans k.only
  others j hj := (k.others j hj).trans (h.others j hj)
  samples := k.samples.trans h.samples
  hotRun := k.hotRun.trans h.hotRun
  floored hf := k.floored (h.floored hf)

theorem Crossed.refl (i : Nat) (s : State) : Crossed i s s :=
  ⟨⟨_, _, _, _, rfl, rfl, rfl⟩, fun _ _ => rfl, rfl, rfl, id⟩

theorem Crossed.updFer {i : Nat} {f : Ferry → Ferry} {s : State} (htrip : (f s.fer).trip = s.fer.trip) (hpower : (f s.fer).power = s.fer.power)
    (hsens : (f s.fer).sensors = s.fer.sensors) (hfloor : Floored s.fer → Floored (f s.fer)) : Crossed i s (updFer f s) where
  only := ⟨_, _, _, _, rfl, htrip, hpower⟩
  others j _ := congrArg (Tbl.get {} · j) hsens
  samples := congrArg (fun t : Tbl Sensor => (t.get {} i).samples) hsens
  hotRun := congrArg (fun t : Tbl Sensor => (t.get {} i).hotRun) hsens
  floored := hfloor

theorem Crossed.fmnEvent (i bit : Nat) (s : State) : Crossed i s (fmnEvent bit s) :=
  ⟨⟨_, _, _, _, rfl, rfl, rfl⟩, fun _ _ => rfl, rfl, rfl, id⟩

theorem Crossed.pldmAlert (i sensor threshold up : Nat) (s : State) : Crossed i s (pldmAlert sensor threshold up s) :=
  ⟨⟨_, _, _, _, rfl, rfl, rfl⟩, fun _ _ => rfl, rfl, rfl, id⟩

theorem Crossed.crossRecord (i sensor : Nat) (s : State) : Crossed i s (crossRecord sensor s) :=
  ⟨⟨_, _, _, _, rfl, rfl, rfl⟩, fun _ _ => rfl, rfl, rfl, id⟩

theorem Crossed.settleClock (i : Nat) (s : State) : Crossed i s (settleClock s) := by
  obtain ⟨r, l, h⟩ := settleClock_eq s
  rw [h]
  exact .updFer rfl rfl rfl fun ⟨hth, hm⟩ => ⟨hth, (Nat.min_le_left ..).trans hm⟩

/-- A sensor's flags changed. -/
def sensorFlags (i : Nat) (g : Sensor → Sensor) (s : State) : State :=
  updFer (fun f => { f with sensors := Tbl.upd {} f.sensors i g }) s

theorem Crossed.flags {i : Nat} {g : Sensor → Sensor} (hs : ∀ q, (g q).samples = q.samples) (hh : ∀ q, (g q).hotRun = q.hotRun) (s : State) :
    Crossed i s (sensorFlags i g s) where
  only := ⟨_, _, _, _, rfl, rfl, rfl⟩
  others j hj := by
    show (Tbl.upd {} s.fer.sensors i g).get {} j = _
    rw [Tbl.get_upd, if_neg hj]
  samples := by
    show ((Tbl.upd {} s.fer.sensors i g).get {} i).samples = _
    rw [Tbl.get_upd, if_pos rfl, hs]
  hotRun := by
    show ((Tbl.upd {} s.fer.sensors i g).get {} i).hotRun = _
    rw [Tbl.get_upd, if_pos rfl, hh]
  floored := id

theorem Crossed.cross95 (i : Nat) (up : Bool) (s : State) : Crossed i s (cross95 i up s) := by
  unfold Machine.cross95
  extract_lets v u
  have hu : Crossed i s u := by
    have htime : Crossed i s (Machine.updFer (fun f => { f with thermalAt := s.clock }) s) := .updFer rfl rfl rfl id
    dsimp only [u]
    split
    · split
      · exact htime.trans (.fmnEvent ..)
      · exact htime
    · exact .refl i s
  exact (hu.trans (.crossRecord ..)).trans (.pldmAlert ..)

/-- The floor set by a junction over 103 °C. -/
def criticalFloor (s : State) : State :=
  settleClock (fmnEvent 0 (updFer (fun f => { f with thermal := floorMhz, thermalAt := s.clock }) s))

theorem criticalFloor_does (i : Nat) (s : State) : Crossed i s (criticalFloor s) ∧ Floored (criticalFloor s).fer := by
  have h := settleClock_settled (fmnEvent 0 (updFer (fun f => { f with thermal := floorMhz, thermalAt := s.clock }) s))
  have hth : (criticalFloor s).fer.thermal = 650 := h.limiters.2.2.1
  have hfloor : Floored (criticalFloor s).fer := ⟨hth, h.bounded.trans ((lowestMhz_le _).2.2.1.trans (Nat.le_of_eq hth))⟩
  refine ⟨?_, hfloor⟩
  have hset : Crossed i s (updFer (fun f => { f with thermal := floorMhz, thermalAt := s.clock }) s) :=
    .updFer rfl rfl rfl fun ⟨_, hm⟩ => ⟨rfl, hm⟩
  exact (hset.trans (.fmnEvent ..)).trans (.settleClock ..)

theorem cross103_does (i : Nat) (up : Bool) (s : State) : Crossed i s (cross103 i up s) ∧ (i < 64 → up = true → Floored (cross103 i up s).fer) := by
  have hone : cross103 i up s = pldmAlert i 103 (b2n up) (if i < 64 then crossRecord i (if up then criticalFloor s else s) else s) := rfl
  obtain ⟨hcrossed, hfloor⟩ := criticalFloor_does i s
  rw [hone]
  split
  next hi =>
    cases up with
    | false => exact ⟨(Crossed.crossRecord ..).trans (.pldmAlert ..), fun _ h => absurd h Bool.false_ne_true⟩
    | true =>
      rw [if_pos rfl]
      generalize criticalFloor s = u at hcrossed hfloor
      exact ⟨(hcrossed.trans (.crossRecord ..)).trans (.pldmAlert ..), fun _ _ => hfloor⟩
  next hi => exact ⟨.pldmAlert .., fun h => absurd h hi⟩

/-- The crossing of 95 °C, of 103 °C and of the fatal value, from the sensor as it stood. -/
def first95 (q : Sensor) (i sum n : Nat) (s : State) : State :=
  if crossing q.over95 sum n 95 then cross95 i (!q.over95) (sensorFlags i (fun q => { q with over95 := !q.over95 }) s) else s
def then103 (q : Sensor) (i sum n : Nat) (s : State) : State :=
  if crossing q.over103 sum n 103 then cross103 i (!q.over103) (sensorFlags i (fun q => { q with over103 := !q.over103 }) s) else s
def lastTop (q : Sensor) (i sum n top : Nat) (s : State) : State :=
  if crossing q.overTop sum n top then pldmAlert i top (b2n !q.overTop) (sensorFlags i (fun q => { q with overTop := !q.overTop }) s) else s

theorem crossings_eq (i sum n top : Nat) (s : State) : crossings i sum n top s =
    lastTop (s.fer.sensors.get {} i) i sum n top (then103 (s.fer.sensors.get {} i) i sum n (first95 (s.fer.sensors.get {} i) i sum n s)) := rfl

theorem Crossed.first95 (q : Sensor) (i sum n : Nat) (s : State) : Crossed i s (first95 q i sum n s) := by
  unfold Machine.first95
  split
  · have hup : Crossed i s (sensorFlags i (fun q => { q with over95 := !q.over95 }) s) := .flags (by intro; rfl) (by intro; rfl) s
    exact hup.trans (.cross95 ..)
  · exact .refl i s

theorem then103_does (q : Sensor) (i sum n : Nat) (s : State) : Crossed i s (then103 q i sum n s) ∧
    (i < 64 → q.over103 = false → 103 * n ≤ sum → Floored (then103 q i sum n s).fer) := by
  unfold then103
  split
  next hcross =>
    have hup : Crossed i s (sensorFlags i (fun q => { q with over103 := !q.over103 }) s) := .flags (by intro; rfl) (by intro; rfl) s
    generalize sensorFlags i (fun q => { q with over103 := !q.over103 }) s = w at hup
    obtain ⟨hc, hf⟩ := cross103_does i (!q.over103) w
    exact ⟨hup.trans hc, fun hi hq _ => hf hi (by rw [hq]; rfl)⟩
  next hcross =>
    refine ⟨.refl i s, fun _ hq hsum => absurd ?_ hcross⟩
    unfold crossing
    rw [hq]
    exact decide_eq_true hsum

theorem Crossed.lastTop (q : Sensor) (i sum n top : Nat) (s : State) : Crossed i s (lastTop q i sum n top s) := by
  unfold Machine.lastTop
  split
  · have hup : Crossed i s (sensorFlags i (fun q => { q with overTop := !q.overTop }) s) := .flags (by intro; rfl) (by intro; rfl) s
    exact hup.trans (.pldmAlert ..)
  · exact .refl i s

/-- The crossings of one sensor; a junction that was not over 103 °C and whose mean is sets the floor. -/
theorem crossings_does (i sum n top : Nat) (s : State) : Crossed i s (crossings i sum n top s) ∧
    (i < 64 → (s.fer.sensors.get {} i).over103 = false → 103 * n ≤ sum → Floored (crossings i sum n top s).fer) := by
  rw [crossings_eq]
  have h95 := Crossed.first95 (s.fer.sensors.get {} i) i sum n s
  generalize first95 (s.fer.sensors.get {} i) i sum n s = u at h95
  obtain ⟨h103, hfloor⟩ := then103_does (s.fer.sensors.get {} i) i sum n u
  generalize then103 (s.fer.sensors.get {} i) i sum n u = v at h103 hfloor
  have htop := Crossed.lastTop (s.fer.sensors.get {} i) i sum n top v
  exact ⟨(h95.trans h103).trans htop, fun hi hq hsum => htop.floored (hfloor hi hq hsum)⟩

/-! ## A thermal trip begins (R504) -/

/-- Ferryman's state but for its events, queued repairs, power queue and trip. -/
def calm (f : Ferry) : Ferry := { f with events := [], evSeq := 0, fuseQ := [], entering := none, powerQ := [], trip := none }

theorem of_calm {α : Type} (g : Ferry → α) (hg : ∀ f, g (calm f) = g f) {f f' : Ferry} (h : calm f' = calm f) : g f' = g f := by
  rw [← hg f', h, hg]

theorem heat_then {s t u : State} (h : heat t = heat s) (hs : u.mem.hbmStacks = t.mem.hbmStacks) : heat u = heat s := (heat_same hs).trans h

theorem back_diesOff (reason : Nat) (s : State) : back (diesOff reason s) = back s := by
  have hports : back ((List.range 8).foldl (fun s p => if (getPort s p).st = .down then s else portDown p reason s) s) = back s := by
    refine back_foldl (fun t p => ?_) _ s
    split
    · rfl
    · exact back_portDown p reason t
  refine Eq.trans ?_ hports
  unfold diesOff
  generalize (List.range 8).foldl (fun s p => if (getPort s p).st = .down then s else portDown p reason s) s = u
  rfl

theorem descs_diesOff (reason : Nat) (s : State) : (diesOff reason s).descs = s.descs := by
  have hports : ((List.range 8).foldl (fun s p => if (getPort s p).st = .down then s else portDown p reason s) s).descs = s.descs := by
    refine List.foldlRecOn (motive := fun t : State => t.descs = s.descs) _ _ rfl fun t ht p _ => Eq.trans ?_ ht
    split
    · rfl
    · simp only [portDown]
      (repeat' split) <;> rfl
  refine Eq.trans ?_ hports
  unfold diesOff
  generalize (List.range 8).foldl (fun s p => if (getPort s p).st = .down then s else portDown p reason s) s = u
  rfl

theorem descs_spoil (a len : Nat) (s : State) : (spoil a len s).descs = s.descs := by
  have hlines : ((s.mem.lines.filter fun e => decide (128 * e.1 < a + len) && decide (a < 128 * e.1 + 128)).foldl (fun s e =>
      match getLine s e.1 with
      | some l => setLine e.1 none (if l.dirty then hbmWr (128 * e.1) (lineBytes l) s else s)
      | none => s) s).descs = s.descs := by
    refine List.foldlRecOn (motive := fun t : State => t.descs = s.descs) _ _ rfl fun t ht e _ => Eq.trans ?_ ht
    split
    · split <;> rfl
    · rfl
  exact hlines

theorem tripBegins_stands {kind sensor temp : Nat} {s : State} (h : s.fer.trip.isSome = true ∨ s.fer.power = .standby) :
    tripBegins kind sensor temp s = s := by
  unfold tripBegins
  refine if_pos ?_
  rw [Bool.or_eq_true, decide_eq_true_eq]
  exact h

/-- What the beginning of a trip leaves. -/
structure TripBegun (kind : Nat) (s t : State) : Prop where
  fer : calm t.fer = calm s.fer
  trip : t.fer.trip = some { kind := kind, coolSince := none, cold := decide (kind = 1) }
  pin : t.brd.thermtrip = true
  dead : ∀ d ∈ t.descs, d.live = false
  heat : heat t = heat s

theorem tripBegins_does {s : State} (htrip : s.fer.trip = none) (hpower : s.fer.power ≠ .standby) (kind sensor temp : Nat) :
    TripBegun kind s (tripBegins kind sensor temp s) := by
  have hgo : ¬(s.fer.trip.isSome || decide (s.fer.power = .standby)) = true := by
    rw [htrip, decide_eq_false hpower]
    exact Bool.false_ne_true
  unfold tripBegins
  rw [if_neg hgo]
  extract_lets u halted ended off spoilt r b
  have hu : back u = back s ∧ heat u = heat s := ⟨rfl, heat_same rfl⟩
  have hhalted : back halted = back u ∧ heat halted = heat u :=
    ⟨back_foldl (fun t n => back_haltPart n _ t) _ u, heat_foldl (fun t n => heat_haltPart n _ t) _ u⟩
  have hended : back ended = back halted ∧ heat ended = heat halted ∧ ∀ d ∈ ended.descs, d.live = false := by
    refine ⟨rfl, heat_same rfl, fun d hd => ?_⟩
    obtain ⟨e, -, rfl⟩ := List.mem_map.1 hd
    split
    · rfl
    next h => exact Bool.eq_false_iff.2 h
  clear_value ended
  have hoff : calm off.fer = calm ended.fer ∧ heat off = heat ended ∧ off.descs = ended.descs := by
    obtain ⟨e, q, h⟩ := powerRequeue_frame (diesOff 8 ended)
    have hback := back_diesOff 8 ended
    have hheat := heat_diesOff 8 ended
    have hdescs := descs_diesOff 8 ended
    dsimp only [off]
    rw [h]
    generalize diesOff 8 ended = w at hback hheat hdescs
    have hcalm : calm w.fer = calm ended.fer := of_back (fun u : State => calm u.fer) (fun _ => rfl) hback
    exact ⟨hcalm, heat_then hheat rfl, hdescs⟩
  have hspoilt : calm spoilt.fer = calm off.fer ∧ heat spoilt = heat off ∧ spoilt.descs = off.descs := by
    dsimp only [spoilt]
    split
    · exact ⟨of_memRest (fun u : State => calm u.fer) (fun _ => rfl) (memRest_spoil 0 (capacity off) off), heat_spoil .., descs_spoil ..⟩
    · exact ⟨rfl, rfl, rfl⟩
  clear_value off spoilt
  have hfer : calm ended.fer = calm s.fer :=
    of_back (fun u : State => calm u.fer) (fun _ => rfl) (hended.1.trans (hhalted.1.trans hu.1))
  refine ⟨hspoilt.1.trans (hoff.1.trans hfer), rfl, rfl, fun d hd => hended.2.2 d ?_, ?_⟩
  · exact hoff.2.2 ▸ hspoilt.2.2 ▸ hd
  · exact heat_then (hspoilt.2.1.trans (hoff.2.1.trans (hended.2.1.trans (hhalted.2.trans hu.2)))) rfl

end Sys2Proof.Machine
end

section
/-!
PROOFS. O51: Ferryman's samples of temperature, the release of a trip, and the loops of supply, voltage and service conditions.
-/
namespace Sys2Proof.Machine

/-! ## One junction's sample (R496, R503, R504) -/

theorem samples_length (x : Nat) (l : List Nat) : ((x :: l).take 8).length = min 8 (l.length + 1) := List.length_take

/-- A sample enters its sensor. -/
def sampleTaken (e : Nat × Nat) (s : State) : State :=
  updFer (fun f => { f with sensors := Tbl.upd {} f.sensors e.1 fun q =>
    { q with samples := (e.2 :: q.samples).take 8, hotRun := if 110 ≤ e.2 then q.hotRun + 1 else 0 } }) s

/-- A sample and its crossings. -/
def junctionRead (e : Nat × Nat) (s : State) : State :=
  crossings e.1 ((sampleTaken e s).fer.sensors.get {} e.1).samples.sum ((sampleTaken e s).fer.sensors.get {} e.1).samples.length 110 (sampleTaken e s)

theorem junctionOne_eq (s : State) (e : Nat × Nat) : junctionOne s e =
    if 3 ≤ ((sampleTaken e s).fer.sensors.get {} e.1).hotRun then tripBegins 0 e.1 e.2 (junctionRead e s) else junctionRead e s := rfl

theorem sensor_sampleTaken (e : Nat × Nat) (s : State) (j : Nat) : (sampleTaken e s).fer.sensors.get {} j =
    if j = e.1 then { s.fer.sensors.get {} e.1 with
      samples := (e.2 :: (s.fer.sensors.get {} e.1).samples).take 8, hotRun := if 110 ≤ e.2 then (s.fer.sensors.get {} e.1).hotRun + 1 else 0 }
    else s.fer.sensors.get {} j := by
  unfold sampleTaken updFer
  dsimp only
  rw [Tbl.get_upd]

/-- What a sample and its crossings leave. -/
structure JunctionRead (e : Nat × Nat) (s t : State) : Prop where
  only : SensorsOnly s t
  others : ∀ j, j ≠ e.1 → t.fer.sensors.get {} j = s.fer.sensors.get {} j
  samples : (t.fer.sensors.get {} e.1).samples = (e.2 :: (s.fer.sensors.get {} e.1).samples).take 8
  floored : Floored s.fer → Floored t.fer
  crosses : e.1 < 64 → (s.fer.sensors.get {} e.1).over103 = false →
    103 * ((e.2 :: (s.fer.sensors.get {} e.1).samples).take 8).length ≤ ((e.2 :: (s.fer.sensors.get {} e.1).samples).take 8).sum → Floored t.fer

theorem junctionRead_does (e : Nat × Nat) (s : State) : JunctionRead e s (junctionRead e s) := by
  have hself := (sensor_sampleTaken e s e.1).trans (if_pos rfl)
  have hother (j : Nat) (hj : j ≠ e.1) := (sensor_sampleTaken e s j).trans (if_neg hj)
  have honly : SensorsOnly s (sampleTaken e s) := ⟨_, _, _, _, rfl, rfl, rfl⟩
  have hfloor : Floored s.fer → Floored (sampleTaken e s).fer := id
  unfold junctionRead
  generalize sampleTaken e s = u at hself hother honly hfloor
  obtain ⟨⟨hconly, hcothers, hcsamples, -, hcfloor⟩, hcross⟩ :=
    crossings_does e.1 (u.fer.sensors.get {} e.1).samples.sum (u.fer.sensors.get {} e.1).samples.length 110 u
  refine ⟨honly.trans hconly, fun j hj => (hcothers j hj).trans (hother j hj), hcsamples.trans (by rw [hself]), fun h => hcfloor (hfloor h),
    fun hi hq hsum => hcross hi ?_ ?_⟩
  · rw [hself]
    exact hq
  · rw [hself]
    exact hsum

/-- A trip is in force. -/
def Tripped (t : State) : Prop := t.fer.trip.isSome = true ∧ t.brd.thermtrip = true ∧ ∀ d ∈ t.descs, d.live = false

/-- No trip is in force yet, and one can begin; or one has begun. -/
def MayTrip (tripped : State → Prop) (t : State) : Prop := (t.fer.trip = none ∧ t.fer.power ≠ .standby) ∨ tripped t

theorem SensorsOnly.fields {s t : State} (h : SensorsOnly s t) : t.fer.trip = s.fer.trip ∧ t.fer.power = s.fer.power ∧
    t.brd.thermtrip = s.brd.thermtrip ∧ t.descs = s.descs ∧ t.mem = s.mem := by
  obtain ⟨o, f, r, b, rfl, ht, hp⟩ := h
  exact ⟨ht, hp, rfl, rfl, rfl⟩

theorem SensorsOnly.tripped {s t : State} (h : SensorsOnly s t) (ht : Tripped s) : Tripped t := by
  obtain ⟨htrip, -, hpin, hdescs, -⟩ := h.fields
  exact ⟨htrip ▸ ht.1, hpin.trans ht.2.1, hdescs ▸ ht.2.2⟩

/-- A trip begins where it can, and stands where it has begun. -/
theorem tripped_tripBegins {s : State} (h : MayTrip Tripped s) (kind sensor temp : Nat) : Tripped (tripBegins kind sensor temp s) := by
  rcases h with ⟨hnone, hpower⟩ | h
  · obtain ⟨-, htrip, hpin, hdead, -⟩ := tripBegins_does hnone hpower kind sensor temp
    exact ⟨by rw [htrip]; rfl, hpin, hdead⟩
  · rw [tripBegins_stands (.inl h.1)]
    exact h

/-- A trip changes neither the sensors nor the clock's limiters. -/
theorem calm_tripBegins (kind sensor temp : Nat) (s : State) : calm (tripBegins kind sensor temp s).fer = calm s.fer := by
  by_cases h : s.fer.trip = none ∧ s.fer.power ≠ .standby
  · exact (tripBegins_does h.1 h.2 kind sensor temp).fer
  · rw [tripBegins_stands]
    by_cases hp : s.fer.power = .standby
    · exact .inr hp
    · exact .inl (Option.isSome_iff_ne_none.2 fun hn => h ⟨hn, hp⟩)

/-- What one junction's sample leaves. -/
structure JunctionDone (e : Nat × Nat) (s t : State) : Prop where
  others : ∀ j, j ≠ e.1 → t.fer.sensors.get {} j = s.fer.sensors.get {} j
  samples : (t.fer.sensors.get {} e.1).samples = (e.2 :: (s.fer.sensors.get {} e.1).samples).take 8
  floored : Floored s.fer → Floored t.fer
  crosses : e.1 < 64 → (s.fer.sensors.get {} e.1).over103 = false →
    103 * ((e.2 :: (s.fer.sensors.get {} e.1).samples).take 8).length ≤ ((e.2 :: (s.fer.sensors.get {} e.1).samples).take 8).sum → Floored t.fer
  cool : e.2 < 110 → SensorsOnly s t
  may : MayTrip Tripped s → MayTrip Tripped t
  tripped : Tripped s → Tripped t
  trips : 110 ≤ e.2 → 2 ≤ (s.fer.sensors.get {} e.1).hotRun → MayTrip Tripped s → Tripped t

theorem junctionOne_does (s : State) (e : Nat × Nat) : JunctionDone e s (junctionOne s e) := by
  have hread := junctionRead_does e s
  have hhot : ((sampleTaken e s).fer.sensors.get {} e.1).hotRun = if 110 ≤ e.2 then (s.fer.sensors.get {} e.1).hotRun + 1 else 0 := by
    rw [sensor_sampleTaken, if_pos rfl]
  rw [junctionOne_eq, hhot]
  generalize junctionRead e s = u at hread
  obtain ⟨honly, hothers, hsamples, hfloor, hcross⟩ := hread
  obtain ⟨htrip, hpower, -, -, -⟩ := honly.fields
  have hmay : MayTrip Tripped s → MayTrip Tripped u := fun h =>
    h.imp (fun ⟨hnone, hp⟩ => ⟨htrip.trans hnone, hpower ▸ hp⟩) honly.tripped
  by_cases hrun : 3 ≤ (if 110 ≤ e.2 then (s.fer.sensors.get {} e.1).hotRun + 1 else 0)
  · rw [if_pos hrun]
    have hbig : 110 ≤ e.2 := by
      by_contra h
      rw [if_neg h] at hrun
      omega
    have hcalm := calm_tripBegins 0 e.1 e.2 u
    have hsensors := of_calm Ferry.sensors (fun _ => rfl) hcalm
    have hfloored : Floored u.fer → Floored (tripBegins 0 e.1 e.2 u).fer := fun ⟨hth, hm⟩ =>
      ⟨(of_calm Ferry.thermal (fun _ => rfl) hcalm).trans hth, (Nat.le_of_eq (of_calm Ferry.mhz (fun _ => rfl) hcalm)).trans hm⟩
    have htripped : MayTrip Tripped s → Tripped (tripBegins 0 e.1 e.2 u) := fun h => tripped_tripBegins (hmay h) 0 e.1 e.2
    generalize tripBegins 0 e.1 e.2 u = t at hcalm hsensors hfloored htripped
    exact ⟨fun j hj => by rw [hsensors]; exact hothers j hj, by rw [hsensors]; exact hsamples, fun h => hfloored (hfloor h),
      fun hi hq hsum => hfloored (hcross hi hq hsum), fun h => absurd hbig (Nat.not_le.2 h), fun h => .inr (htripped h),
      fun h => htripped (.inr h), fun _ _ h => htripped h⟩
  · rw [if_neg hrun]
    refine ⟨hothers, hsamples, hfloor, hcross, fun _ => honly, hmay, honly.tripped, fun hbig htwo => absurd ?_ hrun⟩
    rw [if_pos hbig]
    omega

theorem SensorsOnly.refl (s : State) : SensorsOnly s s := ⟨_, _, _, _, rfl, rfl, rfl⟩

/-- The junctions' samples (R496, R503, R504). -/
theorem junctionSample_does {s : State} (hrun : fmnRuns s = true) (dt : Nat) (temps : List Nat) : Does (.junctionSample dt temps) s fun t =>
    (∀ i x, i < 76 → temps[i]? = some x → (t.fer.sensors.get {} i).samples = (x :: (s.fer.sensors.get {} i).samples).take 8) ∧
    ((∀ x ∈ temps, x < 110) → t.cores = s.cores ∧ t.descs = s.descs ∧ t.parts = s.parts ∧ t.mem = s.mem ∧
      t.fer.trip.isSome = s.fer.trip.isSome) ∧
    (∀ i x, i < 64 → temps[i]? = some x → (s.fer.sensors.get {} i).over103 = false →
      (let l := (x :: (s.fer.sensors.get {} i).samples).take 8
       103 * l.length ≤ l.sum) → t.fer.thermal = 650 ∧ t.fer.mhz ≤ 650) ∧
    ((∃ i x, i < 76 ∧ temps[i]? = some x ∧ 110 ≤ x ∧ 2 ≤ (s.fer.sensors.get {} i).hotRun) → s.fer.trip = none → s.fer.power ≠ .standby →
      t.fer.trip.isSome = true ∧ t.brd.thermtrip = true ∧ ∀ d ∈ t.descs, d.live = false) := by
  refine ⟨tripCools (((List.range 76).zip temps).foldl junctionOne (pass dt s)), if_pos hrun, ?_⟩
  have hnodup := nodup_zip_range 76 temps
  have hsamples : ∀ i x, i < 76 → temps[i]? = some x → ((((List.range 76).zip temps).foldl junctionOne (pass dt s)).fer.sensors.get {} i).samples =
      (x :: (s.fer.sensors.get {} i).samples).take 8 := fun i x hi hx =>
    foldl_turn hnodup (mem_zip_of_getElem? hi hx) (before := fun u => (u.fer.sensors.get {} i).samples = (s.fer.sensors.get {} i).samples)
      (after := fun u => (u.fer.sensors.get {} i).samples = (x :: (s.fer.sensors.get {} i).samples).take 8)
      (fun u e he h => by rw [(junctionOne_does u e).others i (Ne.symm he)]; exact h)
      (fun u h => (junctionOne_does u (i, x)).samples.trans (by rw [h]))
      (fun u e he h => by rw [(junctionOne_does u e).others i (Ne.symm he)]; exact h) (s := pass dt s) rfl
  have hcool : (∀ x ∈ temps, x < 110) → SensorsOnly (pass dt s) (((List.range 76).zip temps).foldl junctionOne (pass dt s)) := fun h =>
    List.foldlRecOn (motive := SensorsOnly (pass dt s)) _ _ (.refl _) fun u hu e he =>
      hu.trans ((junctionOne_does u e).cool (h e.2 (List.of_mem_zip he).2))
  have hfloor : ∀ i x, i < 64 → temps[i]? = some x → (s.fer.sensors.get {} i).over103 = false →
      103 * ((x :: (s.fer.sensors.get {} i).samples).take 8).length ≤ ((x :: (s.fer.sensors.get {} i).samples).take 8).sum →
      Floored (((List.range 76).zip temps).foldl junctionOne (pass dt s)).fer := fun i x hi hx hq hsum =>
    foldl_turn hnodup (mem_zip_of_getElem? (by omega) hx) (before := fun u => u.fer.sensors.get {} i = s.fer.sensors.get {} i)
      (after := fun u => Floored u.fer) (fun u e he h => by rw [(junctionOne_does u e).others i (Ne.symm he)]; exact h)
      (fun u h => (junctionOne_does u (i, x)).crosses hi (by rw [h]; exact hq) (by rw [h]; exact hsum))
      (fun u e _ h => (junctionOne_does u e).floored h) (s := pass dt s) rfl
  have htrip : (∃ i x, i < 76 ∧ temps[i]? = some x ∧ 110 ≤ x ∧ 2 ≤ (s.fer.sensors.get {} i).hotRun) → s.fer.trip = none →
      s.fer.power ≠ .standby → Tripped (((List.range 76).zip temps).foldl junctionOne (pass dt s)) := fun ⟨i, x, hi, hx, hbig, htwo⟩ hnone hpower =>
    foldl_turn hnodup (mem_zip_of_getElem? hi hx)
      (before := fun u => u.fer.sensors.get {} i = s.fer.sensors.get {} i ∧ MayTrip Tripped u) (after := Tripped)
      (fun u e he h => ⟨by rw [(junctionOne_does u e).others i (Ne.symm he)]; exact h.1, (junctionOne_does u e).may h.2⟩)
      (fun u h => (junctionOne_does u (i, x)).trips hbig (by rw [h.1]; exact htwo) h.2)
      (fun u e _ h => (junctionOne_does u e).tripped h) ⟨rfl, .inl ⟨hnone, hpower⟩⟩
  generalize ((List.range 76).zip temps).foldl junctionOne (pass dt s) = u at hsamples hcool hfloor htrip
  have hsome : (tripCools u).fer.trip.isSome = u.fer.trip.isSome := Option.isSome_map
  refine ⟨hsamples, fun h => ?_, fun i x hi hx hq hsum => hfloor i x hi hx hq hsum, fun h hnone hpower => ?_⟩
  · obtain ⟨o, f, r, b, hu, ht, -⟩ := hcool h
    rw [hsome, hu]
    exact ⟨rfl, rfl, rfl, rfl, congrArg Option.isSome ht⟩
  · obtain ⟨ht, hpin, hdead⟩ := htrip h hnone hpower
    exact ⟨hsome.trans ht, hpin, hdead⟩

/-! ## One stack's sample (R302, R503, R504) -/

/-- A trip for a stack is in force. -/
def StackTripped (t : State) : Prop := (∃ r, t.fer.trip = some r ∧ r.kind = 1 ∧ r.cold = true) ∧ t.brd.thermtrip = true ∧ ∀ d ∈ t.descs, d.live = false

/-- A stack's sample and its crossings. -/
def stackRead (e : Nat × Nat) (s : State) : State :=
  crossings (76 + e.1) e.2 1 105 (sensorFlags (76 + e.1) (fun q => { q with samples := [e.2] }) s)

/-- The stack's own temperature. -/
def stackTaken (e : Nat × Nat) (s : State) : State :=
  updStack e.1 (fun k => { k with temp := e.2, hot := decide (85 < e.2), limited := (s.fer.sensors.get {} (76 + e.1)).over95 }) s

theorem stackOne_eq {s : State} {e : Nat × Nat} (h : (getStack s e.1).st ≠ .retired) : stackOne s e =
    if 105 ≤ e.2 then tripBegins 1 (76 + e.1) e.2 (stackTaken e (stackRead e s)) else stackTaken e (stackRead e s) := if_neg h

theorem stackRead_only (e : Nat × Nat) (s : State) : SensorsOnly s (stackRead e s) := by
  have hflags : SensorsOnly s (sensorFlags (76 + e.1) (fun q => { q with samples := [e.2] }) s) := ⟨_, _, _, _, rfl, rfl, rfl⟩
  exact hflags.trans (crossings_does ..).1.only

theorem heat_stackTaken (e : Nat × Nat) (s : State) (j : Nat) : heat (stackTaken e s) j =
    if j = e.1 then (e.2, decide (85 < e.2), decide ((getStack s j).st = .retired)) else heat s j := by
  unfold heat stackTaken
  rw [getStack_updStack]
  split
  next h => rw [h]
  next => rfl

/-- What one stack's sample leaves. -/
structure StackDone (e : Nat × Nat) (s t : State) : Prop where
  others : ∀ j, j ≠ e.1 → heat t j = heat s j
  self : (getStack s e.1).st ≠ .retired → heat t e.1 = (e.2, decide (85 < e.2), false)
  may : MayTrip StackTripped s → MayTrip StackTripped t
  tripped : StackTripped s → StackTripped t
  trips : (getStack s e.1).st ≠ .retired → 105 ≤ e.2 → MayTrip StackTripped s → StackTripped t

theorem stackTripped_tripBegins {s : State} (h : MayTrip StackTripped s) (sensor temp : Nat) : StackTripped (tripBegins 1 sensor temp s) := by
  rcases h with ⟨hnone, hpower⟩ | h
  · obtain ⟨-, htrip, hpin, hdead, -⟩ := tripBegins_does hnone hpower 1 sensor temp
    exact ⟨⟨_, htrip, rfl, rfl⟩, hpin, hdead⟩
  · rw [tripBegins_stands]
    · exact h
    · obtain ⟨⟨r, hr, -⟩, -⟩ := h
      exact .inl (by rw [hr]; rfl)

theorem heat_tripBegins (kind sensor temp : Nat) (s : State) : heat (tripBegins kind sensor temp s) = heat s := by
  by_cases h : s.fer.trip = none ∧ s.fer.power ≠ .standby
  · exact (tripBegins_does h.1 h.2 kind sensor temp).heat
  · rw [tripBegins_stands]
    by_cases hp : s.fer.power = .standby
    · exact .inr hp
    · exact .inl (Option.isSome_iff_ne_none.2 fun hn => h ⟨hn, hp⟩)

theorem stackOne_does (s : State) (e : Nat × Nat) : StackDone e s (stackOne s e) := by
  by_cases hret : (getStack s e.1).st = .retired
  · have hsame : stackOne s e = s := if_pos hret
    rw [hsame]
    exact ⟨fun _ _ => rfl, fun h => absurd hret h, id, id, fun h => absurd hret h⟩
  · rw [stackOne_eq hret]
    have honly := stackRead_only e s
    generalize stackRead e s = u at honly
    obtain ⟨htrip, hpower, hpin, hdescs, hmem⟩ := honly.fields
    have hstack : getStack u e.1 = getStack s e.1 := by rw [getStack, hmem, getStack]
    have hheat (j : Nat) : heat (stackTaken e u) j = if j = e.1 then (e.2, decide (85 < e.2), false) else heat s j := by
      rw [heat_stackTaken]
      by_cases hj : j = e.1
      · rw [if_pos hj, if_pos hj, hj, hstack, decide_eq_false hret]
      · rw [if_neg hj, if_neg hj, heat_of_mem hmem]
    have hst : StackTripped s → StackTripped (stackTaken e u) := fun ⟨⟨r, hr, hk⟩, hp, hd⟩ =>
      ⟨⟨r, htrip.trans hr, hk⟩, hpin.trans hp, fun d hdm => hd d (hdescs ▸ hdm)⟩
    have hmay : MayTrip StackTripped s → MayTrip StackTripped (stackTaken e u) := fun h =>
      h.imp (fun ⟨hnone, hp⟩ => ⟨htrip.trans hnone, fun h => hp (hpower.symm.trans h)⟩) hst
    generalize stackTaken e u = v at hheat hst hmay
    split
    next hbig =>
      have hv := heat_tripBegins 1 (76 + e.1) e.2 v
      have htripped : MayTrip StackTripped s → StackTripped (tripBegins 1 (76 + e.1) e.2 v) := fun h => stackTripped_tripBegins (hmay h) ..
      generalize tripBegins 1 (76 + e.1) e.2 v = t at hv htripped
      exact ⟨fun j hj => by rw [hv, hheat, if_neg hj], fun _ => by rw [hv, hheat, if_pos rfl], fun h => .inr (htripped h),
        fun h => htripped (.inr h), fun _ _ h => htripped h⟩
    next hsmall =>
      exact ⟨fun j hj => by rw [hheat, if_neg hj], fun _ => by rw [hheat, if_pos rfl], hmay, hst, fun _ h => absurd h hsmall⟩

theorem not_retired_of_heat {s t : State} {k : Nat} (h : heat t k = heat s k) (hs : (getStack s k).st ≠ .retired) : (getStack t k).st ≠ .retired := by
  unfold heat at h
  rw [Prod.mk.injEq, Prod.mk.injEq, decide_eq_decide] at h
  exact fun ht => hs (h.2.2.1 ht)

/-- The stacks' samples. -/
theorem stackTempSample_does {s : State} (hrun : fmnRuns s = true) (dt : Nat) (temps : List Nat) : Does (.stackTempSample dt temps) s fun t =>
    (∀ k x, k < 20 → temps[k]? = some x → (getStack s k).st ≠ .retired → (getStack t k).temp = x ∧ ((getStack t k).hot = true ↔ 85 < x)) ∧
    ((∃ k x, k < 20 ∧ temps[k]? = some x ∧ 105 ≤ x ∧ (getStack s k).st ≠ .retired) → s.fer.trip = none → s.fer.power ≠ .standby →
      (∃ r, t.fer.trip = some r ∧ r.kind = 1 ∧ r.cold = true) ∧ t.brd.thermtrip = true ∧ ∀ d ∈ t.descs, d.live = false) := by
  refine ⟨tripCools (((List.range 20).zip temps).foldl stackOne (pass dt s)), if_pos hrun, ?_⟩
  have hnodup := nodup_zip_range 20 temps
  have hpass (k : Nat) : heat (pass dt s) k = heat s k := congrFun (heat_of_mem (s := s) (t := pass dt s) rfl) k
  have htemp : ∀ k x, k < 20 → temps[k]? = some x → (getStack s k).st ≠ .retired →
      heat (((List.range 20).zip temps).foldl stackOne (pass dt s)) k = (x, decide (85 < x), false) := fun k x hk hx hret =>
    foldl_turn hnodup (mem_zip_of_getElem? hk hx) (before := fun u => heat u k = heat s k)
      (after := fun u => heat u k = (x, decide (85 < x), false))
      (fun u e he h => ((stackOne_does u e).others k (Ne.symm he)).trans h)
      (fun u h => (stackOne_does u (k, x)).self (not_retired_of_heat h hret))
      (fun u e he h => ((stackOne_does u e).others k (Ne.symm he)).trans h) (hpass k)
  have htrip : (∃ k x, k < 20 ∧ temps[k]? = some x ∧ 105 ≤ x ∧ (getStack s k).st ≠ .retired) → s.fer.trip = none → s.fer.power ≠ .standby →
      StackTripped (((List.range 20).zip temps).foldl stackOne (pass dt s)) := fun ⟨k, x, hk, hx, hbig, hret⟩ hnone hpower =>
    foldl_turn hnodup (mem_zip_of_getElem? hk hx) (before := fun u => heat u k = heat s k ∧ MayTrip StackTripped u) (after := StackTripped)
      (fun u e he h => ⟨((stackOne_does u e).others k (Ne.symm he)).trans h.1, (stackOne_does u e).may h.2⟩)
      (fun u h => (stackOne_does u (k, x)).trips (not_retired_of_heat h.1 hret) hbig h.2)
      (fun u e _ h => (stackOne_does u e).tripped h) ⟨hpass k, .inl ⟨hnone, hpower⟩⟩
  generalize ((List.range 20).zip temps).foldl stackOne (pass dt s) = u at htemp htrip
  refine ⟨fun k x hk hx hret => ?_, fun h hnone hpower => ?_⟩
  · have h := htemp k x hk hx hret
    unfold heat at h
    rw [Prod.mk.injEq, Prod.mk.injEq] at h
    exact ⟨h.1, (Bool.eq_iff_iff.1 h.2.1).trans decide_eq_true_iff⟩
  · obtain ⟨⟨r, hr, hk, hc⟩, hpin, hdead⟩ := htrip h hnone hpower
    exact ⟨⟨{ r with coolSince := _ }, congrArg (Option.map _) hr, hk, hc⟩, hpin, hdead⟩

end Sys2Proof.Machine
end

section
/-!
PROOFS. O51: the release of a trip, the loops of supply and voltage, the service conditions, and the obligation.
-/
namespace Sys2Proof.Machine

/-! ## The release of a trip (R504, R491) -/

/-- The trip ends, and counts as a rung-3 reset. -/
def tripEnded (dt : Nat) (s : State) : State :=
  { pass dt s with
    brd := { s.brd with thermtrip := false }
    fer := { s.fer with trip := none, rung3 := (s.clock + dt) :: s.fer.rung3.filter fun x => decide (s.clock + dt < x + hour) } }

theorem takeRung_back (r n : Nat) (st : Status) (s : State) : back (takeRung r n st s) = back s := back_takeRung r n st s

/-- A request for a power cycle, with the device in reset. -/
theorem powerCycle_does (s : State) : (powerCycle s).brd.pwrcyc = true ∧ (powerCycle s).rst.isSome = true ∧ (powerCycle s).fer.trip = s.fer.trip := by
  have hreset : ∃ u : State, u.rst.isSome = true ∧ u.fer.trip = s.fer.trip ∧ powerCycle s = takeRung 4 0 .deviceResetting
      { u with brd := { u.brd with pwrcyc := true }, fer := { u.fer with pwrcycSince := some u.clock, pwrcycReport := u.clock } } := by
    unfold powerCycle
    split
    next h => exact ⟨s, h, rfl, rfl⟩
    next =>
      refine ⟨warmReset s, by rw [rst_warmReset]; rfl, ?_, rfl⟩
      exact (of_back (s := warmCleared s) (fun u : State => u.fer.trip) (fun _ => rfl) (back_warmReset s) :)
  obtain ⟨u, hrst, htrip, h⟩ := hreset
  have hback := back_takeRung 4 0 .deviceResetting (s := { u with
    brd := { u.brd with pwrcyc := true }, fer := { u.fer with pwrcycSince := some u.clock, pwrcycReport := u.clock } })
  rw [h]
  refine ⟨?_, ?_, ?_⟩
  · exact of_back (fun u : State => u.brd.pwrcyc) (fun _ => rfl) hback
  · exact (of_back (fun u : State => u.rst.isSome) (fun _ => rfl) hback).trans hrst
  · exact (of_back (fun u : State => u.fer.trip) (fun _ => rfl) hback).trans htrip

theorem exec_thermtripRelease {s : State} {dt : Nat} {r : Trip} {c : Nat} (hr : s.fer.trip = some r) (hc : r.coolSince = some c)
    (hlong : c + 10000000000 ≤ s.clock + dt) : exec (.thermtripRelease dt) s = .next (
      if 2 ≤ (s.fer.rung3.filter fun x => decide (s.clock + dt < x + hour)).length then powerCycle (tripEnded dt s)
      else if r.cold then coldReset (tripEnded dt s)
      else match (tripEnded dt s).rst with
        | some q => { tripEnded dt s with rst := some { q with since := (tripEnded dt s).clock } }
        | none => warmReset (tripEnded dt s)) := by
  show execThermtripRelease dt s = _
  unfold execThermtripRelease
  dsimp only
  rw [hr]
  dsimp only
  rw [hc]
  refine (if_pos hlong).trans ?_
  rw [apply_ite Host.Outcome.next, apply_ite Host.Outcome.next]
  rfl

theorem coresCleared_of_nil {s t : State} (h : t.cores = []) : CoresCleared s t := by
  intro c
  have hget : getCore t c = {} := by
    unfold getCore
    rw [h]
    rfl
  rw [hget]
  exact ⟨rfl, fun _ => rfl⟩

theorem thermtripRelease_does {s : State} {dt : Nat} {r : Trip} {c : Nat} (hr : s.fer.trip = some r) (hc : r.coolSince = some c)
    (hlong : c + 10000000000 ≤ s.clock + dt) (hpower : s.fer.power ≠ .standby) : Does (.thermtripRelease dt) s fun t => t.fer.trip = none ∧
      (let often := 2 ≤ (s.fer.rung3.filter fun x => decide (s.clock + dt < x + hour)).length
       (often → t.brd.pwrcyc = true ∧ t.rst.isSome = true) ∧
       (¬often → t.brd.thermtrip = false ∧ (r.cold = true ∨ s.rst = none → t.parts = [] ∧ CoresCleared s t ∧ t.fer.epoch = s.fer.epoch + 1))) := by
  refine ⟨_, exec_thermtripRelease hr hc hlong, ?_⟩
  by_cases hoften : 2 ≤ (s.fer.rung3.filter fun x => decide (s.clock + dt < x + hour)).length
  · rw [if_pos hoften]
    obtain ⟨hcyc, hrst, htrip⟩ := powerCycle_does (tripEnded dt s)
    exact ⟨htrip, fun _ => ⟨hcyc, hrst⟩, fun h => absurd hoften h⟩
  · rw [if_neg hoften]
    cases hcold : r.cold with
    | true =>
      rw [if_pos rfl]
      have h := coldReset_cleared (s := tripEnded dt s) hpower rfl
      exact ⟨h.trip, fun ho => absurd ho hoften, fun _ => ⟨by rw [h.brd], fun _ => ⟨h.parts, coresCleared_of_nil h.cores, h.epoch⟩⟩⟩
    | false =>
      rw [if_neg Bool.false_ne_true]
      cases hrst : s.rst with
      | some q =>
        have hrst' : (tripEnded dt s).rst = some q := hrst
        rw [hrst']
        exact ⟨rfl, fun ho => absurd ho hoften, fun _ => ⟨rfl, fun h => h.elim (fun h => absurd h Bool.false_ne_true) (fun h => absurd h (by simp))⟩⟩
      | none =>
        have hrst' : (tripEnded dt s).rst = none := hrst
        rw [hrst']
        have hback := back_warmReset (tripEnded dt s)
        have hcores : CoresCleared s (warmReset (tripEnded dt s)) := cores_warmReset (tripEnded dt s)
        have hparts := parts_warmReset (tripEnded dt s)
        have htrip : (warmReset (tripEnded dt s)).fer.trip = none := of_back (fun u : State => u.fer.trip) (fun _ => rfl) hback
        have hpin : (warmReset (tripEnded dt s)).brd.thermtrip = false := of_back (fun u : State => u.brd.thermtrip) (fun _ => rfl) hback
        have hepoch : (warmReset (tripEnded dt s)).fer.epoch = s.fer.epoch + 1 := of_back (fun u : State => u.fer.epoch) (fun _ => rfl) hback
        exact ⟨htrip, fun ho => absurd ho hoften, fun _ => ⟨hpin, fun _ => ⟨hparts, hcores, hepoch⟩⟩⟩

/-! ## VIN recovers (R502) -/

theorem vinDead_coldReset {s : State} (hp : s.fer.power ≠ .standby) (ht : s.fer.trip = none) : (coldReset s).fer.vinDead = s.fer.vinDead := by
  have hclear : (coldClear s).fer.vinDead = s.fer.vinDead := by
    obtain ⟨e, q, h⟩ := powerRequeue_frame (resetEnds s)
    have hb := back_resetEnds s
    unfold coldClear
    rw [h]
    generalize resetEnds s = u at hb
    show u.fer.vinDead = s.fer.vinDead
    exact of_back (fun u : State => u.fer.vinDead) (fun _ => rfl) hb
  rw [coldReset_eq hp ht]
  split
  · exact hclear
  · refine Eq.trans ?_ hclear
    have hrst := coldClear_rst s
    generalize coldClear s = u at hrst
    cases hf : u.brd.fref with
    | false =>
      rw [coldBoot_noFref hf]
      rfl
    | true => exact (of_bootRest (s := booted u) (fun u : State => u.fer.vinDead) (fun _ => rfl) (bootRest_coldBoot hf hrst) :)

/-- VIN in range for 10 ms releases the floor of the supply. -/
def vinReleased (t0 dt : Nat) (s : State) : State :=
  if s.fer.vinHeld && t0 + 10000000 ≤ s.clock + dt then settleClock (updFer (fun f => { f with vinHeld := false, supply := topMhz }) (pass dt s))
  else pass dt s

theorem exec_vinRecovered {s : State} {t0 : Nat} (h : s.fer.vinInSince = some t0) (dt : Nat) : exec (.vinRecovered dt) s = .next (
    if (vinReleased t0 dt s).fer.vinDead && t0 + 100000000 ≤ s.clock + dt && (vinReleased t0 dt s).fer.power != .standby then
      coldReset { vinReleased t0 dt s with
        brd := { (vinReleased t0 dt s).brd with vinOn := true }, fer := { (vinReleased t0 dt s).fer with vinDead := false } }
    else vinReleased t0 dt s) := by
  show execVinRecovered dt s = _
  unfold execVinRecovered
  dsimp only
  rw [h]
  exact (apply_ite Host.Outcome.next _ _ _).symm

theorem vinReleased_fields (t0 dt : Nat) (s : State) : (vinReleased t0 dt s).fer.vinDead = s.fer.vinDead ∧
    (vinReleased t0 dt s).fer.power = s.fer.power ∧ (vinReleased t0 dt s).fer.trip = s.fer.trip ∧ (vinReleased t0 dt s).fer.epoch = s.fer.epoch := by
  unfold vinReleased
  split
  · obtain ⟨m, r, l, hf⟩ := (settleClock_settled (updFer (fun f => { f with vinHeld := false, supply := topMhz }) (pass dt s))).fields
    rw [hf]
    exact ⟨rfl, rfl, rfl, rfl⟩
  · exact ⟨rfl, rfl, rfl, rfl⟩

theorem vinRecovered_floor {s : State} {t0 dt : Nat} (h : s.fer.vinInSince = some t0) (hheld : s.fer.vinHeld = true)
    (hlong : t0 + 10000000 ≤ s.clock + dt) (hdead : s.fer.vinDead = false) : Does (.vinRecovered dt) s fun t =>
      t = { pass dt s with fer := t.fer, regs := t.regs } ∧ t.fer.vinHeld = false ∧ t.fer.supply = 1300 ∧ t.fer.mhz ≤ lowestMhz t.fer := by
  have hsettled := settleClock_settled (updFer (fun f => { f with vinHeld := false, supply := topMhz }) (pass dt s))
  have honly : FerryOnly (pass dt s) (settleClock (updFer (fun f => { f with vinHeld := false, supply := topMhz }) (pass dt s))) :=
    ((FerryOnly.refl _).updFer _).settleClock
  have hone : vinReleased t0 dt s = settleClock (updFer (fun f => { f with vinHeld := false, supply := topMhz }) (pass dt s)) := if_pos (by
    rw [hheld, decide_eq_true hlong]
    rfl)
  have hstays : ((vinReleased t0 dt s).fer.vinDead && decide (t0 + 100000000 ≤ s.clock + dt) && (vinReleased t0 dt s).fer.power != .standby) = false := by
    rw [(vinReleased_fields t0 dt s).1, hdead, Bool.false_and, Bool.false_and]
  refine ⟨vinReleased t0 dt s, (exec_vinRecovered h dt).trans (congrArg _ (if_neg (by rw [hstays]; exact Bool.false_ne_true))), ?_⟩
  rw [hone]
  obtain ⟨m, r, l, hf⟩ := hsettled.fields
  have hbound := hsettled.bounded
  generalize settleClock (updFer (fun f => { f with vinHeld := false, supply := topMhz }) (pass dt s)) = u at honly hf hbound
  refine ⟨honly.eq, ?_, ?_, hbound⟩ <;> rw [hf] <;> rfl

theorem vinRecovered_boots {s : State} {t0 dt : Nat} (h : s.fer.vinInSince = some t0) (hdead : s.fer.vinDead = true)
    (hlong : t0 + 100000000 ≤ s.clock + dt) (hpower : s.fer.power ≠ .standby) (htrip : s.fer.trip = none) : Does (.vinRecovered dt) s fun t =>
      t.parts = [] ∧ t.cores = [] ∧ t.fer.epoch = s.fer.epoch + 1 ∧ t.brd.vinOn = true ∧ t.fer.vinDead = false := by
  obtain ⟨hd, hp, ht, he⟩ := vinReleased_fields t0 dt s
  have hexec := exec_vinRecovered h dt
  generalize vinReleased t0 dt s = u at hd hp ht he hexec
  have hgo : (u.fer.vinDead && decide (t0 + 100000000 ≤ s.clock + dt) && u.fer.power != .standby) = true := by
    rw [hd, hdead, hp, decide_eq_true hlong]
    exact bne_iff_ne.2 hpower
  rw [if_pos hgo] at hexec
  refine ⟨_, hexec, ?_⟩
  have hnp : ({ u with brd := { u.brd with vinOn := true }, fer := { u.fer with vinDead := false } } : State).fer.power ≠ .standby := fun h =>
    hpower (hp.symm.trans h)
  have hnt : ({ u with brd := { u.brd with vinOn := true }, fer := { u.fer with vinDead := false } } : State).fer.trip = none := ht.trans htrip
  have hclear := coldReset_cleared hnp hnt
  have hvin := vinDead_coldReset hnp hnt
  generalize coldReset { u with brd := { u.brd with vinOn := true }, fer := { u.fer with vinDead := false } } = t at hclear hvin
  refine ⟨hclear.parts, hclear.cores, hclear.epoch.trans (congrArg (· + 1) he), ?_, hvin⟩
  rw [hclear.brd]

/-! ## VAUX (R502) -/

theorem vauxSample_does {s : State} (hrun : fmnRuns s = true) (dt mv : Nat) : Does (.vauxSample dt mv) s fun t =>
    t = { pass dt s with fer := t.fer, regs := t.regs } ∧ t.fer.vaux = mv ∧
    (3135 ≤ mv → mv ≤ 3465 → t.fer.vauxOutSince = none) ∧
    (mv < 3135 → s.fer.vauxOutSince = none → t.fer.vauxOutSince = some (s.clock + dt) ∧ t.fer.events = s.fer.events) ∧
    (∀ t0, mv < 3135 → s.fer.vauxOutSince = some t0 → t0 + 1000000 ≤ s.clock + dt → s.fer.vauxTold = false →
      ∃ e, t.fer.events.head? = some e ∧ e.kind = 0x13) := by
  have hrun' : fmnRuns (pass dt s) = true := hrun
  by_cases hok : (decide (3135 ≤ mv) && decide (mv ≤ 3465)) = true
  · have hin := of_decide_eq_true (Bool.and_eq_true_iff.1 hok).1
    have hexec : exec (.vauxSample dt mv) s = .next (updFer (fun f => { f with vaux := mv, vauxOutSince := none, vauxTold := false }) (pass dt s)) := by
      show execVauxSample dt mv s = _
      unfold execVauxSample
      dsimp only
      rw [hrun', hok]
      rfl
    exact ⟨_, hexec, rfl, rfl, fun _ _ => rfl, fun h => absurd hin (Nat.not_le.2 h), fun _ h => absurd hin (Nat.not_le.2 h)⟩
  · have hexec : exec (.vauxSample dt mv) s = .next (
        if s.fer.vauxOutSince.getD (s.clock + dt) + 1000000 ≤ s.clock + dt && !s.fer.vauxTold then
          vinRecord 1 mv (updFer (fun f => { f with vauxTold := true })
            (updFer (fun f => { f with vaux := mv, vauxOutSince := some (s.fer.vauxOutSince.getD (s.clock + dt)) }) (pass dt s)))
        else updFer (fun f => { f with vaux := mv, vauxOutSince := some (s.fer.vauxOutSince.getD (s.clock + dt)) }) (pass dt s)) := by
      show execVauxSample dt mv s = _
      unfold execVauxSample
      dsimp only
      rw [hrun', Bool.eq_false_iff.2 hok, if_neg (by decide), if_neg (by decide), apply_ite Host.Outcome.next]
      rfl
    have hout : 3135 ≤ mv → mv ≤ 3465 → False := fun h1 h2 => hok (Bool.and_eq_true_iff.2 ⟨decide_eq_true h1, decide_eq_true h2⟩)
    obtain ⟨v, hv⟩ : ∃ v, v = updFer (fun f => { f with vaux := mv, vauxOutSince := some (s.fer.vauxOutSince.getD (s.clock + dt)) }) (pass dt s) :=
      ⟨_, rfl⟩
    have honly : FerryOnly (pass dt s) v := by rw [hv]; exact (FerryOnly.refl _).updFer _
    have hmv : v.fer.vaux = mv := by rw [hv]; rfl
    have hsince : v.fer.vauxOutSince = some (s.fer.vauxOutSince.getD (s.clock + dt)) := by rw [hv]; rfl
    have hevents : v.fer.events = s.fer.events := by rw [hv]; rfl
    rw [← hv] at hexec
    clear hv
    refine ⟨_, hexec, ?_⟩
    split
    next hgo =>
      obtain ⟨e, he, hkind, -, -⟩ := events_head_postEvent { kind := 0x13, detail := packB [(1, 1), (2, mv)] }
        (updFer (fun f => { f with vauxTold := true }) v)
      refine ⟨((honly.updFer _).postEvent _).eq, hmv, fun h1 h2 => (hout h1 h2).elim, fun _ hnone => absurd hgo ?_, fun _ _ _ _ _ => ⟨e, he, hkind⟩⟩
      rw [hnone, Option.getD_none, decide_eq_false (by omega)]
      exact Bool.false_ne_true
    next hgo =>
      refine ⟨honly.eq, hmv, fun h1 h2 => (hout h1 h2).elim, fun _ hnone => ⟨?_, hevents⟩, fun t0 _ ht hlong htold => absurd ?_ hgo⟩
      · rw [hsince, hnone]
        rfl
      · rw [ht, Option.getD_some, decide_eq_true hlong, htold]
        rfl

/-! ## Voltage (R498, R499) -/

/-- A regulator's voltage set. -/
def voltagePut (d v : Nat) (s : State) : State := updFer (fun f => { f with domainMv := Tbl.set 6000 f.domainMv d v }) s

/-- A domain that has margin. -/
def marginHeld (d : Nat) (s : State) : State :=
  updFer (fun f => { f with
    marginOk := if f.raiseTo = 0 || f.marginOk.contains d then f.marginOk else d :: f.marginOk
    lowMargin := f.lowMargin.filter fun e => e != d }) s

section
variable {s : State} {d : Nat} (hd : d < 64) (hpower : s.fer.power = .active) (hsites : domainSites s d ≠ [])
include hd hpower hsites

/-- A regulator that serves running cores moves a step, stays, or reports too little margin. -/
theorem exec_regulatorAdjust (dt m : Nat) : exec (.regulatorAdjust dt d m) s = .next (
    if max s.fer.mhz s.fer.raiseTo ≤ m then
      marginHeld d (voltagePut d (if max s.fer.mhz s.fer.raiseTo < m then max 6000 (s.fer.domainMv.get 6000 d - 25) else s.fer.domainMv.get 6000 d)
        (pass dt s))
    else if s.fer.domainMv.get 6000 d < 9000 then voltagePut d (min 9000 (s.fer.domainMv.get 6000 d + 25)) (pass dt s)
    else if s.fer.lowMargin.contains d then pass dt s
    else domainMargin d (pass dt s)) := by
  have hgo : (decide (64 ≤ d) || (pass dt s).fer.power == .standby) = false := by
    rw [decide_eq_false (Nat.not_le.2 hd), show (pass dt s).fer.power = .active from hpower]
    rfl
  have hgated : domainGated (pass dt s) d = false := by
    unfold domainGated
    rw [show (pass dt s).fer.power = .active from hpower, show domainSites (pass dt s) d = domainSites s d from rfl]
    exact List.isEmpty_eq_false_iff.2 hsites
  show execRegulatorAdjust dt d m s = _
  unfold execRegulatorAdjust
  dsimp only
  rw [hgo, hgated, apply_ite Host.Outcome.next, apply_ite Host.Outcome.next, apply_ite Host.Outcome.next]
  rfl

theorem regulatorAdjust_does (dt m : Nat) :
    (max s.fer.mhz s.fer.raiseTo < m → Does (.regulatorAdjust dt d m) s fun t => t = { pass dt s with fer := t.fer, regs := t.regs } ∧
      t.fer.domainMv.get 6000 d = max 6000 (s.fer.domainMv.get 6000 d - 25)) ∧
    (max s.fer.mhz s.fer.raiseTo = m → Does (.regulatorAdjust dt d m) s fun t => t = { pass dt s with fer := t.fer, regs := t.regs } ∧
      t.fer.domainMv.get 6000 d = s.fer.domainMv.get 6000 d) ∧
    (m < max s.fer.mhz s.fer.raiseTo → s.fer.domainMv.get 6000 d < 9000 → Does (.regulatorAdjust dt d m) s fun t =>
      t = { pass dt s with fer := t.fer, regs := t.regs } ∧ t.fer.domainMv.get 6000 d = min 9000 (s.fer.domainMv.get 6000 d + 25)) ∧
    (m < max s.fer.mhz s.fer.raiseTo → 9000 ≤ s.fer.domainMv.get 6000 d → d ∉ s.fer.lowMargin → Does (.regulatorAdjust dt d m) s fun t =>
      t.fer.domainMargin.get none d = some (s.clock + dt) ∧ (∀ u ∈ domainSites s d, (getSite t u).marked = true) ∧
      ∃ e, t.fer.events.head? = some e ∧ e.kind = 0x14) := by
  have hexec := exec_regulatorAdjust hd hpower hsites dt m
  refine ⟨fun hlow => ?_, fun heq => ?_, fun hhigh hroom => ?_, fun hhigh hfull hnew => ?_⟩
  · rw [if_pos (Nat.le_of_lt hlow), if_pos hlow] at hexec
    exact ⟨_, hexec, rfl, Tbl.get_set_self ..⟩
  · rw [if_pos (Nat.le_of_eq heq), if_neg (by omega)] at hexec
    exact ⟨_, hexec, rfl, Tbl.get_set_self ..⟩
  · rw [if_neg (Nat.not_le.2 hhigh), if_pos hroom] at hexec
    exact ⟨_, hexec, rfl, Tbl.get_set_self ..⟩
  · rw [if_neg (Nat.not_le.2 hhigh), if_neg (Nat.not_lt.2 hfull), if_neg fun h => hnew (List.contains_iff_mem.1 h)] at hexec
    refine ⟨_, hexec, ?_⟩
    have hmarked : ∀ u ∈ domainSites s d, (getSite ((domainSites s d).foldl (fun s t => updSite t (fun k => { k with marked := true }) s)
        (pass dt s)) u).marked = true := fun u hu =>
      foldl_establishes (P := fun t u => (getSite t u).marked = true) (fun t u => by rw [getSite_updSite, if_pos rfl])
        (fun t u v h => by
          rw [getSite_updSite]
          split
          · rfl
          · exact h) hu _
    have hclock : ((domainSites s d).foldl (fun s t => updSite t (fun k => { k with marked := true }) s) (pass dt s)).clock = s.clock + dt :=
      List.foldlRecOn (motive := fun t : State => t.clock = s.clock + dt) _ _ rfl fun t ht _ _ => ht
    have hone : domainMargin d (pass dt s) = postEvent { kind := 0x14, detail := packB [(1, d), (2, 900)] }
        (fmnEvent 4 (updFer (fun f => { f with
          domainMargin := Tbl.set none f.domainMargin d (some ((domainSites s d).foldl
            (fun s t => updSite t (fun k => { k with marked := true }) s) (pass dt s)).clock), lowMargin := d :: f.lowMargin })
          ((domainSites s d).foldl (fun s t => updSite t (fun k => { k with marked := true }) s) (pass dt s)))) := rfl
    rw [hone]
    generalize (domainSites s d).foldl (fun s t => updSite t (fun k => { k with marked := true }) s) (pass dt s) = u at hmarked hclock
    obtain ⟨e, he, hkind, -, -⟩ := events_head_postEvent { kind := 0x14, detail := packB [(1, d), (2, 900)] }
      (fmnEvent 4 (updFer (fun f => { f with domainMargin := Tbl.set none f.domainMargin d (some u.clock), lowMargin := d :: f.lowMargin }) u))
    refine ⟨?_, hmarked, e, he, hkind⟩
    show (Tbl.set none u.fer.domainMargin d (some u.clock)).get none d = _
    rw [Tbl.get_set_self, hclock]

end

theorem clockRaise_does {s : State} (hraise : s.fer.raiseTo ≠ 0) (hok : ∀ d < 64, d ∈ s.fer.marginOk) (dt : Nat) : exec (.clockRaise dt) s =
    .next { pass dt s with fer := { s.fer with mhz := s.fer.raiseTo, raiseTo := 0, marginOk := [] } } := by
  have hgo : (s.fer.raiseTo != 0 && (List.range 64).all fun d => s.fer.marginOk.contains d) = true := by
    rw [bne_iff_ne.2 hraise, Bool.true_and, List.all_eq_true]
    exact fun d hd => List.contains_iff_mem.2 (hok d (List.mem_range.1 hd))
  exact if_pos hgo

theorem domainReport_does (s : State) (dt : Nat) : Does (.domainReport dt) s fun t => t = { pass dt s with fer := t.fer, regs := t.regs } ∧
    ∀ d < 64, t.fer.domainReported.get 0 d = s.fer.domainMv.get 6000 d / 10 := by
  refine ⟨_, rfl, rfl, fun d hd => ?_⟩
  have hnodup : (((List.range 64).map fun d => (d, s.fer.domainMv.get 6000 d / 10)).map Prod.fst).Nodup := by
    rw [List.map_map]
    exact (List.map_id (List.range 64)).symm ▸ List.nodup_range
  have hmem : (d, s.fer.domainMv.get 6000 d / 10) ∈ (List.range 64).map fun d => (d, s.fer.domainMv.get 6000 d / 10) :=
    List.mem_map.2 ⟨d, List.mem_range.2 hd, rfl⟩
  have h := get_foldl_set hnodup hmem s.fer.domainReported
  rw [List.foldl_map] at h
  exact h

/-! ## Service conditions (R520) -/

/-- One service bit is set and reported. -/
def serviceBit (s : State) (i : Nat) : State :=
  postEvent { kind := 0x23, detail := (s.fer.service ||| BitVec.ofNat 7 (2 ^ i)).toNat }
    (orReg (bFmn + 0x14) 0x20 { s with fer := { s.fer with service := s.fer.service ||| BitVec.ofNat 7 (2 ^ i) } })

theorem serviceBits (l : List Nat) (s : State) : FerryOnly s (l.foldl serviceBit s) ∧
    ∀ j < 7, (l.foldl serviceBit s).fer.service.getLsbD j = (s.fer.service.getLsbD j || decide (j ∈ l)) := by
  induction l generalizing s with
  | nil => exact ⟨.refl s, fun j _ => by rw [List.foldl_nil, decide_eq_false List.not_mem_nil, Bool.or_false]⟩
  | cons i l ih =>
    obtain ⟨⟨f, r, h⟩, hbits⟩ := ih (serviceBit s i)
    refine ⟨⟨f, r, h⟩, fun j hj => (hbits j hj).trans ?_⟩
    have hone : (serviceBit s i).fer.service = s.fer.service ||| BitVec.ofNat 7 (2 ^ i) := rfl
    rw [hone, BitVec.getLsbD_or, BitVec.getLsbD_ofNat, Nat.testBit_two_pow, decide_eq_true hj, Bool.true_and, Bool.or_assoc]
    congr 1
    rw [← Bool.decide_or, decide_eq_decide, List.mem_cons]
    exact or_congr_left eq_comm

theorem errorCountSample_does {s : State} (hrun : fmnRuns s = true) (dt : Nat) : Does (.errorCountSample dt) s fun t =>
    t = { pass dt s with fer := t.fer, regs := t.regs } ∧ t.fer.serviceCond = serviceNow (pass dt s) ∧
    t.fer.service = s.fer.service ||| (serviceNow (pass dt s) &&& ~~~s.fer.serviceCond) := by
  refine ⟨serviceUpdate (pass dt s), if_pos hrun, ?_⟩
  have hone : serviceUpdate (pass dt s) = updFer (fun f => { f with serviceCond := serviceNow (pass dt s) })
      (((List.range 7).filter fun i => bitOf (serviceNow (pass dt s)).toNat i && !bitOf s.fer.serviceCond.toNat i).foldl serviceBit (pass dt s)) := rfl
  obtain ⟨honly, hbits⟩ := serviceBits
    ((List.range 7).filter fun i => bitOf (serviceNow (pass dt s)).toNat i && !bitOf s.fer.serviceCond.toNat i) (pass dt s)
  rw [hone]
  refine ⟨(honly.updFer _).eq, rfl, BitVec.eq_of_getLsbD_eq fun j hj => (hbits j hj).trans ?_⟩
  have hmem : decide (j ∈ (List.range 7).filter fun i => bitOf (serviceNow (pass dt s)).toNat i && !bitOf s.fer.serviceCond.toNat i) =
      ((serviceNow (pass dt s)).getLsbD j && !s.fer.serviceCond.getLsbD j) := by
    rw [← BitVec.testBit_toNat, ← BitVec.testBit_toNat, ← bitOf_eq_testBit, ← bitOf_eq_testBit, Bool.eq_iff_iff, decide_eq_true_iff,
      List.mem_filter, List.mem_range]
    exact and_iff_right hj
  rw [hmem, BitVec.getLsbD_or, BitVec.getLsbD_and, BitVec.getLsbD_not, decide_eq_true hj, Bool.true_and]
  rfl

/-- Settles O51, loop by loop. -/
theorem ferrymanLoops : Obligations.FerrymanLoops := by
  unfold Obligations.FerrymanLoops
  intro s dt hrun now f bounded quiet
  exact ⟨fun temps => junctionSample_does hrun dt temps, fun temps => stackTempSample_does hrun dt temps,
    fun r c hr hc hlong hpower => thermtripRelease_does hr hc hlong hpower,
    fun hcrit => ⟨fun hhot hlong habove => thermalStep_falls hrun hcrit hhot hlong habove,
      fun hcool hlong hbelow => thermalStep_rises hrun hcrit hcool hlong hbelow⟩,
    fun mv ma => vinSample_does hrun dt mv ma,
    fun t0 ht => ⟨fun hheld hlong hdead => vinRecovered_floor ht hheld hlong hdead,
      fun hdead hlong hpower htrip => vinRecovered_boots ht hdead hlong hpower htrip⟩,
    fun mv => vauxSample_does hrun dt mv, fun hn => powerMean_does hrun hn,
    fun hbelow hcut hlong hwatts => powerRecovers hrun hbelow hcut hlong hwatts, fun hbelow hlong => fastRecovers hrun hbelow hlong,
    fun d m hd hpower hsites => regulatorAdjust_does hd hpower hsites dt m, fun hraise hok => clockRaise_does hraise hok dt,
    domainReport_does s dt, errorCountSample_does hrun dt⟩

end Sys2Proof.Machine
end

section
/-!
PROOFS. O36: SIGNAL and WAIT packets of other nodes (R335, R339 to R345, R366, R368): how an admitted request reaches what carries it out,
what a signal's parts do, and how a wait of another node is answered.
-/
namespace Sys2Proof.Machine

/-! ## What replies keep of a port (R364) -/

/-- Packets that have left a port or wait there stay, and an UP port stays UP. -/
structure Flows (p : Nat) (s t : State) : Prop where
  up : portUp t p = portUp s p
  kept : ∀ k, (.packet p k ∈ s.out ∨ k ∈ (getPort s p).queue) → (.packet p k ∈ t.out ∨ k ∈ (getPort t p).queue)

theorem Flows.refl (p : Nat) (s : State) : Flows p s s := ⟨rfl, fun _ h => h⟩

theorem Flows.trans {p : Nat} {s t u : State} (h : Flows p s t) (k : Flows p t u) : Flows p s u :=
  ⟨k.up.trans h.up, fun x hx => k.kept x (h.kept x hx)⟩

theorem Flows.sends {p : Nat} {s t : State} {P : Packet → Prop} (h : Flows p s t) (k : Sends s p P) : Sends t p P := by
  obtain ⟨x, hx, hp⟩ := k
  exact ⟨x, h.kept x hx, hp⟩

/-- What changes neither messages nor ports. -/
theorem Flows.of_same {p : Nat} {s t : State} (ho : t.out = s.out) (hp : t.fab.ports = s.fab.ports) : Flows p s t := by
  have h : getPort t p = getPort s p := by rw [getPort, getPort, hp]
  exact ⟨by rw [portUp, portUp, h], fun k hk => by rw [ho, h]; exact hk⟩

/-- A port that keeps its state and the packets that wait there. -/
theorem Flows.updPort {p : Nat} {s : State} (q : Nat) {f : Port → Port} (hst : ∀ x, (f x).st = x.st)
    (hq : ∀ x, x.queue ⊆ (f x).queue) : Flows p s (updPort q f s) := by
  have hget : getPort (Machine.updPort q f s) p = if p = q then f (getPort s q) else getPort s p := Tbl.get_upd ..
  constructor
  · rw [portUp, hget, portUp]
    split
    next h => rw [hst, h]
    next => rfl
  · intro k hk
    refine hk.imp id fun hk => ?_
    rw [hget]
    split
    next h => exact hq _ (h ▸ hk)
    next => exact hk

theorem Flows.calm {p : Nat} {s : State} (q : Nat) {f : Port → Port} (hst : ∀ x, (f x).st = x.st)
    (hq : ∀ x, (f x).queue = x.queue) : Flows p s (Machine.updPort q f s) :=
  .updPort q hst fun x => by rw [hq]; exact List.Subset.refl _

theorem Flows.updRx (p node flow vc : Nat) (f : SeqRx → SeqRx) (s : State) : Flows p s (updRx node flow vc f s) := .of_same rfl rfl

theorem Flows.emit (p : Nat) (o : Out) (s : State) : Flows p s (emit o s) :=
  ⟨rfl, fun _ h => h.imp (List.mem_cons_of_mem _) id⟩

theorem Flows.portPut (p q n : Nat) (o : Out) (s : State) : Flows p s (portPut q n o s) :=
  .trans (.calm q (by intro; rfl) (by intro; rfl)) (.emit ..)

theorem Flows.sendLink (p q : Nat) (resend : Bool) (s : State) : Flows p s (sendLink q resend s) :=
  .trans (.portPut p q 1 _ s) (.calm q (by intro; rfl) (by intro; rfl))

theorem Flows.linkDue (p q : Nat) (s : State) : Flows p s (linkDue q s) := by
  unfold Machine.linkDue
  split
  · exact .sendLink ..
  · exact .refl ..

theorem Flows.packetLeaves (p q : Nat) (k : Packet) (s : State) : Flows p s (packetLeaves q k s) :=
  .trans (.calm q (by intro; rfl) (by intro; rfl)) (.portPut ..)

theorem Flows.portSend (p q : Nat) (k : Packet) (s : State) : Flows p s (portSend q k s) := by
  unfold Machine.portSend
  dsimp only
  split
  · exact .updPort q (by intro; rfl) (by intro; exact List.subset_append_left _ _)
  · exact (Flows.packetLeaves ..).trans (.linkDue ..)

theorem Flows.sendReply (p q : Nat) (k : Packet) (s : State) : Flows p s (sendReply q k s) := by
  unfold Machine.sendReply
  split
  · exact .portSend ..
  · split
    · exact .portSend ..
    · exact .refl ..

theorem Flows.rxCodewords (p q n : Nat) (s : State) : Flows p s (rxCodewords q n s) :=
  .trans (.calm q (by intro; rfl) (by intro; rfl)) (.linkDue ..)

theorem Flows.freeBuffer (p q : Nat) (k : Packet) (s : State) : Flows p s (freeBuffer q k s) := by
  unfold Machine.freeBuffer
  split
  · exact .trans (.calm q (by intro; rfl) (by intro; rfl)) (.sendLink ..)
  · exact .refl ..

/-- A packet sent on an UP port leaves it, or waits there. -/
theorem sends_portSend {P : Packet → Prop} {k : Packet} (hk : P k) (p : Nat) (s : State) : Sends (portSend p k s) p P := by
  unfold portSend
  dsimp only
  split
  · refine ⟨k, .inr ?_, hk⟩
    rw [getPort, updPort, Tbl.get_upd, if_pos rfl]
    exact List.mem_append_right _ List.mem_cons_self
  · exact (Flows.linkDue p p _).sends ⟨k, .inl List.mem_cons_self, hk⟩

/-! ## Acknowledgements (R372) -/

theorem wire_rxCodewords (p n : Nat) (s : State) : wire (rxCodewords p n s) = wire s := by
  rw [rxCodewords, wire_linkDue, wire_updPort]

theorem wire_updRx (node flow vc : Nat) (f : SeqRx → SeqRx) (s : State) : wire (updRx node flow vc f s) = wire s := rfl

theorem wire_countOwed (node flow vc tag job : Nat) (s : State) : wire (countOwed node flow vc tag job s) = wire s := by
  unfold countOwed
  dsimp only
  split
  · rw [sendCumulative]
    exact (wire_sendAck ..).trans rfl
  · rfl

theorem Flows.countOwed (p node flow vc tag job : Nat) (s : State) : Flows p s (countOwed node flow vc tag job s) := by
  unfold Machine.countOwed
  dsimp only
  split
  · rw [sendCumulative, sendAck]
    exact .trans (.updRx ..) (.trans (.updRx ..) (.sendReply ..))
  · exact .updRx ..

theorem wire_ackParts (l : List Origin) (s : State) : wire (ackParts l s) = wire s := by
  refine List.foldlRecOn (motive := fun t => wire t = wire s) _ _ rfl fun t ht o _ => ?_
  cases o with
  | remote n flow vc psn tag job port => exact (wire_countOwed ..).trans ht
  | _ => exact ht

/-! ## An admitted request (R365, R372, R375) -/

/-- The state in which an admitted request's sequence has counted it. -/
def arrived (p : Nat) (k : Packet) (s : State) : State :=
  updRx k.src k.flow k.vc (fun r => { r with expected := some ((k.psn + 1) % 2 ^ 24), port := p }) (rxCodewords p (pktCodewords k) s)

theorem wire_arrived (p : Nat) (k : Packet) (s : State) : wire (arrived p k s) = wire s := by
  rw [arrived, wire_updRx, wire_rxCodewords]

theorem Flows.arrived (p : Nat) (k : Packet) (s : State) : Flows p s (arrived p k s) :=
  (Flows.rxCodewords ..).trans (.of_same rfl rfl)

theorem getRx_rxCodewords (p n node flow vc : Nat) (s : State) : getRx (rxCodewords p n s) node flow vc = getRx s node flow vc := by
  unfold rxCodewords linkDue
  split <;> rfl

theorem psnDist_self (a : Nat) : psnDist a a = 0 := by
  rw [psnDist, Nat.add_sub_cancel_left, Nat.mod_self]

theorem unpark_empty {u : State} (hu : u.fab.parked = []) : unpark u = u := by
  rw [unpark, hu]; rfl

/-- The packets that wait on their VCs replaced. -/
def parkedAs (l : List Parked) (s : State) : State := { s with fab := { s.fab with parked := l } }

theorem wire_parkedAs {s t : State} (h : wire t = wire s) (l : List Parked) : wire (parkedAs l t) = wire (parkedAs l s) :=
  show parkedAs l (wire t) = parkedAs l (wire s) by rw [h]

section
variable {s : State} {p n : Nat} {k : Packet} (h : Admitted s p k n)
include h

theorem arriveCheck_admitted : arriveCheck p k (rxCodewords p (pktCodewords k) s) = (.fresh, arrived p k s) := by
  have hepoch : (rxCodewords p (pktCodewords k) s).fab.epochs = s.fab.epochs :=
    of_wire (fun t => t.fab.epochs) (fun _ => rfl) (wire_rxCodewords ..)
  unfold arriveCheck
  rw [hepoch, h.epoch]
  dsimp only
  rw [if_pos rfl, arriveSeq, getRx_rxCodewords, h.expected, Option.getD_some, psnDist_self]
  rfl

/-- In any state that differs in traffic only, an admitted request is carried out, or waits for room in the signal store. -/
theorem admitNew_admitted {u : State} (hu : wire u = wire s) (app : Nat → State → State) : admitNew p k app u =
    if signalFull s k then parkPacket p k true (updRx k.src k.flow k.vc (fun r => { r with openPsns := r.openPsns ++ [k.psn] }) u)
    else freeBuffer p k (app n u) := by
  have hjob : jobPart u k.job = some n := (of_wire (fun t => jobPart t k.job) (fun _ => rfl) hu).trans h.job
  have hfits : fits u n k = true := (of_wire (fun t => fits t n k) (fun _ => rfl) hu).trans h.ranges
  have hpresent : attemptOrder u n k = 0 := (of_wire (fun t => attemptOrder t n k) (fun _ => rfl) hu).trans h.present
  have hfull : signalFull u k = signalFull s k := of_wire (fun t => signalFull t k) (fun _ => rfl) hu
  unfold admitNew
  rw [hjob]
  dsimp only
  rw [hfits, hpresent, hfull, if_neg (by decide), if_neg (by decide), if_neg (by decide)]

/-- An admitted request of one destination comes to `admitNew`. -/
theorem request_admitted : request true p k false s = unpark (admitNew p k (applyFull p k false) (arrived p k s)) := by
  have hblocked : vcBlocked (rxCodewords p (pktCodewords k) s) p k.vc = false :=
    (of_wire (fun t => vcBlocked t p k.vc) (fun _ => rfl) (wire_rxCodewords ..)).trans h.unblocked
  unfold request
  rw [if_pos rfl, unpark_empty h.parked, arriveOn, h.up, if_neg (by decide)]
  dsimp only
  rw [if_neg (by rw [bne_iff_ne]; exact not_not_intro h.intact), hblocked]
  rw [Bool.not_false, if_pos rfl, takeUp, h.single, if_neg (by decide), admitPacket, arriveCheck_admitted h]

/-- An admitted request with room is carried out, and its buffer freed. -/
theorem request_done (hfull : signalFull s k = false) (hu : (applyFull p k false n (arrived p k s)).fab.parked = []) :
    request true p k false s = freeBuffer p k (applyFull p k false n (arrived p k s)) := by
  rw [request_admitted h, admitNew_admitted h (wire_arrived ..), hfull, if_neg (by decide), unpark_empty]
  exact (of_wire (fun t => t.fab.parked) (fun _ => rfl) (wire_freeBuffer ..)).trans hu

/-- A part that finds no room waits, and is counted by its sequence (R335). -/
theorem request_waits (hfull : signalFull s k = true) :
    wire (request true p k false s) = wire (parkedAs [{ port := p, pkt := k, taken := true }] s) := by
  obtain ⟨u, hu⟩ : ∃ u, u = updRx k.src k.flow k.vc (fun r => { r with openPsns := r.openPsns ++ [k.psn] }) (arrived p k s) := ⟨_, rfl⟩
  have huw : wire u = wire s := by rw [hu, wire_updRx, wire_arrived]
  have hparked : u.fab.parked = [] := (of_wire (fun t => t.fab.parked) (fun _ => rfl) huw).trans h.parked
  have hblocked : vcBlocked u p k.vc = false := (of_wire (fun t => vcBlocked t p k.vc) (fun _ => rfl) huw).trans h.unblocked
  have hpark {v : State} (hv : v.fab.parked = []) : parkPacket p k true v = parkedAs [{ port := p, pkt := k, taken := true }] v := by
    rw [parkPacket, hv]; rfl
  have hone : unpark (parkPacket p k true u) = unparkOne u { port := p, pkt := k, taken := true } := by
    rw [hpark hparked]
    show unparkOne (parkedAs [] u) _ = _
    rw [show parkedAs [] u = u by rw [parkedAs, ← hparked]]
  have hclosed : wire (closePsn k.src k.flow k.vc k.psn u) = wire s := huw
  rw [request_admitted h, admitNew_admitted h (wire_arrived ..), hfull, if_pos rfl, ← hu, hone, unparkOne, hblocked,
    if_neg (by decide), if_pos rfl, readmit, admitNew_admitted h hclosed, hfull, if_pos rfl]
  have hclosedAgain : wire (updRx k.src k.flow k.vc (fun r => { r with openPsns := r.openPsns ++ [k.psn] })
    (closePsn k.src k.flow k.vc k.psn u)) = wire s := huw
  rw [hpark ((of_wire (fun t => t.fab.parked) (fun _ => rfl) hclosedAgain).trans h.parked)]
  exact wire_parkedAs hclosedAgain _

end

/-! ## A signal's increment (R339, R344, R345) -/

/-- What an increment does at its counter: outside the range an event, else a sum that its counter's end bounds. -/
structure Added (s t : State) (m i inc c : Nat) : Prop where
  mem : t.mem = s.mem
  others : ∀ b, b ≠ c → getCounter t b = getCounter s b
  held : isSaturated s c = true → getCounter t c = getCounter s c
  sum : isSaturated s c = false → getCounter t c = BitVec.ofNat 64 (min (2 ^ 64 - 1) ((getCounter s c).toNat + inc)) ∧
    isSaturated t c = decide (2 ^ 64 ≤ (getCounter s c).toNat + inc)

theorem Added.of_same {s t u : State} {m i inc c : Nat} (h : Added s t m i inc c) (hm : u.mem = t.mem)
    (hc : u.syn.counters = t.syn.counters) (hs : u.syn.saturated = t.syn.saturated) : Added s u m i inc c := by
  have hget (b : Nat) : getCounter u b = getCounter t b := by rw [getCounter, hc, getCounter]
  have hsat : isSaturated u c = isSaturated t c := by rw [isSaturated, hs, isSaturated]
  exact ⟨hm.trans h.mem, fun b hb => (hget b).trans (h.others b hb), fun hh => (hget c).trans (h.held hh),
    fun hf => ⟨(hget c).trans (h.sum hf).1, hsat.trans (h.sum hf).2⟩⟩

theorem addCounter_adds (m i c inc : Nat) (s : State) : Added s (addCounter m i c inc s).2 m i inc c := by
  by_cases hs : isSaturated s c = true
  · have h : addCounter m i c inc s = (false, s) := if_pos hs
    rw [h]
    exact ⟨rfl, fun _ _ => rfl, fun _ => rfl, fun hf => absurd (hs.symm.trans hf) (by decide)⟩
  · have hf : isSaturated s c = false := Bool.eq_false_iff.mpr hs
    by_cases hv : 2 ^ 64 ≤ (getCounter s c).toNat + inc
    · rw [addCounter_saturates hf hv]
      obtain ⟨hval, hmark⟩ := saturatedAt_counter c s
      refine Added.of_same (t := saturatedAt c s) ⟨rfl, fun b hb => ?_, fun h => absurd h hs, fun _ => ⟨?_, ?_⟩⟩ rfl rfl rfl
      · rw [getCounter, saturatedAt, Tbl.get_set_ne 0 s.syn.counters _ hb, getCounter]
      · rw [Nat.min_eq_left (by omega)]
        exact hval
      · rw [decide_eq_true hv]
        exact hmark
    · rw [addCounter_fits hf (by omega)]
      refine ⟨rfl, fun b hb => ?_, fun h => absurd h hs, fun _ => ⟨?_, ?_⟩⟩
      · exact (Tbl.get_set_ne 0 s.syn.counters _ hb :)
      · rw [Nat.min_eq_right (by omega)]
        exact (Tbl.get_set_self 0 s.syn.counters c _ :)
      · rw [decide_eq_false hv]
        exact hf

theorem Added.from_same {s s' t : State} {m i inc c : Nat} (h : Added s' t m i inc c) (hm : s'.mem = s.mem)
    (hc : s'.syn.counters = s.syn.counters) (hs : s'.syn.saturated = s.syn.saturated) : Added s t m i inc c := by
  have hget (b : Nat) : getCounter s' b = getCounter s b := by rw [getCounter, hc, getCounter]
  have hsat : isSaturated s' c = isSaturated s c := by rw [isSaturated, hs, isSaturated]
  exact ⟨h.mem.trans hm, fun b hb => (h.others b hb).trans (hget b), fun hh => (h.held (hsat.trans hh)).trans (hget c),
    fun hf => by rw [← hget c]; exact h.sum (hsat.trans hf)⟩

/-- The last part of a signal has come: its increment is applied and its parts are owed their acknowledgement. -/
def signalComes (g : Gather) (u : State) : State :=
  ackParts g.origins (leaveIdle (slotReturn g.part (applySignal g.part g.index g.inc true u).2))

theorem signalComes_keeps (g : Gather) (u : State) :
    let r := (applySignal g.part g.index g.inc true u).2
    let t := signalComes g u
    t.syn = r.syn ∧ t.mem = r.mem ∧ t.regs = r.regs ∧ t.fab.parked = r.fab.parked := by
  intro r t
  have hw : wire t = wire (leaveIdle (slotReturn g.part r)) := wire_ackParts ..
  have hr : (leaveIdle (slotReturn g.part r)).syn = r.syn ∧ (leaveIdle (slotReturn g.part r)).mem = r.mem ∧
      (leaveIdle (slotReturn g.part r)).regs = r.regs ∧ (leaveIdle (slotReturn g.part r)).fab.parked = r.fab.parked := by
    unfold leaveIdle slotReturn
    split <;> split <;> exact ⟨rfl, rfl, rfl, rfl⟩
  obtain ⟨hsyn, hmem, hregs, hparked⟩ := hr
  exact ⟨(of_wire State.syn (fun _ => rfl) hw).trans hsyn, (of_wire State.mem (fun _ => rfl) hw).trans hmem,
    (of_wire State.regs (fun _ => rfl) hw).trans hregs, (of_wire (fun t => t.fab.parked) (fun _ => rfl) hw).trans hparked⟩

/-- The waits that an increment ends leave the counters, memory and the packets that wait. -/
theorem recheck_leaves (c : Nat) (u : State) : (recheck c u).mem = u.mem ∧ (recheck c u).syn.counters = u.syn.counters ∧
    (recheck c u).syn.saturated = u.syn.saturated ∧ (recheck c u).fab.parked = u.fab.parked := by
  have h := told_recheck c u
  exact ⟨(of_told State.mem (fun _ => rfl) h :), (of_told (fun t => t.syn.counters) (fun _ => rfl) h :),
    (of_told (fun t => t.syn.saturated) (fun _ => rfl) h :), (of_told (fun t => t.fab.parked) (fun _ => rfl) h :)⟩

theorem parked_addCounter (m i c inc : Nat) (s : State) : (addCounter m i c inc s).2.fab.parked = s.fab.parked := by
  unfold addCounter
  dsimp only
  split
  · rfl
  · split <;> rfl

theorem signalComes_adds {g : Gather} {u : State} {c : Nat} (hc : counterOf u g.part g.index = some c) :
    Added u (signalComes g u) g.part g.index g.inc c ∧ (signalComes g u).fab.parked = u.fab.parked := by
  obtain ⟨hsyn, hmem, -, hparked⟩ := signalComes_keeps g u
  have happ : (applySignal g.part g.index g.inc true u).2 = recheck c (addCounter g.part g.index c g.inc u).2 := by
    unfold applySignal; rw [hc]
  rw [happ] at hsyn hmem hparked
  obtain ⟨hrm, hrc, hrs, hrp⟩ := recheck_leaves c (addCounter g.part g.index c g.inc u).2
  exact ⟨((addCounter_adds g.part g.index c g.inc u).of_same hrm hrc hrs).of_same hmem (by rw [hsyn]) (by rw [hsyn]),
    (hparked.trans hrp).trans (parked_addCounter ..)⟩

theorem signalComes_discarded {g : Gather} {u : State} (hc : counterOf u g.part g.index = none) :
    (signalComes g u).syn.counters = u.syn.counters ∧ (signalComes g u).mem = u.mem ∧
    bitOf (regN (signalComes g u) (ctx bSynCtx g.part 4)) 1 = true ∧ (signalComes g u).fab.parked = u.fab.parked := by
  obtain ⟨hsyn, hmem, hregs, hparked⟩ := signalComes_keeps g u
  have happ : (applySignal g.part g.index g.inc true u).2 = synEvent g.part 1 g.index (incReg (ctx bSynCtx g.part 8) u) := by
    unfold applySignal; rw [hc]; rfl
  rw [happ] at hsyn hmem hregs hparked
  have hbit : bitOf (regN (signalComes g u) (ctx bSynCtx g.part 4)) 1 = true := by
    rw [regN_congr hregs]
    exact bitOf_synEvent (by decide) _ _ _
  rw [synEvent, incReg_frame] at hsyn hmem hparked
  exact ⟨by rw [hsyn]; rfl, hmem, hbit, hparked⟩

/-! ## A part of a signal (R335, R368) -/

/-- A gathered signal of a packet's source and number. -/
def sameSignal (k : Packet) (g : Gather) : Bool := g.node == k.src && g.sigId == sgId k

/-- A SIGNAL part that its sequence has counted as open. -/
def partOpen (p : Nat) (k : Packet) (s : State) : State :=
  updRx k.src k.flow k.vc (fun r => { r with openPsns := r.openPsns ++ [k.psn] }) (arrived p k s)

theorem wire_partOpen (p : Nat) (k : Packet) (s : State) : wire (partOpen p k s) = wire s := by rw [partOpen, wire_updRx, wire_arrived]

/-- What is gathered of a signal when a part of it comes. -/
def gathered (p n : Nat) (k : Packet) : Option Gather → Gather
  | some g => { g with seen := if g.seen.contains k.tspec then g.seen else g.seen ++ [k.tspec]
                       origins := g.origins ++ [.remote k.src k.flow k.vc k.psn k.tag k.job p] }
  | none => { node := k.src, sigId := sgId k, part := n, index := sgIndex k, inc := sgInc k, parts := sgParts k
              seen := [k.tspec], origins := [.remote k.src k.flow k.vc k.psn k.tag k.job p] }

/-- The signals gathered but for those of a packet's. -/
def gatheredElse (k : Packet) (s : State) : List Gather := s.syn.gathers.filter fun g => !(g.node == k.src && g.sigId == sgId k)

/-- The signals gathered replaced. -/
def gathering (l : List Gather) (s : State) : State := { s with syn := { s.syn with gathers := l } }

theorem takeSignal_eq (p n : Nat) (k : Packet) (s : State) :
    let g := gathered p n k (s.syn.gathers.find? (sameSignal k))
    takeSignal p k n (arrived p k s) =
      if g.parts ≤ g.seen.length then signalComes g (gathering (gatheredElse k s) (partOpen p k s))
      else gathering (gatheredElse k s ++ [g]) (partOpen p k s) := by
  intro g
  have hopen : (partOpen p k s).syn = s.syn := of_wire State.syn (fun _ => rfl) (wire_partOpen ..)
  rw [gatheredElse, ← hopen, show g = gathered p n k ((partOpen p k s).syn.gathers.find? (sameSignal k)) by rw [hopen]]
  clear_value g
  unfold takeSignal
  extract_lets me u old g' rest
  have hg : g' = gathered p n k ((partOpen p k s).syn.gathers.find? (sameSignal k)) := by
    show (match old with | some g => _ | none => _) = gathered p n k old
    cases old <;> rfl
  rw [← hg]
  rfl

section
variable {s : State} {p n : Nat} {k : Packet} (h : Admitted s p k n) (hvc : k.vc = 2) (ht : k.type = 0x08)
include ht

theorem applyFull_signal (u : State) : applyFull p k false n u = takeSignal p k n u := by
  rw [applyFull, ht, if_neg (by decide), applyAny, ht]
  show applyReq p k n u = _
  rw [applyReq, ht]
  rfl

include h hvc

theorem exec_signalPacket : exec (.signalPacket p k) s = .next (request true p k false s) := by
  show execSignalPacket p k s = _
  rw [execSignalPacket, isPkt, ht, hvc, h.single, decide_eq_true h.flow]
  rfl

variable (hfull : signalFull s k = false) {g : Gather} (hg : gathered p n k (s.syn.gathers.find? (sameSignal k)) = g)
include hfull hg

/-- The parts of a signal are not all there: they are kept. -/
theorem signal_gathers (hparts : ¬ g.parts ≤ g.seen.length) : Does (.signalPacket p k) s fun t =>
    t.syn = { s.syn with gathers := gatheredElse k s ++ [g] } := by
  have htake := takeSignal_eq p n k s
  rw [hg] at htake
  have hdone : applyFull p k false n (arrived p k s) =
      gathering (gatheredElse k s ++ [g]) (partOpen p k s) := by
    rw [applyFull_signal ht, htake, if_neg hparts]
  have hparked : (partOpen p k s).fab.parked = [] :=
    (of_wire (fun t => t.fab.parked) (fun _ => rfl) (wire_partOpen ..)).trans h.parked
  refine ⟨_, exec_signalPacket h hvc ht, ?_⟩
  rw [request_done h hfull (by rw [hdone]; exact hparked), hdone]
  refine (of_wire State.syn (fun _ => rfl) (wire_freeBuffer ..)).trans ?_
  show ({ (partOpen p k s).syn with gathers := gatheredElse k s ++ [g] } : SyncSys) = _
  rw [of_wire State.syn (fun _ => rfl) (wire_partOpen p k s)]

/-- The last part of a signal brings its increment. -/
theorem signal_completes (hparts : g.parts ≤ g.seen.length) {P : State → Prop}
    (hP : ∀ u t, u.mem = s.mem → u.syn.counters = s.syn.counters → u.syn.saturated = s.syn.saturated → u.parts = s.parts →
      t.syn = (signalComes g u).syn → t.mem = (signalComes g u).mem → t.regs = (signalComes g u).regs → P t) :
    Does (.signalPacket p k) s P := by
  have hopen := wire_partOpen p k s
  have hmem : (partOpen p k s).mem = s.mem := of_wire State.mem (fun _ => rfl) hopen
  have hpart : (partOpen p k s).parts = s.parts := of_wire State.parts (fun _ => rfl) hopen
  have hwait : (partOpen p k s).fab.parked = [] := (of_wire (fun t => t.fab.parked) (fun _ => rfl) hopen).trans h.parked
  have hsame : (partOpen p k s).syn = s.syn := of_wire State.syn (fun _ => rfl) hopen
  have htake := takeSignal_eq p n k s
  rw [hg] at htake
  have hdone : applyFull p k false n (arrived p k s) = signalComes g (gathering (gatheredElse k s) (partOpen p k s)) := by
    rw [applyFull_signal ht, htake, if_pos hparts]
  generalize partOpen p k s = v at hmem hpart hwait hsame hdone
  obtain ⟨u, hu⟩ : ∃ u, u = gathering (gatheredElse k s) v := ⟨_, rfl⟩
  replace hmem : u.mem = s.mem := by rw [hu]; exact hmem
  replace hpart : u.parts = s.parts := by rw [hu]; exact hpart
  replace hwait : u.fab.parked = [] := by rw [hu]; exact hwait
  have hcounters : u.syn.counters = s.syn.counters := by rw [hu, ← hsame]; rfl
  have hmarks : u.syn.saturated = s.syn.saturated := by rw [hu, ← hsame]; rfl
  rw [← hu] at hdone
  have hparked : (signalComes g u).fab.parked = [] := by
    cases hc : counterOf u g.part g.index with
    | none => exact (signalComes_discarded hc).2.2.2.trans hwait
    | some c => exact (signalComes_adds hc).2.trans hwait
  clear hu htake
  refine ⟨_, exec_signalPacket h hvc ht, ?_⟩
  rw [request_done h hfull (by rw [hdone]; exact hparked), hdone]
  have hfree := wire_freeBuffer p k (signalComes g u)
  exact hP u _ hmem hcounters hmarks hpart (of_wire State.syn (fun _ => rfl) hfree) (of_wire State.mem (fun _ => rfl) hfree)
    (of_wire State.regs (fun _ => rfl) hfree)

theorem signal_outside (hparts : g.parts ≤ g.seen.length) (hc : counterOf s g.part g.index = none) :
    Does (.signalPacket p k) s fun t =>
      t.syn.counters = s.syn.counters ∧ t.mem = s.mem ∧ bitOf (regN t (ctx bSynCtx g.part 4)) 1 = true := by
  refine signal_completes h hvc ht hfull hg hparts fun u t hmem hcounters _ hpart hsyn htm hregs => ?_
  have hcu : counterOf u g.part g.index = none := by rw [counterOf, getPart, hpart]; exact hc
  obtain ⟨h1, h2, h3, -⟩ := signalComes_discarded hcu
  exact ⟨by rw [hsyn, h1, hcounters], by rw [htm, h2, hmem], by rw [regN_congr hregs]; exact h3⟩

theorem signal_adds (hparts : g.parts ≤ g.seen.length) {c : Nat} (hc : counterOf s g.part g.index = some c) :
    Does (.signalPacket p k) s fun t => Added s t g.part g.index g.inc c := by
  refine signal_completes h hvc ht hfull hg hparts fun u t hmem hcounters hmarks hpart hsyn htm _ => ?_
  have hcu : counterOf u g.part g.index = some c := by rw [counterOf, getPart, hpart]; exact hc
  exact ((signalComes_adds hcu).1.of_same htm (by rw [hsyn]) (by rw [hsyn])).from_same hmem hcounters hmarks

end

/-- What a signal's increment does, as O36 says it. -/
theorem signal_applies {s : State} {p n : Nat} {k : Packet} (h : Admitted s p k n) (hvc : k.vc = 2) (ht : k.type = 0x08)
    (hfull : signalFull s k = false) {g : Gather} (hg : gathered p n k (s.syn.gathers.find? (sameSignal k)) = g)
    (hparts : g.parts ≤ g.seen.length) :
    match counterOf s g.part g.index with
    | none => Does (.signalPacket p k) s fun t =>
        t.syn.counters = s.syn.counters ∧ t.mem = s.mem ∧ bitOf (regN t (ctx bSynCtx g.part 4)) 1 = true
    | some c => Does (.signalPacket p k) s fun t => t.mem = s.mem ∧ (∀ b, b ≠ c → getCounter t b = getCounter s b) ∧
        (isSaturated s c = true → getCounter t c = getCounter s c) ∧
        (isSaturated s c = false → getCounter t c = BitVec.ofNat 64 (min (2 ^ 64 - 1) ((getCounter s c).toNat + g.inc)) ∧
          isSaturated t c = decide (2 ^ 64 ≤ (getCounter s c).toNat + g.inc)) := by
  split
  next hc => exact signal_outside h hvc ht hfull hg hparts hc
  next c hc =>
    obtain ⟨t, hexec, hadd⟩ := signal_adds h hvc ht hfull hg hparts hc
    exact ⟨t, hexec, hadd.mem, hadd.others, hadd.held, hadd.sum⟩

/-! ## WAIT packets (R340 to R346, R366) -/

/-- The wait that a WAIT packet asks for. -/
def packetWait (p n : Nat) (k : Packet) : Wait :=
  { part := n, issuer := 0, index := leAt k.payload 0 2, expected := BitVec.ofNat 64 (leAt k.payload 8 8)
    deadline := BitVec.ofNat 48 (leAt k.payload 16 6), origin := .remote k.src k.flow k.vc k.psn k.tag k.job p }

section
variable {s : State} {p n : Nat} {k : Packet} (h : Admitted s p k n) (hvc : k.vc = 2) (ht : k.type = 0x09)
include h hvc ht

theorem exec_waitPacket : exec (.waitPacket p k) s = .next (request true p k false s) := by
  show execWaitPacket p k s = _
  rw [execWaitPacket, isPkt, ht, hvc, h.single, decide_eq_true h.flow]
  rfl

/-- The wait of a packet is taken in a state that differs in traffic only, on a port that is still UP. -/
theorem waitPacket_taken {P : State → Prop}
    (hP : ∀ b, wire b = wire s → portUp b p = true → (takeWait (packetWait p n k) b).fab.parked = [] ∧
      P (freeBuffer p k (takeWait (packetWait p n k) b))) : Does (.waitPacket p k) s P := by
  have hw : wire (owePacket k (arrived p k s)) = wire s := (wire_countOwed ..).trans (wire_arrived ..)
  have hup : portUp (owePacket k (arrived p k s)) p = true :=
    (((Flows.arrived p k s).trans (Flows.countOwed ..)).up).trans h.up
  obtain ⟨hparked, hgoal⟩ := hP _ hw hup
  have hfull : signalFull s k = false := by rw [signalFull, ht]; rfl
  have hdone : applyFull p k false n (arrived p k s) = takeWait (packetWait p n k) (owePacket k (arrived p k s)) := by
    rw [applyFull, ht, if_neg (by decide), applyAny, ht]
    show applyReq p k n _ = _
    rw [applyReq, ht]
    rfl
  refine ⟨_, exec_waitPacket h hvc ht, ?_⟩
  rw [request_done h hfull (by rw [hdone]; exact hparked), hdone]
  exact hgoal

/-- A wait that ends at once is answered with its verdict. -/
theorem waitPacket_answered {e : Ending}
    (htake : ∀ b, wire b = wire s → ∃ u node, wire u = wire { s with regs := u.regs } ∧ u.fab = b.fab ∧
      takeWait (packetWait p n k) b = giveVerdict (packetWait p n k).origin e node u) :
    Does (.waitPacket p k) s fun t => t.syn = s.syn ∧
      Sends t p fun r => r.type = 0x13 ∧ r.vc = 6 ∧ r.dst = k.src ∧ r.psn = k.psn ∧ r.tspec = endingCode e := by
  refine waitPacket_taken h hvc ht fun b hb hup => ?_
  obtain ⟨u, node, hu, hport, heq⟩ := htake b hb
  rw [heq]
  have hv : wire (giveVerdict (packetWait p n k).origin e node u) = wire u := wire_sendVerdict ..
  refine ⟨(of_wire (fun t => t.fab.parked) (fun _ => rfl) hv).trans ((of_wire (fun t => t.fab.parked) (fun _ => rfl) hu).trans h.parked),
    ?_, ?_⟩
  · exact (of_wire State.syn (fun _ => rfl) (wire_freeBuffer ..)).trans ((of_wire State.syn (fun _ => rfl) hv).trans
      (of_wire State.syn (fun _ => rfl) hu :))
  · refine (Flows.freeBuffer p p k _).sends ?_
    show Sends (sendVerdict k.src k.flow k.vc k.psn k.tag k.job p (endingCode e) u) p _
    rw [sendVerdict, sendReply, if_pos (by rw [portUp, getPort, updRx, hport]; exact hup)]
    exact sends_portSend ⟨rfl, rfl, rfl, rfl, rfl⟩ p _

end

theorem wire_regs {s b : State} (hb : wire b = wire s) : wire b = wire { s with regs := b.regs } := by
  rw [of_wire State.regs (fun _ => rfl) hb]; exact hb

theorem wire_countTimeout {s b : State} (hb : wire b = wire s) (w : Wait) :
    wire (countTimeout w b) = wire { s with regs := (countTimeout w b).regs } := by
  rw [countTimeout_frame]
  exact congrArg (fun t : State => { t with regs := (countTimeout w b).regs }) hb

/-- A wait that is kept: at its counter, or to be sent again when its sync unit is full. -/
def waitKept (b : State) (c : Nat) (w : Wait) : SyncSys :=
  if isSaturated b c = false ∧ unitFull b (c / 256) = true then { b.syn with busy := b.syn.busy ++ [w] }
  else { b.syn with waiters := b.syn.waiters ++ [w] }

section
variable {w : Wait} {c : Nat} {b : State} (hc : counterOf b w.part w.index = some c)
include hc

theorem waitMet_some : waitMet b w = (!isSaturated b c && decide (w.expected.toNat ≤ (getCounter b c).toNat)) := by
  rw [waitMet, hc]

/-- A wait that its counter does not satisfy ends at its deadline (R342, R344). -/
theorem takeWait_late (hm : waitMet b w = false) (hd : timeReached (now48 b) w.deadline = true) :
    takeWait w b = giveVerdict w.origin (if isSaturated b c then .saturated else .deadline) (nodeId b) (countTimeout w b) := by
  rw [takeWait, hc]
  dsimp only
  rw [hm, if_neg (by decide), deadlineCome, hd, if_pos rfl, endWait, deadlineEnding, hc]

/-- A wait that its counter does not satisfy is kept before its deadline, or answered BUSY (R340, R343). -/
theorem takeWait_early (hm : waitMet b w = false) (hd : timeReached (now48 b) w.deadline = false) :
    takeWait w b = { b with regs := (takeWait w b).regs, syn := waitKept b c w } := by
  rw [takeWait, hc]
  dsimp only
  rw [hm, if_neg (by decide), deadlineCome, hd, if_neg (by decide)]
  unfold waitKept
  cases isSaturated b c <;> cases unitFull b (c / 256) <;> rfl

end

/-! ## WAIT packets, case by case -/

section
variable {s : State} {p n : Nat} {k : Packet} (h : Admitted s p k n) (hvc : k.vc = 2) (ht : k.type = 0x09)
include h hvc ht

/-- A wait outside its partition's range (R345). -/
theorem waitPacket_outside (hc : counterOf s n (leAt k.payload 0 2) = none) :
    Does (.waitPacket p k) s fun t => t.syn = s.syn ∧
      Sends t p fun r => r.type = 0x13 ∧ r.vc = 6 ∧ r.dst = k.src ∧ r.psn = k.psn ∧ r.tspec = 3 := by
  refine waitPacket_answered (e := .outOfRange) h hvc ht fun b hb => ⟨b, nodeId b, wire_regs hb, rfl, ?_⟩
  have hcb : counterOf b n (leAt k.payload 0 2) = none := (of_wire (fun t => counterOf t n (leAt k.payload 0 2)) (fun _ => rfl) hb).trans hc
  rw [takeWait, show counterOf b (packetWait p n k).part (packetWait p n k).index = none from hcb]
  rfl

variable {c : Nat} (hc : counterOf s n (leAt k.payload 0 2) = some c)
include hc

omit h hvc ht in
/-- What a wait finds in a state that differs in traffic only. -/
theorem waitFinds {b : State} (hb : wire b = wire s) : counterOf b (packetWait p n k).part (packetWait p n k).index = some c ∧
    isSaturated b c = isSaturated s c ∧ unitFull b (c / 256) = unitFull s (c / 256) ∧ now48 b = now48 s ∧ b.syn = s.syn ∧
    waitMet b (packetWait p n k) = (!isSaturated s c && decide (leAt k.payload 8 8 ≤ (getCounter s c).toNat)) := by
  have hcb : counterOf b n (leAt k.payload 0 2) = some c :=
    (of_wire (fun t => counterOf t n (leAt k.payload 0 2)) (fun _ => rfl) hb).trans hc
  have hsat : isSaturated b c = isSaturated s c := of_wire (fun t => isSaturated t c) (fun _ => rfl) hb
  have hval : getCounter b c = getCounter s c := of_wire (fun t => getCounter t c) (fun _ => rfl) hb
  have hexp : (packetWait p n k).expected.toNat = leAt k.payload 8 8 := Nat.mod_eq_of_lt (leAt_lt k.payload 8 8)
  refine ⟨hcb, hsat, of_wire (fun t => unitFull t (c / 256)) (fun _ => rfl) hb, of_wire now48 (fun _ => rfl) hb,
    of_wire State.syn (fun _ => rfl) hb, ?_⟩
  rw [waitMet_some hcb, hsat, hval, hexp]

/-- A wait that its counter satisfies (R340). -/
theorem waitPacket_met (hs : isSaturated s c = false) (hm : leAt k.payload 8 8 ≤ (getCounter s c).toNat) :
    Does (.waitPacket p k) s fun t => t.syn = s.syn ∧
      Sends t p fun r => r.type = 0x13 ∧ r.vc = 6 ∧ r.dst = k.src ∧ r.psn = k.psn ∧ r.tspec = 0 := by
  refine waitPacket_answered (e := .satisfied) h hvc ht fun b hb => ⟨b, nodeId b, wire_regs hb, rfl, ?_⟩
  obtain ⟨hcb, -, -, -, -, hmet⟩ := waitFinds (p := p) hc hb
  rw [takeWait, hcb]
  dsimp only
  rw [hmet, hs, decide_eq_true hm]
  rfl

variable (hm : isSaturated s c = true ∨ (getCounter s c).toNat < leAt k.payload 8 8)
include hm

omit h hvc ht hc in
theorem notMet : (!isSaturated s c && decide (leAt k.payload 8 8 ≤ (getCounter s c).toNat)) = false := by
  rcases hm with hs | hv
  · rw [hs]; rfl
  · rw [decide_eq_false (by omega), Bool.and_false]

/-- A wait whose deadline has come (R342, R344). -/
theorem waitPacket_late (hd : timeReached (now48 s) (BitVec.ofNat 48 (leAt k.payload 16 6)) = true) :
    Does (.waitPacket p k) s fun t => t.syn = s.syn ∧
      Sends t p fun r => r.type = 0x13 ∧ r.vc = 6 ∧ r.dst = k.src ∧ r.psn = k.psn ∧
        r.tspec = endingCode (if isSaturated s c then .saturated else .deadline) := by
  refine waitPacket_answered h hvc ht fun b hb => ?_
  obtain ⟨hcb, hsat, -, hnow, -, hmet⟩ := waitFinds (p := p) hc hb
  refine ⟨countTimeout (packetWait p n k) b, nodeId b, wire_countTimeout hb _, by rw [countTimeout_frame], ?_⟩
  rw [← hsat]
  exact takeWait_late hcb (hmet.trans (notMet hm)) (by rw [hnow]; exact hd)

/-- A wait that is kept. -/
theorem waitPacket_early (hd : timeReached (now48 s) (BitVec.ofNat 48 (leAt k.payload 16 6)) = false) :
    Does (.waitPacket p k) s fun t => t.syn = waitKept s c (packetWait p n k) := by
  refine waitPacket_taken h hvc ht fun b hb _ => ?_
  obtain ⟨hcb, hsat, hunit, hnow, hsyn, hmet⟩ := waitFinds (p := p) hc hb
  have htake := takeWait_early hcb (hmet.trans (notMet hm)) (by rw [hnow]; exact hd)
  have hkept : waitKept b c (packetWait p n k) = waitKept s c (packetWait p n k) := by
    rw [waitKept, hsat, hunit, hsyn, waitKept]
  rw [hkept] at htake
  have hparked : b.fab.parked = [] := (of_wire (fun t => t.fab.parked) (fun _ => rfl) hb).trans h.parked
  generalize takeWait (packetWait p n k) b = u at htake
  have hfab : u.fab = b.fab := by rw [htake]
  have husyn : u.syn = waitKept s c (packetWait p n k) := by rw [htake]
  exact ⟨by rw [hfab, hparked], (of_wire State.syn (fun _ => rfl) (wire_freeBuffer ..)).trans husyn⟩

end

/-! ## The signal store's rule (R335) -/

theorem find_same (s : State) (k : Packet) :
    (s.syn.gathers.find? fun g => g.node == k.src && g.sigId == sgId k) = s.syn.gathers.find? (sameSignal k) := rfl

/-- The store has room for a part of a signal that it knows. -/
theorem signalFull_known {s : State} {k : Packet} {g : Gather} (hg : s.syn.gathers.find? (sameSignal k) = some g) : signalFull s k = false := by
  have hany : (s.syn.gathers.any fun g => g.node == k.src && g.sigId == sgId k) = true :=
    List.any_eq_true.mpr ⟨g, List.mem_of_find?_eq_some hg, (List.find?_some hg :)⟩
  rw [signalFull, hany, Bool.not_true, Bool.and_false]

/-- What the store says to a part of a new signal. -/
theorem signalFull_new {s : State} {k : Packet} (ht : k.type = 0x08) (hg : s.syn.gathers.find? (sameSignal k) = none) :
    signalFull s k = (decide (1 < sgParts k) && decide (1024 ≤ s.syn.gathers.length)) := by
  have hany : (s.syn.gathers.any fun g => g.node == k.src && g.sigId == sgId k) = false :=
    List.any_eq_false.mpr (List.find?_eq_none.mp hg)
  rw [signalFull, hany, ht, Bool.not_false, Bool.and_true]
  rfl

theorem gatheredElse_new {s : State} {k : Packet} (hg : s.syn.gathers.find? (sameSignal k) = none) : gatheredElse k s = s.syn.gathers := by
  refine List.filter_eq_self.mpr fun g hmem => ?_
  have hne := List.find?_eq_none.mp hg g hmem
  rw [Bool.not_eq_true] at hne
  rw [show (g.node == k.src && g.sigId == sgId k) = false from hne]
  rfl

/-- A gathered signal with one part more. -/
def withPart (p : Nat) (k : Packet) (g : Gather) : Gather :=
  { g with seen := g.seen ++ [k.tspec], origins := g.origins ++ [.remote k.src k.flow k.vc k.psn k.tag k.job p] }

theorem length_withPart (p : Nat) (k : Packet) (g : Gather) : (withPart p k g).seen.length = g.seen.length + 1 := List.length_append

theorem gathered_known {p n : Nat} {k : Packet} {g : Gather} (hseen : k.tspec ∉ g.seen) :
    gathered p n k (some g) = withPart p k g := by
  rw [withPart, gathered, if_neg (by rw [List.contains_iff_mem]; exact hseen)]

/-- Settles O36: a signal's parts are gathered, wait for room or bring its increment, and a wait is answered or kept. -/
theorem syncPackets : Obligations.SyncPackets := by
  unfold Obligations.SyncPackets
  intro s p n k h hvc applies same
  refine ⟨fun ht hnew => ⟨fun hparts => ?_, fun hparts hroom => ?_, fun hparts hfull => ?_⟩, fun ht g hold hseen => ?_, fun ht => ?_⟩
  · exact signal_applies h hvc ht (by rw [signalFull_new ht hnew, decide_eq_false (by omega), Bool.false_and])
      (congrArg (gathered p n k) hnew) hparts
  · obtain ⟨t, hexec, hsyn⟩ := signal_gathers h hvc ht
      (by rw [signalFull_new ht hnew, decide_eq_false (p := 1024 ≤ _) (by omega), Bool.and_false])
      (congrArg (gathered p n k) hnew) (by exact Nat.not_le_of_lt hparts)
    rw [gatheredElse_new hnew] at hsyn
    exact ⟨t, hexec, by rw [hsyn], gathered p n k none, by rw [hsyn], rfl, rfl, rfl, rfl⟩
  · have hwait := request_waits h (by rw [signalFull_new ht hnew, decide_eq_true (by omega), decide_eq_true hfull]; rfl)
    exact ⟨_, exec_signalPacket h hvc ht, (of_wire State.syn (fun _ => rfl) hwait :), (of_wire (fun t => t.fab.parked) (fun _ => rfl) hwait :)⟩
  · have hfull := signalFull_known (k := k) hold
    have hg : gathered p n k (s.syn.gathers.find? (sameSignal k)) = withPart p k g := (congrArg (gathered p n k) hold).trans (gathered_known hseen)
    refine ⟨fun hparts => ?_, fun hparts => ?_⟩
    · exact signal_applies (g := withPart p k g) h hvc ht hfull hg (by rw [length_withPart]; exact hparts)
    · obtain ⟨t, hexec, hsyn⟩ := signal_gathers h hvc ht hfull hg (by rw [length_withPart]; exact Nat.not_le_of_lt hparts)
      refine ⟨t, hexec, by rw [hsyn], withPart p k g, ?_, rfl⟩
      rw [hsyn]
      exact List.mem_append_right _ List.mem_cons_self
  · intro i late v
    refine ⟨waitPacket_outside h hvc ht, fun c hc hs hm => waitPacket_met h hvc ht hc hs hm, fun c hc hs hm hd => ?_, fun c hc hs hd => ?_,
      fun c hc hd hm => ?_⟩
    · have hlate := waitPacket_late h hvc ht hc (.inr hm) hd
      rw [hs] at hlate
      exact hlate
    · have hlate := waitPacket_late h hvc ht hc (.inl hs) hd
      rw [hs] at hlate
      exact hlate
    · obtain ⟨t, hexec, hsyn⟩ := waitPacket_early h hvc ht hc hm hd
      refine ⟨t, hexec, packetWait p n k, rfl, rfl, rfl, rfl, rfl, ?_⟩
      rw [hsyn, waitKept]
      split
      · rfl
      · rfl

end Sys2Proof.Machine
end

section
/-!
PROOFS. O43: what the accesses of ingest to memory write and leave (R295, R304, R315), for decode pipes and their samples.
-/
namespace Sys2Proof.Machine

/-! ## Accesses with no request that waits -/

/-- Accesses to memory, with no request waiting there, have changed its bytes and its lines at most. -/
structure Stored (s t : State) : Prop where
  memOnly : MemOnly s t
  kept : StacksKept s t

theorem Stored.refl (s : State) : Stored s s := ⟨.refl s, .refl s⟩

theorem Stored.trans {s t u : State} (h : Stored s t) (k : Stored t u) : Stored s u := ⟨h.memOnly.trans k.memOnly, h.kept.trans k.kept⟩

theorem Stored.waiting {s t : State} (h : Stored s t) (hw : s.mem.waiting = []) : t.mem.waiting = [] := h.memOnly.2.trans hw

theorem Stored.memPut {s : State} (hw : s.mem.waiting = []) (n g hint a : Nat) (d : Bytes) : Stored s (memPut n g hint a d s) :=
  ⟨memPut_memOnly hw .., by rw [memPut_empty hw]; exact .slicePut ..⟩

theorem Stored.quotaOk {s t : State} (h : Stored s t) (n a len : Nat) (w : Bool) : quotaOk t n a len w = quotaOk s n a len w :=
  quotaOk_congr h.memOnly h.kept n a len w

/-- A step that keeps `Stored` with nothing waiting does so along a list. -/
theorem Stored.foldl {α : Type} {f : State → α → State} (h : ∀ t x, t.mem.waiting = [] → Stored t (f t x)) (l : List α) {s : State}
    (hw : s.mem.waiting = []) : Stored s (l.foldl f s) :=
  List.foldlRecOn (motive := Stored s) l f (.refl s) fun t ht x _ => ht.trans (h t x (ht.waiting hw))

theorem Stored.ingPut {s : State} (hw : s.mem.waiting = []) (n a : Nat) (d : Bytes) : Stored s (ingPut n a d s) := by
  refine .foldl (fun t p ht => ?_) _ hw
  split
  · exact .memPut ht ..
  · exact .refl t

/-! ## Lines that the quota admits (R295) -/

theorem linePieces_line {f a : Nat} {d : Bytes} {e : Nat × Bytes} (h : e ∈ linePieces f a d) : e.2 ≠ [] ∧ e.1 % 128 + e.2.length ≤ 128 := by
  induction f generalizing a d with
  | zero => exact absurd h List.not_mem_nil
  | succ f ih =>
    cases d with
    | nil => exact absurd h List.not_mem_nil
    | cons b t =>
      rcases List.mem_cons.mp h with rfl | h
      · have hlen : ((b :: t).take (128 - a % 128)).length = min (128 - a % 128) (b :: t).length := List.length_take
        refine ⟨List.ne_nil_of_length_pos (by rw [hlen, List.length_cons]; omega), ?_⟩
        show a % 128 + ((b :: t).take (128 - a % 128)).length ≤ 128
        omega
      · exact ih h

/-- Bytes of one line are one piece. -/
theorem piecesOf_line {a : Nat} {d : Bytes} (hne : d ≠ []) (h : a % 128 + d.length ≤ 128) : piecesOf a d = [(a, d)] := by
  obtain ⟨b, t, rfl⟩ := List.exists_cons_of_ne_nil hne
  have htake : (b :: t).take (128 - a % 128) = b :: t := List.take_of_length_le (by omega)
  have hdrop : (b :: t).drop (128 - a % 128) = [] := List.drop_eq_nil_of_le (by omega)
  rw [piecesOf, linePieces, htake, hdrop]
  cases (b :: t).length / 128 <;> rfl

/-- The pieces of two strings of one length differ in their bytes only. -/
theorem linePieces_shape {f a : Nat} {d e : Bytes} (h : d.length = e.length) :
    (linePieces f a d).map (fun p => (p.1, p.2.length)) = (linePieces f a e).map fun p => (p.1, p.2.length) := by
  induction f generalizing a d e with
  | zero => rfl
  | succ f ih =>
    cases d with
    | nil => rw [List.length_eq_zero_iff.mp h.symm]
    | cons b t =>
      cases e with
      | nil => exact absurd h (by simp)
      | cons c u =>
        have htake : ((b :: t).take (128 - a % 128)).length = ((c :: u).take (128 - a % 128)).length := by
          rw [List.length_take, List.length_take, h]
        have hdrop : ((b :: t).drop (128 - a % 128)).length = ((c :: u).drop (128 - a % 128)).length := by
          rw [List.length_drop, List.length_drop, h]
        rw [linePieces, linePieces, List.map_cons, List.map_cons, ih hdrop, htake]

/-- The quota admits the pieces of a range, whatever its bytes. -/
theorem quotaPieces_of_length {s : State} {n a : Nat} {d e : Bytes} (hlen : d.length = e.length)
    (h : ∀ p ∈ piecesOf a d, quotaOk s n p.1 p.2.length true = true) : ∀ p ∈ piecesOf a e, quotaOk s n p.1 p.2.length true = true := by
  intro p hp
  have hmem : (p.1, p.2.length) ∈ (piecesOf a d).map fun q => (q.1, q.2.length) := by
    rw [piecesOf, hlen, linePieces_shape hlen]
    exact List.mem_map.mpr ⟨p, hp, rfl⟩
  obtain ⟨q, hq, heq⟩ := List.mem_map.mp hmem
  obtain ⟨h1, h2⟩ := Prod.mk.inj heq
  rw [← h1, ← h2]
  exact h q hq

/-- A write of ingest whose lines the quota admits is a write to memory. -/
theorem ingPut_all {s : State} (hw : s.mem.waiting = []) {n a : Nat} {d : Bytes}
    (hq : ∀ p ∈ piecesOf a d, quotaOk s n p.1 p.2.length true = true) : ingPut n a d s = slicePut n 0 0 a d s := by
  have hpieces : ∀ l : List (Nat × Bytes), (∀ p ∈ l, p.2 ≠ [] ∧ p.1 % 128 + p.2.length ≤ 128 ∧ quotaOk s n p.1 p.2.length true = true) →
      ∀ t, Stored s t → l.foldl (fun t p => if quotaOk t n p.1 p.2.length true then memPut n 0 0 p.1 p.2 t else t) t =
        l.foldl (fun t p => lineWrite n 0 0 p.1 p.2 t) t := by
    intro l
    induction l with
    | nil => exact fun _ _ _ => rfl
    | cons p l ih =>
      intro hl t ht
      obtain ⟨hne, hline, hquota⟩ := hl p List.mem_cons_self
      have hone : memPut n 0 0 p.1 p.2 t = lineWrite n 0 0 p.1 p.2 t := by
        rw [memPut_empty (ht.waiting hw), slicePut, piecesOf_line hne hline]
        rfl
      rw [List.foldl_cons, List.foldl_cons, if_pos ((ht.quotaOk ..).trans hquota), hone, ← hone]
      exact ih (fun q hq => hl q (List.mem_cons_of_mem _ hq)) _ (ht.trans (.memPut (ht.waiting hw) ..))
  refine hpieces _ (fun p hp => ?_) s (.refl s)
  obtain ⟨hne, hline⟩ := linePieces_line hp
  exact ⟨hne, hline, hq p hp⟩

/-- Bytes that a write of ingest leaves are read back. -/
theorem devRd_ingPut {s : State} (hw : s.mem.waiting = []) {n a : Nat} {d : Bytes}
    (hq : ∀ p ∈ piecesOf a d, quotaOk s n p.1 p.2.length true = true) : devRd (ingPut n a d s) a d.length = d := by
  refine bytes_ext (length_devRd ..) fun i hi => ?_
  rw [length_devRd] at hi
  rw [getD_devRd, if_pos hi, ingPut_all hw hq, memByte_slicePut, if_pos (by omega), Nat.add_sub_cancel_left]

/-! ## What reads of ingest leave (R315, R423) -/

/-- The descriptors, the cores, the jobs of every partition, and the requests that wait for memory. -/
@[irreducible] def workload (s : State) : List Desc × Tbl Core × (Nat → Tbl (Option Job)) × List MemWait :=
  (s.descs, s.cores, fun m => (getPart s m).jobs, s.mem.waiting)

theorem workload_eq_iff {s t : State} : workload t = workload s ↔
    t.descs = s.descs ∧ t.cores = s.cores ∧ (∀ m, (getPart t m).jobs = (getPart s m).jobs) ∧ t.mem.waiting = s.mem.waiting := by
  unfold workload
  rw [Prod.mk.injEq, Prod.mk.injEq, Prod.mk.injEq, funext_iff]

theorem workload_same {s t : State} (hd : t.descs = s.descs) (hc : t.cores = s.cores) (hp : t.parts = s.parts)
    (hm : t.mem.waiting = s.mem.waiting) : workload t = workload s :=
  workload_eq_iff.2 ⟨hd, hc, fun m => by rw [getPart, hp, getPart], hm⟩

theorem workload_foldl {α : Type} {f : State → α → State} (h : ∀ s x, workload (f s x) = workload s) (l : List α) (s : State) :
    workload (l.foldl f s) = workload s := by
  induction l generalizing s with
  | nil => rfl
  | cons x l ih => exact (ih (f s x)).trans (h s x)

theorem workload_updPart {f : Part → Part} (hf : ∀ p, (f p).jobs = p.jobs) (n : Nat) (s : State) : workload (updPart n f s) = workload s := by
  refine workload_eq_iff.2 ⟨rfl, rfl, fun m => ?_, rfl⟩
  rw [getPart_updPart]
  split
  next h => subst h; exact hf _
  next => rfl

theorem workload_of_wire {s t : State} (h : wire t = wire s) : workload t = workload s :=
  workload_same (of_wire State.descs (fun _ => rfl) h) (of_wire State.cores (fun _ => rfl) h) (of_wire State.parts (fun _ => rfl) h)
    (of_wire (fun t => t.mem.waiting) (fun _ => rfl) h)

theorem workload_updTx (node flow vc : Nat) (f : SeqTx → SeqTx) (s : State) : workload (updTx node flow vc f s) = workload s :=
  workload_same rfl rfl rfl rfl

theorem workload_incReg (k : Nat) (s : State) : workload (incReg k s) = workload s := by
  rw [incReg_frame]
  exact workload_same rfl rfl rfl rfl

theorem workload_putOnPort (o : Sent) (s : State) : workload (putOnPort o s) = workload s := by
  have hsend (u : State) : workload (if o.port < 8 then portSend o.port o.pkt u else u) = workload u := by
    split
    · exact workload_of_wire (wire_portSend ..)
    · rfl
  unfold putOnPort
  refine (hsend _).trans ?_
  split
  · split
    · exact workload_updPart (by intro; rfl) ..
    · rfl
  · rfl

theorem workload_dropOrigins (gone : Origin → Bool) (s : State) : workload (dropOrigins gone s) = workload s :=
  workload_same rfl rfl rfl rfl

theorem workload_rpcDrop (n page : Nat) (s : State) : workload (rpcDrop n page s) = workload s := by
  unfold rpcDrop
  exact (workload_dropOrigins ..).trans (workload_updPart (by intro; rfl) ..)

/-- A fetch of a page that cannot be sent drops its frame. -/
theorem workload_pageLost {o : Sent} {n page : Nat} (ho : o.origin = .rpc n page) (s : State) :
    workload (settle o .unreachable false s) = workload s := by
  have hsettle (u : State) : settleAt o.origin o .unreachable false u = rpcDrop n page u := by rw [ho]; rfl
  rw [settle, hsettle, workload_rpcDrop]
  split
  · exact workload_incReg ..
  · rfl

theorem workload_sendSeq {o : Sent} {n page : Nat} (ho : o.origin = .rpc n page) (s : State) : workload (sendSeq o s) = workload s := by
  unfold sendSeq
  dsimp only
  split
  · exact workload_pageLost ho s
  · split
    · exact (workload_putOnPort ..).trans (workload_updTx ..)
    · exact workload_updTx ..

theorem workload_sendReq (n m page : Nat) (q : Req) (dest : Nat) (s : State) : workload (sendReq n q (.rpc m page) dest s) = workload s := by
  have htag : workload (if q.tag.isSome then s else { s with fab := { s.fab with tagNo := (s.fab.tagNo + 1) % 65536 } }) = workload s := by
    split
    · rfl
    · exact workload_same rfl rfl rfl rfl
  unfold sendReq
  extract_lets job st tag k w fab u
  split
  · exact (workload_pageLost rfl u).trans htag
  · exact (workload_sendSeq rfl u).trans htag

theorem workload_rpcCount (n page : Nat) (s : State) : workload (rpcCount n page s).2 = workload s := by
  unfold rpcCount
  dsimp only
  split
  · rfl
  · split
    · split
      · exact (workload_updPart (by intro; rfl) ..).trans (workload_updPart (by intro; rfl) ..)
      · exact workload_updPart (by intro; rfl) ..
    · exact workload_updPart (by intro; rfl) ..

theorem workload_rpcWant (n node a : Nat) (s : State) : workload (rpcWant n node a s) = workload s := by
  unfold rpcWant
  dsimp only
  split
  · exact (workload_foldl (fun _ _ => workload_sendReq ..) ..).trans (workload_rpcCount ..)
  · exact workload_rpcCount ..

theorem workload_memGet {s : State} (hw : s.mem.waiting = []) (n g hint a len : Nat) : workload (memGet n g hint a len s).2 = workload s := by
  obtain ⟨hs, hm⟩ := memGet_memOnly hw n g hint a len
  exact workload_same (by rw [hs]) (by rw [hs]) (by rw [hs]) hm

theorem waiting_of_workload {s t : State} (h : workload t = workload s) (hw : s.mem.waiting = []) : t.mem.waiting = [] :=
  (workload_eq_iff.1 h).2.2.2.trans hw

theorem workload_rpcServe {s : State} (hw : s.mem.waiting = []) (n g hint frame a len : Nat) :
    workload (rpcServe n g hint frame a len s).2 = workload s := by
  unfold rpcServe
  dsimp only
  have htick : workload (nextTick s).2 = workload s := workload_same rfl rfl rfl rfl
  exact (workload_memGet (s := updPart n _ (nextTick s).2) hw ..).trans ((workload_updPart (by intro; rfl) ..).trans htick)

theorem workload_rangeRead (n hint a : Nat) (l : List (Nat × Nat)) {s : State} (hw : s.mem.waiting = []) :
    workload (rangeRead n hint a l s).2 = workload s := by
  induction l generalizing s with
  | nil => rfl
  | cons p l ih =>
    unfold rangeRead
    dsimp only
    split
    · have h := workload_memGet hw n 0 hint (by assumption) p.2
      exact (ih (waiting_of_workload h hw)).trans h
    · exact ih hw
    · have h : workload (drawBytes p.2 s).2 = workload s := workload_same rfl rfl rfl rfl
      exact (ih (waiting_of_workload h hw)).trans h
    · rfl

theorem workload_ingestFar (n a len : Nat) (far : HostRead) {s : State} (hw : s.mem.waiting = []) :
    workload (ingestFar n a len far s).2 = workload s := by
  unfold ingestFar
  refine List.foldlRecOn (motive := fun x : Option Bytes × State => workload x.2 = workload s) _ _ rfl fun x hx p _ => ?_
  dsimp only
  split
  · exact (workload_rpcServe (waiting_of_workload hx hw) ..).trans hx
  · exact (workload_rpcWant ..).trans hx
  · exact (workload_rpcWant ..).trans hx

theorem workload_ingestRead (n a len : Nat) (far : HostRead) {s : State} (hw : s.mem.waiting = []) :
    workload (ingestRead n a len far s).2 = workload s := by
  unfold ingestRead
  split
  · exact workload_rangeRead _ _ _ _ hw
  · split
    · exact workload_ingestFar _ _ _ _ hw
    · split <;> rfl

end Sys2Proof.Machine
end

section
/-!
PROOFS. O43: decode pipes (R427, R428, R432): their tests, the dispatch of samples, what a sample's end leaves, and the watchdog.
-/
namespace Sys2Proof.Machine

/-! ## Pipes -/

theorem getPipe_updPipe (k m : Nat) (f : Pipe → Pipe) (s : State) :
    getPipe (updPipe k f s) m = if m = k then f (getPipe s k) else getPipe s m := Tbl.get_upd ..

theorem getPipe_updPipe_self (k : Nat) (f : Pipe → Pipe) (s : State) : getPipe (updPipe k f s) k = f (getPipe s k) := by
  rw [getPipe_updPipe, if_pos rfl]

/-- A job that changes, and the others of every partition. -/
theorem jobs_updJob (n js : Nat) (f : Job → Job) (s : State) :
    (getPart (updJob n js f s) n).jobs.get none js = ((getPart s n).jobs.get none js).map f := by
  rw [updJob, getPart_updPart, if_pos rfl]
  exact (Tbl.get_upd ..).trans (if_pos rfl)

theorem jobs_updJob_ne {n js i : Nat} (h : i ≠ js) (f : Job → Job) (s : State) :
    (getPart (updJob n js f s) n).jobs.get none i = (getPart s n).jobs.get none i := by
  rw [updJob, getPart_updPart, if_pos rfl]
  exact (Tbl.get_upd ..).trans (if_neg h)

/-- The state of an event register of pipes: a bit and a pipe's number. -/
theorem bitOf_pipeEvent {bit : Nat} (h : bit < 16) (phys : Nat) (s : State) : bitOf (regN (pipeEvent bit phys s) (bIng + 4)) bit = true := by
  rw [pipeEvent, regN_congr (postEvent_regs ..), regN_setReg, if_pos rfl, BitVec.toNat_ofNat, bitOf_mod (by omega), bitOf_setBits,
    if_neg (by omega), bitOf_setBits, if_pos (by omega), Nat.sub_self]
  rfl

theorem bitsOf_pipeEvent (bit phys : Nat) (s : State) : bitsOf (regN (pipeEvent bit phys s) (bIng + 4)) 16 7 = phys % 128 := by
  rw [pipeEvent, regN_congr (postEvent_regs ..), regN_setReg, if_pos rfl, BitVec.toNat_ofNat, bitsOf_mod (by omega), bitsOf_setBits_self]
  rfl

/-- What the report of a failed pipe tells, and leaves. -/
structure PipeReported (bit phys k : Nat) (s t : State) : Prop where
  fuses : t.fer.fuseQ = s.fer.fuseQ ++ [{ cls := 4, what := k }]
  number : bitsOf (regN t (bIng + 4)) 16 7 = phys % 128
  event : bitOf (regN t (bIng + 4)) bit = true
  mem : t.mem = s.mem
  cores : t.cores = s.cores
  descs : t.descs = s.descs
  pipes : t.pipes = s.pipes

theorem pipeReported {bit : Nat} (h : bit < 16) (phys k : Nat) (s : State) : PipeReported bit phys k s (pipeEvent bit phys (queueRepair 4 k s)) :=
  ⟨rfl, bitsOf_pipeEvent .., bitOf_pipeEvent h .., rfl, rfl, rfl, rfl⟩

/-! ## Known-answer tests (R428) -/

theorem pipeTest_starts {s : State} {dt k n js : Nat} {j : Job} (hk : k < 64) (hn : n ∈ partNums) (howns : ownsPipe s n k = true) (hjs : js < 4)
    (hj : (getPart s n).jobs.get none js = some j) (hruns : jobRuns s j = true) (hidle : (getPipe s k).testing = none)
    (hdue : testDue (pass dt s) k = true) :
    exec (.pipeKnownAnswerTest dt k) s = .next (updPipe k (fun q => { q with testing := some (s.clock + dt) }) (pass dt s)) := by
  have hjob : ((List.range 4).any fun i => ((getPart (pass dt s) n).jobs.get none i).any (jobRuns (pass dt s))) = true :=
    List.any_eq_true.mpr ⟨js, List.mem_range.mpr hjs, by
      rw [show (getPart (pass dt s) n).jobs.get none js = some j from hj]
      exact hruns⟩
  have hused : (partNums.any fun n => ownsPipe (pass dt s) n k &&
      (List.range 4).any fun i => ((getPart (pass dt s) n).jobs.get none i).any (jobRuns (pass dt s))) = true :=
    List.any_eq_true.mpr ⟨n, hn, by rw [hjob, Bool.and_true]; exact howns⟩
  have htesting : (getPipe (pass dt s) k).testing.isNone = true := by
    rw [show getPipe (pass dt s) k = getPipe s k from rfl, hidle]; rfl
  show execPipeKnownAnswerTest dt k s = _
  unfold execPipeKnownAnswerTest
  dsimp only
  exact if_pos (by rw [hused, htesting, hdue, decide_eq_true hk]; rfl)

theorem exec_pipeTestDone {s : State} {dt k t0 : Nat} (ht : (getPipe s k).testing = some t0) (hlong : t0 + 4000000 ≤ s.clock + dt) (ok : Bool) :
    exec (.pipeTestDone dt k ok) s = .next (if ok then
      updPipe k (fun q => { q with testing := none, testedAt := some (s.clock + dt) }) (pass dt s) else pipeFails k (pass dt s)) := by
  show execPipeTestDone dt k ok s = _
  unfold execPipeTestDone
  dsimp only
  rw [show (getPipe (pass dt s) k).testing = some t0 from ht]
  exact if_pos hlong

/-- A pipe with a spare in its place: its sample starts anew. -/
def Pipe.spared (q clock : Nat) (p : Pipe) : Pipe :=
  { p with phys := some q, testing := none, testedAt := none, task := p.task.map fun t => { t with since := clock } }

/-- A pipe out of use. -/
def Pipe.outOfUse (p : Pipe) : Pipe := { p with retired := true, testing := none, task := none }

/-- The sample of a pipe goes back to its job. -/
def sampleReturned (k : Nat) (s : State) : State :=
  match (getPipe s k).task with
  | some t => updJob t.part t.jslot (fun j => { j with redo := j.redo ++ [t.j] }) s
  | none => s

theorem sampleReturned_frame (k : Nat) (s : State) : sampleReturned k s = { s with parts := (sampleReturned k s).parts } := by
  unfold sampleReturned; split <;> rfl

theorem pipeFails_spared {k q : Nat} {s : State} (h : (sparePipes s).head? = some q) :
    pipeFails k s = pipeEvent 0 (physOf s k) (queueRepair 4 k (updPipe k (Pipe.spared q s.clock) s)) := by
  unfold pipeFails
  dsimp only
  cases hs : sparePipes s with
  | nil => rw [hs] at h; cases h
  | cons r l => rw [hs] at h; cases h; rfl

theorem pipeFails_retired {k : Nat} {s : State} (h : sparePipes s = []) :
    pipeFails k s = pipeEvent 1 (physOf s k) (queueRepair 4 k (updPipe k Pipe.outOfUse (sampleReturned k s))) := by
  unfold pipeFails
  rw [h]
  rfl

/-- A pipe that fails its test is reported, and changed to what takes its place. -/
theorem pipeFails_reported (k : Nat) (s : State) : ∃ bit f v, PipeReported bit (physOf s k) k (updPipe k f v) (pipeFails k s) ∧
    v = { s with parts := v.parts } ∧ (∀ p, (f p).testing = none) ∧ (∀ q, (sparePipes s).head? = some q → bit = 0 ∧ f = Pipe.spared q s.clock) ∧
    (sparePipes s = [] → bit = 1 ∧ f = Pipe.outOfUse) := by
  cases hs : sparePipes s with
  | nil =>
    refine ⟨1, Pipe.outOfUse, sampleReturned k s, ?_, sampleReturned_frame k s, fun _ => rfl, fun q hq => (by cases hq), fun _ => ⟨rfl, rfl⟩⟩
    rw [pipeFails_retired hs]
    exact pipeReported (by decide) ..
  | cons q l =>
    refine ⟨0, Pipe.spared q s.clock, s, ?_, rfl, fun _ => rfl, fun r hr => ?_, fun h => (by cases h)⟩
    · rw [pipeFails_spared (show (sparePipes s).head? = some q by rw [hs]; rfl)]
      exact pipeReported (by decide) ..
    · cases hr
      exact ⟨rfl, rfl⟩

theorem getPipe_of_pipes {s t : State} (h : t.pipes = s.pipes) (k : Nat) : getPipe t k = getPipe s k := by rw [getPipe, h, getPipe]

/-- A failed pipe: what Ferryman and the registers are told, and what gives way. -/
theorem pipeFails_does (k : Nat) (s : State) :
    (pipeFails k s).fer.fuseQ = s.fer.fuseQ ++ [{ cls := 4, what := k }] ∧ (getPipe (pipeFails k s) k).testing = none ∧
    bitsOf (regN (pipeFails k s) (bIng + 4)) 16 7 = physOf s k % 128 ∧ (pipeFails k s).mem = s.mem ∧ (pipeFails k s).cores = s.cores ∧
    (pipeFails k s).descs = s.descs ∧
    (∀ q, (sparePipes s).head? = some q → physOf (pipeFails k s) k = q ∧ (getPipe (pipeFails k s) k).testedAt = none ∧
      (getPipe (pipeFails k s) k).retired = (getPipe s k).retired ∧ bitOf (regN (pipeFails k s) (bIng + 4)) 0 = true) ∧
    (sparePipes s = [] → (getPipe (pipeFails k s) k).retired = true ∧ (getPipe (pipeFails k s) k).task = none ∧
      bitOf (regN (pipeFails k s) (bIng + 4)) 1 = true) := by
  obtain ⟨bit, f, v, hrep, hv, htest, hspare, hnone⟩ := pipeFails_reported k s
  generalize pipeFails k s = t at hrep
  have hpipe : getPipe t k = f (getPipe s k) := by
    rw [getPipe_of_pipes hrep.pipes, getPipe_updPipe_self, hv]; rfl
  refine ⟨hrep.fuses.trans (by rw [hv]; rfl), by rw [hpipe, htest], hrep.number, hrep.mem.trans (by rw [hv]; rfl),
    hrep.cores.trans (by rw [hv]; rfl), hrep.descs.trans (by rw [hv]; rfl), fun q hq => ?_, fun hs => ?_⟩
  · obtain ⟨hbit, hf⟩ := hspare q hq
    rw [physOf, hpipe, hf, ← hbit]
    exact ⟨rfl, rfl, rfl, hrep.event⟩
  · obtain ⟨hbit, hf⟩ := hnone hs
    rw [hpipe, hf, ← hbit]
    exact ⟨rfl, rfl, hrep.event⟩

/-! ## The end of a sample (R432) -/

/-- A buffer with one sample more. -/
def Buffer.counted (x : Sample) (nulls sat : Nat) (v : Buffer) : Buffer :=
  { v with filled := v.filled + 1, failed := v.failed + b2n (x.status != 0), zero := v.zero + nulls, sat := v.sat + sat
           firstFail := if x.status = 0 then v.firstFail else v.firstFail <|> some (statusOfNum x.status) }

/-- A job whose buffer of a number has one sample more. -/
def Job.counted (x : Sample) (num nulls sat : Nat) (j : Job) : Job :=
  { j with buffers := j.buffers.map fun v => if v.num = num then v.counted x nulls sat else v }

/-- The events and the count that the end of a sample leaves. -/
def sampleTold (w : Task) (x : Sample) (s : State) : State :=
  if x.status = 0 then (if x.short then ingEvent w.part 3 w.jslot s else s)
  else ingEvent w.part (failBit x.status) w.jslot
    (updPart w.part (fun p => { p with jobFailed := Tbl.upd 0 p.jobFailed w.jslot fun n => satTo 24 (n + 1) }) s)

theorem Stored.putToken {n : Nat} (h : Shape) (a : Nat) (x : Nat × Nat × State) (row : Nat × List Num) (hw : x.2.2.mem.waiting = []) :
    Stored x.2.2 (putToken n h a x row).2.2 := by
  unfold Machine.putToken
  split
  · exact .ingPut hw ..
  · refine List.foldlRecOn (motive := fun y : Nat × Nat × State => Stored x.2.2 y.2.2) _ _ (.refl _) fun y hy j _ => ?_
    have hput (t : State) (a' : Nat) (d : Bytes) (ht : Stored x.2.2 t) : Stored x.2.2 (Machine.ingPut n a' d t) :=
      ht.trans (.ingPut (ht.waiting hw) ..)
    exact hput _ _ _ (hput _ _ _ hy)

theorem Stored.putFrames {n : Nat} (h : Shape) (a place : Nat) (l : List Picture) {s : State} (hw : s.mem.waiting = []) :
    Stored s (putFrames n h a place l s).2.2 := by
  unfold Machine.putFrames
  refine List.foldlRecOn (motive := fun y : Nat × Nat × State => Stored s y.2.2) _ _ (.refl _) fun y hy f _ => ?_
  exact List.foldlRecOn (motive := fun y : Nat × Nat × State => Stored s y.2.2) _ _ hy fun z hz r _ =>
    hz.trans (.putToken h a z _ (hz.waiting hw))

theorem length_sampleRecord (j s epoch clip : Nat) (redone : Bool) (x : Sample) : (sampleRecord j s epoch clip redone x).length = 64 := by
  simp only [sampleRecord, List.length_append, length_leBytes, length_zeros, List.length_cons, List.length_nil]

/-- A sample that has ended, in the buffer of its job. -/
structure SampleEnds (k : Nat) (w : Task) (x : Sample) (j : Job) (u : Buffer) (s t v : State) (nulls sat : Nat) : Prop where
  stored : Stored (updPipe k (fun q => { q with task := none }) s) v
  told : t = sampleTold w x (updJob w.part w.jslot (Job.counted x u.num nulls sat) v)
  written : x.audio = [] → (∀ e ∈ piecesOf (slotAddr j.block u.slot + 64 + 64 * placeOf j.block w.j) (zeros 64),
    quotaOk s w.part e.1 e.2.length true = true) → devRd v (slotAddr j.block u.slot + 64 + 64 * placeOf j.block w.j) 64 =
      sampleRecord w.j (sampleOf j.block w.j).2 (sampleOf j.block w.j).1 ((w.entry.map fun e => leAt e 24 4).getD 0) w.redone x

theorem finishSample_ends {k : Nat} {w : Task} {j : Job} {u : Buffer} {s : State} (x : Sample) (hw : s.mem.waiting = [])
    (hj : (getPart s w.part).jobs.get none w.jslot = some j) (hu : j.buffers.find? (fun u => u.num == bufferOf j.block w.j) = some u) :
    ∃ v nulls sat, SampleEnds k w x j u s (finishSample k w x s) v nulls sat := by
  obtain ⟨p, hp⟩ : ∃ p, p = updPipe k (fun q => { q with task := none }) s := ⟨_, rfl⟩
  have hpw : p.mem.waiting = [] := by rw [hp]; exact hw
  have hpj : (getPart p w.part).jobs.get none w.jslot = some j := by rw [hp]; exact hj
  obtain ⟨r, hr⟩ : ∃ r, r = putFrames w.part (shapeOf j.block) (slotAddr j.block u.slot) (placeOf j.block w.j) x.frames p := ⟨_, rfl⟩
  have hframes : Stored p r.2.2 := by rw [hr]; exact .putFrames _ _ _ _ hpw
  obtain ⟨b, hb⟩ : ∃ b, b = sampleRecord w.j (sampleOf j.block w.j).2 (sampleOf j.block w.j).1 ((w.entry.map fun e => leAt e 24 4).getD 0)
    w.redone x := ⟨_, rfl⟩
  have hlen : b.length = 64 := by rw [hb, length_sampleRecord]
  obtain ⟨m, hm⟩ : ∃ m, m = ingPut w.part (slotAddr j.block u.slot + 64 + 64 * placeOf j.block w.j) b r.2.2 := ⟨_, rfl⟩
  have hrecord : Stored p m := by rw [hm]; exact hframes.trans (.ingPut (hframes.waiting hpw) ..)
  obtain ⟨v, hv⟩ : ∃ v, v = if x.audio.isEmpty then m else
    ingPut w.part (slotAddr j.block u.slot + (shapeOf j.block).layout.2.2.2.1 + (shapeOf j.block).audio * placeOf j.block w.j) x.audio m := ⟨_, rfl⟩
  have hstored : Stored p v := by
    rw [hv]
    split
    · exact hrecord
    · exact hrecord.trans (.ingPut (hrecord.waiting hpw) ..)
  refine ⟨v, r.1, r.2.1, by rw [← hp]; exact hstored, ?_, fun haudio hq => ?_⟩
  · unfold finishSample
    rw [← hp]
    dsimp only
    rw [hpj]
    dsimp only
    rw [hu]
    dsimp only
    rw [← hr, ← hb, ← hm, ← hv]
    rfl
  · rw [haudio, List.isEmpty_nil, if_pos rfl] at hv
    have hback := devRd_ingPut (hframes.waiting hpw) (quotaPieces_of_length (d := zeros 64) (e := b) (by rw [hlen, length_zeros]) fun e he =>
      (hframes.quotaOk ..).trans (by rw [hp]; exact hq e he))
    rw [← hm, hlen] at hback
    rw [hv, ← hb]
    exact hback

theorem bitOf_ingEvent {bit : Nat} (h : bit < 16) (n js : Nat) (s : State) : bitOf (regN (ingEvent n bit js s) (ctx bIngCtx n 4)) bit = true := by
  rw [ingEvent, regN_setReg, if_pos rfl, BitVec.toNat_ofNat, bitOf_mod (by omega), bitOf_setBits, if_neg (by omega), bitOf_setBits,
    if_pos (by omega), Nat.sub_self]
  rfl

theorem getPart_ingEvent (n bit js m : Nat) (s : State) : getPart (ingEvent n bit js s) m = getPart s m := rfl

/-- What is told of a sample's end changes registers and counts of failures. -/
structure ToldOnly (s t : State) : Prop where
  frame : t = { s with regs := t.regs, parts := t.parts }
  jobs : ∀ m, (getPart t m).jobs = (getPart s m).jobs

theorem ToldOnly.of_regs {s t : State} (h : t = { s with regs := t.regs }) : ToldOnly s t :=
  ⟨by rw [h], fun m => by rw [h]; rfl⟩

theorem ToldOnly.trans {s t u : State} (h : ToldOnly s t) (k : ToldOnly t u) : ToldOnly s u :=
  ⟨by rw [k.frame, h.frame], fun m => (k.jobs m).trans (h.jobs m)⟩

theorem sampleTold_only (w : Task) (x : Sample) (s : State) : ToldOnly s (sampleTold w x s) := by
  unfold sampleTold
  split
  · split
    · exact .of_regs rfl
    · exact .of_regs rfl
  · refine ToldOnly.trans (t := updPart w.part (fun p => { p with jobFailed := Tbl.upd 0 p.jobFailed w.jslot fun n => satTo 24 (n + 1) }) s)
      ⟨rfl, fun m => ?_⟩ (.of_regs rfl)
    rw [getPart_updPart]
    split
    next h => subst h; rfl
    next => rfl

theorem failBit_lt (st : Nat) : failBit st < 16 := by
  unfold failBit
  split
  · decide
  · split <;> decide

theorem sampleTold_failed {w : Task} {x : Sample} (h : x.status ≠ 0) (s : State) :
    bitOf (regN (sampleTold w x s) (ctx bIngCtx w.part 4)) (failBit x.status) = true ∧
    (getPart (sampleTold w x s) w.part).jobFailed.get 0 w.jslot = satTo 24 ((getPart s w.part).jobFailed.get 0 w.jslot + 1) := by
  rw [sampleTold, if_neg h]
  refine ⟨bitOf_ingEvent (failBit_lt _) .., ?_⟩
  rw [getPart_ingEvent, getPart_updPart, if_pos rfl]
  dsimp only
  rw [Tbl.get_upd, if_pos rfl]

/-- The events of ingest stand in registers of their own. -/
theorem sampleTold_device (w : Task) (x : Sample) (s : State) :
    regN (sampleTold w x s) (bIng + 4) = regN s (bIng + 4) := by
  have hne (bit : Nat) (u : State) : regN (ingEvent w.part bit w.jslot u) (bIng + 4) = regN u (bIng + 4) := by
    rw [ingEvent, regN_setReg, if_neg]
    unfold ctx bIng bIngCtx
    omega
  unfold sampleTold
  split
  · split
    · exact hne ..
    · rfl
  · exact (hne _ _).trans rfl

section
variable {k : Nat} {w : Task} {x : Sample} {j : Job} {u : Buffer} {s t v : State} {nulls sat : Nat}

/-- What the end of a sample leaves of pipes, descriptors and cores. -/
theorem SampleEnds.keeps (h : SampleEnds k w x j u s t v nulls sat) : t.descs = s.descs ∧ t.cores = s.cores ∧
    t.pipes = (updPipe k (fun q => { q with task := none }) s).pipes ∧ t.mem = v.mem := by
  have hv := h.stored.memOnly.1
  have ht := (sampleTold_only w x (updJob w.part w.jslot (Job.counted x u.num nulls sat) v)).frame
  rw [← h.told] at ht
  exact ⟨by rw [ht, hv]; rfl, by rw [ht, hv]; rfl, by rw [ht, hv]; rfl, by rw [ht]; rfl⟩

/-- The job of a sample that has ended: its buffer counts it. -/
theorem SampleEnds.job (h : SampleEnds k w x j u s t v nulls sat) (hj : (getPart s w.part).jobs.get none w.jslot = some j) :
    (getPart t w.part).jobs.get none w.jslot = some (j.counted x u.num nulls sat) := by
  have hv : (getPart v w.part).jobs = (getPart s w.part).jobs := by
    rw [h.stored.memOnly.1]; rfl
  rw [h.told, (sampleTold_only ..).jobs, jobs_updJob, hv, hj]
  rfl

end

theorem counted_mem {x : Sample} {nulls sat : Nat} {j : Job} {u : Buffer} (h : u ∈ j.buffers) :
    u.counted x nulls sat ∈ (j.counted x u.num nulls sat).buffers :=
  List.mem_map.mpr ⟨u, h, if_pos rfl⟩

theorem exec_sampleDone {s : State} {k : Nat} {w : Task} (hw : (getPipe s k).task = some w) (ht : (getPipe s k).testing = none) :
    exec (.sampleDone k) s = .next (finishSample k w (taskSample s w) s) := by
  show execSampleDone k s = _
  unfold execSampleDone
  dsimp only
  rw [hw, ht]
  rfl

theorem sampleDone_does {s : State} {k : Nat} {w : Task} {j : Job} {u : Buffer} (hw : (getPipe s k).task = some w)
    (ht : (getPipe s k).testing = none) (hmem : s.mem.waiting = []) (hj : (getPart s w.part).jobs.get none w.jslot = some j)
    (hu : j.buffers.find? (fun u => u.num == bufferOf j.block w.j) = some u) :
    let x := taskSample s w
    let es := sampleOf j.block w.j
    let a := slotAddr j.block u.slot + 64 + 64 * placeOf j.block w.j
    Does (.sampleDone k) s fun t => getPipe t k = { getPipe s k with task := none } ∧ t.descs = s.descs ∧ t.cores = s.cores ∧
      (x.audio = [] → (∀ e ∈ piecesOf a (zeros 64), quotaOk s w.part e.1 e.2.length true = true) → devRd t a 64 =
        sampleRecord w.j es.2 es.1 ((w.entry.map fun e => leAt e 24 4).getD 0) w.redone x) ∧
      (∃ i v, (getPart t w.part).jobs.get none w.jslot = some i ∧ v ∈ i.buffers ∧ v.num = u.num ∧ v.filled = u.filled + 1 ∧
        v.failed = u.failed + b2n (x.status != 0) ∧ i.nextJ = j.nextJ ∧ i.signalled = j.signalled) ∧
      (x.status ≠ 0 → bitOf (regN t (ctx bIngCtx w.part 4)) (failBit x.status) = true ∧
        (getPart t w.part).jobFailed.get 0 w.jslot = satTo 24 ((getPart s w.part).jobFailed.get 0 w.jslot + 1)) := by
  intro x es a
  obtain ⟨v, nulls, sat, h⟩ := finishSample_ends (k := k) x hmem hj hu
  obtain ⟨hdescs, hcores, hpipes, hmemt⟩ := h.keeps
  refine ⟨_, exec_sampleDone hw ht, ?_⟩
  have hjob := h.job hj
  have htold := h.told
  have hwritten := h.written
  have hvpart : getPart v w.part = getPart s w.part := by rw [h.stored.memOnly.1]; rfl
  clear h
  generalize finishSample k w x s = t at *
  refine ⟨?_, hdescs, hcores, fun haudio hq => ?_, ⟨_, u.counted x nulls sat, hjob, counted_mem (List.mem_of_find?_eq_some hu), rfl, rfl, rfl,
    rfl, rfl⟩, fun hx => ?_⟩
  · rw [getPipe_of_pipes hpipes, getPipe_updPipe_self]
  · rw [← hwritten haudio hq]
    exact devRd_congr (memByte_descs hmemt) _ _
  · obtain ⟨hbit, hcount⟩ := sampleTold_failed (w := w) hx (updJob w.part w.jslot (Job.counted x u.num nulls sat) v)
    rw [htold]
    refine ⟨hbit, hcount.trans ?_⟩
    rw [updJob, getPart_updPart, if_pos rfl, hvpart]

/-! ## The watchdog (R428) -/

theorem exec_sampleWatchdog {s : State} {dt k : Nat} {w : Task} (hw : (getPipe s k).task = some w)
    (hlong : w.since + 4 * (taskSample s w).expected + 10000000 < s.clock + dt) : exec (.sampleWatchdog dt k) s =
    .next (updPipe k (fun q => { q with task := none, testing := some (s.clock + dt) })
      (if w.redone then finishSample k w { status := 0x70 } (pipeEvent 2 (physOf (pass dt s) k) (pass dt s))
      else updJob w.part w.jslot (fun j => { j with redo := j.redo ++ [w.j] }) (pipeEvent 2 (physOf (pass dt s) k) (pass dt s)))) := by
  show execSampleWatchdog dt k s = _
  unfold execSampleWatchdog
  dsimp only
  rw [show (getPipe (pass dt s) k).task = some w from hw]
  exact if_pos hlong

/-- What a watchdog's event leaves. -/
theorem pipeEvent_leaves (bit phys : Nat) (s : State) : (pipeEvent bit phys s).mem = s.mem ∧ (pipeEvent bit phys s).parts = s.parts ∧
    (pipeEvent bit phys s).descs = s.descs ∧ (pipeEvent bit phys s).cores = s.cores := ⟨rfl, rfl, rfl, rfl⟩

theorem sampleWatchdog_does {s : State} {dt k : Nat} {w : Task} {j : Job} {u : Buffer} (hw : (getPipe s k).task = some w)
    (hmem : s.mem.waiting = []) (hj : (getPart s w.part).jobs.get none w.jslot = some j)
    (hu : j.buffers.find? (fun u => u.num == bufferOf j.block w.j) = some u)
    (hlong : w.since + 4 * (taskSample s w).expected + 10000000 < s.clock + dt) : Does (.sampleWatchdog dt k) s fun t =>
      (getPipe t k).task = none ∧ (getPipe t k).testing = some (s.clock + dt) ∧ t.descs = s.descs ∧ t.cores = s.cores ∧
      bitOf (regN t (bIng + 4)) 2 = true ∧ ∃ i, (getPart t w.part).jobs.get none w.jslot = some i ∧
        (w.redone = false → i.redo = j.redo ++ [w.j] ∧ i.buffers = j.buffers ∧ t.mem = s.mem) ∧
        (w.redone = true → i.redo = j.redo ∧ ∃ v ∈ i.buffers, v.num = u.num ∧ v.filled = u.filled + 1 ∧ v.failed = u.failed + 1) := by
  refine ⟨_, exec_sampleWatchdog hw hlong, by rw [getPipe_updPipe_self], by rw [getPipe_updPipe_self], ?_⟩
  have hbit := bitOf_pipeEvent (bit := 2) (by decide) (physOf (pass dt s) k) (pass dt s)
  obtain ⟨hm, hp, hd, hc⟩ := pipeEvent_leaves 2 (physOf (pass dt s) k) (pass dt s)
  generalize pipeEvent 2 (physOf (pass dt s) k) (pass dt s) = e at *
  have hej : (getPart e w.part).jobs.get none w.jslot = some j := by rw [getPart, hp]; exact hj
  cases hr : w.redone with
  | false =>
    rw [if_neg Bool.false_ne_true]
    refine ⟨hd, hc, hbit, { j with redo := j.redo ++ [w.j] }, ?_, fun _ => ⟨rfl, rfl, hm⟩, fun h => absurd h Bool.false_ne_true⟩
    show (getPart (updJob w.part w.jslot _ e) w.part).jobs.get none w.jslot = _
    rw [jobs_updJob, hej]
    rfl
  | true =>
    rw [if_pos rfl]
    obtain ⟨v, nulls, sat, h⟩ := finishSample_ends (k := k) (s := e) { status := 0x70 } (by rw [hm]; exact hmem) hej hu
    obtain ⟨hdescs, hcores, -, -⟩ := h.keeps
    have hjob := h.job hej
    have hregs : regN (finishSample k w { status := 0x70 } e) (bIng + 4) = regN e (bIng + 4) := by
      rw [h.told, sampleTold_device]
      show regN v (bIng + 4) = _
      rw [h.stored.memOnly.1]
      rfl
    clear h
    generalize finishSample k w { status := 0x70 } e = t at *
    refine ⟨hdescs.trans hd, hcores.trans hc, ?_, _, hjob, fun h => absurd h.symm Bool.false_ne_true, fun _ =>
      ⟨rfl, u.counted { status := 0x70 } nulls sat, counted_mem (List.mem_of_find?_eq_some hu), rfl, rfl, rfl⟩⟩
    show bitOf (regN t (bIng + 4)) 2 = true
    rw [hregs]
    exact hbit

/-! ## Dispatch (R421, R423, R427) -/

/-- Jobs of a partition that have a sample but no slot are marked as waiting. -/
def markWaiting (n : Nat) (p : Part) (u s : State) : State :=
  (List.range 4).foldl (fun s js => if (p.jobs.get none js).any fun j => jobRuns u j && jobWaits p j then
    updJob n js (fun j => { j with waitingSlot := true }) s else s) s

/-- Marking leaves a job that can go on, and what a partition is but for its jobs. -/
theorem markWaiting_keeps {s u : State} {n js : Nat} {j : Job} (hj : (getPart s n).jobs.get none js = some j) (hcan : jobCan (getPart s n) j = true) :
    markWaiting n (getPart s n) u s = { s with parts := (markWaiting n (getPart s n) u s).parts } ∧
    (getPart (markWaiting n (getPart s n) u s) n).jobs.get none js = some j ∧
    (getPart (markWaiting n (getPart s n) u s) n).pipes = (getPart s n).pipes := by
  unfold markWaiting
  refine List.foldlRecOn (motive := fun t : State => t = { s with parts := t.parts } ∧ (getPart t n).jobs.get none js = some j ∧
    (getPart t n).pipes = (getPart s n).pipes) _ _ ⟨rfl, hj, rfl⟩ fun t ⟨hframe, hjob, hpipes⟩ i _ => ?_
  split
  next hwait =>
    have hne : js ≠ i := by
      rintro rfl
      rw [hj] at hwait
      have hidle : (jobRuns u j && jobWaits (getPart s n) j) = true := hwait
      rw [jobWaits, hcan, Bool.not_true, Bool.and_false, Bool.and_false] at hidle
      exact Bool.false_ne_true hidle
    refine ⟨by rw [updJob, updPart, hframe], (jobs_updJob_ne hne ..).trans hjob, ?_⟩
    rw [updJob, getPart_updPart, if_pos rfl]
    exact hpipes
  next => exact ⟨hframe, hjob, hpipes⟩

/-- A slot taken for a buffer: what the job keeps. -/
structure SlotTaken (n js : Nat) (j : Job) (s t : State) : Prop where
  descs : t.descs = s.descs
  cores : t.cores = s.cores
  regs : t.regs = s.regs
  waiting : t.mem.waiting = []
  job : ∃ i, (getPart t n).jobs.get none js = some i ∧ i.redo = j.redo ∧ i.nextJ = j.nextJ

theorem Stored.clearSlot {s : State} (hw : s.mem.waiting = []) (n : Nat) (b : Bytes) (slot : Nat) : Stored s (clearSlot n b slot s) := by
  have hput (t : State) (a : Nat) (d : Bytes) (ht : Stored s t) : Stored s (Machine.ingPut n a d t) := ht.trans (.ingPut (ht.waiting hw) ..)
  unfold Machine.clearSlot
  dsimp only
  split
  · exact hput _ _ _ (hput _ _ _ (.refl s))
  · exact hput _ _ _ (hput _ _ _ (hput _ _ _ (.refl s)))

/-- A job that takes a free slot for a buffer. -/
def Job.takes (k m : Nat) (j : Job) : Job :=
  { j with freeList := j.freeList.filter (fun x => x != m), buffers := j.buffers ++ [{ num := k, slot := m }] }

theorem takeSlot_taken {s : State} {n js : Nat} {j : Job} (k : Nat) (hw : s.mem.waiting = []) (hj : (getPart s n).jobs.get none js = some j) :
    SlotTaken n js j s (takeSlot n js k s) := by
  have hsame : SlotTaken n js j s s := ⟨rfl, rfl, rfl, hw, j, hj, rfl, rfl⟩
  unfold takeSlot
  dsimp only
  rw [hj]
  dsimp only
  split
  · exact hsame
  · split
    next m _ =>
      have hjob : (getPart (updJob n js (Job.takes k m) s) n).jobs.get none js = some (j.takes k m) := by rw [jobs_updJob, hj]; rfl
      have hwait : (updJob n js (Job.takes k m) s).mem.waiting = [] := hw
      have hd : (updJob n js (Job.takes k m) s).descs = s.descs := rfl
      have hc : (updJob n js (Job.takes k m) s).cores = s.cores := rfl
      have hr : (updJob n js (Job.takes k m) s).regs = s.regs := rfl
      show SlotTaken n js j s (clearSlot n j.block m (updJob n js (Job.takes k m) s))
      generalize updJob n js (Job.takes k m) s = v at hjob hwait hd hc hr
      have hclear := Stored.clearSlot hwait n j.block m
      generalize clearSlot n j.block m v = t at hclear
      have hframe := hclear.memOnly.1
      refine ⟨by rw [hframe]; exact hd, by rw [hframe]; exact hc, by rw [hframe]; exact hr, hclear.waiting hwait, j.takes k m, ?_, rfl, rfl⟩
      rw [show getPart t n = getPart v n by rw [hframe]; rfl]
      exact hjob
    next => exact hsame

/-- What the other node answers, or what this device's memory holds, for a sample's table entry. -/
theorem ingestRead_far {n a len : Nat} {s : State} (hnode : gNode a ≠ nodeId s) (hrm : gRm a = false) (far : HostRead) :
    ingestRead n a len far s = (match far with | .data b => (some (sliceB b 0 len), s) | .failed => (none, s)) := by
  cases far with
  | data b => simp only [ingestRead, if_neg hnode, hrm, Bool.false_and, Bool.false_eq_true, if_false]
  | failed => simp only [ingestRead, if_neg hnode, hrm, Bool.false_and, Bool.false_eq_true, if_false]

/-- A job whose sample has gone to a pipe. -/
def Job.dispatched (x : Nat × Bool) (degraded : Bool) (j : Job) : Job :=
  { j with redo := j.redo.filter fun i => i != x.1, nextJ := if x.2 then j.nextJ else j.nextJ + 1, degraded := j.degraded || degraded
           waitingSlot := false }

/-- The reads of a sample: its table entry, then its segment. -/
def sampleReads (n : Nat) (j : Job) (x : Nat × Bool) (entry segment : HostRead) (s : State) : Option Bytes × Option Bytes × State :=
  let e := ingestRead n (jbTable j.block + 32 * (sampleOf j.block x.1).2) 32 entry s
  let g := if e.1.isSome then ingestRead n ((e.1.map fun b => leAt b 0 8).getD 0) (188 * (e.1.map fun b => leAt b 8 4).getD 0) segment e.2
    else (none, e.2)
  (e.1, g.1, g.2)

/-- The task of a pipe that takes a sample. -/
def sampleTask (n js : Nat) (x : Nat × Bool) (r : Option Bytes × Option Bytes × State) : Task :=
  { part := n, jslot := js, j := x.1, redone := x.2, since := r.2.2.clock, entry := r.1, segment := r.2.1 }

theorem dispatch_eq (n js k : Nat) (j : Job) (x : Nat × Bool) (entry segment : HostRead) (s : State) :
    let r := sampleReads n j x entry segment (takeSlot n js (bufferOf j.block x.1) s)
    ∃ deg, dispatch n js k j x entry segment s = updPart n (fun p => { p with lastJob := js }) (updJob n js (Job.dispatched x deg)
      (updPipe k (fun q => { q with task := some (sampleTask n js x r) }) r.2.2)) :=
  ⟨_, rfl⟩

theorem sampleReads_keep {n : Nat} {s : State} (hw : s.mem.waiting = []) (j : Job) (x : Nat × Bool) (entry segment : HostRead) :
    workload (sampleReads n j x entry segment s).2.2 = workload s := by
  have hentry := workload_ingestRead n (jbTable j.block + 32 * (sampleOf j.block x.1).2) 32 entry hw
  unfold sampleReads
  dsimp only
  split
  · exact (workload_ingestRead _ _ _ _ (waiting_of_workload hentry hw)).trans hentry
  · exact hentry

theorem sampleReads_far {n : Nat} {s : State} {j : Job} {x : Nat × Bool} (hnode : gNode (jbTable j.block + 32 * (sampleOf j.block x.1).2) ≠ nodeId s)
    (hrm : gRm (jbTable j.block + 32 * (sampleOf j.block x.1).2) = false) (entry segment : HostRead) :
    (∀ b, entry = .data b → (sampleReads n j x entry segment s).1 = some (sliceB b 0 32)) ∧
    (entry = .failed → (sampleReads n j x entry segment s).1 = none ∧ (sampleReads n j x entry segment s).2.1 = none) := by
  refine ⟨fun b hb => ?_, fun hb => ?_⟩
  · unfold sampleReads
    rw [hb, ingestRead_far hnode hrm]
  · unfold sampleReads
    rw [hb, ingestRead_far hnode hrm]
    exact ⟨rfl, rfl⟩

theorem exec_sampleDispatch {s : State} {dt n k js : Nat} {j : Job} {x : Nat × Bool} (hrun : isStarted s n = true)
    (hpipe : (List.range 64).find? (pipeFree (pass dt s) n) = some k)
    (hturn : (jobTurns (getPart s n)).find? (fun i => ((getPart s n).jobs.get none i).any fun j => jobRuns s j && jobCan (getPart s n) j) = some js)
    (hj : (getPart s n).jobs.get none js = some j) (hx : jobNext j = some x) (entry segment : HostRead) :
    exec (.sampleDispatch dt n entry segment) s =
      .next (dispatch n js k j x entry segment (markWaiting n (getPart s n) (pass dt s) (pass dt s))) := by
  have hready : ((getPart s n).jobs.get none js).any (fun j => jobRuns s j && jobCan (getPart s n) j) = true := (List.find?_some hturn :)
  rw [hj] at hready
  have hcan : jobCan (getPart s n) j = true := (Bool.and_eq_true_iff.mp hready).2
  obtain ⟨hframe, hjob, hpipes⟩ := markWaiting_keeps (s := pass dt s) (u := pass dt s) hj hcan
  show execSampleDispatch dt n entry segment s = _
  unfold execSampleDispatch
  extract_lets s' p ready t
  have ht : t = markWaiting n (getPart s n) (pass dt s) (pass dt s) := rfl
  replace hframe : t = { pass dt s with parts := t.parts } := hframe
  replace hjob : (getPart t n).jobs.get none js = some j := hjob
  replace hpipes : (getPart t n).pipes = (getPart s n).pipes := hpipes
  rw [← ht]
  clear_value t
  have hfree : pipeFree t n = pipeFree (pass dt s) n := by
    funext i
    unfold pipeFree ownsPipe testDue
    rw [hpipes, show getPipe t i = getPipe (pass dt s) i by rw [hframe]; rfl, show t.clock = (pass dt s).clock by rw [hframe]]
    rfl
  rw [hrun, Bool.not_true, if_neg Bool.false_ne_true, hfree, hpipe, show (jobTurns p).find? ready = some js from hturn]
  dsimp only
  rw [hjob]
  dsimp only
  rw [hx]

theorem sampleDispatch_does {s : State} {dt n k js : Nat} {j : Job} {x : Nat × Bool} (hrun : isStarted s n = true) (hw : s.mem.waiting = [])
    (hpipe : (List.range 64).find? (pipeFree (pass dt s) n) = some k)
    (hturn : (jobTurns (getPart s n)).find? (fun i => ((getPart s n).jobs.get none i).any fun j => jobRuns s j && jobCan (getPart s n) j) = some js)
    (hj : (getPart s n).jobs.get none js = some j) (hx : jobNext j = some x) (entry segment : HostRead) :
    Does (.sampleDispatch dt n entry segment) s fun t =>
      (∃ w, (getPipe t k).task = some w ∧ w.part = n ∧ w.jslot = js ∧ w.j = x.1 ∧ w.redone = x.2 ∧
        (gNode (jbTable j.block + 32 * (sampleOf j.block x.1).2) ≠ nodeId s → gRm (jbTable j.block + 32 * (sampleOf j.block x.1).2) = false →
          (∀ b, entry = .data b → w.entry = some (sliceB b 0 32)) ∧ (entry = .failed → w.entry = none ∧ w.segment = none))) ∧
      (getPart t n).lastJob = js ∧ t.descs = s.descs ∧ t.cores = s.cores ∧
      ∃ i, (getPart t n).jobs.get none js = some i ∧ i.nextJ = (if x.2 then j.nextJ else j.nextJ + 1) ∧
        (x.2 = true → i.redo = j.redo.filter fun y => y != x.1) := by
  refine ⟨_, exec_sampleDispatch hrun hpipe hturn hj hx entry segment, ?_⟩
  have hready : ((getPart s n).jobs.get none js).any (fun j => jobRuns s j && jobCan (getPart s n) j) = true := (List.find?_some hturn :)
  rw [hj] at hready
  obtain ⟨hframe, hjob, -⟩ := markWaiting_keeps (s := pass dt s) (u := pass dt s) hj (Bool.and_eq_true_iff.mp hready).2
  replace hframe : markWaiting n (getPart s n) (pass dt s) (pass dt s) = { pass dt s with
    parts := (markWaiting n (getPart s n) (pass dt s) (pass dt s)).parts } := hframe
  replace hjob : (getPart (markWaiting n (getPart s n) (pass dt s) (pass dt s)) n).jobs.get none js = some j := hjob
  generalize markWaiting n (getPart s n) (pass dt s) (pass dt s) = m at hframe hjob
  have hmw : m.mem.waiting = [] := by rw [hframe]; exact hw
  have htaken := takeSlot_taken (bufferOf j.block x.1) hmw hjob
  obtain ⟨deg, hd⟩ := dispatch_eq n js k j x entry segment m
  rw [hd]
  generalize takeSlot n js (bufferOf j.block x.1) m = a at htaken
  have hkeep := sampleReads_keep (n := n) htaken.waiting j x entry segment
  obtain ⟨hdescs, hcores, hjobs, -⟩ := workload_eq_iff.1 hkeep
  have hregs : a.regs = s.regs := htaken.regs.trans (by rw [hframe]; rfl)
  have hnode : nodeId a = nodeId s := by rw [nodeId, regN_congr hregs, nodeId]
  have hfar (h1 : gNode (jbTable j.block + 32 * (sampleOf j.block x.1).2) ≠ nodeId s)
      (h2 : gRm (jbTable j.block + 32 * (sampleOf j.block x.1).2) = false) :=
    sampleReads_far (n := n) (s := a) (j := j) (x := x) (by rw [hnode]; exact h1) h2 entry segment
  generalize sampleReads n j x entry segment a = r at *
  obtain ⟨i, hi, hredo, hnext⟩ := htaken.job
  have hjr : (getPart r.2.2 n).jobs.get none js = some i := by rw [hjobs]; exact hi
  obtain ⟨v, hv⟩ : ∃ v, v = updPipe k (fun q => { q with task := some (sampleTask n js x r) }) r.2.2 := ⟨_, rfl⟩
  have hpipes : (getPipe v k).task = some (sampleTask n js x r) := by rw [hv, getPipe_updPipe_self]
  have hvj : (getPart v n).jobs.get none js = some i := by rw [hv]; exact hjr
  have hvd : v.descs = s.descs := by rw [hv]; exact hdescs.trans (htaken.descs.trans (by rw [hframe]; rfl))
  have hvc : v.cores = s.cores := by rw [hv]; exact hcores.trans (htaken.cores.trans (by rw [hframe]; rfl))
  rw [← hv]
  clear hv
  refine ⟨⟨sampleTask n js x r, hpipes, rfl, rfl, rfl, rfl, hfar⟩, ?_, hvd, hvc, i.dispatched x deg, ?_, ?_,
    fun _ => ?_⟩
  · rw [getPart_updPart, if_pos rfl]
  · rw [getPart_updPart, if_pos rfl]
    show (getPart (updJob n js (Job.dispatched x deg) v) n).jobs.get none js = _
    rw [jobs_updJob, hvj]
    rfl
  · rw [Job.dispatched, hnext]
  · rw [Job.dispatched, hredo]

/-- Settles O43: the tests of pipes, the dispatch of samples, their end and their watchdog. -/
theorem decodePipes : Obligations.DecodePipes := by
  unfold Obligations.DecodePipes
  refine ⟨fun s dt k n js j hk hn howns hjs hj hruns hidle hdue => pipeTest_starts hk hn howns hjs hj hruns hidle hdue,
    fun s dt k t0 ht hlong => ⟨exec_pipeTestDone ht hlong true, ⟨_, exec_pipeTestDone ht hlong false, pipeFails_does k (pass dt s)⟩⟩,
    fun s dt n k js j x entry segment hrun hw hpipe hturn hj hx => sampleDispatch_does hrun hw hpipe hturn hj hx entry segment,
    fun s k w j u hw ht hmem hj hu => sampleDone_does hw ht hmem hj hu,
    fun s dt k w j u hw _ hmem hj hu hlong => sampleWatchdog_does hw hmem hj hu hlong⟩

end Sys2Proof.Machine
end
section
/-!
PROOFS. O40: what the messages of a collective leave alone (R366, R372, R378), and the requests they add.
-/
namespace Sys2Proof.Machine

/-! ## Ports -/

/-- What a collective's sender sees of a port: its state and its width. -/
def lane (s : State) (p : Nat) : PortState × Nat := ((getPort s p).st, (getPort s p).width)

theorem lane_updPort {f : Port → Port} (hf : ∀ q, (f q).st = q.st ∧ (f q).width = q.width) (p : Nat) (s : State) (q : Nat) :
    lane (updPort p f s) q = lane s q := by
  have hget : getPort (updPort p f s) q = if q = p then f (getPort s p) else getPort s q := Tbl.get_upd ..
  rw [lane, hget, lane]
  split
  next h => rw [(hf _).1, (hf _).2, h]
  next => rfl

theorem lane_portPut (p n : Nat) (o : Out) (s : State) (q : Nat) : lane (portPut p n o s) q = lane s q :=
  lane_updPort (by intro; exact ⟨rfl, rfl⟩) ..

theorem lane_linkDue (p : Nat) (s : State) (q : Nat) : lane (linkDue p s) q = lane s q := by
  unfold linkDue
  split
  · exact (lane_updPort (by intro; exact ⟨rfl, rfl⟩) ..).trans (lane_portPut ..)
  · rfl

theorem lane_rxCodewords (p n : Nat) (s : State) (q : Nat) : lane (rxCodewords p n s) q = lane s q :=
  (lane_linkDue ..).trans (lane_updPort (by intro; exact ⟨rfl, rfl⟩) ..)

/-! ## What sending leaves alone -/

/-- What sending a collective's packets leaves alone, apart from memory's bytes and the steps: all but messages, memory, ports,
sequences, partitions and the power state. -/
def besides (s : State) : State :=
  { s with out := [], mem := {}, parts := [], fab := { s.fab with ports := [], rx := [], tx := [] }, fer := { s.fer with power := .active } }

theorem of_besides {α : Type} {s t : State} (f : State → α) (hf : ∀ s, f (besides s) = f s) (h : besides t = besides s) : f t = f s := by
  rw [← hf t, h, hf s]

/-- A request is open in one of the device's sequences (R372). -/
def Requested (s : State) (o : Sent) : Prop := ∃ key, o ∈ (s.fab.tx.get {} key).unacked ++ (s.fab.tx.get {} key).waitingQ

theorem Requested.asks {t : State} {o : Sent} {P : Packet → Prop} (h : Requested t o) (hp : P o.pkt) : Asks t P := by
  obtain ⟨key, hkey⟩ := h
  by_contra hno
  have hall : ∀ e ∈ t.fab.tx, ∀ o ∈ e.2.unacked ++ e.2.waitingQ, ¬ P o.pkt := fun e he o ho hP => hno ⟨e, he, o, ho, hP⟩
  exact Tbl.forall_get (P := fun x : SeqTx => ∀ o ∈ x.unacked ++ x.waitingQ, ¬ P o.pkt) (fun o ho => absurd ho List.not_mem_nil) hall key o hkey hp

theorem Requested.of_tx {s t : State} (h : t.fab.tx = s.fab.tx) {o : Sent} (ho : Requested s o) : Requested t o := by
  rw [Requested, h]
  exact ho

/-- A sequence that grows keeps its requests. -/
theorem Requested.updTx {s : State} {o : Sent} (node flow vc : Nat) {f : SeqTx → SeqTx}
    (hf : ∀ x, x.unacked ++ x.waitingQ ⊆ (f x).unacked ++ (f x).waitingQ) (h : Requested s o) : Requested (updTx node flow vc f s) o := by
  obtain ⟨key, hkey⟩ := h
  have hget : (Machine.updTx node flow vc f s).fab.tx.get {} key =
    if key = seqKey node flow vc then f (s.fab.tx.get {} (seqKey node flow vc)) else s.fab.tx.get {} key := Tbl.get_upd ..
  refine ⟨key, ?_⟩
  rw [hget]
  split
  next hk => exact hf _ (hk ▸ hkey)
  next => exact hkey

/-- The state differs in what collective messages change: the collectives of partitions, messages, ports and sequences, whose open
requests stay. -/
structure Aligned (s t : State) : Prop where
  rest : besides t = besides s
  bytes : ∀ b, memByte t b = memByte s b
  waiting : t.mem.waiting = s.mem.waiting
  steps : ∀ m, openStep t m = openStep s m
  lanes : ∀ p, lane t p = lane s p
  kept : ∀ o, Requested s o → Requested t o

theorem Aligned.refl (s : State) : Aligned s s := ⟨rfl, fun _ => rfl, rfl, fun _ => rfl, fun _ => rfl, fun _ h => h⟩

theorem Aligned.trans {s t u : State} (h : Aligned s t) (k : Aligned t u) : Aligned s u :=
  ⟨k.rest.trans h.rest, fun b => (k.bytes b).trans (h.bytes b), k.waiting.trans h.waiting, fun m => (k.steps m).trans (h.steps m),
    fun p => (k.lanes p).trans (h.lanes p), fun o ho => k.kept o (h.kept o ho)⟩

/-- What changes neither memory, partitions, ports nor sequences. -/
theorem Aligned.of_same {s t : State} (hrest : besides t = besides s) (hm : t.mem = s.mem) (hp : t.parts = s.parts)
    (hl : t.fab.ports = s.fab.ports) (ht : t.fab.tx = s.fab.tx) : Aligned s t :=
  ⟨hrest, memByte_descs hm, by rw [hm], fun m => by rw [openStep, getPart, hp, openStep, getPart],
    fun p => by rw [lane, getPort, hl, lane, getPort], fun _ ho => ho.of_tx ht⟩

/-- Traffic on a port, sending of packets apart from their sequences. -/
theorem Aligned.of_wire {s t : State} (h : wire t = wire s) (hl : ∀ p, lane t p = lane s p) : Aligned s t :=
  ⟨Machine.of_wire besides (fun _ => rfl) h, memByte_descs (Machine.of_wire State.mem (fun _ => rfl) h),
    Machine.of_wire (fun t => t.mem.waiting) (fun _ => rfl) h, fun m => Machine.of_wire (fun t => openStep t m) (fun _ => rfl) h, hl,
    fun _ ho => ho.of_tx (Machine.of_wire (fun t => t.fab.tx) (fun _ => rfl) h)⟩

theorem Aligned.updPart {s : State} (n : Nat) {f : Part → Part} (hf : ∀ p, (f p).step = p.step) : Aligned s (updPart n f s) := by
  refine ⟨rfl, fun _ => rfl, rfl, fun m => ?_, fun _ => rfl, fun _ h => h⟩
  rw [openStep, getPart_updPart, openStep]
  split
  next h => rw [hf, h]
  next => rfl

theorem Aligned.updColl (n id : Nat) (f : Coll → Coll) (s : State) : Aligned s (updColl n id f s) :=
  .updPart n (by intro; rfl)

theorem Aligned.updTx {s : State} (node flow vc : Nat) {f : SeqTx → SeqTx}
    (hf : ∀ x, x.unacked ++ x.waitingQ ⊆ (f x).unacked ++ (f x).waitingQ) : Aligned s (updTx node flow vc f s) :=
  ⟨rfl, fun _ => rfl, rfl, fun _ => rfl, fun _ => rfl, fun _ ho => ho.updTx node flow vc hf⟩

theorem Aligned.memGet {s : State} (hw : s.mem.waiting = []) (n a len : Nat) : Aligned s (memGet n 0 0 a len s).2 := by
  obtain ⟨hs, hm⟩ := memGet_memOnly hw n 0 0 a len
  refine ⟨by rw [hs]; rfl, (memGet_bytes hw (by decide) n 0 a len).2, hm, fun m => by rw [hs]; rfl, fun p => by rw [hs]; rfl, fun o ho => ?_⟩
  exact ho.of_tx (by rw [hs])

theorem Aligned.leaveIdle (s : State) : Aligned s (leaveIdle s) := by
  unfold Machine.leaveIdle
  split
  · exact .of_same rfl rfl rfl rfl rfl
  · exact .refl s

theorem Aligned.arrived (p : Nat) (k : Packet) (s : State) : Aligned s (arrived p k s) :=
  .of_wire (wire_arrived p k s) (lane_rxCodewords p (pktCodewords k) s)

/-! ## What it reads the same -/

namespace Aligned
variable {s t : State} (h : Aligned s t)
include h

theorem regN (k : Nat) : regN t k = regN s k := of_besides (fun t => Machine.regN t k) (fun _ => rfl) h.rest
theorem reg64 (k : Nat) : reg64 t k = reg64 s k := of_besides (fun t => Machine.reg64 t k) (fun _ => rfl) h.rest
theorem nodeId : nodeId t = nodeId s := of_besides Machine.nodeId (fun _ => rfl) h.rest
theorem partJob (n : Nat) : partJob t n = partJob s n := of_besides (fun t => Machine.partJob t n) (fun _ => rfl) h.rest
theorem getDest (n : Nat) : getDest t n = getDest s n := of_besides (fun t => Machine.getDest t n) (fun _ => rfl) h.rest
theorem findDesc (id : Nat) : findDesc t id = findDesc s id := of_besides (fun t => Machine.findDesc t id) (fun _ => rfl) h.rest
theorem clock : t.clock = s.clock := of_besides State.clock (fun _ => rfl) h.rest
theorem parked : t.fab.parked = s.fab.parked := of_besides (fun t => t.fab.parked) (fun _ => rfl) h.rest
theorem isReturning (node flow : Nat) : isReturning t node flow = isReturning s node flow :=
  of_besides (fun t => Machine.isReturning t node flow) (fun _ => rfl) h.rest
theorem devRd (a n : Nat) : devRd t a n = devRd s a n := devRd_congr h.bytes a n
theorem portUp (p : Nat) : portUp t p = portUp s p := by
  rw [Machine.portUp, Machine.portUp, show (getPort t p).st = (getPort s p).st from congrArg Prod.fst (h.lanes p)]
theorem portDegraded (p f : Nat) : portDegraded t p f = portDegraded s p f := by
  rw [Machine.portDegraded, Machine.portDegraded, show (getPort t p).width = (getPort s p).width from congrArg Prod.snd (h.lanes p)]
theorem destPort (node f : Nat) : destPort t node f = destPort s node f := by
  unfold Machine.destPort
  rw [h.getDest]
  simp only [h.portUp]
theorem reaches {n : Nat} (hn : Reaches s n) : Reaches t n := by
  obtain ⟨hpart, hjob, hnode⟩ := hn
  exact ⟨hpart, (h.partJob n).symm ▸ hjob, fun node => by rw [h.getDest]; exact hnode node⟩
theorem peerCount (n : Nat) : peerCount t n = peerCount s n := of_besides (fun t => Machine.peerCount t n) (fun _ => rfl) h.rest
theorem peerNode (n m : Nat) : peerNode t n m = peerNode s n m := by rw [Machine.peerNode, h.devRd, h.reg64, Machine.peerNode]
theorem podOf (n m : Nat) : podOf t n m = podOf s n m := by rw [Machine.podOf, h.devRd, h.reg64, Machine.podOf]
theorem ownMember (n : Nat) : ownMember t n = ownMember s n := by
  simp only [Machine.ownMember, h.peerCount, h.peerNode, h.nodeId]
theorem othersOf (n m : Nat) : othersOf t n m = othersOf s n m := by rw [Machine.othersOf, h.peerCount, Machine.othersOf]
theorem podMembers (n pod : Nat) : podMembers t n pod = podMembers s n pod := by
  simp only [Machine.podMembers, h.peerCount, h.podOf]
theorem podRoot (n root pod : Nat) : podRoot t n root pod = podRoot s n root pod := by
  simp only [Machine.podRoot, h.podMembers, h.podOf]
theorem otherPodRoots (n root : Nat) : otherPodRoots t n root = otherPodRoots s n root := by
  simp only [Machine.otherPodRoots, h.othersOf, h.podOf, h.podRoot]
theorem collParent (n root m : Nat) : collParent t n root m = collParent s n root m := by
  simp only [Machine.collParent, h.podOf, h.podRoot]
theorem collChildren (n root m : Nat) : collChildren t n root m = collChildren s n root m := by
  simp only [Machine.collChildren, h.podMembers, h.podOf, h.othersOf, h.otherPodRoots]
theorem collIsRoot (n : Nat) (d : Desc) : collIsRoot t n d = collIsRoot s n d := by rw [Machine.collIsRoot, h.ownMember, Machine.collIsRoot]
theorem collExpect (n : Nat) (d : Desc) : collExpect t n d = collExpect s n d := by
  simp only [Machine.collExpect, h.ownMember, h.collChildren, h.othersOf]
theorem collFeeds (n : Nat) (d : Desc) : collFeeds t n d = collFeeds s n d := by
  simp only [Machine.collFeeds, h.ownMember, h.collChildren, h.othersOf]
theorem collReceives (n : Nat) (d : Desc) : collReceives t n d = collReceives s n d := by
  simp only [Machine.collReceives, h.collIsRoot, h.ownMember, h.otherPodRoots]
theorem secondLevel (n : Nat) (d : Desc) (m : Nat) : secondLevel t n d m = secondLevel s n d m := by
  simp only [Machine.secondLevel, h.collIsRoot, h.otherPodRoots]
theorem cEntries (d : Desc) : cEntries t d = cEntries s d := by simp only [Machine.cEntries, h.devRd]
theorem cTotal (d : Desc) : cTotal t d = cTotal s d := by rw [Machine.cTotal, h.cEntries, Machine.cTotal]
theorem cChunks (d : Desc) : cChunks t d = cChunks s d := by rw [Machine.cChunks, h.cEntries, Machine.cChunks]
theorem bcTotal (d : Desc) : bcTotal t d = bcTotal s d := by rw [Machine.bcTotal, h.cEntries, Machine.bcTotal]
theorem collSig (n : Nat) (d : Desc) : collSig t n d = collSig s n d := by
  simp only [Machine.collSig, Machine.collSeq, collStep, h.steps, h.cTotal]
theorem chunkLacks (n : Nat) (d : Desc) (c : Coll) (i : Nat) (k : Chunk) : chunkLacks t n d c i k = chunkLacks s n d c i k := by
  simp only [Machine.chunkLacks, h.collChildren, h.ownMember, h.secondLevel]

end Aligned

/-! ## Collectives found and changed -/

theorem findColl_updColl {f : Coll → Coll} (hf : ∀ c, (f c).id = c.id) (n id m i : Nat) (s : State) :
    findColl (updColl n id f s) m i = (findColl s m i).map fun c => if m = n ∧ i = id then f c else c := by
  rw [findColl, updColl, getPart_updPart, findColl]
  split
  next hm =>
    subst hm
    have hpred : ((fun c : Coll => c.id == i) ∘ fun c => if c.id = id then f c else c) = fun c => c.id == i := by
      funext c
      show ((if c.id = id then f c else c).id == i) = (c.id == i)
      split
      · rw [hf]
      · rfl
    rw [List.find?_map, hpred]
    cases hfind : (getPart s m).colls.find? (fun c => c.id == i) with
    | none => rfl
    | some c =>
      have hid : c.id = i := eq_of_beq (List.find?_some hfind :)
      rw [Option.map_some, Option.map_some, hid]
      simp only [true_and]
  next hm =>
    simp only [hm, false_and, if_false, Option.map_id']

theorem findColl_updColl_self {f : Coll → Coll} (hf : ∀ c, (f c).id = c.id) {s : State} {n id : Nat} {c : Coll}
    (h : findColl s n id = some c) : findColl (updColl n id f s) n id = some (f c) := by
  rw [findColl_updColl hf, h, Option.map_some, if_pos ⟨rfl, rfl⟩]

/-- A collective but for the mark that a degraded port leaves on it (R378). -/
def Coll.unmarked (c : Coll) : Coll := { c with degraded := false }

/-- A collective but for its mark and its grants. -/
def Coll.ungranted (c : Coll) : Coll := { c with degraded := false, granted := [] }

/-- A collective without what its own sending moves on. -/
def Coll.steady (c : Coll) : Coll :=
  { c with granted := [], sent := 0, kept := [], nan := 0, sat := 0, first := 0, ownNan := 0, nanEntries := [], endSent := []
           doneSent := false, degraded := false }

/-- Sending on behalf of collectives: what it leaves alone, and of each collective what `v` sees. -/
structure Busy {α : Type} (v : Coll → α) (s t : State) : Prop where
  aligned : Aligned s t
  colls : ∀ m id, (findColl t m id).map v = (findColl s m id).map v

namespace Busy
variable {α : Type} {v : Coll → α} {s t u : State}

theorem refl (v : Coll → α) (s : State) : Busy v s s := ⟨.refl s, fun _ _ => rfl⟩

theorem trans (h : Busy v s t) (k : Busy v t u) : Busy v s u :=
  ⟨h.aligned.trans k.aligned, fun m id => (k.colls m id).trans (h.colls m id)⟩

theorem foldl {β : Type} {f : State → β → State} (l : List β) (h : ∀ t, Busy v s t → ∀ x ∈ l, Busy v t (f t x)) :
    Busy v s (l.foldl f s) :=
  List.foldlRecOn (motive := Busy v s) l f (.refl v s) fun t ht x hx => ht.trans (h t ht x hx)

/-- Who sees less sees no more change. -/
theorem seen {β : Type} {w : Coll → β} (h : Busy v s t) (g : α → β) (hg : ∀ c, g (v c) = w c) : Busy w s t := by
  refine ⟨h.aligned, fun m id => ?_⟩
  have hcomp : g ∘ v = w := funext hg
  rw [← hcomp, ← Option.map_map, h.colls, Option.map_map]

/-- What leaves partitions alone. -/
theorem of_parts (h : Aligned s t) (hp : t.parts = s.parts) : Busy v s t :=
  ⟨h, fun m id => by rw [findColl, getPart, hp, findColl, getPart]⟩

theorem updColl {f : Coll → Coll} (hid : ∀ c, (f c).id = c.id) (hf : ∀ c, v (f c) = v c) (n id : Nat) (s : State) :
    Busy v s (updColl n id f s) := by
  refine ⟨.updColl .., fun m i => ?_⟩
  rw [findColl_updColl hid, Option.map_map]
  congr 1
  funext c
  show v (if m = n ∧ i = id then f c else c) = v c
  split
  · exact hf c
  · rfl

/-- The collective that a state has is there afterwards. -/
theorem coll (h : Busy v s t) {n id : Nat} {c : Coll} (hc : findColl s n id = some c) :
    ∃ e, findColl t n id = some e ∧ v e = v c := by
  have hmap := h.colls n id
  rw [hc, Option.map_some] at hmap
  exact Option.map_eq_some_iff.mp hmap

end Busy

/-! ## A collective's request (R372, R373, R375) -/

theorem lane_portSend (p : Nat) (k : Packet) (s : State) (q : Nat) : lane (portSend p k s) q = lane s q := by
  unfold portSend
  dsimp only
  split
  · exact lane_updPort (by intro; exact ⟨rfl, rfl⟩) ..
  · exact (lane_linkDue ..).trans ((lane_portPut ..).trans (lane_updPort (by intro; exact ⟨rfl, rfl⟩) ..))

theorem Busy.portSend {α : Type} {v : Coll → α} (p : Nat) (k : Packet) (s : State) : Busy v s (portSend p k s) :=
  .of_parts (.of_wire (wire_portSend ..) (lane_portSend p k s)) (of_wire State.parts (fun _ => rfl) (wire_portSend ..))

theorem Busy.putOnPort {o : Sent} {n id : Nat} (ho : o.origin = .coll n id) (s : State) : Busy Coll.unmarked s (putOnPort o s) := by
  unfold Machine.putOnPort
  rw [ho]
  dsimp only
  have hmark : Busy Coll.unmarked s (if o.degraded then Machine.updColl n id (fun c => { c with degraded := true }) s else s) := by
    split
    · exact .updColl (by intro; rfl) (by intro; rfl) ..
    · exact .refl _ s
  split
  · exact hmark.trans (.portSend ..)
  · exact hmark

theorem Busy.updTx {α : Type} {v : Coll → α} {s : State} (node flow vc : Nat) {f : SeqTx → SeqTx}
    (hf : ∀ x, x.unacked ++ x.waitingQ ⊆ (f x).unacked ++ (f x).waitingQ) : Busy v s (updTx node flow vc f s) :=
  .of_parts (.updTx node flow vc hf) rfl

theorem requested_updTx {s : State} {o : Sent} {node flow vc : Nat} {f : SeqTx → SeqTx}
    (h : ∀ x, o ∈ (f x).unacked ++ (f x).waitingQ) : Requested (updTx node flow vc f s) o :=
  ⟨seqKey node flow vc, by
    have hget : (updTx node flow vc f s).fab.tx.get {} (seqKey node flow vc) = f (getTx s node flow vc) :=
      (Tbl.get_upd ..).trans (if_pos rfl)
    rw [hget]
    exact h _⟩

/-- A request stands in the sequences, as its collective sent it. -/
def Placed (t : State) (n id type tspec node : Nat) (data : Bytes) : Prop :=
  ∃ o, Requested t o ∧ o.origin = .coll n id ∧ o.pkt.type = type ∧ o.pkt.tspec = tspec ∧ o.pkt.dst = node ∧ o.pkt.payload = data

theorem Placed.kept {s t : State} {n id type tspec node : Nat} {data : Bytes} (h : Placed s n id type tspec node data)
    (k : ∀ o, Requested s o → Requested t o) : Placed t n id type tspec node data := by
  obtain ⟨o, ho, hsame⟩ := h
  exact ⟨o, k o ho, hsame⟩

theorem Placed.asks {t : State} {n id type tspec node : Nat} {data : Bytes} (h : Placed t n id type tspec node data)
    {P : Packet → Prop} (hp : ∀ q : Packet, q.type = type → q.tspec = tspec → q.dst = node → q.payload = data → P q) : Asks t P := by
  obtain ⟨o, ho, -, htype, htspec, hdst, hdata⟩ := h
  exact ho.asks (hp o.pkt htype htspec hdst hdata)

theorem onPort_same (s : State) (o : Sent) : (Sent.onPort s o).pkt = o.pkt ∧ (Sent.onPort s o).origin = o.origin := by
  unfold Sent.onPort
  split <;> exact ⟨rfl, rfl⟩

section
variable {o : Sent} {n id : Nat} (ho : o.origin = .coll n id)
include ho

theorem transmit_busy (s : State) : Busy Coll.unmarked s (transmit o s) ∧ Placed (transmit o s) n id o.pkt.type o.pkt.tspec o.pkt.dst o.pkt.payload := by
  unfold transmit
  extract_lets k t o'
  obtain ⟨hpkt, horigin⟩ : o'.pkt = sealPacket { k with psn := t.next, resync := t.resync, epoch := s.fer.epoch } ∧ o'.origin = .coll n id := by
    obtain ⟨hp, hor⟩ := onPort_same s { o with psn := t.next, pkt := sealPacket { k with psn := t.next, resync := t.resync, epoch := s.fer.epoch } }
    exact ⟨hp, hor.trans ho⟩
  clear_value o'
  have hput := Busy.putOnPort horigin (updTx k.dst k.flow k.vc (fun t =>
    { t with next := (t.next + 1) % 2 ^ 24, resync := false, unacked := t.unacked ++ [o'] }) s)
  refine ⟨.trans (.updTx _ _ _ fun x => ?_) hput, o', hput.aligned.kept _ (requested_updTx fun x => ?_), horigin, ?_⟩
  · exact List.append_subset.mpr ⟨List.subset_append_of_subset_left _ (List.subset_append_left ..), List.subset_append_right ..⟩
  · exact List.mem_append_left _ (List.mem_append_right _ List.mem_cons_self)
  · rw [hpkt]
    exact ⟨rfl, rfl, rfl, rfl⟩

theorem sendSeq_busy {s : State} (hdest : (getDest s o.pkt.dst).unreachable = false) :
    Busy Coll.unmarked s (sendSeq o s) ∧ Placed (sendSeq o s) n id o.pkt.type o.pkt.tspec o.pkt.dst o.pkt.payload := by
  unfold sendSeq
  dsimp only
  rw [hdest, if_neg (by decide)]
  split
  · exact transmit_busy ho s
  · refine ⟨.updTx _ _ _ fun x => ?_, o, requested_updTx fun x => ?_, ho, rfl, rfl, rfl, rfl⟩
    · exact List.append_subset.mpr ⟨List.subset_append_left .., List.subset_append_of_subset_right _ (List.subset_append_left ..)⟩
    · exact List.mem_append_right _ (List.mem_append_right _ List.mem_cons_self)

end

theorem pos_of_partNums {n : Nat} (h : n ∈ partNums) : n ≠ 0 := by
  rintro rfl
  exact absurd h (by decide)

/-- A collective's request of a partition that can send stands in the sequences. -/
theorem sendReq_busy {s : State} {n : Nat} (hr : Reaches s n) {q : Req} {tag : Nat} (hq : q.tag = some tag) (id dest : Nat) :
    Busy Coll.unmarked s (sendReq n q (.coll n id) dest s) ∧ Placed (sendReq n q (.coll n id) dest s) n id q.type q.tspec q.node q.data := by
  obtain ⟨hpart, hjob, hdest⟩ := hr
  unfold sendReq
  extract_lets job st tag' k w fab u
  have hu : u = s := by
    show (if q.tag.isSome then s else _) = s
    rw [hq]; rfl
  clear_value u
  subst hu
  rw [if_neg (by rw [Bool.or_eq_true, decide_eq_true_iff, decide_eq_true_iff]; exact not_or.mpr ⟨pos_of_partNums hpart, hjob⟩)]
  exact sendSeq_busy (o := w) rfl (hdest _)

/-- What a COLL_CTL packet carries (R409). -/
def ctlData (s : State) (n : Nat) (d : Desc) (status value first nan sat count2 : Nat) : Bytes :=
  leBytes 8 (collSig s n d) ++ leBytes 2 (ownMember s n) ++ leBytes 1 status ++ [0] ++ leBytes 4 value ++
    leBytes 2 first ++ zeros 2 ++ leBytes 4 nan ++ leBytes 4 sat ++ leBytes 4 count2

theorem collCtl_busy {s : State} {n : Nat} (hr : Reaches s n) (d : Desc) (m sub status value first nan sat count2 : Nat) :
    Busy Coll.unmarked s (collCtl n d m sub status value first nan sat count2 s) ∧
      Placed (collCtl n d m sub status value first nan sat count2 s) n d.id 0x0D sub (peerNode s n m)
        (ctlData s n d status value first nan sat count2) :=
  sendReq_busy hr rfl d.id 0

theorem collBurst_busy {s : State} {n : Nat} (hr : Reaches s n) (d : Desc) (m tspec i : Nat) (data : Bytes) :
    Busy Coll.unmarked s (collBurst n d m tspec i data s) ∧ Placed (collBurst n d m tspec i data s) n d.id 0x0C tspec (peerNode s n m) data :=
  sendReq_busy hr rfl d.id 0

/-! ## Fields of a payload -/

theorem fold64_lt (z : Nat) : fold64 z < 2 ^ 64 := by
  unfold fold64
  extract_lets a b
  have hb : b < 2 ^ 64 := Nat.mod_lt _ (by decide)
  exact Nat.xor_lt_two_pow hb (Nat.lt_of_le_of_lt (Nat.shiftRight_le b 31) hb)

theorem collSig_lt (s : State) (n : Nat) (d : Desc) : collSig s n d < 2 ^ 64 := fold64_lt _

theorem ctlData_fields (s : State) (n : Nat) (d : Desc) {status first : Nat} (value nan sat count2 : Nat) (hs : status < 256) (hf : first < 65536) :
    leAt (ctlData s n d status value first nan sat count2) 10 1 = status ∧ leAt (ctlData s n d status value first nan sat count2) 16 2 = first := by
  unfold ctlData
  constructor
  · rw [leAt_append_left (by simp), leAt_append_left (by simp), leAt_append_left (by simp), leAt_append_left (by simp),
      leAt_append_left (by simp), leAt_append_left (by simp), leAt_append_left (by simp), leAt_append_right (by simp)]
    simp only [List.length_append, length_leBytes]
    exact (leAt_leBytes 1 status).trans (Nat.mod_eq_of_lt (by omega))
  · rw [leAt_append_left (by simp), leAt_append_left (by simp), leAt_append_left (by simp), leAt_append_left (by simp),
      leAt_append_right (by simp)]
    simp only [List.length_append, length_leBytes, List.length_cons, List.length_nil]
    exact (leAt_leBytes 2 first).trans (Nat.mod_eq_of_lt (by omega))

theorem burstData_fields (s : State) (n : Nat) (d : Desc) (i first nan sat contrib : Nat) (b : Bytes) :
    leAt (burstData s n d i first nan sat contrib b) 0 8 = collSig s n d ∧ leAt (burstData s n d i first nan sat contrib b) 8 4 = i % 2 ^ 32 := by
  unfold burstData
  constructor
  · rw [leAt_append_left (by simp), leAt_append_left (by simp), leAt_append_left (by simp), leAt_append_left (by simp),
      leAt_append_left (by simp), leAt_append_left (by simp), leAt_append_left (by simp), leAt_append_left (by simp)]
    exact (leAt_leBytes 8 _).trans (Nat.mod_eq_of_lt (by have := collSig_lt s n d; omega))
  · rw [leAt_append_left (by simp), leAt_append_left (by simp), leAt_append_left (by simp), leAt_append_left (by simp),
      leAt_append_left (by simp), leAt_append_left (by simp), leAt_append_left (by simp), leAt_append_right (by simp)]
    simp only [length_leBytes]
    exact leAt_leBytes 4 i

end Sys2Proof.Machine
end
section
/-!
PROOFS. O40: JOIN, WINDOW and END (R394, R402, R407, R410): how a COLL_CTL packet reaches its collective, and how far a reduction goes.
-/
namespace Sys2Proof.Machine

/-! ## A COLL_CTL packet comes to its collective (R366, R409) -/

/-- The state in which a COLL_CTL packet meets its collective. -/
def entered (p : Nat) (k : Packet) (s : State) : State := leaveIdle (arrived p k s)

theorem Aligned.entered (p : Nat) (k : Packet) (s : State) : Aligned s (entered p k s) := (Aligned.arrived p k s).trans (.leaveIdle _)

theorem parts_leaveIdle (s : State) : (leaveIdle s).parts = s.parts ∧ (leaveIdle s).mem = s.mem ∧ (leaveIdle s).descs = s.descs := by
  unfold leaveIdle
  split <;> exact ⟨rfl, rfl, rfl⟩

theorem entered_keeps (p : Nat) (k : Packet) (s : State) :
    (entered p k s).parts = s.parts ∧ (entered p k s).mem = s.mem ∧ (entered p k s).descs = s.descs := by
  obtain ⟨hparts, hmem, hdescs⟩ := parts_leaveIdle (arrived p k s)
  exact ⟨hparts.trans (of_wire State.parts (fun _ => rfl) (wire_arrived p k s)), hmem.trans (of_wire State.mem (fun _ => rfl) (wire_arrived p k s)),
    hdescs.trans (of_wire State.descs (fun _ => rfl) (wire_arrived p k s))⟩

theorem getPart_entered (p : Nat) (k : Packet) (s : State) (n : Nat) : getPart (entered p k s) n = getPart s n := by
  rw [getPart, (entered_keeps p k s).1, getPart]

theorem findColl_entered (p : Nat) (k : Packet) (s : State) (n id : Nat) : findColl (entered p k s) n id = findColl s n id := by
  rw [findColl, getPart_entered, findColl]

theorem openColls_entered (p : Nat) (k : Packet) (s : State) (n : Nat) : openColls (entered p k s) n = openColls s n := by
  simp only [openColls, getPart_entered, (Aligned.entered p k s).findDesc]

theorem collBySig_entered (p : Nat) (k : Packet) (s : State) (n : Nat) (sig : DWord) : collBySig (entered p k s) n sig = collBySig s n sig := by
  simp only [collBySig, openColls_entered, (Aligned.entered p k s).collSig]

section
variable {s : State} {p n : Nat} {k : Packet} (h : Admitted s p k n) (ht : k.type = 0x0D) (hvc : k.vc = 2)
include h ht hvc

/-- What a COLL_CTL packet does is what its collective does with it; only ports and receiving sequences change besides. -/
theorem ctl_does {i : Instr} {sub : Nat} (hexec : exec i s = .next (request (isCtl k sub) p k false s)) (hsub : k.tspec = sub)
    {Q : State → Prop} (hparked : (takeCollCtl p k n (entered p k s)).fab.parked = [])
    (hQ : ∀ t, wire t = wire (takeCollCtl p k n (entered p k s)) → Q t) : Does i s Q := by
  have hctl : isCtl k sub = true := by
    simp only [isCtl, isPkt, ht, hvc, hsub, h.flow, h.single, beq_self_eq_true, decide_true, Bool.not_false, Bool.and_true]
  have happly : applyFull p k false n (arrived p k s) = owePacket k (takeCollCtl p k n (entered p k s)) := by
    unfold applyFull applyAny
    rw [ht]
    rfl
  have howe : wire (owePacket k (takeCollCtl p k n (entered p k s))) = wire (takeCollCtl p k n (entered p k s)) := wire_countOwed ..
  have hfull : signalFull s k = false := by
    unfold signalFull
    rw [ht]
    rfl
  have hdone := request_done h hfull (by rw [happly]; exact (of_wire (fun t => t.fab.parked) (fun _ => rfl) howe).trans hparked)
  exact ⟨_, by rw [hexec, hctl], hQ _ (by rw [hdone, happly]; exact (wire_freeBuffer ..).trans howe)⟩

/-- The same where it ends in what sending leaves alone. -/
theorem ctl_aligned {i : Instr} {sub : Nat} (hexec : exec i s = .next (request (isCtl k sub) p k false s)) (hsub : k.tspec = sub)
    {Q : State → Prop} (ha : Aligned s (takeCollCtl p k n (entered p k s)))
    (hQ : ∀ t, wire t = wire (takeCollCtl p k n (entered p k s)) → Q t) : Does i s Q :=
  ctl_does h ht hvc hexec hsub (ha.parked.trans h.parked) hQ

end

theorem Placed.of_wire {s t : State} (hw : wire t = wire s) {n id type tspec node : Nat} {data : Bytes}
    (h : Placed s n id type tspec node data) : Placed t n id type tspec node data :=
  h.kept fun _ ho => ho.of_tx (Machine.of_wire (fun t => t.fab.tx) (fun _ => rfl) hw)

theorem findColl_of_wire {s t : State} (hw : wire t = wire s) (n id : Nat) : findColl t n id = findColl s n id :=
  of_wire (fun t => findColl t n id) (fun _ => rfl) hw

/-- A collective's packet finds it, armed; a degraded port has marked it (R378). -/
def marked (p : Nat) (k : Packet) (n id : Nat) (s : State) : State :=
  updColl n id (fun c => { c with degraded := c.degraded || portDegraded (entered p k s) p k.flow }) (entered p k s)

theorem Aligned.marked (p : Nat) (k : Packet) (n id : Nat) (s : State) : Aligned s (marked p k n id s) :=
  (Aligned.entered p k s).trans (.updColl ..)

/-- The collective that a packet has found. -/
def Coll.met (degraded : Bool) (c : Coll) : Coll := { c with degraded := c.degraded || degraded }

theorem findColl_marked {p n id : Nat} {k : Packet} {s : State} {c : Coll} (hc : findColl s n id = some c) :
    findColl (marked p k n id s) n id = some (c.met (portDegraded s p k.flow)) := by
  rw [marked, findColl_updColl_self (by intro; rfl) ((findColl_entered p k s n id).trans hc), (Aligned.entered p k s).portDegraded]
  rfl

theorem withColl_entered {s : State} {p n : Nat} {k : Packet} {d : Desc} {c : Coll} (hsig : collBySig s n (ccSig k) = some (d, c))
    (harm : c.phase = .armed) (go : Desc → Coll → State → State) :
    withColl p k (ccSig k) n go (entered p k s) = go d c (marked p k n d.id s) := by
  unfold withColl
  rw [collBySig_entered, hsig]
  dsimp only
  rw [harm]
  rfl

/-! ## JOIN (R407) -/

/-! ## A JOIN with no collective, and one of a wrong signature (R407) -/

theorem takeCollCtl_join {k : Packet} (hsub : k.tspec = 1) (p n : Nat) (s : State) : takeCollCtl p k n s = takeJoin n k s := by
  simp only [takeCollCtl, hsub]

/-- A JOIN waits in its partition. -/
def Part.joinWaits (k : Packet) (p : Part) : Part := { p with joins := p.joins ++ [(ccMember k, ccSig k)] }

/-- A JOIN that no open collective can take waits. -/
theorem takeJoin_early {s : State} {n : Nat} {k : Packet} (hnone : openColls s n = []) :
    takeJoin n k s = updPart n (Part.joinWaits k) s := by
  have hsig : collBySig s n (ccSig k) = none := by rw [collBySig, hnone]; rfl
  unfold takeJoin
  dsimp only
  rw [hsig, hnone]
  dsimp only
  rw [List.find?_nil, ite_self]
  rfl

theorem sig_toNat_ne {s : State} {n : Nat} {d : Desc} {sig : DWord} (h : sig ≠ BitVec.ofNat 64 (collSig s n d)) : sig.toNat ≠ collSig s n d := by
  intro he
  exact h (by rw [← he, BitVec.ofNat_toNat, BitVec.setWidth_eq])

/-- A JOIN of a wrong signature, from a member that the only open collective awaits, is a mismatch. -/
theorem takeJoin_wrong {s : State} {n : Nat} {k : Packet} {d : Desc} {c : Coll} (hopen : openColls s n = [(d, c)]) (harm : c.phase = .armed)
    (hsig : ccSig k ≠ BitVec.ofNat 64 (collSig s n d)) (hpast : ccSig k ∉ (getPart s n).collPast) (hawait : ccMember k ∈ collExpect s n d)
    (hnew : ccMember k ∉ c.joined) : takeJoin n k s = collMismatch n d (ccMember k) s := by
  have hmine : collBySig s n (ccSig k) = none := by
    rw [collBySig, hopen, List.find?_cons_of_neg (by rw [beq_iff_eq]; exact fun he => hsig he.symm)]
    rfl
  have hpast' : (getPart s n).collPast.contains (ccSig k) = false := by rw [List.contains_eq_mem, decide_eq_false hpast]
  have hawaits : (c.phase == .armed && (collExpect s n d).contains (ccMember k) && !c.joined.contains (ccMember k)) = true := by
    rw [harm, List.contains_eq_mem, List.contains_eq_mem, decide_eq_true hawait, decide_eq_false hnew]
    rfl
  unfold takeJoin
  dsimp only
  rw [hmine, hpast', hopen, if_neg (by decide)]
  simp only [List.find?_cons, hawaits]
  rw [joinTaken, if_neg (sig_toNat_ne hsig)]

/-- A JOIN of the signature of an armed collective that awaits it is taken. -/
theorem takeJoin_taken {s : State} {n : Nat} {k : Packet} {d : Desc} {c : Coll} (hsig : collBySig s n (ccSig k) = some (d, c))
    (harm : c.phase = .armed) (hawait : ccMember k ∈ collExpect s n d) (hnew : ccMember k ∉ c.joined) :
    takeJoin n k s = collGo n d (updColl n d.id (fun c => { c with joined := c.joined ++ [ccMember k] }) s) := by
  have hawaits : (c.phase == .armed && (collExpect s n d).contains (ccMember k) && !c.joined.contains (ccMember k)) = true := by
    rw [harm, List.contains_eq_mem, List.contains_eq_mem, decide_eq_true hawait, decide_eq_false hnew]
    rfl
  have hnat : (ccSig k).toNat = collSig s n d := by
    have hfound : BitVec.ofNat 64 (collSig s n d) = ccSig k := eq_of_beq (List.find?_some hsig :)
    rw [← hfound, BitVec.toNat_ofNat, Nat.mod_eq_of_lt (collSig_lt s n d)]
  unfold takeJoin
  dsimp only
  rw [hsig]
  dsimp only
  rw [if_pos hawaits]
  dsimp only
  rw [joinTaken, if_pos hnat]

theorem ccMember_lt (k : Packet) : ccMember k < 65536 := leAt_lt k.payload 8 2

section
variable {s : State} {p n : Nat} {k : Packet} (h : Admitted s p k n) (ht : k.type = 0x0D) (hvc : k.vc = 2)
include h ht hvc

theorem join_early (hsub : k.tspec = 1) (hnone : openColls s n = []) : Does (.join p k) s fun t =>
    (getPart t n).joins = (getPart s n).joins ++ [(ccMember k, ccSig k)] ∧ t.mem = s.mem ∧ t.descs = s.descs := by
  obtain ⟨-, hmem, hdescs⟩ := entered_keeps p k s
  have htake : takeCollCtl p k n (entered p k s) = updPart n (Part.joinWaits k) (entered p k s) := by
    rw [takeCollCtl_join hsub, takeJoin_early ((openColls_entered p k s n).trans hnone)]
  have hjoin : Aligned (entered p k s) (updPart n (Part.joinWaits k) (entered p k s)) := .updPart n (fun _ => rfl)
  have ha := (Aligned.entered p k s).trans hjoin
  rw [← htake] at ha
  refine ctl_aligned h ht hvc rfl hsub ha fun t hw => ?_
  rw [htake] at hw
  have hkeep (u : State) : (updPart n (Part.joinWaits k) u).mem = u.mem ∧ (updPart n (Part.joinWaits k) u).descs = u.descs := ⟨rfl, rfl⟩
  refine ⟨(of_wire (fun t => (getPart t n).joins) (fun _ => rfl) hw).trans ?_,
    (of_wire State.mem (fun _ => rfl) hw).trans ((hkeep _).1.trans hmem), (of_wire State.descs (fun _ => rfl) hw).trans ((hkeep _).2.trans hdescs)⟩
  rw [getPart_updPart, if_pos rfl, getPart_entered]
  rfl

theorem join_mismatch (hr : Reaches s n) {d : Desc} {c : Coll} (hsub : k.tspec = 1) (hopen : openColls s n = [(d, c)]) (harm : c.phase = .armed)
    (hsig : ccSig k ≠ BitVec.ofNat 64 (collSig s n d)) (hpast : ccSig k ∉ (getPart s n).collPast) (hawait : ccMember k ∈ collExpect s n d)
    (hnew : ccMember k ∉ c.joined) (hroot : ownMember s n ≠ cRoot d) : Does (.join p k) s fun t =>
      Asks t fun q => q.type = 0x0D ∧ q.tspec = 7 ∧ q.dst = peerNode s n (cRoot d) ∧ leAt q.payload 10 1 = 0x30 ∧ ccFirst q = ccMember k := by
  have ha := Aligned.entered p k s
  have hnot : collIsRoot (entered p k s) n d = false := by rw [ha.collIsRoot, collIsRoot, beq_eq_false_iff_ne]; exact hroot
  have htake : takeCollCtl p k n (entered p k s) = collCtl n d (cRoot d) 7 0x30 0 (ccMember k) 0 0 0 (entered p k s) := by
    rw [takeCollCtl_join hsub, takeJoin_wrong ((openColls_entered p k s n).trans hopen) harm (by rw [ha.collSig]; exact hsig)
      (by rw [getPart_entered]; exact hpast) (by rw [ha.collExpect]; exact hawait) hnew, collMismatch, hnot]
    rfl
  obtain ⟨hbusy, hplaced⟩ := collCtl_busy (ha.reaches hr) d (cRoot d) 7 0x30 0 (ccMember k) 0 0 0
  refine ctl_aligned h ht hvc rfl hsub (by rw [htake]; exact ha.trans hbusy.aligned) fun t hw => ?_
  rw [htake] at hw
  obtain ⟨hstatus, hfirst⟩ := ctlData_fields (entered p k s) n d (status := 0x30) 0 0 0 0 (by decide) (ccMember_lt k)
  refine (hplaced.of_wire hw).asks fun q htype htspec hdst hdata => ⟨htype, htspec, hdst.trans (ha.peerNode ..), ?_, ?_⟩
  · rw [hdata]
    exact hstatus
  · rw [ccFirst, hdata]
    exact hfirst

end

/-! ## How far a reduction goes (R394, R397, R410) -/

theorem grantWindows_busy {s : State} {n : Nat} (hr : Reaches s n) (d : Desc) : Busy Coll.ungranted s (grantWindows n d s) := by
  unfold grantWindows
  split
  · split
    · exact .refl _ s
    · have hgrant (g : Coll → Tbl Nat) : Busy Coll.ungranted s (updColl n d.id (fun c => { c with granted := g c }) s) :=
        .updColl (by intro; rfl) (by intro; rfl) ..
      refine (hgrant _).trans (.foldl _ fun t ht m _ => ?_)
      exact (collCtl_busy (ht.aligned.reaches ((hgrant _).aligned.reaches hr)) d m 2 0 _ 0 0 0 0).1.seen Coll.ungranted fun _ => rfl
  · exact .refl _ s

/-- A member with children is a receiving point. -/
theorem receives_of_child {s : State} {n m : Nat} {d : Desc} (h : m ∈ collChildren s n (cRoot d) (ownMember s n)) : collReceives s n d = true := by
  unfold collChildren at h
  unfold collReceives collIsRoot
  dsimp only at h
  split at h
  next hroot => rw [hroot, beq_self_eq_true, Bool.true_or]
  next hroot =>
    split at h
    next hpod => rw [hpod, Bool.or_true]
    next => exact absurd h List.not_mem_nil

/-! ## Chunks -/

/-- The first chunk of entries with elements. -/
theorem chunksFrom_first {l : List Nat} (h : 0 < l.sum) (e flat b : Nat) :
    ∃ k r, chunksFrom e flat b l = k :: r ∧ k.burst1 = b ∧ k.flat = flat ∧ 0 < k.len ∧ k.len ≤ l.sum := by
  induction l generalizing e flat b with
  | nil => exact absurd h (Nat.lt_irrefl 0)
  | cons x l ih =>
    rw [List.sum_cons] at h ⊢
    rw [chunksFrom]
    rcases Nat.eq_zero_or_pos x with rfl | hx
    · rw [Nat.zero_add] at h
      rw [show (0 + 511) / 512 = 0 from rfl, List.range_zero, List.map_nil, List.nil_append, Nat.zero_add]
      exact ih h (e + 1) flat b
    · obtain ⟨q, hq⟩ : ∃ q, (x + 511) / 512 = q + 1 := ⟨(x + 511) / 512 - 1, by omega⟩
      rw [hq, List.range_succ_eq_map, List.map_cons, List.cons_append]
      exact ⟨_, _, rfl, rfl, rfl, by show 0 < min 512 (x - 512 * 0); omega, by show min 512 (x - 512 * 0) ≤ _; omega⟩

theorem cChunks_first {s : State} {d : Desc} (h : 0 < cTotal s d) :
    ∃ k r, cChunks s d = k :: r ∧ k.burst1 = 0 ∧ k.flat = 0 ∧ 0 < k.len ∧ k.len ≤ cTotal s d :=
  chunksFrom_first h 0 0 0

theorem parts_pos {k : Chunk} (h : 0 < k.len) : 0 < k.parts := by
  unfold Chunk.parts
  omega

theorem collGo_reduce {d : Desc} (hop : cOp d = 0) (n : Nat) (s : State) : collGo n d s = reduceGo n d s := by
  rw [collGo, if_pos hop]

/-! ## A receiving point that still waits for a child -/

section
variable {s : State} {n m : Nat} {d : Desc} {c : Coll} (hm : m ∈ collChildren s n (cRoot d) (ownMember s n))
include hm

/-- A child of which nothing has come lacks for every chunk. -/
theorem chunkLacks_child (hgot : c.got = []) (i : Nat) {k : Chunk} (hk : 0 < k.len) : m ∈ chunkLacks s n d c i k := by
  unfold chunkLacks
  refine List.mem_filter.mpr ⟨hm, ?_⟩
  rw [hgot]
  unfold coverOf
  split
  · rfl
  · obtain ⟨q, hq⟩ : ∃ q, k.parts = q + 1 := ⟨k.parts - 1, by have := parts_pos hk; omega⟩
    rw [hq, List.range_succ_eq_map]
    rfl

variable (hc : findColl s n d.id = some c) (hgot : c.got = []) (hsent : c.sent = 0) (htotal : 0 < cTotal s d)
include hc hgot hsent htotal

theorem reduceRun_waits (f : Nat) : reduceRun n d f s = s := by
  cases f with
  | zero => rfl
  | succ f =>
    obtain ⟨k, r, hchunks, -, -, hlen, -⟩ := cChunks_first htotal
    have hlacks : (chunkLacks s n d c c.sent k).isEmpty = false := by
      rw [List.isEmpty_eq_false_iff]
      exact List.ne_nil_of_mem (chunkLacks_child hm hgot _ hlen)
    unfold reduceRun
    rw [hc]
    dsimp only
    rw [hchunks, show (k :: r)[c.sent]? = some k by rw [hsent]; rfl]
    dsimp only
    rw [hlacks, Bool.not_false, Bool.or_true, if_pos rfl]

/-- A receiving point without its first bursts grants windows and waits. -/
theorem reduceGo_waits (hr : Reaches s n) : Busy Coll.ungranted s (reduceGo n d s) := by
  have hgrant := grantWindows_busy hr d
  obtain ⟨k, r, hchunks, -⟩ := cChunks_first htotal
  obtain ⟨e, he, hsame⟩ := hgrant.coll hc
  have hesent : e.sent = 0 := (congrArg Coll.sent hsame).trans hsent
  have hlen : (e.sent == (cChunks (grantWindows n d s) d).length) = false := by
    rw [hgrant.aligned.cChunks, hchunks, hesent]
    rfl
  unfold reduceGo
  dsimp only
  rw [receives_of_child hm, Bool.not_true, if_neg (by decide), reduceRun_waits hm hc hgot hsent htotal, he]
  dsimp only
  rw [hlen, Bool.and_false, if_neg (by decide)]
  exact hgrant

end

/-- A JOIN counted for its collective. -/
def Coll.takesJoin (k : Packet) (c : Coll) : Coll := { c with joined := c.joined ++ [ccMember k] }

theorem join_taken {s : State} {p n : Nat} {k : Packet} (h : Admitted s p k n) (ht : k.type = 0x0D) (hvc : k.vc = 2) (hr : Reaches s n)
    {d : Desc} {c : Coll} (hsub : k.tspec = 1) (hsig : collBySig s n (ccSig k) = some (d, c)) (hc : findColl s n d.id = some c)
    (harm : c.phase = .armed) (hop : cOp d = 0) (hawait : ccMember k ∈ collExpect s n d) (hnew : ccMember k ∉ c.joined) (hgot : c.got = [])
    (hsent : c.sent = 0) (htotal : 0 < cTotal s d) : Does (.join p k) s fun t =>
      ∃ e, findColl t n d.id = some e ∧ e.phase = .armed ∧ e.joined = c.joined ++ [ccMember k] := by
  have ha := Aligned.entered p k s
  have hjoin : Aligned s (updColl n d.id (Coll.takesJoin k) (entered p k s)) := ha.trans (.updColl ..)
  have hfound : findColl (updColl n d.id (Coll.takesJoin k) (entered p k s)) n d.id = some (c.takesJoin k) :=
    findColl_updColl_self (by intro; rfl) ((findColl_entered ..).trans hc)
  have htake : takeCollCtl p k n (entered p k s) = reduceGo n d (updColl n d.id (Coll.takesJoin k) (entered p k s)) := by
    rw [takeCollCtl_join hsub, takeJoin_taken ((collBySig_entered ..).trans hsig) harm (by rw [ha.collExpect]; exact hawait) hnew,
      collGo_reduce hop]
    rfl
  generalize updColl n d.id (Coll.takesJoin k) (entered p k s) = u at hjoin hfound htake
  have hchild : ccMember k ∈ collChildren u n (cRoot d) (ownMember u n) := by
    rw [hjoin.ownMember, hjoin.collChildren]
    rw [collExpect, if_pos hop] at hawait
    exact hawait
  have hbusy := reduceGo_waits hchild hfound hgot hsent (by rw [hjoin.cTotal]; exact htotal) (hjoin.reaches hr)
  obtain ⟨e, he, hsame⟩ := hbusy.coll hfound
  refine ctl_aligned h ht hvc rfl hsub (by rw [htake]; exact hjoin.trans hbusy.aligned) fun t hw => ?_
  rw [htake] at hw
  exact ⟨e, (findColl_of_wire hw ..).trans he, ((congrArg Coll.phase hsame :) : e.phase = c.phase).trans harm, (congrArg Coll.joined hsame :)⟩

/-! ## A leaf, and a pod root with no children, send their bursts (R394, R410) -/

theorem sendNarrowed_busy {s : State} {n : Nat} (hr : Reaches s n) (two : Bool) (d : Desc)
    (b entry j nan sat first contrib : Nat) (v : List Word) :
    Busy Coll.steady s (sendNarrowed two n d b entry j nan sat first contrib v s) ∧
      ∃ data, Placed (sendNarrowed two n d b entry j nan sat first contrib v s) n d.id 0x0C (b2n two + 4 * levelFmt two)
        (peerNode s n (collParent s n (cRoot d) (ownMember s n))) data ∧ leAt data 0 8 = collSig s n d ∧ leAt data 8 4 = b % 2 ^ 32 := by
  unfold sendNarrowed
  extract_lets me r first' u
  have hu : Busy Coll.steady s u := .updColl (by intro; rfl) (by intro; rfl) ..
  clear_value u
  obtain ⟨hbusy, hplaced⟩ := collBurst_busy (hu.aligned.reaches hr) d (collParent u n (cRoot d) me) (b2n two + 4 * levelFmt two) b
    (burstData u n d b first' (nan + r.2.1) (sat + r.2.2) contrib r.1)
  rw [hu.aligned.collParent, hu.aligned.peerNode] at hplaced
  obtain ⟨hsig, hnum⟩ := burstData_fields u n d b first' (nan + r.2.1) (sat + r.2.2) contrib r.1
  rw [hu.aligned.collParent]
  rw [hu.aligned.collParent] at hbusy
  exact ⟨hu.trans (hbusy.seen Coll.steady fun _ => rfl), _, hplaced, hsig.trans (hu.aligned.collSig ..), hnum⟩

theorem passChunk_busy {s : State} {n : Nat} (hr : Reaches s n) (d : Desc) (c : Coll) (i : Nat) (k : Chunk) :
    Busy Coll.steady s (passChunk n d c i k s) ∧
      ∃ data, Placed (passChunk n d c i k s) n d.id 0x0C (1 + 4 * fE2M1) (peerNode s n (collParent s n (cRoot d) (ownMember s n))) data ∧
        leAt data 0 8 = collSig s n d ∧ leAt data 8 4 = i % 2 ^ 32 := by
  unfold passChunk
  extract_lets bursts v u
  have hu : Busy Coll.steady s u := .updColl (by intro; rfl) (by intro; rfl) ..
  clear_value u
  generalize 1 + (collChildren u n (cRoot d) (ownMember u n)).length = contrib
  obtain ⟨hbusy, data, hplaced, hsig, hnum⟩ := sendNarrowed_busy (hu.aligned.reaches hr) true d i k.entry (k.lo / 32) (bursts.map Burst.nan).sum
    (bursts.map Burst.sat).sum ((bursts.map Burst.first).foldl min 0xFFFF) contrib v
  rw [hu.aligned.ownMember, hu.aligned.collParent, hu.aligned.peerNode] at hplaced
  exact ⟨hu.trans hbusy, data, hplaced, hsig.trans (hu.aligned.collSig ..), hnum⟩

theorem leafRun_busy (n : Nat) (d : Desc) (f : Nat) {s : State} (hr : Reaches s n) : Busy Coll.steady s (leafRun n d f s) := by
  induction f generalizing s with
  | zero => exact .refl _ s
  | succ f ih =>
    unfold leafRun
    split
    · exact .refl _ s
    next c _ =>
      split
      · exact .refl _ s
      next k _ =>
        extract_lets p n1
        split
        · have hsent : Busy Coll.steady s (updColl n d.id (fun c => { c with sent := c.sent + 1 }) s) :=
            .updColl (by intro; rfl) (by intro; rfl) ..
          have hnarrow := (sendNarrowed_busy (hsent.aligned.reaches hr) false d c.sent k.entry ((k.lo + 256 * p) / 32) 0 0 0xFFFF 1
            ((c.own.drop (k.flat + 256 * p)).take n1)).1
          exact (hsent.trans hnarrow).trans (ih (hnarrow.aligned.reaches (hsent.aligned.reaches hr)))
        · exact .refl _ s

/-- A member that is not the root sends chunks on, and ends nothing. -/
theorem reduceRun_busy {n : Nat} {d : Desc} (f : Nat) {s : State} (hr : Reaches s n) (hroot : ownMember s n ≠ cRoot d) :
    Busy Coll.steady s (reduceRun n d f s) := by
  have hnot : collIsRoot s n d = false := by rw [collIsRoot, beq_eq_false_iff_ne]; exact hroot
  induction f generalizing s with
  | zero => exact .refl _ s
  | succ f ih =>
    unfold reduceRun
    split
    · exact .refl _ s
    next c _ =>
      split
      · exact .refl _ s
      next k _ =>
        split
        · exact .refl _ s
        · rw [hnot, if_neg (by decide)]
          split
          · have hpass := (passChunk_busy hr d c c.sent k).1
            exact hpass.trans (ih (hpass.aligned.reaches hr) (by rw [hpass.aligned.ownMember]; exact hroot)
              (by rw [hpass.aligned.collIsRoot]; exact hnot))
          · exact .refl _ s

section
variable {s : State} {n : Nat} {d : Desc} {c : Coll} (hr : Reaches s n) (hc : findColl s n d.id = some c) (harm : c.phase = .armed)
  (hsent : c.sent = 0) (htotal : 0 < cTotal s d) (hwindow : cTotal s d ≤ c.windowIn)
include hr hc harm hsent htotal hwindow

/-- A leaf whose window covers the vector sends its first burst. -/
theorem leafRun_first (f : Nat) : ∃ data, Placed (leafRun n d (f + 1) s) n d.id 0x0C (4 * fE4M3)
    (peerNode s n (collParent s n (cRoot d) (ownMember s n))) data ∧ leAt data 0 8 = collSig s n d ∧ leAt data 8 4 = 0 := by
  obtain ⟨k, r, hchunks, hburst, hflat, hlen, hle⟩ := cChunks_first htotal
  have hfind : ((cChunks s d).find? fun k => decide (k.burst1 ≤ c.sent) && decide (c.sent < k.burst1 + k.parts)) = some k := by
    have hparts := parts_pos hlen
    rw [hchunks, List.find?_cons_of_pos (by rw [hsent, hburst, decide_eq_true (Nat.le_refl 0), decide_eq_true (by omega)]; rfl)]
  have hgo : (c.phase == .armed && decide (k.flat + 256 * (c.sent - k.burst1) + min 256 (k.len - 256 * (c.sent - k.burst1)) ≤ c.windowIn)) = true := by
    rw [harm, hsent, hburst, hflat, decide_eq_true (by omega)]
    rfl
  unfold leafRun
  rw [hc]
  dsimp only
  rw [hfind]
  dsimp only
  rw [if_pos hgo]
  have hmoved : Busy Coll.steady s (updColl n d.id (fun c => { c with sent := c.sent + 1 }) s) := .updColl (by intro; rfl) (by intro; rfl) ..
  generalize updColl n d.id (fun c => { c with sent := c.sent + 1 }) s = u at hmoved
  obtain ⟨hbusy, data, hplaced, hsig, hnum⟩ := sendNarrowed_busy (hmoved.aligned.reaches hr) false d c.sent k.entry
    ((k.lo + 256 * (c.sent - k.burst1)) / 32) 0 0 0xFFFF 1
    ((c.own.drop (k.flat + 256 * (c.sent - k.burst1))).take (min 256 (k.len - 256 * (c.sent - k.burst1))))
  rw [hmoved.aligned.ownMember, hmoved.aligned.collParent, hmoved.aligned.peerNode] at hplaced
  have hrest := leafRun_busy n d f (hbusy.aligned.reaches (hmoved.aligned.reaches hr))
  exact ⟨data, hplaced.kept hrest.aligned.kept, hsig.trans (hmoved.aligned.collSig ..), by rw [hnum, hsent, Nat.zero_mod]⟩

/-- A pod root alone in its pod, whose window covers the vector, sends its first chunk on. -/
theorem reduceRun_first (hroot : ownMember s n ≠ cRoot d) (halone : collChildren s n (cRoot d) (ownMember s n) = []) (f : Nat) :
    ∃ data, Placed (reduceRun n d (f + 1) s) n d.id 0x0C (1 + 4 * fE2M1)
      (peerNode s n (collParent s n (cRoot d) (ownMember s n))) data ∧ leAt data 8 4 = 0 := by
  obtain ⟨k, r, hchunks, -, hflat, -, hle⟩ := cChunks_first htotal
  have hnot : collIsRoot s n d = false := by rw [collIsRoot, beq_eq_false_iff_ne]; exact hroot
  have hlacks : (chunkLacks s n d c c.sent k).isEmpty = true := by rw [chunkLacks, halone]; rfl
  have hcover : k.flat + k.len ≤ c.windowIn := by omega
  unfold reduceRun
  rw [hc]
  dsimp only
  rw [hchunks, show (k :: r)[c.sent]? = some k by rw [hsent]; rfl]
  dsimp only
  rw [harm, hlacks, hnot, if_neg (by decide), if_neg (by decide), if_pos hcover]
  obtain ⟨hbusy, data, hplaced, -, hnum⟩ := passChunk_busy hr d c c.sent k
  have hrest := reduceRun_busy f (hbusy.aligned.reaches hr) (d := d) (by rw [hbusy.aligned.ownMember]; exact hroot)
  exact ⟨data, hplaced.kept hrest.aligned.kept, by rw [hnum, hsent, Nat.zero_mod]⟩

end

/-! ## WINDOW (R410) -/

/-- A WINDOW counted for its collective. -/
def Coll.widens (k : Packet) (c : Coll) : Coll := { c with windowIn := max c.windowIn (ccValue k) }

theorem takeCollCtl_window {s : State} {p n : Nat} {k : Packet} {d : Desc} {c : Coll} (hsub : k.tspec = 2)
    (hsig : collBySig s n (ccSig k) = some (d, c)) (harm : c.phase = .armed) (hop : cOp d = 0) :
    takeCollCtl p k n (entered p k s) = reduceGo n d (updColl n d.id (Coll.widens k) (marked p k n d.id s)) := by
  simp only [takeCollCtl, hsub]
  rw [withColl_entered hsig harm, if_pos hop, collGo_reduce hop]
  rfl

theorem reduceGo_leaf {s : State} {n : Nat} {d : Desc} (h : collReceives s n d = false) : ∃ f, reduceGo n d s = leafRun n d (f + 1) s := by
  refine ⟨(cTotal s d + 255) / 256 + (cEntries s d).length, ?_⟩
  unfold reduceGo
  dsimp only
  rw [h, Bool.not_false, if_pos rfl]

/-- A pod root's parent is the root. -/
theorem collParent_podRoot {s : State} {n : Nat} {d : Desc} (h : collReceives s n d = true) (hroot : ownMember s n ≠ cRoot d) :
    collParent s n (cRoot d) (ownMember s n) = cRoot d := by
  have hnot : collIsRoot s n d = false := by rw [collIsRoot, beq_eq_false_iff_ne]; exact hroot
  rw [collReceives, hnot, Bool.false_or, List.contains_iff_mem, otherPodRoots, List.mem_filter] at h
  obtain ⟨-, hpod⟩ := h
  have hself : podRoot s n (cRoot d) (podOf s n (ownMember s n)) = ownMember s n := eq_of_beq (Bool.and_eq_true_iff.mp hpod).2
  unfold collParent
  dsimp only
  rw [hself, if_pos rfl]

/-- A pod root alone in its pod, whose window covers the vector, sends its first chunk to the root. -/
theorem reduceGo_alone {s : State} {n : Nat} {d : Desc} {c : Coll} (hr : Reaches s n) (hc : findColl s n d.id = some c) (harm : c.phase = .armed)
    (hsent : c.sent = 0) (htotal : 0 < cTotal s d) (hwindow : cTotal s d ≤ c.windowIn) (hrec : collReceives s n d = true)
    (hroot : ownMember s n ≠ cRoot d) (halone : collChildren s n (cRoot d) (ownMember s n) = []) :
    Busy Coll.steady s (reduceGo n d s) ∧
      ∃ data, Placed (reduceGo n d s) n d.id 0x0C (1 + 4 * fE2M1) (peerNode s n (cRoot d)) data ∧ leAt data 8 4 = 0 := by
  have hme : (ownMember s n == cRoot d) = false := beq_eq_false_iff_ne.mpr hroot
  unfold reduceGo
  dsimp only
  rw [hrec, Bool.not_true, if_neg (by decide), hme]
  generalize (cTotal s d + 255) / 256 + (cEntries s d).length = f
  have hrun := reduceRun_busy (f + 1) hr hroot
  obtain ⟨data, hplaced, hnum⟩ := reduceRun_first hr hc harm hsent htotal hwindow hroot halone f
  have hgrant := grantWindows_busy (hrun.aligned.reaches hr) d
  rw [collParent_podRoot hrec hroot] at hplaced
  have hall := hrun.trans (hgrant.seen Coll.steady fun _ => rfl)
  have hkept := hplaced.kept hgrant.aligned.kept
  generalize grantWindows n d (reduceRun n d (f + 1) s) = u at hall hkept
  split
  next c' _ =>
    rw [Bool.and_false, Bool.false_and, if_neg (by decide)]
    exact ⟨hall, data, hkept, hnum⟩
  next => exact ⟨hall, data, hkept, hnum⟩

section
variable {s : State} {p n : Nat} {k : Packet} (h : Admitted s p k n) (ht : k.type = 0x0D) (hvc : k.vc = 2) (hr : Reaches s n)
  {d : Desc} {c : Coll} (hsig : collBySig s n (ccSig k) = some (d, c)) (hc : findColl s n d.id = some c) (harm : c.phase = .armed)
include h ht hvc hr hsig hc harm

theorem window_leaf (hsub : k.tspec = 2) (hop : cOp d = 0) (hrec : collReceives s n d = false) : Does (.window p k) s fun t =>
    (∃ e, findColl t n d.id = some e ∧ e.phase = .armed ∧ e.windowIn = max c.windowIn (ccValue k)) ∧
    (c.sent = 0 → 0 < cTotal s d → cTotal s d ≤ ccValue k → Asks t fun q => q.type = 0x0C ∧ q.tspec = 4 * fE4M3 ∧ leAt q.payload 8 4 = 0 ∧
      leAt q.payload 0 8 = collSig s n d ∧ q.dst = peerNode s n (collParent s n (cRoot d) (ownMember s n))) := by
  have htake := takeCollCtl_window (p := p) hsub hsig harm hop
  have ha : Aligned s (updColl n d.id (Coll.widens k) (marked p k n d.id s)) := (Aligned.marked ..).trans (.updColl ..)
  have hfound : findColl (updColl n d.id (Coll.widens k) (marked p k n d.id s)) n d.id = some ((c.met (portDegraded s p k.flow)).widens k) :=
    findColl_updColl_self (by intro; rfl) (findColl_marked hc)
  generalize updColl n d.id (Coll.widens k) (marked p k n d.id s) = u at htake ha hfound
  obtain ⟨f, hleaf⟩ := reduceGo_leaf (s := u) (n := n) (d := d) (by rw [ha.collReceives]; exact hrec)
  rw [hleaf] at htake
  have hbusy := leafRun_busy n d (f + 1) (ha.reaches hr)
  obtain ⟨e, he, hsame⟩ := hbusy.coll hfound
  refine ctl_aligned h ht hvc rfl hsub (by rw [htake]; exact ha.trans hbusy.aligned) fun t hw => ?_
  rw [htake] at hw
  refine ⟨⟨e, (findColl_of_wire hw ..).trans he, (congrArg Coll.phase hsame :).trans harm, (congrArg Coll.windowIn hsame :)⟩,
    fun hsent htotal hwindow => ?_⟩
  obtain ⟨data, hplaced, hdsig, hnum⟩ := leafRun_first (ha.reaches hr) hfound harm hsent (by rw [ha.cTotal]; exact htotal)
    (by rw [ha.cTotal]; exact Nat.le_trans hwindow (Nat.le_max_right ..)) f
  refine (hplaced.of_wire hw).asks fun q htype htspec hdst hdata => ⟨htype, htspec, by rw [hdata]; exact hnum, ?_, ?_⟩
  · rw [hdata, hdsig, ha.collSig]
  · rw [hdst, ha.ownMember, ha.collParent, ha.peerNode]

theorem window_podRoot (hsub : k.tspec = 2) (hop : cOp d = 0) (hrec : collReceives s n d = true) (hroot : ownMember s n ≠ cRoot d)
    (halone : collChildren s n (cRoot d) (ownMember s n) = []) (hsent : c.sent = 0) (htotal : 0 < cTotal s d) (hwindow : cTotal s d ≤ ccValue k) :
    Does (.window p k) s fun t => Asks t fun q =>
      q.type = 0x0C ∧ q.tspec = 1 + 4 * fE2M1 ∧ leAt q.payload 8 4 = 0 ∧ q.dst = peerNode s n (cRoot d) := by
  have htake := takeCollCtl_window (p := p) hsub hsig harm hop
  have ha : Aligned s (updColl n d.id (Coll.widens k) (marked p k n d.id s)) := (Aligned.marked ..).trans (.updColl ..)
  have hfound : findColl (updColl n d.id (Coll.widens k) (marked p k n d.id s)) n d.id = some ((c.met (portDegraded s p k.flow)).widens k) :=
    findColl_updColl_self (by intro; rfl) (findColl_marked hc)
  generalize updColl n d.id (Coll.widens k) (marked p k n d.id s) = u at htake ha hfound
  obtain ⟨hbusy, data, hplaced, hnum⟩ := reduceGo_alone (ha.reaches hr) hfound harm hsent (by rw [ha.cTotal]; exact htotal)
    (by rw [ha.cTotal]; exact Nat.le_trans hwindow (Nat.le_max_right ..)) (by rw [ha.collReceives]; exact hrec)
    (by rw [ha.ownMember]; exact hroot) (by rw [ha.ownMember, ha.collChildren]; exact halone)
  refine ctl_aligned h ht hvc rfl hsub (by rw [htake]; exact ha.trans hbusy.aligned) fun t hw => ?_
  rw [htake] at hw
  refine (hplaced.of_wire hw).asks fun q htype htspec hdst hdata => ⟨htype, htspec, by rw [hdata]; exact hnum, ?_⟩
  rw [hdst, ha.peerNode]

end

/-! ## END (R402) -/

/-- An END noted with its sender and its time. -/
def Coll.ends (k : Packet) (now : Nat) (c : Coll) : Coll := { c with endFrom := some (ccMember k, now) }

theorem bcDone_busy {s : State} {n : Nat} (hr : Reaches s n) (d : Desc) : Busy Coll.steady s (bcDone n d s) := by
  unfold bcDone
  split
  · split
    · have hsaid : Busy Coll.steady s (updColl n d.id (fun c => { c with doneSent := true }) s) := .updColl (by intro; rfl) (by intro; rfl) ..
      exact hsaid.trans ((collCtl_busy (hsaid.aligned.reaches hr) d (cRoot d) 5 0 0 0 0 0 0).1.seen Coll.steady fun _ => rfl)
    · exact .refl _ s
  · exact .refl _ s

theorem end_noted {s : State} {p n : Nat} {k : Packet} (h : Admitted s p k n) (ht : k.type = 0x0D) (hvc : k.vc = 2) (hr : Reaches s n)
    {d : Desc} {c : Coll} (hsig : collBySig s n (ccSig k) = some (d, c)) (hc : findColl s n d.id = some c) (harm : c.phase = .armed)
    (hsub : k.tspec = 3) (hop : cOp d ≠ 0) : Does (.collEnd p k) s fun t =>
      ∃ e, findColl t n d.id = some e ∧ e.phase = .armed ∧ e.endFrom = some (ccMember k, s.clock) := by
  have htake : takeCollCtl p k n (entered p k s) =
      bcDone n d (updColl n d.id (Coll.ends k (marked p k n d.id s).clock) (marked p k n d.id s)) := by
    simp only [takeCollCtl, hsub]
    rw [withColl_entered hsig harm, if_neg hop]
    rfl
  rw [(Aligned.marked p k n d.id s).clock] at htake
  have ha : Aligned s (updColl n d.id (Coll.ends k s.clock) (marked p k n d.id s)) := (Aligned.marked ..).trans (.updColl ..)
  have hfound : findColl (updColl n d.id (Coll.ends k s.clock) (marked p k n d.id s)) n d.id =
      some ((c.met (portDegraded s p k.flow)).ends k s.clock) :=
    findColl_updColl_self (by intro; rfl) (findColl_marked hc)
  generalize updColl n d.id (Coll.ends k s.clock) (marked p k n d.id s) = u at htake ha hfound
  have hbusy := bcDone_busy (ha.reaches hr) d
  obtain ⟨e, he, hsame⟩ := hbusy.coll hfound
  refine ctl_aligned h ht hvc rfl hsub (by rw [htake]; exact ha.trans hbusy.aligned) fun t hw => ?_
  rw [htake] at hw
  exact ⟨e, (findColl_of_wire hw ..).trans he, (congrArg Coll.phase hsame :).trans harm, (congrArg Coll.endFrom hsame :)⟩

end Sys2Proof.Machine
end
section
/-!
PROOFS. O40: what the end of a collective leaves alone (R411), and MISSING (R402): bursts sent again stand in the sequences whatever other
partitions' collectives do.
-/
namespace Sys2Proof.Machine

/-! ## What the end of a collective leaves alone -/

/-- What reporting the end of a collective leaves alone: the descriptors, the open requests, the packets on hold, what is known of
destinations, the accesses that wait for memory, and every partition's job. -/
@[irreducible] def aside (s : State) : List Desc × Tbl SeqTx × List Parked × Tbl Dest × List MemWait × (Nat → Nat) :=
  (s.descs, s.fab.tx, s.fab.parked, s.fab.dests, s.mem.waiting, fun m => partJob s m)

theorem aside_eq_iff {s t : State} : aside t = aside s ↔ t.descs = s.descs ∧ t.fab.tx = s.fab.tx ∧ t.fab.parked = s.fab.parked ∧
    t.fab.dests = s.fab.dests ∧ t.mem.waiting = s.mem.waiting ∧ ∀ m, partJob t m = partJob s m := by
  unfold aside
  rw [Prod.mk.injEq, Prod.mk.injEq, Prod.mk.injEq, Prod.mk.injEq, Prod.mk.injEq, funext_iff]

theorem aside_same {s t : State} (hd : t.descs = s.descs) (hf : t.fab = s.fab) (hm : t.mem.waiting = s.mem.waiting) (hr : t.regs = s.regs) :
    aside t = aside s :=
  aside_eq_iff.2 ⟨hd, by rw [hf], by rw [hf], by rw [hf], hm, fun m => by rw [partJob, regN_congr hr, partJob]⟩

theorem aside_updPart (n : Nat) (f : Part → Part) (s : State) : aside (updPart n f s) = aside s := aside_same rfl rfl rfl rfl

theorem aside_updColl (n id : Nat) (f : Coll → Coll) (s : State) : aside (updColl n id f s) = aside s := aside_updPart ..

theorem aside_updGov (n : Nat) (f : Gov → Gov) (s : State) : aside (updGov n f s) = aside s := aside_updPart ..

theorem aside_updStep (n : Nat) (f : Step → Step) (s : State) : aside (updStep n f s) = aside s := aside_updPart ..

theorem aside_postEvent (e : Ev) (s : State) : aside (postEvent e s) = aside s := aside_same rfl rfl rfl rfl

/-- Registers off the fabric contexts' first word leave the jobs alone. -/
theorem aside_setReg {k : Nat} (hk : k % 64 ≠ 0) (v : Word) (s : State) : aside (setReg k v s) = aside s := by
  refine aside_eq_iff.2 ⟨rfl, rfl, rfl, rfl, rfl, fun m => ?_⟩
  have hne : ctx bGzlCtx m 0 ≠ k := by
    rintro rfl
    exact hk (by unfold ctx bGzlCtx; omega)
  rw [partJob, regN_setReg, if_neg hne, partJob]

theorem ctx_off {base off : Nat} (hb : base % 64 = 0) (ho : off % 64 ≠ 0) (n : Nat) : ctx base n off % 64 ≠ 0 := by
  unfold ctx
  omega

theorem aside_incReg {k : Nat} (hk : k % 64 ≠ 0) (s : State) : aside (incReg k s) = aside s := by
  unfold incReg
  split
  · rfl
  · exact aside_setReg hk ..

theorem aside_collEvent (n bit : Nat) (s : State) : aside (collEvent n bit s) = aside s := aside_setReg (ctx_off (by decide) (by decide) n) ..

theorem aside_govFlag (n bit : Nat) (s : State) : aside (govFlag n bit s) = aside s := aside_setReg (ctx_off (by decide) (by decide) n) ..

theorem waiting_hbmPut (a : Nat) (d : Bytes) (m : MemSys) : (hbmPut m a d).waiting = m.waiting := by
  induction d generalizing a m with
  | nil => rfl
  | cons b d ih => exact ih ..

theorem aside_spoil (a len : Nat) (s : State) : aside (spoil a len s) = aside s := by
  have hlines : aside ((s.mem.lines.filter fun e => decide (128 * e.1 < a + len) && decide (a < 128 * e.1 + 128)).foldl (fun s e =>
      match getLine s e.1 with
      | some l => setLine e.1 none (if l.dirty then hbmWr (128 * e.1) (lineBytes l) s else s)
      | none => s) s) = aside s := by
    refine List.foldlRecOn (motive := fun t : State => aside t = aside s) _ _ rfl fun t ht e _ => Eq.trans ?_ ht
    split
    · split
      · exact aside_same rfl rfl (waiting_hbmPut ..) rfl
      · exact aside_same rfl rfl rfl rfl
    · rfl
  refine Eq.trans ?_ hlines
  exact aside_same rfl rfl rfl rfl

theorem aside_collSpoil (d : Desc) (root outl : Bool) (s : State) : aside (collSpoil d root outl s) = aside s := by
  unfold collSpoil
  split
  · exact List.foldlRecOn (motive := fun t : State => aside t = aside s) _ _ rfl fun t ht e _ => (aside_spoil ..).trans ht
  · rfl

theorem waiting_of_aside {s t : State} (h : aside t = aside s) (hw : s.mem.waiting = []) : t.mem.waiting = [] := by
  obtain ⟨-, -, -, -, hwait, -⟩ := aside_eq_iff.1 h
  exact hwait.trans hw

theorem aside_collRecord {s : State} (hw : s.mem.waiting = []) (n : Nat) (d : Desc) (c : Coll) (st : Status) (first : Nat) :
    aside (collRecord n d c st first s) = aside s := by
  unfold collRecord
  dsimp only
  obtain ⟨hs, hm⟩ := memPut_memOnly hw n 0 0
    (reg64 s (ctx bCollCtx n 0x18) + 32 * (cCseq d % 2 ^ bitsOf (regN s (ctx bCollCtx n 0x20)) 0 5))
    (leBytes 8 (collSig s n d) ++ leBytes 4 (cCseq d) ++ leBytes 1 (statusNum st) ++
      leBytes 1 (((collStep s n d).map Step.attempt).getD 0) ++ leBytes 2 first ++ leBytes 4 c.nan ++ leBytes 4 c.sat ++
      leBytes 6 (now48 s).toNat ++ zeros 2)
  exact aside_same (by rw [hs]) (by rw [hs]) hm (by rw [hs])

/-- An ending that signals no counter: what it does beyond dropping the collective's unsent bursts and reporting. -/
theorem endColl_eq {s : State} (hw : s.mem.waiting = []) {n id : Nat} {c : Coll} {d : Desc} (hc : findColl s n id = some c)
    (hd : findDesc s id = some d) (hopen : c.open = true) {st : Status}
    (hquiet : ((st == .ok || st == .linkDegraded) && bitOf (cFlags d) 1) = false) (first : Nat) :
    ∃ u, aside u = aside (dropUnsent n id false s) ∧ endColl n id st first s =
      if d.phase = .held then
        if st == .ok || st == .linkDegraded then (if st == .linkDegraded then noteStep n .linkDegraded u else u) else raiseEnd n st u
      else updPart n (fun p => { p with colls := p.colls.filter fun c => c.id != id }) (finishDesc id st u) := by
  unfold endColl
  split
  next c' d' hc' hd' =>
    obtain rfl : c' = c := Option.some.inj (hc'.symm.trans hc)
    obtain rfl : d' = d := Option.some.inj (hd'.symm.trans hd)
    rw [hopen, Bool.not_true, if_neg (by decide)]
    extract_lets good s1 sig s2 s3 s4 s5 s6 a s7 s8 s9
    have h1 : aside s1 = aside (dropUnsent n id false s) := aside_same rfl rfl rfl rfl
    have h2 : aside s2 = aside s1 := aside_updPart ..
    have h3 : aside s3 = aside s2 := by
      dsimp only [s3]
      split
      · rfl
      · exact aside_collSpoil ..
    have hw3 : s3.mem.waiting = [] := waiting_of_aside (h3.trans (h2.trans h1)) hw
    have h4 : aside s4 = aside s3 := aside_collRecord hw3 ..
    have h5 : aside s5 = aside s4 := by
      dsimp only [s5]
      split
      · exact aside_collEvent ..
      · rfl
    have h6 : aside s6 = aside s5 := by
      dsimp only [s6]
      split
      · rfl
      · exact aside_collEvent ..
    have h7 : aside s7 = aside s6 := by
      dsimp only [s7]
      split
      · rfl
      · exact aside_setReg (ctx_off (by decide) (by decide) n) ..
    have h8 : aside s8 = aside s7 := by
      dsimp only [s8]
      split
      · rfl
      · exact aside_postEvent ..
    have h9 : s9 = s8 := if_neg (by rw [hquiet]; decide)
    refine ⟨s9, ?_, rfl⟩
    rw [h9, h8, h7, h6, h5, h4, h3, h2, h1]
  next hnone => exact (hnone c d hc hd).elim

/-! ## Requests of another partition's collectives -/

theorem Tbl.get_map {α : Type} {d : α} {f : α → α} (hf : f d = d) (t : Tbl α) (k : Nat) :
    Tbl.get d (t.map fun e => (e.1, f e.2)) k = f (Tbl.get d t k) := by
  induction t with
  | nil => exact hf.symm
  | cons e t ih =>
    obtain ⟨j, a⟩ := e
    show (if j = k then f a else Tbl.get d (t.map fun e => (e.1, f e.2)) k) = f (if j = k then a else Tbl.get d t k)
    split
    · rfl
    · exact ih

/-- A sequence without the unsent bursts of a collective. -/
def SeqTx.dropBursts (n id : Nat) (t : SeqTx) : SeqTx :=
  { t with waitingQ := t.waitingQ.filter fun o => !(o.origin == .coll n id && (false || o.pkt.type == 0x0C)) }

/-- Dropping the unsent bursts of a collective keeps every other request. -/
theorem requested_dropUnsent {s : State} {o : Sent} (n id : Nat) (h : Requested s o) (ho : o.origin = .coll n id → o.pkt.type ≠ 0x0C) :
    Requested (dropUnsent n id false s) o := by
  obtain ⟨key, hkey⟩ := h
  have hget : (dropUnsent n id false s).fab.tx.get {} key = SeqTx.dropBursts n id (s.fab.tx.get {} key) :=
    Tbl.get_map (f := SeqTx.dropBursts n id) rfl ..
  refine ⟨key, ?_⟩
  rw [hget]
  refine (List.mem_append.mp hkey).elim (List.mem_append_left _) fun hq => List.mem_append_right _ (List.mem_filter.mpr ⟨hq, ?_⟩)
  by_cases horigin : o.origin = .coll n id
  · rw [beq_eq_false_iff_ne.mpr (ho horigin), Bool.or_self, Bool.and_false]
    rfl
  · rw [beq_eq_false_iff_ne.mpr horigin]
    rfl

/-- The requests of partition `n`'s collectives stand, and it can still send. -/
structure Holds (n : Nat) (s t : State) : Prop where
  kept : ∀ o id, o.origin = .coll n id → Requested s o → Requested t o
  parked : t.fab.parked = s.fab.parked
  dests : t.fab.dests = s.fab.dests
  waiting : t.mem.waiting = s.mem.waiting
  jobs : ∀ m, partJob t m = partJob s m

namespace Holds
variable {n : Nat} {s t u : State}

theorem refl (n : Nat) (s : State) : Holds n s s := ⟨fun _ _ _ h => h, rfl, rfl, rfl, fun _ => rfl⟩

theorem trans (h : Holds n s t) (k : Holds n t u) : Holds n s u :=
  ⟨fun o id ho hs => k.kept o id ho (h.kept o id ho hs), k.parked.trans h.parked, k.dests.trans h.dests, k.waiting.trans h.waiting,
    fun m => (k.jobs m).trans (h.jobs m)⟩

theorem of_aligned (h : Aligned s t) : Holds n s t :=
  ⟨fun o _ _ ho => h.kept o ho, h.parked, of_besides (fun t => t.fab.dests) (fun _ => rfl) h.rest, h.waiting, h.partJob⟩

theorem of_aside (h : aside t = aside s) : Holds n s t := by
  obtain ⟨-, htx, hparked, hdests, hwait, hjobs⟩ := aside_eq_iff.1 h
  exact ⟨fun _ _ _ ho => ho.of_tx htx, hparked, hdests, hwait, hjobs⟩

theorem of_descs (hf : t.fab = s.fab) (hm : t.mem = s.mem) (hr : t.regs = s.regs) : Holds n s t :=
  ⟨fun _ _ _ ho => ho.of_tx (by rw [hf]), by rw [hf], by rw [hf], by rw [hm], fun m => by rw [partJob, regN_congr hr, partJob]⟩

theorem dropUnsent {m : Nat} (hm : m ≠ n) (id : Nat) (s : State) : Holds n s (dropUnsent m id false s) := by
  refine ⟨fun o i ho hs => requested_dropUnsent m id hs fun hmine => ?_, rfl, rfl, rfl, fun _ => rfl⟩
  rw [ho] at hmine
  exact absurd (Origin.coll.inj hmine).1.symm hm

end Holds

/-- The failed end of another partition's collective. -/
theorem Holds.endColl {s : State} (hw : s.mem.waiting = []) {m n : Nat} (hm : m ≠ n) (id : Nat) {st : Status}
    (hfail : (st == .ok || st == .linkDegraded) = false) (first : Nat) : Holds n s (endColl m id st first s) := by
  cases hc : findColl s m id with
  | none =>
    unfold Machine.endColl
    rw [hc]
    exact .refl n s
  | some c =>
    cases hd : findDesc s id with
    | none =>
      unfold Machine.endColl
      rw [hc, hd]
      exact .refl n s
    | some d =>
      by_cases hopen : c.open = true
      · obtain ⟨u, hu, hend⟩ := endColl_eq hw hc hd hopen (st := st) (by rw [hfail, Bool.false_and]) first
        have hall : Holds n s u := (Holds.dropUnsent hm id s).trans (.of_aside hu)
        rw [hend]
        split
        · rw [hfail, if_neg (by decide)]
          exact hall.trans (.of_aside (aside_updStep ..))
        · exact hall.trans (.of_descs rfl rfl rfl)
      · unfold Machine.endColl
        rw [hc, hd]
        dsimp only
        rw [Bool.eq_false_iff.mpr hopen, Bool.not_false, if_pos rfl]
        exact .refl n s

/-- A request of another partition's collective that cannot be sent ends it, or is dropped. -/
theorem Holds.unreachable {s : State} (hw : s.mem.waiting = []) {m n : Nat} (hm : m ≠ n) {id : Nat} {o : Sent} (ho : o.origin = .coll m id) :
    Holds n s (settle o .unreachable false s) := by
  have hcount : Holds n s (incReg (bGzl + 0x18) s) := .of_aside (aside_incReg (by decide) s)
  have hsettle : settle o .unreachable false s = settleColl m id o .unreachable false (incReg (bGzl + 0x18) s) := by
    rw [settle, ho]
    rfl
  rw [hsettle]
  unfold settleColl
  extract_lets u v
  have hu : Holds n (incReg (bGzl + 0x18) s) u := .of_aside (aside_updColl ..)
  have hv : Holds n u v := by
    dsimp only [v]
    split
    · exact .of_descs rfl rfl rfl
    · exact .refl n u
  have hall := hcount.trans (hu.trans hv)
  clear_value u v
  split
  · split
    · exact hall.trans (.endColl (hall.waiting.trans hw) hm id rfl _)
    · exact hall
  · exact hall

/-! ## ENDs that are due (R402) -/

theorem Holds.reaches {n : Nat} {s t : State} (h : Holds n s t) (hr : Reaches s n) : Reaches t n := by
  obtain ⟨hpart, hjob, hdest⟩ := hr
  exact ⟨hpart, by rw [h.jobs]; exact hjob, fun node => by rw [getDest, h.dests]; exact hdest node⟩

section
variable {s : State} {n : Nat} (hw : s.mem.waiting = []) (hr : Reaches s n)
include hw hr

theorem Holds.sendReq (m : Nat) {q : Req} {tag : Nat} (hq : q.tag = some tag) (id dest : Nat) :
    Holds n s (sendReq m q (.coll m id) dest s) := by
  by_cases hm : m = n
  · rw [hm]
    exact .of_aligned (sendReq_busy hr hq id dest).1.aligned
  · unfold Machine.sendReq
    extract_lets job st tag' k w fab u
    have hu : u = s := by
      show (if q.tag.isSome then s else _) = s
      rw [hq]; rfl
    clear_value u
    subst hu
    split
    · exact .unreachable hw hm (o := w) rfl
    · exact .of_aligned (sendSeq_busy (o := w) rfl (hr.2.2 _)).1.aligned

theorem Holds.collCtl (m : Nat) (d : Desc) (x sub status value first nan sat count2 : Nat) :
    Holds n s (collCtl m d x sub status value first nan sat count2 s) :=
  .sendReq hw hr m rfl d.id 0

theorem Holds.endDue (m : Nat) (c : Coll) : Holds n s (endDue m s c) := by
  unfold Machine.endDue
  split
  next d _ =>
    split
    · extract_lets due
      refine List.foldlRecOn (motive := Holds n s) _ _ (Holds.of_aside (aside_updColl m c.id _ s)) fun t ht x _ => ?_
      exact ht.trans (.collCtl (ht.waiting.trans hw) (ht.reaches hr) m d x 3 0 (bcTotal t d) 0 0 0 0)
    · exact .refl n s
  · exact .refl n s

theorem Holds.endsDue : Holds n s (endsDue s) := by
  unfold Machine.endsDue
  refine List.foldlRecOn (motive := Holds n s) _ _ (.refl n s) fun t ht m _ => ?_
  refine List.foldlRecOn (motive := Holds n s) _ _ ht fun u hu c _ => ?_
  exact hu.trans (.endDue (hu.waiting.trans hw) (hu.reaches hr) m c)

end

/-! ## Bursts of a broadcast sent by unicast (R400 to R402) -/

section
variable {α : Type} {v : Coll → α} {s : State} (hw : s.mem.waiting = [])
include hw

theorem collGet_busy (n a len : Nat) : Busy v s (collGet n a len s).2 := by
  unfold collGet
  split
  · have hparts : (memGet n 0 0 a len s).2.parts = s.parts := by rw [(memGet_memOnly hw n 0 0 a len).1]
    exact .of_parts (.memGet hw ..) hparts
  · exact .refl v s

theorem collGets_busy (n : Nat) (l : List (Nat × Nat)) : Busy v s (collGets n l s).2 := by
  unfold collGets
  refine List.foldlRecOn (motive := fun x : List Bytes × State => Busy v s x.2) _ _ (.refl v s) fun x hx q _ => ?_
  exact hx.trans (collGet_busy (hx.aligned.waiting.trans hw) n q.1 q.2)

theorem bcRead_busy (n : Nat) (d : Desc) (i : Nat) : Busy v s (bcRead n d i s).2 := by
  unfold bcRead
  split
  · exact .refl v s
  · dsimp only
    split
    · exact collGet_busy hw ..
    · split
      · exact collGet_busy hw ..
      · exact collGets_busy hw ..

end

theorem bcSend_busy {s : State} (hw : s.mem.waiting = []) {n : Nat} (hr : Reaches s n) (d : Desc) (m i : Nat) :
    Busy Coll.unmarked s (bcSend n d m i s) ∧
      ∃ tspec data, Placed (bcSend n d m i s) n d.id 0x0C tspec (peerNode s n m) data ∧ leAt data 8 4 = i % 2 ^ 32 := by
  have hread : Busy Coll.unmarked s (bcRead n d i s).2 := bcRead_busy hw n d i
  unfold bcSend
  dsimp only
  generalize (bcRead n d i s).2 = u at hread
  obtain ⟨hbusy, hplaced⟩ := collBurst_busy (hread.aligned.reaches hr) d m (bcTspec s n d i) i (burstData u n d i 0xFFFF 0 0 1 (bcRead n d i s).1)
  rw [hread.aligned.peerNode] at hplaced
  exact ⟨hread.trans hbusy, _, _, hplaced, (burstData_fields ..).2⟩

/-- Every burst of a run sent to a member stands in the sequences. -/
theorem bcSends_busy {s : State} (hw : s.mem.waiting = []) {n : Nat} (hr : Reaches s n) (d : Desc) (m : Nat) (l : List Nat) :
    Busy Coll.unmarked s (l.foldl (fun s i => bcSend n d m i s) s) ∧
      ∀ i ∈ l, ∃ tspec data, Placed (l.foldl (fun s i => bcSend n d m i s) s) n d.id 0x0C tspec (peerNode s n m) data ∧
        leAt data 8 4 = i % 2 ^ 32 := by
  induction l generalizing s with
  | nil => exact ⟨.refl _ s, fun i hi => absurd hi List.not_mem_nil⟩
  | cons j l ih =>
    obtain ⟨hbusy, tspec, data, hplaced, hnum⟩ := bcSend_busy hw hr d m j
    obtain ⟨hrest, hall⟩ := ih (hbusy.aligned.waiting.trans hw) (hbusy.aligned.reaches hr)
    rw [List.foldl_cons]
    refine ⟨hbusy.trans hrest, fun i hi => ?_⟩
    rcases List.mem_cons.mp hi with rfl | hi
    · exact ⟨tspec, data, hplaced.kept hrest.aligned.kept, hnum⟩
    · rw [← hbusy.aligned.peerNode]
      exact hall i hi

theorem Placed.held {n : Nat} {s t : State} (h : Holds n s t) {id type tspec node : Nat} {data : Bytes}
    (hp : Placed s n id type tspec node data) : Placed t n id type tspec node data := by
  obtain ⟨o, ho, horigin, hsame⟩ := hp
  exact ⟨o, h.kept o id horigin ho, horigin, hsame⟩

/-! ## MISSING (R402) -/

/-- The bursts of a MISSING stand in the sequences. -/
theorem takeMissing_sends {s : State} (hw : s.mem.waiting = []) {n : Nat} (hr : Reaches s n) {d : Desc} {c : Coll} {k : Packet}
    (hop : cOp d ≠ 0) (hfeeds : ccMember k ∈ collFeeds s n d) (hsent : ccMember k ∈ c.endSent) :
    Holds n s (takeMissing n d c k s) ∧ ∀ i, ccValue k ≤ i → i < ccValue k + ccCount2 k → i < bcTotal s d → ∃ tspec data,
      Placed (takeMissing n d c k s) n d.id 0x0C tspec (peerNode s n (ccMember k)) data ∧ leAt data 8 4 = i % 2 ^ 32 := by
  have hgo : (decide (cOp d = 0) || !(collFeeds s n d).contains (ccMember k) || !c.endSent.contains (ccMember k)) = false := by
    rw [decide_eq_false hop, List.contains_eq_mem, List.contains_eq_mem, decide_eq_true hfeeds, decide_eq_true hsent]
    rfl
  unfold takeMissing
  extract_lets m run u
  rw [hgo, if_neg (by decide)]
  have hu : Busy Coll.steady s u := .updColl (by intro; rfl) (by intro; rfl) ..
  clear_value u
  have hrun : ∀ i, ccValue k ≤ i → i < ccValue k + ccCount2 k → i < bcTotal s d → i ∈ run := fun i hlo hhi hi =>
    List.mem_filter.mpr ⟨List.mem_range.mpr hi, by rw [decide_eq_true hlo, decide_eq_true hhi]; rfl⟩
  clear_value run
  have hwu := hu.aligned.waiting.trans hw
  obtain ⟨hbusy, hall⟩ := bcSends_busy hwu (hu.aligned.reaches hr) d m run
  have hends := Holds.endsDue (hbusy.aligned.waiting.trans hwu) (hbusy.aligned.reaches (hu.aligned.reaches hr))
  refine ⟨((Holds.of_aligned hu.aligned).trans (.of_aligned hbusy.aligned)).trans hends, fun i hlo hhi hi => ?_⟩
  obtain ⟨tspec, data, hplaced, hnum⟩ := hall i (hrun i hlo hhi hi)
  rw [hu.aligned.peerNode] at hplaced
  exact ⟨tspec, data, hplaced.held hends, hnum⟩

theorem missing_sends {s : State} {p n : Nat} {k : Packet} (h : Admitted s p k n) (ht : k.type = 0x0D) (hvc : k.vc = 2) (hr : Reaches s n)
    {d : Desc} {c : Coll} (hsig : collBySig s n (ccSig k) = some (d, c)) (harm : c.phase = .armed) {i : Nat} (hsub : k.tspec = 4)
    (hop : cOp d ≠ 0) (hfeeds : ccMember k ∈ collFeeds s n d) (hsent : ccMember k ∈ c.endSent) (hlo : ccValue k ≤ i)
    (hhi : i < ccValue k + ccCount2 k) (hi : i < bcTotal s d) (hsmall : i < 2 ^ 32) : Does (.missing p k) s fun t =>
      Asks t fun q => q.type = 0x0C ∧ leAt q.payload 8 4 = i ∧ q.dst = peerNode s n (ccMember k) := by
  have htake : takeCollCtl p k n (entered p k s) = takeMissing n d c k (marked p k n d.id s) := by
    simp only [takeCollCtl, hsub]
    rw [withColl_entered hsig harm]
  have ha := Aligned.marked p k n d.id s
  generalize marked p k n d.id s = u at htake ha
  obtain ⟨hholds, hall⟩ := takeMissing_sends (ha.waiting.trans h.served) (ha.reaches hr) (c := c) hop (by rw [ha.collFeeds]; exact hfeeds) hsent
  obtain ⟨tspec, data, hplaced, hnum⟩ := hall i hlo hhi (by rw [ha.bcTotal]; exact hi)
  refine ctl_does h ht hvc rfl hsub (by rw [htake, hholds.parked, ha.parked]; exact h.parked) fun t hw => ?_
  rw [htake] at hw
  refine (hplaced.of_wire hw).asks fun q htype _ hdst hdata => ⟨htype, ?_, hdst.trans (ha.peerNode ..)⟩
  rw [hdata, hnum, Nat.mod_eq_of_lt hsmall]

end Sys2Proof.Machine
end
section
/-!
PROOFS. O40: DONE, RESULT and ABORT (R378, R402, R411): a collective ends with its code, and its root tells every member.
-/
namespace Sys2Proof.Machine

/-! ## A collective that ends outside a step (R411) -/

theorem ended_stands {s : State} (hw : s.mem.waiting = []) {n id : Nat} {c : Coll} {d : Desc} (hc : findColl s n id = some c)
    (hd : findDesc s id = some d) (hopen : c.open = true) (hp : d.phase = .started) (hcodes : d.codes = []) (hflag : bitOf (cFlags d) 1 = false)
    {st : Status} (hst : (if statusCompletes st then highestStatus [st] else st) = st) (first : Nat) :
    Stands (endColl n id st first s) id (.done st) ∧ (endColl n id st first s).fab.parked = s.fab.parked ∧
      findColl (endColl n id st first s) n id = none ∧ ∀ o, o.pkt.type ≠ 0x0C → Requested s o → Requested (endColl n id st first s) o := by
  obtain ⟨u, hu, hend⟩ := endColl_eq hw hc hd hopen (st := st) (by rw [hflag, Bool.and_false]) first
  obtain ⟨hdescs, htx, hparked, -⟩ := aside_eq_iff.1 hu
  have hud : findDesc u id = some d := by rw [findDesc, hdescs]; exact hd
  have hlive : d.live = true := by rw [Desc.live, hp]
  rw [if_neg (by rw [hp]; decide)] at hend
  rw [hend]
  refine ⟨⟨{ d with phase := .done st }, ?_, rfl⟩, hparked, ?_, fun o ho hs => ?_⟩
  · show findDesc (finishDesc id st u) id = _
    rw [findDesc_finishDesc, if_pos rfl, hud, Option.map_some, if_pos hlive, hcodes, hst]
  · rw [findColl, getPart_updPart, if_pos rfl]
    exact List.find?_eq_none.mpr fun c hc => by
      have hne := (List.mem_filter.mp hc).2
      rw [bne_iff_ne] at hne
      rw [beq_iff_eq]
      exact hne
  · have hdrop := requested_dropUnsent n id hs fun _ => ho
    exact hdrop.of_tx htx

/-! ## What follows an end leaves the descriptors alone (R246, R411) -/

theorem aside_lateResult (n : Nat) (k : Packet) (s : State) : aside (lateResult n k s) = aside s := by
  unfold lateResult
  split
  · exact (aside_postEvent ..).trans (aside_updPart ..)
  · rfl

theorem aside_tripLayer (n i count cause : Nat) (s : State) : aside (tripLayer n i count cause s) = aside s := aside_updPart ..

theorem aside_raiseCause (n bit : Nat) (s : State) : aside (raiseCause n bit s) = aside s := aside_updStep ..

theorem aside_govTrip (n i : Nat) (causes : List Nat) (ratio : Option Nat) (s : State) : aside (govTrip n i causes ratio s) = aside s := by
  unfold govTrip
  split
  · rfl
  · split
    · rfl
    next l _ =>
      extract_lets cause s1 s2 s3 a s4 s5 g s6
      have h2 : aside s2 = aside s := by
        dsimp only [s2]
        split
        · exact (aside_updGov ..).trans (aside_tripLayer ..)
        · exact aside_tripLayer ..
      have h4 : aside s4 = aside s :=
        (aside_setReg (ctx_off (by decide) (by decide) n) ..).trans ((aside_updGov ..).trans h2)
      split
      · exact (aside_govFlag ..).trans h4
      · split
        · exact (aside_updGov ..).trans h4
        next t _ =>
          split
          · have h5 : aside s5 = aside s := by
              dsimp only [s5]
              split
              · exact (aside_updGov ..).trans h4
              · exact h4
            have h6 : aside s6 = aside s := (aside_updGov ..).trans h5
            split
            · exact h5
            · split
              · exact h6
              · exact (aside_raiseCause ..).trans ((aside_govFlag ..).trans ((aside_updStep ..).trans h6))
          · exact (aside_govFlag ..).trans ((aside_updGov ..).trans h4)

theorem aside_govCollNan (n layer : Nat) (s : State) : aside (govCollNan n layer s) = aside s := by
  unfold govCollNan
  split
  · rfl
  · split
    · exact aside_govFlag ..
    · exact aside_govTrip ..

theorem aside_collTrips (n : Nat) (c : Coll) (d : Desc) (s : State) : aside (collTrips n c d s) = aside s :=
  List.foldlRecOn (motive := fun t => aside t = aside s) _ _ rfl fun _ ht _ _ => (aside_govCollNan ..).trans ht

theorem stands_of_aside {s t : State} (h : aside t = aside s) {id : Nat} {ph : DescPhase} (hs : Stands s id ph) : Stands t id ph := by
  obtain ⟨hdescs, -⟩ := aside_eq_iff.1 h
  rw [Stands, findDesc, hdescs]
  exact hs

theorem parked_of_aside {s t : State} (h : aside t = aside s) : t.fab.parked = s.fab.parked := by
  obtain ⟨-, -, hparked, -⟩ := aside_eq_iff.1 h
  exact hparked

theorem stands_of_wire {s t : State} (hw : wire t = wire s) {id : Nat} {ph : DescPhase} (hs : Stands s id ph) : Stands t id ph := by
  have hd : findDesc t id = findDesc s id := of_wire (fun t => findDesc t id) (fun _ => rfl) hw
  rw [Stands, hd]
  exact hs

theorem open_of_armed {c : Coll} (h : c.phase = .armed) : c.open = true := by rw [Coll.open, h]

/-- What a RESULT says of its collective. -/
def Coll.told (k : Packet) (c : Coll) : Coll := { c with nan := ccNan k, sat := ccSat k }

section
variable {s : State} {p n : Nat} {k : Packet} (h : Admitted s p k n) (ht : k.type = 0x0D) (hvc : k.vc = 2)
  {d : Desc} {c : Coll} (hsig : collBySig s n (ccSig k) = some (d, c)) (hc : findColl s n d.id = some c) (hd : findDesc s d.id = some d)
  (harm : c.phase = .armed) (hp : d.phase = .started) (hcodes : d.codes = []) (hflag : bitOf (cFlags d) 1 = false)
include h ht hvc hsig hc hd harm hp hcodes hflag

/-! ## ABORT (R407, R411) -/

theorem abort_ends (hsub : k.tspec = 7) (hroot : ownMember s n ≠ cRoot d) : Does (.abort p k) s fun t =>
    Stands t d.id (.done .collMismatch) ∧ findColl t n d.id = none := by
  have ha := Aligned.entered p k s
  have hnot : collIsRoot (entered p k s) n d = false := by rw [ha.collIsRoot, collIsRoot, beq_eq_false_iff_ne]; exact hroot
  have htake : takeCollCtl p k n (entered p k s) = endColl n d.id .collMismatch (ccFirst k) (entered p k s) := by
    simp only [takeCollCtl, hsub]
    unfold takeAbort
    rw [collBySig_entered, hsig]
    dsimp only
    rw [hnot, if_neg (by decide)]
  obtain ⟨hstands, hparked, hnone, -⟩ := ended_stands (ha.waiting.trans h.served) ((findColl_entered p k s n d.id).trans hc)
    ((ha.findDesc _).trans hd) (open_of_armed harm) hp hcodes hflag (st := .collMismatch) (by decide) (ccFirst k)
  rw [← htake] at hstands hparked hnone
  refine ctl_does h ht hvc rfl hsub (hparked.trans (ha.parked.trans h.parked)) fun t hw => ?_
  exact ⟨stands_of_wire hw hstands, (findColl_of_wire hw ..).trans hnone⟩

variable (hdeg : portDegraded s p k.flow = false) (hclean : c.degraded = false)
include hdeg hclean

/-! ## RESULT (R411) -/

theorem result_ends (hsub : k.tspec = 6) : (ccNan k = 0 → Does (.result p k) s fun t => Stands t d.id (.done .ok)) ∧
    (ccNan k ≠ 0 → Does (.result p k) s fun t => Stands t d.id (.done .collNan)) := by
  have htake : takeCollCtl p k n (entered p k s) = lateResult n k (takeResult n d c k (marked p k n d.id s)) := by
    simp only [takeCollCtl, hsub]
    rw [withColl_entered hsig harm]
  have ha : Aligned s (updColl n d.id (Coll.told k) (marked p k n d.id s)) := (Aligned.marked ..).trans (.updColl ..)
  have hfound : findColl (updColl n d.id (Coll.told k) (marked p k n d.id s)) n d.id = some ((c.met (portDegraded s p k.flow)).told k) :=
    findColl_updColl_self (by intro; rfl) (findColl_marked hc)
  have hdegraded : ((c.met (portDegraded s p k.flow)).told k).degraded = false := by
    show (c.degraded || portDegraded s p k.flow) = false
    rw [hdeg, hclean]
    rfl
  have hresult : takeResult n d c k (marked p k n d.id s) =
      if ccNan k = 0 then endColl n d.id .ok 0xFFFF (updColl n d.id (Coll.told k) (marked p k n d.id s))
      else collTrips n c d (endColl n d.id .collNan (ccFirst k) (updColl n d.id (Coll.told k) (marked p k n d.id s))) := by
    show (if ccNan k = 0 then endColl n d.id
        (if (findColl (updColl n d.id (Coll.told k) (marked p k n d.id s)) n d.id).any Coll.degraded then .linkDegraded else .ok) 0xFFFF
        (updColl n d.id (Coll.told k) (marked p k n d.id s))
      else collTrips n c d (endColl n d.id .collNan (ccFirst k) (updColl n d.id (Coll.told k) (marked p k n d.id s)))) = _
    rw [hfound, Option.any_some, hdegraded]
    rfl
  rw [hresult] at htake
  generalize updColl n d.id (Coll.told k) (marked p k n d.id s) = u at htake ha hfound
  have hend {st : Status} (hst : (if statusCompletes st then highestStatus [st] else st) = st) (first : Nat) :=
    ended_stands (ha.waiting.trans h.served) hfound ((ha.findDesc _).trans hd) (open_of_armed harm) hp hcodes hflag hst first
  constructor
  · intro hnan
    obtain ⟨hstands, hparked, -⟩ := hend (st := .ok) (by decide) 0xFFFF
    rw [if_pos hnan] at htake
    have hlate := aside_lateResult n k (endColl n d.id .ok 0xFFFF u)
    rw [← htake] at hlate
    refine ctl_does h ht hvc rfl hsub ((parked_of_aside hlate).trans (hparked.trans (ha.parked.trans h.parked))) fun t hw => ?_
    exact stands_of_wire hw (stands_of_aside hlate hstands)
  · intro hnan
    obtain ⟨hstands, hparked, -⟩ := hend (st := .collNan) (by decide) (ccFirst k)
    rw [if_neg hnan] at htake
    have hlate := (aside_lateResult n k _).trans (aside_collTrips n c d (endColl n d.id .collNan (ccFirst k) u))
    rw [← htake] at hlate
    refine ctl_does h ht hvc rfl hsub ((parked_of_aside hlate).trans (hparked.trans (ha.parked.trans h.parked))) fun t hw => ?_
    exact stands_of_wire hw (stands_of_aside hlate hstands)

end

/-! ## A root's RESULTs on whole ports (R371, R378) -/

/-- A destination's own port of a flow is UP and whole, and the flow is not on its way back. -/
def Whole (s : State) (node f : Nat) : Prop := destPort s node f = some f ∧ (getPort s f).width = 3 ∧ isReturning s node f = false

theorem Whole.aligned {s t : State} (h : Aligned s t) {node f : Nat} (hw : Whole s node f) : Whole t node f := by
  obtain ⟨hport, hwidth, hret⟩ := hw
  exact ⟨(h.destPort ..).trans hport, (congrArg Prod.snd (h.lanes f) :).trans hwidth, (h.isReturning ..).trans hret⟩

theorem onPort_whole {s : State} {o : Sent} (hw : Whole s o.pkt.dst o.pkt.flow) (hd : o.degraded = false) :
    (Sent.onPort s o).degraded = false := by
  obtain ⟨hport, hwidth, hret⟩ := hw
  have hsend : sendPort s o = some o.pkt.flow := by rw [sendPort, hret, Bool.false_and, if_neg (by decide), hport]
  unfold Sent.onPort
  rw [hsend]
  dsimp only
  rw [hd, portDegraded, hwidth, bne_self_eq_false]
  rfl

theorem parts_putOnPort {o : Sent} (hd : o.degraded = false) (s : State) : (putOnPort o s).parts = s.parts := by
  unfold putOnPort
  extract_lets u
  have hu : u = s := by
    dsimp only [u]
    split
    · rw [hd, if_neg (by decide)]
    · rfl
  rw [hu]
  split
  · exact of_wire State.parts (fun _ => rfl) (wire_portSend ..)
  · rfl

theorem parts_sendSeq {s : State} {o : Sent} (hdest : (getDest s o.pkt.dst).unreachable = false) (hw : Whole s o.pkt.dst o.pkt.flow)
    (hd : o.degraded = false) : (sendSeq o s).parts = s.parts := by
  unfold sendSeq
  dsimp only
  rw [hdest, if_neg (by decide)]
  split
  · unfold transmit
    extract_lets k t o'
    have hclean : o'.degraded = false := onPort_whole hw hd
    clear_value o'
    exact (parts_putOnPort hclean _).trans rfl
  · rfl

theorem flowOf_lt (a node : Nat) : flowOf a node < 8 := Nat.mod_lt _ (by decide)

theorem parts_collCtl {s : State} {n : Nat} (hr : Reaches s n) (d : Desc) (m sub status value first nan sat count2 : Nat)
    (hw : Whole s (peerNode s n m) (flowOf 0 (peerNode s n m))) : (collCtl n d m sub status value first nan sat count2 s).parts = s.parts := by
  obtain ⟨hpart, hjob, hdest⟩ := hr
  unfold collCtl
  extract_lets data node
  unfold sendReq
  extract_lets job st tag k w fab u
  have hu : u = s := rfl
  clear_value u
  subst hu
  rw [if_neg (by rw [Bool.or_eq_true, decide_eq_true_iff, decide_eq_true_iff]; exact not_or.mpr ⟨pos_of_partNums hpart, hjob⟩)]
  exact parts_sendSeq (o := w) (hdest _) hw rfl

/-- A root tells members on whole ports: every packet stands in the sequences, and no collective is marked. -/
theorem tellAll {s : State} {n : Nat} (hr : Reaches s n) (d : Desc) (sub status value first nan sat count2 : Nat) (l : List Nat)
    (hl : ∀ m ∈ l, Whole s (peerNode s n m) (flowOf 0 (peerNode s n m))) :
    let t := l.foldl (fun s m => collCtl n d m sub status value first nan sat count2 s) s
    Aligned s t ∧ t.parts = s.parts ∧ ∀ m ∈ l, ∃ data, Placed t n d.id 0x0D sub (peerNode s n m) data := by
  induction l generalizing s with
  | nil => exact ⟨.refl s, rfl, fun m hm => absurd hm List.not_mem_nil⟩
  | cons x l ih =>
    obtain ⟨hbusy, hplaced⟩ := collCtl_busy hr d x sub status value first nan sat count2
    have ha := hbusy.aligned
    have hparts := parts_collCtl hr d x sub status value first nan sat count2 (hl x List.mem_cons_self)
    obtain ⟨hrest, hrestParts, hall⟩ := ih (ha.reaches hr) fun m hm => by
      rw [ha.peerNode]
      exact (hl m (List.mem_cons_of_mem _ hm)).aligned ha
    refine ⟨ha.trans hrest, hrestParts.trans hparts, fun m hm => ?_⟩
    rcases List.mem_cons.mp hm with rfl | hm
    · exact ⟨_, hplaced.kept hrest.kept⟩
    · rw [← ha.peerNode]
      exact hall m hm

/-! ## DONE (R402) -/

/-- A DONE counted for its broadcast. -/
def Coll.hears (k : Packet) (c : Coll) : Coll :=
  { c with doneBy := if c.doneBy.contains (ccMember k) then c.doneBy else c.doneBy ++ [ccMember k] }

theorem mem_hears {k : Packet} {c : Coll} {o : Nat} : o ∈ (c.hears k).doneBy ↔ o = ccMember k ∨ o ∈ c.doneBy := by
  unfold Coll.hears
  dsimp only
  split
  next hin =>
    rw [List.contains_iff_mem] at hin
    exact ⟨.inr, fun ho => ho.elim (fun he => he ▸ hin) id⟩
  next => rw [List.mem_append, List.mem_singleton, or_comm]

theorem takeCollCtl_done {s : State} {p n : Nat} {k : Packet} {d : Desc} {c : Coll} (hsub : k.tspec = 5)
    (hsig : collBySig s n (ccSig k) = some (d, c)) (harm : c.phase = .armed) (hop : cOp d ≠ 0) (hroot : ownMember s n = cRoot d) :
    takeCollCtl p k n (entered p k s) = bcGo n d (updColl n d.id (Coll.hears k) (marked p k n d.id s)) := by
  have hme : collIsRoot (marked p k n d.id s) n d = true := by
    rw [(Aligned.marked p k n d.id s).collIsRoot, collIsRoot, hroot, beq_self_eq_true]
  simp only [takeCollCtl, hsub]
  rw [withColl_entered hsig harm, hme, decide_eq_false hop, Bool.not_true, Bool.or_self, if_neg (by decide)]
  rfl

/-- A root whose bursts have left sends its RESULTs once every member has said DONE, and waits before. -/
theorem bcGo_sent {s : State} {n : Nat} {d : Desc} {c : Coll} (hc : findColl s n d.id = some c) (harm : c.phase = .armed)
    (hroot : collIsRoot s n d = true) (hsent : c.sent ≠ 0) : bcGo n d s =
      if (othersOf s n (ownMember s n)).all c.doneBy.contains then sendResult n d s else s := by
  unfold bcGo
  rw [hc]
  dsimp only
  rw [harm, hroot, decide_eq_false hsent, Bool.false_and, if_neg (show ¬ (CollPhase.armed != CollPhase.armed || !true) = true by decide),
    if_neg Bool.false_ne_true]

/-- A root without NaNs and without a mark ends OK once its RESULTs have left. -/
theorem sendResult_clean {s : State} {n : Nat} {d : Desc} {c : Coll} (hc : findColl s n d.id = some c) (hnan : c.nan = 0)
    (hclean : c.degraded = false)
    (hparts : ((othersOf s n (ownMember s n)).foldl (fun s m => collCtl n d m 6 0 0 0xFFFF (satTo 32 c.nan) (satTo 32 c.sat) 0 s) s).parts = s.parts) :
    sendResult n d s = endColl n d.id .ok 0xFFFF
      ((othersOf s n (ownMember s n)).foldl (fun s m => collCtl n d m 6 0 0 0xFFFF (satTo 32 c.nan) (satTo 32 c.sat) 0 s) s) := by
  unfold sendResult
  rw [hc]
  dsimp only
  rw [hnan] at hparts ⊢
  rw [if_pos rfl, if_pos rfl]
  generalize (othersOf s n (ownMember s n)).foldl (fun s m => collCtl n d m 6 0 0 0xFFFF (satTo 32 0) (satTo 32 c.sat) 0 s) s = w at hparts ⊢
  have hfound : findColl w n d.id = some c := by
    rw [findColl, getPart, hparts]
    exact hc
  rw [hfound, Option.any_some, hclean]
  rfl

section
variable {s : State} {p n : Nat} {k : Packet} (h : Admitted s p k n) (ht : k.type = 0x0D) (hvc : k.vc = 2)
  {d : Desc} {c : Coll} (hsig : collBySig s n (ccSig k) = some (d, c)) (hc : findColl s n d.id = some c) (harm : c.phase = .armed)
  (hsub : k.tspec = 5) (hop : cOp d ≠ 0) (hroot : ownMember s n = cRoot d) (hsent : c.sent ≠ 0)
include h ht hvc hsig hc harm hsub hop hroot hsent

theorem done_counted {o : Nat} (ho : o ∈ othersOf s n (ownMember s n)) (hne : o ≠ ccMember k) (hnot : o ∉ c.doneBy) :
    Does (.done p k) s fun t => ∃ e, findColl t n d.id = some e ∧ e.phase = .armed ∧ ccMember k ∈ e.doneBy := by
  have htake := takeCollCtl_done (p := p) hsub hsig harm hop hroot
  have ha : Aligned s (updColl n d.id (Coll.hears k) (marked p k n d.id s)) := (Aligned.marked ..).trans (.updColl ..)
  have hfound : findColl (updColl n d.id (Coll.hears k) (marked p k n d.id s)) n d.id = some ((c.met (portDegraded s p k.flow)).hears k) :=
    findColl_updColl_self (by intro; rfl) (findColl_marked hc)
  generalize updColl n d.id (Coll.hears k) (marked p k n d.id s) = u at htake ha hfound
  have hwait : ((othersOf u n (ownMember u n)).all ((c.met (portDegraded s p k.flow)).hears k).doneBy.contains) = false := by
    rw [ha.ownMember, ha.othersOf, List.all_eq_false]
    refine ⟨o, ho, ?_⟩
    rw [List.contains_iff_mem, mem_hears]
    exact not_or.mpr ⟨hne, hnot⟩
  rw [bcGo_sent hfound harm (by rw [ha.collIsRoot, collIsRoot, hroot, beq_self_eq_true]) hsent, hwait, if_neg (by decide)] at htake
  refine ctl_aligned h ht hvc rfl hsub (by rw [htake]; exact ha) fun t hw => ?_
  rw [htake] at hw
  exact ⟨_, (findColl_of_wire hw ..).trans hfound, harm, mem_hears.mpr (.inl rfl)⟩

theorem done_ends (hr : Reaches s n) (hd : findDesc s d.id = some d) (hp : d.phase = .started) (hcodes : d.codes = [])
    (hflag : bitOf (cFlags d) 1 = false) (hdeg : portDegraded s p k.flow = false) (hclean : c.degraded = false) (hnan : c.nan = 0)
    (hall : ∀ o ∈ othersOf s n (ownMember s n), o = ccMember k ∨ o ∈ c.doneBy)
    (hwhole : ∀ o ∈ othersOf s n (ownMember s n), ∀ f < 8, Whole s (peerNode s n o) f) :
    Does (.done p k) s fun t => Stands t d.id (.done .ok) ∧
      ∀ o ∈ othersOf s n (ownMember s n), Asks t fun q => q.type = 0x0D ∧ q.tspec = 6 ∧ q.dst = peerNode s n o := by
  have htake := takeCollCtl_done (p := p) hsub hsig harm hop hroot
  have ha : Aligned s (updColl n d.id (Coll.hears k) (marked p k n d.id s)) := (Aligned.marked ..).trans (.updColl ..)
  have hfound : findColl (updColl n d.id (Coll.hears k) (marked p k n d.id s)) n d.id = some ((c.met (portDegraded s p k.flow)).hears k) :=
    findColl_updColl_self (by intro; rfl) (findColl_marked hc)
  have hunmarked : ((c.met (portDegraded s p k.flow)).hears k).degraded = false := by
    show (c.degraded || portDegraded s p k.flow) = false
    rw [hdeg, hclean]
    rfl
  have hnone : ((c.met (portDegraded s p k.flow)).hears k).nan = 0 := hnan
  generalize updColl n d.id (Coll.hears k) (marked p k n d.id s) = u at htake ha hfound
  have hothers : othersOf u n (ownMember u n) = othersOf s n (ownMember s n) := by rw [ha.ownMember, ha.othersOf]
  have hready : ((othersOf u n (ownMember u n)).all ((c.met (portDegraded s p k.flow)).hears k).doneBy.contains) = true := by
    rw [hothers, List.all_eq_true]
    intro o ho
    rw [List.contains_iff_mem, mem_hears]
    exact hall o ho
  rw [bcGo_sent hfound harm (by rw [ha.collIsRoot, collIsRoot, hroot, beq_self_eq_true]) hsent, hready, if_pos rfl] at htake
  obtain ⟨hsentAll, hparts, hplaced⟩ := tellAll (ha.reaches hr) d 6 0 0 0xFFFF (satTo 32 ((c.met (portDegraded s p k.flow)).hears k).nan)
    (satTo 32 ((c.met (portDegraded s p k.flow)).hears k).sat) 0 (othersOf u n (ownMember u n)) fun m hm => by
      rw [hothers] at hm
      rw [ha.peerNode]
      exact (hwhole m hm _ (flowOf_lt ..)).aligned ha
  rw [sendResult_clean hfound hnone hunmarked hparts] at htake
  have hfoundAll := hfound
  rw [findColl, getPart, ← hparts, ← getPart, ← findColl] at hfoundAll
  generalize (othersOf u n (ownMember u n)).foldl (fun s m => collCtl n d m 6 0 0 0xFFFF
    (satTo 32 ((c.met (portDegraded s p k.flow)).hears k).nan) (satTo 32 ((c.met (portDegraded s p k.flow)).hears k).sat) 0 s) u = w
    at htake hsentAll hplaced hfoundAll
  have haw := ha.trans hsentAll
  obtain ⟨hstands, hparked, -, hkept⟩ := ended_stands (haw.waiting.trans h.served) hfoundAll ((haw.findDesc _).trans hd) (open_of_armed harm) hp
    hcodes hflag (st := .ok) (by decide) 0xFFFF
  rw [← htake] at hstands hparked hkept
  refine ctl_does h ht hvc rfl hsub (hparked.trans (haw.parked.trans h.parked)) fun t hw => ⟨stands_of_wire hw hstands, fun o ho => ?_⟩
  obtain ⟨data, q, hq, horigin, htype, htspec, hdst, hdata⟩ := hplaced o (by rw [hothers]; exact ho)
  have hend := hkept q (by rw [htype]; decide) hq
  have hafter : Placed t n d.id 0x0D 6 (peerNode u n o) data := Placed.of_wire hw ⟨q, hend, horigin, htype, htspec, hdst, hdata⟩
  exact hafter.asks fun q htype htspec hdst _ => ⟨htype, htspec, hdst.trans (ha.peerNode ..)⟩

end

/-- Settles O40. A COLL_CTL packet that is admitted meets its collective as it stood (`ctl_does`); what a collective sends leaves all but
its own progress alone (`Busy`), and its requests stand even while other partitions' collectives end (`Holds`); a collective that ends
outside a step is reported with its code (`ended_stands`). -/
theorem collectiveMessages : Obligations.CollectiveMessages := by
  unfold Obligations.CollectiveMessages
  intro s p n k h ht hvc hr
  refine ⟨fun hsub hnone => join_early h ht hvc hsub hnone, ?_, ?_⟩
  · intro d c hsub hopen harm hsig hpast hawait hnew hroot
    exact join_mismatch h ht hvc hr hsub hopen harm hsig hpast hawait hnew hroot
  · intro d c hsig hc hd harm still plain
    refine ⟨?_, ?_, ?_, ?_, ?_, ?_, ?_, ?_, ?_⟩
    · intro hsub hop hawait hnew hgot hsent htotal
      exact join_taken h ht hvc hr hsub hsig hc harm hop hawait hnew hgot hsent htotal
    · intro hsub hop hrec
      exact window_leaf h ht hvc hr hsig hc harm hsub hop hrec
    · intro hsub hop hrec hroot halone hsent htotal hwindow
      exact window_podRoot h ht hvc hr hsig hc harm hsub hop hrec hroot halone hsent htotal hwindow
    · intro hsub hop
      exact end_noted h ht hvc hr hsig hc harm hsub hop
    · intro i hsub hop hfeeds hsent hlo hhi hi hsmall
      exact missing_sends h ht hvc hr hsig harm hsub hop hfeeds hsent hlo hhi hi hsmall
    · intro o hsub hop hroot hsent ho hne hnot
      exact done_counted h ht hvc hsig hc harm hsub hop hroot hsent ho hne hnot
    · rintro hsub hop hroot hsent hall ⟨hp, hcodes, hflag, hdeg, hclean⟩ hnan hwhole
      exact done_ends h ht hvc hsig hc harm hsub hop hroot hsent hr hd hp hcodes hflag hdeg hclean hnan hall hwhole
    · rintro hsub ⟨hp, hcodes, hflag, hdeg, hclean⟩
      exact result_ends h ht hvc hsig hc hd harm hp hcodes hflag hdeg hclean hsub
    · rintro hsub ⟨hp, hcodes, hflag, -, -⟩ hroot
      exact abort_ends h ht hvc hsig hc hd harm hp hcodes hflag hsub hroot

end Sys2Proof.Machine
end

section
/-!
PROOFS. Fabric time (R380): the statement of it says of ports 0 to 7 only that none other is UP, and the model holds a present source
of any number.
-/
namespace Sys2Proof.Machine

/-- Port 0 in UP; the present source of fabric time is a port of a number that no port has, UP, with TIME_OK and 5 µs ahead. -/
def farSource : State :=
  { fab := { source := some 9, ports := [(0, { st := .up }), (9, { st := .up, timeOk := true, offset := 5000 })] } }

/-- The source stays: port 9 is good and more than 1 µs from port 0, whose time does not slew the device's. -/
theorem time_keeps_farSource :
    (match exec (.time 0 0 500 0 0 0) farSource with | .next t => decide (t.fab.slew = 500) | _ => true) = false := by
  decide +kernel

/-- Refutes O33: port 0 is the only one of the eight ports that is UP, yet the present source is port 9 of `farSource`, which a TIME flit
at port 0 with an offset of 500 ns does not replace; so the flit does not slew fabric time. -/
theorem not_fabricTime : ¬ Obligations.FabricTime := by
  unfold Obligations.FabricTime
  intro h
  obtain ⟨-, -, -, htime, -⟩ := h farSource 0 0
  obtain ⟨t, ht, -, hs⟩ := ((htime (by decide) (by decide) (by decide) 500 0 0).2 (by decide)).1 (by decide) (by decide)
  have hkept := time_keeps_farSource
  rw [ht] at hkept
  exact absurd (decide_eq_false_iff_not.mp hkept) (fun c => c (hs.trans (by decide)))

end Sys2Proof.Machine
end

section
/-!
PROOFS. The time-out of a request (R373). A flow on its way back stays on the port of its request while that port is UP (R371); the
statement does not say that this port is one of the eight, and the model sends on ports 0 to 7 only.
-/
namespace Sys2Proof.Machine

/-- A request of flow 0 whose port has a number that no port has. -/
def farRequest : Sent :=
  { psn := 0, pkt := replyStub 0 0 0 0 0 0, origin := .none, dest := 0, port := 9, held := none, degraded := false }

/-- That port is UP, the flow is on its way back, and the request is open. -/
def farPort : State :=
  { fab := { ports := [(9, { st := .up })], returning := [0], tx := [(0, { unacked := [farRequest] })] } }

/-- Nothing leaves the device and nothing waits at the port. -/
theorem ackTimeout_farPort_sends_nothing : (match exec (.ackTimeout 40000 0 0 0) farPort with
    | .next t => decide (t.out = [] ∧ (getPort t 9).queue = []) | _ => false) = true := by
  decide +kernel

/-- Refutes O38: the request of `farPort` times out on the port on which it is sent, and is not sent again. -/
theorem not_packetTimers : ¬ Obligations.PacketTimers := by
  unfold Obligations.PacketTimers
  rintro ⟨-, htimeout, -⟩
  obtain ⟨hresent, -⟩ := htimeout farPort 40000 0 0 0 9 farRequest (by decide) (by decide) (by decide) rfl (by decide +kernel) (by decide)
    rfl rfl
  obtain ⟨t, ht, ⟨k, hsent, -⟩, -⟩ := hresent (by decide)
  have hnothing := ackTimeout_farPort_sends_nothing
  rw [ht] at hnothing
  obtain ⟨hout, hqueue⟩ := of_decide_eq_true hnothing
  rw [hout, hqueue] at hsent
  rcases hsent with hsent | hsent <;> cases hsent

end Sys2Proof.Machine
end

section
/-!
PROOFS. The arming of a collective (R405, R407). A member forms its level-0 sum before it sends its JOIN, and reads its source for it; a
write that waits for the source's line is carried out first (R296, R303). The statement takes the peer table as it was before.
-/
namespace Sys2Proof.Machine

/-- A reduction of one element with member 1 as its root; its source lies at address 0, as the peer table does. -/
def reduceOne : Desc :=
  { id := 0, fn := 1, ring := 0, generation := 0, jseq := 0
    bytes := [0x20] ++ zeros 17 ++ [1] ++ zeros 9 ++ [1] ++ zeros 27 ++ [1] ++ zeros 7, accepted := 0, phase := .started }

/-- A write that names node 5 as member 1 waits for tokens. -/
def peerWriteWaits : State :=
  { parts := [(1, { st := .started, colls := [{ id := 0 }] })], descs := [reduceOne], regs := [(ctx bGzlCtx 1 0, 1)]
    mem := { waiting := [{ req := { part := 1, group := 0, addr := 0, hint := 0 }, place := 0, kind := 1, data := [0, 0, 5, 0] }] } }

/-- The only request that leaves goes to node 5. -/
theorem collectiveArm_peerWriteWaits_dst : (match exec (.collectiveArm 77 0) peerWriteWaits with
    | .next t => decide (t.fab.tx.all fun e => (e.2.unacked ++ e.2.waitingQ).all fun o => o.pkt.dst == 5) | _ => false) = true := by
  decide +kernel

/-- Refutes O39: member 1 is node 0 in the peer table of `peerWriteWaits` and node 5 when the JOIN leaves. -/
theorem not_collectiveStarts : ¬ Obligations.CollectiveStarts := by
  unfold Obligations.CollectiveStarts
  rintro ⟨-, harm, -⟩
  obtain ⟨t, ht, -, e, he, o, ho, -, -, -, -, hdst⟩ := harm peerWriteWaits 77 0 reduceOne { id := 0 } rfl (by decide) rfl rfl (by decide)
    (by decide +kernel) (by decide +kernel) (by decide +kernel) (by decide +kernel) (by decide +kernel)
    ⟨by decide, by decide +kernel, fun _ => rfl⟩ (by decide +kernel)
  have hfive := collectiveArm_peerWriteWaits_dst
  rw [ht] at hfive
  have hnode := List.all_eq_true.mp (List.all_eq_true.mp (of_decide_eq_true hfive) e he) o ho
  rw [beq_iff_eq, hdst] at hnode
  exact absurd hnode (by decide +kernel)

end Sys2Proof.Machine
end

section
/-!
PROOFS. An INGEST_SUBMIT of no samples completes at once (R420) with the highest completing code that applies (R13). The statement says
that it ends with what its checks answer, OK, and not that no other code is noted for it.
-/
namespace Sys2Proof.Machine

/-- An INGEST_SUBMIT of no samples, whose job block is misaligned, with OK_RETRIED noted. -/
def noSamples : Desc :=
  { id := 0, fn := 1, ring := 0, generation := 0, jseq := 0, bytes := [0x18] ++ zeros 15 ++ [1] ++ zeros 47, accepted := 0
    codes := [.okRetried] }

/-- Its partition has a decode pipe. -/
def noSamplesState : State := { parts := [(1, { pipes := 1 })], descs := [noSamples] }

theorem ingestSubmit_noSamples_phase : (match exec (.ingestSubmit 0) noSamplesState with
    | .next t => decide (t.descs.map Desc.phase = [.done .okRetried]) | _ => false) = true := by
  decide +kernel

/-- Refutes O42: the checks answer OK for `noSamples`, and it ends OK_RETRIED. -/
theorem not_ingestJobs : ¬ Obligations.IngestJobs := by
  unfold Obligations.IngestJobs
  rintro ⟨hsubmit, -⟩
  obtain ⟨-, -, hcheck, -⟩ := hsubmit noSamplesState 0 noSamples ⟨rfl, rfl, by decide, by decide⟩
  obtain ⟨t, ht, ⟨d, hd, hphase⟩, -⟩ := hcheck .ok (by decide +kernel)
  have hends := ingestSubmit_noSamples_phase
  rw [ht] at hends
  have hmem : d.phase ∈ t.descs.map Desc.phase := List.mem_map_of_mem (List.mem_of_find?_eq_some hd)
  rw [of_decide_eq_true hends, hphase] at hmem
  simp at hmem

end Sys2Proof.Machine
end

section
/-!
PROOFS. An access through BAR4 (R448) to a line that a request waits for comes after that request (R296, R303): what waited is carried
out first. The statement says that a read through BAR4 changes no byte of memory.
-/
namespace Sys2Proof.Machine

/-- A write of the byte 1 at address 0 waits for tokens. -/
def writeWaits : State :=
  { mem := { waiting := [{ req := { part := 0, group := 0, addr := 0, hint := 0 }, place := 0, kind := 1, data := [1] }] } }

/-- A read through BAR4 at the write's line carries the write out. -/
theorem bar4Read_writeWaits_byte : (match exec (.bar4Read 0 0 1) writeWaits with
    | .next t => decide (memByte t 0 = memByte writeWaits 0) | _ => true) = false := by
  decide +kernel

/-- Refutes O47: PF0 reads the byte at address 0 of `writeWaits` through BAR4, and the byte changes. -/
theorem not_bar4Accesses : ¬ Obligations.Bar4Accesses := by
  unfold Obligations.Bar4Accesses
  intro h
  obtain ⟨hread, -⟩ := h writeWaits 0 0 [0] (by decide +kernel) (by decide) (by decide) (by decide)
  obtain ⟨t, (ht : exec (.bar4Read 0 0 1) writeWaits = .next t), -, hbytes⟩ := hread (by decide +kernel) (by decide +kernel)
  have hkept := bar4Read_writeWaits_byte
  rw [ht] at hkept
  exact decide_eq_false_iff_not.mp hkept (hbytes 0)

end Sys2Proof.Machine
end

section
/-!
PROOFS. A warm reset (R486) that ends a collective writes its COLLECTIVE record; a read that waits for tokens at the record's line is
served before it (R296), and its reread leaves a code at the descriptor that it covers (R309). The statement says that a warm reset
changes a descriptor by its phase alone.
-/
namespace Sys2Proof.Machine

/-- A COLLECTIVE of partition 1 that is armed, and a START_STREAM of its group 0 that has started; a read of the group waits for tokens
at the line of the collective's record, and will be reread. -/
def recordWaits : State :=
  { parts := [(1, { st := .started, colls := [{ id := 0 }] })]
    descs := [{ id := 0, fn := 1, ring := 1, generation := 0, jseq := 1, bytes := [0x20], accepted := 0, phase := .started },
              { id := 1, fn := 1, ring := 1, generation := 0, jseq := 2, bytes := [0x02], accepted := 0, phase := .started }]
    mem := { waiting := [{ req := { part := 1, group := 0, addr := 0, hint := 0 }, place := 0, kind := 0, err := .rereadOk }] } }

/-- The warm reset leaves OK_RETRIED at the START_STREAM. -/
theorem warmReset_recordWaits_codes : (match exec (.prtWarmReset 0 0xA5000100) recordWaits with
    | .next t => decide (t.descs.map Desc.codes = [[], []]) | _ => true) = false := by
  decide +kernel

/-- Refutes O50: the keyed warm reset of `recordWaits` changes the codes of a descriptor, not its phase alone. -/
theorem not_resets : ¬ Obligations.Resets := by
  unfold Obligations.Resets
  intro h
  obtain ⟨-, hwarm, -⟩ := h.1 recordWaits 0xA5000100 (by decide)
  obtain ⟨t, ht, ⟨-, -, -, -, -, -, hdescs⟩, -⟩ := (hwarm (by decide) (by decide)).2 (by decide)
  have hcodes : t.descs.map Desc.codes = [[], []] := by rw [hdescs]; decide
  have hkept := warmReset_recordWaits_codes
  rw [ht] at hkept
  exact decide_eq_false_iff_not.mp hkept hcodes

end Sys2Proof.Machine
end
